-- ==== Sys2Proof/Word.lean ====
section
/-! DEFINITION. The word types of the Velell X8 and the shape of sparse state: a register file, a memory or a table is a
list of (key, value) pairs in one canonical form (keys strictly rising, no entry equal to what an unlisted key reads as). -/

namespace Sys2Proof

/-- One byte (00 R6). -/
abbrev Byte := BitVec 8

/-- A scalar or system register (02 R38, R56). -/
abbrev Word := BitVec 64

/-- One vector register: 4096 bytes, byte i is bits [8i+7:8i] (02 R40, 00 R6). -/
abbrev VReg := BitVec 32768

/-- One row of an accumulator tile: 128 FP32 elements, element j is bits [32j+31:32j] (02 R48). -/
abbrev Row := BitVec 4096

/-- A table from Nat keys; the canonical form is `SMap.wf` of Machine/Store.lean. -/
abbrev SMap (α : Type) := List (Nat × α)

end Sys2Proof
end

