-- ==== Sys2Proof/Syntax.lean ====
section
/-! DEFINITION. The steps of the Velell X8: one constructor per row of spec/opcode_table.json. The instruction words of Table
4.7 carry their operand fields as 04 R89 cuts them; the others are the events of the engines, the dispatcher, the directory,
the fabric, the host and Boxwood. An event names its subject by arguments, or, for the constructors that come last, by the
field `inp` of the state (Lean compiles at most 245 constructors with arguments). IDLE, POP and PUSH belong to every word
alike and stand in `Hdr`, not here. -/

namespace Sys2Proof

/-- The four sequencers of a core (02 R34). -/
inductive Seq where
  | c | l | x | s
  deriving DecidableEq, Repr

/-- IDLE, POP and PUSH of an instruction word (04 R85). -/
structure Hdr where
  idle : BitVec 10
  pop : BitVec 2
  push : BitVec 2
  deriving DecidableEq, Repr

/-- A scalar-register field (04 R90). -/
abbrev RegF := BitVec 6
/-- A vector operand field (04 R91). -/
abbrev VOpF := BitVec 10
/-- A predicate field (04 R93). -/
abbrev PredF := BitVec 5
/-- A type field (04 R94). -/
abbrev TyF := BitVec 5
/-- A branch target or loop end (04 R89). -/
abbrev Tgt := BitVec 14

/-- The parts of K that order an access (04 R95). -/
structure Ordr where
  scope : BitVec 3
  ord : BitVec 2
  deriving DecidableEq, Repr

inductive Instr where
  -- 0x008-0x021, format SR (05 R111)
  | add (d a b : RegF)
  | sub (d a b : RegF)
  | mul (d a b : RegF)
  | mulhi (d a b : RegF)
  | mulhu (d a b : RegF)
  | and (d a b : RegF)
  | or (d a b : RegF)
  | xor (d a b : RegF)
  | andn (d a b : RegF)
  | shl (d a b : RegF)
  | shr (d a b : RegF)
  | sra (d a b : RegF)
  | min (d a b : RegF)
  | max (d a b : RegF)
  | minu (d a b : RegF)
  | maxu (d a b : RegF)
  | clmul (d a b : RegF)
  | clmulh (d a b : RegF)
  | popc (d a : RegF)
  | clz (d a : RegF)
  | ctz (d a : RegF)
  | sel (d a b : RegF)
  | seq (d a b : RegF)
  | slt (d a b : RegF)
  | sltu (d a b : RegF)
  | mov (d a : RegF)
  -- 0x028-0x030, format SI (05 R112)
  | addi (d : RegF) (imm : BitVec 32)
  | andi (d : RegF) (imm : BitVec 32)
  | ori (d : RegF) (imm : BitVec 32)
  | xori (d : RegF) (imm : BitVec 32)
  | shli (d : RegF) (imm : BitVec 32)
  | shri (d : RegF) (imm : BitVec 32)
  | srai (d : RegF) (imm : BitVec 32)
  | li (d : RegF) (imm : BitVec 32)
  | lih (d : RegF) (imm : BitVec 32)
  -- 0x038-0x045, format BR (05 R115, R116, R118)
  | beq (a b : RegF) (tgt : Tgt)
  | bne (a b : RegF) (tgt : Tgt)
  | blt (a b : RegF) (tgt : Tgt)
  | bge (a b : RegF) (tgt : Tgt)
  | bltu (a b : RegF) (tgt : Tgt)
  | bgeu (a b : RegF) (tgt : Tgt)
  | bz (a : RegF) (tgt : Tgt)
  | bnz (a : RegF) (tgt : Tgt)
  | jmp (tgt : Tgt)
  | jmpr (a : RegF)
  | call (tgt : Tgt)
  | callr (a : RegF)
  | beng (eng cond : RegF) (tgt : Tgt)
  -- 0x048-0x049, format LP (05 R123)
  | loop (lc : BitVec 2) (a : RegF) (last : Tgt)
  | loopi (lc : BitVec 2) (icnt : BitVec 18) (last : Tgt)
  -- 0x050-0x057, format SY (05 R126-R134)
  | mfsr (d : RegF) (sel : BitVec 10)
  | mtsr (d : RegF) (sel : BitVec 10)
  | rdstc (d : RegF)
  | rdstcT0 (d : RegF)
  | rdeng (d : RegF) (eng : BitVec 10)
  | trap (code : BitVec 10)
  -- 0x100-0x10F, format V3, FP class (06 R142)
  | vadd (d a b : VOpF) (p : PredF) (ty : TyF)
  | vsub (d a b : VOpF) (p : PredF) (ty : TyF)
  | vmul (d a b : VOpF) (p : PredF) (ty : TyF)
  | vdiv (d a b : VOpF) (p : PredF) (ty : TyF)
  | vfma (d a b : VOpF) (p : PredF) (ty : TyF)
  | vfms (d a b : VOpF) (p : PredF) (ty : TyF)
  | vfnma (d a b : VOpF) (p : PredF) (ty : TyF)
  | vfnms (d a b : VOpF) (p : PredF) (ty : TyF)
  | vmin (d a b : VOpF) (p : PredF) (ty : TyF)
  | vmax (d a b : VOpF) (p : PredF) (ty : TyF)
  | vabs (d a : VOpF) (p : PredF) (ty : TyF)
  | vneg (d a : VOpF) (p : PredF) (ty : TyF)
  | vsqrt (d a : VOpF) (p : PredF) (ty : TyF)
  | vrcp (d a : VOpF) (p : PredF) (ty : TyF)
  | vrsqrt (d a : VOpF) (p : PredF) (ty : TyF)
  | vclass (d a : VOpF) (p : PredF) (ty : TyF)
  -- 0x110-0x114 (06 R145)
  | vexp (d a : VOpF) (p : PredF) (ty : TyF)
  | vexp2 (d a : VOpF) (p : PredF) (ty : TyF)
  | vlog (d a : VOpF) (p : PredF) (ty : TyF)
  | vlog2 (d a : VOpF) (p : PredF) (ty : TyF)
  | verf (d a : VOpF) (p : PredF) (ty : TyF)
  -- 0x118-0x125, Int class (06 R146)
  | viadd (d a b : VOpF) (p : PredF) (ty : TyF)
  | visub (d a b : VOpF) (p : PredF) (ty : TyF)
  | vimul (d a b : VOpF) (p : PredF) (ty : TyF)
  | vimulh (d a b : VOpF) (p : PredF) (ty : TyF)
  | viand (d a b : VOpF) (p : PredF) (ty : TyF)
  | vior (d a b : VOpF) (p : PredF) (ty : TyF)
  | vixor (d a b : VOpF) (p : PredF) (ty : TyF)
  | vishl (d a b : VOpF) (p : PredF) (ty : TyF)
  | vishr (d a b : VOpF) (p : PredF) (ty : TyF)
  | visra (d a b : VOpF) (p : PredF) (ty : TyF)
  | vimin (d a b : VOpF) (p : PredF) (ty : TyF)
  | vimax (d a b : VOpF) (p : PredF) (ty : TyF)
  | viabs (d a : VOpF) (p : PredF) (ty : TyF)
  | vpopc (d a : VOpF) (p : PredF) (ty : TyF)
  -- 0x128-0x131, format VK (06 R148)
  | vrotr (d a : VOpF) (k : BitVec 10) (p : PredF) (ty : TyF)
  | vrotc (d a : VOpF) (k : BitVec 10) (p : PredF) (ty : TyF)
  | vbcr (d a : VOpF) (k : BitVec 10) (p : PredF) (ty : TyF)
  | vbcc (d a : VOpF) (k : BitVec 10) (p : PredF) (ty : TyF)
  | vredr (d a : VOpF) (k : BitVec 10) (p : PredF) (ty : TyF)
  | vredc (d a : VOpF) (k : BitVec 10) (p : PredF) (ty : TyF)
  | vprer (d a : VOpF) (k : BitVec 10) (p : PredF) (ty : TyF)
  | vprec (d a : VOpF) (k : BitVec 10) (p : PredF) (ty : TyF)
  | vpxorr (d a : VOpF) (k : BitVec 10) (ty : TyF)
  | vpxorc (d a : VOpF) (ty : TyF)
  -- 0x138-0x13C (06 R153)
  | vperm (d a b : VOpF) (p : PredF) (ty : TyF)
  | vsel (d a b : VOpF) (p : PredF) (ty : TyF)
  | vmov (d a : VOpF) (p : PredF) (ty : TyF)
  | vzip (d a b : VOpF) (p : PredF) (ty : TyF)
  | vunzip (d a b : VOpF) (p : PredF) (ty : TyF)
  -- 0x140-0x146 (06 R147)
  | vcmpeq (d a b : VOpF) (p : PredF) (ty : TyF)
  | vcmpne (d a b : VOpF) (p : PredF) (ty : TyF)
  | vcmplt (d a b : VOpF) (p : PredF) (ty : TyF)
  | vcmple (d a b : VOpF) (p : PredF) (ty : TyF)
  | vicmpeq (d a b : VOpF) (p : PredF) (ty : TyF)
  | vicmplt (d a b : VOpF) (p : PredF) (ty : TyF)
  | vicmple (d a b : VOpF) (p : PredF) (ty : TyF)
  -- 0x148-0x151 (06 R154-R158)
  | pset (pd : BitVec 3) (count : BitVec 13) (width : BitVec 2) (group : BitVec 3)
  | pcnt (pd a : VOpF) (g : BitVec 3) (w : BitVec 2)
  | pfirst (pd a : VOpF) (g : BitVec 3) (w : BitVec 2)
  | mpush (a : VOpF) (skip : BitVec 10) (w : BitVec 2)
  | minv (skip : BitVec 10)
  | spset (mask : BitVec 8)
  | spshl (bit rrb : BitVec 1)
  | rrbset (base : BitVec 10)
  -- 0x158-0x15E (06 R159-R162)
  | vcvt (d a : VOpF) (spec : BitVec 10) (p : PredF) (ty : TyF)
  | vpk8 (d a e : VOpF) (ty : TyF)
  | vpk4 (d a e : VOpF) (ty : TyF)
  | vupk8 (d a e : VOpF) (part : BitVec 2)
  | vupk4 (d a e : VOpF) (part : BitVec 2)
  | vpk8x (d a e : VOpF) (ty : TyF)
  | vpk4x (d a e : VOpF) (ty : TyF)
  -- 0x160-0x162 (06 R163-R165)
  | vflrd (d : VOpF) (p : PredF)
  | vflclr (mask : BitVec 5) (p : PredF)
  | vrand (d a : VOpF) (p : PredF) (key : BitVec 2)
  -- 0x200-0x20D (07 R169, R171)
  | fpush (a : RegF)
  | mma (t : RegF) (at_ : BitVec 32)
  | scnt (bank : BitVec 1) (at_ : BitVec 32)
  | mholdOn (bank : BitVec 1) (at_ : BitVec 32)
  | mholdOff (bank : BitVec 1) (at_ : BitVec 32)
  | mdrain (bank : BitVec 1) (t : RegF) (at_ : BitVec 32)
  | mmerge (bank : BitVec 1) (at_ : BitVec 32)
  | bsave (bank : BitVec 1) (at_ : BitVec 32)
  | bload (bank : BitVec 1) (at_ : BitVec 32)
  | azero (t : RegF) (at_ : BitVec 32)
  | aload (wide : BitVec 1) (t : RegF) (at_ : BitVec 32)
  | astore (wide : BitVec 1) (t : RegF) (at_ : BitVec 32)
  | wcvt (t : RegF) (at_ : BitVec 32)
  | wzero (t : RegF) (at_ : BitVec 32)
  | ckctlOn (at_ : BitVec 32)
  | ckctlDetect (at_ : BitVec 32)
  | ckctlOff (at_ : BitVec 32)
  -- 0x20E-0x213 (07 R179, R193, R197)
  | ringset (rg : BitVec 4) (a b : RegF)
  | ringadv (rg : BitVec 4) (a : RegF)
  | ringpop (rg : BitVec 4) (n : RegF)
  | a2v (v : VOpF) (t : RegF) (rb : BitVec 3) (ch : BitVec 1) (p : PredF)
  | v2a (v : VOpF) (t : RegF) (rb : BitVec 3) (ch : BitVec 1) (p : PredF)
  | ckrd (v : VOpF)
  -- 0x280-0x28C, format MEM (08 R205)
  | ldspm (q : RegF) (base idx : BitVec 5) (off : BitVec 24)
  | lddram (q : RegF) (base idx : BitVec 5) (off : BitVec 24)
  | ldgath (q : RegF) (base idx : BitVec 5) (off : BitVec 24)
  | ldrg (q : RegF) (base idx : BitVec 5) (rg : BitVec 4) (pop : BitVec 1)
  | ldscal (q : RegF) (base idx : BitVec 5) (off : BitVec 24)
  | ldbc (q : RegF) (base idx : BitVec 5) (off : BitVec 24)
  | pref (base idx : BitVec 5) (off : BitVec 24)
  | stspm (q : RegF) (base idx : BitVec 5) (off : BitVec 24)
  | stdram (q : RegF) (base idx : BitVec 5) (off : BitVec 24)
  | stscat (q : RegF) (base idx : BitVec 5) (off : BitVec 24)
  | strg (q : RegF) (base idx : BitVec 5) (rg : BitVec 4) (adv : BitVec 1)
  | stscal (q : RegF) (base idx : BitVec 5) (off : BitVec 24)
  -- 0x290-0x2BC, format TK (08 R212-R238)
  | qmark (tag : BitVec 8)
  | copy (d a b c : RegF) (tag : BitVec 6) (shadow sspm dspm : BitVec 1)
  | copyw (d a b c : RegF) (tag : BitVec 6) (shadow sspm dspm : BitVec 1)
  | fence (o : Ordr)
  | publishBuf (a b : RegF) (scope : BitVec 3)
  | publishTile (a : RegF) (scope : BitVec 3)
  | amo (d a b c : RegF) (kind : BitVec 4) (size : BitVec 2) (spm : BitVec 1) (o : Ordr)
  | ramo (d a b c : RegF) (kind : BitVec 4) (size : BitVec 2) (o : Ordr)
  | damo (d a b c : RegF) (kind : BitVec 4) (size : BitVec 2) (o : Ordr)
  | rwopen (d a b c : RegF) (mirror : BitVec 1) (scope : BitVec 3)
  | rwadd (a b c : RegF) (last : BitVec 1) (ord : BitVec 2)
  | rwaddBlk (a b c : RegF) (last : BitVec 1) (ord : BitVec 2)
  | rwclose (d a : RegF) (ord : BitVec 2)
  | pinit (a b : RegF)
  | ppush (d a b : RegF) (que : BitVec 1) (o : Ordr)
  | ppop (d b a : RegF) (que : BitVec 1) (o : Ordr)
  | tkwait (dir : BitVec 2) (n : BitVec 6) (ord : BitVec 2)
  | tksig (dir : BitVec 2) (n : BitVec 6) (ord : BitVec 2)
  | bar (level : BitVec 3) (o : Ordr)
  | book (d a : RegF)
  | bookq (d a : RegF)
  | start (a : RegF)
  | spawn (d a b : RegF) (prio : BitVec 3) (inherit : BitVec 1)
  | launch (d a : RegF)
  | wborrow (d : RegF)
  | tlfill (a : RegF)
  | tlwait (d a : RegF)
  | tlquery (d a : RegF)
  -- events of the vector engine (06 R135, R136, R140): core, word number, register of the group
  | vectorGroupRead (core word k : Nat)
  | vectorCompletion (core word k : Nat)
  | vectorCommit (core word : Nat)
  -- events of the matrix engine (07 R173-R184): core, command number, block
  | matrixCommandStart (core : Nat)
  | ringBlockRead (core cmd b : Nat)
  | mmaBlockAdd (core cmd b : Nat)
  | scntBlockCount (core cmd b : Nat)
  | matrixRetire (core cmd : Nat)
  | engineFaultTrap (core eng : Nat)
  -- events of the load, store and gather engines (08 R208, R209): core, command number, element
  | loadQueuePush (core cmd : Nat)
  | lddramReturn (core cmd : Nat)
  | storePerformed (core cmd : Nat)
  | gatherElement (core cmd i : Nat)
  -- events of the copy engine (08 R214, 09 R270): core, node number, unit
  | copyNodeStart (core node : Nat)
  | copyUnit (core node u : Nat)
  | copyNodeRetire (core node : Nat)
  | publishSwitch (pub : Nat)
  | rwContribution (contrib : Nat)
  | rwDelivery (win : Nat)
  -- events of a task and of the dispatcher (05 R128; 09; 12)
  | modeDrainDone (core : Nat)
  | calendarT0Resume (core : Nat)
  | taskEnd (core : Nat)
  | bookingPlacement (task : Nat)
  | prologueStart (task : Nat)
  | coreSpanStart (task : Nat)
  | taskRunStart (task : Nat)
  | windowEnd (core : Nat)
  | preemptRequest (task : Nat)
  | preemptCutStop (core : Nat)
  | preemptTimeoutStop (core : Nat)
  | stateSaveDone (task : Nat)
  | restorePrologue (task : Nat)
  | priorityAging (task : Nat)
  | weightReturn (task : Nat)
  | barrierDeparture (launch level group : Nat)
  -- events of the directory, the Hedgerow and the Darner (16)
  | lineageAck (name : Nat) (mirror : Bool)
  | replicaComplete (name : Nat)
  | darnerWalk (name : Nat)
  | verificationCompare (name : Nat)
  | spareFill (die : Nat)
  | spareFillComplete (die : Nat)
  -- events of the deterministic atomic units (13 R341, R342)
  | damoArrival (op : Nat)
  | damoRetryResend (op : Nat)
  | horizonMessage (unit src : Nat)
  | damoWindowClose (unit : Nat)
  -- events of the pairing datapath (13 R338, R339; 08 R228)
  | pairingArrival (op : Nat)
  | pairingHoldExpiry (op : Nat)
  | fallThroughApply (op : Nat)
  | atomicResultReturn (core op : Nat)
  | weightBorrowAck (task : Nat)
  -- words without operands
  | ret
  | retEh
  | modeCal
  | modeSb
  | halt
  | nop
  | mpop
  | rrbdec
  | tend
  | cut
  -- events whose subject stands in `State.inp`
  | queueRotation
  | dieWorkSteal
  | bookingRelease
  | teamAdmission
  | teamSwap
  | shardPressureReplication
  | claspPairing
  | multicastWrite
  -- events of the package ring (14 R351; 17 R406)
  | ringPacketArrival
  | ringPacketResend
  | heartbeat
  | boundaryCut
  -- events of the delivery contexts (14 R355, R356)
  | deliveryContextOpen
  | deliveryPacketArrival
  | deliveryResendTimeout
  | deliveryBusyRetry
  | deliveryTeardown
  -- events of remote translation (14 R358, R359; 09 R274)
  | remoteTranslationReq
  | remoteTranslationReply
  | exportInvalidation
  | pinRelease
  -- events of page migration (14 R360, R361)
  | migrationCopyDone
  | migrationSwitch
  | migrationLogRetry
  | migrationFree
  -- host commands (14 R366): context field, bits [63:6] of the address in place
  | hcmdLaunch
  | hcmdCtxnew
  | hcmdCtxend
  | hcmdInval
  | hcmdExport
  | hcmdUnexport
  | hcmdMigrate
  | hcmdMcgroup
  -- host register writes (14 R368; 19 R427, R434)
  | icauseWrite
  | imaskWrite
  | registerWrite
  | mresetGo
  | fwstage
  | attreq
  | pcapWrite
  -- reset, bring-up and power (19)
  | coldReset
  | pcieReset
  | bringupStage
  | rackStcSync
  | powerStateEntry
  | powerStateExit
  | thermalLimit
  -- faults and repairs (17)
  | eccCorrection
  | eccReread
  | patrolScrub
  | frameRetirement
  | sramDoubleBitError
  | redundantRunCompare
  | testDue
  | testScanStart
  | testScanEnd
  | testAbort
  -- Boxwood and the rack links (17)
  | sensorAlarm
  | linkFrameReceive
  | linkNakReceive
  | linkKeyExchange
  | linkKeyMarker
  | dcpFatalFault
  | rackLinkFailure
  | hostMemoryWrite
  | ringPacketAck
  | deliveryAck
  | linkFrameAck
  | exportInvalidationAck
  deriving DecidableEq, Repr

end Sys2Proof
end

