-- ==== Sys2Proof/Machine/State.lean ====
section
/-! DEFINITION. The state of one Velell X8 package, as plain data, and the machine right after reset. Every table keyed by
number is an `SMap`: an unlisted key reads as the reset value that the accessors of Machine/Ops.lean name. Time is the stamp
clock STC in cycles (00 R4, R10). Work in flight stands in `agenda` with the cycle at which it falls due. -/

namespace Sys2Proof.Machine

/-- The cause codes of Table 2.7 (02 R57), in code order from 0x00. -/
inductive Cause where
  | none | illins | illop | illsr | fpexc | rsfull | rsempty | msfull | msempty | ovf | schedmiss | fmtuf | addr | slot
  | soft | mxfault | dbltrap
  deriving DecidableEq, Repr

/-- A stamp with its origin tag (00 R10). -/
structure Stamp where
  stc : Nat := 0
  issuer : BitVec 24 := 0
  seqno : BitVec 16 := 0
  pkg : Nat := 0
  ctx : Nat := 0
  lserial : Nat := 0
  run : Nat := 0
  deriving DecidableEq, Repr

/-- One bit per lane for each of the five sticky flags (02 R54). -/
structure Flags where
  nv : BitVec 1024 := 0
  dz : BitVec 1024 := 0
  ovf : BitVec 1024 := 0
  unf : BitVec 1024 := 0
  nx : BitVec 1024 := 0
  deriving DecidableEq, Repr

/-- What an access that arrives from another package does (08 R200): a plain read, or a write of its bytes; an atomic by kind and size; a
pairing operation with its QUE bit. -/
inductive FarOp where
  | plain
  | amo (kind size : Nat)
  | ramo (kind size : Nat)
  | damo (kind size : Nat)
  | push (que : Bool)
  | pop (que : Bool)
  deriving DecidableEq, Repr

/-- What a Boxwood sensor reads (17 Table 17.6): deviation from nominal in thousandths (of a rail's voltage, the clock's frequency, the mesh's
resistance) and for how many cycles; the length of a clock period in hundredths of nominal, and nominal periods without the clock; a
temperature in 1/16 °C; whether a rail or a temperature is Boxwood's own; whether the mesh is open or short. -/
structure Reading where
  dev : Int := 0
  held : Nat := 0
  period : Nat := 100
  absent : Nat := 0
  temp : Int := 400
  box : Bool := false
  broken : Bool := false
  deriving DecidableEq, Repr

/-- The subject of an event that carries no argument: who, where, which object, and the values an outside agent presents. -/
structure Input where
  die : Nat := 0
  core : Option Nat := none
  phys : Nat := 0
  /-- packet, held write, station, boundary, group or version name -/
  id : Nat := 0
  bridge : Nat := 0
  peer : Nat := 0
  ccw : Bool := false
  /-- whether the subject is the target side, permits writes, passes, decodes, is bad, or is authentic -/
  flag : Bool := false
  mark : Bool := false
  seqno : BitVec 16 := 0
  sent : Nat := 0
  pkg : Nat := 0
  page : Nat := 0
  frame : Option Nat := none
  ctx : BitVec 3 := 0
  addr : Word := 0
  val : Word := 0
  val2 : Word := 0
  far : FarOp := .plain
  code : BitVec 8 := 0
  reading : Reading := {}
  /-- payload bytes of a packet for another package -/
  size : Nat := 0
  offset : Int := 0
  link : Nat := 0
  slot : BitVec 1 := 0
  bytes : List Byte := []
  sig : BitVec 128 := 0
  stamp : Stamp := {}
  deriving DecidableEq, Repr

/-- A ring descriptor (07 Table 7.1); `pos` counts the slots popped since the ring was set, HEAD before its modulo. -/
structure Ring where
  base : Nat := 0
  slotsz : Nat := 0
  slots : Nat := 0
  head : Nat := 0
  pos : Nat := 0
  fill : Nat := 0
  rsv : Nat := 0
  wsv : Nat := 0
  deriving DecidableEq, Repr

/-- A matrix command as X hands it over (07 R172): its number, its word, AT, its hand-over cycle and its pc, and whether it was
issued in a calendar region, and X's stamp of it (00 R10). -/
structure MxCmd where
  id : Nat
  op : Instr
  at_ : Nat
  handed : Nat
  pc : BitVec 14
  cal : Bool
  stamp : Stamp := {}
  deriving DecidableEq, Repr

/-- A write that takes effect later than the step that makes it: latency of a scalar result (05 R109), the next-cycle rule of
system registers, predicates, masks and loop registers (02 R56, 06 R136), counts of tokens and rings (02 R53, 07 R167). -/
inductive Eff where
  | reg (q : Seq) (r : Nat) (v : Word)
  | sys (q : Seq) (n : Nat) (v : Word)
  | loop (q : Seq) (k : Nat) (v : Word)
  | pred (k : Nat) (v : BitVec 18)
  | maskPush (m : BitVec 1024)
  | maskTop (m : BitVec 1024)
  | maskPop
  | spv (v : BitVec 8)
  | rrb (v : BitVec 9)
  | flagClear (which : BitVec 5) (lanes : BitVec 1024)
  | element0 (r : Nat) (v : Word)
  | token (fifo n : Nat)
  | ringSet (rg : Nat) (r : Ring)
  | ringFill (rg n : Nat)
  | ringPop (rg n : Nat)
  | ringRsv (rg : Nat) (add : Bool) (n : Nat)
  | ringWsv (rg : Nat) (add : Bool) (n : Nat)
  | handOver (cmd : MxCmd)
  | engRetire (e : Nat)
  | engFault (e : Nat)
  deriving DecidableEq, Repr

/-- A delayed effect and the cycle from which it is in force. -/
structure Pend where
  due : Nat
  eff : Eff
  deriving DecidableEq, Repr

/-- What a sequencer is doing: issuing, stopped by halt or tend (05 R133, 08 R234), waiting at a mode meeting for a region
(05 R128). A trap or a pre-emption stops a core's streams through `SysSt.handler` and `SysSt.hold`. -/
inductive SeqRun where
  | run
  | halted
  | ended
  | meeting (sel : Bool)
  deriving DecidableEq, Repr

/-- One sequencer (02 R34). -/
structure SeqSt where
  regs : SMap Word := []
  pc : BitVec 14 := 0
  /-- pc of the word issued last, which a fault record of a stopped sequencer gives (07 R177, 08 R240) -/
  lastPc : BitVec 14 := 0
  lc : SMap Word := []
  ras : List (BitVec 14) := []
  rsspill : Word := 0
  tvec : Word := 0
  epc : Word := 0
  mode : SeqRun := .halted
  /-- delay-slot words still to issue, and the target of a taken branch (05 R114) -/
  slots : Nat := 0
  target : Option (BitVec 14) := none
  /-- pc of the trapping word and its pending redirect (05 R132) -/
  trapPc : BitVec 14 := 0
  redirect : Option (BitVec 14 × Nat) := none
  /-- cycle at which the word that a trap stopped fell due (09 R265) -/
  saved : Nat := 0
  /-- the issue clock (04 R86): cycle of the previous issue, whether the next word is the first after T0, cycles added by a
  spill or refill (02 R37), the cycle before which a waiting word is not tried again -/
  last : Nat := 0
  first : Bool := true
  extra : Nat := 0
  retry : Nat := 0
  /-- number of the instruction word last attempted: an acquire not yet performed holds later accesses (08 R201) -/
  acquire : Option Nat := none
  /-- the cycle at which the next word issues whatever its IDLE: the word a handler returns to (09 R265) -/
  dueAt : Option Nat := none
  deriving DecidableEq, Repr

/-- The core's system registers and trap state (02 R56 to R58). `region` true is a scoreboard region. -/
structure SysSt where
  region : Bool := false
  restarted : Bool := false
  frm : BitVec 3 := 0
  fen : BitVec 5 := 0
  rotsz : BitVec 10 := 0
  rrb : BitVec 9 := 0
  spv : BitVec 8 := 0
  cause : BitVec 21 := 0
  ctx : BitVec 3 := 0
  immsel : Bool := false
  dtgen : BitVec 4 := 1
  taskid : BitVec 32 := 0
  audit : Bool := false
  t0 : Nat := 0
  vkey : SMap Word := []
  /-- the sequencer running a trap handler, and the region its return restores (02 R58, 05 R117) -/
  handler : Option Seq := none
  trapRegion : Bool := false
  /-- code of the software trap, for the fault record (05 R131), and the stop cycle for a calendar return (09 R265) -/
  trapCode : BitVec 10 := 0
  trapAt : Nat := 0
  /-- no stream issues: between a drain, a handler's return or a restore and the T0 that follows (09 R263, R264, R265) -/
  hold : Bool := false
  /-- register moves of X and S in force since this cycle: cycle, sequencer, register, value; S's come after X's writes of the
  cycle (02 R56), and X's after the results of words issued before them (06 R136) -/
  movesNow : List (Nat × Seq × Nat × Word) := []
  deriving DecidableEq, Repr

/-- What a vector word's predicate makes active (06 R139), sampled at issue (R137): everything, the first `bits` bits of the
group (02 R45), the lanes of a mask (02 R47), or nothing (02 R46). -/
inductive Active where
  | all
  | covered (bits : Nat)
  | lanes (m : BitVec 1024)
  | off
  deriving DecidableEq, Repr

/-- What register k of a vector word leaves at its completion: registers by physical number with the bits written and their
value, a store-queue entry, flags by lane, rows of the accumulator store in the same form, a predicate, a mask pushed. -/
structure VResult where
  k : Nat
  regs : List (Nat × VReg × VReg) := []
  push : Option (Nat × VReg) := none
  flags : Flags := {}
  acc : List (Nat × Row × Row) := []
  pred : Option (Nat × BitVec 18) := none
  mask : Option (BitVec 1024) := none
  deriving DecidableEq, Repr

/-- A vector word in flight (06 R135 to R138). -/
structure VWord where
  id : Nat
  pc : BitVec 14
  op : Instr
  issued : Nat
  group : Nat
  lat : Nat
  occ : Nat
  active : Active
  rm : Nat
  rotsz : Nat
  rrb : Nat
  fen : BitVec 5
  reads : Nat := 0
  done : Nat := 0
  results : List VResult := []
  part : List VReg := []
  stamp : Stamp := {}
  deriving DecidableEq, Repr

/-- A word of the precise-mode window (06 R140, R141): its held effects and what a cancellation returns. -/
structure XEntry where
  id : Nat
  pc : BitVec 14
  vector : Bool
  ready : Bool
  /-- issue cycle, and whether the word counts in the status of vxe (05 R119) -/
  issued : Nat := 0
  counted : Bool := false
  fen : BitVec 5 := 0
  held : List Eff := []
  results : List VResult := []
  popped : List (Nat × VReg) := []
  tokens : List Nat := []
  /-- cycle from which the word no longer holds the port (06 R135) -/
  portEnd : Nat := 0
  /-- X's sequencer as it stood before the word issued, and scratchpad bytes its spill overwrote -/
  before : SeqSt := {}
  skip : Nat := 0
  /-- loop registers that the word arms -/
  loops : List Nat := []
  undo : List (Nat × List Byte) := []
  deriving DecidableEq, Repr

/-- The vector engine and X's vector state (02 R40 to R47, R54; 06). -/
structure VecSt where
  vrf : SMap VReg := []
  preds : SMap (BitVec 18) := []
  masks : List (BitVec 1024) := []
  skip : Nat := 0
  flags : Flags := {}
  /-- flags set by completions in cycle `flagsAt`, which a clear of that cycle does not remove (02 R54) -/
  flagsNew : Flags := {}
  flagsAt : Nat := 0
  words : List VWord := []
  window : List XEntry := []
  /-- a trap of a later word, with its cause, code, pc and cycle, that waits for the window to commit (06 R141) -/
  lateTrap : Option (Cause × BitVec 10 × BitVec 14 × Nat) := none
  portFree : Nat := 0
  nextId : Nat := 0
  /-- results of mfsr in force since this cycle: cycle, register, value; every other result of the cycle was issued earlier
  (02 R59, 06 R136) -/
  el0Now : List (Nat × Nat × Word) := []
  deriving DecidableEq, Repr

/-- One entry of a load or store queue and the cycle of its push (02 R51, R53). -/
structure QEntry where
  data : VReg
  at_ : Nat
  deriving DecidableEq, Repr

/-- A load or store queue: oldest first, with the pops of cycle `popAt` (02 R52, R53). -/
structure VQueue where
  items : List QEntry := []
  popAt : Nat := 0
  popN : Nat := 0
  deriving DecidableEq, Repr

/-- A token FIFO (02 R51, R53). -/
structure TokFifo where
  count : Nat := 0
  popAt : Nat := 0
  popN : Nat := 0
  pushAt : Nat := 0
  pushN : Nat := 0
  deriving DecidableEq, Repr

/-- The queues of a core (02 R51). Token FIFOs by number: 0 tk.cl, 1 tk.lx, 2 tk.xs, 3 tk.sc, 4 tk.lc, 5 tk.xl, 6 tk.sx,
7 tk.cs. -/
structure QueueSt where
  lq : SMap VQueue := []
  sq : SMap VQueue := []
  fq : List (Word × Nat) := []
  /-- cycle of the last pop of fq, and the pops of that cycle (02 R52) -/
  fqPopAt : Nat := 0
  fqPopN : Nat := 0
  tk : SMap TokFifo := []
  deriving DecidableEq, Repr

/-- One stitch bank (02 R49, R50; 07 R166): 288-bit cells by 128 i + j, 16-bit scale pairs by row and by column, checksum
counters by 24 j + x and 24 i + x. -/
structure Bank where
  cnt : SMap (BitVec 288) := []
  depth : Nat := 0
  ea : SMap (BitVec 16) := []
  eb : SMap (BitVec 16) := []
  scaled : Bool := false
  hold : Bool := false
  kr : SMap (BitVec 20) := []
  kc : SMap (BitVec 20) := []
  deriving DecidableEq, Repr

/-- The checksum mode (07 R166). -/
inductive CkMode where
  | on | detect | off
  deriving DecidableEq, Repr

/-- Where an upset of the array lies: a cell, or the checksum row or column (07 R194, R195). -/
inductive UpsetAt where
  | cell (i j : Nat)
  | row (j : Nat)
  | col (i : Nat)
  deriving DecidableEq, Repr

/-- A soft error of the array waiting for block `block` of the next command: for mma the sum is off by `n` x 2^`e`, for stitch
counting counter `x` is off by `n`. -/
structure Upset where
  site : UpsetAt
  block : Nat
  x : Nat
  n : Int
  e : Int
  deriving DecidableEq, Repr

/-- A started matrix command (07 R173 to R184). -/
structure MxRun where
  cmd : MxCmd
  s : Nat
  fw : Word
  nb : Nat
  bc : Nat
  occ : Nat
  lat : Nat
  /-- first slot index of each ring it reads, reserved at the start (07 R181) -/
  slots : List (Nat × Nat) := []
  wslot : Option (Nat × Nat) := none
  blocks : List (List Byte × List Byte × List Byte × List Byte) := []
  read : Nat := 0
  added : Nat := 0
  rows : List (Nat × Row) := []
  bank : Option Bank := none
  bytes : List (Nat × Byte) := []
  stall : Nat := 0
  /-- it has started and stalls the array until its slot can be read or written (07 R181) -/
  waiting : Bool := false
  fault : Option (Cause × Nat × Nat) := none
  /-- stamp of its start (07 R176) -/
  stamp : Stamp := {}
  deriving DecidableEq, Repr

/-- Outstanding commands and the fault bit of an engine (05 Table 5.7). -/
structure EngSt where
  out : Nat := 0
  flt : Bool := false
  /-- cause of the fault and the sequencer whose command faulted (08 R240) -/
  fault : Option (Cause × Seq) := none
  deriving DecidableEq, Repr

/-- The matrix engine (07). -/
structure MxSt where
  acc : SMap Row := []
  b0 : Bank := {}
  b1 : Bank := {}
  queue : List MxCmd := []
  runs : List MxRun := []
  ck : CkMode := .on
  corr : BitVec 32 := 0
  ckerr : BitVec 32 := 0
  lastcorr : BitVec 32 := 0
  detail : BitVec 32 := 0
  upsets : List Upset := []
  rings : SMap Ring := []
  /-- end of the last command's occupancy and the start cycle of the command before (07 R174, R175) -/
  occEnd : Nat := 0
  lastStart : Nat := 0
  /-- cycle in which commands last left the queue, and how many did (02 R52, 07 R172) -/
  qOutAt : Nat := 0
  qOutN : Nat := 0
  nextId : Nat := 0
  fault : Option (Cause × Nat) := none
  deriving DecidableEq, Repr

/-- The scratchpad and its zero marks (09 R246): a 64-byte unit listed in `live` has its mark clear. -/
structure SpmSt where
  mem : List Host.Cell := []
  live : SMap Bool := []
  deriving DecidableEq, Repr

/-- A bank access due in a cycle (09 R268 to R270): who asks, the command and row it belongs to, where. -/
structure SpmReq where
  due : Nat
  rank : Nat
  cmd : Nat
  row : Nat
  addr : Nat
  len : Nat
  deriving DecidableEq, Repr

/-- Instruction memories and the patch store (02 R34, 04 R100). -/
structure CodeSt where
  c : SMap Word := []
  l : SMap Word := []
  x : SMap Word := []
  s : SMap Word := []
  patches : List (Seq × Nat × BitVec 32) := []
  deriving DecidableEq, Repr

/-- A translated page: virtual base, physical base, size, write permission (12 R292, R293). -/
structure PageTr where
  va : Nat
  pa : Nat
  size : Nat
  write : Bool
  deriving DecidableEq, Repr

/-- A command of lde, ste, gse or cle, or an atomic or pairing operation, not yet performed (08 R205 to R228). -/
structure Cmd where
  id : Nat
  eng : Nat
  q : Seq
  op : Instr
  issued : Nat
  addr : Nat := 0
  pitch : Nat := 0
  table : Nat := 0
  queue : Nat := 0
  ring : Option (Nat × Nat) := none
  pages : List PageTr := []
  data : VReg := 0
  rows : Nat := 0
  arrived : Bool := false
  dst : Nat := 64
  dst2 : Nat := 64
  value : Word := 0
  value2 : Word := 0
  stamp : Stamp := {}
  pins : List Nat := []
  /-- the die-engine slot it holds: its own booking's (true) or one that no booking holds (09 R256) -/
  slot : Option Bool := none
  /-- DRAM locations that it accesses (first, bytes), index values of a gather or scatter, the cycle from which its load may be
  pushed, whether it was issued in a calendar region -/
  locs : List (Nat × Nat) := []
  idxs : List Nat := []
  pushAt : Nat := 0
  cal : Bool := false
  /-- pairing object or window handle it acts on, and element count of a contribution -/
  obj : Nat := 0
  deriving DecidableEq, Repr

/-- A copy node (08 R213, R214). -/
structure CopyNode where
  id : Nat
  tag : Nat
  src : Nat
  dst : Nat
  len : Nat
  rows : Nat
  spitch : Nat
  dpitch : Nat
  shadow : Bool
  sspm : Bool
  dspm : Bool
  deps : List Nat
  spages : List PageTr := []
  dpages : List PageTr := []
  started : Bool := false
  units : Nat := 0
  buf : Option (List Byte) := none
  slot : Option Bool := none
  stamp : Stamp := {}
  deriving DecidableEq, Repr

/-- An open shadow of a page (08 R215): the page's physical base and size, its own content, and the output version that
declares it. -/
structure Shadow where
  va : Nat
  pa : Nat
  size : Nat
  mem : List Host.Cell
  version : Option Nat
  /-- codewords of the page, by index, that are marked uncorrectable (17 R394) -/
  marks : List Nat := []
  deriving DecidableEq, Repr

/-- A template entry (09 Table 9.2). -/
structure TEntry where
  kind : Nat
  res : Nat
  off : Nat
  dur : Nat
  amt : Nat
  deriving DecidableEq, Repr

/-- A booking template (09 Table 9.1). -/
structure Template where
  len : Nat := 0
  pre : Nat := 0
  entries : List TEntry := []
  deriving DecidableEq, Repr

/-- A booking of `book`: its count, T0 and template (08 R231). -/
structure Booking where
  count : Nat
  t0 : Nat
  tmpl : Template
  deriving DecidableEq, Repr

/-- The task a core runs, and what the task holds (08, 09). -/
structure TaskSt where
  task : Option Nat := none
  lserial : Nat := 0
  run : Nat := 0
  param : Nat := 0
  wid : Word := 0
  taskno : Nat := 0
  win : Template := {}
  seqnos : SMap (BitVec 16) := []
  copies : List CopyNode := []
  tagIds : SMap Nat := []
  qmL : List (BitVec 8) := []
  qmS : List (BitVec 8) := []
  /-- command numbers below which the accesses of L and S precede their k-th marker (08 R212) -/
  qmLid : List Nat := []
  qmSid : List Nat := []
  shadows : List Shadow := []
  published : List Nat := []
  bookCount : Nat := 0
  pending : Option Booking := none
  armed : Option Booking := none
  launches : Nat := 0
  barCount : SMap Nat := []
  barWait : List (Seq × Nat × Nat) := []
  meetAt : Option Nat := none
  drained : Bool := false
  /-- stop offset of a handler's return that waits for its placement (09 R265) -/
  rebook : Option Nat := none
  preempt : Option Nat := none
  cuts : List Seq := []
  cutAt : Nat := 0
  /-- cycle at which a pre-emption or an overrun stopped the task, which is being drained and saved (12 R315, R316) -/
  stopAt : Option Nat := none
  tcache : List PageTr := []
  pins : SMap Nat := []
  /-- fault that ends the task at its end step: cause, code, detail (02 R58, 12 Table 12.4) -/
  ending : Option (Nat × Word) := none
  /-- 64-byte units of DRAM that lddram asked for, by 16-cycle period, die and group (09 R260) -/
  dramUse : List (Nat × Nat × Nat) := []
  first : BitVec 8 := 0
  /-- stamp cycle and unit code of the event that ends the task (12 Table 12.4) -/
  endStc : Nat := 0
  endUnit : Nat := 0
  wait : Option (Seq × Nat) := none
  deriving DecidableEq, Repr

/-- One logical core. -/
structure Core where
  c : SeqSt := {}
  l : SeqSt := {}
  x : SeqSt := {}
  s : SeqSt := {}
  sys : SysSt := {}
  vec : VecSt := {}
  q : QueueSt := {}
  mx : MxSt := {}
  spm : SpmSt := {}
  reqs : List SpmReq := []
  code : CodeSt := {}
  cmds : List Cmd := []
  eng : SMap EngSt := []
  tsk : TaskSt := {}
  pend : List Pend := []
  nextCmd : Nat := 0
  deriving DecidableEq, Repr

/-- The mirror descriptor of a context (16 Table 16.5); the defaults are those of no descriptor. -/
structure MirrorDesc where
  tapbase : Nat := 2 ^ 56
  tslog : Nat := 25
  mbase : Nat := 0
  srcbase : Nat := 0
  mlen : Nat := 0
  interval : Nat := 1
  ckpt : Nat := 0
  dbound : SMap Nat := []
  deriving DecidableEq, Repr

/-- An inline constant (04 R96). -/
structure Konst where
  flt : Word
  int : Word
  iok : Bool
  deriving DecidableEq, Repr

/-- A live context (12 R289, Table 12.1). -/
structure Context where
  ptroot : Nat
  dtab : Option (SMap (BitVec 16)) := none
  /-- the signed object that the decode table came from -/
  image : List Byte := []
  dtgen : BitVec 4 := 1
  ctab : Option (List Konst) := none
  immsel : Bool := false
  nqueue : Nat := 1
  pbound : Nat := 52500
  savebase : Nat := 0
  saveslots : Nat := 0
  tslice : Nat := 1050000
  spillbase : Nat := 0
  spillcap : Nat := 1
  errbase : Nat := 0
  errcap : Nat := 16
  mirror : Option MirrorDesc := none
  mirrorPa : Nat := 0
  diemask : BitVec 8 := 0
  ending : Bool := false
  quarantined : Bool := false
  lserial : Nat := 0
  slotsUsed : List Nat := []
  spilled : List Nat := []
  deriving DecidableEq, Repr

/-- An accepted launch (12 R295, R300, R308). -/
structure Launch where
  ctx : Nat
  lserial : Nat
  va : Nat
  prio : Nat
  nfld : Nat
  teamlvl : Nat
  tnshift : Nat
  diemask : BitVec 8
  dist : Bool
  width : List Nat
  ext : List Nat
  image : Nat
  param : Nat
  paramlen : Nat
  nvreg : Nat := 640
  nacc : Nat := 48
  teammax : Nat
  spmb : Nat := 0
  qid : Nat
  compl : Nat
  held : Nat
  total : Nat
  err : Option (Stamp × Nat) := none
  nerr : Nat := 0
  naudit : Nat := 0
  spawnsEnded : Bool := false
  /-- code that the completion carries whatever its tasks' errors: WEIGHTOVF, CTXGONE, QUARANTINE, PKGSTOP (12 R290, R309; 17
  R407, R413); 0 for none -/
  final : Nat := 0
  complete : Bool := false
  order : Nat := 0
  /-- booking template and prologue of a first start, and the quads that its prologue writes (09 R245, R251) -/
  tmpl : Template := {}
  pre : Nat := 512
  pquads : List Nat := []
  /-- tile table: ID, version, stride, output (12 Table 12.8) -/
  tiles : List (Nat × Nat × Nat × Bool) := []
  /-- its launch header as presented -/
  header : List Byte := []
  deriving DecidableEq, Repr

/-- The states of Table 12.9. -/
inductive RecSt where
  | wait | ready | booked | loading | run | stopped | ended
  deriving DecidableEq, Repr

/-- What kind of run a record is (00 R10 run code; 16 R384, R387; 17 R400). -/
inductive RunKind where
  | ordinary | recovery | verification | redA | redB | redC
  deriving DecidableEq, Repr

/-- A saved task or its calendar residue (09 R264, 12 R317); `owed` holds the events that vector words waiting on a queue and matrix
commands waiting on a ring still owe: cycles ahead, phase, event; `at_` is the cycle of the save. -/
structure Residue where
  tmpl : Template
  stop : Nat
  core : Core
  slot : Nat
  owed : List (Nat × Nat × Instr) := []
  at_ : Nat := 0
  deriving DecidableEq, Repr

/-- A save slot that the saver has written (12 R316): its base, the save that wrote it, and the bytes written since by others. -/
structure SaveArea where
  base : Nat
  key : Nat
  spoilt : SMap Bool := []
  deriving DecidableEq, Repr

/-- A task record (12 R301). -/
structure TaskRec where
  id : Nat
  ctx : Nat
  lserial : Nat
  wid : Word
  taskno : Nat
  param : Nat
  prio : Nat
  weight : Nat
  ins : List Nat := []
  outs : List Nat := []
  tiles : List (Nat × Bool) := []
  st : RecSt := .wait
  kind : RunKind := .ordinary
  die : Nat := 0
  core : Nat := 0
  t0 : Nat := 0
  pre : Nat := 512
  readyAt : Nat := 0
  aged : Nat := 0
  iprio : Nat := 0
  slotBound : Bool := false
  spilled : Bool := false
  reserve : Bool := false
  residue : Option Residue := none
  avoid : List Nat := []
  retries : Nat := 0
  weightBack : Bool := false
  parent : Option Nat := none
  deriving DecidableEq, Repr

/-- A window on the calendars (09 R241, R242): whose it is, where, its span and its entries. -/
structure Window where
  task : Nat
  core : Nat
  t0 : Nat
  pre : Nat
  tmpl : Template
  order : Nat
  armed : Bool := false
  /-- 0 placed by the dispatcher, or the task's current window; 1 requested by `book` and not yet current; 2 the window that a
  handler's return waits for -/
  use : Nat := 0
  pquads : List Nat := []
  deriving DecidableEq, Repr

/-- The tile states of Table 8.6. -/
inductive TileSt where
  | empty | full | poisoned | lost | revoked
  deriving DecidableEq, Repr

/-- A directory entry (16 Table 16.1). -/
structure DirEnt where
  name : Nat
  st : TileSt := .empty
  suspect : Bool := false
  audit : Bool := false
  rpend : Bool := false
  repl : Bool := false
  xout : Bool := false
  depth : Nat := 0
  dbound : Nat := 16
  iprio : Nat := 0
  linack : Bool := false
  mirack : Bool := false
  frames : SMap Nat := []
  rframes : SMap Nat := []
  rdie : Nat := 0
  /-- copies that tlfill placed: die, and frame by page -/
  copies : List (Nat × SMap Nat) := []
  stc : Nat := 0
  /-- issuer of the publish, which with STC orders it among the others -/
  issuer : BitVec 24 := 0
  deriving DecidableEq, Repr

/-- A lineage record (16 Table 16.3). -/
structure Lineage where
  name : Nat
  taskno : Nat
  ctx : Nat
  audit : Bool
  pcore : Nat
  die : Nat
  lserial : Nat
  wid : Word
  param : Nat
  stc : Nat
  issuer : BitVec 24
  opds : List Nat
  depth : Nat
  prio : Nat
  /-- sequence number of the publish, of the stamp under which the record is sent -/
  seqno : BitVec 16 := 0
  deriving DecidableEq, Repr

/-- A shard of the Hedgerow, or a mirror of one (16 R380, R381): a launch header stands with its context and LSERIAL. -/
structure Shard where
  lineage : List Lineage := []
  consumers : List (Nat × Nat) := []
  headers : List (Nat × Nat × List Byte) := []
  deriving DecidableEq, Repr

/-- A publish between its stamp and its switch cycle (08 R216, 13 R335). -/
structure Publish where
  id : Nat
  tsw : Nat
  /-- virtual addresses of the shadows' pages; for a version its name and its slot's base -/
  vas : List Nat
  version : Option Nat
  base : Nat := 0
  task : Nat
  core : Nat
  q : Seq
  cmd : Nat
  deriving DecidableEq, Repr

/-- What a redundant or verification run has published of a version: its shadows are held, not switched (16 R387, 17 R400). -/
structure HeldPub where
  name : Nat
  kind : RunKind
  shadows : List Shadow
  base : Nat
  task : Nat
  audit : Bool := false
  /-- stamp of the publish, and the physical core that computed the bits with its die (01 R26) -/
  stamp : Stamp := {}
  pcore : Nat := 0
  die : Nat := 0
  deriving DecidableEq, Repr

/-- A contribution to a reduction window (08 R223, R224). -/
structure Contrib where
  id : Nat
  win : Option Nat
  ctx : Nat
  handle : Nat
  core : Nat
  cmd : Nat
  elem : Nat
  values : List Word
  last : Bool
  stamp : Stamp
  deriving DecidableEq, Repr

/-- A reduction window (08 R222). -/
structure RWin where
  id : Nat
  handle : Nat
  ctx : Nat
  die : Nat
  base : Nat
  va : Nat
  n : Nat
  type_ : Nat
  tasks : Nat
  scope : Nat
  mirror : Bool
  mbase : Nat
  lasts : Nat := 0
  errors : Nat := 0
  parts : List Contrib := []
  delivered : Bool := false
  pages : List PageTr := []
  /-- record whose rwopen opened it, the stamp of its writes, and how many elements have been written -/
  owner : Nat := 0
  stamp : Stamp := {}
  done : Nat := 0
  deriving DecidableEq, Repr

/-- A deterministic atomic in flight or held at its unit (08 R221, 13 R342). -/
structure DamoOp where
  id : Nat
  core : Nat
  cmd : Nat
  kind : Nat
  size : Nat
  b : Word
  c : Word
  pa : Nat
  src : Nat
  stamp : Stamp
  accepted : Bool := false
  /-- it came from another package by the bridge of the die that `core` names; no command here waits for it -/
  far : Bool := false
  /-- the retry stamp of a refusal -/
  retry : Option Stamp := none
  deriving DecidableEq, Repr

/-- A deterministic atomic unit (13 R341). -/
structure Dau where
  buf : List DamoOp := []
  log : List DamoOp := []
  horizon : SMap Nat := []
  closed : Nat := 0
  deriving DecidableEq, Repr

/-- A ppush or ppop on its way to its object's home (13 R338). -/
structure PairOp where
  id : Nat
  core : Nat
  cmd : Nat
  push : Bool
  item : Word
  que : Bool
  obj : Nat
  path : List Nat
  held : Option Nat := none
  arrived : Nat := 0
  stamp : Stamp
  /-- as in DamoOp -/
  far : Bool := false
  deriving DecidableEq, Repr

/-- A packet on the package ring (14 R351): what its delivery starts is `payload`. -/
structure Packet where
  id : Nat
  src : Nat
  dst : Nat
  cw : Bool
  stamp : Stamp
  payload : Instr
  inp : Input := {}
  /-- its header flit and its payload flits of 256 B (14 R349) -/
  flits : Nat := 1
  deriving DecidableEq, Repr

/-- A hot-word cache, per set its (word address, value) pairs, most recent first (14 R362). -/
abbrev HotCache := SMap (List (Nat × Word))

/-- A packet that a delivery context has sent and that is not acknowledged: its sequence, when it was last sent, how often it was sent
again, and the task whose access it carries. -/
structure SentPkt where
  seqno : BitVec 16
  at_ : Nat
  tries : Nat := 0
  task : Option Nat := none
  /-- its header flit and its payload flits -/
  flits : Nat := 1
  deriving DecidableEq, Repr

/-- A delivery context at a bridge (14 R355, R356). -/
structure Delivery where
  bridge : Nat
  peer : Nat
  ccw : Bool
  target : Bool
  next : BitVec 16
  /-- packets held that arrived early -/
  early : List Input := []
  unacked : List SentPkt := []
  last : Nat
  /-- at the target, the send STC of the OPEN that made it -/
  opened : Nat := 0
  busy : Bool := false
  deriving DecidableEq, Repr

/-- An export-table entry (14 R357). -/
structure ExportEnt where
  pkg : Nat
  ctx : Nat
  page : Nat
  frame : Nat
  large : Bool
  write : Bool
  fetched : List Nat := []
  /-- result address of the command that changes or removes it, and what it becomes -/
  removing : Option Nat := none
  next : Option (Nat × Bool × Bool) := none
  deriving DecidableEq, Repr

/-- An entry of a bridge's remote translation cache (14 R358); `frame` none is a reply of "not exported". -/
structure RtcEnt where
  bridge : Nat
  pkg : Nat
  page : Nat
  frame : Option Nat
  write : Bool
  dropping : Bool := false
  /-- cycle of the reply: a refusal answers the accesses that wait in that cycle and no later one -/
  at_ : Nat := 0
  deriving DecidableEq, Repr

/-- A page migration (14 R360, R361). -/
structure Migration where
  die : Nat
  old : Nat
  new : Nat
  size : Nat
  log : List (Nat × List Byte × Stamp) := []
  replayAt : Nat := 0
  copied : Bool := false
  tsw : Option Nat := none
  switched : Bool := false
  result : Option Nat := none
  /-- started for a frame retirement, and whether for an uncorrectable codeword (17 Table 17.1 KIND) -/
  retirement : Option Bool := none
  /-- its copy has its slot of cpe and runs: writes are logged -/
  begun : Bool := false
  deriving DecidableEq, Repr

/-- A write refused by a full migration log (14 R361), with the command it belongs to. -/
structure RetryWrite where
  id : Nat
  pa : Nat
  bytes : List Byte
  stamp : Stamp
  owner : Option (Nat × Nat) := none
  /-- what the host is told once it is made: a vector of COMPL, or 64 for CMDDONE (14 R366, R367) -/
  tell : Option Nat := none
  deriving DecidableEq, Repr

/-- An INVAL whose pages are still pinned (14 Table 14.3). -/
structure HostCmd where
  result : Nat
  ctx : Nat
  pages : List Nat
  deriving DecidableEq, Repr

/-- Host registers of BAR0 (14 Table 14.2). -/
structure HostRegs where
  credit : Nat := 64
  drop : Bool := false
  standby : Bool := false
  active : Bool := true
  lrej : Bool := false
  lrejcode : BitVec 8 := 0
  lrejctx : BitVec 3 := 0
  lrejaddr : Nat := 0
  icause : BitVec 16 := 0
  /-- causes whose vector has been raised since their ICAUSE bit was set -/
  told : BitVec 16 := 0
  imask : BitVec 16 := 0
  msix : SMap Word := []
  pba : Word := 0
  raised : List Nat := []
  deriving DecidableEq, Repr

/-- Management registers (19 Table 19.4). -/
structure MgmtRegs where
  stage : Nat := 0
  fail : Bool := false
  code : BitVec 8 := 0
  cold : Bool := true
  pcap : Nat := 4800
  deep : Bool := false
  /-- the host link is in L1 (19 R431) -/
  l1 : Bool := false
  temp : SMap (BitVec 16) := []
  thermal : List Nat := []
  deriving DecidableEq, Repr

/-- One entry of a logical core map (01 Table 1.3). -/
structure LcMap where
  phys : Nat
  offline : Bool := false
  moved : Bool := false
  gen : Nat := 0
  deriving DecidableEq, Repr

/-- A test package of a die (17 Table 17.3). -/
structure TestPkg where
  duration : Nat
  period : Nat
  abortprio : Nat
  npat : Nat
  expsig : BitVec 128
  deriving DecidableEq, Repr

/-- The power states of a unit (19 Table 19.2). -/
inductive Power where
  | p0 | p1 | p2 | p3
  deriving DecidableEq, Repr

/-- One die. -/
structure Die where
  lost : Bool := false
  serial : Nat := 0
  lcmap : SMap LcMap := []
  lcspare : BitVec 32 := 0x03000000
  power : Power := .p0
  corePower : SMap Power := []
  lastWin : SMap Nat := []
  lastDram : Nat := 0
  slots : List (Nat × Nat × Nat) := []
  waiting : List (Nat × Nat × Nat) := []
  shard : Shard := {}
  mirror : Shard := {}
  stationHot : HotCache := []
  pairBuf : List Nat := []
  received : List Stamp := []
  lastBeat : SMap Nat := []
  corrections : SMap Nat := []
  repaired : SMap Bool := []
  poison : SMap Bool := []
  remap : SMap Nat := []
  testPkg : Option TestPkg := none
  due : List Nat := []
  /-- physical cores that take no window before their test (17 R399) -/
  mustTest : List Nat := []
  testing : SMap Nat := []
  failed : List Nat := []
  fill : Option Nat := none
  stcOff : Int := 0
  idleSince : Nat := 0
  deriving DecidableEq, Repr

/-- A team of a launch (12 R310). -/
structure Team where
  launch : Nat
  index : Nat
  cores : List Nat := []
  admitted : Bool := false
  /-- its tasks are being stopped for a swap (12 R312) -/
  swapping : Bool := false
  since : Nat := 0
  waitOrder : Nat := 0
  deriving DecidableEq, Repr

/-- Arrivals at a barrier of a group (08 R230, 12 R313). -/
structure Barrier where
  launch : Nat
  level : Nat
  group : Nat
  arrivals : SMap Nat := []
  departed : Nat := 0
  deriving DecidableEq, Repr

/-- A frame on a rack link (17 R416): its key slot, its CTR and its TYPE, 0 a flit, 1 a marker, 2 a NAK. -/
structure Frame where
  slot : Bool
  ctr : Nat
  kind : Nat := 0
  deriving DecidableEq, Repr

/-- One direction of a rack link (17 Table 17.8, R416 to R419). -/
structure Link where
  live : Bool := false
  idleReady : Bool := false
  down : Bool := false
  retries : Nat := 0
  ctr : Nat := 0
  expect : Nat := 0
  recvSlot : Bool := false
  failures : Nat := 0
  unacked : List Frame := []
  /-- frames sent, oldest first -/
  out : List Frame := []
  keyA : Bool := false
  keyB : Bool := false
  /-- the horizon that the bridge at the far end sent last (13 R341) -/
  horizon : Nat := 0
  deriving DecidableEq, Repr

/-- Boxwood (17 R398, R405, R409, R412 to R415). -/
structure Boxwood where
  minSvn : SMap Nat := []
  badFrames : List (Nat × Bool × Nat) := []
  lastPass : SMap Nat := []
  /-- its key slots and session keys have been erased (17 R413) -/
  erased : Bool := false
  level : Nat := 0
  sensor : BitVec 5 := 0
  hold : Bool := false
  standby : Bool := false
  count1 : Nat := 0
  alarm3 : Bool := false
  /-- by KIND, SVN and SHA-384 of the firmware installed for the next reset, and of the objects in use (17 R409, R411) -/
  staged : SMap (Nat × List Byte) := []
  meas : SMap (Nat × List Byte) := []
  /-- the repair record: each die's map and spares (01 R24, 17 R405) -/
  maps : SMap (SMap LcMap) := []
  spares : SMap (BitVec 32) := []
  deriving DecidableEq, Repr

/-- Whose turn it is to issue, and the header of its word. -/
structure Turn where
  core : Nat := 0
  q : Seq := .c
  hdr : Hdr := ⟨0, 0, 0⟩
  deriving DecidableEq, Repr

/-- An event with the cycle at which it falls due, its phase in that cycle, and for an access to memory its stamp, by which the accesses
of one cycle are ordered (13 R324). -/
structure Job where
  due : Nat
  phase : Nat
  ev : Instr
  inp : Input := {}
  key : Stamp := {}
  deriving DecidableEq, Repr

structure State where
  stc : Nat
  pkg : Nat
  nPkg : Nat
  turn : Turn
  inp : Input
  agenda : List Job
  freeCtr : Nat
  dram : List Host.Cell
  cores : SMap Core
  dies : SMap Die
  ctxs : SMap Context
  launches : List Launch
  recs : List TaskRec
  windows : List Window
  teams : List Team
  barriers : List Barrier
  ht : SMap Nat
  dir : List DirEnt
  publishes : List Publish
  sentLin : List Lineage
  heldPubs : List HeldPub
  rwins : List RWin
  contribs : List Contrib
  daus : SMap Dau
  damos : List DamoOp
  pairs : List PairOp
  /-- pairing buffers of the bridge stations: 8 on d0, 9 on d4 (14 R363) -/
  bridgeBuf : SMap (List Nat)
  /-- seq of each issuer outside tasks, by issuer index (00 R10, 14 R353) -/
  unitSeq : SMap (BitVec 16)
  packets : List Packet
  /-- last arrival of a packet by way: 16 x source + 2 x target + direction (14 R349) -/
  ringLast : SMap Nat
  cut : List Nat
  deliveries : List Delivery
  floors : SMap Nat
  /-- boundaries of the rack ring that failed at other packages: boundary k lies between packages k and k + 1 (14 R352) -/
  rackCut : List Nat
  exports : List ExportEnt
  rtc : List RtcEnt
  migrations : List Migration
  /-- pages that a host's migration moved: old frame, new frame, bytes (14 R360 step 5, log 99) -/
  forwards : List (Nat × Nat × Nat)
  retries : List RetryWrite
  saveAreas : List SaveArea
  invals : List HostCmd
  groups : SMap (List Nat)
  links : SMap Link
  /-- the registers of the endpoint that serves the host, on d0 until d0 is lost -/
  host : HostRegs
  /-- those of the standby endpoint, on d4 (14 R369) -/
  ep4 : HostRegs
  mgmt : MgmtRegs
  bx : Boxwood
  stopped : Bool
  nextId : Nat
  order : Nat
  nextFrame : SMap Nat
  deriving DecidableEq, Repr

/-- The machine has no fault of its own: every fault and trap the manual describes is a next state (02 R58, 07 R177, 08 R240,
12 R304). `stopped` is raised by the step alone, in a package that has stopped until reset and for which no reset is to come (17 R407,
R413): safe. -/
inductive Fault where
  | stopped
  deriving DecidableEq, Repr

/-- `notModelled` is raised by an arm of exec whose instruction has no meaning yet: safe. -/
inductive Refusal where
  | notModelled (mnemonic : String)
  deriving DecidableEq, Repr

/-- The machine right after a cold reset (19 R427): stage 0 of bring-up, every core idle with its state at the values of
02 R60, no context, launch, record, booking or tile, the stamp clock at 0, memory with nothing listed. -/
def State.reset : State where
  stc := 0
  pkg := 0
  nPkg := 1
  turn := {}
  inp := {}
  agenda := []
  freeCtr := 0
  dram := []
  cores := []
  dies := []
  ctxs := []
  launches := []
  recs := []
  windows := []
  teams := []
  barriers := []
  ht := []
  dir := []
  publishes := []
  sentLin := []
  heldPubs := []
  rwins := []
  contribs := []
  daus := []
  damos := []
  pairs := []
  bridgeBuf := []
  unitSeq := []
  packets := []
  ringLast := []
  cut := []
  deliveries := []
  floors := []
  rackCut := []
  exports := []
  rtc := []
  migrations := []
  forwards := []
  retries := []
  saveAreas := []
  invals := []
  groups := []
  links := []
  host := {}
  ep4 := { standby := true, active := false }
  mgmt := {}
  bx := {}
  stopped := false
  nextId := 0
  order := 0
  nextFrame := []

end Sys2Proof.Machine
end

