-- ==== Sys2Proof/WellFormed.lean ====
section
/-! DEFINITION. Well-formedness of an instruction as a sequencer may fetch it: its opcode, who may fetch it (04 Table 4.7),
which bits of its fields must be zero (04 R88 step 3) and the ranges of its fields (04 R88 step 4, R90 to R95). What depends
on the context's tables or on run-time state is judged by Machine/Operands.lean. -/

namespace Sys2Proof

/-- The generation-1 opcode of an instruction word (04 Table 4.7); an event has none. -/
def Instr.opc : Instr → Option Nat
  | .add .. => some 0x008 | .sub .. => some 0x009 | .mul .. => some 0x00A | .mulhi .. => some 0x00B
  | .mulhu .. => some 0x00C | .and .. => some 0x00D | .or .. => some 0x00E | .xor .. => some 0x00F
  | .andn .. => some 0x010 | .shl .. => some 0x011 | .shr .. => some 0x012 | .sra .. => some 0x013
  | .min .. => some 0x014 | .max .. => some 0x015 | .minu .. => some 0x016 | .maxu .. => some 0x017
  | .clmul .. => some 0x018 | .clmulh .. => some 0x019 | .popc .. => some 0x01A | .clz .. => some 0x01B
  | .ctz .. => some 0x01C | .sel .. => some 0x01D | .seq .. => some 0x01E | .slt .. => some 0x01F
  | .sltu .. => some 0x020 | .mov .. => some 0x021
  | .addi .. => some 0x028 | .andi .. => some 0x029 | .ori .. => some 0x02A | .xori .. => some 0x02B
  | .shli .. => some 0x02C | .shri .. => some 0x02D | .srai .. => some 0x02E | .li .. => some 0x02F
  | .lih .. => some 0x030
  | .beq .. => some 0x038 | .bne .. => some 0x039 | .blt .. => some 0x03A | .bge .. => some 0x03B
  | .bltu .. => some 0x03C | .bgeu .. => some 0x03D | .bz .. => some 0x03E | .bnz .. => some 0x03F
  | .jmp .. => some 0x040 | .jmpr .. => some 0x041 | .call .. => some 0x042 | .callr .. => some 0x043
  | .ret => some 0x044 | .retEh => some 0x044 | .beng .. => some 0x045
  | .loop .. => some 0x048 | .loopi .. => some 0x049
  | .mfsr .. => some 0x050 | .mtsr .. => some 0x051 | .rdstc .. => some 0x052 | .rdstcT0 .. => some 0x052
  | .rdeng .. => some 0x053 | .modeCal => some 0x054 | .modeSb => some 0x054 | .trap .. => some 0x055
  | .halt => some 0x056 | .nop => some 0x057
  | .vadd .. => some 0x100 | .vsub .. => some 0x101 | .vmul .. => some 0x102 | .vdiv .. => some 0x103
  | .vfma .. => some 0x104 | .vfms .. => some 0x105 | .vfnma .. => some 0x106 | .vfnms .. => some 0x107
  | .vmin .. => some 0x108 | .vmax .. => some 0x109 | .vabs .. => some 0x10A | .vneg .. => some 0x10B
  | .vsqrt .. => some 0x10C | .vrcp .. => some 0x10D | .vrsqrt .. => some 0x10E | .vclass .. => some 0x10F
  | .vexp .. => some 0x110 | .vexp2 .. => some 0x111 | .vlog .. => some 0x112 | .vlog2 .. => some 0x113
  | .verf .. => some 0x114
  | .viadd .. => some 0x118 | .visub .. => some 0x119 | .vimul .. => some 0x11A | .vimulh .. => some 0x11B
  | .viand .. => some 0x11C | .vior .. => some 0x11D | .vixor .. => some 0x11E | .vishl .. => some 0x11F
  | .vishr .. => some 0x120 | .visra .. => some 0x121 | .vimin .. => some 0x122 | .vimax .. => some 0x123
  | .viabs .. => some 0x124 | .vpopc .. => some 0x125
  | .vrotr .. => some 0x128 | .vrotc .. => some 0x129 | .vbcr .. => some 0x12A | .vbcc .. => some 0x12B
  | .vredr .. => some 0x12C | .vredc .. => some 0x12D | .vprer .. => some 0x12E | .vprec .. => some 0x12F
  | .vpxorr .. => some 0x130 | .vpxorc .. => some 0x131
  | .vperm .. => some 0x138 | .vsel .. => some 0x139 | .vmov .. => some 0x13A | .vzip .. => some 0x13B
  | .vunzip .. => some 0x13C
  | .vcmpeq .. => some 0x140 | .vcmpne .. => some 0x141 | .vcmplt .. => some 0x142 | .vcmple .. => some 0x143
  | .vicmpeq .. => some 0x144 | .vicmplt .. => some 0x145 | .vicmple .. => some 0x146
  | .pset .. => some 0x148 | .pcnt .. => some 0x149 | .pfirst .. => some 0x14A | .mpush .. => some 0x14B
  | .minv .. => some 0x14C | .mpop => some 0x14D | .spset .. => some 0x14E | .spshl .. => some 0x14F
  | .rrbdec => some 0x150 | .rrbset .. => some 0x151
  | .vcvt .. => some 0x158 | .vpk8 .. => some 0x159 | .vpk4 .. => some 0x15A | .vupk8 .. => some 0x15B
  | .vupk4 .. => some 0x15C | .vpk8x .. => some 0x15D | .vpk4x .. => some 0x15E
  | .vflrd .. => some 0x160 | .vflclr .. => some 0x161 | .vrand .. => some 0x162
  | .fpush .. => some 0x200 | .mma .. => some 0x201 | .scnt .. => some 0x202 | .mholdOn .. => some 0x203
  | .mholdOff .. => some 0x203 | .mdrain .. => some 0x204 | .mmerge .. => some 0x205 | .bsave .. => some 0x206
  | .bload .. => some 0x207 | .azero .. => some 0x208 | .aload .. => some 0x209 | .astore .. => some 0x20A
  | .wcvt .. => some 0x20B | .wzero .. => some 0x20C | .ckctlOn .. => some 0x20D | .ckctlDetect .. => some 0x20D
  | .ckctlOff .. => some 0x20D | .ringset .. => some 0x20E | .ringadv .. => some 0x20F | .ringpop .. => some 0x210
  | .a2v .. => some 0x211 | .v2a .. => some 0x212 | .ckrd .. => some 0x213
  | .ldspm .. => some 0x280 | .lddram .. => some 0x281 | .ldgath .. => some 0x282 | .ldrg .. => some 0x283
  | .ldscal .. => some 0x284 | .ldbc .. => some 0x285 | .pref .. => some 0x286
  | .stspm .. => some 0x288 | .stdram .. => some 0x289 | .stscat .. => some 0x28A | .strg .. => some 0x28B
  | .stscal .. => some 0x28C
  | .qmark .. => some 0x290 | .copy .. => some 0x291 | .copyw .. => some 0x292 | .fence .. => some 0x293
  | .publishBuf .. => some 0x294 | .publishTile .. => some 0x294
  | .amo .. => some 0x298 | .ramo .. => some 0x299 | .damo .. => some 0x29A | .rwadd .. => some 0x29B
  | .rwaddBlk .. => some 0x29B | .rwopen .. => some 0x29C | .rwclose .. => some 0x29D
  | .pinit .. => some 0x2A0 | .ppush .. => some 0x2A1 | .ppop .. => some 0x2A2
  | .tkwait .. => some 0x2A4 | .tksig .. => some 0x2A5 | .bar .. => some 0x2A8
  | .book .. => some 0x2B0 | .bookq .. => some 0x2B1 | .start .. => some 0x2B2 | .tend => some 0x2B3
  | .spawn .. => some 0x2B4 | .launch .. => some 0x2B5 | .wborrow .. => some 0x2B6
  | .tlfill .. => some 0x2B8 | .tlwait .. => some 0x2B9 | .tlquery .. => some 0x2BA | .cut => some 0x2BC
  | .vectorGroupRead .. | .vectorCompletion .. | .vectorCommit .. | .matrixCommandStart .. | .ringBlockRead ..
  | .mmaBlockAdd .. | .scntBlockCount .. | .matrixRetire .. | .engineFaultTrap .. | .loadQueuePush .. | .lddramReturn ..
  | .storePerformed .. | .gatherElement .. | .copyNodeStart .. | .copyUnit .. | .copyNodeRetire .. | .publishSwitch ..
  | .rwContribution .. | .rwDelivery .. | .modeDrainDone .. | .calendarT0Resume .. | .taskEnd .. | .bookingPlacement ..
  | .prologueStart .. | .coreSpanStart .. | .taskRunStart .. | .windowEnd .. | .preemptRequest .. | .preemptCutStop ..
  | .preemptTimeoutStop .. | .stateSaveDone .. | .restorePrologue .. | .priorityAging .. | .weightReturn ..
  | .barrierDeparture .. | .lineageAck .. | .replicaComplete .. | .darnerWalk .. | .verificationCompare .. | .spareFill ..
  | .spareFillComplete .. | .damoArrival .. | .damoRetryResend .. | .horizonMessage .. | .damoWindowClose ..
  | .pairingArrival .. | .pairingHoldExpiry .. | .fallThroughApply .. | .atomicResultReturn .. | .weightBorrowAck ..
  | .queueRotation | .dieWorkSteal | .bookingRelease | .teamAdmission | .teamSwap | .shardPressureReplication
  | .claspPairing | .multicastWrite | .ringPacketArrival | .ringPacketResend | .heartbeat | .boundaryCut
  | .deliveryContextOpen | .deliveryPacketArrival | .deliveryResendTimeout | .deliveryBusyRetry | .deliveryTeardown
  | .remoteTranslationReq | .remoteTranslationReply | .exportInvalidation | .pinRelease | .migrationCopyDone
  | .migrationSwitch | .migrationLogRetry | .migrationFree | .hcmdLaunch | .hcmdCtxnew | .hcmdCtxend | .hcmdInval
  | .hcmdExport | .hcmdUnexport | .hcmdMigrate | .hcmdMcgroup | .icauseWrite | .imaskWrite | .registerWrite | .mresetGo
  | .fwstage | .attreq | .pcapWrite | .coldReset | .pcieReset | .bringupStage | .rackStcSync | .powerStateEntry
  | .powerStateExit | .thermalLimit | .eccCorrection | .eccReread | .patrolScrub | .frameRetirement | .sramDoubleBitError
  | .redundantRunCompare | .testDue | .testScanStart | .testScanEnd | .testAbort | .sensorAlarm | .linkFrameReceive
  | .linkNakReceive | .linkKeyExchange | .linkKeyMarker | .dcpFatalFault | .rackLinkFailure | .hostMemoryWrite
  | .ringPacketAck | .deliveryAck | .linkFrameAck | .exportInvalidationAck => none

/-- The sequencers that Table 4.7 lists for an opcode; `none` for an opcode the table leaves out (04 R104, R105). -/
def opcSeqs (o : Nat) : Option (List Seq) :=
  if o < 0x008 then none
  else if o ≤ 0x021 then some [.c, .l, .s]
  else if o < 0x028 then none
  else if o ≤ 0x030 then some [.c, .l, .s]
  else if o < 0x038 then none
  else if o ≤ 0x03F then some [.c, .l, .s]
  else if o ≤ 0x045 then (if o = 0x041 ∨ o = 0x043 then some [.c, .l, .s] else some [.c, .l, .x, .s])
  else if o < 0x048 then none
  else if o = 0x048 then some [.c, .l, .s]
  else if o = 0x049 then some [.c, .l, .x, .s]
  else if o < 0x050 then none
  else if o ≤ 0x057 then (if o = 0x052 ∨ o = 0x053 then some [.c, .l, .s] else some [.c, .l, .x, .s])
  else if o < 0x100 then none
  else if o ≤ 0x114 then some [.x]
  else if o < 0x118 then none
  else if o ≤ 0x125 then some [.x]
  else if o < 0x128 then none
  else if o ≤ 0x131 then some [.x]
  else if o < 0x138 then none
  else if o ≤ 0x13C then some [.x]
  else if o < 0x140 then none
  else if o ≤ 0x146 then some [.x]
  else if o < 0x148 then none
  else if o ≤ 0x151 then some [.x]
  else if o < 0x158 then none
  else if o ≤ 0x15E then some [.x]
  else if o < 0x160 then none
  else if o ≤ 0x162 then some [.x]
  else if o < 0x200 then none
  else if o = 0x200 then some [.c]
  else if o ≤ 0x20D then some [.x]
  else if o = 0x20E then some [.c]
  else if o = 0x20F then some [.c, .l, .s]
  else if o ≤ 0x213 then some [.x]
  else if o < 0x280 then none
  else if o ≤ 0x286 then some [.l]
  else if o < 0x288 then none
  else if o ≤ 0x28C then some [.s]
  else if o < 0x290 then none
  else if o = 0x290 then some [.l, .s]
  else if o ≤ 0x292 then some [.c]
  else if o = 0x293 then some [.c, .l, .x, .s]
  else if o = 0x294 then some [.c]
  else if o < 0x298 then none
  else if o ≤ 0x29B then some [.c, .l, .s]
  else if o ≤ 0x29D then some [.c]
  else if o < 0x2A0 then none
  else if o = 0x2A0 then some [.c]
  else if o ≤ 0x2A2 then some [.c, .l, .s]
  else if o < 0x2A4 then none
  else if o ≤ 0x2A5 then some [.c, .l, .x, .s]
  else if o = 0x2A8 then some [.c, .l, .x, .s]
  else if o < 0x2B0 then none
  else if o = 0x2B3 then some [.c, .l, .x, .s]
  else if o ≤ 0x2B6 then some [.c]
  else if o < 0x2B8 then none
  else if o ≤ 0x2BA then some [.c]
  else if o = 0x2BC then some [.c, .l, .x, .s]
  else none

/-- The opcode is assigned and the sequencer may fetch it (04 R88 steps 1 and 2 under the default table). -/
def opcLegal (o : Nat) (q : Seq) : Bool :=
  match opcSeqs o with
  | some l => l.contains q
  | none => false

/-- A scalar-register field names a register of its sequencer (04 R90). -/
def regOk (q : Seq) (r : RegF) : Bool :=
  match q with
  | .l => r < 32#6
  | .s => r < 32#6
  | .c => true
  | .x => true

/-- A source operand (04 R91). -/
def srcOk (v : VOpF) : Bool := v.toNat ≤ 711
/-- A destination operand (04 R91). -/
def dstOk (v : VOpF) : Bool := v.toNat ≤ 639 || (704 ≤ v.toNat && v.toNat ≤ 711)
/-- A constant operand k0 to k63 (04 R91). -/
def isKonst (v : VOpF) : Bool := 640 ≤ v.toNat && v.toNat ≤ 703
/-- A predicate field (04 R93). -/
def predOk (p : PredF) : Bool := p.toNat ≤ 17
/-- RM of an FP-class TY (04 R94). -/
def rmOk (ty : TyF) : Bool := ty.toNat / 4 ≠ 5 && ty.toNat / 4 ≠ 6
/-- FT is f32 or f64 (06 R142, R145). -/
def wideFt (ty : TyF) : Bool := 2 ≤ ty.toNat % 4

/-- Three-operand FP word (06 R142). -/
def fp3Ok (d a b : VOpF) (p : PredF) (ty : TyF) : Bool := dstOk d && srcOk a && srcOk b && predOk p && rmOk ty
/-- Two-operand FP word (06 R142). -/
def fp2Ok (d a : VOpF) (p : PredF) (ty : TyF) : Bool := dstOk d && srcOk a && predOk p && rmOk ty
/-- Three-operand integer word; `m` is the largest MOD the row lists (06 R146). -/
def int3Ok (m : Nat) (d a b : VOpF) (p : PredF) (ty : TyF) : Bool :=
  dstOk d && srcOk a && srcOk b && predOk p && ty.toNat / 8 ≤ m
/-- Two-operand integer word (06 R146). -/
def int2Ok (m : Nat) (d a : VOpF) (p : PredF) (ty : TyF) : Bool := dstOk d && srcOk a && predOk p && ty.toNat / 8 ≤ m
/-- Reduction and prefix words (06 R148): class and OP by K, TY by the class; a MOD that the OP does not take is out of range
(log 84). -/
def redOk (d a : VOpF) (k : BitVec 10) (p : PredF) (ty : TyF) : Bool :=
  dstOk d && srcOk a && predOk p &&
  (if k.toNat / 8 % 2 = 0 then k.toNat % 8 ≤ 2 && rmOk ty
   else k.toNat % 8 ≤ 5 && ty.toNat / 8 ≤ (if k.toNat % 8 = 0 then 1 else 0))
/-- Columns of a register at width code w (06 R148). -/
def colsOf (w : Nat) : Nat := 256 / 2 ^ w
/-- Elements of a register at width code w (02 Table 2.2). -/
def elemsOf (w : Nat) : Nat := 4096 / 2 ^ w

/-- Width in bits of a type code of vcvt (06 R159); 0 for codes 14 and 15. -/
def cvtWidth (c : Nat) : Nat :=
  if c = 0 ∨ c = 1 then 16 else if c = 2 then 32 else if c = 3 then 64 else if c = 4 ∨ c = 5 then 8
  else if c = 6 ∨ c = 10 then 8 else if c = 7 ∨ c = 11 then 16 else if c = 8 ∨ c = 12 then 32
  else if c = 9 ∨ c = 13 then 64 else 0
/-- A type code of vcvt names an integer type. -/
def cvtInt (c : Nat) : Bool := 6 ≤ c && c ≤ 13
/-- FROM, TO, PART and SAT of vcvt (06 R159). -/
def cvtFrom (spec : BitVec 10) : Nat := spec.toNat % 16
def cvtTo (spec : BitVec 10) : Nat := spec.toNat / 16 % 16
def cvtPart (spec : BitVec 10) (ty : TyF) : Nat := 4 * (ty.toNat / 2 % 2) + spec.toNat / 256
def cvtSat (ty : TyF) : Bool := ty.toNat % 2 = 1
def cvtOk (a : VOpF) (spec : BitVec 10) (ty : TyF) : Bool :=
  let f := cvtFrom spec; let t := cvtTo spec
  let wf := cvtWidth f; let wt := cvtWidth t
  f < 14 && t < 14 && f ≠ t && rmOk ty &&
  decide (cvtPart spec ty < Nat.max (wf / wt) (Nat.max (wt / wf) 1)) &&
  (!cvtSat ty || t = 4 || t = 5 || (cvtInt f && cvtInt t)) &&
  !(isKonst a && (f = 4 || f = 5))

/-- SCOPE between two values (08 Table 8.1). -/
def scopeIn (lo hi : Nat) (s : BitVec 3) : Bool := lo ≤ s.toNat && s.toNat ≤ hi

/-- Bits inside an instruction's fields that must be zero (04 R88 step 3: ILLINS). -/
def Instr.zeroOk : Instr → Bool
  | .vmin _ _ _ _ ty | .vmax _ _ _ _ ty | .vcmpeq _ _ _ _ ty | .vcmpne _ _ _ _ ty | .vcmplt _ _ _ _ ty
  | .vcmple _ _ _ _ ty => ty.toNat / 4 = 0
  | .vabs _ _ _ ty | .vneg _ _ _ ty | .vclass _ _ _ ty => ty.toNat / 4 = 0
  | .vrotr _ _ _ _ ty | .vrotc _ _ _ _ ty | .vbcr _ _ _ _ ty | .vbcc _ _ _ _ ty => ty.toNat / 4 = 0
  | .vredr _ _ k _ _ | .vredc _ _ k _ _ | .vprer _ _ k _ _ | .vprec _ _ k _ _ => k.toNat / 16 = 0
  | .vpxorr _ _ k ty => ty.toNat / 4 = 0 && k.toNat / 4 = 0
  | .vpxorc _ _ ty => ty.toNat / 4 = 0
  | .vperm _ _ _ _ ty | .vzip _ _ _ _ ty | .vunzip _ _ _ _ ty => ty.toNat / 8 = 0
  | .vsel _ _ _ _ ty => ty.toNat / 4 = 0
  | .vmov _ _ _ ty => ty.toNat / 4 = 0
  | .vicmpeq _ _ _ _ ty | .vicmplt _ _ _ _ ty | .vicmple _ _ _ _ ty => ty.toNat / 8 = 0
  | .amo _ _ b c k _ _ _ | .ramo _ _ b c k _ _ | .damo _ _ b c k _ _ => (c = 0#6 || k = 10#4) && (b = 0#6 || k ≠ 0#4)
  | .spawn _ _ _ prio inh => inh = 0#1 || prio = 0#3
  | _ => true

/-- The fields hold values in their stated ranges (04 R88 step 4: ILLOP). -/
def Instr.inRange (q : Seq) : Instr → Bool
  | .add d a b | .sub d a b | .mul d a b | .mulhi d a b | .mulhu d a b | .and d a b | .or d a b | .xor d a b
  | .andn d a b | .shl d a b | .shr d a b | .sra d a b | .min d a b | .max d a b | .minu d a b | .maxu d a b
  | .clmul d a b | .clmulh d a b | .sel d a b | .seq d a b | .slt d a b | .sltu d a b =>
      regOk q d && regOk q a && regOk q b
  | .popc d a | .clz d a | .ctz d a | .mov d a => regOk q d && regOk q a
  | .addi d _ | .andi d _ | .ori d _ | .xori d _ | .li d _ | .lih d _ => regOk q d
  | .shli d i | .shri d i | .srai d i => regOk q d && i.toNat ≤ 63
  | .beq a b _ | .bne a b _ | .blt a b _ | .bge a b _ | .bltu a b _ | .bgeu a b _ => regOk q a && regOk q b
  | .bz a _ | .bnz a _ | .jmpr a | .callr a => regOk q a
  | .beng e c _ => e.toNat ≤ 6 && c.toNat ≤ 2
  | .loop _ a _ => regOk q a
  | .mfsr d _ | .mtsr d _ => regOk q d
  | .rdstc d | .rdstcT0 d => regOk q d
  | .rdeng d e => regOk q d && e.toNat ≤ 6
  | .trap c => c.toNat ≠ 1023
  | .vadd d a b p ty | .vsub d a b p ty | .vmul d a b p ty | .vfma d a b p ty | .vfms d a b p ty
  | .vfnma d a b p ty | .vfnms d a b p ty | .vmin d a b p ty | .vmax d a b p ty
  | .vcmpeq d a b p ty | .vcmpne d a b p ty | .vcmplt d a b p ty | .vcmple d a b p ty => fp3Ok d a b p ty
  | .vdiv d a b p ty => fp3Ok d a b p ty && wideFt ty
  | .vabs d a p ty | .vneg d a p ty | .vclass d a p ty => fp2Ok d a p ty
  | .vsqrt d a p ty | .vrcp d a p ty | .vrsqrt d a p ty | .vexp d a p ty | .vexp2 d a p ty | .vlog d a p ty
  | .vlog2 d a p ty | .verf d a p ty => fp2Ok d a p ty && wideFt ty
  | .viadd d a b p ty | .visub d a b p ty | .vimul d a b p ty => int3Ok 1 d a b p ty
  | .vimulh d a b p ty | .viand d a b p ty | .vior d a b p ty | .vixor d a b p ty | .vishl d a b p ty
  | .vishr d a b p ty | .visra d a b p ty | .vimin d a b p ty | .vimax d a b p ty
  | .vicmpeq d a b p ty | .vicmplt d a b p ty | .vicmple d a b p ty => int3Ok 0 d a b p ty
  | .viabs d a p ty => int2Ok 1 d a p ty
  | .vpopc d a p ty => int2Ok 0 d a p ty
  | .vrotr d a k p ty | .vbcr d a k p ty =>
      dstOk d && srcOk a && predOk p && decide (k.toNat < colsOf (ty.toNat % 4))
  | .vrotc d a k p _ | .vbcc d a k p _ => dstOk d && srcOk a && predOk p && k.toNat ≤ 15
  | .vredr d a k p ty | .vredc d a k p ty | .vprer d a k p ty | .vprec d a k p ty => redOk d a k p ty
  | .vpxorr d a k _ => dstOk d && srcOk a && (k.toNat / 2 % 2 = 0 || k.toNat % 2 = 1)
  | .vpxorc d a _ => dstOk d && srcOk a
  | .vperm d a b p _ | .vsel d a b p _ | .vzip d a b p _ | .vunzip d a b p _ =>
      dstOk d && srcOk a && srcOk b && predOk p
  | .vmov d a p _ => dstOk d && srcOk a && predOk p
  | .pset _ n w g =>
      1 ≤ g.toNat && g.toNat ≤ 6 && decide (n.toNat ≤ Nat.min 6144 (g.toNat * elemsOf w.toNat))
  | .pcnt pd a g w | .pfirst pd a g w =>
      pd.toNat ≤ 7 && srcOk a && 1 ≤ g.toNat && g.toNat ≤ 6 && decide (g.toNat * elemsOf w.toNat ≤ 6144)
  | .mpush a _ w => srcOk a && 2 ≤ w.toNat
  | .vcvt d a spec p ty => dstOk d && srcOk a && predOk p && cvtOk a spec ty
  | .vpk8 d a e ty | .vpk4 d a e ty => dstOk d && srcOk a && srcOk e && rmOk ty
  | .vpk8x d a e ty | .vpk4x d a e ty => dstOk d && srcOk a && decide (e.toNat ≤ 639) && rmOk ty
  | .vupk8 d a e _ | .vupk4 d a e _ => dstOk d && srcOk a && !isKonst a && srcOk e
  | .vflrd d p => dstOk d && predOk p
  | .vflclr _ p => predOk p
  | .vrand d a p _ => dstOk d && srcOk a && !isKonst a && predOk p
  | .mma t _ | .azero t _ | .wcvt t _ => t.toNat ≤ 47
  | .mdrain _ t _ | .wzero t _ => t.toNat ≤ 11
  | .aload w t _ | .astore w t _ => decide (t.toNat ≤ if w = 1#1 then 11 else 47)
  | .ringset _ a b => regOk q a && regOk q b
  | .ringadv _ a => regOk q a
  | .ringpop _ n => n.toNat ≠ 0
  | .a2v v t _ _ p => dstOk v && t.toNat ≤ 47 && predOk p
  | .v2a v t _ _ p => srcOk v && t.toNat ≤ 47 && predOk p
  | .ckrd v => dstOk v
  | .ldspm r _ _ _ | .lddram r _ _ _ | .ldgath r _ _ _ | .ldrg r _ _ _ _ | .ldbc r _ _ _ | .stspm r _ _ _
  | .stdram r _ _ _ | .stscat r _ _ _ | .strg r _ _ _ _ => r.toNat ≤ 7
  | .ldscal r _ _ _ | .stscal r _ _ _ => r.toNat ≤ 31
  | .fence o => scopeIn 0 5 o.scope
  | .publishBuf _ _ s | .publishTile _ s => scopeIn 1 5 s
  | .amo d a b c k sz sp o =>
      regOk q d && regOk q a && regOk q b && regOk q c && k.toNat ≤ 11 && sz.toNat ≤ 1 &&
      scopeIn 1 (if sp = 1#1 then 2 else 5) o.scope
  | .ramo d a b c k sz o | .damo d a b c k sz o =>
      regOk q d && regOk q a && regOk q b && regOk q c && k.toNat ≤ 11 && sz.toNat ≤ 1 && scopeIn 3 5 o.scope
  | .rwopen _ _ _ _ _ s => scopeIn 3 5 s
  | .rwadd a b c _ o | .rwaddBlk a b c _ o =>
      regOk q a && regOk q b && regOk q c && (o.toNat = 0 || o.toNat = 2)
  | .rwclose _ _ o => o.toNat ≤ 1
  | .ppush d a b _ o => regOk q d && regOk q a && regOk q b && scopeIn 3 5 o.scope
  | .ppop d b a _ o => regOk q d && regOk q b && regOk q a && scopeIn 3 5 o.scope
  | .tkwait d n o => (d.toNat = 1 || d.toNat = 2) && n.toNat ≠ 0 && o.toNat ≤ 1
  | .tksig d n o => (d.toNat = 1 || d.toNat = 2) && n.toNat ≠ 0 && (o.toNat = 0 || o.toNat = 2)
  | .bar lv o => lv.toNat ≤ 5 && scopeIn 1 5 o.scope && (o.ord.toNat = 0 || o.ord.toNat = 3)
  | _ => true

/-- The instruction is a word that sequencer q may fetch and that decodes, as far as the word alone decides. -/
def Instr.wf (q : Seq) (i : Instr) : Bool :=
  match i.opc with
  | some o => opcLegal o q && i.zeroOk && i.inRange q
  | none => false

end Sys2Proof
end

