-- ==== Sys2Proof/Decode.lean ====
section
/-! DEFINITION. Decoding of a 64-bit word as the operation its opcode names in the context's table (04 R85 to R106), and the
encoder written from the same formats. A word that fails is answered with the cause of the first check of R88 that fails. -/

namespace Sys2Proof

open Sys2Proof.Machine (Cause)

/-! ### The word and the operand formats of Table 4.2, packed from their fields -/

/-- The instruction word of Table 4.1. -/
def packWord (opc : BitVec 10) (h : Hdr) (o : BitVec 40) : BitVec 64 := opc ++ h.idle ++ h.pop ++ h.push ++ o
def packSR (d a b : BitVec 6) : BitVec 40 := d ++ a ++ b ++ 0#22
def packSI (d : BitVec 6) (imm : BitVec 32) : BitVec 40 := d ++ 0#2 ++ imm
def packBR (a b : BitVec 6) (tgt : BitVec 14) : BitVec 40 := a ++ b ++ 0#14 ++ tgt
def packLP (lc : BitVec 2) (a : BitVec 6) (icnt : BitVec 18) (last : BitVec 14) : BitVec 40 := lc ++ a ++ icnt ++ last
def packSY (d : BitVec 6) (s : BitVec 10) : BitVec 40 := d ++ 0#24 ++ s
def packV3 (d a b : BitVec 10) (p ty : BitVec 5) : BitVec 40 := d ++ a ++ b ++ p ++ ty
def packPI (pd : BitVec 3) (n : BitVec 13) (w : BitVec 2) (g : BitVec 3) : BitVec 40 := pd ++ n ++ w ++ g ++ 0#19
def packM (t : BitVec 6) (x : BitVec 2) (a : BitVec 32) : BitVec 40 := t ++ x ++ a
def packMV (v : BitVec 10) (t : BitVec 6) (rb : BitVec 3) (ch : BitVec 1) (p : BitVec 5) : BitVec 40 :=
  v ++ t ++ rb ++ ch ++ 0#10 ++ p ++ 0#5
def packRG (rg : BitVec 4) (a b : BitVec 6) : BitVec 40 := rg ++ a ++ b ++ 0#24
def packMEM (r : BitVec 6) (base idx : BitVec 5) (off : BitVec 24) : BitVec 40 := r ++ base ++ idx ++ off
def packTK (d a b c : BitVec 6) (scope : BitVec 3) (ord : BitVec 2) (k : BitVec 11) : BitVec 40 :=
  d ++ a ++ b ++ c ++ scope ++ ord ++ k

/-! ### Fields cut from the operand bits -/

/-- Six-bit field at bit position n. -/
def fld6 (o : BitVec 40) (n : Nat) : BitVec 6 := o.extractLsb' n 6
/-- Ten-bit field at bit position n. -/
def fld10 (o : BitVec 40) (n : Nat) : BitVec 10 := o.extractLsb' n 10

/-- The checks of R88 steps 3 and 4 once the word's zero fields and its variant are known: `none` names a variant that a
field's value leaves out of range. -/
def finish (q : Seq) (zero : Bool) (i : Option Instr) : Except Cause Instr :=
  if zero then
    match i with
    | some i => if i.zeroOk then (if i.inRange q then .ok i else .error .illop) else .error .illins
    | none => .error .illop
  else .error .illins

/-- 0x008 to 0x021 and 0x200, format SR (05 R111, 07 R169). -/
def decodeSR (q : Seq) (opc : Nat) (o : BitVec 40) : Except Cause Instr :=
  let d := fld6 o 34; let a := fld6 o 28; let b := fld6 o 22
  let z := o.extractLsb' 0 22 = 0#22
  let zb := z && b = 0#6
  if opc = 0x008 then finish q z (some (.add d a b))
  else if opc = 0x009 then finish q z (some (.sub d a b))
  else if opc = 0x00A then finish q z (some (.mul d a b))
  else if opc = 0x00B then finish q z (some (.mulhi d a b))
  else if opc = 0x00C then finish q z (some (.mulhu d a b))
  else if opc = 0x00D then finish q z (some (.and d a b))
  else if opc = 0x00E then finish q z (some (.or d a b))
  else if opc = 0x00F then finish q z (some (.xor d a b))
  else if opc = 0x010 then finish q z (some (.andn d a b))
  else if opc = 0x011 then finish q z (some (.shl d a b))
  else if opc = 0x012 then finish q z (some (.shr d a b))
  else if opc = 0x013 then finish q z (some (.sra d a b))
  else if opc = 0x014 then finish q z (some (.min d a b))
  else if opc = 0x015 then finish q z (some (.max d a b))
  else if opc = 0x016 then finish q z (some (.minu d a b))
  else if opc = 0x017 then finish q z (some (.maxu d a b))
  else if opc = 0x018 then finish q z (some (.clmul d a b))
  else if opc = 0x019 then finish q z (some (.clmulh d a b))
  else if opc = 0x01A then finish q zb (some (.popc d a))
  else if opc = 0x01B then finish q zb (some (.clz d a))
  else if opc = 0x01C then finish q zb (some (.ctz d a))
  else if opc = 0x01D then finish q z (some (.sel d a b))
  else if opc = 0x01E then finish q z (some (.seq d a b))
  else if opc = 0x01F then finish q z (some (.slt d a b))
  else if opc = 0x020 then finish q z (some (.sltu d a b))
  else if opc = 0x021 then finish q zb (some (.mov d a))
  else if opc = 0x200 then finish q (zb && d = 0#6) (some (.fpush a))
  else .error .illins

/-- 0x028 to 0x030, format SI (05 R112). -/
def decodeSI (q : Seq) (opc : Nat) (o : BitVec 40) : Except Cause Instr :=
  let d := fld6 o 34; let imm := o.extractLsb' 0 32
  let z := o.extractLsb' 32 2 = 0#2
  if opc = 0x028 then finish q z (some (.addi d imm))
  else if opc = 0x029 then finish q z (some (.andi d imm))
  else if opc = 0x02A then finish q z (some (.ori d imm))
  else if opc = 0x02B then finish q z (some (.xori d imm))
  else if opc = 0x02C then finish q z (some (.shli d imm))
  else if opc = 0x02D then finish q z (some (.shri d imm))
  else if opc = 0x02E then finish q z (some (.srai d imm))
  else if opc = 0x02F then finish q z (some (.li d imm))
  else if opc = 0x030 then finish q z (some (.lih d imm))
  else .error .illins

/-- 0x038 to 0x045, format BR (05 R115, R116, R118). -/
def decodeBR (q : Seq) (opc : Nat) (o : BitVec 40) : Except Cause Instr :=
  let a := fld6 o 34; let b := fld6 o 28; let tgt := o.extractLsb' 0 14
  let z := o.extractLsb' 14 14 = 0#14
  let za := a = 0#6
  let zb := b = 0#6
  let zt := tgt = 0#14
  if opc = 0x038 then finish q z (some (.beq a b tgt))
  else if opc = 0x039 then finish q z (some (.bne a b tgt))
  else if opc = 0x03A then finish q z (some (.blt a b tgt))
  else if opc = 0x03B then finish q z (some (.bge a b tgt))
  else if opc = 0x03C then finish q z (some (.bltu a b tgt))
  else if opc = 0x03D then finish q z (some (.bgeu a b tgt))
  else if opc = 0x03E then finish q (z && zb) (some (.bz a tgt))
  else if opc = 0x03F then finish q (z && zb) (some (.bnz a tgt))
  else if opc = 0x040 then finish q (z && za && zb) (some (.jmp tgt))
  else if opc = 0x041 then finish q (z && zb && zt) (some (.jmpr a))
  else if opc = 0x042 then finish q (z && za && zb) (some (.call tgt))
  else if opc = 0x043 then finish q (z && zb && zt) (some (.callr a))
  else if opc = 0x044 then
    finish q (z && za && zt) (if b = 0#6 then some .ret else if b = 1#6 then some .retEh else none)
  else if opc = 0x045 then finish q z (some (.beng a b tgt))
  else .error .illins

/-- 0x048 and 0x049, format LP (05 R123). -/
def decodeLP (q : Seq) (opc : Nat) (o : BitVec 40) : Except Cause Instr :=
  let lc := o.extractLsb' 38 2; let a := o.extractLsb' 32 6; let icnt := o.extractLsb' 14 18
  let last := o.extractLsb' 0 14
  if opc = 0x048 then finish q (icnt = 0#18) (some (.loop lc a last))
  else if opc = 0x049 then finish q (a = 0#6) (some (.loopi lc icnt last))
  else .error .illins

/-- 0x050 to 0x057, format SY (05 R126 to R134). -/
def decodeSY (q : Seq) (opc : Nat) (o : BitVec 40) : Except Cause Instr :=
  let d := fld6 o 34; let s := fld10 o 0
  let z := o.extractLsb' 10 24 = 0#24
  let zd := z && d = 0#6
  if opc = 0x050 then finish q z (some (.mfsr d s))
  else if opc = 0x051 then finish q z (some (.mtsr d s))
  else if opc = 0x052 then
    finish q z (if s = 0#10 then some (.rdstc d) else if s = 1#10 then some (.rdstcT0 d) else none)
  else if opc = 0x053 then finish q z (some (.rdeng d s))
  else if opc = 0x054 then
    finish q zd (if s = 0#10 then some .modeCal else if s = 1#10 then some .modeSb else none)
  else if opc = 0x055 then finish q zd (some (.trap s))
  else if opc = 0x056 then finish q (zd && s = 0#10) (some .halt)
  else if opc = 0x057 then finish q (zd && s = 0#10) (some .nop)
  else .error .illins

/-- 0x100 to 0x114, format V3, class FP (06 R142, R145). -/
def decodeVF (q : Seq) (opc : Nat) (o : BitVec 40) : Except Cause Instr :=
  let d := fld10 o 30; let a := fld10 o 20; let b := fld10 o 10
  let p := o.extractLsb' 5 5; let ty := o.extractLsb' 0 5
  let zb := b = 0#10
  if opc = 0x100 then finish q true (some (.vadd d a b p ty))
  else if opc = 0x101 then finish q true (some (.vsub d a b p ty))
  else if opc = 0x102 then finish q true (some (.vmul d a b p ty))
  else if opc = 0x103 then finish q true (some (.vdiv d a b p ty))
  else if opc = 0x104 then finish q true (some (.vfma d a b p ty))
  else if opc = 0x105 then finish q true (some (.vfms d a b p ty))
  else if opc = 0x106 then finish q true (some (.vfnma d a b p ty))
  else if opc = 0x107 then finish q true (some (.vfnms d a b p ty))
  else if opc = 0x108 then finish q true (some (.vmin d a b p ty))
  else if opc = 0x109 then finish q true (some (.vmax d a b p ty))
  else if opc = 0x10A then finish q zb (some (.vabs d a p ty))
  else if opc = 0x10B then finish q zb (some (.vneg d a p ty))
  else if opc = 0x10C then finish q zb (some (.vsqrt d a p ty))
  else if opc = 0x10D then finish q zb (some (.vrcp d a p ty))
  else if opc = 0x10E then finish q zb (some (.vrsqrt d a p ty))
  else if opc = 0x10F then finish q zb (some (.vclass d a p ty))
  else if opc = 0x110 then finish q zb (some (.vexp d a p ty))
  else if opc = 0x111 then finish q zb (some (.vexp2 d a p ty))
  else if opc = 0x112 then finish q zb (some (.vlog d a p ty))
  else if opc = 0x113 then finish q zb (some (.vlog2 d a p ty))
  else if opc = 0x114 then finish q zb (some (.verf d a p ty))
  else .error .illins

/-- 0x118 to 0x125, format V3, class Int (06 R146), and the compares 0x140 to 0x146 (06 R147). -/
def decodeVI (q : Seq) (opc : Nat) (o : BitVec 40) : Except Cause Instr :=
  let d := fld10 o 30; let a := fld10 o 20; let b := fld10 o 10
  let p := o.extractLsb' 5 5; let ty := o.extractLsb' 0 5
  let zb := b = 0#10
  if opc = 0x118 then finish q true (some (.viadd d a b p ty))
  else if opc = 0x119 then finish q true (some (.visub d a b p ty))
  else if opc = 0x11A then finish q true (some (.vimul d a b p ty))
  else if opc = 0x11B then finish q true (some (.vimulh d a b p ty))
  else if opc = 0x11C then finish q true (some (.viand d a b p ty))
  else if opc = 0x11D then finish q true (some (.vior d a b p ty))
  else if opc = 0x11E then finish q true (some (.vixor d a b p ty))
  else if opc = 0x11F then finish q true (some (.vishl d a b p ty))
  else if opc = 0x120 then finish q true (some (.vishr d a b p ty))
  else if opc = 0x121 then finish q true (some (.visra d a b p ty))
  else if opc = 0x122 then finish q true (some (.vimin d a b p ty))
  else if opc = 0x123 then finish q true (some (.vimax d a b p ty))
  else if opc = 0x124 then finish q zb (some (.viabs d a p ty))
  else if opc = 0x125 then finish q zb (some (.vpopc d a p ty))
  else if opc = 0x140 then finish q true (some (.vcmpeq d a b p ty))
  else if opc = 0x141 then finish q true (some (.vcmpne d a b p ty))
  else if opc = 0x142 then finish q true (some (.vcmplt d a b p ty))
  else if opc = 0x143 then finish q true (some (.vcmple d a b p ty))
  else if opc = 0x144 then finish q true (some (.vicmpeq d a b p ty))
  else if opc = 0x145 then finish q true (some (.vicmplt d a b p ty))
  else if opc = 0x146 then finish q true (some (.vicmple d a b p ty))
  else .error .illins

/-- 0x128 to 0x131, format VK (06 R148), and 0x138 to 0x13C, format V3 (06 R153). -/
def decodeVA (q : Seq) (opc : Nat) (o : BitVec 40) : Except Cause Instr :=
  let d := fld10 o 30; let a := fld10 o 20; let b := fld10 o 10
  let p := o.extractLsb' 5 5; let ty := o.extractLsb' 0 5
  let zp := p = 0#5
  if opc = 0x128 then finish q true (some (.vrotr d a b p ty))
  else if opc = 0x129 then finish q true (some (.vrotc d a b p ty))
  else if opc = 0x12A then finish q true (some (.vbcr d a b p ty))
  else if opc = 0x12B then finish q true (some (.vbcc d a b p ty))
  else if opc = 0x12C then finish q true (some (.vredr d a b p ty))
  else if opc = 0x12D then finish q true (some (.vredc d a b p ty))
  else if opc = 0x12E then finish q true (some (.vprer d a b p ty))
  else if opc = 0x12F then finish q true (some (.vprec d a b p ty))
  else if opc = 0x130 then finish q zp (some (.vpxorr d a b ty))
  else if opc = 0x131 then finish q (zp && b = 0#10) (some (.vpxorc d a ty))
  else if opc = 0x138 then finish q true (some (.vperm d a b p ty))
  else if opc = 0x139 then finish q true (some (.vsel d a b p ty))
  else if opc = 0x13A then finish q (b = 0#10) (some (.vmov d a p ty))
  else if opc = 0x13B then finish q true (some (.vzip d a b p ty))
  else if opc = 0x13C then finish q true (some (.vunzip d a b p ty))
  else .error .illins

/-- 0x148 to 0x151, formats PI and VK (06 R154 to R158). -/
def decodeVP (q : Seq) (opc : Nat) (o : BitVec 40) : Except Cause Instr :=
  let d := fld10 o 30; let a := fld10 o 20; let k := fld10 o 10
  let p := o.extractLsb' 5 5; let ty := o.extractLsb' 0 5; let w := o.extractLsb' 0 2
  let zd := d = 0#10; let za := a = 0#10; let zk := k = 0#10; let zp := p = 0#5; let zt := ty = 0#5
  let zt3 := o.extractLsb' 2 3 = 0#3
  if opc = 0x148 then
    finish q (o.extractLsb' 0 19 = 0#19)
      (some (.pset (o.extractLsb' 37 3) (o.extractLsb' 24 13) (o.extractLsb' 22 2) (o.extractLsb' 19 3)))
  else if opc = 0x149 then
    finish q (o.extractLsb' 13 7 = 0#7 && zt3 && zp) (some (.pcnt d a (o.extractLsb' 10 3) w))
  else if opc = 0x14A then
    finish q (o.extractLsb' 13 7 = 0#7 && zt3 && zp) (some (.pfirst d a (o.extractLsb' 10 3) w))
  else if opc = 0x14B then finish q (zd && zp && zt3) (some (.mpush a k w))
  else if opc = 0x14C then finish q (zd && za && zp && zt) (some (.minv k))
  else if opc = 0x14D then finish q (zd && za && zk && zp && zt) (some .mpop)
  else if opc = 0x14E then
    finish q (zd && za && zp && zt && o.extractLsb' 18 2 = 0#2) (some (.spset (o.extractLsb' 10 8)))
  else if opc = 0x14F then
    finish q (zd && za && zp && zt && o.extractLsb' 12 8 = 0#8)
      (some (.spshl (o.extractLsb' 10 1) (o.extractLsb' 11 1)))
  else if opc = 0x150 then finish q (zd && za && zk && zp && zt) (some .rrbdec)
  else if opc = 0x151 then finish q (zd && za && zp && zt) (some (.rrbset k))
  else .error .illins

/-- 0x158 to 0x162 (06 R159 to R165). -/
def decodeVC (q : Seq) (opc : Nat) (o : BitVec 40) : Except Cause Instr :=
  let d := fld10 o 30; let a := fld10 o 20; let b := fld10 o 10
  let p := o.extractLsb' 5 5; let ty := o.extractLsb' 0 5; let part := o.extractLsb' 0 2
  let zd := d = 0#10; let za := a = 0#10; let zb := b = 0#10; let zp := p = 0#5; let zt := ty = 0#5
  let zt3 := o.extractLsb' 2 3 = 0#3
  if opc = 0x158 then finish q true (some (.vcvt d a b p ty))
  else if opc = 0x159 then finish q zp (some (.vpk8 d a b ty))
  else if opc = 0x15A then finish q zp (some (.vpk4 d a b ty))
  else if opc = 0x15B then finish q (zp && zt3) (some (.vupk8 d a b part))
  else if opc = 0x15C then finish q (zp && zt3) (some (.vupk4 d a b part))
  else if opc = 0x15D then finish q zp (some (.vpk8x d a b ty))
  else if opc = 0x15E then finish q zp (some (.vpk4x d a b ty))
  else if opc = 0x160 then finish q (za && zb && zt) (some (.vflrd d p))
  else if opc = 0x161 then
    finish q (zd && za && zt && o.extractLsb' 15 5 = 0#5) (some (.vflclr (o.extractLsb' 10 5) p))
  else if opc = 0x162 then finish q (zb && zt3) (some (.vrand d a p part))
  else .error .illins

/-- 0x201 to 0x20D, format M (07 R171). -/
def decodeM (q : Seq) (opc : Nat) (o : BitVec 40) : Except Cause Instr :=
  let t := fld6 o 34; let x := o.extractLsb' 32 2; let at_ := o.extractLsb' 0 32
  let bank := o.extractLsb' 32 1
  let zt := t = 0#6; let zx := x = 0#2; let zx1 := o.extractLsb' 33 1 = 0#1
  if opc = 0x201 then finish q zx (some (.mma t at_))
  else if opc = 0x202 then finish q (zt && zx1) (some (.scnt bank at_))
  else if opc = 0x203 then
    finish q zt (if o.extractLsb' 33 1 = 1#1 then some (.mholdOn bank at_) else some (.mholdOff bank at_))
  else if opc = 0x204 then finish q zx1 (some (.mdrain bank t at_))
  else if opc = 0x205 then finish q (zt && zx1) (some (.mmerge bank at_))
  else if opc = 0x206 then finish q (zt && zx1) (some (.bsave bank at_))
  else if opc = 0x207 then finish q (zt && zx1) (some (.bload bank at_))
  else if opc = 0x208 then finish q zx (some (.azero t at_))
  else if opc = 0x209 then finish q true (if zx1 then some (.aload bank t at_) else none)
  else if opc = 0x20A then finish q true (if zx1 then some (.astore bank t at_) else none)
  else if opc = 0x20B then finish q zx (some (.wcvt t at_))
  else if opc = 0x20C then finish q zx (some (.wzero t at_))
  else if opc = 0x20D then
    finish q zt (if x = 1#2 then some (.ckctlOn at_) else if x = 2#2 then some (.ckctlDetect at_)
      else if x = 0#2 then some (.ckctlOff at_) else none)
  else .error .illins

/-- 0x20E to 0x213, formats RG and MV (07 R179, R193, R197). -/
def decodeRG (q : Seq) (opc : Nat) (o : BitVec 40) : Except Cause Instr :=
  let rg := o.extractLsb' 36 4; let a := fld6 o 30; let b := fld6 o 24
  let z := o.extractLsb' 0 24 = 0#24
  let v := fld10 o 30; let t := fld6 o 24; let rb := o.extractLsb' 21 3; let ch := o.extractLsb' 20 1
  let p := o.extractLsb' 5 5
  let zv := o.extractLsb' 10 10 = 0#10 && o.extractLsb' 0 5 = 0#5
  if opc = 0x20E then finish q z (some (.ringset rg a b))
  else if opc = 0x20F then finish q (z && b = 0#6) (some (.ringadv rg a))
  else if opc = 0x210 then finish q (z && b = 0#6) (some (.ringpop rg a))
  else if opc = 0x211 then finish q zv (some (.a2v v t rb ch p))
  else if opc = 0x212 then finish q zv (some (.v2a v t rb ch p))
  else if opc = 0x213 then finish q (zv && t = 0#6 && rb = 0#3 && ch = 0#1 && p = 0#5) (some (.ckrd v))
  else .error .illins

/-- 0x280 to 0x28C, format MEM (08 R205). -/
def decodeMEM (q : Seq) (opc : Nat) (o : BitVec 40) : Except Cause Instr :=
  let r := fld6 o 34; let base := o.extractLsb' 29 5; let idx := o.extractLsb' 24 5; let off := o.extractLsb' 0 24
  let rg := o.extractLsb' 0 4; let bit := o.extractLsb' 4 1
  let zo := o.extractLsb' 5 19 = 0#19
  if opc = 0x280 then finish q true (some (.ldspm r base idx off))
  else if opc = 0x281 then finish q true (some (.lddram r base idx off))
  else if opc = 0x282 then finish q true (some (.ldgath r base idx off))
  else if opc = 0x283 then finish q zo (some (.ldrg r base idx rg bit))
  else if opc = 0x284 then finish q true (some (.ldscal r base idx off))
  else if opc = 0x285 then finish q true (some (.ldbc r base idx off))
  else if opc = 0x286 then finish q (r = 0#6) (some (.pref base idx off))
  else if opc = 0x288 then finish q true (some (.stspm r base idx off))
  else if opc = 0x289 then finish q true (some (.stdram r base idx off))
  else if opc = 0x28A then finish q true (some (.stscat r base idx off))
  else if opc = 0x28B then finish q zo (some (.strg r base idx rg bit))
  else if opc = 0x28C then finish q true (some (.stscal r base idx off))
  else .error .illins

/-- 0x290 to 0x2BC, format TK (08 R212 to R238). K[15:11] of a word that takes no scope or order must be 0 (08 R199). -/
def decodeTK (q : Seq) (opc : Nat) (o : BitVec 40) : Except Cause Instr :=
  let d := fld6 o 34; let a := fld6 o 28; let b := fld6 o 22; let c := fld6 o 16
  let sc := o.extractLsb' 13 3; let od := o.extractLsb' 11 2; let k := o.extractLsb' 0 11
  let or_ : Ordr := ⟨sc, od⟩
  let zd := d = 0#6; let za := a = 0#6; let zb := b = 0#6; let zc := c = 0#6
  let zall := zd && za && zb && zc
  let zs := sc = 0#3; let zo := od = 0#2
  let zso := zs && zo
  let zk := zso && k = 0#11
  if opc = 0x290 then
    finish q (zall && zso && o.extractLsb' 8 3 = 0#3) (some (.qmark (o.extractLsb' 0 8)))
  else if opc = 0x291 then
    finish q (zso && o.extractLsb' 9 2 = 0#2)
      (some (.copy d a b c (o.extractLsb' 0 6) (o.extractLsb' 6 1) (o.extractLsb' 7 1) (o.extractLsb' 8 1)))
  else if opc = 0x292 then
    finish q (zso && o.extractLsb' 9 2 = 0#2)
      (some (.copyw d a b c (o.extractLsb' 0 6) (o.extractLsb' 6 1) (o.extractLsb' 7 1) (o.extractLsb' 8 1)))
  else if opc = 0x293 then finish q (zall && k = 0#11) (some (.fence or_))
  else if opc = 0x294 then
    if o.extractLsb' 0 1 = 0#1 then
      finish q (zd && zc && o.extractLsb' 1 10 = 0#10) (if zo then some (.publishBuf a b sc) else none)
    else finish q (zd && zb && zc && o.extractLsb' 1 10 = 0#10) (if zo then some (.publishTile a sc) else none)
  else if opc = 0x298 then
    finish q (o.extractLsb' 7 4 = 0#4)
      (some (.amo d a b c (o.extractLsb' 0 4) (o.extractLsb' 4 2) (o.extractLsb' 6 1) or_))
  else if opc = 0x299 then
    finish q (o.extractLsb' 6 5 = 0#5) (some (.ramo d a b c (o.extractLsb' 0 4) (o.extractLsb' 4 2) or_))
  else if opc = 0x29A then
    finish q (o.extractLsb' 6 5 = 0#5) (some (.damo d a b c (o.extractLsb' 0 4) (o.extractLsb' 4 2) or_))
  else if opc = 0x29B then
    finish q (zd && o.extractLsb' 2 9 = 0#9)
      (if zs then (if o.extractLsb' 0 1 = 0#1 then some (.rwadd a b c (o.extractLsb' 1 1) od)
        else some (.rwaddBlk a b c (o.extractLsb' 1 1) od)) else none)
  else if opc = 0x29C then
    finish q (o.extractLsb' 1 10 = 0#10) (if zo then some (.rwopen d a b c (o.extractLsb' 0 1) sc) else none)
  else if opc = 0x29D then finish q (zb && zc && k = 0#11) (if zs then some (.rwclose d a od) else none)
  else if opc = 0x2A0 then finish q (zd && zc && zk) (some (.pinit a b))
  else if opc = 0x2A1 then
    finish q (zc && o.extractLsb' 1 10 = 0#10) (some (.ppush d a b (o.extractLsb' 0 1) or_))
  else if opc = 0x2A2 then
    finish q (zc && o.extractLsb' 1 10 = 0#10) (some (.ppop d b a (o.extractLsb' 0 1) or_))
  else if opc = 0x2A4 then
    finish q (zall && o.extractLsb' 8 3 = 0#3)
      (if zs then some (.tkwait (o.extractLsb' 0 2) (o.extractLsb' 2 6) od) else none)
  else if opc = 0x2A5 then
    finish q (zall && o.extractLsb' 8 3 = 0#3)
      (if zs then some (.tksig (o.extractLsb' 0 2) (o.extractLsb' 2 6) od) else none)
  else if opc = 0x2A8 then
    finish q (zall && o.extractLsb' 3 8 = 0#8) (some (.bar (o.extractLsb' 0 3) or_))
  else if opc = 0x2B0 then finish q (zb && zc && zk) (some (.book d a))
  else if opc = 0x2B1 then finish q (zb && zc && zk) (some (.bookq d a))
  else if opc = 0x2B2 then finish q (zd && zb && zc && zk) (some (.start a))
  else if opc = 0x2B3 then finish q (zall && zk) (some .tend)
  else if opc = 0x2B4 then
    finish q (zc && zso && o.extractLsb' 4 7 = 0#7)
      (some (.spawn d a b (o.extractLsb' 0 3) (o.extractLsb' 3 1)))
  else if opc = 0x2B5 then finish q (zb && zc && zk) (some (.launch d a))
  else if opc = 0x2B6 then finish q (za && zb && zc && zk) (some (.wborrow d))
  else if opc = 0x2B8 then finish q (zd && zb && zc && zk) (some (.tlfill a))
  else if opc = 0x2B9 then finish q (zb && zc && zk) (some (.tlwait d a))
  else if opc = 0x2BA then finish q (zb && zc && zk) (some (.tlquery d a))
  else if opc = 0x2BC then finish q (zall && zk) (some .cut)
  else .error .illins

/-- The operation of generation-1 opcode `opc` read from the operand bits, with the checks of R88 steps 2 to 4. -/
def decodeOps (q : Seq) (opc : Nat) (o : BitVec 40) : Except Cause Instr :=
  if opcLegal opc q then
    if opc < 0x028 then decodeSR q opc o
    else if opc < 0x038 then decodeSI q opc o
    else if opc < 0x048 then decodeBR q opc o
    else if opc < 0x050 then decodeLP q opc o
    else if opc < 0x100 then decodeSY q opc o
    else if opc < 0x118 then decodeVF q opc o
    else if opc < 0x128 then decodeVI q opc o
    else if opc < 0x140 then decodeVA q opc o
    else if opc < 0x148 then decodeVI q opc o
    else if opc < 0x158 then decodeVP q opc o
    else if opc < 0x200 then decodeVC q opc o
    else if opc < 0x201 then decodeSR q opc o
    else if opc < 0x20E then decodeM q opc o
    else if opc < 0x280 then decodeRG q opc o
    else if opc < 0x290 then decodeMEM q opc o
    else decodeTK q opc o
  else .error .illins

/-- Entry of the decode table for an opcode: that of the context's image, or of the generation-1 map (04 R102, R103). -/
def tableEntry (tab : Option (SMap (BitVec 16))) (opc : Nat) : BitVec 16 :=
  match tab with
  | some t =>
    match t.find? (fun p => p.1 = opc) with
    | some p => p.2
    | none => 0#16
  | none => if (opcSeqs opc).isSome then BitVec.ofNat 16 (0x8000 + opc) else BitVec.ofNat 16 opc

/-- The header of a word (04 Table 4.1). -/
def decodeHdr (w : BitVec 64) : Hdr := ⟨w.extractLsb' 44 10, w.extractLsb' 42 2, w.extractLsb' 40 2⟩

/-- Decode of a fetched word through a decode table: R88 steps 1 to 4 (04 R88, R102, R105, R106). -/
def decode (tab : Option (SMap (BitVec 16))) (q : Seq) (w : BitVec 64) : Except Cause Instr :=
  let opc := (w.extractLsb' 54 10).toNat
  let e := tableEntry tab opc
  if opc = 0 ∨ 0x3C0 ≤ opc ∨ e.toNat < 0x8000 then .error .illins
  else decodeOps q (e.toNat % 1024) (w.extractLsb' 0 40)

/-! ### The encoder -/

/-- The operand bits of an instruction word (04 Table 4.2); an event has none. -/
def Instr.operands : Instr → BitVec 40
  | .add d a b | .sub d a b | .mul d a b | .mulhi d a b | .mulhu d a b | .and d a b | .or d a b | .xor d a b
  | .andn d a b | .shl d a b | .shr d a b | .sra d a b | .min d a b | .max d a b | .minu d a b | .maxu d a b
  | .clmul d a b | .clmulh d a b | .sel d a b | .seq d a b | .slt d a b | .sltu d a b => packSR d a b
  | .popc d a | .clz d a | .ctz d a | .mov d a => packSR d a 0#6
  | .addi d i | .andi d i | .ori d i | .xori d i | .shli d i | .shri d i | .srai d i | .li d i | .lih d i => packSI d i
  | .beq a b t | .bne a b t | .blt a b t | .bge a b t | .bltu a b t | .bgeu a b t => packBR a b t
  | .bz a t | .bnz a t => packBR a 0#6 t
  | .jmp t | .call t => packBR 0#6 0#6 t
  | .jmpr a | .callr a => packBR a 0#6 0#14
  | .ret => packBR 0#6 0#6 0#14
  | .retEh => packBR 0#6 1#6 0#14
  | .beng e c t => packBR e c t
  | .loop lc a l => packLP lc a 0#18 l
  | .loopi lc n l => packLP lc 0#6 n l
  | .mfsr d s | .mtsr d s => packSY d s
  | .rdstc d => packSY d 0#10
  | .rdstcT0 d => packSY d 1#10
  | .rdeng d e => packSY d e
  | .modeCal => packSY 0#6 0#10
  | .modeSb => packSY 0#6 1#10
  | .trap c => packSY 0#6 c
  | .halt | .nop => packSY 0#6 0#10
  | .vadd d a b p ty | .vsub d a b p ty | .vmul d a b p ty | .vdiv d a b p ty | .vfma d a b p ty | .vfms d a b p ty
  | .vfnma d a b p ty | .vfnms d a b p ty | .vmin d a b p ty | .vmax d a b p ty | .viadd d a b p ty | .visub d a b p ty
  | .vimul d a b p ty | .vimulh d a b p ty | .viand d a b p ty | .vior d a b p ty | .vixor d a b p ty | .vishl d a b p ty
  | .vishr d a b p ty | .visra d a b p ty | .vimin d a b p ty | .vimax d a b p ty | .vperm d a b p ty | .vsel d a b p ty
  | .vzip d a b p ty | .vunzip d a b p ty | .vcmpeq d a b p ty | .vcmpne d a b p ty | .vcmplt d a b p ty
  | .vcmple d a b p ty | .vicmpeq d a b p ty | .vicmplt d a b p ty | .vicmple d a b p ty => packV3 d a b p ty
  | .vabs d a p ty | .vneg d a p ty | .vsqrt d a p ty | .vrcp d a p ty | .vrsqrt d a p ty | .vclass d a p ty
  | .vexp d a p ty | .vexp2 d a p ty | .vlog d a p ty | .vlog2 d a p ty | .verf d a p ty | .viabs d a p ty
  | .vpopc d a p ty | .vmov d a p ty => packV3 d a 0#10 p ty
  | .vrotr d a k p ty | .vrotc d a k p ty | .vbcr d a k p ty | .vbcc d a k p ty | .vredr d a k p ty | .vredc d a k p ty
  | .vprer d a k p ty | .vprec d a k p ty => packV3 d a k p ty
  | .vpxorr d a k ty => packV3 d a k 0#5 ty
  | .vpxorc d a ty => packV3 d a 0#10 0#5 ty
  | .pset pd n w g => packPI pd n w g
  | .pcnt pd a g w | .pfirst pd a g w => packV3 pd a (0#7 ++ g) 0#5 (0#3 ++ w)
  | .mpush a k w => packV3 0#10 a k 0#5 (0#3 ++ w)
  | .minv k => packV3 0#10 0#10 k 0#5 0#5
  | .mpop | .rrbdec => packV3 0#10 0#10 0#10 0#5 0#5
  | .spset m => packV3 0#10 0#10 (0#2 ++ m) 0#5 0#5
  | .spshl bit rr => packV3 0#10 0#10 (0#8 ++ rr ++ bit) 0#5 0#5
  | .rrbset k => packV3 0#10 0#10 k 0#5 0#5
  | .vcvt d a s p ty => packV3 d a s p ty
  | .vpk8 d a e ty | .vpk4 d a e ty | .vpk8x d a e ty | .vpk4x d a e ty => packV3 d a e 0#5 ty
  | .vupk8 d a e part | .vupk4 d a e part => packV3 d a e 0#5 (0#3 ++ part)
  | .vflrd d p => packV3 d 0#10 0#10 p 0#5
  | .vflclr m p => packV3 0#10 0#10 (0#5 ++ m) p 0#5
  | .vrand d a p key => packV3 d a 0#10 p (0#3 ++ key)
  | .fpush a => packSR 0#6 a 0#6
  | .mma t n | .azero t n | .wcvt t n | .wzero t n => packM t 0#2 n
  | .scnt k n | .mholdOff k n | .mmerge k n | .bsave k n | .bload k n => packM 0#6 (0#1 ++ k) n
  | .mholdOn k n => packM 0#6 (1#1 ++ k) n
  | .mdrain k t n => packM t (0#1 ++ k) n
  | .aload w t n | .astore w t n => packM t (0#1 ++ w) n
  | .ckctlOn n => packM 0#6 1#2 n
  | .ckctlDetect n => packM 0#6 2#2 n
  | .ckctlOff n => packM 0#6 0#2 n
  | .ringset rg a b => packRG rg a b
  | .ringadv rg a => packRG rg a 0#6
  | .ringpop rg n => packRG rg n 0#6
  | .a2v v t rb ch p | .v2a v t rb ch p => packMV v t rb ch p
  | .ckrd v => packMV v 0#6 0#3 0#1 0#5
  | .ldspm r b i o | .lddram r b i o | .ldgath r b i o | .ldscal r b i o | .ldbc r b i o | .stspm r b i o
  | .stdram r b i o | .stscat r b i o | .stscal r b i o => packMEM r b i o
  | .ldrg r b i rg pop | .strg r b i rg pop => packMEM r b i (0#19 ++ pop ++ rg)
  | .pref b i o => packMEM 0#6 b i o
  | .qmark t => packTK 0#6 0#6 0#6 0#6 0#3 0#2 (0#3 ++ t)
  | .copy d a b c tag sh ss ds | .copyw d a b c tag sh ss ds => packTK d a b c 0#3 0#2 (0#2 ++ ds ++ ss ++ sh ++ tag)
  | .fence o => packTK 0#6 0#6 0#6 0#6 o.scope o.ord 0#11
  | .publishBuf a b s => packTK 0#6 a b 0#6 s 0#2 0#11
  | .publishTile a s => packTK 0#6 a 0#6 0#6 s 0#2 1#11
  | .amo d a b c k sz sp o => packTK d a b c o.scope o.ord (0#4 ++ sp ++ sz ++ k)
  | .ramo d a b c k sz o | .damo d a b c k sz o => packTK d a b c o.scope o.ord (0#5 ++ sz ++ k)
  | .rwopen d a b c m s => packTK d a b c s 0#2 (0#10 ++ m)
  | .rwadd a b c l o => packTK 0#6 a b c 0#3 o (0#9 ++ l ++ 0#1)
  | .rwaddBlk a b c l o => packTK 0#6 a b c 0#3 o (0#9 ++ l ++ 1#1)
  | .rwclose d a o => packTK d a 0#6 0#6 0#3 o 0#11
  | .pinit a b => packTK 0#6 a b 0#6 0#3 0#2 0#11
  | .ppush d a b qu o => packTK d a b 0#6 o.scope o.ord (0#10 ++ qu)
  | .ppop d b a qu o => packTK d a b 0#6 o.scope o.ord (0#10 ++ qu)
  | .tkwait d n o | .tksig d n o => packTK 0#6 0#6 0#6 0#6 0#3 o (0#3 ++ n ++ d)
  | .bar lv o => packTK 0#6 0#6 0#6 0#6 o.scope o.ord (0#8 ++ lv)
  | .book d a | .bookq d a | .launch d a | .tlwait d a | .tlquery d a => packTK d a 0#6 0#6 0#3 0#2 0#11
  | .start a | .tlfill a => packTK 0#6 a 0#6 0#6 0#3 0#2 0#11
  | .tend | .cut => packTK 0#6 0#6 0#6 0#6 0#3 0#2 0#11
  | .spawn d a b pr inh => packTK d a b 0#6 0#3 0#2 (0#7 ++ inh ++ pr)
  | .wborrow d => packTK d 0#6 0#6 0#6 0#3 0#2 0#11
  | _ => 0#40

/-- The word of an instruction with its header (04 Table 4.1). -/
def encode (h : Hdr) (i : Instr) : BitVec 64 := packWord (BitVec.ofNat 10 (i.opc.getD 0)) h i.operands

/-- The sequencer on which a word decodes under the generation-1 map, the first of C, L, X, S, and what it decodes to. -/
def decodeAny (w : BitVec 64) : Option (Seq × Instr) :=
  match decode none .c w with
  | .ok i => some (.c, i)
  | .error _ =>
    match decode none .l w with
    | .ok i => some (.l, i)
    | .error _ =>
      match decode none .x w with
      | .ok i => some (.x, i)
      | .error _ =>
        match decode none .s w with
        | .ok i => some (.s, i)
        | .error _ => none

/-- The instruction of an opcode-table word: one 64-bit word, the bits above `nbits` zero. -/
def decodeTableWord (nbits w : Nat) : Option Instr :=
  (decodeAny (BitVec.ofNat 64 (w % 2 ^ nbits))).map (·.2)

end Sys2Proof
end

