-- ==== Sys2Proof/Machine/Store.lean ====
section
/-! DEFINITION. Tables and memories in canonical form: keys strictly rising, no entry equal to what an unlisted key reads as.
Memory is a table from byte address to byte whose unlisted bytes read 0 (log 3). -/

namespace Sys2Proof.Machine

/-- The value at a key; an unlisted key reads `dflt`. -/
def SMap.get {α : Type} (dflt : α) : SMap α → Nat → α
  | [], _ => dflt
  | (k, v) :: t, n => if n = k then v else SMap.get dflt t n

/-- The entry at a key, if there is one. -/
def SMap.get? {α : Type} : SMap α → Nat → Option α
  | [], _ => none
  | (k, v) :: t, n => if n = k then some v else SMap.get? t n

/-- The table without a key. -/
def SMap.del {α : Type} : SMap α → Nat → SMap α
  | [], _ => []
  | (k, v) :: t, n => if n = k then SMap.del t n else (k, v) :: SMap.del t n

/-- The table with an entry put at a key, in key order. -/
def SMap.ins {α : Type} : SMap α → Nat → α → SMap α
  | [], n, x => [(n, x)]
  | (k, v) :: t, n, x => if n < k then (n, x) :: (k, v) :: t else if n = k then (n, x) :: t else (k, v) :: SMap.ins t n x

/-- Write of a value at a key; writing what an unlisted key reads as removes the entry. -/
def SMap.put {α : Type} [DecidableEq α] (dflt : α) (m : SMap α) (n : Nat) (x : α) : SMap α :=
  if x = dflt then SMap.del m n else SMap.ins m n x

/-- Keys strictly rise from `lo` on and no entry holds the default. -/
def SMap.wfFrom {α : Type} [DecidableEq α] (dflt : α) : Nat → SMap α → Bool
  | _, [] => true
  | lo, (k, v) :: t => decide (lo ≤ k) && decide (v ≠ dflt) && SMap.wfFrom dflt (k + 1) t

/-- The canonical form. -/
def SMap.wf {α : Type} [DecidableEq α] (dflt : α) (m : SMap α) : Bool := SMap.wfFrom dflt 0 m

/-! ### Byte memory -/

/-- What an unlisted byte reads as (log 3). -/
def Memory.unlisted : Byte := 0#8

/-- The canonical form of a memory. -/
def Memory.wf (m : List Host.Cell) : Bool := SMap.wf Memory.unlisted m

/-- One byte. -/
def Memory.byte (m : List Host.Cell) (a : Nat) : Byte := SMap.get Memory.unlisted m a

/-- Write of one byte. -/
def Memory.setByte (m : List Host.Cell) (a : Nat) (b : Byte) : List Host.Cell := SMap.put Memory.unlisted m a b

/-- n bytes from an address upward. -/
def Memory.bytes (m : List Host.Cell) (a : Nat) : Nat → List Byte
  | 0 => []
  | n + 1 => Memory.byte m a :: Memory.bytes m (a + 1) n

/-- Write of bytes from an address upward. -/
def Memory.setBytes (m : List Host.Cell) (a : Nat) : List Byte → List Host.Cell
  | [] => m
  | b :: t => Memory.setBytes (Memory.setByte m a b) (a + 1) t

/-- Little-endian value of bytes (00 R6). -/
def leVal : List Byte → Nat
  | [] => 0
  | b :: t => b.toNat + 256 * leVal t

/-- The n bytes of a value, little-endian. -/
def leBytes : Nat → Nat → List Byte
  | 0, _ => []
  | n + 1, v => BitVec.ofNat 8 v :: leBytes n (v / 256)

/-- n-byte little-endian read. -/
def Memory.read (m : List Host.Cell) (a n : Nat) : Nat := leVal (Memory.bytes m a n)

/-- n-byte little-endian write. -/
def Memory.write (m : List Host.Cell) (a n v : Nat) : List Host.Cell := Memory.setBytes m a (leBytes n v)

/-! ### Small list helpers -/

/-- First n that satisfies p among `lo`, `lo + 1`, …, `lo + fuel - 1`. -/
def findNat (p : Nat → Bool) : Nat → Nat → Option Nat
  | 0, _ => none
  | fuel + 1, lo => if p lo then some lo else findNat p fuel (lo + 1)

/-- Fold over 0 to n - 1, ascending. -/
def forUp {α : Type} : Nat → (Nat → α → α) → α → α
  | 0, _, a => a
  | n + 1, f, a => f n (forUp n f a)

/-- Bit field of a natural number. -/
def bitsN (x lo n : Nat) : Nat := x / 2 ^ lo % 2 ^ n

end Sys2Proof.Machine
end

