-- ==== Sys2Proof/Machine/Aes.lean ====
section
/-! DEFINITION. AES-128 encryption of one block (FIPS 197, named by 06 R165), on lists of 16 bytes in memory order. -/

namespace Sys2Proof.Machine.Aes

/-- The S-box of FIPS 197, sixteen entries a row, entry x of the row at byte x. -/
def sboxRows : List Nat :=
  [0x76abd7fe2b670130c56f6bf27b777c63,
   0xc072a49cafa2d4adf04759fa7dc982ca,
   0x1531d871f1e5a534ccf73f362693fdb7,
   0x75b227ebe28012079a059618c323c704,
   0x842fe329b3d63b52a05a6e1b1a2c8309,
   0xcf584c4a39becb6a5bb1fc20ed00d153,
   0xa89f3c507f02f94585334d43fbaaefd0,
   0xd2f3ff1021dab6bcf5389d928f40a351,
   0x73195d643d7ea7c41744975fec130ccd,
   0xdb0b5ede14b8ee4688902a22dc4f8160,
   0x79e4959162acd3c25c2406490a3a32e0,
   0x08ae7a65eaf4566ca94ed58d6d37c8e7,
   0x8a8bbd4b1f74dde8c6b4a61c2e2578ba,
   0x9e1dc186b95735610ef6034866b53e70,
   0xdf2855cee9871e9b948ed9691198f8e1,
   0x16bb54b00f2d99416842e6bf0d89a18c]

def sbox (x : Nat) : Nat := sboxRows.getD (x / 16) 0 / 2 ^ (8 * (x % 16)) % 256

/-- Multiplication by x modulo x^8 + x^4 + x^3 + x + 1. -/
def xtime (x : Nat) : Nat := if x < 128 then 2 * x else (2 * x - 256) ^^^ 0x1B

/-- The next round key from a round key of 16 bytes. -/
def nextKey (rcon : Nat) (k : List Nat) : List Nat :=
  let g (i : Nat) : Nat := k.getD i 0
  let t := [sbox (g 13) ^^^ rcon, sbox (g 14), sbox (g 15), sbox (g 12)]
  let w0 := (List.range 4).map fun i => g i ^^^ t.getD i 0
  let w1 := (List.range 4).map fun i => g (4 + i) ^^^ w0.getD i 0
  let w2 := (List.range 4).map fun i => g (8 + i) ^^^ w1.getD i 0
  let w3 := (List.range 4).map fun i => g (12 + i) ^^^ w2.getD i 0
  w0 ++ w1 ++ w2 ++ w3

def xorKey (s k : List Nat) : List Nat := List.zipWith (fun a b => a ^^^ b) s k

/-- SubBytes and ShiftRows: byte r + 4c comes from column c + r. -/
def subShift (s : List Nat) : List Nat :=
  (List.range 16).map fun n => sbox (s.getD ((n + 4 * (n % 4)) % 16) 0)

def mixColumn (a b c d : Nat) : List Nat :=
  [xtime a ^^^ (xtime b ^^^ b) ^^^ c ^^^ d, a ^^^ xtime b ^^^ (xtime c ^^^ c) ^^^ d,
   a ^^^ b ^^^ xtime c ^^^ (xtime d ^^^ d), (xtime a ^^^ a) ^^^ b ^^^ c ^^^ xtime d]

def mixColumns : List Nat → List Nat
  | a :: b :: c :: d :: t => mixColumn a b c d ++ mixColumns t
  | l => l

/-- Rounds under the remaining round constants; the last has no MixColumns. -/
def rounds : List Nat → List Nat → List Nat → List Nat
  | [], _, s => s
  | [rc], k, s => xorKey (subShift s) (nextKey rc k)
  | rc :: t, k, s =>
    let k' := nextKey rc k
    rounds t k' (xorKey (mixColumns (subShift s)) k')

def encrypt (key block : List Nat) : List Nat :=
  rounds [0x01, 0x02, 0x04, 0x08, 0x10, 0x20, 0x40, 0x80, 0x1B, 0x36] key (xorKey block key)

end Sys2Proof.Machine.Aes
end

