-- ==== Sys2Proof/Config.lean ====
section
/-! DEFINITION. What an implementation fixes, and the free values: opaque constants with no body, applied to a plain counter of
State or to the operands they depend on, so that no proof can see a number (log 4, log 8). -/

namespace Sys2Proof.Config

/-- Cycles that the manual leaves open (an arrival, a walk, a service time): the n-th draw (log 4). At least 1 where used. -/
opaque freeLatency : Nat → Nat

/-- The same, for the order in which an unordered choice falls (log 4). -/
opaque freeChoice : Nat → Nat

/-- Whether the Ed25519 signature over these bytes, the second list, verifies with Yunaed's key for a KIND (17 R409, log 8). -/
opaque edValid : Nat → List (BitVec 8) → List (BitVec 8) → Bool
/-- The same for ML-DSA-65. -/
opaque mldsaValid : Nat → List (BitVec 8) → List (BitVec 8) → Bool

/-- The firmware that the package holds before any is installed, by KIND: header and body, and its two signatures (19 Table 19.1, log 8). -/
opaque bootFirmware : Nat → List (BitVec 8) × List (BitVec 8) × List (BitVec 8)

/-- The attestation identity that Boxwood derives from the measurement of its firmware: its Ed25519 and its ML-DSA-65 public key, and
its signatures of some bytes (17 R410, R411, log 8). -/
opaque edPublic : List (BitVec 8) → List (BitVec 8)
opaque mlPublic : List (BitVec 8) → List (BitVec 8)
opaque edSign : List (BitVec 8) → List (BitVec 8) → List (BitVec 8)
opaque mlSign : List (BitVec 8) → List (BitVec 8) → List (BitVec 8)

/-- Bytes above the least of the region that holds a Hedgerow shard: firmware reserves it and the manual gives no size (16 R382,
log 36). -/
opaque shardBytes : Nat

/-- Address of the frame list of a version on a die: firmware keeps it and the manual gives no place (16 Table 16.1 FLIST, RLIST, log 36): die,
name. -/
opaque frameList : Nat → Nat → BitVec 43

/-- The dispatcher's estimate of the power of a window, in watts, from its booked engines: kind, resource and amount of each entry.
The manual gives no formula (19 R433, log 4). -/
opaque windowWatts : List (Nat × Nat × Nat) → Nat

/-- What the response compactor holds at the end of a scan run of a physical core (17 R405, log 4): core, cycle. -/
opaque scanSignature : Nat → Nat → BitVec 128

/-- What another package of the rack answers to a request for its export page: the frame and whether it may be written, or "not
exported" (14 R357, R358, log 4). -/
opaque remoteExport : Nat → Nat → Option (Nat × Bool)

/-- What a read of the stack of a lost die returns (01 R33, log 89): cycle, address. -/
opaque lostByte : Nat → Nat → BitVec 8

/-- What the saver writes to a save slot: the layout is the implementation's own (12 R316, log 9): number of the save, offset. -/
opaque savedByte : Nat → Nat → BitVec 8

end Sys2Proof.Config
end

