-- ==== Sys2Proof/Machine/Num.lean ====
section
/-! DEFINITION. Integers, binary floating point and block formats (chapter 03). A pattern is a Nat below 2^width; an exact
nonzero real is a sign, a magnitude m and an exponent e meaning m x 2^e. Flags are five bits: NV DZ OF UF NX from bit 0. -/

namespace Sys2Proof.Machine.Fp

/-! ### Integer helpers (03 R62, R63) -/

def signedOf (n x : Nat) : Int := if x % 2 ^ n < 2 ^ (n - 1) then (x % 2 ^ n : Nat) else (x % 2 ^ n : Nat) - (2 ^ n : Nat)
/-- Pattern of an exact value modulo 2^n: WrapIn and WrapNn store the same pattern. -/
def wrapN (n : Nat) (v : Int) : Nat := (v % ((2 ^ n : Nat) : Int)).toNat
def satI (n : Nat) (v : Int) : Int :=
  if v < -((2 ^ (n - 1) : Nat) : Int) then -((2 ^ (n - 1) : Nat) : Int)
  else if v > ((2 ^ (n - 1) : Nat) : Int) - 1 then ((2 ^ (n - 1) : Nat) : Int) - 1 else v
def satU (n : Nat) (v : Int) : Int :=
  if v < 0 then 0 else if v > ((2 ^ n : Nat) : Int) - 1 then ((2 ^ n : Nat) : Int) - 1 else v
/-- Value of a pattern read as unsigned (u) or signed. -/
def readInt (u : Bool) (n x : Nat) : Int := if u then (x % 2 ^ n : Nat) else signedOf n x
def satTo (u : Bool) (n : Nat) (v : Int) : Int := if u then satU n v else satI n v

/-! ### Rounding modes (03 R66) and formats (03 Table 3.1) -/

/-- A binary floating-point format by its exponent and fraction widths; `e4m3` marks the one without infinities. -/
structure Fmt where
  ew : Nat
  fw : Nat
  e4m3 : Bool := false
  deriving DecidableEq, Repr

def f16 : Fmt := ⟨5, 10, false⟩
def bf16 : Fmt := ⟨8, 7, false⟩
def f32 : Fmt := ⟨8, 23, false⟩
def f64 : Fmt := ⟨11, 52, false⟩
def e4m3 : Fmt := ⟨4, 3, true⟩
def e5m2 : Fmt := ⟨5, 2, false⟩

def Fmt.width (f : Fmt) : Nat := f.ew + f.fw + 1
def Fmt.bias (f : Fmt) : Int := ((2 ^ (f.ew - 1) : Nat) : Int) - 1
def Fmt.emin (f : Fmt) : Int := 1 - f.bias
def Fmt.signBit (f : Fmt) : Nat := 2 ^ (f.ew + f.fw)
/-- Pattern of the largest finite value, sign clear. -/
def Fmt.maxPat (f : Fmt) : Nat := if f.e4m3 then 0x7E else (2 ^ f.ew - 1) * 2 ^ f.fw - 1
/-- Pattern of +infinity; E4M3 has none and its overflow writes the canonical NaN (03 R68). -/
def Fmt.infPat (f : Fmt) : Nat := if f.e4m3 then 0x7F else (2 ^ f.ew - 1) * 2 ^ f.fw
/-- The canonical NaN (03 Table 3.2). -/
def Fmt.canon (f : Fmt) : Nat := if f.e4m3 then 0x7F else (2 ^ f.ew - 1) * 2 ^ f.fw + 2 ^ (f.fw - 1)
def Fmt.qbit (f : Fmt) : Nat := 2 ^ (f.fw - 1)
/-- Formats whose every NaN is quiet (03 R65). -/
def Fmt.noSnan (f : Fmt) : Bool := f.e4m3 || f.width = 8

/-- NV, DZ, OF, UF, NX as single flags. -/
def NV : BitVec 5 := 1
def DZ : BitVec 5 := 2
def OF : BitVec 5 := 4
def UF : BitVec 5 := 8
def NX : BitVec 5 := 16

/-- The value of a pattern (03 R64, R65). -/
inductive FVal where
  | nan (sig : Bool)
  | inf (neg : Bool)
  | zero (neg : Bool)
  | fin (neg : Bool) (m : Nat) (e : Int)
  deriving DecidableEq, Repr

def Fmt.neg (f : Fmt) (x : Nat) : Bool := x / f.signBit % 2 = 1

def decodeF (f : Fmt) (x : Nat) : FVal :=
  let s := f.neg x
  let ex := x / 2 ^ f.fw % 2 ^ f.ew
  let fr := x % 2 ^ f.fw
  if f.e4m3 then
    if ex = 15 ∧ fr = 7 then .nan false
    else if ex = 0 then (if fr = 0 then .zero s else .fin s fr (f.emin - f.fw))
    else .fin s (2 ^ f.fw + fr) ((ex : Int) - f.bias - f.fw)
  else if ex = 2 ^ f.ew - 1 then
    if fr = 0 then .inf s else .nan (!f.noSnan && fr < f.qbit)
  else if ex = 0 then (if fr = 0 then .zero s else .fin s fr (f.emin - f.fw))
  else .fin s (2 ^ f.fw + fr) ((ex : Int) - f.bias - f.fw)

/-- Rounding of the magnitude m x 2^e to a multiple of 2^q: the multiple and whether it is inexact. Modes by sr.frm's code:
0 RNE, 1 RTZ, 2 RUP, 3 RDN, 4 RNA. -/
def roundAt (mode : Nat) (neg : Bool) (m : Nat) (e q : Int) : Nat × Bool :=
  if q ≤ e then (m * 2 ^ (e - q).toNat, false)
  else
    let sh := (q - e).toNat
    let r := m / 2 ^ sh
    let rem := m % 2 ^ sh
    let half := 2 ^ (sh - 1)
    let up :=
      if rem = 0 then false
      else if mode = 0 then rem > half || (rem = half && r % 2 = 1)
      else if mode = 1 then false
      else if mode = 2 then !neg
      else if mode = 3 then neg
      else rem ≥ half
    (if up then r + 1 else r, rem != 0)

/-- Exponent of the leading bit of m x 2^e. -/
def topExp (m : Nat) (e : Int) : Int := (Nat.log2 m : Int) + e

/-- Result on overflow (03 Table 3.3, R68), sign clear. -/
def overflowPat (f : Fmt) (mode : Nat) (neg sat : Bool) : Nat :=
  let toInf := mode = 0 || mode = 4 || (mode = 2 && !neg) || (mode = 3 && neg)
  if toInf then (if sat then f.maxPat else f.infPat) else f.maxPat

def withSign (f : Fmt) (neg : Bool) (p : Nat) : Nat := if neg then p + f.signBit else p

/-- RoundF of a nonzero exact value (03 R67, R68). -/
def roundF (f : Fmt) (mode : Nat) (sat neg : Bool) (m : Nat) (e : Int) : Nat × BitVec 5 :=
  let p : Int := f.fw + 1
  let te := topExp m e
  let qmin := f.emin - p + 1
  let q := (if te < f.emin then f.emin else te) - p + 1
  let (r, inex) := roundAt mode neg m e q
  let pat := (q - qmin).toNat * 2 ^ f.fw + r
  if pat > f.maxPat then
    let o := overflowPat f mode neg sat
    -- the E4M3 NaN of an unsaturated overflow is the canonical 0x7F whatever the sign (03 R68)
    (if f.e4m3 && o = f.infPat then f.canon else withSign f neg o, OF ||| NX)
  else
    let tiny :=
      if te < f.emin then
        let (r', _) := roundAt mode neg m e (te - p + 1)
        !(te + 1 = f.emin && r' = 2 ^ (f.fw + 1))
      else false
    (withSign f neg pat, (if inex then NX else 0) ||| (if inex && tiny then UF else 0))

/-- RoundF where the exact value lies strictly between m x 2^e and (m + 1) x 2^e when `sticky`: m has at least p + 2 bits. -/
def roundS (f : Fmt) (mode : Nat) (neg : Bool) (m : Nat) (e : Int) (sticky : Bool) : Nat × BitVec 5 :=
  if sticky then roundF f mode false neg (2 * m + 1) (e - 1) else roundF f mode false neg m e

/-- RoundInt of m x 2^e with a sign (03 R63), and whether it is inexact. -/
def roundInt (mode : Nat) (neg : Bool) (m : Nat) (e : Int) : Int × Bool :=
  let (r, i) := roundAt mode neg m e 0
  (if neg then -(r : Int) else r, i)

def zeroPat (f : Fmt) (neg : Bool) : Nat := withSign f neg 0
def infP (f : Fmt) (neg : Bool) : Nat := withSign f neg f.infPat

/-- A signed dyadic as an Int times 2^e. -/
def sgn (neg : Bool) (m : Nat) : Int := if neg then -(m : Int) else m

/-- Rounding of an exact Int times 2^e, with the zero sign that R69 gives an exact zero sum. -/
def roundI (f : Fmt) (mode : Nat) (n : Int) (e : Int) (zneg : Bool) : Nat × BitVec 5 :=
  if n = 0 then (zeroPat f zneg, 0) else roundF f mode false (n < 0) n.natAbs e

/-- Sum of two dyadics at a common exponent. -/
def addDy (n₁ : Int) (e₁ : Int) (n₂ : Int) (e₂ : Int) : Int × Int :=
  let e := if e₁ < e₂ then e₁ else e₂
  (n₁ * 2 ^ (e₁ - e).toNat + n₂ * 2 ^ (e₂ - e).toNat, e)

/-! ### NaN operands (03 R71) -/

def isNan (f : Fmt) (x : Nat) : Bool := match decodeF f x with | .nan _ => true | _ => false
def isSnan (f : Fmt) (x : Nat) : Bool := match decodeF f x with | .nan s => s | _ => false
def quiet (f : Fmt) (x : Nat) : Nat := if f.noSnan then x else if x / f.qbit % 2 = 1 then x else x + f.qbit

/-- The NaN a list of operands propagates, if one is a NaN. -/
def nanOf (f : Fmt) (xs : List Nat) : Option (Nat × BitVec 5) :=
  match xs.find? (isSnan f) with
  | some x => some (quiet f x, NV)
  | none =>
    match xs.find? (isNan f) with
    | some x => some (x, 0)
    | none => none

/-! ### Operations on values without NaN -/

/-- Sum of two values (03 R69, R72); `mode` 3 is RDN. -/
def addV (f : Fmt) (mode : Nat) (a b : FVal) : Nat × BitVec 5 :=
  match a, b with
  | .inf s, .inf t => if s = t then (infP f s, 0) else (f.canon, NV)
  | .inf s, _ => (infP f s, 0)
  | _, .inf t => (infP f t, 0)
  | .zero s, .zero t => (zeroPat f (if s = t then s else mode = 3), 0)
  | .zero _, .fin t n e => roundF f mode false t n e
  | .fin s m e, .zero _ => roundF f mode false s m e
  | .fin s m e₁, .fin t n e₂ =>
    let (v, e) := addDy (sgn s m) e₁ (sgn t n) e₂
    roundI f mode v e (mode = 3)
  | .nan _, _ => (f.canon, 0)
  | _, .nan _ => (f.canon, 0)

def negV : FVal → FVal
  | .inf s => .inf !s
  | .zero s => .zero !s
  | .fin s m e => .fin (!s) m e
  | .nan s => .nan s

/-- The exact product; none for 0 x infinity. -/
def mulV (a b : FVal) : Option FVal :=
  match a, b with
  | .inf _, .zero _ => none
  | .zero _, .inf _ => none
  | .inf s, .inf t => some (.inf (s != t))
  | .inf s, .fin t _ _ => some (.inf (s != t))
  | .fin s _ _, .inf t => some (.inf (s != t))
  | .zero s, .zero t => some (.zero (s != t))
  | .zero s, .fin t _ _ => some (.zero (s != t))
  | .fin s _ _, .zero t => some (.zero (s != t))
  | .fin s m e, .fin t n e' => some (.fin (s != t) (m * n) (e + e'))
  | .nan x, _ => some (.nan x)
  | _, .nan x => some (.nan x)

/-- A value rounded into a format. -/
def roundV (f : Fmt) (mode : Nat) (v : FVal) : Nat × BitVec 5 :=
  match v with
  | .inf s => (infP f s, 0)
  | .zero s => (zeroPat f s, 0)
  | .fin s m e => roundF f mode false s m e
  | .nan _ => (f.canon, 0)

def fadd (f : Fmt) (mode a b : Nat) : Nat × BitVec 5 :=
  match nanOf f [a, b] with
  | some r => r
  | none => addV f mode (decodeF f a) (decodeF f b)

def fsub (f : Fmt) (mode a b : Nat) : Nat × BitVec 5 :=
  match nanOf f [a, b] with
  | some r => r
  | none => addV f mode (decodeF f a) (negV (decodeF f b))

def fmul (f : Fmt) (mode a b : Nat) : Nat × BitVec 5 :=
  match nanOf f [a, b] with
  | some r => r
  | none =>
    match mulV (decodeF f a) (decodeF f b) with
    | some v => roundV f mode v
    | none => (f.canon, NV)

/-- Fused multiply-add with its signs (06 Table 6.2): `np` negates the product, `nd` the addend. NV of 0 x infinity is raised
even beside a quiet NaN addend (03 R72). -/
def ffma (f : Fmt) (mode : Nat) (np nd : Bool) (a b d : Nat) : Nat × BitVec 5 :=
  let va := decodeF f a; let vb := decodeF f b; let vd := decodeF f d
  let inv := !isNan f a && !isNan f b && (mulV va vb).isNone
  match nanOf f [a, b, d] with
  | some (r, fl) => (r, if inv then fl ||| NV else fl)
  | none =>
    match mulV va vb with
    | some v => addV f mode (if np then negV v else v) (if nd then negV vd else vd)
    | none => (f.canon, NV)

/-- Quotient of two nonzero magnitudes to k more than the divisor's bits, with the sticky bit. -/
def divMag (k m n : Nat) : Nat × Nat × Bool :=
  let sh := k + Nat.log2 n + 1
  let x := m * 2 ^ sh
  (x / n, sh, x % n != 0)

def fdiv (f : Fmt) (mode a b : Nat) : Nat × BitVec 5 :=
  match nanOf f [a, b] with
  | some r => r
  | none =>
    match decodeF f a, decodeF f b with
    | .inf _, .inf _ => (f.canon, NV)
    | .zero _, .zero _ => (f.canon, NV)
    | .inf s, .zero t => (infP f (s != t), 0)
    | .inf s, .fin t _ _ => (infP f (s != t), 0)
    | .zero s, .inf t => (zeroPat f (s != t), 0)
    | .fin s _ _, .inf t => (zeroPat f (s != t), 0)
    | .zero s, .fin t _ _ => (zeroPat f (s != t), 0)
    | .fin s _ _, .zero t => (infP f (s != t), DZ)
    | .fin s m e, .fin t n e' =>
      let (q, sh, st) := divMag (f.fw + 4) m n
      roundS f mode (s != t) q (e - e' - sh) st
    | _, _ => (f.canon, 0)

/-- Integer square root by bits: bits i - 1 to 0 of the root of n, above the part r already found. -/
def isqrtGo (n : Nat) : Nat → Nat → Nat
  | 0, r => r
  | i + 1, r => if (r + 2 ^ i) * (r + 2 ^ i) ≤ n then isqrtGo n i (r + 2 ^ i) else isqrtGo n i r
def isqrt (n : Nat) : Nat := isqrtGo n (Nat.log2 n / 2 + 1) 0

/-- The magnitude with an even exponent. -/
def evenExp (m : Nat) (e : Int) : Nat × Int := if e % 2 = 0 then (m, e) else (2 * m, e - 1)

def fsqrt (f : Fmt) (mode a : Nat) : Nat × BitVec 5 :=
  match nanOf f [a] with
  | some r => r
  | none =>
    match decodeF f a with
    | .inf s => if s then (f.canon, NV) else (infP f false, 0)
    | .zero s => (zeroPat f s, 0)
    | .fin s m e =>
      if s then (f.canon, NV)
      else
        let (m', e') := evenExp m e
        let k := f.fw + 4
        let x := m' * 2 ^ (2 * k)
        let r := isqrt x
        roundS f mode false r (e' / 2 - k) (r * r != x)
    | .nan _ => (f.canon, 0)

def frcp (f : Fmt) (mode a : Nat) : Nat × BitVec 5 :=
  match nanOf f [a] with
  | some r => r
  | none =>
    match decodeF f a with
    | .inf s => (zeroPat f s, 0)
    | .zero s => (infP f s, DZ)
    | .fin s m e =>
      let (q, sh, st) := divMag (f.fw + 4) 1 m
      roundS f mode s q (-e - sh) st
    | .nan _ => (f.canon, 0)

def frsqrt (f : Fmt) (mode a : Nat) : Nat × BitVec 5 :=
  match nanOf f [a] with
  | some r => r
  | none =>
    match decodeF f a with
    | .inf s => if s then (f.canon, NV) else (zeroPat f false, 0)
    | .zero s => (infP f s, DZ)
    | .fin s m e =>
      if s then (f.canon, NV)
      else
        let (m', e') := evenExp m e
        let k := Nat.log2 m' + f.fw + 5
        let x := 2 ^ (2 * k) / m'
        let r := isqrt x
        roundS f mode false r (-(e' / 2) - k) (r * r * m' != 2 ^ (2 * k))
    | .nan _ => (f.canon, 0)

/-- Order of two values without NaN, with -0 below +0: the pattern as a signed number. -/
def ordKey (f : Fmt) (x : Nat) : Int :=
  if f.neg x then -((x % f.signBit : Nat) : Int) - 1 else ((x % f.signBit : Nat) : Int)

def fmin (f : Fmt) (a b : Nat) : Nat × BitVec 5 :=
  match nanOf f [a, b] with
  | some r => r
  | none => (if ordKey f a ≤ ordKey f b then a else b, 0)

def fmax (f : Fmt) (a b : Nat) : Nat × BitVec 5 :=
  match nanOf f [a, b] with
  | some r => r
  | none => (if ordKey f a ≥ ordKey f b then a else b, 0)

def fabs (f : Fmt) (a : Nat) : Nat × BitVec 5 :=
  match nanOf f [a] with
  | some r => r
  | none => (a % f.signBit, 0)

def fneg (f : Fmt) (a : Nat) : Nat × BitVec 5 :=
  match nanOf f [a] with
  | some r => r
  | none => (if f.neg a then a - f.signBit else a + f.signBit, 0)

/-- Class mask (06 Table 6.3). -/
def fclass (f : Fmt) (a : Nat) : Nat × BitVec 5 :=
  (match decodeF f a with
   | .nan s => if s then 256 else 512
   | .inf s => if s then 1 else 128
   | .zero s => if s then 8 else 16
   | .fin s m _ =>
     if m < 2 ^ f.fw then (if s then 4 else 32) else (if s then 2 else 64), 0)

/-- Value of an FVal as a comparison key against another: exact order of the numbers, -0 equal to +0. -/
def cmpKey (f : Fmt) (x : Nat) : Int :=
  if x % f.signBit = 0 then 0 else if f.neg x then -((x % f.signBit : Nat) : Int) else ((x % f.signBit : Nat) : Int)

/-- FP compare (06 R147): 0 eq, 1 ne, 2 lt, 3 le. The result is a truth value and its flags. -/
def fcmp (f : Fmt) (rel a b : Nat) : Bool × BitVec 5 :=
  if isNan f a || isNan f b then
    (rel = 1, if isSnan f a || isSnan f b || rel = 2 || rel = 3 then NV else 0)
  else
    let x := cmpKey f a; let y := cmpKey f b
    (if rel = 0 then x = y else if rel = 1 then x != y else if rel = 2 then x < y else x ≤ y, 0)

/-! ### Conversions (03 R83) -/

/-- Float to float. A NaN keeps sign and top fraction bits; a signalling or narrowed one is quietened, and one of E4M3 or E5M2, all of
whose NaNs are quiet, is padded as it stands; into E4M3 and E5M2 it is canonical. -/
def cvtFF (src dst : Fmt) (mode : Nat) (sat : Bool) (x : Nat) : Nat × BitVec 5 :=
  match decodeF src x with
  | .nan s =>
    let fl := if s then NV else 0
    if dst.width = 8 then (dst.canon, fl)
    else
      let fr := x % 2 ^ src.fw
      let fr' := if dst.fw ≥ src.fw then fr * 2 ^ (dst.fw - src.fw) else fr / 2 ^ (src.fw - dst.fw)
      let fr'' := if src.noSnan || decide (fr' / dst.qbit % 2 = 1) then fr' else fr' + dst.qbit
      (withSign dst (src.neg x) (dst.infPat + fr''), fl)
  | .inf s =>
    if dst.e4m3 then (if sat then (withSign dst s dst.maxPat, NX) else (dst.canon, 0))
    else (infP dst s, 0)
  | .zero s => (zeroPat dst s, 0)
  | .fin s m e => roundF dst mode sat s m e

/-- Float to integer of n bits. -/
def cvtFI (src : Fmt) (u : Bool) (n mode : Nat) (x : Nat) : Nat × BitVec 5 :=
  match decodeF src x with
  | .nan _ => (0, NV)
  | .inf s =>
    (wrapN n (if s then (if u then 0 else -((2 ^ (n - 1) : Nat) : Int))
      else (if u then ((2 ^ n : Nat) : Int) - 1 else ((2 ^ (n - 1) : Nat) : Int) - 1)), NV)
  | .zero _ => (0, 0)
  | .fin s m e =>
    let (v, i) := roundInt mode s m e
    let c := satTo u n v
    (wrapN n c, if c ≠ v then NV else if i then NX else 0)

/-- Integer to float; `sat` clamps an overflow of E4M3 and E5M2 (03 R68). -/
def cvtIF (dst : Fmt) (mode : Nat) (sat : Bool) (v : Int) : Nat × BitVec 5 :=
  if v = 0 then (zeroPat dst false, 0) else roundF dst mode sat (v < 0) v.natAbs 0

/-- Integer to integer (06 R159). -/
def cvtII (u : Bool) (n : Nat) (sat : Bool) (v : Int) : Nat := wrapN n (if sat then satTo u n v else v)

/-- A constant's FLT read at a format: RoundF under RNE, no flag (04 R96). -/
def konstF (f : Fmt) (flt : Nat) : Nat := if f = f64 then flt else (cvtFF f64 f 0 false flt).1

/-! ### Block formats (03 R74, R75, R84); `beta` is 132 for VB8 and 128 for VB4 -/

/-- Value of an element with its block's exponents as a binary32 pattern (03 R75); sel, sign, magnitude. -/
def vbToF32 (beta : Nat) (ex : Nat) (neg : Bool) (m : Nat) : Nat :=
  if ex = 0xFF then 0x7FC00000
  else if ex = 0 ∨ m = 0 then zeroPat f32 neg
  else (roundF f32 0 false neg m ((ex : Int) - beta)).1

/-- |m x 2^e - q x 2^c| as (natural, exponent). -/
def errDy (m : Nat) (e : Int) (q : Nat) (c : Int) : Nat × Int :=
  let (v, x) := addDy m e (-(q : Int)) c
  (v.natAbs, x)

/-- Comparison of two nonnegative dyadics. -/
def ltDy (a : Nat × Int) (b : Nat × Int) : Bool := (addDy a.1 a.2 (-(b.1 : Int)) b.2).1 < 0

/-- PackVB (03 R84): selector, sign, magnitude and flags. -/
def packVB (beta mmax e0 e1 mode x : Nat) : Nat × Bool × Nat × BitVec 5 :=
  let usable (e : Nat) : Bool := 1 ≤ e && e ≤ 254
  match decodeF f32 x with
  | .nan _ =>
    if e0 = 0xFF then (0, f32.neg x, 0, 0)
    else if e1 = 0xFF then (1, f32.neg x, 0, 0)
    else (0, false, 0, NV)
  | .inf s =>
    let fl := OF ||| NX
    if usable e0 && usable e1 then (if e1 > e0 then (1, s, mmax, fl) else (0, s, mmax, fl))
    else if usable e0 then (0, s, mmax, fl)
    else if usable e1 then (1, s, mmax, fl)
    else (0, s, 0, fl)
  | .zero s => if usable e0 then (0, s, 0, 0) else if usable e1 then (1, s, 0, 0) else (0, s, 0, 0)
  | .fin s m e =>
    let one (ex : Nat) : Nat × Bool × (Nat × Int) :=
      let c : Int := (ex : Int) - beta
      let r := (roundInt mode s m (e - c)).1.natAbs
      let q := if r < mmax then r else mmax
      (q, r > mmax, errDy m e q c)
    let r0 := one e0; let r1 := one e1
    let pick (sel : Nat) (r : Nat × Bool × (Nat × Int)) : Nat × Bool × Nat × BitVec 5 :=
      (sel, s, r.1, (if r.2.2.1 ≠ 0 then NX else 0) ||| (if r.2.1 then OF else 0))
    if usable e0 && usable e1 then (if ltDy r1.2.2 r0.2.2 then pick 1 r1 else pick 0 r0)
    else if usable e0 then pick 0 r0
    else if usable e1 then pick 1 r1
    else (0, s, 0, NX)

/-- Smallest k with mmax x 2^k at least m x 2^e. -/
def ceilLog (mmax m : Nat) (e : Int) : Int :=
  let k := topExp m e - Nat.log2 mmax - 1
  let ge (k : Int) : Bool := !ltDy (mmax, k) (m, e)
  if ge k then k else if ge (k + 1) then k + 1 else k + 2

/-- The larger of two nonnegative dyadics. -/
def maxDy (a b : Nat × Int) : Nat × Int := if ltDy a b then b else a

/-- Exponents of a block of binary32 patterns (06 R161). -/
def blockExps (beta mmax delta : Nat) (xs : List Nat) : Nat × Nat :=
  let mx := xs.foldl (fun acc x => match decodeF f32 x with | .fin _ m e => maxDy acc (m, e) | _ => acc) ((0, 0) : Nat × Int)
  let hasNan := xs.any (isNan f32)
  let (e0, e1) :=
    if mx.1 ≠ 0 then
      let v : Int := (beta : Int) + ceilLog mmax mx.1 mx.2
      let e0 := if v < 1 then 1 else if v > 254 then 254 else v.toNat
      (e0, if e0 ≤ delta + 1 then 1 else e0 - delta)
    else (0, 0)
  (e0, if hasNan then 0xFF else e1)

end Sys2Proof.Machine.Fp
end

