-- ==== Sys2Proof/Machine/FpFunc.lean ====
section
/-! DEFINITION. The correctly rounded transcendentals (06 R145, 03 R70). Each is computed in fixed point with W fraction bits
and an error bound; when every real within the bound rounds alike, that is the result; W doubles from 192 until they do
(log 16). -/

namespace Sys2Proof.Machine.FpFunc

open Fp

/-- Sum of sign^k / ((2k+1) n^(2k+1)) in fixed point, `t` being the running power: atanh(1/n) or atan(1/n). -/
def atanGo (alt : Bool) (n : Nat) : Nat → Nat → Nat → Int
  | 0, _, _ => 0
  | fuel + 1, k, t =>
    let term : Int := (t / (2 * k + 1) : Nat)
    (if alt && k % 2 = 1 then -term else term) + atanGo alt n fuel (k + 1) (t / (n * n))

def atanhInv (W n : Nat) : Int := atanGo false n (W / 8 + 4) 0 (2 ^ W / n)
def atanInv (W n : Nat) : Int := atanGo true n (W / 4 + 4) 0 (2 ^ W / n)

/-- ln 2 with W fraction bits. -/
def ln2 (W : Nat) : Int :=
  (18 * atanhInv (W + 16) 26 - 2 * atanhInv (W + 16) 4801 + 8 * atanhInv (W + 16) 8749) / 2 ^ 16
/-- pi with W fraction bits. -/
def piW (W : Nat) : Int := (16 * atanInv (W + 16) 5 - 4 * atanInv (W + 16) 239) / 2 ^ 16

/-- Sum of r^k / k! in fixed point. -/
def expGo (W : Nat) (r : Nat) : Nat → Nat → Nat → Nat
  | 0, _, _ => 0
  | fuel + 1, k, t => t + expGo W r fuel (k + 1) (t * r / (2 ^ W * (k + 1)))

def squareGo (W : Nat) : Nat → Nat → Nat
  | 0, v => v
  | n + 1, v => squareGo W n (v * v / 2 ^ W)

/-- e^r for r in [0, 1), W fraction bits. -/
def expFrac (W r : Nat) : Nat :=
  let V := W + 32
  squareGo V 8 (expGo V (r * 2 ^ 32 / 2 ^ 8) (W / 8 + 8) 0 (2 ^ V)) / 2 ^ 32

/-- n x 2^e as fixed point with W fraction bits, floored. -/
def toFix (W : Nat) (n : Int) (e : Int) : Int :=
  let s := e + W
  if 0 ≤ s then n * 2 ^ s.toNat else n / 2 ^ (-s).toNat

/-- e^v for a fixed-point v: (mantissa with W fraction bits, binary exponent). -/
def expFix (W : Nat) (v : Int) : Nat × Int :=
  let l := ln2 W
  let k := v / l
  (expFrac W (v - k * l).toNat, k)

/-- Sum of z^(2k+1) / (2k+1), z in fixed point. -/
def logGo (W : Nat) (z2 : Int) : Nat → Nat → Int → Int
  | 0, _, _ => 0
  | fuel + 1, k, t => t / (2 * (k : Int) + 1) + logGo W z2 fuel (k + 1) (t * z2 / 2 ^ W)

/-- The power of two t and the logarithm of the remaining factor in [sqrt(1/2), sqrt 2) of m x 2^e. -/
def logParts (W m : Nat) (e : Int) : Int × Int :=
  let lg := Nat.log2 m
  let up := m * m ≥ 2 * 2 ^ (2 * lg)
  let L := if up then lg + 1 else lg
  let z : Int := ((m : Int) - (2 ^ L : Nat)) * 2 ^ W / ((m : Int) + (2 ^ L : Nat))
  (e + L, 2 * logGo W (z * z / 2 ^ W) (W / 5 + 8) 0 z)

/-- Sum of (2y)^n / (1 3 ... (2n+1)) in fixed point. -/
def erfGo (W y : Nat) : Nat → Nat → Nat → Nat
  | 0, _, _ => 0
  | fuel + 1, k, t => t + erfGo W y fuel (k + 1) (t * (2 * y) / (2 ^ W * (2 * k + 3)))

/-- The rounding shared by every real strictly between (M - err) x 2^e and (M + err) x 2^e, if there is one. -/
def settle (f : Fmt) (mode : Nat) (neg : Bool) (M err : Nat) (e : Int) : Option (Nat × BitVec 5) :=
  if M ≤ err + 1 then none
  else
    let lo := roundF f mode false neg (2 * (M - err) + 1) (e - 1)
    let hi := roundF f mode false neg (2 * (M + err) - 1) (e - 1)
    if lo = hi then some lo else none

/-- The functions of 06 Table 6.4. -/
inductive Fn where
  | exp | exp2 | log | log2 | erf
  deriving DecidableEq, Repr

/-- What W bits say of a finite nonzero argument whose result is not exact: the rounded result, or a sign and (M, err, e) such that the
exact value lies strictly between (M - err) x 2^e and (M + err) x 2^e in magnitude. -/
def approx (W : Nat) (fn : Fn) (f : Fmt) (mode : Nat) (s : Bool) (m : Nat) (e : Int) :
    Sum (Nat × BitVec 5) (Bool × Nat × Nat × Int) :=
  let te := topExp m e
  match fn with
  | .exp | .exp2 =>
    -- below 2^-60 the result lies within 2^-58 of 1 on the side of the sign; beyond 2^12 it overflows or vanishes
    if te < -60 then
      .inl (roundS f mode false (if s then 2 ^ 70 - 2 ^ 12 else 2 ^ 70) (-70) true)
    else if te ≥ 12 then
      .inl (if s then roundS f mode false (2 ^ 70) (-6000) true else roundS f mode false (2 ^ 70) 6000 true)
    else
      let v := toFix W (sgn s m) e
      let v' := if fn = .exp then v else v * ln2 W / 2 ^ W
      let (r, k) := expFix W v'
      .inr (false, r, 2 ^ 60, k - W)
  | .log =>
    let (t, l) := logParts W m e
    let r := t * ln2 W + l
    .inr (r < 0, r.natAbs, 2 ^ 40, -W)
  | .log2 =>
    let (t, l) := logParts W m e
    let r := t * 2 ^ W + l * 2 ^ W / ln2 W
    .inr (r < 0, r.natAbs, 2 ^ 40, -W)
  | .erf =>
    if te ≥ 3 ∧ ltDy (9, 0) (m, e) then .inl (roundS f mode s (2 ^ 100 - 1) (-100) true)
    else
      let y := (toFix W ((m * m : Nat) : Int) (2 * e)).toNat
      let S := erfGo W y (W + 200) 0 (2 ^ W)
      let (E, k) := expFix W (-(y : Int))
      let c := isqrt (4 * 2 ^ (3 * W) / (piW W).toNat)
      let M := m * c * E * S
      .inr (s, M, M / 2 ^ (W - 60) + 1, e + k - 3 * W)

/-- The result, as soon as W bits settle it, W doubling; the last W, of more than ten million bits, rounds what it has (log 16). -/
def general (fn : Fn) (f : Fmt) (mode : Nat) (s : Bool) (m : Nat) (e : Int) : Nat → Nat → Nat × BitVec 5
  | 0, W =>
    match approx W fn f mode s m e with
    | .inl r => r
    | .inr (neg, M, _, x) => roundF f mode false neg (2 * M + 1) (x - 1)
  | fuel + 1, W =>
    match approx W fn f mode s m e with
    | .inl r => r
    | .inr (neg, M, err, x) =>
      match settle f mode neg M err x with
      | some r => r
      | none => general fn f mode s m e fuel (2 * W)

/-- From 192 bits to 192 x 2^16. -/
def rounded (fn : Fn) (f : Fmt) (mode : Nat) (s : Bool) (m : Nat) (e : Int) : Nat × BitVec 5 := general fn f mode s m e 16 192

/-- The power of two that a magnitude is, if it is one. -/
def pow2Of (m : Nat) (e : Int) : Option Int := if m = 2 ^ Nat.log2 m then some (topExp m e) else none

/-- The integer that m x 2^e is, if it is one. -/
def intOf (s : Bool) (m : Nat) (e : Int) : Option Int :=
  if 0 ≤ e then some (sgn s (m * 2 ^ e.toNat))
  else if m % 2 ^ (-e).toNat = 0 then some (sgn s (m / 2 ^ (-e).toNat)) else none

def one (f : Fmt) : Nat := (roundF f 0 false false 1 0).1

/-- A transcendental with its special cases (06 Table 6.4). -/
def transc (fn : Fn) (f : Fmt) (mode a : Nat) : Nat × BitVec 5 :=
  match nanOf f [a] with
  | some r => r
  | none =>
    match fn, decodeF f a with
    | .exp, .inf s => if s then (0, 0) else (infP f false, 0)
    | .exp2, .inf s => if s then (0, 0) else (infP f false, 0)
    | .log, .inf s => if s then (f.canon, NV) else (infP f false, 0)
    | .log2, .inf s => if s then (f.canon, NV) else (infP f false, 0)
    | .erf, .inf s => (withSign f s (one f), 0)
    | .exp, .zero _ => (one f, 0)
    | .exp2, .zero _ => (one f, 0)
    | .log, .zero _ => (infP f true, DZ)
    | .log2, .zero _ => (infP f true, DZ)
    | .erf, .zero s => (zeroPat f s, 0)
    | .exp, .fin s m e => rounded .exp f mode s m e
    | .exp2, .fin s m e =>
      match intOf s m e with
      | some n =>
        if n < -8000 ∨ n > 8000 then rounded .exp2 f mode s m e else roundF f mode false false 1 n
      | none => rounded .exp2 f mode s m e
    | .log, .fin s m e =>
      if s then (f.canon, NV)
      else if pow2Of m e = some 0 then (0, 0) else rounded .log f mode s m e
    | .log2, .fin s m e =>
      if s then (f.canon, NV)
      else
        match pow2Of m e with
        | some n => if n = 0 then (0, 0) else roundI f mode n 0 false
        | none => rounded .log2 f mode s m e
    | .erf, .fin s m e => rounded .erf f mode s m e
    | _, .nan _ => (f.canon, 0)

end Sys2Proof.Machine.FpFunc
end

