-- ==== Sys2Proof/Machine/VecData.lean ====
section
/-! DEFINITION. What each vector word computes on one register of its group (chapter 06), as functions of register values. -/

namespace Sys2Proof.Machine

open Fp

/-! ### Registers as elements (02 R40, R41) -/

/-- Element i of width w bits. -/
def velem (w : Nat) (v : VReg) (i : Nat) : Nat := bitsN v.toNat (w * i) w

/-- The natural number whose w-bit digits are a list, lowest first. -/
def packNat (w : Nat) : List Nat → Nat
  | [] => 0
  | x :: t => x % 2 ^ w + 2 ^ w * packNat w t

/-- A register from its elements. -/
def vbuild (w : Nat) (xs : List Nat) : VReg := BitVec.ofNat 32768 (packNat w xs)

/-- Elements of width w in a register. -/
def velems (w : Nat) : Nat := 32768 / w

/-- Lane whose mask and flag bits element i of width w uses (02 R41). -/
def laneOf (w i : Nat) : Nat := i * w / 32

/-- OR of flags into lanes: entry i of the list belongs to element i of width w. -/
def flagsFrom (w : Nat) (fs : List (BitVec 5)) : Flags :=
  let plane (bit : Nat) : BitVec 1024 :=
    BitVec.ofNat 1024 (((List.range fs.length).zip fs).foldl
      (fun acc p => if p.2.getLsbD bit then acc ||| 2 ^ laneOf w p.1 else acc) 0)
  ⟨plane 0, plane 1, plane 2, plane 3, plane 4⟩

/-- Union of two sets of flags. -/
def Flags.or (a b : Flags) : Flags := ⟨a.nv ||| b.nv, a.dz ||| b.dz, a.ovf ||| b.ovf, a.unf ||| b.unf, a.nx ||| b.nx⟩

/-- Whether element i of width w of register k of the group is active (06 R139, 02 R45). -/
def Active.elem (act : Active) (w k i : Nat) : Bool :=
  match act with
  | .all => true
  | .covered bits => decide ((k * velems w + i + 1) * w ≤ bits)
  | .lanes m => m.getLsbD (laneOf w i)
  | .off => false

/-- What one register of a vector word reads: its source values, the old destination, its activity, the rounding mode that
TY or sr.frm gives, and the key of vrand. -/
structure VIn where
  a : VReg := 0
  b : VReg := 0
  d : VReg := 0
  act : Active := .all
  k : Nat := 0
  rm : Nat := 0
  key : Nat := 0
  deriving DecidableEq, Repr

/-- What one register of a vector word gives. -/
structure VOut where
  d : VReg := 0
  fl : Flags := {}
  deriving DecidableEq, Repr

/-- Elementwise word: the active elements take f, the others keep the old destination. -/
def velementwise (w : Nat) (x : VIn) (f : Nat → Nat × BitVec 5) : VOut :=
  let rs := (List.range (velems w)).map fun i =>
    if x.act.elem w x.k i then f i else (velem w x.d i, 0)
  ⟨vbuild w (rs.map (·.1)), flagsFrom w (rs.map (·.2))⟩

/-- Elementwise word that raises no flag. -/
def vmove (w : Nat) (x : VIn) (f : Nat → Nat) : VOut :=
  ⟨vbuild w ((List.range (velems w)).map fun i => if x.act.elem w x.k i then f i else velem w x.d i), {}⟩

/-! ### TY (04 R94) -/

/-- Format of an FP-class TY. -/
def tyFmt (ty : TyF) : Fmt :=
  match ty.toNat % 4 with
  | 0 => f16
  | 1 => bf16
  | 2 => f32
  | _ => f64
/-- Width in bits of an FP-class TY. -/
def tyFpWidth (ty : TyF) : Nat := (tyFmt ty).width
/-- Width in bits of an Int-class TY or of a TY read by element width. -/
def tyWidth (ty : TyF) : Nat := 8 * 2 ^ (ty.toNat % 4)
def tyUns (ty : TyF) : Bool := ty.toNat / 4 % 2 = 1
def tySat (ty : TyF) : Bool := ty.toNat / 8 = 1

def v3f (x : VIn) (ty : TyF) (f : Fmt → Nat → Nat → Nat → Nat → Nat × BitVec 5) : VOut :=
  let w := tyFpWidth ty
  velementwise w x fun i => f (tyFmt ty) x.rm (velem w x.a i) (velem w x.b i) (velem w x.d i)

def v3i (x : VIn) (ty : TyF) (f : Nat → Int → Int → Int) : VOut :=
  let w := tyWidth ty
  vmove w x fun i =>
    wrapN w (f w (readInt (tyUns ty) w (velem w x.a i)) (readInt (tyUns ty) w (velem w x.b i)))

/-- The wrapping or saturating narrowing that MOD names (06 Table 6.5). -/
def narrow (ty : TyF) (w : Nat) (v : Int) : Int := if tySat ty then satTo (tyUns ty) w v else v

def v3u (x : VIn) (ty : TyF) (f : Nat → Nat → Nat → Nat) : VOut :=
  let w := tyWidth ty
  vmove w x fun i => f w (velem w x.a i) (velem w x.b i)

/-- Bit count of a pattern. -/
def popcount : Nat → Nat → Nat
  | 0, _ => 0
  | n + 1, x => x % 2 + popcount n (x / 2)

/-- Shift amount b[log2 w - 1 : 0] (06 Table 6.5). -/
def shiftAmt (w b : Nat) : Nat := b % w

def vcmpF (x : VIn) (ty : TyF) (rel : Nat) : VOut :=
  let w := tyFpWidth ty
  velementwise w x fun i =>
    let r := fcmp (tyFmt ty) rel (velem w x.a i) (velem w x.b i)
    (if r.1 then 2 ^ w - 1 else 0, r.2)

def vcmpI (x : VIn) (ty : TyF) (rel : Int → Int → Bool) : VOut :=
  let w := tyWidth ty
  vmove w x fun i =>
    if rel (readInt (tyUns ty) w (velem w x.a i)) (readInt (tyUns ty) w (velem w x.b i)) then 2 ^ w - 1 else 0

/-! ### Row and column axis (06 R148 to R152) -/

/-- Columns of a register at width w. -/
def vcols (w : Nat) : Nat := 2048 / w

/-- Move of element patterns by row and column: (r, j) takes the source element that f names. -/
def vaxis (w : Nat) (x : VIn) (f : Nat → Nat → Nat × Nat) : VOut :=
  let c := vcols w
  vmove w x fun i => let p := f (i / c) (i % c); velem w x.a (p.1 * c + p.2)

/-- The combining operation of K and TY (06 R148, R150), with operand u first. -/
def comb (k : Nat) (ty : TyF) (rm : Nat) (u v : Nat) : Nat × BitVec 5 :=
  if k / 8 % 2 = 0 then
    let f := tyFmt ty
    if k % 8 = 0 then fadd f rm u v else if k % 8 = 1 then fmin f u v else fmax f u v
  else
    let w := tyWidth ty
    let a := readInt (tyUns ty) w u
    let b := readInt (tyUns ty) w v
    let r : Nat :=
      if k % 8 = 0 then wrapN w (narrow ty w (a + b))
      else if k % 8 = 1 then wrapN w (if a ≤ b then a else b)
      else if k % 8 = 2 then wrapN w (if a ≥ b then a else b)
      else if k % 8 = 3 then u &&& v
      else if k % 8 = 4 then u ||| v else u ^^^ v
    (r, 0)

/-- Combination where either operand may be absent. -/
def combO (c : Nat → Nat → Nat × BitVec 5) (u v : Option Nat) : Option Nat × BitVec 5 :=
  match u, v with
  | some a, some b => let r := c a b; (some r.1, r.2)
  | some a, none => (some a, 0)
  | none, some b => (some b, 0)
  | none, none => (none, 0)

/-- The tree of 06 R150 over a list of length 2^n: n levels, each combining x[j] with x[j + s]. -/
def treeGo (c : Nat → Nat → Nat × BitVec 5) : Nat → List (Option Nat) → BitVec 5 → Option Nat × BitVec 5
  | 0, xs, fl => (xs.headD none, fl)
  | n + 1, xs, fl =>
    let s := 2 ^ n
    let ys := List.zipWith (combO c) (xs.take s) (xs.drop s)
    treeGo c n (ys.map (·.1)) (ys.foldl (fun acc y => acc ||| y.2) fl)

/-- Running combination in ascending order (06 R151): for each element the value so far and the flags of its step. -/
def prefixGo (c : Nat → Nat → Nat × BitVec 5) : Option Nat → List (Option Nat) → List (Option Nat × BitVec 5)
  | _, [] => []
  | acc, none :: t => (none, 0) :: prefixGo c acc t
  | acc, some x :: t =>
    let r := combO c acc (some x)
    (r.1, r.2) :: prefixGo c r.1 t

/-- Width of a reduction or prefix word. -/
def redWidth (k : Nat) (ty : TyF) : Nat := if k / 8 % 2 = 0 then tyFpWidth ty else tyWidth ty

/-- Elements of a line: row r along columns, or column r down the rows. -/
def lineIdx (w : Nat) (alongRow : Bool) (line : Nat) : List Nat :=
  let c := vcols w
  if alongRow then (List.range c).map (fun j => line * c + j) else (List.range 16).map (fun r => r * c + line)

def lineVals (w : Nat) (x : VIn) (idx : List Nat) : List (Option Nat) :=
  idx.map fun i => if x.act.elem w x.k i then some (velem w x.a i) else none

/-- Reduction along rows or columns (06 R150). -/
def vreduce (alongRow : Bool) (x : VIn) (k : BitVec 10) (ty : TyF) : VOut :=
  let w := redWidth k.toNat ty
  let c := vcols w
  let lines := if alongRow then 16 else c
  let res := (List.range lines).map fun l =>
    treeGo (comb k.toNat ty x.rm) (Nat.log2 (if alongRow then c else 16)) (lineVals w x (lineIdx w alongRow l)) 0
  let rs := (List.range (velems w)).map fun i =>
    let r := res.getD (if alongRow then i / c else i % c) (none, 0)
    if x.act.elem w x.k i then (r.1.getD 0, r.2) else (velem w x.d i, 0)
  ⟨vbuild w (rs.map (·.1)), flagsFrom w (rs.map (·.2))⟩

/-- Prefix along rows or columns (06 R151). -/
def vprefix (alongRow : Bool) (x : VIn) (k : BitVec 10) (ty : TyF) : VOut :=
  let w := redWidth k.toNat ty
  let c := vcols w
  let lines := if alongRow then 16 else c
  let res := (List.range lines).map fun l =>
    prefixGo (comb k.toNat ty x.rm) none (lineVals w x (lineIdx w alongRow l))
  let rs := (List.range (velems w)).map fun i =>
    let line := if alongRow then i / c else i % c
    let pos := if alongRow then i % c else i / c
    if x.act.elem w x.k i then
      let r := (res.getD line []).getD pos (none, 0)
      (r.1.getD 0, r.2)
    else (velem w x.d i, 0)
  ⟨vbuild w (rs.map (·.1)), flagsFrom w (rs.map (·.2))⟩

/-- Inclusive prefix XOR over the bits of an n-bit string, by doubling. -/
def prefixXorBits (n : Nat) : Nat → Nat → Nat
  | 0, x => x
  | s + 1, x => let y := prefixXorBits n s x; (y ^^^ (y * 2 ^ (2 ^ s))) % 2 ^ n

/-- Running XOR of a list. -/
def prefixXor : Nat → List Nat → List Nat
  | _, [] => []
  | acc, x :: t => (acc ^^^ x) :: prefixXor (acc ^^^ x) t

/-- vpxorr and vpxorc (06 R152). -/
def vpxorRow (a : VReg) (k : BitVec 10) (ty : TyF) : VReg :=
  if k.toNat % 2 = 0 then
    let w := tyWidth ty
    let c := vcols w
    vbuild w ((List.range 16).flatMap fun r => prefixXor 0 ((List.range c).map fun j => velem w a (r * c + j)))
  else if k.toNat / 2 % 2 = 0 then
    vbuild 2048 ((List.range 16).map fun r => prefixXorBits 2048 11 (velem 2048 a r))
  else BitVec.ofNat 32768 (prefixXorBits 32768 15 a.toNat)

def vpxorCol (a : VReg) (ty : TyF) : VReg :=
  let w := tyWidth ty
  let c := vcols w
  let cols := (List.range c).map fun j => prefixXor 0 ((List.range 16).map fun r => velem w a (r * c + j))
  vbuild w ((List.range (velems w)).map fun i => (cols.getD (i % c) []).getD (i / c) 0)

/-! ### Permute and interleave (06 R153) -/

def vpermute (x : VIn) (ty : TyF) : VOut :=
  let w := tyWidth ty
  let c := vcols w
  vmove w x fun i =>
    let b := velem w x.b i
    if tyUns ty then velem w x.a (b % velems w) else velem w x.a (i / c * c + b % c)

def vselect (x : VIn) (ty : TyF) : VOut :=
  let w := tyWidth ty
  ⟨vbuild w ((List.range (velems w)).map fun i => if x.act.elem w x.k i then velem w x.a i else velem w x.b i), {}⟩

def vinterleave (x : VIn) (ty : TyF) : VOut :=
  let w := tyWidth ty
  let c := vcols w
  let h := if tyUns ty then c / 2 else 0
  vmove w x fun i =>
    let r := i / c
    let j := i % c
    velem w (if j % 2 = 0 then x.a else x.b) (r * c + j / 2 + h)

def vdeinterleave (x : VIn) (ty : TyF) : VOut :=
  let w := tyWidth ty
  let c := vcols w
  let h := if tyUns ty then 1 else 0
  vmove w x fun i =>
    let r := i / c
    let p := 2 * (i % c) + h
    if p < c then velem w x.a (r * c + p) else velem w x.b (r * c + (p - c))

/-! ### Conversions and packs (06 R159 to R162) -/

def cvtFmt (c : Nat) : Fmt :=
  if c = 0 then f16 else if c = 1 then bf16 else if c = 2 then f32 else if c = 3 then f64 else if c = 4 then e4m3 else e5m2

/-- Conversion of one element between type codes (03 R83, 06 R159). -/
def cvtElem (fr tc : Nat) (mode : Nat) (sat : Bool) (x : Nat) : Nat × BitVec 5 :=
  let ws := cvtWidth fr
  let wd := cvtWidth tc
  if cvtInt fr then
    let v := readInt (fr ≥ 10) ws x
    if cvtInt tc then (cvtII (tc ≥ 10) wd sat v, 0) else cvtIF (cvtFmt tc) mode sat v
  else if cvtInt tc then cvtFI (cvtFmt fr) (tc ≥ 10) wd mode x
  else cvtFF (cvtFmt fr) (cvtFmt tc) mode sat x

def vconvert (x : VIn) (spec : BitVec 10) (ty : TyF) : VOut :=
  let fr := cvtFrom spec
  let tc := cvtTo spec
  let ws := cvtWidth fr
  let wd := cvtWidth tc
  let part := cvtPart spec ty
  let es := velems ws
  let ed := velems wd
  let rs := (List.range ed).map fun i =>
    let src : Option Nat :=
      if ws < wd then some (part * ed + i)
      else if ws = wd then some i
      else if part * es ≤ i ∧ i < part * es + es then some (i - part * es) else none
    match src with
    | some j => if x.act.elem wd x.k i then cvtElem fr tc x.rm (cvtSat ty) (velem ws x.a j) else (velem wd x.d i, 0)
    | none => (velem wd x.d i, 0)
  ⟨vbuild wd (rs.map (·.1)), flagsFrom wd (rs.map (·.2))⟩

/-- Exponents of block b of part `part` in a register of 16-bit elements (06 R160). -/
def expPair (nb part : Nat) (e : VReg) (b : Nat) : Nat × Nat :=
  let h := velem 16 e (nb * part + b)
  (h % 256, h / 256)

/-- Byte of a VB8 element or nibble of a VB4 element (03 R74). -/
def vbByte (r : Nat × Bool × Nat × BitVec 5) : Nat := 128 * r.1 + (if r.2.1 then 64 else 0) + r.2.2.1
def vbNib (r : Nat × Bool × Nat × BitVec 5) : Nat := 8 * r.1 + (if r.2.1 then 4 else 0) + r.2.2.1

/-- Register with the bytes 64 part to 64 part + 63 of each row replaced, byte q of 1024 from a list. -/
def putPart (d : VReg) (part : Nat) (bs : List Nat) : VReg :=
  vbuild 8 ((List.range 4096).map fun i =>
    let c := i % 256
    if 64 * part ≤ c ∧ c < 64 * part + 64 then bs.getD (i / 256 * 64 + (c - 64 * part)) 0 else velem 8 d i)

/-- Result of a pack: the destination, the exponent register, the flags. -/
structure PackOut where
  d : VReg
  e : VReg
  fl : Flags
  deriving DecidableEq, Repr

/-- vpk8 and vpk8x: 1024 elements in 32 blocks; `derive` takes the block's own exponents (06 R160, R161). -/
def vpack8 (derive : Bool) (a e d : VReg) (rm part : Nat) : PackOut :=
  let xs := (List.range 1024).map (velem 32 a)
  let exps := (List.range 32).map fun b =>
    if derive then blockExps 132 63 3 ((xs.drop (32 * b)).take 32) else expPair 32 part e b
  let rs := (List.range 1024).map fun n =>
    let p := exps.getD (n / 32) (0, 0)
    packVB 132 63 p.1 p.2 rm (xs.getD n 0)
  let e' := if derive then
      vbuild 16 ((List.range 2048).map fun i =>
        if 32 * part ≤ i ∧ i < 32 * part + 32 then
          let p := exps.getD (i - 32 * part) (0, 0); p.1 + 256 * p.2
        else velem 16 e i)
    else e
  ⟨putPart d part (rs.map vbByte), e', flagsFrom 32 (rs.map (·.2.2.2))⟩

/-- vpk4 and vpk4x: the pair of sources holds 2048 elements in 64 blocks. -/
def vpack4 (derive : Bool) (a a1 e d : VReg) (rm part : Nat) : PackOut :=
  let xs := (List.range 1024).map (velem 32 a) ++ (List.range 1024).map (velem 32 a1)
  let exps := (List.range 64).map fun b =>
    if derive then blockExps 128 3 2 ((xs.drop (32 * b)).take 32) else expPair 64 part e b
  let rs := (List.range 2048).map fun n =>
    let p := exps.getD (n / 32) (0, 0)
    packVB 128 3 p.1 p.2 rm (xs.getD n 0)
  let e' := if derive then
      vbuild 16 ((List.range 2048).map fun i =>
        if 64 * part ≤ i ∧ i < 64 * part + 64 then
          let p := exps.getD (i - 64 * part) (0, 0); p.1 + 256 * p.2
        else velem 16 e i)
    else e
  let bs := (List.range 1024).map fun q =>
    vbNib (rs.getD (2 * q) (0, false, 0, 0)) + 16 * vbNib (rs.getD (2 * q + 1) (0, false, 0, 0))
  let fl (h : Nat) : Flags := flagsFrom 32 ((rs.drop (1024 * h)).take 1024 |>.map (·.2.2.2))
  ⟨putPart d part bs, e', (fl 0).or (fl 1)⟩

/-- vupk8 (06 R162). -/
def vunpack8 (a e : VReg) (part : Nat) : VReg :=
  vbuild 32 ((List.range 1024).map fun n =>
    let byte := velem 8 a (n / 64 * 256 + 64 * part + n % 64)
    let p := expPair 32 part e (n / 32)
    vbToF32 132 (if byte / 128 = 1 then p.2 else p.1) (byte / 64 % 2 = 1) (byte % 64))

/-- vupk4: register h (0 or 1) of the destination pair. -/
def vunpack4 (a e : VReg) (part h : Nat) : VReg :=
  vbuild 32 ((List.range 1024).map fun i =>
    let n := 1024 * h + i
    let q := n / 2
    let byte := velem 8 a (q / 64 * 256 + 64 * part + q % 64)
    let nib := if n % 2 = 0 then byte % 16 else byte / 16
    let p := expPair 64 part e (n / 32)
    vbToF32 128 (if nib / 8 = 1 then p.2 else p.1) (nib / 4 % 2 = 1) (nib % 4))

/-- vrand (06 R165). -/
def vrandom (x : VIn) : VOut :=
  let key := (List.range 16).map fun j => bitsN x.key (8 * j) 8
  let bs := (List.range 256).flatMap fun q => Aes.encrypt key ((List.range 16).map fun j => velem 8 x.a (16 * q + j))
  let r := vbuild 8 bs
  vmove 32 x fun i => velem 32 r i

/-! ### The value of one register of each one-destination vector word -/

/-- The element function of a vector word with one destination register per group register (06 Tables 6.2 to 6.6). -/
def vcompute (op : Instr) (x : VIn) : VOut :=
  match op with
  | .vadd _ _ _ _ ty => v3f x ty fun f m a b _ => fadd f m a b
  | .vsub _ _ _ _ ty => v3f x ty fun f m a b _ => fsub f m a b
  | .vmul _ _ _ _ ty => v3f x ty fun f m a b _ => fmul f m a b
  | .vdiv _ _ _ _ ty => v3f x ty fun f m a b _ => fdiv f m a b
  | .vfma _ _ _ _ ty => v3f x ty fun f m a b d => ffma f m false false a b d
  | .vfms _ _ _ _ ty => v3f x ty fun f m a b d => ffma f m false true a b d
  | .vfnma _ _ _ _ ty => v3f x ty fun f m a b d => ffma f m true true a b d
  | .vfnms _ _ _ _ ty => v3f x ty fun f m a b d => ffma f m true false a b d
  | .vmin _ _ _ _ ty => v3f x ty fun f _ a b _ => fmin f a b
  | .vmax _ _ _ _ ty => v3f x ty fun f _ a b _ => fmax f a b
  | .vabs _ _ _ ty => v3f x ty fun f _ a _ _ => fabs f a
  | .vneg _ _ _ ty => v3f x ty fun f _ a _ _ => fneg f a
  | .vsqrt _ _ _ ty => v3f x ty fun f m a _ _ => fsqrt f m a
  | .vrcp _ _ _ ty => v3f x ty fun f m a _ _ => frcp f m a
  | .vrsqrt _ _ _ ty => v3f x ty fun f m a _ _ => frsqrt f m a
  | .vclass _ _ _ ty => v3f x ty fun f _ a _ _ => fclass f a
  | .vexp _ _ _ ty => v3f x ty fun f m a _ _ => FpFunc.transc .exp f m a
  | .vexp2 _ _ _ ty => v3f x ty fun f m a _ _ => FpFunc.transc .exp2 f m a
  | .vlog _ _ _ ty => v3f x ty fun f m a _ _ => FpFunc.transc .log f m a
  | .vlog2 _ _ _ ty => v3f x ty fun f m a _ _ => FpFunc.transc .log2 f m a
  | .verf _ _ _ ty => v3f x ty fun f m a _ _ => FpFunc.transc .erf f m a
  | .viadd _ _ _ _ ty => v3i x ty fun w a b => narrow ty w (a + b)
  | .visub _ _ _ _ ty => v3i x ty fun w a b => narrow ty w (a - b)
  | .vimul _ _ _ _ ty => v3i x ty fun w a b => narrow ty w (a * b)
  | .vimulh _ _ _ _ ty => v3i x ty fun w a b => a * b / ((2 ^ w : Nat) : Int)
  | .viand _ _ _ _ ty => v3u x ty fun _ a b => a &&& b
  | .vior _ _ _ _ ty => v3u x ty fun _ a b => a ||| b
  | .vixor _ _ _ _ ty => v3u x ty fun _ a b => a ^^^ b
  | .vishl _ _ _ _ ty => v3u x ty fun w a b => a * 2 ^ shiftAmt w b
  | .vishr _ _ _ _ ty => v3u x ty fun w a b => a / 2 ^ shiftAmt w b
  | .visra _ _ _ _ ty => v3u x ty fun w a b => wrapN w (signedOf w a / ((2 ^ shiftAmt w b : Nat) : Int))
  | .vimin _ _ _ _ ty => v3i x ty fun _ a b => if a ≤ b then a else b
  | .vimax _ _ _ _ ty => v3i x ty fun _ a b => if a ≥ b then a else b
  | .viabs _ _ _ ty => v3i x ty fun w a _ => narrow ty w (a.natAbs : Int)
  | .vpopc _ _ _ ty => v3u x ty fun w a _ => popcount w a
  | .vrotr _ _ k _ ty => let w := tyWidth ty; let c := vcols w; vaxis w x fun r j => (r, (j + c - k.toNat % c) % c)
  | .vrotc _ _ k _ ty => vaxis (tyWidth ty) x fun r j => ((r + 16 - k.toNat % 16) % 16, j)
  | .vbcr _ _ k _ ty => vaxis (tyWidth ty) x fun r _ => (r, k.toNat)
  | .vbcc _ _ k _ ty => vaxis (tyWidth ty) x fun _ j => (k.toNat, j)
  | .vredr _ _ k _ ty => vreduce true x k ty
  | .vredc _ _ k _ ty => vreduce false x k ty
  | .vprer _ _ k _ ty => vprefix true x k ty
  | .vprec _ _ k _ ty => vprefix false x k ty
  | .vpxorr _ _ k ty => ⟨vpxorRow x.a k ty, {}⟩
  | .vpxorc _ _ ty => ⟨vpxorCol x.a ty, {}⟩
  | .vperm _ _ _ _ ty => vpermute x ty
  | .vsel _ _ _ _ ty => vselect x ty
  | .vmov _ _ _ ty => let w := tyWidth ty; vmove w x fun i => velem w x.a i
  | .vzip _ _ _ _ ty => vinterleave x ty
  | .vunzip _ _ _ _ ty => vdeinterleave x ty
  | .vcmpeq _ _ _ _ ty => vcmpF x ty 0
  | .vcmpne _ _ _ _ ty => vcmpF x ty 1
  | .vcmplt _ _ _ _ ty => vcmpF x ty 2
  | .vcmple _ _ _ _ ty => vcmpF x ty 3
  | .vicmpeq _ _ _ _ ty => vcmpI x ty fun a b => a = b
  | .vicmplt _ _ _ _ ty => vcmpI x ty fun a b => a < b
  | .vicmple _ _ _ _ ty => vcmpI x ty fun a b => a ≤ b
  | .vcvt _ _ spec _ ty => vconvert x spec ty
  | .vrand _ _ _ _ => vrandom x
  | _ => ⟨x.d, {}⟩

end Sys2Proof.Machine
end

