-- ==== Sys2Proof/Machine/Flags.lean ====
section
/-! DEFINITION. The flag plane: what a completion sets, what a clear removes, and sr.fsum (02 R54, 06 R163, R164). -/

namespace Sys2Proof.Machine

/-- Flags of completions in cycle `now`. -/
def VecSt.flagsOf (v : VecSt) (now : Nat) : Flags := if v.flagsAt = now then v.flagsNew else {}

/-- A completion in cycle `now` sets flags (02 R54). -/
def VecSt.setFlags (v : VecSt) (now : Nat) (f : Flags) : VecSt :=
  { v with flags := v.flags.or f, flagsNew := (v.flagsOf now).or f, flagsAt := now }

/-- Lanes that a clear of one flag removes: the lanes named, but for those a completion of the same cycle set. -/
def clearPlane (on : Bool) (lanes fresh plane : BitVec 1024) : BitVec 1024 :=
  if on then (plane &&& ~~~lanes) ||| (plane &&& fresh) else plane

/-- A clear in cycle `now` of the flags of a five-bit mask in the given lanes; flags that completions of the same cycle set
stay set, since the clear acts first (02 R54). -/
def VecSt.clearFlags (v : VecSt) (now : Nat) (which : BitVec 5) (lanes : BitVec 1024) : VecSt :=
  let n := v.flagsOf now
  { v with flags :=
      ⟨clearPlane (which.getLsbD 0) lanes n.nv v.flags.nv, clearPlane (which.getLsbD 1) lanes n.dz v.flags.dz,
       clearPlane (which.getLsbD 2) lanes n.ovf v.flags.ovf, clearPlane (which.getLsbD 3) lanes n.unf v.flags.unf,
       clearPlane (which.getLsbD 4) lanes n.nx v.flags.nx⟩ }

/-- The five flags of a lane in the bit order of 06 R163. -/
def Flags.lane (f : Flags) (l : Nat) : Nat :=
  (f.nv.getLsbD l).toNat + 2 * (f.dz.getLsbD l).toNat + 4 * (f.ovf.getLsbD l).toNat + 8 * (f.unf.getLsbD l).toNat
    + 16 * (f.nx.getLsbD l).toNat

/-- The SUM bits of sr.fsum: each flag over all lanes. -/
def Flags.sum (f : Flags) : BitVec 5 :=
  BitVec.ofNat 5 ((if f.nv = 0 then 0 else 1) + (if f.dz = 0 then 0 else 2) + (if f.ovf = 0 then 0 else 4)
    + (if f.unf = 0 then 0 else 8) + (if f.nx = 0 then 0 else 16))

/-- Lanes that carry a flag of the mask. -/
def Flags.enabled (f : Flags) (en : BitVec 5) : BitVec 1024 :=
  (if en.getLsbD 0 then f.nv else 0) ||| (if en.getLsbD 1 then f.dz else 0) ||| (if en.getLsbD 2 then f.ovf else 0)
    ||| (if en.getLsbD 3 then f.unf else 0) ||| (if en.getLsbD 4 then f.nx else 0)

/-- The lowest lane of a set, or 0. -/
def lowestLane (m : BitVec 1024) : Nat := (findNat (fun l => m.getLsbD l) 1024 0).getD 0

end Sys2Proof.Machine
end

