-- ==== Sys2Proof/Machine/MxData.lean ====
section
/-! DEFINITION. The arithmetic of the matrix engine: block sums, stitch counts, drains, merges, images and conversions
(03 R76 to R82; 07 R182 to R196), as functions of tiles, banks and slot contents. -/

namespace Sys2Proof.Machine

open Fp

/-! ### Format words (07 R170, Table 7.2) -/

/-- A checked format word: its KIND and fields. -/
structure FmtWord where
  af : Nat := 0
  bf : Nat := 0
  rm : Nat := 0
  nb : Nat := 1
  rga : Nat := 0
  rgb : Nat := 0
  rgsa : Nat := 0
  rgsb : Nat := 0
  anchor : Int := 0
  wsrc : Nat := 0
  ring : Nat := 0
  deriving DecidableEq, Repr

/-- Allowed operand pairings (03 R76): any two of VB8, E4M3, E5M2; BF16 with BF16; binary32 with binary32. -/
def pairOk (af bf : Nat) : Bool := (af ≤ 2 && bf ≤ 2) || (af = 3 && bf = 3) || (af = 4 && bf = 4)

/-- Read of a format word for a command of the given KIND: the word, or the DETAIL code of its fault. -/
def readFmt (kind : Nat) (w : Nat) : Except Nat FmtWord :=
  if w % 16 ≠ kind then .error 1
  else
    let anchor := signedOf 9 (bitsN w 4 9)
    if kind = 1 then
      let r : FmtWord := { af := bitsN w 4 3, bf := bitsN w 7 3, rm := bitsN w 10 3, nb := bitsN w 13 8, rga := bitsN w 21 4,
                           rgb := bitsN w 25 4, rgsa := bitsN w 29 4, rgsb := bitsN w 33 4 }
      if w / 2 ^ 37 = 0 ∧ r.af ≤ 4 ∧ r.bf ≤ 4 ∧ pairOk r.af r.bf ∧ r.rm ≤ 4 ∧ 1 ≤ r.nb ∧
          (r.af = 0 ∨ r.rgsa = 0) ∧ (r.bf = 0 ∨ r.rgsb = 0) then .ok r else .error 2
    else if kind = 2 then
      let r : FmtWord := { nb := bitsN w 4 6, rga := bitsN w 10 4, rgb := bitsN w 14 4, rgsa := bitsN w 18 4, rgsb := bitsN w 22 4 }
      if w / 2 ^ 26 = 0 ∧ 1 ≤ r.nb then .ok r else .error 2
    else if kind = 3 then
      if w / 2 ^ 13 = 0 then .ok { anchor := anchor } else .error 2
    else if kind = 4 then
      let r : FmtWord := { anchor := anchor, rm := bitsN w 13 3, wsrc := bitsN w 16 4 }
      if w / 2 ^ 20 = 0 ∧ r.rm ≤ 4 ∧ r.wsrc ≤ 11 then .ok r else .error 2
    else
      if w / 2 ^ 8 = 0 then .ok { ring := bitsN w 4 4 } else .error 2

/-- Element bytes of an operand format (07 R182). -/
def opBytes (c : Nat) : Nat := if c ≤ 2 then 1 else if c = 3 then 2 else 4

/-! ### Dense blocks (03 R76, R77) -/

/-- Value of one operand element; `ex` its block's exponents for VB8. -/
def opVal (c : Nat) (ex : Nat × Nat) (x : Nat) : FVal :=
  if c = 0 then
    let e := if x / 128 = 1 then ex.2 else ex.1
    let s : Bool := x / 64 % 2 = 1
    if e = 0xFF then .nan false
    else if e = 0 ∨ x % 64 = 0 then .zero s
    else .fin s (x % 64) ((e : Int) - 132)
  else if c = 1 then decodeF e4m3 x
  else if c = 2 then decodeF e5m2 x
  else if c = 3 then decodeF bf16 x
  else decodeF f32 x

/-- Rows of an A block: element (i, kk) at (32 i + kk) x eb; scales by row (07 Table 7.6). -/
def aRows (c : Nat) (blk scale : List Byte) : List (List FVal) :=
  let n := leVal blk
  let s := leVal scale
  let eb := opBytes c
  (List.range 128).map fun i =>
    (List.range 32).map fun kk => opVal c (bitsN s (16 * i) 8, bitsN s (16 * i + 8) 8) (bitsN n (8 * eb * (32 * i + kk)) (8 * eb))

/-- Columns of a B block: element (kk, j) at (128 kk + j) x eb; scales by column. -/
def bCols (c : Nat) (blk scale : List Byte) : List (List FVal) :=
  let n := leVal blk
  let s := leVal scale
  let eb := opBytes c
  (List.range 128).map fun j =>
    (List.range 32).map fun kk => opVal c (bitsN s (16 * j) 8, bitsN s (16 * j + 8) 8) (bitsN n (8 * eb * (128 * kk + j)) (8 * eb))

/-- The sum of a block's products in one cell: NaN, infinite, or an exact dyadic. -/
inductive SumV where
  | nan
  | inf (neg : Bool)
  | fin (n : Int) (e : Int)
  deriving DecidableEq, Repr

/-- The special-value state of a running sum: a NaN seen, +infinity seen, -infinity seen; and the exact finite part. -/
structure SumAcc where
  nan : Bool := false
  pos : Bool := false
  ninf : Bool := false
  n : Int := 0
  e : Int := 0
  deriving DecidableEq, Repr

def SumAcc.step (s : SumAcc) (a b : FVal) : SumAcc :=
  match a, b with
  | .nan _, _ => { s with nan := true }
  | _, .nan _ => { s with nan := true }
  | _, _ =>
    match mulV a b with
    | none => { s with nan := true }
    | some (.inf t) => if t then { s with ninf := true } else { s with pos := true }
    | some (.fin t m e) => let r := addDy s.n s.e (sgn t m) e; { s with n := r.1, e := r.2 }
    | some _ => s

/-- The sum decided from the finite part with a correction or an upset added (03 R77, 07 R194). -/
def SumAcc.done (s : SumAcc) (adj : Int × Int) : SumV :=
  if s.nan || (s.pos && s.ninf) then .nan
  else if s.pos then .inf false
  else if s.ninf then .inf true
  else let r := addDy s.n s.e adj.1 adj.2; .fin r.1 r.2

def blockSum (a b : List FVal) (adj : Int × Int) : SumV :=
  ((a.zip b).foldl (fun s p => s.step p.1 p.2) ({} : SumAcc)).done adj

/-- The new accumulator element (03 R76). -/
def accAdd (mode : Nat) (s : SumV) (c : Nat) : Nat :=
  match s, decodeF f32 c with
  | .nan, _ => 0x7FC00000
  | _, .nan _ => 0x7FC00000
  | .inf t, .inf u => if t = u then infP f32 t else 0x7FC00000
  | .inf t, _ => infP f32 t
  | .fin _ _, .inf _ => c
  | .fin n e, .zero _ => if n = 0 then c else (roundI f32 mode n e (mode = 3)).1
  | .fin n e, .fin t m e' =>
    if n = 0 then c
    else
      let r := addDy n e (sgn t m) e'
      (roundI f32 mode r.1 r.2 (mode = 3)).1

/-- Element j of an accumulator row. -/
def rowElem (r : Row) (j : Nat) : Nat := bitsN r.toNat (32 * j) 32
def rowOf (xs : List Nat) : Row := BitVec.ofNat 4096 (packNat 32 xs)

/-- One dense block added into 128 rows of a tile; `adj` holds the net error of a cell at 128 i + j. -/
def mmaAdd (fw : FmtWord) (rows : List Row) (a b : List (List FVal)) (adj : SMap (Int × Int)) : List Row :=
  (rows.zip (a.zip (List.range 128))).map fun p =>
    let i := p.2.2
    rowOf ((b.zip (List.range 128)).map fun q =>
      accAdd fw.rm (blockSum p.2.1 q.1 (SMap.get (0, 0) adj (128 * i + q.2))) (rowElem p.1 q.2))

/-! ### Checksums (07 R194, R195) -/

/-- The outcome of one checked set. -/
inductive CkOut where
  | proceed
  | correct (i j : Nat)
  | path
  | escalate
  deriving DecidableEq, Repr

/-- Table 7.8 for the nonzero row mismatches (by column j) and column mismatches (by row i), as (index, value) lists. -/
def ckOutcome {α : Type} [DecidableEq α] (mode : CkMode) (dR dC : List (Nat × α)) : CkOut :=
  match mode with
  | .off => .proceed
  | .detect => if dR.isEmpty && dC.isEmpty then .proceed else .escalate
  | .on =>
    match dR, dC with
    | [], [] => .proceed
    | [(j, x)], [(i, y)] => if x = y then .correct i j else .escalate
    | [_], [] => .path
    | [], [_] => .path
    | _, _ => .escalate

/-- Sum of dyadics in lowest terms, so that equal numbers are equal data. -/
def normDy (n : Int) (e : Int) : Int × Int :=
  if n = 0 then (0, 0)
  else
    let z := (findNat (fun k => n.natAbs / 2 ^ k % 2 = 1) (Nat.log2 n.natAbs + 1) 0).getD 0
    (n / 2 ^ z, e + z)

/-- The mismatches that a set of upsets of one block leaves: dR[j] is minus the errors of column j's cells plus the error of
checksum column j, and so for rows (07 R194; every other term of a d cancels exactly). -/
def upsetD (us : List Upset) (key : UpsetAt → Option (Nat × Bool)) : List (Nat × (Int × Int)) :=
  let idx := (us.filterMap fun u => (key u.site).map (·.1)).eraseDups
  (idx.map fun k =>
    let r := us.foldl (fun (acc : Int × Int) u =>
      match key u.site with
      | some (k', inCell) => if k' = k then addDy acc.1 acc.2 (if inCell then -u.n else u.n) u.e else acc
      | none => acc) (0, 0)
    (k, normDy r.1 r.2)).filter fun p => p.2.1 ≠ 0

def upsetCol : UpsetAt → Option (Nat × Bool)
  | .cell _ j => some (j, true)
  | .row j => some (j, false)
  | .col _ => none
def upsetRow : UpsetAt → Option (Nat × Bool)
  | .cell i _ => some (i, true)
  | .col i => some (i, false)
  | .row _ => none

/-- Net errors of the cells of a block: the upsets, and the correction of Table 7.8. -/
def upsetAdj (us : List Upset) (out : CkOut) (dR : List (Nat × (Int × Int))) : SMap (Int × Int) :=
  let base := us.foldl (fun (m : SMap (Int × Int)) u =>
    match u.site with
    | .cell i j =>
      let o := SMap.get (0, 0) m (128 * i + j)
      SMap.put (0, 0) m (128 * i + j) (let r := addDy o.1 o.2 u.n u.e; normDy r.1 r.2)
    | _ => m) []
  match out, dR with
  | .correct i j, [(_, x)] =>
    let o := SMap.get (0, 0) base (128 * i + j)
    SMap.put (0, 0) base (128 * i + j) (let r := addDy o.1 o.2 x.1 x.2; normDy r.1 r.2)
  | _, _ => base

/-! ### Stitch banks (02 R49, R50; 03 R79 to R81; 07 R184 to R191) -/

/-- Counter x of a cell, signed. -/
def cellCtr (c : BitVec 288) (x : Nat) : Int := signedOf 12 (bitsN c.toNat (12 * x) 12)
/-- A cell from its 24 counters. -/
def cellOf (xs : List Int) : BitVec 288 := BitVec.ofNat 288 (packNat 12 (xs.map (wrapN 12)))
def Bank.cell (b : Bank) (i j : Nat) : BitVec 288 := SMap.get 0 b.cnt (128 * i + j)

/-- Class of a magnitude product (02 R49). -/
def classOf (p : Nat) : Nat := if p = 1 then 0 else if p = 2 then 1 else if p = 3 then 2 else if p = 4 then 3 else if p = 6 then 4 else 5
def classVal (c : Nat) : Nat := if c = 0 then 1 else if c = 1 then 2 else if c = 2 then 3 else if c = 3 then 4 else if c = 4 then 6 else 9

/-- The counter and the sign that a pair of VB4 nibbles counts, if it counts (03 R79). -/
def stitchPair (a b : Nat) : Option (Nat × Int) :=
  let p := a % 4 * (b % 4)
  if p = 0 then none
  else some (4 * classOf p + 2 * (a / 8) + b / 8, if (a / 4 + b / 4) % 2 = 0 then 1 else -1)

/-- Counts that 32 pairs add to the 24 counters of one cell. -/
def stitchDelta (a b : List Nat) : List Int :=
  let ps := (a.zip b).filterMap fun p => stitchPair p.1 p.2
  (List.range 24).map fun x => ps.foldl (fun s p => if p.1 = x then s + p.2 else s) 0

/-- VB4 rows of an A block and columns of a B block (07 Table 7.6, nibble order of 03 R74). -/
def nibRows (blk : List Byte) : List (List Nat) :=
  let n := leVal blk
  (List.range 128).map fun i => (List.range 32).map fun kk => bitsN n (4 * (32 * i + kk)) 4
def nibCols (blk : List Byte) : List (List Nat) :=
  let n := leVal blk
  (List.range 128).map fun j => (List.range 32).map fun kk => bitsN n (4 * (128 * kk + j)) 4

/-- Table of counters moved by a list of (key, amount). -/
def addCtrs (m : SMap (BitVec 20)) (xs : List (Nat × Int)) : SMap (BitVec 20) :=
  xs.foldl (fun m p => if p.2 = 0 then m else SMap.put 0 m p.1 (SMap.get 0 m p.1 + BitVec.ofInt 20 p.2)) m

/-- One counted block (07 R184): counts, checksum counters along their own path, DEPTH; upsets move a cell or a checksum
counter off. -/
def scntAdd (b : Bank) (ablk bblk : List Byte) (us : List Upset) : Bank :=
  let ar := nibRows ablk
  let bc := nibCols bblk
  let deltas : List (Nat × List Int) := (ar.zip (List.range 128)).flatMap fun p =>
    (bc.zip (List.range 128)).map fun q => (128 * p.2 + q.2, stitchDelta p.1 q.1)
  let upsetOf (k x : Nat) : Int := us.foldl (fun s u =>
    match u.site with
    | .cell i j => if 128 * i + j = k ∧ u.x = x then s + u.n else s
    | _ => s) 0
  let cnt := deltas.foldl (fun m p =>
    let old := SMap.get 0 m p.1
    let new := cellOf ((List.range 24).map fun x => cellCtr old x + p.2.getD x 0 + upsetOf p.1 x)
    if new = old then m else SMap.put 0 m p.1 new) b.cnt
  let colSum := deltas.foldl (fun m p => addCtrs m ((List.range 24).map fun x => (24 * (p.1 % 128) + x, p.2.getD x 0))) b.kr
  let rowSum := deltas.foldl (fun m p => addCtrs m ((List.range 24).map fun x => (24 * (p.1 / 128) + x, p.2.getD x 0))) b.kc
  let kr := us.foldl (fun m u => match u.site with | .row j => addCtrs m [(24 * j + u.x, u.n)] | _ => m) colSum
  let kc := us.foldl (fun m u => match u.site with | .col i => addCtrs m [(24 * i + u.x, u.n)] | _ => m) rowSum
  { b with cnt := cnt, kr := kr, kc := kc, depth := b.depth + 1 }

/-- Sums of counter x over a column or a row of cells. -/
def Bank.colSum (b : Bank) (j x : Nat) : Int := b.cnt.foldl (fun s p => if p.1 % 128 = j then s + cellCtr p.2 x else s) 0
def Bank.rowSum (b : Bank) (i x : Nat) : Int := b.cnt.foldl (fun s p => if p.1 / 128 = i then s + cellCtr p.2 x else s) 0

/-- The mismatches of counter x of a bank (07 R194). -/
def Bank.dR (b : Bank) (x : Nat) : List (Nat × Int) :=
  ((List.range 128).map fun j => (j, signedOf 20 (SMap.get 0 b.kr (24 * j + x)).toNat - b.colSum j x)).filter fun p => p.2 ≠ 0
def Bank.dC (b : Bank) (x : Nat) : List (Nat × Int) :=
  ((List.range 128).map fun i => (i, signedOf 20 (SMap.get 0 b.kc (24 * i + x)).toNat - b.rowSum i x)).filter fun p => p.2 ≠ 0

/-- What the compare before a drain leaves: the corrected bank, corrections (row, column, x), mismatches kept, escalation. -/
structure DrainCk where
  bank : Bank
  corr : List (Nat × Nat × Nat) := []
  kept : Nat := 0
  bad : Bool := false
  deriving DecidableEq, Repr

def drainCheck (mode : CkMode) (b : Bank) : DrainCk :=
  (List.range 24).foldl (fun (r : DrainCk) x =>
    let dR := r.bank.dR x
    let dC := r.bank.dC x
    match ckOutcome mode dR dC with
    | .proceed => r
    | .path => { r with kept := r.kept + 1 }
    | .escalate => { r with bad := true }
    | .correct i j =>
      let d := match dR with | (_, v) :: _ => v | [] => 0
      let old := r.bank.cell i j
      let new := cellOf ((List.range 24).map fun y => if y = x then cellCtr old y + d else cellCtr old y)
      { r with bank := { r.bank with cnt := SMap.put 0 r.bank.cnt (128 * i + j) new }, corr := r.corr ++ [(i, j, x)] })
    { bank := b }

/-- NaN of a wide element (03 R80). -/
def wideNan : Int := -(2 ^ 127)

/-- The term that one cell drains: none for a scale out of window, else whether it is NaN and T (03 R81). -/
def drainCell (cell : BitVec 288) (ea eb : Nat × Nat) (anchor : Int) : Option (Bool × Int) :=
  (List.range 24).foldl (fun (acc : Option (Bool × Int)) k =>
    match acc with
    | none => none
    | some (nan, t) =>
      -- order of 03 R81: sa, sb, then class
      let sa := k / 12
      let sb := k / 6 % 2
      let c := k % 6
      let n := cellCtr cell (4 * c + 2 * sa + sb)
      let a := if sa = 0 then ea.1 else ea.2
      let b := if sb = 0 then eb.1 else eb.2
      if n = 0 then some (nan, t)
      else if a = 0xFF ∨ b = 0xFF then some (true, t)
      else if a = 0 ∨ b = 0 then some (nan, t)
      else
        let s : Int := (a : Int) + b - 256
        if s < anchor ∨ s > anchor + 96 then none
        else some (nan, t + n * classVal c * 2 ^ (s - anchor).toNat)) (some (false, 0))

/-- Scale pair of a row or column. -/
def scalePair (m : SMap (BitVec 16)) (i : Nat) : Nat × Nat :=
  let h := (SMap.get 0 m i).toNat; (h % 256, h / 256)

/-- New elements of a drain, by 128 i + j in row order, or the DETAIL of its fault: 6 WINDOW, 7 WIDEOVF (07 R186). -/
def drainAll (b : Bank) (anchor : Int) (wt : Nat → Nat → Int) : Except Nat (List Int) :=
  ((List.range 16384).foldl (fun (acc : Except Nat (List Int)) k =>
    match acc with
    | .error d => .error d
    | .ok l =>
      let i := k / 128
      let j := k % 128
      let x := wt i j
      match drainCell (b.cell i j) (scalePair b.ea i) (scalePair b.eb j) anchor with
      | none => .error 6
      | some (nan, t) =>
        if nan || x = wideNan then .ok (wideNan :: l)
        else if x + t > 2 ^ 127 - 1 ∨ x + t < -(2 ^ 127 - 1) then .error 7
        else .ok ((x + t) :: l)) (.ok [])).map List.reverse

/-- Bank after a successful drain or as the source of a merge: counts gone, scales kept only while held (07 R186, R187). -/
def Bank.cleared (b : Bank) : Bank := { b with cnt := [], kr := [], kc := [], depth := 0, scaled := b.hold }

/-- Scales of a bank, for comparison. -/
def Bank.sameScales (a b : Bank) : Bool := a.ea = b.ea && a.eb = b.eb

/-- Sum of two cells. -/
def cellAdd (a b : BitVec 288) : BitVec 288 := cellOf ((List.range 24).map fun x => cellCtr a x + cellCtr b x)

/-- Merge of bank s into bank d: the new pair (d, s), or the DETAIL of its fault (07 R187). -/
def mergeBanks (d s : Bank) : Except Nat (Bank × Bank) :=
  if s.depth = 0 then .ok (d, s)
  else if d.depth = 0 ∧ d.scaled = false then
    .ok ({ d with cnt := s.cnt, kr := s.kr, kc := s.kc, ea := s.ea, eb := s.eb, scaled := true, depth := s.depth }, s.cleared)
  else if d.scaled = false ∨ !d.sameScales s then .error 4
  else if d.depth + s.depth > 63 then .error 5
  else
    let cnt := s.cnt.foldl (fun m p => SMap.put 0 m p.1 (cellAdd (SMap.get 0 m p.1) p.2)) d.cnt
    let add (m n : SMap (BitVec 20)) := n.foldl (fun m p => SMap.put 0 m p.1 (SMap.get 0 m p.1 + p.2)) m
    .ok ({ d with cnt := cnt, kr := add d.kr s.kr, kc := add d.kc s.kc, depth := d.depth + s.depth }, s.cleared)

/-- The 590400-byte image of a bank (07 Table 7.7). -/
def bankImage (b : Bank) : List Byte :=
  let flag (x : Bool) (n : Nat) : Nat := if x then n else 0
  leBytes 64 (b.depth % 64 + flag b.scaled 64 + flag b.hold 128) ++
  (List.range 128).flatMap (fun i => leBytes 2 (SMap.get 0 b.ea i).toNat) ++
  (List.range 128).flatMap (fun j => leBytes 2 (SMap.get 0 b.eb j).toNat) ++
  (List.range 16384).flatMap (fun k => leBytes 36 (SMap.get 0 b.cnt k).toNat)

/-- A table from a list of values at keys 0, 1, … -/
def tableOf {α : Type} [DecidableEq α] (dflt : α) (xs : List α) : SMap α :=
  ((List.range xs.length).zip xs).filter fun p => p.2 ≠ dflt

/-- Chunks of n bytes as numbers. -/
def chunks (n : Nat) : Nat → List Byte → List Nat
  | 0, _ => []
  | k + 1, bs => leVal (bs.take n) :: chunks n k (bs.drop n)

/-- Checksum counters recomputed from counts (07 R188). -/
def ctrSums (cnt : SMap (BitVec 288)) (line : Nat → Nat) : SMap (BitVec 20) :=
  cnt.foldl (fun m p => addCtrs m ((List.range 24).map fun x => (24 * line p.1 + x, cellCtr p.2 x))) []

/-- The bank that an image holds; none when the image is refused (07 R189). -/
def imageBank (bs : List Byte) : Option Bank :=
  let h := leVal (bs.take 64)
  let depth := h % 64
  let scaled : Bool := h / 64 % 2 = 1
  let hold : Bool := h / 128 % 2 = 1
  let ea := (chunks 2 128 (bs.drop 64)).map (BitVec.ofNat 16)
  let eb := (chunks 2 128 (bs.drop 320)).map (BitVec.ofNat 16)
  let cnt := tableOf 0 ((chunks 36 16384 (bs.drop 576)).map (BitVec.ofNat 288))
  let absSum (c : BitVec 288) : Nat := (List.range 24).foldl (fun s x => s + (cellCtr c x).natAbs) 0
  if h / 256 ≠ 0 then none
  else if hold && !scaled then none
  else if !scaled && !cnt.isEmpty then none
  else if cnt.any (fun p => absSum p.2 > 32 * depth) then none
  else some { cnt := cnt, depth := depth, ea := tableOf 0 ea, eb := tableOf 0 eb, scaled := scaled, hold := hold,
              kr := ctrSums cnt (· % 128), kc := ctrSums cnt (· / 128) }

/-- WCVT of one wide element (03 R82). -/
def wideToF32 (x anchor : Int) (mode : Nat) : Nat :=
  if x = wideNan then 0x7FC00000 else if x = 0 then 0 else (roundI f32 mode x anchor false).1

end Sys2Proof.Machine
end

