-- ==== Sys2Proof/Machine/Ops.lean ====
section
/-! DEFINITION. The named operations over the state: tables, agenda, free values, delayed effects, tokens, system registers,
taking an exception and returning from one, and the issue of a word. -/

namespace Sys2Proof.Machine

/-! ### Access to cores and sequencers -/

/-- Number of a core in the tables: 24 x die + logical core. -/
def State.core (s : State) (n : Nat) : Core := SMap.get {} s.cores n
def State.setCore (s : State) (n : Nat) (c : Core) : State := { s with cores := SMap.ins s.cores n c }
def State.modCore (s : State) (n : Nat) (f : Core → Core) : State := s.setCore n (f (s.core n))

def State.die (s : State) (d : Nat) : Die := SMap.get {} s.dies d
def State.setDie (s : State) (d : Nat) (x : Die) : State := { s with dies := SMap.ins s.dies d x }
def State.modDie (s : State) (d : Nat) (f : Die → Die) : State := s.setDie d (f (s.die d))

def Core.seq (c : Core) : Seq → SeqSt
  | .c => c.c
  | .l => c.l
  | .x => c.x
  | .s => c.s
def Core.setSeq (c : Core) (q : Seq) (x : SeqSt) : Core :=
  match q with
  | .c => { c with c := x }
  | .l => { c with l := x }
  | .x => { c with x := x }
  | .s => { c with s := x }
def Core.modSeq (c : Core) (q : Seq) (f : SeqSt → SeqSt) : Core := c.setSeq q (f (c.seq q))
/-- The four sequencers, changed alike. -/
def Core.modSeqs (c : Core) (f : SeqSt → SeqSt) : Core := { c with c := f c.c, l := f c.l, x := f c.x, s := f c.s }

/-- Number of a sequencer: 0 C, 1 L, 2 X, 3 S (02 R57 SEQ, 09 Table 9.6). -/
def seqNum : Seq → Nat
  | .c => 0 | .l => 1 | .x => 2 | .s => 3
def allSeqs : List Seq := [.c, .l, .x, .s]

/-- Die and logical core of a core number. -/
def dieOf (n : Nat) : Nat := n / 24
def lcoreOf (n : Nat) : Nat := n % 24

def SeqSt.reg (x : SeqSt) (r : Nat) : Word := SMap.get 0 x.regs r
def SeqSt.setReg (x : SeqSt) (r : Nat) (v : Word) : SeqSt := { x with regs := SMap.put 0 x.regs r v }

/-- The core, sequencer and program counter whose turn it is. -/
def State.cur (s : State) : Core := s.core s.turn.core
def State.curSeq (s : State) : SeqSt := s.cur.seq s.turn.q
def State.modCur (s : State) (f : Core → Core) : State := s.modCore s.turn.core f
def State.rd (s : State) (r : RegF) : Word := s.curSeq.reg r.toNat

/-! ### Agenda and free values -/

/-- Phases of a cycle: events of one cycle run in phase order, then in the order in which they were placed. Tile reads of
a2v come before the writes of v2a, and both before the block additions (07 R193); completions come before commits and reads
(06 R136); the switches of a cycle come before its accesses to DRAM (13 R335), and these run by ascending stamp (13 R324). -/
def phTileRead : Nat := 0
def phComplete : Nat := 1
def phCommit : Nat := 2
def phRead : Nat := 3
def phMatrix : Nat := 4
def phSwitch : Nat := 5
def phEngine : Nat := 6
def phMemory : Nat := 7
def phTask : Nat := 8
/-- What is judged at the end of a cycle, when no stream issues in it any more (05 R129, 13 R339). -/
def phEnd : Nat := 9

/-- Order of stamps from the issuer on: issuer, seq modulo 2^16 over a window of 32768, origin tag. -/
def Stamp.ltIssuer (a b : Stamp) : Bool :=
  if a.issuer ≠ b.issuer then decide (a.issuer < b.issuer)
  else if a.seqno ≠ b.seqno then decide ((b.seqno - a.seqno).toNat < 32768)
  else if a.pkg ≠ b.pkg then decide (a.pkg < b.pkg)
  else if a.ctx ≠ b.ctx then decide (a.ctx < b.ctx)
  else if a.lserial ≠ b.lserial then decide (a.lserial < b.lserial)
  else decide (a.run < b.run)
def Stamp.lt (a b : Stamp) : Bool := if a.stc ≠ b.stc then decide (a.stc < b.stc) else a.ltIssuer b

/-- A job runs before another of the agenda that was placed earlier. -/
def Job.before (j k : Job) : Bool :=
  decide (j.due < k.due) || (decide (j.due = k.due) &&
    (decide (j.phase < k.phase) || (decide (j.phase = k.phase) && j.key.lt k.key)))

def insJob (j : Job) : List Job → List Job
  | [] => [j]
  | k :: t => if j.before k then j :: k :: t else k :: insJob j t

/-- Placing of an event at a cycle. -/
def State.sched (s : State) (due phase : Nat) (ev : Instr) : State :=
  { s with agenda := insJob { due := due, phase := phase, ev := ev } s.agenda }

/-- The same, with a subject. -/
def State.schedInp (s : State) (due phase : Nat) (ev : Instr) (inp : Input) : State :=
  { s with agenda := insJob { due := due, phase := phase, ev := ev, inp := inp } s.agenda }

/-- Placing of an access to DRAM at a cycle, with its stamp. -/
def State.schedMem (s : State) (due : Nat) (ev : Instr) (st : Stamp) : State :=
  { s with agenda := insJob { due := due, phase := phMemory, ev := ev, key := st } s.agenda }

/-- Removal of events. -/
def State.unsched (s : State) (p : Instr → Bool) : State := { s with agenda := s.agenda.filter fun j => !p j.ev }

/-- Whether an event stands in the agenda. -/
def State.hasJob (s : State) (ev : Instr) : Bool := s.agenda.any fun j => j.ev = ev
/-- Whether an event with a subject stands in the agenda. -/
def State.hasJobInp (s : State) (ev : Instr) (inp : Input) : Bool := s.agenda.any fun j => j.ev = ev && j.inp = inp

/-- A latency that the manual leaves open, at least 1 (log 4). -/
def State.drawLat (s : State) : Nat × State := (Config.freeLatency s.freeCtr + 1, { s with freeCtr := s.freeCtr + 1 })

/-- Placing of an event after a latency that the manual leaves open. -/
def State.schedFree (s : State) (phase : Nat) (ev : Instr) : State :=
  let (n, s) := s.drawLat
  s.sched (s.stc + n) phase ev

/-- Placing of an access to DRAM after a latency that the manual leaves open. -/
def State.schedMemFree (s : State) (ev : Instr) (st : Stamp) : State :=
  let (n, s) := s.drawLat
  s.schedMem (s.stc + n) ev st

/-- The same as schedFree, with a subject. -/
def State.schedInpFree (s : State) (phase : Nat) (ev : Instr) (inp : Input) : State :=
  let (n, s) := s.drawLat
  s.schedInp (s.stc + n) phase ev inp

/-- A fresh number for an operation, packet, window or publish. -/
def State.fresh (s : State) : Nat × State := (s.nextId, { s with nextId := s.nextId + 1 })

/-! ### Delayed effects -/

/-- Placing of an effect: after those due at the same cycle or earlier, so that of two results that reach one register in one
cycle the later-issued survives (05 R110, 06 R136). -/
def insPend (p : Pend) : List Pend → List Pend
  | [] => [p]
  | k :: t => if p.due < k.due ∧ t.all (fun j => decide (p.due < j.due)) then p :: k :: t else k :: insPend p t

def Core.later (c : Core) (due : Nat) (e : Eff) : Core := { c with pend := insPend ⟨due, e⟩ c.pend }

/-- Physical register of a name (02 R42). -/
def physReg (rotsz rrb n : Nat) : Nat :=
  if n < 128 then n else if n < 128 + rotsz then 128 + (n - 128 + rrb) % rotsz else n

/-- A group of g names from n lies in one part of the register file (02 R43). -/
def groupOk (rotsz n g : Nat) : Bool :=
  decide (n + g ≤ 640) &&
    (decide (n + g ≤ 128) || (decide (128 ≤ n) && decide (n + g ≤ 128 + rotsz)) || decide (128 + rotsz ≤ n))

def VecSt.reg (v : VecSt) (r : Nat) : VReg := SMap.get 0 v.vrf r
def VecSt.setReg (v : VecSt) (r : Nat) (x : VReg) : VecSt := { v with vrf := SMap.put 0 v.vrf r x }

/-- 64-bit element 0 of a register (05 R126). -/
def vreg64 (x : VReg) : Word := x.setWidth 64
def setVreg64 (x : VReg) (w : Word) : VReg := (x >>> 64 <<< 64) ||| w.setWidth 32768

/-- Reset value of a compact predicate (02 Table 2.3): COUNT 0, WIDTH 0b10, GROUP 1. -/
def predReset : BitVec 18 := 0x0C000#18
def VecSt.pred (v : VecSt) (k : Nat) : BitVec 18 := SMap.get predReset v.preds k
def predCount (p : BitVec 18) : Nat := p.toNat % 8192
def predWidth (p : BitVec 18) : Nat := p.toNat / 8192 % 4
def predGroup (p : BitVec 18) : Nat := p.toNat / 32768
/-- The bound of 02 R44. -/
def predLegal (p : BitVec 18) : Bool :=
  1 ≤ predGroup p && predGroup p ≤ 6 && decide (predCount p ≤ Nat.min 6144 (predGroup p * elemsOf (predWidth p)))

/-! ### Tokens (02 R51 to R53, 04 R87) -/

def QueueSt.tok (x : QueueSt) (f : Nat) : TokFifo := SMap.get {} x.tk f
def QueueSt.setTok (x : QueueSt) (f : Nat) (k : TokFifo) : QueueSt := { x with tk := SMap.ins x.tk f k }
/-- FIFO popped from the previous or the next sequencer. -/
def popPrev (q : Seq) : Nat := (seqNum q + 3) % 4
def popNext (q : Seq) : Nat := 4 + seqNum q
/-- FIFO pushed to the next or the previous sequencer. -/
def pushNext (q : Seq) : Nat := seqNum q
def pushPrev (q : Seq) : Nat := 4 + (seqNum q + 3) % 4
/-- Tokens that can be popped in cycle `now`: those pushed in earlier cycles. -/
def TokFifo.avail (k : TokFifo) (now : Nat) : Nat := k.count - (if k.pushAt = now then k.pushN else 0)
/-- Count that a push in cycle `now` is checked against: the start-of-cycle count and the pushes of this cycle. -/
def TokFifo.held (k : TokFifo) (now : Nat) : Nat := k.count + (if k.popAt = now then k.popN else 0)
def TokFifo.pop (k : TokFifo) (now n : Nat) : TokFifo :=
  { k with count := k.count - n, popAt := now, popN := (if k.popAt = now then k.popN else 0) + n }
def TokFifo.push (k : TokFifo) (now n : Nat) : TokFifo :=
  { k with count := k.count + n, pushAt := now, pushN := (if k.pushAt = now then k.pushN else 0) + n }
def Core.popTok (c : Core) (f now n : Nat) : Core := { c with q := c.q.setTok f ((c.q.tok f).pop now n) }
def Core.pushTok (c : Core) (f now n : Nat) : Core := { c with q := c.q.setTok f ((c.q.tok f).push now n) }

/-- FIFOs that a POP or a PUSH field names (04 R87). -/
def popList (q : Seq) (sel : BitVec 2) : List Nat :=
  (if sel.getLsbD 0 then [popPrev q] else []) ++ (if sel.getLsbD 1 then [popNext q] else [])
def pushList (q : Seq) (sel : BitVec 2) : List Nat :=
  (if sel.getLsbD 0 then [pushPrev q] else []) ++ (if sel.getLsbD 1 then [pushNext q] else [])

/-! ### Vector queues (02 R51 to R53) -/

def QueueSt.lqueue (x : QueueSt) (k : Nat) : VQueue := SMap.get {} x.lq k
def QueueSt.squeue (x : QueueSt) (k : Nat) : VQueue := SMap.get {} x.sq k
def QueueSt.setLq (x : QueueSt) (k : Nat) (v : VQueue) : QueueSt := { x with lq := SMap.ins x.lq k v }
def QueueSt.setSq (x : QueueSt) (k : Nat) (v : VQueue) : QueueSt := { x with sq := SMap.ins x.sq k v }
/-- The entry that a pop in cycle `now` takes, if the head was pushed in an earlier cycle. -/
def VQueue.head? (v : VQueue) (now : Nat) : Option VReg :=
  match v.items with
  | [] => none
  | e :: _ => if e.at_ < now ∨ e.at_ = 0 then some e.data else none
def VQueue.pop (v : VQueue) (now : Nat) : VQueue :=
  { items := v.items.tail, popAt := now, popN := (if v.popAt = now then v.popN else 0) + 1 }
/-- Room for a push, judged on the start-of-cycle count and the pushes already made in the cycle (log 20). -/
def VQueue.room (v : VQueue) (now : Nat) : Bool := v.items.length + (if v.popAt = now then v.popN else 0) < 4
def VQueue.push (v : VQueue) (now : Nat) (x : VReg) : VQueue := { v with items := v.items ++ [⟨x, now⟩] }
/-- Return of a popped entry to the head it came from (06 R141). -/
def VQueue.unpop (v : VQueue) (x : VReg) : VQueue := { v with items := ⟨x, 0⟩ :: v.items }

/-! ### System registers (02 R56, R57; 05 R126, R283) -/

/-- The number is assigned (02 Table 2.5). -/
def sysAssigned (n : Nat) : Bool := n ≤ 0x1E || (0x20 ≤ n && n ≤ 0x27)

/-- Fields of a loop register; the reserved bits read 0 (02 Table 2.1). -/
def lcMask : Word := 0x3FFF3FFFFFFFFFFF#64
def SeqSt.loopReg (x : SeqSt) (k : Nat) : Word := SMap.get 0 x.lc k
def SeqSt.setLoop (x : SeqSt) (k : Nat) (v : Word) : SeqSt := { x with lc := SMap.put 0 x.lc k (v &&& lcMask) }
def lcCount (v : Word) : Nat := v.toNat % 2 ^ 32
def lcStart (v : Word) : BitVec 14 := v.extractLsb' 32 14
def lcEnd (v : Word) : BitVec 14 := v.extractLsb' 48 14

def spillBase (v : Word) : Nat := v.toNat % 2 ^ 23
def spillSlots (v : Word) : Nat := bitsN v.toNat 23 7
def spillUsed (v : Word) : Nat := bitsN v.toNat 30 7
def setSpillUsed (v : Word) (u : Nat) : Word := BitVec.ofNat 64 (v.toNat % 2 ^ 30 + 2 ^ 30 * (u % 128))

def SysSt.valid (y : SysSt) : Bool := y.cause.getLsbD 20
/-- sr.id of a core (02 Table 2.6). -/
def idWord (die lcore phys : Nat) : Word := BitVec.ofNat 64 (1 + 16 * (die % 8) + 128 * (lcore % 32) + 4096 * (phys % 32))

/-- Whole value of a system register as sequencer q reads it; `id` is the core's sr.id. -/
def Core.readSys (c : Core) (id : Word) (q : Seq) (n : Nat) : Word :=
  let y := c.sys
  let x := c.seq q
  if n = 0x000 then id
  else if n = 0x001 then BitVec.ofNat 64 (y.region.toNat + 2 * y.restarted.toNat)
  else if n = 0x002 then y.frm.setWidth 64
  else if n = 0x003 then y.fen.setWidth 64
  else if n = 0x004 then c.vec.flags.sum.setWidth 64
  else if n = 0x005 then y.rotsz.setWidth 64
  else if n = 0x006 then y.rrb.setWidth 64
  else if n = 0x007 then y.spv.setWidth 64
  else if n = 0x008 then BitVec.ofNat 64 c.vec.masks.length
  else if n = 0x009 then x.rsspill
  else if n = 0x00A then x.tvec
  else if n = 0x00B then x.epc
  else if n = 0x00C then y.cause.setWidth 64
  else if n = 0x00D then BitVec.ofNat 64 (y.ctx.toNat + 8 * y.immsel.toNat + 16 * y.dtgen.toNat)
  else if n = 0x00E then BitVec.ofNat 64 (y.taskid.toNat + 2 ^ 32 * y.audit.toNat)
  else if n = 0x00F then BitVec.ofNat 64 y.t0
  else if n ≤ 0x017 then SMap.get 0 y.vkey (n - 0x010)
  else if n ≤ 0x01B then x.loopReg (n - 0x018)
  else if n = 0x01C then c.x.rsspill
  else if n = 0x01D then c.x.tvec
  else if n = 0x01E then c.x.epc
  else if 0x020 ≤ n ∧ n ≤ 0x027 then (c.vec.pred (n - 0x020)).setWidth 64
  else 0

/-- A value that a move may write: none of the fields holds a value marked illegal (02 R44, R57). -/
def Core.legalSys (c : Core) (n : Nat) (v : Word) : Bool :=
  if n = 0x002 then decide (v.toNat % 8 ≤ 4)
  else if n = 0x005 then decide (v.toNat % 1024 ≤ 512) && decide (v.toNat % 8 = 0)
  else if n = 0x006 then
    decide (v.toNat % 512 < c.sys.rotsz.toNat) || (c.sys.rotsz = 0#10 && v.toNat % 512 = 0)
  else if n = 0x009 ∨ n = 0x01C then decide (v.toNat % 64 = 0)
  else if 0x020 ≤ n ∧ n ≤ 0x027 then predLegal (v.setWidth 18)
  else true

def writeSpill (old v : Word) : Word := setSpillUsed v (spillUsed old)

/-- A legal write of a system register, in force from now on: RO fields unchanged, W1C fields cleared (02 Table 2.6). -/
def Core.writeSys (c : Core) (now : Nat) (q : Seq) (n : Nat) (v : Word) : Core :=
  let y := c.sys
  if n = 0x001 then { c with sys := { y with restarted := y.restarted && !v.getLsbD 1 } }
  else if n = 0x002 then { c with sys := { y with frm := v.setWidth 3 } }
  else if n = 0x003 then { c with sys := { y with fen := v.setWidth 5 } }
  else if n = 0x004 then { c with vec := c.vec.clearFlags now (v.setWidth 5) (BitVec.allOnes 1024) }
  else if n = 0x005 then { c with sys := { y with rotsz := v.setWidth 10, rrb := 0#9 } }
  else if n = 0x006 then { c with sys := { y with rrb := v.setWidth 9 } }
  else if n = 0x007 then { c with sys := { y with spv := v.setWidth 8 } }
  else if n = 0x009 then c.modSeq q fun x => { x with rsspill := writeSpill x.rsspill v }
  else if n = 0x00A then c.modSeq q fun x => { x with tvec := v &&& 0x7FFF#64 }
  else if n = 0x00B then c.modSeq q fun x => { x with epc := v &&& 0x3FFF#64 }
  else if n = 0x00C then
    { c with sys := { y with cause := if v.getLsbD 20 then y.cause &&& 0x0FFFFF#21 else y.cause } }
  else if 0x010 ≤ n ∧ n ≤ 0x017 then { c with sys := { y with vkey := SMap.put 0 y.vkey (n - 0x010) v } }
  else if 0x018 ≤ n ∧ n ≤ 0x01B then c.modSeq q fun x => x.setLoop (n - 0x018) v
  else if n = 0x01C then c.modSeq .x fun x => { x with rsspill := writeSpill x.rsspill v }
  else if n = 0x01D then c.modSeq .x fun x => { x with tvec := v &&& 0x7FFF#64 }
  else if n = 0x01E then c.modSeq .x fun x => { x with epc := v &&& 0x3FFF#64 }
  else if 0x020 ≤ n ∧ n ≤ 0x027 then
    { c with vec := { c.vec with preds := SMap.put predReset c.vec.preds (n - 0x020) (v.setWidth 18) } }
  else c

/-! ### Rings (07 R167, R180) -/

def MxSt.ring (m : MxSt) (r : Nat) : Ring := SMap.get {} m.rings r
def MxSt.setRing (m : MxSt) (r : Nat) (x : Ring) : MxSt := { m with rings := SMap.ins m.rings r x }
def MxSt.modRing (m : MxSt) (r : Nat) (f : Ring → Ring) : MxSt := m.setRing r (f (m.ring r))
def Core.modRing (c : Core) (r : Nat) (f : Ring → Ring) : Core := { c with mx := c.mx.modRing r f }
/-- Scratchpad address of a slot by index from slot 0, modulo SLOTS. -/
def Ring.slotAddr (r : Ring) (i : Nat) : Nat := r.base + (if r.slots = 0 then 0 else i % r.slots) * r.slotsz
/-- n slots leave the ring. HEAD counts on, as 10 Table 10.6 shows it of a ring of one slot, and is reduced modulo SLOTS where its field
of 8 bits would overflow (log 116). -/
def Ring.popN (r : Ring) (n : Nat) : Ring :=
  let h := r.head + n
  { r with head := if h < 256 then h else if r.slots = 0 then 0 else h % r.slots, pos := r.pos + n, fill := r.fill - n }

/-- Engine status (05 Table 5.7). -/
def Core.engine (c : Core) (e : Nat) : EngSt := SMap.get {} c.eng e
def Core.modEngine (c : Core) (e : Nat) (f : EngSt → EngSt) : Core := { c with eng := SMap.ins c.eng e (f (c.engine e)) }
def engMxe : Nat := 0
def engVxe : Nat := 1
def engLde : Nat := 2
def engSte : Nat := 3
def engCpe : Nat := 4
def engGse : Nat := 5
def engCle : Nat := 6

/-! ### Stamps of a task's units (00 R10, 09 R266, R267) -/

/-- Unit code of a sequencer is its number; of an engine, 4 more than its engine code (09 Table 9.6). -/
def unitOfEng (e : Nat) : Nat := e + 4

/-- A unit of the core's task has sent a stamped transaction: its seq advances by one. -/
def Core.drawSeq (c : Core) (unit : Nat) : Core :=
  let q : BitVec 16 := SMap.get 0 c.tsk.seqnos unit
  { c with tsk := { c.tsk with seqnos := SMap.put 0 c.tsk.seqnos unit (q + 1#16) } }

/-- The next stamp of a unit of the task on core n. -/
def State.stampFor (s : State) (n unit : Nat) : Stamp × State :=
  let c := s.core n
  let t := c.tsk
  let q : BitVec 16 := SMap.get 0 t.seqnos unit
  let st : Stamp :=
    { stc := s.stc, issuer := BitVec.ofNat 24 (t.taskno % 2 ^ 20 + 2 ^ 20 * unit), seqno := q, pkg := s.pkg,
      ctx := c.sys.ctx.toNat, lserial := t.lserial, run := t.run }
  (st, s.setCore n (c.drawSeq unit))

/-! ### Effects in force -/

/-- A record kept through the cycle `now` gains an entry. -/
def keepNow {α : Type} (now : Nat) (x : α) (l : List (Nat × α)) : List (Nat × α) := l.filter (fun p => p.1 = now) ++ [(now, x)]

/-- A move of X or S is remembered through the cycle in which it takes hold. -/
def Core.noteMove (c : Core) (now : Nat) (q : Seq) (n : Nat) (v : Word) : Core :=
  if q = .x ∨ q = .s then { c with sys := { c.sys with movesNow := keepNow now (q, n, v) c.sys.movesNow } } else c

/-- A register move takes hold. -/
def Core.moveSys (c : Core) (now : Nat) (q : Seq) (n : Nat) (v : Word) : Core := (c.writeSys now q n v).noteMove now q n v

/-- Element 0 of a register takes the value of an mfsr. -/
def VecSt.setEl0 (x : VecSt) (now r : Nat) (v : Word) : VecSt :=
  { x.setReg r (setVreg64 (x.reg r) v) with el0Now := keepNow now (r, v) x.el0Now }

/-- An effect takes hold in cycle `now`. -/
def Eff.apply (now : Nat) (e : Eff) (c : Core) : Core :=
  match e with
  | .reg q r v => c.modSeq q fun x => x.setReg r v
  | .sys q n v => c.moveSys now q n v
  | .loop q k v => c.modSeq q fun x => x.setLoop k v
  | .pred k v =>
    ({ c with vec := { c.vec with preds := SMap.put predReset c.vec.preds k v } } : Core).noteMove now .x (0x020 + k) (v.setWidth 64)
  | .maskPush m => { c with vec := { c.vec with masks := m :: c.vec.masks } }
  | .maskTop m => { c with vec := { c.vec with masks := m :: c.vec.masks.tail } }
  | .maskPop => { c with vec := { c.vec with masks := c.vec.masks.tail } }
  | .spv v => { c with sys := { c.sys with spv := v } }
  | .rrb v => { c with sys := { c.sys with rrb := v } }
  | .flagClear which lanes => { c with vec := c.vec.clearFlags now which lanes }
  | .element0 r v => { c with vec := c.vec.setEl0 now r v }
  | .token f n => c.pushTok f now n
  | .ringSet r x => c.modRing r fun _ => x
  | .ringFill r n => c.modRing r fun x => { x with fill := x.fill + n }
  | .ringPop r n => c.modRing r fun x => x.popN n
  | .ringRsv r add n => c.modRing r fun x => { x with rsv := if add then x.rsv + n else x.rsv - n }
  | .ringWsv r add n => c.modRing r fun x => { x with wsv := if add then x.wsv + n else x.wsv - n }
  | .handOver cmd =>
    { c with mx := { c.mx with queue := c.mx.queue ++ [{ cmd with handed := now }] } }.modEngine engMxe
      fun x => { x with out := x.out + 1 }
  | .engRetire k => c.modEngine k fun x => { x with out := x.out - 1 }
  | .engFault k => c.modEngine k fun x => { x with flt := true }

/-- Effects due by cycle `now`, applied in order. -/
def settleGo (now : Nat) : List Pend → Core → Core
  | [], c => c
  | p :: t, c => if p.due ≤ now then settleGo now t (p.eff.apply now c) else settleGo now t c

/-- The core with every effect due by cycle `now` in force. -/
def Core.settle (c : Core) (now : Nat) : Core :=
  { settleGo now c.pend c with pend := c.pend.filter fun p => now < p.due }

/-- An effect of a word of sequencer q, in force from cycle `due`; X's words behind an uncommitted precise word hold theirs
until they commit (06 R140). -/
def Core.emit (c : Core) (q : Seq) (due : Nat) (e : Eff) : Core :=
  match q, c.vec.window.getLast? with
  | .x, some w => { c with vec := { c.vec with window := c.vec.window.dropLast ++ [{ w with held := w.held ++ [e] }] } }
  | _, _ => c.later due e

/-- k events of one kind, in force from a cycle. -/
def Core.laterN (c : Core) (due k : Nat) (e : Eff) : Core := forUp k (fun _ c => c.later due e) c

/-- k commands leave the queue of the matrix engine in this cycle. -/
def MxSt.leave (m : MxSt) (now k : Nat) : MxSt :=
  { m with qOutAt := now, qOutN := (if m.qOutAt = now then m.qOutN else 0) + k }

/-! ### Fetch and due cycle (04 R86, R100) -/

/-- Instruction memory of a sequencer. -/
def CodeSt.mem (k : CodeSt) : Seq → SMap Word
  | .c => k.c
  | .l => k.l
  | .x => k.x
  | .s => k.s

/-- Value of a patch of a word, if it has one. -/
def patchOf (q : Seq) (w : Nat) : List (Seq × Nat × BitVec 32) → Option (BitVec 32)
  | [] => none
  | (q', w', v) :: t => if q' = q ∧ w' = w then some v else patchOf q w t

/-- The word that sequencer q fetches at a pc: IMM and AT fields replaced where IMMSEL is 0 (04 R100). -/
def Core.fetch (c : Core) (q : Seq) (pc : BitVec 14) : Word :=
  let w : Word := SMap.get 0 (c.code.mem q) pc.toNat
  match patchOf q pc.toNat c.code.patches with
  | none => w
  | some v => if c.sys.immsel then w else (w >>> 32 <<< 32) ||| v.setWidth 64

/-- IDLE of a word. -/
def wordIdle (w : Word) : Nat := (w.extractLsb' 44 10).toNat

/-- The cycle at which the next word of a stream falls due (04 R86). -/
def SeqSt.due (x : SeqSt) (idle : Nat) : Nat :=
  match x.dueAt with
  | some t => t
  | none => if x.first then x.last + idle else x.last + (if idle = 0 then 1 else idle) + x.extra

/-! ### Taking an exception (02 R58) and the end of a task by a fault -/

/-- Cause codes (02 Table 2.7). -/
def causeCode : Cause → Nat
  | .none => 0 | .illins => 1 | .illop => 2 | .illsr => 3 | .fpexc => 4 | .rsfull => 5 | .rsempty => 6 | .msfull => 7
  | .msempty => 8 | .ovf => 9 | .schedmiss => 10 | .fmtuf => 11 | .addr => 12 | .slot => 13 | .soft => 14 | .mxfault => 15
  | .dbltrap => 16

/-- DETAIL of a FAULT entry (12 Table 12.4). -/
def faultDetail (cause seq lane mx pc code second ovr : Nat) : Word :=
  BitVec.ofNat 64 (cause % 256 + 2 ^ 8 * (seq % 4) + 2 ^ 10 * (lane % 1024) + 2 ^ 20 * (mx % 256) + 2 ^ 28 * (pc % 16384)
    + 2 ^ 42 * (code % 1024) + 2 ^ 52 * (second % 256) + 2 ^ 60 * (ovr % 2))

/-- Error codes of tasks (12 Table 12.7, 17 Table 17.9). -/
def errFault : Nat := 0x20
def errUnsealed : Nat := 0x21

/-- The task of core n ends by an error: every stream stops and the end step falls due (02 R58, 08 R217). The first error
stands. -/
def State.endTask (s : State) (n : Nat) (code : Nat) (detail : Word) (first : Nat) (unit : Nat) : State :=
  let c := s.core n
  let t := c.tsk
  match t.ending with
  | some _ => s
  | none =>
    let c' := { c.modSeqs (fun x => { x with mode := .ended }) with
      tsk := { t with ending := some (code, detail), first := BitVec.ofNat 8 first, endStc := s.stc, endUnit := unit } }
    (s.setCore n c').sched s.stc phTask (.taskEnd n)

/-- DETAIL code that a matrix fault leaves in the core's status (07 R198), for causes the matrix engine raises. -/
def mxDetail (c : Core) (fromMx : Bool) : Nat := if fromMx then c.mx.detail.toNat % 256 else 0

/-- Taking a trap or fault at sequencer q of core n (02 R58). `pc` is what sr.epc receives; `own` says that a word of the
stream took it, `at_` the cycle of that word. -/
def State.takeTrap (s : State) (n : Nat) (q : Seq) (c : Cause) (code : BitVec 10) (lane : Nat) (pc : BitVec 14)
    (own : Bool) (at_ : Nat) (fromMx : Bool) : State :=
  let k := s.core n
  let x := k.seq q
  let mx := mxDetail k fromMx
  if k.sys.valid then
    s.endTask n errFault
      (faultDetail (causeCode .dbltrap) (seqNum q) lane mx pc.toNat code.toNat (causeCode c) 0) (k.sys.cause.toNat % 256) (seqNum q)
  else
    let cause : BitVec 21 := BitVec.ofNat 21 (2 ^ 20 + (2 ^ 10 * (lane % 1024) + (2 ^ 8 * seqNum q + causeCode c)))
    let x' : SeqSt := { x with epc := pc.setWidth 64, trapPc := pc,
                               redirect := x.target.map fun g => (g, x.slots),
                               saved := if own then at_ else x.due (wordIdle (k.fetch q x.pc)) }
    let k' := { k.setSeq q x' with sys := { k.sys with cause := cause, trapCode := code } }
    if x.tvec.getLsbD 14 then
      let x'' := { x' with pc := x.tvec.setWidth 14, slots := 0, target := none, last := s.stc, first := false, extra := 0,
                           retry := 0, dueAt := none }
      s.setCore n { k'.setSeq q x'' with sys := { k'.sys with handler := some q, trapRegion := k.sys.region, region := true,
                                                                trapAt := if own then at_ else s.stc } }
    else
      (s.setCore n k').endTask n errFault
        (faultDetail (causeCode c) (seqNum q) lane mx pc.toNat code.toNat 0 0) 0 (seqNum q)

/-- A trap of the word being issued. On X it waits until every earlier precise word has committed (06 R141). -/
def State.wordTrap (s : State) (c : Cause) (code : BitVec 10) : State :=
  let x := s.curSeq
  if s.turn.q = .x ∧ s.cur.vec.window ≠ [] then
    s.modCur fun k => { k with vec := { k.vec with lateTrap := some (c, code, x.pc, s.stc) } }
  else s.takeTrap s.turn.core s.turn.q c code 0 x.pc true s.stc false

/-- What a handler's return does to its own sequencer: it resumes at sr.epc with the pending redirect of 05 R132. A word that trapped
in a slot of a branch that was not taken left no redirect, and is no longer a slot word (log 86). -/
def SeqSt.resume (x : SeqSt) : SeqSt :=
  let epc : BitVec 14 := x.epc.setWidth 14
  let x' := { x with pc := epc, slots := 0, target := none, redirect := none, extra := 0 }
  match x.redirect with
  | none => x'
  | some (g, m) =>
    if epc = x.trapPc then { x' with slots := m, target := some g }
    else if epc = x.trapPc + 1#14 then
      if m ≤ 1 then { x' with pc := g } else { x' with slots := m - 1, target := some g }
    else x'

/-- Leaving a trap handler (05 R117): VALID cleared, the region restored, the handler's own stream at sr.epc. The resumption
of the streams in a calendar region waits for the new T0 (09 R265), which the caller arranges. -/
def Core.leaveHandler (c : Core) (q : Seq) (now : Nat) : Core :=
  let c' := c.modSeq q fun x => { x.resume with last := now, first := false, lastPc := x.pc }
  { c' with sys := { c'.sys with cause := c'.sys.cause &&& 0x0FFFFF#21, region := c'.sys.trapRegion, handler := none } }

/-! ### Issue of a word (04 R86 to R88; 05 R114, R124) -/

/-- What a word's own effect answers. -/
inductive Res where
  /-- performed; fetch continues in sequence -/
  | done (s : State)
  /-- a branch that issued, with its target when taken (05 R114) -/
  | branch (s : State) (target : Option (BitVec 14))
  /-- a loop word that skips its body (05 R123) -/
  | skip (s : State) (next : BitVec 14)
  /-- a trap; `issued` says whether AUDIT survives (08 R202) -/
  | trap (c : Cause) (code : BitVec 10) (issued : Bool)
  /-- a trap beside which something outside the core changes (12 R307) -/
  | fail (c : Cause) (f : State → State)
  /-- it would wait: SCHEDMISS in a calendar region (02 R52) -/
  | wait
  /-- a push that finds no room: OVF in a calendar region (02 R52) -/
  | full
  /-- it waits; in a scoreboard region a change of the waiting state follows (a translation fill, an arrival made) -/
  | hold (f : State → State)
  /-- the meaning has placed the whole outcome itself (a trap handler's return) -/
  | whole (s : State)

/-- The end check of the loop registers (05 R124): the registers and the next word, `dflt` when no loop is taken again. -/
def endCheck (pc dflt : BitVec 14) : List Nat → SeqSt → SeqSt × BitVec 14
  | [], x => (x, dflt)
  | k :: t, x =>
    let v := x.loopReg k
    if lcCount v ≠ 0 ∧ lcEnd v = pc then
      let v' : Word := v - 1#64
      let x' := x.setLoop k v'
      if lcCount v' ≠ 0 then (x', lcStart v) else endCheck pc dflt t x'
    else endCheck pc dflt t x

/-- The sequencer after its word has issued in cycle `now`: next word, delay slots, issue clock. The end check decides the next word also
of a loop word that skips its body (log 85). -/
def SeqSt.advance (x : SeqSt) (now : Nat) (r : Option (Option (BitVec 14))) (dflt : BitVec 14) : SeqSt :=
  let pc := x.pc
  let x1 := { x with lastPc := pc, last := now, first := false, dueAt := none, retry := 0 }
  if x.slots ≠ 0 then
    let m := x.slots - 1
    if m = 0 then { x1 with slots := 0, target := none, pc := x.target.getD dflt }
    else { x1 with slots := m, pc := dflt }
  else
    match r with
    | some (some g) => { x1 with slots := 2, target := some g, pc := dflt }
    | some none =>
      let (x2, nx) := endCheck pc dflt [0, 1, 2, 3] x1
      { x2 with slots := 2, target := none, pc := nx }
    | none =>
      let (x2, nx) := endCheck pc dflt [0, 1, 2, 3] x1
      { x2 with pc := nx }

def State.setAudit (s : State) (n : Nat) : State := s.modCore n fun c => { c with sys := { c.sys with audit := true } }

/-- The word waits: it is tried again in the next cycle in a scoreboard region; in a calendar region it takes the fault. -/
def State.block (s : State) (c : Cause) : State :=
  if s.cur.sys.region then s.modCur fun k => k.modSeq s.turn.q fun x => { x with retry := s.stc + 1 }
  else s.wordTrap c 0

/-- Token pops of the word, remembered by its window entry (06 R141). -/
def popTokens (now : Nat) : List Nat → Core → Option Core
  | [], c => some c
  | f :: t, c => if 1 ≤ (c.q.tok f).avail now then popTokens now t (c.popTok f now 1) else none

/-- Tokens that X's uncommitted words have pushed and that a FIFO does not hold yet (06 R140, log 80). -/
def Core.heldTokens (c : Core) (f : Nat) : Nat :=
  (c.vec.window.map fun e => (e.held.map fun x => match x with
    | .token g n => if g = f then n else 0
    | _ => 0).sum).sum

def pushRoom (now : Nat) (fs : List Nat) (c : Core) : Bool :=
  fs.all fun f => (c.q.tok f).held now + c.heldTokens f + 1 ≤ 63

/-- Token pushes of the word, held back behind an uncommitted precise word. -/
def pushTokens (now : Nat) (q : Seq) : List Nat → Core → Core
  | [], c => c
  | f :: t, c =>
    if q = .x ∧ c.vec.window ≠ [] then pushTokens now q t (c.emit q now (.token f 1))
    else pushTokens now q t (c.pushTok f now 1)

/-- How a word takes part in issue: its trap at decode by run-time state (04 R88 step 4), whether it is a branch, call, BOOK
or mode switch (05 R113), whether it performs its token actions (04 R87), whether it is a vector word of the precise mode
(06 R140), whether it sets AUDIT (08 R202). -/
structure Kind where
  pre : Option Cause := none
  branch : Bool := false
  tokens : Bool := true
  precise : Bool := false
  audit : Bool := false

/-- The words left in a uniform skip after this word (06 R157). -/
def stepSkip (old : Nat) (q : Seq) (c : Core) : Core :=
  if q = .x ∧ old ≠ 0 then { c with vec := { c.vec with skip := old - 1 } } else c

/-- Completion of the issue: token pushes, AUDIT, the next word. AUDIT is set at once: a word that a later sequencer issues in this
cycle reads 1 (log 110). -/
def State.finishIssue (s : State) (k : Kind) (skip : Nat) (r : Option (Option (BitVec 14))) (dflt : BitVec 14) : State :=
  let q := s.turn.q
  let now := s.stc
  s.modCur fun c =>
    let c := if k.tokens then pushTokens now q (pushList q s.turn.hdr.push) c else c
    let c := if k.audit then { c with sys := { c.sys with audit := true } } else c
    (stepSkip skip q c).modSeq q fun x => x.advance now r dflt

/-- The entry that a word of X takes in the precise-mode window. -/
def newEntry (c : Core) (k : Kind) (pops : List Nat) (now : Nat) : XEntry :=
  { id := c.vec.nextId, pc := c.x.pc, vector := k.precise, ready := !k.precise, issued := now, fen := c.sys.fen,
    tokens := if k.tokens then pops else [], before := c.x, skip := c.vec.skip }

/-- Every effect due is in force. -/
def State.settled (s : State) : State := s.modCur fun c => c.settle s.stc

/-- FIFOs that the word at hand pops. -/
def State.popsOf (s : State) (k : Kind) : List Nat := if k.tokens then popList s.turn.q s.turn.hdr.pop else []

/-- The checks of R88 that depend on state, the pops and the room for pushes, on the settled state: the core with the tokens
popped, or the state of a word that traps or waits instead. -/
def State.gate (s : State) (k : Kind) : Except State Core :=
  match k.pre with
  | some c => .error (s.wordTrap c 0)
  | none =>
    if k.branch && s.curSeq.slots != 0 then .error (s.wordTrap .slot 0)
    else
      match popTokens s.stc (s.popsOf k) s.cur with
      | none => .error (s.block .schedmiss)
      | some c =>
        if k.tokens && !pushRoom s.stc (pushList s.turn.q s.turn.hdr.push) c then .error (s.block .ovf) else .ok c

/-- The state in which the word's own effect is worked out: its tokens popped, its entry in the precise window. -/
def State.begun (s : State) (k : Kind) (c : Core) : State :=
  let c := c.modSeq s.turn.q fun x => { x with extra := 0 }
  s.setCore s.turn.core
    (if s.turn.q = .x ∧ (c.vec.window ≠ [] ∨ k.precise) then
      { c with vec := { c.vec with window := c.vec.window ++ [newEntry s.cur k (s.popsOf k) s.stc], nextId := c.vec.nextId + 1 } }
    else c)

/-- What becomes of a word by what its own effect answers; a word that traps leaves the settled state as it was before
(00 R14). -/
def State.conclude (s : State) (k : Kind) : Res → State
  | .done t => t.finishIssue k s.cur.vec.skip none (s.curSeq.pc + 1#14)
  | .branch t g => t.finishIssue k s.cur.vec.skip (some g) (s.curSeq.pc + 1#14)
  | .skip t g => t.finishIssue k s.cur.vec.skip none g
  | .trap c code issued => (if k.audit && issued then s.setAudit s.turn.core else s).wordTrap c code
  | .fail c f => (f s).wordTrap c 0
  | .wait => s.block .schedmiss
  | .full => s.block .ovf
  | .hold f => if s.cur.sys.region then f (s.block .schedmiss) else s.block .schedmiss
  | .whole t => t

/-- Issue of the word whose turn it is: its checks, its effect `body`, its token pushes and the next word. -/
def State.issue (s : State) (k : Kind) (body : State → Res) : State :=
  match s.settled.gate k with
  | .error t => t
  | .ok c => s.settled.conclude k (body (s.settled.begun k c))

/-! ### Register results and interlocks (05 R109, R110) -/

/-- A result of sequencer q due later reaches one of these registers, or an outstanding operation will write one. -/
def Core.regBusy (c : Core) (q : Seq) (rs : List Nat) : Bool :=
  c.pend.any (fun p => match p.eff with | .reg q' r _ => q' = q && rs.contains r | _ => false) ||
  c.cmds.any fun m => m.q = q && (rs.contains m.dst || rs.contains m.dst2)

/-- In a scoreboard region a word waits for the results that write its registers (05 R110). -/
def State.interlock (s : State) (rs : List RegF) (body : State → Res) (t : State) : Res :=
  if s.cur.sys.region && t.cur.regBusy s.turn.q (rs.map (·.toNat)) then .wait else body t

/-- Write of a scalar result visible `lat` cycles after issue. -/
def State.wr (s : State) (lat : Nat) (d : RegF) (v : Word) : State :=
  s.modCur fun c => c.emit s.turn.q (s.stc + lat) (.reg s.turn.q d.toNat v)

/-- Write of a result whose latency the manual leaves open (log 4). -/
def State.wrFree (s : State) (d : RegF) (v : Word) : State :=
  let (n, s) := s.drawLat
  s.wr n d v

/-- A scalar word: it waits for its registers, computes and writes D (05 R111). -/
def State.scalar (s : State) (lat : Nat) (d : RegF) (srcs : List RegF) (v : State → Word) : State :=
  s.issue {} fun t => t.interlock (d :: srcs) (fun u => .done (u.wr lat d (v u))) t

/-- The region is a calendar region. -/
def State.cal (s : State) : Bool := !s.cur.sys.region

end Sys2Proof.Machine
end

