-- ==== Sys2Proof/Machine/Operands.lean ====
section
/-! DEFINITION. Operand forms of the vector words: registers, constants and queues (04 R91 to R97), predicates and groups
(02 R43 to R47, 06 R139), the checks at decode that depend on the context's tables and on run-time state (04 R88 step 4), and
latencies and occupancies (06 Table 6.1, 05 Table 5.1). -/

namespace Sys2Proof.Machine

open Fp

/-! ### Constants (04 R96, R97, Table 4.5) -/

/-- FLT of k48 to k63. -/
def kFlt : List Nat :=
  [0x3FD5555555555555, 0x3FC999999999999A, 0x3FC5555555555555, 0x3FC2492492492492, 0x3FBC71C71C71C71C, 0x3FB999999999999A,
   0x400921FB54442D18, 0x3FF921FB54442D18, 0x3FE921FB54442D18, 0x401921FB54442D18, 0x3FD45F306DC9C883, 0x3FE45F306DC9C883,
   0x3FD9884533D43651, 0x3FE62E42FEFA39EF, 0x3FF71547652B82FE, 0x3FF6A09E667F3BCD]

/-- Entry n of the generation-1 constant table. -/
def konstGen1 (n : Nat) : Konst :=
  if n < 32 then
    let v : Int := if n < 16 then n else -((n : Int) - 15)
    ⟨BitVec.ofNat 64 (roundI f64 0 v 0 false).1, BitVec.ofInt 64 v, true⟩
  else if n < 40 then ⟨BitVec.ofNat 64 (2 ^ 52 * (1023 - (n - 31))), 0, false⟩
  else if n < 48 then ⟨BitVec.ofNat 64 (2 ^ 52 * (1023 + n - 36)), BitVec.ofNat 64 (2 ^ (n - 36)), true⟩
  else ⟨BitVec.ofNat 64 (kFlt.getD (n - 48) 0), 0, false⟩

/-- Context record of a context number, if it is live. -/
def State.ctx? (s : State) (n : Nat) : Option Context := SMap.get? s.ctxs n

/-- Entry n of the constant table of the context that core c runs in. -/
def State.konst (s : State) (c : Core) (n : Nat) : Konst :=
  match s.ctx? c.sys.ctx.toNat with
  | some x =>
    match x.ctab with
    | some t => t.getD n ⟨0, 0, false⟩
    | none => konstGen1 n
  | none => konstGen1 n

/-- How a source position reads a constant (04 R96, Table 4.10): as a float of a format, as an integer of a width, not at all. -/
inductive KRead where
  | flt (f : Fmt)
  | int (w : Nat)
  | bad
  deriving DecidableEq, Repr

/-! ### Operands of a vector word -/

/-- The operand positions of a vector word: destination, sources A and B, predicate, whether A or D names a pair of registers,
a second destination, the group that pcnt and pfirst name, whether a compact predicate must have GROUP 1. -/
structure VOps where
  d : Option VOpF := none
  a : Option VOpF := none
  b : Option VOpF := none
  p : PredF := 0#5
  pairA : Bool := false
  pairD : Bool := false
  e : Option VOpF := none
  g : Nat := 0
  one : Bool := false
  ka : KRead := .bad
  kb : KRead := .bad
  deriving DecidableEq, Repr

def vopsFp (d a : VOpF) (b : Option VOpF) (p : PredF) (ty : TyF) : VOps :=
  { d := some d, a := some a, b := b, p := p, ka := .flt (tyFmt ty), kb := .flt (tyFmt ty) }
def vopsInt (d a : VOpF) (b : Option VOpF) (p : PredF) (ty : TyF) : VOps :=
  { d := some d, a := some a, b := b, p := p, ka := .int (tyWidth ty), kb := .int (tyWidth ty) }
def vopsRed (d a : VOpF) (k : BitVec 10) (p : PredF) (ty : TyF) : VOps :=
  { d := some d, a := some a, p := p, ka := if k.toNat / 8 % 2 = 0 then .flt (tyFmt ty) else .int (tyWidth ty) }

/-- How vcvt reads a constant source. -/
def kreadCvt (spec : BitVec 10) : KRead :=
  let f := cvtFrom spec
  if f ≤ 3 then .flt (cvtFmt f) else if f ≤ 5 then .bad else .int (cvtWidth f)

/-- Operand positions of the words that the vector engine executes through registers. -/
def Instr.vops : Instr → Option VOps
  | .vadd d a b p ty | .vsub d a b p ty | .vmul d a b p ty | .vdiv d a b p ty | .vfma d a b p ty | .vfms d a b p ty
  | .vfnma d a b p ty | .vfnms d a b p ty | .vmin d a b p ty | .vmax d a b p ty | .vcmpeq d a b p ty
  | .vcmpne d a b p ty | .vcmplt d a b p ty | .vcmple d a b p ty => some (vopsFp d a (some b) p ty)
  | .vabs d a p ty | .vneg d a p ty | .vsqrt d a p ty | .vrcp d a p ty | .vrsqrt d a p ty | .vclass d a p ty
  | .vexp d a p ty | .vexp2 d a p ty | .vlog d a p ty | .vlog2 d a p ty | .verf d a p ty => some (vopsFp d a none p ty)
  | .viadd d a b p ty | .visub d a b p ty | .vimul d a b p ty | .vimulh d a b p ty | .viand d a b p ty
  | .vior d a b p ty | .vixor d a b p ty | .vishl d a b p ty | .vishr d a b p ty | .visra d a b p ty
  | .vimin d a b p ty | .vimax d a b p ty | .vicmpeq d a b p ty | .vicmplt d a b p ty | .vicmple d a b p ty
  | .vperm d a b p ty | .vsel d a b p ty | .vzip d a b p ty | .vunzip d a b p ty => some (vopsInt d a (some b) p ty)
  | .viabs d a p ty | .vpopc d a p ty | .vmov d a p ty => some (vopsInt d a none p ty)
  | .vrotr d a _ p ty | .vrotc d a _ p ty | .vbcr d a _ p ty | .vbcc d a _ p ty => some (vopsInt d a none p ty)
  | .vredr d a k p ty | .vredc d a k p ty | .vprer d a k p ty | .vprec d a k p ty => some (vopsRed d a k p ty)
  | .vpxorr d a _ ty | .vpxorc d a ty => some (vopsInt d a none 0#5 ty)
  | .vcvt d a spec p _ => some { d := some d, a := some a, p := p, ka := kreadCvt spec }
  | .vpk8 d a e _ => some { d := some d, a := some a, b := some e, ka := .flt f32, kb := .int 16 }
  | .vpk4 d a e _ => some { d := some d, a := some a, b := some e, pairA := true, ka := .flt f32, kb := .int 16 }
  | .vpk8x d a e _ => some { d := some d, a := some a, e := some e, ka := .flt f32 }
  | .vpk4x d a e _ => some { d := some d, a := some a, e := some e, pairA := true, ka := .flt f32 }
  | .vupk8 d a e _ => some { d := some d, a := some a, b := some e, kb := .int 16 }
  | .vupk4 d a e _ => some { d := some d, a := some a, b := some e, pairD := true, kb := .int 16 }
  | .vrand d a p _ => some { d := some d, a := some a, p := p }
  | .vflrd d p => some { d := some d, p := p, one := true }
  | .vflclr _ p => some { p := p, one := true }
  | .pcnt _ a g w | .pfirst _ a g w => some { a := some a, g := g.toNat, ka := .int (8 * 2 ^ w.toNat) }
  | .mpush a _ w => some { a := some a, ka := .int (8 * 2 ^ w.toNat) }
  | .a2v v _ _ _ p => some { d := some v, p := p, one := true }
  | .v2a v _ _ _ p => some { a := some v, p := p, one := true, ka := .flt f32 }
  | .ckrd v => some { d := some v }
  | _ => none

/-! ### Predicates (04 R93, 02 R45 to R47) -/

/-- GROUP of the predicate, or 1 (06 R135). -/
def Core.predG (c : Core) (p : PredF) : Nat :=
  if 1 ≤ p.toNat ∧ p.toNat ≤ 8 then predGroup (c.vec.pred (p.toNat - 1)) else 1

/-- Registers of the group a word acts on. -/
def Core.groupOf (c : Core) (o : VOps) : Nat := if o.g ≠ 0 then o.g else c.predG o.p

/-- The predicate's sample (06 R137, R139). -/
def Core.active (c : Core) (p : PredF) : Active :=
  if p.toNat = 0 then .all
  else if p.toNat ≤ 8 then
    let v := c.vec.pred (p.toNat - 1)
    .covered (predCount v * (8 * 2 ^ predWidth v))
  else if p.toNat ≤ 16 then (if c.sys.spv.getLsbD (p.toNat - 9) then .all else .off)
  else
    match c.vec.masks with
    | m :: _ => .lanes m
    | [] => .all

/-- A stage predicate whose bit is 0 (02 R46). -/
def Core.stageOff (c : Core) (p : PredF) : Bool :=
  decide (9 ≤ p.toNat) && decide (p.toNat ≤ 16) && !c.sys.spv.getLsbD (p.toNat - 9)

/-! ### Checks at decode that depend on state (04 R88 step 4) -/

def opReg (v : VOpF) : Option Nat := if v.toNat ≤ 639 then some v.toNat else none
def opKonst (v : VOpF) : Option Nat := if 640 ≤ v.toNat ∧ v.toNat ≤ 703 then some (v.toNat - 640) else none
def opQueue (v : VOpF) : Option Nat := if 704 ≤ v.toNat ∧ v.toNat ≤ 711 then some (v.toNat - 704) else none

/-- A register operand's group lies in one part of the register file. -/
def Core.opGroupOk (c : Core) (v : Option VOpF) (g : Nat) : Bool :=
  match v with
  | none => true
  | some v =>
    match opReg v with
    | some n => groupOk c.sys.rotsz.toNat n g
    | none => true

/-- A constant operand is read where the reading allows it and, as an integer, where the entry has IOK. -/
def State.konstOk (s : State) (c : Core) (v : Option VOpF) (r : KRead) : Bool :=
  match v with
  | none => true
  | some v =>
    match opKonst v with
    | none => true
    | some n =>
      match r with
      | .flt _ => true
      | .int _ => (s.konst c n).iok
      | .bad => false

/-- Physical registers of a register operand of g names. -/
def Core.physRegs (c : Core) (v : Option VOpF) (g : Nat) : List Nat :=
  match v with
  | none => []
  | some v =>
    match opReg v with
    | some n => (List.range g).map fun k => physReg c.sys.rotsz.toNat c.sys.rrb.toNat (n + k)
    | none => []

/-- The trap at decode of a vector word by its constants, which no word changes: ILLOP or none. -/
def State.konstPre (s : State) (o : VOps) : Option Cause :=
  if s.konstOk s.cur o.a o.ka && s.konstOk s.cur o.b o.kb then none else some .illop

/-- The trap at decode of a vector word by its operands: ILLOP or none. -/
def State.vecPre (s : State) (o : VOps) : Option Cause :=
  let c := s.cur
  let g := c.groupOf o
  let ok :=
    c.opGroupOk o.d (if o.pairD then 2 else g) && c.opGroupOk o.a (if o.pairA then 2 else g) &&
    c.opGroupOk o.b g && c.opGroupOk o.e 1 &&
    s.konstOk c o.a o.ka && s.konstOk c o.b o.kb &&
    (!o.one || decide (g = 1)) &&
    (match o.e with
     | none => true
     | some _ =>
       let es := c.physRegs o.e 1
       es.all fun r => !(c.physRegs o.d 1).contains r && !(c.physRegs o.a (if o.pairA then 2 else 1)).contains r)
  if ok then none else some .illop

/-- The value of a constant repeated over a register. -/
def konstReg (k : Konst) (r : KRead) : VReg :=
  match r with
  | .flt f => vbuild f.width (List.replicate (velems f.width) (konstF f k.flt.toNat))
  | .int w => vbuild w (List.replicate (velems w) (k.int.toNat % 2 ^ w))
  | .bad => 0

/-! ### Latency and occupancy (06 Table 6.1) -/

/-- Latency L and occupancy n of a vector word. -/
def Instr.vtime : Instr → Nat × Nat
  | .vadd _ _ _ _ ty | .vsub _ _ _ _ ty | .vmul _ _ _ _ ty | .vfma _ _ _ _ ty | .vfms _ _ _ _ ty | .vfnma _ _ _ _ ty
  | .vfnms _ _ _ _ ty | .vmin _ _ _ _ ty | .vmax _ _ _ _ ty | .vabs _ _ _ ty | .vneg _ _ _ ty | .vclass _ _ _ ty =>
      if ty.toNat % 4 = 3 then (10, 8) else (6, 4)
  | .vdiv _ _ _ _ ty | .vsqrt _ _ _ ty | .vrcp _ _ _ ty | .vrsqrt _ _ _ ty | .vexp _ _ _ ty | .vexp2 _ _ _ ty
  | .vlog _ _ _ ty | .vlog2 _ _ _ ty | .verf _ _ _ ty => if ty.toNat % 4 = 3 then (58, 16) else (22, 8)
  | .vcmpeq _ _ _ _ ty | .vcmpne _ _ _ _ ty | .vcmplt _ _ _ _ ty | .vcmple _ _ _ _ ty | .vicmpeq _ _ _ _ ty
  | .vicmplt _ _ _ _ ty | .vicmple _ _ _ _ ty | .viadd _ _ _ _ ty | .visub _ _ _ _ ty | .viand _ _ _ _ ty
  | .vior _ _ _ _ ty | .vixor _ _ _ _ ty | .vishl _ _ _ _ ty | .vishr _ _ _ _ ty | .visra _ _ _ _ ty
  | .vimin _ _ _ _ ty | .vimax _ _ _ _ ty | .viabs _ _ _ ty | .vpopc _ _ _ ty => if ty.toNat % 4 = 3 then (6, 8) else (4, 4)
  | .vimul _ _ _ _ ty | .vimulh _ _ _ _ ty => if ty.toNat % 4 = 3 then (12, 8) else (6, 4)
  | .vrotr .. => (8, 4)
  | .vbcr .. => (6, 4)
  | .vrotc .. => (5, 4)
  | .vbcc .. => (4, 4)
  | .vredr _ _ k _ ty | .vprer _ _ k _ ty => if redWidth k.toNat ty = 64 then (16, 8) else (12, 4)
  | .vredc _ _ k _ ty | .vprec _ _ k _ ty => if redWidth k.toNat ty = 64 then (13, 8) else (9, 4)
  | .vpxorr _ _ k ty =>
      let l := if k.toNat / 2 % 2 = 1 then 21 else 12
      if ty.toNat % 4 = 3 then (l + 4, 8) else (l, 4)
  | .vpxorc _ _ ty => if ty.toNat % 4 = 3 then (13, 8) else (9, 4)
  | .vperm .. => (8, 4)
  | .vsel .. => (4, 4)
  | .vmov .. => (2, 4)
  | .vzip .. | .vunzip .. => (6, 4)
  | .vcvt _ _ spec _ _ => if cvtWidth (cvtFrom spec) = 64 ∨ cvtWidth (cvtTo spec) = 64 then (6, 8) else (6, 4)
  | .vpk8 .. => (12, 4)
  | .vpk4 .. => (12, 8)
  | .vpk8x .. => (16, 4)
  | .vpk4x .. => (16, 8)
  | .vupk8 .. => (8, 4)
  | .vupk4 .. => (8, 8)
  | .vrand .. => (14, 8)
  | .pcnt .. | .pfirst .. => (9, 4)
  | .vflrd .. => (4, 4)
  | .mpush .. => (2, 4)
  | .a2v .. | .ckrd .. => (8, 4)
  | .v2a .. => (6, 4)
  | _ => (1, 0)

/-- RM of the words that round. -/
def Instr.rm? : Instr → Option Nat
  | .vadd _ _ _ _ ty | .vsub _ _ _ _ ty | .vmul _ _ _ _ ty | .vdiv _ _ _ _ ty | .vfma _ _ _ _ ty | .vfms _ _ _ _ ty
  | .vfnma _ _ _ _ ty | .vfnms _ _ _ _ ty | .vredr _ _ _ _ ty | .vredc _ _ _ _ ty | .vprer _ _ _ _ ty
  | .vprec _ _ _ _ ty | .vcvt _ _ _ _ ty | .vpk8 _ _ _ ty | .vpk4 _ _ _ ty | .vpk8x _ _ _ ty | .vpk4x _ _ _ ty => some (ty.toNat / 4)
  | .vsqrt _ _ _ ty | .vrcp _ _ _ ty | .vrsqrt _ _ _ ty | .vexp _ _ _ ty | .vexp2 _ _ _ ty | .vlog _ _ _ ty
  | .vlog2 _ _ _ ty | .verf _ _ _ ty => some (ty.toNat / 4)
  | _ => none

/-- The word takes its rounding mode from sr.frm (04 R94). -/
def Instr.dynRound (op : Instr) : Bool := decide (Instr.rm? op = some 7)

/-- RM as the word gives it, or sr.frm for 7 (04 R94). -/
def Core.roundMode (c : Core) (op : Instr) : Nat := if Instr.dynRound op then c.sys.frm.toNat else (Instr.rm? op).getD 0

end Sys2Proof.Machine
end

