-- ==== Sys2Proof/Machine/Spm.lean ====
section
/-! DEFINITION. The scratchpad behind its zero marks (09 R246, R268), the return-address store with its spill area (02 R37, 05
R116), and the outcome type of a meaning. -/

namespace Sys2Proof.Machine

/-- What a meaning answers. -/
abbrev Out := Host.Outcome State Fault Refusal

/-- A 64-byte unit carries its zero mark. -/
def SpmSt.marked (m : SpmSt) (u : Nat) : Bool := !SMap.get false m.live u
/-- One byte, 0 under a mark. -/
def SpmSt.byte (m : SpmSt) (a : Nat) : Byte := if m.marked (a / 64) then 0 else Memory.byte m.mem a
def SpmSt.bytes (m : SpmSt) (a : Nat) : Nat → List Byte
  | 0 => []
  | n + 1 => m.byte a :: m.bytes (a + 1) n
/-- Little-endian value of n bytes. -/
def SpmSt.read (m : SpmSt) (a n : Nat) : Nat := leVal (m.bytes a n)
/-- The unit's mark is cleared, its bytes then zeros. -/
def SpmSt.unmark (m : SpmSt) (u : Nat) : SpmSt :=
  if m.marked u then
    { mem := Memory.setBytes m.mem (64 * u) (List.replicate 64 0), live := SMap.put false m.live u true }
  else m
/-- Write of one byte: it merges with zeros in a marked unit. -/
def SpmSt.setByte (m : SpmSt) (a : Nat) (b : Byte) : SpmSt :=
  let m := m.unmark (a / 64)
  { m with mem := Memory.setByte m.mem a b }
def SpmSt.setBytes (m : SpmSt) (a : Nat) : List Byte → SpmSt
  | [] => m
  | b :: t => (m.setByte a b).setBytes (a + 1) t
/-- Zero marks set on every unit from byte address lo up to hi. -/
def SpmSt.markRange (m : SpmSt) (lo hi : Nat) : SpmSt :=
  { mem := m.mem.filter fun p => decide (p.1 < lo) || decide (hi ≤ p.1),
    live := m.live.filter fun p => decide (p.1 < lo / 64) || decide (hi / 64 ≤ p.1) }
/-- Whole units from byte address lo up to hi as another scratchpad holds them, zero marks as they are there. -/
def SpmSt.copyRange (m src : SpmSt) (lo hi : Nat) : SpmSt :=
  let m := m.markRange lo hi
  { mem := (src.mem.filter fun p => decide (lo ≤ p.1) && decide (p.1 < hi)).foldl (fun l p => Memory.setByte l p.1 p.2) m.mem,
    live := (src.live.filter fun p => decide (lo / 64 ≤ p.1) && decide (p.1 < hi / 64)).foldl (fun l p => SMap.put false l p.1 p.2) m.live }

def Core.spmBytes (c : Core) (a n : Nat) : List Byte := c.spm.bytes a n
def Core.setSpm (c : Core) (a : Nat) (bs : List Byte) : Core := { c with spm := c.spm.setBytes a bs }

/-- Bank of a scratchpad byte (09 R268). -/
def spmBank (a : Nat) : Nat := 4 * bitsN a 19 4 + bitsN a 6 2
/-- Quad of a scratchpad byte. -/
def spmQuad (a : Nat) : Nat := bitsN a 19 4
def spmSize : Nat := 2 ^ 23

/-! ### The return-address store: newest entry first -/

/-- Address of spilled block u of the area that a value of sr.rsspill sets; the address wraps in the scratchpad (log 22). -/
def spillAddr (v : Word) (u : Nat) : Nat := (spillBase v + 64 * u) % spmSize

/-- The 64-byte block of the 8 oldest of 16 entries, oldest first. -/
def spillBlock (ras : List (BitVec 14)) : List Byte := (ras.drop 8).reverse.flatMap fun e => leBytes 8 e.toNat

/-- A window entry of X remembers the bytes that its spill overwrites (06 R141). -/
def Core.noteUndo (c : Core) (id a n : Nat) : Core :=
  { c with vec := { c.vec with window := c.vec.window.map fun w =>
      if w.id = id then { w with undo := w.undo ++ [(a, c.spmBytes a n)] } else w } }

/-- One more than the number of the window entry that X's word has taken; 0 with none. -/
def Core.entryMark (c : Core) (q : Seq) : Nat :=
  match q, c.vec.window.getLast? with
  | .x, some w => w.id + 1
  | _, _ => 0

/-- Bank rank of a sequencer (09 Table 9.7); a spill or refill of X ranks as one of C (log 91). -/
def seqRank : Seq → Nat
  | .l => 2 | .s => 3 | _ => 4

/-- The block of a spill or refill takes its bank in the next cycle, as an access of the sequencer under its stamp (09 R257, R267,
R270, R271). -/
def Core.blockAccess (c : Core) (q : Seq) (now a : Nat) (op : Instr) (block : List Byte) : Core :=
  let c := c.drawSeq (seqNum q)
  { c with cmds := c.cmds ++ [{ id := c.nextCmd, eng := 7, q := q, op := op, issued := now, addr := a, cal := !c.sys.region,
                                data := BitVec.ofNat 32768 (leVal block), obj := c.entryMark q }],
           nextCmd := c.nextCmd + 1, reqs := c.reqs ++ [⟨now + 1, seqRank q, c.nextCmd, 0, a, 64⟩] }

/-- Spill of the 8 oldest entries (02 R37). -/
def Core.spillOldest (c : Core) (q : Seq) (now : Nat) : Core :=
  let x := c.seq q
  let c := c.blockAccess q now (spillAddr x.rsspill (spillUsed x.rsspill)) (.call 0) (spillBlock x.ras)
  c.modSeq q fun x => { x with ras := x.ras.take 8, rsspill := setSpillUsed x.rsspill (spillUsed x.rsspill + 1), extra := 16 }

/-- Refill of 8 entries from the newest spilled block, which the bank serves in the next cycle. -/
def Core.refillNewest (c : Core) (q : Seq) (now : Nat) : Core :=
  let u := spillUsed (c.seq q).rsspill - 1
  (c.blockAccess q now (spillAddr (c.seq q).rsspill u) .ret []).modSeq q fun x =>
    { x with rsspill := setSpillUsed x.rsspill u, extra := 16 }

/-- The block of a spill is written, under the mark of its window entry; that of a refill is read: its newest entry is the target of the
return that waits for it, the others enter the store. -/
def Core.serveBlock (c : Core) (q : Seq) (op : Instr) (mark addr : Nat) (block : List Byte) : Core :=
  match op with
  | .ret =>
    match ((chunks 8 8 (c.spmBytes addr 64)).map (BitVec.ofNat 14)).reverse with
    | [] => c
    | e :: es => c.modSeq q fun x =>
      { x with ras := x.ras ++ es, target := x.target.map fun _ => e, redirect := x.redirect.map fun g => (e, g.2) }
  | _ => (if mark = 0 then c else c.noteUndo (mark - 1) addr 64).setSpm addr block

/-- Push of a return address (05 R116): the core after it, or the trap RSFULL. -/
def Core.pushRet (c : Core) (q : Seq) (now : Nat) (pc : BitVec 14) : Option Core :=
  let x := c.seq q
  let push (c : Core) : Core := c.modSeq q fun x => { x with ras := pc :: x.ras }
  if x.ras.length < 16 then some (push c)
  else if !c.sys.region then none
  else if spillUsed x.rsspill = spillSlots x.rsspill then none
  else some (push (c.spillOldest q now))

/-- Pop of a return address: the core after it and the address, which a refill gives when its bank serves it (09 R271), or the trap
RSEMPTY. -/
def Core.popRet (c : Core) (q : Seq) (now : Nat) : Option (Core × BitVec 14) :=
  match (c.seq q).ras with
  | e :: t => some (c.modSeq q (fun x => { x with ras := t }), e)
  | [] => if 0 < spillUsed (c.seq q).rsspill then some (c.refillNewest q now, 0#14) else none

end Sys2Proof.Machine
end

