-- ==== Sys2Proof/Machine/Scalar.lean ====
section
/-! DEFINITION. The scalar register and immediate words (05 R108 to R112): each gives the 64-bit pattern of the value that Table
5.2 or Table 5.3 states, visible after the latency of Table 5.1. -/

namespace Sys2Proof.Machine

/-- ClMul: the exclusive OR of x << i over the 1 bits i of y (05 R111). -/
def clMul (x y : Nat) : Nat := forUp 64 (fun i acc => if y.testBit i then acc ^^^ (x * 2 ^ i) else acc) 0
/-- 64 for 0, else 63 minus the index of the highest 1 bit. -/
def clz64 (x : Nat) : Nat := if x = 0 then 64 else 63 - Nat.log2 x
/-- 64 for 0, else the index of the lowest 1 bit. -/
def ctz64 (x : Nat) : Nat := (findNat (fun i => x.testBit i) 64 0).getD 64

/-! ### Register operations (Table 5.2) -/

def execAdd (d a b : RegF) (s : State) : Out := .next (s.scalar 1 d [a, b] fun u => u.rd a + u.rd b)
def execSub (d a b : RegF) (s : State) : Out := .next (s.scalar 1 d [a, b] fun u => u.rd a - u.rd b)
def execMul (d a b : RegF) (s : State) : Out := .next (s.scalar 4 d [a, b] fun u => u.rd a * u.rd b)
def execMulhi (d a b : RegF) (s : State) : Out := .next (s.scalar 4 d [a, b] fun u => BitVec.ofInt 64 ((u.rd a).toInt * (u.rd b).toInt / 2 ^ 64))
def execMulhu (d a b : RegF) (s : State) : Out := .next (s.scalar 4 d [a, b] fun u => BitVec.ofNat 64 ((u.rd a).toNat * (u.rd b).toNat / 2 ^ 64))
def execAnd (d a b : RegF) (s : State) : Out := .next (s.scalar 1 d [a, b] fun u => u.rd a &&& u.rd b)
def execOr (d a b : RegF) (s : State) : Out := .next (s.scalar 1 d [a, b] fun u => u.rd a ||| u.rd b)
def execXor (d a b : RegF) (s : State) : Out := .next (s.scalar 1 d [a, b] fun u => u.rd a ^^^ u.rd b)
def execAndn (d a b : RegF) (s : State) : Out := .next (s.scalar 1 d [a, b] fun u => u.rd a &&& ~~~u.rd b)
def execShl (d a b : RegF) (s : State) : Out := .next (s.scalar 1 d [a, b] fun u => u.rd a <<< ((u.rd b).toNat % 64))
def execShr (d a b : RegF) (s : State) : Out := .next (s.scalar 1 d [a, b] fun u => u.rd a >>> ((u.rd b).toNat % 64))
def execSra (d a b : RegF) (s : State) : Out := .next (s.scalar 1 d [a, b] fun u => (u.rd a).sshiftRight ((u.rd b).toNat % 64))
def execMin (d a b : RegF) (s : State) : Out := .next (s.scalar 1 d [a, b] fun u => if (u.rd a).toInt ≤ (u.rd b).toInt then u.rd a else u.rd b)
def execMax (d a b : RegF) (s : State) : Out := .next (s.scalar 1 d [a, b] fun u => if (u.rd a).toInt ≥ (u.rd b).toInt then u.rd a else u.rd b)
def execMinu (d a b : RegF) (s : State) : Out := .next (s.scalar 1 d [a, b] fun u => if u.rd a ≤ u.rd b then u.rd a else u.rd b)
def execMaxu (d a b : RegF) (s : State) : Out := .next (s.scalar 1 d [a, b] fun u => if u.rd a ≥ u.rd b then u.rd a else u.rd b)
def execClmul (d a b : RegF) (s : State) : Out := .next (s.scalar 2 d [a, b] fun u => BitVec.ofNat 64 (clMul (u.rd a).toNat (u.rd b).toNat))
def execClmulh (d a b : RegF) (s : State) : Out := .next (s.scalar 2 d [a, b] fun u => BitVec.ofNat 64 (clMul (u.rd a).toNat (u.rd b).toNat / 2 ^ 64))
def execPopc (d a : RegF) (s : State) : Out := .next (s.scalar 1 d [a] fun u => BitVec.ofNat 64 (popcount 64 (u.rd a).toNat))
def execClz (d a : RegF) (s : State) : Out := .next (s.scalar 1 d [a] fun u => BitVec.ofNat 64 (clz64 (u.rd a).toNat))
def execCtz (d a : RegF) (s : State) : Out := .next (s.scalar 1 d [a] fun u => BitVec.ofNat 64 (ctz64 (u.rd a).toNat))
def execSel (d a b : RegF) (s : State) : Out := .next (s.scalar 1 d [a, b] fun u => if u.rd d ≠ 0 then u.rd a else u.rd b)
def execSeq (d a b : RegF) (s : State) : Out := .next (s.scalar 1 d [a, b] fun u => if u.rd a = u.rd b then 1 else 0)
def execSlt (d a b : RegF) (s : State) : Out := .next (s.scalar 1 d [a, b] fun u => if (u.rd a).toInt < (u.rd b).toInt then 1 else 0)
def execSltu (d a b : RegF) (s : State) : Out := .next (s.scalar 1 d [a, b] fun u => if u.rd a < u.rd b then 1 else 0)
def execMov (d a : RegF) (s : State) : Out := .next (s.scalar 1 d [a] fun u => u.rd a)

/-! ### Immediate operations (Table 5.3) -/

def execAddi (d : RegF) (imm : BitVec 32) (s : State) : Out := .next (s.scalar 1 d [] fun u => u.rd d + imm.signExtend 64)
def execAndi (d : RegF) (imm : BitVec 32) (s : State) : Out := .next (s.scalar 1 d [] fun u => u.rd d &&& imm.signExtend 64)
def execOri (d : RegF) (imm : BitVec 32) (s : State) : Out := .next (s.scalar 1 d [] fun u => u.rd d ||| imm.signExtend 64)
def execXori (d : RegF) (imm : BitVec 32) (s : State) : Out := .next (s.scalar 1 d [] fun u => u.rd d ^^^ imm.signExtend 64)
def execShli (d : RegF) (imm : BitVec 32) (s : State) : Out := .next (s.scalar 1 d [] fun u => u.rd d <<< (imm.toNat % 64))
def execShri (d : RegF) (imm : BitVec 32) (s : State) : Out := .next (s.scalar 1 d [] fun u => u.rd d >>> (imm.toNat % 64))
def execSrai (d : RegF) (imm : BitVec 32) (s : State) : Out := .next (s.scalar 1 d [] fun u => (u.rd d).sshiftRight (imm.toNat % 64))
def execLi (d : RegF) (imm : BitVec 32) (s : State) : Out := .next (s.scalar 1 d [] fun _ => imm.signExtend 64)
def execLih (d : RegF) (imm : BitVec 32) (s : State) : Out := .next (s.scalar 1 d [] fun u => (imm.setWidth 64 <<< 32) ||| (u.rd d &&& 0xFFFFFFFF#64))

end Sys2Proof.Machine
end

