-- ==== Sys2Proof/Machine/Control.lean ====
section
/-! DEFINITION. Branches, jumps, calls, returns, engine branches and loops (05 R113 to R125). Every one is a branch for delay slots
and R88 step 5. ret.eh, mode and halt stand in Machine/Mode.lean. -/

namespace Sys2Proof.Machine

/-- Status word of an engine (05 Table 5.7): the sample of R121, which holds no event of this cycle (09 R267). -/
def Core.engStatus (c : Core) (e : Nat) : Word :=
  let x := c.engine e
  BitVec.ofNat 64 (Nat.min x.out 1023 + 1024 * x.flt.toNat + 2048 * (decide (x.out = 0) && !x.flt).toNat)

/-- A conditional branch on scalar registers (05 R115). -/
def State.condBranch (s : State) (srcs : List RegF) (tgt : Tgt) (cond : State → Bool) : State :=
  s.issue { branch := true } fun t =>
    t.interlock srcs (fun u => .branch u (if cond u then some tgt else none)) t

def execBeq (a b : RegF) (tgt : Tgt) (s : State) : Out := .next (s.condBranch [a, b] tgt fun u => u.rd a = u.rd b)
def execBne (a b : RegF) (tgt : Tgt) (s : State) : Out := .next (s.condBranch [a, b] tgt fun u => u.rd a ≠ u.rd b)
def execBlt (a b : RegF) (tgt : Tgt) (s : State) : Out :=
  .next (s.condBranch [a, b] tgt fun u => (u.rd a).toInt < (u.rd b).toInt)
def execBge (a b : RegF) (tgt : Tgt) (s : State) : Out :=
  .next (s.condBranch [a, b] tgt fun u => (u.rd a).toInt ≥ (u.rd b).toInt)
def execBltu (a b : RegF) (tgt : Tgt) (s : State) : Out := .next (s.condBranch [a, b] tgt fun u => u.rd a < u.rd b)
def execBgeu (a b : RegF) (tgt : Tgt) (s : State) : Out := .next (s.condBranch [a, b] tgt fun u => u.rd a ≥ u.rd b)
def execBz (a : RegF) (tgt : Tgt) (s : State) : Out := .next (s.condBranch [a] tgt fun u => u.rd a = 0)
def execBnz (a : RegF) (tgt : Tgt) (s : State) : Out := .next (s.condBranch [a] tgt fun u => u.rd a ≠ 0)

/-- A jump that is always taken, to the target that its registers give. -/
def State.jump (s : State) (srcs : List RegF) (tgt : State → Tgt) : State :=
  s.issue { branch := true } fun t => t.interlock srcs (fun u => .branch u (some (tgt u))) t

def execJmp (tgt : Tgt) (s : State) : Out := .next (s.jump [] fun _ => tgt)
def execJmpr (a : RegF) (s : State) : Out := .next (s.jump [a] fun u => (u.rd a).setWidth 14)

/-- A call: ret.pc is the word after the second delay slot (05 R116). -/
def State.callTo (s : State) (srcs : List RegF) (tgt : State → Tgt) : State :=
  s.issue { branch := true } fun t =>
    t.interlock srcs (fun u =>
      match u.cur.pushRet u.turn.q u.stc (u.curSeq.pc + 3#14) with
      | some c => .branch (u.setCore u.turn.core c) (some (tgt u))
      | none => .trap .rsfull 0 false) t

def execCall (tgt : Tgt) (s : State) : Out := .next (s.callTo [] fun _ => tgt)
def execCallr (a : RegF) (s : State) : Out := .next (s.callTo [a] fun u => (u.rd a).setWidth 14)

def execRet (s : State) : Out :=
  .next (s.issue { branch := true } fun t =>
    match t.cur.popRet t.turn.q t.stc with
    | some (c, tgt) => .branch (t.setCore t.turn.core c) (some tgt)
    | none => .trap .rsempty 0 false)

/-- Condition of beng on a status word (05 R118): 0 done, 1 busy, 2 fault. -/
def engCond (cond : Nat) (w : Word) : Bool :=
  if cond = 0 then w.getLsbD 11 else if cond = 1 then !w.getLsbD 11 else w.getLsbD 10

def execBeng (eng cond : RegF) (tgt : Tgt) (s : State) : Out :=
  .next (s.issue { branch := true, audit := s.cur.sys.region } fun t =>
    .branch t (if engCond cond.toNat (t.cur.engStatus eng.toNat) then some tgt else none))

/-! ### Loops (05 R123) -/

/-- Value of a loop register. -/
def loopWord (count : Nat) (start last : BitVec 14) : Word :=
  BitVec.ofNat 64 (count % 2 ^ 32 + 2 ^ 32 * start.toNat + 2 ^ 48 * last.toNat)

/-- The window entry of a loop word of X, the newest, remembers the register that the word arms (06 R140). -/
def Core.noteLoop (c : Core) (q : Seq) (k : Nat) : Core :=
  match q, c.vec.window.getLast? with
  | .x, some w => { c with vec := { c.vec with window := c.vec.window.dropLast ++ [{ w with loops := w.loops ++ [k] }] } }
  | _, _ => c

/-- A loop word with its count: END equal to PC is out of range. -/
def State.loopOn (s : State) (lc : BitVec 2) (srcs : List RegF) (count : State → Nat) (last : Tgt) : State :=
  let pre : Option Cause := if last = s.curSeq.pc then some .illop else none
  s.issue { branch := true, pre := pre } fun t =>
    t.interlock srcs (fun u =>
      let n := count u
      if n = 0 then .skip u (last + 1#14)
      else
        let e : Eff := .loop u.turn.q lc.toNat (loopWord n (u.curSeq.pc + 1#14) last)
        .done (u.modCur fun c => (c.noteLoop u.turn.q lc.toNat).later (u.stc + 1) e)) t

def execLoop (lc : BitVec 2) (a : RegF) (last : Tgt) (s : State) : Out :=
  .next (s.loopOn lc [a] (fun u => (u.rd a).toNat % 2 ^ 32) last)
def execLoopi (lc : BitVec 2) (icnt : BitVec 18) (last : Tgt) (s : State) : Out :=
  .next (s.loopOn lc [] (fun _ => icnt.toNat) last)

end Sys2Proof.Machine
end

