-- ==== Sys2Proof/Machine/System.lean ====
section
/-! DEFINITION. System-register moves, the stamp clock, engine status, software traps and nop (05 R120 to R122, R126, R127, R131,
R134). -/

namespace Sys2Proof.Machine

/-- Map entry of a logical core; the reset map is the identity (01 R23). -/
def State.lcEntry (s : State) (n : Nat) : LcMap := SMap.get { phys := lcoreOf n } (s.die (dieOf n)).lcmap (lcoreOf n)
/-- sr.id of a core. -/
def State.idOf (s : State) (n : Nat) : Word := idWord (dieOf n) (lcoreOf n) (s.lcEntry n).phys

/-- Number by which X reaches a register that a sequencer writes under another: the registers held per sequencer (02 R56). -/
def sysOfX (q : Seq) (k : Nat) : Option Nat :=
  if 0x01C ≤ k ∧ k ≤ 0x01E then some (k - 0x013)
  else if (0x009 ≤ k ∧ k ≤ 0x00B) ∨ (0x018 ≤ k ∧ k ≤ 0x01B) then (if q = .x then some k else none)
  else some k

/-- System registers that an effect writes, by the numbers under which X reaches them; 0x008 stands for the mask stack. -/
def Eff.writes : Eff → List Nat
  | .sys q k _ => if k = 0x005 then [0x005, 0x006] else (sysOfX q k).toList
  | .loop q k _ => (sysOfX q (0x018 + k)).toList
  | .pred k _ => [0x020 + k]
  | .maskPush _ | .maskTop _ | .maskPop => [0x008]
  | .spv _ => [0x007]
  | .rrb _ => [0x006]
  | .flagClear .. => [0x004]
  | _ => []

/-- The word pushes or changes a mask, or its completion writes one of these registers. -/
def VWord.writesSys (w : VWord) : List Nat :=
  match w.op with
  | .pcnt pd .. | .pfirst pd .. => [0x020 + pd.toNat]
  | .mpush .. => [0x008]
  | _ => []

/-- System registers that a result writes. -/
def VResult.sysWrites (r : VResult) : List Nat :=
  (match r.pred with
   | some p => [0x020 + p.1]
   | none => []) ++ (if r.mask.isSome then [0x008] else [])

/-- A write of one of these registers has not yet taken effect (06 R136). A word of X waits also for a move that C or L issued in its own
cycle: R136 speaks of every earlier write, and C and L come before X (02 R56, log 111). -/
def Core.sysWaits (c : Core) (needs : List Nat) : Bool :=
  let hit (l : List Nat) : Bool := l.any fun r => needs.contains r
  c.pend.any (fun p => hit p.eff.writes) || c.vec.words.any (fun w => hit w.writesSys) ||
  c.vec.window.any (fun e => e.held.any (fun f => hit f.writes) || e.results.any fun r => hit r.sysWrites)

/-- A vector register by static number that a result in flight will write. -/
def Core.vregBusy (c : Core) (r : Nat) : Bool :=
  c.pend.any (fun p => match p.eff with | .element0 r' _ => r' = r | _ => false) ||
  c.vec.window.any (fun w => w.held.any fun e => match e with | .element0 r' _ => r' = r | _ => false) ||
  c.vec.window.any (fun w => w.results.any fun x => x.regs.any fun p => p.1 = r) ||
  c.vec.words.any fun w => decide (w.active ≠ .off) && (match Instr.vops w.op with
    | some o =>
      let g := if w.group = 0 then 1 else w.group
      let names (v : Option VOpF) (g : Nat) : Bool := match v with
        | some v => (match opReg v with
          | some n => (List.range g).any fun k => decide (w.done ≤ k) && physReg w.rotsz w.rrb (n + k) = r
          | none => false)
        | none => false
      names o.d (if o.pairD then 2 else g) || names o.e 1
    | none => false)

/-- The word of X completes at a cycle: in precise mode its entry waits for that. -/
def State.xDone (s : State) (id : Nat) (due : Nat) : State := s.sched due phComplete (.vectorCompletion s.turn.core id 0)

/-- Number of the word's entry in the precise-mode window. -/
def State.entryId (s : State) : Nat :=
  match s.cur.vec.window.getLast? with
  | some w => w.id
  | none => 0

/-- A word of X issued in precise mode, or behind a word that has not committed (06 R140). -/
def State.precise (s : State) : Bool := s.turn.q = .x && (s.cur.sys.fen ≠ 0#5 || !s.cur.vec.window.isEmpty)

/-- Registers by X's numbers whose pending writes a move of register k on X waits for (06 R136): for a read the register, for a
write also the size that bounds the rotating base. -/
def moveNeeds (k : Nat) : List Nat := (sysOfX .x k).toList
def moveNeedsW (k : Nat) : List Nat := if k = 0x006 then [0x005, 0x006] else moveNeeds k

/-- mfsr: on X a vector word with latency 2 into element 0 (05 R126), which engine vxe does not count (log 81). -/
def execMfsr (d : RegF) (sel : BitVec 10) (s : State) : Out :=
  .next (
    if s.turn.q = .x then
      s.issue { precise := s.precise } fun t =>
        if !sysAssigned sel.toNat then .trap .illsr 0 false
        else if t.cur.sys.region && (t.cur.vregBusy d.toNat || t.cur.sysWaits (moveNeeds sel.toNat)) then .wait
        else
          let v := t.cur.readSys (t.idOf t.turn.core) .x sel.toNat
          let u := t.modCur fun c => c.emit .x (t.stc + 2) (.element0 d.toNat v)
          .done (if t.precise then u.xDone u.entryId (t.stc + 2) else u)
    else
      s.issue {} fun t =>
        if !sysAssigned sel.toNat then .trap .illsr 0 false
        else t.interlock [d] (fun u => .done (u.wr 1 d (u.cur.readSys (u.idOf u.turn.core) u.turn.q sel.toNat))) t)

/-- mtsr: in force from the next cycle (02 R56). -/
def execMtsr (d : RegF) (sel : BitVec 10) (s : State) : Out :=
  .next (
    if s.turn.q = .x then
      s.issue { precise := s.precise } fun t =>
        if !sysAssigned sel.toNat then .trap .illsr 0 false
        else if t.cur.sys.region && (t.cur.vregBusy d.toNat || t.cur.sysWaits (moveNeedsW sel.toNat)) then .wait
        else
          let v := vreg64 (t.cur.vec.reg d.toNat)
          if !t.cur.legalSys sel.toNat v then .trap .illop 0 false
          else
            let u := t.modCur fun c => c.emit .x (t.stc + 1) (.sys .x sel.toNat v)
            .done (if t.precise then u.xDone u.entryId (t.stc + 1) else u)
    else
      s.issue {} fun t =>
        if !sysAssigned sel.toNat then .trap .illsr 0 false
        else t.interlock [d] (fun u =>
          let v := u.rd d
          if !u.cur.legalSys sel.toNat v then .trap .illop 0 false
          else .done (u.modCur fun c => c.emit u.turn.q (u.stc + 1) (.sys u.turn.q sel.toNat v))) t)

/-- Both forms of rdstc set AUDIT in either region (05 R127). -/
def execRdstc (d : RegF) (s : State) : Out :=
  .next (s.issue { audit := true } fun t => t.interlock [d] (fun u => .done (u.wr 1 d (BitVec.ofNat 64 u.stc))) t)
def execRdstcT0 (d : RegF) (s : State) : Out :=
  .next (s.issue { audit := true } fun t =>
    t.interlock [d] (fun u => .done (u.wr 1 d (BitVec.ofInt 64 ((u.stc : Int) - u.cur.sys.t0)))) t)

/-- rdeng sets AUDIT in a scoreboard region (05 R122). -/
def execRdeng (d : RegF) (eng : BitVec 10) (s : State) : Out :=
  .next (s.issue { audit := s.cur.sys.region } fun t =>
    t.interlock [d] (fun u => .done (u.wr 1 d (u.cur.engStatus eng.toNat))) t)

/-- A software trap: SOFT with its code kept for the fault record (05 R131). -/
def execTrap (code : BitVec 10) (s : State) : Out := .next (s.issue {} fun _ => .trap .soft code false)

def execNop (s : State) : Out := .next (s.issue {} fun t => .done t)

end Sys2Proof.Machine
end

