-- ==== Sys2Proof/Machine/Vector.lean ====
section
/-! DEFINITION. The vector engine's pipeline: issue of a vector word, its group reads, completions and commits, precise mode with
its traps and cancellations (06 R135 to R141), queue operands (04 R92, 06 R138), uniform skip (06 R157). -/

namespace Sys2Proof.Machine

open Fp

/-! ### What a word writes -/

/-- Width at which a word judges activity (06 R139). -/
def Instr.actWidth : Instr → Nat
  | .vadd _ _ _ _ ty | .vsub _ _ _ _ ty | .vmul _ _ _ _ ty | .vdiv _ _ _ _ ty | .vfma _ _ _ _ ty | .vfms _ _ _ _ ty
  | .vfnma _ _ _ _ ty | .vfnms _ _ _ _ ty | .vmin _ _ _ _ ty | .vmax _ _ _ _ ty | .vcmpeq _ _ _ _ ty
  | .vcmpne _ _ _ _ ty | .vcmplt _ _ _ _ ty | .vcmple _ _ _ _ ty => tyFpWidth ty
  | .vabs _ _ _ ty | .vneg _ _ _ ty | .vsqrt _ _ _ ty | .vrcp _ _ _ ty | .vrsqrt _ _ _ ty | .vclass _ _ _ ty
  | .vexp _ _ _ ty | .vexp2 _ _ _ ty | .vlog _ _ _ ty | .vlog2 _ _ _ ty | .verf _ _ _ ty => tyFpWidth ty
  | .viadd _ _ _ _ ty | .visub _ _ _ _ ty | .vimul _ _ _ _ ty | .vimulh _ _ _ _ ty | .viand _ _ _ _ ty
  | .vior _ _ _ _ ty | .vixor _ _ _ _ ty | .vishl _ _ _ _ ty | .vishr _ _ _ _ ty | .visra _ _ _ _ ty
  | .vimin _ _ _ _ ty | .vimax _ _ _ _ ty | .vicmpeq _ _ _ _ ty | .vicmplt _ _ _ _ ty | .vicmple _ _ _ _ ty
  | .vperm _ _ _ _ ty | .vsel _ _ _ _ ty | .vzip _ _ _ _ ty | .vunzip _ _ _ _ ty => tyWidth ty
  | .viabs _ _ _ ty | .vpopc _ _ _ ty | .vmov _ _ _ ty => tyWidth ty
  | .vrotr _ _ _ _ ty | .vrotc _ _ _ _ ty | .vbcr _ _ _ _ ty | .vbcc _ _ _ _ ty => tyWidth ty
  | .vredr _ _ k _ ty | .vredc _ _ k _ ty | .vprer _ _ k _ ty | .vprec _ _ k _ ty => redWidth k.toNat ty
  | .vcvt _ _ spec _ _ => cvtWidth (cvtTo spec)
  | _ => 32

/-- Pattern of the active elements of register k at a width. -/
def activeMask (act : Active) (w k : Nat) : VReg :=
  match act with
  | .all => BitVec.allOnes 32768
  | .off => 0
  | _ => vbuild w ((List.range (velems w)).map fun i => if act.elem w k i then 2 ^ w - 1 else 0)

/-- Bits of the destination that register k writes (06 R138, R139, R153, R159, R160). -/
def vwritten (op : Instr) (act : Active) (k : Nat) : VReg :=
  match op with
  | .vsel .. => (match act with
    | .off => 0
    | _ => BitVec.allOnes 32768)
  | .vcvt _ _ spec _ ty =>
    let ws := cvtWidth (cvtFrom spec)
    let wd := cvtWidth (cvtTo spec)
    let m := activeMask act wd k
    if ws ≤ wd then m
    else
      let es := velems ws
      let lo := cvtPart spec ty * es
      m &&& vbuild wd ((List.range (velems wd)).map fun i => if lo ≤ i ∧ i < lo + es then 2 ^ wd - 1 else 0)
  | .vpk8 _ _ _ ty | .vpk4 _ _ _ ty | .vpk8x _ _ _ ty | .vpk4x _ _ _ ty =>
    putPart 0 (ty.toNat % 4) (List.replicate 1024 255)
  | _ => activeMask act (Instr.actWidth op) k

/-- Elements of the exponent register that a pack writes. -/
def expWritten (nb part : Nat) : VReg :=
  vbuild 16 ((List.range 2048).map fun i => if nb * part ≤ i ∧ i < nb * part + nb then 65535 else 0)

/-- A value merged into a register under a mask. -/
def mergeBits (old mask v : VReg) : VReg := (old &&& ~~~mask) ||| (v &&& mask)

/-! ### Timing of the reads and completions -/

/-- Reads: how many, cycles between them, cycle of the first (06 R135, R160, R162; 07 R193, R197). mpush reads as it issues. -/
def Instr.vreads (op : Instr) (g n : Nat) : Nat × Nat × Nat :=
  match op with
  | .vpk4 .. | .vpk4x .. => (2, 4, 0)
  | .vupk4 .. => (1, 4, 0)
  | .a2v .. | .ckrd .. => (1, 4, 2)
  | .mpush .. => (0, 0, 0)
  | _ => (g, n, 0)

/-- Completions: how many, cycles between them, cycle of the first. -/
def Instr.vdones (op : Instr) (g n l : Nat) : Nat × Nat × Nat :=
  match op with
  | .vupk4 .. => (2, 4, l)
  | .pcnt .. | .pfirst .. => (1, n, l + n * (g - 1))
  | _ => (g, n, l)

/-- The operands that read k takes, with the register of the operand's group each reads (04 R92: A, then B). A of a four-bit pack is read
twice: a constant gives its value each time, a load queue two entries (log 112). -/
def vsources (op : Instr) (o : VOps) (k : Nat) : List (VOpF × KRead × Nat) :=
  let a : List (VOpF × KRead × Nat) := match o.a with
    | some v => [(v, o.ka, k)]
    | none => []
  let b (j : Nat) : List (VOpF × KRead × Nat) := match o.b with
    | some v => [(v, o.kb, j)]
    | none => []
  match op with
  | .vpk4 .. | .vpk4x .. => if k = 0 then a ++ b 0 else a
  | _ => a ++ b k

/-! ### Operand reads -/

/-- What an operand position gives, and the core after a pop; none when its queue is empty. -/
def State.readOperand (s : State) (c : Core) (w : VWord) (x : VOpF × KRead × Nat) : Option (VReg × Core) :=
  match opReg x.1, opKonst x.1, opQueue x.1 with
  | some n, _, _ => some (c.vec.reg (physReg w.rotsz w.rrb (n + x.2.2)), c)
  | _, some n, _ => some (konstReg (s.konst c n) x.2.1, c)
  | _, _, some qn =>
    let v := c.q.lqueue qn
    match v.head? s.stc with
    | none => none
    | some e =>
      let c1 := { c with q := c.q.setLq qn (v.pop s.stc) }
      some (e, { c1 with vec := { c1.vec with window := c1.vec.window.map fun y =>
        if y.id = w.id then { y with popped := y.popped ++ [(qn, e)] } else y } })
  | _, _, _ => some (0, c)

/-- The operands of a read in order: those read, the core, and whether all were there. -/
def State.readOperands (s : State) (w : VWord) : List (VOpF × KRead × Nat) → List VReg → Core → List VReg × Core × Bool
  | [], acc, c => (acc, c, true)
  | x :: t, acc, c =>
    match s.readOperand c w x with
    | some (v, c') => s.readOperands w t (acc ++ [v]) c'
    | none => (acc, c, false)

/-- The words of a vector register that element 0 onward of a status list fills. -/
def regOfList (w : Nat) (xs : List Nat) : VReg := vbuild w xs

/-- Content of ckrd (07 Table 7.9). -/
def ckrdReg (m : MxSt) : VReg := vbuild 32 [m.detail.toNat, m.corr.toNat, m.ckerr.toNat, m.lastcorr.toNat]

def MxSt.row (m : MxSt) (t i : Nat) : Row := SMap.get 0 m.acc (128 * t + i)
def MxSt.setRow (m : MxSt) (t i : Nat) (r : Row) : MxSt := { m with acc := SMap.put 0 m.acc (128 * t + i) r }

/-- The 16 x 64 block of a tile as a register (07 R193). -/
def tileBlock (m : MxSt) (t rb ch : Nat) : VReg :=
  vbuild 2048 ((List.range 16).map fun r => bitsN (m.row t (16 * rb + r)).toNat (2048 * ch) 2048)

/-- Rows that v2a writes: row key, bits written, value. -/
def blockRows (t rb ch : Nat) (mask v : VReg) : List (Nat × Row × Row) :=
  (List.range 16).map fun r =>
    (128 * t + 16 * rb + r, BitVec.ofNat 4096 (velem 2048 mask r * 2 ^ (2048 * ch)),
     BitVec.ofNat 4096 (velem 2048 v r * 2 ^ (2048 * ch)))

/-- Nonzero elements, and the index of the first. -/
def countNz (w : Nat) (v : VReg) : Nat := (List.range (velems w)).foldl (fun n i => if velem w v i ≠ 0 then n + 1 else n) 0
def firstNz (w : Nat) (v : VReg) : Nat := (findNat (fun i => velem w v i ≠ 0) (velems w) 0).getD (velems w)

/-- Destination of register k: a register with its bits, or a store-queue entry. -/
def VResult.to (w : VWord) (r : VResult) (d : VOpF) (k : Nat) (mask v : VReg) : VResult :=
  match opReg d, opQueue d with
  | some n, _ => { r with regs := r.regs ++ [(physReg w.rotsz w.rrb (n + k), mask, v)] }
  | _, some q => { r with push := some (q, v &&& mask) }
  | _, _ => r

/-- Old value of the destination as an operand; a queue has none (reads as 0). -/
def Core.oldDest (c : Core) (w : VWord) (d : Option VOpF) (k : Nat) : VReg :=
  match d with
  | some v => (match opReg v with
    | some n => c.vec.reg (physReg w.rotsz w.rrb (n + k))
    | none => 0)
  | none => 0

def vkeyOf (c : Core) (k : Nat) : Nat := (SMap.get 0 c.sys.vkey (2 * k)).toNat + 2 ^ 64 * (SMap.get 0 c.sys.vkey (2 * k + 1)).toNat

/-- What the last read of register k gives, from the source values. A store queue named by D of vupk4 takes two entries (log 112); vrand
takes its key as it stands in the register's read cycle (log 113). -/
def vresults (c : Core) (w : VWord) (o : VOps) (k : Nat) (src : List VReg) : List VResult :=
  let a := src.getD 0 0
  let b := src.getD 1 0
  let m := vwritten w.op w.active k
  let d := c.oldDest w o.d k
  let r : VResult := { k := k }
  match w.op with
  | .vpk8 dd _ _ ty =>
    let x := vpack8 false a b d w.rm (ty.toNat % 4)
    [{ r.to w dd k m x.d with flags := x.fl }]
  | .vpk8x dd _ e ty =>
    let x := vpack8 true a 0 d w.rm (ty.toNat % 4)
    [{ (r.to w dd k m x.d).to w e 0 (expWritten 32 (ty.toNat % 4)) x.e with flags := x.fl }]
  | .vpk4 dd _ _ ty =>
    if k = 0 then [] else
    let x := vpack4 false a (src.getD 2 0) b (c.oldDest w o.d 0) w.rm (ty.toNat % 4)
    [{ ({ k := 0 } : VResult).to w dd 0 (vwritten w.op w.active 0) x.d with flags := x.fl }]
  | .vpk4x dd _ e ty =>
    if k = 0 then [] else
    let x := vpack4 true a b 0 (c.oldDest w o.d 0) w.rm (ty.toNat % 4)
    [{ (({ k := 0 } : VResult).to w dd 0 (vwritten w.op w.active 0) x.d).to w e 0 (expWritten 64 (ty.toNat % 4)) x.e with
        flags := x.fl }]
  | .vupk8 dd _ _ part => [r.to w dd k m (vunpack8 a b part.toNat)]
  | .vupk4 dd _ _ part =>
    [({ k := 0 } : VResult).to w dd 0 m (vunpack4 a b part.toNat 0), ({ k := 1 } : VResult).to w dd 1 m (vunpack4 a b part.toNat 1)]
  | .pcnt _ _ _ wd => [{ k := k, pred := some (0, BitVec.ofNat 18 (countNz (8 * 2 ^ wd.toNat) a)) }]
  | .pfirst _ _ _ wd => [{ k := k, pred := some (0, BitVec.ofNat 18 (firstNz (8 * 2 ^ wd.toNat) a)) }]
  | .vflrd dd _ => [r.to w dd k m a]
  | .mpush .. => []
  | .a2v v t rb ch _ => [r.to w v k m (tileBlock c.mx t.toNat rb.toNat ch.toNat)]
  | .v2a _ t rb ch _ => [{ r with acc := blockRows t.toNat rb.toNat ch.toNat m a }]
  | .ckrd v => [r.to w v k m (ckrdReg c.mx)]
  | .vrand dd _ _ key =>
    [r.to w dd k m (vcompute w.op { a := a, d := d, act := w.active, k := k, key := vkeyOf c key.toNat }).d]
  | _ =>
    match o.d with
    | some dd =>
      let x := vcompute w.op { a := a, b := b, d := d, act := w.active, k := k, rm := w.rm }
      [{ r.to w dd k m x.d with flags := x.fl }]
    | none => []

/-- COUNT of pcnt and pfirst over the registers of the group (06 R155). -/
def predOfGroup (first : Bool) (wd g : Nat) (xs : List VResult) : Nat :=
  let e := elemsOf wd
  if first then
    match xs.find? (fun x => match x.pred with
      | some p => decide (p.2.toNat < e)
      | none => false) with
    | some x => x.k * e + (x.pred.map (·.2.toNat)).getD 0
    | none => g * e
  else xs.foldl (fun n x => n + (x.pred.map (·.2.toNat)).getD 0) 0

/-- The predicate that pcnt or pfirst writes. -/
def predWord (count wd g : Nat) : BitVec 18 := BitVec.ofNat 18 (count + 8192 * wd + 32768 * g)

/-- Results that land at completion j of the word. -/
def VWord.doneResults (w : VWord) (j : Nat) : List VResult :=
  match w.op with
  | .pcnt pd _ g wd =>
    [{ k := 0, pred := some (pd.toNat, predWord (predOfGroup false wd.toNat g.toNat w.results) wd.toNat g.toNat) }]
  | .pfirst pd _ g wd =>
    [{ k := 0, pred := some (pd.toNat, predWord (predOfGroup true wd.toNat g.toNat w.results) wd.toNat g.toNat) }]
  | _ => w.results.filter fun r => r.k = j

/-! ### Results in force -/

/-- The results of mfsr that took effect in this cycle stand over those of the words before it (06 R136). -/
def VecSt.keepEl0 (x : VecSt) (now : Nat) (rs : List Nat) : VecSt :=
  x.el0Now.foldl (fun v p => if p.1 = now ∧ rs.contains p.2.1 then v.setReg p.2.1 (setVreg64 (v.reg p.2.1) p.2.2) else v) x

/-- Moves of the given sequencers that took hold in this cycle stand over other writes of the same registers. -/
def Core.standing (c : Core) (now : Nat) (qs : List Seq) (rs : List Nat) : Core :=
  c.sys.movesNow.foldl (fun c p =>
    if p.1 = now ∧ qs.contains p.2.1 ∧ ((Eff.sys p.2.1 p.2.2.1 p.2.2.2).writes.any fun r => rs.contains r) then
      c.writeSys now p.2.1 p.2.2.1 p.2.2.2
    else c) c

/-- A result takes effect in cycle `now`. -/
def Core.applyResult (c : Core) (now : Nat) (r : VResult) : Core :=
  let v := r.regs.foldl (fun (v : VecSt) p => v.setReg p.1 (mergeBits (v.reg p.1) p.2.1 p.2.2)) c.vec
  let v := v.setFlags now r.flags
  let v := match r.pred with
    | some p => { v with preds := SMap.put predReset v.preds p.1 p.2 }
    | none => v
  let v := match r.mask with
    | some m => { v with masks := m :: v.masks }
    | none => v
  let mx := r.acc.foldl (fun (m : MxSt) p =>
    { m with acc := SMap.put 0 m.acc p.1 ((SMap.get 0 m.acc p.1 &&& ~~~p.2.1) ||| (p.2.2 &&& p.2.1)) }) c.mx
  let q := match r.push with
    | some p => c.q.setSq p.1 ((c.q.squeue p.1).push now p.2)
    | none => c.q
  { c with vec := v, mx := mx, q := q }

/-- Results of a completion that no window holds back. Whatever moves of X and S and results of mfsr took hold in this cycle were issued
later, or come later in the order of 02 R56, and stand over them. -/
def Core.landResults (c : Core) (now : Nat) (rs : List VResult) : Core :=
  let c := rs.foldl (fun (c : Core) r => c.applyResult now r) c
  let c := { c with vec := c.vec.keepEl0 now (rs.flatMap fun (r : VResult) => r.regs.map (fun p : Nat × VReg × VReg => p.1)) }
  c.standing now [.x, .s] (rs.flatMap VResult.sysWrites)

/-- The pushes of results find room. -/
def Core.pushesFit (c : Core) (now : Nat) : List VResult → Bool
  | [] => true
  | r :: t =>
    (match r.push with
     | some p => (c.q.squeue p.1).room now && Core.pushesFit { c with q := c.q.setSq p.1 ((c.q.squeue p.1).push now p.2) } now t
     | none => Core.pushesFit c now t)

/-- Pushes of results made in order as far as the queues have room; a result whose push is made keeps the rest (06 R138). -/
def Core.pushSome (c : Core) (now : Nat) : List VResult → Core × List VResult
  | [] => (c, [])
  | r :: t =>
    match r.push with
    | none =>
      let (c, u) := Core.pushSome c now t
      (c, r :: u)
    | some p =>
      if (c.q.squeue p.1).room now then
        let (c, u) := Core.pushSome { c with q := c.q.setSq p.1 ((c.q.squeue p.1).push now p.2) } now t
        (c, { r with push := none } :: u)
      else (c, r :: t)

/-! ### Waits (06 R138) -/

/-- The job is a read or completion of word id or of a later vector word of core n. -/
def vjobFrom (n id : Nat) (e : Instr) : Bool :=
  match e with
  | .vectorGroupRead n' i _ => n' = n && decide (id ≤ i)
  | .vectorCompletion n' i _ => n' = n && decide (id ≤ i)
  | _ => false

/-- Every later read and completion of word id and of later vector words moves by one cycle, and the word holds the port. A word that takes
no port keeps its cycle, since the wait is one for the port (log 114). -/
def State.shiftVector (s : State) (n id : Nat) : State :=
  let moved := s.agenda.map fun j => if vjobFrom n id j.ev then { j with due := j.due + 1 } else j
  let s := { s with agenda := moved.foldl (fun l j => insJob j l) [] }
  s.modCore n fun c => { c with vec := { c.vec with portFree := Nat.max c.vec.portFree s.stc + 1 } }

/-- A fault that X takes at this cycle for a word in flight (06 R138): its pc is that of X's next word (log 82). It stands before the trap
of a later word (R141). -/
def State.xFault (s : State) (n : Nat) (c : Cause) : State :=
  let s := s.modCore n fun k => { k with vec := { k.vec with lateTrap := none } }
  s.takeTrap n .x c 0 0 (s.core n).x.pc false s.stc false

/-- The window's head may commit now. -/
def State.kickCommit (s : State) (n : Nat) : State :=
  match (s.core n).vec.window with
  | [] => s
  | e :: _ => if e.ready then s.sched s.stc phCommit (.vectorCommit n e.id) else s

/-- The entry of a precise word that a fault stops: it commits, and nothing of it takes effect (log 82). -/
def XEntry.void (e : XEntry) : XEntry := { e with ready := true, counted := false, held := [], results := [] }

/-- A word leaves the engine with its remaining reads and completions dropped: what it popped stays popped, registers completed outside a
window stay written, and those read and not completed are not (log 82). -/
def State.dropWord (s : State) (n id : Nat) : State :=
  let s := s.unsched fun e => match e with
    | .vectorGroupRead n' i _ => n' = n && i = id
    | .vectorCompletion n' i _ => n' = n && i = id
    | _ => false
  let s := s.modCore n fun c =>
    ({ c with vec := { c.vec with words := c.vec.words.filter (fun w => w.id ≠ id),
                                  window := c.vec.window.map fun (e : XEntry) => if e.id = id then e.void else e } }).later
      (s.stc + 1) (.engRetire engVxe)
  s.kickCommit n

/-! ### Group read -/

def Core.word? (c : Core) (id : Nat) : Option VWord := c.vec.words.find? fun w => w.id = id
def Core.setWord (c : Core) (w : VWord) : Core :=
  { c with vec := { c.vec with words := c.vec.words.map fun x => if x.id = w.id then w else x } }

def State.groupRead (s : State) (n id k : Nat) : State :=
  let c := s.core n
  match c.word? id with
  | none => s
  | some w =>
    match w.active, Instr.vops w.op with
    | .off, _ => s.setCore n (c.setWord { w with reads := k + 1 })
    | _, none => s.setCore n (c.setWord { w with reads := k + 1 })
    | _, some o =>
      -- vflrd brings its sample, taken at issue; the four-bit packs keep the values of their first read
      let all := vsources w.op o k
      let fresh := match w.op with
        | .vpk4 .. | .vpk4x .. => decide (k = 0)
        | _ => true
      let base := if fresh then 0 else (vsources w.op o 0).length
      let todo := all.drop (w.part.length - base)
      match s.readOperands w todo w.part c with
      | (got, c', true) =>
        let rs := vresults c' w o k got
        let part := match w.op with
          | .vpk4 .. | .vpk4x .. => got
          | _ => []
        s.setCore n (c'.setWord { w with reads := k + 1, results := w.results ++ rs, part := part })
      | (got, c', false) =>
        let s' := s.setCore n (c'.setWord { w with part := got })
        if c.sys.region then
          (s'.shiftVector n id).sched (s.stc + 1) phRead (.vectorGroupRead n id k)
        else (s'.dropWord n id).xFault n .schedmiss

def execVectorGroupRead (n id k : Nat) (s : State) : Out := .next (s.groupRead n id k)

/-! ### Commit and precise traps -/

/-- The stream of X as it was before a cancelled word: its path, loops and return addresses (06 R141). -/
def SeqSt.rollback (x b : SeqSt) : SeqSt :=
  { x with pc := b.pc, lc := b.lc, ras := b.ras, slots := b.slots, target := b.target, mode := b.mode,
           rsspill := setSpillUsed x.rsspill (spillUsed b.rsspill) }

/-- A cancelled word gives back what it popped and overwrote. -/
def XEntry.giveBack (e : XEntry) (c : Core) : Core :=
  let c := e.undo.reverse.foldl (fun (c : Core) u => c.setSpm u.1 u.2) c
  let c := e.popped.reverse.foldl (fun (c : Core) p => { c with q := c.q.setLq p.1 ((c.q.lqueue p.1).unpop p.2) }) c
  e.tokens.reverse.foldl (fun (c : Core) f =>
    { c with q := c.q.setTok f { c.q.tok f with count := (c.q.tok f).count + 1 } }) c

/-- Cancellation of the whole window from its head on: every word but the head writes nothing; the streams' path goes back to
the head, which alone still holds the port (06 R135). -/
def State.cancelWindow (s : State) (n : Nat) (head : XEntry) : State :=
  let c := s.core n
  let ids := c.vec.window.map (·.id)
  let s := s.unsched fun e => match e with
    | .vectorGroupRead n' i _ => n' = n && ids.contains i
    | .vectorCompletion n' i _ => n' = n && ids.contains i
    | .vectorCommit n' i => n' = n && ids.contains i
    | _ => false
  -- a meeting that the cancelled mode word of X had joined does not take place (05 R129)
  let s := if head.before.mode = .run ∧ c.x.mode ≠ .run then s.unsched fun e => e = .modeDrainDone n else s
  let c := c.vec.window.reverse.foldl (fun (c : Core) e => e.giveBack c) c
  -- a block that its bank has not served is neither written nor read
  let c : Core := { c with cmds := c.cmds.filter fun (m : Cmd) => !(m.q = .x && m.eng = 7 && decide (0 < m.obj) && ids.contains (m.obj - 1)) }
  let out := (c.vec.window.filter (·.counted)).length
  let c := c.modEngine engVxe fun x => { x with out := x.out - out }
  let c := c.modSeq .x fun x => x.rollback head.before
  let tsk := if head.before.mode = .run then { c.tsk with meetAt := none } else c.tsk
  s.setCore n { c with tsk := tsk, vec := { c.vec with
    window := [], lateTrap := none, skip := head.skip, words := c.vec.words.filter (fun w => !ids.contains w.id),
    portFree := Nat.max s.stc head.portEnd } }

/-- Flags of a word. -/
def XEntry.flags (e : XEntry) : Flags := e.results.foldl (fun f r => f.or r.flags) {}

/-- Effects that start a matrix command when they take hold. -/
def isHandOver : Eff → Bool
  | .handOver _ => true
  | _ => false

/-- The matrix command queue has room for n more, judged on its count at the start of the cycle (02 R52, 07 R172). -/
def Core.handFits (c : Core) (now n : Nat) : Bool :=
  n = 0 || decide (c.mx.queue.length + (if c.mx.qOutAt = now then c.mx.qOutN else 0) + n ≤ 16)

/-- The head of the matrix command queue is to be judged, from the cycle after a hand-over on (07 R174, R175). -/
def State.kickMatrix (s : State) (n : Nat) (due : Nat) : State :=
  if s.hasJob (.matrixCommandStart n) then s else s.sched due phEngine (.matrixCommandStart n)

/-- A move of a loop register of X that commits. -/
def Eff.moveOfLoop : Eff → Option (Nat × Word)
  | .sys .x k v => if 0x018 ≤ k ∧ k ≤ 0x01B then some (k - 0x018, v) else none
  | _ => none

/-- It reaches what the words behind it would go back to, up to one that arms the register anew, whose value then stands; whether none
does (06 R140, R141). -/
def reachLoop (k : Nat) (v : Word) : List XEntry → List XEntry × Bool
  | [] => ([], true)
  | e :: t =>
    let e := { e with before := e.before.setLoop k v }
    if e.loops.contains k then (e :: t, false) else ((e :: (reachLoop k v t).1), (reachLoop k v t).2)

/-- A held effect takes hold at its word's commit. A pop of a ring is seen by checks from the next cycle on (07 R167). -/
def Core.commitEff (c : Core) (now : Nat) (e : Eff) : Core :=
  match e, e.moveOfLoop with
  | .ringPop .., _ => c.later (now + 1) e
  | _, some (k, v) =>
    let (w, last) := reachLoop k v c.vec.window
    let c := { c with vec := { c.vec with window := w } }
    if last then e.apply now c else c
  | _, none => e.apply now c

/-- The head of the window commits: its results and held effects; S's moves of this cycle stand over X's writes (02 R56). -/
def Core.commitHead (c : Core) (now : Nat) (e : XEntry) : Core :=
  let c := { c with vec := { c.vec with window := c.vec.window.tail } }
  let c := e.results.foldl (fun (c : Core) r => c.applyResult now r) c
  let c := e.held.foldl (fun (c : Core) f => c.commitEff now f) c
  let c := c.standing now [.s] (e.held.flatMap Eff.writes ++ e.results.flatMap VResult.sysWrites)
  if e.counted then c.later (now + 1) (.engRetire engVxe) else c

/-- Commit of the head entries of the window that are ready, oldest first; a full store queue stops it (06 R138, R140). -/
def State.commitWindow (s : State) (n : Nat) : Nat → State
  | 0 => s
  | fuel + 1 =>
    let c := s.core n
    match c.vec.window with
    | [] =>
      match c.vec.lateTrap with
      | none => s
      | some (cause, code, pc, at_) =>
        let s := s.modCore n fun c => { c with vec := { c.vec with lateTrap := none } }
        let own := decide (pc = c.x.pc) && decide (c.x.due (wordIdle (c.fetch .x c.x.pc)) ≤ at_)
        s.takeTrap n .x cause code 0 pc own at_ false
    | e :: rest =>
      if !e.ready then s
      else
        let bad := e.flags.enabled e.fen
        if bad ≠ 0 then
          let s := s.cancelWindow n e
          let s := s.modCore n fun c => { c with vec := c.vec.setFlags s.stc e.flags }
          s.takeTrap n .x .fpexc 0 (lowestLane bad) e.pc true e.issued false
        else if !c.pushesFit s.stc e.results || !c.handFits s.stc (e.held.filter isHandOver).length then
          if c.sys.region then
            let (c, rs) := if c.handFits s.stc (e.held.filter isHandOver).length then c.pushSome s.stc e.results else (c, e.results)
            let s := s.setCore n { c with vec := { c.vec with window := { e with results := rs } :: rest } }
            (s.shiftVector n (e.id + 1)).sched (s.stc + 1) phCommit (.vectorCommit n e.id)
          else
            let c := if e.counted then c.later (s.stc + 1) (.engRetire engVxe) else c
            let s := s.setCore n { c with vec := { c.vec with window := e.void :: rest } }
            (s.kickCommit n).xFault n .ovf
        else
          let s := s.setCore n (c.commitHead s.stc e)
          let s := if e.held.any isHandOver then s.kickMatrix n (s.stc + 1) else s
          s.commitWindow n fuel

def execVectorCommit (n id : Nat) (s : State) : Out :=
  .next (match (s.core n).vec.window with
    | [] => s
    | e :: rest => if e.id = id then s.commitWindow n (rest.length + 2) else s)

/-! ### Words that wait on a queue for good -/

/-- Word that a read, completion or commit of core n belongs to. -/
def vecJobOf (n : Nat) : Instr → Option Nat
  | .vectorGroupRead n' i _ => if n' = n then some i else none
  | .vectorCompletion n' i _ => if n' = n then some i else none
  | .vectorCommit n' i => if n' = n then some i else none
  | _ => none

/-- The event would wait on a queue in this cycle. -/
def State.vecBlocked (s : State) (n : Nat) (e : Instr) : Bool :=
  let c := s.core n
  match e with
  | .vectorGroupRead _ id k =>
    (match c.word? id with
     | some w =>
       (match Instr.vops w.op with
        | some o =>
          let base := if k = 0 then 0 else match w.op with
            | .vpk4 .. | .vpk4x .. => (vsources w.op o 0).length
            | _ => 0
          !(s.readOperands w ((vsources w.op o k).drop (w.part.length - base)) w.part c).2.2
        | none => false)
     | none => false)
  | .vectorCompletion _ id j =>
    (match c.word? id with
     | some w => !(c.vec.window.any fun e => e.id = id) && !c.pushesFit s.stc (w.doneResults j)
     | none => false)
  | .vectorCommit _ id =>
    (match c.vec.window with
     | e :: _ => e.id = id && e.ready && (!c.pushesFit s.stc e.results || !c.handFits s.stc (e.held.filter isHandOver).length)
     | [] => false)
  | _ => false

/-- A word waits on a queue, and every other read, completion and commit of the core stands behind it. -/
def State.vecStuck (s : State) (n : Nat) : Bool :=
  let js := s.agenda.filter fun j => (vecJobOf n j.ev).isSome
  match js.find? fun j => decide (j.due ≤ s.stc + 1) && s.vecBlocked n j.ev with
  | some b => js.all fun j => decide ((vecJobOf n b.ev).getD 0 ≤ (vecJobOf n j.ev).getD 0)
  | none => false

/-! ### Completion -/

/-- Completion j of a word: in precise mode its results wait for the commit. -/
def State.completion (s : State) (n id j : Nat) : State :=
  let c := s.core n
  let pending := c.vec.window.any fun e => e.id = id
  match c.word? id with
  | none =>
    let c' := { c with vec := { c.vec with window := c.vec.window.map fun e => if e.id = id then { e with ready := true } else e } }
    (s.setCore n c').kickCommit n
  | some w =>
    let rs := w.doneResults j
    let last := decide (j + 1 = (Instr.vdones w.op w.group w.occ w.lat).1)
    if pending then
      let win := c.vec.window.map fun e =>
        if e.id = id then { e with results := e.results ++ rs, ready := last, portEnd := s.stc + w.occ - w.lat } else e
      let words := if last then c.vec.words.filter (fun x => x.id ≠ id)
        else c.vec.words.map fun x => if x.id = id then { w with done := j + 1 } else x
      (s.setCore n { c with vec := { c.vec with window := win, words := words } }).kickCommit n
    else if !c.pushesFit s.stc rs then
      if c.sys.region then (s.shiftVector n id).sched (s.stc + 1) phComplete (.vectorCompletion n id j)
      else (s.dropWord n id).xFault n .ovf
    else
      let c := c.landResults s.stc rs
      if last then
        s.setCore n (({ c with vec := { c.vec with words := c.vec.words.filter fun x => x.id ≠ id } }).later (s.stc + 1)
          (.engRetire engVxe))
      else s.setCore n (c.setWord { w with done := j + 1 })

def execVectorCompletion (n id k : Nat) (s : State) : Out := .next (s.completion n id k)

/-! ### Issue -/

/-- System registers of the name mapping, for a word that names a vector register (06 R137). -/
def VOps.mapReads (o : VOps) : List Nat :=
  if [o.d, o.a, o.b, o.e].any fun v => ((v.bind opReg).isSome) then [0x005, 0x006] else []

/-- System registers that a vector word reads or writes: predicate, stage bits, mask stack, dynamic rounding where the word takes it,
name mapping, enables, key. -/
def Instr.sysReads (op : Instr) (o : VOps) : List Nat :=
  let p := o.p.toNat
  (if 1 ≤ p ∧ p ≤ 8 then [0x020 + (p - 1)] else if 9 ≤ p ∧ p ≤ 16 then [0x007] else if p = 17 then [0x008] else []) ++
  (if Instr.dynRound op then [0x002] else []) ++ [0x003] ++ o.mapReads ++
  (match op with
   | .mpush .. | .minv _ | .mpop => [0x008]
   | .spshl .. => [0x007, 0x005, 0x006]
   | .rrbdec | .rrbset _ => [0x005, 0x006]
   | .spset _ => [0x007]
   | .pset pd .. => [0x020 + pd.toNat]
   | .pcnt pd .. | .pfirst pd .. => [0x020 + pd.toNat]
   | .vrand _ _ _ k => [0x010 + 2 * k.toNat, 0x011 + 2 * k.toNat]
   | _ => [])

/-- Tiles that a matrix command reads or writes (07 R171); a wide tile is four tiles (02 R48). -/
def Instr.mxTiles : Instr → List Nat
  | .mma t _ | .azero t _ | .wcvt t _ => [t.toNat]
  | .mdrain _ t _ | .wzero t _ => (List.range 4).map fun i => 4 * t.toNat + i
  | .aload w t _ | .astore w t _ => if w = 1#1 then (List.range 4).map fun i => 4 * t.toNat + i else [t.toNat]
  | _ => []

/-- KIND of the format word of a tile command (07 R168, R170); 0 for the commands that pop none. -/
def Instr.mxKind : Instr → Nat
  | .mma .. => 1
  | .scnt .. => 2
  | .mdrain .. => 3
  | .wcvt .. => 4
  | .aload .. | .astore .. | .bsave .. | .bload .. => 5
  | _ => 0

/-- Source tiles of a wcvt by its format word. -/
def wcvtSource (op : Instr) (w : Option Word) : List Nat :=
  match op, w with
  | .wcvt .., some w =>
    (match readFmt 4 w.toNat with
     | .ok f => (List.range 4).map fun i => 4 * f.wsrc + i
     | .error _ => [])
  | _, _ => []

/-- Tiles that the queued commands read or write, each tile command with the format word that it will pop (07 R168, R193). -/
def queueTiles : List MxCmd → List Word → List Nat
  | [], _ => []
  | m :: t, fq =>
    if Instr.mxKind m.op = 0 then Instr.mxTiles m.op ++ queueTiles t fq
    else Instr.mxTiles m.op ++ wcvtSource m.op fq.head? ++ queueTiles t fq.tail

/-- Tiles of a started command; wcvt also reads its source (07 R192). -/
def MxRun.tiles (r : MxRun) : List Nat :=
  Instr.mxTiles r.cmd.op ++ (match r.cmd.op with
    | .wcvt .. => (List.range 4).map fun i => 4 * bitsN r.fw.toNat 16 4 + i
    | _ => [])

/-- A vector word in flight whose accumulator block lies in tile t: v2a always, a2v when asked. -/
def Core.vecTile (c : Core) (t : Nat) : Bool :=
  c.vec.words.any (fun w => match w.op with
    | .v2a _ t' _ _ _ => decide (t'.toNat = t) && decide (w.active ≠ .off)
    | _ => false) ||
  c.vec.window.any fun e => e.results.any fun r => r.acc.any fun p => p.1 / 128 = t

/-- The vector word must wait in a scoreboard region (06 R136, R163; 07 R193). -/
def Core.vecWaits (c : Core) (op : Instr) (o : VOps) : Bool :=
  let g := c.groupOf o
  let regs := c.physRegs o.d (if o.pairD then 2 else g) ++ c.physRegs o.a (if o.pairA then 2 else g) ++ c.physRegs o.b g ++
    c.physRegs o.e 1
  c.sysWaits (Instr.sysReads op o) || regs.any (fun r => c.vregBusy r) ||
  (match op with
   | .vflrd .. => !c.vec.words.isEmpty || (c.vec.window.dropLast).any (·.vector)
   | .a2v _ t _ _ _ | .v2a _ t _ _ _ =>
     (queueTiles c.mx.queue (c.q.fq.map (·.1))).contains t.toNat || (c.mx.runs.any fun m => m.tiles.contains t.toNat) ||
     c.vecTile t.toNat
   | _ => false)

/-- Queue entries that the reads of the issue cycle pop are there (02 R52, 06 R138). -/
def Core.headsReady (c : Core) (now : Nat) (l : List (VOpF × KRead × Nat)) : Bool :=
  let qs := l.filterMap fun x => opQueue x.1
  qs.all fun q => decide ((qs.filter (· = q)).length ≤ (((c.q.lqueue q).items.filter fun e => e.at_ < now ∨ e.at_ = 0)).length)

/-- The word whose turn it is is suppressed by a uniform skip (06 R157). -/
def State.suppressed (s : State) : Bool := decide (s.cur.vec.skip ≠ 0)

/-- Its entry in the window, if it took one, counts for vxe. -/
def Core.countEntry (c : Core) (id : Nat) : Core :=
  { c with vec := { c.vec with window := c.vec.window.map fun e => if e.id = id then { e with counted := true } else e } }

/-- Number for a vector word: that of its window entry, or a fresh one. -/
def Core.wordId (c : Core) : Nat × Core :=
  match c.vec.window.getLast? with
  | some e => (e.id, c)
  | none => (c.vec.nextId, { c with vec := { c.vec with nextId := c.vec.nextId + 1 } })

/-- Scheduling of the reads and completions of a word issued now. -/
def State.schedVector (s : State) (n : Nat) (w : VWord) : State :=
  let (rn, rs, r0) := Instr.vreads w.op w.group w.occ
  let (dn, ds, d0) := Instr.vdones w.op w.group w.occ w.lat
  let rph := match w.op with
    | .a2v .. => phTileRead
    | _ => phRead
  let s := forUp rn (fun k (s : State) => s.sched (s.stc + r0 + rs * k) rph (.vectorGroupRead n w.id k)) s
  forUp dn (fun k (s : State) => s.sched (s.stc + d0 + ds * k) phComplete (.vectorCompletion n w.id k)) s

/-- Placing of a vector word in the engine, under the engine's next stamp (09 R267). `res` are results known at issue, `part` values
sampled at issue. -/
def State.startVector (s : State) (op : Instr) (o : VOps) (res : List VResult) (part : List VReg) : State :=
  let (st, s) := s.stampFor s.turn.core (unitOfEng engVxe)
  let c := s.cur
  let (id, c) := c.wordId
  let (l, n) := Instr.vtime op
  let g := c.groupOf o
  let off := c.stageOff o.p
  let w : VWord :=
    { id := id, pc := c.x.pc, op := op, issued := s.stc, group := g, lat := l, occ := n, active := c.active o.p,
      rm := c.roundMode op, rotsz := c.sys.rotsz.toNat, rrb := c.sys.rrb.toNat, fen := c.sys.fen,
      results := if off then [] else res, part := part, stamp := st }
  let c := { c with vec := { c.vec with words := c.vec.words ++ [w], portFree := s.stc + n * g } }
  let c := (c.modEngine engVxe fun x => { x with out := x.out + 1 }).countEntry id
  (s.setCore s.turn.core c).schedVector s.turn.core w

/-- System registers that the checks of a vector word at decode read: its predicate's GROUP and the name mapping. -/
def VOps.preReads (o : VOps) : List Nat :=
  (if o.g = 0 ∧ 1 ≤ o.p.toNat ∧ o.p.toNat ≤ 8 then [0x020 + (o.p.toNat - 1)] else []) ++ o.mapReads

/-- How a vector word takes part in issue (06 R137, R139, R140, R157). Of the checks at decode, those that read a register whose
write is under way in a scoreboard region are made once the word no longer waits for it. -/
def State.vecKind (s : State) (o : VOps) (skippable audit : Bool) : Kind :=
  let c := s.cur
  let sup := skippable && s.suppressed
  let pre := if c.sys.region && !sup && c.sysWaits o.preReads then s.konstPre o else s.vecPre o
  { pre := pre, tokens := !(sup || c.stageOff o.p), precise := !sup && (c.sys.fen ≠ 0#5 || !c.vec.window.isEmpty), audit := audit }

/-- A vector word with an occupancy: it waits for its registers, the port and the queue entries of its first read. -/
def State.vecIssue (s : State) (op : Instr) (skippable audit : Bool) (more : State → Option Cause)
    (extra : State → List VResult × List VReg) (after : State → State) : State :=
  let o := (Instr.vops op).getD {}
  s.issue (s.vecKind o skippable audit) fun t =>
    let c := t.cur
    if skippable && t.suppressed then .done t
    else if c.sys.region && c.vecWaits op o then .wait
    else if t.stc < c.vec.portFree then .wait
    else
      let off := c.stageOff o.p
      match (if off then none else more t) with
      | some cause => .trap cause 0 true
      | none =>
        if !off && !c.headsReady t.stc (vsources op o 0) then .wait
        else let x := extra t; .done (after (t.startVector op o x.1 x.2))

/-- The plain vector word. -/
def State.vecWord (s : State) (op : Instr) : State :=
  s.vecIssue op true false (fun _ => none) (fun _ => ([], [])) id

/-- A vector word with n = 0 and L = 1: its effect is in force for words that issue from the next cycle. -/
def State.vecInstant (s : State) (op : Instr) (skippable : Bool) (pre : Option Cause) (effect : State → Except Cause State) :
    State :=
  let o := (Instr.vops op).getD {}
  let k := s.vecKind o skippable false
  s.issue { k with pre := k.pre.or pre } fun t =>
    let c := t.cur
    if skippable && t.suppressed then .done t
    else if c.sys.region && c.sysWaits (Instr.sysReads op o) then .wait
    else if c.stageOff o.p then .done (if c.vec.window.isEmpty then t else t.xDone t.entryId (t.stc + 1))
    else
      match effect t with
      | .error e => .trap e 0 false
      | .ok u =>
        let precise := !u.cur.vec.window.isEmpty
        let u := u.modCur fun c => (c.drawSeq (unitOfEng engVxe)).modEngine engVxe fun x => { x with out := x.out + 1 }
        .done (if precise then (u.modCur fun c => c.countEntry u.entryId).xDone u.entryId (u.stc + 1)
               else u.modCur fun c => c.later (u.stc + 2) (.engRetire engVxe))

end Sys2Proof.Machine
end

