-- ==== Sys2Proof/Machine/Matrix.lean ====
section
/-! DEFINITION. Words of X, C, L and S for the matrix engine: format words, hand-over of commands, rings, moves between tiles
and vector registers (07 R168 to R180, R193, R197). -/

namespace Sys2Proof.Machine

/-! ### Bookings of the task's own template (09 R257) -/

/-- The entries of one kind. -/
def Template.kinds (w : Template) (k : Nat) : List TEntry := w.entries.filter fun e => e.kind = k

/-- From offset `lo` on, the entries that satisfy p cover every offset up to `hi`. -/
def coveredTo (es : List TEntry) : Nat → Nat → Nat → Bool
  | 0, lo, hi => decide (hi ≤ lo)
  | fuel + 1, lo, hi =>
    if hi ≤ lo then true
    else
      match es.find? (fun e => decide (e.off ≤ lo) && decide (lo < e.off + e.dur)) with
      | some e => coveredTo es fuel (e.off + e.dur) hi
      | none => false

/-- Tile t is booked for a user over [from, to), as cycles; a template with no such entries books every tile. -/
def Core.tileBooked (c : Core) (t user lo hi : Nat) : Bool :=
  let es := c.tsk.win.kinds 2
  if es.isEmpty then true
  else if lo < c.sys.t0 then false
  else
    let mine := es.filter fun e =>
      decide (bitsN e.res 0 6 ≤ t) && decide (t < bitsN e.res 0 6 + bitsN e.res 6 6) && decide (bitsN e.res 12 1 = user)
    coveredTo mine mine.length (lo - c.sys.t0) (hi - c.sys.t0)

/-- The quad of a scratchpad address is booked at a cycle; a template with no such entries books every quad. -/
def Core.quadBooked (c : Core) (q now : Nat) : Bool :=
  let es := c.tsk.win.kinds 1
  if es.isEmpty then true
  else if now < c.sys.t0 then false
  else es.any fun e =>
    decide (bitsN e.res 0 4 ≤ q) && decide (q < bitsN e.res 0 4 + bitsN e.res 4 5) &&
    decide (e.off ≤ now - c.sys.t0) && decide (now - c.sys.t0 < e.off + e.dur)

/-! ### fpush (07 R169) -/

/-- Entries of fq at the start of the cycle. -/
def Core.fqHeld (c : Core) (now : Nat) : Nat :=
  c.q.fq.length + (if c.q.fqPopAt = now then c.q.fqPopN else 0)

def execFpush (a : RegF) (s : State) : Out :=
  .next (s.issue {} fun t => t.interlock [a] (fun u =>
    if 32 ≤ u.cur.fqHeld u.stc then .full
    else .done (u.modCur fun c => { c with q := { c.q with fq := c.q.fq ++ [(u.rd a, u.stc)] } })) t)

/-! ### Hand-over (07 R171, R172) -/

/-- A matrix command of X: in precise mode it is handed over at its commit. -/
def State.handOver (s : State) (op : Instr) (at_ : BitVec 32) : State :=
  s.issue {} fun t =>
    let (st, t) := t.stampFor t.turn.core (seqNum .x)
    let c := t.cur
    let cmd : MxCmd :=
      { id := c.mx.nextId, op := op, at_ := at_.toNat, handed := t.stc, pc := c.x.pc, cal := !c.sys.region, stamp := st }
    let c := { c with mx := { c.mx with nextId := c.mx.nextId + 1 } }
    let u := t.setCore t.turn.core c
    if c.vec.window.isEmpty then
      if !c.handFits t.stc 1 then .full
      else .done ((u.modCur fun c => (Eff.handOver cmd).apply t.stc c).kickMatrix t.turn.core (t.stc + 1))
    else .done (u.modCur fun c => c.emit .x t.stc (.handOver cmd))

def execMma (t : RegF) (at_ : BitVec 32) (s : State) : Out := .next (s.handOver (.mma t at_) at_)
def execScnt (bank : BitVec 1) (at_ : BitVec 32) (s : State) : Out := .next (s.handOver (.scnt bank at_) at_)
def execMholdOn (bank : BitVec 1) (at_ : BitVec 32) (s : State) : Out := .next (s.handOver (.mholdOn bank at_) at_)
def execMholdOff (bank : BitVec 1) (at_ : BitVec 32) (s : State) : Out := .next (s.handOver (.mholdOff bank at_) at_)
def execMdrain (bank : BitVec 1) (t : RegF) (at_ : BitVec 32) (s : State) : Out :=
  .next (s.handOver (.mdrain bank t at_) at_)
def execMmerge (bank : BitVec 1) (at_ : BitVec 32) (s : State) : Out := .next (s.handOver (.mmerge bank at_) at_)
def execBsave (bank : BitVec 1) (at_ : BitVec 32) (s : State) : Out := .next (s.handOver (.bsave bank at_) at_)
def execBload (bank : BitVec 1) (at_ : BitVec 32) (s : State) : Out := .next (s.handOver (.bload bank at_) at_)
def execAzero (t : RegF) (at_ : BitVec 32) (s : State) : Out := .next (s.handOver (.azero t at_) at_)
def execAload (wide : BitVec 1) (t : RegF) (at_ : BitVec 32) (s : State) : Out := .next (s.handOver (.aload wide t at_) at_)
def execAstore (wide : BitVec 1) (t : RegF) (at_ : BitVec 32) (s : State) : Out :=
  .next (s.handOver (.astore wide t at_) at_)
def execWcvt (t : RegF) (at_ : BitVec 32) (s : State) : Out := .next (s.handOver (.wcvt t at_) at_)
def execWzero (t : RegF) (at_ : BitVec 32) (s : State) : Out := .next (s.handOver (.wzero t at_) at_)
def execCkctlOn (at_ : BitVec 32) (s : State) : Out := .next (s.handOver (.ckctlOn at_) at_)
def execCkctlDetect (at_ : BitVec 32) (s : State) : Out := .next (s.handOver (.ckctlDetect at_) at_)
def execCkctlOff (at_ : BitVec 32) (s : State) : Out := .next (s.handOver (.ckctlOff at_) at_)

/-! ### Rings (07 R179, R180) -/

/-- The descriptor that ringset's registers name, if it meets Table 7.1 and Table 7.5. -/
def ringOfRegs (a b : Nat) : Option Ring :=
  let sz := bitsN b 0 21
  let n := bitsN b 21 9
  if a / 2 ^ 23 = 0 ∧ b / 2 ^ 30 = 0 ∧ a % 64 = 0 ∧ sz % 64 = 0 ∧ 64 ≤ sz ∧ sz ≤ 2 ^ 20 ∧ 1 ≤ n ∧ n ≤ 256 ∧ a + n * sz ≤ 2 ^ 23 then
    some { base := a, slotsz := sz, slots := n }
  else none

def execRingset (rg : BitVec 4) (a b : RegF) (s : State) : Out :=
  .next (s.issue {} fun t => t.interlock [a, b] (fun u =>
    let r := u.cur.mx.ring rg.toNat
    match ringOfRegs (u.rd a).toNat (u.rd b).toNat with
    | some x =>
      if r.rsv ≠ 0 ∨ r.wsv ≠ 0 then .trap .illop 0 false
      else .done (u.modCur fun c => c.emit u.turn.q (u.stc + 1) (.ringSet rg.toNat x))
    | none => .trap .illop 0 false) t)

def execRingadv (rg : BitVec 4) (a : RegF) (s : State) : Out :=
  .next (s.issue {} fun t => t.interlock [a] (fun u =>
    let r := u.cur.mx.ring rg.toNat
    let v := (u.rd a).toNat
    if v / 512 ≠ 0 then .trap .illop 0 false
    else if r.slots < r.fill + r.wsv + v then .full
    else .done (u.modCur fun c => c.emit u.turn.q (u.stc + 1) (.ringFill rg.toNat v))) t)

def execRingpop (rg : BitVec 4) (n : RegF) (s : State) : Out :=
  .next (s.issue {} fun t =>
    let r := t.cur.mx.ring rg.toNat
    if r.rsv ≠ 0 then .trap .illop 0 false
    else if r.fill < n.toNat then .wait
    else .done (t.modCur fun c => c.emit t.turn.q (t.stc + 1) (.ringPop rg.toNat n.toNat)))

/-! ### Moves between tiles and vector registers (07 R193, R197) -/

/-- The tile is booked for X in the cycle in which the word reads or writes it (09 R257). -/
def State.tileCheck (s : State) (t : RegF) (dt : Nat) : Option Cause :=
  if s.cur.tileBooked t.toNat 1 (s.stc + dt) (s.stc + dt + 1) then none else some .schedmiss

def execA2v (v : VOpF) (t : RegF) (rb : BitVec 3) (ch : BitVec 1) (p : PredF) (s : State) : Out :=
  .next (s.vecIssue (.a2v v t rb ch p) false false (fun u => u.tileCheck t 2) (fun _ => ([], [])) id)
def execV2a (v : VOpF) (t : RegF) (rb : BitVec 3) (ch : BitVec 1) (p : PredF) (s : State) : Out :=
  .next (s.vecIssue (.v2a v t rb ch p) false false (fun u => u.tileCheck t 6) (fun _ => ([], [])) id)
def execCkrd (v : VOpF) (s : State) : Out :=
  .next (s.vecIssue (.ckrd v) false true (fun _ => none) (fun _ => ([], [])) id)

end Sys2Proof.Machine
end

