-- ==== Sys2Proof/Machine/MatrixEvents.lean ====
section
/-! DEFINITION. The matrix engine at work: judgement and start of commands, block reads and additions, retirement, faults
(07 R173 to R177, R181 to R196, R198). -/

namespace Sys2Proof.Machine

/-! ### What a command uses (07 R174) -/

/-- Banks that a command reads or writes. -/
def Instr.mxBanks : Instr → List Nat
  | .scnt k _ | .mholdOn k _ | .mholdOff k _ | .mdrain k _ _ | .bsave k _ | .bload k _ => [k.toNat]
  | .mmerge .. => [0, 1]
  | _ => []
def Instr.mxStores : Instr → Bool
  | .astore .. | .bsave .. => true
  | _ => false
def Instr.isCkctl : Instr → Bool
  | .ckctlOn _ | .ckctlDetect _ | .ckctlOff _ => true
  | _ => false
def meets (a b : List Nat) : Bool := a.any fun x => b.contains x

/-- Command `op`, reading also `extra`, conflicts with a started command. -/
def MxRun.conflicts (r : MxRun) (op : Instr) (extra : List Nat) : Bool :=
  let e := r.cmd.op
  if Instr.isCkctl e ∨ Instr.isCkctl op then Instr.mxKind e ≠ 0 || Instr.mxKind op ≠ 0
  else
    -- tiles that each writes, and tiles that each uses
    let we := if Instr.mxStores e then [] else Instr.mxTiles e
    let wo := if Instr.mxStores op then [] else Instr.mxTiles op
    let be := Instr.mxBanks e
    let bo := Instr.mxBanks op
    meets we (Instr.mxTiles op ++ extra) || meets wo r.tiles ||
    (meets be bo && (!(Instr.mxStores e) || !(Instr.mxStores op)))

/-- Retirement cycle as it stands (07 R173, R181). -/
def MxRun.retire (r : MxRun) : Nat := r.s + r.occ + r.lat + r.stall

/-- Source tiles of a wcvt whose format word stands at the head of fq. -/
def Core.wcvtTiles (c : Core) (op : Instr) : List Nat :=
  wcvtSource op (c.q.fq.head?.map (·.1))

/-- The earliest legal start (07 R174). -/
def Core.earliest (c : Core) (cmd : MxCmd) : Nat :=
  c.mx.runs.foldl (fun e r => if r.conflicts cmd.op (c.wcvtTiles cmd.op) then Nat.max e r.retire else e)
    (Nat.max c.mx.occEnd (cmd.handed + 1))

/-- Occupancy and latency (07 Table 7.4). -/
def mxTime (op : Instr) (f : FmtWord) : Nat × Nat :=
  match op with
  | .mma .. =>
    let eb := Nat.max (opBytes f.af) (opBytes f.bf)
    (f.nb * (if eb = 1 then 32 else if eb = 2 then 64 else 512), 20)
  | .scnt .. => (16 * f.nb, 12)
  | .mdrain .. => (48, 16)
  | .mmerge .. => (12, 4)
  | .bsave .. | .bload .. => (152, 8)
  | .azero .. => (8, 2)
  | .wzero .. => (32, 2)
  | .aload w .. | .astore w .. => (if w = 1#1 then 64 else 16, 8)
  | .wcvt .. => (64, 8)
  | _ => (1, 0)

/-- Cycles per block. -/
def blockCycles (op : Instr) (f : FmtWord) : Nat :=
  match op with
  | .mma .. => let eb := Nat.max (opBytes f.af) (opBytes f.bf); if eb = 1 then 32 else if eb = 2 then 64 else 512
  | _ => 16

/-- Rings that a command reads per block with the bytes it needs of a slot: A, B, scales of A, scales of B (07 Table 7.6). -/
def blockRings (op : Instr) (f : FmtWord) (hold : Bool) : List (Nat × Nat) :=
  match op with
  | .mma .. =>
    [(f.rga, 4096 * opBytes f.af), (f.rgb, 4096 * opBytes f.bf)] ++
    (if f.af = 0 then [(f.rgsa, 256)] else []) ++ (if f.bf = 0 then [(f.rgsb, 256)] else [])
  | .scnt .. => [(f.rga, 2048), (f.rgb, 2048)] ++ (if hold then [] else [(f.rgsa, 256), (f.rgsb, 256)])
  | .aload w .. => [(f.ring, if w = 1#1 then 262144 else 65536)]
  | .bload .. => [(f.ring, 590400)]
  | _ => []

/-- The ring that a command writes. -/
def writeRing (op : Instr) (f : FmtWord) : Option (Nat × Nat) :=
  match op with
  | .astore w .. => some (f.ring, if w = 1#1 then 262144 else 65536)
  | .bsave .. => some (f.ring, 590400)
  | _ => none

/-! ### Faults (07 R177, R198) -/

/-- T and bank of a command, for DETAIL. -/
def Instr.mxT : Instr → Nat
  | .mma t _ | .azero t _ | .wcvt t _ | .wzero t _ | .mdrain _ t _ | .aload _ t _ | .astore _ t _ => t.toNat
  | _ => 0
def Instr.mxBank : Instr → Nat
  | .scnt k _ | .mholdOn k _ | .mholdOff k _ | .mdrain k _ _ | .mmerge k _ | .bsave k _ | .bload k _ => k.toNat
  | _ => 0
def detailWord (code : Nat) (op : Instr) (block : Nat) : BitVec 32 :=
  BitVec.ofNat 32 (code + 2 ^ 8 * (Instr.mxT op) + 2 ^ 14 * (Instr.mxBank op) + 2 ^ 16 * (Nat.min block 255))

/-- Jobs of a started command. -/
def mxJob (n id : Nat) (e : Instr) : Bool :=
  match e with
  | .ringBlockRead n' i _ | .mmaBlockAdd n' i _ | .scntBlockCount n' i _ | .matrixRetire n' i => n' = n && i = id
  | _ => false

/-- A started command leaves with its reservations released and its slots not popped. -/
def State.releaseRun (s : State) (n id : Nat) : State :=
  match (s.core n).mx.runs.find? (fun r => r.cmd.id = id) with
  | none => s
  | some r =>
    let s := s.unsched (mxJob n id)
    s.modCore n fun c =>
      let c := r.slots.foldl (fun (c : Core) p => c.later (s.stc + 1) (.ringRsv p.1 false r.nb)) c
      let c := match r.wslot with
        | some p => c.later (s.stc + 1) (.ringWsv p.1 false 1)
        | none => c
      { c with mx := { c.mx with runs := c.mx.runs.filter fun x => x.cmd.id ≠ id } }

/-- A matrix fault in this cycle: recorded, queued commands discarded, the trap of X due in the next cycle. -/
def State.matrixFault (s : State) (n : Nat) (cmd : MxCmd) (cause : Cause) (code block : Nat) : State :=
  let s := s.releaseRun n cmd.id
  let s := s.unsched fun e => e = .matrixCommandStart n
  let s := s.modCore n fun c =>
    let gone := (c.mx.queue.filter fun m => m.id ≠ cmd.id).length + 1
    let c := c.laterN (s.stc + 1) gone (.engRetire engMxe)
    let c := c.later (s.stc + 1) (.engFault engMxe)
    { c with mx := { c.mx.leave s.stc c.mx.queue.length with
        queue := [], detail := detailWord code cmd.op block, fault := some (cause, s.stc) } }
  s.sched (s.stc + 1) phEngine (.engineFaultTrap n engMxe)

/-! ### Judgement and start (07 R175) -/

/-- The bank requests of a slot read or written over a span of cycles (09 R269): a scale slot whole, else 128-byte units in
ascending order. -/
def unitReqs (id row addr size c0 span : Nat) : List SpmReq :=
  let n := (size + 127) / 128
  (List.range n).map fun k =>
    { due := c0 + (if span = 0 then 0 else if n ≤ span then k else k * span / n), rank := 1, cmd := id, row := row,
      addr := addr + 128 * k, len := Nat.min 128 (size - 128 * k) }

/-- Row code of a request that only holds its bank. -/
def claimRow : Nat := 2 ^ 20

/-- Slots reserved: each reference reads from HEAD + RSV on, later references of one ring after earlier ones (log 23). -/
def takeSlots (m : MxSt) (nb : Nat) : List Nat → List (Nat × Nat) → List (Nat × Nat)
  | [], acc => acc
  | r :: t, acc =>
    let before := (acc.filter fun p => p.1 = r).length * nb
    takeSlots m nb t (acc ++ [(r, (m.ring r).pos + (m.ring r).rsv + before)])

/-- A slot by absolute index has been filled. -/
def slotFilled (m : MxSt) (r idx : Nat) : Bool := decide (idx < (m.ring r).pos + (m.ring r).fill)

def slotBytes (c : Core) (r idx n : Nat) : List Byte := c.spmBytes ((c.mx.ring r).slotAddr idx) n

/-- Outcome of a judgement: a fault with its cause and DETAIL and the core as it leaves it, a start at which the array stalls until
a slot can be read or written, or a start. -/
inductive Judged where
  | bad (c : Cause) (code : Nat) (k : Core)
  | stall (r : MxRun)
  | go (r : MxRun) (c : Core)

/-- A slot that is not filled, or a full ring: the fault of a calendar region, else a stall (07 R181). -/
def Judged.noSlot (cal : Bool) (c : Core) (r : MxRun) : Judged := if cal then .bad .schedmiss 12 c else .stall r

def Core.bank (c : Core) (k : Nat) : Bank := if k = 0 then c.mx.b0 else c.mx.b1
def Core.setBank (c : Core) (k : Nat) (b : Bank) : Core :=
  if k = 0 then { c with mx := { c.mx with b0 := b } } else { c with mx := { c.mx with b1 := b } }

/-- Element (i, j) of wide tile w (02 R48). -/
def wideElem (m : MxSt) (w i j : Nat) : Int :=
  Fp.signedOf 128 ((List.range 4).foldl (fun v q => v + rowElem (m.row (4 * w + q) i) j * 2 ^ (32 * q)) 0)

/-- Rows of the four tiles of wide tile w that hold a list of elements in row order. -/
def wideRows (w : Nat) (xs : List Int) : List (Nat × Row) :=
  (List.range 128).flatMap fun i =>
    let line := ((xs.drop (128 * i)).take 128).map (Fp.wrapN 128)
    (List.range 4).map fun q => (128 * (4 * w + q) + i, rowOf (line.map fun v => bitsN v (32 * q) 32))

/-- Bytes of an FP32 tile or of a wide tile, as a slot holds them (07 Table 7.6). -/
def tileBytes (m : MxSt) (wide : Bool) (t : Nat) : List Byte :=
  if wide then
    (List.range 128).flatMap fun i => (List.range 128).flatMap fun j => leBytes 16 (Fp.wrapN 128 (wideElem m t i j))
  else (List.range 128).flatMap fun i => leBytes 512 (m.row t i).toNat

/-- Rows that the bytes of a slot put into a tile. -/
def tileRows (wide : Bool) (t : Nat) (bs : List Byte) : List (Nat × Row) :=
  if wide then
    wideRows t ((chunks 16 16384 bs).map (Fp.signedOf 128))
  else
    (List.range 128).map fun i => (128 * t + i, BitVec.ofNat 4096 (leVal ((bs.drop (512 * i)).take 512)))

/-- Rows that a wcvt writes. -/
def wcvtRows (m : MxSt) (t : Nat) (f : FmtWord) : List (Nat × Row) :=
  (List.range 128).map fun i =>
    (128 * t + i, rowOf ((List.range 128).map fun j => wideToF32 (wideElem m f.wsrc i j) f.anchor f.rm))

/-- Scales of a slot as a table. -/
def scaleTable (bs : List Byte) : SMap (BitVec 16) := tableOf 0 ((chunks 2 128 bs).map (BitVec.ofNat 16))

/-- The scales of every slot of a count command equal the latched ones, or latch them (07 R184 step 3): the bank after it. -/
def latchScales (b : Bank) (xs : List (SMap (BitVec 16) × SMap (BitVec 16))) : Option Bank :=
  match xs with
  | [] => some b
  | (ea, eb) :: _ =>
    let b' := if b.scaled then b else { b with ea := ea, eb := eb, scaled := true }
    if xs.all fun p => decide (p.1 = b'.ea) && decide (p.2 = b'.eb) then some b' else none

/-- LASTCORR (07 Table 7.9). -/
def lastCorr (i j block x : Nat) : BitVec 32 :=
  BitVec.ofNat 32 (i % 128 + 2 ^ 8 * (j % 128) + 2 ^ 16 * (Nat.min block 255) + 2 ^ 24 * (x % 32))

/-- Saturating count of checksum events. -/
def satAdd32 (v : BitVec 32) (n : Nat) : BitVec 32 := BitVec.ofNat 32 (Nat.min (v.toNat + n) (2 ^ 32 - 1))

/-- The compare of a drain, as the counters show it whatever comes of the drain (07 Table 7.8). A drain has no block: LASTCORR names
block 0, and of several corrections the one of the highest cell and counter (log 117). -/
def MxSt.counted (m : MxSt) (ck : DrainCk) : MxSt :=
  let last := match ck.corr.getLast? with
    | some (i, j, x) => lastCorr i j 0 x
    | none => m.lastcorr
  { m with corr := satAdd32 m.corr ck.corr.length, ckerr := satAdd32 m.ckerr ck.kept, lastcorr := last }

/-- A command that writes a slot of `n` bytes of ring rg with these bytes: the slot is the one after those filled and reserved at its
start, and it is free once a slot has been popped (07 R181). -/
def Core.writeSlot (c : Core) (now rg n : Nat) (r : MxRun) (cal : Bool) (bytes : List Byte) : Judged :=
  let x := c.mx.ring rg
  let idx := match r.wslot with
    | some p => p.2
    | none => x.pos + x.fill + x.wsv
  let blocks := if r.waiting then r.blocks else [(bytes, [], [], [])]
  let r := { r with wslot := some (rg, idx), blocks := blocks }
  if x.pos + x.slots ≤ idx then .noSlot cal c r
  else .go r { c with reqs := c.reqs ++ unitReqs r.cmd.id claimRow (x.slotAddr idx) n now r.occ }

/-- The command's own checks at its judgement, in the order its text gives them, and what it holds until retirement. -/
def Core.ownChecks (c : Core) (now : Nat) (cmd : MxCmd) (f : FmtWord) (r : MxRun) (cal : Bool) : Judged :=
  let m := c.mx
  match cmd.op with
  | .scnt k _ =>
    let b := c.bank k.toNat
    if 63 < b.depth + f.nb then .bad .mxfault 5 c
    else if b.hold then (if b.scaled then .go r c else .bad .mxfault 4 c)
    else
      let sl := r.slots.drop 2
      if sl.any fun p => !slotFilled m p.1 (p.2 + f.nb - 1) then .noSlot cal c r
      else
        let sc := (List.range f.nb).map fun i =>
          (scaleTable (slotBytes c (sl.getD 0 (0, 0)).1 ((sl.getD 0 (0, 0)).2 + i) 256),
           scaleTable (slotBytes c (sl.getD 1 (0, 0)).1 ((sl.getD 1 (0, 0)).2 + i) 256))
        match latchScales b sc with
        | none => .bad .mxfault 4 c
        | some b' =>
          let reqs := sl.flatMap fun p => (List.range f.nb).flatMap fun i =>
            unitReqs cmd.id claimRow ((m.ring p.1).slotAddr (p.2 + i)) 256 now 0
          let c := c.setBank k.toNat b'
          .go r { c with reqs := c.reqs ++ reqs }
  | .mholdOn k _ =>
    let b := c.bank k.toNat
    if b.scaled then .go r (c.setBank k.toNat { b with hold := true }) else .bad .mxfault 4 c
  | .mholdOff k _ => .go r (c.setBank k.toNat { c.bank k.toNat with hold := false })
  | .ckctlOn _ => .go r { c with mx := { m with ck := .on } }
  | .ckctlDetect _ => .go r { c with mx := { m with ck := .detect } }
  | .ckctlOff _ => .go r { c with mx := { m with ck := .off } }
  | .mdrain k t _ =>
    let b := c.bank k.toNat
    let ck := drainCheck m.ck b
    let c := { c with mx := m.counted ck }
    if ck.bad then .bad .mxfault 8 c
    else
      match drainAll ck.bank f.anchor (wideElem m t.toNat) with
      | .error d => .bad .mxfault d c
      | .ok xs => .go { r with rows := wideRows t.toNat xs, bank := some ck.bank.cleared } c
  | .mmerge k _ =>
    match mergeBanks (c.bank k.toNat) (c.bank (1 - k.toNat)) with
    | .error d => .bad .mxfault d c
    | .ok _ => .go r c
  | .bload .. =>
    match r.slots with
    | (rg, idx) :: _ =>
      if !slotFilled m rg idx then .noSlot cal c r
      else
        match imageBank (slotBytes c rg idx 590400) with
        | none => .bad .mxfault 9 c
        | some b =>
          .go { r with bank := some b }
            { c with reqs := c.reqs ++ unitReqs cmd.id claimRow ((m.ring rg).slotAddr idx) 590400 now r.occ }
    | [] => .go r c
  | .aload w _ _ =>
    match r.slots with
    | (rg, idx) :: _ =>
      if !slotFilled m rg idx then .noSlot cal c r
      else
        let n := if w = 1#1 then 262144 else 65536
        .go r { c with reqs := c.reqs ++ unitReqs cmd.id 0 ((m.ring rg).slotAddr idx) n now r.occ }
    | [] => .go r c
  | .astore w t _ =>
    match writeRing cmd.op f with
    | some (rg, n) => c.writeSlot now rg n r cal (tileBytes m (w = 1#1) t.toNat)
    | none => .go r c
  | .bsave k _ =>
    match writeRing cmd.op f with
    | some (rg, n) => c.writeSlot now rg n r cal (bankImage (c.bank k.toNat))
    | none => .go r c
  | .wcvt t _ => .go { r with rows := wcvtRows m t.toNat f } c
  | _ => .go r c

/-- Rings read per block after the start: A and B, and for mma the scales. -/
def MxRun.perBlock (r : MxRun) : List (Nat × Nat) :=
  match r.cmd.op with
  | .mma .. => r.slots
  | .scnt .. => r.slots.take 2
  | _ => []

/-- In a calendar region the slots of block 0 are checked with the command's own checks, and after them (07 R175). -/
def Core.firstBlock (c : Core) (cal : Bool) : Judged → Judged
  | .go r k => if cal && r.perBlock.any (fun p => !slotFilled c.mx p.1 p.2) then .bad .schedmiss 12 c else .go r k
  | x => x

/-- Judgement at cycle `now` (07 R198 order): `late` carries the DETAIL of a schedule miss by R175. -/
def Core.judge (c : Core) (now : Nat) (cmd : MxCmd) (late : Option Nat) (cal : Bool) : Judged :=
  let kind := Instr.mxKind cmd.op
  let head := match c.q.fq with
    | (w, at_) :: _ => if at_ < now then some w else none
    | [] => none
  if kind ≠ 0 ∧ head = none then .bad .fmtuf 13 c
  else
    match late with
    | some d => .bad .schedmiss d c
    | none =>
      let w := head.getD 0
      match (if kind = 0 then .ok {} else readFmt kind w.toNat) with
      | .error d => .bad .mxfault d c
      | .ok f =>
        let (o, l) := mxTime cmd.op f
        let tiles := Instr.mxTiles cmd.op ++ (match cmd.op with
          | .wcvt .. => (List.range 4).map fun i => 4 * f.wsrc + i
          | _ => [])
        if tiles.any fun t => !c.tileBooked t 0 now (now + o + l) then .bad .schedmiss 11 c
        else
          let hold := (c.bank (Instr.mxBank cmd.op)).hold
          let rs := blockRings cmd.op f hold
          let small := (rs ++ (writeRing cmd.op f).toList).any fun p => (c.mx.ring p.1).slotsz < p.2
          if small then .bad .mxfault 3 c
          else
            let nb := if rs.isEmpty then 0 else if kind = 5 then 1 else f.nb
            let r : MxRun :=
              { cmd := cmd, s := now, fw := if kind = 0 then 0 else w, nb := nb, bc := blockCycles cmd.op f, occ := o, lat := l,
                slots := takeSlots c.mx nb (rs.map (·.1)) [] }
            c.firstBlock cal (c.ownChecks now cmd f r cal)

/-- The format word is popped by a tile command. -/
def Core.popFmt (c : Core) (now : Nat) (op : Instr) : Core :=
  if Instr.mxKind op = 0 then c
  else { c with q := { c.q with fq := c.q.fq.tail, fqPopAt := now, fqPopN := (if c.q.fqPopAt = now then c.q.fqPopN else 0) + 1 } }

/-- The array stalls in this cycle on a started command: every later cycle of the command, and the end of the occupancy, moves by one,
and `ev` is tried again (07 R181). -/
def State.stallRun (s : State) (n : Nat) (r : MxRun) (ev : Instr) : State :=
  let moved := s.agenda.map fun j => if mxJob n r.cmd.id j.ev then { j with due := j.due + 1 } else j
  let s := { s with agenda := moved.foldl (fun l j => insJob j l) [] }
  let s := s.modCore n fun c =>
    let c := { c with mx := { c.mx with runs := c.mx.runs.map fun (x : MxRun) =>
      if x.cmd.id = r.cmd.id then { r with stall := r.stall + 1 } else x } }
    { c with mx := { c.mx with occEnd := if c.mx.lastStart = r.s then c.mx.occEnd + 1 else c.mx.occEnd } }
  s.sched (s.stc + 1) phEngine ev

/-- The first later event of a command whose own checks have passed. -/
def State.placeRun (s : State) (n : Nat) (r : MxRun) : State :=
  match r.cmd.op with
  | .mma .. | .scnt .. => s.sched s.stc phEngine (.ringBlockRead n r.cmd.id 0)
  | _ => s.sched r.retire phMatrix (.matrixRetire n r.cmd.id)

/-- A start: its stamp, slots reserved, array held, later events placed. -/
def State.startRun (s : State) (n : Nat) (r : MxRun) (c : Core) : State :=
  let (st, s) := (s.setCore n c).stampFor n (unitOfEng engMxe)
  let r := { r with stamp := st }
  let c := (s.core n).popFmt s.stc r.cmd.op
  let c := r.slots.foldl (fun (c : Core) p => c.later (s.stc + 1) (.ringRsv p.1 true r.nb)) c
  let c := match r.wslot with
    | some p => c.later (s.stc + 1) (.ringWsv p.1 true 1)
    | none => c
  let c := { c with mx := { c.mx.leave s.stc 1 with
    queue := c.mx.queue.tail, runs := c.mx.runs ++ [r], occEnd := s.stc + r.occ, lastStart := s.stc } }
  let s := s.setCore n c
  let s := if r.waiting then s.stallRun n r (.ringBlockRead n r.cmd.id 0) else s.placeRun n r
  if c.mx.queue.isEmpty then s else s.kickMatrix n (s.stc + 1)

/-- The command at the head of the queue is judged when its cycle has come, else tried again then. -/
def State.commandStart (s : State) (n : Nat) : State :=
  let c := s.core n
  match c.mx.queue with
  | [] => s
  | cmd :: _ =>
    -- queued commands of a stopped task, or of one whose window is being placed again, keep their AT for the new T0 (07 R178)
    if c.tsk.stopAt.isSome || c.tsk.rebook.isSome then s else
    let s0 := c.sys.t0 + cmd.at_
    let q := Nat.max (cmd.handed + 1) (c.mx.lastStart + 1)
    let e := c.earliest cmd
    let j := if cmd.cal then Nat.max s0 q else Nat.max (Nat.max s0 q) e
    let blocked := !cmd.cal && (Instr.mxTiles cmd.op ++ c.wcvtTiles cmd.op).any fun t => c.vecTile t
    if s.stc < j then s.kickMatrix n j
    else if blocked then s.kickMatrix n (s.stc + 1)
    else
      let late := if !cmd.cal then none else if s0 < cmd.handed + 1 then some 10 else if s0 < q ∨ s0 < e then some 11 else none
      match c.judge s.stc cmd late cmd.cal with
      | .bad cause code k =>
        -- the format word is popped at the judgement cycle, whatever fault is met there (07 R175)
        (s.setCore n (if code = 13 then k else k.popFmt s.stc cmd.op)).matrixFault n cmd cause code 0
      | .stall r => s.startRun n { r with waiting := true } c
      | .go r c' => s.startRun n r c'

def execMatrixCommandStart (n : Nat) (s : State) : Out := .next (s.commandStart n)

/-! ### Block reads, additions and counts (07 R181, R183, R184) -/

def Core.run? (c : Core) (id : Nat) : Option MxRun := c.mx.runs.find? fun r => r.cmd.id = id
def Core.setRun (c : Core) (r : MxRun) : Core :=
  { c with mx := { c.mx with runs := c.mx.runs.map fun x => if x.cmd.id = r.cmd.id then r else x } }

def MxRun.fmt (r : MxRun) : FmtWord :=
  match readFmt (Instr.mxKind r.cmd.op) r.fw.toNat with
  | .ok f => f
  | .error _ => {}

/-- A started command at which the array stalls tries again for its slot. -/
def State.waitRun (s : State) (n : Nat) (r : MxRun) : State :=
  let c := s.core n
  match c.ownChecks s.stc r.cmd r.fmt r false with
  | .bad cause code k => (s.setCore n k).matrixFault n r.cmd cause code 0
  | .stall r => s.stallRun n r (.ringBlockRead n r.cmd.id 0)
  | .go r k => (s.setCore n (k.setRun { r with waiting := false })).placeRun n r

def State.blockRead (s : State) (n id b : Nat) : State :=
  let c := s.core n
  match c.run? id with
  | none => s
  | some r =>
    if r.waiting then s.waitRun n r else
    let f := r.fmt
    let empty := r.perBlock.any fun p => !slotFilled c.mx p.1 (p.2 + b)
    if empty then
      if r.cmd.cal then
        -- blocks before b still take effect, the last at this cycle + Lm (07 R177)
        let at_ := if b = 0 then s.stc else s.stc + r.lat
        (s.setCore n (c.setRun { r with fault := some (.schedmiss, 12, b) })).sched at_ phMatrix (.matrixRetire n id)
      else
        s.stallRun n r (.ringBlockRead n id b)
    else
      let sizes := (blockRings r.cmd.op f true).map (·.2)
      let idx := (List.range r.perBlock.length).zip (r.perBlock.zip sizes)
      -- operand number of a ring reference: 0 A, 1 B, 2 scales of A, 3 scales of B
      let opn (k : Nat) : Nat := if k < 2 then k else if k = 2 ∧ f.af = 0 then 2 else 3
      let reqs := idx.flatMap fun x =>
        unitReqs id (4 * b + opn x.1) ((c.mx.ring x.2.1.1).slotAddr (x.2.1.2 + b)) x.2.2 s.stc (if x.2.2 = 256 then 0 else r.bc)
      let c := c.setRun { r with read := b + 1, blocks := r.blocks ++ [([], [], [], [])] }
      let c := { c with reqs := c.reqs ++ reqs }
      let add : Instr := match r.cmd.op with
        | .mma .. => .mmaBlockAdd n id b
        | _ => .scntBlockCount n id b
      let s := (s.setCore n c).sched (s.stc + r.bc + r.lat) phMatrix add
      if b + 1 < r.nb then s.sched (s.stc + r.bc) phEngine (.ringBlockRead n id (b + 1)) else s

/-- The run stalls at its next block, or at its start, on a slot of a ring. -/
def State.mxBlocked (s : State) (n id b : Nat) : Bool :=
  let c := s.core n
  match c.run? id with
  | none => false
  | some r =>
    if r.cmd.cal then false
    else if r.waiting then (match c.ownChecks s.stc r.cmd r.fmt r false with
      | .stall _ => true
      | _ => false)
    else r.perBlock.any fun p => !slotFilled c.mx p.1 (p.2 + b)

/-- Every started command stalls on a ring's slot: none is served while the streams stand. -/
def State.mxStuck (s : State) (n : Nat) : Bool :=
  let c := s.core n
  !(c.reqs.any fun r => decide (r.rank = 1)) && c.mx.runs.all fun r =>
    s.agenda.any fun j => decide (j.due ≤ s.stc + 1) && (match j.ev with
      | .ringBlockRead n' id b => n' = n && id = r.cmd.id && s.mxBlocked n id b
      | _ => false)

/-- Event of a started command of core n. -/
def mxJobOf (n : Nat) : Instr → Bool
  | .ringBlockRead n' _ _ | .mmaBlockAdd n' _ _ | .scntBlockCount n' _ _ | .matrixRetire n' _ => n' = n
  | _ => false

def execRingBlockRead (n id b : Nat) (s : State) : Out := .next (s.blockRead n id b)

/-- Upsets of block b leave the list when a command reaches the block. -/
def MxSt.takeUpsets (m : MxSt) (b : Nat) : List Upset × MxSt :=
  (m.upsets.filter (fun u => u.block = b), { m with upsets := m.upsets.filter fun u => u.block ≠ b })

def tileOf (m : MxSt) (t : Nat) : List Row := (List.range 128).map fun i => m.row t i
def setTile (m : MxSt) (t : Nat) (rows : List Row) : MxSt :=
  ((List.range 128).zip rows).foldl (fun m p => m.setRow t p.1 p.2) m

/-- Block b's checked sums are added into the tile (07 R183, R194, R195). -/
def State.blockAdd (s : State) (n id b : Nat) : State :=
  let c := s.core n
  match c.run? id with
  | none => s
  | some r =>
    let f := r.fmt
    let t := Instr.mxT r.cmd.op
    let (us, m) := c.mx.takeUpsets b
    let blk := r.blocks.getD b ([], [], [], [])
    let dR := upsetD us upsetCol
    let dC := upsetD us upsetRow
    let out := ckOutcome m.ck dR dC
    if out = .escalate then (s.setCore n { c with mx := m }).matrixFault n r.cmd .mxfault 8 b
    else
      let rows := mmaAdd f (tileOf m t) (aRows f.af blk.1 blk.2.2.1) (bCols f.bf blk.2.1 blk.2.2.2) (upsetAdj us out dR)
      let m := setTile m t rows
      let m := match out with
        | .correct i j => { m with corr := satAdd32 m.corr 1, lastcorr := lastCorr i j b 31 }
        | .path => { m with ckerr := satAdd32 m.ckerr 1 }
        | _ => m
      let r := { r with added := b + 1, blocks := r.blocks.set b ([], [], [], []) }
      let s := s.setCore n ({ c with mx := m }.setRun r)
      if b + 1 = r.nb then s.sched s.stc phMatrix (.matrixRetire n id) else s

def execMmaBlockAdd (n id b : Nat) (s : State) : Out := .next (s.blockAdd n id b)

/-- Block b's counts and checksum counters change and DEPTH steps (07 R184). -/
def State.blockCount (s : State) (n id b : Nat) : State :=
  let c := s.core n
  match c.run? id with
  | none => s
  | some r =>
    let k := Instr.mxBank r.cmd.op
    let (us, m) := c.mx.takeUpsets b
    let blk := r.blocks.getD b ([], [], [], [])
    let c := { c with mx := m }
    let c := c.setBank k (scntAdd (c.bank k) blk.1 blk.2.1 us)
    let s := s.setCore n (c.setRun { r with added := b + 1, blocks := r.blocks.set b ([], [], [], []) })
    if b + 1 = r.nb then s.sched s.stc phMatrix (.matrixRetire n id) else s

def execScntBlockCount (n id b : Nat) (s : State) : Out := .next (s.blockCount n id b)

/-! ### Retirement (07 R173, R181, R186 to R192) -/

def putRows (m : MxSt) (rows : List (Nat × Row)) : MxSt :=
  rows.foldl (fun m p => { m with acc := SMap.put 0 m.acc p.1 p.2 }) m

def zeroRows (ts : List Nat) : List (Nat × Row) := ts.flatMap fun t => (List.range 128).map fun i => (128 * t + i, 0)

/-- What a command writes at its retirement. -/
def Core.retireWrites (c : Core) (r : MxRun) : Core :=
  let m := c.mx
  match r.cmd.op with
  | .azero t _ => { c with mx := putRows m (zeroRows [t.toNat]) }
  | .wzero t _ => { c with mx := putRows m (zeroRows ((List.range 4).map fun q => 4 * t.toNat + q)) }
  | .wcvt .. => { c with mx := putRows m r.rows }
  | .aload w t _ => { c with mx := putRows m (tileRows (w = 1#1) t.toNat (r.blocks.getD 0 ([], [], [], [])).1) }
  | .astore .. | .bsave .. =>
    match r.wslot with
    | some (rg, idx) => c.setSpm ((m.ring rg).slotAddr idx) (r.blocks.getD 0 ([], [], [], [])).1
    | none => c
  | .bload k _ =>
    match r.bank with
    | some b => c.setBank k.toNat b
    | none => c
  | .mdrain k _ _ =>
    match r.bank with
    | some b => { c with mx := putRows m r.rows }.setBank k.toNat { b with hold := (c.bank k.toNat).hold }
    | none => c
  | .mmerge k _ =>
    match mergeBanks (c.bank k.toNat) (c.bank (1 - k.toNat)) with
    | .ok (d, e) => (c.setBank k.toNat d).setBank (1 - k.toNat) e
    | .error _ => c
  | _ => c

/-- Retirement of a command, or the cycle of a fault met at a block. -/
def State.retireRun (s : State) (n id : Nat) : State :=
  let c := s.core n
  match c.run? id with
  | none => s
  | some r =>
    match r.fault with
    | some (cause, code, b) => s.matrixFault n r.cmd cause code b
    | none =>
      let c := c.retireWrites r
      let due := s.stc + 1
      let c := r.slots.foldl (fun (c : Core) p => (c.later due (.ringPop p.1 r.nb)).later due (.ringRsv p.1 false r.nb)) c
      let c := match r.wslot with
        | some p => (c.later due (.ringFill p.1 1)).later due (.ringWsv p.1 false 1)
        | none => c
      let c := c.later due (.engRetire engMxe)
      s.setCore n { c with mx := { c.mx with runs := c.mx.runs.filter fun x => x.cmd.id ≠ id } }

def execMatrixRetire (n id : Nat) (s : State) : Out := .next (s.retireRun n id)

end Sys2Proof.Machine
end

