-- ==== Sys2Proof/Machine/Dram.lean ====
section
/-! DEFINITION. Stacked DRAM as every agent sees it: physical addresses (12 R293), remapped and migrating frames (14 R360, R361;
17 R397), hot words (13 R322; 14 R362), poison marks (17 R394), multicast (14 R364), stamps (00 R10) and ring distances (01
R20, R32). Cells are keyed by PA[42:0]; the cells of other packages are what this package sees of the rack (log 24). -/

namespace Sys2Proof.Machine

/-! ### Physical addresses and ring paths -/

def paPkg (pa : Nat) : Nat := bitsN pa 39 4
def paDie (pa : Nat) : Nat := bitsN pa 36 3
/-- Frame number PA[42:16]. -/
def paFrame (pa : Nat) : Nat := pa / 65536
/-- Address that stands for a page of a version that was never written: above every cell, so it reads zeros (16 R377). -/
def zeroPa (die : Nat) : Nat := 2 ^ 43 + 2 ^ 36 * die
/-- First of the frames that hold version pages on a die: which frames the allocator takes is open, so they are keyed apart from
every mapped frame (16 R377, log 27). -/
def tileFrames (pkg die : Nat) : Nat := 2 ^ 44 + 2 ^ 39 * pkg + 2 ^ 36 * die
/-- A frame backs the address. -/
def realPa (pa : Nat) : Bool := decide (pa < 2 ^ 43) || decide (2 ^ 44 ≤ pa)
/-- Group of a physical address within its die (15 R370). -/
def paGroup (pa : Nat) : Nat := bitsN pa 8 28 % 192 / 16
/-- Number of a deterministic atomic unit: 12 x die + group. -/
def dauOf (pa : Nat) : Nat := 12 * paDie pa + paGroup pa

def partner (d : Nat) : Nat := (d + 4) % 8

/-- Boundary n lies between dn and d(n+1); a direction from a to b crosses these. -/
def boundaries (a b : Nat) (cw : Bool) : List Nat :=
  if cw then (List.range ((b + 8 - a) % 8)).map fun k => (a + k) % 8
  else (List.range ((a + 8 - b) % 8)).map fun k => (a + 7 - k) % 8

/-- Whether a direction is whole. -/
def State.pathOk (s : State) (a b : Nat) (cw : Bool) : Bool := (boundaries a b cw).all fun k => !s.cut.contains k

/-- Direction that a packet takes: the shorter, CW on a tie, the other when it is cut (14 R349, 01 R32). -/
def State.dirCw (s : State) (a b : Nat) : Bool :=
  let cw := decide ((b + 8 - a) % 8 ≤ (a + 8 - b) % 8)
  if s.pathOk a b cw then cw else !cw

/-- Hops between two dies. -/
def State.hops (s : State) (a b : Nat) : Nat := (boundaries a b (s.dirCw a b)).length

/-- A packet of the package ring: 48 c a hop, and behind those of its direction between the same two stations, so that they arrive in the
order they were sent (14 R349). Its arrival cycle. -/
def State.ringDue (s : State) (a b : Nat) (cw : Bool) : Nat × State :=
  let (k, s) := s.drawLat
  let key := 16 * a + 2 * b + cw.toNat
  let due := Nat.max (s.stc + 48 * (boundaries a b cw).length + k) (SMap.get 0 s.ringLast key)
  (due, { s with ringLast := SMap.put 0 s.ringLast key due })

/-- An event that a packet of the ring brings to die b from die a. -/
def State.schedRing (s : State) (a b : Nat) (ev : Instr) (inp : Input) : State :=
  let (due, s) := s.ringDue a b (s.dirCw a b)
  s.schedInp due phTask ev inp

/-- Die of a ring station, or of a bridge station: 8 on d0, 9 on d4. -/
def stationDie (k : Nat) : Nat := if k < 8 then k else 4 * (k - 8)

/-! ### Frames -/

/-- Where an access that names a physical address is served: a remapped frame (17 R397), the new frame of a page after its
switch (14 R360). -/
def State.resolve (s : State) (pa : Nat) : Nat :=
  let p0 := match SMap.get? (s.die (paDie pa)).remap (paFrame pa) with
    | some f => f * 65536 + pa % 65536
    | none => pa
  let p1 := match s.forwards.find? (fun f => decide (f.1 ≤ p0) && decide (p0 < f.1 + f.2.2)) with
    | some f => f.2.1 + (p0 - f.1)
    | none => p0
  match s.migrations.find? (fun m => m.switched && decide (m.old ≤ p1) && decide (p1 < m.old + m.size)) with
  | some m => m.new + (p1 - m.old)
  | none => p1

/-! ### Hot-word caches (14 R362) -/

/-- Set of a physical address. -/
def hotSet (pa : Nat) : Nat := bitsN pa 3 9
def hotFind (h : HotCache) (pa : Nat) : Option Word :=
  ((SMap.get [] h (hotSet pa)).find? fun e => e.1 = pa / 8).map (·.2)
def hotPut (h : HotCache) (pa : Nat) (v : Word) : HotCache :=
  SMap.ins h (hotSet pa) ((SMap.get [] h (hotSet pa)).map fun e => if e.1 = pa / 8 then (e.1, v) else e)

/-- The stack that holds the address is lost with its die (01 R33). -/
def State.stackLost (s : State) (pa : Nat) : Bool := realPa pa && decide (paPkg pa = s.pkg) && (s.die (paDie pa)).lost

/-- Bytes that the saver writes (12 R316). -/
def savedBytes : Nat := 15664256

/-- The save slot that holds an address. -/
def State.saveArea? (s : State) (pa : Nat) : Option SaveArea :=
  s.saveAreas.find? fun a => decide (a.base ≤ pa) && decide (pa < a.base + savedBytes)

/-- The slot with bytes of a range overwritten: it no longer holds there what the saver wrote. -/
def SaveArea.spoil (a : SaveArea) (lo n : Nat) : SaveArea :=
  if lo < a.base + savedBytes ∧ a.base < lo + n then
    { a with spoilt := (List.range n).foldl (fun m k =>
        if a.base ≤ lo + k ∧ lo + k < a.base + savedBytes then SMap.put false m (lo + k - a.base) true else m) a.spoilt }
  else a

/-- One byte at its owner: the hot-word cache that holds its word, else the stack, where a save slot holds what the saver wrote. What a read of a lost stack returns is open (log 89). -/
def State.dramByte (s : State) (pa : Nat) : Byte :=
  if s.stackLost pa then Config.lostByte s.stc pa else
  match hotFind (s.die (paDie pa)).stationHot pa with
  | some v => v.extractLsb' (8 * (pa % 8)) 8
  | none =>
    match s.saveArea? pa with
    | some a => if SMap.get false a.spoilt (pa - a.base) then Memory.byte s.dram pa else Config.savedByte a.key (pa - a.base)
    | none => Memory.byte s.dram pa

def State.dramBytesAt (s : State) (pa : Nat) : Nat → List Byte
  | 0 => []
  | n + 1 => s.dramByte pa :: s.dramBytesAt (pa + 1) n

/-- n bytes of one page from a physical address upward. -/
def State.dramBytes (s : State) (pa n : Nat) : List Byte := s.dramBytesAt (s.resolve pa) n
/-- Little-endian value of n bytes. -/
def State.dramRead (s : State) (pa n : Nat) : Nat := leVal (s.dramBytes pa n)

/-- Write of one byte at its owner. -/
def State.dramPut (s : State) (pa : Nat) (b : Byte) : State :=
  let d := paDie pa
  match hotFind (s.die d).stationHot pa with
  | some v =>
    let sh := 8 * (pa % 8)
    let v' : Word := (v &&& ~~~(0xFF#64 <<< sh)) ||| (b.setWidth 64 <<< sh)
    s.modDie d fun x => { x with stationHot := hotPut x.stationHot pa v' }
  | none =>
    { s with dram := Memory.setByte s.dram pa b,
             saveAreas := s.saveAreas.map fun a => a.spoil pa 1 }

/-- Cells of n bytes of the stack, by offset, the hot words aside. -/
def State.frameCells (s : State) (f n : Nat) : List Host.Cell :=
  if s.saveAreas.any fun a => decide (f < a.base + savedBytes) && decide (a.base < f + n) then
    (List.range n).foldl (fun m k => Memory.setByte m k (s.dramByte (f + k))) []
  else (s.dram.filter fun c => decide (f ≤ c.1) && decide (c.1 < f + n)).map fun c => (c.1 - f, c.2)

def State.dramPutAll (s : State) (pa : Nat) : List Byte → State
  | [] => s
  | b :: t => (s.dramPut pa b).dramPutAll (pa + 1) t

/-! ### Poison marks: one per 32-byte codeword (17 R394, R396) -/

/-- The first marked codeword that an access of n bytes touches, by its address where it is served. -/
def State.badWord (s : State) (pa n : Nat) : Option Nat :=
  let p := s.resolve pa
  let d := s.die (paDie p)
  ((List.range ((p % 32 + n + 31) / 32)).find? fun k => SMap.get false d.poison (p / 32 + k)).map fun k => 32 * (p / 32 + k)
def State.poisoned (s : State) (pa n : Nat) : Bool := (s.badWord pa n).isSome

/-- Marked codewords of a page, by their index in it. -/
def State.pageMarks (s : State) (pa size : Nat) : List Nat :=
  (List.range (size / 65536)).flatMap fun k =>
    let r := s.resolve (pa + 65536 * k)
    ((s.die (paDie r)).poison.filter fun p => p.2 && decide (r ≤ 32 * p.1) && decide (32 * p.1 < r + 65536)).map fun p =>
      p.1 - r / 32 + 2048 * k

/-- Marks of the codewords that a write covers whole are cleared. -/
def State.unpoison (s : State) (pa n : Nat) : State :=
  if (s.die (paDie pa)).poison.isEmpty then s
  else
    s.modDie (paDie pa) fun d => { d with poison := d.poison.filter fun p =>
      !(decide (pa ≤ 32 * p.1) && decide (32 * p.1 + 32 ≤ pa + n)) }

/-! ### Writes -/

/-- The migration whose old frame a physical address lies in, before its switch. -/
def State.migrating (s : State) (pa : Nat) : Option Migration :=
  s.migrations.find? fun m => m.begun && !m.switched && decide (m.old ≤ pa) && decide (pa < m.old + m.size)

def State.setMigration (s : State) (m : Migration) : State :=
  { s with migrations := s.migrations.map fun x => if x.die = m.die then m else x }

/-- Entries replayed since the last look, at 4 per cycle, are freed (14 R360 step 4). -/
def Migration.catchUp (m : Migration) (now : Nat) : Migration :=
  if m.copied then { m with log := m.log.drop (4 * (now - m.replayAt)), replayAt := now } else m

/-- A write of n bytes reaches its home unit: whether the migration log of its page has no room (14 R361). -/
def State.logFull (s : State) (pa : Nat) : Bool :=
  match s.migrating (s.resolve pa) with
  | some m => decide (4096 ≤ (m.catchUp s.stc).log.length)
  | none => false

/-- A write takes effect at its owner, and is logged while its page migrates. A lost stack keeps nothing (log 89). -/
def State.applyWrite (s : State) (pa : Nat) (bs : List Byte) (st : Stamp) : State :=
  let p := s.resolve pa
  if s.stackLost p then s else
  let s1 := match s.migrating p with
    | some m =>
      let m := m.catchUp s.stc
      s.setMigration { m with log := m.log ++ [(p, bs, st)] }
    | none => s
  let s2 := s1.modDie (paDie p) fun d => { d with lastDram := s.stc }
  (s2.dramPutAll p bs).unpoison p bs.length

/-- Group whose root frame holds a physical address (14 R364). -/
def State.rootGroup (s : State) (pa : Nat) : Option (Nat × List Nat) :=
  s.groups.find? fun g => match g.2 with
    | r :: _ => decide (r ≤ pa) && decide (pa < r + 65536)
    | [] => false

/-- A write that a full log refuses is sent again 1024 c later with its stamp unchanged (14 R361). -/
def State.refuseWrite (s : State) (pa : Nat) (bs : List Byte) (st : Stamp) (owner : Option (Nat × Nat)) (tell : Option Nat := none) : State :=
  let (i, s) := s.fresh
  let s := { s with retries := s.retries ++ [({ id := i, pa := pa, bytes := bs, stamp := st, owner := owner, tell := tell } : RetryWrite)] }
  { s with agenda := insJob { due := s.stc + 1024, phase := phMemory, ev := .migrationLogRetry, inp := { id := i }, key := st } s.agenda }

/-- A write to one place. -/
def State.writeOne (s : State) (pa : Nat) (bs : List Byte) (st : Stamp) (owner : Option (Nat × Nat)) : State :=
  if s.logFull pa then s.refuseWrite pa bs st owner else s.applyWrite pa bs st

/-- A store, scatter element or copy unit: to a root frame it goes by the root's station to every member (14 R364). -/
def State.dramWrite (s : State) (pa : Nat) (bs : List Byte) (st : Stamp) (owner : Option (Nat × Nat)) : State :=
  match s.rootGroup pa with
  | some (g, _) =>
    let d := paDie pa
    -- order of arrival: no earlier than a write of the group already on its way
    let (n, s) := s.drawLat
    let last := s.agenda.foldl (fun m j => if j.ev = .multicastWrite ∧ j.inp.id = g then Nat.max m j.due else m) (s.stc + n)
    let (core, id) := owner.getD (0, 0)
    let inp : Input := { die := d, id := g, addr := BitVec.ofNat 64 pa, bytes := bs, stamp := st,
                         core := if owner.isSome then some core else none, peer := id }
    { s with agenda := insJob { due := last, phase := phMemory, ev := .multicastWrite, inp := inp, key := st } s.agenda }
  | none => s.writeOne pa bs st owner

/-! ### Units outside tasks (14 R353) -/

/-- Issuer index of a unit outside tasks. -/
def unitIssuer (unit sub die : Nat) : BitVec 24 := BitVec.ofNat 24 (die + sub * 8 + 2 ^ 20 * unit)

/-- The next stamp of a unit outside tasks: each issuer counts its own seq (00 R10). -/
def State.unitStamp (s : State) (unit sub die : Nat) : Stamp × State :=
  let i := unitIssuer unit sub die
  let q : BitVec 16 := SMap.get 0 s.unitSeq i.toNat
  ({ stc := s.stc, issuer := i, seqno := q, pkg := s.pkg }, { s with unitSeq := SMap.put 0 s.unitSeq i.toNat (q + 1#16) })

/-- The die whose host endpoint, DCP and Boxwood act for the package: d0, or d4 once d0 is lost (01 R19). -/
def State.lead (s : State) : Nat := if (s.die 0).lost then 4 else 0

/-- A write of the device to this address cannot be made now. -/
def State.deviceHeld (s : State) (pa : Nat) : Bool :=
  s.logFull pa || s.retries.any fun r => r.stamp.issuer = unitIssuer 11 0 s.lead

/-- A write of the device itself. One that a full log refused holds the later ones of the same unit behind it, so that they are applied in
the order sent (12 R294). -/
def State.deviceWrite (s : State) (pa : Nat) (bs : List Byte) : State :=
  let (st, s) := s.unitStamp 11 0 s.lead
  if s.deviceHeld pa then s.refuseWrite pa bs st none else s.applyWrite pa bs st

/-- What the device reads back of its own writes: those that a full log refused count as made. -/
def State.deviceRead (s : State) (pa n : Nat) : Nat :=
  let i := unitIssuer 11 0 s.lead
  leVal (((s.dramBytes pa n).zip (List.range n)).map fun p =>
    s.retries.foldl (fun b r =>
      if r.stamp.issuer = i ∧ r.pa ≤ pa + p.2 ∧ pa + p.2 < r.pa + r.bytes.length then r.bytes.getD (pa + p.2 - r.pa) b else b) p.1)

/-! ### Lists in order -/

/-- Insertion into a list sorted by a strict order, after equals. -/
def insertBy {α : Type} (lt : α → α → Bool) (x : α) : List α → List α
  | [] => [x]
  | y :: t => if lt x y then x :: y :: t else y :: insertBy lt x t
def sortBy {α : Type} (lt : α → α → Bool) (l : List α) : List α := l.foldl (fun acc x => insertBy lt x acc) []

end Sys2Proof.Machine
end

