-- ==== Sys2Proof/Machine/Translate.lean ====
section
/-! DEFINITION. Translation (12 R292, R293; 09 R273; 14 R358), the tile aperture (16 R377), pins (09 R274), shadows (08 R210,
R215) and commands not yet performed. -/

namespace Sys2Proof.Machine

/-! ### The walk (12 Tables 12.2 and 12.3) -/

def pteValid (e : Nat) : Bool := decide (e % 2 = 1) && decide (bitsN e 3 9 = 0) && decide (e / 2 ^ 43 = 0)
def pteLeaf (e : Nat) : Bool := e / 2 % 2 = 1
def pteWrite (e : Nat) : Bool := e / 4 % 2 = 1
def ptePa (e : Nat) : Nat := e / 4096 * 4096 % 2 ^ 43
/-- A non-leaf entry whose table is aligned. -/
def pteNext (e algn : Nat) : Bool := pteValid e && !pteLeaf e && decide (ptePa e % algn = 0)

/-- A leaf names a frame of the bad-frame list that no remap entry serves (17 R398, log 25). -/
def State.badFrame (s : State) (pa size : Nat) : Bool :=
  s.bx.badFrames.any fun b =>
    decide (pa / 65536 ≤ b.1) && decide (b.1 < (pa + size) / 65536) && (SMap.get? (s.die (paDie (b.1 * 65536))).remap b.1).isNone

/-- A marked codeword that a walk reads (17 R394). -/
def State.walkBad (s : State) (root va : Nat) : Option Nat :=
  let a0 := root + 8 * bitsN va 51 6
  let e0 := s.dramRead a0 8
  let a1 := ptePa e0 + 8 * bitsN va 38 13
  let e1 := s.dramRead a1 8
  let a2 := ptePa e1 + 8 * bitsN va 25 13
  let e2 := s.dramRead a2 8
  let reads := if !pteNext e0 65536 then [a0] else if !pteNext e1 65536 then [a0, a1]
    else if !pteValid e2 || pteLeaf e2 || decide (ptePa e2 % 4096 ≠ 0) then [a0, a1, a2]
    else [a0, a1, a2, ptePa e2 + 8 * bitsN va 16 9]
  reads.findSome? fun a => s.badWord a 8

/-- The leaf that maps a virtual address. -/
def State.walk (s : State) (root va : Nat) : Option PageTr :=
  let e0 := s.dramRead (root + 8 * bitsN va 51 6) 8
  if !pteNext e0 65536 then none
  else
    let e1 := s.dramRead (ptePa e0 + 8 * bitsN va 38 13) 8
    if !pteNext e1 65536 then none
    else
      let e2 := s.dramRead (ptePa e1 + 8 * bitsN va 25 13) 8
      let w2 := pteWrite e0 && pteWrite e1 && pteWrite e2
      if !pteValid e2 then none
      else if pteLeaf e2 then
        if ptePa e2 % 2 ^ 25 ≠ 0 ∨ s.badFrame (ptePa e2) (2 ^ 25) then none
        else some { va := va / 2 ^ 25 * 2 ^ 25, pa := ptePa e2, size := 2 ^ 25, write := w2 }
      else if ptePa e2 % 4096 ≠ 0 then none
      else
        let e3 := s.dramRead (ptePa e2 + 8 * bitsN va 16 9) 8
        if !pteValid e3 ∨ !pteLeaf e3 ∨ ptePa e3 % 65536 ≠ 0 ∨ s.badFrame (ptePa e3) 65536 then none
        else some { va := va / 65536 * 65536, pa := ptePa e3, size := 65536, write := w2 && pteWrite e3 }

/-! ### The tile aperture (16 R377) -/

/-- Mirror descriptor of a context, or the defaults. -/
def State.mirrorOf (s : State) (ctx : Nat) : MirrorDesc := ((s.ctx? ctx).bind (·.mirror)).getD {}

def State.rec? (s : State) (id : Nat) : Option TaskRec := s.recs.find? fun r => r.id = id
def State.setRec (s : State) (r : TaskRec) : State := { s with recs := s.recs.map fun x => if x.id = r.id then r else x }
/-- Record of the task that core n runs. -/
def State.recOf (s : State) (n : Nat) : Option TaskRec := (s.core n).tsk.task.bind s.rec?

/-- Version that an aperture address of a record names, whether it is an output, and the slot's base. -/
def State.slotFor (s : State) (ctx : Nat) (r : TaskRec) (va : Nat) : Option (Nat × Bool × Nat) :=
  let md := s.mirrorOf ctx
  if va < md.tapbase then none
  else
    let k := (va - md.tapbase) / 2 ^ md.tslog
    match r.tiles[k]? with
    | some (name, out) => some (name, out, md.tapbase + k * 2 ^ md.tslog)
    | none => none
/-- The same of core n's task. -/
def State.slotOf (s : State) (n va : Nat) : Option (Nat × Bool × Nat) :=
  match s.recOf n with
  | none => none
  | some r => s.slotFor (s.core n).sys.ctx.toNat r va

def State.dirEnt (s : State) (name : Nat) : Option DirEnt := s.dir.find? fun e => e.name = name
def State.setDir (s : State) (e : DirEnt) : State := { s with dir := s.dir.map fun x => if x.name = e.name then e else x }
def State.modDir (s : State) (name : Nat) (f : DirEnt → DirEnt) : State :=
  { s with dir := s.dir.map fun x => if x.name = name then f x else x }
/-- Tile ID of a name, and its home die (16 R376). -/
def tileId (name : Nat) : Nat := name % 2 ^ 40
def tileVer (name : Nat) : Nat := name / 2 ^ 40 % 2 ^ 24
def State.homeOf (s : State) (name : Nat) : Nat := SMap.get (tileId name % 256 % 8) s.ht (tileId name % 256)

/-- An event about a version that the Darner of its home brings: of one cycle they are taken in stamp order (16 R379; 14 R353). -/
def State.schedDarner (s : State) (due : Nat) (ev : Instr) (name : Nat) (inp : Input := {}) : State :=
  { s with agenda := insJob { due := due, phase := phTask, ev := ev, inp := inp,
                              key := { stc := due, issuer := unitIssuer 11 2 (s.homeOf name) } } s.agenda }

/-- Translation of an aperture address: the frame of its page, or zeros; output slots may be written. -/
def State.apertureTr (s : State) (va name base : Nat) (out : Bool) : Option PageTr :=
  let p := (va - base) / 65536
  match s.dirEnt name with
  | none => none
  | some e =>
    let pa := (SMap.get? e.frames p).getD (zeroPa (s.homeOf name))
    some { va := base + p * 65536, pa := pa, size := 65536, write := out }

/-! ### Translation for a task (08 R203; 09 R273) -/

/-- Answer of a translation: the page; a fault of cause ADDR; a cache miss with the page that the walk finds; a page of another
package whose frame is not known here; a walk that meets a marked codeword. -/
inductive Xlat where
  | ok (p : PageTr)
  | bad
  | miss (p : PageTr)
  | remote (pkg page : Nat)
  | marked (pa : Nat)
  deriving DecidableEq, Repr

/-- Bytes of an exported frame (14 R357). -/
def ExportEnt.bytes (e : ExportEnt) : Nat := if e.large then 2 ^ 25 else 65536

/-- A bridge of this package that serves: its die lives and its link is up. -/
def State.bridgeUp (s : State) (d : Nat) : Bool := !(s.die d).lost && !(SMap.get {} s.links d).down

/-- A rack direction to a package is whole: this package's bridge, and every boundary on the way (14 R352). -/
def State.rackPathOk (s : State) (pkg : Nat) (cw : Bool) : Bool :=
  let n := Nat.max s.nPkg 1
  s.bridgeUp (if cw then 0 else 4) &&
    (if cw then (List.range ((pkg + n - s.pkg) % n)).all fun k => !s.rackCut.contains ((s.pkg + k) % n)
     else (List.range ((s.pkg + n - pkg) % n)).all fun k => !s.rackCut.contains ((pkg + k) % n))

/-- Bridge by which a package is reached: d0 for rack CW, d4 for CCW; the shorter direction, CW on a tie, or the other one where that is no
more than a line (14 R352). -/
def State.bridgeTo (s : State) (pkg : Nat) : Nat × Bool :=
  let n := Nat.max s.nPkg 1
  let cw := decide ((pkg + n - s.pkg) % n ≤ (s.pkg + n - pkg) % n)
  let cw := if s.rackPathOk pkg cw then cw else !cw
  (if cw then 0 else 4, cw)

/-- Frame of a leaf that names a page of another package (14 R358). -/
def State.remoteTr (s : State) (p : PageTr) : Xlat :=
  let pkg := paPkg p.pa
  if pkg = s.pkg then .ok p
  else
    let e := bitsN p.pa 16 23
    match s.rtc.find? (fun x => x.pkg = pkg && x.page = e && !x.dropping && (x.frame.isSome || x.at_ = s.stc)) with
    | some x => (match x.frame with
      | some f => .ok { p with pa := 2 ^ 39 * pkg + f % 2 ^ 39, write := p.write && x.write }
      | none => .bad)
    | none => .remote pkg e

/-- The cache entry of a page of an aperture slot (09 R273, log 90). -/
def slotEntry (va : Nat) (out : Bool) : PageTr := { va := va, pa := 0, size := 65536, write := out }

/-- Translation of one address by core n. -/
def State.xlate (s : State) (n va : Nat) (write : Bool) : Xlat :=
  if 2 ^ 57 ≤ va then .bad
  else
    match s.slotOf n va with
    | some (name, out, base) => (match s.apertureTr va name base out with
      | some p =>
        let e := slotEntry p.va out
        if write && !p.write then .bad else if (s.core n).tsk.tcache.contains e then .ok p else .miss e
      | none => .bad)
    | none =>
      let c := s.core n
      let perm (x : Xlat) : Xlat := match x with
        | .ok p => if write && !p.write then .bad else .ok p
        | x => x
      match c.tsk.tcache.find? (fun p => decide (p.va ≤ va) && decide (va < p.va + p.size)) with
      | some p => perm (s.remoteTr p)
      | none =>
        let x := s.ctx? c.sys.ctx.toNat
        match x.bind (fun x => s.walkBad x.ptroot va), x.bind (fun x => s.walk x.ptroot va) with
        | some a, _ => .marked a
        | none, some p => .miss p
        | none, none => if c.sys.region then .bad else .miss { va := va, pa := 0, size := 0, write := false }

/-- Translation of a range: its pages, or the first answer that is none. -/
def State.xlateRange (s : State) (n : Nat) (write : Bool) : Nat → Nat → Nat → List PageTr → Except Xlat (List PageTr)
  | 0, _, _, acc => .ok acc
  | fuel + 1, va, hi, acc =>
    if hi ≤ va then .ok acc
    else
      match s.xlate n va write with
      | .ok p => s.xlateRange n write fuel (p.va + p.size) hi (if acc.contains p then acc else acc ++ [p])
      | x => .error x

def State.xlateAll (s : State) (n : Nat) (write : Bool) : List (Nat × Nat) → List PageTr → Except Xlat (List PageTr)
  | [], acc => .ok acc
  | (va, len) :: t, acc =>
    match s.xlateRange n write (len / 65536 + 2) va (va + len) acc with
    | .ok acc => s.xlateAll n write t acc
    | .error x => .error x

/-- The cache takes an entry; with 512 held one of them leaves, whichever (log 4). -/
def State.fillCache (s : State) (n : Nat) (p : PageTr) : State :=
  let c := s.core n
  let l := c.tsk.tcache
  let l := if l.length < 512 then l else l.eraseIdx (Config.freeChoice s.freeCtr % 512)
  { s.setCore n { c with tsk := { c.tsk with tcache := l ++ [p] } } with freeCtr := s.freeCtr + 1 }

/-- A miss in a scoreboard region: the walk fills the cache and the word is tried again after it (09 R273). -/
def State.walkWait (s : State) (n : Nat) (q : Seq) (p : PageTr) : State :=
  let (k, s) := (s.fillCache n p).drawLat
  s.modCore n fun c => c.modSeq q fun x => { x with retry := s.stc + k }

/-- Packages on the way to another one in a rack direction. -/
def State.rackHops (s : State) (pkg : Nat) (cw : Bool) : Nat :=
  let n := Nat.max s.nPkg 1
  if cw then (pkg + n - s.pkg) % n else (s.pkg + n - pkg) % n

/-- What another package answers comes back later: every bridge crossing there and back takes 128 c or more (19 R430). -/
def State.schedRack (s : State) (pkg : Nat) (ev : Instr) (inp : Input) : State :=
  let (k, s) := s.drawLat
  s.schedInp (s.stc + 256 * s.rackHops pkg (s.bridgeTo pkg).2 + k) phTask ev inp

/-- Packets for another package, of at most 4 KiB each (14 R349), go by the delivery context of the bridge that they leave by (14 R355). -/
def State.sendTo (s : State) (pkg : Nat) (core : Option Nat) (bytes : Nat) : State :=
  let (b, cw) := s.bridgeTo pkg
  let packet (k : Nat) : Input := { bridge := b, peer := pkg, ccw := !cw, core := core, size := Nat.min 4096 (bytes - 4096 * k) }
  (List.range (Nat.max 1 ((bytes + 4095) / 4096))).foldl (fun s k => s.schedInp s.stc phTask .deliveryContextOpen (packet k)) s

/-- A miss of the remote cache: one request goes to the target, unless one is on its way or the entry is being dropped (14 R358). -/
def State.askRemote (s : State) (pkg page : Nat) : State :=
  let (b, _) := s.bridgeTo pkg
  let inp : Input := { bridge := b, pkg := pkg, page := page }
  let asked := s.agenda.any fun j => (j.ev = .remoteTranslationReq || j.ev = .remoteTranslationReply) && j.inp.pkg = pkg && j.inp.page = page
  if asked || s.rtc.any (fun x => x.pkg = pkg && x.page = page && x.dropping) then s
  else (s.sendTo pkg none 0).schedInpFree phTask .remoteTranslationReq inp

/-- Translations that name pages of another package are asked for, as the loader does for what is declared (14 R358 step 4). -/
def State.askAll (s : State) (ps : List PageTr) : State :=
  ps.foldl (fun s p => match s.remoteTr p with
    | .remote pkg page => if realPa p.pa then s.askRemote pkg page else s
    | _ => s) s

/-- Bytes of some ranges that lie in a page. -/
def PageTr.part (p : PageTr) (rs : List (Nat × Nat)) : Nat :=
  rs.foldl (fun n r => n + (Nat.min (r.1 + r.2) (p.va + p.size) - Nat.max r.1 p.va)) 0

/-- An access of a core to another package sends packets: with the bytes of these ranges that it writes there. -/
def State.useBridge (s : State) (n : Nat) (ps : List PageTr) (writes : List (Nat × Nat)) : State :=
  let far := ps.filter fun p => realPa p.pa && decide (paPkg p.pa ≠ s.pkg)
  (far.map fun p => paPkg p.pa).eraseDups.foldl (fun s pkg =>
    s.sendTo pkg (some n) ((far.filter fun p => paPkg p.pa = pkg).foldl (fun k p => k + p.part writes) 0)) s

/-! ### Pins (09 R274) -/

/-- Pages to pin: by frame, and a page that no frame backs by its virtual address above them all. -/
def pinKeys (ps : List PageTr) : List Nat := ps.map fun p => if realPa p.pa then p.pa else 2 ^ 60 + p.va

/-- The table has an entry, or room for one, for every page. -/
def Core.pinRoom (c : Core) (ks : List Nat) : Bool :=
  decide (c.tsk.pins.length + ((ks.filter fun k => (SMap.get? c.tsk.pins k).isNone).eraseDups).length ≤ 256)
def Core.pin (c : Core) (ks : List Nat) : Core :=
  { c with tsk := { c.tsk with pins := ks.foldl (fun m k => SMap.put 0 m k (SMap.get 0 m k + 1)) c.tsk.pins } }
/-- The pages of a command are released at its retirement, each by its own event. -/
def State.unpin (s : State) (n : Nat) (ks : List Nat) : State :=
  ks.foldl (fun s k => s.schedInp s.stc phTask .pinRelease { core := some n, page := k }) s

/-- Whoever waits for the pins of these pages looks again. -/
def State.pinsFell (s : State) (ks : List Nat) : State :=
  ks.foldl (fun s k => s.schedInp s.stc phTask .pinRelease { page := k }) s

/-- The task of a record, on its core or as it was saved. -/
def State.modTask (s : State) (id : Nat) (f : Core → Core) : State :=
  { s with cores := s.cores.map fun p => if p.2.tsk.task = some id then (p.1, f p.2) else p,
           recs := s.recs.map fun r =>
             if r.id = id then { r with residue := r.residue.map fun x => { x with core := f x.core } } else r }

/-- The core of a task's state, on its core or as it was saved. -/
def State.taskCore (s : State) (id : Nat) : Option Core :=
  match s.cores.find? fun p => p.2.tsk.task = some id with
  | some p => some p.2
  | none => ((s.rec? id).bind (·.residue)).map (·.core)

/-- Pins of a task's table fall by one each. -/
def Core.dropPins (c : Core) (ks : List Nat) : Core :=
  { c with tsk := { c.tsk with pins := ks.foldl (fun m k => SMap.put 0 m k (SMap.get 0 m k - 1)) c.tsk.pins } }

/-- A page is pinned on some core, by an open window, or by an rwclose at work. -/
def State.pinned (s : State) (k : Nat) : Bool :=
  s.cores.any (fun c => SMap.get 0 c.2.tsk.pins k ≠ 0 || c.2.cmds.any fun m => m.pins.contains k) ||
    s.rwins.any fun w => (pinKeys w.pages).contains k

/-- Codes of the end step beside those of Table 12.7: an operand lost, a context destroyed, a context quarantined, a restart
from the first start, the whole package stopped. -/
def endLost : Nat := 0x100
def endCtx : Nat := 0x101
def endQuarantine : Nat := 0x102
def endRestart : Nat := 0x103
def endStop : Nat := 0x104
/-- A word that a recovery run may not issue (16 R386). -/
def endIllegal : Nat := 0x105
def errPoisonOp : Nat := 0x28
def errMemUe : Nat := 0x2D

/-- Why a read stops the task (08 R204; 18 R424). -/
inductive BadRead where
  | poisonedTile (name : Nat)
  | lostOperand (name : Nat)
  | codeword (pa : Nat)
  deriving DecidableEq, Repr

/-- The task stops at once (08 R204). -/
def State.stopBadRead (s : State) (n : Nat) (b : BadRead) : State :=
  match b with
  | .poisonedTile name => s.endTask n errPoisonOp (BitVec.ofNat 64 name) 0 0
  | .lostOperand name => s.endTask n endLost (BitVec.ofNat 64 name) 0 0
  | .codeword pa => s.endTask n errMemUe (BitVec.ofNat 64 pa) 0 0

/-- What a word does with its ranges translated: the pages pinned, or the fate of R203. `scope` is its SCOPE: a page of another
package takes 5 (08 R200). -/
def State.translated (s : State) (scope : Nat) (write : Bool) (rs : List (Nat × Nat)) (k : List PageTr → State → Res) : Res :=
  let n := s.turn.core
  match s.xlateAll n write rs [] with
  | .error .bad => .trap .addr 0 true
  | .error (.marked a) => .whole (s.stopBadRead n (.codeword a))
  | .error (.miss p) => if s.cal then .wait else .hold fun t => t.walkWait n s.turn.q p
  | .error (.remote pkg page) =>
    if scope < 5 then .trap .addr 0 true else if s.cal then .wait else .hold fun t => t.askRemote pkg page
  | .error (.ok _) => .wait
  | .ok ps =>
    if scope < 5 && ps.any (fun p => realPa p.pa && decide (paPkg p.pa ≠ s.pkg)) then .trap .addr 0 true
    else
      let ks := pinKeys ps
      if !s.cur.pinRoom ks then .wait else k ps ((s.useBridge n ps (if write then rs else [])).modCur fun c => c.pin ks)

/-! ### What a task reads and writes (08 R204, R210, R215) -/

def pageOf (ps : List PageTr) (va : Nat) : Option PageTr := ps.find? fun p => decide (p.va ≤ va) && decide (va < p.va + p.size)
def Core.shadowAt (c : Core) (va : Nat) : Option Shadow :=
  c.tsk.shadows.find? fun h => decide (h.va ≤ va) && decide (va < h.va + h.size)
def Core.setShadow (c : Core) (h : Shadow) : Core :=
  { c with tsk := { c.tsk with shadows := c.tsk.shadows.map fun x => if x.va = h.va then h else x } }

/-- The page that answers an address now: a page of a version that no frame backed at issue may have one since its publish (13
R335). -/
def State.livePage (s : State) (n : Nat) (ps : List PageTr) (va : Nat) : Option PageTr :=
  (pageOf ps va).map fun p =>
    if realPa p.pa then p
    else match s.slotOf n va with
      | some (name, out, base) => (s.apertureTr va name base out).getD p
      | none => p

/-- A write of a shadow: the marks of codewords that it covers whole are cleared (17 R396). -/
def Shadow.put (h : Shadow) (off : Nat) (bs : List Byte) : Shadow :=
  { h with mem := Memory.setBytes h.mem off bs,
           marks := h.marks.filter fun k => !(decide (off ≤ 32 * k) && decide (32 * k + 32 ≤ off + bs.length)) }
/-- The first marked codeword that a read of a shadow touches, by its address in the page. -/
def Shadow.badWord (h : Shadow) (off len : Nat) : Option Nat :=
  (h.marks.find? fun k => decide (off < 32 * k + 32) && decide (32 * k < off + len)).map fun k => h.pa + 32 * k

/-- Bytes of a piece that lies in one page. -/
def State.taskRead (s : State) (n : Nat) (ps : List PageTr) (va len : Nat) : List Byte :=
  match (s.core n).shadowAt va with
  | some h => Memory.bytes h.mem (va - h.va) len
  | none =>
    match s.livePage n ps va with
    | some p => s.dramBytes (p.pa + (va - p.va)) len
    | none => List.replicate len 0

def State.badRead (s : State) (n : Nat) (ps : List PageTr) (va len : Nat) : Option BadRead :=
  match (s.core n).shadowAt va with
  | some h => (h.badWord (va - h.va) len).map .codeword
  | none =>
    match s.slotOf n va with
    | some (name, false, _) =>
      if (s.dirEnt name).any (fun e => e.st = .poisoned) then some (.poisonedTile name)
      else if (s.dirEnt name).any (fun e => e.st = .lost) then some (.lostOperand name)
      else (match s.livePage n ps va with
        | some p => if s.poisoned (p.pa + (va - p.va)) len then some (.lostOperand name) else none
        | none => none)
    | _ => (s.livePage n ps va).bind fun p => (s.badWord (p.pa + (va - p.va)) len).map .codeword

/-- What an atomic, a pairing operation or a copy reads: the page itself, also where the task holds a shadow of it (08 R210); a slot of
the aperture has no page of its own (log 33). -/
def State.homeRead (s : State) (n : Nat) (ps : List PageTr) (va len : Nat) : List Byte :=
  if (s.slotOf n va).isSome then s.taskRead n ps va len
  else
    match pageOf ps va with
    | some p => s.dramBytes (p.pa + (va - p.va)) len
    | none => List.replicate len 0

def State.homeBad (s : State) (n : Nat) (ps : List PageTr) (va len : Nat) : Option BadRead :=
  if (s.slotOf n va).isSome then s.badRead n ps va len
  else
    (pageOf ps va).bind fun p => (s.badWord (p.pa + (va - p.va)) len).map .codeword

/-- A recovery, verification or redundant run met a word that it may not issue: it traps ILLOP and the run ends at once (16 R386,
17 R401). AUDIT is set all the same by a word that sets it (08 R202). -/
def State.runStop (s : State) (audit : Bool) : State :=
  let q := seqNum s.turn.q
  let s := if audit then s.setAudit s.turn.core else s
  s.endTask s.turn.core endIllegal (faultDetail (causeCode .illop) q 0 0 s.curSeq.pc.toNat 0 0 0) 0 q

/-- Cells of a page's content, by offset: its frames where they are served, with the words that a hot-word cache holds (13 R322). -/
def State.pageCells (s : State) (pa size : Nat) : List Host.Cell :=
  (List.range (size / 65536)).foldl (fun m k =>
    let r := s.resolve (pa + 65536 * k)
    let inFrame (a : Nat) : Bool := decide (r ≤ a) && decide (a < r + 65536)
    let m := (s.frameCells r 65536).foldl (fun m x => Memory.setByte m (x.1 + 65536 * k) x.2) m
    (s.die (paDie r)).stationHot.foldl (fun m e => e.2.foldl (fun m w =>
      if inFrame (8 * w.1) then Memory.write m (8 * w.1 - r + 65536 * k) 8 w.2.toNat else m) m) m) []

/-- Bytes of the core's shadow of a page. -/
def Core.shadowBytes (c : Core) (va n : Nat) : List Byte := ((c.shadowAt va).map fun h => Memory.bytes h.mem (va - h.va) n).getD []

/-- The core with a change of a word in its shadow of a page of an output slot, which opens with zeros. -/
def Core.shadowWord (c : Core) (p : PageTr) (name va size : Nat) (f : Nat → Nat) : Core :=
  let h := (c.shadowAt va).getD { va := p.va, pa := p.pa, size := p.size, mem := [], version := some name }
  let h := { h with mem := Memory.write h.mem (va - h.va) size (f (Memory.read h.mem (va - h.va) size)) }
  if (c.shadowAt va).isSome then c.setShadow h else { c with tsk := { c.tsk with shadows := c.tsk.shadows ++ [h] } }

/-- A write of the task to a page for which it holds a shadow lands there (08 R215). A recovery, verification or redundant
run performs no store outside the aperture (16 R386, 17 R401). -/
def State.taskWrite (s : State) (n : Nat) (ps : List PageTr) (va : Nat) (bs : List Byte) (st : Stamp) (id : Nat) : State :=
  let c := s.core n
  match c.shadowAt va with
  | some h => s.setCore n (c.setShadow (h.put (va - h.va) bs))
  | none =>
    match s.slotOf n va, pageOf ps va with
    | some (name, true, _), some p =>
      -- a shadow of an output page opens as a copy of the page (08 R215)
      let p := (s.livePage n ps va).getD p
      let (m, k) := if realPa p.pa then (s.pageCells p.pa 65536, s.pageMarks p.pa 65536) else ([], [])
      let h : Shadow := { va := p.va, pa := p.pa, size := p.size, mem := m, version := some name, marks := k }
      s.setCore n { c with tsk := { c.tsk with shadows := c.tsk.shadows ++ [h.put (va - p.va) bs] } }
    | none, some p => if c.tsk.run ≠ 0 then s else s.dramWrite (p.pa + (va - p.va)) bs st (some (n, id))
    | _, _ => s

/-- A write of the task to the page itself (08 R210), of a root frame to the root alone (14 R364), or in its shadow of an output slot
(log 33). -/
def State.homeWrite (s : State) (n : Nat) (ps : List PageTr) (va : Nat) (bs : List Byte) (st : Stamp) (id : Nat) : State :=
  if (s.slotOf n va).isSome then s.taskWrite n ps va bs st id
  else
    match pageOf ps va with
    | some p => if (s.core n).tsk.run ≠ 0 then s else s.writeOne (p.pa + (va - p.va)) bs st (some (n, id))
    | none => s

/-- Shadows opened for the pages of a copy with SHADOW = 1, each a copy of its page. -/
def State.openShadows (s : State) (n : Nat) (ps : List PageTr) : State :=
  ps.foldl (fun s p =>
    let c := s.core n
    if c.tsk.run ≠ 0 ∨ (c.shadowAt p.va).isSome ∨ (s.slotOf n p.va).isSome then s
    else
      s.setCore n { c with tsk := { c.tsk with
        shadows := c.tsk.shadows ++ [{ va := p.va, pa := p.pa, size := p.size, mem := s.pageCells p.pa p.size, version := none,
                                        marks := s.pageMarks p.pa p.size }] } }) s

/-! ### Commands (08 R201, R205, R240; 05 Table 5.6) -/

def Core.cmd? (c : Core) (id : Nat) : Option Cmd := c.cmds.find? fun m => m.id = id
def Core.setCmd (c : Core) (m : Cmd) : Core := { c with cmds := c.cmds.map fun x => if x.id = m.id then m else x }

/-- Engine code of commands that no engine counts: atomics and pairing operations. -/
def engNone : Nat := 7

/-- A command is accepted: its number, the engine's count raised. -/
def State.addCmd (s : State) (n : Nat) (m : Cmd) : Nat × State :=
  let c := s.core n
  let id := c.nextCmd
  let c := { c with cmds := c.cmds ++ [{ m with id := id, issued := s.stc }], nextCmd := id + 1 }
  let c := if m.eng < 7 then c.modEngine m.eng (fun x => { x with out := x.out + 1 }) else c
  (id, s.setCore n c)

/-- A command retires: its pins are released, but those of a reduction window, which the task that opened it holds until its rwclose retires
(08 R222); the engine's report falls in the next cycle (09 R267). -/
def State.retireCmd (s : State) (n id : Nat) : State :=
  let c := s.core n
  match c.cmd? id with
  | none => s
  | some m =>
    let c := { c with cmds := c.cmds.filter fun x => x.id ≠ id }
    let c := if m.eng < 7 then c.later (s.stc + 1) (.engRetire m.eng) else c
    match m.op with
    | .rwopen .. => s.setCore n c
    | .rwclose .. => ((s.setCore n c).modTask m.obj fun c => c.dropPins m.pins).pinsFell m.pins
    | _ => (s.setCore n c).unpin n m.pins

/-- Commands leave with their pins and bank requests; those that only hold their bank stay. -/
def State.discardCmds (s : State) (n : Nat) (gone : List Cmd) : State :=
  let s := gone.foldl (fun s x => s.retireCmd n x.id) s
  s.modCore n fun c =>
    { c with reqs := c.reqs.filter fun r => !(gone.any fun x => x.id = r.cmd) || decide (r.rank = 1) }

/-- A fault of engine e over a command: FLT set, the command and the later ones of e discarded (an atomic alone), the trap due in the
next cycle (08 R240). -/
def State.faultOf (s : State) (n id e : Nat) (cause : Cause) : State :=
  match (s.core n).cmd? id with
  | none => s
  | some m =>
    let gone := (s.core n).cmds.filter fun x => decide (x.id = id) || (decide (e < 7) && x.eng = e && decide (id ≤ x.id))
    let s := (s.discardCmds n gone).modCore n fun c =>
      (c.later (s.stc + 1) (.engFault e)).modEngine e fun x =>
        { x with fault := match x.fault with | some f => some f | none => some (cause, m.q) }
    s.sched (s.stc + 1) phEngine (.engineFaultTrap n e)

/-- A fault of the command's own engine. -/
def State.engineFault (s : State) (n id : Nat) (cause : Cause) : State :=
  match (s.core n).cmd? id with
  | none => s
  | some m => s.faultOf n id m.eng cause

/-- Commands of a sequencer not yet performed. -/
def Core.outstanding (c : Core) (q : Seq) : Bool := c.cmds.any fun m => m.q = q
/-- X's pushes to store queues not yet made. -/
def Core.pushesDue (c : Core) : Bool :=
  c.vec.words.any (fun w => (Instr.vops w.op).any fun o => o.d.any fun d => (opQueue d).isSome) ||
  c.vec.window.any fun w => w.results.any fun r => r.push.isSome
/-- Every earlier access and engine command of the sequencer has been performed (08 R201). -/
def Core.allPerformed (c : Core) (q : Seq) : Bool :=
  !c.outstanding q &&
  (match q with
   | .c => c.tsk.copies.isEmpty
   | .x => !c.pushesDue && c.mx.queue.isEmpty && c.mx.runs.isEmpty && c.vec.window.isEmpty
   | _ => true)

/-- An acquire of the sequencer is not yet performed (08 R201). -/
def Core.acquiring (c : Core) (q : Seq) : Bool :=
  match (c.seq q).acquire with
  | some id => c.cmds.any fun m => m.id = id
  | none => false

/-- Values of ORD: 1 acquire, 2 release, 3 both. -/
def ordAcq (o : BitVec 2) : Bool := o.getLsbD 0
def ordRel (o : BitVec 2) : Bool := o.getLsbD 1

/-- A marker holds the accesses of L or S: its pair has not formed, or the other side's accesses before its own marker are not
all performed (08 R212). -/
def Core.marked (c : Core) (q : Seq) : Bool :=
  let held (mine other : List (BitVec 8)) (ids : List Nat) (q' : Seq) : Bool :=
    let k := mine.length
    if k = 0 then false
    else if other.length < k then true
    else c.cmds.any fun m => m.q = q' && decide (m.id < ids.getD (k - 1) 0)
  match q with
  | .l => held c.tsk.qmL c.tsk.qmS c.tsk.qmSid .s
  | .s => held c.tsk.qmS c.tsk.qmL c.tsk.qmLid .l
  | _ => false

/-- Ranges meet. -/
def rangesMeet (a b : List (Nat × Nat)) : Bool :=
  a.any fun x => b.any fun y => decide (x.1 < y.1 + y.2) && decide (y.1 < x.1 + x.2)
/-- Location of an address: its byte of stacked DRAM, or for a page that no frame backs the virtual address above them all. -/
def locOf (ps : List PageTr) (va : Nat) : Nat :=
  match pageOf ps va with
  | some p => if realPa p.pa then p.pa + (va - p.va) else 2 ^ 60 + va
  | none => 2 ^ 60 + va

/-- Address of element i of a gather or scatter with an index value: EA + 4 x idx(i), modulo 2^64. -/
def Cmd.elemOf (m : Cmd) (idx : Nat) : Nat := (BitVec.ofNat 64 m.addr + (BitVec.ofNat 32 idx).signExtend 64 * 4#64).toNat

/-- Addresses of the elements of a gather or scatter, by its index table as read, or as it stands. -/
def Core.elems (c : Core) (m : Cmd) : List Nat :=
  let rest := (List.range 1024).drop m.idxs.length
  (m.idxs ++ rest.map fun i => c.spm.read (m.table + 4 * i) 4).map m.elemOf

/-- DRAM locations of a command. -/
def State.locsOf (s : State) (n : Nat) (m : Cmd) : List (Nat × Nat) :=
  if m.eng = 5 then
    ((s.core n).elems m).map fun va =>
      match s.xlate n va false with
      | .ok p | .miss p => (locOf [p] va, 4)
      | _ => (2 ^ 60 + va, 4)
  else m.locs

/-- A command of the sequencer, among those that satisfy p, accesses one of these locations and is not yet performed. -/
def State.clashes (s : State) (n : Nat) (q : Seq) (p : Cmd → Bool) (rs : List (Nat × Nat)) : Bool :=
  (s.core n).cmds.any fun m => m.q = q && p m && !m.arrived && rangesMeet (s.locsOf n m) rs

/-- An earlier command of the sequencer that accesses one of these locations is not yet performed (13 R328 item 1). -/
def State.accessBefore (s : State) (n : Nat) (q : Seq) (id : Nat) (rs : List (Nat × Nat)) : Bool :=
  s.clashes n q (fun m => decide (m.id < id)) rs

/-- Issue of a word that makes an access or an engine command: it waits behind an acquire, and as a release for every earlier
access. -/
def State.access (s : State) (rel : Bool) (k : State → Res) : Res :=
  if s.cur.acquiring s.turn.q || s.cur.marked s.turn.q then .wait
  else if rel && !s.cur.allPerformed s.turn.q then .wait
  else k s

/-- An acquire holds the sequencer's later accesses until its command is performed. -/
def State.holdLater (s : State) (acq : Bool) (id : Nat) : State :=
  if acq then s.modCur fun c => c.modSeq s.turn.q fun x => { x with acquire := some id } else s

end Sys2Proof.Machine
end

