-- ==== Sys2Proof/Machine/LoadStore.lean ====
section
/-! DEFINITION. Loads and stores of L and S (08 R205 to R210), their engines lde, ste and gse, and the queue markers (08 R212). -/

namespace Sys2Proof.Machine

/-! ### Die-engine slots (09 R256) -/

/-- A KIND 0 entry's slots of engine e at a cycle, summed over one window. -/
def Window.slotsAt (w : Window) (e now : Nat) : Nat :=
  w.tmpl.entries.foldl (fun k x =>
    if x.kind = 0 ∧ x.res = e ∧ w.t0 + x.off ≤ now ∧ now < w.t0 + x.off + x.dur then k + x.amt else k) 0

/-- Slots of engine e that the commands of a core hold, by kind: taken of its own booking, or unbooked. -/
def Core.slotsUsed (c : Core) (e : Nat) (own : Bool) : Nat :=
  (c.cmds.filter fun m => m.eng = e && m.slot = some own).length +
  (if e = engCpe then (c.tsk.copies.filter fun k => k.slot = some own).length else 0)

/-- Slots of engine e booked now for the task of a core. -/
def State.slotsHeld (s : State) (c : Core) (e : Nat) : Nat :=
  s.windows.foldl (fun k w => if c.tsk.task = some w.task then k + w.slotsAt e s.stc else k) 0

/-- Slots of cpe that copies of the DCP and the Darner of a die hold. -/
def State.unitSlots (s : State) (d e : Nat) : Nat :=
  if e = engCpe then (s.agenda.filter fun j => j.inp.mark && decide (j.inp.die = d) && (match j.ev with
    | .migrationCopyDone | .replicaComplete _ | .spareFillComplete _ => true
    | _ => false)).length
  else 0

/-- Slots of an engine of a die that commands run in without a booking: those never booked, and those that outlast their entry. -/
def State.slotsLoose (s : State) (d e : Nat) : Nat :=
  s.cores.foldl (fun k c => if dieOf c.1 = d then k + c.2.slotsUsed e false + (c.2.slotsUsed e true - s.slotsHeld c.2 e) else k)
    (s.unitSlots d e)
/-- Slots of an engine of a die in which a command runs. -/
def State.slotsRun (s : State) (d e : Nat) : Nat :=
  s.cores.foldl (fun k c => if dieOf c.1 = d then k + c.2.slotsUsed e false + c.2.slotsUsed e true else k) (s.unitSlots d e)

/-- A slot of an engine of a die that no booking holds is free. -/
def State.looseSlot (s : State) (d e : Nat) : Bool :=
  decide (s.slotsLoose d e + s.windows.foldl (fun k w => if dieOf w.core = d then k + w.slotsAt e s.stc else k) 0 < 4)

/-- The slot that a command of core n takes now: one of its own booking, else one that no booking holds, else none. -/
def State.grabSlot (s : State) (n e : Nat) : Option Bool :=
  if (s.core n).slotsUsed e true < s.slotsHeld (s.core n) e ∧ s.slotsRun (dieOf n) e < 4 then some true
  else if s.looseSlot (dieOf n) e then some false else none

/-- A command of a die engine takes its slot. -/
def State.takeSlot (s : State) (n : Nat) (m : Cmd) (b : Bool) : State := s.modCore n fun c => c.setCmd { m with slot := some b }

/-! ### Scratchpad accesses: one bank request after another (08 Table 8.4, 09 R270) -/

/-- Address of row r of a command. -/
def Cmd.rowAddr (m : Cmd) (r : Nat) : Nat := m.addr + r * m.pitch
/-- Bytes of each of its accesses. -/
def Cmd.rowLen (m : Cmd) : Nat :=
  match m.op with
  | .ldscal .. | .stscal .. => 8
  | .call .. | .ret => 64
  | .amo _ _ _ _ _ size _ _ => if size = 0#2 then 4 else 8
  | .ldgath .. | .stscat .. | .rwaddBlk .. => 64
  | _ => 256
def Cmd.rowCount (m : Cmd) : Nat :=
  match m.op with
  | .ldscal .. | .stscal .. | .amo .. | .call .. | .ret => 1
  | .ldgath .. | .stscat .. => 64
  | .rwaddBlk .. => m.table
  | _ => 16
/-- Its accesses write. -/
def Cmd.spmWrites (m : Cmd) : Bool :=
  match m.op with
  | .stspm .. | .strg .. | .stscal .. | .amo .. | .call .. => true
  | _ => false
def Cmd.inSpm (m : Cmd) : Bool :=
  match m.op with
  | .ldspm .. | .ldrg .. | .ldbc .. | .ldscal .. | .stspm .. | .strg .. | .stscal .. | .ldgath .. | .stscat .. | .rwaddBlk .. | .call .. | .ret => true
  | .amo _ _ _ _ _ _ spm _ => spm = 1#1
  | _ => false
/-- Scratchpad ranges of its accesses not yet performed; a gather or scatter reads its index table. -/
def Cmd.spmLeft (m : Cmd) : List (Nat × Nat) :=
  if m.inSpm then
    ((List.range m.rowCount).drop m.rows).map fun r => (if m.eng = engGse then m.table + 64 * r else m.rowAddr r, m.rowLen)
  else []

/-- A scratchpad access that the sequencer issued earlier is not yet performed: the access of the command waits at its bank, so that they
are performed in issue order (08 R211). One issued in a calendar region keeps the cycles of Table 8.4, and waits for an access to the
same bytes alone, where one of the two writes (log 26). -/
def Core.spmBehind (c : Core) (m : Cmd) (addr len : Nat) : Bool :=
  c.cmds.any fun x => x.q = m.q && decide (x.id < m.id) &&
    (if m.cal then (x.spmWrites || m.spmWrites) && rangesMeet x.spmLeft [(addr, len)] else !x.spmLeft.isEmpty)

/-- The first access of a command is due in the next cycle. -/
def State.firstRow (s : State) (n : Nat) (m : Cmd) (id rank addr len : Nat) : State :=
  s.modCore n fun c => { c with reqs := c.reqs ++ [⟨s.stc + 1, rank, id, m.rows, addr, len⟩] }

/-- Start of a scratchpad command: it takes its place in its engine's queue of 8. -/
def State.startSpm (s : State) (m : Cmd) : Res :=
  let n := s.turn.core
  let c := s.cur
  if m.eng < 7 ∧ 8 ≤ (c.cmds.filter fun x => x.eng = m.eng).length then .full
  else
    let (st, s) := s.stampFor n (if m.eng < 7 then unitOfEng m.eng else seqNum s.turn.q)
    let m := { m with q := s.turn.q, cal := s.cal, stamp := st }
    let (id, t) := s.addCmd n m
    .done (t.firstRow n m id (seqRank s.turn.q) (m.rowAddr 0) m.rowLen)

/-- Address register of a MEM field. -/
def State.areg (s : State) (r : BitVec 5) : Word := s.curSeq.reg r.toNat
/-- EA of a MEM word, modulo 2^64 (08 R205). The check of 02 R39 is made on it alone, not on a[BASE] (log 118). -/
def State.memEa (s : State) (base : BitVec 5) (off : BitVec 24) : Nat := (s.areg base + off.signExtend 64).toNat
/-- The pitch: 256 when IDX names BASE. -/
def State.pitchOf (s : State) (base idx : BitVec 5) : Nat := if idx = base then 256 else (s.areg idx).toNat
/-- The index: 0 when IDX names BASE. -/
def State.indexOf (s : State) (base idx : BitVec 5) : Word := if idx = base then 0 else s.areg idx

/-- The 16 rows of a register lie in the scratchpad at multiples of 64. -/
def rowsOk (ea pitch limit : Nat) : Bool :=
  decide (ea % 64 = 0) && decide (pitch % 64 = 0) && decide (pitch < 2 ^ 32) && decide (ea + 15 * pitch + 256 ≤ limit)

def State.memWord (s : State) (regs : List RegF) (k : State → Res) : State :=
  s.issue {} fun t => t.interlock regs (fun u => u.access false k) t

def memRegs (base idx : BitVec 5) : List RegF := [base.setWidth 6, idx.setWidth 6]

/-- A command of one engine. -/
def mkCmd (eng : Nat) (q : Seq) (op : Instr) : Cmd := { id := 0, eng := eng, q := q, op := op, issued := 0 }

/-- The newest entry of a store queue that a pop in this cycle takes. -/
def State.sqHead (s : State) (q : RegF) : Option VReg := (s.cur.q.squeue q.toNat).head? s.stc
def State.sqPop (s : State) (q : RegF) : State :=
  s.modCur fun c => { c with q := c.q.setSq q.toNat ((c.q.squeue q.toNat).pop s.stc) }

def execLdspm (q : RegF) (base idx : BitVec 5) (off : BitVec 24) (s : State) : Out :=
  .next (s.memWord (memRegs base idx) fun u =>
    let ea := u.memEa base off
    let pitch := u.pitchOf base idx
    if !rowsOk ea pitch spmSize then .trap .addr 0 false
    else u.startSpm { mkCmd engLde .l (.ldspm q base idx off) with addr := ea, pitch := pitch, queue := q.toNat })

def execLdbc (q : RegF) (base idx : BitVec 5) (off : BitVec 24) (s : State) : Out :=
  .next (s.memWord (memRegs base idx) fun u =>
    let ea := (u.areg base + off.signExtend 64 + u.indexOf base idx).toNat
    if !rowsOk ea 0 spmSize then .trap .addr 0 false
    else u.startSpm { mkCmd engLde .l (.ldbc q base idx off) with addr := ea, queue := q.toNat })

def execLdscal (q : RegF) (base idx : BitVec 5) (off : BitVec 24) (s : State) : Out :=
  .next (s.memWord (q :: memRegs base idx) fun u =>
    let ea := (u.areg base + off.signExtend 64 + u.indexOf base idx).toNat
    if ea % 8 ≠ 0 ∨ spmSize < ea + 8 then .trap .addr 0 false
    else u.startSpm { mkCmd engLde .l (.ldscal q base idx off) with addr := ea, dst := q.toNat })

/-- Checks of ldrg and strg in order: SLOTSZ and POP, the offset, the count (08 R206). -/
def State.ringWord (s : State) (rg : BitVec 4) (base idx : BitVec 5) (pop : Bool) (k : Ring → Nat → Nat → Res) : Res :=
  let r := s.cur.mx.ring rg.toNat
  let off := (s.areg base).toNat
  let pitch := s.pitchOf base idx
  if r.slotsz = 0 ∨ (pop ∧ r.rsv ≠ 0) then .trap .illop 0 false
  else if !rowsOk off pitch r.slotsz then .trap .addr 0 false
  else k r off pitch

def execLdrg (q : RegF) (base idx : BitVec 5) (rg : BitVec 4) (pop : BitVec 1) (s : State) : Out :=
  .next (s.memWord (memRegs base idx) fun u => u.ringWord rg base idx (pop = 1#1) fun r off pitch =>
    if r.fill = 0 then .wait
    else u.startSpm { mkCmd engLde .l (.ldrg q base idx rg pop) with
      addr := r.slotAddr r.head + off, pitch := pitch, queue := q.toNat })

def execStspm (q : RegF) (base idx : BitVec 5) (off : BitVec 24) (s : State) : Out :=
  .next (s.memWord (memRegs base idx) fun u =>
    let ea := u.memEa base off
    let pitch := u.pitchOf base idx
    if !rowsOk ea pitch spmSize then .trap .addr 0 false
    else
      match u.sqHead q with
      | none => .wait
      | some v => (u.sqPop q).startSpm
          { mkCmd engSte .s (.stspm q base idx off) with addr := ea, pitch := pitch, data := v })

def execStrg (q : RegF) (base idx : BitVec 5) (rg : BitVec 4) (adv : BitVec 1) (s : State) : Out :=
  .next (s.memWord (memRegs base idx) fun u => u.ringWord rg base idx false fun r off pitch =>
    if r.slots ≤ r.fill + r.wsv then .full
    else
      match u.sqHead q with
      | none => .wait
      | some v => (u.sqPop q).startSpm { mkCmd engSte .s (.strg q base idx rg adv) with
          addr := r.slotAddr (r.head + r.fill + r.wsv) + off, pitch := pitch, data := v })

def execStscal (q : RegF) (base idx : BitVec 5) (off : BitVec 24) (s : State) : Out :=
  .next (s.memWord (q :: memRegs base idx) fun u =>
    let ea := (u.areg base + off.signExtend 64 + u.indexOf base idx).toNat
    if ea % 8 ≠ 0 ∨ spmSize < ea + 8 then .trap .addr 0 false
    else u.startSpm { mkCmd engSte .s (.stscal q base idx off) with addr := ea, value := u.rd q })

/-! ### The cycle in which a bank serves an access -/

/-- Row r of a register. -/
def rowBits (v : VReg) (r : Nat) : Nat := bitsN v.toNat (2048 * r) 2048

/-- Access of a command's row by the bank: the later rows follow one cycle apart (08 Table 8.4). -/
def State.serveRow (s : State) (n : Nat) (m : Cmd) (r addr len : Nat) : State :=
  let c := s.core n
  let more (c : Core) (m : Cmd) (rank : Nat) : State :=
    s.setCore n { c.setCmd { m with rows := r + 1 } with
      reqs := c.reqs ++ [⟨s.stc + 1, rank, m.id, r + 1, m.rowAddr (r + 1), len⟩] }
  match m.op with
  | .ldscal .. =>
    let c := c.later (s.stc + 3) (.reg .l m.dst (BitVec.ofNat 64 (c.spm.read addr 8)))
    (s.setCore n (c.setCmd { m with rows := 1 })).retireCmd n m.id
  | .stscal .. => (s.setCore n ((c.setSpm addr (leBytes 8 m.value.toNat)).setCmd { m with rows := 1 })).retireCmd n m.id
  | .stspm .. | .strg .. =>
    let c := c.setSpm addr (leBytes 256 (rowBits m.data r))
    if r < 15 then more c m 3
    else (s.setCore n (c.setCmd { m with rows := 16 })).sched (s.stc + 1) phEngine (.storePerformed n m.id)
  | .ldgath .. | .stscat .. =>
    let xs := (chunks 4 16 (c.spmBytes addr 64))
    let m := { m with idxs := m.idxs ++ xs }
    if r < 63 then
      s.setCore n { c.setCmd { m with rows := r + 1 } with reqs := c.reqs ++ [⟨s.stc + 1, 5, m.id, r + 1, m.table + 64 * (r + 1), 64⟩] }
    else (s.setCore n (c.setCmd { m with rows := 64 })).schedMemFree (.gatherElement n m.id 0) m.stamp
  | _ =>
    let m := { m with data := m.data ||| BitVec.ofNat 32768 (c.spm.read addr 256 * 2 ^ (2048 * r)) }
    if r < 15 then more c m 2
    else
      let c := match m.op with
        | .ldrg _ _ _ rg pop => if pop = 1#1 then c.later (s.stc + 1) (.ringPop rg.toNat 1) else c
        | _ => c
      (s.setCore n (c.setCmd { m with rows := 16, arrived := true, pushAt := s.stc + 4 })).sched (s.stc + 4) phEngine
        (.loadQueuePush n m.id)

/-! ### Pushes to load queues (08 R208) -/

/-- Its data go to a load queue. -/
def Cmd.pushes (m : Cmd) : Bool :=
  match m.op with
  | .ldspm .. | .lddram .. | .ldgath .. | .ldrg .. | .ldbc .. => true
  | _ => false

/-- The engine holds data for a load queue that has no room, of a command issued before `id`: later commands of lde wait (08 R208). -/
def Core.loadHeld (c : Core) (now id : Nat) : Bool :=
  c.cmds.any fun x => x.pushes && x.arrived && !x.cal && decide (x.id < id) && decide (x.pushAt ≤ now) &&
    !(c.cmds.any fun y => y.pushes && y.queue = x.queue && decide (y.id < x.id)) && !(c.q.lqueue x.queue).room now

def State.loadPush (s : State) (n id : Nat) : State :=
  let c := s.core n
  match c.cmd? id with
  | none => s
  | some m =>
    let again := s.sched (s.stc + 1) phEngine (.loadQueuePush n id)
    if c.cmds.any fun x => x.pushes && x.queue = m.queue && decide (x.id < id) then again
    else if !m.arrived then s.engineFault n id .schedmiss
    else if (c.q.lqueue m.queue).room s.stc then
      (s.setCore n { c with q := c.q.setLq m.queue ((c.q.lqueue m.queue).push s.stc m.data) }).retireCmd n id
    else if m.cal then s.faultOf n id engLde .ovf
    else again

def execLoadQueuePush (n id : Nat) (s : State) : Out := .next (s.loadPush n id)

/-! ### DRAM rows (08 R205, R208; 09 R260, R261) -/

/-- Row addresses of a DRAM word. -/
def dramRows (ea pitch : Nat) : List (Nat × Nat) := (List.range 16).map fun r => (ea + r * pitch, 256)
/-- The 64-byte units of its rows. -/
def dramUnits (ea pitch : Nat) : List Nat := (List.range 64).map fun k => ea + k / 4 * pitch + k % 4 * 64

/-- Their locations. -/
def unitLocs (ps : List PageTr) (ea pitch : Nat) : List (Nat × Nat) := (dramUnits ea pitch).map fun a => (locOf ps a, 64)

/-- Units of an lddram fall within its booked rate: the task's KIND 4 entries of now cover, for every group, the units asked for
in this period of 16 cycles (09 Table 9.3, R260); the count after it. -/
def State.booked (s : State) (n : Nat) (pas : List Nat) : Bool × State :=
  let c := s.core n
  let per := s.stc / 16
  let off := s.stc - c.sys.t0
  let old := c.tsk.dramUse.filter fun u => u.1 = per
  let keys := (pas.map dauOf).eraseDups
  let got (k : Nat) : Nat := ((old.find? fun u => u.2.1 = k).map (·.2.2)).getD 0 + (pas.filter fun p => dauOf p = k).length
  let amt (k : Nat) : Nat := (c.tsk.win.kinds 4).foldl (fun a e =>
    if 12 * bitsN e.res 0 3 + bitsN e.res 3 4 = k ∧ e.off ≤ off ∧ off < e.off + e.dur then a + e.amt else a) 0
  let use := (old.filter fun u => !keys.contains u.2.1) ++ keys.map fun k => (per, k, got k)
  (keys.all fun k => decide (got k ≤ amt k), s.setCore n { c with tsk := { c.tsk with dramUse := use } })

/-- Where an address of translated pages is served (15 R370). -/
def State.servedPa (s : State) (ps : List PageTr) (va : Nat) : Option Nat := (pageOf ps va).map fun p => s.resolve (p.pa + (va - p.va))
/-- Home die of an address. -/
def State.homeDie (s : State) (ps : List PageTr) (va : Nat) : Nat := ((s.servedPa ps va).map paDie).getD 0

def execLddram (q : RegF) (base idx : BitVec 5) (off : BitVec 24) (s : State) : Out :=
  .next (s.memWord (memRegs base idx) fun u =>
    let n := u.turn.core
    let ea := u.memEa base off
    let pitch := u.pitchOf base idx
    if ea % 64 ≠ 0 ∨ pitch % 64 ≠ 0 ∨ 2 ^ 32 ≤ pitch then .trap .addr 0 false
    else u.translated 0 false (dramRows ea pitch) fun ps u =>
      if 8 ≤ (u.cur.cmds.filter fun x => x.eng = engLde).length then .full
      else
        let m : Cmd := { mkCmd engLde .l (.lddram q base idx off) with
          addr := ea, pitch := pitch, queue := q.toNat, pages := ps, pins := pinKeys ps, cal := u.cal, locs := unitLocs ps ea pitch }
        let (st, u) := u.stampFor n (unitOfEng engLde)
        let (f, u) := u.drawLat
        let f := f + 48 * u.hops (dieOf n) (u.homeDie ps ea)
        if u.cal then
          let due := u.stc + 400 + 48 * u.hops (dieOf n) (u.homeDie ps ea)
          let (ok, u) := u.booked n ((dramUnits ea pitch).filterMap (u.servedPa ps))
          let (id, u) := u.addCmd n { m with pushAt := due, stamp := st }
          -- data that is in time has been read in the cycle before its push
          let arrive := if ok then Nat.min (u.stc + f) (due - 1) else u.stc + f
          .done ((u.schedMem arrive (.lddramReturn n id) st).sched due phEngine (.loadQueuePush n id))
        else
          let (id, u) := u.addCmd n { m with stamp := st }
          .done (u.schedMem (u.stc + f) (.lddramReturn n id) st))

/-- The first piece of a read that must not be served. -/
def State.firstBad (s : State) (n : Nat) (ps : List PageTr) : List Nat → Option BadRead
  | [] => none
  | a :: t => match s.badRead n ps a 64 with
    | some b => some b
    | none => s.firstBad n ps t

def State.dramReturn (s : State) (n id : Nat) : State :=
  let c := s.core n
  match c.cmd? id with
  | none => s
  | some m =>
    let units := dramUnits m.addr m.pitch
    if s.accessBefore n m.q id m.locs || (!m.cal && c.loadHeld s.stc id) then s.schedMem (s.stc + 1) (.lddramReturn n id) m.stamp
    else
      match s.firstBad n m.pages units with
      | some b => (s.stopBadRead n b).retireCmd n id
      | none =>
        let bs := units.flatMap fun a => s.taskRead n m.pages a 64
        let s := s.setCore n (c.setCmd { m with arrived := true, data := BitVec.ofNat 32768 (leVal bs) })
        if m.cal then s else s.sched s.stc phEngine (.loadQueuePush n id)

def execLddramReturn (n id : Nat) (s : State) : Out := .next (s.dramReturn n id)

def execStdram (q : RegF) (base idx : BitVec 5) (off : BitVec 24) (s : State) : Out :=
  .next (s.memWord (memRegs base idx) fun u =>
    let n := u.turn.core
    let ea := u.memEa base off
    let pitch := u.pitchOf base idx
    if ea % 64 ≠ 0 ∨ pitch % 64 ≠ 0 ∨ 2 ^ 32 ≤ pitch then .trap .addr 0 false
    else u.translated 0 true (dramRows ea pitch) fun ps u =>
      match u.sqHead q with
      | none => .wait
      | some v =>
        if 8 ≤ (u.cur.cmds.filter fun x => x.eng = engSte).length then .full
        else
          let (st, u) := (u.sqPop q).stampFor n (unitOfEng engSte)
          let (id, u) := u.addCmd n { mkCmd engSte .s (.stdram q base idx off) with
            addr := ea, pitch := pitch, pages := ps, pins := pinKeys ps, data := v, stamp := st, locs := unitLocs ps ea pitch,
            cal := u.cal }
          let (f, u) := u.drawLat
          .done (u.schedMem (u.stc + f + 48 * u.hops (dieOf n) (u.homeDie ps ea)) (.storePerformed n id) st))

/-- A write of the command that a full migration log refused is still on its way. -/
def State.refused (s : State) (n id : Nat) : Bool :=
  (s.retries.any fun r => r.owner = some (n, id)) ||
  s.agenda.any fun j => j.ev = .multicastWrite && j.inp.core = some n && decide (j.inp.peer = id)

/-- A store is performed: the last row of a DRAM store has reached its home units, or a scratchpad store has written its last. -/
def State.storeDone (s : State) (n id : Nat) : State :=
  let c := s.core n
  match c.cmd? id with
  | none => s
  | some m =>
    let again (s : State) := s.schedMem (s.stc + 1) (.storePerformed n id) m.stamp
    match m.op with
    | .stdram .. =>
      if s.accessBefore n m.q id m.locs then again s
      else if m.rows = 0 then
        let bs := leBytes 4096 m.data.toNat
        let pieces := (List.range 64).zip (dramUnits m.addr m.pitch)
        let s := pieces.foldl (fun s p => s.taskWrite n m.pages p.2 ((bs.drop (64 * p.1)).take 64) m.stamp id) s
        let s := s.modCore n fun c => c.setCmd { m with rows := 16 }
        if s.refused n id then again s else s.retireCmd n id
      else if s.refused n id then again s
      else s.retireCmd n id
    | .pinit .. =>
      if m.rows = 0 then
        let s := s.homeWrite n m.pages m.addr (leBytes 64 m.value.toNat) m.stamp id
        let s := s.modCore n fun c => c.setCmd { m with rows := 1 }
        if s.refused n id then again s else s.retireCmd n id
      else if s.refused n id then again s
      else s.retireCmd n id
    | .strg _ _ _ rg adv =>
      let s := if adv = 1#1 then s.modCore n fun c => c.later (s.stc + 1) (.ringFill rg.toNat 1) else s
      s.retireCmd n id
    | _ => if s.refused n id then again s else s.retireCmd n id

def execStorePerformed (n id : Nat) (s : State) : Out := .next (s.storeDone n id)

/-! ### Gathers and scatters (08 R205, R209) -/

/-- Issue of a gather or scatter to gse, whose queue holds 4. -/
def State.gseWord (s : State) (regs : List RegF) (base idx : BitVec 5) (off : BitVec 24) (m : State → Option (Cmd × State)) : State :=
  s.memWord regs fun u =>
    let n := u.turn.core
    let ea := u.memEa base off
    let tb := (u.areg idx).toNat
    if ea % 4 ≠ 0 ∨ tb % 64 ≠ 0 ∨ spmSize < tb + 4096 then .trap .addr 0 false
    else
      match m u with
      | none => .wait
      | some (m, u) =>
        if 4 ≤ (u.cur.cmds.filter fun x => x.eng = engGse).length then .full
        else
          let (st, u) := u.stampFor n (unitOfEng engGse)
          let (id, u) := u.addCmd n { m with addr := ea, table := tb, stamp := st, cal := u.cal }
          .done (u.schedMem (u.stc + 1) (.gatherElement n id 0) st)

def execLdgath (q : RegF) (base idx : BitVec 5) (off : BitVec 24) (s : State) : Out :=
  .next (s.gseWord (memRegs base idx) base idx off fun u =>
    some ({ mkCmd engGse .l (.ldgath q base idx off) with queue := q.toNat }, u))

def execStscat (q : RegF) (base idx : BitVec 5) (off : BitVec 24) (s : State) : Out :=
  .next (s.gseWord (memRegs base idx) base idx off fun u =>
    (u.sqHead q).map fun v =>
      ({ mkCmd engGse .s (.stscat q base idx off) with data := v }, u.sqPop q))

/-- Address of element i. -/
def Cmd.elemAddr (m : Cmd) (i : Nat) : Nat := m.elemOf (m.idxs.getD i 0)

/-- The gather engine: the oldest command takes a slot and reads its index table; then its elements are performed one after the
other, each translated as it comes. -/
def State.gather (s : State) (n id i : Nat) : State :=
  let c := s.core n
  match c.cmd? id with
  | none => s
  | some m =>
    let again := s.schedMem (s.stc + 1) (.gatherElement n id i) m.stamp
    match m.slot with
    | none =>
      if c.cmds.any fun x => x.eng = engGse && decide (x.id < id) then again
      else
        match s.grabSlot n engGse with
        | none => again
        | some b =>
          (s.setCore n (c.setCmd { m with slot := some b })).firstRow n m id 5 m.table 64
    | some _ =>
      let va := m.elemAddr i
      let store := match m.op with
        | .stscat .. => true
        | _ => false
      let next (s : State) : State :=
        if i < 1023 then s.schedMemFree (.gatherElement n id (i + 1)) m.stamp
        else if store then s.schedMem s.stc (.storePerformed n id) m.stamp
        else s.sched s.stc phEngine (.loadQueuePush n id)
      let loc : Nat := match s.xlate n va false with
        | .ok p | .miss p => locOf [p] va
        | _ => 2 ^ 60 + va
      -- an element that a full log refused is written before the next one (08 R209)
      if s.accessBefore n m.q id [(loc, 4)] || (store && s.refused n id) then again
      else
        match s.xlate n va store with
        | .bad => s.engineFault n id .addr
        | .remote .. => s.engineFault n id .addr
        | .marked a => (s.stopBadRead n (.codeword a)).retireCmd n id
        | .miss p =>
          if !c.sys.region then s.engineFault n id .schedmiss
          else (s.fillCache n p).schedMemFree (.gatherElement n id i) m.stamp
        | .ok p =>
          if paPkg p.pa ≠ s.pkg ∧ realPa p.pa then s.engineFault n id .addr
          else if store then
            next (s.taskWrite n [p] va (leBytes 4 (velem 32 m.data i)) m.stamp id)
          else
            match s.badRead n [p] va 4 with
            | some b => (s.stopBadRead n b).retireCmd n id
            | none =>
              let v := leVal (s.taskRead n [p] va 4)
              let m' := { m with data := m.data ||| BitVec.ofNat 32768 (v * 2 ^ (32 * i)), arrived := decide (i = 1023) }
              next (s.setCore n (c.setCmd m'))

def execGatherElement (n id i : Nat) (s : State) : Out := .next (s.gather n id i)

/-! ### pref (08 R207) and qmark (08 R212) -/

/-- pref only fills the cache entry of its page, in a scoreboard region (09 R273). -/
def State.prefetch (s : State) (va : Nat) : State :=
  let n := s.turn.core
  if s.cal then s
  else
    match s.xlate n va false with
    | .miss p => s.fillCache n p
    | _ => s

def execPref (base idx : BitVec 5) (off : BitVec 24) (s : State) : Out :=
  .next (s.issue {} fun t => t.interlock (memRegs base idx) (fun u =>
    .done (u.prefetch (u.areg base + off.signExtend 64 + u.indexOf base idx).toNat)) t)

def execQmark (tag : BitVec 8) (s : State) : Out :=
  .next (s.issue {} fun t =>
    let k := t.cur.tsk
    let id := t.cur.nextCmd
    let (mine, other) := if t.turn.q = .l then (k.qmL, k.qmS) else (k.qmS, k.qmL)
    if other[mine.length]?.any (fun x => decide (x ≠ tag)) then .trap .illop 0 false
    else
      let k' := if t.turn.q = .l then { k with qmL := k.qmL ++ [tag], qmLid := k.qmLid ++ [id] }
        else { k with qmS := k.qmS ++ [tag], qmSid := k.qmSid ++ [id] }
      .done (t.modCur fun c => { c with tsk := k' }))

end Sys2Proof.Machine
end

