-- ==== Sys2Proof/Machine/Copy.lean ====
section
/-! DEFINITION. Copies on cpe (08 R213, R214), fences (08 R218) and token words (08 R229). -/

namespace Sys2Proof.Machine

/-! ### Enqueueing a copy -/

def CopyNode.rowUnits (k : CopyNode) : Nat := k.len / 64
def CopyNode.total (k : CopyNode) : Nat := k.rows * k.rowUnits
def CopyNode.srcAt (k : CopyNode) (u : Nat) : Nat := k.src + u / k.rowUnits * k.spitch + u % k.rowUnits * 64
def CopyNode.dstAt (k : CopyNode) (u : Nat) : Nat := k.dst + u / k.rowUnits * k.dpitch + u % k.rowUnits * 64
/-- Last byte + 1 of a side. -/
def CopyNode.span (k : CopyNode) (base pitch : Nat) : Nat := base + (k.rows - 1) * pitch + k.len

/-- Source and destination lie in one space and their bounding ranges meet. -/
def CopyNode.overlaps (k : CopyNode) : Bool :=
  k.sspm = k.dspm && decide (k.src < k.span k.dst k.dpitch) && decide (k.dst < k.span k.src k.spitch)

/-- DRAM ranges of a side, row by row. -/
def CopyNode.ranges (k : CopyNode) (base pitch : Nat) (spm : Bool) : List (Nat × Nat) :=
  if spm then [] else (List.range k.rows).map fun r => (base + r * pitch, k.len)

def Core.node? (c : Core) (id : Nat) : Option CopyNode := c.tsk.copies.find? fun k => k.id = id
def Core.setNode (c : Core) (k : CopyNode) : Core :=
  { c with tsk := { c.tsk with copies := c.tsk.copies.map fun x => if x.id = k.id then k else x } }

/-- Issue of a copy once its registers are read and its length limits hold: the checks that both forms share, in order (08
R213), then the node takes its place. -/
def State.enqueue (s : State) (k : CopyNode) : Res :=
  let n := s.turn.core
  if k.overlaps ∨ (k.shadow ∧ k.dspm) then .trap .illop 0 false
  else if k.src % 64 ≠ 0 ∨ k.dst % 64 ≠ 0 then .trap .addr 0 false
  else if (k.sspm ∧ spmSize < k.span k.src k.spitch) ∨ (k.dspm ∧ spmSize < k.span k.dst k.dpitch) then .trap .addr 0 false
  else
    s.translated 0 false (k.ranges k.src k.spitch k.sspm) fun sp s =>
      s.translated 0 true (k.ranges k.dst k.dpitch k.dspm) fun dp s =>
        let s := if k.shadow then s.openShadows n dp else s
        let (st, s) := s.stampFor n (unitOfEng engCpe)
        let c := s.core n
        let id := c.nextCmd
        let c := { c with nextCmd := id + 1, tsk := { c.tsk with
          copies := c.tsk.copies ++ [{ k with id := id, spages := sp, dpages := dp, stamp := st }], tagIds := SMap.ins c.tsk.tagIds k.tag id } }
        let c := c.modEngine engCpe fun x => { x with out := x.out + 1 }
        .done ((s.setCore n c).sched (s.stc + 1) phEngine (.copyNodeStart n id))

def execCopy (d a b c : RegF) (tag : BitVec 6) (shadow sspm dspm : BitVec 1) (s : State) : Out :=
  .next (s.issue {} fun t => t.interlock [d, a, b, c] (fun u => u.access false fun u =>
    let len := (u.rd b).toNat
    if len = 0 ∨ len % 64 ≠ 0 ∨ 2 ^ 32 < len then .trap .illop 0 false
    else
      -- the latest node of each tag in the mask, if it has not retired
      let deps := (List.range 64).filterMap fun i =>
        if (u.rd c).getLsbD i then (SMap.get? u.cur.tsk.tagIds i).bind fun id => (u.cur.node? id).map (·.id) else none
      u.enqueue { id := 0, tag := tag.toNat, src := (u.rd a).toNat, dst := (u.rd d).toNat, len := len, rows := 1, spitch := 0,
                  dpitch := 0, shadow := shadow = 1#1, sspm := sspm = 1#1, dspm := dspm = 1#1, deps := deps }) t)

def execCopyw (d a b c : RegF) (tag : BitVec 6) (shadow sspm dspm : BitVec 1) (s : State) : Out :=
  .next (s.issue {} fun t => t.interlock [d, a, b, c] (fun u => u.access false fun u =>
    let v := (u.rd b).toNat
    let w := (u.rd c).toNat
    let len := v % 2 ^ 32
    let rows := bitsN v 32 16
    let sp := w % 2 ^ 32
    let dp := w / 2 ^ 32
    if len = 0 ∨ len % 64 ≠ 0 ∨ rows = 0 ∨ v / 2 ^ 48 ≠ 0 ∨ sp % 64 ≠ 0 ∨ dp % 64 ≠ 0 ∨ sp < len ∨ dp < len then
      .trap .illop 0 false
    else u.enqueue { id := 0, tag := tag.toNat, src := (u.rd a).toNat, dst := (u.rd d).toNat, len := len, rows := rows, spitch := sp,
                     dpitch := dp, shadow := shadow = 1#1, sspm := sspm = 1#1, dspm := dspm = 1#1,
                     deps := u.cur.tsk.copies.map (·.id) }) t)

/-! ### A node at work -/

/-- A bank request of a node: row 2u reads unit u, row 2u + 1 writes it (09 R270). -/
def State.nodeReq (s : State) (n id row addr : Nat) : State :=
  s.modCore n fun c => { c with reqs := c.reqs ++ [⟨s.stc + 1, 5, id, row, addr, 64⟩] }

/-- Unit u goes on: its read, or with its bytes in hand its write. -/
def State.unitGo (s : State) (n : Nat) (k : CopyNode) : State :=
  match k.buf with
  | none => if k.sspm then s.nodeReq n k.id (2 * k.units) (k.srcAt k.units) else s.schedMemFree (.copyUnit n k.id k.units) k.stamp
  | some _ =>
    if k.dspm then s.nodeReq n k.id (2 * k.units + 1) (k.dstAt k.units) else s.schedMemFree (.copyUnit n k.id k.units) k.stamp

/-- A node starts when its dependences have retired and a slot of cpe is free; else it is tried again. -/
def State.nodeStart (s : State) (n id : Nat) : State :=
  let c := s.core n
  match c.node? id with
  | none => s
  | some k =>
    let again := s.sched (s.stc + 1) phEngine (.copyNodeStart n id)
    if k.deps.any fun d => (c.node? d).isSome then again
    else
      match s.grabSlot n engCpe with
      | none => again
      | some b =>
        let k := { k with started := true, slot := some b }
        (s.setCore n (c.setNode k)).unitGo n k

def execCopyNodeStart (n node : Nat) (s : State) : Out := .next (s.nodeStart n node)

/-- Unit u has been written: the next one, or the end of the node. -/
def State.unitWritten (s : State) (n : Nat) (k : CopyNode) : State :=
  let k := { k with units := k.units + 1, buf := none }
  let s := s.modCore n fun c => c.setNode k
  if k.units < k.total then s.unitGo n k else s.sched s.stc phEngine (.copyNodeRetire n k.id)

/-- The DRAM side of unit u: the source is read from the page itself (08 R210). -/
def State.unitStep (s : State) (n id u : Nat) : State :=
  let c := s.core n
  match c.node? id with
  | none => s
  | some k =>
    if k.units ≠ u then s
    else
      match k.buf with
      | none =>
        let va := k.srcAt u
        (match s.homeBad n k.spages va 64 with
         | some b => (s.stopBadRead n b).sched s.stc phEngine (.copyNodeRetire n id)
         | none =>
           let k := { k with buf := some (s.homeRead n k.spages va 64) }
           (s.setCore n (c.setNode k)).unitGo n k)
      | some bs =>
        (s.taskWrite n k.dpages (k.dstAt u) bs k.stamp id).unitWritten n k

def execCopyUnit (n node u : Nat) (s : State) : Out := .next (s.unitStep n node u)

/-- The scratchpad side of a unit, in the cycle in which its bank serves it. -/
def State.serveNode (s : State) (n : Nat) (k : CopyNode) (row addr : Nat) : State :=
  let c := s.core n
  if row % 2 = 0 then
    let k := { k with buf := some (c.spmBytes addr 64) }
    (s.setCore n (c.setNode k)).unitGo n k
  else (s.setCore n (c.setSpm addr (k.buf.getD []))).unitWritten n k

def State.nodeRetire (s : State) (n id : Nat) : State :=
  let c := s.core n
  match c.node? id with
  | none => s
  | some k =>
    if s.refused n id then s.sched (s.stc + 1) phEngine (.copyNodeRetire n id)
    else
      let c := { c with tsk := { c.tsk with copies := c.tsk.copies.filter fun x => x.id ≠ id } }
      (s.setCore n (c.later (s.stc + 1) (.engRetire engCpe))).unpin n (pinKeys (k.spages ++ k.dpages))

def execCopyNodeRetire (n node : Nat) (s : State) : Out := .next (s.nodeRetire n node)

/-! ### Fences (08 R218; 13 R329) -/

/-- The command reads (13 R329). -/
def Cmd.reads (m : Cmd) : Bool :=
  match m.op with
  | .stspm .. | .stdram .. | .stscat .. | .strg .. | .stscal .. | .ppush .. | .publishBuf .. | .publishTile .. => false
  | _ => true

/-- What a fence of a sequencer waits for: with ORD 1 its reads, else all its accesses; on X its pushes and hand-overs. -/
def Core.fenced (c : Core) (q : Seq) (ord : BitVec 2) : Bool :=
  let acq := decide (ord = 1#2)
  match q with
  | .x => !acq && (c.pushesDue || c.vec.window.any fun w => w.held.any isHandOver)
  | .c => (c.cmds.any fun m => m.q = .c && (!acq || m.reads)) || !c.tsk.copies.isEmpty
  | q => c.cmds.any fun m => m.q = q && (!acq || m.reads)

def execFence (o : Ordr) (s : State) : Out :=
  .next (s.issue {} fun t => if o.scope ≠ 0#3 && t.cur.fenced t.turn.q o.ord then .wait else .done t)

/-! ### tkwait and tksig (08 R229) -/

def execTkwait (dir : BitVec 2) (n : BitVec 6) (_ord : BitVec 2) (s : State) : Out :=
  .next (s.issue {} fun t =>
    let f := if dir = 1#2 then popPrev t.turn.q else popNext t.turn.q
    if (t.cur.q.tok f).avail t.stc < n.toNat then .wait
    else
      -- a cancelled word of X returns every token it popped (06 R141)
      let note (c : Core) : Core :=
        match t.turn.q, c.vec.window.getLast? with
        | .x, some w => { c with vec := { c.vec with window :=
            c.vec.window.dropLast ++ [{ w with tokens := w.tokens ++ List.replicate n.toNat f }] } }
        | _, _ => c
      .done (t.modCur fun c => note (c.popTok f t.stc n.toNat)))

def execTksig (dir : BitVec 2) (n : BitVec 6) (ord : BitVec 2) (s : State) : Out :=
  .next (s.issue {} fun t =>
    let q := t.turn.q
    let f := if dir = 1#2 then pushPrev q else pushNext q
    let own := if (pushList q t.turn.hdr.push).contains f then 1 else 0
    if ordRel ord && !t.cur.allPerformed q then .wait
    else if 63 < (t.cur.q.tok f).held t.stc + t.cur.heldTokens f + n.toNat + own then .full
    else .done (t.modCur fun c =>
      if q = .x ∧ c.vec.window ≠ [] then c.emit q t.stc (.token f n.toNat) else c.pushTok f t.stc n.toNat))

end Sys2Proof.Machine
end

