-- ==== Sys2Proof/Machine/Atomics.lean ====
section
/-! DEFINITION. Atomics (08 R219 to R221), the hot-word caches (13 R322, R323; 14 R362) and the deterministic atomic units (13
R341, R342). -/

namespace Sys2Proof.Machine

/-! ### New values (08 Table 8.5) -/

def amoBytes (size : BitVec 2) : Nat := if size = 0#2 then 4 else 8

/-- New value of a word of w bits. -/
def atomicNew (kind w o b c : Nat) : Nat :=
  let o := o % 2 ^ w
  let b := b % 2 ^ w
  let so := Fp.signedOf w o
  let sb := Fp.signedOf w b
  match kind with
  | 0 => o
  | 1 => b
  | 2 => (o + b) % 2 ^ w
  | 3 => o &&& b
  | 4 => o ||| b
  | 5 => o ^^^ b
  | 6 => if sb < so then b else o
  | 7 => if so < sb then b else o
  | 8 => Nat.min o b
  | 9 => Nat.max o b
  | 10 => if o = c % 2 ^ w then b else o
  | _ => (Fp.fadd (if w = 32 then Fp.f32 else Fp.f64) 0 o b).1

/-! ### Hot words (14 R362) -/

/-- Write-back of cached words that satisfy p to their home, in the same step. -/
def State.evictHot (s : State) (d : Nat) (p : Nat → Bool) : State :=
  let ws := (s.die d).stationHot.flatMap fun e => e.2.filter fun w => p w.1
  let s := s.modDie d fun x => { x with stationHot := x.stationHot.map fun e => (e.1, e.2.filter fun w => !p w.1) }
  { s with dram := ws.foldl (fun m w => Memory.write m (8 * w.1) 8 w.2.toNat) s.dram,
           saveAreas := ws.foldl (fun l w => l.map fun a => a.spoil (8 * w.1) 8) s.saveAreas }

/-- A ramo moves the word and its ownership into the cache; the least recently used way leaves (13 R322). -/
def State.installHot (s : State) (pa : Nat) : State :=
  let d := paDie pa
  let w := pa / 8
  let set := SMap.get [] (s.die d).stationHot (hotSet pa)
  match set.find? fun e => e.1 = w with
  | some e => s.modDie d fun x => { x with stationHot := SMap.ins x.stationHot (hotSet pa) (e :: set.filter fun y => y.1 ≠ w) }
  | none =>
    let s := if set.length < 8 then s else (match set.getLast? with
      | some e => s.evictHot d fun y => y = e.1
      | none => s)
    let set := SMap.get [] (s.die d).stationHot (hotSet pa)
    let v := BitVec.ofNat 64 (leVal (s.dramBytesAt (8 * w) 8))
    s.modDie d fun x => { x with stationHot := SMap.ins x.stationHot (hotSet pa) ((w, v) :: set) }

/-! ### A read-modify-write at its point -/

/-- The word at an address of the task is read, changed by f and written at the word's owner (08 R210, R220); in an output slot of
the aperture, in the task's shadow (log 33). The old value, or none when a full migration log refuses it (14 R361). -/
def State.rmw (s : State) (n : Nat) (ps : List PageTr) (va size : Nat) (f : Nat → Nat) (write : Bool) (st : Stamp) (id : Nat) :
    State × Option Nat :=
  let old := leVal (s.homeRead n ps va size)
  if (s.slotOf n va).isSome then
    (if write then s.taskWrite n ps va (leBytes size (f old)) st id else s, some old)
  else
    match pageOf ps va with
    | none => (s, some old)
    | some p =>
      let pa := p.pa + (va - p.va)
      if !write then (s, some old)
      else if s.logFull pa then (s.refuseWrite pa [] st (some (n, id)), none)
      else (s.applyWrite pa (leBytes size (f old)) st, some old)

/-- The command of an atomic, ready to be numbered. -/
def atomicCmd (q : Seq) (op : Instr) (d : RegF) (va : Nat) (ps : List PageTr) (b c : Word) (locs : List (Nat × Nat)) : Cmd :=
  { mkCmd engNone q op with addr := va, dst := d.toNat, pages := ps, pins := pinKeys ps, value := b, value2 := c, locs := locs }

def isDamo : Instr → Bool
  | .damo .. => true
  | _ => false

/-- Application of an atomic at its point; its old value returns later. A refused one is applied when it is sent again. -/
def State.applyAtomic (s : State) (n id : Nat) (kind : BitVec 4) (size : BitVec 2) : State :=
  match (s.core n).cmd? id with
  | none => s
  | some m =>
    let sz := amoBytes size
    let f (o : Nat) : Nat := atomicNew kind.toNat (8 * sz) o m.value.toNat m.value2.toNat
    match s.homeBad n m.pages m.addr sz with
    | some b => (s.stopBadRead n b).retireCmd n id
    | none =>
      match s.rmw n m.pages m.addr sz f (kind ≠ 0#4) m.stamp id with
      | (s, none) => s
      | (s, some old) =>
        let s := s.modCore n fun c => c.setCmd { m with arrived := true, value := BitVec.ofNat 64 old }
        s.schedFree phEngine (.atomicResultReturn n id)

/-- Checks and issue that the atomics to DRAM share: the region (08 Table 8.2), the runs that may not issue them, alignment,
translation, order. -/
def State.dramAtomic (s : State) (op : Instr) (d a b c : RegF) (kind : BitVec 4) (size : BitVec 2) (o : Ordr) (audit : Bool)
    (go : Nat → Nat → State → State) : State :=
  if s.cal then s.issue {} fun u => if u.cur.tsk.run ≠ 0 then .whole (u.runStop false) else .trap .illop 0 false
  else
    s.issue { audit := audit } fun t => t.interlock [d, a, b, c] (fun u => u.access (ordRel o.ord) fun u =>
      let n := u.turn.core
      let q := u.turn.q
      let va := (u.rd a).toNat
      let sz := amoBytes size
      if u.cur.tsk.run ≠ 0 then .whole (u.runStop audit)
      else if va % sz ≠ 0 then .trap .addr 0 true
      else u.translated o.scope.toNat (kind ≠ 0#4) [(va, sz)] fun ps u =>
        let at_ := [(locOf ps va, sz)]
        -- two damo of one word keep their order by their stamps (08 R221)
        if u.clashes n q (fun m => !(isDamo op && isDamo m.op)) at_ then .wait
        else
          let (st, u) := u.stampFor n (seqNum q)
          let (id, u) := u.addCmd n { atomicCmd q op d va ps (u.rd b) (u.rd c) at_ with stamp := st }
          .done (go n id (u.holdLater (ordAcq o.ord) id))) t

/-- An atomic of DRAM takes effect in the cycle after its issue, those of one cycle by ascending stamp, so that stamps agree with
happens-before (13 R324, R345, log 92). -/
def State.atomicDue (n id : Nat) (s : State) : State :=
  match (s.core n).cmd? id with
  | none => s
  | some m => s.schedMem (s.stc + 1) (.atomicResultReturn n id) m.stamp

/-! ### amo (08 R219, R220) -/

def execAmo (d a b c : RegF) (kind : BitVec 4) (size : BitVec 2) (spm : BitVec 1) (o : Ordr) (s : State) : Out :=
  .next (
    if spm = 0#1 then s.dramAtomic (.amo d a b c kind size spm o) d a b c kind size o true State.atomicDue
    else
      s.issue { audit := s.cur.sys.region } fun t => t.interlock [d, a, b, c] (fun u => u.access (ordRel o.ord) fun u =>
        let n := u.turn.core
        let q := u.turn.q
        let va := (u.rd a).toNat
        let sz := amoBytes size
        if va % sz ≠ 0 ∨ spmSize < va + sz then .trap .addr 0 true
        else
          let (st, u) := u.stampFor n (seqNum q)
          let m : Cmd := { atomicCmd q (.amo d a b c kind size spm o) d va [] (u.rd b) (u.rd c) [] with cal := u.cal, stamp := st }
          let (id, u) := u.addCmd n m
          .done ((u.firstRow n m id (seqRank q) va sz).holdLater (ordAcq o.ord) id)) t)

/-- An amo to the scratchpad in the cycle in which its bank serves it: D is visible five cycles later. -/
def State.serveAmo (s : State) (n : Nat) (m : Cmd) (kind : BitVec 4) (size : BitVec 2) : State :=
  let c := s.core n
  let sz := amoBytes size
  let old := c.spm.read m.addr sz
  let new := atomicNew kind.toNat (8 * sz) old m.value.toNat m.value2.toNat
  let c := if kind = 0#4 then c else c.setSpm m.addr (leBytes sz new)
  (s.setCore n (c.later (s.stc + 5) (.reg m.q m.dst (BitVec.ofNat 64 old)))).retireCmd n m.id

/-! ### ramo (08 R220; 14 R362) -/

/-- The word is installed unless its page migrates (14 R360 step 1), lies in another package, or is a slot of the aperture. -/
def State.ramoInstall (s : State) (n id : Nat) : State :=
  match (s.core n).cmd? id with
  | none => s
  | some m =>
    match s.slotOf n m.addr, pageOf m.pages m.addr with
    | none, some p =>
      let pa := s.resolve (p.pa + (m.addr - p.va))
      if (s.migrating pa).isSome ∨ paPkg pa ≠ s.pkg then s else s.installHot pa
    | _, _ => s

def execRamo (d a b c : RegF) (kind : BitVec 4) (size : BitVec 2) (o : Ordr) (s : State) : Out :=
  .next (s.dramAtomic (.ramo d a b c kind size o) d a b c kind size o true State.atomicDue)

/-- The old value, and for a pairing operation its status, are written; the command retires. -/
def State.returnValue (s : State) (n : Nat) (m : Cmd) : State :=
  let set (r : Nat) (v : Word) (c : Core) : Core := if r < 64 then c.modSeq m.q fun x => x.setReg r v else c
  (s.modCore n fun c => set m.dst2 m.value2 (set m.dst m.value c)).retireCmd n m.id

/-- An atomic of DRAM reaches its point, a command of cle takes its slot and runs, or a result returns. -/
def State.resultReturn (s : State) (n id : Nat) : State :=
  match (s.core n).cmd? id with
  | none => s
  | some m =>
    if m.arrived then s.returnValue n m
    else match m.op with
      | .amo _ _ _ _ kind size _ _ => s.applyAtomic n id kind size
      | .ramo _ _ _ _ kind size _ => (s.ramoInstall n id).applyAtomic n id kind size
      | .rwopen .. | .rwclose .. | .bar .. =>
        if m.slot.isSome then s.returnValue n m
        else (match s.grabSlot n engCle with
          | none => s.sched (s.stc + 1) phEngine (.atomicResultReturn n id)
          | some b => (s.takeSlot n m b).schedFree phEngine (.atomicResultReturn n id))
      | _ => s.returnValue n m

def execAtomicResultReturn (n op : Nat) (s : State) : Out := .next (s.resultReturn n op)

/-! ### damo (08 R221; 13 R341, R342) -/

def State.dau (s : State) (u : Nat) : Dau := SMap.get {} s.daus u
def State.setDau (s : State) (u : Nat) (x : Dau) : State := { s with daus := SMap.ins s.daus u x }
/-- Unit of an operation, by the frame that serves its page (15 R370); words of other packages have units of their own. -/
def State.unitOf (s : State) (o : DamoOp) : Nat := dauOf (s.resolve o.pa) + 96 * paPkg (s.resolve o.pa)
def DamoOp.window (o : DamoOp) : Nat := o.stamp.stc / 256

/-- Sources of horizons: the stations of the dies not lost, and the two bridges (8 on d0, 9 on d4). -/
def State.sources (s : State) : List Nat :=
  (List.range 10).filter fun k => !(s.die (if k < 8 then k else 4 * (k - 8))).lost

/-- A close of windows goes on at a cycle, among its accesses where an application's stamp stands (13 R324). -/
def State.schedUnit (s : State) (due u : Nat) (st : Stamp) : State :=
  { s with agenda := insJob { due := due, phase := phMemory, ev := .damoWindowClose u, inp := { stamp := st }, key := st } s.agenda }

/-- A unit that holds or awaits operations hears from every source (log 28). -/
def State.kickHorizons (s : State) (u : Nat) : State :=
  s.sources.foldl (fun s k =>
    if s.hasJobInp (.horizonMessage u k) {} then s
    else
      let (n, s) := s.drawLat
      s.sched (s.stc + 1 + n % 256) phTask (.horizonMessage u k)) s

/-- Die of a unit, or of the bridge to its package. -/
def State.unitDie (s : State) (u : Nat) : Nat := if u < 96 then u / 12 else (s.bridgeTo (u / 96)).1

/-- An operation goes to its unit, from its source. -/
def State.sendDamo (s : State) (o : DamoOp) : State :=
  let k := s.unitOf o
  (s.schedRing (stationDie o.src) (s.unitDie k) (.damoArrival o.id) {}).kickHorizons k

def execDamo (d a b c : RegF) (kind : BitVec 4) (size : BitVec 2) (o : Ordr) (s : State) : Out :=
  .next (s.dramAtomic (.damo d a b c kind size o) d a b c kind size o false fun n id u =>
    match (u.core n).cmd? id with
    | none => u
    | some m =>
      match pageOf m.pages m.addr with
      | none => u
      | some p =>
        let (i, u) := u.fresh
        let op : DamoOp := { id := i, core := n, cmd := id, kind := kind.toNat, size := size.toNat, b := m.value, c := m.value2,
                             pa := p.pa + (m.addr - p.va), src := dieOf n, stamp := m.stamp }
        ({ u with damos := u.damos ++ [op] } : State).sendDamo op)

/-- The unit takes the operation into its buffer or its log, or refuses it with RETRY. -/
def State.damoArrive (s : State) (i : Nat) : State :=
  match s.damos.find? fun o => o.id = i with
  | none => s
  | some o =>
    let k := s.unitOf o
    let x := s.dau k
    let rest := s.damos.filter fun (y : DamoOp) => decide (y.id ≠ i)
    let acc (x : Dau) : State := { s.setDau k x with damos := rest }
    if x.buf.length < 16 then acc { x with buf := x.buf ++ [{ o with accepted := true, retry := none }] }
    else if x.log.length < 65536 then acc { x with log := x.log ++ [{ o with accepted := true, retry := none }] }
    else
      -- the retry stamp is of the unit's own index (14 Table 14.1)
      let (st, s) := s.unitStamp 12 (2 + k % 12) (k / 12 % 8)
      let at_ := s.stc + 256
      let l := s.damos.map fun (y : DamoOp) => if y.id = i then { y with retry := some { st with stc := at_ } } else y
      { s with damos := l }.sched at_ phTask (.damoRetryResend i)

def execDamoArrival (op : Nat) (s : State) : Out := .next (s.damoArrive op)

/-- The source sends a refused operation again, with its own stamp. -/
def execDamoRetryResend (op : Nat) (s : State) : Out :=
  let l := s.damos.map fun (y : DamoOp) => if y.id = op then { y with retry := none } else y
  .next (match l.find? fun o => o.id = op with
    | some o => ({ s with damos := l } : State).sendDamo o
    | none => s)

/-- The bridge of a source hears horizons from another package. -/
def State.bridgeHears (s : State) (src : Nat) : Bool :=
  let l : Link := SMap.get {} s.links (4 * (src - 8))
  decide (8 ≤ src) && decide (1 < s.nPkg) && !l.down

/-- Horizon that a source sends: below the STC of every operation it has sent that is not yet accepted, else its own STC; a bridge's no
higher than the one that the far end of its link sent last. -/
def State.horizonOf (s : State) (src : Nat) : Nat :=
  let own := s.damos.foldl (fun h o => if o.src = src then Nat.min h (o.stamp.stc - 1) else h) s.stc
  if s.bridgeHears src then Nat.min own (SMap.get {} s.links (4 * (src - 8)) : Link).horizon else own

/-- A horizon of the far end reaches a bridge: what it sends is open, but never falls back (log 4). -/
def State.farHorizon (s : State) (src : Nat) : State :=
  if s.bridgeHears src then
    let (k, s) := s.drawLat
    let l : Link := SMap.get {} s.links (4 * (src - 8))
    { s with links := SMap.ins s.links (4 * (src - 8)) { l with horizon := Nat.max l.horizon (s.stc - k) } }
  else s

/-- First window that stays open under the horizons that a unit holds. -/
def State.openFrom (s : State) (u : Nat) : Nat :=
  let x := s.dau u
  s.sources.foldl (fun m k => Nat.min m (SMap.get 0 x.horizon k / 256)) (s.stc / 256 + 1)

/-- A source sends a unit its horizon, over the ring behind the operations that it sent before; while the unit holds or awaits operations
it sends again within 256 c. -/
def State.horizon (s : State) (u src : Nat) : State :=
  if !s.sources.contains src then s
  else
    let s := s.farHorizon src
    let s := s.schedRing (stationDie src) (s.unitDie u) (.horizonMessage u src) { mark := true, sent := s.horizonOf src }
    let x := s.dau u
    if x.buf.isEmpty && x.log.isEmpty && !s.damos.any (fun o => s.unitOf o = u) then s
    else
      let (n, s) := s.drawLat
      s.sched (s.stc + 1 + n % 256) phTask (.horizonMessage u src)

/-- A source's horizon reaches a unit, and the windows below every horizon close. -/
def State.hearHorizon (s : State) (u src h : Nat) : State :=
  if !s.sources.contains src then s
  else
    let x := s.dau u
    let s := s.setDau u { x with horizon := SMap.put 0 x.horizon src h }
    if (s.dau u).closed < s.openFrom u ∧ !s.hasJob (.damoWindowClose u) then s.schedUnit s.stc u {} else s

/-- The subject's mark says that the horizon has arrived. -/
def execHorizonMessage (unit src : Nat) (s : State) : Out :=
  .next (if s.inp.mark then s.hearHorizon unit src s.inp.sent else s.horizon unit src)

/-- Order of application: window, word address, then (issuer, seq, origin tag). -/
def damoLt (a b : DamoOp) : Bool :=
  if a.window ≠ b.window then decide (a.window < b.window)
  else if a.pa ≠ b.pa then decide (a.pa < b.pa)
  else a.stamp.ltIssuer b.stamp

/-- One application: the word is recalled from its hot-word cache, changed at home (in the task's shadow where the address lies in
the aperture), and the old value returns. -/
def State.applyDamo (s : State) (o : DamoOp) : State :=
  let sz := if o.size = 0 then 4 else 8
  if o.far then
    let pa := s.resolve o.pa
    let s := s.evictHot (paDie pa) fun w => w = pa / 8
    if o.kind = 0 ∨ s.poisoned pa sz then s
    else s.applyWrite pa (leBytes sz (atomicNew o.kind (8 * sz) (s.dramRead pa sz) o.b.toNat o.c.toNat)) o.stamp
  else
  match (s.core o.core).cmd? o.cmd with
  | none => s
  | some m =>
  match s.homeBad o.core m.pages m.addr sz with
  | some b => (s.stopBadRead o.core b).retireCmd o.core o.cmd
  | none =>
  if (s.slotOf o.core m.addr).isSome then
    let f (v : Nat) : Nat := atomicNew o.kind (8 * sz) v o.b.toNat o.c.toNat
    match s.rmw o.core m.pages m.addr sz f (decide (o.kind ≠ 0)) o.stamp o.cmd with
    | (s, old) =>
      (s.modCore o.core fun c => c.setCmd { m with arrived := true, value := BitVec.ofNat 64 (old.getD 0) }).schedFree phEngine
        (.atomicResultReturn o.core o.cmd)
  else
  let pa := s.resolve o.pa
  let s := s.evictHot (paDie pa) fun w => w = pa / 8
  let old := s.dramRead pa sz
  let s := if o.kind = 0 then s else
    s.applyWrite pa (leBytes sz (atomicNew o.kind (8 * sz) old o.b.toNat o.c.toNat)) o.stamp
  let s := s.modCore o.core fun c => c.setCmd { m with arrived := true, value := BitVec.ofNat 64 old }
  s.schedFree phEngine (.atomicResultReturn o.core o.cmd)

/-- Applications in order, as far as the migration logs take them: the state, and the entries left. -/
def applyDamos : List DamoOp → State → State × List DamoOp
  | [], s => (s, [])
  | o :: t, s => if decide (o.kind ≠ 0) && s.logFull o.pa then (s, o :: t) else applyDamos t (s.applyDamo o)

/-- Entries in their order of application, each with its place among the accesses of the cycle: its own stamp, but none before that of an
entry of its word ahead of it (13 R324, R342). -/
def damoKeys (es : List DamoOp) : List (Stamp × DamoOp) :=
  es.foldl (fun acc o =>
    acc ++ [((acc.filter fun p => p.2.pa / 8 = o.pa / 8).foldl (fun k p => if k.lt p.1 then p.1 else k) o.stamp, o)]) []

/-- The windows below every horizon close, in order, their entries applied in one sort (13 R342) as far as the accesses of the cycle have
come, which is the place of this event among them; the close goes on at the next entry's place. From an application on that a full
migration log refuses, it goes on 1024 c later (14 R361, log 29). -/
def State.closeWindows (s : State) (u : Nat) : State :=
  let w := s.openFrom u
  let x := s.dau u
  let es := sortBy (fun (a b : Stamp × DamoOp) => a.1.lt b.1)
    (damoKeys (sortBy damoLt ((x.buf ++ x.log).filter fun o => decide (o.window < w))))
  let now := es.takeWhile fun p => !s.inp.stamp.lt p.1
  let later := es.drop now.length
  let (s, rest) := applyDamos (now.map (·.2)) s
  let left := rest ++ later.map (·.2)
  let keep (l : List DamoOp) : List DamoOp := l.filter fun o => decide (w ≤ o.window) || left.any fun r => r.id = o.id
  let s := s.setDau u { x with buf := keep x.buf, log := keep x.log, closed := if left.isEmpty then Nat.max x.closed w else x.closed }
  if !rest.isEmpty then s.schedUnit (s.stc + 1024) u {}
  else match later with
    | [] => s
    | p :: _ => s.schedUnit s.stc u p.1

def execDamoWindowClose (unit : Nat) (s : State) : Out := .next (s.closeWindows unit)

end Sys2Proof.Machine
end

