-- ==== Sys2Proof/Machine/Report.lean ====
section
/-! DEFINITION. What the device reports to the host: interrupt causes and vectors (14 R368), error rings (12 R294, 17 R420). -/

namespace Sys2Proof.Machine

/-! ### Interrupts (14 Table 14.5) -/

def causeCompl : Nat := 0
def causeErrRing : Nat := 1
def causeCmdDone : Nat := 2
def causeDrop : Nat := 3
def causeDieLoss : Nat := 4
def causeLinkAlarm : Nat := 5
def causeTamper : Nat := 6
def causeLaunchRej : Nat := 7

/-- A vector is raised: with its mask bit set in the MSI-X table it stays pending, else its message goes to the host. -/
def State.raiseVector (s : State) (v : Nat) : State :=
  let h := s.host
  if (SMap.get 0 h.msix (2 * (v % 64) + 1)).getLsbD 32 then { s with host := { h with pba := h.pba ||| (1#64 <<< (v % 64)) } }
  else { s with host := { h with raised := h.raised ++ [v % 64] } }

/-- A cause sets its bit; it raises its vector once if its mask bit is 1 and the bit was clear. -/
def State.raise (s : State) (k : Nat) : State :=
  let h := s.host
  let had := h.icause.getLsbD k
  let now := !had && h.imask.getLsbD k && decide (k ≠ causeCompl)
  let s := { s with host := { h with icause := h.icause ||| (1#16 <<< k), told := if now then h.told ||| (1#16 <<< k) else h.told } }
  if now then s.raiseVector k else s

/-- What the host is told once a write of the device is made: a completion's vector, or CMDDONE, at which the command leaves the FIFO and
its credit returns (14 R366, R367). -/
def State.tellHost (s : State) (k : Nat) : State :=
  if k = 64 then ({ s with host := { s.host with credit := Nat.min 64 (s.host.credit + 1) } } : State).raise causeCmdDone
  else (s.raise causeCompl).raiseVector (k % 64)

/-- A write of the device with what the host is told once it is made, which a full migration log may put off. -/
def State.deviceTell (s : State) (pa : Nat) (bs : List Byte) (k : Nat) : State :=
  if s.deviceHeld pa then
    let (st, s) := s.unitStamp 11 0 s.lead
    s.refuseWrite pa bs st none (some k)
  else (s.deviceWrite pa bs).tellHost k

/-! ### Error rings -/

/-- An error-ring entry (12 Table 12.4). -/
structure ErrEnt where
  stc : Nat
  issuer : Nat := 0
  code : Nat
  taskid : Nat := 0
  detail : Word := 0
  pcore : Nat := 0
  die : Nat := 0
  first : Nat := 0
  lserial : Nat := 0
  deriving DecidableEq, Repr

def ErrEnt.bytes (e : ErrEnt) : List Byte :=
  leBytes 8 e.stc ++ leBytes 8 (e.issuer % 2 ^ 24 + 2 ^ 24 * (e.code % 256) + 2 ^ 32 * (e.taskid % 2 ^ 32)) ++
  leBytes 8 e.detail.toNat ++
  leBytes 8 (e.pcore % 32 + e.die % 8 * 32 + e.first % 256 * 256 + 2 ^ 32 * (e.lserial % 2 ^ 32))

/-- An entry is written whole before WR advances; a full ring counts it lost. -/
def State.errorEntry (s : State) (ctx : Nat) (e : ErrEnt) : State :=
  match s.ctx? ctx with
  | none => s
  | some x =>
    let wr := s.deviceRead x.errbase 8
    let rd := s.dramRead (x.errbase + 8) 8
    if (wr + 2 ^ 64 - rd) % 2 ^ 64 = x.errcap then
      s.deviceWrite (x.errbase + 16) (leBytes 8 (s.deviceRead (x.errbase + 16) 8 + 1))
    else
      let s := s.deviceWrite (x.errbase + 64 + 32 * (wr % x.errcap)) e.bytes
      (s.deviceWrite x.errbase (leBytes 8 (wr + 1))).raise causeErrRing

/-- An entry of every live context, with no task (17 R420). -/
def State.errorAll (s : State) (code : Nat) (detail : Word) (unit die : Nat) : State :=
  s.ctxs.foldl (fun s x => s.errorEntry x.1
    { stc := s.stc, issuer := (unitIssuer unit 0 die).toNat, code := code, detail := detail, die := die }) s

/-- Physical core under a core number. -/
def State.physOf (s : State) (n : Nat) : Nat := (s.lcEntry n).phys

/-- An entry about the task of core n. -/
def State.errorTask (s : State) (n : Nat) (code : Nat) (detail : Word) (first stc unit : Nat) : State :=
  let c := s.core n
  s.errorEntry c.sys.ctx.toNat
    { stc := stc, issuer := c.tsk.taskno % 2 ^ 20 + 2 ^ 20 * unit, code := code, taskid := c.tsk.task.getD 0, detail := detail,
      pcore := s.physOf n, die := dieOf n, first := first, lserial := c.tsk.lserial }

end Sys2Proof.Machine
end

