-- ==== Sys2Proof/Machine/Reduce.lean ====
section
/-! DEFINITION. Reduction windows (08 R222 to R225; 13 R344; 16 R390). -/

namespace Sys2Proof.Machine

def errBadHandle : Nat := 0x25

/-- Element width of a TYPE in bytes. -/
def rwBytes (ty : Nat) : Nat := if ty % 2 = 0 then 4 else 8

/-- Sum of two elements at the TYPE: one rounding, or modulo 2^w. -/
def rwAdd (ty u v : Nat) : Nat :=
  if ty = 0 then (Fp.fadd Fp.f32 0 u v).1 else if ty = 1 then (Fp.fadd Fp.f64 0 u v).1
  else if ty = 2 then (u + v) % 2 ^ 32 else (u + v) % 2 ^ 64

/-- Least power of two that is at least n. -/
def pow2Up : Nat → Nat → Nat → Nat
  | 0, p, _ => p
  | fuel + 1, p, n => if n ≤ p then p else pow2Up fuel (2 * p) n

/-- The pairwise tree over contributions in order, absent entries filling up (08 R224). -/
def rwTree (ty : Nat) (xs : List Nat) : Option Nat :=
  let m := pow2Up 64 1 xs.length
  (treeGo (fun u v => (rwAdd ty u v, 0)) (Nat.log2 m) (xs.map some ++ List.replicate (m - xs.length) none) 0).1

/-- An open window by its handle in a context. -/
def State.rwin? (s : State) (ctx handle : Nat) : Option RWin := s.rwins.find? fun w => w.ctx = ctx && w.handle = handle
def State.setRwin (s : State) (w : RWin) : State := { s with rwins := s.rwins.map fun x => if x.id = w.id then w else x }

/-- A handle that no open window of the context has: which one is left open (log 4). -/
def State.freeHandle (s : State) (ctx : Nat) : Nat :=
  let h0 := Config.freeChoice s.freeCtr % 65536
  ((List.range 2049).map fun k => (h0 + k) % 65536).find? (fun h => (s.rwin? ctx h).isNone) |>.getD h0

def execRwopen (d a b c : RegF) (mirror : BitVec 1) (scope : BitVec 3) (s : State) : Out :=
  .next (s.issue {} fun t => t.interlock [d, a, b, c] (fun u => u.access false fun u =>
    let core := u.turn.core
    let va := (u.rd a).toNat
    let vb := (u.rd b).toNat
    let vc := (u.rd c).toNat
    let n := vb % 2 ^ 32
    let ty := bitsN vb 32 4
    let ctx := u.cur.sys.ctx.toNat
    let len := n * rwBytes ty
    let md := (u.ctx? ctx).bind (·.mirror)
    let outside := match md with
      | none => true
      | some m => decide (va < m.srcbase) || decide (m.srcbase + m.mlen < va + len)
    if n = 0 ∨ 2 ^ 31 < n ∨ 4 ≤ ty ∨ vb / 2 ^ 36 ≠ 0 ∨ vc = 0 ∨ 2 ^ 24 ≤ vc then .trap .illop 0 false
    else if mirror = 1#1 ∧ outside = true then .trap .illop 0 false
    else if va % 64 ≠ 0 then .trap .addr 0 false
    else u.translated scope.toNat true [(va, len)] fun ps u =>
      if 64 ≤ (u.rwins.filter fun w => w.ctx = ctx && w.die = dieOf core).length then .trap .ovf 0 false
      else
        let h := u.freeHandle ctx
        let u := { u with freeCtr := u.freeCtr + 1 }
        let md := md.getD {}
        let pa := ((u.ctx? ctx).map (·.mirrorPa)).getD 0
        let on := decide (mirror = 1#1) && decide (u.dramRead (pa + 0x30) 8 % md.interval = 0)
        let (i, u) := u.fresh
        let w : RWin := { id := i, handle := h, ctx := ctx, die := dieOf core, base := 0, va := va, n := n, type_ := ty, tasks := vc,
                          scope := scope.toNat, mirror := on, mbase := md.mbase + (va - md.srcbase), pages := ps, owner := u.cur.tsk.task.getD 0 }
        let (st, u) := u.stampFor core (unitOfEng engCle)
        let (id, u) := { u with rwins := u.rwins ++ [{ w with stamp := st }] }.addCmd core
          { mkCmd engCle u.turn.q (.rwopen d a b c mirror scope) with
            dst := d.toNat, value := BitVec.ofNat 64 h, pins := pinKeys ps, pages := ps, stamp := st }
        .done (u.schedFree phEngine (.atomicResultReturn core id))) t)

/-- A contribution is posted as a command of cle, which retires when it has arrived. -/
def State.post (s : State) (m : Cmd) (elem : Nat) (values : List Word) (last : Bool) : Nat × Nat × State :=
  let n := s.turn.core
  let (st, s) := s.stampFor n (seqNum s.turn.q)
  let (id, s) := s.addCmd n { m with stamp := st, cal := s.cal }
  let (i, s) := s.fresh
  let k : Contrib := { id := i, win := none, ctx := s.cur.sys.ctx.toNat, handle := m.obj, core := n, cmd := id, elem := elem,
                       values := values, last := last, stamp := st }
  (id, i, { s with contribs := s.contribs ++ [k] })

def execRwadd (a b c : RegF) (last : BitVec 1) (ord : BitVec 2) (s : State) : Out :=
  .next (s.issue {} fun t => t.interlock [a, b, c] (fun u => u.access (ordRel ord) fun u =>
    if u.cur.tsk.run ≠ 0 then .whole (u.runStop false)
    else
      let (_, i, u) := u.post { mkCmd engCle u.turn.q (.rwadd a b c last ord) with obj := (u.rd a).toNat } (u.rd b).toNat [u.rd c]
        (last = 1#1)
      .done (u.schedFree phTask (.rwContribution i))) t)

def execRwaddBlk (a b c : RegF) (last : BitVec 1) (ord : BitVec 2) (s : State) : Out :=
  .next (s.issue {} fun t => t.interlock [a, b, c] (fun u => u.access (ordRel ord) fun u =>
    let v := (u.rd b).toNat
    let n := (u.rd c).toNat % 2 ^ 13
    let h := (u.rd a).toNat
    let w := match u.rwin? u.cur.sys.ctx.toNat h with
      | some w => rwBytes w.type_
      | none => 4
    let addr := v % 2 ^ 23
    if u.cur.tsk.run ≠ 0 then .whole (u.runStop false)
    else if n = 0 ∨ 4096 < n ∨ bitsN v 23 9 ≠ 0 then .trap .illop 0 false
    else if addr % 64 ≠ 0 ∨ spmSize < addr + n * w then .trap .addr 0 false
    else
      let m : Cmd := { mkCmd engCle u.turn.q (.rwaddBlk a b c last ord) with
        addr := addr, pitch := 64, table := (n * w + 63) / 64, queue := n, value := BitVec.ofNat 64 w, obj := h }
      let (id, _, u) := u.post m (v / 2 ^ 32) [] (last = 1#1)
      .done (u.firstRow u.turn.core m id (seqRank u.turn.q) addr 64)) t)

/-- A 64-byte unit of a contribution's block is read by the bank, the next one a cycle later; after the last it is sent (09 R270). -/
def State.serveBlk (s : State) (n : Nat) (m : Cmd) (row addr : Nat) : State :=
  match s.contribs.find? fun k => k.core = n && k.cmd = m.id with
  | none => s
  | some k =>
    let c := s.core n
    let w := m.value.toNat
    let xs := ((chunks w (64 / w) (c.spmBytes addr 64)).map (BitVec.ofNat 64)).take (m.queue - k.values.length)
    let k := { k with values := k.values ++ xs }
    let s : State := { s with contribs := s.contribs.map fun x => if x.id = k.id then k else x }
    let s := s.modCore n fun c => c.setCmd { m with rows := row + 1 }
    if row + 1 < m.table then
      s.modCore n fun c => { c with reqs := c.reqs ++ [⟨s.stc + 1, seqRank m.q, m.id, row + 1, m.rowAddr (row + 1), 64⟩] }
    else s.schedFree phTask (.rwContribution k.id)

/-- A contribution reaches its window: it is held, or dropped and counted. -/
def State.contribHeld (s : State) (k : Contrib) : State :=
  let s := ({ s with contribs := s.contribs.filter fun (x : Contrib) => decide (x.id ≠ k.id) }).retireCmd k.core k.cmd
  match s.rwin? k.ctx k.handle with
  | none =>
    -- no window exists to count the elements: the error is reported in the context's error ring
    s.errorTask k.core errBadHandle (BitVec.ofNat 64 (k.handle % 65536)) 0 k.stamp.stc (k.stamp.issuer.toNat / 2 ^ 20)
  | some w =>
    let sat (n : Nat) : Nat := Nat.min n (2 ^ 32 - 1)
    if w.tasks ≤ w.lasts then s.setRwin { w with errors := sat (w.errors + k.values.length) }
    else
      let out := ((List.range k.values.length).filter fun j => decide (w.n ≤ k.elem + j)).length
      let w := { w with parts := w.parts ++ [k], errors := sat (w.errors + out), lasts := w.lasts + k.last.toNat }
      let s := s.setRwin w
      if w.lasts = w.tasks then s.schedMemFree (.rwDelivery w.id) w.stamp else s

/-- A contribution takes a slot of cle and runs in it (09 R256), then it arrives. -/
def State.contribArrive (s : State) (i : Nat) : State :=
  match s.contribs.find? fun k => k.id = i with
  | none => s
  | some k =>
    match (s.core k.core).cmd? k.cmd with
    | none => s.contribHeld k
    | some m =>
      if m.slot.isSome then s.contribHeld k
      else match s.grabSlot k.core engCle with
        | none => s.sched (s.stc + 1) phTask (.rwContribution i)
        | some b => (s.takeSlot k.core m b).schedFree phTask (.rwContribution i)

def execRwContribution (contrib : Nat) (s : State) : Out := .next (s.contribArrive contrib)

/-- Contributions to each element, in (issuer, seq, origin tag) order. -/
def RWin.sums (w : RWin) : List (Nat × Nat) :=
  let parts := sortBy (fun (a b : Contrib) => a.stamp.ltIssuer b.stamp) w.parts
  let bits := 8 * rwBytes w.type_
  let table : SMap (List Nat) := parts.foldl (fun m k =>
    ((List.range k.values.length).zip k.values).foldl (fun m p =>
      let e := k.elem + p.1
      if e < w.n then SMap.ins m e (SMap.get [] m e ++ [p.2.toNat % 2 ^ bits]) else m) m) []
  table.filterMap fun p => (rwTree w.type_ p.2).map fun v => (p.1, v)

/-- Delivery of one element and its mirror: false when a full migration log refuses it. In a page of an output slot that no frame backs it
lands in the shadow of the task that opened the window (log 33). -/
def State.deliverOne (s : State) (w : RWin) (e v : Nat) : Bool × State :=
  let sz := rwBytes w.type_
  let va := w.va + e * sz
  match pageOf w.pages va with
  | none => (true, s)
  | some p =>
    if realPa p.pa then
      let pa := p.pa + (va - p.va)
      if s.logFull pa || (w.mirror && s.logFull (w.mbase + e * sz)) then (false, s)
      else
        let bs := leBytes sz (rwAdd w.type_ (s.dramRead pa sz) v)
        let s := s.applyWrite pa bs w.stamp
        (true, if w.mirror then s.applyWrite (w.mbase + e * sz) bs w.stamp else s)
    else if w.mirror && s.logFull (w.mbase + e * sz) then (false, s)
    else
      (true, match (s.rec? w.owner).bind fun r => s.slotFor w.ctx r va with
        | some (name, _, _) =>
          let s := s.modTask w.owner fun c => c.shadowWord p name va sz fun o => rwAdd w.type_ o v
          if w.mirror then s.applyWrite (w.mbase + e * sz) (((s.taskCore w.owner).map fun c => c.shadowBytes va sz).getD []) w.stamp else s
        | none => s)

/-- Delivery of elements in order: the state, and how many were written before one was refused. -/
def State.deliverAll (w : RWin) : List (Nat × Nat) → Nat → State → Nat × State
  | [], k, s => (k, s)
  | (e, v) :: t, k, s =>
    match s.deliverOne w e v with
    | (true, s) => State.deliverAll w t (k + 1) s
    | (false, s) => (k, s)

/-- After the N-th LAST every element that received a contribution is written once, and its mirror (08 R224). From an element on that a full
migration log refuses, the delivery goes on 1024 c later (14 R361, log 29). -/
def State.deliver (s : State) (i : Nat) : State :=
  match s.rwins.find? fun w => w.id = i with
  | none => s
  | some w =>
    let sums := w.sums
    let (k, s) := State.deliverAll w (sums.drop w.done) w.done s
    if k < sums.length then (s.setRwin { w with done := k }).schedMem (s.stc + 1024) (.rwDelivery i) w.stamp
    else s.setRwin { w with delivered := true, parts := [], done := k }

def execRwDelivery (win : Nat) (s : State) : Out := .next (s.deliver win)

/-- A sequencer waits in tlwait or rwclose: its spilled children may come on-chip (12 R307). -/
def State.noteWait (s : State) (k : Nat) : State := s.modCur fun c => { c with tsk := { c.tsk with wait := some (s.turn.q, k) } }
def State.endWait (s : State) : State := s.modCur fun c => { c with tsk := { c.tsk with wait := none } }

end Sys2Proof.Machine
end

