-- ==== Sys2Proof/Machine/Pairing.lean ====
section
/-! DEFINITION. Pairing objects (08 R226 to R228; 13 R338 to R340; 14 R363): pinit, ppush and ppop, their way through the
pairing buffers of the ring stations, and their application at home. -/

namespace Sys2Proof.Machine

/-- pinit writes the 64-byte header in the cycle after its issue; as a release it waits for every earlier access of C. -/
def execPinit (a b : RegF) (s : State) : Out :=
  .next (s.issue {} fun t => t.interlock [a, b] (fun u => u.access true fun u =>
    let n := u.turn.core
    let va := (u.rd a).toNat
    let v := (u.rd b).toNat
    let kind := v % 4
    let cap := bitsN v 16 16
    if kind = 3 ∨ cap = 0 ∨ bitsN v 2 14 ≠ 0 ∨ v / 2 ^ 32 ≠ 0 then .trap .illop 0 false
    else if va % 64 ≠ 0 then .trap .addr 0 false
    else u.translated 0 true [(va, 64)] fun ps u =>
      let (st, u) := u.stampFor n (seqNum .c)
      let (id, u) := u.addCmd n { mkCmd engNone .c (.pinit a b) with
        value := BitVec.ofNat 64 (2 ^ 16 * cap + 2 ^ 32 * kind), addr := va, pages := ps, pins := pinKeys ps, stamp := st, locs := [(locOf ps va, 64)] }
      .done (u.schedMem (u.stc + 1) (.storePerformed n id) st)) t)

/-- Stations from one die to another, both included. -/
def State.stations (s : State) (a b : Nat) : List Nat :=
  let cw := s.dirCw a b
  (List.range (s.hops a b + 1)).map fun k => if cw then (a + k) % 8 else (a + 8 - k) % 8

/-- Stations on the way of an operation: the ring's, and for another package the bridge station, 8 on d0 or 9 on d4 (13 R338, 14 R363).
What it meets beyond the bridge is the other package's (log 24). One that came from another package enters at the bridge station of its
bridge. -/
def State.pairPath (s : State) (n pa : Nat) (far : Bool) : List Nat :=
  if far then (8 + dieOf n / 4) :: s.stations (dieOf n) (paDie pa)
  else if paPkg pa = s.pkg then s.stations (dieOf n) (paDie pa)
  else
    let b := (s.bridgeTo (paPkg pa)).1
    s.stations (dieOf n) b ++ [8 + b / 4]

/-- Operations in the pairing buffer of a station, oldest first. -/
def State.pairBufAt (s : State) (k : Nat) : List Nat := if k < 8 then (s.die k).pairBuf else SMap.get [] s.bridgeBuf k
def State.setPairBuf (s : State) (k : Nat) (l : List Nat) : State :=
  if k < 8 then s.modDie k fun x => { x with pairBuf := l } else { s with bridgeBuf := SMap.ins s.bridgeBuf k l }

/-- Bytes of the object at an address: its header and the items for which the header that stands there at issue has room (08 R226,
log 119). -/
def State.objLen (s : State) (n va : Nat) : Nat :=
  match s.xlateAll n true [(va, 64)] [] with
  | .ok ps => 64 + 8 * leVal (s.homeRead n ps (va + 2) 2)
  | .error _ => 64

/-- Locations of a range of bytes. -/
def rangeLocs (ps : List PageTr) (va len : Nat) : List (Nat × Nat) :=
  ps.map fun p => (locOf [p] (Nat.max va p.va), Nat.min (va + len) (p.va + p.size) - Nat.max va p.va)

/-- Issue of a pairing operation: 08 Table 8.2, the runs that may not issue it, translation, order. -/
def State.pairWord (s : State) (op : Instr) (push : Bool) (d a b : RegF) (que : BitVec 1) (o : Ordr) : State :=
  if s.cal then s.issue {} fun u => if u.cur.tsk.run ≠ 0 then .whole (u.runStop false) else .trap .illop 0 false
  else
    s.issue { audit := true } fun t => t.interlock [d, a, b] (fun u => u.access (ordRel o.ord) fun u =>
      let n := u.turn.core
      let q := u.turn.q
      let va := (u.rd a).toNat
      if u.cur.tsk.run ≠ 0 then .whole (u.runStop true)
      else u.translated o.scope.toNat true [(va, u.objLen n va)] fun ps u =>
        let locs := rangeLocs ps va (u.objLen n va)
        if u.clashes n q (fun _ => true) locs then .wait
        else
          match pageOf ps va with
          | none => .wait
          | some p =>
            let pa := p.pa + (va - p.va)
            let (st, u) := u.stampFor n (seqNum q)
            let (i, u) := u.fresh
            let path := u.pairPath n pa false
            let (id, u) := u.addCmd n { mkCmd engNone q op with
              addr := va, pages := ps, pins := pinKeys ps, stamp := st, locs := locs, value := u.rd b, dst := d.toNat,
              dst2 := if push then 64 else b.toNat, obj := i }
            let op : PairOp := { id := i, core := n, cmd := id, push := push, item := u.rd b, que := que = 1#1, obj := pa, path := path,
                                 stamp := st }
            let u := { u with pairs := u.pairs ++ [op] }
            .done ((u.holdLater (ordAcq o.ord) id).schedFree phTask (.pairingArrival i))) t

def execPpush (d a b : RegF) (que : BitVec 1) (o : Ordr) (s : State) : Out :=
  .next (s.pairWord (.ppush d a b que o) true d a b que o)
def execPpop (d b a : RegF) (que : BitVec 1) (o : Ordr) (s : State) : Out :=
  .next (s.pairWord (.ppop d b a que o) false d a b que o)

/-! ### Stations (13 R338, R339) -/

def State.pair? (s : State) (i : Nat) : Option PairOp := s.pairs.find? fun o => o.id = i
def State.setPair (s : State) (o : PairOp) : State := { s with pairs := s.pairs.map fun x => if x.id = o.id then o else x }

/-- An operation leaves a station: to the next one, or from the last to the header's home unit. -/
def State.forwardPair (s : State) (o : PairOp) : State :=
  let s := match o.held with
    | some d => s.setPairBuf d ((s.pairBufAt d).filter fun i => i ≠ o.id)
    | none => s
  let here := stationDie (o.path.headD 0)
  let o := { o with held := none, path := o.path.tail }
  let s := s.setPair o
  match o.path with
  | [] => s.schedMemFree (.fallThroughApply o.id) o.stamp
  | d :: _ => s.schedRing here (stationDie d) (.pairingArrival o.id) {}

/-- Arrival at the next station: held for up to 64 c in a buffer of 32; a QUEUE operation is never held. -/
def State.pairArrive (s : State) (i : Nat) : State :=
  match s.pair? i with
  | none => s
  | some o =>
    match o.path with
    | [] => s.forwardPair o
    | d :: _ =>
      if o.que || decide (32 ≤ (s.pairBufAt d).length) then s.forwardPair o
      else
        let s := s.setPair { o with held := some d, arrived := s.stc }
        let s := s.setPairBuf d (s.pairBufAt d ++ [i])
        let s := s.sched (s.stc + 64) phTask (.pairingHoldExpiry i)
        let inp : Input := { die := d }
        if s.hasJobInp .claspPairing inp then s else s.schedInp s.stc phEnd .claspPairing inp

def execPairingArrival (op : Nat) (s : State) : Out := .next (s.pairArrive op)

def execPairingHoldExpiry (op : Nat) (s : State) : Out :=
  .next (match s.pair? op with
    | some o => if o.held.isSome && decide (s.stc = o.arrived + 64) then s.forwardPair o else s
    | none => s)

/-- The outcome of an operation: the status of a push, or the item and status of a pop; it returns later. -/
def State.pairDone (s : State) (o : PairOp) (item : Word) (status : Word) : State :=
  let s := { s with pairs := s.pairs.filter fun x => x.id ≠ o.id }
  let s := s.unsched fun e => e = .pairingHoldExpiry o.id
  let s := match o.held with
    | some d => s.setPairBuf d ((s.pairBufAt d).filter fun i => i ≠ o.id)
    | none => s
  match if o.far then none else (s.core o.core).cmd? o.cmd with
  | none => s
  | some m =>
    let m := if o.push then { m with value := status } else { m with value := item, value2 := status }
    (s.modCore o.core fun c => c.setCmd { m with arrived := true }).schedFree phEngine (.atomicResultReturn o.core o.cmd)

/-- One exchange at a switch. -/
def State.exchange (s : State) (p : PairOp × PairOp) : State := (s.pairDone p.1 0 0).pairDone p.2 p.1.item 0

/-- Pairs of a buffer: by object, the k-th push by stamp with the k-th pop (13 R339). -/
def claspPairs (ops : List PairOp) : List (PairOp × PairOp) :=
  ((ops.map (·.obj)).eraseDups).flatMap fun obj =>
    let mine := sortBy (fun (a b : PairOp) => a.stamp.lt b.stamp) (ops.filter fun o => o.obj = obj)
    (mine.filter (·.push)).zip (mine.filter fun o => !o.push)

/-- Up to 8 pairs, in ascending order of the stamp of their push, once in a cycle and after all its arrivals (13 R339); the rest is left
for the next cycle (14 R363). -/
def State.clasp (s : State) (d : Nat) : State :=
  let ps := sortBy (fun (a b : PairOp × PairOp) => a.1.stamp.lt b.1.stamp) (claspPairs ((s.pairBufAt d).filterMap s.pair?))
  let s := (ps.take 8).foldl State.exchange s
  if 8 < ps.length then s.schedInp (s.stc + 1) phEnd .claspPairing { die := d } else s

def execClaspPairing (s : State) : Out := .next (s.clasp s.inp.die)

/-! ### Application at home (08 R226, R228) -/

/-- Page of an address of the object: those of the command, or the page that its context maps there. -/
def State.pairPage (s : State) (n : Nat) (m : Cmd) (va : Nat) : Option PageTr :=
  match pageOf m.pages va with
  | some p => some p
  | none =>
    match s.xlate n va true with
    | .ok p => some p
    | .miss p => if p.size = 0 ∨ !p.write then none else some p
    | _ => none

/-- The migration logs have room for one entry for each of these writes (14 R361). -/
def State.logsTake (s : State) (pas : List Nat) : Bool :=
  let home (a : Nat) : Option Migration := s.migrating (s.resolve a)
  pas.all fun a => match home a with
    | some m => decide ((m.catchUp s.stc).log.length + (pas.filter fun b => (home b).any fun x => x.die = m.die).length ≤ 4096)
    | none => true

/-- A write at home (08 R210), or in the task's shadow of an output slot (log 33). -/
def State.pairWrite (s : State) (n : Nat) (p : PageTr) (va : Nat) (bs : List Byte) (m : Cmd) : State :=
  if (s.slotOf n va).isSome then s.taskWrite n [p] va bs m.stamp m.id
  else s.applyWrite (p.pa + (va - p.va)) bs m.stamp

/-- A push onto, or pop from, an object with its header's COUNT, CAP, KIND and HEADIX: the item index touched, the new COUNT and
HEADIX; none when it is full or empty. QUEUE is FIFO; every other KIND value is LIFO (log 30). -/
def pairStep (push : Bool) (count cap kind headix : Nat) : Option (Nat × Nat × Nat) :=
  if push then
    if cap ≤ count then none
    else some (if kind = 2 then (headix + count) % cap else count, count + 1, headix)
  else if count = 0 then none
  else if kind = 2 then some (headix % cap, count - 1, (headix + 1) % cap)
  else some (count - 1, count - 1, headix)

/-- The core and the command that an operation acts for; one from another package acts on the frame that its export names, for no core
of this package. -/
def State.pairFor (s : State) (o : PairOp) : Option (Nat × Cmd) :=
  if o.far then
    (s.exports.find? fun e => decide (e.frame ≤ o.obj) && decide (o.obj < e.frame + e.bytes)).map fun e =>
      let pages := [⟨e.frame, e.frame, e.bytes, e.write⟩]
      (192, { mkCmd engNone .c (.ppush 0 0 0 0 ⟨0, 0⟩) with addr := o.obj, stamp := o.stamp, pages := pages })
  else ((s.core o.core).cmd? o.cmd).map fun m => (o.core, m)

def State.fallThrough (s : State) (i : Nat) : State :=
  match s.pair? i with
  | none => s
  | some o =>
    match s.pairFor o with
    | none => { s with pairs := s.pairs.filter fun x => x.id ≠ i }
    | some (n, m) =>
      let drop (s : State) : State := { s with pairs := s.pairs.filter fun x => x.id ≠ i }
      match s.homeBad n m.pages m.addr 16 with
      | some b => if o.far then drop s else ((drop s).stopBadRead n b).retireCmd n m.id
      | none =>
        let h := leVal (s.homeRead n m.pages m.addr 16)
        match pairStep o.push (h % 65536) (bitsN h 16 16) (bitsN h 32 8) (bitsN h 64 16), pageOf m.pages m.addr with
        | some (k, count, headix), some hp =>
          let va := m.addr + 64 + 8 * k
          (match s.pairPage n m va with
           | none => if o.far then drop s else (drop s).engineFault n m.id .addr
           | some p =>
             let ha := hp.pa + (m.addr - hp.va)
             let writes := (if o.push then [p.pa + (va - p.va)] else []) ++ ha :: (if bitsN h 32 8 = 2 then [ha + 8] else [])
             if !s.logsTake writes then
               s.schedMem (s.stc + 1024) (.fallThroughApply i) o.stamp
             else
               match s.homeBad n [p] va 8, o.push with
               | some b, false => if o.far then drop s else ((drop s).stopBadRead n b).retireCmd n m.id
               | _, _ =>
                 let item := BitVec.ofNat 64 (leVal (s.homeRead n [p] va 8))
                 let s := if o.push then s.pairWrite n p va (leBytes 8 o.item.toNat) m else s
                 let s := s.pairWrite n hp m.addr (leBytes 2 count) m
                 let s := if bitsN h 32 8 = 2 then s.pairWrite n hp (m.addr + 8) (leBytes 2 headix) m else s
                 s.pairDone o item 0)
        | _, _ => s.pairDone o 0 1

def execFallThroughApply (op : Nat) (s : State) : Out := .next (s.fallThrough op)

end Sys2Proof.Machine
end

