-- ==== Sys2Proof/Machine/Calendar.lean ====
section
/-! DEFINITION. Calendars: booking templates and their checks (09 R244 to R249), placement (R251 to R253), release and compaction
(R254), and the part of a window that a stopped task keeps (R264). -/

namespace Sys2Proof.Machine

/-- Reach of every calendar (09 R241). -/
def horizonLen : Nat := 4194304

/-- A resource held over an interval of cycles: what it is, which one, how much. Kinds: 0 core span, 1 quad, 2 tile port, 3 die
engine, 4 link direction, 5 bridge, 6 DRAM group. -/
structure Use where
  kind : Nat
  res : Nat
  lo : Int
  hi : Int
  amt : Nat
  deriving DecidableEq, Repr

/-- Capacity of a kind (09 Table 9.3, R249). -/
def useCap (kind : Nat) : Nat := if kind ≤ 2 then 1 else if kind = 3 then 4 else if kind = 4 then 33 else if kind = 5 then 10 else 175

def Use.same (a b : Use) : Bool := a.kind = b.kind && a.res = b.res
def Use.shift (u : Use) (d : Int) : Use := { u with lo := u.lo + d, hi := u.hi + d }
def Use.covers (u : Use) (c : Int) : Bool := decide (u.lo ≤ c) && decide (c < u.hi)

/-- Amount of a resource held in a cycle. -/
def heldAt (us : List Use) (u : Use) (c : Int) : Nat := us.foldl (fun k v => if v.same u && v.covers c then k + v.amt else k) 0

/-- In every cycle in which one of `mine` holds a resource, all that hold it stay within its capacity. -/
def fits (others mine : List Use) : Bool :=
  mine.all fun u =>
    let near := (others ++ mine).filter fun v => v.same u && decide (v.lo < u.hi) && decide (u.lo < v.hi)
    (u.lo :: (near.map (·.lo)).filter u.covers).all fun c => decide (heldAt near u c ≤ useCap u.kind)

/-! ### Templates -/

/-- An entry within Tables 9.2 and 9.3 for a window of a length. -/
def entryOk (len : Nat) (e : TEntry) : Bool :=
  decide (1 ≤ e.dur) && decide (e.off + e.dur ≤ len) &&
  (match e.kind with
   | 0 => decide (4 ≤ e.res) && decide (e.res ≤ 6) && decide (1 ≤ e.amt) && decide (e.amt ≤ 4)
   | 1 =>
     let nq := bitsN e.res 4 5
     decide (e.res / 2 ^ 9 = 0) && decide (1 ≤ nq) && decide (bitsN e.res 0 4 + nq ≤ 16) && decide (e.amt = 0)
   | 2 =>
     let nt := bitsN e.res 6 6
     decide (e.res / 2 ^ 13 = 0) && decide (1 ≤ nt) && decide (bitsN e.res 0 6 + nt ≤ 48) && decide (e.amt = 0)
   | 3 =>
     let bridge := bitsN e.res 4 1 = 1
     decide (e.res / 2 ^ 5 = 0) && decide (1 ≤ e.amt) &&
     (if bridge then decide (e.amt ≤ 10) && decide (bitsN e.res 0 3 % 4 = 0) else decide (e.amt ≤ 33))
   | 4 => decide (e.res / 2 ^ 7 = 0) && decide (bitsN e.res 3 4 ≤ 11) && decide (1 ≤ e.amt) && decide (e.amt ≤ 175)
   | _ => false)

def TEntry.span (e : TEntry) (kind res amt : Nat) : Use := ⟨kind, res, e.off, e.off + e.dur, amt⟩

/-- What an entry holds on a core whose number is `n`, relative to T0; `path` gives the boundaries that a link entry or the flits
of a DRAM entry cross. -/
def TEntry.uses (n : Nat) (path : Nat → Option Bool → List (Nat × Bool)) (e : TEntry) : List Use :=
  match e.kind with
  | 0 => [e.span 3 (8 * dieOf n + e.res) e.amt]
  | 1 => (List.range (bitsN e.res 4 5)).map fun k => e.span 1 (16 * n + bitsN e.res 0 4 + k) 1
  | 2 => (List.range (bitsN e.res 6 6)).map fun k => e.span 2 (48 * n + bitsN e.res 0 6 + k) 1
  | 3 =>
    let d := bitsN e.res 0 3
    ((path d (some (bitsN e.res 3 1 = 0))).map fun b => e.span 4 (2 * b.1 + b.2.toNat) e.amt) ++
    (if bitsN e.res 4 1 = 1 then [e.span 5 d e.amt] else [])
  | _ =>
    let d := bitsN e.res 0 3
    e.span 6 (12 * d + bitsN e.res 3 4) e.amt ::
      (if d = dieOf n then [] else (path d none).map fun b => e.span 4 (2 * b.1 + b.2.toNat) ((e.amt + 63) / 64))

/-- The check of a template's own entries, made without knowing its die: link entries meet at their target (09 R249). -/
def ownFits (es : List TEntry) : Bool :=
  let us := es.flatMap fun e => match e.kind with
    | 3 =>
      let d := bitsN e.res 0 3
      e.span 4 (2 * d + bitsN e.res 3 1) e.amt :: (if bitsN e.res 4 1 = 1 then [e.span 5 d e.amt] else [])
    | 4 => [e.span 6 (12 * bitsN e.res 0 3 + bitsN e.res 3 4) e.amt]
    | _ => TEntry.uses 0 (fun _ _ => []) e
  fits [] us

/-- A template entry from its 128 bits; none with a reserved bit set. -/
def readEntry (v : Nat) : Option TEntry :=
  if bitsN v 4 4 ≠ 0 then none
  else some { kind := bitsN v 0 4, res := bitsN v 8 24, off := bitsN v 32 32, dur := bitsN v 64 32, amt := bitsN v 96 32 }

/-- NENT of a header. -/
def headEntries (h : Nat) : Nat := h % 1024

/-- A template from its header and its entries; none when it is invalid (09 R249). PRE is ignored in a template of book. -/
def readTemplate (book : Bool) (h : Nat) (es : List Nat) : Option Template :=
  let len := bitsN h 32 32
  let pre := if book then 0 else bitsN h 64 16
  if bitsN h 10 22 ≠ 0 ∨ bitsN h 80 16 ≠ 0 ∨ h / 2 ^ 96 ≠ 0 then none
  else if !book ∧ pre < 256 then none
  else if len = 0 ∨ horizonLen < len + pre then none
  else
    let xs := es.filterMap readEntry
    if xs.length = es.length && xs.all (entryOk len) && ownFits xs then some { len := len, pre := pre, entries := xs } else none

/-! ### Placement (09 R251) -/

/-- Boundaries, each with its direction, from the die of a core to a die: in a stated direction unless that is cut, or on the
shorter path, CW on a tie. -/
def State.pathFrom (s : State) (n d : Nat) (dir : Option Bool) : List (Nat × Bool) :=
  let a := dieOf n
  let cw := match dir with
    | some c => if s.pathOk a d c then c else !c
    | none => s.dirCw a d
  (boundaries a d cw).map fun b => (b, cw)

/-- Everything a booking holds, relative to T0. A template with no entry of KIND 1 holds every quad (09 R257). -/
def State.usesOf (s : State) (n pre : Nat) (pquads : List Nat) (t : Template) : List Use :=
  (⟨0, n, -256, t.len, 1⟩ : Use) ::
  ((if pre = 0 then [] else pquads.map fun q => (⟨1, 16 * n + q, -(pre : Int), 0, 1⟩ : Use)) ++
   (if t.entries.any fun e => e.kind = 1 then [] else (List.range 16).map fun q => (⟨1, 16 * n + q, 0, t.len, 1⟩ : Use)) ++
   t.entries.flatMap (TEntry.uses n (s.pathFrom n)))

/-- What a placed window holds. -/
def State.windowUses (s : State) (w : Window) : List Use := (s.usesOf w.core w.pre w.pquads w.tmpl).map fun u => u.shift w.t0

/-- The cycles at which a booking may start: the earliest, and those at which one of its intervals begins where another's ends. -/
def starts (lo : Nat) (others mine : List Use) : List Nat :=
  let cs := mine.flatMap fun m => (others.filter fun o => o.same m).filterMap fun o =>
    let t := o.hi - m.lo
    if (lo : Int) < t then some t.toNat else none
  lo :: sortBy (fun (a b : Nat) => decide (a < b)) cs.eraseDups

/-- T0 of a booking requested at cycle q, ignoring some windows: the earliest that meets R251, or none. -/
def State.place (s : State) (n pre : Nat) (pquads : List Nat) (t : Template) (q : Nat) (skip : Window → Bool) : Option Nat :=
  let others := (s.windows.filter fun w => !skip w).flatMap s.windowUses
  let mine := s.usesOf n pre pquads t
  (starts (q + 64 + pre) others mine).find? fun t0 =>
    decide (t0 + t.len ≤ s.stc + horizonLen) && fits others (mine.map fun u => u.shift t0)

/-- Dies on the path of a booking: its core's, and those that its DRAM and link entries name. -/
def pathDies (n : Nat) (t : Template) : List Nat :=
  dieOf n :: (t.entries.filter fun e => e.kind = 3 || e.kind = 4).map fun e => bitsN e.res 0 3

/-- Exit latency of the deepest state on a booking's path (19 Table 19.2, R432). -/
def State.exitLatency (s : State) (n : Nat) (t : Template) : Nat :=
  if s.mgmt.deep then 2100000
  else
    let die (d : Nat) : Nat := match (s.die d).power with
      | .p3 => 105000
      | .p2 => 10500
      | _ => 0
    (pathDies n t).foldl (fun x d => Nat.max x (die d)) (if SMap.get Power.p0 (s.die (dieOf n)).corePower (lcoreOf n) = .p1 then 64 else 0)

/-- The estimate of a window's power, from its booked engines: none without an entry (log 52). -/
def Template.watts (t : Template) : Nat :=
  if t.entries.isEmpty then 0 else Config.windowWatts (t.entries.map fun e => (e.kind, e.res, e.amt))
/-- With the window the estimate stays within PCAP (19 R433). -/
def State.withinCap (s : State) (t : Template) (skip : Window → Bool) : Bool :=
  decide ((s.windows.filter fun w => !skip w).foldl (fun k w => k + w.tmpl.watts) t.watts ≤ s.mgmt.pcap)

/-- T0 of a booking requested now on a core: later by the exit latency of its path, none beyond PCAP, nor on a die too hot (19 R432, R433). -/
def State.placeNow (s : State) (n pre : Nat) (pq : List Nat) (t : Template) (skip : Window → Bool) : Option Nat :=
  if s.withinCap t skip && !s.mgmt.thermal.contains (dieOf n) then s.place n pre pq t (s.stc + s.exitLatency n t) skip else none

/-- The units that a booking needs wake: a unit is awake when its exit latency has passed (19 R431). -/
def State.wakePath (s : State) (n : Nat) (t : Template) : State :=
  let x := s.exitLatency n t
  if x = 0 then s
  else (pathDies n t).eraseDups.foldl (fun s d =>
    s.schedInp (s.stc + x) phTask .powerStateExit { die := d, core := if d = dieOf n then some n else none }) s

/-- The window enters the calendars. -/
def State.addWindow (s : State) (w : Window) : State :=
  { s.wakePath w.core w.tmpl with windows := s.windows ++ [{ w with order := s.order }], order := s.order + 1 }

/-- The current window of the task that core n runs. -/
def State.windowOf (s : State) (n : Nat) : Option Window :=
  match (s.core n).tsk.task with
  | some id => s.windows.find? fun w => w.core = n && w.task = id && w.use = 0
  | none => none

/-- Windows leave the calendars; a release follows (09 R254). -/
def State.dropWindows (s : State) (p : Window → Bool) : State :=
  if !s.windows.any p then s
  else
    let gone := s.windows.filter p
    let s := { s with windows := s.windows.filter fun w => !p w }
    let s := gone.foldl (fun s w => (s.modDie (dieOf w.core) fun d =>
      { d with lastWin := SMap.ins d.lastWin (lcoreOf w.core) (Nat.min s.stc (w.t0 + w.tmpl.len)) }).schedInp (s.stc + 1024) phTask
        .powerStateEntry { die := dieOf w.core, core := some w.core }) s
    if s.hasJob .bookingRelease then s else s.sched s.stc phTask .bookingRelease

/-! ### Compaction (09 R254) -/

/-- Events of a record's start. -/
def startJobs (id : Nat) (e : Instr) : Bool :=
  e = .prologueStart id || e = .coreSpanStart id || e = .taskRunStart id || e = .restorePrologue id

/-- The events that a booked record's window brings. -/
def State.schedStart (s : State) (id t0 pre : Nat) : State :=
  let s := s.unsched (startJobs id)
  ((s.sched (t0 - pre) phTask (.prologueStart id)).sched (t0 - 256) phTask (.coreSpanStart id)).sched t0 phTask (.taskRunStart id)

/-- The events that a stopped record's window brings: its restore prologue, and the first cycle after it. -/
def State.schedRestore (s : State) (id t0 pre : Nat) : State :=
  let s := s.unsched (startJobs id)
  (s.sched (t0 - pre) phTask (.prologueStart id)).sched t0 phTask (.restorePrologue id)

/-- A window takes an earlier T0; what hangs on it follows. -/
def State.moveWindow (s : State) (w : Window) (t0 : Nat) : State :=
  let l := s.windows.map fun (x : Window) => if x.order = w.order then { x with t0 := t0 } else x
  let s : State := { s with windows := l }
  if w.use = 1 then
    s.modCore w.core fun c => { c with tsk := { c.tsk with pending := c.tsk.pending.map fun b => { b with t0 := t0 } } }
  else if w.use = 2 then (s.unsched fun e => e = .calendarT0Resume w.core).sched t0 phTask (.calendarT0Resume w.core)
  else if 2 ^ 32 ≤ w.task then
    let x : Input := { die := dieOf w.core, core := some w.core, phys := w.task % 32 }
    ({ s with agenda := s.agenda.filter fun j => !(j.ev = .testScanStart && j.inp = x) } : State).schedInp (t0 + 256) phTask .testScanStart x
  else
    match s.rec? w.task with
    | none => s
    | some r =>
      let s := s.setRec { r with t0 := t0 }
      if r.residue.isSome then s.schedRestore r.id t0 w.pre else s.schedStart r.id t0 w.pre

/-- A booking is placed again, ignoring itself and, for a booking of the task itself, the task's current window (R252). -/
def State.compactOne (s : State) (w : Window) : State :=
  if w.armed ∨ w.t0 - w.pre ≤ s.stc + 64 then s
  else
    match s.placeNow w.core w.pre w.pquads w.tmpl
        (fun x => x.order = w.order || (w.use ≠ 0 && x.use = 0 && x.task = w.task)) with
    | some t0 => if t0 < w.t0 then s.moveWindow w t0 else s
    | none => s

/-- In the order in which they were first placed. -/
def State.compact (s : State) : State :=
  (sortBy (fun (a b : Window) => decide (a.order < b.order)) s.windows).foldl State.compactOne s

/-! ### What a stopped task keeps (09 R264) -/

/-- Entries clipped to offsets [u, hi), moved so that u is 0. -/
def clipEntries (u hi : Nat) (es : List TEntry) : List TEntry :=
  es.filterMap fun e =>
    let lo := Nat.max e.off u
    let h := Nat.min (e.off + e.dur) hi
    if lo < h then some { e with off := lo - u, dur := h - lo } else none

/-- The window that covers the rest of core n's task from cycle `at_` on: its template, and the stop offset. A task at its window's end
keeps a window of its template's own length, with no entries (R258). -/
def State.residueOf (s : State) (n at_ : Nat) : Option (Template × Nat) :=
  match s.windowOf n with
  | none => none
  | some w =>
    let t0 := (s.core n).sys.t0
    let u := at_ - t0
    let last := w.t0 + w.tmpl.len
    if last ≤ at_ then some ({ len := (s.core n).tsk.win.len, entries := [] }, u)
    else some ({ len := last - at_, entries := clipEntries u (last - t0) (s.core n).tsk.win.entries }, u)

/-- Cycles of a save and of the restore prologue (12 R316, R317). -/
def saveCycles : Nat := 15298
def restorePre : Nat := 15554

/-- A residue that could never be placed. -/
def residueTooLong (t : Template) : Bool := decide (horizonLen < t.len + restorePre)

end Sys2Proof.Machine
end

