-- ==== Sys2Proof/Machine/Mode.lean ====
section
/-! DEFINITION. Regions and their meetings (05 R128 to R130; 09 R262, R263), halt and tend (05 R133; 08 R234), the return from a
trap handler (05 R117; 09 R265), traps of engine faults (07 R177; 08 R240), and booking words (08 R231 to R233). -/

namespace Sys2Proof.Machine

/-! ### Traps at a boundary -/

/-- A sequencer that waits at a meeting traps for its mode word; the check that the mode words issued together is not made after it
(05 R129, R130). What the word did at its issue stands: its token actions, and the step of a loop that ends on it (log 115). -/
def State.meetingTrap (s : State) (n : Nat) (q : Seq) (c : Cause) : State :=
  let s := (s.unsched fun e => e = .modeDrainDone n).modCore n fun k => k.modSeq q fun x => { x with mode := .run }
  s.takeTrap n q c 0 0 ((s.core n).seq q).lastPc true ((s.core n).seq q).last false

def SeqRun.waits : SeqRun → Bool
  | .meeting _ => true
  | _ => false
def SeqRun.stopped : SeqRun → Bool
  | .halted | .ended => true
  | _ => false

/-- First of C, L, X, S that waits at a meeting. -/
def Core.firstMeeting (c : Core) : Option Seq := allSeqs.find? fun q => (c.seq q).mode.waits
def Core.allStopped (c : Core) : Bool := allSeqs.all fun q => (c.seq q).mode.stopped

/-- The fault record of a task whose sequencers all halted; it names the last to halt and the pc of its halt word (log 87). -/
def State.allHalted (s : State) (n : Nat) (q : Seq) : State :=
  s.endTask n errFault (faultDetail (causeCode .soft) (seqNum q) 0 0 ((s.core n).seq q).lastPc.toNat 1023 0 0) 0 (seqNum q)

/-- What follows a halt or tend of a sequencer: a meeting that it breaks, or the end of the task. -/
def State.afterStop (s : State) (n : Nat) (q : Seq) : State :=
  let c := s.core n
  if !(c.seq q).mode.stopped then s
  else
    match c.firstMeeting with
    | some w => s.meetingTrap n w .illop
    | none =>
      if !c.allStopped then s
      else if c.vec.window.isEmpty && !(allSeqs.any fun r => (c.seq r).mode = .ended) then s.allHalted n q
      else s.sched s.stc phTask (.taskEnd n)

def State.stopSeq (s : State) (m : SeqRun) : State :=
  let n := s.turn.core
  let q := s.turn.q
  (s.issue {} fun t => .done (t.modCur fun c => c.modSeq q fun x => { x with mode := m })).afterStop n q

def execHalt (s : State) : Out := .next (s.stopSeq .halted)
def execTend (s : State) : Out := .next (s.stopSeq .ended)

/-! ### Mode words (05 R128 to R130; 09 R262) -/

/-- SELs of the sequencers at the meeting; SEL 1 is true. -/
def Core.sels (c : Core) : List Bool := allSeqs.filterMap fun q => match (c.seq q).mode with
  | .meeting b => some b
  | _ => none

/-- The fourth mode word has issued, in a calendar region in the cycle of the others: the check of R262, else the drain begins. -/
def State.meet (s : State) (n : Nat) : State :=
  let c := s.core n
  if c.sels.length < 4 ∨ c.tsk.meetAt.isSome then s
  else if !c.sys.region && allSeqs.any (fun q => (c.seq q).last ≠ s.stc) then s
  else if c.sels.all (· = false) && c.tsk.armed.isNone then s.meetingTrap n .c .illop
  else
    ((s.setCore n { c with tsk := { c.tsk with meetAt := some s.stc, drained := false } }).unsched
      fun e => e = .modeDrainDone n).sched s.stc phTask (.modeDrainDone n)

/-- A mode word: it names its region and waits. In a calendar region a check at the end of the cycle sees whether all four issued
together; it is not made once R130 has answered for the four. -/
def State.modeWord (s : State) (sb : Bool) : State :=
  let n := s.turn.core
  let q := s.turn.q
  let others := (s.core n).sels
  let s' := s.issue { branch := true } fun t =>
    let c := t.cur
    if c.sys.handler.isSome || allSeqs.any (fun r => (c.seq r).mode.stopped) then .trap .illop 0 false
    else if others.length = 3 && others.any (· ≠ sb) then .trap .illop 0 false
    else .done (t.modCur fun c => c.modSeq q fun x => { x with mode := .meeting sb })
  if ((s'.core n).seq q).mode.waits then
    let s' := if (s'.core n).sys.region || s'.hasJob (.modeDrainDone n) then s' else s'.sched s'.stc phEnd (.modeDrainDone n)
    s'.meet n
  else if others.length = 3 && others.any (· ≠ sb) then s'.unsched fun e => e = .modeDrainDone n
  else s'

def execModeCal (s : State) : Out := .next (s.modeWord false)
def execModeSb (s : State) : Out := .next (s.modeWord true)

/-- Every engine command of the core's task has retired, and no handler runs. -/
def Core.drainedNow (c : Core) : Bool :=
  !(c.cmds.any fun m => m.eng < 7) && c.tsk.copies.isEmpty && c.mx.queue.isEmpty && c.mx.runs.isEmpty && c.vec.words.isEmpty &&
  c.vec.window.isEmpty && c.sys.handler.isNone

/-- The window's end falls due. -/
def State.schedEnd (s : State) (n : Nat) : State :=
  let s := s.unsched fun e => e = .windowEnd n
  match s.windowOf n with
  | some w => s.sched (w.t0 + w.tmpl.len) phTask (.windowEnd n)
  | none => s

/-- Placement of the armed booking of a drained task: at its own T0 when that lies ahead on its core, else again from now (09 R263). -/
def State.placeArmed (s : State) (n : Nat) (again : Bool) : State :=
  let c := s.core n
  match c.tsk.armed, c.tsk.task with
  | some b, some id =>
    let mine (w : Window) : Bool := w.core = n && w.task = id && w.use = 1
    if !again && s.windows.any mine && decide (s.stc < b.t0) then s.sched b.t0 phTask (.calendarT0Resume n)
    else
      let s := s.dropWindows fun w => w.task = id && w.use = 1
      match s.placeNow n 0 [] b.tmpl (fun w => w.task = id) with
      | some t0 =>
        let s := s.addWindow { task := id, core := n, t0 := t0, pre := 0, tmpl := b.tmpl, order := 0, armed := true, use := 1 }
        (s.modCore n fun c => { c with tsk := { c.tsk with armed := some { b with t0 := t0 } } }).sched t0 phTask (.calendarT0Resume n)
      | none => s
  | _, _ => s

/-- End of the drain: a switch to a scoreboard region resumes the streams; one to a calendar region waits for the armed T0. -/
def State.drainDone (s : State) (n : Nat) : State :=
  let c := s.core n
  match c.tsk.meetAt with
  | none =>
    -- in a calendar region the four mode words did not issue together (R129)
    match allSeqs.find? fun q => !c.sys.region && (c.seq q).mode.waits && decide ((c.seq q).last = s.stc) with
    | some q =>
      let s := s.modCore n fun k => k.modSeqs fun x => if x.mode.waits then { x with mode := .run } else x
      s.takeTrap n q .schedmiss 0 0 (c.seq q).lastPc true (c.seq q).last false
    | none => s
  | some _ =>
    if c.tsk.drained then s
    else if !c.drainedNow then s.sched (s.stc + 1) phTask (.modeDrainDone n)
    else
      let sb := c.sels.all (· = true)
      let c := { c with tsk := { c.tsk with meetAt := none, drained := false } }
      if sb then
        s.setCore n { c.modSeqs (fun x => { x with mode := .run, last := s.stc, first := false, extra := 0, retry := 0 }) with
          sys := { c.sys with region := true } }
      else
        let c := { c with sys := { c.sys with hold := true }, tsk := { c.tsk with meetAt := some s.stc, drained := true } }
        (s.setCore n c).placeArmed n false

def execModeDrainDone (core : Nat) (s : State) : Out := .next (s.drainDone core)

/-! ### The T0 of a calendar region (09 R263, R265) -/

/-- The residue of a handler's return is placed (09 R265). -/
def State.placeReturn (s : State) (n : Nat) : State :=
  let c := s.core n
  match c.tsk.rebook, c.tsk.task with
  | some u, some id =>
    (match s.residueOf n (c.sys.t0 + u) with
     | none => s
     | some (t, _) =>
       match s.placeNow n 0 [] t (fun w => w.task = id && w.use = 0) with
       | some rz =>
         let s := s.addWindow { task := id, core := n, t0 := rz, pre := 0, tmpl := t, order := 0, use := 2 }
         s.sched rz phTask (.calendarT0Resume n)
       | none => s)
  | _, _ => s

/-- The streams move with the task's T0 (09 R264). -/
def SeqSt.shiftT0 (x : SeqSt) (t0 t1 : Nat) : SeqSt :=
  { x with last := t1 + x.last - t0, retry := 0, dueAt := x.dueAt.map fun d => t1 + d - t0, saved := t1 + x.saved - t0 }

/-- The window of some use becomes the task's current one, and the one before it is released. -/
def State.takeWindow (s : State) (n use : Nat) : State :=
  match (s.core n).tsk.task with
  | none => s
  | some id =>
    let s := s.dropWindows fun w => w.task = id && w.use = 0
    let l := s.windows.map fun (w : Window) => if w.task = id ∧ w.use = use ∧ (use = 2 ∨ w.armed = true) then { w with use := 0, armed := false } else w
    ({ s with windows := l } : State).schedEnd n

/-- What a task's window books from stop offset u on, by offset from its T0: the entries of its residue (09 R264). -/
def TaskSt.clipped (k : TaskSt) (u : Nat) (t : Template) : TaskSt :=
  { k with win := { k.win with entries := t.entries.map fun e => { e with off := e.off + u } } }

def State.t0Resume (s : State) (n : Nat) : State :=
  let c := s.core n
  match c.tsk.rebook with
  | some u =>
    let t0 := c.sys.t0
    let t1 := s.stc - u
    let t := ((s.windows.find? fun w => some w.task = c.tsk.task && w.use = 2).map (·.tmpl)).getD {}
    let c := c.modSeqs fun x => x.shiftT0 t0 t1
    let c := { c with sys := { c.sys with t0 := t1, hold := false, restarted := true }, tsk := { c.tsk.clipped u t with rebook := none } }
    ((s.setCore n c).takeWindow n 2).kickMatrix n (s.stc + 1)
  | none =>
    match c.tsk.armed with
    | none => s
    | some b =>
      let c := c.modSeqs fun x => { x with mode := .run, last := s.stc, first := true, extra := 0, retry := 0, dueAt := none }
      let c := { c with sys := { c.sys with t0 := s.stc, hold := false, region := false },
                        tsk := { c.tsk with armed := none, win := b.tmpl, meetAt := none, drained := false } }
      (s.setCore n c).takeWindow n 1

def execCalendarT0Resume (core : Nat) (s : State) : Out := .next (s.t0Resume core)

/-! ### ret.eh (05 R117) -/

/-- Legal only in the handler of its own sequencer. In a scoreboard region every stream goes on where it stopped; in a calendar
region they wait for the new T0. -/
def execRetEh (s : State) : Out :=
  .next (s.issue { branch := true } fun t =>
    let n := t.turn.core
    let q := t.turn.q
    if t.cur.sys.handler ≠ some q then .trap .illop 0 false
    else if q = .x ∧ t.cur.vec.window.length > 1 then .wait
    else
      let c := pushTokens t.stc q (pushList q t.turn.hdr.push) t.cur
      let saved := (c.seq q).saved
      let c := c.leaveHandler q t.stc
      if c.sys.region then .whole (t.setCore n c)
      else
        let c := c.modSeq q fun x => { x with dueAt := some saved }
        let c := { c with sys := { c.sys with hold := true }, tsk := { c.tsk with rebook := some (c.sys.trapAt - c.sys.t0) } }
        .whole ((t.setCore n c).placeReturn n))

/-! ### Traps of engine faults (07 R177; 08 R240) -/

/-- Sequencer and cause of the fault of an engine. -/
def Core.engFaultOf (c : Core) (e : Nat) : Option (Cause × Seq) :=
  if e = engMxe then c.mx.fault.map fun f => (f.1, .x) else (c.engine e).fault

/-- The fault's bit falls when its trap is taken. -/
def Core.clearFault (c : Core) (e : Nat) : Core :=
  let c := c.modEngine e fun x => { x with flt := false, fault := none }
  if e = engMxe then { c with mx := { c.mx with fault := none } } else c

/-- Commands handed to an engine in the cycle before this one, in which it faulted: their stamps precede the fault's, so that they
leave with the queue (07 R177, 08 R240, 09 R267). -/
def State.discardQueued (s : State) (n e : Nat) : State :=
  if e = engMxe then
    (s.unsched fun ev => ev = .matrixCommandStart n).modCore n fun c =>
      let c := c.laterN (s.stc + 1) c.mx.queue.length (.engRetire engMxe)
      { c with mx := { c.mx.leave s.stc c.mx.queue.length with queue := [] } }
  else if e < 7 then s.discardCmds n ((s.core n).cmds.filter fun m => m.eng = e && decide (m.issued + 1 = s.stc))
  else s

/-- The trap of an engine fault at the next boundary of the sequencer that issued the command; a halted one takes none, and the
task ends. -/
def State.engTrap (s : State) (n e : Nat) : State :=
  let c := (s.core n).settle s.stc
  let s := s.setCore n c
  match c.tsk.task, c.engFaultOf e with
  | some _, some (cause, q) =>
    let x := c.seq q
    if c.tsk.ending.isSome then s
    else
      -- commands of the fault cycle precede the fault, and leave with the rest of the queue (09 R267)
      let s := (s.setCore n (c.clearFault e)).discardQueued n e
      -- a word of X whose trap waits has not issued, and traps again when X resumes at it
      let s := if q = .x then s.modCore n fun c => { c with vec := { c.vec with lateTrap := none } } else s
      if x.mode.stopped then
        s.endTask n errFault (faultDetail (causeCode cause) (seqNum q) 0 (mxDetail c (e = engMxe)) x.lastPc.toNat 0 0 0) 0 (unitOfEng e)
      else s.takeTrap n q cause 0 0 x.pc false s.stc (e = engMxe)
  | _, _ => s

def execEngineFaultTrap (core eng : Nat) (s : State) : Out := .next (s.engTrap core eng)

/-! ### book, bookq, start, cut (08 R231 to R233) -/

/-- The template at a scratchpad address of the core: a trap, or the template. -/
def Core.spmTemplate (c : Core) (a : Nat) : Except Cause Template :=
  if a % 64 ≠ 0 ∨ spmSize < a + 16 then .error .addr
  else
    let h := c.spm.read a 16
    let k := headEntries h
    if spmSize < a + 16 + 16 * k then .error .addr
    else
      match readTemplate true h ((List.range k).map fun i => c.spm.read (a + 16 + 16 * i) 16) with
      | some t => .ok t
      | none => .error .illop

/-- A word of C that Table 8.2 refuses in a calendar region. -/
def State.sbWord (s : State) (k : Kind) (regs : List RegF) (body : State → Res) : State :=
  if s.cal then s.issue { branch := k.branch } fun _ => .trap .illop 0 false
  else s.issue k fun t => t.interlock regs (fun u => u.access false body) t

def execBook (d a : RegF) (s : State) : Out :=
  .next (s.sbWord { branch := true } [d, a] fun u =>
    let n := u.turn.core
    match u.cur.spmTemplate (u.rd a).toNat, u.cur.tsk.task with
    | .error c, _ => .trap c 0 false
    | .ok _, none => .done (u.wrFree d 0)
    | .ok t, some id =>
      -- a booking not yet started is released first (log 31)
      let u := u.dropWindows fun w => w.task = id && w.use = 1
      let k := u.cur.tsk.bookCount + 1
      match u.placeNow n 0 [] t (fun w => w.task = id && w.use = 0) with
      | none => .done ((u.modCur fun c => { c with tsk := { c.tsk with pending := none, armed := none } }).wrFree d 0)
      | some t0 =>
        let u := u.modCur fun c => { c with tsk := { c.tsk with bookCount := k, pending := some ⟨k, t0, t⟩, armed := none } }
        let u := u.addWindow { task := id, core := n, t0 := t0, pre := 0, tmpl := t, order := 0, use := 1 }
        .done (u.wrFree d (BitVec.ofNat 64 k)))

/-- It answers where book would place the template: book releases the booking not yet started first. -/
def execBookq (d a : RegF) (s : State) : Out :=
  .next (s.sbWord { audit := true } [d, a] fun u =>
    match u.cur.spmTemplate (u.rd a).toNat with
    | .error c => .trap c 0 true
    | .ok t =>
      let v : Word := match u.placeNow u.turn.core 0 [] t (fun w => some w.task = u.cur.tsk.task && (w.use = 0 || w.use = 1)) with
        | some t0 => BitVec.ofNat 64 t0
        | none => BitVec.allOnes 64
      .done (u.wrFree d v))

def execStart (a : RegF) (s : State) : Out :=
  .next (s.sbWord {} [a] fun u =>
    match u.cur.tsk.pending with
    | none => .trap .illop 0 false
    | some b =>
      if (u.rd a).toNat ≠ b.count then .trap .illop 0 false
      else
        let l := u.windows.map fun (w : Window) => if some w.task = u.cur.tsk.task ∧ w.use = 1 then { w with armed := true } else w
        .done (({ u with windows := l } : State).modCur fun c =>
          { c with tsk := { c.tsk with pending := none, armed := some b } }))

/-- With a request pending, four cut words in one cycle stop the task; else cut acts as nop. -/
def execCut (s : State) : Out :=
  .next (
    let n := s.turn.core
    s.issue {} fun t =>
      let k := t.cur.tsk
      if k.preempt.isNone then .done t
      else
        let cs := (if k.cutAt = t.stc then k.cuts else []) ++ [t.turn.q]
        let t := t.modCur fun c => { c with tsk := { c.tsk with cuts := cs, cutAt := t.stc } }
        .done (if 4 ≤ cs.length then t.sched t.stc phTask (.preemptCutStop n) else t))

end Sys2Proof.Machine
end

