-- ==== Sys2Proof/Machine/Directory.lean ====
section
/-! DEFINITION. The tile directory, the Hedgerow and Pruning (16 R378 to R383; 18 R423): entries, lineage and consumer records in
a shard and its mirror, depth, replicas, trim and release. -/

namespace Sys2Proof.Machine

/-! ### Copies of frames -/

/-- A block of zeros. -/
def Memory.zeroRange (m : List Host.Cell) (a n : Nat) : List Host.Cell :=
  m.filter fun p => decide (p.1 < a) || decide (a + n ≤ p.1)

/-- Poison marks of [dst, dst + n) become those of [src, src + n) (17 R397). -/
def State.copyPoison (s : State) (src dst n : Nat) : State :=
  let marks := ((s.die (paDie src)).poison.filter fun p => decide (src ≤ 32 * p.1) && decide (32 * p.1 < src + n)).map (·.1)
  let s := s.modDie (paDie dst) fun d =>
    { d with poison := d.poison.filter fun p => decide (32 * p.1 < dst) || decide (dst + n ≤ 32 * p.1) }
  marks.foldl (fun s k => s.modDie (paDie dst) fun d =>
    { d with poison := SMap.put false d.poison (k - src / 32 + dst / 32) true }) s

/-- A frame's content, marks included, is copied to another frame. -/
def State.copyFrame (s : State) (src dst n : Nat) : State :=
  let s := s.evictHot (paDie src) fun w => decide (src ≤ 8 * w) && decide (8 * w < src + n)
  ({ s with dram := (s.frameCells src n).foldl (fun m c => SMap.put Memory.unlisted m (dst + c.1) c.2) (Memory.zeroRange s.dram dst n),
            saveAreas := s.saveAreas.map fun a => a.spoil dst n } : State).copyPoison src dst n

/-- A frame for a version's page on a die, zeroed by its controller (13 R336); one of the bad-frame list is never taken (17 R398). -/
def State.newFrame (s : State) (d : Nat) : Nat × State :=
  let low := SMap.get 0 s.nextFrame d
  let bad := s.bx.badFrames.map (·.1)
  let k := ((List.range (bad.length + 1)).find? fun i => !bad.contains (paFrame (tileFrames s.pkg d + 65536 * (low + i)))).getD 0 + low
  let pa := tileFrames s.pkg d + 65536 * k
  (pa, { s with nextFrame := SMap.ins s.nextFrame d (k + 1), dram := Memory.zeroRange s.dram pa 65536 })

/-- Frames on a die that hold copies of the given ones. -/
def State.copyFrames (s : State) (d : Nat) (fs : SMap Nat) : SMap Nat × State :=
  fs.foldl (fun (p : SMap Nat × State) f =>
    let (pa, s) := p.2.newFrame d
    (SMap.ins p.1 f.1 pa, s.copyFrame f.2 pa 65536)) ([], s)

/-- Cycles of a version's copy at 64 B per c: 1024 a frame. -/
def copyCycles (fs : SMap Nat) : Nat := 1024 * fs.length

/-! ### Lineage -/

/-- Die that mirrors the shard of a die: its partner, or the stand-in of a lost partner (16 R388). -/
def State.mirrorDie (s : State) (h : Nat) : Option Nat := if (s.die (partner h)).lost then (s.die h).fill else some (partner h)

/-- Lineage record of a version in a shard copy: its home shard, or else the mirror (16 R380, R384). -/
def State.lineage? (s : State) (name : Nat) : Option Lineage :=
  let h := s.homeOf name
  match (s.die h).shard.lineage.find? fun l => l.name = name with
  | some l => some l
  | none => (s.mirrorDie h).bind fun m => (s.die m).mirror.lineage.find? fun l => l.name = name

/-- Every lineage record of the package: those of the shards, and those on their way. -/
def State.lineages (s : State) : List Lineage :=
  (List.range 8).flatMap (fun d => (s.die d).shard.lineage) ++ s.sentLin

/-- Bytes of the region that holds a shard: the manual gives no size; a page's sixteenth, room for any one record with its consumer
entries and its header, and an open rest (16 R382, log 36). -/
def shardCap : Nat := 4096 + Config.shardBytes

/-- Bytes of a lineage record (16 Table 16.3), and of what a shard holds. -/
def Lineage.bytes (l : Lineage) : Nat := (64 + 8 * l.opds.length + 63) / 64 * 64
def Shard.bytes (x : Shard) : Nat := x.lineage.foldl (fun n l => n + l.bytes) 0 + 16 * x.consumers.length + 96 * x.headers.length

/-- The copy of the launch header that a record names, and a record with it. -/
def Shard.header? (x : Shard) (l : Lineage) : Option (List Byte) := (x.headers.find? fun h => h.1 = l.ctx && h.2.1 = l.lserial).map (·.2.2)
def Shard.addLineage (x : Shard) (header : List Byte) (l : Lineage) : Shard :=
  { x with lineage := (x.lineage.filter fun y => y.name ≠ l.name) ++ [l],
           headers := if (x.header? l).isSome then x.headers else x.headers ++ [(l.ctx, l.lserial, header)] }
/-- The records of one shard copy are added to another. -/
def Shard.merge (x y : Shard) (ls : List Lineage) (cs : List (Nat × Nat)) (add : Shard → Nat × Nat → Shard) : Shard :=
  cs.foldl add (ls.foldl (fun s l => s.addLineage ((y.header? l).getD []) l) x)
/-- Bytes that one more record takes. -/
def Shard.needs (x : Shard) (l : Lineage) : Nat := l.bytes + if (x.header? l).isSome then 0 else 96
def Shard.addConsumer (x : Shard) (c : Nat × Nat) : Shard :=
  if x.consumers.contains c then x else { x with consumers := x.consumers ++ [c] }

def State.modShard (s : State) (mirror : Bool) (d : Nat) (f : Shard → Shard) : State :=
  s.modDie d fun x => if mirror then { x with mirror := f x.mirror } else { x with shard := f x.shard }

/-- A lineage record that reaches a die goes into its shard where it is the output's home now, else into its mirror; from the home shard its
consumer entries go to the shards of those operands that have a lineage record of their own (R381). -/
def State.storeLineage (s : State) (l : Lineage) (d : Nat) : State :=
  let header := (((s.launches.find? fun x => x.ctx = l.ctx && x.lserial = l.lserial)).map (·.header)).getD []
  if d ≠ s.homeOf l.name then s.modShard true d fun x => x.addLineage header l
  else
    let s := s.modShard false d fun x => x.addLineage header l
    (l.opds.filter fun u => s.lineages.any fun x => x.name = u).foldl (fun s u =>
      let hu := s.homeOf u
      let s := s.modShard false hu fun x => x.addConsumer (u, l.name)
      match s.mirrorDie hu with
      | some m => s.modShard true m fun x => x.addConsumer (u, l.name)
      | none => s) s

/-- Deletion of a version's lineage record, of the consumer entries that name it as an output, and of its own, which are kept no longer
than its record (R381), in every shard copy. -/
def Shard.trim (x : Shard) (name : Nat) : Shard :=
  let ls := x.lineage.filter fun l => l.name ≠ name
  { lineage := ls, consumers := x.consumers.filter fun c => c.1 ≠ name && c.2 ≠ name,
    headers := x.headers.filter fun h => ls.any fun l => l.ctx = h.1 && l.lserial = h.2.1 }
def State.trim (s : State) (name : Nat) : State :=
  let s : State := { s with sentLin := s.sentLin.filter fun l => l.name ≠ name }
  (List.range 8).foldl (fun s d => s.modDie d fun x => { x with shard := x.shard.trim name, mirror := x.mirror.trim name }) s

/-! ### Who needs a version -/

def State.liveRec (r : TaskRec) : Bool := decide (r.st ≠ .ended)
/-- A record that has not ended names the version. -/
def State.named (s : State) (name : Nat) : Bool :=
  s.recs.any fun r => State.liveRec r && (r.ins.contains name || r.outs.contains name)
/-- A version is live (16 R383). -/
def State.versionLive (s : State) (e : DirEnt) : Bool :=
  s.named e.name || !s.dir.any fun x => tileId x.name = tileId e.name && decide (tileVer e.name < tileVer x.name) && decide (x.st = .full)

/-- Names reached backwards from a list in one step. -/
def opdsOf (ls : List Lineage) (names : List Nat) : List Nat := (ls.filter fun l => names.contains l.name).flatMap (·.opds)
/-- Names reached backwards, passing on only through versions that `through` admits. -/
def reachGo (ls : List Lineage) (through : Nat → Bool) : Nat → List Nat → List Nat → List Nat
  | 0, _, acc => acc
  | fuel + 1, front, acc =>
    let nx := ((opdsOf ls front).filter fun u => !acc.contains u).eraseDups
    if nx.isEmpty then acc else reachGo ls through fuel (nx.filter through) (acc ++ nx)

def State.replicated (s : State) (name : Nat) : Bool := (s.dirEnt name).any (·.repl)

/-- Versions that some live version reaches backwards by a path that passes no version with REPL = 1. -/
def State.neededNames (s : State) : List Nat :=
  let ls := s.lineages
  let through (u : Nat) : Bool := !s.replicated u
  let roots := ((s.dir.filter fun e => !e.repl && s.versionLive e).map (·.name))
  reachGo ls through ls.length roots roots

/-- Context that a version belongs to: that of its lineage, or of a record that declares it. -/
def State.ctxOfName (s : State) (name : Nat) : Option Nat :=
  match s.lineages.find? fun l => l.name = name with
  | some l => some l.ctx
  | none => (s.recs.find? fun r => r.outs.contains name).map (·.ctx)

/-- The frames of a version and of its copies are freed. -/
def State.freeFrames (s : State) (fs : SMap Nat) : State :=
  fs.foldl (fun s f => { s with dram := Memory.zeroRange s.dram f.2 65536 }) s

/-- The lineage report of a version awaits an acknowledgement. -/
def State.pendingAck (s : State) (name : Nat) : Bool := s.sentLin.any fun l => l.name = name

/-- The content of a version is replaced: its replica and its other copies are worth nothing any more, nor is a copy under way. -/
def State.dropCopies (s : State) (name : Nat) : State :=
  match s.dirEnt name with
  | none => s
  | some e =>
    let s := e.copies.foldl (fun s c => s.freeFrames c.2) (s.freeFrames e.rframes)
    (s.setDir { e with repl := false, rframes := [], copies := [] }).unsched fun i => i = .replicaComplete name

/-- Release of every version of a context that is not live and that nothing needs (16 R383; 18 R423). -/
def State.releaseVersions (s : State) (ctx : Nat) : State :=
  let needed := s.neededNames
  -- what is still to be acknowledged stays (01 R29)
  let gone := s.dir.filter fun e => (e.st = .full || e.st = .poisoned) && !s.versionLive e && decide (s.ctxOfName e.name = some ctx) &&
    !s.pendingAck e.name && !(needed.contains e.name && (s.lineages.any fun l => l.name = e.name))
  gone.foldl (fun s e =>
    let s := e.copies.foldl (fun s c => s.freeFrames c.2) ((s.freeFrames e.frames).freeFrames e.rframes)
    let s := { s with dir := s.dir.filter fun x => x.name ≠ e.name }
    s.trim e.name) s

/-- Pruning behind a version whose replica is complete. -/
def State.prune (s : State) (name : Nat) : State :=
  let ls := s.lineages
  let back := reachGo ls (fun _ => true) ls.length [name] []
  let needed := s.neededNames
  let s := (back.filter fun u => u ≠ name && !needed.contains u && !s.pendingAck u).foldl State.trim s
  match s.ctxOfName name with
  | some c => s.releaseVersions c
  | none => s

/-! ### Depth and replication (16 R383) -/

/-- DEPTH of a version made from these operands. -/
def State.depthOf (s : State) (ins : List Nat) : Nat :=
  1 + ins.foldl (fun d u => match s.dirEnt u with
    | some e => if e.rpend then d else Nat.max d e.depth
    | none => d) 0

/-- Die that holds or takes the replica of a version. -/
def State.replicaDie (s : State) (name : Nat) : Option Nat := s.mirrorDie (s.homeOf name)

/-- The copy of a FULL version is asked of its home's cpe, which copies 64 B per c. -/
def State.startReplica (s : State) (name : Nat) : State :=
  match s.dirEnt name with
  | some e =>
    if s.hasJob (.replicaComplete name) || e.repl then s
    else (s.setDir { e with rpend := true }).schedDarner s.stc (.replicaComplete name) name
  | none => s

/-! ### The entry as it reads (16 Table 16.1) -/

/-- Entries of a version in the consumer index, at its home. -/
def State.ncons (s : State) (name : Nat) : Nat :=
  ((s.die (s.homeOf name)).shard.consumers.filter fun c => c.1 = name).length
/-- Records in WAIT on a version (18 R424). -/
def State.nwait (s : State) (name : Nat) : Nat :=
  if (s.dirEnt name).any fun e => e.st = .full then 0 else (s.recs.filter fun r => r.st = .wait && r.ins.contains name).length

/-- State code of a version (08 Table 8.6). -/
def TileSt.code : TileSt → Nat
  | .empty => 0 | .full => 1 | .poisoned => 2 | .lost => 3 | .revoked => 4

/-- The 64 bytes of a directory entry, as eight words. -/
def State.dirWords (s : State) (e : DirEnt) : List Nat :=
  let list (d : Nat) : Nat := (Config.frameList d e.name).toNat
  [e.name % 2 ^ 64,
   e.st.code + 8 * e.suspect.toNat + 16 * e.audit.toNat + 32 * e.rpend.toNat + 64 * e.repl.toNat + 128 * e.xout.toNat +
     256 * (e.depth % 256) + 2 ^ 16 * (e.dbound % 256) + 2 ^ 24 * (e.iprio % 8) + 2 ^ 27 * (e.linack && e.mirack).toNat,
   list (s.homeOf e.name), if e.repl then list e.rdie + 2 ^ 43 * (e.rdie % 8) else 0,
   s.ncons e.name % 2 ^ 32 + 2 ^ 32 * (s.nwait e.name % 2 ^ 32), e.stc % 2 ^ 64, 0, 0]

/-- An entry about a version, in the error ring of its context or, when no record names one, of every live context. -/
def State.errorName (s : State) (code name die : Nat) : State :=
  let ent : ErrEnt := { stc := s.stc, issuer := (unitIssuer 11 2 die).toNat, code := code, detail := BitVec.ofNat 64 name, die := die }
  match s.ctxOfName name with
  | some c => s.errorEntry c ent
  | none => s.ctxs.foldl (fun s x => s.errorEntry x.1 ent) s

def errDupOut : Nat := 0x22
def errCtxGone : Nat := 0x23
def errWeightOvf : Nat := 0x24
def errSaveBad : Nat := 0x26
def errUnrecTile : Nat := 0x27
def errRevokedOut : Nat := 0x29
def errAuditRebuild : Nat := 0x2A
def errRngResync : Nat := 0x2B
def errSuspectUnv : Nat := 0x2C

end Sys2Proof.Machine
end

