-- ==== Sys2Proof/Machine/Records.lean ====
section
/-! DEFINITION. Task records (12 R301 to R309): creation, the states of Table 12.9, queues and the pool, weight, the end of a record
and of a launch; teams' and barriers' shares in them (R310, R313). -/

namespace Sys2Proof.Machine

/-! ### Virtual memory of a context, as the DCP and the loader see it -/

/-- n bytes at a virtual address, or none where a page does not translate. -/
def State.vread (s : State) (root : Nat) : Nat → Nat → Nat → Option (List Byte)
  | 0, _, n => if n = 0 then some [] else none
  | fuel + 1, va, n =>
    if n = 0 then some []
    else if 2 ^ 57 ≤ va then none
    else
      match s.walk root va with
      | none => none
      | some p =>
        let k := Nat.min n (p.va + p.size - va)
        (s.vread root fuel (va + k) (n - k)).map fun t => s.dramBytes (p.pa + (va - p.va)) k ++ t

/-- Pieces of a range. -/
def pieces (n : Nat) : Nat := n / 65536 + 2
def State.ctxRoot (s : State) (ctx : Nat) : Nat := ((s.ctx? ctx).map (·.ptroot)).getD 0
def State.vget (s : State) (ctx va n : Nat) : Option (List Byte) := s.vread (s.ctxRoot ctx) (pieces n) va n

/-- Whether a range translates. -/
def State.vmaps (s : State) (root : Nat) : Nat → Nat → Nat → Bool
  | 0, _, n => n = 0
  | fuel + 1, va, n =>
    if n = 0 then true
    else if 2 ^ 57 ≤ va then false
    else
      match s.walk root va with
      | none => false
      | some p => s.vmaps root fuel (va + Nat.min n (p.va + p.size - va)) (n - Nat.min n (p.va + p.size - va))
def State.vok (s : State) (ctx va n : Nat) : Bool := s.vmaps (s.ctxRoot ctx) (pieces n) va n

/-- Write of bytes, page by page; a page that does not translate takes nothing. -/
def State.vputGo (s : State) (root : Nat) : Nat → Nat → List Byte → State
  | 0, _, _ => s
  | fuel + 1, va, bs =>
    if bs.isEmpty then s
    else
      let q := s.walk root va
      let k := match q with
        | some p => p.va + p.size - va
        | none => 65536 - va % 65536
      let t := match q with
        | some p => s.deviceWrite (p.pa + (va - p.va)) (bs.take k)
        | none => s
      State.vputGo t root fuel (va + k) (bs.drop k)
def State.vput (s : State) (ctx va : Nat) (bs : List Byte) : State := s.vputGo (s.ctxRoot ctx) (pieces bs.length) va bs

/-- The first marked codeword in a range, or in the tables that map it. -/
def State.vbad (s : State) (root : Nat) : Nat → Nat → Nat → Option Nat
  | 0, _, _ => none
  | fuel + 1, va, n =>
    if n = 0 then none
    else
      match s.walkBad root va, s.walk root va with
      | some a, _ => some a
      | none, none => none
      | none, some p =>
        let k := Nat.min n (65536 - va % 65536)
        match s.badWord (p.pa + (va - p.va)) k with
        | some a => some a
        | none => s.vbad root fuel (va + k) (n - k)

/-- A sound copy of a frame's bytes that do not read: a replica or a copy of the version whose frame it is, or another member of its group. -/
def State.otherFrame (s : State) (f n off : Nat) : Option Nat :=
  let sound (k : Nat) : Bool := !s.poisoned (k + off) n && !s.stackLost (s.resolve (k + off))
  let copies (e : DirEnt) : List Nat :=
    match e.frames.find? fun p => p.2 = f with
    | some p => (e.rframes :: e.copies.map (·.2)).filterMap fun m => SMap.get? m p.1
    | none => []
  let group := (s.groups.find? fun g => g.2.contains f).map (·.2) |>.getD []
  ((s.dir.flatMap copies) ++ group).find? fun k => k ≠ f && sound k

/-- A launch record as the DCP reads it: bytes that are poisoned, or whose stack is lost, come from a replica (01 Table 1.6); else the
physical address that failed. None where a page does not translate. -/
def State.vgetSound (s : State) (root : Nat) : Nat → Nat → Nat → Option (Except Nat (List Byte))
  | 0, _, n => if n = 0 then some (.ok []) else none
  | fuel + 1, va, n =>
    if n = 0 then some (.ok [])
    else if 2 ^ 57 ≤ va then none
    else
      match s.walk root va with
      | none => none
      | some p =>
        let k := Nat.min n (65536 - va % 65536)
        let pa := p.pa + (va - p.va)
        let here : Except Nat (List Byte) :=
          if !s.poisoned pa k && !s.stackLost (s.resolve pa) then .ok (s.dramBytes pa k)
          else match s.otherFrame (pa / 65536 * 65536) k (pa % 65536) with
            | some f => .ok (s.dramBytes (f + pa % 65536) k)
            | none => .error pa
        match here, s.vgetSound root fuel (va + k) (n - k) with
        | _, none => none
        | .error a, _ => some (.error a)
        | .ok b, some (.ok t) => some (.ok (b ++ t))
        | .ok _, some (.error a) => some (.error a)

/-- Change of a context. -/
def State.modCtx (s : State) (ctx : Nat) (f : Context → Context) : State :=
  { s with ctxs := s.ctxs.map fun x => if x.1 = ctx then (x.1, f x.2) else x }
/-- A record leaves its context's spill queue. -/
def State.dropSpilled (s : State) (ctx id : Nat) : State :=
  s.modCtx ctx fun x => { x with spilled := x.spilled.filter fun i => i ≠ id }

/-! ### Launches -/

def State.launch? (s : State) (ctx lserial : Nat) : Option Launch := s.launches.find? fun l => l.ctx = ctx && l.lserial = lserial
def State.setLaunch (s : State) (l : Launch) : State := { s with launches := s.launches.map fun x => if x.order = l.order then l else x }
def State.launchOf (s : State) (r : TaskRec) : Option Launch := s.launch? r.ctx r.lserial

/-- Bits below field L of a launch's work identifiers (12 R296). -/
def Launch.shift (l : Launch) (level : Nat) : Nat := (l.width.drop level).foldl (· + ·) 0
/-- The group of a work identifier at a level. -/
def Launch.group (l : Launch) (level : Nat) (w : Word) : Nat := w.toNat / 2 ^ l.shift level
/-- Bits of all its fields. -/
def Launch.bits (l : Launch) : Nat := l.shift 0
/-- Names that a task of the launch resolves (12 R302). -/
def Launch.resolve (l : Launch) (taskno : Nat) : List (Nat × Bool) :=
  l.tiles.map fun t => ((t.1 + taskno * t.2.2.1) % 2 ^ 40 + 2 ^ 40 * t.2.1, t.2.2.2)
/-- TASKNO of a work identifier (12 R297). -/
def Launch.taskno (l : Launch) (w : Word) : Nat := (w.toNat / 2 ^ l.tnshift) % 2 ^ 20

/-- The record belongs to a team: recovery, verification and redundant runs belong to none (16 R384, 17 R400). -/
def TaskRec.teamed (r : TaskRec) : Bool := r.kind = .ordinary
def RunKind.code : RunKind → Nat
  | .ordinary => 0 | .recovery => 1 | .verification => 2 | .redA => 3 | .redB => 4 | .redC => 5

def TaskRec.live (r : TaskRec) : Bool := decide (r.st ≠ .ended)

/-- A walk of a version is to come, or a recovery record makes it again: a version is walked once at a time (16 R384). -/
def State.walked (s : State) (name : Nat) : Bool :=
  s.hasJob (.darnerWalk name) || s.recs.any fun r => r.live && r.kind = .recovery && r.outs.contains name

def State.liveRecs (s : State) (l : Launch) : List TaskRec := s.recs.filter fun r => r.live && r.ctx = l.ctx && r.lserial = l.lserial

/-! ### Queues (12 R305, R306) -/

def State.qidOf (s : State) (r : TaskRec) : Nat := ((s.launchOf r).map (·.qid)).getD 0
/-- Effective priority: raised by aging up to 7, but a rebuild keeps what it inherits. -/
def TaskRec.prioNow (r : TaskRec) : Nat := if r.kind = .recovery then r.iprio else Nat.min 7 (r.prio + r.aged)

/-- READY records that stand in a queue of a die. -/
def State.readyOn (s : State) (d : Nat) : List TaskRec := s.recs.filter fun r => r.st = .ready && r.die = d && !r.spilled

/-- Slots are freed and bound at once (12 R305). -/
def State.bindQueues (s : State) (d : Nat) : State :=
  let ready := ((s.readyOn d).map fun r => (r.ctx, s.qidOf r)).eraseDups
  let x := s.die d
  if ready.isEmpty && x.slots.isEmpty && x.waiting.isEmpty then s
  else
    let has (e : Nat × Nat × Nat) : Bool := ready.contains (e.1, e.2.1)
    let slots := x.slots.filter has
    let waiting := x.waiting.filter has
    let new := ready.filter fun q => !(slots ++ waiting).any fun e => (e.1, e.2.1) = q
    let lt (a b : Nat × Nat × Nat) : Bool :=
      decide (a.2.2 < b.2.2) || (a.2.2 = b.2.2 && (decide (a.1 < b.1) || (a.1 = b.1 && decide (a.2.1 < b.2.1))))
    let all := sortBy lt (waiting ++ new.map fun q => (q.1, q.2, s.stc))
    let n := 64 - slots.length
    s.setDie d { x with slots := slots ++ (all.take n).map (fun e => (e.1, e.2.1, s.stc)), waiting := all.drop n,
                        idleSince := s.stc }

/-- The record's queue is bound. -/
def State.bound (s : State) (r : TaskRec) : Bool :=
  let q := (r.ctx, s.qidOf r)
  (s.die r.die).slots.any fun e => (e.1, e.2.1) = q

/-- Order of R306. -/
def recBefore (a b : TaskRec) : Bool :=
  if a.prioNow ≠ b.prioNow then decide (b.prioNow < a.prioNow)
  else if a.readyAt ≠ b.readyAt then decide (a.readyAt < b.readyAt)
  else decide (a.id < b.id)

/-- The team of a record. -/
def State.teamOf (s : State) (r : TaskRec) : Option Team :=
  match s.launchOf r with
  | none => none
  | some l => s.teams.find? fun t => t.launch = l.order && t.index = l.group l.teamlvl r.wid
def State.setTeam (s : State) (t : Team) : State :=
  { s with teams := s.teams.map fun x => if x.launch = t.launch && x.index = t.index then t else x }

/-- Its context lets it be placed. -/
def State.ctxOpen (s : State) (ctx : Nat) : Bool :=
  match s.ctx? ctx with
  | some x => !x.ending && !x.quarantined
  | none => false

/-- The dispatcher may book the record: READY in a bound queue, or STOPPED with no window yet. -/
def State.bookable (s : State) (r : TaskRec) : Bool :=
  ((r.st = .ready && !r.spilled && s.bound r) || (r.st = .stopped && !s.windows.any fun w => w.task = r.id && w.use ≠ 1)) && s.ctxOpen r.ctx &&
  (!r.teamed || (s.teamOf r).any fun t => t.admitted && !t.swapping)

/-- The first of the teams that wait for admission (12 R311, R312): a team waits while a record of it is READY or STOPPED. -/
def State.firstWaiting (s : State) : Option Team :=
  let waits (t : Team) : Bool := !t.admitted && s.recs.any fun r => (r.st = .ready || r.st = .stopped) && r.teamed && s.ctxOpen r.ctx &&
    (s.teamOf r).any fun x => x.launch = t.launch && x.index = t.index
  let prio (t : Team) : Nat := ((s.launches.find? fun l => l.order = t.launch).map (·.prio)).getD 0
  let lt (a b : Team) : Bool :=
    if prio a ≠ prio b then decide (prio b < prio a)
    else if a.waitOrder ≠ b.waitOrder then decide (a.waitOrder < b.waitOrder)
    else if a.launch ≠ b.launch then decide (a.launch < b.launch) else decide (a.index < b.index)
  (sortBy lt (s.teams.filter waits)).head?

def isPlacement : Instr → Bool
  | .bookingPlacement _ => true
  | _ => false

/-- An admitted team holds fewer cores than TEAMMAX: it lost some with a die (12 R310). -/
def State.teamShort (s : State) : Bool :=
  s.teams.any fun t => t.admitted && !t.swapping && s.launches.any fun l => l.order = t.launch && decide (t.cores.length < l.teammax)

/-! ### Idle dies (12 R306) -/

/-- The dispatcher may book on the core: it is online, its die lives and is not too hot (R433), and it owes no test (17 R399). -/
def State.coreOpen (s : State) (n : Nat) : Bool :=
  let d := dieOf n
  !(s.die d).lost && !(s.lcEntry n).offline && !s.mgmt.thermal.contains d && !(s.die d).mustTest.contains (s.physOf n)
/-- Cores of a die that hold no task. -/
def State.freeCores (s : State) (d : Nat) : Nat :=
  ((List.range 24).filter fun c => let n := 24 * d + c; s.coreOpen n && (s.core n).tsk.task.isNone).length

def poolSize : Nat := 4096
/-- Free entries of a die's pool (12 R307). -/
def State.poolFree (s : State) (d : Nat) : Nat := poolSize - (s.recs.filter fun r => r.live && !r.spilled && r.die = d).length

/-- The oldest READY record of the nearest die of its launch's DIEMASK that has more READY records than free cores; the die that takes
it has a pool entry for it (12 R306, R307). -/
def State.stealable (s : State) (d : Nat) : Option TaskRec :=
  if s.poolFree d ≤ 256 then none else
  let from_ (r : TaskRec) : Bool := r.die ≠ d && (s.launchOf r).any (fun l => l.diemask.getLsbD d && l.diemask.getLsbD r.die) &&
    decide (s.freeCores r.die < (s.readyOn r.die).length)
  let lt (a b : TaskRec) : Bool :=
    if s.hops d a.die ≠ s.hops d b.die then decide (s.hops d a.die < s.hops d b.die)
    else if a.die ≠ b.die then decide (a.die < b.die)
    else if a.readyAt ≠ b.readyAt then decide (a.readyAt < b.readyAt) else decide (a.id < b.id)
  (sortBy lt (s.recs.filter fun r => r.st = .ready && !r.spilled && from_ r)).head?

def rotationPeriod : Nat := 16384
/-- Cycle from which a die may take a record of another: 16384 c after it last had a READY one. -/
def State.idleUntil (s : State) (d : Nat) : Nat := (s.die d).idleSince + rotationPeriod

/-- A die without READY records looks for one when it has been idle for long enough, and from then on when there is one to take. -/
def State.seek (s : State) (d : Nat) : State :=
  let inp : Input := { die := d }
  if (s.die d).lost || !(s.readyOn d).isEmpty || s.hasJobInp .dieWorkSteal inp then s
  else if s.stc < s.idleUntil d then s.schedInp (s.idleUntil d) phTask .dieWorkSteal inp
  else if (s.stealable d).isSome then s.schedInp s.stc phTask .dieWorkSteal inp
  else s

/-- Every idle die looks. -/
def State.seekAll (s : State) : State := (List.range 8).foldl State.seek s

/-- The dispatchers look again: queue slots, teams, idle dies, then every record that may be booked, in the order of R306. -/
def State.kick (s : State) : State :=
  let s := ((List.range 8).foldl State.bindQueues s).seekAll
  let s := s.unsched isPlacement
  let s := if (s.firstWaiting.isSome || s.teamShort) && !s.hasJob .teamAdmission then s.sched s.stc phTask .teamAdmission else s
  (sortBy recBefore (s.recs.filter s.bookable)).foldl (fun s r => s.sched s.stc phTask (.bookingPlacement r.id)) s

/-! ### The pool (12 R307) -/

/-- A record that the Darner creates. -/
def RunKind.darner (k : RunKind) : Bool := decide (k = .recovery) || decide (k = .verification)
/-- Entries of a die that must stay free of a record: a record of the Darner may take one of the reserve. -/
def RunKind.keeps (k : RunKind) : Nat := if k.darner then 0 else 256

/-- The parent is resident and waits in tlwait, bar or rwclose. -/
def State.parentWaits (s : State) (r : TaskRec) : Bool :=
  match r.parent with
  | none => false
  | some p => s.cores.any fun c => c.2.tsk.task = some p && (c.2.tsk.wait.isSome || !c.2.tsk.barWait.isEmpty)

/-- A record without an entry takes one of its die, or goes to the tail of its context's spill queue. -/
def State.seat (s : State) (id : Nat) : State :=
  match s.rec? id with
  | none => s
  | some r =>
    if r.kind.keeps < s.poolFree r.die then s.setRec { r with spilled := false }
    else s.modCtx r.ctx fun x => { x with spilled := x.spilled ++ [id] }

/-- Spilled records return in spill order; a child of a waiting parent may take a reserve entry. -/
def State.unspill (s : State) : State :=
  if s.ctxs.all fun x => x.2.spilled.isEmpty then s
  else
    s.ctxs.foldl (fun s c =>
      c.2.spilled.foldl (fun s id =>
        match s.rec? id with
        | none => s
        | some r =>
          let free := s.poolFree r.die
          let ahead := match s.ctx? c.1 with
            | some x => (x.spilled.takeWhile fun i => i ≠ id).any fun i => (s.rec? i).any fun y => y.die = r.die
            | none => false
          if (decide (256 < free) && !ahead) || (decide (0 < free) && (s.parentWaits r || r.kind.darner)) then
            let s := s.setRec { r with spilled := false, reserve := decide (free ≤ 256), readyAt := s.stc }
            (s.dropSpilled c.1 id).kick
          else s) s) s

/-! ### Barriers (12 R313) -/

/-- Tasks of a barrier's group. -/
def State.members (s : State) (b : Barrier) : List TaskRec :=
  match s.launches.find? fun l => l.order = b.launch with
  | none => []
  | some l => (s.liveRecs l).filter fun r => r.teamed && l.group b.level r.wid = b.group

/-- Every member has made the arrival after the last departure. -/
def State.barrierFull (s : State) (b : Barrier) : Bool :=
  (s.members b).all (fun r => decide (b.departed < SMap.get 0 b.arrivals r.id)) && b.arrivals.any fun a => decide (b.departed < a.2)

/-- Bound of R313 on the departure: 40 + 48 H, H over the dies of the members' cores. -/
def State.barrierSpan (s : State) (b : Barrier) : Nat :=
  let ds := ((s.members b).map fun r => dieOf r.core).eraseDups
  40 + 48 * ds.foldl (fun m a => ds.foldl (fun m d => Nat.max m (s.hops a d)) m) 0

/-- A full barrier departs within its bound (log 4). -/
def State.checkBarrier (s : State) (b : Barrier) : State :=
  let ev := Instr.barrierDeparture b.launch b.level b.group
  if s.barrierFull b && !s.hasJob ev then
    let (n, s) := s.drawLat
    s.sched (s.stc + 1 + n % s.barrierSpan b) phTask ev
  else s
def State.checkBarriers (s : State) : State := s.barriers.foldl State.checkBarrier s

/-! ### A core without its task -/

/-- Events that belong to the task of core n. -/
def coreJob (n : Nat) (e : Instr) : Bool :=
  match e with
  | .modeDrainDone c | .calendarT0Resume c | .taskEnd c | .windowEnd c | .preemptCutStop c | .preemptTimeoutStop c
  | .engineFaultTrap c _ | .vectorGroupRead c _ _ | .vectorCompletion c _ _ | .vectorCommit c _ | .matrixCommandStart c
  | .ringBlockRead c _ _ | .mmaBlockAdd c _ _ | .scntBlockCount c _ _ | .matrixRetire c _ | .loadQueuePush c _
  | .lddramReturn c _ | .storePerformed c _ | .gatherElement c _ _ | .copyNodeStart c _ | .copyUnit c _ _
  | .copyNodeRetire c _ | .atomicResultReturn c _ => c = n
  | _ => false

/-- The core holds no task; numbers of commands and words go on, so that events of the past meet nothing. -/
def Core.vacate (c : Core) : Core :=
  { c.modSeqs (fun x => { x with mode := .halted, slots := 0, target := none, redirect := none }) with
    sys := { c.sys with handler := none, hold := false, cause := 0 },
    vec := { c.vec with words := [], window := [], lateTrap := none },
    mx := { c.mx with queue := [], runs := [], fault := none },
    cmds := [], eng := [], tsk := {}, pend := [], reqs := c.reqs.filter fun r => r.rank = 6 }

/-- Core that holds a task. -/
def State.coreOfTask (s : State) (id : Nat) : Option Nat := (s.cores.find? fun c => c.2.tsk.task = some id).map (·.1)

/-- The pins of everything that a vacated core had in flight fall with it. -/
def State.vacate (s : State) (n : Nat) : State :=
  ((s.modCore n Core.vacate).unsched (coreJob n)).pinsFell ((s.core n).tsk.pins.map (·.1))

/-- A record leaves its core, and the events of its start are gone. -/
def State.offCore (s : State) (id : Nat) : State :=
  let s := s.unsched (startJobs id)
  let s := match s.coreOfTask id with
    | some n => s.vacate n
    | none => s
  s.modCore ((s.rec? id).map (·.core) |>.getD 0) fun c => { c with reqs := c.reqs.filter fun r => !(r.rank = 6 && r.cmd = id) }
/-- A record loses its place: its core and its windows. -/
def State.unplace (s : State) (id : Nat) : State := (s.offCore id).dropWindows fun w => w.task = id

/-- A stopped record gives up the window of its restore; an armed booking stays (09 R264). -/
def State.unplaceRestore (s : State) (id : Nat) : State := (s.offCore id).dropWindows fun w => w.task = id && w.use ≠ 1

/-- A save slot is free again. -/
def State.freeSlot (s : State) (ctx slot : Nat) : State :=
  s.modCtx ctx fun x => { x with slotsUsed := x.slotsUsed.filter fun k => k ≠ slot }

/-! ### Moves between states (12 Table 12.9) -/

def State.allFull (s : State) (r : TaskRec) : Bool := r.ins.all fun u => (s.dirEnt u).any fun e => e.st = .full

/-- A record enters its queue, stamped now. -/
def State.makeReady (s : State) (id : Nat) : State :=
  match s.rec? id with
  | none => s
  | some r =>
    let s := (s.setRec { r with st := .ready, readyAt := s.stc, aged := 0, residue := none }).unsched fun e => e = .priorityAging id
    (s.sched (2 ^ 20 + s.stc) phTask (.priorityAging id)).kick

/-- Priority of the records that wait on what a rebuild brings back (16 R385). -/
def State.waiters (s : State) (r : TaskRec) : Nat :=
  let due (u : Nat) : Bool := r.outs.contains u && (s.dirEnt u).any fun e => e.st ≠ .full
  (s.recs.filter fun x => x.st = .wait && x.ins.any due).foldl (fun m x => Nat.max m x.prioNow) 0
def State.inheritGo : Nat → State → State
  | 0, s => s
  | fuel + 1, s =>
    let up := s.recs.filter fun r => r.kind = .recovery && r.live && decide (r.iprio < s.waiters r)
    if up.isEmpty then s
    else
      let l := s.recs.map fun (r : TaskRec) => if r.kind = .recovery ∧ r.live = true then { r with iprio := Nat.max r.iprio (s.waiters r) } else r
      State.inheritGo fuel { s with recs := l }
/-- Rebuilds rise to the highest priority that waits on them, through one another; they never fall. The entries of what they rebuild show
it as IPRIO. -/
def State.inherit (s : State) : State :=
  let s := State.inheritGo (s.recs.length + 1) s
  let dir := s.dir.map fun (e : DirEnt) => match s.recs.find? fun r => r.kind = .recovery && r.live && r.outs.contains e.name with
    | some r => if e.st = .full then e else { e with iprio := r.iprio }
    | none => e
  { s with dir := dir }

/-- A version has become FULL: who waited on it alone becomes READY. -/
def State.wake (s : State) (name : Nat) : State :=
  (s.recs.filter fun r => r.st = .wait && r.ins.contains name).foldl (fun s r => if s.allFull r then s.makeReady r.id else s) s

/-! ### Completion of a launch (12 R300, R309; 14 R367) -/

/-- The RO fields of a completion record, its reserved ones as 0, then DONE; with IRQ its vector once DONE is written (14 R367). -/
def State.writeCompletion (s : State) (ctx va code nerr naudit field lserial : Nat) : State :=
  let s := s.vput ctx (va + 4) (leBytes 4 (code % 256) ++ leBytes 8 s.stc ++ leBytes 4 nerr ++ leBytes 4 naudit ++ leBytes 4 field ++
    leBytes 4 lserial)
  let s := s.vput ctx (va + 0x21) (List.replicate 31 0)
  let v := match s.vget ctx (va + 0x20) 1 with
    | some [b] => b.toNat
    | _ => 0
  match decide (v / 128 = 1), s.walk (s.ctxRoot ctx) va with
  | true, some p => s.deviceTell (p.pa + (va - p.va)) (leBytes 4 1) (v % 64)
  | true, none => s.tellHost (v % 64)
  | false, _ => s.vput ctx va (leBytes 4 1)

def State.completeLaunch (s : State) (l : Launch) : State :=
  let code := if l.final ≠ 0 then l.final else (l.err.map (·.2)).getD 0
  (s.setLaunch { l with complete := true }).writeCompletion l.ctx l.compl code l.nerr l.naudit 0 l.lserial

/-- HELD = TOTAL and no recovery record of the launch is live: it completes. -/
def State.checkLaunch (s : State) (ctx lserial : Nat) : State :=
  match s.launch? ctx lserial with
  | none => s
  | some l =>
    if l.complete || decide (l.held ≠ l.total) || (s.liveRecs l).any (fun r => r.kind = .recovery) then s else s.completeLaunch l

/-- A context being destroyed is gone once all its records have ended (12 R290). -/
def State.checkContext (s : State) (ctx : Nat) : State :=
  match s.ctx? ctx with
  | some x =>
    if x.ending && !s.recs.any (fun r => r.ctx = ctx && !r.weightBack) && !s.launches.any (fun l => l.ctx = ctx && !l.complete) then
      { s with ctxs := SMap.del s.ctxs ctx, recs := s.recs.filter fun r => r.ctx ≠ ctx,
               launches := s.launches.filter fun l => l.ctx ≠ ctx }
    else s
  | none => s

/-! ### The end of a record -/

/-- The record is one of a redundant pair or their tie-break (17 R400). -/
def TaskRec.vouches (r : TaskRec) : Bool := r.kind = .redA || r.kind = .redB || r.kind = .redC
/-- The other runs of the same task. -/
def State.siblings (s : State) (r : TaskRec) : List TaskRec :=
  s.recs.filter fun x => x.id ≠ r.id && x.vouches && x.ctx = r.ctx && x.lserial = r.lserial && x.taskno = r.taskno

/-- Outputs that a record has sealed are acknowledged (01 R29), as those that have been released are; a redundant run's outputs must be
decided. -/
def State.acked (s : State) (r : TaskRec) : Bool :=
  !(r.kind = .redA && (s.siblings r).any (·.live)) && r.outs.all fun u => match s.dirEnt u with
    | none => true
    | some e =>
      if e.st = .full then e.linack && e.mirack
      else !s.publishes.any (fun p => p.version = some u) && !s.sentLin.any (fun l => l.name = u) &&
        !s.heldPubs.any (fun h => h.name = u && decide (h.kind ≠ .verification))

/-- The weight of an ended record returns once R29 is met. -/
def State.tryReturn (s : State) (id : Nat) : State :=
  match s.rec? id with
  | some r =>
    if r.st = .ended && !r.weightBack && s.acked r && !s.hasJob (.weightReturn id) then s.sched s.stc phTask (.weightReturn id) else s
  | none => s

/-- A team with no live task releases its cores; one being swapped out releases them when none of its tasks is resident. -/
def State.checkTeam (s : State) (r : TaskRec) : State :=
  match s.teamOf r, s.launchOf r with
  | some t, some l =>
    let mine := (s.liveRecs l).filter fun x => x.teamed && l.group l.teamlvl x.wid = t.index
    if mine.isEmpty then { s with teams := s.teams.filter fun x => !(x.launch = t.launch && x.index = t.index) }
    else if t.swapping && mine.all fun x => x.st = .wait || x.st = .ready || x.st = .stopped then
      { s.setTeam { t with admitted := false, swapping := false, cores := [], waitOrder := s.order } with order := s.order + 1 }
    else s
  | _, _ => s

/-- Error with the earlier stamp. -/
def firstErr (a : Option (Stamp × Nat)) (st : Stamp) (code : Nat) : Option (Stamp × Nat) :=
  match a with
  | none => some (st, code)
  | some (t, c) => if st.lt t then some (st, code) else some (t, c)

/-- A record has ended, with its error or none: it leaves its core, its launch counts it, its weight will return and then its window be
released (08 R234), and whatever waited for its end goes on. -/
def State.endRec (s : State) (id : Nat) (err : Option (Stamp × Nat)) (audit : Bool) : State :=
  match s.rec? id with
  | none => s
  | some r =>
    if r.st = .ended then s
    else
      let s := s.offCore id
      let s := match r.residue with
        | some x => s.freeSlot r.ctx x.slot
        | none => s
      let s := (s.setRec { r with st := .ended, residue := none, spilled := false }).unsched fun e => e = .priorityAging id
      let s := s.dropSpilled r.ctx id
      let counted := r.kind = .ordinary || r.kind = .redA
      let s := match s.launchOf r with
        | some l =>
          if counted then
            let sat (n : Nat) : Nat := Nat.min n (2 ^ 32 - 1)
            s.setLaunch { l with nerr := sat (l.nerr + err.isSome.toNat), naudit := sat (l.naudit + audit.toNat),
                                 err := match err with | some (st, c) => firstErr l.err st c | none => l.err }
          else s
        | none => s
      let s := (s.checkTeam r).checkBarriers
      let s := if r.kind = .recovery then s.checkLaunch r.ctx r.lserial else s
      let s := ((s.releaseVersions r.ctx).unspill).tryReturn id
      let s := (s.siblings r).foldl (fun s x => s.tryReturn x.id) s
      -- outputs that are lost while no record rebuilds them are walked again: the walk had left them to this one (01 R30, 16 R384)
      let s := (r.outs.filter fun u => s.ctxOpen r.ctx && (s.dirEnt u).any (fun e => e.st = .lost) && !s.hasJob (.darnerWalk u)).foldl (fun s u =>
        s.schedDarner s.stc (.darnerWalk u) u) s
      (s.kick).checkContext r.ctx

/-- An error entry about a record that no core runs: of a record that has been placed, its physical core and that core's die; of one
that never was, core 0 and the die that holds it (log 97). -/
def State.errorRec (s : State) (r : TaskRec) (code : Nat) (detail : Word) : State :=
  let placed := decide (r.t0 ≠ 0)
  s.errorEntry r.ctx { stc := s.stc, issuer := (unitIssuer 11 1 r.die).toNat, code := code, taskid := r.id, detail := detail,
                       pcore := if placed then s.physOf r.core else 0, die := if placed then dieOf r.core else r.die, lserial := r.lserial }

/-- A record that no core runs ends with an error, stamped by the dispatcher of its die. -/
def State.failRec (s : State) (r : TaskRec) (code : Nat) (detail : Word) : State :=
  let (st, s) := s.unitStamp 11 1 r.die
  (s.errorRec r code detail).endRec r.id (some (st, code)) false

/-! ### POISONED versions (16 R379) -/

/-- Versions become POISONED, with the records that wait on them; those records' own outputs follow. -/
def State.poisonGo : Nat → List Nat → State → State
  | 0, _, s => s
  | fuel + 1, names, s =>
    let names := names.filter fun u => (s.dirEnt u).any fun e => e.st ≠ .poisoned && e.st ≠ .full
    if names.isEmpty then s
    else
      let s := names.foldl (fun s u => s.modDir u fun e => { e with st := .poisoned }) s
      -- a report that a lost die sent has no acknowledgement to wait for any more
      let s : State := { s with sentLin := s.sentLin.filter fun l => !(names.contains l.name && (s.die l.die).lost) }
      let hit := s.recs.filter fun r =>
        (r.st = .wait || r.st = .ready || r.st = .booked || r.st = .loading) && r.ins.any fun u => names.contains u
      let s := hit.foldl (fun s r =>
        let bad := (r.ins.find? fun u => names.contains u).getD 0
        s.failRec r errPoisonOp (BitVec.ofNat 64 bad)) s
      let s := names.foldl (fun s u => (s.recs.filter fun r => r.outs.contains u).foldl (fun s r => s.tryReturn r.id) s) s
      State.poisonGo fuel (hit.flatMap (·.outs)) s

def State.poison (s : State) (names : List Nat) : State := State.poisonGo (s.recs.length + 1) names s

/-- READY if every operand is FULL; ended by a POISONED one, with its outputs (R379); else WAIT. -/
def State.readyOrWait (s : State) (id : Nat) : State :=
  match s.rec? id with
  | none => s
  | some r =>
    match r.ins.find? fun u => (s.dirEnt u).any fun e => e.st = .poisoned with
    | some u => (s.failRec r errPoisonOp (BitVec.ofNat 64 u)).poison r.outs
    | none =>
      if s.allFull r then s.makeReady id
      else ((s.setRec { r with st := .wait, residue := none }).unsched (fun e => e = .priorityAging id)).inherit

/-- A record restarts from its first start: its place and its saved state are gone. -/
def State.restart (s : State) (id : Nat) : State :=
  match s.rec? id with
  | none => s
  | some r =>
    let s := s.unplace id
    let s := match r.residue with
      | some x => s.freeSlot r.ctx x.slot
      | none => s
    s.readyOrWait id

/-! ### Creation (12 R301 to R303, R307) -/

/-- A directory entry for a version that is absent. -/
def State.enterVersion (s : State) (name : Nat) : State :=
  if (s.dirEnt name).isSome then s else { s with dir := s.dir ++ [{ name := name }] }

/-- Two names of the list are equal. -/
def hasDup (l : List Nat) : Bool := decide (l.eraseDups.length ≠ l.length)

/-- The record's team exists, waiting in the order of its launch. -/
def State.enterTeam (s : State) (l : Launch) (w : Word) : State :=
  let k := l.group l.teamlvl w
  if s.teams.any fun t => t.launch = l.order && t.index = k then s
  else { s with teams := s.teams ++ [{ launch := l.order, index := k, waitOrder := l.order }] }

/-- A new record on a die, ended at once by DUPOUT or by a POISONED operand, else READY or in WAIT. -/
def State.addRec (s : State) (l : Launch) (kind : RunKind) (w : Word) (param prio weight d : Nat) (parent : Option Nat) (iprio : Nat)
    (avoid : List Nat) : Nat × State :=
  let x := s.die d
  let id := 2 ^ 29 * d + x.serial % 2 ^ 29
  let s := s.setDie d { x with serial := x.serial + 1 }
  let taskno := l.taskno w
  let tiles := l.resolve taskno
  let ins := (tiles.filter fun t => !t.2).map (·.1)
  let outs := (tiles.filter (·.2)).map (·.1)
  let s := ins.foldl State.enterVersion s
  let dup := kind = .ordinary && (hasDup (ins ++ outs) ||
    outs.any fun u => (s.dirEnt u).any (fun e => e.st ≠ .empty) || s.recs.any fun r => r.live && r.outs.contains u)
  -- only a record of the Darner takes a reserve entry (12 R307)
  let spill := !dup && decide (s.poolFree d ≤ kind.keeps)
  -- a spill past SPILLCAP ends the launch's further spawns
  let full := spill && !kind.darner && (s.ctx? l.ctx).any fun x => decide (x.spillcap ≤ x.spilled.length)
  let s := if full then (match s.launch? l.ctx l.lserial with
    | some y => s.setLaunch { y with spawnsEnded := true }
    | none => s) else s
  let r : TaskRec :=
    { id := id, ctx := l.ctx, lserial := l.lserial, wid := w, taskno := taskno, param := param, prio := prio, weight := weight,
      ins := ins, outs := if dup then [] else outs, tiles := tiles, kind := kind, die := d, parent := parent, iprio := iprio,
      avoid := avoid, pre := l.pre, spilled := spill, reserve := kind.darner && !spill }
  let s : State := { s with recs := s.recs ++ [r] }
  let s := if kind = .ordinary then s.enterTeam l w else s
  if dup then (id, s.failRec r errDupOut 0)
  else
    let s := outs.foldl State.enterVersion s
    let s := if spill then s.modCtx l.ctx fun c => { c with spilled := c.spilled ++ [id] } else s
    (id, s.readyOrWait id)

end Sys2Proof.Machine
end

