-- ==== Sys2Proof/Machine/Launch.lean ====
section
/-! DEFINITION. The launch header and the task header, the acceptance checks of Table 12.6 in order, and what acceptance does (12
R295 to R303; 04 R98 to R101; 09 R245, R272; 16 R391). -/

namespace Sys2Proof.Machine

/-- A failed check: its error code and FIELD, which is [2:0] the structure and [31:8] the byte offset of the field. -/
abbrev Bad := Nat × Nat
def bad (code struct off : Nat) : Option Bad := some (code, struct + 256 * off)
/-- The first failure of a list of checks. -/
def firstBadOf (l : List (Option Bad)) : Option Bad := l.findSome? id
/-- A check that must hold. -/
def need (ok : Bool) (code struct off : Nat) : Option Bad := if ok then none else bad code struct off

def errBadMagic : Nat := 1
def errBadCtx : Nat := 2
def errBadField : Nat := 3
def errBadCut : Nat := 4
def errTaskNoDup : Nat := 5
def errNoFit : Nat := 6
def errTeamBig : Nat := 7
def errSaveSpace : Nat := 8
def errImageAddr : Nat := 9
def errBadBook : Nat := 10
def errBadRing : Nat := 11
def errBadTile : Nat := 12
def errPatchDup : Nat := 13
def errPatchRange : Nat := 14
def errPatchFmt : Nat := 15
def errPatchCtx : Nat := 16

/-! ### The launch header (12 Table 12.5) -/

def launchMagic : Nat := 0x484C4556
def taskMagic : Nat := 0x314C4556

/-- A launch from the value of its 96-byte header. -/
def readLaunch (ctx lserial va v : Nat) : Launch :=
  { ctx := ctx, lserial := lserial, va := va, prio := bitsN v 35 3, nfld := bitsN v 38 3, teamlvl := bitsN v 41 3,
    tnshift := bitsN v 44 6, diemask := BitVec.ofNat 8 (bitsN v 50 8), dist := decide (bitsN v 58 1 = 1),
    width := (List.range 6).map fun f => bitsN v (64 + 6 * f) 6, ext := (List.range 6).map fun f => bitsN v (128 + 32 * f) 32,
    image := bitsN v 320 64, param := bitsN v 384 64, paramlen := bitsN v 448 32, nvreg := bitsN v 480 10, nacc := bitsN v 490 6,
    teammax := bitsN v 496 16, spmb := bitsN v 512 32, qid := bitsN v 544 16, compl := bitsN v 576 64, held := 0, total := 0,
    header := leBytes 96 v }

def prod (l : List Nat) : Nat := l.foldl (· * ·) 1
/-- Initial tasks. -/
def Launch.count (l : Launch) : Nat := prod (l.ext.take l.nfld)

/-- Work identifier of the initial task of rank r: the mixed-radix digits of r, field 0 the most significant (12 R296). -/
def Launch.initialGo (l : Launch) : Nat → Nat → Nat
  | 0, _ => 0
  | f + 1, r => l.initialGo f (r / l.ext.getD f 1) + r % l.ext.getD f 1 * 2 ^ l.shift (f + 1)
def Launch.initial (l : Launch) (r : Nat) : Word := BitVec.ofNat 64 (l.initialGo l.nfld r)

/-- Online logical cores of the dies of a mask (01 R25). -/
def State.onlineCores (s : State) (mask : BitVec 8) : List Nat :=
  (List.range 192).filter fun n => mask.getLsbD (dieOf n) && !(s.die (dieOf n)).lost && !(s.lcEntry n).offline

/-- Checks 3 to 8. -/
def State.headerBad (s : State) (x : Context) (l : Launch) (v : Nat) : Option Bad :=
  let fs := List.range 6
  let w (f : Nat) : Nat := l.width.getD f 0
  let e (f : Nat) : Nat := l.ext.getD f 0
  let cut (f : Nat) : Bool :=
    if f < l.nfld then decide (1 ≤ e f) && decide (e f ≤ Nat.min (2 ^ w f) (2 ^ 32 - 1)) else decide (e f = 0)
  let team := prod ((l.ext.take l.nfld).drop l.teamlvl)
  firstBadOf (
    [need (bitsN v 59 5 = 0) errBadField 0 7, need (bitsN v 100 28 = 0) errBadField 0 0x0C,
     need (bitsN v 560 16 = 0) errBadField 0 0x46, need (bitsN v 640 128 = 0) errBadField 0 0x50,
     need (decide (l.qid < x.nqueue)) errBadField 0 0x44, need (decide (1 ≤ l.nvreg)) errBadField 0 0x3C,
     need (l.diemask ≠ 0#8 && (l.diemask &&& ~~~x.diemask) = 0#8) errBadField 0 6,
     need (decide (1 ≤ l.nfld) && decide (l.nfld ≤ 6)) errBadCut 0 4, need (decide (l.teamlvl ≤ l.nfld)) errBadCut 0 5,
     need (fs.all fun f => if f < l.nfld then decide (1 ≤ w f) else decide (w f = 0)) errBadCut 0 8] ++
    fs.map (fun f => need (cut f) errBadCut 0 (0x10 + 4 * f)) ++
    [need (decide (l.bits ≤ 64)) errBadCut 0 8] ++
    (List.range l.nfld).map (fun f => need (decide (prod (l.ext.take (f + 1)) ≤ 2 ^ 20)) errTaskNoDup 0 (0x10 + 4 * f)) ++
    [need (!hasDup ((List.range l.count).map fun r => l.taskno (l.initial r))) errTaskNoDup 0 5,
     need (decide (l.nvreg ≤ 640)) errNoFit 0 0x3C, need (decide (l.nacc ≤ 48)) errNoFit 0 0x3D,
     need (decide (l.spmb ≤ 2 ^ 23)) errNoFit 0 0x40,
     need (decide (team ≤ l.teammax) && decide (l.teammax ≤ (s.onlineCores l.diemask).length)) errTeamBig 0 0x3E,
     need (decide (prod (l.ext.take l.teamlvl) ≤ 1) || decide (l.teammax ≤ x.saveslots)) errSaveSpace 0 0x3E])

/-- Check 9. -/
def State.imageBad (s : State) (l : Launch) : Option Bad :=
  firstBadOf [need (decide (l.image % 64 = 0) && s.vok l.ctx l.image 64) errImageAddr 0 0x28,
    need (s.vok l.ctx l.param l.paramlen) errImageAddr 0 0x30, need (s.vok l.ctx l.compl 64) errImageAddr 0 0x48]

/-! ### The task header (04 Table 4.6) -/

structure TaskHdr where
  entry : List Nat
  codelen : List Nat
  pcount : Nat
  ptab : Nat
  booktab : Nat
  ringtab : Nat
  tiletab : Nat
  code : Nat
  spmimg : Nat
  spmlen : Nat
  spmaddr : Nat
  deriving DecidableEq, Repr

/-- The fields of a task header. Bits 15, 31, 47 and 63 of CODELEN lie in none of its subfields: they are ignored (log 39). -/
def readTaskHdr (v : Nat) : TaskHdr :=
  { entry := (List.range 4).map fun k => bitsN v (64 + 16 * k) 14, codelen := (List.range 4).map fun k => bitsN v (128 + 16 * k) 15,
    pcount := bitsN v 192 9, ptab := bitsN v 224 32, booktab := bitsN v 256 32, ringtab := bitsN v 288 32, tiletab := bitsN v 320 32,
    code := bitsN v 352 32, spmimg := bitsN v 384 32, spmlen := bitsN v 416 32, spmaddr := bitsN v 448 32 }

def TaskHdr.words (h : TaskHdr) : Nat := h.codelen.foldl (· + ·) 0
/-- Index of the first word of sequencer k in the code. -/
def TaskHdr.codeBase (h : TaskHdr) (k : Nat) : Nat := (h.codelen.take k).foldl (· + ·) 0
/-- Bytes of the initial scratchpad image. -/
def TaskHdr.imageLen (h : TaskHdr) : Nat := if h.spmimg = 0 then 0 else h.spmlen

/-- Value of n bytes of the image at an offset, 0 where it does not translate. -/
def State.imgVal (s : State) (l : Launch) (off n : Nat) : Nat := ((s.vget l.ctx (l.image + off) n).map leVal).getD 0
def State.imgOk (s : State) (l : Launch) (off n : Nat) : Bool := s.vok l.ctx (l.image + off) n

/-- The task header of a launch's image. -/
def State.taskHdr (s : State) (l : Launch) : TaskHdr := readTaskHdr (s.imgVal l 0 64)

/-- Sizes of the tables that the header names, each from its own header. -/
def State.bookLen (s : State) (l : Launch) (h : TaskHdr) : Nat := 16 + 16 * headEntries (s.imgVal l h.booktab 16)
def State.ringCount (s : State) (l : Launch) (h : TaskHdr) : Nat := bitsN (s.imgVal l h.ringtab 8) 0 5
def State.tileCount (s : State) (l : Launch) (h : TaskHdr) : Nat := bitsN (s.imgVal l h.tiletab 8) 0 7

/-- Check 10. -/
def State.taskHdrBad (s : State) (l : Launch) : Option Bad :=
  let v := s.imgVal l 0 64
  let h := readTaskHdr v
  let two (off n m : Nat) : Bool := s.imgOk l off n && s.imgOk l off m
  firstBadOf (
    [need (bitsN v 0 32 = taskMagic) errBadMagic 1 0, need (bitsN v 32 4 = 1) errBadField 1 4, need (bitsN v 36 28 = 0) errBadField 1 4,
     need ((List.range 4).all fun k => decide (bitsN v (64 + 16 * k + 14) 2 = 0)) errBadField 1 8] ++
    (List.range 4).map (fun k => need (decide (h.codelen.getD k 0 ≤ 16384)) errBadField 1 (0x10 + 2 * k)) ++
    [need (decide (h.pcount ≤ 256)) errBadField 1 0x18, need (bitsN v 201 23 = 0) errBadField 1 0x19,
     need (decide (h.ptab % 8 = 0)) errBadField 1 0x1C,
     need (h.spmimg = 0 || decide (h.spmaddr + h.spmlen ≤ 2 ^ 23)) errBadField 1 0x34, need (bitsN v 480 32 = 0) errBadField 1 0x3C,
     need (s.imgOk l h.ptab (8 * h.pcount)) errImageAddr 1 0x1C,
     need (two h.booktab 16 (s.bookLen l h)) errImageAddr 1 0x20,
     need (two h.ringtab 8 (8 + 16 * s.ringCount l h)) errImageAddr 1 0x24,
     need (two h.tiletab 8 (8 + 16 * s.tileCount l h)) errImageAddr 1 0x28,
     need (s.imgOk l h.code (8 * h.words)) errImageAddr 1 0x2C,
     need (s.imgOk l h.spmimg h.imageLen) errImageAddr 1 0x30])

/-! ### The tables (checks 11 to 14) -/

/-- Entry i of the patch table. -/
def State.patchEnt (s : State) (l : Launch) (h : TaskHdr) (i : Nat) : Nat := s.imgVal l (h.ptab + 8 * i) 8
def seqOfNum (k : Nat) : Seq := if k = 0 then .c else if k = 1 then .l else if k = 2 then .x else .s

/-- The word decodes as format SI or M. -/
def patchable (tab : Option (SMap (BitVec 16))) (w : Nat) : Bool :=
  let e := (tableEntry tab (bitsN w 54 10)).toNat
  let iop := e % 1024
  decide (0x8000 ≤ e) && ((decide (0x028 ≤ iop) && decide (iop ≤ 0x030)) || (decide (0x201 ≤ iop) && decide (iop ≤ 0x20D)))

/-- The patch table under R101. PATCHCTX, where no entry fails, names offset 0 of the table (log 98). -/
def State.patchBad (s : State) (x : Context) (l : Launch) (h : TaskHdr) : Option Bad :=
  let ents := (List.range h.pcount).map (s.patchEnt l h)
  firstBadOf (need (!(x.immsel && decide (h.pcount ≠ 0))) errPatchCtx 2 0 ::
    ((List.range h.pcount).zip ents).map fun p =>
      let i := p.1
      let e := p.2
      let word := bitsN e 0 14
      let q := bitsN e 14 2
      let poff := bitsN e 32 32
      let w := s.imgVal l (h.code + 8 * (h.codeBase q + word)) 8
      firstBadOf [need (bitsN e 16 16 = 0) errPatchRange 2 (8 * i + 2), need (decide (poff % 4 = 0)) errPatchRange 2 (8 * i + 4),
        need (decide (word < h.codelen.getD q 0)) errPatchRange 2 (8 * i),
        need (decide (poff + 4 ≤ l.paramlen)) errPatchRange 2 (8 * i + 4),
        need (!(ents.take i).any fun y => y % 2 ^ 16 = e % 2 ^ 16) errPatchDup 2 (8 * i),
        need (patchable x.dtab w) errPatchFmt 2 (8 * i)])

/-- The booking template of an image: its header and its entries. -/
def State.bookEnts (s : State) (l : Launch) (h : TaskHdr) : Nat × List Nat :=
  let v := s.imgVal l h.booktab 16
  (v, (List.range (headEntries v)).map fun i => s.imgVal l (h.booktab + 16 + 16 * i) 16)

/-- The first field of a template that R249 refuses; a conflict or an excess names the entry that brings it. -/
def templateBad (v : Nat) (es : List Nat) : Option Bad :=
  let len := bitsN v 32 32
  let pre := bitsN v 64 16
  let b (ok : Bool) (off : Nat) : Option Bad := need ok errBadBook 3 off
  let ents := es.map fun e => readEntry (e / 256 * 256 + e % 16)
  firstBadOf (
    [b (bitsN v 10 22 = 0) 1, b (decide (1 ≤ len) && decide (len + pre ≤ horizonLen)) 4, b (decide (256 ≤ pre)) 8,
     b (bitsN v 80 16 = 0) 10, b (v / 2 ^ 96 = 0) 12] ++
    ((List.range es.length).zip es).map (fun p =>
      let o := 16 + 16 * p.1
      let e : TEntry := { kind := bitsN p.2 0 4, res := bitsN p.2 8 24, off := bitsN p.2 32 32, dur := bitsN p.2 64 32, amt := bitsN p.2 96 32 }
      firstBadOf [b (decide (e.kind ≤ 4)) o, b (bitsN p.2 4 4 = 0) o,
        b (decide (1 ≤ e.dur)) (o + 8), b (decide (e.off + e.dur ≤ len)) (o + 4),
        -- what is left wrong lies in RES, or else in AMT
        b (entryOk len e || entryOk len { e with amt := if e.kind = 1 ∨ e.kind = 2 then 0 else 1 }) (o + 1),
        b (entryOk len e) (o + 12)]) ++
    (List.range es.length).map (fun i => b (ownFits ((ents.take (i + 1)).filterMap id)) (16 + 16 * i)))

/-- A ring-table entry (09 Table 9.8): ring, base, slot size, slots. -/
def ringEnt (v : Nat) : Nat × Ring := (bitsN v 0 4, { base := bitsN v 8 23, slotsz := bitsN v 32 21, slots := bitsN v 64 9 })
def State.ringEnts (s : State) (l : Launch) (h : TaskHdr) : List Nat :=
  (List.range (s.ringCount l h)).map fun i => s.imgVal l (h.ringtab + 8 + 16 * i) 16

/-- The ring table under R272. -/
def State.ringBad (s : State) (l : Launch) (h : TaskHdr) : Option Bad :=
  let es := s.ringEnts l h
  let b (ok : Bool) (off : Nat) : Option Bad := need ok errBadRing 4 off
  firstBadOf ([b (decide (s.ringCount l h ≤ 16)) 0, b (s.imgVal l h.ringtab 8 / 2 ^ 5 = 0) 0] ++
    ((List.range es.length).zip es).map fun p =>
      let o := 8 + 16 * p.1
      let v := p.2
      let r := (ringEnt v).2
      firstBadOf [b (!(es.take p.1).any fun y => y % 16 = v % 16) o, b (bitsN v 4 4 = 0) o, b (decide (r.base % 64 = 0)) (o + 1),
        b (bitsN v 31 1 = 0) (o + 3), b (decide (r.slotsz % 64 = 0) && decide (64 ≤ r.slotsz) && decide (r.slotsz ≤ 2 ^ 20)) (o + 4),
        b (bitsN v 53 11 = 0) (o + 6), b (decide (1 ≤ r.slots) && decide (r.slots ≤ 256)) (o + 8),
        b (decide (r.base + r.slots * r.slotsz ≤ 2 ^ 23)) (o + 8), b (v / 2 ^ 73 = 0) (o + 9)])

def State.tileEnts (s : State) (l : Launch) (h : TaskHdr) : List Nat :=
  (List.range (s.tileCount l h)).map fun i => s.imgVal l (h.tiletab + 8 + 16 * i) 16

/-- The tile table under R302. -/
def State.tileBad (s : State) (l : Launch) (h : TaskHdr) : Option Bad :=
  let es := s.tileEnts l h
  let b (ok : Bool) (off : Nat) : Option Bad := need ok errBadTile 5 off
  firstBadOf ([b (decide (s.tileCount l h ≤ 64)) 0, b (s.imgVal l h.tiletab 8 / 2 ^ 7 = 0) 0] ++
    ((List.range es.length).zip es).map fun p =>
      let o := 8 + 16 * p.1 + 12
      firstBadOf [b (p.2 / 2 ^ 97 = 0) o, b (decide (((es.take (p.1 + 1)).filter fun y => bitsN y 96 1 = 1).length ≤ 32)) o])

/-! ### Acceptance -/

/-- The image that a prologue writes lies in these quads (09 R245, R251 item 3). -/
def TaskHdr.quads (h : TaskHdr) : List Nat :=
  if h.imageLen = 0 then [] else
    (List.range 16).filter fun q => decide (h.spmaddr < 2 ^ 19 * (q + 1)) && decide (2 ^ 19 * q < h.spmaddr + h.imageLen)

/-- Checks 3 to 14. -/
def State.launchBad (s : State) (x : Context) (l : Launch) (v : Nat) : Option Bad :=
  match s.headerBad x l v with
  | some e => some e
  | none =>
    match s.imageBad l with
    | some e => some e
    | none =>
      match s.taskHdrBad l with
      | some e => some e
      | none =>
        let h := s.taskHdr l
        let (bv, es) := s.bookEnts l h
        firstBadOf [s.patchBad x l h, templateBad bv es, s.ringBad l h, s.tileBad l h]

/-- The stream position of a restored checkpoint follows the data position (16 R391). -/
def State.rngResync (s : State) (ctx lserial : Nat) : State :=
  match (s.ctx? ctx).bind (·.mirror) with
  | none => s
  | some m =>
    if m.ckpt = 0 ∨ s.dramRead (m.ckpt + 0x1C) 1 % 2 = 0 then s
    else
      let pos := s.dramRead (m.ckpt + 0x10) 8
      let want := s.dramRead (m.ckpt + 8) 8 * s.dramRead (m.ckpt + 0x18) 4 % 2 ^ 64
      let s := if pos = want then s else
        (s.deviceWrite (m.ckpt + 0x10) (leBytes 8 want)).errorEntry ctx
          { stc := s.stc, issuer := (unitIssuer 11 0 s.lead).toNat, code := errRngResync, detail := BitVec.ofNat 64 pos, lserial := lserial }
      s.deviceWrite (m.ckpt + 0x1C) (leBytes 1 (s.dramRead (m.ckpt + 0x1C) 1 / 2 * 2))

/-- Die that holds an initial record: by rank, or the home of its first output (12 R306). -/
def State.initialDie (s : State) (l : Launch) (r : Nat) : Nat :=
  let ds := (List.range 8).filter fun d => l.diemask.getLsbD d && !(s.die d).lost
  let byRank := ds.getD (r % Nat.max 1 ds.length) 0
  if !l.dist then byRank
  else
    match (l.resolve (l.taskno (l.initial r))).find? (·.2) with
    | some t => if ds.contains (s.homeOf t.1) then s.homeOf t.1 else byRank
    | none => byRank

/-- The launch is accepted: its weight is dealt out and its records are created in rank order (12 R308). -/
def State.acceptLaunch (s : State) (l : Launch) : State :=
  let h := s.taskHdr l
  let (bv, es) := s.bookEnts l h
  let t := (readTemplate false bv es).getD {}
  let n := l.count
  let q := 2 ^ 63 / n
  let tiles := (s.tileEnts l h).map fun v => (bitsN v 0 40, bitsN v 40 24, bitsN v 64 32, decide (bitsN v 96 1 = 1))
  let l := { l with held := 2 ^ 63 - n * q, total := 2 ^ 63, order := s.order, tmpl := t, tiles := tiles, pquads := h.quads,
                    pre := Nat.max t.pre (256 + (h.imageLen + 255) / 256) }
  let s := s.rngResync l.ctx l.lserial
  let s : State := { s with launches := s.launches ++ [l], order := s.order + 1 }
  (List.range n).foldl (fun s r => (s.addRec l .ordinary (l.initial r) l.param l.prio q (s.initialDie l r) none 0 []).2) s

/-- A rejection that no completion record can carry goes to the presenter: the host's registers, or the error ring of the
presenting task's context (12 R299). -/
def State.rejectTo (s : State) (who : Option Nat) (ctx va code : Nat) : State :=
  match who with
  | none =>
    let h := s.host
    ({ s with host := { h with lrej := true, lrejcode := BitVec.ofNat 8 code, lrejctx := BitVec.ofNat 3 ctx, lrejaddr := va / 64 * 64 } } :
      State).raise causeLaunchRej
  | some n => s.errorTask n code (BitVec.ofNat 64 va) 0 s.stc 0

/-- A launch record that cannot be read and has no replica: the launch fails with an error record MEMUE of the physical address, and the
host learns of it as of a rejection (01 Table 1.6, log 95). -/
def State.launchUnread (s : State) (who : Option Nat) (ctx va pa lserial : Nat) : State :=
  match who with
  | some n => s.errorTask n errMemUe (BitVec.ofNat 64 pa) 0 s.stc 0
  | none =>
    (s.errorEntry ctx { stc := s.stc, issuer := (unitIssuer 11 0 s.lead).toNat, code := errMemUe, detail := BitVec.ofNat 64 pa,
                        die := s.lead, lserial := lserial }).rejectTo none ctx va errMemUe

/-- A launch record is presented by the host or by the task of a core, in a context (12 R299). Each record presented to a live
context takes the context's next serial. -/
def State.present (s : State) (who : Option Nat) (ctx va : Nat) : State :=
  match s.ctx? ctx with
  | none => s.rejectTo who ctx va errBadCtx
  | some x =>
    if x.ending then s.rejectTo who ctx va errBadCtx
    else
      let n := x.lserial
      let s := s.modCtx ctx fun x => { x with lserial := (n + 1) % 2 ^ 32 }
      match s.vgetSound (s.ctxRoot ctx) (pieces 96) va 96 with
      | none => s.rejectTo who ctx va errBadMagic
      | some (.error pa) => s.launchUnread who ctx va pa n
      | some (.ok bs) =>
        let v := leVal bs
        let l := readLaunch ctx n va v
        let reject (e : Bad) : State :=
          if s.vok ctx l.compl 64 then s.writeCompletion ctx l.compl e.1 0 0 e.2 n else s.rejectTo who ctx va e.1
        if va % 64 ≠ 0 ∨ bitsN v 0 32 ≠ launchMagic then reject (errBadMagic, 0)
        else if bitsN v 32 3 ≠ ctx then s.rejectTo who ctx va errBadCtx
        else if x.quarantined then reject (0x35, 0)
        else
          match s.launchBad x l v, s.vbad (s.ctxRoot ctx) (pieces 64) l.image 64 with
          | some e, _ => reject e
          | none, some pa => s.launchUnread who ctx va pa n
          | none, none => s.acceptLaunch l

def execLaunch (d a : RegF) (s : State) : Out :=
  .next (s.issue {} fun t => t.interlock [d, a] (fun u => u.access true fun u =>
    let n := u.turn.core
    if u.cur.tsk.run ≠ 0 then .whole (u.runStop false)
    else
      let k := u.cur.tsk.launches + 1
      let va := (u.rd a).toNat
      let u := u.modCur fun c => { c with tsk := { c.tsk with launches := k } }
      let u := u.wr 1 d (BitVec.ofNat 64 k)
      .done (u.present (some n) u.cur.sys.ctx.toNat va)) t)

end Sys2Proof.Machine
end

