-- ==== Sys2Proof/Machine/Task.lean ====
section
/-! DEFINITION. Words of C about tasks and versions: spawn and weight (08 R235, R236; 12 R298, R307 to R309), the tile directory
(08 R238), the closing of reduction windows (08 R225), and barriers of every sequencer (08 R230; 12 R313). -/

namespace Sys2Proof.Machine

/-! ### Weight and spawn -/

def borrowUnit : Nat := 2 ^ 32

/-- The borrow of a task reaches its launch record: weight and TOTAL grow, unless TOTAL would pass 2^95 (12 R309). -/
def State.borrowAck (s : State) (id : Nat) : State :=
  match s.rec? id with
  | none => s
  | some r =>
    match s.launchOf r with
    | none => s
    | some l =>
      if 2 ^ 95 < l.total + borrowUnit then s.setLaunch { l with final := if l.final = 0 then errWeightOvf else l.final }
      else (s.setLaunch { l with total := l.total + borrowUnit }).setRec { r with weight := r.weight + borrowUnit }

def execWeightBorrowAck (task : Nat) (s : State) : Out := .next (s.borrowAck task)

/-- The wait for a grant, and the borrow that it waits for. -/
def State.borrow (s : State) (id : Nat) : State :=
  if s.hasJob (.weightBorrowAck id) then s else s.schedFree phTask (.weightBorrowAck id)

/-- The launch has overflowed its weight. -/
def Launch.overflowed (l : Launch) : Bool := l.final = errWeightOvf

def execWborrow (d : RegF) (s : State) : Out :=
  .next (s.sbWord {} [d] fun u =>
    match u.recOf u.turn.core with
    | none => .trap .illop 0 false
    | some r =>
      if 2 ^ 16 ≤ r.weight ∨ (u.launchOf r).any Launch.overflowed ∨ ¬ r.teamed then .done (u.wrFree d (BitVec.ofNat 64 r.weight))
      else .hold fun t => t.borrow r.id)

/-- The first reason to refuse a child (12 R298). -/
def State.spawnBad (s : State) (l : Launch) (w : Word) : Bool :=
  let live := s.liveRecs l
  decide (2 ^ l.bits ≤ w.toNat) || live.any (fun r => r.taskno = l.taskno w) ||
    decide (l.teammax < (live.filter fun r => r.teamed && l.group l.teamlvl r.wid = l.group l.teamlvl w).length + 1)

/-- The record would spill, and the spill queue is full (12 R307). -/
def State.spillFull (s : State) (l : Launch) (d : Nat) : Bool :=
  decide (s.poolFree d ≤ 256) && (s.ctx? l.ctx).any fun x => decide (x.spillcap ≤ x.spilled.length)

def execSpawn (d a b : RegF) (prio : BitVec 3) (inherit : BitVec 1) (s : State) : Out :=
  .next (s.issue {} fun t => t.interlock [d, a, b] (fun u => u.access true fun u =>
    let n := u.turn.core
    let w := u.rd a
    match u.recOf n, (u.recOf n).bind u.launchOf with
    | some r, some l =>
      if u.cur.tsk.run ≠ 0 then .whole (u.runStop false)
      else if u.spawnBad l w then .trap .illop 0 false
      else if l.spawnsEnded || u.spillFull l r.die then .fail .ovf fun t => t.setLaunch { l with spawnsEnded := true }
      else if r.weight ≤ 1 then
        if l.overflowed then .trap .ovf 0 false
        else if u.cal then .wait else .hold fun t => t.borrow r.id
      else
        let param := if u.rd b = 0#64 then r.param else (u.rd b).toNat
        let p := if inherit = 1#1 then r.prio else prio.toNat
        let u := u.setRec { r with weight := r.weight - r.weight / 2 }
        let (id, u) := u.addRec l .ordinary w param p (r.weight / 2) r.die (some r.id) 0 []
        .done (u.wr 4 d (BitVec.ofNat 64 id))
    | _, _ => .trap .illop 0 false) t)

/-! ### The tile directory -/

/-- State code of a name (08 Table 8.6). -/
def State.tileCode (s : State) (name : Nat) : Nat := ((s.dirEnt name).map (·.st.code)).getD 5

/-- tlfill is posted: a FULL version gets a copy on the issuing die, unless one stands there. -/
def State.fillHere (s : State) (name d : Nat) : State :=
  match s.dirEnt name with
  | some e =>
    if e.st ≠ .full ∨ s.homeOf name = d ∨ (e.repl = true ∧ e.rdie = d) ∨ e.copies.any (fun c => c.1 = d) = true then s
    else
      let (fs, s) := s.copyFrames d e.frames
      s.setDir { e with copies := e.copies ++ [(d, fs)] }
  | none => s

def execTlfill (a : RegF) (s : State) : Out :=
  .next (s.issue {} fun t => t.interlock [a] (fun u => u.access false fun u =>
    .done (u.fillHere (u.rd a).toNat (dieOf u.turn.core))) t)

def execTlquery (d a : RegF) (s : State) : Out :=
  .next (s.sbWord { audit := true } [d, a] fun u => .done (u.wrFree d (BitVec.ofNat 64 (u.tileCode (u.rd a).toNat))))

def execTlwait (d a : RegF) (s : State) : Out :=
  .next (s.sbWord {} [d, a] fun u =>
    let name := (u.rd a).toNat
    let k := u.tileCode name
    if k = 0 ∨ k = 3 then .hold fun t => (t.noteWait name).unspill
    else .done (u.endWait.wrFree d (BitVec.ofNat 64 k)))

/-! ### rwclose (08 R225) -/

/-- It waits for the delivery; its spilled children may come on-chip meanwhile (12 R307). -/
def execRwclose (d a : RegF) (ord : BitVec 2) (s : State) : Out :=
  .next (if s.cal then s.issue {} fun _ => .trap .illop 0 false
    else s.issue {} fun t => t.interlock [d, a] (fun u => u.access false fun u =>
      match u.rwin? u.cur.sys.ctx.toNat (u.rd a).toNat with
      | none => .trap .illop 0 false
      | some w =>
        if !w.delivered then .hold fun t => (t.noteWait w.handle).unspill
        else
          -- a command of cle, at whose end the pages of the window are released and D is written
          let u := ({ u with rwins := u.rwins.filter fun x => x.id ≠ w.id } : State).endWait
          let (st, u) := u.stampFor u.turn.core (unitOfEng engCle)
          let (id, u) := u.addCmd u.turn.core { mkCmd engCle u.turn.q (.rwclose d a ord) with
            dst := d.toNat, value := BitVec.ofNat 64 w.errors, stamp := st, pages := w.pages, pins := pinKeys w.pages, obj := w.owner }
          .done (u.schedFree phEngine (.atomicResultReturn u.turn.core id))) t)

/-! ### Barriers -/

def State.barrier? (s : State) (launch level group : Nat) : Option Barrier :=
  s.barriers.find? fun b => b.launch = launch && b.level = level && b.group = group
def State.setBarrier (s : State) (b : Barrier) : State :=
  let old (x : Barrier) : Bool := x.launch = b.launch && x.level = b.level && x.group = b.group
  if s.barriers.any old then { s with barriers := s.barriers.map fun x => if old x then b else x }
  else { s with barriers := s.barriers ++ [b] }

/-- A counter of a die's node is free for this barrier: 256 barriers at most have arrivals waiting there, each on the die whose core
made it. -/
def State.counterFree (s : State) (d : Nat) (b : Barrier) : Bool :=
  let held (x : Barrier) : Bool := x.arrivals.any fun a =>
    decide (x.departed < a.2) && (s.rec? a.1).any fun r => r.live && decide (dieOf r.core = d)
  held b || decide ((s.barriers.filter held).length < 256)

/-- An arrival is a command of cle while it is on its way (05 Table 5.6, log 94). -/
def State.arrivalCmd (s : State) (n : Nat) (q : Seq) (op : Instr) (slot : Bool) : State :=
  let (st, s) := s.stampFor n (unitOfEng engCle)
  let (id, s) := s.addCmd n { mkCmd engCle q op with slot := some slot, stamp := st }
  s.schedFree phEngine (.atomicResultReturn n id)

/-- The task of core n makes its k-th arrival. -/
def State.arrive (s : State) (n : Nat) (q : Seq) (id : Nat) (b : Barrier) (k : Nat) : State :=
  let b := { b with arrivals := SMap.ins b.arrivals id k }
  let s := (s.setBarrier b).modCore n fun c =>
    { c with tsk := { c.tsk with barCount := SMap.ins c.tsk.barCount b.level k, barWait := c.tsk.barWait ++ [(q, b.level, k)] } }
  (s.checkBarrier b).unspill

def execBar (level : BitVec 3) (o : Ordr) (s : State) : Out :=
  .next (s.sbWord {} [] fun u =>
    let n := u.turn.core
    let q := u.turn.q
    let lv := level.toNat
    match u.recOf n, (u.recOf n).bind u.launchOf with
    | some r, some l =>
      if lv < l.teamlvl then .trap .illop 0 false
      else if o.ord = 3#2 && !u.cur.allPerformed q && !u.cur.tsk.barWait.any (fun w => w.1 = q && w.2.1 = lv) then .wait
      else if !r.teamed then .done u
      else
        let g := l.group lv r.wid
        let b := (u.barrier? l.order lv g).getD { launch := l.order, level := lv, group := g }
        let drop (u : State) : State := u.modCur fun c =>
          { c with tsk := { c.tsk with barWait := c.tsk.barWait.filter fun w => !(w.1 = q && w.2.1 = lv) } }
        match u.cur.tsk.barWait.find? fun w => w.1 = q && w.2.1 = lv with
        | some (_, _, k) => if k ≤ b.departed then .done (drop u) else .wait
        | none =>
          if u.cur.tsk.barWait.any fun w => w.2.1 = lv && decide (b.departed < w.2.2) then .trap .illop 0 false
          else if !u.counterFree (dieOf n) b then .wait
          else
            match u.grabSlot n engCle with
            | none => .wait
            | some slot =>
            let k := SMap.get 0 u.cur.tsk.barCount lv + 1
            if (u.members b).length ≤ 1 then
              let u := u.setBarrier { b with arrivals := SMap.ins b.arrivals r.id k, departed := Nat.max b.departed k }
              let u := u.modCur fun c => { c with tsk := { c.tsk with barCount := SMap.ins c.tsk.barCount lv k } }
              .done (u.arrivalCmd n q (.bar level o) slot)
            else .hold fun t => (t.arrive n q r.id b k).arrivalCmd n q (.bar level o) slot
    | _, _ => .done u)

/-- The departure: every member that waits at this arrival goes on. -/
def State.depart (s : State) (launch level group : Nat) : State :=
  match s.barrier? launch level group with
  | none => s
  | some b =>
    if (s.members b).isEmpty then
      { s with barriers := s.barriers.filter fun x => !(x.launch = launch && x.level = level && x.group = group) }
    else if !s.barrierFull b then s
    else
      let b := { b with departed := b.departed + 1 }
      (s.setBarrier b).checkBarrier b

def execBarrierDeparture (launch level group : Nat) (s : State) : Out := .next (s.depart launch level group)

end Sys2Proof.Machine
end

