-- ==== Sys2Proof/Machine/Publish.lean ====
section
/-! DEFINITION. publish (08 R215 to R217; 13 R335), its switch, the lineage report and its acknowledgements (01 R29; 16 R380, R383,
R386), and the publishes of runs that vouch for another (16 R387; 17 R400, R401). -/

namespace Sys2Proof.Machine

/-- The command writes stacked DRAM. -/
def Cmd.writesDram (m : Cmd) : Bool :=
  match m.op with
  | .stdram .. | .stscat .. | .amo .. | .ramo .. | .damo .. | .pinit .. | .ppush .. | .ppop .. | .rwopen .. => true
  | _ => false
/-- It writes one of these pages (virtual addresses). -/
def Core.writesPages (c : Core) (m : Cmd) (vas : List (Nat × Nat)) : Bool :=
  m.writesDram && (if m.eng = engGse then rangesMeet ((c.elems m).map fun a => (a, 4)) vas
    else rangesMeet (m.pages.map fun p => (p.va, p.size)) vas)

/-- Earlier commands of the task that write one of these pages have retired, and C's own accesses are performed (08 R216). -/
def Core.publishable (c : Core) (vas : List (Nat × Nat)) : Bool :=
  c.allPerformed .c && !c.cmds.any fun m => c.writesPages m vas

/-- Settle time (13 R335): where the pages lie. -/
def State.settle (s : State) (n : Nat) (pas : List Nat) : Nat :=
  if pas.any fun p => decide (paPkg p ≠ s.pkg) then 8192 else if pas.all fun p => paDie p = dieOf n then 256 else 512

/-- The publish, at its stamp: the switch of some shadows is set for its cycle, ahead of the accesses of that cycle (13 R335). -/
def State.sendPublish (s : State) (op : Instr) (p : Publish) (st : Stamp) (sh : List Shadow) (wait : Nat) : State :=
  let n := s.turn.core
  let locs := sh.map fun h => (locOf [{ va := h.va, pa := h.pa, size := h.size, write := true }] h.va, h.size)
  let (cmd, s) := s.addCmd n { mkCmd engNone .c op with stamp := st, locs := locs }
  let (i, s) := s.fresh
  let tsw := s.stc + wait
  { s with publishes := s.publishes ++ [{ p with id := i, tsw := tsw, cmd := cmd }],
           agenda := insJob { due := tsw, phase := phSwitch, ev := .publishSwitch i, key := st } s.agenda }

def execPublishBuf (a b : RegF) (scope : BitVec 3) (s : State) : Out :=
  .next (s.issue {} fun t => t.interlock [a, b] (fun u => u.access true fun u =>
    let n := u.turn.core
    let lo := (u.rd a).toNat
    let len := (u.rd b).toNat
    let hit := u.cur.tsk.shadows.filter fun h => h.version.isNone && decide (0 < len) && decide (h.va < lo + len) && decide (lo < h.va + h.size)
    let rs := hit.map fun h => (h.va, h.size)
    if !u.cur.publishable rs then .wait
    else if hit.isEmpty then .done u
    else
      let p : Publish := { id := 0, tsw := 0, vas := hit.map (·.va), version := none, task := u.cur.tsk.task.getD 0, core := n, q := .c, cmd := 0 }
      let (st, u) := u.stampFor n (seqNum .c)
      .done (u.sendPublish (.publishBuf a b scope) p st hit (u.settle n (hit.map (·.pa))))) t)

/-! ### publish.tile -/

/-- The lineage record of a publish by a physical core of a die (16 Table 16.3). -/
def TaskRec.lineage (r : TaskRec) (pcore die name depth : Nat) (audit : Bool) (st : Stamp) : Lineage :=
  { name := name, taskno := r.taskno, ctx := r.ctx, audit := audit, pcore := pcore, die := die, lserial := r.lserial,
    wid := r.wid, param := r.param, stc := st.stc, issuer := st.issuer, opds := r.ins, depth := depth, prio := r.prio, seqno := st.seqno }

/-- A shard copy has room for a record, beside those of the home on their way to it. -/
def State.shardTakes (s : State) (x : Shard) (mirror : Bool) (l : Lineage) : Bool :=
  let due (y : Lineage) : Bool := y.name ≠ l.name && s.homeOf y.name = s.homeOf l.name &&
    (s.dirEnt y.name).any fun e => if mirror then !e.mirack else !e.linack
  decide ((s.sentLin.filter due).foldl (fun n y => n + x.needs y) x.bytes + x.needs l ≤ shardCap)

/-- The home shard of a version and its mirror have room for one more record of this task (16 R382). -/
def State.shardRoom (s : State) (name : Nat) (r : TaskRec) : Bool :=
  let h := s.homeOf name
  let l := r.lineage 0 0 name 0 false {}
  s.shardTakes (s.die h).shard false l &&
    (match s.mirrorDie h with
     | some m => s.shardTakes (s.die m).mirror true l
     | none => true)

/-- Direction of a packet between two dies: the one that a booking names, unless it is cut, or the shorter, CW on a tie (14 R349; 09 R251). -/
def State.packetCw (s : State) (src dst : Nat) (dir : Option Bool) : Bool :=
  match dir with
  | some c => if s.pathOk src dst c then c else !c
  | none => s.dirCw src dst

/-- Direction towards a die that a link entry of a task's window names at this cycle (09 Table 9.3). -/
def State.linkDir (s : State) (task dst : Nat) : Option Bool :=
  (s.windows.find? fun w => w.task = task && decide (w.t0 ≤ s.stc)).bind fun w =>
    (w.tmpl.entries.find? fun e => e.kind = 3 && bitsN e.res 0 3 = dst && decide (w.t0 + e.off ≤ s.stc) &&
      decide (s.stc < w.t0 + e.off + e.dur)).map fun e => decide (bitsN e.res 3 1 = 0)

/-- A packet is on the ring. -/
def State.onRing (s : State) (p : Packet) : State :=
  let (due, s) := s.ringDue p.src p.dst p.cw
  s.schedInp due phTask .ringPacketArrival { id := p.id }

/-- A packet of `bytes` payload bytes leaves a station of the package ring, which holds a copy until it is acknowledged (14 R349, R351). What
its delivery starts knows the die. -/
def State.sendPacket (s : State) (src dst : Nat) (dir : Option Bool) (bytes : Nat) (st : Stamp) (payload : Instr) : State :=
  let (i, s) := s.fresh
  let p : Packet := { id := i, src := src, dst := dst, cw := s.packetCw src dst dir, stamp := st, payload := payload,
                      inp := { die := dst }, flits := 1 + (bytes + 255) / 256 }
  ({ s with packets := s.packets ++ [p] } : State).onRing p

/-- A lineage record goes from the producing die to the home shard, or to its mirror, in the directions that bookings name. A shard whose
partner and stand-in are gone has no mirror to answer. -/
def State.sendLineage (s : State) (l : Lineage) (dir : Nat → Option Bool) (mirror : Bool) : State :=
  let h := s.homeOf l.name
  match if mirror then s.mirrorDie h else some h with
  | some d => s.sendPacket l.die d (dir d) l.bytes { stc := l.stc, issuer := l.issuer, seqno := l.seqno, pkg := s.pkg } (.lineageAck l.name mirror)
  | none => s.modDir l.name fun e => { e with mirack := true }

/-- The lineage record of a publish is on its way to the shard and its mirror (16 R380). -/
def State.report (s : State) (pcore die : Nat) (r : TaskRec) (name depth : Nat) (audit : Bool) (st : Stamp) : State :=
  let l := r.lineage pcore die name depth audit st
  let s : State := { s with sentLin := (s.sentLin.filter fun x => x.name ≠ name) ++ [l] }
  (s.sendLineage l (s.linkDir r.id) false).sendLineage l (s.linkDir r.id) true

/-- What the directory learns at the stamp: DEPTH, RPEND, AUDIT, STC (16 R378, R383, R386; 13 R348). DEPTH has 8 bits: of a chain that
DBOUND 0 lets grow past 255, some value (log 123). -/
def State.enterPublish (s : State) (r : TaskRec) (name : Nat) (audit : Bool) (st : Stamp) : DirEnt × State :=
  let md := (s.ctx? r.ctx).bind (·.mirror)
  let bound := match md with
    | some m => SMap.get 0 m.dbound (s.qidOf r)
    | none => 16
  let depth := s.depthOf r.ins
  let rp := decide (bound ≠ 0) && decide (bound ≤ depth)
  let (depth, s) := if depth < 256 then (depth, s)
    else (Config.freeChoice s.freeCtr % 256, ({ s with freeCtr := s.freeCtr + 1 } : State))
  let e := (s.dirEnt name).getD { name := name }
  let e := { e with audit := audit, rpend := rp, depth := if rp then 0 else depth, dbound := bound, linack := false, mirack := false,
                    stc := st.stc, issuer := st.issuer }
  (e, s.setDir e)

/-- Shadows of a version that a task holds, discarded. -/
def Core.dropShadows (c : Core) (name : Nat) : Core :=
  { c with tsk := { c.tsk with shadows := c.tsk.shadows.filter fun h => h.version ≠ some name } }
def Core.notePublished (c : Core) (name : Nat) : Core := { c with tsk := { c.tsk with published := c.tsk.published ++ [name] } }

/-- A run that vouches for another holds what it publishes, with its stamp and the physical core that computed it. -/
def State.holdPublish (s : State) (n : Nat) (r : TaskRec) (name base : Nat) : State :=
  let sh := (s.core n).tsk.shadows.filter fun h => h.version = some name
  let (st, s) := s.stampFor n (seqNum .c)
  let s := s.modCore n fun c => c.dropShadows name
  let l := (s.heldPubs.filter fun h => !(h.name = name && h.task = r.id)) ++
    [({ name := name, kind := r.kind, shadows := sh, base := base, task := r.id, audit := (s.core n).sys.audit,
        stamp := st, pcore := s.physOf n, die := dieOf n } : HeldPub)]
  let s : State := { s with heldPubs := l }
  if r.kind = .verification then s.sched s.stc phTask (.verificationCompare name)
  else
    let inp : Input := { id := name }
    if r.kind = .redC ∨ (l.any (fun h => h.name = name && h.kind = .redA) = true ∧ l.any (fun h => h.name = name && h.kind = .redB) = true) then
      s.schedInp s.stc phTask .redundantRunCompare inp
    else s

/-- The rebuild of a version whose lineage has AUDIT = 1 keeps it, and says so (16 R386). -/
def State.rebuiltAudit (s : State) (r : TaskRec) (name : Nat) (audit : Bool) : Bool × State :=
  if r.kind = .recovery ∧ (s.lineage? name).any (·.audit) = true then (true, s.errorName errAuditRebuild name r.die) else (audit, s)

def execPublishTile (a : RegF) (scope : BitVec 3) (s : State) : Out :=
  .next (s.issue {} fun t => t.interlock [a] (fun u => u.access true fun u =>
    let n := u.turn.core
    let name := (u.rd a).toNat
    match u.recOf n with
    | none => .trap .illop 0 false
    | some r =>
      match r.tiles.findIdx? fun x => x.1 = name && x.2 with
      | none => .trap .illop 0 false
      | some k =>
        let md := u.mirrorOf r.ctx
        let base := md.tapbase + k * 2 ^ md.tslog
        if u.cur.tsk.published.contains name then .trap .illop 0 false
        else if !u.cur.publishable [(base, 2 ^ md.tslog)] then .wait
        else
          let st := (u.dirEnt name).map (·.st)
          let u' := u.modCur fun c => c.notePublished name
          if r.kind = .verification ∧ (u.dirEnt name).any (·.suspect) = true then .done (u'.holdPublish n r name base)
          else if r.kind = .verification ∨ st = some .full ∨ st = some .poisoned ∨ st = none then .done (u'.modCur fun c => c.dropShadows name)
          else if r.kind = .redA ∨ r.kind = .redB ∨ r.kind = .redC then .done (u'.holdPublish n r name base)
          else if !u.shardRoom name r then .wait
          else
            let (audit, u') := u'.rebuiltAudit r name u.cur.sys.audit
            let wait := if u.homeOf name = dieOf n then 256 else 512
            let p : Publish := { id := 0, tsw := 0, vas := [], version := some name, base := base, task := r.id, core := n, q := .c, cmd := 0 }
            let (stamp, u') := u'.stampFor n (seqNum .c)
            let u' := u'.sendPublish (.publishTile a scope) p stamp (u.cur.tsk.shadows.filter fun h => h.version = some name) wait
            let (e, u') := u'.enterPublish r name audit stamp
            .done (u'.report (u.physOf n) (dieOf n) r name e.depth audit stamp)) t)

/-! ### The switch -/

/-- A frame takes a content and its marks, where it is served. -/
def State.replaceFrame (s : State) (pa : Nat) (mem : List Host.Cell) (marks : List Nat) : State :=
  let p := s.resolve pa
  let s := s.evictHot (paDie p) fun w => decide (p ≤ 8 * w) && decide (8 * w < p + 65536)
  let s := ({ s with dram := mem.foldl (fun m c => SMap.put Memory.unlisted m (p + c.1) c.2) (Memory.zeroRange s.dram p 65536),
                     saveAreas := s.saveAreas.map fun a => a.spoil p 65536 } : State).unpoison p 65536
  marks.foldl (fun s k => s.modDie (paDie p) fun d => { d with poison := SMap.put false d.poison (p / 32 + k) true }) s

/-- A page takes a shadow's content in one step, frame by frame. -/
def State.replacePage (s : State) (h : Shadow) : State :=
  (List.range (h.size / 65536)).foldl (fun s k => s.replaceFrame (h.pa + 65536 * k)
    ((h.mem.filter fun c => c.1 / 65536 = k).map fun c => (c.1 - 65536 * k, c.2))
    ((h.marks.filter fun m => m / 2048 = k).map fun m => m - 2048 * k)) s

/-- Frame of a version's page, taken on its home when it is first written (16 R377). -/
def State.versionFrame (s : State) (name page : Nat) : Nat × State :=
  match (s.dirEnt name).bind fun e => SMap.get? e.frames page with
  | some f => (f, s)
  | none =>
    let (f, s) := s.newFrame (s.homeOf name)
    (f, s.modDir name fun e => { e with frames := SMap.ins e.frames page f })

/-- The shadows of a version become its content; copies of an earlier one are dropped. -/
def State.installVersion (s : State) (name base : Nat) (sh : List Shadow) : State :=
  sh.foldl (fun s h =>
    let (f, s) := s.versionFrame name ((h.va - base) / 65536)
    s.replaceFrame f h.mem h.marks) (s.dropCopies name)

/-- A version becomes FULL: replication, waiters, release (16 R379, R383; 18 R423). -/
def State.sealed (s : State) (name : Nat) : State :=
  let s := s.modDir name fun e => if e.st = .poisoned then e else { e with st := .full }
  let s := if (s.dirEnt name).any (·.rpend) then s.startReplica name else s
  let s := s.wake name
  match s.ctxOfName name with
  | some c => s.releaseVersions c
  | none => s

def State.switch (s : State) (i : Nat) : State :=
  match s.publishes.find? fun p => p.id = i with
  | none => s
  | some p =>
    let c := s.core p.core
    let mine (h : Shadow) : Bool := match p.version with
      | some v => h.version = some v
      | none => p.vas.contains h.va
    let sh := c.tsk.shadows.filter mine
    let s : State := { s with publishes := s.publishes.filter fun x => x.id ≠ i }
    -- a publish whose task lost its core before the switch seals nothing: the record restarts (12 Table 12.9)
    if c.tsk.task ≠ some p.task then s else
    let s := match p.version with
      | some v => s.installVersion v p.base sh
      | none => sh.foldl State.replacePage s
    let s := (s.modCore p.core fun c =>
      { c with tsk := { c.tsk with shadows := c.tsk.shadows.filter fun h => !mine h } }).retireCmd p.core p.cmd
    match p.version with
    | some v => s.sealed v
    | none => s

def execPublishSwitch (pub : Nat) (s : State) : Out := .next (s.switch pub)

/-! ### Acknowledgements (01 R29; 16 R380) -/

/-- Records whose weight waits on a version. -/
def State.returnsOf (s : State) (name : Nat) : State :=
  (s.recs.filter fun r => r.outs.contains name).foldl (fun s r => s.tryReturn r.id) s

/-- A shard is under pressure above 90 % (16 R382). -/
def Shard.pressed (x : Shard) : Bool := decide (9 * shardCap < 10 * x.bytes)
def State.checkPressure (s : State) (d : Nat) : State :=
  let inp : Input := { die := d }
  if (s.die d).shard.pressed && !s.hasJobInp .shardPressureReplication inp then s.schedInp s.stc phTask .shardPressureReplication inp else s

/-- A die answers for a lineage record that reached it; one that is lost by now answers nothing, and the record goes to the one in its
place. A full shard delays the acknowledgement (16 R380, R382). -/
def State.ackLineage (s : State) (name : Nat) (mirror : Bool) (d : Nat) : State :=
  match s.sentLin.find? fun l => l.name = name with
  | none => s
  | some l =>
    let x := s.die d
    let home := decide (d = s.homeOf name)
    let shard := if home then x.shard else x.mirror
    if x.lost then s.sendLineage l (fun _ => none) mirror
    else if shardCap < shard.bytes + shard.needs l then s.schedInpFree phTask (.lineageAck name mirror) { die := d }
    else
    let s := s.storeLineage l d
    let s := s.modDir name fun e => if mirror then { e with mirack := true } else { e with linack := true }
    let both := (s.dirEnt name).all fun e => e.linack && e.mirack
    -- a version that was lost meanwhile can be walked now, unless this publish or a recovery record brings it back (16 R384)
    let s := if both && (s.dirEnt name).any (fun e => e.st = .lost) && !s.walked name && !s.publishes.any (fun p => p.version = some name) then
      s.schedDarner s.stc (.darnerWalk name) name else s
    -- what its report held back from Pruning and release goes on (16 R383)
    let s : State := if both then
        let s : State := { s with sentLin := s.sentLin.filter fun x => x.name ≠ name }
        ((s.dir.filter (·.repl)).foldl (fun s e => s.prune e.name) s).releaseVersions l.ctx
      else s
    ((if home then l.opds.map s.homeOf else []).foldl State.checkPressure (s.checkPressure (s.homeOf name))).returnsOf name

/-- The subject names the die that the record reached. -/
def execLineageAck (name : Nat) (mirror : Bool) (s : State) : Out := .next (s.ackLineage name mirror s.inp.die)

end Sys2Proof.Machine
end

