-- ==== Sys2Proof/Machine/Dispatcher.lean ====
section
/-! DEFINITION. The dispatchers (12 R305 to R315; 09 R251, R254; 19 R431 to R433): placement of records and residues, queue
rotation, work stealing, aging, teams and swapping, requests for pre-emption, releases, and the return of weight. -/

namespace Sys2Proof.Machine

/-! ### Where a record may go -/

/-- Physical core under a core number, numbered over the package. -/
def State.physId (s : State) (n : Nat) : Nat := 32 * dieOf n + s.physOf n

/-- Cores that a record may be booked on: its team's, or those of its launch's dies. -/
def State.coresFor (s : State) (r : TaskRec) : List Nat :=
  let l := if r.teamed then ((s.teamOf r).map (·.cores)).getD []
    else ((s.launchOf r).map fun l => s.onlineCores l.diemask).getD []
  l.filter fun n => s.coreOpen n && !r.avoid.contains (s.physId n)

/-- T0 of a booking requested now on a core. -/
def State.placeOn (s : State) (n pre : Nat) (pq : List Nat) (t : Template) : Option Nat :=
  s.placeNow n pre pq t fun _ => false

/-- Earliest T0 over some cores, the first core on a tie. -/
def State.bestOf (s : State) (cores : List Nat) (pre : Nat) (pq : List Nat) (t : Template) : Option (Nat × Nat) :=
  cores.foldl (fun best n =>
    match s.placeOn n pre pq t, best with
    | some t0, some b => if t0 < b.1 then some (t0, n) else some b
    | some t0, none => some (t0, n)
    | none, b => b) none

/-- On the die that holds the record, else on the other dies of its set. -/
def State.bestFor (s : State) (r : TaskRec) (pre : Nat) (pq : List Nat) (t : Template) : Option (Nat × Nat) :=
  let cs := s.coresFor r
  match s.bestOf (cs.filter fun n => dieOf n = r.die) pre pq t with
  | some b => some b
  | none => s.bestOf (cs.filter fun n => dieOf n ≠ r.die) pre pq t

/-- What the record's window needs: prologue, its quads, its template. -/
def State.demand (s : State) (r : TaskRec) : Nat × List Nat × Template :=
  match r.residue, s.launchOf r with
  | some x, _ => (restorePre, List.range 16, x.tmpl)
  | none, some l => (l.pre, l.pquads, l.tmpl)
  | none, none => (512, [], {})

/-! ### Victims (12 R314, R315) -/

/-- Remaining window of core n's task. -/
def State.remaining (s : State) (n : Nat) : Nat :=
  match s.windowOf n with
  | some w => w.t0 + w.tmpl.len - s.stc
  | none => 0
def State.pbound (s : State) (ctx : Nat) : Nat := ((s.ctx? ctx).map (·.pbound)).getD 52500

/-- A save slot is free, beyond those that stops already requested will take. -/
def State.slotsFree (s : State) (ctx : Nat) : Bool :=
  match s.ctx? ctx with
  | some x =>
    let asked := (s.cores.filter fun c => c.2.sys.ctx.toNat = ctx && (c.2.tsk.preempt.isSome || c.2.tsk.stopAt.isSome)).length
    decide (x.slotsUsed.length + asked < x.saveslots)
  | none => false

/-- The running task of core n may be stopped. -/
def State.stoppable (s : State) (n : Nat) : Bool :=
  match s.recOf n with
  | none => false
  | some v =>
    let k := (s.core n).tsk
    v.st = .run && k.preempt.isNone && k.stopAt.isNone && k.ending.isNone && decide (s.pbound v.ctx < s.remaining n) &&
    (s.residueOf n s.stc).any (fun x => !residueTooLong x.1) && s.slotsFree v.ctx

/-- The task of core n holds on the calendars something that the record needs on a core that it may take. -/
def State.delays (s : State) (r : TaskRec) (n : Nat) : Bool :=
  let (pre, pq, t) := s.demand r
  match s.windowOf n with
  | none => false
  | some w => (s.coresFor r).any fun m => (s.usesOf m pre pq t).any fun u => (s.windowUses w).any u.same

/-- The victim of a record, among the running tasks that delay it (log 49): lowest priority, largest remaining window, lowest core. -/
def State.victim (s : State) (r : TaskRec) : Option Nat :=
  let prio (n : Nat) : Nat := ((s.recOf n).map (·.prioNow)).getD 8
  let lt (a b : Nat) : Bool :=
    if prio a ≠ prio b then decide (prio a < prio b)
    else if s.remaining a ≠ s.remaining b then decide (s.remaining b < s.remaining a) else decide (a < b)
  (sortBy lt ((s.cores.map (·.1)).filter fun n => s.stoppable n && decide (prio n < r.prioNow) && s.delays r n)).head?

/-- The task of core n is asked to stop, its bound running from now (08 R233). -/
def State.askStop (s : State) (n by_ : Nat) : State :=
  if !s.stoppable n then s
  else
    (s.modCore n fun c => { c with tsk := { c.tsk with preempt := some by_, cuts := [], cutAt := 0 } }).sched (s.stc + 1050) phTask
      (.preemptTimeoutStop n)

/-- Cores that run a task of a team. -/
def State.teamCores (s : State) (t : Team) : List Nat :=
  (s.cores.filter fun c => (c.2.tsk.task.bind s.rec?).any fun r => r.teamed &&
    (s.teamOf r).any fun x => x.launch = t.launch && x.index = t.index).map (·.1)

/-- A record's request stops the victim's team. -/
def State.requestStop (s : State) (id : Nat) : State :=
  match s.rec? id with
  | none => s
  | some r =>
    if r.st ≠ .ready then s
    else
      match s.victim r with
      | none => s
      | some v =>
        let all := match (s.recOf v).bind fun x => if x.teamed then s.teamOf x else none with
          | some t => s.teamCores t
          | none => [v]
        all.foldl (fun s n => s.askStop n id) s

def execPreemptRequest (task : Nat) (s : State) : Out := .next (s.requestStop task)

/-- A stop or a test abort that the record has asked for is on its way. -/
def State.awaited (s : State) (id : Nat) : Bool :=
  s.hasJob (.preemptRequest id) || s.cores.any fun c => c.2.tsk.preempt = some id && c.2.tsk.task.isSome

/-! ### Test windows (17 R403, R404) -/

/-- Task number that stands for the test of a physical core. -/
def testTask (phys : Nat) : Nat := 2 ^ 32 + phys
/-- A test window that a record of this priority may abort, on a core that the record may take. -/
def State.abortable (s : State) (r : TaskRec) : Option Window :=
  s.windows.find? fun w => decide (2 ^ 32 ≤ w.task) && (s.coresFor r).contains w.core &&
    (match (s.die (dieOf w.core)).testPkg with
     | some p => decide (p.abortprio ≤ r.prioNow)
     | none => false)

/-! ### Placement (12 Table 12.9; 09 R251) -/

/-- Booking of a record at a T0. -/
def State.bookAt (s : State) (r : TaskRec) (pre : Nat) (pq : List Nat) (t : Template) (t0 n : Nat) : State :=
  let st := if r.residue.isSome then r.st else .booked
  let s := s.setRec { r with st := st, core := n, t0 := t0, pre := pre }
  -- runs that vouch for one task stand on different physical cores (17 R400)
  let s := if r.vouches then (s.siblings r).foldl (fun s x => s.setRec { x with avoid := x.avoid ++ [s.physId n] }) s else s
  let s := s.addWindow { task := r.id, core := n, t0 := t0, pre := pre, tmpl := t, order := 0, pquads := pq }
  let s := if r.residue.isSome then s.schedRestore r.id t0 pre else s.schedStart r.id t0 pre
  s.bindQueues r.die

/-- The dispatcher tries a record: it books it, or asks for a stop or an aborted test when the wait would pass R314's bound. -/
def State.placeRec (s : State) (id : Nat) : State :=
  match s.rec? id with
  | none => s
  | some r =>
    if !s.bookable r then s
    else
      let (pre, pq, t) := s.demand r
      let best := s.bestFor r pre pq t
      let soon := match best with
        | some b => decide (b.1 ≤ s.stc + s.pbound r.ctx + pre)
        | none => false
      let book (s : State) : State := match best with
        | some b => s.bookAt r pre pq t b.1 b.2
        | none => s
      if soon || r.st ≠ .ready then book s
      else if s.awaited id then s
      else
        match s.abortable r with
        | some w => s.schedInp s.stc phTask .testAbort { die := dieOf w.core, core := some w.core, phys := w.task % 32, id := id }
        | none => if (s.victim r).isSome then s.sched s.stc phTask (.preemptRequest id) else book s

def execBookingPlacement (task : Nat) (s : State) : Out := .next (s.placeRec task)

/-- A release: compaction, then everything that waits for a place (09 R254). -/
def State.release (s : State) : State :=
  let s := s.compact
  let s := s.cores.foldl (fun s c =>
    if c.2.tsk.drained && !s.hasJob (.calendarT0Resume c.1) then s.placeArmed c.1 true
    else if c.2.tsk.rebook.isSome && !s.hasJob (.calendarT0Resume c.1) then s.placeReturn c.1 else s) s
  (List.range 8).foldl (fun s d =>
    (s.die d).due.foldl (fun s p => s.schedInp s.stc phTask .testDue { die := d, phys := p }) s) s.kick

def execBookingRelease (s : State) : Out := .next s.release

/-! ### Queues (12 R305, R306) -/

/-- One rotation of a die's slots. -/
def State.rotate (s : State) (d : Nat) : State :=
  let x := s.die d
  let k := Nat.min x.waiting.length 64
  if k = 0 then s
  else
    let lt (a b : Nat × Nat × Nat) : Bool :=
      decide (a.2.2 < b.2.2) || (a.2.2 = b.2.2 && (decide (a.1 < b.1) || (a.1 = b.1 && decide (a.2.1 < b.2.1))))
    let bound := sortBy lt x.slots
    let out := bound.take (Nat.min k bound.length)
    let now (e : Nat × Nat × Nat) : Nat × Nat × Nat := (e.1, e.2.1, s.stc)
    let inn := (sortBy lt x.waiting).take k
    s.setDie d { x with slots := (x.slots.filter fun e => !out.contains e) ++ inn.map now,
                        waiting := (x.waiting.filter fun e => !inn.contains e) ++ out.map now }

def execQueueRotation (s : State) : Out :=
  .next ((((List.range 8).foldl State.rotate s).sched (s.stc + rotationPeriod) phTask .queueRotation).kick)

/-- A die that has had no READY record for 16384 c takes one of another; the entry that it leaves is free. -/
def State.steal (s : State) (d : Nat) : State :=
  if (s.die d).lost || !(s.readyOn d).isEmpty || decide (s.stc < s.idleUntil d) then s.seek d
  else
    match s.stealable d with
    | some r => ((s.setRec { r with die := d }).unspill).kick
    | none => s

def execDieWorkSteal (s : State) : Out := .next (s.steal (s.inp.die % 8))

/-- The effective priority rises by one for every 2^20 c in READY. -/
def State.age (s : State) (id : Nat) : State :=
  match s.rec? id with
  | some r =>
    if r.st = .ready then
      ((s.setRec { r with aged := r.aged + 1 }).sched (2 ^ 20 + s.stc) phTask (.priorityAging id)).kick
    else s
  | none => s

def execPriorityAging (task : Nat) (s : State) : Out := .next (s.age task)

/-! ### Teams (12 R310 to R312) -/

/-- Cores that no admitted team holds, on the dies of a launch. -/
def State.unheld (s : State) (l : Launch) : List Nat :=
  (s.onlineCores l.diemask).filter fun n => !s.teams.any fun t => t.admitted && t.cores.contains n

/-- k cores for a team: one on the die of each of its records, then the lowest. -/
def State.pick (s : State) (l : Launch) (index k : Nat) (free : List Nat) : List Nat :=
  let dies := ((s.liveRecs l).filter fun r => r.teamed && l.group l.teamlvl r.wid = index).map (·.die)
  let near := dies.foldl (fun acc d => match free.find? fun n => dieOf n = d && !acc.contains n with
    | some n => acc ++ [n]
    | none => acc) []
  ((near ++ free.filter fun n => !near.contains n).take k)

/-- Teams that lost cores with a die take others as they become free, ahead of those that wait. -/
def State.topUp (s : State) : State :=
  s.teams.foldl (fun s t =>
    match s.launches.find? fun l => l.order = t.launch with
    | none => s
    | some l =>
      if !t.admitted || t.swapping || decide (l.teammax ≤ t.cores.length) then s
      else s.setTeam { t with cores := t.cores ++ s.pick l t.index (l.teammax - t.cores.length) (s.unheld l) }) s

/-- Time slice of a team's context. -/
def State.sliceOf (s : State) (t : Team) : Nat :=
  (((s.launches.find? fun l => l.order = t.launch).bind fun l => s.ctx? l.ctx).map (·.tslice)).getD 1050000
def State.teamPrio (s : State) (t : Team) : Nat := ((s.launches.find? fun l => l.order = t.launch).map (·.prio)).getD 0

/-- The resident teams that a waiting team may displace, the one resident longest first. -/
def State.swapTeams (s : State) (w : Team) : List Team :=
  sortBy (fun (a b : Team) => decide (a.since < b.since))
    (s.teams.filter fun t => t.admitted && !t.swapping && decide (s.teamPrio t ≤ s.teamPrio w))
/-- Cycle at which a team's slice is over. -/
def State.sliceEnd (s : State) (t : Team) : Nat := t.since + s.sliceOf t
/-- Of those whose slice is over, the one resident longest (12 R312). -/
def State.swapOut (s : State) (w : Team) : Option Team := (s.swapTeams w).find? fun t => decide (s.sliceEnd t ≤ s.stc)
/-- A swap for a waiting team at the first end of a slice. -/
def State.schedSwap (s : State) (w : Team) : State :=
  match sortBy (fun (a b : Nat) => decide (a < b)) ((s.swapTeams w).map s.sliceEnd) with
  | t :: _ => (s.unsched (· = .teamSwap)).sched (Nat.max s.stc t) phTask .teamSwap
  | [] => s

/-- The first waiting team is admitted, or asks for a swap. -/
def State.admitTeam (s : State) : State :=
  let t := s.topUp
  let s := if t.teams = s.teams then t else t.kick
  match s.firstWaiting with
  | none => s
  | some t =>
    match s.launches.find? fun l => l.order = t.launch with
    | none => s
    | some l =>
      let free := s.unheld l
      if l.teammax ≤ free.length then
        (s.setTeam { t with admitted := true, since := s.stc, cores := s.pick l t.index l.teammax free }).kick
      else if s.teams.any (·.swapping) then s
      else s.schedSwap t

def execTeamAdmission (s : State) : Out := .next s.admitTeam

/-- The swap: when a team of equal or higher priority still waits with no cores free, the team resident longest, its slice over,
stops. -/
def State.swap (s : State) : State :=
  match s.firstWaiting with
  | none => s
  | some w =>
    match s.launches.find? fun l => l.order = w.launch with
    | none => s
    | some l =>
      if l.teammax ≤ (s.unheld l).length then s.kick
      else if s.teams.any (·.swapping) then s
      else
        match s.swapOut w with
        | none => s.schedSwap w
        | some t =>
          let s := s.setTeam { t with swapping := true }
          let mine (r : TaskRec) : Bool := r.teamed && (s.teamOf r).any fun x => x.launch = t.launch && x.index = t.index
          let s := (s.recs.filter fun r => mine r && (r.st = .booked || r.st = .loading)).foldl (fun s r => s.restart r.id) s
          -- a stopped record gives up the window of its restore
          let s := (s.recs.filter fun r => mine r && r.st = .stopped).foldl (fun s r => s.unplaceRestore r.id) s
          let s := (s.teamCores t).foldl (fun s n => s.askStop n 0) s
          match s.recs.find? mine with
          | some r => s.checkTeam r
          | none => s

def execTeamSwap (s : State) : Out := .next s.swap

/-! ### The return of weight (12 R309) -/

def State.giveBack (s : State) (id : Nat) : State :=
  match s.rec? id with
  | none => s
  | some r =>
    if r.st ≠ .ended ∨ r.weightBack ∨ ¬ s.acked r then s
    else
      let s := s.setRec { r with weightBack := true }
      let s := match s.launchOf r with
        | some l => s.setLaunch { l with held := l.held + r.weight }
        | none => s
      -- what is left of its window is released after its weight (08 R234)
      let s := s.dropWindows fun w => w.task = id
      (s.checkLaunch r.ctx r.lserial).checkContext r.ctx

def execWeightReturn (task : Nat) (s : State) : Out := .next (s.giveBack task)

end Sys2Proof.Machine
end

