-- ==== Sys2Proof/Machine/TaskLife.lean ====
section
/-! DEFINITION. The life of a task on its core: prologue, core span, T0 (02 R60; 09 R242 to R246, R272), the end of its window (09
R258), pre-emption, saving and restoring (12 R314 to R317; 09 R264), and its end (08 R234; 12 Table 12.9; 16 R386; 17 R400). -/

namespace Sys2Proof.Machine

/-! ### The prologue (09 R242, R246) -/

/-- The loader's next chunk of the image: row k of the record's image, 256 bytes. -/
def State.loadChunk (s : State) (n id k due : Nat) (h : TaskHdr) : State :=
  let off := 256 * k
  if h.imageLen ≤ off then s
  else
    let len := Nat.min 256 (h.imageLen - off)
    s.modCore n fun c => { c with reqs := c.reqs ++ [⟨due, 6, id, k, h.spmaddr + off, len⟩] }

/-- The loader's row k of a restore: 1024 bytes of the scratchpad in a cycle, 256 in each of four quads (09 R246, R264; log 120). -/
def State.loadBack (s : State) (n id k : Nat) : State :=
  if 8192 ≤ k then s
  else
    let a := 2 ^ 21 * (k / 2048) + 256 * (k % 2048)
    s.modCore n fun c => { c with reqs := c.reqs ++ (List.range 4).map fun i => ⟨s.stc + 1, 6, id, 4 * k + i, a + 2 ^ 19 * i, 256⟩ }

/-- Another task still holds the core of a record: it is being drained, saved or ended. -/
def State.heldOver (s : State) (r : TaskRec) : Bool := (s.core r.core).tsk.task.any fun t => t ≠ r.id

/-- A record whose core is not free for it gives its place up and is placed again (log 121). -/
def State.displace (s : State) (r : TaskRec) : State := if r.residue.isSome then (s.unplaceRestore r.id).kick else s.restart r.id

/-- At T0 - PRE the loader marks the quads that it writes and begins with the image; a restore writes every quad from its slot. It waits
for no saver: the scratchpad of a task being saved is the saver's. -/
def State.prologue (s : State) (id : Nat) : State :=
  match s.rec? id with
  | none => s
  | some r =>
    if s.heldOver r && (s.core r.core).tsk.stopAt.isSome then s.displace r
    else if r.residue.isSome then s.loadBack r.core id 0
    else if r.st ≠ .booked then s
    else
      match s.launchOf r with
      | none => s
      | some l =>
        let s := s.setRec { r with st := .loading }
        let s := s.modCore r.core fun c =>
          { c with spm := l.pquads.foldl (fun m q => m.markRange (2 ^ 19 * q) (2 ^ 19 * (q + 1))) c.spm }
        s.loadChunk r.core id 0 s.stc (s.taskHdr l)

def execPrologueStart (task : Nat) (s : State) : Out := .next (s.prologue task)

/-- The loader's chunk has its bank: it is read from memory and written; the next follows one cycle later. -/
def State.serveLoad (s : State) (n id k addr len : Nat) : State :=
  match s.rec? id with
  | none => s
  | some r =>
    match r.residue, s.launchOf r with
    | some x, _ =>
      let s := s.modCore n fun c => { c with spm := c.spm.copyRange x.core.spm addr (addr + len) }
      if k % 4 = 3 then s.loadBack n id (k / 4 + 1) else s
    | none, none => s
    | none, some l =>
      let h := s.taskHdr l
      let bs := (s.vget l.ctx (l.image + h.spmimg + 256 * k) len).getD (List.replicate len 0)
      (s.modCore n fun c => c.setSpm addr bs).loadChunk n id (k + 1) (s.stc + 1) h

/-! ### The core span (02 R60; 04 R100; 09 R273) -/

/-- Words of sequencer k of an image, as an instruction memory. -/
def State.loadCode (s : State) (l : Launch) (h : TaskHdr) (k : Nat) : SMap Word :=
  let n := h.codelen.getD k 0
  let bs := (s.vget l.ctx (l.image + h.code + 8 * h.codeBase k) (8 * n)).getD []
  (((List.range n).zip (chunks 8 n bs)).filter fun p => p.2 ≠ 0).map fun p => (p.1, BitVec.ofNat 64 p.2)

/-- Patch store of a task: the values at POFF of its parameter block, 0 where its address does not translate (log 43). -/
def State.loadPatches (s : State) (l : Launch) (h : TaskHdr) (param : Nat) : List (Seq × Nat × BitVec 32) :=
  (List.range h.pcount).map fun i =>
    let e := s.patchEnt l h i
    (seqOfNum (bitsN e 14 2), bitsN e 0 14, BitVec.ofNat 32 (((s.vget l.ctx (param + bitsN e 32 32) 4).map leVal).getD 0))

/-- Translations of the pages of a range. -/
def State.walkRange (s : State) (root : Nat) : Nat → Nat → Nat → List PageTr
  | 0, _, _ => []
  | fuel + 1, va, hi =>
    if hi ≤ va then []
    else match s.walk root va with
      | some p => p :: s.walkRange root fuel (p.va + p.size) hi
      | none => s.walkRange root fuel (va / 65536 * 65536 + 65536) hi

/-- Pages of a record's parameter block. -/
def State.paramPages (s : State) (l : Launch) (r : TaskRec) : List PageTr :=
  s.walkRange (s.ctxRoot l.ctx) (pieces l.paramlen) r.param (r.param + l.paramlen)

/-- The translations that the loader fills in: the pages of the declared tiles in order, then those of the parameter block, as many as
the cache holds (09 R273, log 90). A save area is addressed physically and takes none. -/
def State.loadCache (s : State) (l : Launch) (r : TaskRec) : List PageTr :=
  let md := s.mirrorOf l.ctx
  let pages := (List.range r.tiles.length).zip r.tiles |>.flatMap fun t =>
    (List.range (Nat.min 512 (2 ^ md.tslog / 65536))).map fun p => slotEntry (md.tapbase + t.1 * 2 ^ md.tslog + 65536 * p) t.2.2
  (pages.take 512 ++ s.paramPages l r).eraseDups.take 512

/-- A sequencer at its first start. -/
def freshSeq (entry : Nat) : SeqSt := { pc := BitVec.ofNat 14 entry }

/-- The core's state at T0 of a first start. The header that the loader reads is not checked again: fields that changed after acceptance
act as they stand (log 43). -/
def State.freshCore (s : State) (n : Nat) (r : TaskRec) (l : Launch) (x : Context) : Core :=
  let c := s.core n
  let h := s.taskHdr l
  let cs := (freshSeq (h.entry.getD 0 0)).setReg 0 r.wid
  let other := (List.range 16).filter fun q => !l.pquads.contains q
  { c := cs.setReg 1 (BitVec.ofNat 64 r.param), l := freshSeq (h.entry.getD 1 0), x := freshSeq (h.entry.getD 2 0),
    s := freshSeq (h.entry.getD 3 0),
    sys := { ctx := BitVec.ofNat 3 r.ctx, immsel := x.immsel, dtgen := x.dtgen, taskid := BitVec.ofNat 32 r.id, t0 := r.t0 },
    vec := { nextId := c.vec.nextId },
    mx := { nextId := c.mx.nextId, rings := (s.ringEnts l h).foldl (fun m v => SMap.ins m (ringEnt v).1 (ringEnt v).2) [] },
    spm := other.foldl (fun m q => m.markRange (2 ^ 19 * q) (2 ^ 19 * (q + 1))) c.spm,
    reqs := c.reqs, nextCmd := c.nextCmd,
    code := { c := s.loadCode l h 0, l := s.loadCode l h 1, x := s.loadCode l h 2, s := s.loadCode l h 3,
              patches := if x.immsel then [] else s.loadPatches l h r.param },
    tsk := { task := some r.id, lserial := r.lserial, run := r.kind.code, param := r.param, wid := r.wid, taskno := r.taskno,
             win := l.tmpl, tcache := s.loadCache l r } }

/-- A marked codeword in what the loader reads for a task: the scratchpad image, the code, the parameter block (17 R394, R396). -/
def State.loaderBad (s : State) (l : Launch) (r : TaskRec) : Option Nat :=
  let h := s.taskHdr l
  [(l.image, 64), (l.image + h.spmimg, h.imageLen), (l.image + h.code, 8 * h.words), (r.param, l.paramlen)].findSome? fun p =>
    s.vbad (s.ctxRoot l.ctx) (pieces p.2) p.1 p.2

def State.spanStart (s : State) (id : Nat) : State :=
  match s.rec? id with
  | none => s
  | some r =>
    match s.launchOf r, s.ctx? r.ctx with
    | some l, some x =>
      if r.st ≠ .loading then s
      else if s.heldOver r then s.displace r
      else
        let s' := ((s.setCore r.core (s.freshCore r.core r l x)).askAll (s.paramPages l r)).seekAll
        match s.loaderBad l r with
        | some pa => s'.stopBadRead r.core (.codeword pa)
        | none => s'
    | _, _ => s

def execCoreSpanStart (task : Nat) (s : State) : Out := .next (s.spanStart task)

/-- T0: the streams run; AUDIT starts at 1 when an operand was sealed with it (13 R348). -/
def State.runStart (s : State) (id : Nat) : State :=
  match s.rec? id with
  | none => s
  | some r =>
    if r.st ≠ .loading then s
    else
      let audit := r.ins.any fun u => (s.dirEnt u).any (·.audit)
      let s := s.setRec { r with st := .run }
      let s := s.modCore r.core fun c =>
        { c.modSeqs (fun x => { x with mode := .run, last := s.stc, first := true }) with sys := { c.sys with t0 := s.stc, audit := audit } }
      s.schedEnd r.core

def execTaskRunStart (task : Nat) (s : State) : Out := .next (s.runStart task)

/-! ### Stopping and saving (12 R315, R316; 08 R233, R239) -/

/-- A load that has its data and waits for room in its queue: it is saved with the queues (02 R61). -/
def Core.heldLoad (c : Core) (m : Cmd) (now : Nat) : Bool :=
  m.pushes && m.arrived && (!(c.q.lqueue m.queue).room now || c.cmds.any fun x => x.pushes && x.queue = m.queue && decide (x.id < m.id))

/-- Everything that had issued is done; what stands in the queues stays, and so does a vector word that waits on one, or a matrix command
that stalls on a ring, because the stream that would serve it has stopped (log 35). -/
def State.quiet (s : State) (n : Nat) : Bool :=
  let c := s.core n
  s.mxStuck n && c.tsk.copies.isEmpty && c.pend.isEmpty && (c.cmds.all fun m => c.heldLoad m s.stc) &&
  ((c.vec.words.isEmpty && c.vec.window.isEmpty && c.vec.lateTrap.isNone) || s.vecStuck n)

/-- The task stops now; what it has issued goes on. -/
def State.stopNow (s : State) (n : Nat) : State :=
  let s := s.modCore n fun c =>
    { c with sys := { c.sys with hold := true }, tsk := { c.tsk with stopAt := some s.stc, preempt := none, cuts := [] } }
  let s := s.unsched fun e => e = .matrixCommandStart n || e = .modeDrainDone n || e = .calendarT0Resume n || e = .preemptCutStop n ||
    e = .preemptTimeoutStop n
  -- what the loader of the next window has begun waits until this task is saved
  let s := (s.recs.filter fun r => r.core = n && s.heldOver r && (r.st = .loading || (r.residue.isSome && (s.core n).reqs.any fun q =>
    q.rank = 6 && q.cmd = r.id))).foldl State.displace s
  s.sched s.stc phTask (.preemptTimeoutStop n)

/-- The stop that a request brings, at a common cut or at its bound: a mode meeting in progress, from its first mode word on, completes
first (12 R315). -/
def State.stopOrWait (s : State) (n : Nat) : State :=
  let k := (s.core n).tsk
  if k.task.isNone ∨ k.preempt.isNone ∨ k.ending.isSome then s
  else if k.meetAt.isSome || !(s.core n).sels.isEmpty then
    (s.unsched fun e => e = .preemptTimeoutStop n || e = .preemptCutStop n).sched (s.stc + 1) phTask (.preemptTimeoutStop n)
  else s.stopNow n

def execPreemptCutStop (core : Nat) (s : State) : Out := .next (s.stopOrWait core)

/-- A stopped task drains; then its state is saved, at 1024 B per c. -/
def State.drainStop (s : State) (n : Nat) : State :=
  let c := (s.core n).settle s.stc
  let s := s.setCore n c
  match c.tsk.task with
  | none => s
  | some id =>
    if c.tsk.ending.isSome then s.setCore n { c with tsk := { c.tsk with stopAt := none } }
    else if s.quiet n then s.sched (s.stc + saveCycles) phTask (.stateSaveDone id)
    else s.sched (s.stc + 1) phTask (.preemptTimeoutStop n)

def execPreemptTimeoutStop (core : Nat) (s : State) : Out :=
  .next (if (s.core core).tsk.stopAt.isSome then s.drainStop core else s.stopOrWait core)

/-- The saver has written a slot: B bytes, opaque here, at its base (12 R316, log 9). -/
def State.writeSlot (s : State) (base : Nat) : State :=
  let (k, s) := s.fresh
  let s := s.evictHot (paDie base) fun w => decide (base ≤ 8 * w) && decide (8 * w < base + savedBytes)
  ({ s with saveAreas := (s.saveAreas.filter fun a => a.base ≠ base) ++ [{ base := base, key := k }] } : State).unpoison base savedBytes

/-- What vector words and matrix commands that wait still owe, counted from now. -/
def State.owedBy (s : State) (n : Nat) : List (Nat × Nat × Instr) :=
  (s.agenda.filter fun j => (vecJobOf n j.ev).isSome || mxJobOf n j.ev).map fun j => (j.due - s.stc, j.phase, j.ev)

/-- The saved task leaves its core with its residue (09 R264): an armed booking is kept with its window, one not armed is released and
must be requested again (log 88). -/
def State.saveDone (s : State) (id : Nat) : State :=
  match s.rec? id, s.coreOfTask id with
  | some r, some n =>
    let c := s.core n
    (match c.tsk.stopAt, s.ctx? r.ctx with
     | some at_, some x =>
       let slot := ((List.range x.saveslots).find? fun k => !x.slotsUsed.contains k).getD 0
       match s.residueOf n at_ with
       | none => s
       | some (t, u) =>
         let c := { c with tsk := { c.tsk with stopAt := none, pending := none } }
         let s := s.setRec { r with st := .stopped, residue := some (
           { tmpl := t, stop := u, core := c, slot := slot, owed := s.owedBy n, at_ := s.stc } : Residue) }
         let s := (s.modCtx r.ctx fun x => { x with slotsUsed := x.slotsUsed ++ [slot] }).writeSlot (x.savebase + 2 ^ 24 * slot)
         let s := (s.vacate n).dropWindows fun w => w.task = id && !(w.use = 1 && w.armed)
         (s.checkTeam r).kick
     | _, _ => s)
  | _, _ => s

def execStateSaveDone (task : Nat) (s : State) : Out := .next (s.saveDone task)

/-- The check value of a save slot fails: its stack is lost, a codeword of it is marked, or bytes of it have been written since the save. -/
def State.slotBad (s : State) (ctx slot : Nat) : Bool :=
  match s.ctx? ctx with
  | some x =>
    let a := x.savebase + 2 ^ 24 * slot
    ((s.die (paDie a)).poison.any fun p => decide (a ≤ 32 * p.1) && decide (32 * p.1 < a + savedBytes)) || (s.die (paDie a)).lost ||
      !s.saveAreas.any fun x => x.base = a && x.spoilt.isEmpty
  | none => true

/-- An event of a vector word or of a matrix command, on the core that the task has now. -/
def owedOn (n : Nat) : Instr → Instr
  | .vectorGroupRead _ i k => .vectorGroupRead n i k
  | .vectorCompletion _ i k => .vectorCompletion n i k
  | .vectorCommit _ i => .vectorCommit n i
  | .ringBlockRead _ i b => .ringBlockRead n i b
  | .mmaBlockAdd _ i b => .mmaBlockAdd n i b
  | .scntBlockCount _ i b => .scntBlockCount n i b
  | .matrixRetire _ i => .matrixRetire n i
  | e => e

/-- Matrix commands that stall were stopped for `d` cycles: their cycles move with them. -/
def MxSt.delay (m : MxSt) (d : Nat) : MxSt :=
  if m.runs.isEmpty then m
  else { m with runs := m.runs.map fun r => { r with s := r.s + d }, occEnd := m.occEnd + d, lastStart := m.lastStart + d }

/-- The first cycle after the restore prologue: every offset counts from T0' = Rz - u. -/
def State.restoreTask (s : State) (id : Nat) : State :=
  match s.rec? id with
  | none => s
  | some r =>
    match r.residue with
    | none => s
    | some x =>
      if s.slotBad r.ctx x.slot then (s.errorRec r errSaveBad 0).restart id
      else if s.heldOver r then s.displace r
      else
        let n := r.core
        let old := s.core n
        let t1 := s.stc - x.stop
        let c := x.core.modSeqs fun y => y.shiftT0 x.core.sys.t0 t1
        let c : Core := { c with
          sys := { c.sys with t0 := t1, restarted := true, hold := c.tsk.drained || c.tsk.rebook.isSome,
                              trapAt := t1 + c.sys.trapAt - c.sys.t0 },
          nextCmd := Nat.max c.nextCmd old.nextCmd, reqs := old.reqs,
          vec := { c.vec with nextId := Nat.max c.vec.nextId old.vec.nextId },
          mx := { c.mx.delay (s.stc - x.at_) with nextId := Nat.max c.mx.nextId old.mx.nextId },
          tsk := { c.tsk.clipped x.stop x.tmpl with tcache := ((s.launchOf r).map fun l => s.loadCache l r).getD [] } }
        let s := (s.setRec { r with st := .run, residue := none }).setCore n c
        let s := s.askAll (((s.launchOf r).map fun l => s.paramPages l r).getD [])
        let s := (s.freeSlot r.ctx x.slot).schedEnd n
        let s := c.cmds.foldl (fun s m => s.sched s.stc phEngine (.loadQueuePush n m.id)) s
        let s := x.owed.foldl (fun s (p : Nat × Nat × Instr) => s.sched (s.stc + p.1) p.2.1 (owedOn n p.2.2)) s
        let s := if c.mx.queue.isEmpty then s else s.kickMatrix n (s.stc + 1)
        let s := if c.tsk.meetAt.isSome ∧ c.tsk.drained = false then s.sched s.stc phTask (.modeDrainDone n) else s
        let s := if c.tsk.drained then s.placeArmed n false else if c.tsk.rebook.isSome then s.placeReturn n else s
        let s := if c.allStopped then s.sched s.stc phTask (.taskEnd n) else s
        s.kick

def execRestorePrologue (task : Nat) (s : State) : Out := .next (s.restoreTask task)

/-! ### The end of the window (09 R258) -/

/-- The fault of a task that outruns its window: SCHEDMISS with OVR = 1. -/
def State.overrun (s : State) (n : Nat) : State :=
  s.endTask n errFault (faultDetail (causeCode .schedmiss) 0 0 0 (s.core n).c.lastPc.toNat 0 0 1) 0 0

def State.windowOver (s : State) (n : Nat) : State :=
  let c := s.core n
  match s.recOf n with
  | none => s
  | some r =>
    -- commands that will never start leave the queue of a task that is to end
    let clear : State := s.setCore n { c with mx := { c.mx with queue := [] } }
    if c.tsk.stopAt.isSome then s
    else if c.tsk.ending.isSome then clear
    else if c.sys.region && s.slotsFree r.ctx && (s.residueOf n s.stc).any (fun x => !residueTooLong x.1) then s.stopNow n
    else (if c.allStopped then clear else s).overrun n

def execWindowEnd (core : Nat) (s : State) : Out := .next (s.windowOver core)

/-! ### The end of a task (08 R234, R217) -/

/-- Work of the task that will never finish is given up: a load that no pop will ever take, and, when an error ends the task, vector
words that wait on a queue and matrix commands that stall on a ring (log 35). -/
def State.giveUp (s : State) (n : Nat) : State :=
  let c := s.core n
  let s := (c.cmds.filter fun m => c.heldLoad m s.stc).foldl (fun s m => s.retireCmd n m.id) s
  if c.tsk.ending.isNone then s
  else
    let s := if s.vecStuck n then
        (s.unsched fun e => (vecJobOf n e).isSome).modCore n fun c => { c with vec := { c.vec with words := [], window := [], lateTrap := none } }
      else s
    if s.mxStuck n then c.mx.runs.foldl (fun s r => s.releaseRun n r.cmd.id) s else s

def Core.retired (c : Core) : Bool :=
  c.cmds.isEmpty && c.tsk.copies.isEmpty && c.mx.queue.isEmpty && c.mx.runs.isEmpty && c.vec.words.isEmpty && c.vec.window.isEmpty

/-- An engine fault whose trap is still due. -/
def Core.faultDue (c : Core) : Bool := (List.range 7).any fun e => (c.engFaultOf e).isSome

/-- Stamp of the event that ended core n's task. -/
def Core.endStamp (c : Core) (pkg : Nat) : Stamp :=
  { stc := c.tsk.endStc, issuer := BitVec.ofNat 24 (c.tsk.taskno % 2 ^ 20 + 2 ^ 20 * c.tsk.endUnit), pkg := pkg, ctx := c.sys.ctx.toNat,
    lserial := c.tsk.lserial, run := c.tsk.run }

/-- A physical core is due for test (17 R403). -/
def State.markDue (s : State) (d phys : Nat) : State :=
  let x := s.die d
  (s.setDie d { x with due := if x.due.contains phys then x.due else x.due ++ [phys] }).schedInp s.stc phTask .testDue { die := d, phys := phys }

/-- A checksum escalation: the record runs again as a redundant pair on two other cores (17 R400). -/
def State.escalate (s : State) (n : Nat) (r : TaskRec) : State :=
  let me := s.physId n
  let s := s.markDue (dieOf n) (s.physOf n)
  match s.launchOf r with
  | none => s.endRec r.id none false
  | some l =>
    let s := (s.setRec { r with kind := .redA, avoid := [me] }).restart r.id
    (s.addRec l .redB r.wid r.param r.prio 0 r.die none 0 [me]).2

/-- Outputs of a redundant run are looked at again when it ends. -/
def State.recompare (s : State) (r : TaskRec) : State :=
  r.outs.foldl (fun s u => s.schedInp s.stc phTask .redundantRunCompare { id := u }) s

/-- Versions that a rebuild cannot bring back (16 R386). -/
def State.unrebuilt (s : State) (r : TaskRec) : State :=
  let names := r.outs.filter fun u => (s.dirEnt u).any fun e => e.st = .lost || e.st = .empty || e.st = .revoked
  (names.foldl (fun s u => s.errorName errUnrecTile u r.die) s).poison names

/-- Suspect versions that a failed verification leaves as they are (16 R387). -/
def State.unverified (s : State) (r : TaskRec) : State :=
  (r.outs.filter fun u => (s.dirEnt u).any (·.suspect)).foldl (fun s u => s.errorName errSuspectUnv u r.die) s

/-- How a run that ended by an error leaves its record. -/
def State.failed (s : State) (n : Nat) (r : TaskRec) (code : Nat) (detail : Word) : State :=
  let c := s.core n
  let st := c.endStamp s.pkg
  if code = endLost ∨ code = endRestart then s.restart r.id
  else if code = endCtx ∨ code = endQuarantine ∨ code = endStop then s.endRec r.id none c.sys.audit
  else
    match r.kind with
    | .recovery =>
      if code ≠ endIllegal ∧ r.retries = 0 then
        (s.setRec { r with retries := 1, avoid := r.avoid ++ [s.physId n] }).restart r.id
      else (s.unrebuilt r).endRec r.id none c.sys.audit
    | .verification => (s.unverified r).endRec r.id none c.sys.audit
    | .redA | .redB | .redC =>
      -- it has no result (17 R400)
      let decided (name : Nat) : Bool := s.hasJobInp .redundantRunCompare { id := name, flag := true }
      let s : State := { s with heldPubs := s.heldPubs.filter fun h => h.task ≠ r.id || decided h.name }
      (s.endRec r.id none c.sys.audit).recompare r
    | .ordinary =>
      if code = errFault ∧ detail.toNat % 256 = causeCode .mxfault ∧ bitsN detail.toNat 20 8 = 8 then s.escalate n r
      else
        let s := s.errorTask n code detail c.tsk.first.toNat c.tsk.endStc c.tsk.endUnit
        let s := s.endRec r.id (some (st, code)) c.sys.audit
        if code = errPoisonOp then s.poison r.outs else s

def State.finishTask (s : State) (n : Nat) : State :=
  let c := s.core n
  match s.recOf n with
  | none => s.vacate n
  | some r =>
    match c.tsk.ending with
    | some (code, detail) => s.failed n r code detail
    | none =>
      if r.outs.any fun u => !c.tsk.published.contains u then
        if r.kind = .ordinary then
          (s.errorTask n errUnsealed 0 0 s.stc 0).endRec r.id (some ({ c.endStamp s.pkg with stc := s.stc }, errUnsealed)) c.sys.audit
        else s.failed n r errUnsealed 0
      else
        let s := s.endRec r.id none c.sys.audit
        if r.vouches then s.recompare r else s

/-- The end step: when everything has retired the task ends. -/
def State.taskOver (s : State) (n : Nat) : State :=
  let c := (s.core n).settle s.stc
  let s := s.setCore n c
  if c.tsk.task.isNone ∨ (c.tsk.ending.isNone ∧ c.allStopped = false) then s
  else
    let s := s.giveUp n
    if !(s.core n).retired || (c.tsk.ending.isNone && c.faultDue) then s.sched (s.stc + 1) phTask (.taskEnd n)
    else if c.tsk.ending.isNone ∧ ¬ allSeqs.any (fun q => (c.seq q).mode = .ended) then s.allHalted n .x
    else s.finishTask n

def execTaskEnd (core : Nat) (s : State) : Out := .next (s.taskOver core)

end Sys2Proof.Machine
end

