-- ==== Sys2Proof/Machine/Bank.lean ====
section
/-! DEFINITION. The scratchpad banks at the end of a cycle: who is served and who waits or faults (09 R257, R268 to R271). -/

namespace Sys2Proof.Machine

/-- 64-byte units that a request touches. -/
def SpmReq.units (r : SpmReq) : List Nat := (List.range ((r.addr % 64 + r.len + 63) / 64)).map fun k => r.addr / 64 * 64 + 64 * k
def SpmReq.banks (r : SpmReq) : List Nat := (r.units.map spmBank).eraseDups

/-- What asked is still there. -/
def State.asks (s : State) (n : Nat) (r : SpmReq) : Bool :=
  let c := s.core n
  if r.rank = 1 then c.mx.runs.any fun x => x.cmd.id = r.cmd
  else if r.rank = 6 then (s.rec? r.cmd).any fun x => x.st = .loading || (x.st = .stopped && x.residue.isSome && x.core = n)
  else (c.cmd? r.cmd).isSome || (c.node? r.cmd).isSome

/-- Bytes of a ring slot reach the block that they belong to. -/
def MxRun.take (x : MxRun) (row : Nat) (bs : List Byte) : MxRun :=
  if claimRow ≤ row then x
  else
    let k := row / 4
    let l := if x.blocks.length ≤ k then x.blocks ++ List.replicate (k + 1 - x.blocks.length) ([], [], [], []) else x.blocks
    let (p, q, t, u) := l.getD k ([], [], [], [])
    { x with blocks := l.set k (match row % 4 with
      | 0 => (p ++ bs, q, t, u)
      | 1 => (p, q ++ bs, t, u)
      | 2 => (p, q, t ++ bs, u)
      | _ => (p, q, t, u ++ bs)) }

/-- A request that has its banks. -/
def State.serve (s : State) (n : Nat) (r : SpmReq) : State :=
  let c := s.core n
  if r.rank = 1 then
    match c.mx.runs.find? fun x => x.cmd.id = r.cmd with
    | some x => s.setCore n (c.setRun (x.take r.row (c.spmBytes r.addr r.len)))
    | none => s
  else if r.rank = 6 then s.serveLoad n r.cmd r.row r.addr r.len
  else
    match c.cmd? r.cmd, c.node? r.cmd with
    | some m, _ => (match m.op with
      | .amo _ _ _ _ kind size _ _ => s.serveAmo n m kind size
      | .rwaddBlk .. => s.serveBlk n m r.row r.addr
      | .call .. | .ret => (s.modCore n fun c => c.serveBlock m.q m.op m.obj r.addr (leBytes 64 m.data.toNat)).retireCmd n m.id
      | _ => s.serveRow n m r.row r.addr r.len)
    | none, some k => s.serveNode n k r.row r.addr
    | none, none => s

/-- An access of L, S or C from a calendar region. -/
def State.strict (s : State) (n : Nat) (r : SpmReq) : Bool :=
  decide (2 ≤ r.rank) && decide (r.rank ≤ 4) && ((s.core n).cmd? r.cmd).any (·.cal)

/-- The command waits for an earlier access of its sequencer to the same bytes (08 R211), or behind data that lde holds for a full
load queue (08 R208). -/
def State.behind (s : State) (n : Nat) (r : SpmReq) : Bool :=
  let c := s.core n
  decide (r.rank ≠ 1) && (c.cmd? r.cmd).any fun m =>
    c.spmBehind m r.addr r.len || (m.eng = engLde && decide (m.rows = 0) && !m.cal && c.loadHeld s.stc m.id)

/-- An access is a cycle later; the stream of a spill or refill waits with it. -/
def State.bankLater (s : State) (n : Nat) (r : SpmReq) : State :=
  s.modCore n fun c =>
    let c := { c with reqs := c.reqs ++ [{ r with due := s.stc + 1 }] }
    match c.cmd? r.cmd with
    | some m => (match m.op with
      | .call .. | .ret => c.modSeq m.q fun x => { x with extra := x.extra + 1 }
      | _ => c)
    | none => c

/-- A calendar-region access that cannot be served in its cycle (09 R257, R270): a contribution's block is no engine's command. -/
def State.bankFault (s : State) (n : Nat) (r : SpmReq) : State :=
  match (s.core n).cmd? r.cmd with
  | none => s
  | some m =>
    ({ s with contribs := s.contribs.filter fun (k : Contrib) => !(decide (k.core = n) && decide (k.cmd = r.cmd)) } : State).faultOf n r.cmd
      (if m.eng = engCle then engNone else m.eng) .schedmiss

/-- Requests of a cycle in order of rank, with the banks taken so far: one that meets a taken bank or must wait is a cycle later, or in a
calendar region faults with SCHEDMISS, as does one to a quad that the window does not hold. -/
def State.arbitrate (n : Nat) : List SpmReq → List Nat → State → State
  | [], _, s => s
  | r :: t, taken, s =>
    if !s.asks n r then State.arbitrate n t taken s
    else if r.rank ≠ 1 && s.strict n r && !r.units.all (fun a => (s.core n).quadBooked (spmQuad a) s.stc) then
      State.arbitrate n t taken (s.bankFault n r)
    else if s.behind n r || (r.rank ≠ 1 && r.banks.any taken.contains) then
      State.arbitrate n t taken (if s.strict n r then s.bankFault n r else s.bankLater n r)
    else State.arbitrate n t (taken ++ r.banks) (s.serve n r)

/-- The banks of a core in this cycle. -/
def State.bankCycle (s : State) (n : Nat) : State :=
  let c := s.core n
  let due (r : SpmReq) : Bool := decide (r.due ≤ s.stc)
  if !c.reqs.any due then s
  else
    let mine := sortBy (fun (a b : SpmReq) => decide (a.rank < b.rank)) (c.reqs.filter due)
    State.arbitrate n mine [] (s.setCore n { c with reqs := c.reqs.filter fun r => !due r })

/-- Every core's banks. -/
def State.bankCycles (s : State) : State := s.cores.foldl (fun s p => s.bankCycle p.1) s

end Sys2Proof.Machine
end

