-- ==== Sys2Proof/Machine/Schedule.lean ====
section
/-! DEFINITION. Who acts next: the order of streams in a cycle (02 R56: C, L, X, S), and the word that a stream fetches. -/

namespace Sys2Proof.Machine

/-- The sequencer issues: it runs, or it waits at a meeting and runs a trap handler meanwhile. -/
def Core.live (c : Core) (q : Seq) : Bool :=
  match (c.seq q).mode with
  | .run => true
  | .meeting _ => decide (c.sys.handler = some q)
  | _ => false

/-- Whether sequencer q of a core issues in cycle `now`. -/
def Core.ready (c : Core) (q : Seq) (now : Nat) : Bool :=
  let x := c.seq q
  c.live q && !c.sys.hold && (c.sys.handler = none || c.sys.handler = some q) &&
    decide (x.retry ≤ now) && (q ≠ .x || c.vec.lateTrap = none) && decide (x.due (wordIdle (c.fetch q x.pc)) ≤ now)

/-- The first stream that issues now: C before L before X before S, over the cores. -/
def readySeq (c : Core) (now : Nat) : List Seq → Option Seq
  | [] => none
  | q :: t => if c.ready q now then some q else readySeq c now t

def readyCore (now : Nat) : SMap Core → Option (Nat × Seq)
  | [] => none
  | (n, c) :: t =>
    match readySeq c now allSeqs with
    | some q => some (n, q)
    | none => readyCore now t

/-- The decode table in force for a core (04 R103). -/
def State.decodeTab (s : State) (c : Core) : Option (SMap (BitVec 16)) :=
  match s.ctx? c.sys.ctx.toNat with
  | some x => x.dtab
  | none => none

/-- The word of a stream whose turn it is, decoded. -/
def State.fetchDecode (s : State) (n : Nat) (q : Seq) : Hdr × Except Cause Instr :=
  let c := s.core n
  let w := c.fetch q (c.seq q).pc
  (decodeHdr w, decode (s.decodeTab c) q w)

/-- The state in which a stream issues its word. -/
def State.withTurn (s : State) (n : Nat) (q : Seq) (h : Hdr) : State := { s with turn := ⟨n, q, h⟩ }

/-- The trap of a word that decode refuses (04 R88). -/
def State.decodeTrap (s : State) (c : Cause) : State := (s.modCur fun k => k.settle s.stc).wordTrap c 0

/-- Placing of a word where sequencer q of core n fetches next, and the stream due now. -/
def State.placeWord (s : State) (n : Nat) (q : Seq) (w : Word) : State :=
  let t := s.stc + wordIdle w
  let s := s.modCore n fun c =>
    let x := c.seq q
    let pc := x.pc.toNat
    let code : CodeSt := match q with
      | .c => { c.code with c := SMap.put 0 c.code.c pc w }
      | .l => { c.code with l := SMap.put 0 c.code.l pc w }
      | .x => { c.code with x := SMap.put 0 c.code.x pc w }
      | .s => { c.code with s := SMap.put 0 c.code.s pc w }
    { c.setSeq q { x with mode := .run, first := true, last := s.stc } with code := code }
  { s with stc := t }

end Sys2Proof.Machine
end

