-- ==== Sys2Proof/Machine/Cycle.lean ====
section
/-! DEFINITION. The order of steps in time: events due, then streams, then the passing of the cycle; and the placing of a word
where the next step fetches. -/

namespace Sys2Proof.Machine


/-- The event is a reset (19 R427). -/
def Job.resets (j : Job) : Bool :=
  decide (j.ev = .coldReset) || decide (j.ev = .pcieReset) || decide (j.ev = .mresetGo) && j.inp.val.getLsbD 0

/-- A stopped package runs again only after a reset (17 R407, R413): the first one to come, at its cycle. Until then Boxwood, which does not
stop, still enters alarms (17 R415). -/
def State.resetJob (s : State) : Option (Instr × State) :=
  (s.agenda.find? fun j => j.resets || decide (j.ev = .sensorAlarm)).map fun j =>
    (j.ev, { s with agenda := s.agenda.erase j, inp := j.inp, stc := Nat.max s.stc j.due })

/-- The stream that issues next in this cycle. -/
def State.nextSeq (s : State) : Option (Nat × Seq) := readyCore s.stc s.cores

/-- The event due first, and the state with it taken from the agenda. What is judged at the end of a cycle waits for its streams. -/
def State.dueJob (s : State) : Option (Instr × State) :=
  match s.agenda with
  | [] => none
  | j :: t =>
    if j.due < s.stc ∨ j.due = s.stc ∧ (j.phase < phEnd ∨ s.nextSeq = none) then some (j.ev, { s with agenda := t, inp := j.inp })
    else none

/-- Bring-up goes on by itself from a cold reset until stage 5 or a failed stage (19 R427). -/
def State.bringupDue (s : State) : Bool := decide (s.mgmt.stage < 5) && !s.mgmt.fail && !s.hasJob .bringupStage

/-- The next cycle begins, and the delayed effects due take hold. -/
def State.tick (s : State) : State := { s with stc := s.stc + 1, cores := s.cores.map fun p => (p.1, p.2.settle (s.stc + 1)) }

/-- Nothing else is left to do in this cycle: the banks serve what is asked of them, and then it passes. -/
def State.passCycle (s : State) : State :=
  if s.bringupDue then s.schedInpFree phTask .bringupStage { flag := true }
  else if s.cores.any fun c => c.2.reqs.any fun r => decide (r.due ≤ s.stc) then s.bankCycles
  else s.tick

/-- Events due by a cycle wait until after it. -/
def postpone (t : Nat) (l : List Job) : List Job := l.map fun j => if j.due ≤ t then { j with due := t + 1 } else j

/-- The word numbered as the opcode table numbers it, at the program counter of the first sequencer of core 0 that decodes it,
that stream due now and nothing else due before it (log 10). -/
def State.placeTableWord (s : State) (nbits w : Nat) : State :=
  let v : Word := BitVec.ofNat 64 (w % 2 ^ nbits)
  let q : Seq := match decodeAny v with
    | some (q, _) => q
    | none => .c
  let s := s.placeWord 0 q v
  let s := s.modCore 0 fun c =>
    let x := c.seq q
    let c := c.modSeqs fun y => { y with retry := s.stc + 1 }
    let c := c.setSeq q { x with retry := 0, dueAt := none, extra := 0 }
    { c with sys := { c.sys with hold := false, handler := none, ctx := 0 }, vec := { c.vec with lateTrap := none },
             code := { c.code with patches := [] } }
  { s with agenda := postpone s.stc s.agenda, ctxs := SMap.del s.ctxs 0, stopped := false }

end Sys2Proof.Machine
end

