-- ==== Sys2Proof/Machine/Darner.lean ====
section
/-! DEFINITION. The Darner (16 R382 to R389; 18 R424): replicas, walks back from lost versions, recovery and verification records,
revocation, and the spare fill. -/

namespace Sys2Proof.Machine

/-! ### Replicas (16 R382, R383) -/

/-- A copy of the spare fill runs on a die: they run one at a time (16 R388). -/
def State.fillRuns (s : State) (d : Nat) : Bool := s.agenda.any fun j => j.inp.mark && j.inp.flag && decide (j.inp.die = d) &&
  (match j.ev with
   | .replicaComplete _ => true
   | _ => false)

/-- A copy takes a slot of its home's cpe that no booking holds, as soon as one is free (09 R256, log 100); the mark of the subject says
that it holds one. -/
def State.replicaStart (s : State) (name : Nat) (x : Input) : State :=
  let h := s.homeOf name
  match s.dirEnt name with
  | none => s
  | some e =>
    if s.looseSlot h engCpe && !(x.flag && s.fillRuns h) then
      s.schedDarner (s.stc + copyCycles e.frames) (.replicaComplete name) name { x with mark := true, die := h }
    else s.schedDarner (s.stc + 1) (.replicaComplete name) name x

/-- The copy is done: REPL, its frames and die, then Pruning. -/
def State.replicaDone (s : State) (name : Nat) : State :=
  match s.dirEnt name, s.replicaDie name with
  | some e, some d =>
    if (e.st ≠ .full ∧ e.st ≠ .revoked) ∨ e.repl = true ∨ e.rpend = false then s
    else
      let (fs, s) := s.copyFrames d e.frames
      (s.setDir { e with repl := true, rframes := fs, rdie := d }).prune name
  | _, _ => s

def execReplicaComplete (name : Nat) (s : State) : Out :=
  .next (if s.inp.mark then s.replicaDone name else s.replicaStart name s.inp)

/-- Above 90 % of a shard's capacity, and until it falls below 80 %, the live version of greatest DEPTH is replicated, one at a
time; one of DBOUND 0 never is (R383, log 108). -/
def State.relieve (s : State) (d : Nat) (going : Bool) : State :=
  let x := (s.die d).shard
  let above := if going then decide (8 * shardCap ≤ 10 * x.bytes) else x.pressed
  -- one version at a time
  let busy := s.dir.any fun e => e.rpend && !e.repl && s.homeOf e.name = d && s.hasJob (.replicaComplete e.name)
  if !above then s
  else if going && busy then s.schedInp (s.stc + 1) phTask .shardPressureReplication { die := d, flag := true }
  else
    let mine := s.dir.filter fun e => e.st = .full && !e.rpend && decide (e.dbound ≠ 0) && s.versionLive e && x.lineage.any fun l => l.name = e.name
    match (sortBy (fun (a b : DirEnt) => decide (b.depth < a.depth)) mine).head? with
    | none => s
    | some e =>
      let s := (s.setDir { e with rpend := true, depth := 0 }).startReplica e.name
      s.schedInp (s.stc + copyCycles e.frames + 1) phTask .shardPressureReplication { die := d, flag := true }

def execShardPressureReplication (s : State) : Out := .next (s.relieve s.inp.die s.inp.flag)

/-! ### Loss of content (16 R379, R384; 18 R424) -/

/-- A record that had not started, and whose operand is lost, waits for the rebuild. -/
def State.toWait (s : State) (name : Nat) : State :=
  (s.recs.filter fun r => (r.st = .ready || r.st = .booked || r.st = .loading) && r.ins.contains name).foldl (fun s r => s.restart r.id) s

/-- A copy of a version that survives: the replica, or one that tlfill placed. -/
def DirEnt.copy (e : DirEnt) : Option (SMap Nat) := if e.repl then some e.rframes else e.copies.head?.map (·.2)

/-- The primary content of a version is gone: a surviving copy takes its place, or the version is LOST; a REVOKED one, whose bits are to be
replaced, stays so (Table 16.2). -/
def State.losePrimary (s : State) (name : Nat) : State :=
  match s.dirEnt name with
  | none => s
  | some e =>
    if e.st ≠ .full ∧ e.st ≠ .revoked then s
    else
      let s := s.freeFrames e.frames
      match e.copy with
      | some fs =>
        let (new, s) := s.copyFrames (s.homeOf name) fs
        s.setDir { e with frames := new }
      | none =>
        if e.st = .revoked then s.setDir { e with frames := [] }
        else ((s.setDir { e with st := .lost, frames := [] }).toWait name).schedDarner s.stc (.darnerWalk name) name

/-- Order of the publishes' stamps. -/
def DirEnt.before (a b : DirEnt) : Bool :=
  if a.stc ≠ b.stc then decide (a.stc < b.stc) else decide (a.issuer < b.issuer)

/-- Versions lose their content, walked in the order of their publishes. -/
def State.loseAll (s : State) (es : List DirEnt) : State :=
  (sortBy DirEnt.before es).foldl (fun s e => s.losePrimary e.name) s

/-! ### The walk (16 R384) -/

/-- A die of a launch that can hold a record: the Darner's own, or the first that lives. -/
def State.holdDie (s : State) (l : Launch) (d : Nat) : Nat :=
  if l.diemask.getLsbD d && !(s.die d).lost then d
  else ((List.range 8).find? fun k => l.diemask.getLsbD k && !(s.die k).lost).getD d

/-- The record that rebuilds a run's versions: one per run. -/
def State.recoveryRecord (s : State) (x : Lineage) : State :=
  if s.recs.any fun r => r.live && r.kind = .recovery && r.ctx = x.ctx && r.lserial = x.lserial && r.taskno = x.taskno then s.inherit
  else
    match s.launch? x.ctx x.lserial with
    | none => s
    | some l => (s.addRec l .recovery x.wid x.param x.prio 0 (s.holdDie l (s.homeOf x.name)) none x.prio []).2.inherit

/-- The walk goes on to the lost operands, and the run is to be made again. -/
def State.walkBack (s : State) (x : Lineage) : State :=
  let s := x.opds.foldl (fun s u =>
    if (s.dirEnt u).any fun y => y.st = .lost then
      if s.walked u then s else s.schedDarner s.stc (.darnerWalk u) u
    else s) s
  s.recoveryRecord x

/-- Nothing is left to rebuild for a recovery record whose outputs are all FULL or POISONED: it ends (16 Table 16.4). -/
def State.endRebuilds (s : State) (name : Nat) : State :=
  let idle (r : TaskRec) : Bool := r.live && r.kind = .recovery && r.outs.contains name &&
    r.outs.all fun u => (s.dirEnt u).any fun e => e.st = .full || e.st = .poisoned
  (s.recs.filter idle).foldl (fun s r => match s.coreOfTask r.id with
    | some n => if r.st = .run then s.endTask n endStop 0 0 0 else s.endRec r.id none false
    | none => s.endRec r.id none false) s

def State.darn (s : State) (name : Nat) : State :=
  match s.dirEnt name with
  | none => s
  | some e =>
    if e.st ≠ .lost then s
    else
      match e.copy with
      | some fs =>
        let (new, s) := s.copyFrames (s.homeOf name) fs
        (s.setDir { e with st := .full, frames := new }).wake name
      | none =>
        match s.lineage? name with
        | some x => s.walkBack x
        | none =>
          if !(e.linack && e.mirack) && s.recs.any (fun r => r.live && r.kind ≠ .recovery && r.outs.contains name) then s
          else
            -- of a version whose report was lost on its way, the record that the producing die sent (01 R30, log 96)
            match if e.linack && e.mirack then none else s.sentLin.find? fun l => l.name = name with
            | some x => s.walkBack x
            | none => ((s.errorName errUnrecTile name (s.homeOf name)).poison [name]).endRebuilds name

def execDarnerWalk (name : Nat) (s : State) : Out := .next (s.darn name)

/-! ### Suspects and revocation (16 R387) -/

/-- Content of a page of a version. -/
def State.versionCells (s : State) (e : DirEnt) (k : Nat) : List Host.Cell :=
  match SMap.get? e.frames k with
  | some f => s.frameCells f 65536
  | none => []
/-- Content of a page as a run holds it. -/
def HeldPub.pageCells (h : HeldPub) (k : Nat) : List Host.Cell :=
  match h.shadows.find? fun x => (x.va - h.base) / 65536 = k with
  | some x => x.mem
  | none => []
def HeldPub.pages (h : HeldPub) : List Nat := h.shadows.map fun x => (x.va - h.base) / 65536

/-- Two runs published the same bits. -/
def HeldPub.same (a b : HeldPub) : Bool := (a.pages ++ b.pages).all fun k => a.pageCells k = b.pageCells k
/-- A run published the bits that the version holds. -/
def State.sameAs (s : State) (e : DirEnt) (h : HeldPub) : Bool :=
  (h.pages ++ e.frames.map (·.1)).all fun k => s.versionCells e k = h.pageCells k

/-- Versions made from some names, forward and transitively, by the consumer index. -/
def State.consumersGo (s : State) : Nat → List Nat → List Nat → List Nat
  | 0, _, acc => acc
  | fuel + 1, front, acc =>
    let all := (List.range 8).flatMap fun d => (s.die d).shard.consumers
    let nx := (((all.filter fun c => front.contains c.1).map (·.2)).filter fun u => !acc.contains u).eraseDups
    if nx.isEmpty then acc else s.consumersGo fuel nx (acc ++ nx)

/-- A revoked version has its new bits: its consumers are handled by state, and those of the outputs that are revoked with it. A record
not yet started waits on a REVOKED operand (R379, log 109). -/
def State.revokeConsumers (s : State) (name : Nat) : State :=
  let all := s.consumersGo s.dir.length [name] []
  let running := s.recs.filter fun r => (r.st = .run || r.st = .stopped) && r.ins.any fun u => u = name || all.contains u
  let s := running.foldl (fun s r => match s.coreOfTask r.id with
    | some n => s.endTask n endRestart 0 0 0
    | none => s.restart r.id) s
  let outs := all.filter fun u => u ≠ name && (s.dirEnt u).any (fun e => e.st = .full) &&
    !s.recs.any fun r => r.live && r.outs.contains u && r.kind ≠ .verification
  let s := outs.foldl (fun s u => (s.modDir u fun e => { e with st := .revoked }).toWait u) s
  outs.foldl (fun s u => match s.lineage? u with
    | some x => s.recoveryRecord x
    | none => (s.errorName errUnrecTile u (s.homeOf u))) s

/-- A verification run's publish meets the held bits; the replacement of different bits is one switch later (13 R335). -/
def State.verify (s : State) (name : Nat) (second : Bool) : State :=
  match s.dirEnt name, s.heldPubs.find? fun h => h.name = name && h.kind = .verification with
  | some e, some h =>
    let drop (s : State) : State := { s with heldPubs := s.heldPubs.filter fun x => !(x.name = name && x.kind = .verification) }
    if second then
      let s := s.freeFrames e.frames
      let s := ((s.setDir { e with frames := [], st := .revoked }).installVersion name h.base h.shadows)
      let s := s.modDir name fun e => { e with st := .full, suspect := false }
      let s := if e.rpend then s.startReplica name else s
      let s := ((drop s).wake name).revokeConsumers name
      if e.xout then s.errorName errRevokedOut name (s.homeOf name) else s
    else if e.st ≠ .full ∨ e.suspect = false then drop s
    else if s.sameAs e h then drop (s.setDir { e with suspect := false })
    else
      let s := s.setDir { e with st := .revoked }
      let key : Stamp := { stc := s.stc, issuer := unitIssuer 11 2 (s.homeOf name) }
      { s with agenda := insJob { due := s.stc + 512, phase := phSwitch, ev := .verificationCompare name, inp := { flag := true }, key := key } s.agenda }
  | _, _ => s

def execVerificationCompare (name : Nat) (s : State) : Out := .next (s.verify name s.inp.flag)

/-- Versions that a physical core sealed after its last passing test become suspect, and each run that sealed some is verified on
another core, unless an operand has been released. Their number. -/
def State.markSuspects (s : State) (d phys last : Nat) : Nat × State :=
  let all := (s.dir.filter fun e => e.st = .full).filterMap fun e => s.lineages.find? fun l => l.name = e.name
  let ls := all.filter fun l => l.die = d && l.pcore = phys && decide (last < l.stc)
  let s := ls.foldl (fun s l => s.modDir l.name fun e => { e with suspect := true }) s
  let s := ls.foldl (fun s x =>
    let known := x.opds.all fun u => (s.dirEnt u).isSome
    match s.launch? x.ctx x.lserial with
    | some l =>
      if !known then s.errorName errSuspectUnv x.name (s.homeOf x.name)
      else if s.recs.any fun r => r.live && r.kind = .verification && r.ctx = x.ctx && r.lserial = x.lserial && r.taskno = x.taskno then s
      else (s.addRec l .verification x.wid x.param x.prio 0 (s.holdDie l d) none x.prio [32 * d + phys]).2
    | none => s.errorName errSuspectUnv x.name (s.homeOf x.name)) s
  (ls.length, s)

/-! ### The spare fill (16 R388, R389) -/

/-- The stand-in for a lost die: the lowest surviving die whose partner also survives. -/
def State.standIn (s : State) (lost : Nat) : Option Nat :=
  (List.range 8).find? fun m => m ≠ partner lost && !(s.die m).lost && !(s.die (partner m)).lost

/-- The fills run one version at a time by publish stamp; the shards are copied alongside. -/
def State.startFill (s : State) (lost : Nat) : State :=
  let p := partner lost
  match s.standIn lost with
  | none => s
  | some m =>
    let s := s.modDie p fun x => { x with fill := some m }
    let todo := s.dir.filter fun e => s.homeOf e.name = p && (e.st = .full || e.st = .revoked) && e.rpend && !e.repl
    let s := (sortBy DirEnt.before todo).foldl (fun (s : State) e =>
      (s.unsched fun i => i = .replicaComplete e.name).schedDarner s.stc (.replicaComplete e.name) e.name { flag := true }) s
    s.sched s.stc phTask (.spareFillComplete lost)

def execSpareFill (die : Nat) (s : State) : Out := .next (s.startFill die)

/-- Copies of the fill are still to be made. -/
def State.fillLeft (s : State) (d : Nat) : Bool := s.agenda.any fun j => j.inp.flag && (match j.ev with
  | .replicaComplete u => decide (s.homeOf u = d)
  | _ => false)

/-- The shards are copied alongside, in a slot of cpe; when the copies of the versions are done too, the fill is. -/
def State.fillStage (s : State) (lost : Nat) (x : Input) : State :=
  let p := partner lost
  if x.mark then s.schedInp s.stc phTask (.spareFillComplete lost) { flag := true }
  else if s.looseSlot p engCpe then
    s.schedInp (s.stc + Nat.max 1 (((s.die p).shard.bytes + 63) / 64)) phTask (.spareFillComplete lost) { mark := true, die := p }
  else s.sched (s.stc + 1) phTask (.spareFillComplete lost)

/-- The stand-in holds a whole mirror of the partner's shards: the pair is rebuilt. -/
def State.fillDone (s : State) (lost : Nat) : State :=
  let p := partner lost
  match (s.die p).fill with
  | none => s
  | some m =>
    if (s.die m).lost || (s.die p).lost then s
    else
      let x := (s.die p).shard
      s.modDie m fun y => { y with mirror := y.mirror.merge x x.lineage x.consumers Shard.addConsumer }

def execSpareFillComplete (die : Nat) (s : State) : Out :=
  .next (if !s.inp.flag then s.fillStage die s.inp
    else if s.fillLeft (partner die) then s.schedInp (s.stc + 1) phTask (.spareFillComplete die) s.inp
    else s.fillDone die)

end Sys2Proof.Machine
end

