-- ==== Sys2Proof/Machine/Remote.lean ====
section
/-! DEFINITION. Remote translation and exports (14 R357 to R359), the release of pins and what waits for it (09 R274; 14 Table 14.3
INVAL), page migration (14 R360, R361) and the end of a frame's retirement (17 R397, R398). -/

namespace Sys2Proof.Machine

def errFrameRet : Nat := 0x2E
def errBflFull : Nat := 0x2F

/-- The device writes RESULT last and then raises CMDDONE; the command leaves the FIFO (14 R366). -/
def State.hostResult (s : State) (result code : Nat) : State := s.deviceTell result (leBytes 8 code) 64

/-! ### Pins of a range -/

/-- Something on the core holds a page that meets [a, a + n). -/
def Core.holdsRange (c : Core) (a n : Nat) : Bool :=
  c.tsk.pins.any (fun k => decide (k.2 ≠ 0) && decide (a ≤ k.1) && decide (k.1 < a + n)) ||
  (c.cmds.flatMap (·.pages) ++ c.tsk.copies.flatMap fun k => k.spages ++ k.dpages).any fun p =>
    decide (p.pa < a + n) && decide (a < p.pa + p.size)
def State.heldRange (s : State) (a n : Nat) : Bool :=
  s.cores.any (fun c => c.2.holdsRange a n) || s.rwins.any fun w => w.pages.any fun p => decide (p.pa < a + n) && decide (a < p.pa + p.size)

/-! ### Exports, at the target (14 R357, R359) -/

/-- Each package that has fetched an entry is told, and its acknowledgement comes back. -/
def State.tellImporters (s : State) (e : ExportEnt) : State :=
  e.fetched.foldl (fun s k => (s.sendTo k none 0).schedRack k .exportInvalidationAck { pkg := k, page := e.page }) s

/-- An entry changes, or goes, once every package that fetched it has acknowledged; then the command completes. -/
def State.exportsDone (s : State) : State :=
  let ready (e : ExportEnt) : Bool := e.removing.isSome && e.fetched.isEmpty
  let done := s.exports.filter ready
  if done.isEmpty then s
  else
    let l := s.exports.filterMap fun (e : ExportEnt) =>
      if ready e then e.next.map fun n => { e with frame := n.1, large := n.2.1, write := n.2.2, removing := none, next := none } else some e
    done.foldl (fun s e => s.hostResult (e.removing.getD 0) 0) { s with exports := l }

/-- A package has acknowledged an invalidation of a page, or its delivery context has failed. An entry that stays, whose frame was retired
(17 R397), may be fetched again. -/
def State.exportAcked (s : State) (pkg : Nat) (page : Option Nat) : State :=
  let l := s.exports.map fun (e : ExportEnt) =>
    if (e.removing.isSome = true ∧ page = none) ∨ page = some e.page then { e with fetched := e.fetched.filter fun k => k ≠ pkg } else e
  ({ s with exports := l } : State).exportsDone

def execExportInvalidationAck (s : State) : Out := .next (s.exportAcked s.inp.pkg (some s.inp.page))

/-! ### The remote translation caches (14 R358) -/

/-- A request: ours goes to the target and is answered; another package's is noted by the entry that it fetches, unless the entry is
being changed, or names a listed frame, at which the translation faults (17 R398). -/
def State.remoteReq (s : State) (x : Input) : State :=
  if x.flag then
    let l := s.exports.map fun (e : ExportEnt) =>
      if e.pkg = x.peer ∧ e.ctx = x.ctx.toNat ∧ e.page = x.page ∧ e.removing = none ∧ e.fetched.contains x.peer = false ∧
        s.badFrame e.frame e.bytes = false
      then { e with fetched := e.fetched ++ [x.peer] } else e
    { s with exports := l }
  else
    let a := Config.remoteExport x.pkg x.page
    s.schedRack x.pkg .remoteTranslationReply { x with frame := a.map (·.1), flag := a.any (·.2) }

def execRemoteTranslationReq (s : State) : Out := .next (s.remoteReq s.inp)

/-- A reply fills the bridge's cache of 4096 entries; in a full one some entry leaves (log 4). A refusal is told to who waits. -/
def State.remoteReply (s : State) (x : Input) : State :=
  let l := s.rtc.filter fun e => !(e.bridge = x.bridge && e.pkg = x.pkg && e.page = x.page) && e.frame.isSome
  let mine := l.filter fun e => e.bridge = x.bridge
  let l := if mine.length < 4096 then l
    else match mine[Config.freeChoice s.freeCtr % 4096]? with
      | some e => l.filter fun y => y ≠ e
      | none => l
  let new : RtcEnt := { bridge := x.bridge, pkg := x.pkg, page := x.page, frame := x.frame, write := x.flag, at_ := s.stc }
  { s with rtc := l ++ [new], freeCtr := s.freeCtr + 1 }

def execRemoteTranslationReply (s : State) : Out := .next (s.remoteReply s.inp)

/-- Entries being dropped go once no pin names their frame; the acknowledgement leaves the package. -/
def State.dropImports (s : State) : State :=
  let gone (e : RtcEnt) : Bool := e.dropping && !s.pinned (2 ^ 39 * e.pkg + e.frame.getD 0 % 2 ^ 39)
  let told := ((s.rtc.filter gone).map fun e => (e.pkg, e.page)).eraseDups
  told.foldl (fun s e => s.sendTo e.1 none 0) { s with rtc := s.rtc.filter fun e => !gone e }

/-- An importer drops an entry on the exporter's word. -/
def State.invalidateImport (s : State) (pkg page : Nat) : State :=
  let l := s.rtc.map fun (e : RtcEnt) => if e.pkg = pkg ∧ e.page = page then { e with dropping := true } else e
  ({ s with rtc := l } : State).dropImports

def execExportInvalidation (s : State) : Out := .next (s.invalidateImport s.inp.pkg s.inp.page)

/-! ### Pins fall (09 R274) -/

/-- An INVAL completes when every pin of its pages is released. -/
def State.invalsDone (s : State) : State :=
  let done := s.invals.filter fun h => !h.pages.any s.pinned
  if done.isEmpty then s
  else done.foldl (fun s h => s.hostResult h.result 0) { s with invals := s.invals.filter fun h => h.pages.any s.pinned }

/-- Migrations that have switched and whose old frame nothing names any more. -/
def State.migrationsFree (s : State) : State :=
  s.migrations.foldl (fun s m =>
    let inp : Input := { die := m.die }
    if m.switched && !s.heldRange m.old m.size && !s.hasJobInp .migrationFree inp then s.schedInp s.stc phTask .migrationFree inp else s) s

def State.releasePin (s : State) (core : Option Nat) (k : Nat) : State :=
  let s := match core with
    | some n => s.modCore n fun c => { c with tsk := { c.tsk with pins := SMap.put 0 c.tsk.pins k (SMap.get 0 c.tsk.pins k - 1) } }
    | none => s
  if s.pinned k then s else s.dropImports.invalsDone.migrationsFree

def execPinRelease (s : State) : Out := .next (s.releasePin s.inp.core s.inp.page)

/-! ### Migration (14 R360) -/

/-- A migration is asked for: one at a time on a die. -/
def State.startMigration (s : State) (m : Migration) : State :=
  ({ s with migrations := s.migrations ++ [m] } : State).schedInp s.stc phTask .migrationCopyDone { die := m.die }

/-- Its copy takes a slot of cpe that no booking holds, as soon as one is free (09 R256, log 100): the hot words of the page go home, and the
copy runs at 64 B per c. -/
def State.beginCopy (s : State) (m : Migration) : State :=
  let inp : Input := { die := m.die, mark := true }
  if !s.looseSlot m.die engCpe then s.schedInp (s.stc + 1) phTask .migrationCopyDone { die := m.die }
  else
    let s := s.evictHot (paDie m.old) fun w => decide (m.old ≤ 8 * w) && decide (8 * w < m.old + m.size)
    (s.setMigration { m with begun := true }).schedInp (s.stc + m.size / 64) phTask .migrationCopyDone inp

def State.migration? (s : State) (d : Nat) : Option Migration := s.migrations.find? fun m => m.die = d

/-- Cycles until the log as it stands has been replayed. -/
def Migration.replayLen (m : Migration) : Nat := (m.log.length + 3) / 4

def State.copyDone (s : State) (d : Nat) : State :=
  match s.migration? d with
  | none => s
  | some m =>
    if m.copied then s
    else if !m.begun then s.beginCopy m
    else (s.setMigration { m with copied := true, replayAt := s.stc }).schedInp (s.stc + m.replayLen) phTask .migrationSwitch { die := d }

def execMigrationCopyDone (s : State) : Out := .next (s.copyDone s.inp.die)

/-- Tables that led to the page now lead to its new frame; no page is forwarded from a frame that takes another. -/
def State.redirect (s : State) (m : Migration) : State :=
  let inn (a : Nat) : Bool := decide (m.old ≤ a) && decide (a < m.old + m.size)
  let go (a : Nat) : Nat := if inn a then m.new + (a - m.old) else a
  let s := (List.range 8).foldl (fun s d => s.modDie d fun x =>
    { x with remap := x.remap.map fun p => (p.1, paFrame (go (p.2 * 65536))) }) s
  let old := s.forwards.filter fun f => decide (m.new + m.size ≤ f.1) || decide (f.1 + f.2.2 ≤ m.new)
  { s with forwards := old.map fun f => (f.1, go f.2.1, f.2.2) }

/-- From Tsw the new frame answers for the page: it holds the old frame's content with every logged write. A retired frame enters the
remap table, and the translation caches let go of it (17 R397 items 2 and 3); what a host's migration moved is forwarded (log 99). -/
def State.switchFrame (s : State) (m : Migration) : State :=
  let s := ((s.copyFrame m.old m.new m.size).setMigration { m with log := [], switched := true }).redirect m
  let s := if m.retirement.isNone then { s with forwards := s.forwards ++ [(m.old, m.new, m.size)] }
    else
      let s := s.modDie m.die fun d => { d with remap := SMap.ins d.remap (paFrame m.old) (paFrame m.new) }
      let drop (c : Core) : Core := { c with tsk := { c.tsk with tcache := c.tsk.tcache.filter fun p =>
        !(decide (p.pa < m.old + m.size) && decide (m.old < p.pa + p.size)) } }
      let s : State := { s with cores := s.cores.map fun c => (c.1, drop c.2) }
      (s.exports.filter fun e => decide (e.frame < m.old + m.size) && decide (m.old < e.frame + e.bytes)).foldl
        State.tellImporters s
  s.migrationsFree

/-- The log is looked at: empty, the page switches 256 c later. -/
def State.trySwitch (s : State) (d : Nat) : State :=
  match s.migration? d with
  | none => s
  | some m =>
    let m := m.catchUp s.stc
    let inp : Input := { die := d }
    if !m.copied ∨ m.switched = true then s
    else
      match m.tsw with
      | some t => if t ≤ s.stc then s.switchFrame m else s.schedInp t phTask .migrationSwitch inp
      | none =>
        if m.log.isEmpty then (s.setMigration { m with tsw := some (s.stc + 256) }).schedInp (s.stc + 256) phTask .migrationSwitch inp
        else (s.setMigration m).schedInp (s.stc + m.replayLen) phTask .migrationSwitch inp

def execMigrationSwitch (s : State) : Out := .next (s.trySwitch s.inp.die)

/-- A refused write is sent again, its stamp unchanged; an atomic is applied then. -/
def State.retryWrite (s : State) (i : Nat) : State :=
  match s.retries.find? fun r => r.id = i with
  | none => s
  | some r =>
    -- those of one unit of the device keep their order
    let behind := s.retries.any fun y => y.stamp.issuer = r.stamp.issuer && y.owner.isNone && r.owner.isNone && decide (y.id < i)
    if s.logFull r.pa || behind then
      { s with agenda := insJob { due := s.stc + 1024, phase := phMemory, ev := .migrationLogRetry, inp := { id := i }, key := r.stamp } s.agenda }
    else
      let s : State := { s with retries := s.retries.filter fun x => x.id ≠ i }
      match r.bytes, r.owner with
      | [], some (n, id) => (match (s.core n).cmd? id with
        | some m => (match m.op with
          | .amo _ _ _ _ kind size _ _ => s.applyAtomic n id kind size
          | .ramo _ _ _ _ kind size _ => s.applyAtomic n id kind size
          | _ => s)
        | none => s)
      | bs, _ =>
        let s := s.writeOne r.pa bs r.stamp r.owner
        match r.tell with
        | some k => s.tellHost k
        | none => s

def execMigrationLogRetry (s : State) : Out := .next (s.retryWrite s.inp.id)

/-! ### The old frame is free -/

/-- An entry about a die in every live context's ring, by its DCP. -/
def State.errorDie (s : State) (code : Nat) (detail : Word) (d : Nat) : State := s.errorAll code detail 11 d

/-- A frame joins the bad-frame list of 4096 entries. -/
def State.listFrame (s : State) (f : Nat) (uncorrectable : Bool) : State :=
  if 4096 ≤ s.bx.badFrames.length then s.errorDie errBflFull (BitVec.ofNat 64 (f % 2 ^ 23)) (paDie (f * 65536))
  else { s with bx := { s.bx with badFrames := s.bx.badFrames ++ [(f, uncorrectable, s.stc / 2 ^ 32)] } }

def State.freeOld (s : State) (d : Nat) : State :=
  match s.migration? d with
  | none => s
  | some m =>
    if !m.switched ∨ s.heldRange m.old m.size = true then s
    else
      let s : State := { s with migrations := s.migrations.filter fun x => x.die ≠ d }
      let s := match m.retirement with
        | some u => (s.listFrame (paFrame m.old) u).errorDie errFrameRet
            (BitVec.ofNat 64 (paFrame m.old % 2 ^ 23 + 2 ^ 32 * (paFrame m.new % 2 ^ 23))) d
        | none => s
      match m.result with
      | some a => s.hostResult a 0
      | none => s

def execMigrationFree (s : State) : Out := .next (s.freeOld s.inp.die)

end Sys2Proof.Machine
end

