-- ==== Sys2Proof/Machine/Link.lean ====
section
/-! DEFINITION. The rack links (14 R352; 17 R416 to R419): frames and their counters, key slots and markers, authentication failures,
and a link that goes down. A bridge's sending direction is the link numbered by its die, 0 or 4; its receiving direction is 8 more. -/

namespace Sys2Proof.Machine

def errLinkSec : Nat := 0x33

def State.link (s : State) (k : Nat) : Link := SMap.get {} s.links k
def State.setLink (s : State) (k : Nat) (x : Link) : State := { s with links := SMap.ins s.links k x }

def tearAfter : Nat := 4096
def resendAfter : Nat := 1024
def Input.route (i : Input) (target : Bool) : Input := { bridge := i.bridge, peer := i.peer, ccw := i.ccw, flag := target }

/-- LKSTAT of a direction (17 Table 17.8). -/
def State.lkstat (s : State) (k : Nat) : Nat :=
  let x := s.link k
  x.live.toNat + 2 * x.idleReady.toNat + 4 * x.down.toNat + 2 ^ 32 * (x.retries % 2 ^ 32)

/-- A host write of LKSTAT: RETRIES is cleared where a 1 is written, the rest ignores it (00 R7). The manual gives LKSTAT no offset: the
write names the direction (log 102). -/
def State.writeLkstat (s : State) (k : Nat) (v : Word) : State :=
  let x := s.link k
  s.setLink k { x with retries := (BitVec.ofNat 32 x.retries &&& ~~~(v.extractLsb' 32 32)).toNat }

/-! ### A link goes down -/

/-- LINKID of a direction (17 R416): source and target package, and whether the source bridge is on d4. -/
def State.linkId (s : State) (k : Nat) : Nat :=
  let n := Nat.max s.nPkg 1
  let up := (s.pkg + 1) % n
  let down := (s.pkg + n - 1) % n
  if k = 0 then s.pkg + up * 16
  else if k = 4 then s.pkg + down * 16 + 256
  else if k = 8 then up + s.pkg * 16 + 256
  else down + s.pkg * 16

/-- Sources whose direction is no longer whole go on by the other one, and send what is unacknowledged again (14 R352, 17 R419). -/
def State.turnSources (s : State) : State :=
  (s.deliveries.filter fun x => !x.target && !s.rackPathOk x.peer !x.ccw && s.rackPathOk x.peer x.ccw).foldl (fun s x =>
    let y : Delivery := { x with bridge := (x.bridge + 4) % 8, ccw := !x.ccw, last := s.stc }
    let i : Input := { bridge := y.bridge, peer := y.peer, ccw := y.ccw }
    let rest := s.deliveries.filter fun d => d ≠ x
    if rest.any fun d => d.bridge = y.bridge && d.peer = y.peer && d.ccw = y.ccw && !d.target then { s with deliveries := rest }
    else
      let s := ({ s with deliveries := rest ++ [y] } : State).schedInp (s.stc + resendAfter) phTask .deliveryResendTimeout (i.route false)
      s.schedInp (s.stc + tearAfter) phTask .deliveryTeardown (i.route false)) s

/-- Both directions of a bridge's link stop, their keys erased: the rack ring is a line at that point (14 R352). -/
def State.linkDown (s : State) (b : Nat) : State :=
  let dead (x : Link) : Link := { x with down := true, idleReady := false, keyA := false, keyB := false, unacked := [] }
  let s := (s.setLink b (dead (s.link b))).setLink (b + 8) (dead (s.link (b + 8)))
  s.turnSources

/-- The security alarm of a direction (17 R419). -/
def State.linkAlarm (s : State) (k : Nat) : State :=
  ((s.linkDown (k % 8)).errorAll errLinkSec (BitVec.ofNat 64 (s.linkId k)) 15 (if s.bx.standby then 4 else 0)).raise causeLinkAlarm

/-- A boundary of the rack ring fails elsewhere: a link between two other packages, or a bridge die of one (14 R352). -/
def State.rackFailure (s : State) (k : Nat) : State :=
  ({ s with rackCut := if s.rackCut.contains k then s.rackCut else s.rackCut ++ [k] } : State).turnSources

/-- A link of this package fails; the subject's mark says that boundary `pkg` of the rack ring does instead. -/
def execRackLinkFailure (s : State) : Out := .next (if s.inp.mark then s.rackFailure s.inp.pkg else s.linkDown (s.inp.link % 8))

/-! ### Sending (17 R417, R418) -/

def Link.key (x : Link) (slot : Bool) : Bool := if slot then x.keyB else x.keyA
def Link.setKey (x : Link) (slot v : Bool) : Link := if slot then { x with keyB := v } else { x with keyA := v }

/-- The additional authenticated data of a frame, its 16-byte header. -/
def Frame.header (f : Frame) : List Byte := leBytes 8 f.ctr ++ leBytes 8 (f.slot.toNat + 2 * (f.kind % 4))
/-- Its IV: LINKID, then CTR. What AES-256-GCM makes of header, IV and flit under the keys, which no one outside Boxwood knows, is no part
of the state (log 8). -/
def State.frameIv (s : State) (k : Nat) (f : Frame) : List Byte := leBytes 4 (s.linkId k) ++ leBytes 8 f.ctr

/-- A frame leaves and is held until it is acknowledged. -/
def State.emitFrame (s : State) (k : Nat) (f : Frame) : State :=
  let x := s.link k
  (s.setLink k { x with unacked := x.unacked ++ [f], out := x.out ++ [f] }).schedInpFree phTask .linkFrameAck
    { link := k, slot := BitVec.ofBool f.slot, sent := f.ctr }

/-- The marker is the last frame under the live slot; the other slot is live with CTR 0. -/
def State.switchKey (s : State) (k : Nat) : State :=
  let x := s.link k
  if x.down ∨ x.idleReady = false then s
  else
    (s.setLink k { x with live := !x.live, idleReady := false, ctr := 0 }).emitFrame k { slot := x.live, ctr := x.ctr, kind := 1 }

/-- A flit goes out under the live slot, one CTR for each: a new key is asked for when CTR reaches 2^31; at 0xFFFF_0000 the marker goes ahead of it, or,
with no key ready, the link stops. -/
def State.sendFrame (s : State) (k : Nat) : State :=
  let x := s.link k
  if x.down then s
  else if 0xFFFF0000 ≤ x.ctr ∧ x.idleReady = false then s.linkAlarm k
  else
    let s := if 0xFFFF0000 ≤ x.ctr then s.switchKey k else s
    let x := s.link k
    let s := (s.setLink k { x with ctr := x.ctr + 1 }).emitFrame k { slot := x.live, ctr := x.ctr }
    if x.ctr + 1 = 2 ^ 31 then s.schedInpFree phTask .linkKeyExchange { link := k } else s

/-- The flits of a packet. -/
def State.sendFlits (s : State) (k n : Nat) : State := (List.range n).foldl (fun s _ => s.sendFrame k) s

/-- A key is established at an end of a direction, in the live slot when that has none, else in the idle slot, once CTR has reached 2^31; at
the sending end the marker follows its acknowledgement. -/
def State.exchangeKey (s : State) (k : Nat) : State :=
  let x := s.link k
  let (live, ctr) := if k < 8 then (x.live, x.ctr) else (x.recvSlot, x.expect)
  if x.down ∨ s.bx.erased = true then s
  else if !x.key live then s.setLink k (x.setKey live true)
  else if ctr < 2 ^ 31 ∨ x.idleReady = true then s
  else
    let s := s.setLink k { x.setKey (!live) true with idleReady := true }
    if k < 8 then s.schedInpFree phTask .linkKeyMarker { link := k } else s

def execLinkKeyExchange (s : State) : Out := .next (s.exchangeKey s.inp.link)

def execLinkKeyMarker (s : State) : Out := .next (s.switchKey s.inp.link)

/-- Frames of a slot up to a CTR are acknowledged; the old slot is erased when nothing sent under it is left. -/
def State.frameAck (s : State) (k : Nat) (slot : Bool) (ctr : Nat) : State :=
  let x := s.link k
  let l := x.unacked.filter fun u => !(u.slot = slot && decide (u.ctr ≤ ctr))
  let old := !x.live
  let x := { x with unacked := l }
  s.setLink k (if !x.idleReady && !l.any fun u => u.slot = old then x.setKey old false else x)

def execLinkFrameAck (s : State) : Out := .next (s.frameAck s.inp.link (s.inp.slot = 1#1) s.inp.sent)

/-- A NAK: every frame from the failed one onward goes again, byte for byte; RETRIES counts them. -/
def State.frameNak (s : State) (k ctr : Nat) : State :=
  let x := s.link k
  let again := x.unacked.dropWhile fun u => u.ctr ≠ ctr
  if x.down then s
  else s.setLink k { x with out := x.out ++ again, retries := Nat.min (2 ^ 32 - 1) (x.retries + again.length) }

def execLinkNakReceive (s : State) : Out := .next (s.frameNak s.inp.link s.inp.sent)

/-! ### Receiving (17 R417, R418) -/

/-- A NAK names the frame that failed, under the live key of the reverse direction, and takes no CTR of that direction (log 124). -/
def State.sendNak (s : State) (k ctr : Nat) : State :=
  let x := s.link k
  if x.down then s else s.setLink k { x with out := x.out ++ [{ slot := x.live, ctr := ctr, kind := 2 }] }

/-- The expected frame is accepted. A marker switches the slot, and the key before it, under which nothing is left to come, is erased. -/
def Link.accept (x : Link) (marker : Bool) : Link :=
  if marker then { x.setKey x.recvSlot false with expect := 0, recvSlot := !x.recvSlot, failures := 0, idleReady := false }
  else { x with expect := x.expect + 1, failures := 0 }

/-- A frame at the receiver: the expected one is accepted; a first failure is answered by a NAK in the reverse direction and holds up later
frames; a second failure of one frame is an alarm. When the expected CTR reaches 2^31 a key is exchanged. -/
def State.frameIn (s : State) (k ctr : Nat) (slot authentic marker : Bool) : State :=
  let x := s.link k
  if x.down then s
  else if ctr = x.expect ∧ slot = x.recvSlot ∧ authentic = true then
    let s := s.setLink k (x.accept marker)
    if (x.accept marker).expect = 2 ^ 31 then s.schedInpFree phTask .linkKeyExchange { link := k } else s
  else if x.failures = 0 then (s.setLink k { x with failures := 1 }).sendNak (k % 8) x.expect
  else if ctr = x.expect ∧ slot = x.recvSlot then s.linkAlarm k
  else s

def execLinkFrameReceive (s : State) : Out :=
  .next (s.frameIn s.inp.link s.inp.sent (s.inp.slot = 1#1) s.inp.flag s.inp.mark)

end Sys2Proof.Machine
end

