-- ==== Sys2Proof/Machine/Fabric.lean ====
section
/-! DEFINITION. The package ring (14 R349 to R351; 17 R406), multicast (13 R337; 14 R364), the loss of a die and of the package (01
R32, R33; 16 R376, R388; 17 R406, R407), and delivery contexts between packages (14 R355, R356). -/

namespace Sys2Proof.Machine

/-! ### Multicast -/

/-- The root's station forwards a write to every member, each at its own home. While one of them refuses it for a full migration log, it and
the later writes of the group wait, so that every member applies them in one order (13 R337, 14 R361). A write whose group is gone goes
to the root's frame (log 93). -/
def State.multicast (s : State) (x : Input) : State :=
  let owner := x.core.map fun c => (c, x.peer)
  match SMap.get? s.groups x.id with
  | none => s.writeOne x.addr.toNat x.bytes x.stamp owner
  | some ms =>
    let off := x.addr.toNat % 65536
    let ahead := s.agenda.find? fun j => j.ev = .multicastWrite && decide (j.inp.id = x.id) && j.inp.mark && decide (s.stc < j.due)
    let wait (due : Nat) : State :=
      { s with agenda := insJob { due := due, phase := phMemory, ev := .multicastWrite, inp := { x with mark := true } } s.agenda }
    match ahead with
    | some j => wait j.due
    | none =>
      if ms.any fun m => s.logFull (m + off) then wait (s.stc + 1024)
      else ms.foldl (fun s m => s.writeOne (m + off) x.bytes x.stamp owner) s

def execMulticastWrite (s : State) : Out := .next (s.multicast s.inp)

/-! ### Packets on the ring (14 R351) -/

def State.packet? (s : State) (i : Nat) : Option Packet := s.packets.find? fun p => p.id = i

/-- A packet reaches its target: unless its stamp came already, what it carries is done; the acknowledgement goes back. -/
def State.packetIn (s : State) (i : Nat) : State :=
  match s.packet? i with
  | none => s
  | some p =>
    let d := s.die p.dst
    if d.lost then { s with packets := s.packets.filter fun x => x.id ≠ i }
    else
      let back := s.stc + 48 * s.hops p.src p.dst
      let s := if d.received.contains p.stamp then s
        else (s.setDie p.dst { d with received := d.received ++ [p.stamp] }).schedInp back phTask p.payload p.inp
      s.schedInp back phTask .ringPacketAck { id := i }

def execRingPacketArrival (s : State) : Out := .next (s.packetIn s.inp.id)

/-- An unacknowledged packet is sent again in the only direction left, its stamp unchanged. -/
def State.packetAgain (s : State) (i : Nat) : State :=
  match s.packet? i with
  | none => s
  | some p =>
    let p := { p with cw := s.dirCw p.src p.dst }
    ({ s with packets := s.packets.map fun x => if x.id = i then p else x } : State).onRing p

def execRingPacketResend (s : State) : Out := .next (s.packetAgain s.inp.id)

/-- The source drops its copy. -/
def State.packetAcked (s : State) (i : Nat) : State :=
  match s.packet? i with
  | none => s
  | some p =>
    let s := if s.hasJobInp .ringPacketArrival { id := i } then s
      else s.modDie p.dst fun d => { d with received := d.received.filter fun t => t ≠ p.stamp }
    { s with packets := s.packets.filter fun x => x.id ≠ i }

def execRingPacketAck (s : State) : Out := .next (s.packetAcked s.inp.id)

/-! ### Whole package -/

def State.lostMask (s : State) : Nat := (List.range 8).foldl (fun m d => if (s.die d).lost then m + 2 ^ d else m) 0

/-- Segments into which the cuts part the surviving dies: one segment starts after each cut. -/
def State.segments (s : State) : Nat :=
  let alive := (List.range 8).filter fun d => !(s.die d).lost
  let starts := alive.filter fun d => s.cut.contains ((d + 7) % 8)
  if s.cut.isEmpty then 1 else starts.length

/-- The package stops (17 R407): no task is saved, every launch not complete completes with PKGSTOP. -/
def State.packageStop (s : State) : State :=
  -- the DCP of the leading die, or with d0 and d4 gone of the lowest die left
  let d := if (s.die s.lead).lost then ((List.range 8).find? fun k => !(s.die k).lost).getD 0 else s.lead
  let s := s.errorAll 0x36 (BitVec.ofNat 64 s.lostMask) 11 d
  let s := s.cores.foldl (fun s c => if c.2.tsk.task.isSome then s.vacate c.1 else s) s
  let s := (s.launches.filter fun l => !l.complete).foldl (fun s l => s.completeLaunch { l with final := 0x36 }) s
  { s.raise causeDieLoss with stopped := true }

/-! ### The loss of a die -/

/-- Die that takes over from a lost one: its partner, or when that is lost too the stand-in of the pair, or any die left (16 R376,
log 32). -/
def State.heir (s : State) (d : Nat) : Nat :=
  let p := partner d
  if !(s.die p).lost then p
  else match (s.die d).fill with
    | some m => if !(s.die m).lost then m else ((List.range 8).find? fun k => !(s.die k).lost).getD d
    | none => ((List.range 8).find? fun k => !(s.die k).lost).getD d

/-- The home table is rewritten, and the heir serves the shard from its mirror. -/
def State.rehome (s : State) (d h : Nat) : State :=
  let ht := (List.range 256).foldl (fun m k => if SMap.get (k % 8) m k = d then SMap.ins m k h else m) s.ht
  let s : State := { s with ht := ht }
  let x := s.die h
  let mine (n : Nat) : Bool := s.homeOf n = h
  let sh := x.shard.merge x.mirror (x.mirror.lineage.filter fun l => mine l.name) (x.mirror.consumers.filter fun c => mine c.1)
    Shard.addConsumer
  s.setDie h { x with shard := sh, mirror := { x.mirror with lineage := x.mirror.lineage.filter fun l => !mine l.name,
                                                             consumers := x.mirror.consumers.filter fun c => !mine c.1 } }

/-- A task that waits for a reply from the lost die, or from a package that it reached by the die's bridge. -/
def State.dependsOn (s : State) (d : Nat) (c : Core) : Bool :=
  let via := (s.deliveries.filter fun x => x.bridge = d && !x.target).map (·.peer)
  let on (ps : List PageTr) : Bool := ps.any fun p => realPa p.pa && (if paPkg p.pa = s.pkg then paDie p.pa = d else via.contains (paPkg p.pa))
  c.cmds.any (fun m => on m.pages) || c.tsk.copies.any fun k => on (k.spages ++ k.dpages)

/-- Records that the lost die held are those of its mirror now, or of a die of their launch's DIEMASK where the heir is none of them
(log 34); what it ran, and what was to be restored on one of its cores, starts again (12 Table 12.9, log 103). -/
def State.loseRecords (s : State) (d h : Nat) : State :=
  let held := s.recs.filter fun r => r.live && r.die = d
  let home (r : TaskRec) : Nat := match s.launchOf r with
    | some l => s.holdDie l h
    | none => h
  -- one that is not resident takes an entry of its new die's pool, or spills (12 R307)
  let seated (r : TaskRec) : Bool := r.live && !r.spilled && (r.st = .wait || r.st = .ready || r.st = .stopped)
  let moved := s.recs.map fun (r : TaskRec) => if r.die = d then { r with die := home r, spilled := r.spilled || seated r } else r
  let s : State := { s with recs := moved }
  let s := (held.filter seated).foldl (fun s r => s.seat r.id) s
  let hit (r : TaskRec) : Bool :=
    (r.st = .booked || r.st = .loading || r.st = .run) &&
      (dieOf r.core = d || held.any (fun x => x.id = r.id) ||
        (match s.coreOfTask r.id with
         | some n => s.dependsOn d (s.core n)
         | none => false)) ||
    r.st = .stopped && s.windows.any fun w => w.task = r.id && dieOf w.core = d
  (s.recs.filter hit).foldl (fun s r => s.restart r.id) s

/-- The memory stack of a die is gone (01 R33), and with it the packets whose source or target was the die (14 R351). -/
def State.loseStack (s : State) (d : Nat) : State :=
  let gone (a : Nat) : Bool := paDie a = d && paPkg a = s.pkg && realPa a
  let s := { s with dram := s.dram.filter fun c => !gone c.1 }
  let s := s.modDie d fun x => { x with stationHot := [], poison := [], remap := [], pairBuf := [], shard := {}, mirror := {} }
  let lostWrite (j : Job) : Bool := j.ev = .multicastWrite && (j.inp.die = d || j.inp.core.any fun n => dieOf n = d)
  { s with agenda := s.agenda.filter fun j => !lostWrite j,
           retries := s.retries.filter fun r => r.tell.isSome || !(gone r.pa || r.owner.any fun o => dieOf o.1 = d),
           daus := s.daus.filter fun u => !(dieOf (2 * u.1) = d && decide (u.1 < 96)), migrations := s.migrations.filter fun m => m.die ≠ d,
           rwins := s.rwins.filter fun w => w.die ≠ d,
           damos := s.damos.filter fun o => !gone o.pa && dieOf o.core ≠ d,
           pairs := s.pairs.filter fun o => !gone o.obj && dieOf o.core ≠ d,
           contribs := s.contribs.filter fun k => dieOf k.core ≠ d,
           saveAreas := s.saveAreas.filter fun a => !gone a.base,
           bridgeBuf := if d % 4 = 0 then SMap.del s.bridgeBuf (8 + d / 4) else s.bridgeBuf,
           deliveries := s.deliveries.filter fun x => x.bridge ≠ d, rtc := s.rtc.filter fun x => x.bridge ≠ d }

/-- What the directory makes of the loss: copies on the die are gone, replicas become primary, the rest is lost and walked (16
R384, R388). -/
def State.loseVersions (s : State) (d : Nat) (homed : List Nat) : State :=
  let l := s.dir.map fun (e : DirEnt) =>
    let e := { e with copies := e.copies.filter fun c => c.1 ≠ d }
    if e.repl ∧ e.rdie = d then { e with repl := false, rframes := [] } else e
  let s : State := { s with dir := l }
  let mine := s.dir.filter fun e => homed.contains e.name
  -- the partner's copy is primary now, the replica or one that tlfill placed there, and a new replica is to be made
  let s := mine.foldl (fun s e =>
    let h := s.homeOf e.name
    if e.st ≠ .full ∧ e.st ≠ .revoked then s
    else if e.repl ∧ e.rdie = h then s.setDir { e with frames := e.rframes, rframes := [], repl := false }
    else match e.copies.find? fun c => c.1 = h with
      | some c => s.setDir { e with frames := c.2, copies := e.copies.filter fun x => x.1 ≠ h, rpend := true }
      | none => s) s
  let kept (e : DirEnt) : Bool := (e.repl && e.rdie = s.homeOf e.name) || e.copies.any fun c => c.1 = s.homeOf e.name
  let s := s.loseAll (mine.filter fun e => !kept e && (e.st = .full || e.st = .revoked))
  -- versions that were lost already are walked again: their lineage may be gone too (Table 16.4)
  (sortBy DirEnt.before (mine.filter fun e => e.st = .lost)).foldl (fun s e =>
    if s.hasJob (.darnerWalk e.name) then s else s.schedDarner s.stc (.darnerWalk e.name) e.name) s

/-- Versions whose producing die is lost before both acknowledgements are lost with it, and walked (01 R30, log 96). -/
def State.loseUnacked (s : State) (d : Nat) : State :=
  let mine := s.sentLin.filter fun l => l.die = d
  let s : State := { s with agenda := s.agenda.filter fun j => !mine.any fun l => j.ev = .lineageAck l.name false || j.ev = .lineageAck l.name true }
  mine.foldl (fun s l =>
    let drop (s : State) : State := { s with sentLin := s.sentLin.filter fun x => x.name ≠ l.name }
    match s.dirEnt l.name with
    | none => drop s
    | some e =>
      if e.st = .full then
        let s := e.copies.foldl (fun s c => s.freeFrames c.2) ((s.freeFrames e.frames).freeFrames e.rframes)
        ((s.setDir { e with st := .lost, frames := [], rframes := [], copies := [], repl := false }).toWait l.name).schedDarner
          s.stc (.darnerWalk l.name) l.name
      else if e.st = .lost then s
      else drop s) s

/-- Lineage of the dies left that is on its way goes again to the shards as they are now. -/
def State.resendLineage (s : State) : State :=
  (s.sentLin.filter fun l => !(s.die l.die).lost).foldl (fun s l =>
    let e := (s.dirEnt l.name).getD { name := l.name }
    let go (s : State) (mirror : Bool) : State :=
      if (if mirror then e.mirack else e.linack) || s.packets.any (fun p => p.payload = .lineageAck l.name mirror) || s.hasJob (.lineageAck l.name mirror) then s
      else s.sendLineage l (fun _ => none) mirror
    go (go s false) true) s

/-- A pairing operation whose way is no longer the ring's goes again from its core within 4096 c (01 R32; 14 R351). -/
def State.reroutePairs (s : State) : State :=
  s.pairs.foldl (fun s o =>
    let path := s.pairPath o.core o.obj o.far
    if path.drop (path.length - o.path.length) = o.path then s
    else
      let s := match o.held with
        | some k => s.setPairBuf k ((s.pairBufAt k).filter fun i => i ≠ o.id)
        | none => s
      let (k, s) := s.drawLat
      let s := (s.setPair { o with path := path, held := none }).unsched fun e => e = .pairingArrival o.id || e = .pairingHoldExpiry o.id
      s.sched (s.stc + 1 + k % 4096) phTask (.pairingArrival o.id)) s

/-- Data of a booked load on its way over a path that changed goes again within 4096 c, late or not (09 R260). -/
def State.rerouteLoads (s before : State) : State :=
  let hit (j : Job) : Bool := match j.ev with
    | .lddramReturn n id => ((s.core n).cmd? id).any fun m =>
        m.cal && !m.arrived && m.pages.any fun p => before.dirCw (dieOf n) (paDie p.pa) != s.dirCw (dieOf n) (paDie p.pa)
    | _ => false
  (s.agenda.filter hit).foldl (fun s j =>
    let (k, s) := s.drawLat
    { s with agenda := insJob { j with due := Nat.max j.due (s.stc + 1 + k % 4096) } s.agenda }) { s with agenda := s.agenda.filter fun j => !hit j }

/-- The ring is a line now: packets of the lost die are lost; of the others every one that is not acknowledged goes again within 4096 c, in
the order sent, and its flits on a boundary that is cut are gone (14 R351). -/
def State.reformRing (s before : State) : State :=
  let s := s.reroutePairs.rerouteLoads before
  let keep := s.packets.filter fun p => !(s.die p.src).lost && !(s.die p.dst).lost
  let s : State := { s with packets := keep, agenda := s.agenda.filter fun j =>
    !((j.ev = .ringPacketArrival || j.ev = .ringPacketAck) && !keep.any fun p => p.id = j.inp.id) }
  let cutOff := s.packets.filter fun p => !s.pathOk p.src p.dst p.cw
  let s : State := { s with agenda := s.agenda.filter fun j => !(j.ev = .ringPacketArrival && cutOff.any fun p => p.id = j.inp.id) }
  (s.packets.foldl (fun (x : Nat × State) p =>
    let (k, s) := x.2.drawLat
    let at_ := x.1 + k % (4097 - x.1)
    (at_, s.schedInp (s.stc + at_) phTask .ringPacketResend { id := p.id })) (1, s)).2

/-- The standby endpoint and the standby Boxwood take over from d0 (14 R369; 17 R406): the endpoint with its own registers, whose ACTIVE is
now 1, and with the credit, of which it keeps a mirror (log 101). -/
def State.takeOver (s : State) : State :=
  { s with host := { s.ep4 with active := true, credit := s.host.credit }, bx := { s.bx with standby := true } }

/-- A MIGRATE command under way on a lost die is over, its frames gone with the stack: it gets its RESULT and its credit returns (14 R366,
R369, log 122). -/
def State.endMigrates (s : State) (ms : List Migration) : State :=
  (ms.filterMap (·.result)).foldl (fun s a => s.hostResult a errBadField) s

/-- A die is down and its boundaries are cut (01 R32). -/
def State.markLost (s : State) (d : Nat) : State :=
  let s := s.modDie d fun x => { x with lost := true, slots := [], waiting := [] }
  let cuts := [d, (d + 7) % 8].filter fun b => !s.cut.contains b
  { s with cut := s.cut ++ cuts }

/-- Surviving dies with both boundaries cut: they are lost (17 R406). -/
def State.cutOff (s : State) : List Nat :=
  (List.range 8).filter fun d => !(s.die d).lost && s.cut.contains d && s.cut.contains ((d + 7) % 8)

/-- What a lost die held: its heir takes its homes, its records, its versions (01 R33). -/
def State.takeHomes (s : State) (d : Nat) : State :=
  let homed := (s.dir.filter fun e => s.homeOf e.name = d).map (·.name)
  let h := s.heir d
  let s := s.rehome d h
  let s := s.loseRecords d h
  let s := s.loseStack d
  let teams := s.teams.map fun (t : Team) => { t with cores := t.cores.filter fun n => dieOf n ≠ d }
  let s : State := { s with teams := teams }
  let s := s.dropWindows fun w => dieOf w.core = d
  (s.loseVersions d homed).loseUnacked d

/-- Spare fills that ran to the lost die start again; its own begins (16 R388, R389). -/
def State.fillsAgain (s : State) (d : Nat) : State :=
  let s := (List.range 8).foldl (fun s x =>
    if (s.die x).lost && (s.die (partner x)).fill = some d then
      (s.unsched fun e => e = .spareFillComplete x).sched s.stc phTask (.spareFill x)
    else s) s
  if (s.die (partner d)).lost then s else s.sched s.stc phTask (.spareFill d)

/-- A die is lost, and with it every die its cuts leave alone. -/
def State.dieLoss (s : State) (d : Nat) : State :=
  if (s.die d).lost then s
  else
    let before := s
    let s := s.markLost d
    let gone := d :: s.cutOff
    let s := gone.foldl State.markLost s
    if s.segments ≠ 1 ∨ ((s.die 0).lost = true ∧ (s.die 4).lost = true) then s.packageStop
    else
      let s := gone.foldl State.takeHomes s
      let s := ((s.reformRing before).turnSources).resendLineage
      let s := gone.foldl State.fillsAgain s
      let s := if gone.contains 0 then s.takeOver else s
      let s := s.endMigrates (before.migrations.filter fun m => gone.contains m.die)
      let s := (s.raise causeDieLoss).checkBarriers
      s.kick

/-! ### Heartbeats (17 R406; 19 R429) -/

def heartbeatPeriod : Nat := 256
def cutTimeout : Nat := 2048

/-- Boundary over which a station sends in a direction, and the station that hears it. -/
def beatBoundary (d : Nat) (ccw : Bool) : Nat := if ccw then (d + 7) % 8 else d
def beatTarget (d : Nat) (ccw : Bool) : Nat := if ccw then (d + 7) % 8 else (d + 1) % 8

/-- A heartbeat from a station reaches its neighbour, which measures the sender's STC: the boundary is not cut before another 2048
c; a difference above 1 loses the die. -/
def State.beat (s : State) (x : Input) : State :=
  let b := beatBoundary x.die x.ccw
  let e := beatTarget x.die x.ccw
  if (s.die x.die).lost || s.cut.contains b then s
  else
    let s := s.schedInp (s.stc + heartbeatPeriod) phTask .heartbeat { die := x.die, ccw := x.ccw }
    if (s.die e).lost then s
    else
      let s := s.modDie e fun y => { y with lastBeat := SMap.ins y.lastBeat x.ccw.toNat s.stc }
      let inp : Input := { id := b, ccw := x.ccw }
      let s : State := { s with agenda := s.agenda.filter fun j => !(j.ev = .boundaryCut && j.inp = inp) }
      let s := s.schedInp (s.stc + cutTimeout) phTask .boundaryCut inp
      let off := (s.die x.die).stcOff - (s.die e).stcOff
      if off < -1 ∨ 1 < off then s.dieLoss e else s

def execHeartbeat (s : State) : Out := .next (s.beat s.inp)

/-- A boundary is declared cut; a die with both its boundaries cut is lost. -/
def State.cutBoundary (s : State) (b : Nat) : State :=
  if s.cut.contains b then s
  else
    let before := s
    let s : State := { s with cut := s.cut ++ [b] }
    match s.cutOff with
    | d :: _ => s.dieLoss d
    | [] => if s.segments ≠ 1 then s.packageStop else s.reformRing before

def execBoundaryCut (s : State) : Out := .next (s.cutBoundary (s.inp.id % 8))

/-- A DCP reports a fatal fault over the ring. -/
def execDcpFatalFault (s : State) : Out := .next (s.dieLoss (s.inp.die % 8))

/-! ### Delivery contexts (14 R355, R356) -/

def Delivery.isFor (x : Delivery) (i : Input) (target : Bool) : Bool := x.bridge = i.bridge && x.peer = i.peer && x.ccw = i.ccw && x.target = target
def State.delivery? (s : State) (i : Input) (target : Bool) : Option Delivery := s.deliveries.find? fun x => x.isFor i target
def State.setDelivery (s : State) (x : Delivery) : State :=
  { s with deliveries := s.deliveries.map fun y => if y.bridge = x.bridge && y.peer = x.peer && y.ccw = x.ccw && y.target = x.target then x else y }
def State.dropDelivery (s : State) (i : Input) (target : Bool) : State := { s with deliveries := s.deliveries.filter fun x => !x.isFor i target }

/-- Key of the floor of a source bridge. -/
def floorKey (i : Input) : Nat := i.bridge + 8 * i.peer + 128 * i.ccw.toNat

/-- Cycle at which the first packet that is not acknowledged is sent again. -/
def Delivery.resendAt (x : Delivery) (now : Nat) : Nat := x.unacked.foldl (fun m u => Nat.min m (u.at_ + resendAfter)) (now + resendAfter)

/-- The acknowledgement of what has been sent on a way that is whole. -/
def State.awaitAck (s : State) (i : Input) (seqno : BitVec 16) : State :=
  if s.rackPathOk i.peer !i.ccw then s.schedRack i.peer .deliveryAck { i.route false with seqno := seqno } else s

/-- The next packet of a source: numbered, held until it is acknowledged, and sent. -/
def State.sendNext (s : State) (i : Input) (x : Delivery) : State :=
  let flits := 1 + (i.size + 255) / 256
  let x := { x with next := x.next + 1, last := s.stc, unacked := x.unacked ++ [{ seqno := x.next, at_ := s.stc, task := i.core.bind fun n => (s.core n).tsk.task, flits := flits }] }
  let s := (s.setDelivery x).sendFlits i.bridge flits
  let s := if s.hasJobInp .deliveryResendTimeout (i.route false) then s
    else s.schedInp (x.resendAt s.stc) phTask .deliveryResendTimeout (i.route false)
  s.awaitAck i (x.next - 1)

/-- A packet for another package: with no context open it is the first of a burst, number 0, and carries OPEN. -/
def State.sendOwn (s : State) (i : Input) : State :=
  match s.delivery? i false with
  | some x => s.sendNext i x
  | none =>
    let x : Delivery := { bridge := i.bridge, peer := i.peer, ccw := i.ccw, target := false, next := 0, last := s.stc }
    ((({ s with deliveries := s.deliveries ++ [x] } : State).schedInp (s.stc + tearAfter) phTask .deliveryTeardown (i.route false))).sendNext i x

/-- A read from outside the package marks the version whose page it reads as gone out (16 Table 16.1 XOUT). The frames of versions have no
address of the manual: the subject names the version (log 27). -/
def State.readOut (s : State) (i : Input) : State :=
  { s with dir := s.dir.map fun e => if i.frame = some e.name then { e with xout := true } else e }

/-- Bytes that an access from another package touches, and whether it needs the permission to write: a read and an atomic of KIND 0 do
not (08 R219). -/
def Input.farNeeds (i : Input) : Nat × Bool :=
  match i.far with
  | .plain => (i.bytes.length, !i.bytes.isEmpty)
  | .amo k z | .ramo k z | .damo k z => (if z = 0 then 4 else 8, decide (k ≠ 0))
  | .push _ | .pop _ => (64, true)

/-- The entry under which an access from another package stands (14 R359): present, the frame matching, the permission given, the frame not
a listed one (17 R398). -/
def State.exportFor (s : State) (i : Input) : Option ExportEnt :=
  let (n, w) := i.farNeeds
  s.exports.find? fun e => e.pkg = i.peer && e.ctx = i.ctx.toNat && e.page = i.page && decide (e.frame ≤ i.addr.toNat) &&
    decide (i.addr.toNat + n ≤ e.frame + e.bytes) && (!w || e.write) && !s.badFrame e.frame e.bytes

/-- An amo or ramo of another package at its home. The old value goes back to that package; so does the refusal of a full migration log,
and the source sends it again (14 R361). -/
def State.farAtomic (s : State) (pa kind size : Nat) (i : Input) : State :=
  let n := if size = 0 then 4 else 8
  if kind = 0 ∨ s.logFull pa = true ∨ s.poisoned pa n = true then s
  else s.applyWrite pa (leBytes n (atomicNew kind (8 * n) (leVal (s.dramBytes pa n)) i.val.toNat i.val2.toNat)) { i.stamp with pkg := i.peer }

/-- A damo of another package goes from the bridge to its unit. -/
def State.farDamo (s : State) (pa kind size : Nat) (i : Input) : State :=
  let (n, s) := s.fresh
  let o : DamoOp := { id := n, core := 24 * i.bridge, cmd := 0, kind := kind, size := size, b := i.val, c := i.val2, pa := pa,
                      src := 8 + i.bridge / 4, stamp := { i.stamp with pkg := i.peer }, far := true }
  ({ s with damos := s.damos ++ [o] } : State).sendDamo o

/-- A pairing operation of another package enters at the bridge station. -/
def State.farPair (s : State) (pa : Nat) (push que : Bool) (i : Input) : State :=
  let (n, s) := s.fresh
  let o : PairOp := { id := n, core := 24 * i.bridge, cmd := 0, push := push, item := i.val, que := que, obj := pa,
                      path := s.pairPath (24 * i.bridge) pa true, stamp := { i.stamp with pkg := i.peer }, far := true }
  ({ s with pairs := s.pairs ++ [o] } : State).sched s.stc phTask (.pairingArrival n)

/-- An access from another package, where the export table lets it stand, is made under its own stamp. -/
def State.remoteAccess (s : State) (i : Input) : State :=
  let pa := i.addr.toNat
  if (s.exportFor i).isNone then s
  else match i.far with
  | .plain => if i.bytes.isEmpty then s.readOut i else s.dramWrite pa i.bytes { i.stamp with pkg := i.peer } none
  | .amo k z => (s.readOut i).farAtomic pa k z i
  | .ramo k z =>
    let s := s.readOut i
    (if (s.migrating (s.resolve pa)).isSome then s else s.installHot (s.resolve pa)).farAtomic pa k z i
  | .damo k z => (s.readOut i).farDamo pa k z i
  | .push q => s.farPair pa true q i
  | .pop q => (s.readOut i).farPair pa false q i

/-- A packet sent no later than the floor of its source, or before the context that is live now, belongs to none that lives (14 R356). -/
def State.stale (s : State) (i : Input) : Bool :=
  (SMap.get? s.floors (floorKey i)).any (fun f => decide (i.sent ≤ f)) || (s.delivery? i true).any fun x => decide (i.sent < x.opened)

/-- An OPEN at the target: it replaces a live context of its source, unless it is that context's own come again; a stale one is discarded;
and one of 256 contexts must be free, or BUSY goes back. Its access is the context's first. -/
def State.openTarget (s : State) (i : Input) : State :=
  if (s.delivery? i true).any fun x => x.opened = i.sent then s.sendFrame i.bridge
  else if s.stale i then s
  else
    let s := s.dropDelivery i true
    if 256 ≤ (s.deliveries.filter fun y => y.target && y.bridge = i.bridge).length then s.sendFrame i.bridge
    else
      let x : Delivery := { bridge := i.bridge, peer := i.peer, ccw := i.ccw, target := true, next := 1, last := s.stc, opened := i.sent }
      let s := ({ s with deliveries := s.deliveries ++ [x] } : State).schedInp (s.stc + tearAfter) phTask .deliveryTeardown (i.route true)
      (s.remoteAccess i).sendFrame i.bridge

def execDeliveryContextOpen (s : State) : Out := .next (if s.inp.flag then s.openTarget s.inp else s.sendOwn s.inp)

/-- Packets held early that now follow in sequence. -/
def State.drainEarly : Nat → State → Delivery → State × Delivery
  | 0, s, x => (s, x)
  | fuel + 1, s, x =>
    match x.early.find? fun e => e.seqno = x.next with
    | none => (s, x)
    | some e => State.drainEarly fuel (s.remoteAccess e) { x with next := x.next + 1, early := x.early.filter fun y => y.seqno ≠ e.seqno }

/-- A packet at the target: in sequence it is accepted, up to 64 ahead it is held, otherwise it is dropped; what has come in sequence is
acknowledged. One that belongs to no live context is discarded. -/
def State.deliverPacket (s : State) (i : Input) : State :=
  match if s.stale i then none else s.delivery? i true with
  | none => s
  | some x =>
    let x := { x with last := s.stc }
    let ahead := (i.seqno - x.next).toNat
    if ahead = 0 then
      let s := s.remoteAccess i
      let (s, x) := State.drainEarly 64 s { x with next := x.next + 1 }
      (s.setDelivery x).sendFrame i.bridge
    else if ahead < 32768 ∧ x.early.length < 64 ∧ x.early.any (fun e => e.seqno = i.seqno) = false then
      s.setDelivery { x with early := x.early ++ [i] }
    else (s.setDelivery x).sendFrame i.bridge

/-- A packet that passes through goes over the package ring to the other bridge and on by its link; where that is gone it goes back the
way it came (14 R352). -/
def State.transit (s : State) (i : Input) : State :=
  let out := (i.bridge + 4) % 8
  if !i.flag then s.schedInp (s.stc + 48 * s.hops i.bridge out) phTask .deliveryPacketArrival { i with flag := true }
  else s.sendFrame (if s.bridgeUp out then out else i.bridge)

/-- A packet from a rack link; the subject's mark says that it is for another package. -/
def execDeliveryPacketArrival (s : State) : Out := .next (if s.inp.mark then s.transit s.inp else s.deliverPacket s.inp)

/-- The task of core n ends with a fault record of cause ADDR. -/
def State.addrEnd (s : State) (n : Nat) : State :=
  s.endTask n errFault (faultDetail (causeCode .addr) 0 0 0 (s.core n).c.lastPc.toNat 0 0 0) 0 0

/-- An access of a core to a package has failed: what it has under way there is void, and its task ends by ADDR. -/
def State.farEnd (s : State) (peer n : Nat) : State :=
  let far (p : PageTr) : Bool := realPa p.pa && paPkg p.pa = peer
  let s := ((s.core n).cmds.filter fun m => m.pages.any far).foldl (fun s m => s.retireCmd n m.id) s
  let s := s.modCore n fun x => { x with tsk := { x.tsk with copies := x.tsk.copies.filter fun k => !(k.spages ++ k.dpages).any far } }
  s.addrEnd n

/-- A context fails: each task with an access in it, in a packet that is not acknowledged, ends by ADDR, and a link alarm is raised. -/
def State.failDelivery (s : State) (i : Input) : State :=
  let hit := (((s.delivery? i false).toList.flatMap (·.unacked)).filterMap (·.task)).eraseDups
  let s := (hit.filterMap s.coreOfTask).foldl (fun s n => s.farEnd i.peer n) (s.dropDelivery i false)
  (s.exportAcked i.peer none).raise causeLinkAlarm

/-- 1024 c without acknowledgement: the packet goes again; after eight resends of one the context fails. -/
def State.resendDelivery (s : State) (i : Input) : State :=
  match s.delivery? i false with
  | none => s
  | some x =>
    let due (u : SentPkt) : Bool := decide (u.at_ + resendAfter ≤ s.stc)
    if x.unacked.isEmpty then s
    else if x.unacked.any fun u => due u && decide (8 ≤ u.tries) then s.failDelivery i
    else
      let n := ((x.unacked.filter due).map (·.flits)).foldl (· + ·) 0
      let s := s.sendFlits i.bridge n
      -- on a way that it took in place of another no acknowledgement is due yet (17 R419)
      let s := if n = 0 ∨ s.agenda.any (fun j => j.ev = .deliveryAck && { j.inp with seqno := 0 } = i.route false) then s
        else s.awaitAck i (x.next - 1)
      let x := { x with unacked := x.unacked.map fun u => if due u then { u with at_ := s.stc, tries := u.tries + 1 } else u,
                        last := if n = 0 then x.last else s.stc }
      (s.setDelivery x).schedInp (x.resendAt s.stc) phTask .deliveryResendTimeout (i.route false)

def execDeliveryResendTimeout (s : State) : Out := .next (s.resendDelivery s.inp)

/-- An OPEN refused with BUSY, whose context takes nothing, is sent again after 256 c. -/
def State.busyAgain (s : State) (i : Input) : State :=
  match s.delivery? i false with
  | none => s
  | some x =>
    let mine (j : Job) : Bool := j.ev = .deliveryAck && { j.inp with seqno := 0 } = i.route false
    if x.busy then
      ((s.setDelivery { x with busy := false, last := s.stc }).sendFrame i.bridge).awaitAck i 0
    else
      (({ s with agenda := s.agenda.filter fun j => !mine j } : State).setDelivery { x with busy := true, last := s.stc }).schedInp
        (s.stc + 256) phTask .deliveryBusyRetry (i.route false)

def execDeliveryBusyRetry (s : State) : Out := .next (s.busyAgain s.inp)

/-- A cumulative acknowledgement at the source: every packet up to its sequence. -/
def State.ackDelivery (s : State) (i : Input) : State :=
  match s.delivery? i false with
  | none => s
  | some x =>
    s.setDelivery { x with unacked := x.unacked.filter fun u => decide (0 < (u.seqno - i.seqno).toNat) && decide ((u.seqno - i.seqno).toNat < 32768),
                           last := s.stc }

/-- The target has refused the access of a packet (14 R359): its issuing task ends by ADDR. -/
def State.refusedAccess (s : State) (i : Input) : State :=
  match (((s.delivery? i false).bind fun x => x.unacked.find? fun u => u.seqno = i.seqno).bind (·.task)).bind s.coreOfTask with
  | some n => (s.ackDelivery i).farEnd i.peer n
  | none => s.ackDelivery i

/-- The subject's mark says that the target has refused the access. -/
def execDeliveryAck (s : State) : Out := .next (if s.inp.mark then s.refusedAccess s.inp else s.ackDelivery s.inp)

/-- A side quiet for 4096 c with nothing unacknowledged tears down; the target's floor becomes this STC. -/
def State.tearDown (s : State) (i : Input) : State :=
  match s.delivery? i i.flag with
  | none => s
  | some x =>
    if !x.unacked.isEmpty ∨ s.stc < x.last + tearAfter then
      s.schedInp (Nat.max (s.stc + 1) (x.last + tearAfter)) phTask .deliveryTeardown (i.route i.flag)
    else
      let s := s.dropDelivery i i.flag
      if i.flag then { s with floors := SMap.ins s.floors (floorKey i) s.stc } else s

def execDeliveryTeardown (s : State) : Out := .next (s.tearDown s.inp)

end Sys2Proof.Machine
end

