-- ==== Sys2Proof/Machine/Sha.lean ====
section
/-! DEFINITION. SHA-384 (FIPS 180-4, named by 17 R410 and R411): the digest of a list of bytes. -/

namespace Sys2Proof.Machine.Sha

/-- The integer k-th root of a number below 2^(73 k). -/
def root (k n : Nat) : Nat := (List.range 73).foldl (fun x i => let y := x + 2 ^ (72 - i); if y ^ k ≤ n then y else x) 0

/-- The first 80 primes. -/
def primes : List Nat := (List.range 410).filter fun n => decide (2 ≤ n) && (List.range 21).all fun d => d < 2 || n ≤ d || n % d != 0

/-- Round constants: the first 64 bits of the fractional parts of the cube roots of the first 80 primes. -/
def konst : List (BitVec 64) := primes.map fun p => BitVec.ofNat 64 (root 3 (p * 2 ^ 192))
/-- Initial hash value: the same of the square roots of the ninth to the sixteenth prime. -/
def init : List (BitVec 64) := ((primes.drop 8).take 8).map fun p => BitVec.ofNat 64 (root 2 (p * 2 ^ 128))

def ror (x : BitVec 64) (n : Nat) : BitVec 64 := (x >>> n) ||| (x <<< (64 - n))
def sum0 (x : BitVec 64) : BitVec 64 := ror x 28 ^^^ ror x 34 ^^^ ror x 39
def sum1 (x : BitVec 64) : BitVec 64 := ror x 14 ^^^ ror x 18 ^^^ ror x 41
def sig0 (x : BitVec 64) : BitVec 64 := ror x 1 ^^^ ror x 8 ^^^ (x >>> 7)
def sig1 (x : BitVec 64) : BitVec 64 := ror x 19 ^^^ ror x 61 ^^^ (x >>> 6)
def ch (x y z : BitVec 64) : BitVec 64 := (x &&& y) ^^^ (~~~x &&& z)
def maj (x y z : BitVec 64) : BitVec 64 := (x &&& y) ^^^ (x &&& z) ^^^ (y &&& z)

/-- Big-endian value of some bytes. -/
def beVal (bs : List Byte) : Nat := bs.foldl (fun n b => 256 * n + b.toNat) 0
def beBytes (n v : Nat) : List Byte := (List.range n).map fun i => BitVec.ofNat 8 (v / 256 ^ (n - 1 - i))

/-- The message schedule of a block, last word first. -/
def schedule (block : List (BitVec 64)) : List (BitVec 64) :=
  (List.range 64).foldl (fun w _ => (sig1 (w.getD 1 0) + w.getD 6 0 + sig0 (w.getD 14 0) + w.getD 15 0) :: w) block.reverse

/-- One round on the working variables a to h. -/
def round (v : List (BitVec 64)) (kw : BitVec 64 × BitVec 64) : List (BitVec 64) :=
  match v with
  | [a, b, c, d, e, f, g, h] =>
    let t1 := h + sum1 e + ch e f g + kw.1 + kw.2
    [t1 + sum0 a + maj a b c, a, b, c, d + t1, e, f, g]
  | _ => v

/-- A block of 128 bytes is taken into the hash value. -/
def compress (ks : List (BitVec 64)) (hs : List (BitVec 64)) (block : List Byte) : List (BitVec 64) :=
  let words := (List.range 16).map fun i => BitVec.ofNat 64 (beVal ((block.drop (8 * i)).take 8))
  List.zipWith (· + ·) hs ((ks.zip (schedule words).reverse).foldl round hs)

/-- The message with its padding and its length. -/
def padded (bs : List Byte) : List Byte :=
  bs ++ 0x80#8 :: List.replicate ((239 - bs.length % 128) % 128) 0 ++ beBytes 16 (8 * bs.length)

def digest (bs : List Byte) : List Byte :=
  let msg := padded bs
  let ks := konst
  let hs := (List.range (msg.length / 128)).foldl (fun hs i => compress ks hs ((msg.drop (128 * i)).take 128)) init
  (hs.take 6).flatMap fun h => beBytes 8 h.toNat

end Sys2Proof.Machine.Sha
end

