-- ==== Sys2Proof/Machine/HostCmd.lean ====
section
/-! DEFINITION. The host endpoint: commands (14 R366, Table 14.3; 12 R289, R290), registers (14 R365, R368; 00 R7), signed objects
(17 R408, R409; 04 R103), writes through BAR2/3 (14 R365), and the management window (19 R434; 17 R411). -/

namespace Sys2Proof.Machine

/-! ### Physical memory as the device reads and writes it, page by page -/

def State.paBytes (s : State) (pa n : Nat) : List Byte := (List.range n).map fun i => s.dramByte (s.resolve (pa + i))
def State.paVal (s : State) (pa n : Nat) : Nat := leVal (s.paBytes pa n)
/-- A long write of the device, in 64-byte pieces. -/
def State.deviceWrites (s : State) (pa : Nat) : Nat → List Byte → State
  | 0, _ => s
  | fuel + 1, bs => if bs.isEmpty then s else (s.deviceWrite pa (bs.take 64)).deviceWrites (pa + 64) fuel (bs.drop 64)

/-! ### Signed objects (17 R408, R409) -/

def errSigFail : Nat := 0x32
def errDtImage : Nat := 0x11
def errBadCtxDesc : Nat := 0x12

structure SignedObj where
  kind : Nat
  svn : Nat
  /-- header and body -/
  signed : List Byte
  body : List Byte
  deriving DecidableEq, Repr

/-- An object that Boxwood accepts, from its header and body and its two signatures, or the DETAIL of its SIGFAIL entry. -/
def State.acceptObject (s : State) (signed edSig mlSig : List Byte) : Except Nat SignedObj :=
  let v := leVal (signed.take 64)
  let kind := bitsN v 32 4
  let form := bitsN v 0 32 = 0x47534556 && kind ≤ 3 && bitsN v 36 12 = 0 && v / 2 ^ 96 = 0
  let ed := Config.edValid kind signed edSig
  let ml := Config.mldsaValid kind signed mlSig
  let low := decide (bitsN v 48 16 < SMap.get 0 s.bx.minSvn kind)
  if form && ed && ml && !low then .ok { kind := kind, svn := bitsN v 48 16, signed := signed, body := signed.drop 64 }
  else .error (kind + (!ed).toNat * 16 + (!ml).toNat * 32 + low.toNat * 64)

/-- The object at an address. -/
def State.readObject (s : State) (pa : Nat) : Except Nat SignedObj :=
  let blen := bitsN (s.paVal pa 64) 64 32
  s.acceptObject (s.paBytes pa (64 + blen)) (s.paBytes (pa + 64 + blen) 64) (s.paBytes (pa + 128 + blen) 3309)

/-- SVN and SHA-384 of an object. -/
def SignedObj.measure (o : SignedObj) : Nat × List Byte := (o.svn, Sha.digest o.signed)

/-- A SIGFAIL entry, by Boxwood. -/
def State.sigFail (s : State) (detail : Nat) : State :=
  s.errorAll errSigFail (BitVec.ofNat 64 detail) 15 (if s.bx.standby then 4 else 0)

/-- An accepted object raises the stored minimum. -/
def State.raiseSvn (s : State) (kind svn : Nat) : State :=
  { s with bx := { s.bx with minSvn := SMap.ins s.bx.minSvn kind (Nat.max svn (SMap.get 0 s.bx.minSvn kind)) } }

/-! ### Acceptance of a command (14 R366) -/

/-- A host write through the endpoint is still on its way. -/
def State.hostWriting (s : State) : Bool :=
  let host (st : Stamp) : Bool := st.issuer.toNat / 2 ^ 20 = 14
  s.hasJob .hostMemoryWrite || s.retries.any (fun r => host r.stamp) || s.agenda.any fun j => j.ev = .multicastWrite && host j.inp.stamp

/-- A command write: dropped without credit or before READY; accepted, it is performed after every earlier host write. The subject's
flag marks a command that is accepted already. -/
def State.hostCommand (s : State) (ev : Instr) (run : State → State) : State :=
  let x := s.inp
  if !x.flag ∧ (s.mgmt.stage < 5 ∨ s.host.credit = 0) then ({ s with host := { s.host with drop := true } } : State).raise causeDrop
  else
    let s := if x.flag then s else { s with host := { s.host with credit := s.host.credit - 1 } }
    if s.hostWriting then s.schedInp (s.stc + 1) phTask ev { x with flag := true } else run s

/-- The command waits for another to finish, and is tried again. -/
def State.commandAgain (s : State) (ev : Instr) (x : Input) : State := s.schedInpFree phTask ev { x with flag := true }

/-- Address of a command block. -/
def Input.block (x : Input) : Nat := x.addr.toNat / 64 * 64 % 2 ^ 43

def execHcmdLaunch (s : State) : Out :=
  .next (s.hostCommand .hcmdLaunch fun s =>
    let s := s.present none s.inp.ctx.toNat (s.inp.addr.toNat / 64 * 64)
    { s with host := { s.host with credit := Nat.min 64 (s.host.credit + 1) } })

/-! ### CTXNEW (12 R289, Table 12.1; 04 R97, R103; 16 Table 16.5) -/

def paOk (a : Nat) : Bool := decide (a < 2 ^ 43)

/-- A constant-table image. -/
def State.readKonsts (s : State) (a : Nat) : List Konst :=
  let mask := s.paVal (a + 1024) 8
  (List.range 64).map fun n =>
    ⟨BitVec.ofNat 64 (s.paVal (a + 16 * n) 8), BitVec.ofNat 64 (s.paVal (a + 16 * n + 8) 8), decide (bitsN mask n 1 = 1)⟩

/-- A decode-table image's body: the table and its generation. -/
def readDecodeTab (body : List Byte) : Option (SMap (BitVec 16) × BitVec 4) :=
  let es := (List.range 1024).zip (chunks 2 1024 body)
  let gen := leVal (body.drop 2048)
  let ok (e : Nat × Nat) : Bool :=
    e.2 < 32768 || (bitsN e.2 10 5 = 0 && (opcSeqs (e.2 % 1024)).isSome && e.1 ≠ 0 && e.1 < 0x3C0)
  if body.length = 2056 && gen < 16 && es.all ok then
    some ((es.filter fun e => e.2 ≠ 0).map (fun e => (e.1, BitVec.ofNat 16 e.2)), BitVec.ofNat 4 gen)
  else none

/-- A mirror descriptor whose values are those of Table 16.5; one that mirrors nothing has no partner copy (log 126). -/
def State.readMirror (s : State) (a : Nat) : Option MirrorDesc :=
  let v (off n : Nat) : Nat := s.paVal (a + off) n
  let m : MirrorDesc :=
    { tapbase := v 0 8, tslog := v 8 8 % 32, mbase := v 0x10 8, srcbase := v 0x18 8, mlen := v 0x20 8, interval := v 0x28 2, ckpt := v 0x38 8,
      dbound := (List.range 1024).map fun q => (q, v (0x40 + q) 1) }
  if m.tapbase % 2 ^ 32 = 0 && m.tapbase < 2 ^ 57 && 16 ≤ m.tslog && m.tslog ≤ 26 && paOk m.mbase && (m.mlen = 0 || paPkg m.mbase ≠ s.pkg) &&
    m.srcbase < 2 ^ 57 && m.mlen % 64 = 0 && 1 ≤ m.interval && paOk m.ckpt then some m else none

/-- The context of a descriptor; or its error, with the DETAIL of a SIGFAIL entry where there is one. -/
def State.readContext (s : State) (num d : Nat) : Except (Nat × Option Nat) Context :=
  let v := s.paVal d 128
  let f (off lo n : Nat) : Nat := bitsN v (8 * off + lo) n
  let base (off : Nat) : Nat := f off 0 64
  let mir := base 0x50
  let md := s.readMirror mir
  let ok := paOk d && d % 128 = 0 && (s.ctx? num).isNone && decide (s.ctxs.length < 8) && base 0 < 2 ^ 43 && base 0 % 512 = 0 &&
    paOk (base 8) && paOk (base 0x10) && f 0x18 1 15 = 0 && f 0x18 27 5 = 0 && 1 ≤ f 0x18 16 11 && f 0x18 16 11 ≤ 1024 &&
    paOk (base 0x20) && base 0x20 % 2 ^ 24 = 0 && f 0x28 16 16 = 0 && paOk (base 0x30) && base 0x30 % 64 = 0 && 1 ≤ f 0x38 0 32 &&
    paOk (base 0x40) && base 0x40 % 64 = 0 && 16 ≤ f 0x48 0 16 && paOk mir && (mir = 0 || md.isSome) && f 0x58 0 8 ≠ 0 && v / 2 ^ 712 = 0
  if !ok then .error (errBadCtxDesc, none)
  else
    let dflt (x y : Nat) : Nat := if x = 0 then y else x
    let x : Context :=
      { ptroot := base 0, ctab := if base 0x10 = 0 then none else some (s.readKonsts (base 0x10)), immsel := decide (f 0x18 0 1 = 1),
        nqueue := f 0x18 16 11, pbound := dflt (f 0x18 32 32) 52500, savebase := base 0x20, saveslots := f 0x28 0 16,
        tslice := dflt (f 0x28 32 32) 1050000, spillbase := base 0x30, spillcap := f 0x38 0 32, errbase := base 0x40, errcap := f 0x48 0 16,
        mirror := if mir = 0 then none else md, mirrorPa := mir, diemask := BitVec.ofNat 8 (f 0x58 0 8) }
    if base 8 = 0 then .ok x
    else
      match s.readObject (base 8) with
      | .error e => .error (errDtImage, some e)
      | .ok o =>
        match if o.kind = 2 then readDecodeTab o.body else none with
        | some (t, g) => .ok { x with dtab := some t, dtgen := g, image := o.signed }
        | none => .error (errDtImage, none)

def State.ctxNew (s : State) (num blk : Nat) : State :=
  match s.readContext num (s.paVal (blk + 8) 8) with
  | .ok x =>
    let s : State := { s with ctxs := SMap.ins s.ctxs num x }
    let s := if x.image.isEmpty then s else s.raiseSvn 2 (leVal ((x.image.drop 6).take 2))
    s.hostResult blk 0
  | .error (code, detail) => (match detail with
    | some e => s.sigFail e
    | none => s).hostResult blk code

def execHcmdCtxnew (s : State) : Out := .next (s.hostCommand .hcmdCtxnew fun s => s.ctxNew s.inp.ctx.toNat s.inp.block)

/-! ### CTXEND (12 R290) -/

/-- Every record of a context ends: a running one at its next instruction boundary with no save. `code` says why. -/
def State.stopContext (s : State) (ctx code final : Nat) : State :=
  let l := s.launches.map fun (l : Launch) => if l.ctx = ctx ∧ l.complete = false then { l with final := final } else l
  let s : State := { s with launches := l }
  (s.recs.filter fun r => r.ctx = ctx && r.live).foldl (fun s r =>
    match s.coreOfTask r.id with
    | some n => if r.st = .run then s.endTask n code 0 0 0 else s.endRec r.id none false
    | none => s.endRec r.id none false) s

def State.ctxEnd (s : State) (ctx blk : Nat) : State :=
  match s.ctx? ctx with
  | some x =>
    if x.ending then s.hostResult blk errBadField
    else
      let s := (s.modCtx ctx fun x => { x with ending := true }).stopContext ctx endCtx errCtxGone
      (s.checkContext ctx).hostResult blk 0
  | none => s.hostResult blk errBadField

def execHcmdCtxend (s : State) : Out := .next (s.hostCommand .hcmdCtxend fun s => s.ctxEnd s.inp.ctx.toNat s.inp.block)

/-! ### INVAL (14 Table 14.3; 09 R274) -/

def PageTr.meets (p : PageTr) (va n : Nat) : Bool := decide (p.va < va + n) && decide (va < p.va + p.size)
/-- Frames of a range that a core of the context has pinned. -/
def Core.pinnedIn (c : Core) (va n : Nat) : List Nat :=
  pinKeys (((c.cmds.filter fun m => !m.pins.isEmpty).flatMap (·.pages) ++ c.tsk.copies.flatMap fun k => k.spages ++ k.dpages).filter fun p =>
    p.meets va n)

def State.inval (s : State) (ctx blk : Nat) : State :=
  let va := s.paVal (blk + 8) 8
  let n := s.paVal (blk + 16) 8
  if (s.ctx? ctx).isNone ∨ n % 65536 ≠ 0 then s.hostResult blk errBadField
  else
    let drop (c : Core) : Core := if c.sys.ctx.toNat = ctx then
      { c with tsk := { c.tsk with tcache := c.tsk.tcache.filter fun p => !p.meets va n } } else c
    let held := (s.cores.filter fun c => c.2.sys.ctx.toNat = ctx).flatMap (fun c => c.2.pinnedIn va n) ++
      pinKeys (((s.rwins.filter fun w => w.ctx = ctx).flatMap (·.pages)).filter fun p => p.meets va n)
    let recs := s.recs.map fun (r : TaskRec) => { r with residue := r.residue.map fun x => { x with core := drop x.core } }
    let s : State := { s with cores := s.cores.map (fun c => (c.1, drop c.2)), recs := recs }
    ({ s with invals := s.invals ++ [{ result := blk, ctx := ctx, pages := held }] } : State).invalsDone

def execHcmdInval (s : State) : Out := .next (s.hostCommand .hcmdInval fun s => s.inval s.inp.ctx.toNat s.inp.block)

/-! ### EXPORT and UNEXPORT (14 R357, R359) -/

/-- The entry that a command block names. -/
def State.exportEnt (s : State) (blk : Nat) : Option ExportEnt :=
  let v := s.paVal (blk + 8) 8
  let page := s.paVal (blk + 16) 8
  s.exports.find? fun e => e.pkg = bitsN v 0 4 && e.ctx = bitsN v 4 3 && e.page = page

def State.changeExport (s : State) (e : ExportEnt) (blk : Nat) (next : Option (Nat × Bool × Bool)) : State :=
  let l := s.exports.map fun (x : ExportEnt) => if x = e then { x with removing := some blk, next := next } else x
  (({ s with exports := l } : State).tellImporters e).exportsDone

def State.export_ (s : State) (ev : Instr) (x : Input) : State :=
  let blk := x.block
  let v := s.paVal (blk + 8) 8
  let page := s.paVal (blk + 16) 8
  let frame := s.paVal (blk + 24) 8
  let write := decide (bitsN v 7 1 = 1)
  let large := decide (bitsN v 8 1 = 1)
  if 2 ^ 23 ≤ page ∨ paOk frame = false ∨ paPkg frame ≠ s.pkg ∨ frame % (if large then 2 ^ 25 else 65536) ≠ 0 then s.hostResult blk errBadField
  else
    match s.exportEnt blk with
    | some e => if e.removing.isSome then s.commandAgain ev x else s.changeExport e blk (some (frame, large, write))
    | none =>
      let e : ExportEnt := { pkg := bitsN v 0 4, ctx := bitsN v 4 3, page := page, frame := frame, large := large, write := write }
      ({ s with exports := s.exports ++ [e] } : State).hostResult blk 0

def State.unexport (s : State) (ev : Instr) (x : Input) : State :=
  match s.exportEnt x.block with
  | some e => if e.removing.isSome then s.commandAgain ev x else s.changeExport e x.block none
  | none => s.hostResult x.block errBadField

def execHcmdExport (s : State) : Out := .next (s.hostCommand .hcmdExport fun s => s.export_ .hcmdExport s.inp)
def execHcmdUnexport (s : State) : Out := .next (s.hostCommand .hcmdUnexport fun s => s.unexport .hcmdUnexport s.inp)

/-! ### MIGRATE and MCGROUP (14 R360, R364) -/

def State.migrate (s : State) (x : Input) : State :=
  let blk := x.block
  let old := s.paVal (blk + 8) 8
  let new := s.paVal (blk + 16) 8
  let size := s.paVal (blk + 24) 8
  let n := if size = 1 then 2 ^ 25 else 65536
  let ok (a : Nat) : Bool := paOk a && paPkg a = s.pkg && a % n = 0
  if 1 < size ∨ ok old = false ∨ ok new = false ∨ old = new then s.hostResult blk errBadField
  else if (s.migration? (paDie old)).isSome then s.commandAgain .hcmdMigrate x
  else s.startMigration { die := paDie old, old := old, new := new, size := n, result := some blk }

def execHcmdMigrate (s : State) : Out := .next (s.hostCommand .hcmdMigrate fun s => s.migrate s.inp)

def State.mcGroup (s : State) (blk : Nat) : State :=
  let v := s.paVal (blk + 8) 8
  let g := bitsN v 0 8
  let k := bitsN v 8 5
  let ms := (List.range k).map fun i => s.paVal (blk + 16 + 8 * i) 8
  if k = 0 then
    if (SMap.get? s.groups g).isNone then s.hostResult blk errBadField
    else ({ s with groups := SMap.del s.groups g } : State).hostResult blk 0
  else if k < 2 ∨ 16 < k ∨ ms.all (fun m => paOk m && m % 65536 = 0) = false then s.hostResult blk errBadField
  else ({ s with groups := SMap.ins s.groups g ms } : State).hostResult blk 0

def execHcmdMcgroup (s : State) : Out := .next (s.hostCommand .hcmdMcgroup fun s => s.mcGroup s.inp.block)

/-! ### Registers (14 R368, Table 14.2; 00 R7; 19 Table 19.3) -/

/-- Before READY only the management window is served (19 R428). -/
def State.served (s : State) (off : Nat) : Bool := decide (5 ≤ s.mgmt.stage) || (decide (0x8000 ≤ off) && decide (off < 0x9000))

def State.clearCauses (s : State) (v : BitVec 16) : State :=
  { s with host := { s.host with icause := s.host.icause &&& ~~~v, told := s.host.told &&& ~~~v } }

def execIcauseWrite (s : State) : Out := .next (if s.served 0x18 then s.clearCauses (s.inp.val.setWidth 16) else s)

/-- A cause that is pending and not yet told raises its vector when its mask bit is written 1. -/
def State.writeMask (s : State) (v : BitVec 16) : State :=
  let s : State := { s with host := { s.host with imask := v } }
  ((List.range 7).map (· + 1)).foldl (fun s k =>
    if v.getLsbD k && s.host.icause.getLsbD k && !s.host.told.getLsbD k then
      ({ s with host := { s.host with told := s.host.told ||| (1#16 <<< k) } } : State).raiseVector k else s) s

def execImaskWrite (s : State) : Out := .next (if s.served 0x20 then s.writeMask (s.inp.val.setWidth 16) else s)

/-- A pending vector whose mask bit is cleared sends its message. -/
def State.sendPending (s : State) (v : Nat) : State :=
  if s.host.pba.getLsbD v && !(SMap.get 0 s.host.msix (2 * v + 1)).getLsbD 32 then
    ({ s with host := { s.host with pba := s.host.pba &&& ~~~(1#64 <<< v) } } : State).raiseVector v else s

/-- A word of the MSI-X table with a write of 8 bytes, or of 4 bytes at one half, in it. -/
def msixWord (old v : Word) (off n : Nat) : Word :=
  if n ≠ 4 then v
  else if off % 8 = 4 then (v <<< 32) ||| (old.setWidth 32).setWidth 64
  else (old >>> 32 <<< 32) ||| (v.setWidth 32).setWidth 64

/-- A write of n bytes at a BAR0 offset; read-only and unlisted ones ignore it. -/
def State.writeRegister (s : State) (off n : Nat) (v : Word) : State :=
  if s.served off = false then s
  else if off = 0x10 then
    { s with host := { s.host with drop := s.host.drop && !v.getLsbD 0, lrej := s.host.lrej && !v.getLsbD 3 } }
  else if 0x1000 ≤ off ∧ off < 0x1400 then
    let k := (off - 0x1000) / 8
    ({ s with host := { s.host with msix := SMap.put 0 s.host.msix k (msixWord (SMap.get 0 s.host.msix k) v off n) } } :
      State).sendPending (k / 2)
  else if off = 0x8080 then
    { s with bx := { s.bx with count1 := (BitVec.ofNat 16 s.bx.count1 &&& ~~~(v.extractLsb' 16 16)).toNat } }
  else s

/-- The subject's mark says that the register is LKSTAT of the subject's link. After a failed bring-up FWSTAGE alone is written (19
R428). -/
def execRegisterWrite (s : State) : Out :=
  .next (if s.mgmt.fail then s else if s.inp.mark then s.writeLkstat s.inp.link s.inp.val
    else s.writeRegister (s.inp.addr.toNat % 65536) s.inp.bytes.length s.inp.val)

/-- PCAP: at most 4800 W. The manual gives no result for less than 1000 W: some value of the range (log 4). -/
def State.writePcap (s : State) (w : Nat) : State :=
  let (w, s) := if w < 1000 then (1000 + Config.freeChoice s.freeCtr % 3801, { s with freeCtr := s.freeCtr + 1 }) else (Nat.min w 4800, s)
  ({ s with mgmt := { s.mgmt with pcap := w } } : State).kick

def execPcapWrite (s : State) : Out := .next (if s.mgmt.fail then s else s.writePcap (s.inp.val.toNat % 65536))

/-- A host write through BAR2/3: relaxed, at its home. -/
def State.hostWrite (s : State) (off : Nat) (bs : List Byte) : State :=
  let (st, s) := s.unitStamp 14 0 s.lead
  s.dramWrite (2 ^ 39 * s.pkg + off % 2 ^ 39) bs st none

/-- The subject's mark says that the access is a read, which leaves nothing but XOUT (16 Table 16.1). -/
def execHostMemoryWrite (s : State) : Out :=
  .next (if s.mgmt.stage < 5 then s else if s.inp.mark then s.readOut s.inp else s.hostWrite s.inp.addr.toNat s.inp.bytes)

/-! ### What a host read returns (14 Table 14.2; 19 Tables 19.3, 19.4; 17 Table 17.7; 01 Tables 1.3, 1.4). No read changes the machine but for XOUT of a version. -/

def HostRegs.status (h : HostRegs) : Nat := h.drop.toNat + 2 * h.standby.toNat + 4 * h.active.toNat + 8 * h.lrej.toNat

/-- MID (19 Table 19.4): GEN 1, the package, the dies not lost, PART. -/
def State.mid (s : State) : Nat := 1 + 16 * (s.pkg % 16) + 256 * (255 - s.lostMask % 256) + 65536 * 0x0058

def State.brstat (s : State) : Nat :=
  s.mgmt.stage % 8 + 8 * s.mgmt.fail.toNat + 256 * s.mgmt.code.toNat + 65536 * s.mgmt.cold.toNat

def Die.pstate (d : Die) : Nat :=
  if d.lost then 3 else match d.power with
    | .p2 => 1
    | .p3 => 2
    | _ => 0

def State.pstat (s : State) : Nat := (List.range 8).foldl (fun n d => n + 4 ^ d * (s.die d).pstate) (65536 * s.mgmt.deep.toNat)

def State.bxstat (s : State) : Nat :=
  s.bx.level % 4 + 4 * s.bx.sensor.toNat + 128 * s.bx.hold.toNat + 256 * s.bx.standby.toNat + 65536 * (s.bx.count1 % 65536)

def LcMap.word (m : LcMap) : Nat := m.phys % 32 + 256 * m.offline.toNat + 512 * m.moved.toNat + 65536 * (m.gen % 256)

/-- The 8 bytes at an aligned offset of BAR0. A WO register, a reserved bit and an unlisted offset read as 0 (00 R7, R8; 19 R434). -/
def State.barWord (s : State) (off : Nat) : Nat :=
  let h := s.host
  if off = 0x08 then h.credit
  else if off = 0x10 then h.status
  else if off = 0x18 then h.icause.toNat
  else if off = 0x20 then h.imask.toNat
  else if off = 0x28 then s.stc % 2 ^ 64
  else if off = 0x30 then h.lrejcode.toNat + 256 * h.lrejctx.toNat
  else if off = 0x38 then h.lrejaddr / 64 * 64 % 2 ^ 57
  else if 0x1000 ≤ off ∧ off < 0x1400 then (SMap.get 0 h.msix ((off - 0x1000) / 8)).toNat
  else if off = 0x2000 then h.pba.toNat
  else if off = 0x8000 then s.mid
  else if off = 0x8008 then s.brstat
  else if off = 0x8018 then s.mgmt.pcap
  else if off = 0x8020 then s.pstat
  else if 0x8040 ≤ off ∧ off < 0x8080 then
    let d := (off - 0x8040) / 8
    if (s.die d).lost then 0 else (SMap.get 0 s.mgmt.temp d).toNat
  else if off = 0x8080 then s.bxstat
  else if 0x8100 ≤ off ∧ off < 0x8500 then
    let d := (off - 0x8100) / 0x80
    let j := (off - 0x8100) % 0x80 / 8
    if j < 12 then (s.lcEntry (24 * d + 2 * j)).word + 2 ^ 32 * (s.lcEntry (24 * d + 2 * j + 1)).word
    else if j = 12 then (s.die d).lcspare.toNat
    else 0
  else 0

/-- A host read of n bytes of BAR0, through the endpoint of d0 or of d4; none where it is not served. While d0 lives, the endpoint of d4
serves offset 0x0010 alone (14 R369); a lost die serves nothing. -/
def State.hostRead (s : State) (d4 : Bool) (off n : Nat) : Option (List Byte) :=
  let bytes (w : Nat → Nat) : List Byte := (List.range n).map fun i => BitVec.ofNat 8 (w ((off + i) / 8 * 8) / 256 ^ ((off + i) % 8))
  if d4 ∧ (s.die 0).lost = false then
    if off / 8 = 2 ∧ off % 8 + n ≤ 8 then some (bytes fun _ => s.ep4.status) else none
  else if d4 = false ∧ (s.die 0).lost = true ∨ s.served off = false then none
  else some (bytes s.barWord)

/-- A host read of n bytes through BAR2/3; not served before READY (19 R428). -/
def State.hostMemoryRead (s : State) (off n : Nat) : Option (List Byte) :=
  if s.mgmt.stage < 5 then none else some (s.paBytes (2 ^ 39 * s.pkg + off % 2 ^ 39) n)

/-! ### The management window: signed objects and attestation (17 R402, R409, R411; 19 R434) -/

/-- A test package's header (17 Table 17.3). -/
def readTestPkg (body : List Byte) : Option TestPkg :=
  let v := leVal (body.take 32)
  let p : TestPkg := { duration := bitsN v 0 32, period := bitsN v 32 16, abortprio := bitsN v 48 3, npat := bitsN v 64 32,
                       expsig := BitVec.ofNat 128 (bitsN v 128 128) }
  if 32 ≤ body.length && 1024 ≤ p.duration && p.duration ≤ 2 ^ 24 && 1 ≤ p.period && bitsN v 51 13 = 0 then some p else none

/-- An accepted test package is installed on every die: each core falls due PERIOD seconds after its last pass. -/
def State.installTest (s : State) (p : TestPkg) : State :=
  (List.range 8).foldl (fun s d =>
    let s := s.modDie d fun x => { x with testPkg := some p }
    (List.range 26).foldl (fun s k =>
      let last := SMap.get 0 s.bx.lastPass (32 * d + k)
      s.schedInp (Nat.max s.stc (last + p.period * 1050000000)) phTask .testDue { die := d, phys := k, mark := true }) s) s

def State.fwStage (s : State) (pa : Nat) : State :=
  match s.readObject pa with
  | .error e => s.sigFail e
  | .ok o =>
    let m := o.measure
    if o.kind ≤ 1 then { s with bx := { s.bx with staged := SMap.ins s.bx.staged o.kind m } }
    else if o.kind = 2 then s.raiseSvn 2 o.svn
    else
      let s := s.raiseSvn 3 o.svn
      match readTestPkg o.body with
      | some p => ({ s with bx := { s.bx with meas := SMap.ins s.bx.meas 3 m } } : State).installTest p
      | none => s

def execFwstage (s : State) : Out := .next (s.fwStage (s.inp.addr.toNat % 2 ^ 43))

/-- Exactly n bytes. -/
def fit (n : Nat) (bs : List Byte) : List Byte := (bs ++ List.replicate n 0).take n

/-- Generations of every map together. -/
def State.remaps (s : State) : Nat := (List.range 8).foldl (fun n d => (s.die d).lcmap.foldl (fun n m => n + m.2.gen) n) 0

/-- The bytes of a report that its signatures cover (17 Table 17.5). -/
def State.reportBytes (s : State) (nonce : List Byte) : List Byte :=
  let hash (k : Nat) : List Byte := fit 48 (SMap.get (0, []) s.bx.meas k).2
  let images := Sha.digest (s.ctxs.flatMap fun c => c.2.image)
  let id := hash 1
  leBytes 8 0x54414556 ++ fit 32 nonce ++ leBytes 8 s.stc ++
  leBytes 8 (s.bx.alarm3.toNat + s.lostMask * 256 + s.bx.badFrames.length % 65536 * 65536 + 2 ^ 32 * (s.remaps % 65536)) ++
  hash 0 ++ hash 1 ++ hash 3 ++ fit 48 images ++ List.replicate 8 0 ++ fit 32 (Config.edPublic id) ++ fit 1952 (Config.mlPublic id)

def State.attest (s : State) (pa : Nat) : State :=
  let msg := s.reportBytes (s.paBytes pa 32)
  let id := fit 48 (SMap.get (0, []) s.bx.meas 1).2
  s.deviceWrites (pa + 64) 88 (msg ++ fit 64 (Config.edSign id msg) ++ fit 3309 (Config.mlSign id msg))

/-- The identity exists from stage 1 on (17 R410), and not after a level 3 erasure (R414). -/
def execAttreq (s : State) : Out :=
  .next (if s.mgmt.stage = 0 ∨ s.mgmt.fail = true ∨ s.bx.hold = true then s else s.attest (s.inp.addr.toNat % 2 ^ 43))

end Sys2Proof.Machine
end

