-- ==== Sys2Proof/Machine/BringUp.lean ====
section
/-! DEFINITION. Resets and bring-up (19 R427 to R430), and power states (19 R431). -/

namespace Sys2Proof.Machine

/-! ### Resets (19 R427) -/

/-- What a reset leaves: Boxwood's non-volatile store, the package's place in the rack, and the firmware installed; `alarm` says
whether ALARM3 stays. -/
def State.reboot (s : State) (cold alarm : Bool) : State :=
  let b := s.bx
  { State.reset with
    pkg := s.pkg
    nPkg := s.nPkg
    freeCtr := s.freeCtr
    mgmt := { cold := cold }
    bx := { minSvn := b.minSvn, badFrames := b.badFrames, lastPass := b.lastPass, maps := b.maps, spares := b.spares, staged := b.staged,
            meas := b.meas.filter fun m => decide (m.1 < 3), alarm3 := b.alarm3 && alarm } }

/-- The rise of all rails; the subject's mark says that a condition of Table 17.6 is present (17 R414). -/
def execColdReset (s : State) : Out := .next (s.reboot true s.inp.mark)
def execPcieReset (s : State) : Out := .next (s.reboot false true)
def execMresetGo (s : State) : Out := .next (if s.inp.val.getLsbD 0 then s.reboot false true else s)

/-! ### The stages (19 Table 19.1) -/

/-- The stamp clock is set; what is due later falls due as many cycles later. -/
def State.setClock (s : State) (t : Nat) : State :=
  let go (d : Nat) : Nat := t + (d - s.stc)
  let seq (x : SeqSt) : SeqSt := { x with last := t - (s.stc - x.last), retry := go x.retry, dueAt := x.dueAt.map go }
  let core (c : Core) : Core := { c.modSeqs seq with pend := c.pend.map fun p => { p with due := go p.due } }
  { s with stc := t, agenda := s.agenda.map (fun j => { j with due := go j.due }), cores := s.cores.map fun c => (c.1, core c.2) }

/-- Stage 4: the synchronisation flit loads every die's STC with 0 plus its path delay (19 R429). -/
def State.rebase (s : State) : State :=
  (List.range 8).foldl (fun s d => s.modDie d fun x => { x with stcOff := 0 }) (s.setClock 0)

/-- Firmware of a KIND as bring-up finds it: SVN and measurement of what was installed, else of what is in use, else of what the package
holds; or the DETAIL of its SIGFAIL (17 R409). The signatures of installed firmware were checked when it was installed. -/
def State.firmware (s : State) (kind : Nat) : Except Nat (Nat × List Byte) :=
  match (SMap.get? s.bx.staged kind).or (SMap.get? s.bx.meas kind) with
  | some m => if m.1 < SMap.get 0 s.bx.minSvn kind then .error (kind + 64) else .ok m
  | none =>
    let b := Config.bootFirmware kind
    match s.acceptObject b.1 b.2.1 b.2.2 with
    | .ok o => .ok o.measure
    | .error e => .error e

/-- The firmware of a KIND is the one in use. -/
def State.useFirmware (s : State) (kind : Nat) (m : Nat × List Byte) : State :=
  { s with bx := { s.bx with meas := SMap.ins s.bx.meas kind m, staged := SMap.del s.bx.staged kind } }

/-- Firmware that has run through a whole bring-up raises its minimum SVN (17 R409). -/
def State.svnOf (s : State) (kind : Nat) : State :=
  match SMap.get? s.bx.meas kind with
  | some m => s.raiseSvn kind m.1
  | none => s

/-- The repair record's maps are loaded; until then the reset values stand (01 R24). -/
def State.loadMaps (s : State) : State :=
  (List.range 8).foldl (fun s d => s.modDie d fun x =>
    { x with lcmap := SMap.get x.lcmap s.bx.maps d, lcspare := SMap.get x.lcspare s.bx.spares d, remap := [], poison := [] }) s

/-- READY: heartbeats, the dispatchers' periodic work, the patrol scrub and the idle timers run. -/
def State.ready (s : State) : State :=
  let t := s.stc
  let s : State := { s with host := { s.host with credit := 64 } }
  let s := (s.svnOf 1).svnOf 0
  let s := s.sched (t + 16384) phTask .queueRotation
  let s := [0, 4, 8, 12].foldl (fun s k => s.schedInpFree phTask .linkKeyExchange { link := k }) s
  let s := (List.range 8).foldl (fun s d =>
    let s := s.schedInp (t + 256) phTask .heartbeat { die := d }
    let s := s.schedInp (t + 256) phTask .heartbeat { die := d, ccw := true }
    s.schedInp (2 ^ 44 + t) phTask .patrolScrub { die := d }) s
  (List.range 192).foldl (fun s n => s.schedInp (t + 1024) phTask .powerStateEntry { die := dieOf n, core := some n }) s

/-- What a stage does once it is completed: a firmware taken into use at stages 1 and 2, or the DETAIL of the object that fails. -/
def State.stageWork (s : State) (k : Nat) : Except Nat State :=
  match k with
  | 0 => (s.firmware 1).map (s.useFirmware 1)
  | 1 => (s.firmware 0).map (s.useFirmware 0)
  | 2 => .ok s.loadMaps
  | 3 => .ok s.rebase
  | _ => .ok s.ready

/-- A stage completes, or fails: then bring-up stops, with the DETAIL of the object that failed. -/
def State.stageDone (s : State) (pass : Bool) : State :=
  let k := s.mgmt.stage
  let stop (code : Nat) : State := { s with mgmt := { s.mgmt with fail := true, code := BitVec.ofNat 8 code } }
  if 5 ≤ k ∨ s.mgmt.fail = true then s
  else if !pass then stop 0
  else match ({ s with mgmt := { s.mgmt with stage := k + 1 } } : State).stageWork k with
    | .ok t => t
    | .error e => stop e

def execBringupStage (s : State) : Out := .next (s.stageDone s.inp.flag)

/-- The exchange of rack bring-up, before any context exists (19 R430): package 0 sends it to each package; another package, at which it
gives package 0's STC with an error of at most 64 c, takes that, and never goes back. -/
def State.rackSync (s : State) (now : Nat) (err : Int) : State :=
  if s.mgmt.stage < 5 ∨ !s.ctxs.isEmpty then s
  else if s.pkg = 0 then ((List.range s.nPkg).drop 1).foldl (fun s k => s.sendTo k none 0) s
  else s.setClock (Nat.max s.stc ((now : Int) + Max.max (-64) (Min.min 64 err)).toNat)

def execRackStcSync (s : State) : Out := .next (s.rackSync s.inp.sent s.inp.offset)

/-! ### Power states (19 Table 19.2) -/

def p1After : Nat := 1024
def p2After : Nat := 2 ^ 20
def p3After : Nat := 2 ^ 24

def State.lastWindow (s : State) (n : Nat) : Nat := SMap.get 0 (s.die (dieOf n)).lastWin (lcoreOf n)
def State.coresOf (d : Nat) : List Nat := (List.range 24).map fun c => 24 * d + c
def State.corePower (s : State) (n : Nat) : Power := SMap.get .p0 (s.die (dieOf n)).corePower (lcoreOf n)

/-- A core without a window for 1024 c is in P1. -/
def State.coreIdle (s : State) (n : Nat) : State :=
  let d := dieOf n
  if s.windows.any (fun w => w.core = n) ∨ s.stc < s.lastWindow n + p1After then s
  else
    let s := s.modDie d fun x => { x with corePower := SMap.ins x.corePower (lcoreOf n) .p1 }
    if (State.coresOf d).all fun k => s.corePower k = .p1 then s.schedInp (s.stc + p2After) phTask .powerStateEntry { die := d, id := 2 } else s

/-- A die whose cores have all been in P1 for 2^20 c is in P2: its cores lose their contents. -/
def State.dieIdle (s : State) (d : Nat) : State :=
  let x := s.die d
  let calm (n : Nat) : Bool := s.corePower n = .p1 && decide (s.lastWindow n + p1After + p2After ≤ s.stc) && (s.core n).tsk.task.isNone
  if x.lost ∨ x.power ≠ .p0 ∨ (State.coresOf d).all calm = false ∨ s.windows.any (fun w => dieOf w.core = d) = true then s
  else
    let s := s.setDie d { x with power := .p2 }
    let s := (State.coresOf d).foldl (fun s n => s.modCore n fun c => { c with spm := {}, vec := { c.vec with vrf := [] } }) s
    s.schedInp (Nat.max s.stc (x.lastDram + p3After)) phTask .powerStateEntry { die := d, id := 3 }

/-- With every die in P3, nothing booked and the host link in L1, the package is in deep idle (19 R431). -/
def State.packageIdle (s : State) : State :=
  let still := s.mgmt.l1 && s.windows.isEmpty && (List.range 8).all fun d => (s.die d).lost || (s.die d).power = .p3
  if still then { s with mgmt := { s.mgmt with deep := true } } else s

/-- The host link enters L1 or leaves it. -/
def State.linkPower (s : State) (l1 : Bool) : State :=
  ({ s with mgmt := { s.mgmt with l1 := l1, deep := s.mgmt.deep && l1 } } : State).packageIdle

/-- A window has booked a group of the die's stack. -/
def State.stackBooked (s : State) (d : Nat) : Bool :=
  s.windows.any fun w => w.tmpl.entries.any fun e => e.kind = 4 && bitsN e.res 0 3 = d

/-- A die in P2 with no DRAM access for 2^24 c, and nothing of its stack booked, is in P3. -/
def State.stackIdle (s : State) (d : Nat) : State :=
  let x := s.die d
  if x.lost ∨ x.power ≠ .p2 then s
  else if s.stc < x.lastDram + p3After then s.schedInp (x.lastDram + p3After) phTask .powerStateEntry { die := d, id := 3 }
  else if s.stackBooked d then s.schedInp (s.stc + 1) phTask .powerStateEntry { die := d, id := 3 }
  else (s.setDie d { x with power := .p3 }).packageIdle

def State.powerDown (s : State) (x : Input) : State :=
  match x.core, x.id with
  | some n, _ => s.coreIdle n
  | none, 2 => s.dieIdle x.die
  | none, 3 => s.stackIdle x.die
  | none, _ => s.linkPower x.flag

def execPowerStateEntry (s : State) : Out := .next (s.powerDown s.inp)

/-- A unit that a placement needs is awake. -/
def State.powerUp (s : State) (x : Input) : State :=
  let s := s.modDie x.die fun d =>
    { d with power := .p0, corePower := match x.core with | some n => SMap.ins d.corePower (lcoreOf n) .p0 | none => d.corePower }
  let s : State := { s with mgmt := { s.mgmt with deep := false } }
  -- a die that wakes for its stack or its links alone may go back
  if x.core.isNone then s.schedInp (s.stc + p2After) phTask .powerStateEntry { die := x.die, id := 2 } else s

def execPowerStateExit (s : State) : Out := .next (s.powerUp s.inp)

end Sys2Proof.Machine
end

