-- ==== Sys2Proof/Machine/Reliability.lean ====
section
/-! DEFINITION. Memory errors (17 R393 to R396), frame retirement (R397, R398), core memories (R399), redundant runs (R400, R401) and
the in-field test (R402 to R405; 01 R25). -/

namespace Sys2Proof.Machine

/-! ### DRAM (17 R393 to R397) -/

def errSramUe : Nat := 0x30
def errCoreFail : Nat := 0x31

/-- A frame is to be retired; KIND says whether for an uncorrectable codeword. -/
def State.retire (s : State) (f : Nat) (uncorrectable : Bool) : State :=
  if s.agenda.any fun j => j.ev = .frameRetirement && j.inp.id = f then s
  else s.schedInp s.stc phTask .frameRetirement { id := f, flag := uncorrectable }

/-- One frame of a die at a time: the migration into a free frame of the stack begins; with the remap table full the frame stays in
service. -/
def State.retireFrame (s : State) (f : Nat) (uncorrectable : Bool) : State :=
  let d := paDie (f * 65536)
  let x := s.die d
  if x.lost ∨ (SMap.get? x.remap f).isSome = true then s
  else if (s.migration? d).isSome then s.schedInpFree phTask .frameRetirement { id := f, flag := uncorrectable }
  else if 256 ≤ x.remap.length then s.errorDie errBflFull (BitVec.ofNat 64 (f % 2 ^ 23)) d
  else
    let (new, s) := s.newFrame d
    s.startMigration { die := d, old := f * 65536, new := new, size := 65536, retirement := some uncorrectable }

def execFrameRetirement (s : State) : Out := .next (s.retireFrame s.inp.id s.inp.flag)

/-- A corrected codeword is written back and counted; one that needed it before is a repeating error (17 R395). -/
def State.corrected (s : State) (pa : Nat) : State :=
  let p := s.resolve pa
  let d := paDie p
  let x := s.die d
  let again := SMap.get false x.repaired (p / 32)
  let s := s.setDie d { x with corrections := SMap.ins x.corrections (paFrame p) (SMap.get 0 x.corrections (paFrame p) + 1),
                               repaired := SMap.put false x.repaired (p / 32) true }
  if again then s.retire (paFrame p) false else s

def execEccCorrection (s : State) : Out := .next (s.corrected s.inp.addr.toNat)

/-- A load of DRAM asked for the codeword. -/
def Cmd.asks (m : Cmd) (pa : Nat) : Bool :=
  match m.op with
  | .lddram .. => m.pages.any fun p => decide (p.pa ≤ pa) && decide (pa < p.pa + p.size) &&
      rangesMeet (dramRows m.addr m.pitch) [(p.va + (pa - p.pa) / 32 * 32, 32)]
  | _ => false

/-- Its data is served 64 c late. -/
def State.lateData (s : State) (pa : Nat) : State :=
  let late (j : Job) : Bool := match j.ev with
    | .lddramReturn n id => ((s.core n).cmd? id).any fun m => m.asks pa
    | _ => false
  let js := s.agenda.filter late
  js.foldl (fun s j => { s with agenda := insJob { j with due := j.due + 64 } s.agenda }) { s with agenda := s.agenda.filter fun j => !late j }

/-- A version's copies lose a page of a frame (17 R396). -/
def State.loseFrame (s : State) (f : Nat) : State :=
  let inn (fs : SMap Nat) : Bool := fs.any fun p => s.resolve p.2 = f * 65536
  let l := s.dir.map fun (e : DirEnt) =>
    let e := { e with copies := e.copies.filter fun c => !inn c.2 }
    if inn e.rframes then { e with repl := false, rframes := [] } else e
  let s : State := { s with dir := l }
  s.loseAll (s.dir.filter fun e => inn e.frames)

/-- An uncorrectable codeword: marked, the copies of versions that it lies in lost, its frame retired. -/
def State.uncorrectable (s : State) (pa : Nat) : State :=
  let p := s.resolve pa
  let s := s.modDie (paDie p) fun d => { d with poison := SMap.put false d.poison (p / 32) true }
  (s.loseFrame (paFrame p)).retire (paFrame p) true

/-- The second read of a failed codeword: the subject's flag says that it fails too. -/
def execEccReread (s : State) : Out :=
  .next (if s.inp.flag then s.uncorrectable s.inp.addr.toNat else s.lateData s.inp.addr.toNat)

/-- The patrol scrub of a die: what it finds uncorrectable is dealt with at once; its next pass begins within 2^45 c. -/
def execPatrolScrub (s : State) : Out :=
  .next (if s.inp.flag then s.uncorrectable s.inp.addr.toNat
    else s.schedInp (2 ^ 44 + s.stc) phTask .patrolScrub { die := s.inp.die })

/-! ### Core memories (17 R399) -/

/-- What is booked on a core leaves it: its map changes (01 R25), or it takes no window before its test (17 R399). -/
def State.clearCore (s : State) (n : Nat) : State :=
  (s.windows.filter fun w => w.core = n && decide (w.task < 2 ^ 32)).foldl (fun s w =>
    match s.rec? w.task with
    | some r => if (s.core n).tsk.task = some r.id then s
                else if r.residue.isSome then s.unplaceRestore r.id else s.restart r.id
    | none => s) s

/-- A double-bit error ends the core's task, whose record restarts elsewhere; the physical core takes no window before its test. -/
def State.sramError (s : State) (n : Nat) : State :=
  let d := dieOf n
  let p := s.physOf n
  let s := s.modDie d fun x => { x with mustTest := if x.mustTest.contains p then x.mustTest else x.mustTest ++ [p] }
  let s := match s.recOf n with
    | some r =>
      let s := s.errorTask n errSramUe (BitVec.ofNat 64 (d + 8 * p)) 0 s.stc 0
      (s.setRec { r with avoid := r.avoid ++ [s.physId n] }).endTask n endRestart 0 0 0
    | none => s
  ((s.clearCore n).markDue d p).kick

def execSramDoubleBitError (s : State) : Out := .next (s.sramError (s.inp.core.getD 0))

/-! ### Redundant runs (17 R400, R401) -/

/-- What a run has of a version: its bits, nothing yet, or nothing any more. -/
inductive RunResult where
  | bits (h : HeldPub)
  | pending
  | none
  deriving DecidableEq, Repr

def State.runResult (s : State) (name : Nat) (r : Option TaskRec) (kind : RunKind) : RunResult :=
  match s.heldPubs.find? fun h => h.name = name && h.kind = kind with
  | some h => .bits h
  | none => if r.any (·.live) then .pending else .none

/-- A run's record, of those that declare the version. -/
def State.runOf (s : State) (name : Nat) (kind : RunKind) : Option TaskRec :=
  s.recs.find? fun r => r.kind = kind && r.tiles.any fun t => t.1 = name && t.2

def dropHeld (name : Nat) (s : State) : State :=
  { s with heldPubs := s.heldPubs.filter fun h => !(h.name = name && decide (h.kind ≠ .verification)) }

/-- The decided bits are published as the run's: its lineage goes out now under the publish's own stamp, from the physical core that
computed them (00 R10; 01 R26), and the switch follows its settle time (13 R335). -/
def State.sealRun (s : State) (name : Nat) (h : HeldPub) (r : TaskRec) : State :=
  if !s.shardRoom name r then s.schedInpFree phTask .redundantRunCompare { id := name }
  else
    let s := dropHeld name s
    let s : State := { s with heldPubs := s.heldPubs ++ [h] }
    let (e, s) := s.enterPublish r name h.audit h.stamp
    let s := s.report h.pcore h.die r name e.depth h.audit h.stamp
    s.schedInp (s.stc + (if s.homeOf name = h.die then 256 else 512)) phSwitch .redundantRunCompare { id := name, flag := true }

/-- The tie-break run. -/
def State.tieBreak (s : State) (a b : TaskRec) : State :=
  match s.launchOf a with
  | some l => (s.addRec l .redC a.wid a.param a.prio 0 a.die none 0 ((a.avoid ++ b.avoid).eraseDups)).2
  | none => s

/-- The core of a run is due for test: of its bits, the one that computed them. -/
def State.blame (s : State) (r : TaskRec) (x : RunResult) : State :=
  match x with
  | .bits h => s.markDue h.die h.pcore
  | _ => s.markDue (dieOf r.core) (s.physOf r.core)

/-- No majority: the version is POISONED. -/
def State.noVote (s : State) (name : Nat) : State := ((dropHeld name s).errorName errPoisonOp name (s.homeOf name)).poison [name]

/-- Table 17.2 for a version, as far as its runs have come; or the switch of the decided bits. -/
def State.vote (s : State) (name : Nat) (second : Bool) : State :=
  let switching := s.hasJobInp .redundantRunCompare { id := name, flag := true }
  match s.dirEnt name, s.runOf name .redA, s.runOf name .redB with
  | some e, some a, some b =>
    if second then
      match s.heldPubs.find? fun h => h.name = name && decide (h.kind ≠ .verification) with
      | some h =>
        let s := ((s.installVersion name h.base h.shadows).sealed name)
        let s := dropHeld name s
        [a, b].foldl (fun s r => s.tryReturn r.id) s
      | none => s
    else if switching then s
    else if e.st ≠ .empty ∧ e.st ≠ .lost then dropHeld name s
    else
      let c := s.runOf name .redC
      let decideC (s : State) : State := match s.runResult name c .redC, c with
        | .bits h, some rc =>
          (match s.runResult name (some a) .redA, s.runResult name (some b) .redB with
           | .bits x, y =>
             if x.same h then
               let s := match y with | .bits z => if z.same h then s else s.blame b y | _ => s.blame b y
               s.sealRun name h rc
             else (match y with
               | .bits z => if z.same h then (s.blame a (.bits x)).sealRun name h rc else s.noVote name
               | _ => s.noVote name)
           | x, .bits z => if z.same h then (s.blame a x).sealRun name h rc else s.noVote name
           | _, _ => s.noVote name)
        | .none, some _ => s.noVote name
        | _, none => s.tieBreak a b
        | _, _ => s
      match s.runResult name (some a) .redA, s.runResult name (some b) .redB with
      | .bits x, .bits y => if x.same y then s.sealRun name x a else decideC s
      | .pending, _ => s
      | _, .pending => s
      | _, _ => decideC s
  | _, _, _ => s

def execRedundantRunCompare (s : State) : Out := .next (s.vote s.inp.id s.inp.flag)

/-! ### The in-field test (17 R402 to R405) -/

/-- One second: 10.5 x 100 MHz (19 R429). -/
def second : Nat := 1050000000
/-- Key of a physical core. -/
def coreKey (d phys : Nat) : Nat := 32 * d + phys
/-- Logical core that a physical core is bound to. -/
def State.boundTo (s : State) (d phys : Nat) : Option Nat :=
  (State.coresOf d).find? fun n => (s.lcEntry n).phys = phys && !(s.lcEntry n).offline
def State.isSpare (s : State) (d phys : Nat) : Bool := (s.die d).lcspare.getLsbD phys
def testInput (d phys : Nat) (core : Option Nat) : Input := { die := d, core := core, phys := phys }

def State.hasTest (s : State) (d phys : Nat) : Bool :=
  (SMap.get? (s.die d).testing phys).isSome || s.windows.any (fun w => w.task = testTask phys && dieOf w.core = d) ||
  s.agenda.any fun j => j.ev = .testScanStart && j.inp.die = d && j.inp.phys = phys

/-- A core falls due, or a due core is looked at again: bound, it gets a test window as for a record of priority 0; a spare is tested
at once, and so is a core that failed before the last reset (01 R25). -/
def State.dueForTest (s : State) (d phys : Nat) (timer : Bool) : State :=
  let x := s.die d
  if x.lost ∨ s.hasTest d phys = true then s
  else
    match x.testPkg with
    | none => s
    | some p =>
      if timer ∧ s.stc < SMap.get 0 s.bx.lastPass (coreKey d phys) + p.period * second then s
      else
        let s := s.setDie d { x with due := if x.due.contains phys then x.due else x.due ++ [phys] }
        match s.boundTo d phys with
        | some n =>
          let t : Template := { len := 256 + p.duration + 1024 }
          if s.mgmt.thermal.contains d then s
          else
            match s.placeOn n 0 [] t with
            | some t0 =>
              let s := s.addWindow { task := testTask phys, core := n, t0 := t0, pre := 0, tmpl := t, order := 0 }
              s.schedInp (t0 + 256) phTask .testScanStart (testInput d phys (some n))
            | none => s
        | none => if s.isSpare d phys || !x.failed.contains phys then s.schedInp s.stc phTask .testScanStart (testInput d phys none) else s

def execTestDue (s : State) : Out := .next (s.dueForTest s.inp.die s.inp.phys s.inp.mark)

/-- A booked scan begins in its window, and in none that an abort is about to release (17 R404). -/
def State.scanDue (s : State) (x : Input) : Bool :=
  x.core.isNone ||
    (s.windows.any (fun w => w.task = testTask x.phys && dieOf w.core = x.die && decide (w.t0 + 256 = s.stc)) &&
     !s.agenda.any fun j => j.ev = .testAbort && j.inp.flag && j.inp.die = x.die && j.inp.phys = x.phys)

/-- The scan runs for DURATION; the core keeps nothing. -/
def State.scanStart (s : State) (x : Input) : State :=
  match if s.scanDue x then (s.die x.die).testPkg else none with
  | none => s
  | some p =>
    let s := s.modDie x.die fun d => { d with testing := SMap.ins d.testing x.phys s.stc }
    let s := match x.core with
      | some n => s.modCore n fun c => { nextCmd := c.nextCmd, vec := { nextId := c.vec.nextId }, mx := { nextId := c.mx.nextId } }
      | none => s
    let t := s.stc + p.duration
    s.schedInp t phTask .testScanEnd { x with sig := Config.scanSignature (coreKey x.die x.phys) t }

def execTestScanStart (s : State) : Out := .next (s.scanStart s.inp)

/-- The repair record is persisted. -/
def State.persist (s : State) (d : Nat) : State :=
  { s with bx := { s.bx with maps := SMap.ins s.bx.maps d (s.die d).lcmap, spares := SMap.ins s.bx.spares d (s.die d).lcspare } }

def lowestSpare (v : BitVec 32) : Option Nat := (List.range 32).find? fun k => v.getLsbD k

/-- A physical core has failed: the lowest spare takes its place, or the logical core goes offline; a failed spare is one no more. -/
def State.coreFailed (s : State) (d phys : Nat) : State :=
  let drop (v : BitVec 32) (k : Nat) : BitVec 32 := v &&& ~~~(1#32 <<< k)
  let s := match s.boundTo d phys with
    | some n =>
      let s := s.clearCore n
      let e := s.lcEntry n
      let x := s.die d
      (match lowestSpare x.lcspare with
       | some k => s.setDie d { x with lcmap := SMap.ins x.lcmap (lcoreOf n) { e with phys := k, moved := decide (k ≠ lcoreOf n), gen := Nat.min 255 (e.gen + 1) },
                                       lcspare := drop x.lcspare k }
       | none => s.setDie d { x with lcmap := SMap.ins x.lcmap (lcoreOf n) { e with offline := true } })
    | none => s.modDie d fun x => { x with lcspare := drop x.lcspare phys }
  let s := s.modDie d fun x => { x with failed := x.failed ++ [phys], due := x.due.filter fun k => k ≠ phys,
                                        mustTest := x.mustTest.filter fun k => k ≠ phys }
  let (n, s) := s.markSuspects d phys (SMap.get 0 s.bx.lastPass (coreKey d phys))
  let s := s.errorDie errCoreFail (BitVec.ofNat 64 (d + phys * 8 + n % 2 ^ 32 * 256)) d
  (s.persist d).kick

/-- A core that passes is not due before PERIOD seconds; one that failed before the last reset is a spare again. -/
def State.corePassed (s : State) (d phys period : Nat) : State :=
  let s : State := { s with bx := { s.bx with lastPass := SMap.ins s.bx.lastPass (coreKey d phys) s.stc } }
  let back := (s.boundTo d phys).isNone && !(s.die d).failed.contains phys
  let s := s.modDie d fun x =>
    { x with due := x.due.filter fun k => k ≠ phys, mustTest := x.mustTest.filter fun k => k ≠ phys,
             lcspare := if back then x.lcspare ||| (1#32 <<< phys) else x.lcspare }
  let s := if back then s.persist d else s
  (s.schedInp (s.stc + period * second) phTask .testDue { die := d, phys := phys, mark := true }).kick

/-- The end of a scan run; 1024 c later the end of its window. -/
def State.scanEnd (s : State) (x : Input) : State :=
  if x.flag then s.dropWindows fun w => w.task = testTask x.phys && dieOf w.core = x.die
  else
    match (s.die x.die).testPkg, SMap.get? (s.die x.die).testing x.phys with
    | some p, some _ =>
      let s := s.modDie x.die fun d => { d with testing := SMap.del d.testing x.phys }
      let s := if x.core.isSome then s.schedInp (s.stc + 1024) phTask .testScanEnd { die := x.die, core := x.core, phys := x.phys, flag := true } else s
      if x.sig = p.expsig then s.corePassed x.die x.phys p.period else s.coreFailed x.die x.phys
    | _, _ => s

def execTestScanEnd (s : State) : Out := .next (s.scanEnd s.inp)

/-- A test run is aborted: the scan stops and records nothing; 1024 c after the request the window is released, the core still due. -/
def State.abortTest (s : State) (x : Input) : State :=
  let mine (w : Window) : Bool := w.task = testTask x.phys && dieOf w.core = x.die
  if x.flag then s.dropWindows mine
  else if !s.windows.any mine || s.agenda.any fun j =>
      (j.ev = .testAbort || j.ev = .testScanEnd) && j.inp.flag && j.inp.die = x.die && j.inp.phys = x.phys then s
  else
    let s := s.modDie x.die fun d => { d with testing := SMap.del d.testing x.phys }
    let gone (j : Job) : Bool := (j.ev = .testScanStart || j.ev = .testScanEnd) && j.inp.die = x.die && j.inp.phys = x.phys
    ({ s with agenda := s.agenda.filter fun j => !gone j } : State).schedInp (s.stc + 1024) phTask .testAbort { x with flag := true }

def execTestAbort (s : State) : Out := .next (s.abortTest s.inp)

end Sys2Proof.Machine
end

