-- ==== Sys2Proof/Machine/Boxwood.lean ====
section
/-! DEFINITION. Boxwood's sensors and alarms (17 R412 to R415), and the thermal limit (19 R433). -/

namespace Sys2Proof.Machine

def errAlarm : Nat := 0x34
def errQuarantine : Nat := 0x35

/-! ### Table 17.6 -/

/-- Level of a temperature of a die, or of Boxwood, in 1/16 °C. -/
def tempLevel (box : Bool) (t : Int) : Nat :=
  if box && (decide (t < -640) || decide (2000 < t)) then 3 else if 1920 < t then 2 else if 1680 < t then 1 else 0

/-- Level at which a sensor's reading raises an alarm, by the sensor's kind: 0 rail, 1 clock, 2 temperature, 3 mesh; 0 for none. -/
def alarmLevel (kind : Nat) (r : Reading) : Nat :=
  let dev := r.dev.natAbs
  match kind with
  | 0 => if 120 < dev ∨ r.box = true ∧ 80 < dev then 3 else if 80 < dev then 2 else if 50 < dev ∧ 1050 ≤ r.held then 1 else 0
  | 1 => if 64 ≤ r.absent then 3 else if r.period < 50 ∨ 200 < r.period then 2 else if 5 < dev then 1 else 0
  | 2 => tempLevel r.box r.temp
  | _ => if r.broken then 3 else if 150 < dev then 2 else if 50 < dev then 1 else 0

/-- The sensor and the level that a subject reports. -/
def Input.sensor (x : Input) : BitVec 5 := x.code.setWidth 5
def Input.level (x : Input) : Nat := alarmLevel (x.sensor.toNat / 8) x.reading

/-! ### What an alarm does -/

/-- Contexts that an alarm of level 2 quarantines: those with a task or a booked record on the affected die; all of them for the mesh
and the clock. -/
def State.quarantined (s : State) (sensor : BitVec 5) (d : Nat) : List Nat :=
  let kind := sensor.toNat / 8
  if kind = 1 ∨ kind = 3 then s.ctxs.map (·.1)
  else (s.ctxs.map (·.1)).filter fun c =>
    s.recs.any fun r => r.ctx = c && ((r.st = .booked || r.st = .loading || r.st = .run) && dieOf r.core = d ||
      r.live && s.windows.any fun w => w.task = r.id && dieOf w.core = d)

def State.quarantine (s : State) (sensor : BitVec 5) (ctx : Nat) : State :=
  match s.ctx? ctx with
  | none => s
  | some x =>
    if x.quarantined then s
    else
      let s := s.modCtx ctx fun x => { x with quarantined := true }
      let s := s.errorAll errQuarantine (sensor.setWidth 64) 15 (if s.bx.standby then 4 else 0)
      s.stopContext ctx endQuarantine errQuarantine

/-- Level 3: nothing runs on; every launch completes; keys are gone, links are down, and the package holds until reset. -/
def State.erase (s : State) : State :=
  let s := s.cores.foldl (fun s c => if c.2.tsk.task.isSome then s.vacate c.1 else s) s
  let s := (s.launches.filter fun l => !l.complete).foldl (fun s l => s.completeLaunch { l with final := errQuarantine }) s
  let s := (s.linkDown 0).linkDown 4
  { s with bx := { s.bx with erased := true, hold := true, alarm3 := true }, stopped := true }

/-- An alarm of a sensor at a level; a lower one after a higher one adds only its entry. -/
def State.alarm (s : State) (sensor : BitVec 5) (level d : Nat) : State :=
  if level = 0 ∨ s.bx.erased = true ∧ level = 3 then s
  else
    let before := s.bx.level
    let detail := BitVec.ofNat 64 (sensor.toNat + level * 256)
    let s := s.errorAll errAlarm detail 15 (if s.bx.standby then 4 else 0)
    if level < before then s
    else
      let b := s.bx
      let s : State := { s with bx := { b with sensor := sensor, level := level,
                                               count1 := if level = 1 then Nat.min 65535 (b.count1 + 1) else b.count1 } }
      let s := s.raise causeTamper
      if level = 1 then s
      else
        let cs := if level = 3 then s.ctxs.map (·.1) else s.quarantined sensor d
        let s := cs.foldl (fun s c => s.quarantine sensor c) s
        if level = 3 then s.erase else s

/-- An alarm of a higher level is raised at the same stamp: it acts first (17 R415). -/
def State.alarmWaits (s : State) : Bool :=
  decide (s.inp.level ≠ 0) && s.agenda.any fun j => j.ev = .sensorAlarm && decide (j.due ≤ s.stc) && decide (s.inp.level < j.inp.level)

def execSensorAlarm (s : State) : Out :=
  .next (if s.alarmWaits then s.schedInp s.stc phTask .sensorAlarm s.inp else s.alarm s.inp.sensor s.inp.level
    (if s.inp.sensor.toNat / 8 = 2 then s.inp.sensor.toNat % 8 else s.inp.die))

/-! ### Heat (17 R412; 19 R433) -/

/-- A die's temperature in 1/16 °C: above 110 °C it takes no placement until it falls below 100 °C, and as it passes a limit of Table 17.6
its alarm is raised. -/
def State.heat (s : State) (d : Nat) (t : BitVec 16) : State :=
  let old := tempLevel false (SMap.get 0 s.mgmt.temp d : BitVec 16).toInt
  let s : State := { s with mgmt := { s.mgmt with temp := SMap.put 0 s.mgmt.temp d t } }
  let s :=
    if 1760 < t.toInt then
      if s.mgmt.thermal.contains d then s else { s with mgmt := { s.mgmt with thermal := s.mgmt.thermal ++ [d] } }
    else if t.toInt < 1600 then ({ s with mgmt := { s.mgmt with thermal := s.mgmt.thermal.filter fun k => k ≠ d } } : State).kick
    else s.seekAll
  let now := tempLevel false t.toInt
  if old < now then s.schedInp s.stc phTask .sensorAlarm { code := BitVec.ofNat 8 (16 + d), reading := { temp := t.toInt } } else s

def execThermalLimit (s : State) : Out := .next (s.heat (s.inp.die % 8) (s.inp.val.setWidth 16))

end Sys2Proof.Machine
end

