-- ==== Sys2Proof/Machine/VectorFp.lean ====
section
/-! DEFINITION. Floating-point vector words (06 R142 to R145, R147): the engine computes each register by `vcompute`. -/

namespace Sys2Proof.Machine

/-! ### Elementwise (Table 6.2) -/

def execVadd (d a b : VOpF) (p : PredF) (ty : TyF) (s : State) : Out := .next (s.vecWord (.vadd d a b p ty))
def execVsub (d a b : VOpF) (p : PredF) (ty : TyF) (s : State) : Out := .next (s.vecWord (.vsub d a b p ty))
def execVmul (d a b : VOpF) (p : PredF) (ty : TyF) (s : State) : Out := .next (s.vecWord (.vmul d a b p ty))
def execVdiv (d a b : VOpF) (p : PredF) (ty : TyF) (s : State) : Out := .next (s.vecWord (.vdiv d a b p ty))
def execVfma (d a b : VOpF) (p : PredF) (ty : TyF) (s : State) : Out := .next (s.vecWord (.vfma d a b p ty))
def execVfms (d a b : VOpF) (p : PredF) (ty : TyF) (s : State) : Out := .next (s.vecWord (.vfms d a b p ty))
def execVfnma (d a b : VOpF) (p : PredF) (ty : TyF) (s : State) : Out := .next (s.vecWord (.vfnma d a b p ty))
def execVfnms (d a b : VOpF) (p : PredF) (ty : TyF) (s : State) : Out := .next (s.vecWord (.vfnms d a b p ty))
def execVmin (d a b : VOpF) (p : PredF) (ty : TyF) (s : State) : Out := .next (s.vecWord (.vmin d a b p ty))
def execVmax (d a b : VOpF) (p : PredF) (ty : TyF) (s : State) : Out := .next (s.vecWord (.vmax d a b p ty))
def execVabs (d a : VOpF) (p : PredF) (ty : TyF) (s : State) : Out := .next (s.vecWord (.vabs d a p ty))
def execVneg (d a : VOpF) (p : PredF) (ty : TyF) (s : State) : Out := .next (s.vecWord (.vneg d a p ty))
def execVsqrt (d a : VOpF) (p : PredF) (ty : TyF) (s : State) : Out := .next (s.vecWord (.vsqrt d a p ty))
def execVrcp (d a : VOpF) (p : PredF) (ty : TyF) (s : State) : Out := .next (s.vecWord (.vrcp d a p ty))
def execVrsqrt (d a : VOpF) (p : PredF) (ty : TyF) (s : State) : Out := .next (s.vecWord (.vrsqrt d a p ty))
def execVclass (d a : VOpF) (p : PredF) (ty : TyF) (s : State) : Out := .next (s.vecWord (.vclass d a p ty))

/-! ### Correctly rounded transcendentals (Table 6.4) -/

def execVexp (d a : VOpF) (p : PredF) (ty : TyF) (s : State) : Out := .next (s.vecWord (.vexp d a p ty))
def execVexp2 (d a : VOpF) (p : PredF) (ty : TyF) (s : State) : Out := .next (s.vecWord (.vexp2 d a p ty))
def execVlog (d a : VOpF) (p : PredF) (ty : TyF) (s : State) : Out := .next (s.vecWord (.vlog d a p ty))
def execVlog2 (d a : VOpF) (p : PredF) (ty : TyF) (s : State) : Out := .next (s.vecWord (.vlog2 d a p ty))
def execVerf (d a : VOpF) (p : PredF) (ty : TyF) (s : State) : Out := .next (s.vecWord (.verf d a p ty))

/-! ### Compares (06 R147) -/

def execVcmpeq (d a b : VOpF) (p : PredF) (ty : TyF) (s : State) : Out := .next (s.vecWord (.vcmpeq d a b p ty))
def execVcmpne (d a b : VOpF) (p : PredF) (ty : TyF) (s : State) : Out := .next (s.vecWord (.vcmpne d a b p ty))
def execVcmplt (d a b : VOpF) (p : PredF) (ty : TyF) (s : State) : Out := .next (s.vecWord (.vcmplt d a b p ty))
def execVcmple (d a b : VOpF) (p : PredF) (ty : TyF) (s : State) : Out := .next (s.vecWord (.vcmple d a b p ty))

end Sys2Proof.Machine
end

