-- ==== Sys2Proof/Machine/VectorInt.lean ====
section
/-! DEFINITION. Integer vector words (06 R146, R147): the engine computes each register by `vcompute`. -/

namespace Sys2Proof.Machine

/-! ### Elementwise (Table 6.5) -/

def execViadd (d a b : VOpF) (p : PredF) (ty : TyF) (s : State) : Out := .next (s.vecWord (.viadd d a b p ty))
def execVisub (d a b : VOpF) (p : PredF) (ty : TyF) (s : State) : Out := .next (s.vecWord (.visub d a b p ty))
def execVimul (d a b : VOpF) (p : PredF) (ty : TyF) (s : State) : Out := .next (s.vecWord (.vimul d a b p ty))
def execVimulh (d a b : VOpF) (p : PredF) (ty : TyF) (s : State) : Out := .next (s.vecWord (.vimulh d a b p ty))
def execViand (d a b : VOpF) (p : PredF) (ty : TyF) (s : State) : Out := .next (s.vecWord (.viand d a b p ty))
def execVior (d a b : VOpF) (p : PredF) (ty : TyF) (s : State) : Out := .next (s.vecWord (.vior d a b p ty))
def execVixor (d a b : VOpF) (p : PredF) (ty : TyF) (s : State) : Out := .next (s.vecWord (.vixor d a b p ty))
def execVishl (d a b : VOpF) (p : PredF) (ty : TyF) (s : State) : Out := .next (s.vecWord (.vishl d a b p ty))
def execVishr (d a b : VOpF) (p : PredF) (ty : TyF) (s : State) : Out := .next (s.vecWord (.vishr d a b p ty))
def execVisra (d a b : VOpF) (p : PredF) (ty : TyF) (s : State) : Out := .next (s.vecWord (.visra d a b p ty))
def execVimin (d a b : VOpF) (p : PredF) (ty : TyF) (s : State) : Out := .next (s.vecWord (.vimin d a b p ty))
def execVimax (d a b : VOpF) (p : PredF) (ty : TyF) (s : State) : Out := .next (s.vecWord (.vimax d a b p ty))
def execViabs (d a : VOpF) (p : PredF) (ty : TyF) (s : State) : Out := .next (s.vecWord (.viabs d a p ty))
def execVpopc (d a : VOpF) (p : PredF) (ty : TyF) (s : State) : Out := .next (s.vecWord (.vpopc d a p ty))

/-! ### Compares (06 R147) -/

def execVicmpeq (d a b : VOpF) (p : PredF) (ty : TyF) (s : State) : Out := .next (s.vecWord (.vicmpeq d a b p ty))
def execVicmplt (d a b : VOpF) (p : PredF) (ty : TyF) (s : State) : Out := .next (s.vecWord (.vicmplt d a b p ty))
def execVicmple (d a b : VOpF) (p : PredF) (ty : TyF) (s : State) : Out := .next (s.vecWord (.vicmple d a b p ty))

end Sys2Proof.Machine
end

