-- ==== Sys2Proof/Machine/VectorMove.lean ====
section
/-! DEFINITION. Row-axis and column-axis words, permutes, interleaves, conversions, packs and counter-based random numbers (06 R148 to R153, R159 to R162, R165). -/

namespace Sys2Proof.Machine

/-! ### Rotations and broadcasts (06 R149) -/

def execVrotr (d a : VOpF) (k : BitVec 10) (p : PredF) (ty : TyF) (s : State) : Out := .next (s.vecWord (.vrotr d a k p ty))
def execVrotc (d a : VOpF) (k : BitVec 10) (p : PredF) (ty : TyF) (s : State) : Out := .next (s.vecWord (.vrotc d a k p ty))
def execVbcr (d a : VOpF) (k : BitVec 10) (p : PredF) (ty : TyF) (s : State) : Out := .next (s.vecWord (.vbcr d a k p ty))
def execVbcc (d a : VOpF) (k : BitVec 10) (p : PredF) (ty : TyF) (s : State) : Out := .next (s.vecWord (.vbcc d a k p ty))

/-! ### Reductions and prefixes (06 R150 to R152) -/

def execVredr (d a : VOpF) (k : BitVec 10) (p : PredF) (ty : TyF) (s : State) : Out := .next (s.vecWord (.vredr d a k p ty))
def execVredc (d a : VOpF) (k : BitVec 10) (p : PredF) (ty : TyF) (s : State) : Out := .next (s.vecWord (.vredc d a k p ty))
def execVprer (d a : VOpF) (k : BitVec 10) (p : PredF) (ty : TyF) (s : State) : Out := .next (s.vecWord (.vprer d a k p ty))
def execVprec (d a : VOpF) (k : BitVec 10) (p : PredF) (ty : TyF) (s : State) : Out := .next (s.vecWord (.vprec d a k p ty))
def execVpxorr (d a : VOpF) (k : BitVec 10) (ty : TyF) (s : State) : Out := .next (s.vecWord (.vpxorr d a k ty))
def execVpxorc (d a : VOpF) (ty : TyF) (s : State) : Out := .next (s.vecWord (.vpxorc d a ty))

/-! ### Permute, select, move, interleave (06 R153) -/

def execVperm (d a b : VOpF) (p : PredF) (ty : TyF) (s : State) : Out := .next (s.vecWord (.vperm d a b p ty))
def execVsel (d a b : VOpF) (p : PredF) (ty : TyF) (s : State) : Out := .next (s.vecWord (.vsel d a b p ty))
def execVmov (d a : VOpF) (p : PredF) (ty : TyF) (s : State) : Out := .next (s.vecWord (.vmov d a p ty))
def execVzip (d a b : VOpF) (p : PredF) (ty : TyF) (s : State) : Out := .next (s.vecWord (.vzip d a b p ty))
def execVunzip (d a b : VOpF) (p : PredF) (ty : TyF) (s : State) : Out := .next (s.vecWord (.vunzip d a b p ty))

/-! ### Conversions and block packs (06 R159 to R162) -/

def execVcvt (d a : VOpF) (spec : BitVec 10) (p : PredF) (ty : TyF) (s : State) : Out := .next (s.vecWord (.vcvt d a spec p ty))
def execVpk8 (d a e : VOpF) (ty : TyF) (s : State) : Out := .next (s.vecWord (.vpk8 d a e ty))
def execVpk4 (d a e : VOpF) (ty : TyF) (s : State) : Out := .next (s.vecWord (.vpk4 d a e ty))
def execVupk8 (d a e : VOpF) (part : BitVec 2) (s : State) : Out := .next (s.vecWord (.vupk8 d a e part))
def execVupk4 (d a e : VOpF) (part : BitVec 2) (s : State) : Out := .next (s.vecWord (.vupk4 d a e part))
def execVpk8x (d a e : VOpF) (ty : TyF) (s : State) : Out := .next (s.vecWord (.vpk8x d a e ty))
def execVpk4x (d a e : VOpF) (ty : TyF) (s : State) : Out := .next (s.vecWord (.vpk4x d a e ty))

/-! ### Random numbers (06 R165) -/

def execVrand (d a : VOpF) (p : PredF) (key : BitVec 2) (s : State) : Out := .next (s.vecWord (.vrand d a p key))

end Sys2Proof.Machine
end

