-- ==== Sys2Proof/Machine/VectorPred.lean ====
section
/-! DEFINITION. Predicate, mask, stage, rotation and flag words (06 R154 to R158, R163, R164). -/

namespace Sys2Proof.Machine

/-- The value of a predicate word is in force from the next cycle (06 R154). -/
def execPset (pd : BitVec 3) (count : BitVec 13) (width : BitVec 2) (group : BitVec 3) (s : State) : Out :=
  let v := predWord count.toNat width.toNat group.toNat
  .next (s.vecInstant (.pset pd count width group) true (if predLegal v then none else some .illop) fun t =>
    .ok (t.modCur fun c => c.emit .x (t.stc + 1) (.pred pd.toNat v)))

def execPcnt (pd a : VOpF) (g : BitVec 3) (w : BitVec 2) (s : State) : Out := .next (s.vecWord (.pcnt pd a g w))
def execPfirst (pd a : VOpF) (g : BitVec 3) (w : BitVec 2) (s : State) : Out := .next (s.vecWord (.pfirst pd a g w))

/-! ### The mask stack (06 R156, R157) -/

/-- Depth that pushes and pops not yet in force will leave. -/
def Core.maskLater (c : Core) : Nat :=
  let effs := c.pend.map (·.eff) ++ c.vec.window.flatMap (·.held)
  let pushes := (effs.filter fun e => match e with | .maskPush _ => true | _ => false).length
    + (c.vec.words.filter fun w => w.results.any (·.mask.isSome)).length
    + (c.vec.window.filter fun e => e.results.any (·.mask.isSome)).length
  let pops := (effs.filter fun e => match e with | .maskPop => true | _ => false).length
  c.vec.masks.length + pushes - pops

/-- A push finds no room, a pop no entry: by the depth in force, and by the depth that words still under way will leave, so that
the stack never passes 16 entries (02 R47, 06 R156, log 83). -/
def Core.maskFull (c : Core) : Bool := decide (16 ≤ c.vec.masks.length) || decide (16 ≤ c.maskLater)
def Core.maskNone (c : Core) : Bool := c.vec.masks.isEmpty || decide (c.maskLater = 0)

def Core.maskTop (c : Core) : BitVec 1024 := c.vec.masks.headD (BitVec.allOnes 1024)

/-- Lanes whose covering element at width w is nonzero. -/
def nzLanes (w : Nat) (v : VReg) : BitVec 1024 :=
  BitVec.ofNat 1024 (packNat 1 ((List.range 1024).map fun l => if velem w v (l * 32 / w) ≠ 0 then 1 else 0))

/-- A mask word that leaves an all-zero top starts a skip, unless it stands in one. -/
def State.startSkip (s : State) (top : BitVec 1024) (skip : Nat) : State :=
  s.modCur fun c =>
    if c.vec.skip = 0 ∧ top = 0#1024 ∧ skip ≠ 0 then { c with vec := { c.vec with skip := skip } } else c

/-- The operand of mpush, read at issue, with the core after a pop. -/
def State.maskOperand (s : State) (a : VOpF) (wd : BitVec 2) : Option (VReg × Core) :=
  let c := s.cur
  let (id, _) := c.wordId
  let w : VWord := { id := id, pc := c.x.pc, op := .mpush a 0 wd, issued := s.stc, group := 1, lat := 2, occ := 4,
                     active := .all, rm := 0, rotsz := c.sys.rotsz.toNat, rrb := c.sys.rrb.toNat, fen := c.sys.fen }
  s.readOperand c w (a, .int (8 * 2 ^ wd.toNat), 0)

/-- The push is in force from t + 2; in a calendar region no wait moves it, so that it keeps its place among the mask words issued
around it. -/
def execMpush (a : VOpF) (skip : BitVec 10) (wd : BitVec 2) (s : State) : Out :=
  let op : Instr := .mpush a skip wd
  let o := (Instr.vops op).getD {}
  .next (s.issue (s.vecKind o false false) fun t =>
    let c := t.cur
    if c.sys.region && c.vecWaits op o then .wait
    else if t.stc < c.vec.portFree then .wait
    else if c.maskFull then .trap .msfull 0 false
    else
      match t.maskOperand a wd with
      | none => .wait
      | some (v, c') =>
        let top := nzLanes (8 * 2 ^ wd.toNat) v &&& c.maskTop
        let plain := !c.sys.region && c.vec.window.isEmpty
        let u := (t.setCore t.turn.core c').startVector op o (if plain then [] else [{ k := 0, mask := some top }]) []
        let u := if plain then u.modCur fun c => c.later (t.stc + 2) (.maskPush top) else u
        .done (u.startSkip top skip.toNat))

/-- Entry under the top, all-ones at depth 1. -/
def Core.maskBelow (c : Core) : BitVec 1024 := c.vec.masks.tail.headD (BitVec.allOnes 1024)

def execMinv (skip : BitVec 10) (s : State) : Out :=
  .next (s.vecInstant (.minv skip) false none fun t =>
    if t.cur.maskNone then .error .msempty
    else
      let top := ~~~t.cur.maskTop &&& t.cur.maskBelow
      .ok ((t.modCur fun c => c.emit .x (t.stc + 1) (.maskTop top)).startSkip top skip.toNat))

def execMpop (s : State) : Out :=
  .next (s.vecInstant .mpop false none fun t =>
    if t.cur.maskNone then .error .msempty
    else .ok (t.modCur fun c => c.emit .x (t.stc + 1) .maskPop))

/-! ### Stage predicates and the rotating base (06 R158) -/

/-- sr.rrb stepped down by one in its region; none when the region is empty. -/
def rrbStep (y : SysSt) : Option (BitVec 9) :=
  let n := y.rotsz.toNat
  if n = 0 then none else some (BitVec.ofNat 9 ((y.rrb.toNat + n - 1) % n))

def State.emitRrb (s : State) : State :=
  match rrbStep s.cur.sys with
  | none => s
  | some v => s.modCur fun c => c.emit .x (s.stc + 1) (.rrb v)

def execSpset (mask : BitVec 8) (s : State) : Out :=
  .next (s.vecInstant (.spset mask) true none fun t => .ok (t.modCur fun c => c.emit .x (t.stc + 1) (.spv mask)))

def execSpshl (bit rrb : BitVec 1) (s : State) : Out :=
  .next (s.vecInstant (.spshl bit rrb) true none fun t =>
    let v : BitVec 8 := t.cur.sys.spv <<< 1 ||| bit.setWidth 8
    let u := t.modCur fun c => c.emit .x (t.stc + 1) (.spv v)
    .ok (if rrb = 1#1 then u.emitRrb else u))

def execRrbdec (s : State) : Out := .next (s.vecInstant .rrbdec true none fun t => .ok t.emitRrb)

/-- A base that breaks Table 2.6 is out of range; against a size under way it is judged once that holds. -/
def execRrbset (base : BitVec 10) (s : State) : Out :=
  let c := s.settled.cur
  let waits := c.sys.region && !s.settled.suppressed && c.sysWaits [0x005]
  let legal := decide (base.toNat < 512) && (waits || c.legalSys 0x006 (base.setWidth 64))
  .next (s.vecInstant (.rrbset base) true (if legal then none else some .illop) fun t =>
    .ok (t.modCur fun c => c.emit .x (t.stc + 1) (.rrb (base.setWidth 9))))

/-! ### The flag plane (06 R163, R164) -/

/-- Sample of the flag plane, element i the flags of lane i. -/
def flagReg (f : Flags) : VReg := vbuild 32 ((List.range 1024).map f.lane)

/-- vflrd samples in its issue cycle. -/
def execVflrd (d : VOpF) (p : PredF) (s : State) : Out :=
  .next (s.vecIssue (.vflrd d p) true false (fun _ => none) (fun t => ([], [flagReg t.cur.vec.flags])) id)

/-- Lanes that a predicate makes active at 32-bit elements. -/
def activeLanes (act : Active) : BitVec 1024 :=
  BitVec.ofNat 1024 (packNat 1 ((List.range 1024).map fun l => if act.elem 32 0 l then 1 else 0))

/-- vflclr acts in its issue cycle, or at its commit in precise mode. -/
def execVflclr (mask : BitVec 5) (p : PredF) (s : State) : Out :=
  .next (s.vecInstant (.vflclr mask p) true none fun t =>
    let lanes := activeLanes (t.cur.active p)
    .ok (t.modCur fun c =>
      if c.vec.window.isEmpty then { c with vec := c.vec.clearFlags t.stc mask lanes }
      else c.emit .x t.stc (.flagClear mask lanes)))

end Sys2Proof.Machine
end

