-- ==== Sys2Proof/Machine/Dispatch.lean ====
section
/-! DEFINITION. One step of each kind: every constructor of Instr calls its meaning. -/

namespace Sys2Proof.Machine

def exec (i : Instr) (s : State) : Host.Outcome State Fault Refusal :=
  match i with
  | .add x0 x1 x2 => Sys2Proof.Machine.execAdd x0 x1 x2 s
  | .sub x0 x1 x2 => Sys2Proof.Machine.execSub x0 x1 x2 s
  | .mul x0 x1 x2 => Sys2Proof.Machine.execMul x0 x1 x2 s
  | .mulhi x0 x1 x2 => Sys2Proof.Machine.execMulhi x0 x1 x2 s
  | .mulhu x0 x1 x2 => Sys2Proof.Machine.execMulhu x0 x1 x2 s
  | .and x0 x1 x2 => Sys2Proof.Machine.execAnd x0 x1 x2 s
  | .or x0 x1 x2 => Sys2Proof.Machine.execOr x0 x1 x2 s
  | .xor x0 x1 x2 => Sys2Proof.Machine.execXor x0 x1 x2 s
  | .andn x0 x1 x2 => Sys2Proof.Machine.execAndn x0 x1 x2 s
  | .shl x0 x1 x2 => Sys2Proof.Machine.execShl x0 x1 x2 s
  | .shr x0 x1 x2 => Sys2Proof.Machine.execShr x0 x1 x2 s
  | .sra x0 x1 x2 => Sys2Proof.Machine.execSra x0 x1 x2 s
  | .min x0 x1 x2 => Sys2Proof.Machine.execMin x0 x1 x2 s
  | .max x0 x1 x2 => Sys2Proof.Machine.execMax x0 x1 x2 s
  | .minu x0 x1 x2 => Sys2Proof.Machine.execMinu x0 x1 x2 s
  | .maxu x0 x1 x2 => Sys2Proof.Machine.execMaxu x0 x1 x2 s
  | .clmul x0 x1 x2 => Sys2Proof.Machine.execClmul x0 x1 x2 s
  | .clmulh x0 x1 x2 => Sys2Proof.Machine.execClmulh x0 x1 x2 s
  | .popc x0 x1 => Sys2Proof.Machine.execPopc x0 x1 s
  | .clz x0 x1 => Sys2Proof.Machine.execClz x0 x1 s
  | .ctz x0 x1 => Sys2Proof.Machine.execCtz x0 x1 s
  | .sel x0 x1 x2 => Sys2Proof.Machine.execSel x0 x1 x2 s
  | .seq x0 x1 x2 => Sys2Proof.Machine.execSeq x0 x1 x2 s
  | .slt x0 x1 x2 => Sys2Proof.Machine.execSlt x0 x1 x2 s
  | .sltu x0 x1 x2 => Sys2Proof.Machine.execSltu x0 x1 x2 s
  | .mov x0 x1 => Sys2Proof.Machine.execMov x0 x1 s
  | .addi x0 x1 => Sys2Proof.Machine.execAddi x0 x1 s
  | .andi x0 x1 => Sys2Proof.Machine.execAndi x0 x1 s
  | .ori x0 x1 => Sys2Proof.Machine.execOri x0 x1 s
  | .xori x0 x1 => Sys2Proof.Machine.execXori x0 x1 s
  | .shli x0 x1 => Sys2Proof.Machine.execShli x0 x1 s
  | .shri x0 x1 => Sys2Proof.Machine.execShri x0 x1 s
  | .srai x0 x1 => Sys2Proof.Machine.execSrai x0 x1 s
  | .li x0 x1 => Sys2Proof.Machine.execLi x0 x1 s
  | .lih x0 x1 => Sys2Proof.Machine.execLih x0 x1 s
  | .beq x0 x1 x2 => Sys2Proof.Machine.execBeq x0 x1 x2 s
  | .bne x0 x1 x2 => Sys2Proof.Machine.execBne x0 x1 x2 s
  | .blt x0 x1 x2 => Sys2Proof.Machine.execBlt x0 x1 x2 s
  | .bge x0 x1 x2 => Sys2Proof.Machine.execBge x0 x1 x2 s
  | .bltu x0 x1 x2 => Sys2Proof.Machine.execBltu x0 x1 x2 s
  | .bgeu x0 x1 x2 => Sys2Proof.Machine.execBgeu x0 x1 x2 s
  | .bz x0 x1 => Sys2Proof.Machine.execBz x0 x1 s
  | .bnz x0 x1 => Sys2Proof.Machine.execBnz x0 x1 s
  | .jmp x0 => Sys2Proof.Machine.execJmp x0 s
  | .jmpr x0 => Sys2Proof.Machine.execJmpr x0 s
  | .call x0 => Sys2Proof.Machine.execCall x0 s
  | .callr x0 => Sys2Proof.Machine.execCallr x0 s
  | .beng x0 x1 x2 => Sys2Proof.Machine.execBeng x0 x1 x2 s
  | .loop x0 x1 x2 => Sys2Proof.Machine.execLoop x0 x1 x2 s
  | .loopi x0 x1 x2 => Sys2Proof.Machine.execLoopi x0 x1 x2 s
  | .mfsr x0 x1 => Sys2Proof.Machine.execMfsr x0 x1 s
  | .mtsr x0 x1 => Sys2Proof.Machine.execMtsr x0 x1 s
  | .rdstc x0 => Sys2Proof.Machine.execRdstc x0 s
  | .rdstcT0 x0 => Sys2Proof.Machine.execRdstcT0 x0 s
  | .rdeng x0 x1 => Sys2Proof.Machine.execRdeng x0 x1 s
  | .trap x0 => Sys2Proof.Machine.execTrap x0 s
  | .vadd x0 x1 x2 x3 x4 => Sys2Proof.Machine.execVadd x0 x1 x2 x3 x4 s
  | .vsub x0 x1 x2 x3 x4 => Sys2Proof.Machine.execVsub x0 x1 x2 x3 x4 s
  | .vmul x0 x1 x2 x3 x4 => Sys2Proof.Machine.execVmul x0 x1 x2 x3 x4 s
  | .vdiv x0 x1 x2 x3 x4 => Sys2Proof.Machine.execVdiv x0 x1 x2 x3 x4 s
  | .vfma x0 x1 x2 x3 x4 => Sys2Proof.Machine.execVfma x0 x1 x2 x3 x4 s
  | .vfms x0 x1 x2 x3 x4 => Sys2Proof.Machine.execVfms x0 x1 x2 x3 x4 s
  | .vfnma x0 x1 x2 x3 x4 => Sys2Proof.Machine.execVfnma x0 x1 x2 x3 x4 s
  | .vfnms x0 x1 x2 x3 x4 => Sys2Proof.Machine.execVfnms x0 x1 x2 x3 x4 s
  | .vmin x0 x1 x2 x3 x4 => Sys2Proof.Machine.execVmin x0 x1 x2 x3 x4 s
  | .vmax x0 x1 x2 x3 x4 => Sys2Proof.Machine.execVmax x0 x1 x2 x3 x4 s
  | .vabs x0 x1 x2 x3 => Sys2Proof.Machine.execVabs x0 x1 x2 x3 s
  | .vneg x0 x1 x2 x3 => Sys2Proof.Machine.execVneg x0 x1 x2 x3 s
  | .vsqrt x0 x1 x2 x3 => Sys2Proof.Machine.execVsqrt x0 x1 x2 x3 s
  | .vrcp x0 x1 x2 x3 => Sys2Proof.Machine.execVrcp x0 x1 x2 x3 s
  | .vrsqrt x0 x1 x2 x3 => Sys2Proof.Machine.execVrsqrt x0 x1 x2 x3 s
  | .vclass x0 x1 x2 x3 => Sys2Proof.Machine.execVclass x0 x1 x2 x3 s
  | .vexp x0 x1 x2 x3 => Sys2Proof.Machine.execVexp x0 x1 x2 x3 s
  | .vexp2 x0 x1 x2 x3 => Sys2Proof.Machine.execVexp2 x0 x1 x2 x3 s
  | .vlog x0 x1 x2 x3 => Sys2Proof.Machine.execVlog x0 x1 x2 x3 s
  | .vlog2 x0 x1 x2 x3 => Sys2Proof.Machine.execVlog2 x0 x1 x2 x3 s
  | .verf x0 x1 x2 x3 => Sys2Proof.Machine.execVerf x0 x1 x2 x3 s
  | .viadd x0 x1 x2 x3 x4 => Sys2Proof.Machine.execViadd x0 x1 x2 x3 x4 s
  | .visub x0 x1 x2 x3 x4 => Sys2Proof.Machine.execVisub x0 x1 x2 x3 x4 s
  | .vimul x0 x1 x2 x3 x4 => Sys2Proof.Machine.execVimul x0 x1 x2 x3 x4 s
  | .vimulh x0 x1 x2 x3 x4 => Sys2Proof.Machine.execVimulh x0 x1 x2 x3 x4 s
  | .viand x0 x1 x2 x3 x4 => Sys2Proof.Machine.execViand x0 x1 x2 x3 x4 s
  | .vior x0 x1 x2 x3 x4 => Sys2Proof.Machine.execVior x0 x1 x2 x3 x4 s
  | .vixor x0 x1 x2 x3 x4 => Sys2Proof.Machine.execVixor x0 x1 x2 x3 x4 s
  | .vishl x0 x1 x2 x3 x4 => Sys2Proof.Machine.execVishl x0 x1 x2 x3 x4 s
  | .vishr x0 x1 x2 x3 x4 => Sys2Proof.Machine.execVishr x0 x1 x2 x3 x4 s
  | .visra x0 x1 x2 x3 x4 => Sys2Proof.Machine.execVisra x0 x1 x2 x3 x4 s
  | .vimin x0 x1 x2 x3 x4 => Sys2Proof.Machine.execVimin x0 x1 x2 x3 x4 s
  | .vimax x0 x1 x2 x3 x4 => Sys2Proof.Machine.execVimax x0 x1 x2 x3 x4 s
  | .viabs x0 x1 x2 x3 => Sys2Proof.Machine.execViabs x0 x1 x2 x3 s
  | .vpopc x0 x1 x2 x3 => Sys2Proof.Machine.execVpopc x0 x1 x2 x3 s
  | .vrotr x0 x1 x2 x3 x4 => Sys2Proof.Machine.execVrotr x0 x1 x2 x3 x4 s
  | .vrotc x0 x1 x2 x3 x4 => Sys2Proof.Machine.execVrotc x0 x1 x2 x3 x4 s
  | .vbcr x0 x1 x2 x3 x4 => Sys2Proof.Machine.execVbcr x0 x1 x2 x3 x4 s
  | .vbcc x0 x1 x2 x3 x4 => Sys2Proof.Machine.execVbcc x0 x1 x2 x3 x4 s
  | .vredr x0 x1 x2 x3 x4 => Sys2Proof.Machine.execVredr x0 x1 x2 x3 x4 s
  | .vredc x0 x1 x2 x3 x4 => Sys2Proof.Machine.execVredc x0 x1 x2 x3 x4 s
  | .vprer x0 x1 x2 x3 x4 => Sys2Proof.Machine.execVprer x0 x1 x2 x3 x4 s
  | .vprec x0 x1 x2 x3 x4 => Sys2Proof.Machine.execVprec x0 x1 x2 x3 x4 s
  | .vpxorr x0 x1 x2 x3 => Sys2Proof.Machine.execVpxorr x0 x1 x2 x3 s
  | .vpxorc x0 x1 x2 => Sys2Proof.Machine.execVpxorc x0 x1 x2 s
  | .vperm x0 x1 x2 x3 x4 => Sys2Proof.Machine.execVperm x0 x1 x2 x3 x4 s
  | .vsel x0 x1 x2 x3 x4 => Sys2Proof.Machine.execVsel x0 x1 x2 x3 x4 s
  | .vmov x0 x1 x2 x3 => Sys2Proof.Machine.execVmov x0 x1 x2 x3 s
  | .vzip x0 x1 x2 x3 x4 => Sys2Proof.Machine.execVzip x0 x1 x2 x3 x4 s
  | .vunzip x0 x1 x2 x3 x4 => Sys2Proof.Machine.execVunzip x0 x1 x2 x3 x4 s
  | .vcmpeq x0 x1 x2 x3 x4 => Sys2Proof.Machine.execVcmpeq x0 x1 x2 x3 x4 s
  | .vcmpne x0 x1 x2 x3 x4 => Sys2Proof.Machine.execVcmpne x0 x1 x2 x3 x4 s
  | .vcmplt x0 x1 x2 x3 x4 => Sys2Proof.Machine.execVcmplt x0 x1 x2 x3 x4 s
  | .vcmple x0 x1 x2 x3 x4 => Sys2Proof.Machine.execVcmple x0 x1 x2 x3 x4 s
  | .vicmpeq x0 x1 x2 x3 x4 => Sys2Proof.Machine.execVicmpeq x0 x1 x2 x3 x4 s
  | .vicmplt x0 x1 x2 x3 x4 => Sys2Proof.Machine.execVicmplt x0 x1 x2 x3 x4 s
  | .vicmple x0 x1 x2 x3 x4 => Sys2Proof.Machine.execVicmple x0 x1 x2 x3 x4 s
  | .pset x0 x1 x2 x3 => Sys2Proof.Machine.execPset x0 x1 x2 x3 s
  | .pcnt x0 x1 x2 x3 => Sys2Proof.Machine.execPcnt x0 x1 x2 x3 s
  | .pfirst x0 x1 x2 x3 => Sys2Proof.Machine.execPfirst x0 x1 x2 x3 s
  | .mpush x0 x1 x2 => Sys2Proof.Machine.execMpush x0 x1 x2 s
  | .minv x0 => Sys2Proof.Machine.execMinv x0 s
  | .spset x0 => Sys2Proof.Machine.execSpset x0 s
  | .spshl x0 x1 => Sys2Proof.Machine.execSpshl x0 x1 s
  | .rrbset x0 => Sys2Proof.Machine.execRrbset x0 s
  | .vcvt x0 x1 x2 x3 x4 => Sys2Proof.Machine.execVcvt x0 x1 x2 x3 x4 s
  | .vpk8 x0 x1 x2 x3 => Sys2Proof.Machine.execVpk8 x0 x1 x2 x3 s
  | .vpk4 x0 x1 x2 x3 => Sys2Proof.Machine.execVpk4 x0 x1 x2 x3 s
  | .vupk8 x0 x1 x2 x3 => Sys2Proof.Machine.execVupk8 x0 x1 x2 x3 s
  | .vupk4 x0 x1 x2 x3 => Sys2Proof.Machine.execVupk4 x0 x1 x2 x3 s
  | .vpk8x x0 x1 x2 x3 => Sys2Proof.Machine.execVpk8x x0 x1 x2 x3 s
  | .vpk4x x0 x1 x2 x3 => Sys2Proof.Machine.execVpk4x x0 x1 x2 x3 s
  | .vflrd x0 x1 => Sys2Proof.Machine.execVflrd x0 x1 s
  | .vflclr x0 x1 => Sys2Proof.Machine.execVflclr x0 x1 s
  | .vrand x0 x1 x2 x3 => Sys2Proof.Machine.execVrand x0 x1 x2 x3 s
  | .fpush x0 => Sys2Proof.Machine.execFpush x0 s
  | .mma x0 x1 => Sys2Proof.Machine.execMma x0 x1 s
  | .scnt x0 x1 => Sys2Proof.Machine.execScnt x0 x1 s
  | .mholdOn x0 x1 => Sys2Proof.Machine.execMholdOn x0 x1 s
  | .mholdOff x0 x1 => Sys2Proof.Machine.execMholdOff x0 x1 s
  | .mdrain x0 x1 x2 => Sys2Proof.Machine.execMdrain x0 x1 x2 s
  | .mmerge x0 x1 => Sys2Proof.Machine.execMmerge x0 x1 s
  | .bsave x0 x1 => Sys2Proof.Machine.execBsave x0 x1 s
  | .bload x0 x1 => Sys2Proof.Machine.execBload x0 x1 s
  | .azero x0 x1 => Sys2Proof.Machine.execAzero x0 x1 s
  | .aload x0 x1 x2 => Sys2Proof.Machine.execAload x0 x1 x2 s
  | .astore x0 x1 x2 => Sys2Proof.Machine.execAstore x0 x1 x2 s
  | .wcvt x0 x1 => Sys2Proof.Machine.execWcvt x0 x1 s
  | .wzero x0 x1 => Sys2Proof.Machine.execWzero x0 x1 s
  | .ckctlOn x0 => Sys2Proof.Machine.execCkctlOn x0 s
  | .ckctlDetect x0 => Sys2Proof.Machine.execCkctlDetect x0 s
  | .ckctlOff x0 => Sys2Proof.Machine.execCkctlOff x0 s
  | .ringset x0 x1 x2 => Sys2Proof.Machine.execRingset x0 x1 x2 s
  | .ringadv x0 x1 => Sys2Proof.Machine.execRingadv x0 x1 s
  | .ringpop x0 x1 => Sys2Proof.Machine.execRingpop x0 x1 s
  | .a2v x0 x1 x2 x3 x4 => Sys2Proof.Machine.execA2v x0 x1 x2 x3 x4 s
  | .v2a x0 x1 x2 x3 x4 => Sys2Proof.Machine.execV2a x0 x1 x2 x3 x4 s
  | .ckrd x0 => Sys2Proof.Machine.execCkrd x0 s
  | .ldspm x0 x1 x2 x3 => Sys2Proof.Machine.execLdspm x0 x1 x2 x3 s
  | .lddram x0 x1 x2 x3 => Sys2Proof.Machine.execLddram x0 x1 x2 x3 s
  | .ldgath x0 x1 x2 x3 => Sys2Proof.Machine.execLdgath x0 x1 x2 x3 s
  | .ldrg x0 x1 x2 x3 x4 => Sys2Proof.Machine.execLdrg x0 x1 x2 x3 x4 s
  | .ldscal x0 x1 x2 x3 => Sys2Proof.Machine.execLdscal x0 x1 x2 x3 s
  | .ldbc x0 x1 x2 x3 => Sys2Proof.Machine.execLdbc x0 x1 x2 x3 s
  | .pref x0 x1 x2 => Sys2Proof.Machine.execPref x0 x1 x2 s
  | .stspm x0 x1 x2 x3 => Sys2Proof.Machine.execStspm x0 x1 x2 x3 s
  | .stdram x0 x1 x2 x3 => Sys2Proof.Machine.execStdram x0 x1 x2 x3 s
  | .stscat x0 x1 x2 x3 => Sys2Proof.Machine.execStscat x0 x1 x2 x3 s
  | .strg x0 x1 x2 x3 x4 => Sys2Proof.Machine.execStrg x0 x1 x2 x3 x4 s
  | .stscal x0 x1 x2 x3 => Sys2Proof.Machine.execStscal x0 x1 x2 x3 s
  | .qmark x0 => Sys2Proof.Machine.execQmark x0 s
  | .copy x0 x1 x2 x3 x4 x5 x6 x7 => Sys2Proof.Machine.execCopy x0 x1 x2 x3 x4 x5 x6 x7 s
  | .copyw x0 x1 x2 x3 x4 x5 x6 x7 => Sys2Proof.Machine.execCopyw x0 x1 x2 x3 x4 x5 x6 x7 s
  | .fence x0 => Sys2Proof.Machine.execFence x0 s
  | .publishBuf x0 x1 x2 => Sys2Proof.Machine.execPublishBuf x0 x1 x2 s
  | .publishTile x0 x1 => Sys2Proof.Machine.execPublishTile x0 x1 s
  | .amo x0 x1 x2 x3 x4 x5 x6 x7 => Sys2Proof.Machine.execAmo x0 x1 x2 x3 x4 x5 x6 x7 s
  | .ramo x0 x1 x2 x3 x4 x5 x6 => Sys2Proof.Machine.execRamo x0 x1 x2 x3 x4 x5 x6 s
  | .damo x0 x1 x2 x3 x4 x5 x6 => Sys2Proof.Machine.execDamo x0 x1 x2 x3 x4 x5 x6 s
  | .rwopen x0 x1 x2 x3 x4 x5 => Sys2Proof.Machine.execRwopen x0 x1 x2 x3 x4 x5 s
  | .rwadd x0 x1 x2 x3 x4 => Sys2Proof.Machine.execRwadd x0 x1 x2 x3 x4 s
  | .rwaddBlk x0 x1 x2 x3 x4 => Sys2Proof.Machine.execRwaddBlk x0 x1 x2 x3 x4 s
  | .rwclose x0 x1 x2 => Sys2Proof.Machine.execRwclose x0 x1 x2 s
  | .pinit x0 x1 => Sys2Proof.Machine.execPinit x0 x1 s
  | .ppush x0 x1 x2 x3 x4 => Sys2Proof.Machine.execPpush x0 x1 x2 x3 x4 s
  | .ppop x0 x1 x2 x3 x4 => Sys2Proof.Machine.execPpop x0 x1 x2 x3 x4 s
  | .tkwait x0 x1 x2 => Sys2Proof.Machine.execTkwait x0 x1 x2 s
  | .tksig x0 x1 x2 => Sys2Proof.Machine.execTksig x0 x1 x2 s
  | .bar x0 x1 => Sys2Proof.Machine.execBar x0 x1 s
  | .book x0 x1 => Sys2Proof.Machine.execBook x0 x1 s
  | .bookq x0 x1 => Sys2Proof.Machine.execBookq x0 x1 s
  | .start x0 => Sys2Proof.Machine.execStart x0 s
  | .spawn x0 x1 x2 x3 x4 => Sys2Proof.Machine.execSpawn x0 x1 x2 x3 x4 s
  | .launch x0 x1 => Sys2Proof.Machine.execLaunch x0 x1 s
  | .wborrow x0 => Sys2Proof.Machine.execWborrow x0 s
  | .tlfill x0 => Sys2Proof.Machine.execTlfill x0 s
  | .tlwait x0 x1 => Sys2Proof.Machine.execTlwait x0 x1 s
  | .tlquery x0 x1 => Sys2Proof.Machine.execTlquery x0 x1 s
  | .vectorGroupRead x0 x1 x2 => Sys2Proof.Machine.execVectorGroupRead x0 x1 x2 s
  | .vectorCompletion x0 x1 x2 => Sys2Proof.Machine.execVectorCompletion x0 x1 x2 s
  | .vectorCommit x0 x1 => Sys2Proof.Machine.execVectorCommit x0 x1 s
  | .matrixCommandStart x0 => Sys2Proof.Machine.execMatrixCommandStart x0 s
  | .ringBlockRead x0 x1 x2 => Sys2Proof.Machine.execRingBlockRead x0 x1 x2 s
  | .mmaBlockAdd x0 x1 x2 => Sys2Proof.Machine.execMmaBlockAdd x0 x1 x2 s
  | .scntBlockCount x0 x1 x2 => Sys2Proof.Machine.execScntBlockCount x0 x1 x2 s
  | .matrixRetire x0 x1 => Sys2Proof.Machine.execMatrixRetire x0 x1 s
  | .engineFaultTrap x0 x1 => Sys2Proof.Machine.execEngineFaultTrap x0 x1 s
  | .loadQueuePush x0 x1 => Sys2Proof.Machine.execLoadQueuePush x0 x1 s
  | .lddramReturn x0 x1 => Sys2Proof.Machine.execLddramReturn x0 x1 s
  | .storePerformed x0 x1 => Sys2Proof.Machine.execStorePerformed x0 x1 s
  | .gatherElement x0 x1 x2 => Sys2Proof.Machine.execGatherElement x0 x1 x2 s
  | .copyNodeStart x0 x1 => Sys2Proof.Machine.execCopyNodeStart x0 x1 s
  | .copyUnit x0 x1 x2 => Sys2Proof.Machine.execCopyUnit x0 x1 x2 s
  | .copyNodeRetire x0 x1 => Sys2Proof.Machine.execCopyNodeRetire x0 x1 s
  | .publishSwitch x0 => Sys2Proof.Machine.execPublishSwitch x0 s
  | .rwContribution x0 => Sys2Proof.Machine.execRwContribution x0 s
  | .rwDelivery x0 => Sys2Proof.Machine.execRwDelivery x0 s
  | .modeDrainDone x0 => Sys2Proof.Machine.execModeDrainDone x0 s
  | .calendarT0Resume x0 => Sys2Proof.Machine.execCalendarT0Resume x0 s
  | .taskEnd x0 => Sys2Proof.Machine.execTaskEnd x0 s
  | .bookingPlacement x0 => Sys2Proof.Machine.execBookingPlacement x0 s
  | .prologueStart x0 => Sys2Proof.Machine.execPrologueStart x0 s
  | .coreSpanStart x0 => Sys2Proof.Machine.execCoreSpanStart x0 s
  | .taskRunStart x0 => Sys2Proof.Machine.execTaskRunStart x0 s
  | .windowEnd x0 => Sys2Proof.Machine.execWindowEnd x0 s
  | .preemptRequest x0 => Sys2Proof.Machine.execPreemptRequest x0 s
  | .preemptCutStop x0 => Sys2Proof.Machine.execPreemptCutStop x0 s
  | .preemptTimeoutStop x0 => Sys2Proof.Machine.execPreemptTimeoutStop x0 s
  | .stateSaveDone x0 => Sys2Proof.Machine.execStateSaveDone x0 s
  | .restorePrologue x0 => Sys2Proof.Machine.execRestorePrologue x0 s
  | .priorityAging x0 => Sys2Proof.Machine.execPriorityAging x0 s
  | .weightReturn x0 => Sys2Proof.Machine.execWeightReturn x0 s
  | .barrierDeparture x0 x1 x2 => Sys2Proof.Machine.execBarrierDeparture x0 x1 x2 s
  | .lineageAck x0 x1 => Sys2Proof.Machine.execLineageAck x0 x1 s
  | .replicaComplete x0 => Sys2Proof.Machine.execReplicaComplete x0 s
  | .darnerWalk x0 => Sys2Proof.Machine.execDarnerWalk x0 s
  | .verificationCompare x0 => Sys2Proof.Machine.execVerificationCompare x0 s
  | .spareFill x0 => Sys2Proof.Machine.execSpareFill x0 s
  | .spareFillComplete x0 => Sys2Proof.Machine.execSpareFillComplete x0 s
  | .damoArrival x0 => Sys2Proof.Machine.execDamoArrival x0 s
  | .damoRetryResend x0 => Sys2Proof.Machine.execDamoRetryResend x0 s
  | .horizonMessage x0 x1 => Sys2Proof.Machine.execHorizonMessage x0 x1 s
  | .damoWindowClose x0 => Sys2Proof.Machine.execDamoWindowClose x0 s
  | .pairingArrival x0 => Sys2Proof.Machine.execPairingArrival x0 s
  | .pairingHoldExpiry x0 => Sys2Proof.Machine.execPairingHoldExpiry x0 s
  | .fallThroughApply x0 => Sys2Proof.Machine.execFallThroughApply x0 s
  | .atomicResultReturn x0 x1 => Sys2Proof.Machine.execAtomicResultReturn x0 x1 s
  | .weightBorrowAck x0 => Sys2Proof.Machine.execWeightBorrowAck x0 s
  | .ret => Sys2Proof.Machine.execRet s
  | .retEh => Sys2Proof.Machine.execRetEh s
  | .modeCal => Sys2Proof.Machine.execModeCal s
  | .modeSb => Sys2Proof.Machine.execModeSb s
  | .halt => Sys2Proof.Machine.execHalt s
  | .nop => Sys2Proof.Machine.execNop s
  | .mpop => Sys2Proof.Machine.execMpop s
  | .rrbdec => Sys2Proof.Machine.execRrbdec s
  | .tend => Sys2Proof.Machine.execTend s
  | .cut => Sys2Proof.Machine.execCut s
  | .queueRotation => Sys2Proof.Machine.execQueueRotation s
  | .dieWorkSteal => Sys2Proof.Machine.execDieWorkSteal s
  | .bookingRelease => Sys2Proof.Machine.execBookingRelease s
  | .teamAdmission => Sys2Proof.Machine.execTeamAdmission s
  | .teamSwap => Sys2Proof.Machine.execTeamSwap s
  | .shardPressureReplication => Sys2Proof.Machine.execShardPressureReplication s
  | .claspPairing => Sys2Proof.Machine.execClaspPairing s
  | .multicastWrite => Sys2Proof.Machine.execMulticastWrite s
  | .ringPacketArrival => Sys2Proof.Machine.execRingPacketArrival s
  | .ringPacketResend => Sys2Proof.Machine.execRingPacketResend s
  | .heartbeat => Sys2Proof.Machine.execHeartbeat s
  | .boundaryCut => Sys2Proof.Machine.execBoundaryCut s
  | .deliveryContextOpen => Sys2Proof.Machine.execDeliveryContextOpen s
  | .deliveryPacketArrival => Sys2Proof.Machine.execDeliveryPacketArrival s
  | .deliveryResendTimeout => Sys2Proof.Machine.execDeliveryResendTimeout s
  | .deliveryBusyRetry => Sys2Proof.Machine.execDeliveryBusyRetry s
  | .deliveryTeardown => Sys2Proof.Machine.execDeliveryTeardown s
  | .remoteTranslationReq => Sys2Proof.Machine.execRemoteTranslationReq s
  | .remoteTranslationReply => Sys2Proof.Machine.execRemoteTranslationReply s
  | .exportInvalidation => Sys2Proof.Machine.execExportInvalidation s
  | .pinRelease => Sys2Proof.Machine.execPinRelease s
  | .migrationCopyDone => Sys2Proof.Machine.execMigrationCopyDone s
  | .migrationSwitch => Sys2Proof.Machine.execMigrationSwitch s
  | .migrationLogRetry => Sys2Proof.Machine.execMigrationLogRetry s
  | .migrationFree => Sys2Proof.Machine.execMigrationFree s
  | .hcmdLaunch => Sys2Proof.Machine.execHcmdLaunch s
  | .hcmdCtxnew => Sys2Proof.Machine.execHcmdCtxnew s
  | .hcmdCtxend => Sys2Proof.Machine.execHcmdCtxend s
  | .hcmdInval => Sys2Proof.Machine.execHcmdInval s
  | .hcmdExport => Sys2Proof.Machine.execHcmdExport s
  | .hcmdUnexport => Sys2Proof.Machine.execHcmdUnexport s
  | .hcmdMigrate => Sys2Proof.Machine.execHcmdMigrate s
  | .hcmdMcgroup => Sys2Proof.Machine.execHcmdMcgroup s
  | .icauseWrite => Sys2Proof.Machine.execIcauseWrite s
  | .imaskWrite => Sys2Proof.Machine.execImaskWrite s
  | .registerWrite => Sys2Proof.Machine.execRegisterWrite s
  | .mresetGo => Sys2Proof.Machine.execMresetGo s
  | .fwstage => Sys2Proof.Machine.execFwstage s
  | .attreq => Sys2Proof.Machine.execAttreq s
  | .pcapWrite => Sys2Proof.Machine.execPcapWrite s
  | .coldReset => Sys2Proof.Machine.execColdReset s
  | .pcieReset => Sys2Proof.Machine.execPcieReset s
  | .bringupStage => Sys2Proof.Machine.execBringupStage s
  | .rackStcSync => Sys2Proof.Machine.execRackStcSync s
  | .powerStateEntry => Sys2Proof.Machine.execPowerStateEntry s
  | .powerStateExit => Sys2Proof.Machine.execPowerStateExit s
  | .thermalLimit => Sys2Proof.Machine.execThermalLimit s
  | .eccCorrection => Sys2Proof.Machine.execEccCorrection s
  | .eccReread => Sys2Proof.Machine.execEccReread s
  | .patrolScrub => Sys2Proof.Machine.execPatrolScrub s
  | .frameRetirement => Sys2Proof.Machine.execFrameRetirement s
  | .sramDoubleBitError => Sys2Proof.Machine.execSramDoubleBitError s
  | .redundantRunCompare => Sys2Proof.Machine.execRedundantRunCompare s
  | .testDue => Sys2Proof.Machine.execTestDue s
  | .testScanStart => Sys2Proof.Machine.execTestScanStart s
  | .testScanEnd => Sys2Proof.Machine.execTestScanEnd s
  | .testAbort => Sys2Proof.Machine.execTestAbort s
  | .sensorAlarm => Sys2Proof.Machine.execSensorAlarm s
  | .linkFrameReceive => Sys2Proof.Machine.execLinkFrameReceive s
  | .linkNakReceive => Sys2Proof.Machine.execLinkNakReceive s
  | .linkKeyExchange => Sys2Proof.Machine.execLinkKeyExchange s
  | .linkKeyMarker => Sys2Proof.Machine.execLinkKeyMarker s
  | .dcpFatalFault => Sys2Proof.Machine.execDcpFatalFault s
  | .rackLinkFailure => Sys2Proof.Machine.execRackLinkFailure s
  | .hostMemoryWrite => Sys2Proof.Machine.execHostMemoryWrite s
  | .ringPacketAck => Sys2Proof.Machine.execRingPacketAck s
  | .deliveryAck => Sys2Proof.Machine.execDeliveryAck s
  | .linkFrameAck => Sys2Proof.Machine.execLinkFrameAck s
  | .exportInvalidationAck => Sys2Proof.Machine.execExportInvalidationAck s

end Sys2Proof.Machine
end

