-- ==== Sys2Proof/Machine/Step.lean ====
section
/-! DEFINITION. One step of the machine: the event that is due, else the word of the stream whose turn it is, else the passing
of a cycle. -/

namespace Sys2Proof.Machine

/-- The word of the next stream issues; with none ready, bring-up goes on or the cycle passes. -/
def stepIssue (s : State) : Host.Outcome State Fault Refusal :=
  match s.nextSeq with
  | some (n, q) =>
    match s.fetchDecode n q with
    | (h, .ok i) => exec i (s.withTurn n q h)
    | (h, .error c) => .next ((s.withTurn n q h).decodeTrap c)
  | none => .next s.passCycle

/-- One step. In a stopped package nothing but a reset or an alarm runs, and with none to come the step stops (17 R407, R413). -/
def step (s : State) : Host.Outcome State Fault Refusal :=
  if s.stopped then
    match s.resetJob with
    | some (i, s') => exec i s'
    | none => .fault .stopped
  else
    match s.dueJob with
    | some (i, s') => exec i s'
    | none => stepIssue s

/-- The state with a word placed where `step` fetches next (log 10). -/
def State.withFetchWord (s : State) (nbits w : Nat) : State := s.placeTableWord nbits w

end Sys2Proof.Machine
end

