-- ==== Sys2Proof/Safety.lean ====
section
/-! DEFINITION. What counts as a safe run, and the terms in which the statements speak of the issue of a word and of what
it leaves. -/

namespace Sys2Proof

open Machine

/-- A run is safe over n steps when it neither stops nor is refused. -/
def SafeFor : Nat → State → Prop
  | 0, _ => True
  | n + 1, s => ∃ t, step s = .next t ∧ SafeFor n t

namespace Machine

/-- The word at hand passes the checks of R88 that depend on state and finds the tokens it pops and the room it pushes into; t
is the state in which its own effect is worked out. -/
def State.Begins (s : State) (k : Kind) (t : State) : Prop := ∃ c, s.settled.gate k = .ok c ∧ t = s.settled.begun k c

/-- In a scoreboard region no earlier result is still to reach one of these registers (05 R110). -/
def State.RegsFree (t : State) (rs : List RegF) : Prop :=
  t.cur.sys.region = true → t.cur.regBusy t.turn.q (rs.map (·.toNat)) = false

/-- The word has issued: it is the last word of its stream, in the cycle of the step. -/
def State.Issued (s u : State) : Prop :=
  u.turn = s.turn ∧ u.stc = s.stc ∧ u.curSeq.lastPc = s.curSeq.pc ∧ u.curSeq.last = s.stc

/-- What register r of sequencer q of core n holds in cycle `at_`, by the results placed so far. -/
def State.regAt (s : State) (n : Nat) (q : Seq) (r at_ : Nat) : Word := (((s.core n).settle at_).seq q).reg r

end Machine

end Sys2Proof
end

