-- ==== Sys2Proof/Certificates/Slice0/Obligations.lean ====
section
/-! DEFINITION. The statements for the provers: what the words, the events and the machine as a whole do, rule by rule. -/

open Sys2Proof Sys2Proof.Machine

/-! ### Words and decoding -/

/-- 04 R85 to R106: the word of every well-formed instruction, with any header, decodes to that instruction and that header on
every sequencer that may fetch it. -/
def Obligations.DecodeInvertsEncode : Prop :=
  ∀ (i : Instr) (q : Seq) (h : Hdr), i.wf q = true → decode none q (encode h i) = .ok i ∧ decodeHdr (encode h i) = h

/-- Words that the manual writes out bit by bit, of the scalar, vector, matrix, memory and atomic families, decode to the instructions that
they stand for (04 section 4.8; 05 R112, R125, R134; 06, 07, 08: the worked examples). -/
def Obligations.SampleWordsDecode : Prop :=
  decode none .c 0x0600301022400000 = .ok (.clmul 4 2 9) ∧
  decode none .c 0x124000000000C002 = .ok (.loopi 0 3 2) ∧
  decode none .c 0x0FC0101000000007 = .ok (.bnz 4 7) ∧
  decode none .x 0x15C0000000000000 = .ok .nop ∧
  decode none .x 0x4000C40100501882 = .ok (.vadd 4 5 6 4 2) ∧
  decode none .x 0x4100000280B03233 = .ok (.vfma 10 11 12 17 19) ∧
  decode none .x 0x5200004003C80000 = .ok (.pset 2 3 3 1) ∧
  decode none .l 0xA040200885000100 = .ok (.lddram 2 4 5 0x100) ∧
  decode none .c 0xA680000C41408012 = .ok (.damo 3 4 5 0 2 1 ⟨4, 0⟩) ∧
  decode none .x 0x8040301400000154 = .ok (.mma 5 0x154) ∧
  decode none .c 0x80000000C0000000 = .ok (.fpush 12)

/-- 04 R88, R105: an opcode that Table 4.7 does not list, and a listed one on a sequencer that it does not list for it, decodes to ILLINS
whatever the rest of the word holds; and under whatever decode table is in force, a fetched word whose entry is invalid or whose operation
the table does not list for the sequencer takes the trap ILLINS. -/
def Obligations.OpcodesThatTrap : Prop :=
  (∀ (q : Seq) (h : Hdr) (o : BitVec 40) (opc : Nat), opc < 1024 → opcSeqs opc = none →
    decode none q (packWord (BitVec.ofNat 10 opc) h o) = .error .illins) ∧
  (∀ (q : Seq) (h : Hdr) (o : BitVec 40) (opc : Nat), opc < 0x3C0 → opcLegal opc q = false →
    decode none q (packWord (BitVec.ofNat 10 opc) h o) = .error .illins) ∧
  (∀ (s : State) (n : Nat) (q : Seq), s.stopped = false → s.dueJob = none → s.nextSeq = some (n, q) →
    let w := (s.core n).fetch q ((s.core n).seq q).pc
    let opc := (w.extractLsb' 54 10).toNat
    let e := tableEntry (s.decodeTab (s.core n)) opc
    opc = 0 ∨ 0x3C0 ≤ opc ∨ e.toNat < 0x8000 ∨ opcLegal (e.toNat % 1024) q = false →
    step s = .next (({ s with turn := ⟨n, q, decodeHdr w⟩ } : State).settled.wordTrap .illins 0))

/-! ### The step -/

/-- 04 R86, R88: with nothing due, the stream whose turn it is fetches its word at its pc; a word that decodes is run by exec with the turn and
the header set, and a word that does not takes the trap of its cause. An event that is due runs first, with its own subject; one that
the end of the cycle judges waits for the words of the cycle. With nothing due, no stream ready, no bank request and bring-up over, the clock advances by one cycle and nothing but the effects that fall
due changes. -/
def Obligations.StepRunsTheDecodedWord : Prop :=
  (∀ (s : State) (n : Nat) (q : Seq), s.stopped = false → s.dueJob = none → s.nextSeq = some (n, q) →
    let w := (s.core n).fetch q ((s.core n).seq q).pc
    (∀ i, decode (s.decodeTab (s.core n)) q w = .ok i →
      step s = exec i { s with turn := ⟨n, q, decodeHdr w⟩ }) ∧
    (∀ c, decode (s.decodeTab (s.core n)) q w = .error c →
      step s = .next (({ s with turn := ⟨n, q, decodeHdr w⟩ } : State).settled.wordTrap c 0))) ∧
  (∀ (s : State) (j : Job) (l : List Job), s.stopped = false → s.agenda = j :: l →
    j.due < s.stc ∨ j.due = s.stc ∧ (j.phase < phEnd ∨ s.nextSeq = none) →
    step s = exec j.ev { s with agenda := l, inp := j.inp }) ∧
  (∀ (s : State), s.stopped = false → s.dueJob = none → s.nextSeq = none → s.mgmt.stage = 5 →
    (∀ p ∈ s.cores, p.2.reqs = []) →
    ∃ t, step s = .next t ∧ t.stc = s.stc + 1 ∧ t.dram = s.dram ∧ t.agenda = s.agenda ∧
      t.cores = s.cores.map fun p => (p.1, p.2.settle (s.stc + 1)))

/-- 17 R407, R413, R415, 19 R427: a stopped package runs again only after reset: with no reset and no alarm to come its step answers the fault;
the first of them to come is run at its cycle, and a reset begins the bring-up with the clock at 0; no other state of the machine
answers a fault, and none a refusal. -/
def Obligations.OnlyAStoppedPackageFaults : Prop :=
  (∀ s : State, s.stopped = true → (∀ j ∈ s.agenda, j.resets = false ∧ j.ev ≠ .sensorAlarm) → step s = .fault .stopped) ∧
  (∀ (s : State) (j : Job), s.stopped = true → s.agenda.find? (fun j => j.resets || decide (j.ev = .sensorAlarm)) = some j →
    step s = exec j.ev { s with agenda := s.agenda.erase j, inp := j.inp, stc := Nat.max s.stc j.due } ∧
    (j.resets = true → ∃ t, step s = .next t ∧ t.stopped = false ∧ t.mgmt.stage = 0 ∧ t.agenda = [] ∧ t.stc = 0)) ∧
  (∀ s : State, s.stopped = false → ∃ t, step s = .next t)

/-- The model's own invariant (log 3): whatever word or event a step runs, it keeps DRAM in its canonical form: addresses strictly
rising, and no listed byte equal to what an unlisted one reads as, so that equal memories are equal data; and a reset leaves it so. -/
def Obligations.MemoryStaysCanonical : Prop :=
  Memory.wf State.reset.dram = true ∧
  ∀ s t : State, Memory.wf s.dram = true → step s = .next t → Memory.wf t.dram = true

/-! ### Reset -/

/-- 02 R60, 19 R427: after a cold reset every register, accumulator cell, stitch-bank cell, flag, queue and scratchpad byte reads
zero, the system registers hold the reset values of Table 2.6, and no context, launch, record or window exists. The zeros of the
system registers for which the manual gives no reset value are the model's choice (log 2). -/
def Obligations.ResetState : Prop :=
  let s := State.reset
  (∀ n q r, ((s.core n).seq q).reg r = 0) ∧ (∀ n q k, ((s.core n).seq q).loopReg k = 0) ∧
  (∀ n q, ((s.core n).seq q).pc = 0 ∧ ((s.core n).seq q).ras = [] ∧ ((s.core n).seq q).rsspill = 0 ∧
    ((s.core n).seq q).tvec = 0 ∧ ((s.core n).seq q).epc = 0) ∧
  (∀ n r, (s.core n).vec.reg r = 0) ∧ (∀ n, (s.core n).vec.masks = []) ∧
  (∀ n k, predCount ((s.core n).vec.pred k) = 0 ∧ predWidth ((s.core n).vec.pred k) = 2 ∧ predGroup ((s.core n).vec.pred k) = 1) ∧
  (∀ n, (s.core n).vec.flags = {} ∧ (s.core n).sys.cause = 0 ∧ (s.core n).sys.frm = 0 ∧ (s.core n).sys.fen = 0 ∧
    (s.core n).sys.rotsz = 0 ∧ (s.core n).sys.rrb = 0 ∧ (s.core n).sys.spv = 0 ∧ (s.core n).sys.region = false ∧
    (s.core n).sys.audit = false) ∧
  (∀ n k, SMap.get 0 (s.core n).mx.acc k = 0) ∧ (∀ n k, SMap.get 0 (s.core n).mx.b0.cnt k = 0 ∧ SMap.get 0 (s.core n).mx.b1.cnt k = 0) ∧
  (∀ n, (s.core n).mx.b0.depth = 0 ∧ (s.core n).mx.b1.depth = 0) ∧
  (∀ n a, (s.core n).spm.byte a = 0) ∧
  s.ctxs = [] ∧ s.launches = [] ∧ s.recs = [] ∧ s.windows = [] ∧ s.dir = []

namespace Sys2Proof.Rules

/-- 05 R111, R112, Tables 5.1 to 5.3: latency, destination, sources and value of a scalar word, by what the registers hold when
it issues. -/
def scalar (rd : RegF → Word) : Instr → Option (Nat × RegF × List RegF × Word)
  | .add d a b => some (1, d, [a, b], BitVec.ofNat 64 ((rd a).toNat + (rd b).toNat))
  | .sub d a b => some (1, d, [a, b], BitVec.ofInt 64 ((rd a).toNat - (rd b).toNat))
  | .mul d a b => some (4, d, [a, b], BitVec.ofNat 64 ((rd a).toNat * (rd b).toNat))
  | .mulhi d a b => some (4, d, [a, b], BitVec.ofInt 64 ((rd a).toInt * (rd b).toInt / 2 ^ 64))
  | .mulhu d a b => some (4, d, [a, b], BitVec.ofNat 64 ((rd a).toNat * (rd b).toNat / 2 ^ 64))
  | .and d a b => some (1, d, [a, b], rd a &&& rd b)
  | .or d a b => some (1, d, [a, b], rd a ||| rd b)
  | .xor d a b => some (1, d, [a, b], rd a ^^^ rd b)
  | .andn d a b => some (1, d, [a, b], rd a &&& ~~~rd b)
  | .shl d a b => some (1, d, [a, b], BitVec.ofNat 64 ((rd a).toNat * 2 ^ ((rd b).toNat % 64)))
  | .shr d a b => some (1, d, [a, b], BitVec.ofNat 64 ((rd a).toNat / 2 ^ ((rd b).toNat % 64)))
  | .sra d a b => some (1, d, [a, b], BitVec.ofInt 64 ((rd a).toInt / 2 ^ ((rd b).toNat % 64)))
  | .min d a b => some (1, d, [a, b], if (rd a).toInt ≤ (rd b).toInt then rd a else rd b)
  | .max d a b => some (1, d, [a, b], if (rd a).toInt ≥ (rd b).toInt then rd a else rd b)
  | .minu d a b => some (1, d, [a, b], if (rd a).toNat ≤ (rd b).toNat then rd a else rd b)
  | .maxu d a b => some (1, d, [a, b], if (rd a).toNat ≥ (rd b).toNat then rd a else rd b)
  | .clmul d a b => some (2, d, [a, b], BitVec.ofNat 64 (clMul (rd a).toNat (rd b).toNat % 2 ^ 64))
  | .clmulh d a b => some (2, d, [a, b], BitVec.ofNat 64 (clMul (rd a).toNat (rd b).toNat / 2 ^ 64))
  | .popc d a => some (1, d, [a], BitVec.ofNat 64 (popcount 64 (rd a).toNat))
  | .clz d a => some (1, d, [a], BitVec.ofNat 64 (if (rd a).toNat = 0 then 64 else 63 - Nat.log2 (rd a).toNat))
  | .ctz d a => some (1, d, [a], BitVec.ofNat 64 (ctz64 (rd a).toNat))
  | .sel d a b => some (1, d, [a, b], if rd d = 0 then rd b else rd a)
  | .seq d a b => some (1, d, [a, b], if rd a = rd b then 1 else 0)
  | .slt d a b => some (1, d, [a, b], if (rd a).toInt < (rd b).toInt then 1 else 0)
  | .sltu d a b => some (1, d, [a, b], if (rd a).toNat < (rd b).toNat then 1 else 0)
  | .mov d a => some (1, d, [a], rd a)
  | .addi d n => some (1, d, [], BitVec.ofInt 64 ((rd d).toNat + n.toInt))
  | .andi d n => some (1, d, [], rd d &&& n.signExtend 64)
  | .ori d n => some (1, d, [], rd d ||| n.signExtend 64)
  | .xori d n => some (1, d, [], rd d ^^^ n.signExtend 64)
  | .shli d n => some (1, d, [], BitVec.ofNat 64 ((rd d).toNat * 2 ^ (n.toNat % 64)))
  | .shri d n => some (1, d, [], BitVec.ofNat 64 ((rd d).toNat / 2 ^ (n.toNat % 64)))
  | .srai d n => some (1, d, [], BitVec.ofInt 64 ((rd d).toInt / 2 ^ (n.toNat % 64)))
  | .li d n => some (1, d, [], BitVec.ofInt 64 n.toInt)
  | .lih d n => some (1, d, [], BitVec.ofNat 64 (n.toNat * 2 ^ 32 + (rd d).toNat % 2 ^ 32))
  | _ => none

/-- 05 R115, R116, Table 5.4: the registers that a branch or jump reads, and its target when it is taken. -/
def branch (rd : RegF → Word) : Instr → Option (List RegF × Option Tgt)
  | .beq a b t => some ([a, b], if rd a = rd b then some t else none)
  | .bne a b t => some ([a, b], if rd a = rd b then none else some t)
  | .blt a b t => some ([a, b], if (rd a).toInt < (rd b).toInt then some t else none)
  | .bge a b t => some ([a, b], if (rd a).toInt < (rd b).toInt then none else some t)
  | .bltu a b t => some ([a, b], if (rd a).toNat < (rd b).toNat then some t else none)
  | .bgeu a b t => some ([a, b], if (rd a).toNat < (rd b).toNat then none else some t)
  | .bz a t => some ([a], if rd a = 0 then some t else none)
  | .bnz a t => some ([a], if rd a = 0 then none else some t)
  | .jmp t => some ([], some t)
  | .jmpr a => some ([a], some ((rd a).setWidth 14))
  | _ => none

end Sys2Proof.Rules

/-! ### Scalar words -/

/-- The frame of the scalar words: whatever state exec answers, no byte of DRAM and no other core changes; and where the word
begins with its registers free, every other register holds at every later cycle what earlier words left it, and the system
registers, the vector, matrix and scratchpad state and the pending traps of the core are those of the settled state. -/
def Obligations.ScalarWordFrame : Prop :=
  ∀ (i : Instr) (s u : State), (∃ rd x, Rules.scalar rd i = some x) → s.turn.q ≠ .x → exec i s = .next u →
    (∀ a, Memory.byte u.dram a = Memory.byte s.dram a) ∧ (∀ n, n ≠ s.turn.core → u.core n = s.core n) ∧
    (∀ (t : State) (lat : Nat) (d : RegF) (srcs : List RegF) (v : Word), Rules.scalar t.rd i = some (lat, d, srcs, v) →
      s.Begins {} t → t.RegsFree (d :: srcs) →
      (∀ q r at_, (q, r) ≠ (s.turn.q, d.toNat) → u.regAt s.turn.core q r at_ = s.settled.regAt s.turn.core q r at_) ∧
      u.cur.sys = s.settled.cur.sys ∧ u.cur.vec = s.settled.cur.vec ∧ u.cur.mx = s.settled.cur.mx ∧
      u.cur.spm = s.settled.cur.spm ∧ u.cur.code = s.settled.cur.code ∧ u.cur.cmds = s.settled.cur.cmds ∧
      u.cur.eng = s.settled.cur.eng ∧ u.cur.tsk = s.settled.cur.tsk)

/-- 05 R109 to R112: a scalar word that begins, with its registers free in a scoreboard region, completes: it is the last word of its
stream, and its destination holds the value of Table 5.2 or 5.3 after the latency of Table 5.1, whatever other results are under
way; one whose source or destination still waits for a result is tried again in the next cycle and changes nothing. -/
def Obligations.ScalarWordWritesItsResult : Prop :=
  (∀ (i : Instr) (s t : State) (lat : Nat) (d : RegF) (srcs : List RegF) (v : Word),
    Rules.scalar t.rd i = some (lat, d, srcs, v) → s.turn.q ≠ .x → s.Begins {} t → t.RegsFree (d :: srcs) →
    ∃ u, exec i s = .next u ∧ s.Issued u ∧ u.regAt s.turn.core s.turn.q d.toNat (s.stc + lat) = v) ∧
  (∀ (i : Instr) (s t : State) (lat : Nat) (d : RegF) (srcs : List RegF) (v : Word),
    Rules.scalar t.rd i = some (lat, d, srcs, v) → s.turn.q ≠ .x → s.Begins {} t → t.cur.sys.region = true →
    t.cur.regBusy t.turn.q ((d :: srcs).map (·.toNat)) = true →
    ∃ u, exec i s = .next u ∧ u.curSeq = { s.settled.curSeq with retry := s.stc + 1 } ∧ u.dram = s.dram ∧
      u.cur.pend = s.settled.cur.pend)

/-! ### Control flow -/

/-- 05 R113 to R116: a branch or jump that begins, with its registers free, completes. Taken, the two words after it are its delay slots and
the target follows; not taken, fetch goes on in sequence after the end check of the loops, the two words still being delay slots. A branch, jump, call,
return, loop, BOOK or mode word in a delay slot takes the trap SLOT and has none of its effect. -/
def Obligations.BranchesTransferControl : Prop :=
  (∀ (i : Instr) (s t : State) (srcs : List RegF) (g : Option Tgt),
    Rules.branch t.rd i = some (srcs, g) → s.Begins { branch := true } t → t.RegsFree srcs →
    ∃ u, exec i s = .next u ∧ s.Issued u ∧ u.curSeq.slots = 2 ∧ u.curSeq.target = g ∧ u.curSeq.regs = t.curSeq.regs ∧
      (g.isSome → u.curSeq.pc = s.curSeq.pc + 1#14 ∧ u.curSeq.lc = t.curSeq.lc) ∧
      (g = none → u.curSeq.pc = (endCheck s.curSeq.pc (s.curSeq.pc + 1#14) [0, 1, 2, 3] t.curSeq).2)) ∧
  (∀ (i : Instr) (s : State), s.curSeq.slots ≠ 0 →
    ((∃ a b g, i = .beq a b g ∨ i = .bne a b g ∨ i = .blt a b g ∨ i = .bge a b g ∨ i = .bltu a b g ∨ i = .bgeu a b g) ∨
      (∃ a g, i = .bz a g ∨ i = .bnz a g) ∨ (∃ g, i = .jmp g ∨ i = .call g) ∨ (∃ a, i = .jmpr a ∨ i = .callr a) ∨
      i = .ret ∨ (∃ e c g, i = .beng e c g) ∨ (∃ k a g, g ≠ s.curSeq.pc ∧ i = .loop k a g) ∨
      (∃ k n g, g ≠ s.curSeq.pc ∧ i = .loopi k n g) ∨ i = .retEh ∨ (∃ d a, i = .book d a) ∨
      (s.curSeq.mode = .run ∧ (i = .modeCal ∨ i = .modeSb))) →
    exec i s = .next (s.settled.wordTrap .slot 0)) ∧
  (∀ (s t : State) (g : Tgt), s.Begins {} t → s.curSeq.target = some g →
    (s.curSeq.slots = 2 → ∃ u, exec .nop s = .next u ∧ s.Issued u ∧ u.curSeq.pc = s.curSeq.pc + 1#14 ∧
      u.curSeq.slots = 1 ∧ u.curSeq.target = some g) ∧
    (s.curSeq.slots = 1 → ∃ u, exec .nop s = .next u ∧ s.Issued u ∧ u.curSeq.pc = g ∧
      u.curSeq.slots = 0 ∧ u.curSeq.target = none))

/-- 05 R116: a call with room in the return-address store pushes the word after its second delay slot and transfers control; a return
pops the newest entry and transfers control to it. A call at depth 16 in a calendar region, or with no spill block left, takes RSFULL; a return
with nothing to pop and nothing spilled takes RSEMPTY. -/
def Obligations.CallsAndReturns : Prop :=
  ((∀ (s t : State) (g : Tgt), s.Begins { branch := true } t → t.curSeq.ras.length < 16 →
    ∃ u, exec (.call g) s = .next u ∧ s.Issued u ∧ u.curSeq.ras = (s.curSeq.pc + 3#14) :: t.curSeq.ras ∧
      u.curSeq.slots = 2 ∧ u.curSeq.target = some g) ∧
  (∀ (s t : State) (a : RegF), s.Begins { branch := true } t → t.RegsFree [a] → t.curSeq.ras.length < 16 →
    ∃ u, exec (.callr a) s = .next u ∧ s.Issued u ∧ u.curSeq.ras = (s.curSeq.pc + 3#14) :: t.curSeq.ras ∧
      u.curSeq.slots = 2 ∧ u.curSeq.target = some ((t.rd a).setWidth 14)) ∧
  (∀ (s t : State) (e : BitVec 14) (l : List (BitVec 14)), s.Begins { branch := true } t → t.curSeq.ras = e :: l →
    ∃ u, exec .ret s = .next u ∧ s.Issued u ∧ u.curSeq.ras = l ∧ u.curSeq.slots = 2 ∧ u.curSeq.target = some e)) ∧
  ((∀ (s t : State) (g : Tgt), s.Begins { branch := true } t → 16 ≤ t.curSeq.ras.length →
    (t.cur.sys.region = false ∨ spillUsed t.curSeq.rsspill = spillSlots t.curSeq.rsspill) →
    exec (.call g) s = .next (s.settled.wordTrap .rsfull 0)) ∧
  (∀ (s t : State), s.Begins { branch := true } t → t.curSeq.ras = [] → spillUsed t.curSeq.rsspill = 0 →
    exec .ret s = .next (s.settled.wordTrap .rsempty 0)))

/-- 05 R118 to R122, R127: both forms of rdstc write the stamp clock, whole or from T0, and set AUDIT; rdeng writes the engine's status and
beng tests it, and both set AUDIT in a scoreboard region. -/
def Obligations.ClockAndEngineReads : Prop :=
  ((∀ (s t : State) (d : RegF), s.turn.q ≠ .x → s.Begins { audit := true } t → t.RegsFree [d] →
    ∃ u, exec (.rdstc d) s = .next u ∧ s.Issued u ∧ u.cur.sys.audit = true ∧
      u.regAt s.turn.core s.turn.q d.toNat (s.stc + 1) = BitVec.ofNat 64 s.stc) ∧
  (∀ (s t : State) (d : RegF), s.turn.q ≠ .x → s.Begins { audit := true } t → t.RegsFree [d] →
    ∃ u, exec (.rdstcT0 d) s = .next u ∧ s.Issued u ∧ u.cur.sys.audit = true ∧
      u.regAt s.turn.core s.turn.q d.toNat (s.stc + 1) = BitVec.ofInt 64 ((s.stc : Int) - t.cur.sys.t0)) ∧
  (∀ (s t : State) (d : RegF) (e : BitVec 10), s.turn.q ≠ .x → s.Begins { audit := s.cur.sys.region } t → t.RegsFree [d] →
    ∃ u, exec (.rdeng d e) s = .next u ∧ s.Issued u ∧ (s.cur.sys.region = true → u.cur.sys.audit = true) ∧
      u.regAt s.turn.core s.turn.q d.toNat (s.stc + 1) = t.cur.engStatus e.toNat)) ∧
  (∀ (s t : State) (e c : RegF) (g : Tgt), s.Begins { branch := true, audit := s.cur.sys.region } t → c.toNat ≤ 2 →
    ∃ u, exec (.beng e c g) s = .next u ∧ s.Issued u ∧ u.curSeq.slots = 2 ∧
      (let x := t.cur.engine e.toNat
       let done := decide (x.out = 0) && !x.flt
       let taken := if c.toNat = 0 then done else if c.toNat = 1 then !done else x.flt
       u.curSeq.target = if taken then some g else none) ∧
      (s.cur.sys.region = true → u.cur.sys.audit = true))

/-- 05 R123, R124: a loop word with count 0 skips its body, the end check being that of the word's own place, which is the model's reading
(log 85); with another count it goes on, and from the next cycle its register holds COUNT, START and END. At the END of a loop whose COUNT is 2 or more, with no lower-numbered loop ending there, a nop outside delay slots goes
on at START with COUNT one less; at COUNT 1 the register falls to 0 and fetch goes on in sequence. -/
def Obligations.Loops : Prop :=
  (∀ (i : Instr) (s t : State) (k : BitVec 2) (last : Tgt) (n : Nat) (srcs : List RegF),
    ((∃ a, i = .loop k a last ∧ srcs = [a] ∧ n = (t.rd a).toNat % 2 ^ 32) ∨
      (∃ c, i = .loopi k c last ∧ srcs = [] ∧ n = c.toNat)) →
    last ≠ s.curSeq.pc → s.Begins { branch := true } t → t.RegsFree srcs →
    ∃ u, exec i s = .next u ∧ s.Issued u ∧ u.curSeq.slots = 0 ∧
      (n = 0 → u.curSeq.pc = (endCheck s.curSeq.pc (last + 1#14) [0, 1, 2, 3] t.curSeq).2) ∧
      (n ≠ 0 → ⟨s.stc + 1, .loop s.turn.q k.toNat (loopWord n (s.curSeq.pc + 1#14) last)⟩ ∈ u.cur.pend)) ∧
  (∀ (s t : State), s.Begins {} t → s.curSeq.slots = 0 →
    lcEnd (t.curSeq.loopReg 0) = s.curSeq.pc →
    (2 ≤ lcCount (t.curSeq.loopReg 0) →
      ∃ u, exec .nop s = .next u ∧ s.Issued u ∧ u.curSeq.pc = lcStart (t.curSeq.loopReg 0) ∧
        lcCount (u.curSeq.loopReg 0) = lcCount (t.curSeq.loopReg 0) - 1 ∧
        (∀ k, k ≠ 0 → u.curSeq.loopReg k = t.curSeq.loopReg k)) ∧
    (lcCount (t.curSeq.loopReg 0) = 1 → (∀ k, k ≠ 0 → lcEnd (t.curSeq.loopReg k) ≠ s.curSeq.pc) →
      ∃ u, exec .nop s = .next u ∧ s.Issued u ∧ u.curSeq.pc = s.curSeq.pc + 1#14 ∧ lcCount (u.curSeq.loopReg 0) = 0))

/-! ### System words -/

/-- 05 R126, 02 R56: on C, L and S mfsr writes D with the whole register, visible in the next cycle, and mtsr of a legal value places the
write, in force from the next cycle; on X outside precise mode element 0 takes D's part. An unassigned register number traps
with ILLSR, a value that the register marks illegal with ILLOP. -/
def Obligations.SystemRegisterMoves : Prop :=
  ((∀ (s t : State) (d : RegF) (n : BitVec 10), s.turn.q ≠ .x → s.Begins {} t → t.RegsFree [d] →
    sysAssigned n.toNat = true →
    ∃ u, exec (.mfsr d n) s = .next u ∧ s.Issued u ∧
      u.regAt s.turn.core s.turn.q d.toNat (s.stc + 1) = t.cur.readSys (s.idOf s.turn.core) s.turn.q n.toNat) ∧
  (∀ (s t : State) (d : RegF) (n : BitVec 10), s.turn.q ≠ .x → s.Begins {} t → t.RegsFree [d] →
    sysAssigned n.toNat = true → t.cur.legalSys n.toNat (t.rd d) = true →
    ∃ u, exec (.mtsr d n) s = .next u ∧ s.Issued u ∧
      ⟨s.stc + 1, .sys s.turn.q n.toNat (t.rd d)⟩ ∈ u.cur.pend)) ∧
  ((∀ (s t : State) (d : RegF) (n : BitVec 10), s.turn.q = .x → s.cur.sys.fen = 0#5 → s.settled.cur.sys.fen = 0#5 →
    s.settled.cur.vec.window = [] → s.Begins {} t → t.cur.sys.region = false → sysAssigned n.toNat = true →
    ∃ u, exec (.mfsr d n) s = .next u ∧ s.Issued u ∧
      ⟨s.stc + 2, .element0 d.toNat (t.cur.readSys (s.idOf s.turn.core) .x n.toNat)⟩ ∈ u.cur.pend) ∧
  (∀ (s t : State) (d : RegF) (n : BitVec 10), s.turn.q = .x → s.cur.sys.fen = 0#5 → s.settled.cur.sys.fen = 0#5 →
    s.settled.cur.vec.window = [] → s.Begins {} t → t.cur.sys.region = false → sysAssigned n.toNat = true →
    t.cur.legalSys n.toNat (vreg64 (t.cur.vec.reg d.toNat)) = true →
    ∃ u, exec (.mtsr d n) s = .next u ∧ s.Issued u ∧
      ⟨s.stc + 1, .sys .x n.toNat (vreg64 (t.cur.vec.reg d.toNat))⟩ ∈ u.cur.pend)) ∧
  (∀ (s t : State) (d : RegF) (n : BitVec 10), s.turn.q ≠ .x → s.Begins {} t →
    (sysAssigned n.toNat = false → exec (.mfsr d n) s = .next (s.settled.wordTrap .illsr 0) ∧
      exec (.mtsr d n) s = .next (s.settled.wordTrap .illsr 0)) ∧
    (sysAssigned n.toNat = true → t.RegsFree [d] → t.cur.legalSys n.toNat (t.rd d) = false →
      exec (.mtsr d n) s = .next (s.settled.wordTrap .illop 0)))

/-- 05 R134: nop has no effect but its issue cycle, its IDLE and its token actions: on every sequencer, on X with no precise word open, it
completes, and its core's registers, results under way, system registers, vector, matrix and scratchpad state (but the count of a
skip, R157), its data queues, engines and commands, every other core, all memory and every event placed are those of the settled
state. Its plain word is that of R134. -/
def Obligations.NopOnlyIssues : Prop :=
  (∀ (s t : State), (s.turn.q = .x → s.settled.cur.vec.window = []) → s.Begins {} t →
    ∃ u, exec .nop s = .next u ∧ s.Issued u ∧ u.dram = s.dram ∧ u.cur.pend = s.settled.cur.pend ∧
      (∀ q, (u.cur.seq q).regs = (s.settled.cur.seq q).regs) ∧ u.cur.sys = s.settled.cur.sys ∧
      u.cur.vec = (if s.turn.q = .x then { s.settled.cur.vec with skip := s.settled.cur.vec.skip - 1 } else s.settled.cur.vec) ∧
      u.cur.mx = s.settled.cur.mx ∧ u.cur.spm = s.settled.cur.spm ∧ u.cur.tsk = s.settled.cur.tsk ∧ u.agenda = s.agenda ∧
      u.cur.q.lq = s.settled.cur.q.lq ∧ u.cur.q.sq = s.settled.cur.q.sq ∧ u.cur.q.fq = s.settled.cur.q.fq ∧
      u.cur.eng = s.settled.cur.eng ∧ u.cur.cmds = s.settled.cur.cmds ∧ u.cur.code = s.settled.cur.code ∧
      ∀ m, m ≠ s.turn.core → u.core m = s.core m) ∧
  ∀ q, decode none q 0x15C0000000000000 = .ok .nop

/-! ### Exceptions -/

/-- 05 R131: on every sequencer, on X with no precise word open, `trap` takes the trap SOFT: with the handler enabled and VALID 0 sr.epc
receives its own pc and sr.cause the cause SOFT with no trace of the code; where the trap ends the task the fault record carries the
code. The code 1023 is out of range. -/
def Obligations.TrapWordTakesSoft : Prop :=
  (∀ (s t : State) (code : BitVec 10), (s.turn.q = .x → s.settled.cur.vec.window = []) → s.Begins {} t →
    let n := s.turn.core
    let q := s.turn.q
    let k := s.settled.core n
    ∃ u, exec (.trap code) s = .next u ∧ u = s.settled.takeTrap n q .soft code 0 s.curSeq.pc true s.stc false ∧
      (k.sys.valid = false → (k.seq q).tvec.getLsbD 14 = true →
        ((u.core n).seq q).epc = s.curSeq.pc.setWidth 64 ∧ ((u.core n).seq q).pc = (k.seq q).tvec.setWidth 14 ∧
        (u.core n).sys.cause = BitVec.ofNat 21 (2 ^ 20 + (2 ^ 8 * seqNum q + causeCode .soft))) ∧
      (k.sys.valid = false → (k.seq q).tvec.getLsbD 14 = false → k.tsk.ending = none →
        (u.core n).tsk.ending = some (0x20, faultDetail (causeCode .soft) (seqNum q) 0 0 s.curSeq.pc.toNat code.toNat 0 0))) ∧
  ∀ q, decode none q 0x15400000000003FF = .error .illop

/-- 02 R58, 05 R117, R132: with VALID 0 and the handler enabled sr.epc receives the pc, sr.cause the cause, sequencer, lane and VALID, and the
sequencer goes on at HPC in a scoreboard region; with the handler disabled, or VALID already 1, the task ends with a fault record
and all streams stop. ret.eh in the handler of its own sequencer clears VALID, restores the region and goes on at sr.epc; elsewhere
it traps with ILLOP. -/
def Obligations.TrapsAreTaken : Prop :=
  (∀ (s : State) (n : Nat) (q : Seq) (c : Cause) (code : BitVec 10) (lane : Nat) (pc : BitVec 14) (own mx : Bool) (at_ : Nat),
    (s.core n).sys.valid = false → ((s.core n).seq q).tvec.getLsbD 14 = true → lane < 1024 →
    let u := s.takeTrap n q c code lane pc own at_ mx
    ((u.core n).seq q).epc = pc.setWidth 64 ∧ ((u.core n).seq q).pc = ((s.core n).seq q).tvec.setWidth 14 ∧
    (u.core n).sys.cause = BitVec.ofNat 21 (2 ^ 20 + (2 ^ 10 * lane + (2 ^ 8 * seqNum q + causeCode c))) ∧
    (u.core n).sys.region = true ∧ (u.core n).sys.handler = some q ∧ (u.core n).sys.trapRegion = (s.core n).sys.region ∧
    (∀ r, r ≠ q → (u.core n).seq r = (s.core n).seq r) ∧ ((u.core n).seq q).regs = ((s.core n).seq q).regs ∧
    u.dram = s.dram ∧ (∀ m, m ≠ n → u.core m = s.core m)) ∧
  (∀ (s : State) (n : Nat) (q : Seq) (c : Cause) (code : BitVec 10) (lane : Nat) (pc : BitVec 14) (own : Bool) (at_ : Nat),
    (s.core n).tsk.ending = none → lane < 1024 →
    let u := s.takeTrap n q c code lane pc own at_ false
    ((s.core n).sys.valid = false → ((s.core n).seq q).tvec.getLsbD 14 = false →
      (u.core n).tsk.ending = some (0x20, faultDetail (causeCode c) (seqNum q) lane 0 pc.toNat code.toNat 0 0) ∧
      (u.core n).sys.valid = true ∧ (∀ r, ((u.core n).seq r).mode = .ended)) ∧
    ((s.core n).sys.valid = true →
      (u.core n).tsk.ending = some (0x20, faultDetail 0x10 (seqNum q) lane 0 pc.toNat code.toNat (causeCode c) 0) ∧
      (u.core n).sys.cause = (s.core n).sys.cause ∧ (∀ r, ((u.core n).seq r).epc = ((s.core n).seq r).epc) ∧
      (∀ r, ((u.core n).seq r).mode = .ended))) ∧
  ((∀ (s t : State), s.turn.q ≠ .x → s.Begins { branch := true } t → t.cur.sys.handler = some s.turn.q →
    t.cur.sys.trapRegion = true →
    t.curSeq.redirect = none →
    ∃ u, exec .retEh s = .next u ∧ u.curSeq.pc = t.curSeq.epc.setWidth 14 ∧ u.curSeq.lastPc = s.curSeq.pc ∧
      u.cur.sys.valid = false ∧ u.cur.sys.region = true ∧ u.cur.sys.handler = none ∧ u.curSeq.slots = 0 ∧
      u.curSeq.regs = t.curSeq.regs) ∧
  (∀ (s t : State), s.Begins { branch := true } t → t.cur.sys.handler ≠ some s.turn.q →
    exec .retEh s = .next (s.settled.wordTrap .illop 0)))

namespace Sys2Proof.Rules

/-- 06 Table 6.1, R142 to R153, R159 to R165: latency and occupancy of the vector words that the pipeline executes register by
register. -/
def vector : Instr → Option (Nat × Nat)
  | .vadd _ _ _ _ ty | .vsub _ _ _ _ ty | .vmul _ _ _ _ ty | .vfma _ _ _ _ ty | .vfms _ _ _ _ ty | .vfnma _ _ _ _ ty
  | .vfnms _ _ _ _ ty | .vmin _ _ _ _ ty | .vmax _ _ _ _ ty | .vabs _ _ _ ty | .vneg _ _ _ ty | .vclass _ _ _ ty =>
    some (if ty.toNat % 4 = 3 then (10, 8) else (6, 4))
  | .vdiv _ _ _ _ ty | .vsqrt _ _ _ ty | .vrcp _ _ _ ty | .vrsqrt _ _ _ ty | .vexp _ _ _ ty | .vexp2 _ _ _ ty
  | .vlog _ _ _ ty | .vlog2 _ _ _ ty | .verf _ _ _ ty => some (if ty.toNat % 4 = 3 then (58, 16) else (22, 8))
  | .vcmpeq _ _ _ _ ty | .vcmpne _ _ _ _ ty | .vcmplt _ _ _ _ ty | .vcmple _ _ _ _ ty | .vicmpeq _ _ _ _ ty
  | .vicmplt _ _ _ _ ty | .vicmple _ _ _ _ ty | .viadd _ _ _ _ ty | .visub _ _ _ _ ty | .viand _ _ _ _ ty
  | .vior _ _ _ _ ty | .vixor _ _ _ _ ty | .vishl _ _ _ _ ty | .vishr _ _ _ _ ty | .visra _ _ _ _ ty
  | .vimin _ _ _ _ ty | .vimax _ _ _ _ ty | .viabs _ _ _ ty | .vpopc _ _ _ ty =>
    some (if ty.toNat % 4 = 3 then (6, 8) else (4, 4))
  | .vimul _ _ _ _ ty | .vimulh _ _ _ _ ty => some (if ty.toNat % 4 = 3 then (12, 8) else (6, 4))
  | .vrotr .. | .vperm .. => some (8, 4)
  | .vbcr .. | .vzip .. | .vunzip .. => some (6, 4)
  | .vrotc .. => some (5, 4)
  | .vbcc .. | .vsel .. | .vflrd .. => some (4, 4)
  | .vredr _ _ k _ ty | .vprer _ _ k _ ty => some (if redWidth k.toNat ty = 64 then (16, 8) else (12, 4))
  | .vredc _ _ k _ ty | .vprec _ _ k _ ty => some (if redWidth k.toNat ty = 64 then (13, 8) else (9, 4))
  | .vpxorr _ _ k ty =>
    some (if k.toNat / 2 % 2 = 1 then (if ty.toNat % 4 = 3 then (25, 8) else (21, 4)) else if ty.toNat % 4 = 3 then (16, 8) else (12, 4))
  | .vpxorc _ _ ty => some (if ty.toNat % 4 = 3 then (13, 8) else (9, 4))
  | .vmov .. => some (2, 4)
  | .vcvt _ _ spec _ _ => some (if cvtWidth (cvtFrom spec) = 64 ∨ cvtWidth (cvtTo spec) = 64 then (6, 8) else (6, 4))
  | .vpk8 .. => some (12, 4)
  | .vpk4 .. => some (12, 8)
  | .vpk8x .. => some (16, 4)
  | .vpk4x .. => some (16, 8)
  | .vupk8 .. => some (8, 4)
  | .vupk4 .. => some (8, 8)
  | .vrand .. => some (14, 8)
  | .pcnt .. | .pfirst .. => some (9, 4)
  | _ => none

/-- 06 R135, R160, R162: the cycles, from the issue, of the reads of a word over g registers with occupancy n. -/
def readAt (i : Instr) (n g : Nat) : List Nat :=
  match i with
  | .vpk4 .. | .vpk4x .. => [0, 4]
  | .vupk4 .. => [0]
  | _ => (List.range g).map fun k => n * k

/-- 06 R135, R155, R160, R162: the cycles, from the issue, of its completions. -/
def doneAt (i : Instr) (l n g : Nat) : List Nat :=
  match i with
  | .vupk4 .. => [l, l + 4]
  | .pcnt .. | .pfirst .. => [l + n * (g - 1)]
  | _ => (List.range g).map fun k => l + n * k

/-- 06 R136, R138: a vector word may enter the engine: no result that it needs is under way in a
scoreboard region, the port is free, and, unless its stage bit is 0, the queue entries of its first read are there. -/
def VectorReady (t : State) (i : Instr) : Prop :=
  let o := (Instr.vops i).getD {}
  (t.cur.sys.region = true → t.cur.vecWaits i o = false) ∧ t.cur.vec.portFree ≤ t.stc ∧
  (t.cur.stageOff o.p = false → t.cur.headsReady t.stc (vsources i o 0) = true)

/-- A word of the vector engine as it stands after its issue: its operation, its cycle, its group, the sample of its predicate, and
its reads and completions in the agenda. -/
def InEngine (s t u : State) (i : Instr) (l n : Nat) (reads dones : List Nat) : Prop :=
  let o := (Instr.vops i).getD {}
  let g := t.cur.groupOf o
  (u.cur.engine engVxe).out = (t.cur.engine engVxe).out + 1 ∧ u.cur.vec.portFree = s.stc + n * g ∧
  ∃ w ∈ u.cur.vec.words, w.op = i ∧ w.issued = s.stc ∧ w.pc = s.curSeq.pc ∧ w.group = g ∧ w.lat = l ∧ w.occ = n ∧
    w.active = t.cur.active o.p ∧
    (∀ k c, reads[k]? = some c → ⟨s.stc + c, phRead, .vectorGroupRead s.turn.core w.id k, {}, {}⟩ ∈ u.agenda) ∧
    (∀ k c, dones[k]? = some c → ⟨s.stc + c, phComplete, .vectorCompletion s.turn.core w.id k, {}, {}⟩ ∈ u.agenda)

/-- 06 Tables 6.5 and 6.6, R146, R147, R149, R153: width of the elements of a word, and the value of element j of its destination
where it is active. -/
def element (x : VIn) (j : Nat) : Instr → Option (Nat × Nat)
  | .viadd _ _ _ _ ty =>
    some (ew ty, intN ty (intOf ty (velem (ew ty) x.a j) + intOf ty (velem (ew ty) x.b j)))
  | .visub _ _ _ _ ty =>
    some (ew ty, intN ty (intOf ty (velem (ew ty) x.a j) - intOf ty (velem (ew ty) x.b j)))
  | .vimul _ _ _ _ ty =>
    some (ew ty, intN ty (intOf ty (velem (ew ty) x.a j) * intOf ty (velem (ew ty) x.b j)))
  | .vimulh _ _ _ _ ty =>
    some (ew ty, mod2 (ew ty) (intOf ty (velem (ew ty) x.a j) * intOf ty (velem (ew ty) x.b j) / 2 ^ ew ty))
  | .viand _ _ _ _ ty => some (ew ty, velem (ew ty) x.a j &&& velem (ew ty) x.b j)
  | .vior _ _ _ _ ty => some (ew ty, velem (ew ty) x.a j ||| velem (ew ty) x.b j)
  | .vixor _ _ _ _ ty => some (ew ty, velem (ew ty) x.a j ^^^ velem (ew ty) x.b j)
  | .vishl _ _ _ _ ty => some (ew ty, velem (ew ty) x.a j * 2 ^ (velem (ew ty) x.b j % ew ty) % 2 ^ ew ty)
  | .vishr _ _ _ _ ty => some (ew ty, velem (ew ty) x.a j / 2 ^ (velem (ew ty) x.b j % ew ty))
  | .visra _ _ _ _ ty =>
    some (ew ty, mod2 (ew ty) (Fp.signedOf (ew ty) (velem (ew ty) x.a j) / 2 ^ (velem (ew ty) x.b j % ew ty)))
  | .vimin _ _ _ _ ty =>
    some (ew ty, if intOf ty (velem (ew ty) x.a j) ≤ intOf ty (velem (ew ty) x.b j) then velem (ew ty) x.a j else velem (ew ty) x.b j)
  | .vimax _ _ _ _ ty =>
    some (ew ty, if intOf ty (velem (ew ty) x.a j) ≥ intOf ty (velem (ew ty) x.b j) then velem (ew ty) x.a j else velem (ew ty) x.b j)
  | .viabs _ _ _ ty => some (ew ty, intN ty (intOf ty (velem (ew ty) x.a j)).natAbs)
  | .vpopc _ _ _ ty => some (ew ty, popcount (ew ty) (velem (ew ty) x.a j))
  | .vicmpeq _ _ _ _ ty => some (ew ty, if velem (ew ty) x.a j = velem (ew ty) x.b j then 2 ^ ew ty - 1 else 0)
  | .vicmplt _ _ _ _ ty =>
    some (ew ty, if intOf ty (velem (ew ty) x.a j) < intOf ty (velem (ew ty) x.b j) then 2 ^ ew ty - 1 else 0)
  | .vicmple _ _ _ _ ty =>
    some (ew ty, if intOf ty (velem (ew ty) x.a j) ≤ intOf ty (velem (ew ty) x.b j) then 2 ^ ew ty - 1 else 0)
  | .vmov _ _ _ ty => some (ew ty, velem (ew ty) x.a j)
  | .vrotr _ _ k _ ty =>
    let c := 2048 / ew ty
    some (ew ty, velem (ew ty) x.a (j / c * c + (j % c + (c - k.toNat % c)) % c))
  | .vrotc _ _ k _ ty =>
    let c := 2048 / ew ty
    some (ew ty, velem (ew ty) x.a ((j / c + (16 - k.toNat % 16)) % 16 * c + j % c))
  | .vbcr _ _ k _ ty =>
    let c := 2048 / ew ty
    some (ew ty, velem (ew ty) x.a (j / c * c + k.toNat))
  | .vbcc _ _ k _ ty =>
    let c := 2048 / ew ty
    some (ew ty, velem (ew ty) x.a (k.toNat * c + j % c))
  | .vperm _ _ _ _ ty =>
    let c := 2048 / ew ty
    some (ew ty, velem (ew ty) x.a
      (if ty.toNat / 4 % 2 = 1 then velem (ew ty) x.b j % (32768 / ew ty) else j / c * c + velem (ew ty) x.b j % c))
  | .vzip _ _ _ _ ty =>
    let c := 2048 / ew ty
    let m := j / c * c + j % c / 2 + (if ty.toNat / 4 % 2 = 1 then c / 2 else 0)
    some (ew ty, if j % c % 2 = 0 then velem (ew ty) x.a m else velem (ew ty) x.b m)
  | .vunzip _ _ _ _ ty =>
    let c := 2048 / ew ty
    let p := 2 * (j % c) + ty.toNat / 4 % 2
    some (ew ty, if p < c then velem (ew ty) x.a (j / c * c + p) else velem (ew ty) x.b (j / c * c + p - c))
  | _ => none
where
  /-- Element width of TY (04 R94). -/
  ew (ty : TyF) : Nat := 8 * 2 ^ (ty.toNat % 4)
  /-- The integer that an element stands for: unsigned or in two's complement, by MOD (04 R94). -/
  intOf (ty : TyF) (v : Nat) : Int := if ty.toNat / 4 % 2 = 1 then v else Fp.signedOf (ew ty) v
  mod2 (w : Nat) (v : Int) : Nat := (v % 2 ^ w).toNat
  /-- The pattern of a result: modulo 2^w, or, where MOD asks for it, clamped to the range of the type (06 R146). -/
  intN (ty : TyF) (v : Int) : Nat :=
    let lo : Int := if ty.toNat / 4 % 2 = 1 then 0 else -(2 ^ (ew ty - 1))
    let hi : Int := if ty.toNat / 4 % 2 = 1 then 2 ^ ew ty - 1 else 2 ^ (ew ty - 1) - 1
    mod2 (ew ty) (if ty.toNat / 8 = 1 then (if v < lo then lo else if hi < v then hi else v) else v)

/-- 06 R154 to R158: a word that changes a predicate, the mask stack, the stage bits or the rotating base, with the effects that
are in force from the next cycle; none where its value is illegal or the mask stack empty. -/
def stateWord (c : Core) : Instr → Option (Bool × List Eff)
  | .pset pd n w g =>
    let p : BitVec 18 := BitVec.ofNat 18 (n.toNat + 8192 * w.toNat + 32768 * g.toNat)
    if predLegal p then some (true, [.pred pd.toNat p]) else none
  | .minv _ => if c.maskNone then none else some (false, [.maskTop (~~~c.maskTop &&& c.maskBelow)])
  | .mpop => if c.maskNone then none else some (false, [.maskPop])
  | .spset m => some (true, [.spv m])
  | .spshl b r => some (true, .spv (c.sys.spv <<< 1 ||| b.setWidth 8) :: (if r = 1#1 then stepBase c else []))
  | .rrbdec => some (true, stepBase c)
  | .rrbset b => if (b.toNat < c.sys.rotsz.toNat ∧ b.toNat < 512) ∨ (c.sys.rotsz = 0#10 ∧ b = 0#10) then some (true, [.rrb (b.setWidth 9)]) else none
  | _ => none
where
  /-- 06 R158: the base steps down by one in the rotating region. -/
  stepBase (c : Core) : List Eff :=
    let n := c.sys.rotsz.toNat
    if n = 0 then [] else [.rrb (BitVec.ofNat 9 (if c.sys.rrb.toNat % n = 0 then n - 1 else c.sys.rrb.toNat % n - 1))]

end Sys2Proof.Rules

/-! ### Vector words -/

/-- 06 R135, R136, Table 6.1, 07 R193, R197: a vector word that begins and may enter the engine completes its issue: the engine counts it,
the port is taken for n cycles a register, and its group reads and completions fall due at the cycles of R135; a tile move, whose
tile is booked, reads and completes at the cycles of R193. No other core and no byte of DRAM changes. -/
def Obligations.VectorWordEntersTheEngine : Prop :=
  (∀ (i : Instr) (s t : State) (l n : Nat), Rules.vector i = some (l, n) → s.turn.q = .x →
    let o := (Instr.vops i).getD {}
    s.Begins (s.vecKind o true false) t → Rules.VectorReady t i → t.suppressed = false →
    ∃ u, exec i s = .next u ∧ s.Issued u ∧
      Rules.InEngine s t u i l n (Rules.readAt i n (t.cur.groupOf o)) (Rules.doneAt i l n (t.cur.groupOf o)) ∧
      u.cur.vec.vrf = t.cur.vec.vrf ∧ u.dram = s.dram ∧ (∀ m, m ≠ s.turn.core → u.core m = s.core m)) ∧
  (∀ (i : Instr) (s t : State) (l r : Nat) (audit : Bool), s.turn.q = .x →
    ((∃ v a rb ch p, i = .a2v v a rb ch p ∧ l = 8 ∧ r = 2 ∧ audit = false ∧ (t.cur.stageOff p = false → t.tileCheck a 2 = none)) ∨
      (∃ v a rb ch p, i = .v2a v a rb ch p ∧ l = 6 ∧ r = 0 ∧ audit = false ∧ (t.cur.stageOff p = false → t.tileCheck a 6 = none)) ∨
      (∃ v, i = .ckrd v ∧ l = 8 ∧ r = 2 ∧ audit = true)) →
    let o := (Instr.vops i).getD {}
    s.Begins (s.vecKind o false audit) t → t.cur.groupOf o = 1 → Rules.VectorReady t i →
    ∃ u, exec i s = .next u ∧ s.Issued u ∧ (u.cur.engine engVxe).out = (t.cur.engine engVxe).out + 1 ∧
      ∃ w ∈ u.cur.vec.words, w.op = i ∧ w.issued = s.stc ∧ w.active = t.cur.active o.p ∧
        (∃ j ∈ u.agenda, j.due = s.stc + r ∧ j.ev = .vectorGroupRead s.turn.core w.id 0) ∧
        (∃ j ∈ u.agenda, j.due = s.stc + l ∧ j.ev = .vectorCompletion s.turn.core w.id 0))

/-- 06 R154 to R158: outside precise mode a predicate, mask, stage or rotation word that begins places its effects for the next cycle;
behind an uncommitted precise word the window holds them. An illegal predicate or base traps with ILLOP, an empty mask stack with MSEMPTY,
a full one with MSFULL. -/
def Obligations.VectorStateWords : Prop :=
  (∀ (i : Instr) (s t : State) (sk : Bool) (effs : List Eff), Rules.stateWord t.cur i = some (sk, effs) → s.turn.q = .x →
    let o := (Instr.vops i).getD {}
    s.Begins (s.vecKind o sk false) t → (sk = true → t.suppressed = false) →
    (t.cur.sys.region = true → t.cur.sysWaits (Instr.sysReads i o) = false) →
    ∃ u, exec i s = .next u ∧ s.Issued u ∧
      (t.cur.vec.window = [] → ∀ e ∈ effs, ⟨s.stc + 1, e⟩ ∈ u.cur.pend) ∧
      (t.cur.vec.window ≠ [] → ∃ w ∈ u.cur.vec.window, ∀ e ∈ effs, e ∈ w.held) ∧
      u.cur.vec.vrf = t.cur.vec.vrf ∧ u.cur.vec.masks = t.cur.vec.masks ∧ u.dram = s.dram ∧
      (∀ m, m ≠ s.turn.core → u.core m = s.core m)) ∧
  (∀ (s t : State), s.turn.q = .x →
    (∀ pd n w g, predLegal (BitVec.ofNat 18 (BitVec.toNat n + 8192 * BitVec.toNat w + 32768 * BitVec.toNat g)) = false →
      exec (.pset pd n w g) s = .next (s.settled.wordTrap .illop 0)) ∧
    (s.Begins (s.vecKind {} false false) t → t.cur.vec.masks = [] →
      (t.cur.sys.region = true → t.cur.sysWaits [0x003, 0x008] = false) →
      exec .mpop s = .next (s.settled.wordTrap .msempty 0) ∧ ∀ k, exec (.minv k) s = .next (s.settled.wordTrap .msempty 0)) ∧
    (∀ b : BitVec 10, (t.cur.sys.region = true → t.cur.sysWaits [0x005] = false) → s.Begins (s.vecKind {} true false) t →
      ¬((b.toNat < t.cur.sys.rotsz.toNat ∧ b.toNat < 512) ∨ (t.cur.sys.rotsz = 0#10 ∧ b = 0#10)) →
      exec (.rrbset b) s = .next (s.settled.wordTrap .illop 0)) ∧
    (∀ a k w, let o := (Instr.vops (.mpush a k w)).getD {}
      s.Begins (s.vecKind o false false) t → (t.cur.sys.region = true → t.cur.vecWaits (.mpush a k w) o = false) →
      t.cur.vec.portFree ≤ t.stc → 16 ≤ t.cur.vec.masks.length →
      exec (.mpush a k w) s = .next (s.settled.wordTrap .msfull 0)))

/-- 06 R156, R157, R164: mpush of a register pushes, two cycles later, the lanes whose element is nonzero within the mask under it; an all-zero
mask starts a skip, in which a vector word only issues and leaves the skip one word shorter; vflclr clears the named flags of the
active lanes in its own cycle. -/
def Obligations.MasksAndSkips : Prop :=
  (∀ (s t : State) (a : VOpF) (skip : BitVec 10) (wd : BitVec 2), s.turn.q = .x → a.toNat ≤ 639 →
    let i : Instr := .mpush a skip wd
    let o := (Instr.vops i).getD {}
    s.Begins (s.vecKind o false false) t → Rules.VectorReady t i → t.cur.maskFull = false →
    let top := nzLanes (8 * 2 ^ wd.toNat) (t.cur.vec.reg (physReg t.cur.sys.rotsz.toNat t.cur.sys.rrb.toNat a.toNat)) &&& t.cur.maskTop
    ∃ u, exec i s = .next u ∧ s.Issued u ∧
      (t.cur.sys.region = true ∨ t.cur.vec.window ≠ [] → ∃ w ∈ u.cur.vec.words, w.op = i ∧ w.results = [{ k := 0, mask := some top }] ∧
        ⟨s.stc + 2, phComplete, .vectorCompletion s.turn.core w.id 0, {}, {}⟩ ∈ u.agenda) ∧
      (t.cur.sys.region = false → t.cur.vec.window = [] → ⟨s.stc + 2, .maskPush top⟩ ∈ u.cur.pend) ∧
      (t.cur.vec.skip = 0 → top = 0#1024 → u.cur.vec.skip = skip.toNat) ∧ (t.cur.vec.skip = 0 → top ≠ 0#1024 → u.cur.vec.skip = 0)) ∧
  (∀ (s t : State) (mask : BitVec 5) (p : PredF), s.turn.q = .x →
    let o := (Instr.vops (.vflclr mask p)).getD {}
    s.Begins (s.vecKind o true false) t → t.suppressed = false → t.cur.stageOff p = false → t.cur.vec.window = [] →
    (t.cur.sys.region = true → t.cur.sysWaits (Instr.sysReads (.vflclr mask p) o) = false) →
    ∃ u, exec (.vflclr mask p) s = .next u ∧ s.Issued u ∧
      u.cur.vec.flags = (t.cur.vec.clearFlags s.stc mask (activeLanes (t.cur.active p))).flags ∧ u.cur.vec.vrf = t.cur.vec.vrf) ∧
  (∀ (i : Instr) (s t : State), s.turn.q = .x →
    ((∃ x, Rules.vector i = some x) ∨ (∃ b r, i = .spshl b r) ∨ (∃ m, i = .spset m) ∨ i = .rrbdec ∨ (∃ m p, i = .vflclr m p)) →
    s.Begins (s.vecKind ((Instr.vops i).getD {}) true false) t → t.suppressed = true →
    ∃ u, exec i s = .next u ∧ s.Issued u ∧ u.cur.vec.words = t.cur.vec.words ∧ u.cur.vec.vrf = t.cur.vec.vrf ∧
      u.cur.vec.flags = t.cur.vec.flags ∧ u.cur.vec.skip = t.cur.vec.skip - 1 ∧ u.cur.eng = t.cur.eng ∧
      u.agenda = s.agenda)

namespace Sys2Proof.Rules

/-- The plane of flag k (02 R54): NV, DZ, OF, UF, NX. -/
def plane (f : Flags) : Nat → BitVec 1024
  | 0 => f.nv
  | 1 => f.dz
  | 2 => f.ovf
  | 3 => f.unf
  | _ => f.nx

/-- Lane l carries flag k just where an element of width w within it raises it (02 R41). -/
def Raises (fl : Flags) (w : Nat) (f : Nat → BitVec 5) : Prop :=
  ∀ l k, l < 1024 → k < 5 → ((plane fl k).getLsbD l = true ↔ ∃ j, j < 32768 / w ∧ j * w / 32 = l ∧ (f j).getLsbD k = true)

/-- A register of elements of width w with their values, and the flags that they raise. -/
def Gives (o : VOut) (w : Nat) (f : Nat → Nat × BitVec 5) : Prop :=
  (∀ j, j < 32768 / w → velem w o.d j = (f j).1 % 2 ^ w) ∧ Raises o.fl w fun j => (f j).2

/-- 06 R148: the combination of K and TY, with operand u first. -/
def comb (k : Nat) (ty : TyF) (rm : Nat) (u v : Nat) : Nat × BitVec 5 :=
  let int := element.intOf ty
  if k / 8 % 2 = 0 then (match k % 8 with
    | 0 => Fp.fadd (tyFmt ty) rm u v
    | 1 => Fp.fmin (tyFmt ty) u v
    | _ => Fp.fmax (tyFmt ty) u v)
  else
    (match k % 8 with
      | 0 => element.intN ty (int u + int v)
      | 1 => element.mod2 (element.ew ty) (if int u ≤ int v then int u else int v)
      | 2 => element.mod2 (element.ew ty) (if int u ≥ int v then int u else int v)
      | 3 => u &&& v
      | 4 => u ||| v
      | _ => u ^^^ v, 0)

/-- 06 R150: a combination with an operand absent. -/
def combAbsent (c : Nat → Nat → Nat × BitVec 5) : Option Nat → Option Nat → Option Nat × BitVec 5
  | some u, some v => (some (c u v).1, (c u v).2)
  | some u, none => (some u, 0)
  | none, v => (v, 0)

/-- 06 R150: the tree over the 2^n places of a line, and the flags of its nodes. -/
def tree (c : Nat → Nat → Nat × BitVec 5) : Nat → (Nat → Option Nat) → Option Nat × BitVec 5
  | 0, f => (f 0, 0)
  | n + 1, f =>
    let g j := combAbsent c (f j) (f (j + 2 ^ n))
    let r := tree c n fun j => (g j).1
    (r.1, (List.range (2 ^ n)).foldl (fun fl j => fl ||| (g j).2) r.2)

/-- 06 R151: what a prefix holds before place p. -/
def running (c : Nat → Nat → Nat × BitVec 5) (f : Nat → Option Nat) : Nat → Option Nat
  | 0 => none
  | p + 1 => (combAbsent c (running c f p) (f p)).1

/-- The line of element j of width w along its row or down its column: its place in it, and the active values of the line. -/
def line (x : VIn) (w : Nat) (row : Bool) (j : Nat) : Nat × (Nat → Option Nat) :=
  let c := 2048 / w
  let at_ p := if row then j / c * c + p else p * c + j % c
  (if row then j % c else j / c, fun p => if x.act.elem w x.k (at_ p) then some (velem w x.a (at_ p)) else none)

/-- XOR of the first p + 1 values. -/
def xorTo (f : Nat → Nat) : Nat → Nat
  | 0 => f 0
  | p + 1 => xorTo f p ^^^ f (p + 1)

/-- Parity of the first p + 1 bits. -/
def parityTo (f : Nat → Bool) : Nat → Bool
  | 0 => f 0
  | p + 1 => (parityTo f p) ^^ (f (p + 1))

/-- 06 Tables 6.2 to 6.4, R142 to R145, R150, R151, R159, R165: the width of the elements of a floating-point, axis, conversion or random
word, and for each active element its pattern and flags. -/
def value (x : VIn) (i : Instr) : Option (Nat × (Nat → Nat × BitVec 5)) :=
  match i with
  | .vadd _ _ _ _ ty => fp ty fun f a b _ => Fp.fadd f x.rm a b
  | .vsub _ _ _ _ ty => fp ty fun f a b _ => Fp.fsub f x.rm a b
  | .vmul _ _ _ _ ty => fp ty fun f a b _ => Fp.fmul f x.rm a b
  | .vdiv _ _ _ _ ty => fp ty fun f a b _ => Fp.fdiv f x.rm a b
  | .vfma _ _ _ _ ty => fp ty fun f a b d => Fp.ffma f x.rm false false a b d
  | .vfms _ _ _ _ ty => fp ty fun f a b d => Fp.ffma f x.rm false true a b d
  | .vfnma _ _ _ _ ty => fp ty fun f a b d => Fp.ffma f x.rm true true a b d
  | .vfnms _ _ _ _ ty => fp ty fun f a b d => Fp.ffma f x.rm true false a b d
  | .vmin _ _ _ _ ty => fp ty fun f a b _ => Fp.fmin f a b
  | .vmax _ _ _ _ ty => fp ty fun f a b _ => Fp.fmax f a b
  | .vabs _ _ _ ty => fp ty fun f a _ _ => Fp.fabs f a
  | .vneg _ _ _ ty => fp ty fun f a _ _ => Fp.fneg f a
  | .vsqrt _ _ _ ty => fp ty fun f a _ _ => Fp.fsqrt f x.rm a
  | .vrcp _ _ _ ty => fp ty fun f a _ _ => Fp.frcp f x.rm a
  | .vrsqrt _ _ _ ty => fp ty fun f a _ _ => Fp.frsqrt f x.rm a
  | .vclass _ _ _ ty => fp ty fun f a _ _ => Fp.fclass f a
  | .vexp _ _ _ ty => fp ty fun f a _ _ => FpFunc.transc .exp f x.rm a
  | .vexp2 _ _ _ ty => fp ty fun f a _ _ => FpFunc.transc .exp2 f x.rm a
  | .vlog _ _ _ ty => fp ty fun f a _ _ => FpFunc.transc .log f x.rm a
  | .vlog2 _ _ _ ty => fp ty fun f a _ _ => FpFunc.transc .log2 f x.rm a
  | .verf _ _ _ ty => fp ty fun f a _ _ => FpFunc.transc .erf f x.rm a
  | .vcmpeq _ _ _ _ ty => fp ty fun f a b _ => holds f (Fp.fcmp f 0 a b)
  | .vcmpne _ _ _ _ ty => fp ty fun f a b _ => holds f (Fp.fcmp f 1 a b)
  | .vcmplt _ _ _ _ ty => fp ty fun f a b _ => holds f (Fp.fcmp f 2 a b)
  | .vcmple _ _ _ _ ty => fp ty fun f a b _ => holds f (Fp.fcmp f 3 a b)
  | .vredr _ _ k _ ty => red true k.toNat ty
  | .vredc _ _ k _ ty => red false k.toNat ty
  | .vprer _ _ k _ ty => pre true k.toNat ty
  | .vprec _ _ k _ ty => pre false k.toNat ty
  | .vcvt _ _ spec _ ty =>
    let ws := cvtWidth (cvtFrom spec)
    let wd := cvtWidth (cvtTo spec)
    let part := cvtPart spec ty
    let src (j : Nat) : Option Nat :=
      if ws < wd then some (part * (32768 / wd) + j)
      else if ws = wd then some j
      else if part * (32768 / ws) ≤ j ∧ j < part * (32768 / ws) + 32768 / ws then some (j - part * (32768 / ws)) else none
    some (wd, fun j => match src j with
      | some m => cvtElem (cvtFrom spec) (cvtTo spec) x.rm (cvtSat ty) (velem ws x.a m)
      | none => (velem wd x.d j, 0))
  | .vrand _ _ _ _ =>
    let key := (List.range 16).map fun b => x.key / 2 ^ (8 * b) % 256
    let byte j b := (Aes.encrypt key ((List.range 16).map fun m => velem 8 x.a (16 * (j / 4) + m))).getD (4 * (j % 4) + b) 0 % 256
    some (32, fun j => (byte j 0 + 256 * byte j 1 + 65536 * byte j 2 + 16777216 * byte j 3, 0))
  | _ => none
where
  /-- An elementwise word of FP class. -/
  fp (ty : TyF) (g : Fp.Fmt → Nat → Nat → Nat → Nat × BitVec 5) : Option (Nat × (Nat → Nat × BitVec 5)) :=
    let w := (tyFmt ty).width
    some (w, fun j => g (tyFmt ty) (velem w x.a j) (velem w x.b j) (velem w x.d j))
  /-- All ones where a comparison holds, else 0, with its flags. -/
  holds (f : Fp.Fmt) (r : Bool × BitVec 5) : Nat × BitVec 5 := (if r.1 then 2 ^ f.width - 1 else 0, r.2)
  /-- 06 R150. -/
  red (row : Bool) (k : Nat) (ty : TyF) : Option (Nat × (Nat → Nat × BitVec 5)) :=
    let w := redWidth k ty
    some (w, fun j =>
      let r := tree (comb k ty x.rm) (Nat.log2 (if row then 2048 / w else 16)) (line x w row j).2
      (r.1.getD 0, r.2))
  /-- 06 R151. -/
  pre (row : Bool) (k : Nat) (ty : TyF) : Option (Nat × (Nat → Nat × BitVec 5)) :=
    let w := redWidth k ty
    some (w, fun j =>
      let l := line x w row j
      let r := combAbsent (comb k ty x.rm) (running (comb k ty x.rm) l.2 l.1) (l.2 l.1)
      (r.1.getD 0, r.2))

/-- 06 R160, R161: the exponents of block b of `nb`: those that E holds, or the block's own. -/
def exps (derive : Bool) (beta mmax delta nb part : Nat) (src : Nat → Nat) (e : VReg) (b : Nat) : Nat × Nat :=
  if derive then Fp.blockExps beta mmax delta ((List.range 32).map fun m => src (32 * b + m))
  else (velem 16 e (nb * part + b) % 256, velem 16 e (nb * part + b) / 256)

/-- 06 R160, R161: what a pack leaves: byte q of its part of D, the rest of D, its part of E and the rest, and the flags by lane. -/
def Packs (derive : Bool) (nb part : Nat) (o : PackOut) (d e : VReg) (byte : Nat → Nat) (ex : Nat → Nat × Nat) (fl : Nat → BitVec 5) : Prop :=
  (∀ q, q < 1024 → velem 8 o.d (q / 64 * 256 + 64 * part + q % 64) = byte q % 256) ∧
  (∀ m, m < 4096 → m % 256 / 64 ≠ part → velem 8 o.d m = velem 8 d m) ∧
  (derive = true → (∀ b, b < nb → velem 16 o.e (nb * part + b) = ((ex b).1 + 256 * (ex b).2) % 65536) ∧
    ∀ m, m < 2048 → m / nb ≠ part → velem 16 o.e m = velem 16 e m) ∧
  Raises o.fl 32 fl

end Sys2Proof.Rules

/-- 06 Tables 6.2 to 6.6, R139, R142 to R153, R159, R165, 02 R41: each active element of the destination takes its value: of an integer, move,
rotation, broadcast, permute or interleave word, which raises no flag; of a floating-point word, comparison, reduction, prefix,
conversion or random word, with the flags of the active elements in their lanes; the others keep theirs. vsel takes A where active and B
elsewhere; the prefix parities take their XORs of elements or bits. -/
def Obligations.VectorElementValues : Prop :=
  (∀ (i : Instr) (x : VIn) (j w v : Nat), Rules.element x j i = some (w, v) → j < 32768 / w →
    velem w (vcompute i x).d j = (if x.act.elem w x.k j then v % 2 ^ w else velem w x.d j) ∧ (vcompute i x).fl = {}) ∧
  (∀ (i : Instr) (x : VIn) (w : Nat) (f : Nat → Nat × BitVec 5), Rules.value x i = some (w, f) →
    Rules.Gives (vcompute i x) w fun j => if x.act.elem w x.k j then f j else (velem w x.d j, 0)) ∧
  (∀ (x : VIn) (d a b : VOpF) (p : PredF) (ty : TyF), let w := Rules.element.ew ty
    Rules.Gives (vcompute (.vsel d a b p ty) x) w fun j => (if x.act.elem w x.k j then velem w x.a j else velem w x.b j, 0)) ∧
  (∀ (x : VIn) (d a : VOpF) (k : BitVec 10) (ty : TyF), let w := Rules.element.ew ty; let c := 2048 / w
    Rules.Gives (vcompute (.vpxorc d a ty) x) w (fun j => (Rules.xorTo (fun r => velem w x.a (r * c + j % c)) (j / c), 0)) ∧
    (k.toNat % 2 = 0 → Rules.Gives (vcompute (.vpxorr d a k ty) x) w fun j =>
      (Rules.xorTo (fun p => velem w x.a (j / c * c + p)) (j % c), 0)) ∧
    (k.toNat % 4 = 1 → ∀ q, q < 32768 → (vcompute (.vpxorr d a k ty) x).d.getLsbD q =
      Rules.parityTo (fun p => x.a.getLsbD (q / 2048 * 2048 + p)) (q % 2048)) ∧
    (k.toNat % 4 = 3 → ∀ q, q < 32768 → (vcompute (.vpxorr d a k ty) x).d.getLsbD q = Rules.parityTo (fun p => x.a.getLsbD p) q))

/-- 06 R135, R139, R160 to R162: a group read of a word in the engine whose sources are registers reads them as they stand and adds its
results: for a word with one destination the value of its element function, for a pack its bytes and exponents, for an unpack its
binary32 elements; outside precise mode completion j writes the elements that its result names and sets the flags of their lanes; with its last completion the
word leaves the engine, which counts it no more from the next cycle. -/
def Obligations.VectorEngineEvents : Prop :=
  (∀ (s : State) (n id k : Nat) (w : VWord) (o : VOps), (s.core n).word? id = some w → Instr.vops w.op = some o →
    w.active ≠ .off → w.part = [] → (∀ x ∈ vsources w.op o k, x.1.toNat ≤ 639) →
    (∀ d a e ty, w.op ≠ .vpk4 d a e ty ∧ w.op ≠ .vpk4x d a e ty) →
    let got := (vsources w.op o k).map fun x => (s.core n).vec.reg (physReg w.rotsz w.rrb (x.1.toNat + x.2.2))
    ∃ u, exec (.vectorGroupRead n id k) s = .next u ∧
      (u.core n).word? id = some { w with reads := k + 1, results := w.results ++ vresults (s.core n) w o k got } ∧
      (u.core n).vec.vrf = (s.core n).vec.vrf ∧ u.agenda = s.agenda ∧ u.dram = s.dram ∧ (∀ m, m ≠ n → u.core m = s.core m)) ∧
  (∀ (s : State) (n id j r : Nat) (w : VWord) (m v : VReg) (x : VResult), (s.core n).word? id = some w →
    (s.core n).vec.window = [] → (∀ p ∈ (s.core n).vec.el0Now, p.1 ≠ s.stc) → w.doneResults j = [x] → x.regs = [(r, m, v)] → x.push = none →
    ∃ u, exec (.vectorCompletion n id j) s = .next u ∧
      (u.core n).vec.reg r = ((s.core n).vec.reg r &&& ~~~m) ||| (v &&& m) ∧
      (∀ r', r' ≠ r → (u.core n).vec.reg r' = (s.core n).vec.reg r') ∧
      (u.core n).vec.flags = ((s.core n).vec.setFlags s.stc x.flags).flags ∧
      (x.pred = none → (u.core n).vec.preds = (s.core n).vec.preds) ∧ (x.mask = none → (u.core n).vec.masks = (s.core n).vec.masks) ∧
      (j + 1 = (Instr.vdones w.op w.group w.occ w.lat).1 →
        (u.core n).word? id = none ∧ ⟨s.stc + 1, .engRetire engVxe⟩ ∈ (u.core n).pend) ∧
      u.dram = s.dram ∧ (∀ k, k ≠ n → u.core k = s.core k)) ∧
  (∀ (c : Core) (w : VWord) (o : VOps) (k n : Nat) (dd : VOpF) (a b : VReg), opReg dd = some n →
    let old := c.oldDest w (some dd) k
    let dst (m v : VReg) := (physReg w.rotsz w.rrb (n + k), m, v)
    (Instr.vops w.op = some o → o.d = some dd → (∃ x, Rules.value {} w.op = some x) ∨ (∃ x, Rules.element {} 0 w.op = some x) ∨
        (∃ d y k ty, w.op = .vpxorr d y k ty ∨ w.op = .vpxorc d y ty) ∨ (∃ d y z p ty, w.op = .vsel d y z p ty) →
      (∀ d y p key, w.op ≠ .vrand d y p key) →
      let x := vcompute w.op { a := a, b := b, d := old, act := w.active, k := k, rm := w.rm }
      vresults c w o k [a, b] = [{ k := k, regs := [dst (vwritten w.op w.active k) x.d], flags := x.fl }]) ∧
    (∀ y p key, w.op = .vrand dd y p key →
      let x := vcompute w.op { a := a, d := old, act := w.active, k := k, key := vkeyOf c key.toNat }
      vresults c w o k [a] = [{ k := k, regs := [dst (vwritten w.op w.active k) x.d] }]) ∧
    (∀ y e ty, o.d = some dd → w.op = .vpk8 dd y e ty →
      let x := vpack8 false a b old w.rm (ty.toNat % 4)
      vresults c w o k [a, b] = [{ k := k, regs := [dst (vwritten w.op w.active k) x.d], flags := x.fl }]) ∧
    (∀ y e ty m, o.d = some dd → w.op = .vpk8x dd y e ty → opReg e = some m →
      let x := vpack8 true a 0 old w.rm (ty.toNat % 4)
      vresults c w o k [a] = [{ k := k, regs := [dst (vwritten w.op w.active k) x.d,
        (physReg w.rotsz w.rrb m, expWritten 32 (ty.toNat % 4), x.e)], flags := x.fl }]) ∧
    (∀ y e part, w.op = .vupk8 dd y e part →
      vresults c w o k [a, b] = [{ k := k, regs := [dst (vwritten w.op w.active k) (vunpack8 a b part.toNat)] }])) ∧
  ((∀ (derive : Bool) (a e d : VReg) (rm part : Nat), part < 4 →
    let src n := velem 32 a n
    let ex := Rules.exps derive 132 63 3 32 part src e
    let p n := Fp.packVB 132 63 (ex (n / 32)).1 (ex (n / 32)).2 rm (src n)
    Rules.Packs derive 32 part (vpack8 derive a e d rm part) d e (fun q => 128 * (p q).1 + 64 * (p q).2.1.toNat + (p q).2.2.1) ex
      fun l => (p l).2.2.2) ∧
  (∀ (derive : Bool) (a a' e d : VReg) (rm part : Nat), part < 4 →
    let src n := velem 32 (if n < 1024 then a else a') (n % 1024)
    let ex := Rules.exps derive 128 3 2 64 part src e
    let p n := Fp.packVB 128 3 (ex (n / 32)).1 (ex (n / 32)).2 rm (src n)
    let nib n := 8 * (p n).1 + 4 * (p n).2.1.toNat + (p n).2.2.1
    Rules.Packs derive 64 part (vpack4 derive a a' e d rm part) d e (fun q => nib (2 * q) + 16 * nib (2 * q + 1)) ex
      fun l => (p l).2.2.2 ||| (p (l + 1024)).2.2.2) ∧
  (∀ (a e : VReg) (part n : Nat), n < 1024 →
    let byte := velem 8 a (n / 64 * 256 + 64 * part + n % 64)
    let h := velem 16 e (32 * part + n / 32)
    velem 32 (vunpack8 a e part) n =
      Fp.vbToF32 132 (if 128 ≤ byte then h / 256 else h % 256) (decide (byte / 64 % 2 = 1)) (byte % 64) % 2 ^ 32) ∧
  (∀ (a e : VReg) (part n : Nat), n < 2048 →
    let byte := velem 8 a (n / 2 / 64 * 256 + 64 * part + n / 2 % 64)
    let nib := if n % 2 = 0 then byte % 16 else byte / 16
    let h := velem 16 e (64 * part + n / 32)
    velem 32 (vunpack4 a e part (n / 1024)) (n % 1024) =
      Fp.vbToF32 128 (if 8 ≤ nib then h / 256 else h % 256) (decide (nib / 4 % 2 = 1)) (nib % 4) % 2 ^ 32))

namespace Sys2Proof.Rules

/-- 06 R140: the head of the window commits in cycle `now`: its results take effect in their order, then its held effects. -/
def commitEntry (now : Nat) (c : Core) (e : XEntry) : Core :=
  let c := { c with vec := { c.vec with window := c.vec.window.tail } }
  let c := e.results.foldl (fun (k : Core) r => k.applyResult now r) c
  let c := e.held.foldl (fun (k : Core) f => f.apply now k) c
  if e.counted then c.later (now + 1) (.engRetire engVxe) else c

/-- The entries commit one after the other, each complete, with no enabled flag raised and with room for what it pushes and hands over;
no held effect is a ring pop or a move of a loop register, which have clauses of their own. -/
def Commits (now : Nat) : Core → List XEntry → Core → Prop
  | c, [], d => c = d
  | c, e :: t, d =>
    e.ready = true ∧ e.flags.enabled e.fen = 0#1024 ∧ c.pushesFit now e.results = true ∧
    c.handFits now (e.held.filter isHandOver).length = true ∧
    (∀ f ∈ e.held, f.moveOfLoop = none ∧ ∀ r n, f ≠ .ringPop r n) ∧ Commits now (commitEntry now c e) t d

end Sys2Proof.Rules

/-- 06 R140, R141: the complete entries at the head of the precise window commit, oldest first, each with its results, flags and held effects
in order, up to an entry that is not complete, the commands among them going to the matrix engine; a held ring pop is in force from
the next cycle (07 R167), and a held move of a loop register holds in what the entries behind it would go back to (05 R126). A head with an
enabled flag raised sets its flags, nothing behind it is written, the window is gone, and X takes FPEXC at the word's own pc with the
lowest lane that raised one. The commit of another word than the head's changes nothing. -/
def Obligations.PreciseCommit : Prop :=
  (∀ (s : State) (n : Nat) (e : XEntry) (es rest : List XEntry) (d : Core),
    (s.core n).vec.window = e :: es ++ rest → Rules.Commits s.stc (s.core n) (e :: es) d →
    (∀ h ∈ rest.head?, h.ready = false) → (rest = [] → (s.core n).vec.lateTrap = none) →
    (∀ p ∈ (s.core n).sys.movesNow, p.1 = s.stc → p.2.1 ≠ .s) →
    ∃ u, exec (.vectorCommit n e.id) s = .next u ∧ u.core n = d ∧ (u.core n).vec.window = rest ∧
      ((∃ x ∈ e :: es, ∃ f ∈ x.held, isHandOver f = true) → u.hasJob (.matrixCommandStart n) = true) ∧
      u.dram = s.dram ∧ ∀ m, m ≠ n → u.core m = s.core m) ∧
  (∀ (s : State) (n : Nat) (e h : XEntry), (s.core n).vec.window = [e, h] → e.ready = true → h.ready = false → e.results = [] →
    (∀ p ∈ (s.core n).sys.movesNow, p.1 = s.stc → p.2.1 ≠ .s) →
    (∀ r k, e.held = [.ringPop r k] →
      ∃ u, exec (.vectorCommit n e.id) s = .next u ∧ (u.core n).vec.window = [h] ∧ (u.core n).mx = (s.core n).mx ∧
        ⟨s.stc + 1, .ringPop r k⟩ ∈ (u.core n).pend) ∧
    (∀ k v, k < 4 → e.held = [.sys .x (0x018 + k) v] →
      ∃ u, exec (.vectorCommit n e.id) s = .next u ∧ (u.core n).vec.window = [{ h with before := h.before.setLoop k v }] ∧
        (u.core n).x.loopReg k = if h.loops.contains k then (s.core n).x.loopReg k else v &&& lcMask)) ∧
  (∀ (s : State) (n l : Nat) (e : XEntry) (rest : List XEntry), (s.core n).vec.window = e :: rest → e.ready = true →
    (e.flags.enabled e.fen).getLsbD l = true → (∀ k, k < l → (e.flags.enabled e.fen).getLsbD k = false) →
    (s.core n).sys.valid = false → (s.core n).x.tvec.getLsbD 14 = true →
    ∃ u, exec (.vectorCommit n e.id) s = .next u ∧ (u.core n).vec.window = [] ∧ (u.core n).vec.vrf = (s.core n).vec.vrf ∧
      (u.core n).vec.preds = (s.core n).vec.preds ∧ (u.core n).vec.masks = (s.core n).vec.masks ∧
      (u.core n).vec.flags = (s.core n).vec.flags.or e.flags ∧
      (u.core n).sys.cause = BitVec.ofNat 21 (2 ^ 20 + (2 ^ 10 * l + (2 ^ 8 * seqNum .x + causeCode .fpexc))) ∧
      (u.core n).x.epc = e.pc.setWidth 64 ∧ (u.core n).sys.valid = true ∧
      (u.core n).x.pc = (s.core n).x.tvec.setWidth 14 ∧ u.dram = s.dram ∧ ∀ m, m ≠ n → u.core m = s.core m) ∧
  (∀ (s : State) (n id : Nat), (∀ e ∈ (s.core n).vec.window.head?, e.id ≠ id ∨ e.ready = false) → exec (.vectorCommit n id) s = .next s)

namespace Sys2Proof.Rules

/-- 07 R171: the words that hand a command to the matrix engine, with their AT. -/
def matrix : Instr → Option (BitVec 32)
  | .mma _ a | .scnt _ a | .mholdOn _ a | .mholdOff _ a | .mdrain _ _ a | .mmerge _ a | .bsave _ a | .bload _ a | .azero _ a
  | .aload _ _ a | .astore _ _ a | .wcvt _ a | .wzero _ a | .ckctlOn a | .ckctlDetect a | .ckctlOff a => some a
  | _ => none

/-- 07 Table 7.4: occupancy and latency of the commands that take no format word and check nothing of their own. -/
def plainCommand : Instr → Option (Nat × Nat)
  | .azero .. => some (8, 2)
  | .wzero .. => some (32, 2)
  | .mholdOff .. | .ckctlOn _ | .ckctlDetect _ | .ckctlOff _ => some (1, 0)
  | _ => none

/-- 07 Table 7.4, R170: the commands that need a format word. -/
def needsFormat : Instr → Bool
  | .mma .. | .scnt .. | .mdrain .. | .wcvt .. | .aload .. | .astore .. | .bsave .. | .bload .. => true
  | _ => false

/-- 07 R174, R175: in a scoreboard region the head command of core n is due in this cycle: its AT has passed, it was handed over and
the last command started in earlier cycles, no started command stands in its way, and no move of X touches its tiles. -/
def CommandDue (s : State) (n : Nat) (cmd : MxCmd) (rest : List MxCmd) : Prop :=
  let c := s.core n
  c.mx.queue = cmd :: rest ∧ cmd.cal = false ∧ c.tsk.stopAt = none ∧ c.tsk.rebook = none ∧
  c.sys.t0 + cmd.at_ ≤ s.stc ∧ cmd.handed < s.stc ∧ c.mx.lastStart < s.stc ∧ c.earliest cmd ≤ s.stc ∧
  ∀ t ∈ Instr.mxTiles cmd.op, c.vecTile t = false

/-- 03 R79: what a pair of VB4 nibbles adds to counter x. -/
def pairCount (a b x : Nat) : Int :=
  let p := a % 4 * (b % 4)
  if p ≠ 0 ∧ x = 4 * [1, 2, 3, 4, 6, 9].findIdx (fun v => v = p) + 2 * (a / 8) + b / 8 then (if (a / 4 + b / 4) % 2 = 0 then 1 else -1) else 0

/-- 03 R79, 07 Table 7.6: what a block of VB4 operands adds to counter x of cell (i, j). -/
def blockCount (ablk bblk : List Byte) (i j x : Nat) : Int :=
  ((List.range 32).map fun k =>
    pairCount (leVal ablk / 16 ^ (32 * i + k) % 16) (leVal bblk / 16 ^ (128 * k + j) % 16) x).sum

/-- 07 R187: bank d after the merge of bank e, of which no checksum or scale check failed, and bank e after it. -/
def Merged (d e d' e' : Bank) : Prop :=
  let emptied : Bank := { e with cnt := [], kr := [], kc := [], depth := 0, scaled := e.hold }
  (e.depth = 0 → d' = d ∧ e' = e) ∧
  (e.depth ≠ 0 → d.depth = 0 → d.scaled = false →
    e' = emptied ∧ d' = { d with cnt := e.cnt, kr := e.kr, kc := e.kc, ea := e.ea, eb := e.eb, scaled := true, depth := e.depth }) ∧
  (e.depth ≠ 0 → d.scaled = true → d.ea = e.ea → d.eb = e.eb → d.depth + e.depth ≤ 63 →
    e' = emptied ∧ d'.depth = d.depth + e.depth ∧ d'.scaled = true ∧ d'.hold = d.hold ∧ d'.ea = d.ea ∧ d'.eb = d.eb ∧
    (SMap.wf 0 e.cnt = true → ∀ i j x, i < 128 → j < 128 → x < 24 →
      cellCtr (d'.cell i j) x = Fp.signedOf 12 (Fp.wrapN 12 (cellCtr (d.cell i j) x + cellCtr (e.cell i j) x))) ∧
    (SMap.wf 0 e.kr = true → ∀ k, SMap.get 0 d'.kr k = SMap.get 0 d.kr k + SMap.get 0 e.kr k) ∧
    (SMap.wf 0 e.kc = true → ∀ k, SMap.get 0 d'.kc k = SMap.get 0 d.kc k + SMap.get 0 e.kc k))

end Sys2Proof.Rules

/-! ### The matrix engine -/

/-- 07 R169, R171, R172, R179, R180: fpush with room in fq appends its register's value; ringset, ringadv and ringpop of legal operands change the
ring from the next cycle, of others trap with ILLOP; a matrix word with room in the command queue hands its command over, which the
engine counts and judges from the next cycle on; with 16 commands there it does not issue; in precise mode the window holds it. -/
def Obligations.MatrixWordsHandOver : Prop :=
  (∀ (s t : State) (a : RegF), s.Begins {} t → t.RegsFree [a] →
    (t.cur.fqHeld t.stc < 32 →
      ∃ u, exec (.fpush a) s = .next u ∧ s.Issued u ∧ u.cur.q.fq = t.cur.q.fq ++ [(t.rd a, s.stc)] ∧ u.cur.mx = t.cur.mx ∧
        u.dram = s.dram ∧ ∀ m, m ≠ s.turn.core → u.core m = s.core m) ∧
    (32 ≤ t.cur.fqHeld t.stc → exec (.fpush a) s = .next (s.settled.block .ovf))) ∧
  (∀ (s t : State) (rg : BitVec 4) (a b : RegF), s.Begins {} t → t.cur.vec.window = [] →
    let r := t.cur.mx.ring rg.toNat
    (∀ x, t.RegsFree [a, b] → ringOfRegs (t.rd a).toNat (t.rd b).toNat = some x → r.rsv = 0 → r.wsv = 0 →
      ∃ u, exec (.ringset rg a b) s = .next u ∧ s.Issued u ∧ ⟨s.stc + 1, .ringSet rg.toNat x⟩ ∈ u.cur.pend) ∧
    (t.RegsFree [a, b] → ringOfRegs (t.rd a).toNat (t.rd b).toNat = none ∨ r.rsv ≠ 0 ∨ r.wsv ≠ 0 →
      exec (.ringset rg a b) s = .next (s.settled.wordTrap .illop 0)) ∧
    (t.RegsFree [a] → (t.rd a).toNat < 512 → r.fill + r.wsv + (t.rd a).toNat ≤ r.slots →
      ∃ u, exec (.ringadv rg a) s = .next u ∧ s.Issued u ∧ ⟨s.stc + 1, .ringFill rg.toNat (t.rd a).toNat⟩ ∈ u.cur.pend) ∧
    (t.RegsFree [a] → 512 ≤ (t.rd a).toNat → exec (.ringadv rg a) s = .next (s.settled.wordTrap .illop 0)) ∧
    (∀ k : RegF, r.rsv = 0 → k.toNat ≤ r.fill →
      ∃ u, exec (.ringpop rg k) s = .next u ∧ s.Issued u ∧ ⟨s.stc + 1, .ringPop rg.toNat k.toNat⟩ ∈ u.cur.pend) ∧
    (∀ k : RegF, r.rsv ≠ 0 → exec (.ringpop rg k) s = .next (s.settled.wordTrap .illop 0))) ∧
  (∀ (i : Instr) (at_ : BitVec 32) (s t : State), Rules.matrix i = some at_ → s.turn.q = .x → s.Begins {} t →
    (t.cur.vec.window = [] → t.cur.handFits s.stc 1 = true →
      ∃ u cmd, exec i s = .next u ∧ s.Issued u ∧ u.cur.mx.queue = t.cur.mx.queue ++ [cmd] ∧
        cmd.op = i ∧ cmd.at_ = at_.toNat ∧ cmd.handed = s.stc ∧ cmd.pc = s.curSeq.pc ∧ cmd.cal = !t.cur.sys.region ∧
        (u.cur.engine engMxe).out = (t.cur.engine engMxe).out + 1 ∧ u.hasJob (.matrixCommandStart s.turn.core) = true ∧
        u.cur.mx.acc = t.cur.mx.acc ∧ u.cur.vec.vrf = t.cur.vec.vrf ∧ u.dram = s.dram) ∧
    (t.cur.vec.window = [] → t.cur.handFits s.stc 1 = false → exec i s = .next (s.settled.block .ovf)) ∧
    (t.cur.vec.window ≠ [] →
      ∃ u cmd, exec i s = .next u ∧ s.Issued u ∧ cmd.op = i ∧ (∃ w ∈ u.cur.vec.window, Eff.handOver cmd ∈ w.held) ∧
        u.cur.mx.queue = t.cur.mx.queue))

/-- 07 R173 to R175, Table 7.4: in a scoreboard region a command without a format word starts in the cycle in which it is due, holds
the array for its occupancy and retires its latency later; one that needs a format word and finds none faults with FMTUF. -/
def Obligations.MatrixCommandStarts : Prop :=
  ∀ (s : State) (n : Nat) (cmd : MxCmd) (rest : List MxCmd), Rules.CommandDue s n cmd rest →
    (∀ o l, Rules.plainCommand cmd.op = some (o, l) → (s.core n).tsk.win.kinds 2 = [] →
      ∃ u r, exec (.matrixCommandStart n) s = .next u ∧ (u.core n).mx.queue = rest ∧ (u.core n).mx.runs = (s.core n).mx.runs ++ [r] ∧
        r.cmd = cmd ∧ r.s = s.stc ∧ r.occ = o ∧ r.lat = l ∧ (u.core n).mx.occEnd = s.stc + o ∧ (u.core n).mx.lastStart = s.stc ∧
        ⟨s.stc + o + l, phMatrix, .matrixRetire n cmd.id, {}, {}⟩ ∈ u.agenda ∧ (u.core n).mx.acc = (s.core n).mx.acc) ∧
    (Rules.needsFormat cmd.op = true → (s.core n).q.fq = [] →
      ∃ u, exec (.matrixCommandStart n) s = .next u ∧ (u.core n).mx.queue = [] ∧
        (u.core n).mx.fault = some (.fmtuf, s.stc) ∧ (u.core n).mx.detail.toNat % 256 = 13 ∧
        ⟨s.stc + 1, phEngine, .engineFaultTrap n engMxe, {}, {}⟩ ∈ u.agenda ∧ (u.core n).mx.acc = (s.core n).mx.acc)

/-- 03 R76, R77, 07 R181, R183, R184: a block read whose slots are filled takes place and brings the next read and its own addition or count; an
empty slot stalls it by a cycle. With no upset the addition adds into each element of the command's tile the exact sum of the products, rounded
once, and leaves other tiles and the stitch banks; a count changes the bank that the command names, whose DEPTH steps by one. -/
def Obligations.MatrixBlocks : Prop :=
  (∀ (s : State) (n id b : Nat) (r : MxRun), (s.core n).run? id = some r → r.waiting = false →
    ((∀ p ∈ r.perBlock, slotFilled (s.core n).mx p.1 (p.2 + b) = true) →
      ∃ u, exec (.ringBlockRead n id b) s = .next u ∧
        (∃ r', (u.core n).run? id = some r' ∧ r'.read = b + 1 ∧ r'.cmd = r.cmd) ∧
        ((∃ t a, r.cmd.op = .mma t a) → ⟨s.stc + r.bc + r.lat, phMatrix, .mmaBlockAdd n id b, {}, {}⟩ ∈ u.agenda) ∧
        ((∃ k a, r.cmd.op = .scnt k a) → ⟨s.stc + r.bc + r.lat, phMatrix, .scntBlockCount n id b, {}, {}⟩ ∈ u.agenda) ∧
        (b + 1 < r.nb → ⟨s.stc + r.bc, phEngine, .ringBlockRead n id (b + 1), {}, {}⟩ ∈ u.agenda)) ∧
    ((∃ p ∈ r.perBlock, slotFilled (s.core n).mx p.1 (p.2 + b) = false) → r.cmd.cal = false →
      ∃ u, exec (.ringBlockRead n id b) s = .next u ∧ (∃ r', (u.core n).run? id = some r' ∧ r'.stall = r.stall + 1) ∧
        ⟨s.stc + 1, phEngine, .ringBlockRead n id b, {}, {}⟩ ∈ u.agenda)) ∧
  (∀ (s : State) (n id b : Nat) (r : MxRun) (t : RegF) (at_ : BitVec 32), (s.core n).run? id = some r → r.cmd.op = .mma t at_ →
    (s.core n).mx.upsets = [] →
    let f := r.fmt
    let blk := r.blocks.getD b ([], [], [], [])
    ∃ u, exec (.mmaBlockAdd n id b) s = .next u ∧
      (∀ i j, i < 128 → j < 128 → rowElem ((u.core n).mx.row t.toNat i) j =
        accAdd f.rm (blockSum ((aRows f.af blk.1 blk.2.2.1).getD i []) ((bCols f.bf blk.2.1 blk.2.2.2).getD j []) (0, 0))
          (rowElem ((s.core n).mx.row t.toNat i) j) % 2 ^ 32) ∧
      (∀ k i, k ≠ t.toNat → i < 128 → (u.core n).mx.row k i = (s.core n).mx.row k i) ∧
      (u.core n).mx.b0 = (s.core n).mx.b0 ∧ (u.core n).mx.b1 = (s.core n).mx.b1 ∧
      (b + 1 = r.nb → ⟨s.stc, phMatrix, .matrixRetire n id, {}, {}⟩ ∈ u.agenda) ∧ u.dram = s.dram) ∧
  (∀ (s : State) (n id b : Nat) (r : MxRun) (k : BitVec 1) (at_ : BitVec 32), (s.core n).run? id = some r → r.cmd.op = .scnt k at_ →
    ∃ u, exec (.scntBlockCount n id b) s = .next u ∧
      ((u.core n).bank k.toNat).depth = ((s.core n).bank k.toNat).depth + 1 ∧
      (u.core n).bank (1 - k.toNat) = (s.core n).bank (1 - k.toNat) ∧
      ((u.core n).bank k.toNat).ea = ((s.core n).bank k.toNat).ea ∧ ((u.core n).bank k.toNat).eb = ((s.core n).bank k.toNat).eb ∧
      (u.core n).mx.acc = (s.core n).mx.acc ∧
      ((s.core n).mx.upsets = [] →
        let old := (s.core n).bank k.toNat
        let new := (u.core n).bank k.toNat
        let add := Rules.blockCount (r.blocks.getD b ([], [], [], [])).1 (r.blocks.getD b ([], [], [], [])).2.1
        ∀ i j x, i < 128 → j < 128 → x < 24 →
          cellCtr (new.cell i j) x = Fp.signedOf 12 (Fp.wrapN 12 (cellCtr (old.cell i j) x + add i j x)) ∧
          SMap.get 0 new.kr (24 * j + x) = SMap.get 0 old.kr (24 * j + x) + BitVec.ofInt 20 ((List.range 128).map fun m => add m j x).sum ∧
          SMap.get 0 new.kc (24 * i + x) = SMap.get 0 old.kc (24 * i + x) + BitVec.ofInt 20 ((List.range 128).map fun m => add i m x).sum) ∧
      (b + 1 = r.nb → ⟨s.stc, phMatrix, .matrixRetire n id, {}, {}⟩ ∈ u.agenda) ∧ u.dram = s.dram)

/-- 07 R173, R181, R186 to R188, R192: the retirement of a command that met no fault takes it off the engine, whose count falls in the next
cycle with the slots it read popped; azero and wzero leave zeros in their tiles, aload the elements of its slot, wcvt and mdrain the
elements worked out at their start, and other tiles stay; astore and bsave write their slot, which is filled from the next cycle,
and nothing else of the scratchpad; bload replaces its bank, mdrain leaves it drained with its HOLD, mmerge merges the banks. -/
def Obligations.MatrixRetirement : Prop :=
  ∀ (s : State) (n id : Nat) (r : MxRun), (s.core n).run? id = some r → r.fault = none →
    ∃ u, exec (.matrixRetire n id) s = .next u ∧ (u.core n).run? id = none ∧
      ⟨s.stc + 1, .engRetire engMxe⟩ ∈ (u.core n).pend ∧
      (∀ p ∈ r.slots, ⟨s.stc + 1, .ringPop p.1 r.nb⟩ ∈ (u.core n).pend) ∧
      (∀ t a, r.cmd.op = .azero t a → ∀ k i, i < 128 →
        (u.core n).mx.row k i = if k = t.toNat then 0 else (s.core n).mx.row k i) ∧
      (∀ t a, r.cmd.op = .wzero t a → ∀ k i, i < 128 →
        (u.core n).mx.row k i = if k / 4 = t.toNat then 0 else (s.core n).mx.row k i) ∧
      ((∃ a, r.cmd.op = .ckctlOn a ∨ r.cmd.op = .ckctlDetect a ∨ r.cmd.op = .ckctlOff a) → (u.core n).mx.acc = (s.core n).mx.acc) ∧
      (let bs := (r.blocks.getD 0 ([], [], [], [])).1
       let x := (s.core n).mx
       let y := (u.core n).mx
       (∀ t a, r.cmd.op = .aload 0 t a → ∀ k i, i < 128 →
         y.row k i = if k = t.toNat then BitVec.ofNat 4096 (leVal ((bs.drop (512 * i)).take 512)) else x.row k i) ∧
       (∀ t a, r.cmd.op = .aload 1 t a →
         (∀ i j, i < 128 → j < 128 → wideElem y t.toNat i j = Fp.signedOf 128 (leVal ((bs.drop (16 * (128 * i + j))).take 16))) ∧
         ∀ k i, k / 4 ≠ t.toNat → i < 128 → y.row k i = x.row k i) ∧
       (∀ t a m f, r.cmd.op = .wcvt t a → r.rows = wcvtRows m t.toNat f →
         (∀ i j, i < 128 → j < 128 →
           rowElem (y.row t.toNat i) j = wideToF32 (wideElem m f.wsrc i j) f.anchor f.rm % 2 ^ 32) ∧
         ∀ k i, k ≠ t.toNat → i < 128 → y.row k i = x.row k i) ∧
       (∀ k t a b xs, r.cmd.op = .mdrain k t a → r.bank = some b → r.rows = wideRows t.toNat xs → xs.length = 16384 →
         (∀ i j, i < 128 → j < 128 → wideElem y t.toNat i j = Fp.signedOf 128 (Fp.wrapN 128 (xs.getD (128 * i + j) 0))) ∧
         (∀ m i, m / 4 ≠ t.toNat → i < 128 → y.row m i = x.row m i) ∧
         (u.core n).bank k.toNat = { b with hold := ((s.core n).bank k.toNat).hold } ∧
         (u.core n).bank (1 - k.toNat) = (s.core n).bank (1 - k.toNat)) ∧
       (∀ k a b, r.cmd.op = .bload k a → r.bank = some b →
         (u.core n).bank k.toNat = b ∧ (u.core n).bank (1 - k.toNat) = (s.core n).bank (1 - k.toNat) ∧ y.acc = x.acc) ∧
       (∀ k a, r.cmd.op = .mmerge k a →
         Rules.Merged ((s.core n).bank k.toNat) ((s.core n).bank (1 - k.toNat)) ((u.core n).bank k.toNat) ((u.core n).bank (1 - k.toNat)) ∧
         y.acc = x.acc) ∧
       (((∃ w t a, r.cmd.op = .astore w t a) ∨ ∃ k a, r.cmd.op = .bsave k a) → ∀ rg idx, r.wslot = some (rg, idx) →
         (∀ a, (u.core n).spm.byte a =
           let lo := (x.ring rg).slotAddr idx
           if lo ≤ a ∧ a < lo + bs.length then bs.getD (a - lo) 0 else (s.core n).spm.byte a) ∧
         ⟨s.stc + 1, .ringFill rg 1⟩ ∈ (u.core n).pend ∧ y.acc = x.acc ∧ y.b0 = x.b0 ∧ y.b1 = x.b1)) ∧
      u.dram = s.dram

/-- 07 R177, 02 R58: the trap of an engine fault, the issuing sequencer not stopped, enters its handler with the fault's cause, and
the engine's fault bit falls. -/
def Obligations.EngineFaultTrap : Prop :=
  ∀ (s : State) (n e id : Nat) (cause : Cause) (q : Seq), (s.core n).pend = [] → (s.core n).tsk.task = some id →
    (s.core n).tsk.ending = none → (s.core n).engFaultOf e = some (cause, q) →
    ((s.core n).seq q).mode = .run → (s.core n).sys.valid = false →
    ((s.core n).seq q).tvec.getLsbD 14 = true →
    ∃ u, exec (.engineFaultTrap n e) s = .next u ∧ (u.core n).sys.cause.toNat % 256 = causeCode cause ∧
      (u.core n).sys.valid = true ∧ ((u.core n).seq q).epc = ((s.core n).seq q).pc.setWidth 64 ∧
      ((u.core n).seq q).pc = ((s.core n).seq q).tvec.setWidth 14 ∧ (u.core n).sys.handler = some q ∧
      ((u.core n).engine e).flt = false ∧ (u.core n).engFaultOf e = none ∧ u.dram = s.dram

namespace Sys2Proof.Rules

/-- 08 R201, R212: no acquire of the sequencer is outstanding and no queue marker holds its accesses. -/
def AccessFree (t : State) : Prop := t.cur.acquiring t.turn.q = false ∧ t.cur.marked t.turn.q = false

/-- Sixteen rows of 256 bytes lie at multiples of 64 within a limit (08 R205, R206). -/
def rowsLie (ea pitch limit : Nat) : Bool := ea % 64 = 0 && pitch % 64 = 0 && decide (pitch < 2 ^ 32) && decide (ea + 15 * pitch + 256 ≤ limit)

/-- A legal access of a scratchpad load or store. -/
structure SpmAccess where
  regs : List RegF
  eng : Nat
  addr : Nat
  pitch : Nat
  len : Nat
  pop : Option RegF

/-- 08 R205, R206, Table 8.4: registers, engine, first address, pitch, bytes of an access and store queue of a scratchpad load or
store, where its address is legal, its ring has a slot for it and its store queue an entry. -/
def spmWord (t : State) : Instr → Option SpmAccess
  | .ldspm _ b x o => keep (rowsLie (ea b o) (pitch b x) (2 ^ 23)) ⟨regs b x, 2, ea b o, pitch b x, 256, none⟩
  | .ldbc _ b x o => keep (rowsLie (sum b x o) 0 (2 ^ 23)) ⟨regs b x, 2, sum b x o, 0, 256, none⟩
  | .ldscal d b x o => keep (sum b x o % 8 = 0 && decide (sum b x o + 8 ≤ 2 ^ 23)) ⟨d :: regs b x, 2, sum b x o, 0, 8, none⟩
  | .ldrg _ b x rg pop =>
    let r := t.cur.mx.ring rg.toNat
    keep (r.slotsz ≠ 0 && !(pop = 1#1 && decide (r.rsv ≠ 0)) && rowsLie (t.areg b).toNat (pitch b x) r.slotsz && decide (r.fill ≠ 0))
      ⟨regs b x, 2, r.slotAddr r.head + (t.areg b).toNat, pitch b x, 256, none⟩
  | .stspm q b x o =>
    keep (rowsLie (ea b o) (pitch b x) (2 ^ 23) && (t.sqHead q).isSome) ⟨regs b x, 3, ea b o, pitch b x, 256, some q⟩
  | .stscal d b x o => keep (sum b x o % 8 = 0 && decide (sum b x o + 8 ≤ 2 ^ 23)) ⟨d :: regs b x, 3, sum b x o, 0, 8, none⟩
  | .strg q b x rg _ =>
    let r := t.cur.mx.ring rg.toNat
    keep (r.slotsz ≠ 0 && rowsLie (t.areg b).toNat (pitch b x) r.slotsz && decide (r.fill + r.wsv < r.slots) && (t.sqHead q).isSome)
      ⟨regs b x, 3, r.slotAddr (r.head + r.fill + r.wsv) + (t.areg b).toNat, pitch b x, 256, some q⟩
  | _ => none
where
  keep (ok : Bool) (a : SpmAccess) : Option SpmAccess := if ok then some a else none
  regs (b x : BitVec 5) : List RegF := [b.setWidth 6, x.setWidth 6]
  /-- 08 R205: EA, the index left out. -/
  ea (b : BitVec 5) (o : BitVec 24) : Nat := (t.areg b + o.signExtend 64).toNat
  /-- EA with the index, 0 when IDX names BASE. -/
  sum (b x : BitVec 5) (o : BitVec 24) : Nat := (t.areg b + o.signExtend 64 + (if x = b then 0 else t.areg x)).toNat
  /-- 256 when IDX names BASE. -/
  pitch (b x : BitVec 5) : Nat := if x = b then 256 else (t.areg x).toNat

/-- 08 R203: the ranges of a word translate to pages of this package, and the pin table has room for them. -/
def Maps (t : State) (write : Bool) (rs : List (Nat × Nat)) (ps : List PageTr) : Prop :=
  t.xlateAll t.turn.core write rs [] = .ok ps ∧ (∀ p ∈ ps, realPa p.pa = true → paPkg p.pa = t.pkg) ∧ t.cur.pinRoom (pinKeys ps) = true

/-- No frame is remapped, migrates or forwards, none is the root of a multicast group, and no stack is lost: an address is served where
it points. -/
def PlainDram (s : State) : Prop :=
  s.migrations = [] ∧ s.forwards = [] ∧ s.groups = [] ∧ ∀ d, (s.die d).remap = [] ∧ (s.die d).lost = false

/-- Bytes bs stand at addresses pa onward of u, and every other byte of DRAM reads as in s. -/
def Stored (s u : State) (pa : Nat) (bs : List Byte) : Prop :=
  (∀ k, k < bs.length → u.dramByte (pa + k) = bs.getD k 0) ∧ ∀ a, a < pa ∨ pa + bs.length ≤ a → u.dramByte a = s.dramByte a

/-- The store lands in the page itself: no shadow of the task covers the address, no slot of the aperture holds it, and the task is
no recovery, verification or redundant run (08 R215, 16 R386). -/
def LandsAtHome (s : State) (n va : Nat) : Prop :=
  (s.core n).shadowAt va = none ∧ s.slotOf n va = none ∧ (s.core n).tsk.run = 0

end Sys2Proof.Rules

/-! ### Loads and stores -/

/-- 08 R205, R206, R208: a scratchpad load or store that begins with its registers free, a legal address, an entry of its store queue and a
place in its engine's queue becomes a command, whose first access asks its bank in the next cycle; one whose address or pitch is not
aligned, or reaches past the scratchpad, traps with ADDR. -/
def Obligations.ScratchpadAccess : Prop :=
  (∀ (i : Instr) (s t : State) (a : Rules.SpmAccess), Rules.spmWord t i = some a → s.turn.q ≠ .x → s.Begins {} t →
    t.RegsFree a.regs → Rules.AccessFree t → (t.cur.cmds.filter fun x => x.eng = a.eng).length < 8 →
    ∃ u m, exec i s = .next u ∧ s.Issued u ∧ m ∈ u.cur.cmds ∧ m.op = i ∧ m.eng = a.eng ∧ m.q = s.turn.q ∧ m.addr = a.addr ∧
      m.pitch = a.pitch ∧ (∀ q, a.pop = some q → t.sqHead q = some m.data) ∧
      (u.cur.engine a.eng).out = (t.cur.engine a.eng).out + 1 ∧
      (∃ r ∈ u.cur.reqs, r.due = s.stc + 1 ∧ r.cmd = m.id ∧ r.row = 0 ∧ r.addr = a.addr ∧ r.len = a.len) ∧
      u.cur.spm = t.cur.spm ∧ u.dram = s.dram ∧ (∀ k, k ≠ s.turn.core → u.core k = s.core k)) ∧
  (∀ (i : Instr) (s t : State) (q : RegF) (b x : BitVec 5) (o : BitVec 24), s.Begins {} t → Rules.AccessFree t →
    ((t.RegsFree [b.setWidth 6, x.setWidth 6] ∧ Rules.rowsLie (Rules.spmWord.ea t b o) (Rules.spmWord.pitch t b x) (2 ^ 23) = false ∧
        (i = .ldspm q b x o ∨ i = .stspm q b x o)) ∨
      (t.RegsFree [b.setWidth 6, x.setWidth 6] ∧ Rules.rowsLie (Rules.spmWord.sum t b x o) 0 (2 ^ 23) = false ∧ i = .ldbc q b x o) ∨
      (t.RegsFree [q, b.setWidth 6, x.setWidth 6] ∧ (Rules.spmWord.sum t b x o % 8 ≠ 0 ∨ 2 ^ 23 < Rules.spmWord.sum t b x o + 8) ∧
        (i = .ldscal q b x o ∨ i = .stscal q b x o))) →
    exec i s = .next (s.settled.wordTrap .addr 0))

/-- 08 R205, R207 to R209, R212, 09 R260: a DRAM load or store that begins, its rows mapped and aligned and its engine's queue not full, pins its
pages and becomes a command, a load of a calendar region pushing 400 + 48h c after its issue; a misaligned or unmapped address traps with
ADDR, and so does a gather or scatter whose address or table is misaligned or whose table reaches past the scratchpad. pref
completes on any address; in a scoreboard region a mapped page that the cache lacks enters it. qmark adds its tag to its side's markers,
and on either side a tag that differs from its partner traps with ILLOP. -/
def Obligations.DramAccess : Prop :=
  (∀ (s t : State) (q : RegF) (b x : BitVec 5) (o : BitVec 24) (ps : List PageTr), s.turn.q ≠ .x → s.Begins {} t →
    t.RegsFree [b.setWidth 6, x.setWidth 6] → Rules.AccessFree t →
    let ea := Rules.spmWord.ea t b o
    let pitch := Rules.spmWord.pitch t b x
    let aligned := ea % 64 = 0 ∧ pitch % 64 = 0 ∧ pitch < 2 ^ 32
    (aligned → Rules.Maps t false (dramRows ea pitch) ps → (t.cur.cmds.filter fun m => m.eng = engLde).length < 8 →
      ∃ u m, exec (.lddram q b x o) s = .next u ∧ s.Issued u ∧ m ∈ u.cur.cmds ∧ m.op = .lddram q b x o ∧ m.pages = ps ∧
        m.addr = ea ∧ m.pitch = pitch ∧ m.queue = q.toNat ∧ m.pins = pinKeys ps ∧ (∃ j ∈ u.agenda, s.stc < j.due ∧ j.ev = .lddramReturn s.turn.core m.id) ∧
        (t.cur.sys.region = false →
          ⟨s.stc + 400 + 48 * t.hops (dieOf s.turn.core) (t.homeDie ps ea), phEngine, .loadQueuePush s.turn.core m.id, {}, {}⟩ ∈ u.agenda)) ∧
    (∀ v, aligned → Rules.Maps t true (dramRows ea pitch) ps → (t.cur.cmds.filter fun m => m.eng = engSte).length < 8 →
      t.sqHead q = some v →
      ∃ u m, exec (.stdram q b x o) s = .next u ∧ s.Issued u ∧ m ∈ u.cur.cmds ∧ m.op = .stdram q b x o ∧ m.pages = ps ∧
        m.addr = ea ∧ m.pitch = pitch ∧ m.data = v ∧ m.pins = pinKeys ps ∧ u.dram = s.dram ∧
        (∃ j ∈ u.agenda, s.stc < j.due ∧ j.ev = .storePerformed s.turn.core m.id)) ∧
    (¬ aligned ∨ t.xlateAll s.turn.core false (dramRows ea pitch) [] = .error .bad →
      exec (.lddram q b x o) s = .next (s.settled.wordTrap .addr 0)) ∧
    (¬ aligned ∨ t.xlateAll s.turn.core true (dramRows ea pitch) [] = .error .bad →
      exec (.stdram q b x o) s = .next (s.settled.wordTrap .addr 0)) ∧
    (ea % 4 ≠ 0 ∨ (t.areg x).toNat % 64 ≠ 0 ∨ 2 ^ 23 < (t.areg x).toNat + 4096 →
      exec (.ldgath q b x o) s = .next (s.settled.wordTrap .addr 0) ∧ exec (.stscat q b x o) s = .next (s.settled.wordTrap .addr 0)) ∧
    (ea % 4 = 0 → (t.areg x).toNat % 64 = 0 → (t.areg x).toNat + 4096 ≤ 2 ^ 23 →
      (t.cur.cmds.filter fun m => m.eng = engGse).length < 4 →
      (∃ u m, exec (.ldgath q b x o) s = .next u ∧ s.Issued u ∧ m ∈ u.cur.cmds ∧ m.op = .ldgath q b x o ∧ m.addr = ea ∧
        m.table = (t.areg x).toNat ∧ (∃ j ∈ u.agenda, j.due = s.stc + 1 ∧ j.ev = .gatherElement s.turn.core m.id 0)) ∧
      ∀ v, t.sqHead q = some v →
        ∃ u m, exec (.stscat q b x o) s = .next u ∧ s.Issued u ∧ m ∈ u.cur.cmds ∧ m.op = .stscat q b x o ∧ m.addr = ea ∧
          m.table = (t.areg x).toNat ∧ m.data = v ∧ (∃ j ∈ u.agenda, j.due = s.stc + 1 ∧ j.ev = .gatherElement s.turn.core m.id 0))) ∧
  ((∀ (s t : State) (b x : BitVec 5) (o : BitVec 24), s.turn.q ≠ .x → s.Begins {} t → t.RegsFree [b.setWidth 6, x.setWidth 6] →
    ∃ u, exec (.pref b x o) s = .next u ∧ s.Issued u ∧ u.dram = s.dram ∧ u.cur.cmds = t.cur.cmds ∧
      (∀ p, t.cur.sys.region = true → t.xlate s.turn.core (Rules.spmWord.sum t b x o) false = .miss p → p ∈ u.cur.tsk.tcache) ∧
      (t.cur.sys.region = false → u.cur.tsk = t.cur.tsk)) ∧
  (∀ (s t : State) (tag : BitVec 8), s.turn.q = .l ∨ s.turn.q = .s → s.Begins {} t →
    let k := t.cur.tsk
    (s.turn.q = .l → (∀ g, k.qmS[k.qmL.length]? = some g → g = tag) →
      ∃ u, exec (.qmark tag) s = .next u ∧ s.Issued u ∧ u.cur.tsk.qmL = k.qmL ++ [tag] ∧ u.cur.tsk.qmS = k.qmS) ∧
    (s.turn.q = .s → (∀ g, k.qmL[k.qmS.length]? = some g → g = tag) →
      ∃ u, exec (.qmark tag) s = .next u ∧ s.Issued u ∧ u.cur.tsk.qmS = k.qmS ++ [tag] ∧ u.cur.tsk.qmL = k.qmL) ∧
    (s.turn.q = .l → ∀ g, k.qmS[k.qmL.length]? = some g → g ≠ tag → exec (.qmark tag) s = .next (s.settled.wordTrap .illop 0)) ∧
    (s.turn.q = .s → ∀ g, k.qmL[k.qmS.length]? = some g → g ≠ tag → exec (.qmark tag) s = .next (s.settled.wordTrap .illop 0))))

/-- 08 R205, R208, R209: the oldest load of its queue whose data are there pushes them and retires; the data of an lddram are the bytes that
its rows hold when they return. When a DRAM store is performed its register's bytes stand at its rows, here one after the other in one
page, and no other byte changes; a scratchpad store that has written its last row retires, and with ADV its ring has one slot
more. -/
def Obligations.LoadsAndStoresArePerformed : Prop :=
  (∀ (s : State) (n id : Nat) (m : Cmd), (s.core n).cmd? id = some m →
    (m.arrived = true → (∀ x ∈ (s.core n).cmds, x.pushes = true → x.queue = m.queue → id ≤ x.id) →
      ((s.core n).q.lqueue m.queue).room s.stc = true →
      ∃ u, exec (.loadQueuePush n id) s = .next u ∧ (u.core n).cmd? id = none ∧
        ((u.core n).q.lqueue m.queue).items = ((s.core n).q.lqueue m.queue).items ++ [⟨m.data, s.stc⟩] ∧ u.dram = s.dram) ∧
    (m.cal = false → s.accessBefore n m.q id m.locs = false → (s.core n).loadHeld s.stc id = false →
      s.firstBad n m.pages (dramUnits m.addr m.pitch) = none →
      ∃ u v, exec (.lddramReturn n id) s = .next u ∧ (u.core n).cmd? id = some { m with arrived := true, data := v } ∧
        v = BitVec.ofNat 32768 (leVal ((dramUnits m.addr m.pitch).flatMap fun a => s.taskRead n m.pages a 64)) ∧
        ⟨s.stc, phEngine, .loadQueuePush n id, {}, {}⟩ ∈ u.agenda ∧ u.dram = s.dram) ∧
    (∀ (k : Nat) (b : Bool) (p : PageTr) (q : RegF) (ba ix : BitVec 5) (o : BitVec 24), m.op = .ldgath q ba ix o → m.slot = some b →
      s.accessBefore n m.q id [(locOf [p] (m.elemAddr k), 4)] = false → s.xlate n (m.elemAddr k) false = .ok p →
      (realPa p.pa = true → paPkg p.pa = s.pkg) → s.badRead n [p] (m.elemAddr k) 4 = none →
      ∃ u d, exec (.gatherElement n id k) s = .next u ∧
        (u.core n).cmd? id = some { m with data := d, arrived := decide (k = 1023) } ∧
        d = m.data ||| BitVec.ofNat 32768 (leVal (s.taskRead n [p] (m.elemAddr k) 4) * 2 ^ (32 * k)) ∧
        (k < 1023 → ∃ j ∈ u.agenda, s.stc < j.due ∧ j.ev = .gatherElement n id (k + 1)) ∧
        (1023 ≤ k → ⟨s.stc, phEngine, .loadQueuePush n id, {}, {}⟩ ∈ u.agenda) ∧ u.dram = s.dram)) ∧
  (∀ (s : State) (n id : Nat) (m : Cmd), (s.core n).cmd? id = some m →
    (∀ (q : RegF) (ba ix : BitVec 5) (o : BitVec 24) (p : PageTr), m.op = .stdram q ba ix o → m.rows = 0 → m.pitch = 256 →
      s.accessBefore n m.q id m.locs = false → m.pages = [p] → p.va ≤ m.addr → m.addr + 4096 ≤ p.va + p.size →
      Rules.PlainDram s → (∀ k, k < 4096 → Rules.LandsAtHome s n (m.addr + k)) →
      ∃ u, exec (.storePerformed n id) s = .next u ∧
        Rules.Stored s u (p.pa + (m.addr - p.va)) (leBytes 4096 m.data.toNat)) ∧
    (∀ (q : RegF) (ba ix : BitVec 5) (o : BitVec 24) (p : PageTr) (k : Nat) (b : Bool), m.op = .stscat q ba ix o → m.slot = some b →
      s.refused n id = false → s.accessBefore n m.q id [(locOf [p] (m.elemAddr k), 4)] = false → s.xlate n (m.elemAddr k) true = .ok p →
      s.xlate n (m.elemAddr k) false = .ok p →
      (realPa p.pa = true → paPkg p.pa = s.pkg) → p.va ≤ m.elemAddr k → m.elemAddr k < p.va + p.size →
      Rules.PlainDram s → Rules.LandsAtHome s n (m.elemAddr k) →
      ∃ u, exec (.gatherElement n id k) s = .next u ∧
        Rules.Stored s u (p.pa + (m.elemAddr k - p.va)) (leBytes 4 (velem 32 m.data k))) ∧
    ((∃ q ba ix o, m.op = .stspm q ba ix o) ∨ (∃ q ba ix rg v, m.op = .strg q ba ix rg v) → s.refused n id = false →
      ∃ u, exec (.storePerformed n id) s = .next u ∧ (u.core n).cmd? id = none ∧ u.dram = s.dram ∧
        (∀ q ba ix rg, m.op = .strg q ba ix rg 1#1 → ⟨s.stc + 1, .ringFill rg.toNat 1⟩ ∈ (u.core n).pend)))

namespace Sys2Proof.Rules

/-- 08 R213: what a copy copies: source, destination, bytes of a row, rows and pitches. -/
def copyOf (t : State) : Instr → Option (Nat × Nat × Nat × Nat × Nat × Nat × List RegF × Bool × Bool × Bool × Nat)
  | .copy d a b c tag sh ss ds =>
    let n := (t.rd b).toNat
    if n = 0 ∨ n % 64 ≠ 0 ∨ 2 ^ 32 < n then none
    else some ((t.rd a).toNat, (t.rd d).toNat, n, 1, 0, 0, [d, a, b, c], sh = 1#1, ss = 1#1, ds = 1#1, tag.toNat)
  | .copyw d a b c tag sh ss ds =>
    let n := (t.rd b).toNat % 2 ^ 32
    let rows := (t.rd b).toNat / 2 ^ 32
    let sp := (t.rd c).toNat % 2 ^ 32
    let dp := (t.rd c).toNat / 2 ^ 32
    if n = 0 ∨ n % 64 ≠ 0 ∨ rows = 0 ∨ 65536 ≤ rows ∨ sp % 64 ≠ 0 ∨ dp % 64 ≠ 0 ∨ sp < n ∨ dp < n then none
    else some ((t.rd a).toNat, (t.rd d).toNat, n, rows, sp, dp, [d, a, b, c], sh = 1#1, ss = 1#1, ds = 1#1, tag.toNat)
  | _ => none

end Sys2Proof.Rules

/-! ### Copies, fences and tokens -/

/-- 08 R213, R214: a copy whose lengths are legal, whose sides are aligned, apart and mapped, takes its place on cpe; one that is not aligned traps
with ADDR. A node whose dependences have retired starts when a slot is free; a unit reads 64 bytes of its source and stores them at its
destination, and after the last the node retires. -/
def Obligations.Copies : Prop :=
  (∀ (i : Instr) (s t : State) (src dst len rows sp dp tag : Nat) (regs : List RegF) (sh ss ds : Bool) (ps qs : List PageTr),
    Rules.copyOf t i = some (src, dst, len, rows, sp, dp, regs, sh, ss, ds, tag) → s.turn.q ≠ .x → s.Begins {} t →
    t.RegsFree regs → Rules.AccessFree t →
    let last (base pitch : Nat) : Nat := base + (rows - 1) * pitch + len
    let side (base pitch : Nat) (spm : Bool) : List (Nat × Nat) := if spm then [] else (List.range rows).map fun r => (base + r * pitch, len)
    (ss = ds → last src sp ≤ dst ∨ last dst dp ≤ src) → (sh = true → ds = false) →
    (src % 64 = 0 → dst % 64 = 0 → (ss = true → last src sp ≤ 2 ^ 23) → (ds = true → last dst dp ≤ 2 ^ 23) →
      Rules.Maps t false (side src sp ss) ps → t.xlateAll t.turn.core true (side dst dp ds) [] = .ok qs →
      (∀ p ∈ qs, realPa p.pa = true → paPkg p.pa = t.pkg) → (t.cur.pin (pinKeys ps)).pinRoom (pinKeys qs) = true →
      ∃ u k, exec i s = .next u ∧ s.Issued u ∧ k ∈ u.cur.tsk.copies ∧ k.src = src ∧ k.dst = dst ∧ k.len = len ∧ k.rows = rows ∧
        k.spitch = sp ∧ k.dpitch = dp ∧ k.tag = tag ∧ k.shadow = sh ∧ k.sspm = ss ∧ k.dspm = ds ∧ k.spages = ps ∧ k.dpages = qs ∧
        SMap.get? u.cur.tsk.tagIds tag = some k.id ∧ (u.cur.engine engCpe).out = (t.cur.engine engCpe).out + 1 ∧
        ⟨s.stc + 1, phEngine, .copyNodeStart s.turn.core k.id, {}, {}⟩ ∈ u.agenda ∧ u.dram = s.dram) ∧
    (src % 64 ≠ 0 ∨ dst % 64 ≠ 0 → exec i s = .next (s.settled.wordTrap .addr 0))) ∧
  (∀ (s : State) (n id : Nat) (k : CopyNode), (s.core n).node? id = some k →
    (∀ b, (∀ d ∈ k.deps, (s.core n).node? d = none) → s.grabSlot n engCpe = some b →
      ∃ u, exec (.copyNodeStart n id) s = .next u ∧ (u.core n).node? id = some { k with started := true, slot := some b } ∧
        u.dram = s.dram) ∧
    ((∃ d ∈ k.deps, (s.core n).node? d ≠ none) →
      exec (.copyNodeStart n id) s = .next (s.sched (s.stc + 1) phEngine (.copyNodeStart n id))) ∧
    (k.buf = none → s.homeBad n k.spages (k.srcAt k.units) 64 = none →
      ∃ u, exec (.copyUnit n id k.units) s = .next u ∧
        (u.core n).node? id = some { k with buf := some (s.homeRead n k.spages (k.srcAt k.units) 64) } ∧ u.dram = s.dram) ∧
    (∀ bs p, k.buf = some bs → bs.length = 64 → pageOf k.dpages (k.dstAt k.units) = some p → Rules.PlainDram s →
      Rules.LandsAtHome s n (k.dstAt k.units) →
      ∃ u, exec (.copyUnit n id k.units) s = .next u ∧ Rules.Stored s u (p.pa + (k.dstAt k.units - p.va)) bs ∧
        (u.core n).node? id = some { k with units := k.units + 1, buf := none } ∧
        (k.total ≤ k.units + 1 → ⟨s.stc, phEngine, .copyNodeRetire n id, {}, {}⟩ ∈ u.agenda)) ∧
    (s.refused n id = false →
      ∃ u, exec (.copyNodeRetire n id) s = .next u ∧ (u.core n).node? id = none ∧ ⟨s.stc + 1, .engRetire engCpe⟩ ∈ (u.core n).pend ∧
        u.dram = s.dram))

/-- 02 R51 to R53, 08 R218, R229: a fence completes when what it orders has been performed, at once with SCOPE 0, and changes nothing but
its issue; until then it does not issue. tkwait takes its tokens when they were there at the start of the cycle, tksig adds its own
where 63 holds them with those that words of X still hold back; else the word does not issue. -/
def Obligations.FencesAndTokens : Prop :=
  (∀ (s t : State) (o : Ordr), s.Begins {} t →
    (o.scope = 0#3 ∨ t.cur.fenced s.turn.q o.ord = false →
      ∃ u, exec (.fence o) s = .next u ∧ s.Issued u ∧ u.dram = s.dram ∧ u.cur.cmds = t.cur.cmds ∧ u.cur.tsk = t.cur.tsk ∧
        u.cur.spm = t.cur.spm ∧ u.cur.pend = t.cur.pend ∧ u.agenda = s.agenda) ∧
    (o.scope ≠ 0#3 → t.cur.fenced s.turn.q o.ord = true → exec (.fence o) s = .next (s.settled.block .schedmiss))) ∧
  (∀ (s t : State) (dir : BitVec 2) (n : BitVec 6) (o : BitVec 2), s.turn.q ≠ .x → s.Begins {} t → s.turn.hdr.push = 0#2 →
    let f := if dir = 1#2 then popPrev s.turn.q else popNext s.turn.q
    let g := if dir = 1#2 then pushPrev s.turn.q else pushNext s.turn.q
    (n.toNat ≤ (t.cur.q.tok f).avail s.stc →
      ∃ u, exec (.tkwait dir n o) s = .next u ∧ s.Issued u ∧ (u.cur.q.tok f).count = (t.cur.q.tok f).count - n.toNat ∧
        ∀ h, h ≠ f → u.cur.q.tok h = t.cur.q.tok h) ∧
    ((t.cur.q.tok f).avail s.stc < n.toNat → exec (.tkwait dir n o) s = .next (s.settled.block .schedmiss)) ∧
    ((ordRel o = true → t.cur.allPerformed s.turn.q = true) → (t.cur.q.tok g).held s.stc + t.cur.heldTokens g + n.toNat ≤ 63 →
      ∃ u, exec (.tksig dir n o) s = .next u ∧ s.Issued u ∧ (u.cur.q.tok g).count = (t.cur.q.tok g).count + n.toNat ∧
        ∀ h, h ≠ g → u.cur.q.tok h = t.cur.q.tok h) ∧
    ((ordRel o = true → t.cur.allPerformed s.turn.q = true) → 63 < (t.cur.q.tok g).held s.stc + t.cur.heldTokens g + n.toNat →
      exec (.tksig dir n o) s = .next (s.settled.block .ovf)))

namespace Sys2Proof.Rules

/-- 08 Table 8.5: the new value of a w-bit word that holds o. -/
def atomic (kind w o b c : Nat) : Nat :=
  let signed (x : Nat) : Int := if x < 2 ^ (w - 1) then (x : Int) else (x : Int) - 2 ^ w
  let b := b % 2 ^ w
  if kind = 0 then o
  else if kind = 1 then b
  else if kind = 2 then (o + b) % 2 ^ w
  else if kind = 3 then o &&& b
  else if kind = 4 then o ||| b
  else if kind = 5 then o ^^^ b
  else if kind = 6 then (if signed o ≤ signed b then o else b)
  else if kind = 7 then (if signed b ≤ signed o then o else b)
  else if kind = 8 then (if o ≤ b then o else b)
  else if kind = 9 then (if b ≤ o then o else b)
  else if kind = 10 then (if o = c % 2 ^ w then b else o)
  else (Fp.fadd (if w = 32 then Fp.f32 else Fp.f64) 0 o b).1

/-- No die's hot-word cache holds a word. -/
def NoHot (s : State) : Prop := ∀ d, (s.die d).stationHot = []

/-- 08 R201, R219: a word of C, L or S with a DRAM operand of `len` bytes at va may act on it: in a scoreboard region and in no
recovery or redundant run, its registers free, no access of its sequencer to the same bytes in the way, its page mapped in this package,
and, as a release, everything before it performed. -/
def ActsOn (s t : State) (regs : List RegF) (va len : Nat) (write : Bool) (o : Ordr) (p : PageTr) : Prop :=
  s.turn.q ≠ .x ∧ s.cur.sys.region = true ∧ t.RegsFree regs ∧ AccessFree t ∧ (ordRel o.ord = true → t.cur.allPerformed t.turn.q = true) ∧
  t.cur.tsk.run = 0 ∧ Maps t write [(va, len)] [p] ∧ p.va ≤ va ∧ va + len ≤ p.va + p.size ∧
  t.clashes t.turn.core t.turn.q (fun _ => true) [(locOf [p] va, len)] = false ∧ ∀ m ∈ t.cur.cmds, m.id < t.cur.nextCmd

/-- 08 R219: the atomics that act on DRAM at their own point, by kind and size; ramo with a way free in the set of its word. -/
def atomicAt (s : State) (pa : Nat) (kind : BitVec 4) (size : BitVec 2) : Instr → Bool
  | .amo _ _ _ _ k z spm _ => decide (k = kind) && decide (z = size) && decide (spm = 0#1)
  | .ramo _ _ _ _ k z _ => decide (k = kind) && decide (z = size) && decide ((SMap.get [] (s.die (paDie pa)).stationHot (hotSet pa)).length < 8)
  | _ => false

/-- Commands of cle that return a value (08 R222, R225, R230). -/
def returnsByCle : Instr → Bool
  | .rwopen .. | .rwclose .. | .bar .. => true
  | _ => false

end Sys2Proof.Rules

/-! ### Publishing, atomics, reduction windows and pairing objects -/

/-- 08 R215 to R217, 13 R335, 16 R378, R380: a publish of a range that a shadow meets, once C's writes are performed, is stamped and its switch
set 256, 512 or 8192 c ahead; a range of no bytes names no page; of a version its lineage record is on its way; of a name that is no output it
traps with ILLOP. At the switch a page takes the content of its shadow in one step, and no byte outside it changes. The acknowledgements of the
shard and its mirror, whatever records stand, store the record and mark the version's entry; with both, nothing of it is left on its way. A
shard without room acknowledges later. -/
def Obligations.Publishing : Prop :=
  (∀ (s t : State) (a b : RegF) (scope : BitVec 3), s.turn.q = .c → s.Begins {} t → t.RegsFree [a, b] → Rules.AccessFree t →
    t.cur.allPerformed .c = true → t.cur.cmds = [] →
    let hit := t.cur.tsk.shadows.filter fun h => h.version = none && decide (0 < (t.rd b).toNat) &&
      decide (h.va < (t.rd a).toNat + (t.rd b).toNat) && decide ((t.rd a).toNat < h.va + h.size)
    (hit = [] → ∃ u, exec (.publishBuf a b scope) s = .next u ∧ s.Issued u ∧ u.publishes = s.publishes ∧ u.cur.tsk = t.cur.tsk ∧ u.dram = s.dram) ∧
    (hit ≠ [] → ∃ u p, exec (.publishBuf a b scope) s = .next u ∧ s.Issued u ∧ u.publishes = s.publishes ++ [p] ∧ p.vas = hit.map (·.va) ∧
      p.version = none ∧ p.core = s.turn.core ∧
      p.tsw = s.stc + (if ∃ h ∈ hit, paPkg h.pa ≠ s.pkg then 8192 else if ∀ h ∈ hit, paDie h.pa = dieOf s.turn.core then 256 else 512) ∧
      ⟨p.tsw, phSwitch, .publishSwitch p.id, {}, {}⟩ ∈ u.agenda ∧ u.cur.tsk.shadows = t.cur.tsk.shadows ∧ u.dram = s.dram)) ∧
  (∀ (s t : State) (a : RegF) (scope : BitVec 3), s.turn.q = .c → s.Begins {} t → t.RegsFree [a] → Rules.AccessFree t →
    t.cur.allPerformed .c = true → t.cur.cmds = [] →
    let name := (t.rd a).toNat
    (∀ r k e, t.recOf s.turn.core = some r → r.kind = .ordinary → r.tiles.findIdx? (fun x => x.1 = name && x.2) = some k →
      t.cur.tsk.published.contains name = false → t.dirEnt name = some e → e.st ≠ .full → e.st ≠ .poisoned →
      t.shardRoom name r = true →
      ∃ u p, exec (.publishTile a scope) s = .next u ∧ s.Issued u ∧ u.publishes = s.publishes ++ [p] ∧ p.version = some name ∧
        p.tsw = s.stc + (if s.homeOf name = dieOf s.turn.core then 256 else 512) ∧
        (∃ j ∈ u.agenda, j.due = p.tsw ∧ j.ev = .publishSwitch p.id) ∧ name ∈ u.cur.tsk.published ∧
        (∃ l ∈ u.sentLin, l.name = name ∧ l.taskno = r.taskno ∧ l.opds = r.ins ∧ l.stc = s.stc ∧ l.audit = t.cur.sys.audit)) ∧
    (∀ r, t.recOf s.turn.core = some r → r.tiles.findIdx? (fun x => x.1 = name && x.2) = none →
      exec (.publishTile a scope) s = .next (s.settled.wordTrap .illop 0))) ∧
  (∀ (s : State) (p : Publish) (h : Shadow) (id : Nat), s.publishes.find? (fun x => x.id = p.id) = some p → p.version = none →
    (s.core p.core).tsk.task = some id → p.task = id → p.vas = [h.va] → (s.core p.core).tsk.shadows = [h] → h.version = none →
    Rules.PlainDram s → Rules.NoHot s → Memory.wf h.mem = true → (∀ c ∈ h.mem, c.1 < h.size) → h.size % 65536 = 0 →
    ∃ u, exec (.publishSwitch p.id) s = .next u ∧ (u.core p.core).tsk.shadows = [] ∧ (∀ x ∈ u.publishes, x.id ≠ p.id) ∧
      (∀ k, k < h.size → Memory.byte u.dram (h.pa + k) = Memory.byte h.mem k) ∧
      ∀ a, a < h.pa ∨ h.pa + h.size ≤ a → Memory.byte u.dram a = Memory.byte s.dram a) ∧
  (∀ (s : State) (l : Lineage) (e : DirEnt) (b : Bool), s.sentLin.find? (fun x => x.name = l.name) = some l → s.dirEnt l.name = some e →
    (s.die s.inp.die).lost = false →
    let shard (t : State) : Shard := if s.inp.die = s.homeOf l.name then (t.die s.inp.die).shard else (t.die s.inp.die).mirror
    (shardCap < (shard s).bytes + (shard s).needs l →
      ∃ u, exec (.lineageAck l.name b) s = .next u ∧
        (∃ j ∈ u.agenda, s.stc < j.due ∧ j.ev = .lineageAck l.name b ∧ j.inp.die = s.inp.die) ∧
        u.sentLin = s.sentLin ∧ u.dir = s.dir ∧ u.dram = s.dram) ∧
    ((shard s).bytes + (shard s).needs l ≤ shardCap →
      ((if b then e.linack else e.mirack) = false →
        ∃ u, exec (.lineageAck l.name b) s = .next u ∧
          (∃ e', u.dirEnt l.name = some e' ∧ (if b then e'.mirack else e'.linack) = true ∧ (if b then e'.linack else e'.mirack) = false) ∧
          l ∈ (shard u).lineage ∧ u.sentLin = s.sentLin ∧ u.dram = s.dram) ∧
      ((if b then e.linack else e.mirack) = true → ∃ u, exec (.lineageAck l.name b) s = .next u ∧ ∀ y ∈ u.sentLin, y.name ≠ l.name)))

/-- 08 R219, R220, Tables 8.2 and 8.5: amo to DRAM and ramo, their word mapped and in place, become commands whose kind is applied to it in the next
cycle (log 92): the word then holds the new value, every other byte what it held, and the old value returns later; amo to the scratchpad asks its
bank in the next cycle. In a calendar region an atomic to DRAM traps with ILLOP, in a recovery or redundant run it ends the task at once;
a misaligned one traps with ADDR. -/
def Obligations.AtomicsApply : Prop :=
  (∀ (s t : State) (d a b c : RegF) (kind : BitVec 4) (size : BitVec 2) (o : Ordr) (p : PageTr),
    s.Begins { audit := true } t →
    let va := (t.rd a).toNat
    let sz := if size = 0#2 then 4 else 8
    Rules.ActsOn s t [d, a, b, c] va sz (kind ≠ 0#4) o p → ∀ i, i = .amo d a b c kind size 0#1 o ∨ i = .ramo d a b c kind size o →
      (va % sz = 0 →
        ∃ u m, exec i s = .next u ∧ s.Issued u ∧ m ∈ u.cur.cmds ∧ m.op = i ∧ m.dst = d.toNat ∧ m.addr = va ∧ m.pages = [p] ∧
          m.value = t.rd b ∧ m.value2 = t.rd c ∧ m.arrived = false ∧ m.stamp.stc = s.stc ∧ u.cur.sys.audit = true ∧
          (∃ j ∈ u.agenda, j.due = s.stc + 1 ∧ j.ev = .atomicResultReturn s.turn.core m.id) ∧ u.dram = s.dram) ∧
      (va % sz ≠ 0 → exec i s = .next ((s.settled.setAudit s.turn.core).wordTrap .addr 0))) ∧
  (∀ (s : State) (n id : Nat) (m : Cmd) (p : PageTr) (kind : BitVec 4) (size : BitVec 2), (s.core n).cmd? id = some m → m.arrived = false →
    let sz := if size = 0#2 then 4 else 8
    let pa := p.pa + (m.addr - p.va)
    let old := leVal (s.dramBytes pa sz)
    Rules.atomicAt s pa kind size m.op = true → m.pages = [p] → p.va ≤ m.addr → m.addr < p.va + p.size → Rules.PlainDram s →
    s.slotOf n m.addr = none → s.poisoned pa sz = false →
    ∃ u, exec (.atomicResultReturn n id) s = .next u ∧
      (u.core n).cmd? id = some { m with arrived := true, value := BitVec.ofNat 64 old } ∧
      (∃ j ∈ u.agenda, s.stc < j.due ∧ j.ev = .atomicResultReturn n id) ∧
      (kind = 0#4 → ∀ x, u.dramByte x = s.dramByte x) ∧
      (kind ≠ 0#4 → Rules.Stored s u pa (leBytes sz (Rules.atomic kind.toNat (8 * sz) old m.value.toNat m.value2.toNat)))) ∧
  (∀ (s t : State) (d a b c : RegF) (kind : BitVec 4) (size : BitVec 2) (o : Ordr),
    let sz := if size = 0#2 then 4 else 8
    (s.cur.sys.region = false → s.Begins {} t → ∀ i, (i = .amo d a b c kind size 0#1 o ∨ i = .ramo d a b c kind size o ∨ i = .damo d a b c kind size o) →
      (t.cur.tsk.run = 0 → exec i s = .next (s.settled.wordTrap .illop 0)) ∧ (t.cur.tsk.run ≠ 0 → exec i s = .next (t.runStop false))) ∧
    (s.cur.sys.region = true → s.Begins {} t → t.RegsFree [d, a, b, c] → Rules.AccessFree t → (ordRel o.ord = true → t.cur.allPerformed t.turn.q = true) →
      t.cur.tsk.run = 0 → (t.rd a).toNat % sz ≠ 0 → exec (.damo d a b c kind size o) s = .next (s.settled.wordTrap .addr 0)) ∧
    (s.turn.q ≠ .x → s.Begins { audit := s.cur.sys.region } t → t.RegsFree [d, a, b, c] → Rules.AccessFree t →
      (ordRel o.ord = true → t.cur.allPerformed t.turn.q = true) → (t.rd a).toNat % sz = 0 → (t.rd a).toNat + sz ≤ 2 ^ 23 →
      ∃ u m, exec (.amo d a b c kind size 1#1 o) s = .next u ∧ s.Issued u ∧ m ∈ u.cur.cmds ∧ m.op = .amo d a b c kind size 1#1 o ∧
        (∃ r ∈ u.cur.reqs, r.due = s.stc + 1 ∧ r.cmd = m.id ∧ r.addr = (t.rd a).toNat ∧ r.len = sz) ∧ u.dram = s.dram))

/-- 08 R220, R221, 13 R341, R342: the return of an old value, or of the result of a command of cle in its slot, writes D and retires the
operation. A damo is sent to the unit of its word, which
accepts it into its buffer of 16 or its log or refuses it for 256 c; a source sends its horizon over the ring, again within 256 c while
operations are on their way, and the unit keeps what it hears; when every horizon has passed its window it is applied in its place
by its stamp, and its old value returns. -/
def Obligations.AtomicsReturn : Prop :=
  (∀ (s : State) (n id : Nat) (m : Cmd), (s.core n).cmd? id = some m → m.dst < 64 → m.dst2 = 64 →
    (m.arrived = true ∨ (m.slot ≠ none ∧ Rules.returnsByCle m.op = true)) →
    ∃ u, exec (.atomicResultReturn n id) s = .next u ∧ ((u.core n).seq m.q).reg m.dst = m.value ∧ (u.core n).cmd? id = none ∧
      (∀ q r, (q, r) ≠ (m.q, m.dst) → ((u.core n).seq q).reg r = ((s.core n).seq q).reg r) ∧ u.dram = s.dram ∧
      ∀ k, k ≠ n → u.core k = s.core k) ∧
  ((∀ (s t : State) (d a b c : RegF) (kind : BitVec 4) (size : BitVec 2) (o : Ordr) (p : PageTr), s.Begins {} t →
    let va := (t.rd a).toNat
    let sz := if size = 0#2 then 4 else 8
    Rules.ActsOn s t [d, a, b, c] va sz (kind ≠ 0#4) o p → va % sz = 0 →
    ∃ u m x, exec (.damo d a b c kind size o) s = .next u ∧ s.Issued u ∧ m ∈ u.cur.cmds ∧ m.op = .damo d a b c kind size o ∧
      x ∈ u.damos ∧ x.cmd = m.id ∧ x.pa = p.pa + (va - p.va) ∧ x.kind = kind.toNat ∧ x.b = t.rd b ∧ x.c = t.rd c ∧
      x.stamp.stc = s.stc ∧ (∃ j ∈ u.agenda, s.stc < j.due ∧ j.ev = .damoArrival x.id) ∧ u.dram = s.dram) ∧
  (∀ (s : State) (x : DamoOp), s.damos.find? (fun y => y.id = x.id) = some x →
    let k := s.unitOf x
    ((s.dau k).buf.length < 16 →
      ∃ u, exec (.damoArrival x.id) s = .next u ∧ (u.dau k).buf = (s.dau k).buf ++ [{ x with accepted := true, retry := none }] ∧
        (∀ y ∈ u.damos, y.id ≠ x.id) ∧ u.dram = s.dram) ∧
    (16 ≤ (s.dau k).buf.length → (s.dau k).log.length < 65536 →
      ∃ u, exec (.damoArrival x.id) s = .next u ∧ (u.dau k).buf = (s.dau k).buf ∧
        (u.dau k).log = (s.dau k).log ++ [{ x with accepted := true, retry := none }] ∧ u.dram = s.dram) ∧
    (16 ≤ (s.dau k).buf.length → 65536 ≤ (s.dau k).log.length →
      ∃ u, exec (.damoArrival x.id) s = .next u ∧ u.dau k = s.dau k ∧
        ⟨s.stc + 256, phTask, .damoRetryResend x.id, {}, {}⟩ ∈ u.agenda) ∧
    ∃ u, exec (.damoRetryResend x.id) s = .next u ∧ (∀ y ∈ u.damos, y.id = x.id → y.retry = none) ∧
      ∃ j ∈ u.agenda, s.stc < j.due ∧ j.ev = .damoArrival x.id) ∧
  (∀ (s : State) (k src : Nat), src ∈ s.sources →
    (s.inp.mark = false →
      ∃ u j, exec (.horizonMessage k src) s = .next u ∧ j ∈ u.agenda ∧ s.stc < j.due ∧ j.ev = .horizonMessage k src ∧ j.inp.mark = true ∧
        (s.bridgeHears src = false → j.inp.sent = s.horizonOf src) ∧ s.horizonOf src ≤ j.inp.sent ∧ j.inp.sent ≤ s.stc ∧
        ((∃ x ∈ s.damos, s.unitOf x = k) →
          ∃ j ∈ u.agenda, s.stc < j.due ∧ j.due ≤ s.stc + 256 ∧ j.ev = .horizonMessage k src ∧ j.inp.mark = false) ∧ u.dram = s.dram) ∧
    (s.inp.mark = true →
      ∃ u, exec (.horizonMessage k src) s = .next u ∧ SMap.get 0 (u.dau k).horizon src = s.inp.sent ∧
        ((u.dau k).closed < u.openFrom k → u.hasJob (.damoWindowClose k) = true) ∧ u.dram = s.dram)) ∧
  (∀ (s : State) (k : Nat) (x : DamoOp), (s.dau k).buf = [x] → (s.dau k).log = [] → x.window < s.openFrom k → Rules.PlainDram s →
    Rules.NoHot s → x.kind ≠ 0 → x.size ≤ 1 →
    let sz := if x.size = 0 then 4 else 8
    (s.inp.stamp.lt x.stamp = true →
      ∃ u, exec (.damoWindowClose k) s = .next u ∧ (u.dau k).buf = [x] ∧ u.dram = s.dram ∧
        ∃ j ∈ u.agenda, j.due = s.stc ∧ j.ev = .damoWindowClose k ∧ j.key = x.stamp) ∧
    (s.inp.stamp.lt x.stamp = false → ((x.far = true ∧ s.poisoned x.pa sz = false) ∨
        ∃ m, x.far = false ∧ (s.core x.core).cmd? x.cmd = some m ∧ s.slotOf x.core m.addr = none ∧
          s.homeBad x.core m.pages m.addr sz = none) →
      ∃ u, exec (.damoWindowClose k) s = .next u ∧ (u.dau k).buf = [] ∧
        Rules.Stored s u x.pa (leBytes sz (Rules.atomic x.kind (8 * sz) (leVal (s.dramBytes x.pa sz)) x.b.toNat x.c.toNat)) ∧
        (x.far = false → ∃ j ∈ u.agenda, s.stc < j.due ∧ j.ev = .atomicResultReturn x.core x.cmd))))

namespace Sys2Proof.Rules

/-- 08 R201: no acquire, no marker and, for a release, no earlier access of the sequencer is in the way. -/
def MayAccess (t : State) (rel : Bool) : Prop := AccessFree t ∧ (rel = true → t.cur.allPerformed t.turn.q = true)

/-- Register d of the sequencer takes value v after a latency that the manual leaves open, at least one cycle (log 4). -/
def Returns (s u : State) (d : RegF) (v : Word) : Prop := ∃ n, 1 ≤ n ∧ u.regAt s.turn.core s.turn.q d.toNat (s.stc + n) = v

/-- 08 R223: the legal operands of rwopen: elements, TYPE, tasks. -/
def windowOf (b c : Word) : Option (Nat × Nat × Nat) :=
  let n := b.toNat % 2 ^ 32
  let ty := b.toNat / 2 ^ 32
  if 1 ≤ n ∧ n ≤ 2 ^ 31 ∧ ty < 4 ∧ 1 ≤ c.toNat ∧ c.toNat < 2 ^ 24 then some (n, ty, c.toNat) else none

end Sys2Proof.Rules

/-- 08 R222 to R224: rwopen of a legal, aligned and mapped window, with fewer than 64 of the context open on the die, opens it and returns its
handle; illegal operands trap with ILLOP, a misaligned base with ADDR. rwadd sends its value as a contribution, rwadd.blk asks the bank
for the first unit of its block in the next cycle; cle counts either until it has arrived. -/
def Obligations.WindowsOpen : Prop :=
  (∀ (s t : State) (d a b c : RegF) (mirror : BitVec 1) (scope : BitVec 3), s.turn.q ≠ .x → s.Begins {} t →
    t.RegsFree [d, a, b, c] → Rules.AccessFree t →
    let va := (t.rd a).toNat
    let ctx := t.cur.sys.ctx.toNat
    (∀ n ty k ps, Rules.windowOf (t.rd b) (t.rd c) = some (n, ty, k) → va % 64 = 0 →
      let len := n * (if ty % 2 = 0 then 4 else 8)
      (mirror = 1#1 → ∃ x md, t.ctx? ctx = some x ∧ x.mirror = some md ∧ md.srcbase ≤ va ∧ va + len ≤ md.srcbase + md.mlen) →
      Rules.Maps t true [(va, len)] ps → (t.rwins.filter fun w => w.ctx = ctx && w.die = dieOf s.turn.core).length < 64 →
      ∃ u w m, exec (.rwopen d a b c mirror scope) s = .next u ∧ s.Issued u ∧ u.rwins = t.rwins ++ [w] ∧ w.ctx = ctx ∧ w.va = va ∧
        w.n = n ∧ w.type_ = ty ∧ w.tasks = k ∧ w.pages = ps ∧ w.lasts = 0 ∧ w.errors = 0 ∧ m ∈ u.cur.cmds ∧ m.dst = d.toNat ∧
        m.value = BitVec.ofNat 64 w.handle ∧ (∃ j ∈ u.agenda, s.stc < j.due ∧ j.ev = .atomicResultReturn s.turn.core m.id) ∧ u.dram = s.dram) ∧
    (Rules.windowOf (t.rd b) (t.rd c) = none → exec (.rwopen d a b c mirror scope) s = .next (s.settled.wordTrap .illop 0)) ∧
    (Rules.windowOf (t.rd b) (t.rd c) ≠ none → mirror = 0#1 → va % 64 ≠ 0 →
      exec (.rwopen d a b c mirror scope) s = .next (s.settled.wordTrap .addr 0))) ∧
  (∀ (s t : State) (a b c : RegF) (last : BitVec 1) (o : BitVec 2), s.turn.q ≠ .x → s.Begins {} t → t.RegsFree [a, b, c] →
    Rules.MayAccess t (ordRel o) → t.cur.tsk.run = 0 →
    (∃ u k, exec (.rwadd a b c last o) s = .next u ∧ s.Issued u ∧ k ∈ u.contribs ∧ k.handle = (t.rd a).toNat ∧
      k.elem = (t.rd b).toNat ∧ k.values = [t.rd c] ∧ k.last = (last = 1#1) ∧ k.stamp.stc = s.stc ∧
      (u.cur.engine engCle).out = (t.cur.engine engCle).out + 1 ∧ (∃ j ∈ u.agenda, s.stc < j.due ∧ j.ev = .rwContribution k.id) ∧
      u.dram = s.dram) ∧
    (∀ w, t.rwin? t.cur.sys.ctx.toNat (t.rd a).toNat = some w →
      let n := (t.rd c).toNat % 2 ^ 13
      let sz := if w.type_ % 2 = 0 then 4 else 8
      let at_ := (t.rd b).toNat % 2 ^ 23
      1 ≤ n → n ≤ 4096 → (t.rd b).toNat / 2 ^ 23 % 2 ^ 9 = 0 → at_ % 64 = 0 → at_ + n * sz ≤ 2 ^ 23 →
      ∃ u k, exec (.rwaddBlk a b c last o) s = .next u ∧ s.Issued u ∧ k ∈ u.contribs ∧ k.handle = (t.rd a).toNat ∧
        k.elem = (t.rd b).toNat / 2 ^ 32 ∧ k.values = [] ∧ k.last = (last = 1#1) ∧
        (∃ r ∈ u.cur.reqs, r.due = s.stc + 1 ∧ r.cmd = k.cmd ∧ r.row = 0 ∧ r.addr = at_ ∧ r.len = 64) ∧
        (u.cur.engine engCle).out = (t.cur.engine engCle).out + 1 ∧ u.dram = s.dram))

/-- 08 R224, R225, 09 R256: a contribution takes a slot of cle (a command of cle from its issue on is the model's choice, log 94), joins its open window and counts its LAST; with the last LAST the delivery falls
due, which adds the sum of the contributions to the element in memory, once. In a scoreboard region rwclose of a delivered window removes it and
becomes the command that returns its error count; before the delivery it waits; of a handle that names no window it traps with ILLOP. -/
def Obligations.WindowsDeliver : Prop :=
  ((∀ (s : State) (k : Contrib) (m : Cmd) (b : Bool), s.contribs.find? (fun x => x.id = k.id) = some k →
    (s.core k.core).cmd? k.cmd = some m → m.slot = none → s.grabSlot k.core engCle = some b →
    ∃ u, exec (.rwContribution k.id) s = .next u ∧ (u.core k.core).cmd? k.cmd = some { m with slot := some b } ∧
      (∃ j ∈ u.agenda, s.stc < j.due ∧ j.ev = .rwContribution k.id) ∧ u.contribs = s.contribs ∧ u.dram = s.dram) ∧
  (∀ (s : State) (k : Contrib) (w : RWin), s.contribs.find? (fun x => x.id = k.id) = some k →
    (∀ m, (s.core k.core).cmd? k.cmd = some m → m.slot ≠ none) → s.rwin? k.ctx k.handle = some w → w.lasts < w.tasks → (∀ x ∈ s.rwins, x.id = w.id → x = w) →
    ∃ u w', exec (.rwContribution k.id) s = .next u ∧ u.rwin? k.ctx k.handle = some w' ∧ w'.parts = w.parts ++ [k] ∧
      w'.lasts = w.lasts + k.last.toNat ∧ (∀ x ∈ u.contribs, x.id ≠ k.id) ∧
      (w.lasts + k.last.toNat = w.tasks → ∃ j ∈ u.agenda, s.stc < j.due ∧ j.ev = .rwDelivery w.id) ∧ u.dram = s.dram) ∧
  (∀ (s : State) (w : RWin) (e v : Nat) (p : PageTr), s.rwins.find? (fun x => x.id = w.id) = some w → w.sums = [(e, v)] → w.done = 0 →
    w.mirror = false → Rules.PlainDram s →
    let sz := if w.type_ % 2 = 0 then 4 else 8
    pageOf w.pages (w.va + e * sz) = some p → realPa p.pa = true →
    let pa := p.pa + (w.va + e * sz - p.va)
    ∃ u, exec (.rwDelivery w.id) s = .next u ∧ (∃ x ∈ u.rwins, x.id = w.id ∧ x.delivered = true ∧ x.parts = []) ∧
      Rules.Stored s u pa (leBytes sz (rwAdd w.type_ (leVal (s.dramBytes pa sz)) v)))) ∧
  (∀ (s t : State) (d a : RegF) (o : BitVec 2), s.turn.q ≠ .x → s.cur.sys.region = true → s.Begins {} t → t.RegsFree [d, a] → Rules.AccessFree t →
    (∀ w, t.rwin? t.cur.sys.ctx.toNat (t.rd a).toNat = some w → w.delivered = true →
      ∃ u m, exec (.rwclose d a o) s = .next u ∧ s.Issued u ∧ (∀ x ∈ u.rwins, x.id ≠ w.id) ∧ m ∈ u.cur.cmds ∧ m.op = .rwclose d a o ∧
        m.dst = d.toNat ∧ m.value = BitVec.ofNat 64 w.errors ∧ (u.cur.engine engCle).out = (t.cur.engine engCle).out + 1 ∧
        (∃ j ∈ u.agenda, s.stc < j.due ∧ j.ev = .atomicResultReturn s.turn.core m.id) ∧ u.dram = s.dram) ∧
    (∀ w, t.rwin? t.cur.sys.ctx.toNat (t.rd a).toNat = some w → w.delivered = false → (∀ x ∈ s.ctxs, x.2.spilled = []) →
      ∃ u, exec (.rwclose d a o) s = .next u ∧ u.curSeq.retry = s.stc + 1 ∧ u.curSeq.pc = s.curSeq.pc ∧ u.rwins = s.rwins) ∧
    (t.rwin? t.cur.sys.ctx.toNat (t.rd a).toNat = none → exec (.rwclose d a o) s = .next (s.settled.wordTrap .illop 0)))

/-- 08 R226, R227, 13 R338: pinit of a legal header, its address aligned and mapped, becomes a command that writes the 64 bytes of an empty object in the next cycle; illegal values trap with ILLOP,
a misaligned address with ADDR. ppush and ppop on a mapped object leave for it as one operation, which carries its item and
visits the stations on its way, and the bytes it may touch are those that the header gives the object when it issues (log 119); in a
calendar region they trap with ILLOP, in a recovery or redundant run they end the task at once. -/
def Obligations.PairingWords : Prop :=
  (∀ (s t : State) (a b : RegF), s.turn.q = .c → s.Begins {} t → t.RegsFree [a, b] → Rules.MayAccess t true →
    let va := (t.rd a).toNat
    let kind := (t.rd b).toNat % 4
    let cap := (t.rd b).toNat / 2 ^ 16
    let legal := kind ≠ 3 ∧ 1 ≤ cap ∧ cap < 65536 ∧ (t.rd b).toNat / 4 % 2 ^ 14 = 0
    (∀ p, legal → va % 64 = 0 → Rules.Maps t true [(va, 64)] [p] →
      ∃ u m, exec (.pinit a b) s = .next u ∧ s.Issued u ∧ m ∈ u.cur.cmds ∧ m.op = .pinit a b ∧ m.addr = va ∧ m.pages = [p] ∧ m.rows = 0 ∧
        m.value = BitVec.ofNat 64 (2 ^ 16 * cap + 2 ^ 32 * kind) ∧
        (∃ j ∈ u.agenda, j.due = s.stc + 1 ∧ j.ev = .storePerformed s.turn.core m.id) ∧ u.dram = s.dram) ∧
    (¬ legal → exec (.pinit a b) s = .next (s.settled.wordTrap .illop 0)) ∧
    (legal → va % 64 ≠ 0 → exec (.pinit a b) s = .next (s.settled.wordTrap .addr 0))) ∧
  (∀ (s : State) (n id : Nat) (m : Cmd) (a b : RegF) (p : PageTr), (s.core n).cmd? id = some m → m.op = .pinit a b → m.rows = 0 →
    m.pages = [p] → p.va ≤ m.addr → m.addr < p.va + p.size → Rules.PlainDram s → s.slotOf n m.addr = none → (s.core n).tsk.run = 0 →
    ∃ u, exec (.storePerformed n id) s = .next u ∧ Rules.Stored s u (p.pa + (m.addr - p.va)) (leBytes 64 m.value.toNat)) ∧
  (∀ (s t : State) (d a b : RegF) (que : BitVec 1) (o : Ordr) (p : PageTr),
    (s.cur.sys.region = false → s.Begins {} t → ∀ i, i = .ppush d a b que o ∨ i = .ppop d b a que o →
      (t.cur.tsk.run = 0 → exec i s = .next (s.settled.wordTrap .illop 0)) ∧ (t.cur.tsk.run ≠ 0 → exec i s = .next (t.runStop false))) ∧
    (s.Begins { audit := true } t → Rules.ActsOn s t [d, a, b] (t.rd a).toNat (t.objLen s.turn.core (t.rd a).toNat) true o p →
      ∃ u m x, exec (.ppush d a b que o) s = .next u ∧ s.Issued u ∧ m ∈ u.cur.cmds ∧ m.dst = d.toNat ∧ m.dst2 = 64 ∧ x ∈ u.pairs ∧
        x.cmd = m.id ∧ x.core = s.turn.core ∧ x.push = true ∧ x.item = t.rd b ∧ x.que = (que = 1#1) ∧
        x.obj = p.pa + ((t.rd a).toNat - p.va) ∧ x.stamp.stc = s.stc ∧
        (∃ j ∈ u.agenda, s.stc < j.due ∧ j.ev = .pairingArrival x.id) ∧ u.dram = s.dram) ∧
    (s.Begins { audit := true } t → Rules.ActsOn s t [d, a, b] (t.rd a).toNat (t.objLen s.turn.core (t.rd a).toNat) true o p →
      ∃ u m x, exec (.ppop d b a que o) s = .next u ∧ s.Issued u ∧ m ∈ u.cur.cmds ∧ m.dst = d.toNat ∧ m.dst2 = b.toNat ∧ x ∈ u.pairs ∧
        x.cmd = m.id ∧ x.push = false ∧ x.obj = p.pa + ((t.rd a).toNat - p.va) ∧
        (∃ j ∈ u.agenda, s.stc < j.due ∧ j.ev = .pairingArrival x.id) ∧ u.dram = s.dram))

/-- 08 R226, R228, 13 R338, R339, 14 R363: a station holds an operation that is not a QUEUE's for up to 64 c; a push and a pop that meet there
exchange the item with status 0. One that reaches a LIFO object (KIND other than
QUEUE; for 3 to 255 that is the model's reading, log 30) pushes its item and raises COUNT, or pops the newest and lowers it; a push on a
full object and a pop of an empty one have status 1 and change nothing. -/
def Obligations.PairingMeets : Prop :=
  ((∀ (s : State) (x : PairOp) (d : Nat) (l : List Nat), s.pair? x.id = some x → x.path = d :: l →
    (x.que = false → (s.pairBufAt d).length < 32 →
      ∃ u, exec (.pairingArrival x.id) s = .next u ∧ u.pairBufAt d = s.pairBufAt d ++ [x.id] ∧
        u.pair? x.id = some { x with held := some d, arrived := s.stc } ∧
        ⟨s.stc + 64, phTask, .pairingHoldExpiry x.id, {}, {}⟩ ∈ u.agenda ∧ u.hasJobInp .claspPairing { die := d } = true) ∧
    (x.que = true ∨ 32 ≤ (s.pairBufAt d).length → x.held = none →
      ∃ u, exec (.pairingArrival x.id) s = .next u ∧ u.pair? x.id = some { x with path := l } ∧ u.pairBufAt d = s.pairBufAt d ∧
        ∃ j ∈ u.agenda, s.stc < j.due ∧ j.ev = (if l = [] then .fallThroughApply x.id else .pairingArrival x.id)) ∧
    (x.held = some d → s.stc = x.arrived + 64 →
      ∃ u, exec (.pairingHoldExpiry x.id) s = .next u ∧ u.pair? x.id = some { x with held := none, path := l } ∧
        x.id ∉ u.pairBufAt d)) ∧
  (∀ (s : State) (d : Nat) (a b : PairOp) (ma mb : Cmd), s.inp.die = d → s.pairBufAt d = [a.id, b.id] → a.id ≠ b.id →
    s.pair? a.id = some a → s.pair? b.id = some b → a.push = true → b.push = false → a.obj = b.obj → a.held = some d → b.held = some d →
    a.far = false → b.far = false →
    (s.core a.core).cmd? a.cmd = some ma → (s.core b.core).cmd? b.cmd = some mb → (a.core = b.core → a.cmd ≠ b.cmd) →
    ∃ u, exec .claspPairing s = .next u ∧ (u.core b.core).cmd? b.cmd = some { mb with arrived := true, value := a.item, value2 := 0 } ∧
      (u.core a.core).cmd? a.cmd = some { ma with arrived := true, value := 0 } ∧ u.pairBufAt d = [] ∧
      (∀ x ∈ u.pairs, x.id ≠ a.id ∧ x.id ≠ b.id) ∧ u.dram = s.dram)) ∧
  (∀ (s : State) (x : PairOp) (m : Cmd) (p : PageTr), s.pair? x.id = some x → x.held = none → x.far = false → (s.core x.core).cmd? x.cmd = some m →
    m.pages = [p] → p.va ≤ m.addr → Rules.PlainDram s → (∀ k, s.slotOf x.core (m.addr + k) = none) → (∀ d, (s.die d).poison = []) →
    let pa := p.pa + (m.addr - p.va)
    let h := leVal (s.dramBytes pa 16)
    let count := h % 65536
    let cap := h / 2 ^ 16 % 65536
    m.addr + 64 + 8 * count + 8 ≤ p.va + p.size → h / 2 ^ 32 % 256 ≠ 2 →
    (x.push = true → count < cap →
      ∃ u, exec (.fallThroughApply x.id) s = .next u ∧ u.dramBytes (pa + 64 + 8 * count) 8 = leBytes 8 x.item.toNat ∧
        u.dramBytes pa 2 = leBytes 2 (count + 1) ∧
        (∀ a, (a < pa ∨ pa + 2 ≤ a) → (a < pa + 64 + 8 * count ∨ pa + 64 + 8 * count + 8 ≤ a) → u.dramByte a = s.dramByte a) ∧
        (u.core x.core).cmd? x.cmd = some { m with arrived := true, value := 0 }) ∧
    (x.push = false → 0 < count →
      ∃ u, exec (.fallThroughApply x.id) s = .next u ∧ u.dramBytes pa 2 = leBytes 2 (count - 1) ∧
        (∀ a, (a < pa ∨ pa + 2 ≤ a) → u.dramByte a = s.dramByte a) ∧
        ∃ v, (u.core x.core).cmd? x.cmd = some { m with arrived := true, value := v, value2 := 0 } ∧
          v = BitVec.ofNat 64 (leVal (s.dramBytes (pa + 64 + 8 * (count - 1)) 8))) ∧
    (x.push = true → cap ≤ count →
      ∃ u, exec (.fallThroughApply x.id) s = .next u ∧ u.dram = s.dram ∧ (u.core x.core).cmd? x.cmd = some { m with arrived := true, value := 1 }) ∧
    (x.push = false → count = 0 →
      ∃ u, exec (.fallThroughApply x.id) s = .next u ∧ u.dram = s.dram ∧
        (u.core x.core).cmd? x.cmd = some { m with arrived := true, value := 0, value2 := 1 }))

/-! ### Regions, bookings, tasks and barriers -/

/-- 05 R128, R129, R133, 08 R234, 09 R262, R263: halt and tend stop their sequencer, and the last tend ends the task; a mode word waits
at the meeting, which the fourth closes; the drain then resumes the streams in a scoreboard region, or holds them until the armed
T0, at which they start in a calendar region. Mode words of a calendar region that have not issued together take SCHEDMISS at the end of
that cycle. -/
def Obligations.StreamsStopAndMeet : Prop :=
  (∀ s t : State, s.Begins {} t → (∀ r, r ≠ s.turn.q → (t.cur.seq r).mode.waits = false) →
    ((∃ r, r ≠ s.turn.q ∧ (t.cur.seq r).mode = .run) →
      (∃ u, exec .halt s = .next u ∧ s.Issued u ∧ u.curSeq.mode = .halted ∧ u.agenda = s.agenda ∧ u.dram = s.dram) ∧
      (∃ u, exec .tend s = .next u ∧ s.Issued u ∧ u.curSeq.mode = .ended ∧ u.agenda = s.agenda ∧ u.dram = s.dram)) ∧
    ((∀ r, r ≠ s.turn.q → (t.cur.seq r).mode.stopped = true) →
      ∃ u, exec .tend s = .next u ∧ s.Issued u ∧ u.curSeq.mode = .ended ∧ ⟨s.stc, phTask, .taskEnd s.turn.core, {}, {}⟩ ∈ u.agenda)) ∧
  (∀ (i : Instr) (sb : Bool) (s t : State), (i = .modeCal ∧ sb = false) ∨ (i = .modeSb ∧ sb = true) → s.Begins { branch := true } t →
    t.cur.sys.handler = none → t.curSeq.mode = .run → (∀ r, (t.cur.seq r).mode.stopped = false) →
    ((∃ r, r ≠ s.turn.q ∧ (t.cur.seq r).mode = .run) →
      ∃ u, exec i s = .next u ∧ s.Issued u ∧ u.curSeq.mode = .meeting sb ∧ u.cur.sys.region = t.cur.sys.region) ∧
    ((∀ r, r ≠ s.turn.q → (t.cur.seq r).mode = .meeting sb) → t.cur.tsk.meetAt = none → (sb = false → t.cur.tsk.armed ≠ none) →
      (t.cur.sys.region = false → ∀ r, r ≠ s.turn.q → (t.cur.seq r).last = s.stc) →
      ∃ u, exec i s = .next u ∧ s.Issued u ∧ u.curSeq.mode = .meeting sb ∧ u.cur.tsk.meetAt = some s.stc ∧
        ⟨s.stc, phTask, .modeDrainDone s.turn.core, {}, {}⟩ ∈ u.agenda)) ∧
  (∀ (s : State) (n a : Nat), (s.core n).tsk.meetAt = some a → (s.core n).tsk.drained = false →
    ((s.core n).drainedNow = false → exec (.modeDrainDone n) s = .next (s.sched (s.stc + 1) phTask (.modeDrainDone n))) ∧
    ((s.core n).drainedNow = true → (∀ q, ((s.core n).seq q).mode = .meeting true) →
      ∃ u, exec (.modeDrainDone n) s = .next u ∧ (u.core n).sys.region = true ∧ (u.core n).tsk.meetAt = none ∧
        ∀ q, ((u.core n).seq q).mode = .run ∧ ((u.core n).seq q).last = s.stc) ∧
    (∀ (b : Booking) (id : Nat) (w : Window), (s.core n).drainedNow = true → (∀ q, ((s.core n).seq q).mode = .meeting false) →
      (s.core n).tsk.armed = some b → (s.core n).tsk.task = some id → w ∈ s.windows → w.task = id → w.use = 1 → w.armed = true →
      s.stc < b.t0 →
      ∃ u, exec (.modeDrainDone n) s = .next u ∧ (u.core n).sys.hold = true ∧ ⟨b.t0, phTask, .calendarT0Resume n, {}, {}⟩ ∈ u.agenda)) ∧
  (∀ (s : State) (n : Nat) (q : Seq), (s.core n).tsk.meetAt = none → (s.core n).sys.region = false →
    allSeqs.find? (fun r => ((s.core n).seq r).mode.waits && decide (((s.core n).seq r).last = s.stc)) = some q →
    (s.core n).sys.valid = false → ((s.core n).seq q).tvec.getLsbD 14 = true →
    ∃ u, exec (.modeDrainDone n) s = .next u ∧ (u.core n).sys.cause.toNat % 1024 = 256 * seqNum q + causeCode .schedmiss ∧
      ((u.core n).seq q).epc = (((s.core n).seq q).lastPc).setWidth 64 ∧ (u.core n).sys.trapAt = s.stc ∧
      ∀ r, ((u.core n).seq r).mode.waits = false) ∧
  (∀ (s : State) (n : Nat),
    (∀ b, (s.core n).tsk.rebook = none → (s.core n).tsk.armed = some b →
      ∃ u, exec (.calendarT0Resume n) s = .next u ∧ (u.core n).sys.t0 = s.stc ∧ (u.core n).sys.region = false ∧ (u.core n).sys.hold = false ∧
        (u.core n).tsk.win = b.tmpl ∧ (u.core n).tsk.armed = none ∧
        ∀ q, ((u.core n).seq q).mode = .run ∧ ((u.core n).seq q).last = s.stc ∧ ((u.core n).seq q).first = true) ∧
    (∀ k, (s.core n).tsk.rebook = some k →
      ∃ u, exec (.calendarT0Resume n) s = .next u ∧ (u.core n).sys.t0 = s.stc - k ∧ (u.core n).sys.hold = false ∧
        (u.core n).sys.restarted = true ∧ (u.core n).tsk.rebook = none))

/-- 08 R231 to R233, 09 R251, 19 R432, R433: in a scoreboard region book of a valid template releases a booking not yet started, places a booking,
arms none and returns its count, or 0 where no T0 is found, or none may be booked for heat or PCAP (log 52); bookq returns the T0 that it would have, sets AUDIT and books nothing; start of the last booking arms it;
cut only issues, unless a stop is asked for and it is the fourth in its cycle. -/
def Obligations.BookingWords : Prop :=
  (∀ (s t : State) (d a : RegF) (m : Template) (id : Nat), s.turn.q ≠ .x → s.cur.sys.region = true → s.Begins { branch := true } t →
    t.RegsFree [d, a] → Rules.AccessFree t → t.cur.spmTemplate (t.rd a).toNat = .ok m → t.cur.tsk.task = some id →
    let kept := t.windows.filter fun w => !(w.task = id && w.use = 1)
    let placed := (t.dropWindows fun w => w.task = id && w.use = 1).placeNow s.turn.core 0 [] m fun w => w.task = id && w.use = 0
    let k := t.cur.tsk.bookCount + 1
    (∀ t0, placed = some t0 →
      ∃ u w, exec (.book d a) s = .next u ∧ s.Issued u ∧ u.windows = kept ++ [w] ∧ w.task = id ∧ w.core = s.turn.core ∧ w.t0 = t0 ∧
        w.tmpl = m ∧ w.use = 1 ∧ w.armed = false ∧ u.cur.tsk.pending = some ⟨k, t0, m⟩ ∧ u.cur.tsk.armed = none ∧
        Rules.Returns s u d (BitVec.ofNat 64 k)) ∧
    (placed = none →
      ∃ u, exec (.book d a) s = .next u ∧ s.Issued u ∧ u.windows = kept ∧ u.cur.tsk.pending = none ∧ Rules.Returns s u d 0)) ∧
  (∀ (s t : State) (d a : RegF) (m : Template) (id : Nat), s.turn.q ≠ .x → s.cur.sys.region = true → s.Begins { audit := true } t →
    t.RegsFree [d, a] → Rules.AccessFree t → t.cur.spmTemplate (t.rd a).toNat = .ok m → t.cur.tsk.task = some id →
    ∃ u, exec (.bookq d a) s = .next u ∧ s.Issued u ∧ u.windows = t.windows ∧ u.cur.sys.audit = true ∧
      Rules.Returns s u d (match t.placeNow s.turn.core 0 [] m fun w => w.task = id && (w.use = 0 || w.use = 1) with
        | some t0 => BitVec.ofNat 64 t0
        | none => BitVec.allOnes 64)) ∧
  (∀ (s t : State) (a : RegF), s.cur.sys.region = true → s.Begins {} t → t.RegsFree [a] → Rules.AccessFree t →
    (∀ b, t.cur.tsk.pending = some b → (t.rd a).toNat = b.count →
      ∃ u, exec (.start a) s = .next u ∧ s.Issued u ∧ u.cur.tsk.armed = some b ∧ u.cur.tsk.pending = none) ∧
    (t.cur.tsk.pending = none ∨ (∃ b, t.cur.tsk.pending = some b ∧ (t.rd a).toNat ≠ b.count) →
      exec (.start a) s = .next (s.settled.wordTrap .illop 0))) ∧
  (∀ s t : State, s.Begins {} t →
    (t.cur.tsk.preempt = none → ∃ u, exec .cut s = .next u ∧ s.Issued u ∧ u.cur.tsk = t.cur.tsk ∧ u.agenda = s.agenda ∧ u.dram = s.dram) ∧
    (t.cur.tsk.preempt ≠ none → t.cur.tsk.cutAt = s.stc → t.cur.tsk.cuts.length = 3 →
      ∃ u, exec .cut s = .next u ∧ s.Issued u ∧ ⟨s.stc, phTask, .preemptCutStop s.turn.core, {}, {}⟩ ∈ u.agenda))

namespace Sys2Proof.Rules

/-- Number of the next record that die d creates (12 R303). -/
def nextTask (s : State) (d : Nat) : Nat := 2 ^ 29 * d + (s.die d).serial % 2 ^ 29

/-- A record can enter the pool of die d, and its number is new. -/
def RoomFor (s : State) (d : Nat) : Prop := 256 < s.poolFree d ∧ ∀ x ∈ s.recs, x.id ≠ nextTask s d

/-- 12 R299, Table 12.6: the launch record at va of a live context passes every check: a launch l of one task and no tiles. -/
def Accepted (s : State) (ctx va : Nat) (x : Context) (l : Launch) : Prop :=
  x.ending = false ∧ x.quarantined = false ∧ x.mirror = none ∧ va % 64 = 0 ∧
  (∃ bs, s.vgetSound (s.ctxRoot ctx) (pieces 96) va 96 = some (.ok bs) ∧ l = readLaunch ctx x.lserial va (leVal bs) ∧ bitsN (leVal bs) 0 32 = launchMagic ∧
    bitsN (leVal bs) 32 3 = ctx ∧ s.launchBad x l (leVal bs) = none ∧ s.vbad (s.ctxRoot ctx) (pieces 64) l.image 64 = none) ∧
  l.count = 1 ∧ s.tileCount l (s.taskHdr l) = 0 ∧ RoomFor s (s.initialDie l 0)

/-- What acceptance leaves: the launch with its whole weight dealt to one READY record. -/
def LaunchStands (u : State) (ctx va : Nat) (x : Context) (l : Launch) : Prop :=
  (∃ m ∈ u.launches, m.ctx = ctx ∧ m.va = va ∧ m.lserial = x.lserial ∧ m.total = 2 ^ 63 ∧ m.held = 0 ∧ m.complete = false) ∧
  ∃ r ∈ u.recs, r.ctx = ctx ∧ r.lserial = x.lserial ∧ r.wid = l.initial 0 ∧ r.weight = 2 ^ 63 ∧ r.param = l.param ∧ r.st = .ready

/-- The context with its next launch serial (12 R299). -/
def serialTaken (s : State) (ctx n : Nat) : State := s.modCtx ctx fun x => { x with lserial := (n + 1) % 2 ^ 32 }

end Sys2Proof.Rules

/-- 08 R235, R236, 12 R298, R301 to R303, R308, R309: spawn by a task that may have the child halves its weight, creates the child's record with
the other half, READY when it names no version, and returns its number; wborrow returns the weight when it is 2^16 or more, and
else asks for a borrow, which adds 2^32 to the weight and to TOTAL; the weight of an ended record whose outputs are acknowledged
returns to HELD, with which what is left of its window is released, and with HELD = TOTAL the launch completes. -/
def Obligations.SpawnAndWeight : Prop :=
  (∀ (s t : State) (d a b : RegF) (prio : BitVec 3) (inherit : BitVec 1) (r : TaskRec) (l : Launch), s.turn.q ≠ .x → s.Begins {} t →
    t.RegsFree [d, a, b] → Rules.MayAccess t true → t.cur.tsk.run = 0 → t.recOf s.turn.core = some r → t.launchOf r = some l →
    t.spawnBad l (t.rd a) = false → l.spawnsEnded = false → 1 < r.weight → l.tiles = [] → Rules.RoomFor t r.die →
    let id := Rules.nextTask t r.die
    ∃ u x, exec (.spawn d a b prio inherit) s = .next u ∧ s.Issued u ∧
      u.regAt s.turn.core s.turn.q d.toNat (s.stc + 4) = BitVec.ofNat 64 id ∧
      u.rec? r.id = some { r with weight := r.weight - r.weight / 2 } ∧ u.rec? id = some x ∧ x.wid = t.rd a ∧ x.weight = r.weight / 2 ∧
      x.st = .ready ∧ x.parent = some r.id ∧ x.param = (if t.rd b = 0#64 then r.param else (t.rd b).toNat) ∧
      x.prio = (if inherit = 1#1 then r.prio else prio.toNat) ∧ u.dram = s.dram) ∧
  (∀ (s t : State) (d : RegF) (r : TaskRec), s.turn.q ≠ .x → s.cur.sys.region = true → s.Begins {} t → t.RegsFree [d] → Rules.AccessFree t →
    t.recOf s.turn.core = some r →
    (2 ^ 16 ≤ r.weight → ∃ u, exec (.wborrow d) s = .next u ∧ s.Issued u ∧ Rules.Returns s u d (BitVec.ofNat 64 r.weight) ∧ u.recs = s.recs) ∧
    (r.weight < 2 ^ 16 → (t.launchOf r).any Launch.overflowed = false → r.teamed = true →
      ∃ u, exec (.wborrow d) s = .next u ∧ u.curSeq.pc = s.curSeq.pc ∧ u.curSeq.retry = s.stc + 1 ∧
        ∃ j ∈ u.agenda, j.ev = .weightBorrowAck r.id)) ∧
  (∀ (s : State) (r : TaskRec) (l : Launch), s.rec? r.id = some r → s.launchOf r = some l →
    (l.total + 2 ^ 32 ≤ 2 ^ 95 →
      ∃ u, exec (.weightBorrowAck r.id) s = .next u ∧ u.rec? r.id = some { r with weight := r.weight + 2 ^ 32 } ∧
        u.launchOf r = some { l with total := l.total + 2 ^ 32 } ∧ u.dram = s.dram) ∧
    (r.st = .ended → r.weightBack = false → s.acked r = true → l.complete = false → (∀ x, s.ctx? r.ctx = some x → x.ending = false) →
      (l.held + r.weight ≠ l.total →
        ∃ u, exec (.weightReturn r.id) s = .next u ∧ u.rec? r.id = some { r with weightBack := true } ∧
          u.launchOf r = some { l with held := l.held + r.weight } ∧ (∀ w ∈ u.windows, w.task ≠ r.id) ∧ u.dram = s.dram) ∧
      (l.held + r.weight = l.total → (∀ x ∈ s.recs, x.kind ≠ .recovery) →
        ∃ u, exec (.weightReturn r.id) s = .next u ∧ u.launchOf r = some { l with held := l.total, complete := true })))

/-- 08 R237, 12 R299 to R303, R308, 14 R366: launch of a task and LAUNCH of the host present the record at an address; one that passes every
check, here of one task and no tiles, becomes a launch whose weight of 2^63 its READY record holds; launch returns the task's
count of its launches. -/
def Obligations.LaunchesAreAccepted : Prop :=
  (∀ (s t : State) (d a : RegF) (x : Context) (l : Launch), s.turn.q ≠ .x → s.Begins {} t → t.RegsFree [d, a] → Rules.MayAccess t true →
    t.cur.tsk.run = 0 →
    let k := t.cur.tsk.launches + 1
    let ctx := t.cur.sys.ctx.toNat
    let va := (t.rd a).toNat
    let p := (t.modCur fun c => { c with tsk := { c.tsk with launches := k } }).wr 1 d (BitVec.ofNat 64 k)
    p.ctx? ctx = some x → Rules.Accepted (Rules.serialTaken p ctx x.lserial) ctx va x l →
    ∃ u, exec (.launch d a) s = .next u ∧ s.Issued u ∧ u.regAt s.turn.core s.turn.q d.toNat (s.stc + 1) = BitVec.ofNat 64 k ∧
      u.cur.tsk.launches = k ∧ Rules.LaunchStands u ctx va x l ∧ u.dram = s.dram) ∧
  (∀ (s : State) (x : Context) (l : Launch), s.mgmt.stage = 5 → 1 ≤ s.host.credit → s.host.credit ≤ 64 → s.inp.flag = false → s.hostWriting = false →
    let p : State := { s with host := { s.host with credit := s.host.credit - 1 } }
    let ctx := s.inp.ctx.toNat
    let va := s.inp.addr.toNat / 64 * 64
    p.ctx? ctx = some x → Rules.Accepted (Rules.serialTaken p ctx x.lserial) ctx va x l →
    ∃ u, exec .hcmdLaunch s = .next u ∧ Rules.LaunchStands u ctx va x l ∧ u.host.credit = s.host.credit ∧ u.dram = s.dram)

/-- 08 R230, R238, 12 R313, 16 R377 to R379: tlquery returns the state code of a version and sets AUDIT; tlwait waits while it is EMPTY or LOST;
tlfill places a copy of a FULL version on the issuing die in that step (the model's reading, log 44). bar of a task alone in its group departs at once; a member of a larger group
arrives and waits, which cle carries as a command from its issue on (the model's choice,
log 94), and once all have arrived the departure lets every one go on; below the team's level, or where another
sequencer waits at the level, it traps with ILLOP. -/
def Obligations.TilesAndBarriers : Prop :=
  ((∀ (s t : State) (d a : RegF), s.turn.q ≠ .x → s.cur.sys.region = true → s.Begins { audit := true } t → t.RegsFree [d, a] → Rules.AccessFree t →
    ∃ u, exec (.tlquery d a) s = .next u ∧ s.Issued u ∧ u.cur.sys.audit = true ∧
      Rules.Returns s u d (BitVec.ofNat 64 (t.tileCode (t.rd a).toNat)) ∧ u.dir = s.dir ∧ u.dram = s.dram) ∧
  (∀ (s t : State) (d a : RegF), s.turn.q ≠ .x → s.cur.sys.region = true → s.Begins {} t → t.RegsFree [d, a] → Rules.AccessFree t →
    let k := t.tileCode (t.rd a).toNat
    (k ≠ 0 → k ≠ 3 → ∃ u, exec (.tlwait d a) s = .next u ∧ s.Issued u ∧ Rules.Returns s u d (BitVec.ofNat 64 k) ∧ u.dir = s.dir ∧ u.dram = s.dram) ∧
    (k = 0 ∨ k = 3 → (∀ x ∈ s.ctxs, x.2.spilled = []) →
      ∃ u, exec (.tlwait d a) s = .next u ∧ u.curSeq.pc = s.curSeq.pc ∧ u.curSeq.retry = s.stc + 1 ∧
        u.cur.tsk.wait = some (s.turn.q, (t.rd a).toNat) ∧ u.dir = s.dir)) ∧
  (∀ (s t : State) (a : RegF), s.Begins {} t → t.RegsFree [a] → Rules.AccessFree t →
    let name := (t.rd a).toNat
    let d := dieOf s.turn.core
    (∀ e, t.dirEnt name = some e → e.st = .full → s.homeOf name ≠ d → (e.repl = true → e.rdie ≠ d) → (∀ c ∈ e.copies, c.1 ≠ d) →
      ∃ u e' fs, exec (.tlfill a) s = .next u ∧ s.Issued u ∧ u.dirEnt name = some e' ∧ e'.copies = e.copies ++ [(d, fs)] ∧
        e'.st = .full ∧ e'.frames = e.frames) ∧
    (t.tileCode name ≠ 1 → ∃ u, exec (.tlfill a) s = .next u ∧ s.Issued u ∧ u.dir = s.dir ∧ u.dram = s.dram))) ∧
  ((∀ (s t : State) (level : BitVec 3) (o : Ordr) (r : TaskRec) (l : Launch), s.cur.sys.region = true → s.Begins {} t → Rules.AccessFree t →
    t.recOf s.turn.core = some r → t.launchOf r = some l →
    let lv := level.toNat
    let g := l.group lv r.wid
    let b := (t.barrier? l.order lv g).getD { launch := l.order, level := lv, group := g }
    let k := SMap.get 0 t.cur.tsk.barCount lv + 1
    (lv < l.teamlvl → exec (.bar level o) s = .next (s.settled.wordTrap .illop 0)) ∧
    (l.teamlvl ≤ lv → r.teamed = false → (o.ord = 3#2 → t.cur.allPerformed s.turn.q = true) → ∃ u, exec (.bar level o) s = .next u ∧ s.Issued u ∧ u.barriers = s.barriers ∧ u.cur.tsk = t.cur.tsk) ∧
    (l.teamlvl ≤ lv → r.teamed = true → (o.ord = 3#2 → t.cur.allPerformed s.turn.q = true) →
      (∀ x ∈ t.cur.tsk.barWait, ¬ (x.1 = s.turn.q ∧ x.2.1 = lv)) → (∃ x ∈ t.cur.tsk.barWait, x.2.1 = lv ∧ b.departed < x.2.2) →
      exec (.bar level o) s = .next (s.settled.wordTrap .illop 0)) ∧
    (l.teamlvl ≤ lv → r.teamed = true → (o.ord = 3#2 → t.cur.allPerformed s.turn.q = true) →
      (∀ x ∈ t.cur.tsk.barWait, x.2.1 = lv → x.1 ≠ s.turn.q ∧ x.2.2 ≤ b.departed) →
      t.counterFree (dieOf s.turn.core) b = true → t.grabSlot s.turn.core engCle ≠ none →
      ((t.members b).length ≤ 1 →
        ∃ u, exec (.bar level o) s = .next u ∧ s.Issued u ∧ SMap.get 0 u.cur.tsk.barCount lv = k ∧ u.cur.tsk.barWait = t.cur.tsk.barWait ∧
          (u.cur.engine engCle).out = (t.cur.engine engCle).out + 1) ∧
      (2 ≤ (t.members b).length → (∀ x ∈ s.ctxs, x.2.spilled = []) →
        ∃ u, exec (.bar level o) s = .next u ∧ u.curSeq.pc = s.curSeq.pc ∧ u.curSeq.retry = s.stc + 1 ∧
          (s.turn.q, lv, k) ∈ u.cur.tsk.barWait ∧ SMap.get 0 u.cur.tsk.barCount lv = k ∧
          (u.cur.engine engCle).out = (t.cur.engine engCle).out + 1)) ∧
    (∀ k', l.teamlvl ≤ lv → r.teamed = true → (t.cur.tsk.barWait.find? fun w => w.1 = s.turn.q && w.2.1 = lv) = some (s.turn.q, lv, k') →
      k' ≤ b.departed →
      ∃ u, exec (.bar level o) s = .next u ∧ s.Issued u ∧ u.barriers = s.barriers ∧ ∀ w ∈ u.cur.tsk.barWait, ¬ (w.1 = s.turn.q ∧ w.2.1 = lv))) ∧
  (∀ (s : State) (launch level group : Nat) (b : Barrier), s.barrier? launch level group = some b → s.members b ≠ [] →
    (s.barrierFull b = true →
      ∃ u, exec (.barrierDeparture launch level group) s = .next u ∧
        u.barrier? launch level group = some { b with departed := b.departed + 1 } ∧ u.cores = s.cores) ∧
    (s.barrierFull b = false → exec (.barrierDeparture launch level group) s = .next s)))

/-! ### The life of a task and the dispatchers -/

namespace Sys2Proof.Rules

/-- The loader has begun nothing on core n for a record other than the one that holds it. -/
def NothingBegun (s : State) (n : Nat) : Prop :=
  ∀ x ∈ s.recs, x.core = n → s.heldOver x = true → x.st ≠ .loading ∧ (x.residue = none ∨ ∀ q ∈ (s.core n).reqs, ¬ (q.rank = 6 ∧ q.cmd = x.id))

end Sys2Proof.Rules

/-- 02 R60, 04 R100, 08 R234, 09 R242 to R246, R258, 12 R315: the prologue marks the quads that it writes and begins to load the image; at the core
span the core takes its reset values, WID and PARAM in C's registers 0 and 1, each stream at its ENTRY; at T0 the four streams
run; a window that ends before its task stops a task of a scoreboard region that can be saved and faults another with OVR; the end
step of a task whose work has retired ends its record, frees the core and sets the return of its weight. -/
def Obligations.TasksStartAndEnd : Prop :=
  (∀ (s : State) (r : TaskRec) (l : Launch), s.rec? r.id = some r → s.launchOf r = some l →
    let h := s.taskHdr l
    (r.st = .booked → r.residue = none → s.heldOver r = false ∨ (s.core r.core).tsk.stopAt = none →
      ∃ u, exec (.prologueStart r.id) s = .next u ∧ u.rec? r.id = some { r with st := .loading } ∧
        (∀ q ∈ l.pquads, ∀ k, k < 2 ^ 19 → (u.core r.core).spm.byte (2 ^ 19 * q + k) = 0) ∧
        (0 < h.imageLen → (⟨s.stc, 6, r.id, 0, h.spmaddr, Nat.min 256 h.imageLen⟩ : SpmReq) ∈ (u.core r.core).reqs) ∧ u.dram = s.dram) ∧
    (∀ x, r.st = .loading → s.ctx? r.ctx = some x → s.heldOver r = false → s.loaderBad l r = none →
      ∃ u, exec (.coreSpanStart r.id) s = .next u ∧
        (∀ q k, ((u.core r.core).seq q).reg k =
          (if q = .c ∧ k = 0 then r.wid else if q = .c ∧ k = 1 then BitVec.ofNat 64 r.param else 0)) ∧
        (∀ q, ((u.core r.core).seq q).pc = BitVec.ofNat 14 (h.entry.getD (seqNum q) 0) ∧ ((u.core r.core).seq q).tvec = 0 ∧
          ((u.core r.core).seq q).ras = [] ∧ ((u.core r.core).seq q).mode = .halted ∧
          (u.core r.core).code.mem q = s.loadCode l h (seqNum q)) ∧
        (u.core r.core).sys = { ctx := BitVec.ofNat 3 r.ctx, immsel := x.immsel, dtgen := x.dtgen, taskid := BitVec.ofNat 32 r.id, t0 := r.t0 } ∧
        (u.core r.core).vec.vrf = [] ∧ (u.core r.core).vec.masks = [] ∧ (u.core r.core).vec.flags = {} ∧ (u.core r.core).mx.acc = [] ∧
        (u.core r.core).q = {} ∧ (u.core r.core).tsk.task = some r.id ∧ (∀ m, m ≠ r.core → u.core m = s.core m) ∧ u.dram = s.dram) ∧
    (r.st = .loading →
      ∃ u, exec (.taskRunStart r.id) s = .next u ∧ u.rec? r.id = some { r with st := .run } ∧
        (∀ q, ((u.core r.core).seq q).mode = .run ∧ ((u.core r.core).seq q).last = s.stc ∧ ((u.core r.core).seq q).first = true ∧
          ((u.core r.core).seq q).pc = ((s.core r.core).seq q).pc) ∧
        (u.core r.core).sys.t0 = s.stc ∧ (u.core r.core).sys.audit = (r.ins.any fun v => (s.dirEnt v).any (·.audit)) ∧
        (∀ w, s.windowOf r.core = some w → ⟨w.t0 + w.tmpl.len, phTask, .windowEnd r.core, {}, {}⟩ ∈ u.agenda) ∧ u.dram = s.dram)) ∧
  (∀ (s : State) (n : Nat) (r : TaskRec), s.recOf n = some r → (s.core n).tsk.stopAt = none → (s.core n).tsk.ending = none →
    (s.core n).allStopped = false →
    (∀ t k, (s.core n).sys.region = true → s.slotsFree r.ctx = true → Rules.NothingBegun s n → s.residueOf n s.stc = some (t, k) → residueTooLong t = false →
      ∃ u, exec (.windowEnd n) s = .next u ∧ (u.core n).tsk.stopAt = some s.stc ∧ (u.core n).sys.hold = true ∧
        ⟨s.stc, phTask, .preemptTimeoutStop n, {}, {}⟩ ∈ u.agenda ∧ u.recs = s.recs ∧ u.dram = s.dram) ∧
    ((s.core n).sys.region = false →
      ∃ u, exec (.windowEnd n) s = .next u ∧ (u.core n).tsk.ending = some (0x20, faultDetail 10 0 0 0 (s.core n).c.lastPc.toNat 0 0 1) ∧
        (∀ q, ((u.core n).seq q).mode = .ended) ∧ ⟨s.stc, phTask, .taskEnd n, {}, {}⟩ ∈ u.agenda ∧ u.dram = s.dram)) ∧
  (∀ (s : State) (n : Nat) (r : TaskRec), s.recOf n = some r → s.rec? r.id = some r → s.coreOfTask r.id = some n → r.st = .run → r.kind = .ordinary →
    r.outs = [] → (s.core n).pend = [] → (s.core n).tsk.ending = none → (s.core n).allStopped = true → (s.core n).faultDue = false →
    (∃ q, ((s.core n).seq q).mode = .ended) → (∀ x ∈ s.ctxs, x.2.spilled = [] ∧ x.2.ending = false) →
    ((s.core n).retired = true →
      ∃ u x, exec (.taskEnd n) s = .next u ∧ (u.core n).tsk.task = none ∧ u.rec? r.id = some x ∧ x.st = .ended ∧ x.weight = r.weight ∧
        (r.weightBack = false → u.hasJob (.weightReturn r.id) = true)) ∧
    ((s.core n).cmds = [] → (s.core n).retired = false →
      ∃ u, exec (.taskEnd n) s = .next u ∧ ⟨s.stc + 1, phTask, .taskEnd n, {}, {}⟩ ∈ u.agenda ∧ u.recs = s.recs))

/-- 08 R233, R239, 09 R246, R264, 12 R314 to R317: a request asks the victim of a READY record to stop and bounds the stop by 1050 c; the
common cut or the bound stops it, after a mode meeting that has a sequencer waiting; once everything that it had issued is done its state is
saved in 15298 c; it leaves its core with a residue, its whole core and a free slot, which the saver has written, and of its windows only an
armed booking stays (log 88); the loader begins a restore with the first 256 bytes of each of four quads (log 120), and the restore prologue
gives the state back, with T0 = Rz - u and restarted set. -/
def Obligations.TasksArePreempted : Prop :=
  (∀ (s : State) (r : TaskRec) (v : Nat), s.rec? r.id = some r → r.st = .ready → s.victim r = some v →
    (∀ x t, s.recOf v = some x → x.teamed = true → s.teamOf x = some t → s.teamCores t = [v]) →
    ∃ u, exec (.preemptRequest r.id) s = .next u ∧ (u.core v).tsk.preempt = some r.id ∧ (u.core v).tsk.cuts = [] ∧
      ⟨s.stc + 1050, phTask, .preemptTimeoutStop v, {}, {}⟩ ∈ u.agenda ∧ u.recs = s.recs ∧ ∀ n, n ≠ v → u.core n = s.core n) ∧
  (∀ (s : State) (n : Nat), (s.core n).tsk.task ≠ none → (s.core n).tsk.preempt ≠ none → (s.core n).tsk.ending = none →
    (s.core n).tsk.stopAt = none → ∀ i, i = .preemptCutStop n ∨ i = .preemptTimeoutStop n →
    ((s.core n).tsk.meetAt = none → (s.core n).sels = [] → Rules.NothingBegun s n →
      ∃ u, exec i s = .next u ∧ (u.core n).tsk.stopAt = some s.stc ∧ (u.core n).tsk.preempt = none ∧ (u.core n).sys.hold = true ∧
        (∀ q, (u.core n).seq q = (s.core n).seq q) ∧ ⟨s.stc, phTask, .preemptTimeoutStop n, {}, {}⟩ ∈ u.agenda ∧ u.dram = s.dram) ∧
    ((s.core n).tsk.meetAt ≠ none ∨ (s.core n).sels ≠ [] →
      ∃ u, exec i s = .next u ∧ u.cores = s.cores ∧ ⟨s.stc + 1, phTask, .preemptTimeoutStop n, {}, {}⟩ ∈ u.agenda ∧ u.dram = s.dram)) ∧
  (∀ (s : State) (n id : Nat), (s.core n).tsk.task = some id → (s.core n).tsk.stopAt ≠ none → (s.core n).tsk.ending = none →
    (s.core n).pend = [] → (s.core n).cmds = [] →
    ((s.core n).retired = true → (s.core n).vec.lateTrap = none → (∀ x ∈ (s.core n).reqs, x.rank ≠ 1) →
      ∃ u, exec (.preemptTimeoutStop n) s = .next u ∧ ⟨s.stc + 15298, phTask, .stateSaveDone id, {}, {}⟩ ∈ u.agenda ∧ u.recs = s.recs) ∧
    ((s.core n).tsk.copies ≠ [] ∨ s.mxStuck n = false → ∃ u, exec (.preemptTimeoutStop n) s = .next u ∧
      ⟨s.stc + 1, phTask, .preemptTimeoutStop n, {}, {}⟩ ∈ u.agenda ∧ u.recs = s.recs)) ∧
  (∀ (s : State) (r : TaskRec) (n a k : Nat) (x : Context) (t : Template), s.rec? r.id = some r → s.coreOfTask r.id = some n →
    (s.core n).tsk.stopAt = some a → s.ctx? r.ctx = some x → s.residueOf n a = some (t, k) →
    ∃ u z, exec (.stateSaveDone r.id) s = .next u ∧ u.rec? r.id = some { r with st := .stopped, residue := some z } ∧ z.tmpl = t ∧ z.stop = k ∧
      z.core = { s.core n with tsk := { (s.core n).tsk with stopAt := none, pending := none } } ∧
      (∃ y ∈ u.saveAreas, y.base = x.savebase + 2 ^ 24 * z.slot ∧ y.spoilt = []) ∧
      ((∃ m, m < x.saveslots ∧ m ∉ x.slotsUsed) → z.slot < x.saveslots ∧ z.slot ∉ x.slotsUsed) ∧
      (u.core n).tsk.task = none ∧ (∀ w ∈ u.windows, w.task = r.id → w.use = 1 ∧ w.armed = true) ∧
      ∀ w ∈ s.windows, w.use = 1 → w.armed = true → w ∈ u.windows) ∧
  (∀ (s : State) (r : TaskRec) (z : Residue), s.rec? r.id = some r → r.residue = some z → s.heldOver r = false ∨ (s.core r.core).tsk.stopAt = none →
    ∃ u, exec (.prologueStart r.id) s = .next u ∧ u.recs = s.recs ∧ u.dram = s.dram ∧
      ∀ i, i < 4 → (⟨s.stc + 1, 6, r.id, i, 2 ^ 19 * i, 256⟩ : SpmReq) ∈ (u.core r.core).reqs) ∧
  (∀ (s : State) (r : TaskRec) (z : Residue), s.rec? r.id = some r → r.residue = some z → s.slotBad r.ctx z.slot = false → s.heldOver r = false →
    z.core.tsk.drained = false → z.core.tsk.rebook = none →
    ∃ u, exec (.restorePrologue r.id) s = .next u ∧ u.rec? r.id = some { r with st := .run, residue := none } ∧
      (∀ q, ((u.core r.core).seq q).regs = (z.core.seq q).regs ∧ ((u.core r.core).seq q).pc = (z.core.seq q).pc ∧
        ((u.core r.core).seq q).mode = (z.core.seq q).mode) ∧
      (u.core r.core).vec.vrf = z.core.vec.vrf ∧ (u.core r.core).vec.preds = z.core.vec.preds ∧ (u.core r.core).mx.acc = z.core.mx.acc ∧
      (u.core r.core).spm = z.core.spm ∧ (u.core r.core).q = z.core.q ∧ (u.core r.core).sys.t0 = s.stc - z.stop ∧
      (u.core r.core).sys.restarted = true ∧ (u.core r.core).sys.hold = false ∧ u.dram = s.dram)

namespace Sys2Proof.Rules

/-- The amount of u's resource that some uses hold in a cycle. -/
def inUse (us : List Use) (u : Use) (c : Int) : Nat :=
  ((us.filter fun v => v.kind = u.kind && v.res = u.res && decide (v.lo ≤ c) && decide (c < v.hi)).map (·.amt)).sum

/-- 09 R251: in every cycle in which the demand holds a resource, its holders together stay within the capacity. -/
def FreeFor (others mine : List Use) : Prop :=
  ∀ u ∈ mine, ∀ c : Int, u.lo ≤ c → c < u.hi → inUse (others ++ mine) u c ≤ useCap u.kind

end Sys2Proof.Rules

/-- 09 R251, R252, R257, 19 R432, R433: the T0 of a booking lies 64 c and its PRE after the request, its window ends within the calendars' reach,
everything that it holds is free, and no earlier cycle would do; where no T0 is found there is none. A booking asked for now is placed as if
asked for later by the exit latency of the deepest state on its path, and not at all above PCAP or on a die that is too hot (log 52). -/
def Obligations.PlacementIsTheEarliest : Prop :=
  (∀ (s : State) (n pre : Nat) (pq : List Nat) (t : Template) (req : Nat) (skip : Window → Bool),
    1 ≤ t.len → (∀ e ∈ t.entries, 1 ≤ e.dur) →
    let others := (s.windows.filter fun w => !skip w).flatMap s.windowUses
    let good (t0 : Nat) : Prop := req + 64 + pre ≤ t0 ∧ t0 + t.len ≤ s.stc + 4194304 ∧
      Rules.FreeFor others ((s.usesOf n pre pq t).map fun u => u.shift t0)
    match s.place n pre pq t req skip with
    | some t0 => good t0 ∧ ∀ t1, t1 < t0 → ¬ good t1
    | none => ∀ t1, ¬ good t1) ∧
  (∀ (s : State) (n pre : Nat) (pq : List Nat) (t : Template) (skip : Window → Bool),
    let watts := (((s.windows.filter fun w => !skip w).map fun w => w.tmpl.watts).sum + t.watts)
    let deepest (p : Power) : Prop := ∃ d ∈ pathDies n t, (s.die d).power = p
    (watts ≤ s.mgmt.pcap → dieOf n ∉ s.mgmt.thermal → s.placeNow n pre pq t skip = s.place n pre pq t (s.stc + s.exitLatency n t) skip) ∧
    (s.mgmt.pcap < watts ∨ dieOf n ∈ s.mgmt.thermal → s.placeNow n pre pq t skip = none) ∧
    (s.mgmt.deep = true → s.exitLatency n t = 2100000) ∧
    (s.mgmt.deep = false → (deepest .p3 → s.exitLatency n t = 105000) ∧ (¬ deepest .p3 → deepest .p2 → s.exitLatency n t = 10500) ∧
      (¬ deepest .p3 → ¬ deepest .p2 → s.exitLatency n t = if s.corePower n = .p1 then 64 else 0)))

/-- 09 R254, 12 R305 to R309, R312, R314: the dispatcher books a record that may be booked at the best T0 of its cores and sets the events of its
start; a release moves bookings earlier and tries what waits; aging raises a READY record's priority; a die without READY records for 16384 c takes a READY
record of a die that has more than free cores, when its own pool has an entry for it; a waiting team takes cores that no team holds, or
stops, at the first end of a slice, the one resident longest of those whose slice is over. -/
def Obligations.Dispatchers : Prop :=
  (∀ (s : State) (r : TaskRec) (l : Launch) (t0 n : Nat), s.rec? r.id = some r → s.bookable r = true → r.residue = none → s.launchOf r = some l →
    s.bestFor r l.pre l.pquads l.tmpl = some (t0, n) → t0 ≤ s.stc + s.pbound r.ctx + l.pre →
    ∃ u w, exec (.bookingPlacement r.id) s = .next u ∧ u.windows = s.windows ++ [w] ∧ w.task = r.id ∧ w.core = n ∧ w.t0 = t0 ∧ w.pre = l.pre ∧
      w.tmpl = l.tmpl ∧ w.use = 0 ∧ u.rec? r.id = some { r with st := .booked, core := n, t0 := t0, pre := l.pre } ∧
      ⟨t0 - l.pre, phTask, .prologueStart r.id, {}, {}⟩ ∈ u.agenda ∧ ⟨t0 - 256, phTask, .coreSpanStart r.id, {}, {}⟩ ∈ u.agenda ∧
      ⟨t0, phTask, .taskRunStart r.id, {}, {}⟩ ∈ u.agenda ∧ u.dram = s.dram) ∧
  (∀ s : State, (∀ c ∈ s.cores, c.2.tsk.drained = false ∧ c.2.tsk.rebook = none) →
    ((∀ w ∈ s.windows, w.armed = true ∨ w.t0 - w.pre ≤ s.stc + 64) →
      ∃ u, exec .bookingRelease s = .next u ∧ u.windows = s.windows ∧
        ∀ r ∈ u.recs, u.bookable r = true → u.hasJob (.bookingPlacement r.id) = true) ∧
    (∀ w t0, s.windows = [w] → w.armed = false → w.use = 0 → w.task < 2 ^ 32 → s.stc + 64 + w.pre < w.t0 →
      s.placeNow w.core w.pre w.pquads w.tmpl (fun x => x.order = w.order) = some t0 → t0 < w.t0 →
      ∃ u, exec .bookingRelease s = .next u ∧ u.windows = [{ w with t0 := t0 }])) ∧
  (∀ (s : State) (r : TaskRec), s.rec? r.id = some r →
    (r.st = .ready → ∃ u, exec (.priorityAging r.id) s = .next u ∧ u.rec? r.id = some { r with aged := r.aged + 1 } ∧
      ⟨2 ^ 20 + s.stc, phTask, .priorityAging r.id, {}, {}⟩ ∈ u.agenda) ∧
    (r.st ≠ .ready → exec (.priorityAging r.id) s = .next s)) ∧
  (∀ s : State, ∃ u, exec .queueRotation s = .next u ∧ ⟨s.stc + 16384, phTask, .queueRotation, {}, {}⟩ ∈ u.agenda ∧ u.recs = s.recs ∧
    u.windows = s.windows ∧ u.cores = s.cores) ∧
  (∀ (s : State) (d : Nat), s.inp.die = d → d < 8 →
    (s.readyOn d ≠ [] → exec .dieWorkSteal s = .next s) ∧
    (s.readyOn d = [] → (s.die d).lost = false → s.stc < (s.die d).idleSince + 16384 → s.hasJobInp .dieWorkSteal { die := d } = false →
      exec .dieWorkSteal s = .next (s.schedInp ((s.die d).idleSince + 16384) phTask .dieWorkSteal { die := d })) ∧
    (∀ r l, s.rec? r.id = some r → (s.die d).lost = false → (s.die d).idleSince + 16384 ≤ s.stc → r.st = .ready → r.spilled = false →
      r.die ≠ d → s.launchOf r = some l → l.diemask.getLsbD d = true → l.diemask.getLsbD r.die = true →
      256 < s.poolFree d → s.freeCores r.die < (s.readyOn r.die).length → (∀ x ∈ s.recs, x.st = .ready → x.die = r.die ∧ (x ≠ r → r.readyAt < x.readyAt)) →
      (∀ x ∈ s.ctxs, x.2.spilled = []) → ∃ u, exec .dieWorkSteal s = .next u ∧ u.rec? r.id = some { r with die := d }) ∧
    (s.readyOn d = [] → (s.die d).lost = false → (s.die d).idleSince + 16384 ≤ s.stc → s.poolFree d ≤ 256 → exec .dieWorkSteal s = .next s)) ∧
  (∀ (s : State) (t : Team) (l : Launch), s.firstWaiting = some t → s.launches.find? (fun x => x.order = t.launch) = some l → s.teamShort = false →
    (l.teammax ≤ (s.unheld l).length →
      ∃ u x, exec .teamAdmission s = .next u ∧ x ∈ u.teams ∧ x.launch = t.launch ∧ x.index = t.index ∧ x.admitted = true ∧ x.since = s.stc ∧
        x.cores.length = l.teammax ∧ x.cores.Nodup ∧ ∀ n ∈ x.cores, n ∈ s.unheld l) ∧
    ((s.unheld l).length < l.teammax → (∀ y ∈ s.teams, y.swapping = false) →
      let yields (y : Team) : Prop := y ∈ s.teams ∧ y.admitted = true ∧ s.teamPrio y ≤ s.teamPrio t
      let ends (y : Team) : Nat := y.since + s.sliceOf y
      (∀ v i, yields v → s.stc < ends v → (∀ y, yields y → ends v ≤ ends y) → i = .teamAdmission ∨ i = .teamSwap →
        ∃ u, exec i s = .next u ∧ ⟨ends v, phTask, .teamSwap, {}, {}⟩ ∈ u.agenda ∧ u.teams = s.teams) ∧
      (∀ v x, yields v → ends v ≤ s.stc → (∀ y, yields y → ends y ≤ s.stc → y ≠ v → v.since < y.since) →
        let mine (r : TaskRec) : Prop := r.teamed = true ∧ ∃ y, s.teamOf r = some y ∧ y.launch = v.launch ∧ y.index = v.index
        x ∈ s.recs → mine x → x.st = .run → (∀ y ∈ s.recs, mine y → y = x) →
        ∃ u y, exec .teamSwap s = .next u ∧ y ∈ u.teams ∧ y.launch = v.launch ∧ y.index = v.index ∧ y.swapping = true)))

/-- 16 R379, R380, R382 to R389, 17 R400, R401: a replica is copied at 64 B a cycle once its home's cpe has a free slot (the slot is the model's
choice, log 100), and entered when the copy is done; a LOST version is FULL again from a copy that survives, or its lineage starts a recovery
record; a verification run's equal bits clear SUSPECT and different ones revoke the version, whose content, without its old replica and
copies, is the run's one switch later (the model's choice, log 57); the spare fill
copies the shards at 64 B a cycle and gives the stand-in those of the partner; a shard under pressure has a version replicated; a redundant pair that agrees is sealed
after its settle time, one that disagrees has a tie-break run. -/
def Obligations.DirectoryEvents : Prop :=
  (∀ (s : State) (name : Nat) (e : DirEnt), s.dirEnt name = some e → s.inp.mark = false → s.inp.flag = false →
    s.looseSlot (s.homeOf name) engCpe = true → exec (.replicaComplete name) s =
      .next (s.schedDarner (s.stc + 1024 * e.frames.length) (.replicaComplete name) name { s.inp with mark := true, die := s.homeOf name })) ∧
  (∀ (s : State) (name d : Nat) (e : DirEnt), s.inp.mark = true → s.dirEnt name = some e → s.replicaDie name = some d →
    e.st = .full ∨ e.st = .revoked → e.rpend = true → e.repl = false → s.named name = true →
    ∃ u x, exec (.replicaComplete name) s = .next u ∧ u.dirEnt name = some x ∧ x.repl = true ∧ x.rdie = d ∧ x.st = e.st ∧ x.frames = e.frames ∧
      x.rframes = (s.copyFrames d e.frames).1) ∧
  (∀ (s : State) (name : Nat) (e : DirEnt), s.dirEnt name = some e → e.st = .lost →
    (∀ fs, e.copy = some fs → ∃ u x, exec (.darnerWalk name) s = .next u ∧ u.dirEnt name = some x ∧ x.st = .full ∧
      x.frames = (s.copyFrames (s.homeOf name) fs).1) ∧
    (∀ x l, e.copy = none → s.lineage? name = some x →
      s.launch? x.ctx x.lserial = some l → (∀ r ∈ s.recs, r.kind ≠ .recovery) →
      (∀ y ∈ s.dir, y.st ≠ .poisoned) →
      let d := s.holdDie l (s.homeOf name)
      (∀ r ∈ s.recs, r.id ≠ Rules.nextTask s d) →
      ∃ u r, exec (.darnerWalk name) s = .next u ∧ u.rec? (Rules.nextTask s d) = some r ∧ r.kind = .recovery ∧ r.wid = x.wid ∧ r.param = x.param ∧
        r.weight = 0 ∧ r.avoid = [] ∧ (r.st = .ready ∨ r.st = .wait) ∧
        ∀ v ∈ x.opds, (∃ y, s.dirEnt v = some y ∧ y.st = .lost) → u.hasJob (.darnerWalk v) = true)) ∧
  (∀ (s : State) (name : Nat) (e : DirEnt) (h : HeldPub), s.inp.flag = false → s.dirEnt name = some e → e.st = .full → e.suspect = true →
    s.heldPubs.find? (fun x => x.name = name && x.kind = .verification) = some h →
    (s.sameAs e h = true → ∃ u, exec (.verificationCompare name) s = .next u ∧ u.dirEnt name = some { e with suspect := false } ∧ u.dram = s.dram) ∧
    (s.sameAs e h = false → ∃ u, exec (.verificationCompare name) s = .next u ∧ u.dirEnt name = some { e with st := .revoked } ∧
      ⟨s.stc + 512, phSwitch, .verificationCompare name, { flag := true }, { stc := s.stc, issuer := unitIssuer 11 2 (s.homeOf name) }⟩ ∈ u.agenda ∧
      u.dram = s.dram)) ∧
  (∀ (s : State) (e : DirEnt) (h : HeldPub), s.inp.flag = true → s.dir = [e] →
    s.heldPubs.find? (fun x => x.name = e.name && x.kind = .verification) = some h → (∀ r ∈ s.recs, r.st ≠ .run ∧ r.st ≠ .stopped) →
    ∃ u x, exec (.verificationCompare e.name) s = .next u ∧ u.dirEnt e.name = some x ∧ x.st = .full ∧ x.suspect = false ∧ x.repl = false ∧
      x.copies = [] ∧ (e.rpend = true → u.hasJob (.replicaComplete e.name) = true) ∧
      ∀ y ∈ u.heldPubs, ¬ (y.name = e.name ∧ y.kind = .verification)) ∧
  (∀ (s : State) (d m : Nat), s.standIn d = some m →
    ∃ u, exec (.spareFill d) s = .next u ∧ (u.die (partner d)).fill = some m ∧ ⟨s.stc, phTask, .spareFillComplete d, {}, {}⟩ ∈ u.agenda) ∧
  (∀ (s : State) (d : Nat), s.inp.flag = false → s.inp.mark = false → s.looseSlot (partner d) engCpe = true → exec (.spareFillComplete d) s =
    .next (s.schedInp (s.stc + Nat.max 1 (((s.die (partner d)).shard.bytes + 63) / 64)) phTask (.spareFillComplete d)
      { mark := true, die := partner d })) ∧
  (∀ (s : State) (d m : Nat), s.inp.flag = true → s.fillLeft (partner d) = false → (s.die (partner d)).fill = some m → (s.die m).lost = false → (s.die (partner d)).lost = false →
    ∃ u, exec (.spareFillComplete d) s = .next u ∧ (∀ c ∈ (s.die (partner d)).shard.consumers, c ∈ (u.die m).mirror.consumers) ∧
      (∀ l ∈ (s.die (partner d)).shard.lineage, ∃ x ∈ (u.die m).mirror.lineage, x.name = l.name) ∧ u.dram = s.dram) ∧
  (∀ (s : State) (d : Nat), s.inp.die = d → s.inp.flag = false →
    ((s.die d).shard.pressed = false → exec .shardPressureReplication s = .next s) ∧
    (∀ e l, (s.die d).shard.pressed = true → s.dir = [e] → e.st = .full → e.rpend = false → e.repl = false → e.dbound ≠ 0 →
      l ∈ (s.die d).shard.lineage → l.name = e.name →
      ∃ u x, exec .shardPressureReplication s = .next u ∧ u.dirEnt e.name = some x ∧ x.rpend = true ∧ u.hasJob (.replicaComplete e.name) = true)) ∧
  (∀ (s : State) (name : Nat) (e : DirEnt) (a b : TaskRec), s.inp.id = name → s.dirEnt name = some e → s.runOf name .redA = some a →
    s.runOf name .redB = some b →
    (∀ x y, s.inp.flag = false → e.st = .empty → s.hasJobInp .redundantRunCompare { id := name, flag := true } = false →
      s.heldPubs.find? (fun h => h.name = name && h.kind = .redA) = some x → s.heldPubs.find? (fun h => h.name = name && h.kind = .redB) = some y →
      (x.same y = true → s.shardRoom name a = true →
        ∃ u l, exec .redundantRunCompare s = .next u ∧ l ∈ u.sentLin ∧ l.name = name ∧ l.taskno = a.taskno ∧ l.opds = a.ins ∧
          l.stc = x.stamp.stc ∧ l.pcore = x.pcore ∧ l.die = x.die ∧
          ⟨s.stc + (if s.homeOf name = x.die then 256 else 512), phSwitch, .redundantRunCompare, { id := name, flag := true }, {}⟩ ∈ u.agenda) ∧
      (∀ l, x.same y = false → s.runOf name .redC = none → s.launchOf a = some l → (∀ y ∈ s.dir, y.st ≠ .poisoned) →
        (∀ r ∈ s.recs, r.id ≠ Rules.nextTask s a.die) →
        ∃ u r, exec .redundantRunCompare s = .next u ∧ r ∈ u.recs ∧ r.kind = .redC ∧ r.wid = a.wid ∧ r.weight = 0)) ∧
    (∀ h, s.inp.flag = true → e.st ≠ .poisoned → s.named name = true →
      s.heldPubs.find? (fun h => h.name = name && decide (h.kind ≠ .verification)) = some h →
      ∃ u x, exec .redundantRunCompare s = .next u ∧ u.dirEnt name = some x ∧ x.st = .full))

/-! ### The package ring and the rack -/

/-- 13 R337, 14 R349 to R351, R364, 16 R376, 17 R406, R407: a multicast write stores its bytes at its offset in every member, and where its group is gone in the root's frame (log 93); a packet of the ring has its effect once, however
often it arrives, and is acknowledged; an unacknowledged one goes again. A heartbeat holds off the cut of its boundary for 2048 c; a
cut that parts the dies stops the package; a die that reports a fatal fault is lost, its boundaries cut and its memory gone, its
partner the home of its names. -/
def Obligations.PackageRing : Prop :=
  (∀ (s : State) (ms : List Nat), SMap.get? s.groups s.inp.id = some ms → (∀ m ∈ ms, m % 65536 = 0) → s.migrations = [] → s.forwards = [] →
    (∀ d, (s.die d).remap = [] ∧ (s.die d).lost = false) → (∀ j ∈ s.agenda, j.ev = .multicastWrite → j.inp.mark = false) → Rules.NoHot s →
    let off := s.inp.addr.toNat % 65536
    let len := s.inp.bytes.length
    off + len ≤ 65536 →
    ∃ u, exec .multicastWrite s = .next u ∧ (∀ m ∈ ms, ∀ k, k < len → u.dramByte (m + off + k) = s.inp.bytes.getD k 0) ∧
      ∀ a, (∀ m ∈ ms, a < m + off ∨ m + off + len ≤ a) → u.dramByte a = s.dramByte a) ∧
  (∀ s : State, SMap.get? s.groups s.inp.id = none → s.migrations = [] → s.forwards = [] →
    (∀ d, (s.die d).remap = [] ∧ (s.die d).lost = false) →
    ∃ u, exec .multicastWrite s = .next u ∧ Rules.Stored s u s.inp.addr.toNat s.inp.bytes) ∧
  (∀ (s : State) (p : Packet), s.inp.id = p.id → s.packet? p.id = some p →
    let back := s.stc + 48 * s.hops p.src p.dst
    ((s.die p.dst).lost = false → p.stamp ∉ (s.die p.dst).received →
      ∃ u, exec .ringPacketArrival s = .next u ∧ p.stamp ∈ (u.die p.dst).received ∧ ⟨back, phTask, p.payload, p.inp, {}⟩ ∈ u.agenda ∧
        ⟨back, phTask, .ringPacketAck, { id := p.id }, {}⟩ ∈ u.agenda ∧ u.dram = s.dram) ∧
    ((s.die p.dst).lost = false → p.stamp ∈ (s.die p.dst).received →
      exec .ringPacketArrival s = .next (s.schedInp back phTask .ringPacketAck { id := p.id })) ∧
    (∃ u j, exec .ringPacketResend s = .next u ∧ u.packet? p.id = some { p with cw := s.dirCw p.src p.dst } ∧ j ∈ u.agenda ∧
      back < j.due ∧ j.ev = .ringPacketArrival ∧ j.inp = { id := p.id }) ∧
    (∃ u, exec .ringPacketAck s = .next u ∧ (∀ x ∈ u.packets, x.id ≠ p.id) ∧ u.agenda = s.agenda ∧ u.dram = s.dram)) ∧
  (∀ s : State,
    let d := s.inp.die
    let b := beatBoundary d s.inp.ccw
    let e := beatTarget d s.inp.ccw
    ((s.die d).lost = true → exec .heartbeat s = .next s) ∧
    ((s.die d).lost = false → (s.die e).lost = false → b ∉ s.cut → (s.die e).stcOff - 1 ≤ (s.die d).stcOff → (s.die d).stcOff ≤ (s.die e).stcOff + 1 →
      ∃ u, exec .heartbeat s = .next u ∧ ⟨s.stc + 256, phTask, .heartbeat, { die := d, ccw := s.inp.ccw }, {}⟩ ∈ u.agenda ∧
        ⟨s.stc + 2048, phTask, .boundaryCut, { id := b, ccw := s.inp.ccw }, {}⟩ ∈ u.agenda ∧
        ∀ j ∈ u.agenda, j.ev = .boundaryCut → j.inp = { id := b, ccw := s.inp.ccw } → j.due = s.stc + 2048)) ∧
  (∀ s : State,
    let b := s.inp.id % 8
    let t : State := { s with cut := s.cut ++ [b] }
    b ∉ s.cut → (∀ d, d < 8 → (s.die d).lost = true ∨ d ∉ t.cut ∨ (d + 7) % 8 ∉ t.cut) →
    (t.segments = 1 → ∃ u, exec .boundaryCut s = .next u ∧ u.cut = t.cut ∧ u.stopped = s.stopped ∧ u.dram = s.dram) ∧
    (t.segments ≠ 1 → ∃ u, exec .boundaryCut s = .next u ∧ u.stopped = true ∧ (∀ l ∈ u.launches, l.complete = true) ∧
      ∀ n, (u.core n).tsk.task = none)) ∧
  (∀ (s : State) (d : Nat), s.inp.die % 8 = d → (∀ x, (s.die x).lost = false) → s.cut = [] → s.dir = [] →
    ∃ u, exec .dcpFatalFault s = .next u ∧ (u.die d).lost = true ∧ u.cut = [d, (d + 7) % 8] ∧ u.stopped = s.stopped ∧
      (∀ name, u.homeOf name = if s.homeOf name = d then partner d else s.homeOf name) ∧ (∀ w ∈ u.windows, dieOf w.core ≠ d) ∧
      ∀ a, paDie a = d → paPkg a = s.pkg → realPa a = true → u.stackLost a = true)

/-- 14 R352, R355, R356, R359: a source opens its context with packet 0 and numbers each packet, whose flits take a CTR each; the target
answers an OPEN above its floor with a context that expects packet 1 and whose access is packet 0's, its own OPEN come again, told by its
send STC, with the acknowledgement alone (the model's choice, log 105), and a 257th with BUSY; a packet in sequence has its effect, here a
write or an atomic, if the export entry that it names lets it, one that is early is held, and one sent before the floor or before the live
context's OPEN does nothing; one for another package crosses the ring to the other bridge. Acknowledgement is cumulative, a refused access
ends its task by ADDR; a refusal is tried again after 256 c, silence after 1024 c, and a ninth silence fails the context and ends the task
of its packet by ADDR; a quiet context is torn down after 4096 c and its floor is set. -/
def Obligations.DeliveryContexts : Prop :=
  (∀ s : State,
    let i := s.inp
    let link := s.link i.bridge
    let targets := s.deliveries.filter fun y => y.target && y.bridge = i.bridge
    let flits := 1 + (i.size + 255) / 256
    let packet (n : BitVec 16) : SentPkt := { seqno := n, at_ := s.stc, task := i.core.bind fun n => (s.core n).tsk.task, flits := flits }
    (i.flag = false → s.delivery? i false = none → link.down = false → link.ctr + flits ≤ 0xFFFF0000 →
      ∃ u x, exec .deliveryContextOpen s = .next u ∧ x ∈ u.deliveries ∧ x.bridge = i.bridge ∧ x.peer = i.peer ∧ x.ccw = i.ccw ∧
        x.target = false ∧ x.next = 1 ∧ x.unacked = [packet 0] ∧
        (u.link i.bridge).ctr = link.ctr + flits ∧ u.hasJobInp .deliveryResendTimeout (i.route false) = true ∧
        ⟨s.stc + 4096, phTask, .deliveryTeardown, i.route false, {}⟩ ∈ u.agenda ∧ u.dram = s.dram) ∧
    (∀ x, i.flag = false → s.delivery? i false = some x → link.down = false → link.ctr + flits ≤ 0xFFFF0000 →
      ∃ u, exec .deliveryContextOpen s = .next u ∧ (u.link i.bridge).ctr = link.ctr + flits ∧ u.dram = s.dram ∧
        u.delivery? i false = some { x with next := x.next + 1, last := s.stc, unacked := x.unacked ++ [packet x.next] }) ∧
    (i.flag = true → (∀ x, s.delivery? i true = some x → x.opened ≠ i.sent) →
      (∃ f, SMap.get? s.floors (floorKey i) = some f ∧ i.sent ≤ f) ∨ (∃ x, s.delivery? i true = some x ∧ i.sent < x.opened) →
      exec .deliveryContextOpen s = .next s) ∧
    (i.flag = true → (∀ x, s.delivery? i true = some x → x.opened < i.sent) →
      (∀ f, SMap.get? s.floors (floorKey i) = some f → f < i.sent) → targets.length < 256 → link.ctr < 0xFFFF0000 →
      ∃ u x, exec .deliveryContextOpen s = .next u ∧ u.delivery? i true = some x ∧ x.next = 1 ∧ x.early = [] ∧ x.last = s.stc ∧
        x.opened = i.sent ∧ (∀ y ∈ u.deliveries, y.isFor i true = true → y = x) ∧ (s.exports = [] → u.dram = s.dram)) ∧
    (∀ x, i.flag = true → s.delivery? i true = some x → x.opened = i.sent → link.down = false → link.ctr < 0xFFFF0000 →
      ∃ u, exec .deliveryContextOpen s = .next u ∧ u.deliveries = s.deliveries ∧ (u.link i.bridge).ctr = link.ctr + 1 ∧ u.dram = s.dram) ∧
    (i.flag = true → s.delivery? i true = none → SMap.get? s.floors (floorKey i) = none → 256 ≤ targets.length → link.down = false →
      link.ctr < 0xFFFF0000 →
      ∃ u, exec .deliveryContextOpen s = .next u ∧ u.delivery? i true = none ∧ (u.link i.bridge).ctr = link.ctr + 1 ∧ u.dram = s.dram) ∧
    (i.mark = true → i.flag = false → exec .deliveryPacketArrival s =
      .next (s.schedInp (s.stc + 48 * s.hops i.bridge ((i.bridge + 4) % 8)) phTask .deliveryPacketArrival { i with flag := true }))) ∧
  (∀ s : State, s.inp.mark = false →
    (∃ f, SMap.get? s.floors (floorKey s.inp) = some f ∧ s.inp.sent ≤ f) ∨ (∃ x, s.delivery? s.inp true = some x ∧ s.inp.sent < x.opened) →
    exec .deliveryPacketArrival s = .next s) ∧
  (∀ (s : State) (x : Delivery), s.delivery? s.inp true = some x → x.opened ≤ s.inp.sent →
    (∀ f, SMap.get? s.floors (floorKey s.inp) = some f → f < s.inp.sent) → s.inp.mark = false → (s.link s.inp.bridge).ctr < 0xFFFF0000 →
    (∀ e n, x.early = [] → s.inp.seqno = x.next → e ∈ s.exports → e.pkg = s.inp.peer → e.ctx = s.inp.ctx.toNat → e.page = s.inp.page →
      e.write = true → s.badFrame e.frame e.bytes = false → e.frame ≤ s.inp.addr.toNat →
      s.inp.addr.toNat + n ≤ e.frame + (if e.large then 2 ^ 25 else 2 ^ 16) → Rules.PlainDram s →
      (s.inp.far = .plain → n = s.inp.bytes.length → s.inp.bytes ≠ [] →
        ∃ u, exec .deliveryPacketArrival s = .next u ∧ u.delivery? s.inp true = some { x with next := x.next + 1, last := s.stc } ∧
          Rules.Stored s u s.inp.addr.toNat s.inp.bytes) ∧
      (∀ k z, s.inp.far = .amo k z → n = (if z = 0 then 4 else 8) → k ≠ 0 → s.poisoned s.inp.addr.toNat n = false →
        ∃ u, exec .deliveryPacketArrival s = .next u ∧ u.delivery? s.inp true = some { x with next := x.next + 1, last := s.stc } ∧
          Rules.Stored s u s.inp.addr.toNat
            (leBytes n (atomicNew k (8 * n) (leVal (s.dramBytes s.inp.addr.toNat n)) s.inp.val.toNat s.inp.val2.toNat)))) ∧
    (x.early = [] → s.inp.seqno = x.next → s.exports = [] →
      ∃ u, exec .deliveryPacketArrival s = .next u ∧ u.delivery? s.inp true = some { x with next := x.next + 1, last := s.stc } ∧ u.dram = s.dram) ∧
    (0 < (s.inp.seqno - x.next).toNat → (s.inp.seqno - x.next).toNat < 32768 → x.early.length < 64 → (∀ e ∈ x.early, e.seqno ≠ s.inp.seqno) →
      ∃ u, exec .deliveryPacketArrival s = .next u ∧ u.dram = s.dram ∧
        u.delivery? s.inp true = some { x with last := s.stc, early := x.early ++ [s.inp] })) ∧
  (∀ (s : State) (x : Delivery), s.delivery? s.inp false = some x →
    (s.inp.mark = false → ∃ u y, exec .deliveryAck s = .next u ∧ u.delivery? s.inp false = some y ∧ y.next = x.next ∧ y.last = s.stc ∧
      u.dram = s.dram ∧ ∀ e, e ∈ y.unacked ↔ e ∈ x.unacked ∧ 0 < (e.seqno - s.inp.seqno).toNat ∧ (e.seqno - s.inp.seqno).toNat < 32768) ∧
    (∀ t n e, s.inp.mark = true → x.unacked = [e] → e.seqno = s.inp.seqno → e.task = some t → s.coreOfTask t = some n → (s.core n).cmds = [] →
      (s.core n).tsk.ending = none →
      ∃ u w, exec .deliveryAck s = .next u ∧ (u.core n).tsk.ending = some (errFault, w) ∧ w.toNat % 256 = causeCode .addr) ∧
    (x.busy = false → ∃ u, exec .deliveryBusyRetry s = .next u ∧ u.delivery? s.inp false = some { x with busy := true, last := s.stc } ∧
      ⟨s.stc + 256, phTask, .deliveryBusyRetry, s.inp.route false, {}⟩ ∈ u.agenda) ∧
    (x.unacked ≠ [] → (∀ e ∈ x.unacked, e.tries < 8 ∧ e.at_ + 1024 ≤ s.stc ∧ 1 ≤ e.flits) →
      (s.link s.inp.bridge).ctr + (x.unacked.map (·.flits)).sum ≤ 0xFFFF0000 →
      ∃ u, exec .deliveryResendTimeout s = .next u ∧
        u.delivery? s.inp false = some { x with last := s.stc, unacked := x.unacked.map fun e => { e with at_ := s.stc, tries := e.tries + 1 } } ∧
        ⟨s.stc + 1024, phTask, .deliveryResendTimeout, s.inp.route false, {}⟩ ∈ u.agenda ∧ u.dram = s.dram) ∧
    ((∃ e ∈ x.unacked, 8 ≤ e.tries ∧ e.at_ + 1024 ≤ s.stc) → ∃ u, exec .deliveryResendTimeout s = .next u ∧ u.delivery? s.inp false = none ∧
      u.host.icause.getLsbD causeLinkAlarm = true) ∧
    (∀ t n e, x.unacked = [e] → 8 ≤ e.tries → e.at_ + 1024 ≤ s.stc → e.task = some t → s.coreOfTask t = some n → (s.core n).cmds = [] →
      (s.core n).tsk.ending = none →
      ∃ u w, exec .deliveryResendTimeout s = .next u ∧ (u.core n).tsk.ending = some (errFault, w) ∧ w.toNat % 256 = causeCode .addr)) ∧
  (∀ (s : State) (x : Delivery), s.delivery? s.inp s.inp.flag = some x →
    (x.unacked = [] → x.last + 4096 ≤ s.stc →
      ∃ u, exec .deliveryTeardown s = .next u ∧ u.delivery? s.inp s.inp.flag = none ∧
        (s.inp.flag = true → SMap.get 0 u.floors (floorKey s.inp) = s.stc) ∧ u.dram = s.dram) ∧
    (x.unacked ≠ [] ∨ s.stc < x.last + 4096 → ∃ u j, exec .deliveryTeardown s = .next u ∧ u.deliveries = s.deliveries ∧ j ∈ u.agenda ∧
      s.stc < j.due ∧ j.ev = .deliveryTeardown ∧ j.inp = s.inp.route s.inp.flag))

/-- 14 R352, 17 R416 to R419: a receiver accepts the frame that it expects, a marker switches its slot and erases the key before it, a first
failure is answered by a NAK that names the expected CTR in the reverse direction (it takes no CTR of that direction, log 124), a second failure of the frame
takes the link down; a NAK has the frames from the failed one sent again; keys are established at both ends, take over at the sending end
after their marker with CTR 0, and are erased once nothing sent under them is left; a link that fails
stops in both directions, without keys, and its sources go by the other bridge; a boundary elsewhere in the rack is noted. -/
def Obligations.LinkSecurity : Prop :=
  ∀ s : State,
    let k := s.inp.link
    let x := s.link k
    let slot := decide (s.inp.slot = 1#1)
    (x.down = false →
      (s.inp.sent = x.expect → slot = x.recvSlot → s.inp.flag = true →
        ∃ u, exec .linkFrameReceive s = .next u ∧ u.dram = s.dram ∧ u.link k =
          if s.inp.mark then { x.setKey x.recvSlot false with expect := 0, recvSlot := !x.recvSlot, failures := 0, idleReady := false }
          else { x with expect := x.expect + 1, failures := 0 }) ∧
      (s.inp.sent ≠ x.expect ∨ slot ≠ x.recvSlot ∨ s.inp.flag = false → x.failures = 0 → 8 ≤ k →
        ∃ u, exec .linkFrameReceive s = .next u ∧ u.link k = { x with failures := 1 } ∧ u.dram = s.dram ∧
          ((s.link (k % 8)).down = false → (u.link (k % 8)).ctr = (s.link (k % 8)).ctr ∧
            (u.link (k % 8)).out = (s.link (k % 8)).out ++ [{ slot := (s.link (k % 8)).live, ctr := x.expect, kind := 2 }])) ∧
      (s.inp.sent = x.expect → slot = x.recvSlot → s.inp.flag = false → x.failures ≠ 0 →
        ∃ u, exec .linkFrameReceive s = .next u ∧ (u.link (k % 8)).down = true ∧ (u.link (k % 8 + 8)).down = true ∧
          u.host.icause.getLsbD causeLinkAlarm = true) ∧
      (∃ u, exec .linkNakReceive s = .next u ∧ u.dram = s.dram ∧ u.link k =
        { x with retries := Nat.min (2 ^ 32 - 1) (x.retries + (x.unacked.dropWhile fun f => f.ctr ≠ s.inp.sent).length),
                 out := x.out ++ x.unacked.dropWhile fun f => f.ctr ≠ s.inp.sent }) ∧
      (k < 8 → s.bx.erased = false → x.key x.live = false →
        ∃ u, exec .linkKeyExchange s = .next u ∧ u.link k = x.setKey x.live true ∧ u.agenda = s.agenda) ∧
      (k < 8 → s.bx.erased = false → x.key x.live = true → 2 ^ 31 ≤ x.ctr → x.idleReady = false →
        ∃ u j, exec .linkKeyExchange s = .next u ∧ u.link k = { x.setKey (!x.live) true with idleReady := true } ∧ j ∈ u.agenda ∧
          s.stc < j.due ∧ j.ev = .linkKeyMarker ∧ j.inp = { link := k }) ∧
      (8 ≤ k → s.bx.erased = false → x.key x.recvSlot = true → 2 ^ 31 ≤ x.expect → x.idleReady = false →
        ∃ u, exec .linkKeyExchange s = .next u ∧ u.link k = { x.setKey (!x.recvSlot) true with idleReady := true } ∧ u.agenda = s.agenda) ∧
      (x.idleReady = true → ∃ u, exec .linkKeyMarker s = .next u ∧ u.dram = s.dram ∧
        u.link k = { x with live := !x.live, idleReady := false, ctr := 0, unacked := x.unacked ++ [{ slot := x.live, ctr := x.ctr, kind := 1 }],
                            out := x.out ++ [{ slot := x.live, ctr := x.ctr, kind := 1 }] })) ∧
    (∃ u, exec .linkFrameAck s = .next u ∧ (∀ e, e ∈ (u.link k).unacked ↔ e ∈ x.unacked ∧ ¬ (e.slot = slot ∧ e.ctr ≤ s.inp.sent)) ∧
      (u.link k).ctr = x.ctr ∧ (x.idleReady = false → (∀ e ∈ (u.link k).unacked, e.slot = x.live) → (u.link k).key (!x.live) = false) ∧
      u.dram = s.dram) ∧
    (s.inp.mark = false → ∃ u, exec .rackLinkFailure s = .next u ∧ u.dram = s.dram ∧
      (∀ d, d = k % 8 ∨ d = k % 8 + 8 →
        (u.link d).down = true ∧ (u.link d).keyA = false ∧ (u.link d).keyB = false ∧ (u.link d).unacked = []) ∧
      (k % 8 = 0 ∨ k % 8 = 4 → s.rackCut = [] → s.bridgeUp ((k + 4) % 8) = true →
        (∀ y ∈ s.deliveries, y.target = false → y.bridge = if y.ccw then 4 else 0) →
        ∀ y ∈ u.deliveries, y.target = false → y.bridge ≠ k % 8)) ∧
    (s.inp.mark = true → ∃ u, exec .rackLinkFailure s = .next u ∧ s.inp.pkg ∈ u.rackCut ∧ u.links = s.links ∧ u.dram = s.dram)

/-- 09 R274, 14 R357, R358, Table 14.3, 17 R398, 19 R430: a request is noted by the entry that it fetches, unless that names a listed frame, and
answered, after both crossings, into the bridge's cache; an invalidated
entry leaves the cache once nothing pins its frame; an export entry goes once every package that fetched it has acknowledged, and its
command then completes; the fall of a page's last pin completes the INVAL that waits for it. -/
def Obligations.RemoteTranslation : Prop :=
  (∀ s : State,
    (s.inp.flag = false → ∃ u j, exec .remoteTranslationReq s = .next u ∧ j ∈ u.agenda ∧
      s.stc + 256 * s.rackHops s.inp.pkg (s.bridgeTo s.inp.pkg).2 < j.due ∧ j.ev = .remoteTranslationReply ∧
      j.inp.bridge = s.inp.bridge ∧ j.inp.pkg = s.inp.pkg ∧ j.inp.page = s.inp.page ∧ u.dram = s.dram) ∧
    (s.inp.flag = true → ∃ u, exec .remoteTranslationReq s = .next u ∧ u.exports.length = s.exports.length ∧ u.dram = s.dram ∧
      ∀ e ∈ u.exports, e.pkg = s.inp.peer → e.ctx = s.inp.ctx.toNat → e.page = s.inp.page → e.removing = none → s.badFrame e.frame e.bytes = false →
        s.inp.peer ∈ e.fetched) ∧
    (∃ u, exec .remoteTranslationReply s = .next u ∧ u.dram = s.dram ∧
      ({ bridge := s.inp.bridge, pkg := s.inp.pkg, page := s.inp.page, frame := s.inp.frame, write := s.inp.flag, at_ := s.stc } : RtcEnt) ∈ u.rtc) ∧
    (∃ u, exec .exportInvalidation s = .next u ∧ u.dram = s.dram ∧ ∀ e ∈ u.rtc, e.pkg = s.inp.pkg → e.page = s.inp.page →
      e.dropping = true ∧ s.pinned (2 ^ 39 * e.pkg + e.frame.getD 0 % 2 ^ 39) = true)) ∧
  (∀ (s : State) (e : ExportEnt) (a : Nat), s.exports = [e] → e.removing = some a → e.page = s.inp.page → e.fetched = [s.inp.pkg] → s.retries = [] →
    Rules.PlainDram s → (e.next = none → ∃ u, exec .exportInvalidationAck s = .next u ∧ u.exports = [] ∧ Rules.Stored s u a (leBytes 8 0) ∧
      u.host.icause.getLsbD causeCmdDone = true) ∧
    (∀ n, e.next = some n → ∃ u, exec .exportInvalidationAck s = .next u ∧ Rules.Stored s u a (leBytes 8 0) ∧ u.exports =
      [{ e with fetched := [], frame := n.1, large := n.2.1, write := n.2.2, removing := none, next := none }])) ∧
  (∀ s : State,
    (∀ n, s.inp.core = some n → ∃ u, exec .pinRelease s = .next u ∧
      SMap.get 0 (u.core n).tsk.pins s.inp.page = SMap.get 0 (s.core n).tsk.pins s.inp.page - 1 ∧ ∀ m, m ≠ n → u.core m = s.core m) ∧
    (∀ h, s.inp.core = none → s.pinned s.inp.page = false → s.invals = [h] → h.pages = [s.inp.page] → s.retries = [] → Rules.PlainDram s →
      ∃ u, exec .pinRelease s = .next u ∧ u.invals = [] ∧ Rules.Stored s u h.result (leBytes 8 0) ∧ u.host.icause.getLsbD causeCmdDone = true))

/-- 09 R256, 14 R360, R361, 17 R397: a migration's copy runs at 64 B a cycle once a slot of cpe is free (waiting for one is the model's
choice, log 100); done, its log is replayed at four entries a cycle; the log empty, the page switches 256 c later: the new frame
holds the old one's bytes; the old frame is free when nothing names it, and the command completes or the frame is listed; a write that a
full log refused is tried again, after 1024 c while the log is full or, of a unit of the device, while an earlier one of it waits. -/
def Obligations.PageMigration : Prop :=
  (∀ (s : State) (m : Migration), s.migration? s.inp.die = some m → m.copied = false → m.begun = false → s.looseSlot m.die engCpe = true →
    ∃ u, exec .migrationCopyDone s = .next u ∧ u.migration? s.inp.die = some { m with begun := true } ∧
      ⟨s.stc + m.size / 64, phTask, .migrationCopyDone, { die := m.die, mark := true }, {}⟩ ∈ u.agenda) ∧
  (∀ (s : State) (m : Migration), s.migration? s.inp.die = some m → m.copied = false → m.begun = true →
    ∃ u, exec .migrationCopyDone s = .next u ∧ u.migration? s.inp.die = some { m with copied := true, replayAt := s.stc } ∧
      ⟨s.stc + (m.log.length + 3) / 4, phTask, .migrationSwitch, { die := s.inp.die }, {}⟩ ∈ u.agenda ∧ u.dram = s.dram) ∧
  (∀ (s : State) (m : Migration), s.migration? s.inp.die = some m → m.copied = true → m.switched = false →
    (m.tsw = none → m.log = [] →
      ∃ u, exec .migrationSwitch s = .next u ∧ u.migration? s.inp.die = some { m with replayAt := s.stc, tsw := some (s.stc + 256) } ∧
        ⟨s.stc + 256, phTask, .migrationSwitch, { die := s.inp.die }, {}⟩ ∈ u.agenda ∧ u.dram = s.dram) ∧
    (∀ t, m.tsw = some t → t ≤ s.stc → m.retirement = none → Memory.wf s.dram = true → Rules.NoHot s →
      (∀ d, (s.die d).lost = false) → m.old + m.size ≤ m.new ∨ m.new + m.size ≤ m.old →
      ∃ u x, exec .migrationSwitch s = .next u ∧ u.migration? s.inp.die = some x ∧ x.switched = true ∧ x.log = [] ∧
        (∀ k, k < m.size → u.dramByte (m.new + k) = s.dramByte (m.old + k)) ∧
        ∀ a, a < m.new ∨ m.new + m.size ≤ a → u.dramByte a = s.dramByte a)) ∧
  (∀ (s : State) (m : Migration), s.migrations = [m] → m.die = s.inp.die → m.switched = true →
    (s.heldRange m.old m.size = true → exec .migrationFree s = .next s) ∧
    (∀ a, s.heldRange m.old m.size = false → m.retirement = none → m.result = some a → s.retries = [] →
      (∀ d, (s.die d).remap = [] ∧ (s.die d).lost = false) → (∀ f ∈ s.forwards, a + 8 ≤ f.1 ∨ f.1 + f.2.2 ≤ a) →
      ∃ u, exec .migrationFree s = .next u ∧ u.migrations = [] ∧ Rules.Stored s u a (leBytes 8 0) ∧ u.host.icause.getLsbD causeCmdDone = true) ∧
    (∀ b, s.heldRange m.old m.size = false → m.retirement = some b → m.result = none → s.bx.badFrames.length < 4096 →
      ∃ u, exec .migrationFree s = .next u ∧ u.migrations = [] ∧
        u.bx.badFrames = s.bx.badFrames ++ [(paFrame m.old, b, s.stc / 2 ^ 32)])) ∧
  (∀ (s : State) (r : RetryWrite), s.retries.find? (fun x => x.id = s.inp.id) = some r → r.bytes ≠ [] →
    let again : Job := { due := s.stc + 1024, phase := phMemory, ev := .migrationLogRetry, inp := { id := s.inp.id }, key := r.stamp }
    (s.logFull r.pa = true ∨ (r.owner = none ∧ ∃ y ∈ s.retries, y.owner = none ∧ y.stamp.issuer = r.stamp.issuer ∧ y.id < s.inp.id) →
      exec .migrationLogRetry s = .next { s with agenda := insJob again s.agenda }) ∧
    (Rules.PlainDram s → (∀ x ∈ s.retries, s.inp.id ≤ x.id) → ∃ u, exec .migrationLogRetry s = .next u ∧ Rules.Stored s u r.pa r.bytes ∧ ∀ x ∈ u.retries, x.id ≠ s.inp.id))

namespace Sys2Proof.Rules

/-- 14 R366: a command is accepted and performed at once: the package is READY, a credit is left, no host write is on its way. -/
def HostReady (s : State) : Prop :=
  s.mgmt.stage = 5 ∧ 1 ≤ s.host.credit ∧ s.host.credit ≤ 64 ∧ s.inp.flag = false ∧ s.hostWriting = false ∧ s.retries = [] ∧
  s.migrations = [] ∧ s.forwards = [] ∧ ∀ d, (s.die d).remap = [] ∧ (s.die d).lost = false

/-- The state while a command is performed: its credit is taken. -/
def taken (s : State) : State := { s with host := { s.host with credit := s.host.credit - 1 } }

/-- The command has completed with a code: RESULT is written, and nothing else in memory; CMDDONE is raised; its credit is back. -/
def Completed (s u : State) (code : Nat) : Prop :=
  Stored s u s.inp.block (leBytes 8 code) ∧ u.host.icause.getLsbD causeCmdDone = true ∧ u.host.credit = s.host.credit

end Sys2Proof.Rules

/-! ### The host -/

/-- 12 R289, R290, 14 R357, R360, R364, R366, Table 14.3: a command written before READY or without a credit is dropped; CTXNEW of a legal descriptor makes the
context, CTXEND of one with nothing left removes it, INVAL drops the range from the translation caches, EXPORT and UNEXPORT enter
and remove an entry, MIGRATE starts a copy, MCGROUP sets or clears a group; each writes its result and raises CMDDONE;
a bad field makes the result BADFIELD, and so do equal frames of MIGRATE (the model's choice, log 62). -/
def Obligations.HostCommands : Prop :=
  (∀ (s : State) (i : Instr), i ∈ ([.hcmdLaunch, .hcmdCtxnew, .hcmdCtxend, .hcmdInval, .hcmdExport, .hcmdUnexport, .hcmdMigrate, .hcmdMcgroup] : List Instr) →
    s.inp.flag = false → s.mgmt.stage < 5 ∨ s.host.credit = 0 →
    ∃ u, exec i s = .next u ∧ u.host.drop = true ∧ u.host.icause.getLsbD causeDrop = true ∧ u.host.credit = s.host.credit ∧ u.dram = s.dram ∧
      u.ctxs = s.ctxs ∧ u.launches = s.launches) ∧
  (∀ s : State, Rules.HostReady s →
    let p := Rules.taken s
    let ctx := s.inp.ctx.toNat
    let blk := s.inp.block
    let arg (k : Nat) : Nat := p.paVal (blk + 8 * k) 8
    (∀ x, p.readContext ctx (arg 1) = .ok x → ∃ u, exec .hcmdCtxnew s = .next u ∧ u.ctx? ctx = some x ∧ Rules.Completed s u 0) ∧
    (∀ c, p.readContext ctx (arg 1) = .error (c, none) → ∃ u, exec .hcmdCtxnew s = .next u ∧ u.ctxs = s.ctxs ∧ Rules.Completed s u c) ∧
    (∀ x, s.ctx? ctx = some x → x.ending = false → (∀ r ∈ s.recs, r.ctx = ctx → r.st = .ended ∧ r.weightBack = true) →
      (∀ l ∈ s.launches, l.ctx = ctx → l.complete = true) →
      ∃ u, exec .hcmdCtxend s = .next u ∧ u.ctx? ctx = none ∧ (∀ r ∈ u.recs, r.ctx ≠ ctx) ∧ Rules.Completed s u 0) ∧
    (s.ctx? ctx = none → ∃ u, exec .hcmdCtxend s = .next u ∧ u.ctxs = s.ctxs ∧ Rules.Completed s u errBadField) ∧
    (s.ctx? ctx ≠ none → arg 2 % 65536 = 0 → (∀ c ∈ s.cores, c.2.cmds = [] ∧ c.2.tsk.copies = []) → s.rwins = [] → s.invals = [] →
      ∃ u, exec .hcmdInval s = .next u ∧ u.invals = [] ∧ Rules.Completed s u 0 ∧
        ∀ c ∈ u.cores, c.2.sys.ctx.toNat = ctx → ∀ q ∈ c.2.tsk.tcache, q.meets (arg 1) (arg 2) = false) ∧
    (let large := decide (bitsN (arg 1) 8 1 = 1)
     arg 2 < 2 ^ 23 → arg 3 < 2 ^ 43 → paPkg (arg 3) = s.pkg → arg 3 % (if large then 2 ^ 25 else 2 ^ 16) = 0 → p.exportEnt blk = none →
      ∃ u, exec .hcmdExport s = .next u ∧ Rules.Completed s u 0 ∧ u.exports = s.exports ++ [{
        pkg := bitsN (arg 1) 0 4, ctx := bitsN (arg 1) 4 3, page := arg 2, frame := arg 3, large := large, write := decide (bitsN (arg 1) 7 1 = 1) }]) ∧
    (∀ e, s.exports = [e] → p.exportEnt blk = some e → e.removing = none → e.fetched = [] →
      ∃ u, exec .hcmdUnexport s = .next u ∧ u.exports = [] ∧ Rules.Completed s u 0) ∧
    (p.exportEnt blk = none → ∃ u, exec .hcmdUnexport s = .next u ∧ u.exports = s.exports ∧ Rules.Completed s u errBadField) ∧
    (let n := if arg 3 = 1 then 2 ^ 25 else 2 ^ 16
     (∀ a, a = arg 1 ∨ a = arg 2 → a < 2 ^ 43 ∧ paPkg a = s.pkg ∧ a % n = 0) → arg 1 ≠ arg 2 → arg 3 ≤ 1 →
      ∃ u, exec .hcmdMigrate s = .next u ∧ u.host.credit + 1 = s.host.credit ∧
        u.migrations = [{ die := paDie (arg 1), old := arg 1, new := arg 2, size := n, result := some blk }] ∧
        ⟨s.stc, phTask, .migrationCopyDone, { die := paDie (arg 1) }, {}⟩ ∈ u.agenda) ∧
    (arg 1 = arg 2 → ∃ u, exec .hcmdMigrate s = .next u ∧ u.migrations = [] ∧ Rules.Completed s u errBadField) ∧
    (let g := arg 1 % 256
     let k := bitsN (arg 1) 8 5
     (2 ≤ k → k ≤ 16 → (∀ j, j < k → arg (2 + j) < 2 ^ 43 ∧ arg (2 + j) % 65536 = 0) →
      ∃ u, exec .hcmdMcgroup s = .next u ∧ SMap.get? u.groups g = some ((List.range k).map fun j => arg (2 + j)) ∧ Rules.Completed s u 0) ∧
     (k = 0 → SMap.get? s.groups g ≠ none → ∃ u, exec .hcmdMcgroup s = .next u ∧ SMap.get? u.groups g = none ∧ Rules.Completed s u 0) ∧
     (k = 1 → ∃ u, exec .hcmdMcgroup s = .next u ∧ u.groups = s.groups ∧ Rules.Completed s u errBadField)))

/-- 00 R7, R8, 14 R365, R368, 17 R408 to R411, 19 R428, R433, R434: the host's accesses: ICAUSE clears, IMASK takes its value and tells what
is pending (the model's choice, log 65), PCAP at most
4800 W and some legal value for less than 1000 W (log 4), RETRIES of a link clears (log 102), BAR2/3 the package's memory; before READY
only the management window is served, and after a failed bring-up FWSTAGE alone; a read through BAR2/3 of a version's page sets its XOUT
(log 27); MID names the dies, and what only takes writes reads as 0; a signed object that verifies is staged or raises its minimum;
attestation, from stage 1 on and not after an erasure (the model's choice, log 72), writes a report of 5613 bytes with the nonce and STC. -/
def Obligations.HostRegistersAndManagement : Prop :=
  (∀ s : State,
    let v := s.inp.val
    let w := v.toNat % 65536
    let off := s.inp.addr.toNat % 65536
    (5 ≤ s.mgmt.stage →
      (∃ u, exec .icauseWrite s = .next u ∧ u.host.icause = s.host.icause &&& ~~~(v.setWidth 16) ∧ u.host.imask = s.host.imask ∧
        u.dram = s.dram) ∧
      (∃ u, exec .imaskWrite s = .next u ∧ u.host.imask = v.setWidth 16 ∧ u.host.icause = s.host.icause ∧ u.dram = s.dram ∧
        ∀ k, 1 ≤ k → k ≤ 7 → v.getLsbD k = true → s.host.icause.getLsbD k = true → u.host.told.getLsbD k = true) ∧
      (s.inp.mark = false → s.mgmt.fail = false → off = 0x10 → ∃ u, exec .registerWrite s = .next u ∧ u.host.drop = (s.host.drop && !v.getLsbD 0) ∧
        u.host.lrej = (s.host.lrej && !v.getLsbD 3) ∧ u.dram = s.dram) ∧
      (s.inp.mark = false → s.mgmt.fail = false → 0x1000 ≤ off → off < 0x1400 → s.inp.bytes.length = 8 →
        ∃ u, exec .registerWrite s = .next u ∧ SMap.get 0 u.host.msix ((off - 0x1000) / 8) = v ∧ u.dram = s.dram)) ∧
    (s.mgmt.stage < 5 → exec .icauseWrite s = .next s ∧ exec .imaskWrite s = .next s ∧
      (s.inp.mark = false → off < 0x8000 ∨ 0x9000 ≤ off → exec .registerWrite s = .next s)) ∧
    (s.inp.mark = false → off ≠ 0x10 → (off < 0x1000 ∨ 0x1400 ≤ off) → off ≠ 0x8080 → exec .registerWrite s = .next s) ∧
    (s.mgmt.fail = true → exec .registerWrite s = .next s ∧ exec .pcapWrite s = .next s) ∧
    (s.inp.mark = true → s.mgmt.fail = false → ∃ u, exec .registerWrite s = .next u ∧ u.dram = s.dram ∧
      u.link s.inp.link = { s.link s.inp.link with retries := (u.link s.inp.link).retries } ∧
      ∀ j, j < 32 → (u.link s.inp.link).retries.testBit j = ((s.link s.inp.link).retries.testBit j && !v.getLsbD (32 + j))) ∧
    ((s.die 0).lost = false → s.hostRead false 0x8000 4 = some (leBytes 4 (1 + 16 * (s.pkg % 16) + 256 * (255 - s.lostMask % 256) + 65536 * 0x0058)) ∧
      (5 ≤ s.mgmt.stage → ∀ o, o = 0x0000 ∨ o = 0x8010 ∨ o = 0x8800 ∨ o = 0x8808 → s.hostRead false o 8 = some (leBytes 8 0)) ∧
      (s.mgmt.stage < 5 → (∀ o, o < 0x8000 ∨ 0x9000 ≤ o → s.hostRead false o 8 = none) ∧ ∀ o n, s.hostMemoryRead o n = none)) ∧
    (1000 ≤ w → s.mgmt.fail = false → ∃ u, exec .pcapWrite s = .next u ∧ u.mgmt.pcap = Nat.min w 4800 ∧ u.dram = s.dram) ∧
    (w < 1000 → s.mgmt.fail = false → ∃ u, exec .pcapWrite s = .next u ∧ 1000 ≤ u.mgmt.pcap ∧ u.mgmt.pcap ≤ 4800 ∧ u.dram = s.dram) ∧
    (s.mgmt.stage < 5 → exec .hostMemoryWrite s = .next s) ∧
    (5 ≤ s.mgmt.stage → s.inp.mark = true → ∃ u, exec .hostMemoryWrite s = .next u ∧ u.dram = s.dram ∧
      ∀ e ∈ s.dir, s.inp.frame = some e.name → { e with xout := true } ∈ u.dir) ∧
    (5 ≤ s.mgmt.stage → s.inp.mark = false → Rules.PlainDram s → ∃ u, exec .hostMemoryWrite s = .next u ∧
      Rules.Stored s u (2 ^ 39 * s.pkg + s.inp.addr.toNat % 2 ^ 39) s.inp.bytes)) ∧
  ((∀ s : State,
    (∀ e, s.readObject (s.inp.addr.toNat % 2 ^ 43) = .error e → ∃ u, exec .fwstage s = .next u ∧ u.bx = s.bx ∧ u.mgmt = s.mgmt) ∧
    (∀ o, s.readObject (s.inp.addr.toNat % 2 ^ 43) = .ok o →
      (o.kind ≤ 1 → ∃ u, exec .fwstage s = .next u ∧ SMap.get? u.bx.staged o.kind = some (o.svn, Sha.digest o.signed) ∧ u.dram = s.dram) ∧
      (o.kind = 2 ∨ o.kind = 3 → ∃ u, exec .fwstage s = .next u ∧
        SMap.get 0 u.bx.minSvn o.kind = Nat.max o.svn (SMap.get 0 s.bx.minSvn o.kind) ∧ u.dram = s.dram))) ∧
  (∀ s : State,
    (s.mgmt.stage = 0 ∨ s.mgmt.fail = true ∨ s.bx.hold = true → exec .attreq s = .next s) ∧
    (s.mgmt.stage ≠ 0 → s.mgmt.fail = false → s.bx.hold = false → s.retries = [] → Rules.PlainDram s →
      let pa := s.inp.addr.toNat % 2 ^ 43
      ∃ u bs, exec .attreq s = .next u ∧ bs.length = 5613 ∧ bs.take 8 = leBytes 8 0x54414556 ∧ (bs.drop 8).take 32 = s.paBytes pa 32 ∧
        (bs.drop 40).take 8 = leBytes 8 s.stc ∧ Rules.Stored s u (pa + 64) bs)))

/-! ### Bring-up, power and reliability -/

/-- 01 R24, 17 R409, 19 R427 to R430: a cold reset, a PCIe reset and MRESET.GO keep the repair record, the bad-frame list, the minima, the last
passes and the installed firmware, and discard the rest: empty memory (log 3), idle cores (log 2), the clock at 0; each stage passes to the
next or stops with FAIL, the first two with the code of a firmware that is not accepted; stage 2 loads the maps, stage 3 starts every die's
clock at 0, READY gives 64 credits and starts the periodic work; package 0 sends the rack's exchange, and another package takes the clock
that it gives, with an error of at most 64 c, never going back, its pending events moving with it. Contents and clock after a reset and the
events that move are the model's choices (logs 2, 3, 73). -/
def Obligations.ResetsAndBringUp : Prop :=
  (∀ (s : State) (i : Instr), i = .coldReset ∨ i = .pcieReset ∨ (i = .mresetGo ∧ s.inp.val.getLsbD 0 = true) →
    ∃ u, exec i s = .next u ∧ u.stc = 0 ∧ u.mgmt.cold = decide (i = .coldReset) ∧ u.mgmt.stage = 0 ∧
      u.mgmt.fail = false ∧ u.cores = [] ∧ u.dram = [] ∧ u.ctxs = [] ∧ u.recs = [] ∧ u.windows = [] ∧ u.agenda = [] ∧ u.stopped = false ∧
      u.bx.maps = s.bx.maps ∧ u.bx.spares = s.bx.spares ∧ u.bx.badFrames = s.bx.badFrames ∧ u.bx.minSvn = s.bx.minSvn ∧ u.bx.lastPass = s.bx.lastPass ∧
      u.bx.staged = s.bx.staged ∧ u.bx.erased = false ∧
      u.bx.alarm3 = (s.bx.alarm3 && (decide (i ≠ .coldReset) || s.inp.mark))) ∧
  (∀ s : State, s.inp.val.getLsbD 0 = false → exec .mresetGo s = .next s) ∧
  (∀ s : State, s.mgmt.fail = false →
    (5 ≤ s.mgmt.stage → exec .bringupStage s = .next s) ∧
    (s.mgmt.stage < 5 → s.inp.flag = false → ∃ u, exec .bringupStage s = .next u ∧ u.mgmt.fail = true ∧ u.mgmt.stage = s.mgmt.stage ∧
      u.mgmt.code = 0) ∧
    (∀ e, s.mgmt.stage < 2 → s.inp.flag = true → s.firmware (1 - s.mgmt.stage) = .error e → ∃ u, exec .bringupStage s = .next u ∧
      u.mgmt.fail = true ∧ u.mgmt.stage = s.mgmt.stage ∧ u.mgmt.code = BitVec.ofNat 8 e) ∧
    (s.mgmt.stage < 5 → s.inp.flag = true → (s.mgmt.stage < 2 → ∃ m, s.firmware (1 - s.mgmt.stage) = .ok m) →
      ∃ u, exec .bringupStage s = .next u ∧ u.mgmt.stage = s.mgmt.stage + 1 ∧ u.mgmt.fail = false ∧
      (∀ m, s.mgmt.stage < 2 → s.firmware (1 - s.mgmt.stage) = .ok m → SMap.get? u.bx.meas (1 - s.mgmt.stage) = some m) ∧
      (s.mgmt.stage = 3 → ∀ d, d < 8 → (u.die d).stcOff = 0) ∧
      (s.mgmt.stage = 2 → ∀ d, d < 8 → (u.die d).lcmap = SMap.get (s.die d).lcmap s.bx.maps d ∧
        (u.die d).lcspare = SMap.get (s.die d).lcspare s.bx.spares d) ∧
      u.stc = (if s.mgmt.stage = 3 then 0 else s.stc) ∧
      (s.mgmt.stage = 4 → u.host.credit = 64 ∧ ⟨s.stc + 16384, phTask, .queueRotation, {}, {}⟩ ∈ u.agenda ∧
        ∀ d, d < 8 → ⟨s.stc + 256, phTask, .heartbeat, { die := d }, {}⟩ ∈ u.agenda ∧ ⟨s.stc + 256, phTask, .heartbeat, { die := d, ccw := true }, {}⟩ ∈ u.agenda)))
  ∧ (∀ (s : State) (kind : Nat) (m : Nat × List Byte), (SMap.get? s.bx.staged kind).or (SMap.get? s.bx.meas kind) = some m →
    (m.1 < SMap.get 0 s.bx.minSvn kind → ∃ e, s.firmware kind = .error e) ∧ (SMap.get 0 s.bx.minSvn kind ≤ m.1 → s.firmware kind = .ok m))
  ∧ (∀ s : State, (s.mgmt.stage < 5 ∨ s.ctxs ≠ [] → exec .rackStcSync s = .next s) ∧
    (5 ≤ s.mgmt.stage → s.ctxs = [] →
      (s.pkg = 0 → ∃ u, exec .rackStcSync s = .next u ∧ u.stc = s.stc ∧ ∀ k, 1 ≤ k → k < s.nPkg →
        ∃ j ∈ u.agenda, j.due = s.stc ∧ j.ev = .deliveryContextOpen ∧ j.inp.peer = k) ∧
      (s.pkg ≠ 0 → ∃ u, exec .rackStcSync s = .next u ∧ s.stc ≤ u.stc ∧
        (s.stc ≤ s.inp.sent → -64 ≤ s.inp.offset → s.inp.offset ≤ 64 → (s.stc : Int) ≤ s.inp.sent + s.inp.offset →
          (u.stc : Int) = s.inp.sent + s.inp.offset) ∧
        ∀ j ∈ s.agenda, { j with due := u.stc + (j.due - s.stc) } ∈ u.agenda)))

/-- 17 R412, 19 R431 to R433: a core with no window for 1024 c enters P1, a die with no window whose cores have all been there for 2^20 c P2
without its scratchpads and vector registers (that they then read 0 is the model's choice, log 74), a die with no memory access for 2^24 c
more and nothing of its stack booked P3, and a package all in P3, with nothing booked and its link in L1, deep idle, which ends when the
link leaves L1; a unit that a placement needs is awake again; a die above 110 °C takes no placement until it falls below 100 °C, and
one that rises above 105 °C raises its alarm. -/
def Obligations.PowerAndHeat : Prop :=
  (∀ (s : State) (n : Nat), s.inp.core = some n →
    ((∃ w ∈ s.windows, w.core = n) → exec .powerStateEntry s = .next s) ∧
    ((∀ w ∈ s.windows, w.core ≠ n) → s.lastWindow n + 1024 ≤ s.stc → ∃ u, exec .powerStateEntry s = .next u ∧ u.corePower n = .p1 ∧ u.dram = s.dram)) ∧
  (∀ (s : State) (d : Nat), s.inp.core = none → s.inp.die = d → (s.die d).lost = false →
    (s.inp.id = 2 → (s.die d).power = .p0 → (∀ w ∈ s.windows, dieOf w.core ≠ d) →
      (∀ k, k < 24 → s.corePower (24 * d + k) = .p1 ∧ s.lastWindow (24 * d + k) + 1024 + 2 ^ 20 ≤ s.stc ∧ (s.core (24 * d + k)).tsk.task = none) →
      ∃ u, exec .powerStateEntry s = .next u ∧ (u.die d).power = .p2 ∧ u.dram = s.dram ∧
        ∀ k, k < 24 → (u.core (24 * d + k)).spm = {} ∧ (u.core (24 * d + k)).vec.vrf = []) ∧
    (s.inp.id = 3 → (s.die d).power = .p2 →
      ((s.die d).lastDram + 2 ^ 24 ≤ s.stc → s.mgmt.l1 = true → s.windows = [] →
        (∀ x, x < 8 → x = d ∨ (s.die x).lost = true ∨ (s.die x).power = .p3) → ∃ u, exec .powerStateEntry s = .next u ∧ u.mgmt.deep = true) ∧
      ((s.die d).lastDram + 2 ^ 24 ≤ s.stc → s.stackBooked d = false → ∃ u, exec .powerStateEntry s = .next u ∧ (u.die d).power = .p3 ∧ u.dram = s.dram) ∧
      ((s.die d).lastDram + 2 ^ 24 ≤ s.stc → s.stackBooked d = true → ∃ u, exec .powerStateEntry s = .next u ∧ (u.die d).power = .p2 ∧ u.dram = s.dram) ∧
      (s.stc < (s.die d).lastDram + 2 ^ 24 → ∃ u, exec .powerStateEntry s = .next u ∧ (u.die d).power = .p2 ∧
        ⟨(s.die d).lastDram + 2 ^ 24, phTask, .powerStateEntry, { die := d, id := 3 }, {}⟩ ∈ u.agenda))) ∧
  (∀ s : State, s.inp.core = none → s.inp.id = 0 →
    (s.inp.flag = true → s.windows = [] → (∀ d, d < 8 → (s.die d).lost = true ∨ (s.die d).power = .p3) →
      ∃ u, exec .powerStateEntry s = .next u ∧ u.mgmt.deep = true ∧ u.mgmt.l1 = true ∧ u.dies = s.dies) ∧
    (s.inp.flag = false → ∃ u, exec .powerStateEntry s = .next u ∧ u.mgmt.deep = false ∧ u.mgmt.l1 = false ∧ u.dies = s.dies)) ∧
  (∀ s : State, ∃ u, exec .powerStateExit s = .next u ∧ (u.die s.inp.die).power = .p0 ∧ u.mgmt.deep = false ∧
    (∀ n, s.inp.core = some n → dieOf n = s.inp.die → u.corePower n = .p0) ∧ u.dram = s.dram) ∧
  (∀ s : State,
    let d := s.inp.die % 8
    let t := (s.inp.val.setWidth 16 : BitVec 16)
    ∃ u, exec .thermalLimit s = .next u ∧ SMap.get 0 u.mgmt.temp d = t ∧ (1760 < t.toInt → d ∈ u.mgmt.thermal) ∧
      (1680 < t.toInt → (SMap.get 0 s.mgmt.temp d : BitVec 16).toInt ≤ 1680 →
        ⟨s.stc, phTask, .sensorAlarm, { code := BitVec.ofNat 8 (16 + d), reading := { temp := t.toInt } }, {}⟩ ∈ u.agenda) ∧
      (t.toInt < 1600 → d ∉ u.mgmt.thermal) ∧ (1600 ≤ t.toInt → t.toInt ≤ 1760 → u.mgmt.thermal = s.mgmt.thermal) ∧ u.dram = s.dram)

/-- 01 R25, 17 R393 to R399, R402 to R405, R412 to R415: codewords corrected, marked and retired; double-bit errors of a core, which what is
booked there leaves; alarms by the conditions of Table 17.6, of those of one cycle the highest first, that are recorded, quarantine at
level 2 and stop the package in that step at level 3 (the model's choice, log 71), a lower one after a higher adding its entry alone; test
windows (of PRE 0, the model's choice, log 66), scans, which begin only in their window, and the core that passes, fails and is replaced by
the lowest spare, or is aborted. -/
def Obligations.TestsErrorsAndAlarms : Prop :=
  ((∀ s : State, Rules.PlainDram s →
    let pa := s.inp.addr.toNat
    let f := paFrame pa
    let marked (u : State) : Prop := SMap.get false (u.die (paDie pa)).poison (pa / 32) = true ∧ ∃ j ∈ u.agenda, j.ev = .frameRetirement ∧ j.inp.id = f
    (∃ u, exec .eccCorrection s = .next u ∧ SMap.get 0 (u.die (paDie pa)).corrections f = SMap.get 0 (s.die (paDie pa)).corrections f + 1 ∧
      SMap.get false (u.die (paDie pa)).repaired (pa / 32) = true ∧ u.dram = s.dram ∧
      (SMap.get false (s.die (paDie pa)).repaired (pa / 32) = true → ∃ j ∈ u.agenda, j.ev = .frameRetirement ∧ j.inp.id = f)) ∧
    (s.inp.flag = false → ∃ u, exec .eccReread s = .next u ∧ u.dram = s.dram ∧ u.dies = s.dies ∧
      ∀ j ∈ s.agenda, ∀ n id m, j.ev = .lddramReturn n id → (s.core n).cmd? id = some m → m.asks pa = true →
        { j with due := j.due + 64 } ∈ u.agenda) ∧
    (s.inp.flag = true → s.dir = [] → ∀ i, i = .eccReread ∨ i = .patrolScrub → ∃ u, exec i s = .next u ∧ marked u ∧ u.dram = s.dram) ∧
    (s.inp.flag = false → exec .patrolScrub s = .next (s.schedInp (2 ^ 44 + s.stc) phTask .patrolScrub { die := s.inp.die }))) ∧
  (∀ s : State,
    let f := s.inp.id
    let d := paDie (f * 65536)
    ((s.die d).lost = false → SMap.get? (s.die d).remap f = none → s.migration? d = none → (s.die d).remap.length < 256 →
      ∃ u m, exec .frameRetirement s = .next u ∧ u.migrations = s.migrations ++ [m] ∧ m.die = d ∧ m.old = f * 65536 ∧ m.size = 65536 ∧
        m.retirement = some s.inp.flag ∧ ⟨s.stc, phTask, .migrationCopyDone, { die := d }, {}⟩ ∈ u.agenda) ∧
    (SMap.get? (s.die d).remap f ≠ none → exec .frameRetirement s = .next s)) ∧
  (∀ (s : State) (n : Nat), s.inp.core = some n →
    ((s.core n).tsk.task = none → (∀ w ∈ s.windows, w.core = n → 2 ^ 32 ≤ w.task) →
      ∃ u, exec .sramDoubleBitError s = .next u ∧ s.physOf n ∈ (u.die (dieOf n)).mustTest ∧
        s.physOf n ∈ (u.die (dieOf n)).due ∧ u.dram = s.dram) ∧
    (∀ w r, (s.core n).tsk.task = none → s.windows = [w] → w.core = n → w.task < 2 ^ 32 → s.rec? w.task = some r → r.residue = none → r.ins = [] →
      ∃ u, exec .sramDoubleBitError s = .next u ∧ s.physOf n ∈ (u.die (dieOf n)).mustTest ∧ u.windows = []) ∧
    (∀ r, s.recOf n = some r → s.rec? r.id = some r → (s.core n).tsk.ending = none → (∀ w ∈ s.windows, w.core = n → w.task = r.id ∨ 2 ^ 32 ≤ w.task) →
      ∃ u, exec .sramDoubleBitError s = .next u ∧ s.physOf n ∈ (u.die (dieOf n)).mustTest ∧ (u.core n).tsk.ending = some (endRestart, 0) ∧
        (∀ q, ((u.core n).seq q).mode = .ended) ∧ u.rec? r.id = some { r with avoid := r.avoid ++ [s.physId n] })) ∧
  (∀ s : State, s.alarmWaits = true → exec .sensorAlarm s = .next (s.schedInp s.stc phTask .sensorAlarm s.inp)) ∧
  (∀ x : Input,
    let r := x.reading
    let kind := x.code.toNat / 8 % 4
    (kind = 0 → (120 < r.dev.natAbs ∨ (r.box = true ∧ 80 < r.dev.natAbs) → x.level = 3) ∧
      (r.box = false → 80 < r.dev.natAbs → r.dev.natAbs ≤ 120 → x.level = 2) ∧
      (50 < r.dev.natAbs → r.dev.natAbs ≤ 80 → x.level = if 1050 ≤ r.held then 1 else 0) ∧ (r.dev.natAbs ≤ 50 → x.level = 0)) ∧
    (kind = 1 → (64 ≤ r.absent → x.level = 3) ∧ (r.absent < 64 → r.period < 50 ∨ 200 < r.period → x.level = 2) ∧
      (r.absent < 64 → 50 ≤ r.period → r.period ≤ 200 → x.level = if 5 < r.dev.natAbs then 1 else 0)) ∧
    (kind = 2 → (r.box = true → r.temp < -640 ∨ 2000 < r.temp → x.level = 3) ∧ (r.box = false → 1920 < r.temp → x.level = 2) ∧
      (r.box = false → r.temp ≤ 1920 → x.level = if 1680 < r.temp then 1 else 0)) ∧
    (kind = 3 → (r.broken = true → x.level = 3) ∧ (r.broken = false → 150 < r.dev.natAbs → x.level = 2) ∧
      (r.broken = false → r.dev.natAbs ≤ 150 → x.level = if 50 < r.dev.natAbs then 1 else 0))) ∧
  (∀ s : State, s.inp.level ≠ 0 → s.inp.level < s.bx.level → s.alarmWaits = false →
    ∃ u, exec .sensorAlarm s = .next u ∧ u.bx = s.bx ∧ u.recs = s.recs ∧ u.stopped = s.stopped) ∧
  (∀ s : State, s.bx.level ≤ s.inp.level → s.inp.level ≠ 0 → s.alarmWaits = false →
    (s.inp.level = 1 → ∃ u, exec .sensorAlarm s = .next u ∧ u.bx.sensor = s.inp.code.setWidth 5 ∧ u.bx.level = 1 ∧
      u.bx.count1 = Nat.min 65535 (s.bx.count1 + 1) ∧ u.host.icause.getLsbD causeTamper = true ∧ u.stopped = s.stopped) ∧
    (s.inp.level = 2 → s.recs = [] → s.launches = [] → s.inp.code.toNat / 8 % 4 = 1 ∨ s.inp.code.toNat / 8 % 4 = 3 →
      ∃ u, exec .sensorAlarm s = .next u ∧ u.bx.level = 2 ∧ (∀ c x, u.ctx? c = some x → x.quarantined = true) ∧ u.stopped = s.stopped) ∧
    (s.inp.level = 3 → s.bx.erased = false → ∃ u, exec .sensorAlarm s = .next u ∧ u.stopped = true ∧ u.bx.erased = true ∧ u.bx.alarm3 = true ∧
      (u.link 0).down = true ∧ (u.link 4).down = true ∧ (∀ l ∈ u.launches, l.complete = true) ∧ ∀ n, (u.core n).tsk.task = none)) ∧
  (∀ s : State, s.inp.level = 0 → exec .sensorAlarm s = .next s)) ∧
  (∀ (s : State) (p : TestPkg),
    let d := s.inp.die
    let k := s.inp.phys
    (s.die d).testPkg = some p →
    ((s.die d).lost = false → s.hasTest d k = false → s.inp.mark = false →
      (∀ n t0, s.boundTo d k = some n → d ∉ s.mgmt.thermal → s.placeOn n 0 [] { len := 256 + p.duration + 1024 } = some t0 →
        ∃ u w, exec .testDue s = .next u ∧ u.windows = s.windows ++ [w] ∧ w.task = 2 ^ 32 + k ∧ w.core = n ∧ w.t0 = t0 ∧ k ∈ (u.die d).due ∧
          ⟨t0 + 256, phTask, .testScanStart, { die := d, core := some n, phys := k }, {}⟩ ∈ u.agenda) ∧
      (s.boundTo d k = none → s.isSpare d k = true → ∃ u, exec .testDue s = .next u ∧ u.windows = s.windows ∧
        ⟨s.stc, phTask, .testScanStart, { die := d, phys := k }, {}⟩ ∈ u.agenda)) ∧
    let here : Prop := s.inp.core = none ∨ ((∃ w ∈ s.windows, w.task = 2 ^ 32 + k ∧ dieOf w.core = d ∧ w.t0 + 256 = s.stc) ∧
      ∀ j ∈ s.agenda, j.ev = .testAbort → j.inp.flag = true → j.inp.die = d → j.inp.phys ≠ k)
    (¬ here → exec .testScanStart s = .next s) ∧
    (here → ∃ u j, exec .testScanStart s = .next u ∧ SMap.get? (u.die d).testing k = some s.stc ∧ j ∈ u.agenda ∧ j.due = s.stc + p.duration ∧
      j.ev = .testScanEnd ∧ j.inp.die = d ∧ j.inp.phys = k ∧
      ∀ n, s.inp.core = some n → (u.core n).tsk.task = none ∧ (u.core n).spm = {} ∧ (u.core n).vec.vrf = [] ∧ ∀ q r, ((u.core n).seq q).reg r = 0) ∧
    (s.inp.flag = false → SMap.get? (s.die d).testing k ≠ none → d < 8 →
      (s.inp.sig = p.expsig → ∃ u, exec .testScanEnd s = .next u ∧ SMap.get? (u.die d).testing k = none ∧ k ∉ (u.die d).due ∧
        k ∉ (u.die d).mustTest ∧ SMap.get 0 u.bx.lastPass (32 * d + k) = s.stc ∧
        ⟨s.stc + p.period * 1050000000, phTask, .testDue, { die := d, phys := k, mark := true }, {}⟩ ∈ u.agenda) ∧
      (∀ n, s.inp.sig ≠ p.expsig → s.boundTo d k = some n → (∀ w ∈ s.windows, w.core = n → 2 ^ 32 ≤ w.task) →
        (∀ x, lowestSpare (s.die d).lcspare = some x → ∃ u, exec .testScanEnd s = .next u ∧ k ∈ (u.die d).failed ∧ (u.die d).lcspare.getLsbD x = false ∧
          u.lcEntry n = { s.lcEntry n with phys := x, moved := decide (x ≠ lcoreOf n), gen := Nat.min 255 ((s.lcEntry n).gen + 1) } ∧
          SMap.get [] u.bx.maps d = (u.die d).lcmap) ∧
        (lowestSpare (s.die d).lcspare = none → ∃ u, exec .testScanEnd s = .next u ∧ k ∈ (u.die d).failed ∧ (u.lcEntry n).offline = true))) ∧
    (s.inp.flag = true → ∀ i, i = .testScanEnd ∨ i = .testAbort → ∃ u, exec i s = .next u ∧ ∀ w ∈ u.windows, ¬ (w.task = 2 ^ 32 + k ∧ dieOf w.core = d)) ∧
    (s.inp.flag = false → (∃ w ∈ s.windows, w.task = 2 ^ 32 + k ∧ dieOf w.core = d) →
      (∀ j ∈ s.agenda, j.inp.flag = true → j.ev ≠ .testAbort ∧ j.ev ≠ .testScanEnd) →
      ∃ u, exec .testAbort s = .next u ∧ SMap.get? (u.die d).testing k = none ∧ u.windows = s.windows ∧
        (∀ j ∈ u.agenda, j.inp.die = d → j.inp.phys = k → j.ev ≠ .testScanStart ∧ j.ev ≠ .testScanEnd) ∧
        ⟨s.stc + 1024, phTask, .testAbort, { s.inp with flag := true }, {}⟩ ∈ u.agenda ∧ u.dram = s.dram))
end

