-- ==== Sys2Proof/Laws/State.lean ====
section
/-! SUPPORT. The fields of State, Core and SeqSt after each of their updates: one lemma per field and update, so that no proof
unfolds a record update. -/

namespace Sys2Proof.Machine


/-! ### State.setCore -/

@[simp] theorem State.setCore_stc (s : State) (n : Nat) (c : Core) : (s.setCore n c).stc = s.stc := rfl
@[simp] theorem State.setCore_pkg (s : State) (n : Nat) (c : Core) : (s.setCore n c).pkg = s.pkg := rfl
@[simp] theorem State.setCore_nPkg (s : State) (n : Nat) (c : Core) : (s.setCore n c).nPkg = s.nPkg := rfl
@[simp] theorem State.setCore_turn (s : State) (n : Nat) (c : Core) : (s.setCore n c).turn = s.turn := rfl
@[simp] theorem State.setCore_inp (s : State) (n : Nat) (c : Core) : (s.setCore n c).inp = s.inp := rfl
@[simp] theorem State.setCore_agenda (s : State) (n : Nat) (c : Core) : (s.setCore n c).agenda = s.agenda := rfl
@[simp] theorem State.setCore_freeCtr (s : State) (n : Nat) (c : Core) : (s.setCore n c).freeCtr = s.freeCtr := rfl
@[simp] theorem State.setCore_dram (s : State) (n : Nat) (c : Core) : (s.setCore n c).dram = s.dram := rfl
@[simp] theorem State.setCore_dies (s : State) (n : Nat) (c : Core) : (s.setCore n c).dies = s.dies := rfl
@[simp] theorem State.setCore_ctxs (s : State) (n : Nat) (c : Core) : (s.setCore n c).ctxs = s.ctxs := rfl
@[simp] theorem State.setCore_launches (s : State) (n : Nat) (c : Core) : (s.setCore n c).launches = s.launches := rfl
@[simp] theorem State.setCore_recs (s : State) (n : Nat) (c : Core) : (s.setCore n c).recs = s.recs := rfl
@[simp] theorem State.setCore_windows (s : State) (n : Nat) (c : Core) : (s.setCore n c).windows = s.windows := rfl
@[simp] theorem State.setCore_teams (s : State) (n : Nat) (c : Core) : (s.setCore n c).teams = s.teams := rfl
@[simp] theorem State.setCore_barriers (s : State) (n : Nat) (c : Core) : (s.setCore n c).barriers = s.barriers := rfl
@[simp] theorem State.setCore_ht (s : State) (n : Nat) (c : Core) : (s.setCore n c).ht = s.ht := rfl
@[simp] theorem State.setCore_dir (s : State) (n : Nat) (c : Core) : (s.setCore n c).dir = s.dir := rfl
@[simp] theorem State.setCore_publishes (s : State) (n : Nat) (c : Core) : (s.setCore n c).publishes = s.publishes := rfl
@[simp] theorem State.setCore_sentLin (s : State) (n : Nat) (c : Core) : (s.setCore n c).sentLin = s.sentLin := rfl
@[simp] theorem State.setCore_heldPubs (s : State) (n : Nat) (c : Core) : (s.setCore n c).heldPubs = s.heldPubs := rfl
@[simp] theorem State.setCore_rwins (s : State) (n : Nat) (c : Core) : (s.setCore n c).rwins = s.rwins := rfl
@[simp] theorem State.setCore_contribs (s : State) (n : Nat) (c : Core) : (s.setCore n c).contribs = s.contribs := rfl
@[simp] theorem State.setCore_daus (s : State) (n : Nat) (c : Core) : (s.setCore n c).daus = s.daus := rfl
@[simp] theorem State.setCore_damos (s : State) (n : Nat) (c : Core) : (s.setCore n c).damos = s.damos := rfl
@[simp] theorem State.setCore_pairs (s : State) (n : Nat) (c : Core) : (s.setCore n c).pairs = s.pairs := rfl
@[simp] theorem State.setCore_bridgeBuf (s : State) (n : Nat) (c : Core) : (s.setCore n c).bridgeBuf = s.bridgeBuf := rfl
@[simp] theorem State.setCore_unitSeq (s : State) (n : Nat) (c : Core) : (s.setCore n c).unitSeq = s.unitSeq := rfl
@[simp] theorem State.setCore_packets (s : State) (n : Nat) (c : Core) : (s.setCore n c).packets = s.packets := rfl
@[simp] theorem State.setCore_ringLast (s : State) (n : Nat) (c : Core) : (s.setCore n c).ringLast = s.ringLast := rfl
@[simp] theorem State.setCore_cut (s : State) (n : Nat) (c : Core) : (s.setCore n c).cut = s.cut := rfl
@[simp] theorem State.setCore_deliveries (s : State) (n : Nat) (c : Core) : (s.setCore n c).deliveries = s.deliveries := rfl
@[simp] theorem State.setCore_floors (s : State) (n : Nat) (c : Core) : (s.setCore n c).floors = s.floors := rfl
@[simp] theorem State.setCore_rackCut (s : State) (n : Nat) (c : Core) : (s.setCore n c).rackCut = s.rackCut := rfl
@[simp] theorem State.setCore_exports (s : State) (n : Nat) (c : Core) : (s.setCore n c).exports = s.exports := rfl
@[simp] theorem State.setCore_rtc (s : State) (n : Nat) (c : Core) : (s.setCore n c).rtc = s.rtc := rfl
@[simp] theorem State.setCore_migrations (s : State) (n : Nat) (c : Core) : (s.setCore n c).migrations = s.migrations := rfl
@[simp] theorem State.setCore_forwards (s : State) (n : Nat) (c : Core) : (s.setCore n c).forwards = s.forwards := rfl
@[simp] theorem State.setCore_retries (s : State) (n : Nat) (c : Core) : (s.setCore n c).retries = s.retries := rfl
@[simp] theorem State.setCore_saveAreas (s : State) (n : Nat) (c : Core) : (s.setCore n c).saveAreas = s.saveAreas := rfl
@[simp] theorem State.setCore_invals (s : State) (n : Nat) (c : Core) : (s.setCore n c).invals = s.invals := rfl
@[simp] theorem State.setCore_groups (s : State) (n : Nat) (c : Core) : (s.setCore n c).groups = s.groups := rfl
@[simp] theorem State.setCore_links (s : State) (n : Nat) (c : Core) : (s.setCore n c).links = s.links := rfl
@[simp] theorem State.setCore_host (s : State) (n : Nat) (c : Core) : (s.setCore n c).host = s.host := rfl
@[simp] theorem State.setCore_ep4 (s : State) (n : Nat) (c : Core) : (s.setCore n c).ep4 = s.ep4 := rfl
@[simp] theorem State.setCore_mgmt (s : State) (n : Nat) (c : Core) : (s.setCore n c).mgmt = s.mgmt := rfl
@[simp] theorem State.setCore_bx (s : State) (n : Nat) (c : Core) : (s.setCore n c).bx = s.bx := rfl
@[simp] theorem State.setCore_stopped (s : State) (n : Nat) (c : Core) : (s.setCore n c).stopped = s.stopped := rfl
@[simp] theorem State.setCore_nextId (s : State) (n : Nat) (c : Core) : (s.setCore n c).nextId = s.nextId := rfl
@[simp] theorem State.setCore_order (s : State) (n : Nat) (c : Core) : (s.setCore n c).order = s.order := rfl
@[simp] theorem State.setCore_nextFrame (s : State) (n : Nat) (c : Core) : (s.setCore n c).nextFrame = s.nextFrame := rfl

/-! ### State.modCore -/

@[simp] theorem State.modCore_stc (s : State) (n : Nat) (f : Core → Core) : (s.modCore n f).stc = s.stc := rfl
@[simp] theorem State.modCore_pkg (s : State) (n : Nat) (f : Core → Core) : (s.modCore n f).pkg = s.pkg := rfl
@[simp] theorem State.modCore_nPkg (s : State) (n : Nat) (f : Core → Core) : (s.modCore n f).nPkg = s.nPkg := rfl
@[simp] theorem State.modCore_turn (s : State) (n : Nat) (f : Core → Core) : (s.modCore n f).turn = s.turn := rfl
@[simp] theorem State.modCore_inp (s : State) (n : Nat) (f : Core → Core) : (s.modCore n f).inp = s.inp := rfl
@[simp] theorem State.modCore_agenda (s : State) (n : Nat) (f : Core → Core) : (s.modCore n f).agenda = s.agenda := rfl
@[simp] theorem State.modCore_freeCtr (s : State) (n : Nat) (f : Core → Core) : (s.modCore n f).freeCtr = s.freeCtr := rfl
@[simp] theorem State.modCore_dram (s : State) (n : Nat) (f : Core → Core) : (s.modCore n f).dram = s.dram := rfl
@[simp] theorem State.modCore_dies (s : State) (n : Nat) (f : Core → Core) : (s.modCore n f).dies = s.dies := rfl
@[simp] theorem State.modCore_ctxs (s : State) (n : Nat) (f : Core → Core) : (s.modCore n f).ctxs = s.ctxs := rfl
@[simp] theorem State.modCore_launches (s : State) (n : Nat) (f : Core → Core) : (s.modCore n f).launches = s.launches := rfl
@[simp] theorem State.modCore_recs (s : State) (n : Nat) (f : Core → Core) : (s.modCore n f).recs = s.recs := rfl
@[simp] theorem State.modCore_windows (s : State) (n : Nat) (f : Core → Core) : (s.modCore n f).windows = s.windows := rfl
@[simp] theorem State.modCore_teams (s : State) (n : Nat) (f : Core → Core) : (s.modCore n f).teams = s.teams := rfl
@[simp] theorem State.modCore_barriers (s : State) (n : Nat) (f : Core → Core) : (s.modCore n f).barriers = s.barriers := rfl
@[simp] theorem State.modCore_ht (s : State) (n : Nat) (f : Core → Core) : (s.modCore n f).ht = s.ht := rfl
@[simp] theorem State.modCore_dir (s : State) (n : Nat) (f : Core → Core) : (s.modCore n f).dir = s.dir := rfl
@[simp] theorem State.modCore_publishes (s : State) (n : Nat) (f : Core → Core) : (s.modCore n f).publishes = s.publishes := rfl
@[simp] theorem State.modCore_sentLin (s : State) (n : Nat) (f : Core → Core) : (s.modCore n f).sentLin = s.sentLin := rfl
@[simp] theorem State.modCore_heldPubs (s : State) (n : Nat) (f : Core → Core) : (s.modCore n f).heldPubs = s.heldPubs := rfl
@[simp] theorem State.modCore_rwins (s : State) (n : Nat) (f : Core → Core) : (s.modCore n f).rwins = s.rwins := rfl
@[simp] theorem State.modCore_contribs (s : State) (n : Nat) (f : Core → Core) : (s.modCore n f).contribs = s.contribs := rfl
@[simp] theorem State.modCore_daus (s : State) (n : Nat) (f : Core → Core) : (s.modCore n f).daus = s.daus := rfl
@[simp] theorem State.modCore_damos (s : State) (n : Nat) (f : Core → Core) : (s.modCore n f).damos = s.damos := rfl
@[simp] theorem State.modCore_pairs (s : State) (n : Nat) (f : Core → Core) : (s.modCore n f).pairs = s.pairs := rfl
@[simp] theorem State.modCore_bridgeBuf (s : State) (n : Nat) (f : Core → Core) : (s.modCore n f).bridgeBuf = s.bridgeBuf := rfl
@[simp] theorem State.modCore_unitSeq (s : State) (n : Nat) (f : Core → Core) : (s.modCore n f).unitSeq = s.unitSeq := rfl
@[simp] theorem State.modCore_packets (s : State) (n : Nat) (f : Core → Core) : (s.modCore n f).packets = s.packets := rfl
@[simp] theorem State.modCore_ringLast (s : State) (n : Nat) (f : Core → Core) : (s.modCore n f).ringLast = s.ringLast := rfl
@[simp] theorem State.modCore_cut (s : State) (n : Nat) (f : Core → Core) : (s.modCore n f).cut = s.cut := rfl
@[simp] theorem State.modCore_deliveries (s : State) (n : Nat) (f : Core → Core) : (s.modCore n f).deliveries = s.deliveries := rfl
@[simp] theorem State.modCore_floors (s : State) (n : Nat) (f : Core → Core) : (s.modCore n f).floors = s.floors := rfl
@[simp] theorem State.modCore_rackCut (s : State) (n : Nat) (f : Core → Core) : (s.modCore n f).rackCut = s.rackCut := rfl
@[simp] theorem State.modCore_exports (s : State) (n : Nat) (f : Core → Core) : (s.modCore n f).exports = s.exports := rfl
@[simp] theorem State.modCore_rtc (s : State) (n : Nat) (f : Core → Core) : (s.modCore n f).rtc = s.rtc := rfl
@[simp] theorem State.modCore_migrations (s : State) (n : Nat) (f : Core → Core) : (s.modCore n f).migrations = s.migrations := rfl
@[simp] theorem State.modCore_forwards (s : State) (n : Nat) (f : Core → Core) : (s.modCore n f).forwards = s.forwards := rfl
@[simp] theorem State.modCore_retries (s : State) (n : Nat) (f : Core → Core) : (s.modCore n f).retries = s.retries := rfl
@[simp] theorem State.modCore_saveAreas (s : State) (n : Nat) (f : Core → Core) : (s.modCore n f).saveAreas = s.saveAreas := rfl
@[simp] theorem State.modCore_invals (s : State) (n : Nat) (f : Core → Core) : (s.modCore n f).invals = s.invals := rfl
@[simp] theorem State.modCore_groups (s : State) (n : Nat) (f : Core → Core) : (s.modCore n f).groups = s.groups := rfl
@[simp] theorem State.modCore_links (s : State) (n : Nat) (f : Core → Core) : (s.modCore n f).links = s.links := rfl
@[simp] theorem State.modCore_host (s : State) (n : Nat) (f : Core → Core) : (s.modCore n f).host = s.host := rfl
@[simp] theorem State.modCore_ep4 (s : State) (n : Nat) (f : Core → Core) : (s.modCore n f).ep4 = s.ep4 := rfl
@[simp] theorem State.modCore_mgmt (s : State) (n : Nat) (f : Core → Core) : (s.modCore n f).mgmt = s.mgmt := rfl
@[simp] theorem State.modCore_bx (s : State) (n : Nat) (f : Core → Core) : (s.modCore n f).bx = s.bx := rfl
@[simp] theorem State.modCore_stopped (s : State) (n : Nat) (f : Core → Core) : (s.modCore n f).stopped = s.stopped := rfl
@[simp] theorem State.modCore_nextId (s : State) (n : Nat) (f : Core → Core) : (s.modCore n f).nextId = s.nextId := rfl
@[simp] theorem State.modCore_order (s : State) (n : Nat) (f : Core → Core) : (s.modCore n f).order = s.order := rfl
@[simp] theorem State.modCore_nextFrame (s : State) (n : Nat) (f : Core → Core) : (s.modCore n f).nextFrame = s.nextFrame := rfl

/-! ### State.modCur -/

@[simp] theorem State.modCur_stc (s : State) (f : Core → Core) : (s.modCur f).stc = s.stc := rfl
@[simp] theorem State.modCur_pkg (s : State) (f : Core → Core) : (s.modCur f).pkg = s.pkg := rfl
@[simp] theorem State.modCur_nPkg (s : State) (f : Core → Core) : (s.modCur f).nPkg = s.nPkg := rfl
@[simp] theorem State.modCur_turn (s : State) (f : Core → Core) : (s.modCur f).turn = s.turn := rfl
@[simp] theorem State.modCur_inp (s : State) (f : Core → Core) : (s.modCur f).inp = s.inp := rfl
@[simp] theorem State.modCur_agenda (s : State) (f : Core → Core) : (s.modCur f).agenda = s.agenda := rfl
@[simp] theorem State.modCur_freeCtr (s : State) (f : Core → Core) : (s.modCur f).freeCtr = s.freeCtr := rfl
@[simp] theorem State.modCur_dram (s : State) (f : Core → Core) : (s.modCur f).dram = s.dram := rfl
@[simp] theorem State.modCur_dies (s : State) (f : Core → Core) : (s.modCur f).dies = s.dies := rfl
@[simp] theorem State.modCur_ctxs (s : State) (f : Core → Core) : (s.modCur f).ctxs = s.ctxs := rfl
@[simp] theorem State.modCur_launches (s : State) (f : Core → Core) : (s.modCur f).launches = s.launches := rfl
@[simp] theorem State.modCur_recs (s : State) (f : Core → Core) : (s.modCur f).recs = s.recs := rfl
@[simp] theorem State.modCur_windows (s : State) (f : Core → Core) : (s.modCur f).windows = s.windows := rfl
@[simp] theorem State.modCur_teams (s : State) (f : Core → Core) : (s.modCur f).teams = s.teams := rfl
@[simp] theorem State.modCur_barriers (s : State) (f : Core → Core) : (s.modCur f).barriers = s.barriers := rfl
@[simp] theorem State.modCur_ht (s : State) (f : Core → Core) : (s.modCur f).ht = s.ht := rfl
@[simp] theorem State.modCur_dir (s : State) (f : Core → Core) : (s.modCur f).dir = s.dir := rfl
@[simp] theorem State.modCur_publishes (s : State) (f : Core → Core) : (s.modCur f).publishes = s.publishes := rfl
@[simp] theorem State.modCur_sentLin (s : State) (f : Core → Core) : (s.modCur f).sentLin = s.sentLin := rfl
@[simp] theorem State.modCur_heldPubs (s : State) (f : Core → Core) : (s.modCur f).heldPubs = s.heldPubs := rfl
@[simp] theorem State.modCur_rwins (s : State) (f : Core → Core) : (s.modCur f).rwins = s.rwins := rfl
@[simp] theorem State.modCur_contribs (s : State) (f : Core → Core) : (s.modCur f).contribs = s.contribs := rfl
@[simp] theorem State.modCur_daus (s : State) (f : Core → Core) : (s.modCur f).daus = s.daus := rfl
@[simp] theorem State.modCur_damos (s : State) (f : Core → Core) : (s.modCur f).damos = s.damos := rfl
@[simp] theorem State.modCur_pairs (s : State) (f : Core → Core) : (s.modCur f).pairs = s.pairs := rfl
@[simp] theorem State.modCur_bridgeBuf (s : State) (f : Core → Core) : (s.modCur f).bridgeBuf = s.bridgeBuf := rfl
@[simp] theorem State.modCur_unitSeq (s : State) (f : Core → Core) : (s.modCur f).unitSeq = s.unitSeq := rfl
@[simp] theorem State.modCur_packets (s : State) (f : Core → Core) : (s.modCur f).packets = s.packets := rfl
@[simp] theorem State.modCur_ringLast (s : State) (f : Core → Core) : (s.modCur f).ringLast = s.ringLast := rfl
@[simp] theorem State.modCur_cut (s : State) (f : Core → Core) : (s.modCur f).cut = s.cut := rfl
@[simp] theorem State.modCur_deliveries (s : State) (f : Core → Core) : (s.modCur f).deliveries = s.deliveries := rfl
@[simp] theorem State.modCur_floors (s : State) (f : Core → Core) : (s.modCur f).floors = s.floors := rfl
@[simp] theorem State.modCur_rackCut (s : State) (f : Core → Core) : (s.modCur f).rackCut = s.rackCut := rfl
@[simp] theorem State.modCur_exports (s : State) (f : Core → Core) : (s.modCur f).exports = s.exports := rfl
@[simp] theorem State.modCur_rtc (s : State) (f : Core → Core) : (s.modCur f).rtc = s.rtc := rfl
@[simp] theorem State.modCur_migrations (s : State) (f : Core → Core) : (s.modCur f).migrations = s.migrations := rfl
@[simp] theorem State.modCur_forwards (s : State) (f : Core → Core) : (s.modCur f).forwards = s.forwards := rfl
@[simp] theorem State.modCur_retries (s : State) (f : Core → Core) : (s.modCur f).retries = s.retries := rfl
@[simp] theorem State.modCur_saveAreas (s : State) (f : Core → Core) : (s.modCur f).saveAreas = s.saveAreas := rfl
@[simp] theorem State.modCur_invals (s : State) (f : Core → Core) : (s.modCur f).invals = s.invals := rfl
@[simp] theorem State.modCur_groups (s : State) (f : Core → Core) : (s.modCur f).groups = s.groups := rfl
@[simp] theorem State.modCur_links (s : State) (f : Core → Core) : (s.modCur f).links = s.links := rfl
@[simp] theorem State.modCur_host (s : State) (f : Core → Core) : (s.modCur f).host = s.host := rfl
@[simp] theorem State.modCur_ep4 (s : State) (f : Core → Core) : (s.modCur f).ep4 = s.ep4 := rfl
@[simp] theorem State.modCur_mgmt (s : State) (f : Core → Core) : (s.modCur f).mgmt = s.mgmt := rfl
@[simp] theorem State.modCur_bx (s : State) (f : Core → Core) : (s.modCur f).bx = s.bx := rfl
@[simp] theorem State.modCur_stopped (s : State) (f : Core → Core) : (s.modCur f).stopped = s.stopped := rfl
@[simp] theorem State.modCur_nextId (s : State) (f : Core → Core) : (s.modCur f).nextId = s.nextId := rfl
@[simp] theorem State.modCur_order (s : State) (f : Core → Core) : (s.modCur f).order = s.order := rfl
@[simp] theorem State.modCur_nextFrame (s : State) (f : Core → Core) : (s.modCur f).nextFrame = s.nextFrame := rfl

/-! ### State.setDie -/

@[simp] theorem State.setDie_stc (s : State) (d : Nat) (x : Die) : (s.setDie d x).stc = s.stc := rfl
@[simp] theorem State.setDie_pkg (s : State) (d : Nat) (x : Die) : (s.setDie d x).pkg = s.pkg := rfl
@[simp] theorem State.setDie_nPkg (s : State) (d : Nat) (x : Die) : (s.setDie d x).nPkg = s.nPkg := rfl
@[simp] theorem State.setDie_turn (s : State) (d : Nat) (x : Die) : (s.setDie d x).turn = s.turn := rfl
@[simp] theorem State.setDie_inp (s : State) (d : Nat) (x : Die) : (s.setDie d x).inp = s.inp := rfl
@[simp] theorem State.setDie_agenda (s : State) (d : Nat) (x : Die) : (s.setDie d x).agenda = s.agenda := rfl
@[simp] theorem State.setDie_freeCtr (s : State) (d : Nat) (x : Die) : (s.setDie d x).freeCtr = s.freeCtr := rfl
@[simp] theorem State.setDie_dram (s : State) (d : Nat) (x : Die) : (s.setDie d x).dram = s.dram := rfl
@[simp] theorem State.setDie_cores (s : State) (d : Nat) (x : Die) : (s.setDie d x).cores = s.cores := rfl
@[simp] theorem State.setDie_ctxs (s : State) (d : Nat) (x : Die) : (s.setDie d x).ctxs = s.ctxs := rfl
@[simp] theorem State.setDie_launches (s : State) (d : Nat) (x : Die) : (s.setDie d x).launches = s.launches := rfl
@[simp] theorem State.setDie_recs (s : State) (d : Nat) (x : Die) : (s.setDie d x).recs = s.recs := rfl
@[simp] theorem State.setDie_windows (s : State) (d : Nat) (x : Die) : (s.setDie d x).windows = s.windows := rfl
@[simp] theorem State.setDie_teams (s : State) (d : Nat) (x : Die) : (s.setDie d x).teams = s.teams := rfl
@[simp] theorem State.setDie_barriers (s : State) (d : Nat) (x : Die) : (s.setDie d x).barriers = s.barriers := rfl
@[simp] theorem State.setDie_ht (s : State) (d : Nat) (x : Die) : (s.setDie d x).ht = s.ht := rfl
@[simp] theorem State.setDie_dir (s : State) (d : Nat) (x : Die) : (s.setDie d x).dir = s.dir := rfl
@[simp] theorem State.setDie_publishes (s : State) (d : Nat) (x : Die) : (s.setDie d x).publishes = s.publishes := rfl
@[simp] theorem State.setDie_sentLin (s : State) (d : Nat) (x : Die) : (s.setDie d x).sentLin = s.sentLin := rfl
@[simp] theorem State.setDie_heldPubs (s : State) (d : Nat) (x : Die) : (s.setDie d x).heldPubs = s.heldPubs := rfl
@[simp] theorem State.setDie_rwins (s : State) (d : Nat) (x : Die) : (s.setDie d x).rwins = s.rwins := rfl
@[simp] theorem State.setDie_contribs (s : State) (d : Nat) (x : Die) : (s.setDie d x).contribs = s.contribs := rfl
@[simp] theorem State.setDie_daus (s : State) (d : Nat) (x : Die) : (s.setDie d x).daus = s.daus := rfl
@[simp] theorem State.setDie_damos (s : State) (d : Nat) (x : Die) : (s.setDie d x).damos = s.damos := rfl
@[simp] theorem State.setDie_pairs (s : State) (d : Nat) (x : Die) : (s.setDie d x).pairs = s.pairs := rfl
@[simp] theorem State.setDie_bridgeBuf (s : State) (d : Nat) (x : Die) : (s.setDie d x).bridgeBuf = s.bridgeBuf := rfl
@[simp] theorem State.setDie_unitSeq (s : State) (d : Nat) (x : Die) : (s.setDie d x).unitSeq = s.unitSeq := rfl
@[simp] theorem State.setDie_packets (s : State) (d : Nat) (x : Die) : (s.setDie d x).packets = s.packets := rfl
@[simp] theorem State.setDie_ringLast (s : State) (d : Nat) (x : Die) : (s.setDie d x).ringLast = s.ringLast := rfl
@[simp] theorem State.setDie_cut (s : State) (d : Nat) (x : Die) : (s.setDie d x).cut = s.cut := rfl
@[simp] theorem State.setDie_deliveries (s : State) (d : Nat) (x : Die) : (s.setDie d x).deliveries = s.deliveries := rfl
@[simp] theorem State.setDie_floors (s : State) (d : Nat) (x : Die) : (s.setDie d x).floors = s.floors := rfl
@[simp] theorem State.setDie_rackCut (s : State) (d : Nat) (x : Die) : (s.setDie d x).rackCut = s.rackCut := rfl
@[simp] theorem State.setDie_exports (s : State) (d : Nat) (x : Die) : (s.setDie d x).exports = s.exports := rfl
@[simp] theorem State.setDie_rtc (s : State) (d : Nat) (x : Die) : (s.setDie d x).rtc = s.rtc := rfl
@[simp] theorem State.setDie_migrations (s : State) (d : Nat) (x : Die) : (s.setDie d x).migrations = s.migrations := rfl
@[simp] theorem State.setDie_forwards (s : State) (d : Nat) (x : Die) : (s.setDie d x).forwards = s.forwards := rfl
@[simp] theorem State.setDie_retries (s : State) (d : Nat) (x : Die) : (s.setDie d x).retries = s.retries := rfl
@[simp] theorem State.setDie_saveAreas (s : State) (d : Nat) (x : Die) : (s.setDie d x).saveAreas = s.saveAreas := rfl
@[simp] theorem State.setDie_invals (s : State) (d : Nat) (x : Die) : (s.setDie d x).invals = s.invals := rfl
@[simp] theorem State.setDie_groups (s : State) (d : Nat) (x : Die) : (s.setDie d x).groups = s.groups := rfl
@[simp] theorem State.setDie_links (s : State) (d : Nat) (x : Die) : (s.setDie d x).links = s.links := rfl
@[simp] theorem State.setDie_host (s : State) (d : Nat) (x : Die) : (s.setDie d x).host = s.host := rfl
@[simp] theorem State.setDie_ep4 (s : State) (d : Nat) (x : Die) : (s.setDie d x).ep4 = s.ep4 := rfl
@[simp] theorem State.setDie_mgmt (s : State) (d : Nat) (x : Die) : (s.setDie d x).mgmt = s.mgmt := rfl
@[simp] theorem State.setDie_bx (s : State) (d : Nat) (x : Die) : (s.setDie d x).bx = s.bx := rfl
@[simp] theorem State.setDie_stopped (s : State) (d : Nat) (x : Die) : (s.setDie d x).stopped = s.stopped := rfl
@[simp] theorem State.setDie_nextId (s : State) (d : Nat) (x : Die) : (s.setDie d x).nextId = s.nextId := rfl
@[simp] theorem State.setDie_order (s : State) (d : Nat) (x : Die) : (s.setDie d x).order = s.order := rfl
@[simp] theorem State.setDie_nextFrame (s : State) (d : Nat) (x : Die) : (s.setDie d x).nextFrame = s.nextFrame := rfl

/-! ### State.modDie -/

@[simp] theorem State.modDie_stc (s : State) (d : Nat) (f : Die → Die) : (s.modDie d f).stc = s.stc := rfl
@[simp] theorem State.modDie_pkg (s : State) (d : Nat) (f : Die → Die) : (s.modDie d f).pkg = s.pkg := rfl
@[simp] theorem State.modDie_nPkg (s : State) (d : Nat) (f : Die → Die) : (s.modDie d f).nPkg = s.nPkg := rfl
@[simp] theorem State.modDie_turn (s : State) (d : Nat) (f : Die → Die) : (s.modDie d f).turn = s.turn := rfl
@[simp] theorem State.modDie_inp (s : State) (d : Nat) (f : Die → Die) : (s.modDie d f).inp = s.inp := rfl
@[simp] theorem State.modDie_agenda (s : State) (d : Nat) (f : Die → Die) : (s.modDie d f).agenda = s.agenda := rfl
@[simp] theorem State.modDie_freeCtr (s : State) (d : Nat) (f : Die → Die) : (s.modDie d f).freeCtr = s.freeCtr := rfl
@[simp] theorem State.modDie_dram (s : State) (d : Nat) (f : Die → Die) : (s.modDie d f).dram = s.dram := rfl
@[simp] theorem State.modDie_cores (s : State) (d : Nat) (f : Die → Die) : (s.modDie d f).cores = s.cores := rfl
@[simp] theorem State.modDie_ctxs (s : State) (d : Nat) (f : Die → Die) : (s.modDie d f).ctxs = s.ctxs := rfl
@[simp] theorem State.modDie_launches (s : State) (d : Nat) (f : Die → Die) : (s.modDie d f).launches = s.launches := rfl
@[simp] theorem State.modDie_recs (s : State) (d : Nat) (f : Die → Die) : (s.modDie d f).recs = s.recs := rfl
@[simp] theorem State.modDie_windows (s : State) (d : Nat) (f : Die → Die) : (s.modDie d f).windows = s.windows := rfl
@[simp] theorem State.modDie_teams (s : State) (d : Nat) (f : Die → Die) : (s.modDie d f).teams = s.teams := rfl
@[simp] theorem State.modDie_barriers (s : State) (d : Nat) (f : Die → Die) : (s.modDie d f).barriers = s.barriers := rfl
@[simp] theorem State.modDie_ht (s : State) (d : Nat) (f : Die → Die) : (s.modDie d f).ht = s.ht := rfl
@[simp] theorem State.modDie_dir (s : State) (d : Nat) (f : Die → Die) : (s.modDie d f).dir = s.dir := rfl
@[simp] theorem State.modDie_publishes (s : State) (d : Nat) (f : Die → Die) : (s.modDie d f).publishes = s.publishes := rfl
@[simp] theorem State.modDie_sentLin (s : State) (d : Nat) (f : Die → Die) : (s.modDie d f).sentLin = s.sentLin := rfl
@[simp] theorem State.modDie_heldPubs (s : State) (d : Nat) (f : Die → Die) : (s.modDie d f).heldPubs = s.heldPubs := rfl
@[simp] theorem State.modDie_rwins (s : State) (d : Nat) (f : Die → Die) : (s.modDie d f).rwins = s.rwins := rfl
@[simp] theorem State.modDie_contribs (s : State) (d : Nat) (f : Die → Die) : (s.modDie d f).contribs = s.contribs := rfl
@[simp] theorem State.modDie_daus (s : State) (d : Nat) (f : Die → Die) : (s.modDie d f).daus = s.daus := rfl
@[simp] theorem State.modDie_damos (s : State) (d : Nat) (f : Die → Die) : (s.modDie d f).damos = s.damos := rfl
@[simp] theorem State.modDie_pairs (s : State) (d : Nat) (f : Die → Die) : (s.modDie d f).pairs = s.pairs := rfl
@[simp] theorem State.modDie_bridgeBuf (s : State) (d : Nat) (f : Die → Die) : (s.modDie d f).bridgeBuf = s.bridgeBuf := rfl
@[simp] theorem State.modDie_unitSeq (s : State) (d : Nat) (f : Die → Die) : (s.modDie d f).unitSeq = s.unitSeq := rfl
@[simp] theorem State.modDie_packets (s : State) (d : Nat) (f : Die → Die) : (s.modDie d f).packets = s.packets := rfl
@[simp] theorem State.modDie_ringLast (s : State) (d : Nat) (f : Die → Die) : (s.modDie d f).ringLast = s.ringLast := rfl
@[simp] theorem State.modDie_cut (s : State) (d : Nat) (f : Die → Die) : (s.modDie d f).cut = s.cut := rfl
@[simp] theorem State.modDie_deliveries (s : State) (d : Nat) (f : Die → Die) : (s.modDie d f).deliveries = s.deliveries := rfl
@[simp] theorem State.modDie_floors (s : State) (d : Nat) (f : Die → Die) : (s.modDie d f).floors = s.floors := rfl
@[simp] theorem State.modDie_rackCut (s : State) (d : Nat) (f : Die → Die) : (s.modDie d f).rackCut = s.rackCut := rfl
@[simp] theorem State.modDie_exports (s : State) (d : Nat) (f : Die → Die) : (s.modDie d f).exports = s.exports := rfl
@[simp] theorem State.modDie_rtc (s : State) (d : Nat) (f : Die → Die) : (s.modDie d f).rtc = s.rtc := rfl
@[simp] theorem State.modDie_migrations (s : State) (d : Nat) (f : Die → Die) : (s.modDie d f).migrations = s.migrations := rfl
@[simp] theorem State.modDie_forwards (s : State) (d : Nat) (f : Die → Die) : (s.modDie d f).forwards = s.forwards := rfl
@[simp] theorem State.modDie_retries (s : State) (d : Nat) (f : Die → Die) : (s.modDie d f).retries = s.retries := rfl
@[simp] theorem State.modDie_saveAreas (s : State) (d : Nat) (f : Die → Die) : (s.modDie d f).saveAreas = s.saveAreas := rfl
@[simp] theorem State.modDie_invals (s : State) (d : Nat) (f : Die → Die) : (s.modDie d f).invals = s.invals := rfl
@[simp] theorem State.modDie_groups (s : State) (d : Nat) (f : Die → Die) : (s.modDie d f).groups = s.groups := rfl
@[simp] theorem State.modDie_links (s : State) (d : Nat) (f : Die → Die) : (s.modDie d f).links = s.links := rfl
@[simp] theorem State.modDie_host (s : State) (d : Nat) (f : Die → Die) : (s.modDie d f).host = s.host := rfl
@[simp] theorem State.modDie_ep4 (s : State) (d : Nat) (f : Die → Die) : (s.modDie d f).ep4 = s.ep4 := rfl
@[simp] theorem State.modDie_mgmt (s : State) (d : Nat) (f : Die → Die) : (s.modDie d f).mgmt = s.mgmt := rfl
@[simp] theorem State.modDie_bx (s : State) (d : Nat) (f : Die → Die) : (s.modDie d f).bx = s.bx := rfl
@[simp] theorem State.modDie_stopped (s : State) (d : Nat) (f : Die → Die) : (s.modDie d f).stopped = s.stopped := rfl
@[simp] theorem State.modDie_nextId (s : State) (d : Nat) (f : Die → Die) : (s.modDie d f).nextId = s.nextId := rfl
@[simp] theorem State.modDie_order (s : State) (d : Nat) (f : Die → Die) : (s.modDie d f).order = s.order := rfl
@[simp] theorem State.modDie_nextFrame (s : State) (d : Nat) (f : Die → Die) : (s.modDie d f).nextFrame = s.nextFrame := rfl

/-! ### State.sched -/

@[simp] theorem State.sched_stc (s : State) (due phase : Nat) (ev : Instr) : (s.sched due phase ev).stc = s.stc := rfl
@[simp] theorem State.sched_pkg (s : State) (due phase : Nat) (ev : Instr) : (s.sched due phase ev).pkg = s.pkg := rfl
@[simp] theorem State.sched_nPkg (s : State) (due phase : Nat) (ev : Instr) : (s.sched due phase ev).nPkg = s.nPkg := rfl
@[simp] theorem State.sched_turn (s : State) (due phase : Nat) (ev : Instr) : (s.sched due phase ev).turn = s.turn := rfl
@[simp] theorem State.sched_inp (s : State) (due phase : Nat) (ev : Instr) : (s.sched due phase ev).inp = s.inp := rfl
@[simp] theorem State.sched_freeCtr (s : State) (due phase : Nat) (ev : Instr) : (s.sched due phase ev).freeCtr = s.freeCtr := rfl
@[simp] theorem State.sched_dram (s : State) (due phase : Nat) (ev : Instr) : (s.sched due phase ev).dram = s.dram := rfl
@[simp] theorem State.sched_cores (s : State) (due phase : Nat) (ev : Instr) : (s.sched due phase ev).cores = s.cores := rfl
@[simp] theorem State.sched_dies (s : State) (due phase : Nat) (ev : Instr) : (s.sched due phase ev).dies = s.dies := rfl
@[simp] theorem State.sched_ctxs (s : State) (due phase : Nat) (ev : Instr) : (s.sched due phase ev).ctxs = s.ctxs := rfl
@[simp] theorem State.sched_launches (s : State) (due phase : Nat) (ev : Instr) : (s.sched due phase ev).launches = s.launches := rfl
@[simp] theorem State.sched_recs (s : State) (due phase : Nat) (ev : Instr) : (s.sched due phase ev).recs = s.recs := rfl
@[simp] theorem State.sched_windows (s : State) (due phase : Nat) (ev : Instr) : (s.sched due phase ev).windows = s.windows := rfl
@[simp] theorem State.sched_teams (s : State) (due phase : Nat) (ev : Instr) : (s.sched due phase ev).teams = s.teams := rfl
@[simp] theorem State.sched_barriers (s : State) (due phase : Nat) (ev : Instr) : (s.sched due phase ev).barriers = s.barriers := rfl
@[simp] theorem State.sched_ht (s : State) (due phase : Nat) (ev : Instr) : (s.sched due phase ev).ht = s.ht := rfl
@[simp] theorem State.sched_dir (s : State) (due phase : Nat) (ev : Instr) : (s.sched due phase ev).dir = s.dir := rfl
@[simp] theorem State.sched_publishes (s : State) (due phase : Nat) (ev : Instr) : (s.sched due phase ev).publishes = s.publishes := rfl
@[simp] theorem State.sched_sentLin (s : State) (due phase : Nat) (ev : Instr) : (s.sched due phase ev).sentLin = s.sentLin := rfl
@[simp] theorem State.sched_heldPubs (s : State) (due phase : Nat) (ev : Instr) : (s.sched due phase ev).heldPubs = s.heldPubs := rfl
@[simp] theorem State.sched_rwins (s : State) (due phase : Nat) (ev : Instr) : (s.sched due phase ev).rwins = s.rwins := rfl
@[simp] theorem State.sched_contribs (s : State) (due phase : Nat) (ev : Instr) : (s.sched due phase ev).contribs = s.contribs := rfl
@[simp] theorem State.sched_daus (s : State) (due phase : Nat) (ev : Instr) : (s.sched due phase ev).daus = s.daus := rfl
@[simp] theorem State.sched_damos (s : State) (due phase : Nat) (ev : Instr) : (s.sched due phase ev).damos = s.damos := rfl
@[simp] theorem State.sched_pairs (s : State) (due phase : Nat) (ev : Instr) : (s.sched due phase ev).pairs = s.pairs := rfl
@[simp] theorem State.sched_bridgeBuf (s : State) (due phase : Nat) (ev : Instr) : (s.sched due phase ev).bridgeBuf = s.bridgeBuf := rfl
@[simp] theorem State.sched_unitSeq (s : State) (due phase : Nat) (ev : Instr) : (s.sched due phase ev).unitSeq = s.unitSeq := rfl
@[simp] theorem State.sched_packets (s : State) (due phase : Nat) (ev : Instr) : (s.sched due phase ev).packets = s.packets := rfl
@[simp] theorem State.sched_ringLast (s : State) (due phase : Nat) (ev : Instr) : (s.sched due phase ev).ringLast = s.ringLast := rfl
@[simp] theorem State.sched_cut (s : State) (due phase : Nat) (ev : Instr) : (s.sched due phase ev).cut = s.cut := rfl
@[simp] theorem State.sched_deliveries (s : State) (due phase : Nat) (ev : Instr) : (s.sched due phase ev).deliveries = s.deliveries := rfl
@[simp] theorem State.sched_floors (s : State) (due phase : Nat) (ev : Instr) : (s.sched due phase ev).floors = s.floors := rfl
@[simp] theorem State.sched_rackCut (s : State) (due phase : Nat) (ev : Instr) : (s.sched due phase ev).rackCut = s.rackCut := rfl
@[simp] theorem State.sched_exports (s : State) (due phase : Nat) (ev : Instr) : (s.sched due phase ev).exports = s.exports := rfl
@[simp] theorem State.sched_rtc (s : State) (due phase : Nat) (ev : Instr) : (s.sched due phase ev).rtc = s.rtc := rfl
@[simp] theorem State.sched_migrations (s : State) (due phase : Nat) (ev : Instr) : (s.sched due phase ev).migrations = s.migrations := rfl
@[simp] theorem State.sched_forwards (s : State) (due phase : Nat) (ev : Instr) : (s.sched due phase ev).forwards = s.forwards := rfl
@[simp] theorem State.sched_retries (s : State) (due phase : Nat) (ev : Instr) : (s.sched due phase ev).retries = s.retries := rfl
@[simp] theorem State.sched_saveAreas (s : State) (due phase : Nat) (ev : Instr) : (s.sched due phase ev).saveAreas = s.saveAreas := rfl
@[simp] theorem State.sched_invals (s : State) (due phase : Nat) (ev : Instr) : (s.sched due phase ev).invals = s.invals := rfl
@[simp] theorem State.sched_groups (s : State) (due phase : Nat) (ev : Instr) : (s.sched due phase ev).groups = s.groups := rfl
@[simp] theorem State.sched_links (s : State) (due phase : Nat) (ev : Instr) : (s.sched due phase ev).links = s.links := rfl
@[simp] theorem State.sched_host (s : State) (due phase : Nat) (ev : Instr) : (s.sched due phase ev).host = s.host := rfl
@[simp] theorem State.sched_ep4 (s : State) (due phase : Nat) (ev : Instr) : (s.sched due phase ev).ep4 = s.ep4 := rfl
@[simp] theorem State.sched_mgmt (s : State) (due phase : Nat) (ev : Instr) : (s.sched due phase ev).mgmt = s.mgmt := rfl
@[simp] theorem State.sched_bx (s : State) (due phase : Nat) (ev : Instr) : (s.sched due phase ev).bx = s.bx := rfl
@[simp] theorem State.sched_stopped (s : State) (due phase : Nat) (ev : Instr) : (s.sched due phase ev).stopped = s.stopped := rfl
@[simp] theorem State.sched_nextId (s : State) (due phase : Nat) (ev : Instr) : (s.sched due phase ev).nextId = s.nextId := rfl
@[simp] theorem State.sched_order (s : State) (due phase : Nat) (ev : Instr) : (s.sched due phase ev).order = s.order := rfl
@[simp] theorem State.sched_nextFrame (s : State) (due phase : Nat) (ev : Instr) : (s.sched due phase ev).nextFrame = s.nextFrame := rfl

/-! ### State.schedInp -/

@[simp] theorem State.schedInp_stc (s : State) (due phase : Nat) (ev : Instr) (inp : Input) : (s.schedInp due phase ev inp).stc = s.stc := rfl
@[simp] theorem State.schedInp_pkg (s : State) (due phase : Nat) (ev : Instr) (inp : Input) : (s.schedInp due phase ev inp).pkg = s.pkg := rfl
@[simp] theorem State.schedInp_nPkg (s : State) (due phase : Nat) (ev : Instr) (inp : Input) : (s.schedInp due phase ev inp).nPkg = s.nPkg := rfl
@[simp] theorem State.schedInp_turn (s : State) (due phase : Nat) (ev : Instr) (inp : Input) : (s.schedInp due phase ev inp).turn = s.turn := rfl
@[simp] theorem State.schedInp_inp (s : State) (due phase : Nat) (ev : Instr) (inp : Input) : (s.schedInp due phase ev inp).inp = s.inp := rfl
@[simp] theorem State.schedInp_freeCtr (s : State) (due phase : Nat) (ev : Instr) (inp : Input) : (s.schedInp due phase ev inp).freeCtr = s.freeCtr := rfl
@[simp] theorem State.schedInp_dram (s : State) (due phase : Nat) (ev : Instr) (inp : Input) : (s.schedInp due phase ev inp).dram = s.dram := rfl
@[simp] theorem State.schedInp_cores (s : State) (due phase : Nat) (ev : Instr) (inp : Input) : (s.schedInp due phase ev inp).cores = s.cores := rfl
@[simp] theorem State.schedInp_dies (s : State) (due phase : Nat) (ev : Instr) (inp : Input) : (s.schedInp due phase ev inp).dies = s.dies := rfl
@[simp] theorem State.schedInp_ctxs (s : State) (due phase : Nat) (ev : Instr) (inp : Input) : (s.schedInp due phase ev inp).ctxs = s.ctxs := rfl
@[simp] theorem State.schedInp_launches (s : State) (due phase : Nat) (ev : Instr) (inp : Input) : (s.schedInp due phase ev inp).launches = s.launches := rfl
@[simp] theorem State.schedInp_recs (s : State) (due phase : Nat) (ev : Instr) (inp : Input) : (s.schedInp due phase ev inp).recs = s.recs := rfl
@[simp] theorem State.schedInp_windows (s : State) (due phase : Nat) (ev : Instr) (inp : Input) : (s.schedInp due phase ev inp).windows = s.windows := rfl
@[simp] theorem State.schedInp_teams (s : State) (due phase : Nat) (ev : Instr) (inp : Input) : (s.schedInp due phase ev inp).teams = s.teams := rfl
@[simp] theorem State.schedInp_barriers (s : State) (due phase : Nat) (ev : Instr) (inp : Input) : (s.schedInp due phase ev inp).barriers = s.barriers := rfl
@[simp] theorem State.schedInp_ht (s : State) (due phase : Nat) (ev : Instr) (inp : Input) : (s.schedInp due phase ev inp).ht = s.ht := rfl
@[simp] theorem State.schedInp_dir (s : State) (due phase : Nat) (ev : Instr) (inp : Input) : (s.schedInp due phase ev inp).dir = s.dir := rfl
@[simp] theorem State.schedInp_publishes (s : State) (due phase : Nat) (ev : Instr) (inp : Input) : (s.schedInp due phase ev inp).publishes = s.publishes := rfl
@[simp] theorem State.schedInp_sentLin (s : State) (due phase : Nat) (ev : Instr) (inp : Input) : (s.schedInp due phase ev inp).sentLin = s.sentLin := rfl
@[simp] theorem State.schedInp_heldPubs (s : State) (due phase : Nat) (ev : Instr) (inp : Input) : (s.schedInp due phase ev inp).heldPubs = s.heldPubs := rfl
@[simp] theorem State.schedInp_rwins (s : State) (due phase : Nat) (ev : Instr) (inp : Input) : (s.schedInp due phase ev inp).rwins = s.rwins := rfl
@[simp] theorem State.schedInp_contribs (s : State) (due phase : Nat) (ev : Instr) (inp : Input) : (s.schedInp due phase ev inp).contribs = s.contribs := rfl
@[simp] theorem State.schedInp_daus (s : State) (due phase : Nat) (ev : Instr) (inp : Input) : (s.schedInp due phase ev inp).daus = s.daus := rfl
@[simp] theorem State.schedInp_damos (s : State) (due phase : Nat) (ev : Instr) (inp : Input) : (s.schedInp due phase ev inp).damos = s.damos := rfl
@[simp] theorem State.schedInp_pairs (s : State) (due phase : Nat) (ev : Instr) (inp : Input) : (s.schedInp due phase ev inp).pairs = s.pairs := rfl
@[simp] theorem State.schedInp_bridgeBuf (s : State) (due phase : Nat) (ev : Instr) (inp : Input) : (s.schedInp due phase ev inp).bridgeBuf = s.bridgeBuf := rfl
@[simp] theorem State.schedInp_unitSeq (s : State) (due phase : Nat) (ev : Instr) (inp : Input) : (s.schedInp due phase ev inp).unitSeq = s.unitSeq := rfl
@[simp] theorem State.schedInp_packets (s : State) (due phase : Nat) (ev : Instr) (inp : Input) : (s.schedInp due phase ev inp).packets = s.packets := rfl
@[simp] theorem State.schedInp_ringLast (s : State) (due phase : Nat) (ev : Instr) (inp : Input) : (s.schedInp due phase ev inp).ringLast = s.ringLast := rfl
@[simp] theorem State.schedInp_cut (s : State) (due phase : Nat) (ev : Instr) (inp : Input) : (s.schedInp due phase ev inp).cut = s.cut := rfl
@[simp] theorem State.schedInp_deliveries (s : State) (due phase : Nat) (ev : Instr) (inp : Input) : (s.schedInp due phase ev inp).deliveries = s.deliveries := rfl
@[simp] theorem State.schedInp_floors (s : State) (due phase : Nat) (ev : Instr) (inp : Input) : (s.schedInp due phase ev inp).floors = s.floors := rfl
@[simp] theorem State.schedInp_rackCut (s : State) (due phase : Nat) (ev : Instr) (inp : Input) : (s.schedInp due phase ev inp).rackCut = s.rackCut := rfl
@[simp] theorem State.schedInp_exports (s : State) (due phase : Nat) (ev : Instr) (inp : Input) : (s.schedInp due phase ev inp).exports = s.exports := rfl
@[simp] theorem State.schedInp_rtc (s : State) (due phase : Nat) (ev : Instr) (inp : Input) : (s.schedInp due phase ev inp).rtc = s.rtc := rfl
@[simp] theorem State.schedInp_migrations (s : State) (due phase : Nat) (ev : Instr) (inp : Input) : (s.schedInp due phase ev inp).migrations = s.migrations := rfl
@[simp] theorem State.schedInp_forwards (s : State) (due phase : Nat) (ev : Instr) (inp : Input) : (s.schedInp due phase ev inp).forwards = s.forwards := rfl
@[simp] theorem State.schedInp_retries (s : State) (due phase : Nat) (ev : Instr) (inp : Input) : (s.schedInp due phase ev inp).retries = s.retries := rfl
@[simp] theorem State.schedInp_saveAreas (s : State) (due phase : Nat) (ev : Instr) (inp : Input) : (s.schedInp due phase ev inp).saveAreas = s.saveAreas := rfl
@[simp] theorem State.schedInp_invals (s : State) (due phase : Nat) (ev : Instr) (inp : Input) : (s.schedInp due phase ev inp).invals = s.invals := rfl
@[simp] theorem State.schedInp_groups (s : State) (due phase : Nat) (ev : Instr) (inp : Input) : (s.schedInp due phase ev inp).groups = s.groups := rfl
@[simp] theorem State.schedInp_links (s : State) (due phase : Nat) (ev : Instr) (inp : Input) : (s.schedInp due phase ev inp).links = s.links := rfl
@[simp] theorem State.schedInp_host (s : State) (due phase : Nat) (ev : Instr) (inp : Input) : (s.schedInp due phase ev inp).host = s.host := rfl
@[simp] theorem State.schedInp_ep4 (s : State) (due phase : Nat) (ev : Instr) (inp : Input) : (s.schedInp due phase ev inp).ep4 = s.ep4 := rfl
@[simp] theorem State.schedInp_mgmt (s : State) (due phase : Nat) (ev : Instr) (inp : Input) : (s.schedInp due phase ev inp).mgmt = s.mgmt := rfl
@[simp] theorem State.schedInp_bx (s : State) (due phase : Nat) (ev : Instr) (inp : Input) : (s.schedInp due phase ev inp).bx = s.bx := rfl
@[simp] theorem State.schedInp_stopped (s : State) (due phase : Nat) (ev : Instr) (inp : Input) : (s.schedInp due phase ev inp).stopped = s.stopped := rfl
@[simp] theorem State.schedInp_nextId (s : State) (due phase : Nat) (ev : Instr) (inp : Input) : (s.schedInp due phase ev inp).nextId = s.nextId := rfl
@[simp] theorem State.schedInp_order (s : State) (due phase : Nat) (ev : Instr) (inp : Input) : (s.schedInp due phase ev inp).order = s.order := rfl
@[simp] theorem State.schedInp_nextFrame (s : State) (due phase : Nat) (ev : Instr) (inp : Input) : (s.schedInp due phase ev inp).nextFrame = s.nextFrame := rfl

/-! ### State.unsched -/

@[simp] theorem State.unsched_stc (s : State) (p : Instr → Bool) : (s.unsched p).stc = s.stc := rfl
@[simp] theorem State.unsched_pkg (s : State) (p : Instr → Bool) : (s.unsched p).pkg = s.pkg := rfl
@[simp] theorem State.unsched_nPkg (s : State) (p : Instr → Bool) : (s.unsched p).nPkg = s.nPkg := rfl
@[simp] theorem State.unsched_turn (s : State) (p : Instr → Bool) : (s.unsched p).turn = s.turn := rfl
@[simp] theorem State.unsched_inp (s : State) (p : Instr → Bool) : (s.unsched p).inp = s.inp := rfl
@[simp] theorem State.unsched_freeCtr (s : State) (p : Instr → Bool) : (s.unsched p).freeCtr = s.freeCtr := rfl
@[simp] theorem State.unsched_dram (s : State) (p : Instr → Bool) : (s.unsched p).dram = s.dram := rfl
@[simp] theorem State.unsched_cores (s : State) (p : Instr → Bool) : (s.unsched p).cores = s.cores := rfl
@[simp] theorem State.unsched_dies (s : State) (p : Instr → Bool) : (s.unsched p).dies = s.dies := rfl
@[simp] theorem State.unsched_ctxs (s : State) (p : Instr → Bool) : (s.unsched p).ctxs = s.ctxs := rfl
@[simp] theorem State.unsched_launches (s : State) (p : Instr → Bool) : (s.unsched p).launches = s.launches := rfl
@[simp] theorem State.unsched_recs (s : State) (p : Instr → Bool) : (s.unsched p).recs = s.recs := rfl
@[simp] theorem State.unsched_windows (s : State) (p : Instr → Bool) : (s.unsched p).windows = s.windows := rfl
@[simp] theorem State.unsched_teams (s : State) (p : Instr → Bool) : (s.unsched p).teams = s.teams := rfl
@[simp] theorem State.unsched_barriers (s : State) (p : Instr → Bool) : (s.unsched p).barriers = s.barriers := rfl
@[simp] theorem State.unsched_ht (s : State) (p : Instr → Bool) : (s.unsched p).ht = s.ht := rfl
@[simp] theorem State.unsched_dir (s : State) (p : Instr → Bool) : (s.unsched p).dir = s.dir := rfl
@[simp] theorem State.unsched_publishes (s : State) (p : Instr → Bool) : (s.unsched p).publishes = s.publishes := rfl
@[simp] theorem State.unsched_sentLin (s : State) (p : Instr → Bool) : (s.unsched p).sentLin = s.sentLin := rfl
@[simp] theorem State.unsched_heldPubs (s : State) (p : Instr → Bool) : (s.unsched p).heldPubs = s.heldPubs := rfl
@[simp] theorem State.unsched_rwins (s : State) (p : Instr → Bool) : (s.unsched p).rwins = s.rwins := rfl
@[simp] theorem State.unsched_contribs (s : State) (p : Instr → Bool) : (s.unsched p).contribs = s.contribs := rfl
@[simp] theorem State.unsched_daus (s : State) (p : Instr → Bool) : (s.unsched p).daus = s.daus := rfl
@[simp] theorem State.unsched_damos (s : State) (p : Instr → Bool) : (s.unsched p).damos = s.damos := rfl
@[simp] theorem State.unsched_pairs (s : State) (p : Instr → Bool) : (s.unsched p).pairs = s.pairs := rfl
@[simp] theorem State.unsched_bridgeBuf (s : State) (p : Instr → Bool) : (s.unsched p).bridgeBuf = s.bridgeBuf := rfl
@[simp] theorem State.unsched_unitSeq (s : State) (p : Instr → Bool) : (s.unsched p).unitSeq = s.unitSeq := rfl
@[simp] theorem State.unsched_packets (s : State) (p : Instr → Bool) : (s.unsched p).packets = s.packets := rfl
@[simp] theorem State.unsched_ringLast (s : State) (p : Instr → Bool) : (s.unsched p).ringLast = s.ringLast := rfl
@[simp] theorem State.unsched_cut (s : State) (p : Instr → Bool) : (s.unsched p).cut = s.cut := rfl
@[simp] theorem State.unsched_deliveries (s : State) (p : Instr → Bool) : (s.unsched p).deliveries = s.deliveries := rfl
@[simp] theorem State.unsched_floors (s : State) (p : Instr → Bool) : (s.unsched p).floors = s.floors := rfl
@[simp] theorem State.unsched_rackCut (s : State) (p : Instr → Bool) : (s.unsched p).rackCut = s.rackCut := rfl
@[simp] theorem State.unsched_exports (s : State) (p : Instr → Bool) : (s.unsched p).exports = s.exports := rfl
@[simp] theorem State.unsched_rtc (s : State) (p : Instr → Bool) : (s.unsched p).rtc = s.rtc := rfl
@[simp] theorem State.unsched_migrations (s : State) (p : Instr → Bool) : (s.unsched p).migrations = s.migrations := rfl
@[simp] theorem State.unsched_forwards (s : State) (p : Instr → Bool) : (s.unsched p).forwards = s.forwards := rfl
@[simp] theorem State.unsched_retries (s : State) (p : Instr → Bool) : (s.unsched p).retries = s.retries := rfl
@[simp] theorem State.unsched_saveAreas (s : State) (p : Instr → Bool) : (s.unsched p).saveAreas = s.saveAreas := rfl
@[simp] theorem State.unsched_invals (s : State) (p : Instr → Bool) : (s.unsched p).invals = s.invals := rfl
@[simp] theorem State.unsched_groups (s : State) (p : Instr → Bool) : (s.unsched p).groups = s.groups := rfl
@[simp] theorem State.unsched_links (s : State) (p : Instr → Bool) : (s.unsched p).links = s.links := rfl
@[simp] theorem State.unsched_host (s : State) (p : Instr → Bool) : (s.unsched p).host = s.host := rfl
@[simp] theorem State.unsched_ep4 (s : State) (p : Instr → Bool) : (s.unsched p).ep4 = s.ep4 := rfl
@[simp] theorem State.unsched_mgmt (s : State) (p : Instr → Bool) : (s.unsched p).mgmt = s.mgmt := rfl
@[simp] theorem State.unsched_bx (s : State) (p : Instr → Bool) : (s.unsched p).bx = s.bx := rfl
@[simp] theorem State.unsched_stopped (s : State) (p : Instr → Bool) : (s.unsched p).stopped = s.stopped := rfl
@[simp] theorem State.unsched_nextId (s : State) (p : Instr → Bool) : (s.unsched p).nextId = s.nextId := rfl
@[simp] theorem State.unsched_order (s : State) (p : Instr → Bool) : (s.unsched p).order = s.order := rfl
@[simp] theorem State.unsched_nextFrame (s : State) (p : Instr → Bool) : (s.unsched p).nextFrame = s.nextFrame := rfl

/-! ### State.begun -/

@[simp] theorem State.begun_stc (s : State) (k : Kind) (c : Core) : (s.begun k c).stc = s.stc := rfl
@[simp] theorem State.begun_pkg (s : State) (k : Kind) (c : Core) : (s.begun k c).pkg = s.pkg := rfl
@[simp] theorem State.begun_nPkg (s : State) (k : Kind) (c : Core) : (s.begun k c).nPkg = s.nPkg := rfl
@[simp] theorem State.begun_turn (s : State) (k : Kind) (c : Core) : (s.begun k c).turn = s.turn := rfl
@[simp] theorem State.begun_inp (s : State) (k : Kind) (c : Core) : (s.begun k c).inp = s.inp := rfl
@[simp] theorem State.begun_agenda (s : State) (k : Kind) (c : Core) : (s.begun k c).agenda = s.agenda := rfl
@[simp] theorem State.begun_freeCtr (s : State) (k : Kind) (c : Core) : (s.begun k c).freeCtr = s.freeCtr := rfl
@[simp] theorem State.begun_dram (s : State) (k : Kind) (c : Core) : (s.begun k c).dram = s.dram := rfl
@[simp] theorem State.begun_dies (s : State) (k : Kind) (c : Core) : (s.begun k c).dies = s.dies := rfl
@[simp] theorem State.begun_ctxs (s : State) (k : Kind) (c : Core) : (s.begun k c).ctxs = s.ctxs := rfl
@[simp] theorem State.begun_launches (s : State) (k : Kind) (c : Core) : (s.begun k c).launches = s.launches := rfl
@[simp] theorem State.begun_recs (s : State) (k : Kind) (c : Core) : (s.begun k c).recs = s.recs := rfl
@[simp] theorem State.begun_windows (s : State) (k : Kind) (c : Core) : (s.begun k c).windows = s.windows := rfl
@[simp] theorem State.begun_teams (s : State) (k : Kind) (c : Core) : (s.begun k c).teams = s.teams := rfl
@[simp] theorem State.begun_barriers (s : State) (k : Kind) (c : Core) : (s.begun k c).barriers = s.barriers := rfl
@[simp] theorem State.begun_ht (s : State) (k : Kind) (c : Core) : (s.begun k c).ht = s.ht := rfl
@[simp] theorem State.begun_dir (s : State) (k : Kind) (c : Core) : (s.begun k c).dir = s.dir := rfl
@[simp] theorem State.begun_publishes (s : State) (k : Kind) (c : Core) : (s.begun k c).publishes = s.publishes := rfl
@[simp] theorem State.begun_sentLin (s : State) (k : Kind) (c : Core) : (s.begun k c).sentLin = s.sentLin := rfl
@[simp] theorem State.begun_heldPubs (s : State) (k : Kind) (c : Core) : (s.begun k c).heldPubs = s.heldPubs := rfl
@[simp] theorem State.begun_rwins (s : State) (k : Kind) (c : Core) : (s.begun k c).rwins = s.rwins := rfl
@[simp] theorem State.begun_contribs (s : State) (k : Kind) (c : Core) : (s.begun k c).contribs = s.contribs := rfl
@[simp] theorem State.begun_daus (s : State) (k : Kind) (c : Core) : (s.begun k c).daus = s.daus := rfl
@[simp] theorem State.begun_damos (s : State) (k : Kind) (c : Core) : (s.begun k c).damos = s.damos := rfl
@[simp] theorem State.begun_pairs (s : State) (k : Kind) (c : Core) : (s.begun k c).pairs = s.pairs := rfl
@[simp] theorem State.begun_bridgeBuf (s : State) (k : Kind) (c : Core) : (s.begun k c).bridgeBuf = s.bridgeBuf := rfl
@[simp] theorem State.begun_unitSeq (s : State) (k : Kind) (c : Core) : (s.begun k c).unitSeq = s.unitSeq := rfl
@[simp] theorem State.begun_packets (s : State) (k : Kind) (c : Core) : (s.begun k c).packets = s.packets := rfl
@[simp] theorem State.begun_ringLast (s : State) (k : Kind) (c : Core) : (s.begun k c).ringLast = s.ringLast := rfl
@[simp] theorem State.begun_cut (s : State) (k : Kind) (c : Core) : (s.begun k c).cut = s.cut := rfl
@[simp] theorem State.begun_deliveries (s : State) (k : Kind) (c : Core) : (s.begun k c).deliveries = s.deliveries := rfl
@[simp] theorem State.begun_floors (s : State) (k : Kind) (c : Core) : (s.begun k c).floors = s.floors := rfl
@[simp] theorem State.begun_rackCut (s : State) (k : Kind) (c : Core) : (s.begun k c).rackCut = s.rackCut := rfl
@[simp] theorem State.begun_exports (s : State) (k : Kind) (c : Core) : (s.begun k c).exports = s.exports := rfl
@[simp] theorem State.begun_rtc (s : State) (k : Kind) (c : Core) : (s.begun k c).rtc = s.rtc := rfl
@[simp] theorem State.begun_migrations (s : State) (k : Kind) (c : Core) : (s.begun k c).migrations = s.migrations := rfl
@[simp] theorem State.begun_forwards (s : State) (k : Kind) (c : Core) : (s.begun k c).forwards = s.forwards := rfl
@[simp] theorem State.begun_retries (s : State) (k : Kind) (c : Core) : (s.begun k c).retries = s.retries := rfl
@[simp] theorem State.begun_saveAreas (s : State) (k : Kind) (c : Core) : (s.begun k c).saveAreas = s.saveAreas := rfl
@[simp] theorem State.begun_invals (s : State) (k : Kind) (c : Core) : (s.begun k c).invals = s.invals := rfl
@[simp] theorem State.begun_groups (s : State) (k : Kind) (c : Core) : (s.begun k c).groups = s.groups := rfl
@[simp] theorem State.begun_links (s : State) (k : Kind) (c : Core) : (s.begun k c).links = s.links := rfl
@[simp] theorem State.begun_host (s : State) (k : Kind) (c : Core) : (s.begun k c).host = s.host := rfl
@[simp] theorem State.begun_ep4 (s : State) (k : Kind) (c : Core) : (s.begun k c).ep4 = s.ep4 := rfl
@[simp] theorem State.begun_mgmt (s : State) (k : Kind) (c : Core) : (s.begun k c).mgmt = s.mgmt := rfl
@[simp] theorem State.begun_bx (s : State) (k : Kind) (c : Core) : (s.begun k c).bx = s.bx := rfl
@[simp] theorem State.begun_stopped (s : State) (k : Kind) (c : Core) : (s.begun k c).stopped = s.stopped := rfl
@[simp] theorem State.begun_nextId (s : State) (k : Kind) (c : Core) : (s.begun k c).nextId = s.nextId := rfl
@[simp] theorem State.begun_order (s : State) (k : Kind) (c : Core) : (s.begun k c).order = s.order := rfl
@[simp] theorem State.begun_nextFrame (s : State) (k : Kind) (c : Core) : (s.begun k c).nextFrame = s.nextFrame := rfl

/-! ### State.finishIssue -/

@[simp] theorem State.finishIssue_stc (s : State) (k : Kind) (n : Nat) (r : Option (Option (BitVec 14))) (d : BitVec 14) : (s.finishIssue k n r d).stc = s.stc := rfl
@[simp] theorem State.finishIssue_pkg (s : State) (k : Kind) (n : Nat) (r : Option (Option (BitVec 14))) (d : BitVec 14) : (s.finishIssue k n r d).pkg = s.pkg := rfl
@[simp] theorem State.finishIssue_nPkg (s : State) (k : Kind) (n : Nat) (r : Option (Option (BitVec 14))) (d : BitVec 14) : (s.finishIssue k n r d).nPkg = s.nPkg := rfl
@[simp] theorem State.finishIssue_turn (s : State) (k : Kind) (n : Nat) (r : Option (Option (BitVec 14))) (d : BitVec 14) : (s.finishIssue k n r d).turn = s.turn := rfl
@[simp] theorem State.finishIssue_inp (s : State) (k : Kind) (n : Nat) (r : Option (Option (BitVec 14))) (d : BitVec 14) : (s.finishIssue k n r d).inp = s.inp := rfl
@[simp] theorem State.finishIssue_agenda (s : State) (k : Kind) (n : Nat) (r : Option (Option (BitVec 14))) (d : BitVec 14) : (s.finishIssue k n r d).agenda = s.agenda := rfl
@[simp] theorem State.finishIssue_freeCtr (s : State) (k : Kind) (n : Nat) (r : Option (Option (BitVec 14))) (d : BitVec 14) : (s.finishIssue k n r d).freeCtr = s.freeCtr := rfl
@[simp] theorem State.finishIssue_dram (s : State) (k : Kind) (n : Nat) (r : Option (Option (BitVec 14))) (d : BitVec 14) : (s.finishIssue k n r d).dram = s.dram := rfl
@[simp] theorem State.finishIssue_dies (s : State) (k : Kind) (n : Nat) (r : Option (Option (BitVec 14))) (d : BitVec 14) : (s.finishIssue k n r d).dies = s.dies := rfl
@[simp] theorem State.finishIssue_ctxs (s : State) (k : Kind) (n : Nat) (r : Option (Option (BitVec 14))) (d : BitVec 14) : (s.finishIssue k n r d).ctxs = s.ctxs := rfl
@[simp] theorem State.finishIssue_launches (s : State) (k : Kind) (n : Nat) (r : Option (Option (BitVec 14))) (d : BitVec 14) : (s.finishIssue k n r d).launches = s.launches := rfl
@[simp] theorem State.finishIssue_recs (s : State) (k : Kind) (n : Nat) (r : Option (Option (BitVec 14))) (d : BitVec 14) : (s.finishIssue k n r d).recs = s.recs := rfl
@[simp] theorem State.finishIssue_windows (s : State) (k : Kind) (n : Nat) (r : Option (Option (BitVec 14))) (d : BitVec 14) : (s.finishIssue k n r d).windows = s.windows := rfl
@[simp] theorem State.finishIssue_teams (s : State) (k : Kind) (n : Nat) (r : Option (Option (BitVec 14))) (d : BitVec 14) : (s.finishIssue k n r d).teams = s.teams := rfl
@[simp] theorem State.finishIssue_barriers (s : State) (k : Kind) (n : Nat) (r : Option (Option (BitVec 14))) (d : BitVec 14) : (s.finishIssue k n r d).barriers = s.barriers := rfl
@[simp] theorem State.finishIssue_ht (s : State) (k : Kind) (n : Nat) (r : Option (Option (BitVec 14))) (d : BitVec 14) : (s.finishIssue k n r d).ht = s.ht := rfl
@[simp] theorem State.finishIssue_dir (s : State) (k : Kind) (n : Nat) (r : Option (Option (BitVec 14))) (d : BitVec 14) : (s.finishIssue k n r d).dir = s.dir := rfl
@[simp] theorem State.finishIssue_publishes (s : State) (k : Kind) (n : Nat) (r : Option (Option (BitVec 14))) (d : BitVec 14) : (s.finishIssue k n r d).publishes = s.publishes := rfl
@[simp] theorem State.finishIssue_sentLin (s : State) (k : Kind) (n : Nat) (r : Option (Option (BitVec 14))) (d : BitVec 14) : (s.finishIssue k n r d).sentLin = s.sentLin := rfl
@[simp] theorem State.finishIssue_heldPubs (s : State) (k : Kind) (n : Nat) (r : Option (Option (BitVec 14))) (d : BitVec 14) : (s.finishIssue k n r d).heldPubs = s.heldPubs := rfl
@[simp] theorem State.finishIssue_rwins (s : State) (k : Kind) (n : Nat) (r : Option (Option (BitVec 14))) (d : BitVec 14) : (s.finishIssue k n r d).rwins = s.rwins := rfl
@[simp] theorem State.finishIssue_contribs (s : State) (k : Kind) (n : Nat) (r : Option (Option (BitVec 14))) (d : BitVec 14) : (s.finishIssue k n r d).contribs = s.contribs := rfl
@[simp] theorem State.finishIssue_daus (s : State) (k : Kind) (n : Nat) (r : Option (Option (BitVec 14))) (d : BitVec 14) : (s.finishIssue k n r d).daus = s.daus := rfl
@[simp] theorem State.finishIssue_damos (s : State) (k : Kind) (n : Nat) (r : Option (Option (BitVec 14))) (d : BitVec 14) : (s.finishIssue k n r d).damos = s.damos := rfl
@[simp] theorem State.finishIssue_pairs (s : State) (k : Kind) (n : Nat) (r : Option (Option (BitVec 14))) (d : BitVec 14) : (s.finishIssue k n r d).pairs = s.pairs := rfl
@[simp] theorem State.finishIssue_bridgeBuf (s : State) (k : Kind) (n : Nat) (r : Option (Option (BitVec 14))) (d : BitVec 14) : (s.finishIssue k n r d).bridgeBuf = s.bridgeBuf := rfl
@[simp] theorem State.finishIssue_unitSeq (s : State) (k : Kind) (n : Nat) (r : Option (Option (BitVec 14))) (d : BitVec 14) : (s.finishIssue k n r d).unitSeq = s.unitSeq := rfl
@[simp] theorem State.finishIssue_packets (s : State) (k : Kind) (n : Nat) (r : Option (Option (BitVec 14))) (d : BitVec 14) : (s.finishIssue k n r d).packets = s.packets := rfl
@[simp] theorem State.finishIssue_ringLast (s : State) (k : Kind) (n : Nat) (r : Option (Option (BitVec 14))) (d : BitVec 14) : (s.finishIssue k n r d).ringLast = s.ringLast := rfl
@[simp] theorem State.finishIssue_cut (s : State) (k : Kind) (n : Nat) (r : Option (Option (BitVec 14))) (d : BitVec 14) : (s.finishIssue k n r d).cut = s.cut := rfl
@[simp] theorem State.finishIssue_deliveries (s : State) (k : Kind) (n : Nat) (r : Option (Option (BitVec 14))) (d : BitVec 14) : (s.finishIssue k n r d).deliveries = s.deliveries := rfl
@[simp] theorem State.finishIssue_floors (s : State) (k : Kind) (n : Nat) (r : Option (Option (BitVec 14))) (d : BitVec 14) : (s.finishIssue k n r d).floors = s.floors := rfl
@[simp] theorem State.finishIssue_rackCut (s : State) (k : Kind) (n : Nat) (r : Option (Option (BitVec 14))) (d : BitVec 14) : (s.finishIssue k n r d).rackCut = s.rackCut := rfl
@[simp] theorem State.finishIssue_exports (s : State) (k : Kind) (n : Nat) (r : Option (Option (BitVec 14))) (d : BitVec 14) : (s.finishIssue k n r d).exports = s.exports := rfl
@[simp] theorem State.finishIssue_rtc (s : State) (k : Kind) (n : Nat) (r : Option (Option (BitVec 14))) (d : BitVec 14) : (s.finishIssue k n r d).rtc = s.rtc := rfl
@[simp] theorem State.finishIssue_migrations (s : State) (k : Kind) (n : Nat) (r : Option (Option (BitVec 14))) (d : BitVec 14) : (s.finishIssue k n r d).migrations = s.migrations := rfl
@[simp] theorem State.finishIssue_forwards (s : State) (k : Kind) (n : Nat) (r : Option (Option (BitVec 14))) (d : BitVec 14) : (s.finishIssue k n r d).forwards = s.forwards := rfl
@[simp] theorem State.finishIssue_retries (s : State) (k : Kind) (n : Nat) (r : Option (Option (BitVec 14))) (d : BitVec 14) : (s.finishIssue k n r d).retries = s.retries := rfl
@[simp] theorem State.finishIssue_saveAreas (s : State) (k : Kind) (n : Nat) (r : Option (Option (BitVec 14))) (d : BitVec 14) : (s.finishIssue k n r d).saveAreas = s.saveAreas := rfl
@[simp] theorem State.finishIssue_invals (s : State) (k : Kind) (n : Nat) (r : Option (Option (BitVec 14))) (d : BitVec 14) : (s.finishIssue k n r d).invals = s.invals := rfl
@[simp] theorem State.finishIssue_groups (s : State) (k : Kind) (n : Nat) (r : Option (Option (BitVec 14))) (d : BitVec 14) : (s.finishIssue k n r d).groups = s.groups := rfl
@[simp] theorem State.finishIssue_links (s : State) (k : Kind) (n : Nat) (r : Option (Option (BitVec 14))) (d : BitVec 14) : (s.finishIssue k n r d).links = s.links := rfl
@[simp] theorem State.finishIssue_host (s : State) (k : Kind) (n : Nat) (r : Option (Option (BitVec 14))) (d : BitVec 14) : (s.finishIssue k n r d).host = s.host := rfl
@[simp] theorem State.finishIssue_ep4 (s : State) (k : Kind) (n : Nat) (r : Option (Option (BitVec 14))) (d : BitVec 14) : (s.finishIssue k n r d).ep4 = s.ep4 := rfl
@[simp] theorem State.finishIssue_mgmt (s : State) (k : Kind) (n : Nat) (r : Option (Option (BitVec 14))) (d : BitVec 14) : (s.finishIssue k n r d).mgmt = s.mgmt := rfl
@[simp] theorem State.finishIssue_bx (s : State) (k : Kind) (n : Nat) (r : Option (Option (BitVec 14))) (d : BitVec 14) : (s.finishIssue k n r d).bx = s.bx := rfl
@[simp] theorem State.finishIssue_stopped (s : State) (k : Kind) (n : Nat) (r : Option (Option (BitVec 14))) (d : BitVec 14) : (s.finishIssue k n r d).stopped = s.stopped := rfl
@[simp] theorem State.finishIssue_nextId (s : State) (k : Kind) (n : Nat) (r : Option (Option (BitVec 14))) (d : BitVec 14) : (s.finishIssue k n r d).nextId = s.nextId := rfl
@[simp] theorem State.finishIssue_order (s : State) (k : Kind) (n : Nat) (r : Option (Option (BitVec 14))) (d : BitVec 14) : (s.finishIssue k n r d).order = s.order := rfl
@[simp] theorem State.finishIssue_nextFrame (s : State) (k : Kind) (n : Nat) (r : Option (Option (BitVec 14))) (d : BitVec 14) : (s.finishIssue k n r d).nextFrame = s.nextFrame := rfl

/-! ### State.wr -/

@[simp] theorem State.wr_stc (s : State) (lat : Nat) (d : RegF) (v : Word) : (s.wr lat d v).stc = s.stc := rfl
@[simp] theorem State.wr_pkg (s : State) (lat : Nat) (d : RegF) (v : Word) : (s.wr lat d v).pkg = s.pkg := rfl
@[simp] theorem State.wr_nPkg (s : State) (lat : Nat) (d : RegF) (v : Word) : (s.wr lat d v).nPkg = s.nPkg := rfl
@[simp] theorem State.wr_turn (s : State) (lat : Nat) (d : RegF) (v : Word) : (s.wr lat d v).turn = s.turn := rfl
@[simp] theorem State.wr_inp (s : State) (lat : Nat) (d : RegF) (v : Word) : (s.wr lat d v).inp = s.inp := rfl
@[simp] theorem State.wr_agenda (s : State) (lat : Nat) (d : RegF) (v : Word) : (s.wr lat d v).agenda = s.agenda := rfl
@[simp] theorem State.wr_freeCtr (s : State) (lat : Nat) (d : RegF) (v : Word) : (s.wr lat d v).freeCtr = s.freeCtr := rfl
@[simp] theorem State.wr_dram (s : State) (lat : Nat) (d : RegF) (v : Word) : (s.wr lat d v).dram = s.dram := rfl
@[simp] theorem State.wr_dies (s : State) (lat : Nat) (d : RegF) (v : Word) : (s.wr lat d v).dies = s.dies := rfl
@[simp] theorem State.wr_ctxs (s : State) (lat : Nat) (d : RegF) (v : Word) : (s.wr lat d v).ctxs = s.ctxs := rfl
@[simp] theorem State.wr_launches (s : State) (lat : Nat) (d : RegF) (v : Word) : (s.wr lat d v).launches = s.launches := rfl
@[simp] theorem State.wr_recs (s : State) (lat : Nat) (d : RegF) (v : Word) : (s.wr lat d v).recs = s.recs := rfl
@[simp] theorem State.wr_windows (s : State) (lat : Nat) (d : RegF) (v : Word) : (s.wr lat d v).windows = s.windows := rfl
@[simp] theorem State.wr_teams (s : State) (lat : Nat) (d : RegF) (v : Word) : (s.wr lat d v).teams = s.teams := rfl
@[simp] theorem State.wr_barriers (s : State) (lat : Nat) (d : RegF) (v : Word) : (s.wr lat d v).barriers = s.barriers := rfl
@[simp] theorem State.wr_ht (s : State) (lat : Nat) (d : RegF) (v : Word) : (s.wr lat d v).ht = s.ht := rfl
@[simp] theorem State.wr_dir (s : State) (lat : Nat) (d : RegF) (v : Word) : (s.wr lat d v).dir = s.dir := rfl
@[simp] theorem State.wr_publishes (s : State) (lat : Nat) (d : RegF) (v : Word) : (s.wr lat d v).publishes = s.publishes := rfl
@[simp] theorem State.wr_sentLin (s : State) (lat : Nat) (d : RegF) (v : Word) : (s.wr lat d v).sentLin = s.sentLin := rfl
@[simp] theorem State.wr_heldPubs (s : State) (lat : Nat) (d : RegF) (v : Word) : (s.wr lat d v).heldPubs = s.heldPubs := rfl
@[simp] theorem State.wr_rwins (s : State) (lat : Nat) (d : RegF) (v : Word) : (s.wr lat d v).rwins = s.rwins := rfl
@[simp] theorem State.wr_contribs (s : State) (lat : Nat) (d : RegF) (v : Word) : (s.wr lat d v).contribs = s.contribs := rfl
@[simp] theorem State.wr_daus (s : State) (lat : Nat) (d : RegF) (v : Word) : (s.wr lat d v).daus = s.daus := rfl
@[simp] theorem State.wr_damos (s : State) (lat : Nat) (d : RegF) (v : Word) : (s.wr lat d v).damos = s.damos := rfl
@[simp] theorem State.wr_pairs (s : State) (lat : Nat) (d : RegF) (v : Word) : (s.wr lat d v).pairs = s.pairs := rfl
@[simp] theorem State.wr_bridgeBuf (s : State) (lat : Nat) (d : RegF) (v : Word) : (s.wr lat d v).bridgeBuf = s.bridgeBuf := rfl
@[simp] theorem State.wr_unitSeq (s : State) (lat : Nat) (d : RegF) (v : Word) : (s.wr lat d v).unitSeq = s.unitSeq := rfl
@[simp] theorem State.wr_packets (s : State) (lat : Nat) (d : RegF) (v : Word) : (s.wr lat d v).packets = s.packets := rfl
@[simp] theorem State.wr_ringLast (s : State) (lat : Nat) (d : RegF) (v : Word) : (s.wr lat d v).ringLast = s.ringLast := rfl
@[simp] theorem State.wr_cut (s : State) (lat : Nat) (d : RegF) (v : Word) : (s.wr lat d v).cut = s.cut := rfl
@[simp] theorem State.wr_deliveries (s : State) (lat : Nat) (d : RegF) (v : Word) : (s.wr lat d v).deliveries = s.deliveries := rfl
@[simp] theorem State.wr_floors (s : State) (lat : Nat) (d : RegF) (v : Word) : (s.wr lat d v).floors = s.floors := rfl
@[simp] theorem State.wr_rackCut (s : State) (lat : Nat) (d : RegF) (v : Word) : (s.wr lat d v).rackCut = s.rackCut := rfl
@[simp] theorem State.wr_exports (s : State) (lat : Nat) (d : RegF) (v : Word) : (s.wr lat d v).exports = s.exports := rfl
@[simp] theorem State.wr_rtc (s : State) (lat : Nat) (d : RegF) (v : Word) : (s.wr lat d v).rtc = s.rtc := rfl
@[simp] theorem State.wr_migrations (s : State) (lat : Nat) (d : RegF) (v : Word) : (s.wr lat d v).migrations = s.migrations := rfl
@[simp] theorem State.wr_forwards (s : State) (lat : Nat) (d : RegF) (v : Word) : (s.wr lat d v).forwards = s.forwards := rfl
@[simp] theorem State.wr_retries (s : State) (lat : Nat) (d : RegF) (v : Word) : (s.wr lat d v).retries = s.retries := rfl
@[simp] theorem State.wr_saveAreas (s : State) (lat : Nat) (d : RegF) (v : Word) : (s.wr lat d v).saveAreas = s.saveAreas := rfl
@[simp] theorem State.wr_invals (s : State) (lat : Nat) (d : RegF) (v : Word) : (s.wr lat d v).invals = s.invals := rfl
@[simp] theorem State.wr_groups (s : State) (lat : Nat) (d : RegF) (v : Word) : (s.wr lat d v).groups = s.groups := rfl
@[simp] theorem State.wr_links (s : State) (lat : Nat) (d : RegF) (v : Word) : (s.wr lat d v).links = s.links := rfl
@[simp] theorem State.wr_host (s : State) (lat : Nat) (d : RegF) (v : Word) : (s.wr lat d v).host = s.host := rfl
@[simp] theorem State.wr_ep4 (s : State) (lat : Nat) (d : RegF) (v : Word) : (s.wr lat d v).ep4 = s.ep4 := rfl
@[simp] theorem State.wr_mgmt (s : State) (lat : Nat) (d : RegF) (v : Word) : (s.wr lat d v).mgmt = s.mgmt := rfl
@[simp] theorem State.wr_bx (s : State) (lat : Nat) (d : RegF) (v : Word) : (s.wr lat d v).bx = s.bx := rfl
@[simp] theorem State.wr_stopped (s : State) (lat : Nat) (d : RegF) (v : Word) : (s.wr lat d v).stopped = s.stopped := rfl
@[simp] theorem State.wr_nextId (s : State) (lat : Nat) (d : RegF) (v : Word) : (s.wr lat d v).nextId = s.nextId := rfl
@[simp] theorem State.wr_order (s : State) (lat : Nat) (d : RegF) (v : Word) : (s.wr lat d v).order = s.order := rfl
@[simp] theorem State.wr_nextFrame (s : State) (lat : Nat) (d : RegF) (v : Word) : (s.wr lat d v).nextFrame = s.nextFrame := rfl

/-! ### State.setAudit -/

@[simp] theorem State.setAudit_stc (s : State) (n : Nat) : (s.setAudit n).stc = s.stc := rfl
@[simp] theorem State.setAudit_pkg (s : State) (n : Nat) : (s.setAudit n).pkg = s.pkg := rfl
@[simp] theorem State.setAudit_nPkg (s : State) (n : Nat) : (s.setAudit n).nPkg = s.nPkg := rfl
@[simp] theorem State.setAudit_turn (s : State) (n : Nat) : (s.setAudit n).turn = s.turn := rfl
@[simp] theorem State.setAudit_inp (s : State) (n : Nat) : (s.setAudit n).inp = s.inp := rfl
@[simp] theorem State.setAudit_agenda (s : State) (n : Nat) : (s.setAudit n).agenda = s.agenda := rfl
@[simp] theorem State.setAudit_freeCtr (s : State) (n : Nat) : (s.setAudit n).freeCtr = s.freeCtr := rfl
@[simp] theorem State.setAudit_dram (s : State) (n : Nat) : (s.setAudit n).dram = s.dram := rfl
@[simp] theorem State.setAudit_dies (s : State) (n : Nat) : (s.setAudit n).dies = s.dies := rfl
@[simp] theorem State.setAudit_ctxs (s : State) (n : Nat) : (s.setAudit n).ctxs = s.ctxs := rfl
@[simp] theorem State.setAudit_launches (s : State) (n : Nat) : (s.setAudit n).launches = s.launches := rfl
@[simp] theorem State.setAudit_recs (s : State) (n : Nat) : (s.setAudit n).recs = s.recs := rfl
@[simp] theorem State.setAudit_windows (s : State) (n : Nat) : (s.setAudit n).windows = s.windows := rfl
@[simp] theorem State.setAudit_teams (s : State) (n : Nat) : (s.setAudit n).teams = s.teams := rfl
@[simp] theorem State.setAudit_barriers (s : State) (n : Nat) : (s.setAudit n).barriers = s.barriers := rfl
@[simp] theorem State.setAudit_ht (s : State) (n : Nat) : (s.setAudit n).ht = s.ht := rfl
@[simp] theorem State.setAudit_dir (s : State) (n : Nat) : (s.setAudit n).dir = s.dir := rfl
@[simp] theorem State.setAudit_publishes (s : State) (n : Nat) : (s.setAudit n).publishes = s.publishes := rfl
@[simp] theorem State.setAudit_sentLin (s : State) (n : Nat) : (s.setAudit n).sentLin = s.sentLin := rfl
@[simp] theorem State.setAudit_heldPubs (s : State) (n : Nat) : (s.setAudit n).heldPubs = s.heldPubs := rfl
@[simp] theorem State.setAudit_rwins (s : State) (n : Nat) : (s.setAudit n).rwins = s.rwins := rfl
@[simp] theorem State.setAudit_contribs (s : State) (n : Nat) : (s.setAudit n).contribs = s.contribs := rfl
@[simp] theorem State.setAudit_daus (s : State) (n : Nat) : (s.setAudit n).daus = s.daus := rfl
@[simp] theorem State.setAudit_damos (s : State) (n : Nat) : (s.setAudit n).damos = s.damos := rfl
@[simp] theorem State.setAudit_pairs (s : State) (n : Nat) : (s.setAudit n).pairs = s.pairs := rfl
@[simp] theorem State.setAudit_bridgeBuf (s : State) (n : Nat) : (s.setAudit n).bridgeBuf = s.bridgeBuf := rfl
@[simp] theorem State.setAudit_unitSeq (s : State) (n : Nat) : (s.setAudit n).unitSeq = s.unitSeq := rfl
@[simp] theorem State.setAudit_packets (s : State) (n : Nat) : (s.setAudit n).packets = s.packets := rfl
@[simp] theorem State.setAudit_ringLast (s : State) (n : Nat) : (s.setAudit n).ringLast = s.ringLast := rfl
@[simp] theorem State.setAudit_cut (s : State) (n : Nat) : (s.setAudit n).cut = s.cut := rfl
@[simp] theorem State.setAudit_deliveries (s : State) (n : Nat) : (s.setAudit n).deliveries = s.deliveries := rfl
@[simp] theorem State.setAudit_floors (s : State) (n : Nat) : (s.setAudit n).floors = s.floors := rfl
@[simp] theorem State.setAudit_rackCut (s : State) (n : Nat) : (s.setAudit n).rackCut = s.rackCut := rfl
@[simp] theorem State.setAudit_exports (s : State) (n : Nat) : (s.setAudit n).exports = s.exports := rfl
@[simp] theorem State.setAudit_rtc (s : State) (n : Nat) : (s.setAudit n).rtc = s.rtc := rfl
@[simp] theorem State.setAudit_migrations (s : State) (n : Nat) : (s.setAudit n).migrations = s.migrations := rfl
@[simp] theorem State.setAudit_forwards (s : State) (n : Nat) : (s.setAudit n).forwards = s.forwards := rfl
@[simp] theorem State.setAudit_retries (s : State) (n : Nat) : (s.setAudit n).retries = s.retries := rfl
@[simp] theorem State.setAudit_saveAreas (s : State) (n : Nat) : (s.setAudit n).saveAreas = s.saveAreas := rfl
@[simp] theorem State.setAudit_invals (s : State) (n : Nat) : (s.setAudit n).invals = s.invals := rfl
@[simp] theorem State.setAudit_groups (s : State) (n : Nat) : (s.setAudit n).groups = s.groups := rfl
@[simp] theorem State.setAudit_links (s : State) (n : Nat) : (s.setAudit n).links = s.links := rfl
@[simp] theorem State.setAudit_host (s : State) (n : Nat) : (s.setAudit n).host = s.host := rfl
@[simp] theorem State.setAudit_ep4 (s : State) (n : Nat) : (s.setAudit n).ep4 = s.ep4 := rfl
@[simp] theorem State.setAudit_mgmt (s : State) (n : Nat) : (s.setAudit n).mgmt = s.mgmt := rfl
@[simp] theorem State.setAudit_bx (s : State) (n : Nat) : (s.setAudit n).bx = s.bx := rfl
@[simp] theorem State.setAudit_stopped (s : State) (n : Nat) : (s.setAudit n).stopped = s.stopped := rfl
@[simp] theorem State.setAudit_nextId (s : State) (n : Nat) : (s.setAudit n).nextId = s.nextId := rfl
@[simp] theorem State.setAudit_order (s : State) (n : Nat) : (s.setAudit n).order = s.order := rfl
@[simp] theorem State.setAudit_nextFrame (s : State) (n : Nat) : (s.setAudit n).nextFrame = s.nextFrame := rfl

/-! ### State.settled -/

@[simp] theorem State.settled_stc (s : State) : s.settled.stc = s.stc := rfl
@[simp] theorem State.settled_pkg (s : State) : s.settled.pkg = s.pkg := rfl
@[simp] theorem State.settled_nPkg (s : State) : s.settled.nPkg = s.nPkg := rfl
@[simp] theorem State.settled_turn (s : State) : s.settled.turn = s.turn := rfl
@[simp] theorem State.settled_inp (s : State) : s.settled.inp = s.inp := rfl
@[simp] theorem State.settled_agenda (s : State) : s.settled.agenda = s.agenda := rfl
@[simp] theorem State.settled_freeCtr (s : State) : s.settled.freeCtr = s.freeCtr := rfl
@[simp] theorem State.settled_dram (s : State) : s.settled.dram = s.dram := rfl
@[simp] theorem State.settled_dies (s : State) : s.settled.dies = s.dies := rfl
@[simp] theorem State.settled_ctxs (s : State) : s.settled.ctxs = s.ctxs := rfl
@[simp] theorem State.settled_launches (s : State) : s.settled.launches = s.launches := rfl
@[simp] theorem State.settled_recs (s : State) : s.settled.recs = s.recs := rfl
@[simp] theorem State.settled_windows (s : State) : s.settled.windows = s.windows := rfl
@[simp] theorem State.settled_teams (s : State) : s.settled.teams = s.teams := rfl
@[simp] theorem State.settled_barriers (s : State) : s.settled.barriers = s.barriers := rfl
@[simp] theorem State.settled_ht (s : State) : s.settled.ht = s.ht := rfl
@[simp] theorem State.settled_dir (s : State) : s.settled.dir = s.dir := rfl
@[simp] theorem State.settled_publishes (s : State) : s.settled.publishes = s.publishes := rfl
@[simp] theorem State.settled_sentLin (s : State) : s.settled.sentLin = s.sentLin := rfl
@[simp] theorem State.settled_heldPubs (s : State) : s.settled.heldPubs = s.heldPubs := rfl
@[simp] theorem State.settled_rwins (s : State) : s.settled.rwins = s.rwins := rfl
@[simp] theorem State.settled_contribs (s : State) : s.settled.contribs = s.contribs := rfl
@[simp] theorem State.settled_daus (s : State) : s.settled.daus = s.daus := rfl
@[simp] theorem State.settled_damos (s : State) : s.settled.damos = s.damos := rfl
@[simp] theorem State.settled_pairs (s : State) : s.settled.pairs = s.pairs := rfl
@[simp] theorem State.settled_bridgeBuf (s : State) : s.settled.bridgeBuf = s.bridgeBuf := rfl
@[simp] theorem State.settled_unitSeq (s : State) : s.settled.unitSeq = s.unitSeq := rfl
@[simp] theorem State.settled_packets (s : State) : s.settled.packets = s.packets := rfl
@[simp] theorem State.settled_ringLast (s : State) : s.settled.ringLast = s.ringLast := rfl
@[simp] theorem State.settled_cut (s : State) : s.settled.cut = s.cut := rfl
@[simp] theorem State.settled_deliveries (s : State) : s.settled.deliveries = s.deliveries := rfl
@[simp] theorem State.settled_floors (s : State) : s.settled.floors = s.floors := rfl
@[simp] theorem State.settled_rackCut (s : State) : s.settled.rackCut = s.rackCut := rfl
@[simp] theorem State.settled_exports (s : State) : s.settled.exports = s.exports := rfl
@[simp] theorem State.settled_rtc (s : State) : s.settled.rtc = s.rtc := rfl
@[simp] theorem State.settled_migrations (s : State) : s.settled.migrations = s.migrations := rfl
@[simp] theorem State.settled_forwards (s : State) : s.settled.forwards = s.forwards := rfl
@[simp] theorem State.settled_retries (s : State) : s.settled.retries = s.retries := rfl
@[simp] theorem State.settled_saveAreas (s : State) : s.settled.saveAreas = s.saveAreas := rfl
@[simp] theorem State.settled_invals (s : State) : s.settled.invals = s.invals := rfl
@[simp] theorem State.settled_groups (s : State) : s.settled.groups = s.groups := rfl
@[simp] theorem State.settled_links (s : State) : s.settled.links = s.links := rfl
@[simp] theorem State.settled_host (s : State) : s.settled.host = s.host := rfl
@[simp] theorem State.settled_ep4 (s : State) : s.settled.ep4 = s.ep4 := rfl
@[simp] theorem State.settled_mgmt (s : State) : s.settled.mgmt = s.mgmt := rfl
@[simp] theorem State.settled_bx (s : State) : s.settled.bx = s.bx := rfl
@[simp] theorem State.settled_stopped (s : State) : s.settled.stopped = s.stopped := rfl
@[simp] theorem State.settled_nextId (s : State) : s.settled.nextId = s.nextId := rfl
@[simp] theorem State.settled_order (s : State) : s.settled.order = s.order := rfl
@[simp] theorem State.settled_nextFrame (s : State) : s.settled.nextFrame = s.nextFrame := rfl

/-! ### Drawing a latency that the manual leaves open -/

@[simp] theorem State.drawLat_stc (s : State) : s.drawLat.2.stc = s.stc := rfl
@[simp] theorem State.drawLat_pkg (s : State) : s.drawLat.2.pkg = s.pkg := rfl
@[simp] theorem State.drawLat_nPkg (s : State) : s.drawLat.2.nPkg = s.nPkg := rfl
@[simp] theorem State.drawLat_turn (s : State) : s.drawLat.2.turn = s.turn := rfl
@[simp] theorem State.drawLat_inp (s : State) : s.drawLat.2.inp = s.inp := rfl
@[simp] theorem State.drawLat_agenda (s : State) : s.drawLat.2.agenda = s.agenda := rfl
@[simp] theorem State.drawLat_dram (s : State) : s.drawLat.2.dram = s.dram := rfl
@[simp] theorem State.drawLat_cores (s : State) : s.drawLat.2.cores = s.cores := rfl
@[simp] theorem State.drawLat_dies (s : State) : s.drawLat.2.dies = s.dies := rfl
@[simp] theorem State.drawLat_ctxs (s : State) : s.drawLat.2.ctxs = s.ctxs := rfl
@[simp] theorem State.drawLat_launches (s : State) : s.drawLat.2.launches = s.launches := rfl
@[simp] theorem State.drawLat_recs (s : State) : s.drawLat.2.recs = s.recs := rfl
@[simp] theorem State.drawLat_windows (s : State) : s.drawLat.2.windows = s.windows := rfl
@[simp] theorem State.drawLat_teams (s : State) : s.drawLat.2.teams = s.teams := rfl
@[simp] theorem State.drawLat_barriers (s : State) : s.drawLat.2.barriers = s.barriers := rfl
@[simp] theorem State.drawLat_ht (s : State) : s.drawLat.2.ht = s.ht := rfl
@[simp] theorem State.drawLat_dir (s : State) : s.drawLat.2.dir = s.dir := rfl
@[simp] theorem State.drawLat_publishes (s : State) : s.drawLat.2.publishes = s.publishes := rfl
@[simp] theorem State.drawLat_sentLin (s : State) : s.drawLat.2.sentLin = s.sentLin := rfl
@[simp] theorem State.drawLat_heldPubs (s : State) : s.drawLat.2.heldPubs = s.heldPubs := rfl
@[simp] theorem State.drawLat_rwins (s : State) : s.drawLat.2.rwins = s.rwins := rfl
@[simp] theorem State.drawLat_contribs (s : State) : s.drawLat.2.contribs = s.contribs := rfl
@[simp] theorem State.drawLat_daus (s : State) : s.drawLat.2.daus = s.daus := rfl
@[simp] theorem State.drawLat_damos (s : State) : s.drawLat.2.damos = s.damos := rfl
@[simp] theorem State.drawLat_pairs (s : State) : s.drawLat.2.pairs = s.pairs := rfl
@[simp] theorem State.drawLat_bridgeBuf (s : State) : s.drawLat.2.bridgeBuf = s.bridgeBuf := rfl
@[simp] theorem State.drawLat_unitSeq (s : State) : s.drawLat.2.unitSeq = s.unitSeq := rfl
@[simp] theorem State.drawLat_packets (s : State) : s.drawLat.2.packets = s.packets := rfl
@[simp] theorem State.drawLat_ringLast (s : State) : s.drawLat.2.ringLast = s.ringLast := rfl
@[simp] theorem State.drawLat_cut (s : State) : s.drawLat.2.cut = s.cut := rfl
@[simp] theorem State.drawLat_deliveries (s : State) : s.drawLat.2.deliveries = s.deliveries := rfl
@[simp] theorem State.drawLat_floors (s : State) : s.drawLat.2.floors = s.floors := rfl
@[simp] theorem State.drawLat_rackCut (s : State) : s.drawLat.2.rackCut = s.rackCut := rfl
@[simp] theorem State.drawLat_exports (s : State) : s.drawLat.2.exports = s.exports := rfl
@[simp] theorem State.drawLat_rtc (s : State) : s.drawLat.2.rtc = s.rtc := rfl
@[simp] theorem State.drawLat_migrations (s : State) : s.drawLat.2.migrations = s.migrations := rfl
@[simp] theorem State.drawLat_forwards (s : State) : s.drawLat.2.forwards = s.forwards := rfl
@[simp] theorem State.drawLat_retries (s : State) : s.drawLat.2.retries = s.retries := rfl
@[simp] theorem State.drawLat_saveAreas (s : State) : s.drawLat.2.saveAreas = s.saveAreas := rfl
@[simp] theorem State.drawLat_invals (s : State) : s.drawLat.2.invals = s.invals := rfl
@[simp] theorem State.drawLat_groups (s : State) : s.drawLat.2.groups = s.groups := rfl
@[simp] theorem State.drawLat_links (s : State) : s.drawLat.2.links = s.links := rfl
@[simp] theorem State.drawLat_host (s : State) : s.drawLat.2.host = s.host := rfl
@[simp] theorem State.drawLat_ep4 (s : State) : s.drawLat.2.ep4 = s.ep4 := rfl
@[simp] theorem State.drawLat_mgmt (s : State) : s.drawLat.2.mgmt = s.mgmt := rfl
@[simp] theorem State.drawLat_bx (s : State) : s.drawLat.2.bx = s.bx := rfl
@[simp] theorem State.drawLat_stopped (s : State) : s.drawLat.2.stopped = s.stopped := rfl
@[simp] theorem State.drawLat_nextId (s : State) : s.drawLat.2.nextId = s.nextId := rfl
@[simp] theorem State.drawLat_order (s : State) : s.drawLat.2.order = s.order := rfl
@[simp] theorem State.drawLat_nextFrame (s : State) : s.drawLat.2.nextFrame = s.nextFrame := rfl

/-! ### Core.later and Core.emit -/

@[simp] theorem Core.later_c (c : Core) (due : Nat) (e : Eff) : (c.later due e).c = c.c := rfl
@[simp] theorem Core.later_l (c : Core) (due : Nat) (e : Eff) : (c.later due e).l = c.l := rfl
@[simp] theorem Core.later_x (c : Core) (due : Nat) (e : Eff) : (c.later due e).x = c.x := rfl
@[simp] theorem Core.later_s (c : Core) (due : Nat) (e : Eff) : (c.later due e).s = c.s := rfl
@[simp] theorem Core.later_sys (c : Core) (due : Nat) (e : Eff) : (c.later due e).sys = c.sys := rfl
@[simp] theorem Core.later_vec (c : Core) (due : Nat) (e : Eff) : (c.later due e).vec = c.vec := rfl
@[simp] theorem Core.later_q (c : Core) (due : Nat) (e : Eff) : (c.later due e).q = c.q := rfl
@[simp] theorem Core.later_mx (c : Core) (due : Nat) (e : Eff) : (c.later due e).mx = c.mx := rfl
@[simp] theorem Core.later_spm (c : Core) (due : Nat) (e : Eff) : (c.later due e).spm = c.spm := rfl
@[simp] theorem Core.later_reqs (c : Core) (due : Nat) (e : Eff) : (c.later due e).reqs = c.reqs := rfl
@[simp] theorem Core.later_code (c : Core) (due : Nat) (e : Eff) : (c.later due e).code = c.code := rfl
@[simp] theorem Core.later_cmds (c : Core) (due : Nat) (e : Eff) : (c.later due e).cmds = c.cmds := rfl
@[simp] theorem Core.later_eng (c : Core) (due : Nat) (e : Eff) : (c.later due e).eng = c.eng := rfl
@[simp] theorem Core.later_tsk (c : Core) (due : Nat) (e : Eff) : (c.later due e).tsk = c.tsk := rfl
@[simp] theorem Core.later_nextCmd (c : Core) (due : Nat) (e : Eff) : (c.later due e).nextCmd = c.nextCmd := rfl

/-! ### Core.setSeq -/

@[simp] theorem Core.setSeq_sys (c : Core) (q : Seq) (x : SeqSt) : (c.setSeq q x).sys = c.sys := by cases q <;> rfl
@[simp] theorem Core.modSeq_sys (c : Core) (q : Seq) (g : SeqSt → SeqSt) : (c.modSeq q g).sys = c.sys := by cases q <;> rfl
@[simp] theorem Core.modSeqs_sys (c : Core) (g : SeqSt → SeqSt) : (c.modSeqs g).sys = c.sys := rfl
@[simp] theorem Core.setSeq_vec (c : Core) (q : Seq) (x : SeqSt) : (c.setSeq q x).vec = c.vec := by cases q <;> rfl
@[simp] theorem Core.modSeq_vec (c : Core) (q : Seq) (g : SeqSt → SeqSt) : (c.modSeq q g).vec = c.vec := by cases q <;> rfl
@[simp] theorem Core.modSeqs_vec (c : Core) (g : SeqSt → SeqSt) : (c.modSeqs g).vec = c.vec := rfl
@[simp] theorem Core.setSeq_q (c : Core) (q : Seq) (x : SeqSt) : (c.setSeq q x).q = c.q := by cases q <;> rfl
@[simp] theorem Core.modSeq_q (c : Core) (q : Seq) (g : SeqSt → SeqSt) : (c.modSeq q g).q = c.q := by cases q <;> rfl
@[simp] theorem Core.modSeqs_q (c : Core) (g : SeqSt → SeqSt) : (c.modSeqs g).q = c.q := rfl
@[simp] theorem Core.setSeq_mx (c : Core) (q : Seq) (x : SeqSt) : (c.setSeq q x).mx = c.mx := by cases q <;> rfl
@[simp] theorem Core.modSeq_mx (c : Core) (q : Seq) (g : SeqSt → SeqSt) : (c.modSeq q g).mx = c.mx := by cases q <;> rfl
@[simp] theorem Core.modSeqs_mx (c : Core) (g : SeqSt → SeqSt) : (c.modSeqs g).mx = c.mx := rfl
@[simp] theorem Core.setSeq_spm (c : Core) (q : Seq) (x : SeqSt) : (c.setSeq q x).spm = c.spm := by cases q <;> rfl
@[simp] theorem Core.modSeq_spm (c : Core) (q : Seq) (g : SeqSt → SeqSt) : (c.modSeq q g).spm = c.spm := by cases q <;> rfl
@[simp] theorem Core.modSeqs_spm (c : Core) (g : SeqSt → SeqSt) : (c.modSeqs g).spm = c.spm := rfl
@[simp] theorem Core.setSeq_reqs (c : Core) (q : Seq) (x : SeqSt) : (c.setSeq q x).reqs = c.reqs := by cases q <;> rfl
@[simp] theorem Core.modSeq_reqs (c : Core) (q : Seq) (g : SeqSt → SeqSt) : (c.modSeq q g).reqs = c.reqs := by cases q <;> rfl
@[simp] theorem Core.modSeqs_reqs (c : Core) (g : SeqSt → SeqSt) : (c.modSeqs g).reqs = c.reqs := rfl
@[simp] theorem Core.setSeq_code (c : Core) (q : Seq) (x : SeqSt) : (c.setSeq q x).code = c.code := by cases q <;> rfl
@[simp] theorem Core.modSeq_code (c : Core) (q : Seq) (g : SeqSt → SeqSt) : (c.modSeq q g).code = c.code := by cases q <;> rfl
@[simp] theorem Core.modSeqs_code (c : Core) (g : SeqSt → SeqSt) : (c.modSeqs g).code = c.code := rfl
@[simp] theorem Core.setSeq_cmds (c : Core) (q : Seq) (x : SeqSt) : (c.setSeq q x).cmds = c.cmds := by cases q <;> rfl
@[simp] theorem Core.modSeq_cmds (c : Core) (q : Seq) (g : SeqSt → SeqSt) : (c.modSeq q g).cmds = c.cmds := by cases q <;> rfl
@[simp] theorem Core.modSeqs_cmds (c : Core) (g : SeqSt → SeqSt) : (c.modSeqs g).cmds = c.cmds := rfl
@[simp] theorem Core.setSeq_eng (c : Core) (q : Seq) (x : SeqSt) : (c.setSeq q x).eng = c.eng := by cases q <;> rfl
@[simp] theorem Core.modSeq_eng (c : Core) (q : Seq) (g : SeqSt → SeqSt) : (c.modSeq q g).eng = c.eng := by cases q <;> rfl
@[simp] theorem Core.modSeqs_eng (c : Core) (g : SeqSt → SeqSt) : (c.modSeqs g).eng = c.eng := rfl
@[simp] theorem Core.setSeq_tsk (c : Core) (q : Seq) (x : SeqSt) : (c.setSeq q x).tsk = c.tsk := by cases q <;> rfl
@[simp] theorem Core.modSeq_tsk (c : Core) (q : Seq) (g : SeqSt → SeqSt) : (c.modSeq q g).tsk = c.tsk := by cases q <;> rfl
@[simp] theorem Core.modSeqs_tsk (c : Core) (g : SeqSt → SeqSt) : (c.modSeqs g).tsk = c.tsk := rfl
@[simp] theorem Core.setSeq_pend (c : Core) (q : Seq) (x : SeqSt) : (c.setSeq q x).pend = c.pend := by cases q <;> rfl
@[simp] theorem Core.modSeq_pend (c : Core) (q : Seq) (g : SeqSt → SeqSt) : (c.modSeq q g).pend = c.pend := by cases q <;> rfl
@[simp] theorem Core.modSeqs_pend (c : Core) (g : SeqSt → SeqSt) : (c.modSeqs g).pend = c.pend := rfl
@[simp] theorem Core.setSeq_nextCmd (c : Core) (q : Seq) (x : SeqSt) : (c.setSeq q x).nextCmd = c.nextCmd := by cases q <;> rfl
@[simp] theorem Core.modSeq_nextCmd (c : Core) (q : Seq) (g : SeqSt → SeqSt) : (c.modSeq q g).nextCmd = c.nextCmd := by cases q <;> rfl
@[simp] theorem Core.modSeqs_nextCmd (c : Core) (g : SeqSt → SeqSt) : (c.modSeqs g).nextCmd = c.nextCmd := rfl

@[simp] theorem Core.setSeq_seq (c : Core) (q : Seq) (x : SeqSt) : (c.setSeq q x).seq q = x := by cases q <;> rfl
@[simp] theorem Core.modSeq_seq (c : Core) (q : Seq) (g : SeqSt → SeqSt) : (c.modSeq q g).seq q = g (c.seq q) := by cases q <;> rfl
theorem Core.setSeq_seq_ne (c : Core) (q r : Seq) (x : SeqSt) (h : r ≠ q) : (c.setSeq q x).seq r = c.seq r := by
  cases q <;> cases r <;> simp_all [Core.setSeq, Core.seq]
theorem Core.modSeq_seq_ne (c : Core) (q r : Seq) (g : SeqSt → SeqSt) (h : r ≠ q) : (c.modSeq q g).seq r = c.seq r :=
  Core.setSeq_seq_ne c q r _ h
@[simp] theorem Core.modSeqs_seq (c : Core) (q : Seq) (g : SeqSt → SeqSt) : (c.modSeqs g).seq q = g (c.seq q) := by
  cases q <;> rfl
@[simp] theorem Core.later_seq (c : Core) (due : Nat) (e : Eff) (q : Seq) : (c.later due e).seq q = c.seq q := by cases q <;> rfl


/-! ### Tables -/

/-- A table reads what was inserted. -/
@[simp] theorem SMap.get_ins {α : Type} (d x : α) (m : SMap α) (n : Nat) : SMap.get d (SMap.ins m n x) n = x := by
  induction m with
  | nil => simp [SMap.ins, SMap.get]
  | cons p t ih =>
    obtain ⟨k, v⟩ := p
    simp only [SMap.ins]
    split
    · simp [SMap.get]
    · split
      · simp [SMap.get]
      · rename_i h; simp [SMap.get, h, ih]

/-- An insertion leaves every other key. -/
theorem SMap.get_ins_ne {α : Type} (d x : α) (m : SMap α) (n j : Nat) (h : j ≠ n) :
    SMap.get d (SMap.ins m n x) j = SMap.get d m j := by
  induction m with
  | nil => simp [SMap.ins, SMap.get, h]
  | cons p t ih =>
    obtain ⟨k, v⟩ := p
    simp only [SMap.ins]
    split
    · simp [SMap.get, h]
    · split
      · rename_i e; subst e; simp [SMap.get, h]
      · simp only [SMap.get, ih]

/-- A deleted key reads as unlisted. -/
@[simp] theorem SMap.get_del {α : Type} (d : α) (m : SMap α) (n : Nat) : SMap.get d (SMap.del m n) n = d := by
  induction m with
  | nil => rfl
  | cons p t ih =>
    obtain ⟨k, v⟩ := p
    simp only [SMap.del]
    split
    · exact ih
    · rename_i h; simp [SMap.get, h, ih]

/-- A deletion leaves every other key. -/
theorem SMap.get_del_ne {α : Type} (d : α) (m : SMap α) (n j : Nat) (h : j ≠ n) :
    SMap.get d (SMap.del m n) j = SMap.get d m j := by
  induction m with
  | nil => rfl
  | cons p t ih =>
    obtain ⟨k, v⟩ := p
    simp only [SMap.del]
    split
    · rename_i e; subst e; simp [SMap.get, h, ih]
    · simp only [SMap.get, ih]

/-- A table reads what was written. -/
@[simp] theorem SMap.get_put {α : Type} [DecidableEq α] (d x : α) (m : SMap α) (n : Nat) :
    SMap.get d (SMap.put d m n x) n = x := by
  simp only [SMap.put]; split <;> simp_all

/-- A write leaves every other key. -/
theorem SMap.get_put_ne {α : Type} [DecidableEq α] (d x : α) (m : SMap α) (n j : Nat) (h : j ≠ n) :
    SMap.get d (SMap.put d m n x) j = SMap.get d m j := by
  simp only [SMap.put]; split
  · exact SMap.get_del_ne d m n j h
  · exact SMap.get_ins_ne d x m n j h

@[simp] theorem State.setCore_core (s : State) (n : Nat) (c : Core) : (s.setCore n c).core n = c := SMap.get_ins _ c s.cores n
theorem State.setCore_core_ne (s : State) (n m : Nat) (c : Core) (h : m ≠ n) : (s.setCore n c).core m = s.core m :=
  SMap.get_ins_ne _ c s.cores n m h
@[simp] theorem State.modCore_core (s : State) (n : Nat) (f : Core → Core) : (s.modCore n f).core n = f (s.core n) :=
  State.setCore_core s n _
theorem State.modCore_core_ne (s : State) (n m : Nat) (f : Core → Core) (h : m ≠ n) : (s.modCore n f).core m = s.core m :=
  State.setCore_core_ne s n m _ h
@[simp] theorem State.modCur_cur (s : State) (f : Core → Core) : (s.modCur f).cur = f s.cur := State.setCore_core s s.turn.core _
@[simp] theorem State.setCore_cur (s : State) (c : Core) : (s.setCore s.turn.core c).cur = c := State.setCore_core s s.turn.core c
@[simp] theorem State.settled_cur (s : State) : s.settled.cur = s.cur.settle s.stc := State.modCur_cur s _
@[simp] theorem State.setDie_die (s : State) (d : Nat) (x : Die) : (s.setDie d x).die d = x := SMap.get_ins _ x s.dies d
theorem State.setDie_die_ne (s : State) (d e : Nat) (x : Die) (h : e ≠ d) : (s.setDie d x).die e = s.die e :=
  SMap.get_ins_ne _ x s.dies d e h
@[simp] theorem State.sched_core (s : State) (due ph : Nat) (ev : Instr) (n : Nat) : (s.sched due ph ev).core n = s.core n := rfl
@[simp] theorem State.schedInp_core (s : State) (due ph : Nat) (ev : Instr) (i : Input) (n : Nat) :
    (s.schedInp due ph ev i).core n = s.core n := rfl
@[simp] theorem State.sched_die (s : State) (due ph : Nat) (ev : Instr) (n : Nat) : (s.sched due ph ev).die n = s.die n := rfl
@[simp] theorem State.schedInp_die (s : State) (due ph : Nat) (ev : Instr) (i : Input) (n : Nat) :
    (s.schedInp due ph ev i).die n = s.die n := rfl
@[simp] theorem SeqSt.setReg_reg (x : SeqSt) (r : Nat) (v : Word) : (x.setReg r v).reg r = v := SMap.get_put 0 v x.regs r
theorem SeqSt.setReg_reg_ne (x : SeqSt) (r k : Nat) (v : Word) (h : k ≠ r) : (x.setReg r v).reg k = x.reg k :=
  SMap.get_put_ne 0 v x.regs r k h

end Sys2Proof.Machine
end

