-- ==== Sys2Proof/Laws/Memory.lean ====
section
/-! SUPPORT. Memory keeps its canonical form under every operation on it, and what each operation leaves at every address. -/

namespace Sys2Proof.Machine

/-! ### Tables -/

theorem SMap.wfFrom_mono {α : Type} [DecidableEq α] {d : α} {lo lo' : Nat} {m : SMap α} (h : SMap.wfFrom d lo' m = true) (hl : lo ≤ lo') :
    SMap.wfFrom d lo m = true := by
  cases m with
  | nil => rfl
  | cons p t =>
    obtain ⟨k, v⟩ := p
    simp only [SMap.wfFrom, Bool.and_eq_true, decide_eq_true_eq] at h ⊢
    exact ⟨⟨by omega, h.1.2⟩, h.2⟩

theorem SMap.del_wfFrom {α : Type} [DecidableEq α] {d : α} {lo : Nat} {m : SMap α} (n : Nat) (h : SMap.wfFrom d lo m = true) :
    SMap.wfFrom d lo (SMap.del m n) = true := by
  induction m generalizing lo with
  | nil => rfl
  | cons p t ih =>
    obtain ⟨k, v⟩ := p
    simp only [SMap.wfFrom, Bool.and_eq_true, decide_eq_true_eq] at h
    simp only [SMap.del]
    split
    · exact SMap.wfFrom_mono (ih h.2) (by omega)
    · simp only [SMap.wfFrom, Bool.and_eq_true, decide_eq_true_eq]
      exact ⟨h.1, ih h.2⟩

theorem SMap.ins_wfFrom {α : Type} [DecidableEq α] {d x : α} {lo n : Nat} {m : SMap α} (hx : x ≠ d) (hn : lo ≤ n)
    (h : SMap.wfFrom d lo m = true) : SMap.wfFrom d lo (SMap.ins m n x) = true := by
  induction m generalizing lo with
  | nil => simp [SMap.ins, SMap.wfFrom, hx, hn]
  | cons p t ih =>
    obtain ⟨k, v⟩ := p
    simp only [SMap.wfFrom, Bool.and_eq_true, decide_eq_true_eq] at h
    simp only [SMap.ins]
    split
    · simp only [SMap.wfFrom, Bool.and_eq_true, decide_eq_true_eq]
      exact ⟨⟨hn, hx⟩, ⟨by omega, h.1.2⟩, h.2⟩
    · split
      · rename_i e
        simp only [SMap.wfFrom, Bool.and_eq_true, decide_eq_true_eq]
        exact ⟨⟨hn, hx⟩, e ▸ h.2⟩
      · simp only [SMap.wfFrom, Bool.and_eq_true, decide_eq_true_eq]
        exact ⟨h.1, ih (by omega) h.2⟩

theorem SMap.put_wf {α : Type} [DecidableEq α] {d x : α} {m : SMap α} (n : Nat) (h : SMap.wf d m = true) :
    SMap.wf d (SMap.put d m n x) = true := by
  simp only [SMap.put]
  split
  · exact SMap.del_wfFrom n h
  · rename_i hx
    exact SMap.ins_wfFrom hx (Nat.zero_le n) h

theorem SMap.filter_wfFrom {α : Type} [DecidableEq α] {d : α} {lo : Nat} {m : SMap α} (p : Nat × α → Bool)
    (h : SMap.wfFrom d lo m = true) : SMap.wfFrom d lo (m.filter p) = true := by
  induction m generalizing lo with
  | nil => rfl
  | cons c t ih =>
    obtain ⟨k, v⟩ := c
    simp only [SMap.wfFrom, Bool.and_eq_true, decide_eq_true_eq] at h
    simp only [List.filter_cons]
    split
    · simp only [SMap.wfFrom, Bool.and_eq_true, decide_eq_true_eq]
      exact ⟨h.1, ih h.2⟩
    · exact SMap.wfFrom_mono (ih h.2) (by omega)

theorem SMap.puts_wf {α β : Type} [DecidableEq α] {d : α} (l : List β) (k : β → Nat) (x : β → α) {m : SMap α} (h : SMap.wf d m = true) :
    SMap.wf d (l.foldl (fun m b => SMap.put d m (k b) (x b)) m) = true := by
  induction l generalizing m with
  | nil => exact h
  | cons b t ih => exact ih (SMap.put_wf (k b) h)

/-! ### Memory -/

theorem Memory.setByte_wf {m : List Host.Cell} (a : Nat) (b : Byte) (h : Memory.wf m = true) : Memory.wf (Memory.setByte m a b) = true :=
  SMap.put_wf a h

theorem Memory.setBytes_wf {m : List Host.Cell} (a : Nat) (bs : List Byte) (h : Memory.wf m = true) :
    Memory.wf (Memory.setBytes m a bs) = true := by
  induction bs generalizing m a with
  | nil => exact h
  | cons b t ih => exact ih (a + 1) (Memory.setByte_wf a b h)

theorem Memory.write_wf {m : List Host.Cell} (a n v : Nat) (h : Memory.wf m = true) : Memory.wf (Memory.write m a n v) = true :=
  Memory.setBytes_wf a _ h

theorem Memory.filter_wf {m : List Host.Cell} (p : Host.Cell → Bool) (h : Memory.wf m = true) : Memory.wf (m.filter p) = true :=
  SMap.filter_wfFrom p h

theorem Memory.zeroRange_wf {m : List Host.Cell} (a n : Nat) (h : Memory.wf m = true) : Memory.wf (Memory.zeroRange m a n) = true :=
  Memory.filter_wf _ h

theorem Memory.writes_wf {β : Type} (l : List β) (a : β → Nat) (n : Nat) (v : β → Nat) {m : List Host.Cell} (h : Memory.wf m = true) :
    Memory.wf (l.foldl (fun m b => Memory.write m (a b) n (v b)) m) = true := by
  induction l generalizing m with
  | nil => exact h
  | cons b t ih => exact ih (Memory.write_wf (a b) n (v b) h)

theorem State.reset_dram_wf : Memory.wf State.reset.dram = true := rfl

/-! ### What each operation leaves -/

@[simp] theorem Memory.setByte_byte (m : List Host.Cell) (a : Nat) (b : Byte) : Memory.byte (Memory.setByte m a b) a = b :=
  SMap.get_put _ b m a

theorem Memory.setByte_byte_ne (m : List Host.Cell) (a x : Nat) (b : Byte) (h : x ≠ a) :
    Memory.byte (Memory.setByte m a b) x = Memory.byte m x := SMap.get_put_ne _ b m a x h

/-- Bytes written from an address upward, and every other byte as it was. -/
theorem Memory.setBytes_byte (m : List Host.Cell) (a x : Nat) (bs : List Byte) :
    Memory.byte (Memory.setBytes m a bs) x = if a ≤ x ∧ x < a + bs.length then bs.getD (x - a) 0 else Memory.byte m x := by
  induction bs generalizing m a with
  | nil => simp only [Memory.setBytes, List.length_nil]; rw [if_neg (by omega)]
  | cons b t ih =>
    simp only [Memory.setBytes, ih, List.length_cons]
    by_cases e : x = a
    · subst e
      rw [if_neg (by omega), if_pos (by omega), Memory.setByte_byte]
      simp
    · by_cases hl : a + 1 ≤ x ∧ x < a + 1 + t.length
      · obtain ⟨k, rfl⟩ : ∃ k, x = a + 1 + k := ⟨x - (a + 1), by omega⟩
        rw [if_pos hl, if_pos (by omega)]
        rw [show a + 1 + k - a = k + 1 by omega, show a + 1 + k - (a + 1) = k by omega]
        rfl
      · rw [if_neg hl, if_neg (by omega), Memory.setByte_byte_ne m a x b e]

end Sys2Proof.Machine
end

