-- ==== Sys2Proof/Laws/Canonical.lean ====
section
/-! SUPPORT. Every shared operation on the state keeps memory in its canonical form: one lemma per operation, cited by the
operations above it. The lemmas' premises are their states' canonical memories; `State.Mem` names the form. -/

set_option Elab.async false

namespace Sys2Proof.Machine

/-- Memory stands in its canonical form. -/
def State.Mem (s : State) : Prop := Memory.wf s.dram = true

/-- What a word's own effect may answer keeps memory canonical. -/
def Res.Mem : Res → Prop
  | .done t | .whole t => t.Mem
  | .branch t _ | .skip t _ => t.Mem
  | .fail _ f | .hold f => ∀ t : State, t.Mem → (f t).Mem
  | .trap .. | .wait | .full => True

/-- So does the next state of a step. -/
def OutMem (o : Out) : Prop := ∀ u, o = .next u → u.Mem


theorem OutMem.next {t : State} (h : t.Mem) : OutMem (.next t) := fun _ e => by cases e; exact h
theorem Res.Mem.done {t : State} (h : t.Mem) : Res.Mem (.done t) := h
theorem Res.Mem.whole {t : State} (h : t.Mem) : Res.Mem (.whole t) := h
theorem Res.Mem.branch {t : State} {r : Option (BitVec 14)} (h : t.Mem) : Res.Mem (.branch t r) := h
theorem Res.Mem.skip {t : State} {g : BitVec 14} (h : t.Mem) : Res.Mem (.skip t g) := h
theorem Res.Mem.trap {c : Cause} {k : BitVec 10} {b : Bool} : Res.Mem (.trap c k b) := trivial
theorem Res.Mem.wait : Res.Mem .wait := trivial
theorem Res.Mem.full : Res.Mem .full := trivial
theorem Res.Mem.fail {c : Cause} {f : State → State} (h : ∀ t : State, t.Mem → (f t).Mem) : Res.Mem (.fail c f) := h
theorem Res.Mem.hold {f : State → State} (h : ∀ t : State, t.Mem → (f t).Mem) : Res.Mem (.hold f) := h

/-- To show p, show that memory stays canonical in s first. -/
theorem State.Mem.cut {p : Prop} (s : State) (k : s.Mem → p) (hs : s.Mem) : p := k hs
theorem State.Mem.cutF {p : Prop} (f : State → State) (k : (∀ t : State, t.Mem → (f t).Mem) → p) (hf : ∀ t : State, t.Mem → (f t).Mem) : p := k hf
theorem State.Mem.cutG {p : Prop} {α : Type} (f : α → State) (k : (∀ a, (f a).Mem) → p) (hf : ∀ a, (f a).Mem) : p := k hf

/-- Reset memory is canonical. -/
theorem State.reset_mem : State.reset.Mem := State.reset_dram_wf
theorem State.Mem.forUp {n : Nat} {f : Nat → State → State} {s : State} (hf : ∀ k t, State.Mem t → (f k t).Mem) (h : s.Mem) : (forUp n f s).Mem := by
  induction n with
  | zero => exact h
  | succ n ih => exact hf n _ ih
theorem State.Mem.foldl {α : Type} {f : State → α → State} {l : List α} {s : State} (hf : ∀ t a, State.Mem t → (f t a).Mem) (h : s.Mem) :
    (l.foldl f s).Mem := by
  induction l generalizing s with
  | nil => exact h
  | cons a t ih => exact ih (hf s a h)
theorem State.Mem.foldl2 {α β : Type} {f : β × State → α → β × State} {l : List α} {p : β × State}
    (hf : ∀ p a, State.Mem p.2 → (f p a).2.Mem) (h : p.2.Mem) : (l.foldl f p).2.Mem := by
  induction l generalizing p with
  | nil => exact h
  | cons a t ih => exact ih (hf p a h)

theorem State.schedInp_mem {x0 : State} {x1 x2 : Nat} {x3 : Instr} {x4 : Input} (h0 : x0.Mem) : State.Mem (State.schedInp x0 x1 x2 x3 x4) := by
  unfold State.schedInp
  repeat' first | with_reducible assumption | (change Memory.wf _ = true; dsimp only; change State.Mem _)

theorem State.setDie_mem {x0 : State} {x1 : Nat} {x2 : Die} (h0 : x0.Mem) : State.Mem (State.setDie x0 x1 x2) := by
  unfold State.setDie
  repeat' first | with_reducible assumption | (change Memory.wf _ = true; dsimp only; change State.Mem _)

theorem State.modDie_mem {x0 : State} {x1 : Nat} {x2 : Die → Die} (h0 : x0.Mem) : State.Mem (State.modDie x0 x1 x2) := by
  unfold State.modDie
  repeat' first | with_reducible assumption | with_reducible apply State.setDie_mem

theorem State.sched_mem {x0 : State} {x1 x2 : Nat} {x3 : Instr} (h0 : x0.Mem) : State.Mem (State.sched x0 x1 x2 x3) := by
  unfold State.sched
  repeat' first | with_reducible assumption | (change Memory.wf _ = true; dsimp only; change State.Mem _)

theorem State.dropWindows_mem {x0 : State} {x1 : Window → Bool} (h0 : x0.Mem) : State.Mem (State.dropWindows x0 x1) := by
  unfold State.dropWindows
  repeat' first | with_reducible assumption | refine fun _ _ (_ : State.Mem _) => ?_ | with_reducible apply State.schedInp_mem | with_reducible apply State.modDie_mem | with_reducible apply State.sched_mem | with_reducible apply State.Mem.foldl | (lift_lets; intro z; refine State.Mem.cut z (fun hz => ?_) ?_; rotate_left; subst z; rotate_right) | (lift_lets; intro _) | (intro z; refine State.Mem.cut z (fun hz => ?_) ?_; rotate_left; subst z; rotate_right) | split | (change Memory.wf _ = true; dsimp only; change State.Mem _)

theorem State.abortTest_mem {x0 : State} {x1 : Input} (h0 : x0.Mem) : State.Mem (State.abortTest x0 x1) := by
  unfold State.abortTest
  repeat' first | with_reducible assumption | with_reducible apply State.dropWindows_mem | with_reducible apply State.modDie_mem | with_reducible apply State.schedInp_mem | (lift_lets; intro _) | (intro z; refine State.Mem.cut z (fun hz => ?_) ?_; rotate_left; subst z; rotate_right) | split | (change Memory.wf _ = true; dsimp only; change State.Mem _)

theorem State.unitStamp_mem {x0 : State} {x1 x2 x3 : Nat} (h0 : x0.Mem) : State.Mem (State.unitStamp x0 x1 x2 x3).2 := by
  unfold State.unitStamp
  repeat' first | with_reducible assumption | (lift_lets; intro _) | intro _ | (change Memory.wf _ = true; dsimp only; change State.Mem _)
theorem State.unitStamp_mem' {x0 : State} {x1 : Nat} {x2 : Nat} {x3 : Nat} {y : Stamp} {t : State} (h0 : x0.Mem) (e : (State.unitStamp x0 x1 x2 x3) = (y, t)) :
    State.Mem t := by
  have : State.Mem (State.unitStamp x0 x1 x2 x3).2 := State.unitStamp_mem h0
  rw [e] at this
  exact this

theorem State.fresh_mem {x0 : State} (h0 : x0.Mem) : State.Mem (State.fresh x0).2 := by
  unfold State.fresh
  repeat' first | with_reducible assumption | (change Memory.wf _ = true; dsimp only; change State.Mem _)
theorem State.fresh_mem' {x0 : State} {y : Nat} {t : State} (h0 : x0.Mem) (e : (State.fresh x0) = (y, t)) :
    State.Mem t := by
  have : State.Mem (State.fresh x0).2 := State.fresh_mem h0
  rw [e] at this
  exact this

theorem State.refuseWrite_mem {x0 : State} {x1 : Nat} {x2 : List Byte} {x3 : Stamp} {x4 : Option (Nat × Nat)} {x5 : optParam (Option Nat) none} (h0 : x0.Mem) : State.Mem (State.refuseWrite x0 x1 x2 x3 x4 x5) := by
  unfold State.refuseWrite
  repeat' first | with_reducible assumption | (lift_lets; intro z; refine State.Mem.cut z (fun hz => ?_) ?_; rotate_left; subst z; rotate_right) | split | refine State.fresh_mem' ?_ (by assumption) | (change Memory.wf _ = true; dsimp only; change State.Mem _)

theorem State.setMigration_mem {x0 : State} {x1 : Migration} (h0 : x0.Mem) : State.Mem (State.setMigration x0 x1) := by
  unfold State.setMigration
  repeat' first | with_reducible assumption | (change Memory.wf _ = true; dsimp only; change State.Mem _)

theorem State.unpoison_mem {x0 : State} {x1 x2 : Nat} (h0 : x0.Mem) : State.Mem (State.unpoison x0 x1 x2) := by
  unfold State.unpoison
  repeat' first | with_reducible assumption | with_reducible apply State.modDie_mem | split

theorem State.dramPut_mem {x0 : State} {x1 : Nat} {x2 : Byte} (h0 : x0.Mem) : State.Mem (State.dramPut x0 x1 x2) := by
  unfold State.dramPut
  dsimp only
  split
  · exact State.modDie_mem h0
  · exact Memory.setByte_wf _ _ h0

theorem State.dramPutAll_mem {x0 : State} {x1 : Nat} {x2 : List Byte} (h0 : x0.Mem) : State.Mem (State.dramPutAll x0 x1 x2) := by
  induction x2 generalizing x0 x1 with
  | nil => exact h0
  | cons b t ih => exact ih (State.dramPut_mem h0)

theorem State.applyWrite_mem {x0 : State} {x1 : Nat} {x2 : List Byte} {x3 : Stamp} (h0 : x0.Mem) : State.Mem (State.applyWrite x0 x1 x2 x3) := by
  unfold State.applyWrite
  repeat' first | with_reducible assumption | with_reducible apply State.setMigration_mem | with_reducible apply State.modDie_mem | with_reducible apply State.unpoison_mem | with_reducible apply State.dramPutAll_mem | (lift_lets; intro z; refine State.Mem.cut z (fun hz => ?_) ?_; rotate_left; subst z; rotate_right) | (lift_lets; intro _) | (intro z; refine State.Mem.cut z (fun hz => ?_) ?_; rotate_left; subst z; rotate_right) | split

theorem State.deviceWrite_mem {x0 : State} {x1 : Nat} {x2 : List Byte} (h0 : x0.Mem) : State.Mem (State.deviceWrite x0 x1 x2) := by
  unfold State.deviceWrite
  repeat' first | with_reducible assumption | with_reducible apply State.refuseWrite_mem | with_reducible apply State.applyWrite_mem | split | refine State.unitStamp_mem' ?_ (by assumption)

theorem State.raiseVector_mem {x0 : State} {x1 : Nat} (h0 : x0.Mem) : State.Mem (State.raiseVector x0 x1) := by
  unfold State.raiseVector
  repeat' first | with_reducible assumption | (lift_lets; intro _) | split | (change Memory.wf _ = true; dsimp only; change State.Mem _)

theorem State.raise_mem {x0 : State} {x1 : Nat} (h0 : x0.Mem) : State.Mem (State.raise x0 x1) := by
  unfold State.raise
  repeat' first | with_reducible assumption | with_reducible apply State.raiseVector_mem | (lift_lets; intro _) | (intro z; refine State.Mem.cut z (fun hz => ?_) ?_; rotate_left; subst z; rotate_right) | intro _ | split | (change Memory.wf _ = true; dsimp only; change State.Mem _)

theorem State.errorEntry_mem {x0 : State} {x1 : Nat} {x2 : ErrEnt} (h0 : x0.Mem) : State.Mem (State.errorEntry x0 x1 x2) := by
  unfold State.errorEntry
  repeat' first | with_reducible assumption | with_reducible apply State.deviceWrite_mem | with_reducible apply State.raise_mem | (lift_lets; intro _) | (intro z; refine State.Mem.cut z (fun hz => ?_) ?_; rotate_left; subst z; rotate_right) | intro _ | split

theorem State.rngResync_mem {x0 : State} {x1 x2 : Nat} (h0 : x0.Mem) : State.Mem (State.rngResync x0 x1 x2) := by
  unfold State.rngResync
  repeat' first | with_reducible assumption | with_reducible apply State.errorEntry_mem | with_reducible apply State.deviceWrite_mem | (lift_lets; intro _) | (intro z; refine State.Mem.cut z (fun hz => ?_) ?_; rotate_left; subst z; rotate_right) | intro _ | split

theorem State.enterVersion_mem {x0 : State} {x1 : Nat} (h0 : x0.Mem) : State.Mem (State.enterVersion x0 x1) := by
  unfold State.enterVersion
  repeat' first | with_reducible assumption | split | (change Memory.wf _ = true; dsimp only; change State.Mem _)

theorem State.setLaunch_mem {x0 : State} {x1 : Launch} (h0 : x0.Mem) : State.Mem (State.setLaunch x0 x1) := by
  unfold State.setLaunch
  repeat' first | with_reducible assumption | (change Memory.wf _ = true; dsimp only; change State.Mem _)

theorem State.enterTeam_mem {x0 : State} {x1 : Launch} {x2 : Word} (h0 : x0.Mem) : State.Mem (State.enterTeam x0 x1 x2) := by
  unfold State.enterTeam
  repeat' first | with_reducible assumption | (lift_lets; intro _) | split | (change Memory.wf _ = true; dsimp only; change State.Mem _)

theorem State.unsched_mem {x0 : State} {x1 : Instr → Bool} (h0 : x0.Mem) : State.Mem (State.unsched x0 x1) := by
  unfold State.unsched
  repeat' first | with_reducible assumption | (change Memory.wf _ = true; dsimp only; change State.Mem _)

theorem State.pinsFell_mem {x0 : State} {x1 : List Nat} (h0 : x0.Mem) : State.Mem (State.pinsFell x0 x1) := by
  unfold State.pinsFell
  repeat' first | with_reducible assumption | refine fun _ _ (_ : State.Mem _) => ?_ | with_reducible apply State.schedInp_mem | with_reducible apply State.Mem.foldl

theorem State.setCore_mem {x0 : State} {x1 : Nat} {x2 : Core} (h0 : x0.Mem) : State.Mem (State.setCore x0 x1 x2) := by
  unfold State.setCore
  repeat' first | with_reducible assumption | (change Memory.wf _ = true; dsimp only; change State.Mem _)

theorem State.modCore_mem {x0 : State} {x1 : Nat} {x2 : Core → Core} (h0 : x0.Mem) : State.Mem (State.modCore x0 x1 x2) := by
  unfold State.modCore
  repeat' first | with_reducible assumption | with_reducible apply State.setCore_mem

theorem State.vacate_mem {x0 : State} {x1 : Nat} (h0 : x0.Mem) : State.Mem (State.vacate x0 x1) := by
  unfold State.vacate
  repeat' first | with_reducible assumption | with_reducible apply State.pinsFell_mem | with_reducible apply State.unsched_mem | with_reducible apply State.modCore_mem

theorem State.offCore_mem {x0 : State} {x1 : Nat} (h0 : x0.Mem) : State.Mem (State.offCore x0 x1) := by
  unfold State.offCore
  repeat' first | with_reducible assumption | with_reducible apply State.unsched_mem | with_reducible apply State.vacate_mem | with_reducible apply State.modCore_mem | split

theorem State.modCtx_mem {x0 : State} {x1 : Nat} {x2 : Context → Context} (h0 : x0.Mem) : State.Mem (State.modCtx x0 x1 x2) := by
  unfold State.modCtx
  repeat' first | with_reducible assumption | (change Memory.wf _ = true; dsimp only; change State.Mem _)

theorem State.freeSlot_mem {x0 : State} {x1 x2 : Nat} (h0 : x0.Mem) : State.Mem (State.freeSlot x0 x1 x2) := by
  unfold State.freeSlot
  repeat' first | with_reducible assumption | with_reducible apply State.modCtx_mem

theorem State.setRec_mem {x0 : State} {x1 : TaskRec} (h0 : x0.Mem) : State.Mem (State.setRec x0 x1) := by
  unfold State.setRec
  repeat' first | with_reducible assumption | (change Memory.wf _ = true; dsimp only; change State.Mem _)

theorem State.dropSpilled_mem {x0 : State} {x1 x2 : Nat} (h0 : x0.Mem) : State.Mem (State.dropSpilled x0 x1 x2) := by
  unfold State.dropSpilled
  repeat' first | with_reducible assumption | with_reducible apply State.modCtx_mem

theorem State.drawLat_mem {x0 : State} (h0 : x0.Mem) : State.Mem (State.drawLat x0).2 := by
  unfold State.drawLat
  repeat' first | with_reducible assumption | (change Memory.wf _ = true; dsimp only; change State.Mem _)
theorem State.drawLat_mem' {x0 : State} {y : Nat} {t : State} (h0 : x0.Mem) (e : (State.drawLat x0) = (y, t)) :
    State.Mem t := by
  have : State.Mem (State.drawLat x0).2 := State.drawLat_mem h0
  rw [e] at this
  exact this

theorem State.checkBarrier_mem {x0 : State} {x1 : Barrier} (h0 : x0.Mem) : State.Mem (State.checkBarrier x0 x1) := by
  unfold State.checkBarrier
  repeat' first | with_reducible assumption | with_reducible apply State.drawLat_mem | with_reducible apply State.sched_mem | (lift_lets; intro _) | split

theorem State.checkBarriers_mem {x0 : State} (h0 : x0.Mem) : State.Mem (State.checkBarriers x0) := by
  unfold State.checkBarriers
  repeat' first | with_reducible assumption | refine fun _ _ (_ : State.Mem _) => ?_ | with_reducible apply State.checkBarrier_mem | with_reducible apply State.Mem.foldl

theorem State.setTeam_mem {x0 : State} {x1 : Team} (h0 : x0.Mem) : State.Mem (State.setTeam x0 x1) := by
  unfold State.setTeam
  repeat' first | with_reducible assumption | (change Memory.wf _ = true; dsimp only; change State.Mem _)

theorem State.checkTeam_mem {x0 : State} {x1 : TaskRec} (h0 : x0.Mem) : State.Mem (State.checkTeam x0 x1) := by
  unfold State.checkTeam
  repeat' first | with_reducible assumption | with_reducible apply State.setTeam_mem | (lift_lets; intro _) | (intro z; refine State.Mem.cut z (fun hz => ?_) ?_; rotate_left; subst z; rotate_right) | split | (change Memory.wf _ = true; dsimp only; change State.Mem _)

theorem State.vputGo_mem {x0 : State} {x1 x2 x3 : Nat} {x4 : List Byte} (h0 : x0.Mem) : State.Mem (State.vputGo x0 x1 x2 x3 x4) := by
  induction x2 generalizing x0 x3 x4 with
  | zero => exact h0
  | succ n ih =>
    unfold State.vputGo
    dsimp only
    split
    · exact h0
    · refine ih ?_
      split
      · exact State.deviceWrite_mem h0
      · exact h0

theorem State.vput_mem {x0 : State} {x1 x2 : Nat} {x3 : List Byte} (h0 : x0.Mem) : State.Mem (State.vput x0 x1 x2 x3) := by
  unfold State.vput
  repeat' first | with_reducible assumption | with_reducible apply State.vputGo_mem

theorem State.tellHost_mem {x0 : State} {x1 : Nat} (h0 : x0.Mem) : State.Mem (State.tellHost x0 x1) := by
  unfold State.tellHost
  repeat' first | with_reducible assumption | with_reducible apply State.raise_mem | with_reducible apply State.raiseVector_mem | (lift_lets; intro _) | split | (change Memory.wf _ = true; dsimp only; change State.Mem _)

theorem State.deviceTell_mem {x0 : State} {x1 : Nat} {x2 : List Byte} {x3 : Nat} (h0 : x0.Mem) : State.Mem (State.deviceTell x0 x1 x2 x3) := by
  unfold State.deviceTell
  repeat' first | with_reducible assumption | with_reducible apply State.unitStamp_mem | with_reducible apply State.refuseWrite_mem | with_reducible apply State.tellHost_mem | with_reducible apply State.deviceWrite_mem | split

theorem State.writeCompletion_mem {x0 : State} {x1 x2 x3 x4 x5 x6 x7 : Nat} (h0 : x0.Mem) : State.Mem (State.writeCompletion x0 x1 x2 x3 x4 x5 x6 x7) := by
  unfold State.writeCompletion
  repeat' first | with_reducible assumption | with_reducible apply State.vput_mem | with_reducible apply State.deviceTell_mem | with_reducible apply State.tellHost_mem | (lift_lets; intro z; refine State.Mem.cut z (fun hz => ?_) ?_; rotate_left; subst z; rotate_right) | (lift_lets; intro _) | split

theorem State.completeLaunch_mem {x0 : State} {x1 : Launch} (h0 : x0.Mem) : State.Mem (State.completeLaunch x0 x1) := by
  unfold State.completeLaunch
  repeat' first | with_reducible assumption | with_reducible apply State.writeCompletion_mem | with_reducible apply State.setLaunch_mem

theorem State.checkLaunch_mem {x0 : State} {x1 x2 : Nat} (h0 : x0.Mem) : State.Mem (State.checkLaunch x0 x1 x2) := by
  unfold State.checkLaunch
  repeat' first | with_reducible assumption | with_reducible apply State.completeLaunch_mem | split

theorem State.tryReturn_mem {x0 : State} {x1 : Nat} (h0 : x0.Mem) : State.Mem (State.tryReturn x0 x1) := by
  unfold State.tryReturn
  repeat' first | with_reducible assumption | with_reducible apply State.sched_mem | split

theorem State.seek_mem {x0 : State} {x1 : Nat} (h0 : x0.Mem) : State.Mem (State.seek x0 x1) := by
  unfold State.seek
  repeat' first | with_reducible assumption | with_reducible apply State.schedInp_mem | (lift_lets; intro _) | split

theorem State.seekAll_mem {x0 : State} (h0 : x0.Mem) : State.Mem (State.seekAll x0) := by
  unfold State.seekAll
  repeat' first | with_reducible assumption | refine fun _ _ (_ : State.Mem _) => ?_ | with_reducible apply State.seek_mem | with_reducible apply State.Mem.foldl

theorem State.bindQueues_mem {x0 : State} {x1 : Nat} (h0 : x0.Mem) : State.Mem (State.bindQueues x0 x1) := by
  unfold State.bindQueues
  repeat' first | with_reducible assumption | with_reducible apply State.setDie_mem | (lift_lets; intro _) | intro _ | split

theorem State.kick_mem {x0 : State} (h0 : x0.Mem) : State.Mem (State.kick x0) := by
  unfold State.kick
  repeat' first | with_reducible assumption | refine fun _ _ (_ : State.Mem _) => ?_ | with_reducible apply State.seekAll_mem | with_reducible apply State.bindQueues_mem | with_reducible apply State.unsched_mem | with_reducible apply State.sched_mem | with_reducible apply State.Mem.foldl | split

theorem State.unspill_mem {x0 : State} (h0 : x0.Mem) : State.Mem (State.unspill x0) := by
  unfold State.unspill
  repeat' first | with_reducible assumption | refine fun _ _ (_ : State.Mem _) => ?_ | with_reducible apply State.setRec_mem | with_reducible apply State.kick_mem | with_reducible apply State.dropSpilled_mem | with_reducible apply State.Mem.foldl | (lift_lets; intro _) | (intro z; refine State.Mem.cut z (fun hz => ?_) ?_; rotate_left; subst z; rotate_right) | intro _ | split

theorem State.freeFrames_mem {x0 : State} {x1 : SMap Nat} (h0 : x0.Mem) : State.Mem (State.freeFrames x0 x1) :=
  State.Mem.foldl (fun _ _ h => Memory.zeroRange_wf _ _ h) h0

theorem State.trim_mem {x0 : State} {x1 : Nat} (h0 : x0.Mem) : State.Mem (State.trim x0 x1) := by
  unfold State.trim
  repeat' first | with_reducible assumption | refine fun _ _ (_ : State.Mem _) => ?_ | with_reducible apply State.modDie_mem | with_reducible apply State.Mem.foldl | (change Memory.wf _ = true; dsimp only; change State.Mem _)

theorem State.releaseVersions_mem {x0 : State} {x1 : Nat} (h0 : x0.Mem) : State.Mem (State.releaseVersions x0 x1) := by
  unfold State.releaseVersions
  repeat' first | with_reducible assumption | refine fun _ _ (_ : State.Mem _) => ?_ | with_reducible apply State.freeFrames_mem | with_reducible apply State.trim_mem | with_reducible apply State.Mem.foldl | (change Memory.wf _ = true; dsimp only; change State.Mem _)

theorem State.schedDarner_mem {x0 : State} {x1 : Nat} {x2 : Instr} {x3 : Nat} {x4 : optParam Input { }} (h0 : x0.Mem) : State.Mem (State.schedDarner x0 x1 x2 x3 x4) := by
  unfold State.schedDarner
  repeat' first | with_reducible assumption | (change Memory.wf _ = true; dsimp only; change State.Mem _)

theorem State.checkContext_mem {x0 : State} {x1 : Nat} (h0 : x0.Mem) : State.Mem (State.checkContext x0 x1) := by
  unfold State.checkContext
  repeat' first | with_reducible assumption | split | (change Memory.wf _ = true; dsimp only; change State.Mem _)

theorem State.endRec_mem {x0 : State} {x1 : Nat} {x2 : Option (Stamp × Nat)} {x3 : Bool} (h0 : x0.Mem) : State.Mem (State.endRec x0 x1 x2 x3) := by
  unfold State.endRec
  repeat' first | with_reducible assumption | refine fun _ _ (_ : State.Mem _) => ?_ | with_reducible apply State.offCore_mem | with_reducible apply State.freeSlot_mem | with_reducible apply State.unsched_mem | with_reducible apply State.setRec_mem | with_reducible apply State.dropSpilled_mem | with_reducible apply State.setLaunch_mem | with_reducible apply State.checkBarriers_mem | with_reducible apply State.checkTeam_mem | with_reducible apply State.checkLaunch_mem | with_reducible apply State.tryReturn_mem | with_reducible apply State.unspill_mem | with_reducible apply State.releaseVersions_mem | with_reducible apply State.schedDarner_mem | with_reducible apply State.checkContext_mem | with_reducible apply State.kick_mem | with_reducible apply State.Mem.foldl | (lift_lets; intro z; refine State.Mem.cut z (fun hz => ?_) ?_; rotate_left; subst z; rotate_right) | (lift_lets; intro _) | (intro z; refine State.Mem.cut z (fun hz => ?_) ?_; rotate_left; subst z; rotate_right) | split

theorem State.errorRec_mem {x0 : State} {x1 : TaskRec} {x2 : Nat} {x3 : Word} (h0 : x0.Mem) : State.Mem (State.errorRec x0 x1 x2 x3) := by
  unfold State.errorRec
  repeat' first | with_reducible assumption | with_reducible apply State.errorEntry_mem

theorem State.failRec_mem {x0 : State} {x1 : TaskRec} {x2 : Nat} {x3 : Word} (h0 : x0.Mem) : State.Mem (State.failRec x0 x1 x2 x3) := by
  unfold State.failRec
  repeat' first | with_reducible assumption | with_reducible apply State.unitStamp_mem | with_reducible apply State.endRec_mem | with_reducible apply State.errorRec_mem

theorem State.modDir_mem {x0 : State} {x1 : Nat} {x2 : DirEnt → DirEnt} (h0 : x0.Mem) : State.Mem (State.modDir x0 x1 x2) := by
  unfold State.modDir
  repeat' first | with_reducible assumption | (change Memory.wf _ = true; dsimp only; change State.Mem _)

theorem State.poisonGo_mem {x0 : Nat} {x1 : List Nat} {x2 : State} (h2 : x2.Mem) : State.Mem (State.poisonGo x0 x1 x2) := by
  induction x0 generalizing x1 x2 with
  | zero => exact h2
  | succ n ih =>
    unfold State.poisonGo
    dsimp only
    split
    · exact h2
    · refine ih (State.Mem.foldl (fun _ _ h => State.Mem.foldl (fun _ _ h => State.tryReturn_mem h) h) (State.Mem.foldl (fun _ _ h => ?_) ?_))
      · exact State.failRec_mem h
      · exact State.Mem.foldl (fun _ _ h => State.modDir_mem h) h2

theorem State.poison_mem {x0 : State} {x1 : List Nat} (h0 : x0.Mem) : State.Mem (State.poison x0 x1) := by
  unfold State.poison
  repeat' first | with_reducible assumption | with_reducible apply State.poisonGo_mem

theorem State.makeReady_mem {x0 : State} {x1 : Nat} (h0 : x0.Mem) : State.Mem (State.makeReady x0 x1) := by
  unfold State.makeReady
  repeat' first | with_reducible assumption | with_reducible apply State.unsched_mem | with_reducible apply State.setRec_mem | with_reducible apply State.kick_mem | with_reducible apply State.sched_mem | split

theorem State.inheritGo_mem {x0 : Nat} {x1 : State} (h1 : x1.Mem) : State.Mem (State.inheritGo x0 x1) := by
  induction x0 generalizing x1 with
  | zero => exact h1
  | succ n ih =>
    unfold State.inheritGo
    dsimp only
    split
    · exact h1
    · refine ih ?_
      exact h1

theorem State.inherit_mem {x0 : State} (h0 : x0.Mem) : State.Mem (State.inherit x0) := by
  unfold State.inherit
  repeat' first | with_reducible assumption | with_reducible apply State.inheritGo_mem | (lift_lets; intro z; refine State.Mem.cut z (fun hz => ?_) ?_; rotate_left; subst z; rotate_right) | (lift_lets; intro _) | (change Memory.wf _ = true; dsimp only; change State.Mem _)

theorem State.readyOrWait_mem {x0 : State} {x1 : Nat} (h0 : x0.Mem) : State.Mem (State.readyOrWait x0 x1) := by
  unfold State.readyOrWait
  repeat' first | with_reducible assumption | with_reducible apply State.poison_mem | with_reducible apply State.failRec_mem | with_reducible apply State.makeReady_mem | with_reducible apply State.inherit_mem | with_reducible apply State.unsched_mem | with_reducible apply State.setRec_mem | split

theorem State.addRec_mem {x0 : State} {x1 : Launch} {x2 : RunKind} {x3 : Word} {x4 x5 x6 x7 : Nat} {x8 : Option Nat} {x9 : Nat} {x10 : List Nat} (h0 : x0.Mem) : State.Mem (State.addRec x0 x1 x2 x3 x4 x5 x6 x7 x8 x9 x10).2 := by
  unfold State.addRec
  repeat' first | with_reducible assumption | refine fun _ _ (_ : State.Mem _) => ?_ | with_reducible apply State.setDie_mem | with_reducible apply State.enterVersion_mem | with_reducible apply State.setLaunch_mem | with_reducible apply State.enterTeam_mem | with_reducible apply State.failRec_mem | with_reducible apply State.modCtx_mem | with_reducible apply State.readyOrWait_mem | with_reducible apply State.Mem.foldl | (lift_lets; intro z; refine State.Mem.cut z (fun hz => ?_) ?_; rotate_left; subst z; rotate_right) | (lift_lets; intro _) | (intro z; refine State.Mem.cut z (fun hz => ?_) ?_; rotate_left; subst z; rotate_right) | intro _ | split | (change Memory.wf _ = true; dsimp only; change State.Mem _)
theorem State.addRec_mem' {x0 : State} {x1 : Launch} {x2 : RunKind} {x3 : Word} {x4 : Nat} {x5 : Nat} {x6 : Nat} {x7 : Nat} {x8 : Option Nat} {x9 : Nat} {x10 : List Nat} {y : Nat} {t : State} (h0 : x0.Mem) (e : (State.addRec x0 x1 x2 x3 x4 x5 x6 x7 x8 x9 x10) = (y, t)) :
    State.Mem t := by
  have : State.Mem (State.addRec x0 x1 x2 x3 x4 x5 x6 x7 x8 x9 x10).2 := State.addRec_mem h0
  rw [e] at this
  exact this

theorem State.acceptLaunch_mem {x0 : State} {x1 : Launch} (h0 : x0.Mem) : State.Mem (State.acceptLaunch x0 x1) := by
  unfold State.acceptLaunch
  repeat' first | with_reducible assumption | refine fun _ _ (_ : State.Mem _) => ?_ | with_reducible apply State.rngResync_mem | with_reducible apply State.addRec_mem | with_reducible apply State.Mem.foldl | (change Memory.wf _ = true; dsimp only; change State.Mem _)

theorem State.access_mem {x0 : State} {x1 : Bool} {x2 : State → Res} (h0 : x0.Mem) (h2 : ∀ (a0 : State), a0.Mem → (x2 a0).Mem) : Res.Mem (State.access x0 x1 x2) := by
  unfold State.access
  repeat' first | with_reducible assumption | with_reducible apply h2 | with_reducible apply Res.Mem.wait | split

theorem State.setDelivery_mem {x0 : State} {x1 : Delivery} (h0 : x0.Mem) : State.Mem (State.setDelivery x0 x1) := by
  unfold State.setDelivery
  repeat' first | with_reducible assumption | (change Memory.wf _ = true; dsimp only; change State.Mem _)

theorem State.ackDelivery_mem {x0 : State} {x1 : Input} (h0 : x0.Mem) : State.Mem (State.ackDelivery x0 x1) := by
  unfold State.ackDelivery
  repeat' first | with_reducible assumption | with_reducible apply State.setDelivery_mem | split

theorem State.ringDue_mem {x0 : State} {x1 x2 : Nat} {x3 : Bool} (h0 : x0.Mem) : State.Mem (State.ringDue x0 x1 x2 x3).2 := by
  unfold State.ringDue
  repeat' first | with_reducible assumption | (lift_lets; intro _) | split | refine State.drawLat_mem' ?_ (by assumption) | (change Memory.wf _ = true; dsimp only; change State.Mem _)
theorem State.ringDue_mem' {x0 : State} {x1 : Nat} {x2 : Nat} {x3 : Bool} {y : Nat} {t : State} (h0 : x0.Mem) (e : (State.ringDue x0 x1 x2 x3) = (y, t)) :
    State.Mem t := by
  have : State.Mem (State.ringDue x0 x1 x2 x3).2 := State.ringDue_mem h0
  rw [e] at this
  exact this

theorem State.onRing_mem {x0 : State} {x1 : Packet} (h0 : x0.Mem) : State.Mem (State.onRing x0 x1) := by
  unfold State.onRing
  repeat' first | with_reducible assumption | with_reducible apply State.ringDue_mem | with_reducible apply State.schedInp_mem

theorem State.sendPacket_mem {x0 : State} {x1 x2 : Nat} {x3 : Option Bool} {x4 : Nat} {x5 : Stamp} {x6 : Instr} (h0 : x0.Mem) : State.Mem (State.sendPacket x0 x1 x2 x3 x4 x5 x6) := by
  unfold State.sendPacket
  repeat' first | with_reducible assumption | with_reducible apply State.fresh_mem | with_reducible apply State.onRing_mem | (change Memory.wf _ = true; dsimp only; change State.Mem _)

theorem State.sendLineage_mem {x0 : State} {x1 : Lineage} {x2 : Nat → Option Bool} {x3 : Bool} (h0 : x0.Mem) : State.Mem (State.sendLineage x0 x1 x2 x3) := by
  unfold State.sendLineage
  repeat' first | with_reducible assumption | with_reducible apply State.sendPacket_mem | with_reducible apply State.modDir_mem | (lift_lets; intro _) | split

theorem State.schedInpFree_mem {x0 : State} {x1 : Nat} {x2 : Instr} {x3 : Input} (h0 : x0.Mem) : State.Mem (State.schedInpFree x0 x1 x2 x3) := by
  unfold State.schedInpFree
  repeat' first | with_reducible assumption | with_reducible apply State.drawLat_mem | with_reducible apply State.schedInp_mem

theorem State.modShard_mem {x0 : State} {x1 : Bool} {x2 : Nat} {x3 : Shard → Shard} (h0 : x0.Mem) : State.Mem (State.modShard x0 x1 x2 x3) := by
  unfold State.modShard
  repeat' first | with_reducible assumption | with_reducible apply State.modDie_mem

theorem State.storeLineage_mem {x0 : State} {x1 : Lineage} {x2 : Nat} (h0 : x0.Mem) : State.Mem (State.storeLineage x0 x1 x2) := by
  unfold State.storeLineage
  repeat' first | with_reducible assumption | refine fun _ _ (_ : State.Mem _) => ?_ | with_reducible apply State.modShard_mem | with_reducible apply State.Mem.foldl | (lift_lets; intro _) | (intro z; refine State.Mem.cut z (fun hz => ?_) ?_; rotate_left; subst z; rotate_right) | split

theorem State.prune_mem {x0 : State} {x1 : Nat} (h0 : x0.Mem) : State.Mem (State.prune x0 x1) := by
  unfold State.prune
  repeat' first | with_reducible assumption | refine fun _ _ (_ : State.Mem _) => ?_ | with_reducible apply State.trim_mem | with_reducible apply State.releaseVersions_mem | with_reducible apply State.Mem.foldl | (lift_lets; intro _) | (intro z; refine State.Mem.cut z (fun hz => ?_) ?_; rotate_left; subst z; rotate_right) | intro _ | split

theorem State.returnsOf_mem {x0 : State} {x1 : Nat} (h0 : x0.Mem) : State.Mem (State.returnsOf x0 x1) := by
  unfold State.returnsOf
  repeat' first | with_reducible assumption | refine fun _ _ (_ : State.Mem _) => ?_ | with_reducible apply State.tryReturn_mem | with_reducible apply State.Mem.foldl

theorem State.checkPressure_mem {x0 : State} {x1 : Nat} (h0 : x0.Mem) : State.Mem (State.checkPressure x0 x1) := by
  unfold State.checkPressure
  repeat' first | with_reducible assumption | with_reducible apply State.schedInp_mem | (lift_lets; intro _) | split

theorem State.ackLineage_mem {x0 : State} {x1 : Nat} {x2 : Bool} {x3 : Nat} (h0 : x0.Mem) : State.Mem (State.ackLineage x0 x1 x2 x3) := by
  unfold State.ackLineage
  repeat' first | with_reducible assumption | refine fun _ _ (_ : State.Mem _) => ?_ | with_reducible apply State.sendLineage_mem | with_reducible apply State.schedInpFree_mem | with_reducible apply State.storeLineage_mem | with_reducible apply State.modDir_mem | with_reducible apply State.schedDarner_mem | with_reducible apply State.releaseVersions_mem | with_reducible apply State.prune_mem | with_reducible apply State.returnsOf_mem | with_reducible apply State.checkPressure_mem | with_reducible apply State.Mem.foldl | (lift_lets; intro z; refine State.Mem.cut z (fun hz => ?_) ?_; rotate_left; subst z; rotate_right) | (lift_lets; intro _) | (intro z; refine State.Mem.cut z (fun hz => ?_) ?_; rotate_left; subst z; rotate_right) | intro _ | split | (change Memory.wf _ = true; dsimp only; change State.Mem _)

theorem State.addCmd_mem {x0 : State} {x1 : Nat} {x2 : Cmd} (h0 : x0.Mem) : State.Mem (State.addCmd x0 x1 x2).2 := by
  unfold State.addCmd
  repeat' first | with_reducible assumption | with_reducible apply State.setCore_mem
theorem State.addCmd_mem' {x0 : State} {x1 : Nat} {x2 : Cmd} {y : Nat} {t : State} (h0 : x0.Mem) (e : (State.addCmd x0 x1 x2) = (y, t)) :
    State.Mem t := by
  have : State.Mem (State.addCmd x0 x1 x2).2 := State.addCmd_mem h0
  rw [e] at this
  exact this

theorem State.wakePath_mem {x0 : State} {x1 : Nat} {x2 : Template} (h0 : x0.Mem) : State.Mem (State.wakePath x0 x1 x2) := by
  unfold State.wakePath
  repeat' first | with_reducible assumption | refine fun _ _ (_ : State.Mem _) => ?_ | with_reducible apply State.schedInp_mem | with_reducible apply State.Mem.foldl | (lift_lets; intro _) | split

theorem State.addWindow_mem {x0 : State} {x1 : Window} (h0 : x0.Mem) : State.Mem (State.addWindow x0 x1) := by
  unfold State.addWindow
  repeat' first | with_reducible assumption | with_reducible apply State.wakePath_mem | (lift_lets; intro z; refine State.Mem.cut z (fun hz => ?_) ?_; rotate_left; subst z; rotate_right) | (change Memory.wf _ = true; dsimp only; change State.Mem _)

theorem State.endTask_mem {x0 : State} {x1 x2 : Nat} {x3 : Word} {x4 x5 : Nat} (h0 : x0.Mem) : State.Mem (State.endTask x0 x1 x2 x3 x4 x5) := by
  unfold State.endTask
  repeat' first | with_reducible assumption | with_reducible apply State.sched_mem | with_reducible apply State.setCore_mem | (lift_lets; intro _) | intro _ | split

theorem State.addrEnd_mem {x0 : State} {x1 : Nat} (h0 : x0.Mem) : State.Mem (State.addrEnd x0 x1) := by
  unfold State.addrEnd
  repeat' first | with_reducible assumption | with_reducible apply State.endTask_mem

theorem State.topUp_mem {x0 : State} (h0 : x0.Mem) : State.Mem (State.topUp x0) := by
  unfold State.topUp
  repeat' first | with_reducible assumption | refine fun _ _ (_ : State.Mem _) => ?_ | with_reducible apply State.setTeam_mem | with_reducible apply State.Mem.foldl | split

theorem State.schedSwap_mem {x0 : State} {x1 : Team} (h0 : x0.Mem) : State.Mem (State.schedSwap x0 x1) := by
  unfold State.schedSwap
  repeat' first | with_reducible assumption | with_reducible apply State.sched_mem | with_reducible apply State.unsched_mem | split

theorem State.admitTeam_mem {x0 : State} (h0 : x0.Mem) : State.Mem (State.admitTeam x0) := by
  unfold State.admitTeam
  repeat' first | with_reducible assumption | with_reducible apply State.topUp_mem | with_reducible apply State.kick_mem | with_reducible apply State.setTeam_mem | with_reducible apply State.schedSwap_mem | (lift_lets; intro z; refine State.Mem.cut z (fun hz => ?_) ?_; rotate_left; subst z; rotate_right) | (lift_lets; intro _) | split

theorem State.takeTrap_mem {x0 : State} {x1 : Nat} {x2 : Seq} {x3 : Cause} {x4 : BitVec 10} {x5 : Nat} {x6 : BitVec 14} {x7 : Bool} {x8 : Nat} {x9 : Bool} (h0 : x0.Mem) : State.Mem (State.takeTrap x0 x1 x2 x3 x4 x5 x6 x7 x8 x9) := by
  unfold State.takeTrap
  repeat' first | with_reducible assumption | with_reducible apply State.endTask_mem | with_reducible apply State.setCore_mem | (lift_lets; intro _) | intro _ | split

theorem State.meetingTrap_mem {x0 : State} {x1 : Nat} {x2 : Seq} {x3 : Cause} (h0 : x0.Mem) : State.Mem (State.meetingTrap x0 x1 x2 x3) := by
  unfold State.meetingTrap
  repeat' first | with_reducible assumption | with_reducible apply State.modCore_mem | with_reducible apply State.unsched_mem | with_reducible apply State.takeTrap_mem

theorem State.allHalted_mem {x0 : State} {x1 : Nat} {x2 : Seq} (h0 : x0.Mem) : State.Mem (State.allHalted x0 x1 x2) := by
  unfold State.allHalted
  repeat' first | with_reducible assumption | with_reducible apply State.endTask_mem

theorem State.afterStop_mem {x0 : State} {x1 : Nat} {x2 : Seq} (h0 : x0.Mem) : State.Mem (State.afterStop x0 x1 x2) := by
  unfold State.afterStop
  repeat' first | with_reducible assumption | with_reducible apply State.meetingTrap_mem | with_reducible apply State.allHalted_mem | with_reducible apply State.sched_mem | (lift_lets; intro _) | split

theorem State.age_mem {x0 : State} {x1 : Nat} (h0 : x0.Mem) : State.Mem (State.age x0 x1) := by
  unfold State.age
  repeat' first | with_reducible assumption | with_reducible apply State.kick_mem | with_reducible apply State.sched_mem | with_reducible apply State.setRec_mem | split

theorem State.errorAll_mem {x0 : State} {x1 : Nat} {x2 : Word} {x3 x4 : Nat} (h0 : x0.Mem) : State.Mem (State.errorAll x0 x1 x2 x3 x4) := by
  unfold State.errorAll
  repeat' first | with_reducible assumption | refine fun _ _ (_ : State.Mem _) => ?_ | with_reducible apply State.errorEntry_mem | with_reducible apply State.Mem.foldl

theorem State.stopContext_mem {x0 : State} {x1 x2 x3 : Nat} (h0 : x0.Mem) : State.Mem (State.stopContext x0 x1 x2 x3) := by
  unfold State.stopContext
  repeat' first | with_reducible assumption | refine fun _ _ (_ : State.Mem _) => ?_ | with_reducible apply State.endTask_mem | with_reducible apply State.endRec_mem | with_reducible apply State.Mem.foldl | split | (change Memory.wf _ = true; dsimp only; change State.Mem _)

theorem State.quarantine_mem {x0 : State} {x1 : BitVec 5} {x2 : Nat} (h0 : x0.Mem) : State.Mem (State.quarantine x0 x1 x2) := by
  unfold State.quarantine
  repeat' first | with_reducible assumption | with_reducible apply State.modCtx_mem | with_reducible apply State.errorAll_mem | with_reducible apply State.stopContext_mem | (lift_lets; intro z; refine State.Mem.cut z (fun hz => ?_) ?_; rotate_left; subst z; rotate_right) | split

theorem State.setLink_mem {x0 : State} {x1 : Nat} {x2 : Link} (h0 : x0.Mem) : State.Mem (State.setLink x0 x1 x2) := by
  unfold State.setLink
  repeat' first | with_reducible assumption | (change Memory.wf _ = true; dsimp only; change State.Mem _)

theorem State.turnSources_mem {x0 : State} (h0 : x0.Mem) : State.Mem (State.turnSources x0) := by
  unfold State.turnSources
  repeat' first | with_reducible assumption | refine fun _ _ (_ : State.Mem _) => ?_ | with_reducible apply State.schedInp_mem | with_reducible apply State.Mem.foldl | (lift_lets; intro _) | (intro z; refine State.Mem.cut z (fun hz => ?_) ?_; rotate_left; subst z; rotate_right) | intro _ | split | (change Memory.wf _ = true; dsimp only; change State.Mem _)

theorem State.linkDown_mem {x0 : State} {x1 : Nat} (h0 : x0.Mem) : State.Mem (State.linkDown x0 x1) := by
  unfold State.linkDown
  repeat' first | with_reducible assumption | with_reducible apply State.setLink_mem | with_reducible apply State.turnSources_mem

theorem State.erase_mem {x0 : State} (h0 : x0.Mem) : State.Mem (State.erase x0) := by
  unfold State.erase
  repeat' first | with_reducible assumption | refine fun _ _ (_ : State.Mem _) => ?_ | with_reducible apply State.vacate_mem | with_reducible apply State.completeLaunch_mem | with_reducible apply State.linkDown_mem | with_reducible apply State.Mem.foldl | (lift_lets; intro z; refine State.Mem.cut z (fun hz => ?_) ?_; rotate_left; subst z; rotate_right) | (lift_lets; intro _) | split | (change Memory.wf _ = true; dsimp only; change State.Mem _)

theorem State.alarm_mem {x0 : State} {x1 : BitVec 5} {x2 x3 : Nat} (h0 : x0.Mem) : State.Mem (State.alarm x0 x1 x2 x3) := by
  unfold State.alarm
  repeat' first | with_reducible assumption | refine fun _ _ (_ : State.Mem _) => ?_ | with_reducible apply State.errorAll_mem | with_reducible apply State.raise_mem | with_reducible apply State.quarantine_mem | with_reducible apply State.erase_mem | with_reducible apply State.Mem.foldl | (lift_lets; intro z; refine State.Mem.cut z (fun hz => ?_) ?_; rotate_left; subst z; rotate_right) | (lift_lets; intro _) | (intro z; refine State.Mem.cut z (fun hz => ?_) ?_; rotate_left; subst z; rotate_right) | intro _ | split | (change Memory.wf _ = true; dsimp only; change State.Mem _)

theorem State.modTask_mem {x0 : State} {x1 : Nat} {x2 : Core → Core} (h0 : x0.Mem) : State.Mem (State.modTask x0 x1 x2) := by
  unfold State.modTask
  repeat' first | with_reducible assumption | (change Memory.wf _ = true; dsimp only; change State.Mem _)

theorem State.unpin_mem {x0 : State} {x1 : Nat} {x2 : List Nat} (h0 : x0.Mem) : State.Mem (State.unpin x0 x1 x2) := by
  unfold State.unpin
  repeat' first | with_reducible assumption | refine fun _ _ (_ : State.Mem _) => ?_ | with_reducible apply State.schedInp_mem | with_reducible apply State.Mem.foldl

theorem State.retireCmd_mem {x0 : State} {x1 x2 : Nat} (h0 : x0.Mem) : State.Mem (State.retireCmd x0 x1 x2) := by
  unfold State.retireCmd
  repeat' first | with_reducible assumption | with_reducible apply State.setCore_mem | with_reducible apply State.pinsFell_mem | with_reducible apply State.modTask_mem | with_reducible apply State.unpin_mem | (lift_lets; intro _) | intro _ | split

theorem State.stopBadRead_mem {x0 : State} {x1 : Nat} {x2 : BadRead} (h0 : x0.Mem) : State.Mem (State.stopBadRead x0 x1 x2) := by
  unfold State.stopBadRead
  repeat' first | with_reducible assumption | with_reducible apply State.endTask_mem | split

theorem State.writeOne_mem {x0 : State} {x1 : Nat} {x2 : List Byte} {x3 : Stamp} {x4 : Option (Nat × Nat)} (h0 : x0.Mem) : State.Mem (State.writeOne x0 x1 x2 x3 x4) := by
  unfold State.writeOne
  repeat' first | with_reducible assumption | with_reducible apply State.refuseWrite_mem | with_reducible apply State.applyWrite_mem | split

theorem State.dramWrite_mem {x0 : State} {x1 : Nat} {x2 : List Byte} {x3 : Stamp} {x4 : Option (Nat × Nat)} (h0 : x0.Mem) : State.Mem (State.dramWrite x0 x1 x2 x3 x4) := by
  unfold State.dramWrite
  repeat' first | with_reducible assumption | with_reducible apply State.writeOne_mem | (lift_lets; intro _) | split | refine State.drawLat_mem' ?_ (by assumption) | (change Memory.wf _ = true; dsimp only; change State.Mem _)

theorem State.taskWrite_mem {x0 : State} {x1 : Nat} {x2 : List PageTr} {x3 : Nat} {x4 : List Byte} {x5 : Stamp} {x6 : Nat} (h0 : x0.Mem) : State.Mem (State.taskWrite x0 x1 x2 x3 x4 x5 x6) := by
  unfold State.taskWrite
  repeat' first | with_reducible assumption | with_reducible apply State.setCore_mem | with_reducible apply State.dramWrite_mem | (lift_lets; intro _) | intro _ | split

theorem State.rmw_mem {x0 : State} {x1 : Nat} {x2 : List PageTr} {x3 x4 : Nat} {x5 : Nat → Nat} {x6 : Bool} {x7 : Stamp} {x8 : Nat} (h0 : x0.Mem) : State.Mem (State.rmw x0 x1 x2 x3 x4 x5 x6 x7 x8).1 := by
  unfold State.rmw
  repeat' first | with_reducible assumption | with_reducible apply State.taskWrite_mem | with_reducible apply State.refuseWrite_mem | with_reducible apply State.applyWrite_mem | (lift_lets; intro _) | split
theorem State.rmw_mem' {x0 : State} {x1 : Nat} {x2 : List PageTr} {x3 : Nat} {x4 : Nat} {x5 : Nat → Nat} {x6 : Bool} {x7 : Stamp} {x8 : Nat} {y : Option Nat} {t : State} (h0 : x0.Mem) (e : (State.rmw x0 x1 x2 x3 x4 x5 x6 x7 x8) = (t, y)) :
    State.Mem t := by
  have : State.Mem (State.rmw x0 x1 x2 x3 x4 x5 x6 x7 x8).1 := State.rmw_mem h0
  rw [e] at this
  exact this

theorem State.schedFree_mem {x0 : State} {x1 : Nat} {x2 : Instr} (h0 : x0.Mem) : State.Mem (State.schedFree x0 x1 x2) := by
  unfold State.schedFree
  repeat' first | with_reducible assumption | with_reducible apply State.drawLat_mem | with_reducible apply State.sched_mem

theorem State.applyAtomic_mem {x0 : State} {x1 x2 : Nat} {x3 : BitVec 4} {x4 : BitVec 2} (h0 : x0.Mem) : State.Mem (State.applyAtomic x0 x1 x2 x3 x4) := by
  unfold State.applyAtomic
  repeat' first | with_reducible assumption | with_reducible apply State.retireCmd_mem | with_reducible apply State.stopBadRead_mem | with_reducible apply State.modCore_mem | with_reducible apply State.schedFree_mem | (lift_lets; intro _) | split | refine State.rmw_mem' ?_ (by assumption)

theorem State.evictHot_mem {x0 : State} {x1 : Nat} {x2 : Nat → Bool} (h0 : x0.Mem) : State.Mem (State.evictHot x0 x1 x2) :=
  Memory.writes_wf _ _ _ _ (State.modDie_mem h0)

theorem State.applyDamo_mem {x0 : State} {x1 : DamoOp} (h0 : x0.Mem) : State.Mem (State.applyDamo x0 x1) := by
  unfold State.applyDamo
  repeat' first | with_reducible assumption | with_reducible apply State.evictHot_mem | with_reducible apply State.applyWrite_mem | with_reducible apply State.retireCmd_mem | with_reducible apply State.stopBadRead_mem | with_reducible apply State.rmw_mem | with_reducible apply State.schedFree_mem | with_reducible apply State.modCore_mem | (lift_lets; intro z; refine State.Mem.cut z (fun hz => ?_) ?_; rotate_left; subst z; rotate_right) | (lift_lets; intro _) | (intro z; refine State.Mem.cut z (fun hz => ?_) ?_; rotate_left; subst z; rotate_right) | intro _ | split

theorem State.discardCmds_mem {x0 : State} {x1 : Nat} {x2 : List Cmd} (h0 : x0.Mem) : State.Mem (State.discardCmds x0 x1 x2) := by
  unfold State.discardCmds
  repeat' first | with_reducible assumption | refine fun _ _ (_ : State.Mem _) => ?_ | with_reducible apply State.retireCmd_mem | with_reducible apply State.modCore_mem | with_reducible apply State.Mem.foldl

theorem State.faultOf_mem {x0 : State} {x1 x2 x3 : Nat} {x4 : Cause} (h0 : x0.Mem) : State.Mem (State.faultOf x0 x1 x2 x3 x4) := by
  unfold State.faultOf
  repeat' first | with_reducible assumption | with_reducible apply State.modCore_mem | with_reducible apply State.discardCmds_mem | with_reducible apply State.sched_mem | (lift_lets; intro _) | split

theorem State.bankFault_mem {x0 : State} {x1 : Nat} {x2 : SpmReq} (h0 : x0.Mem) : State.Mem (State.bankFault x0 x1 x2) := by
  unfold State.bankFault
  repeat' first | with_reducible assumption | with_reducible apply State.faultOf_mem | split | (change Memory.wf _ = true; dsimp only; change State.Mem _)

theorem State.bankLater_mem {x0 : State} {x1 : Nat} {x2 : SpmReq} (h0 : x0.Mem) : State.Mem (State.bankLater x0 x1 x2) := by
  unfold State.bankLater
  repeat' first | with_reducible assumption | with_reducible apply State.modCore_mem

theorem State.loadBack_mem {x0 : State} {x1 x2 x3 : Nat} (h0 : x0.Mem) : State.Mem (State.loadBack x0 x1 x2 x3) := by
  unfold State.loadBack
  repeat' first | with_reducible assumption | with_reducible apply State.modCore_mem | (lift_lets; intro _) | split

theorem State.loadChunk_mem {x0 : State} {x1 x2 x3 x4 : Nat} {x5 : TaskHdr} (h0 : x0.Mem) : State.Mem (State.loadChunk x0 x1 x2 x3 x4 x5) := by
  unfold State.loadChunk
  repeat' first | with_reducible assumption | with_reducible apply State.modCore_mem | (lift_lets; intro _) | intro _ | split

theorem State.serveLoad_mem {x0 : State} {x1 x2 x3 x4 x5 : Nat} (h0 : x0.Mem) : State.Mem (State.serveLoad x0 x1 x2 x3 x4 x5) := by
  unfold State.serveLoad
  repeat' first | with_reducible assumption | with_reducible apply State.modCore_mem | with_reducible apply State.loadBack_mem | with_reducible apply State.loadChunk_mem | (lift_lets; intro z; refine State.Mem.cut z (fun hz => ?_) ?_; rotate_left; subst z; rotate_right) | split

theorem State.serveAmo_mem {x0 : State} {x1 : Nat} {x2 : Cmd} {x3 : BitVec 4} {x4 : BitVec 2} (h0 : x0.Mem) : State.Mem (State.serveAmo x0 x1 x2 x3 x4) := by
  unfold State.serveAmo
  repeat' first | with_reducible assumption | with_reducible apply State.retireCmd_mem | with_reducible apply State.setCore_mem

theorem State.serveBlk_mem {x0 : State} {x1 : Nat} {x2 : Cmd} {x3 x4 : Nat} (h0 : x0.Mem) : State.Mem (State.serveBlk x0 x1 x2 x3 x4) := by
  unfold State.serveBlk
  repeat' first | with_reducible assumption | with_reducible apply State.modCore_mem | with_reducible apply State.schedFree_mem | (lift_lets; intro z; refine State.Mem.cut z (fun hz => ?_) ?_; rotate_left; subst z; rotate_right) | (lift_lets; intro _) | (intro z; refine State.Mem.cut z (fun hz => ?_) ?_; rotate_left; subst z; rotate_right) | intro _ | split | (change Memory.wf _ = true; dsimp only; change State.Mem _)

theorem State.schedMem_mem {x0 : State} {x1 : Nat} {x2 : Instr} {x3 : Stamp} (h0 : x0.Mem) : State.Mem (State.schedMem x0 x1 x2 x3) := by
  unfold State.schedMem
  repeat' first | with_reducible assumption | (change Memory.wf _ = true; dsimp only; change State.Mem _)

theorem State.schedMemFree_mem {x0 : State} {x1 : Instr} {x2 : Stamp} (h0 : x0.Mem) : State.Mem (State.schedMemFree x0 x1 x2) := by
  unfold State.schedMemFree
  repeat' first | with_reducible assumption | with_reducible apply State.drawLat_mem | with_reducible apply State.schedMem_mem

theorem State.serveRow_mem {x0 : State} {x1 : Nat} {x2 : Cmd} {x3 x4 x5 : Nat} (h0 : x0.Mem) : State.Mem (State.serveRow x0 x1 x2 x3 x4 x5) := by
  unfold State.serveRow
  repeat' first | with_reducible assumption | with_reducible apply State.setCore_mem | with_reducible apply State.retireCmd_mem | with_reducible apply State.sched_mem | with_reducible apply State.schedMemFree_mem | (lift_lets; intro _) | intro _ | split

theorem State.nodeReq_mem {x0 : State} {x1 x2 x3 x4 : Nat} (h0 : x0.Mem) : State.Mem (State.nodeReq x0 x1 x2 x3 x4) := by
  unfold State.nodeReq
  repeat' first | with_reducible assumption | with_reducible apply State.modCore_mem

theorem State.unitGo_mem {x0 : State} {x1 : Nat} {x2 : CopyNode} (h0 : x0.Mem) : State.Mem (State.unitGo x0 x1 x2) := by
  unfold State.unitGo
  repeat' first | with_reducible assumption | with_reducible apply State.nodeReq_mem | with_reducible apply State.schedMemFree_mem | split

theorem State.unitWritten_mem {x0 : State} {x1 : Nat} {x2 : CopyNode} (h0 : x0.Mem) : State.Mem (State.unitWritten x0 x1 x2) := by
  unfold State.unitWritten
  repeat' first | with_reducible assumption | with_reducible apply State.modCore_mem | with_reducible apply State.unitGo_mem | with_reducible apply State.sched_mem | (lift_lets; intro _) | (intro z; refine State.Mem.cut z (fun hz => ?_) ?_; rotate_left; subst z; rotate_right) | split

theorem State.serveNode_mem {x0 : State} {x1 : Nat} {x2 : CopyNode} {x3 x4 : Nat} (h0 : x0.Mem) : State.Mem (State.serveNode x0 x1 x2 x3 x4) := by
  unfold State.serveNode
  repeat' first | with_reducible assumption | with_reducible apply State.unitGo_mem | with_reducible apply State.setCore_mem | with_reducible apply State.unitWritten_mem | (lift_lets; intro _) | intro _ | split

theorem State.serve_mem {x0 : State} {x1 : Nat} {x2 : SpmReq} (h0 : x0.Mem) : State.Mem (State.serve x0 x1 x2) := by
  have own (m : Cmd) (o : Instr) : State.Mem (match o with
      | .amo _ _ _ _ kind size _ _ => x0.serveAmo x1 m kind size
      | .rwaddBlk .. => x0.serveBlk x1 m x2.row x2.addr
      | .call .. | .ret => (x0.modCore x1 fun c => c.serveBlock m.q m.op m.obj x2.addr (leBytes 64 m.data.toNat)).retireCmd x1 m.id
      | _ => x0.serveRow x1 m x2.row x2.addr x2.len) := by
    cases o <;> first
      | with_reducible exact State.serveRow_mem h0
      | with_reducible exact State.serveAmo_mem h0
      | with_reducible exact State.serveBlk_mem h0
      | with_reducible exact State.retireCmd_mem (State.modCore_mem h0)
  unfold State.serve
  dsimp only
  split
  · split
    · exact State.setCore_mem h0
    · exact h0
  · split
    · exact State.serveLoad_mem h0
    · split
      · exact own _ (Cmd.op _)
      · exact State.serveNode_mem h0
      · exact h0

theorem State.arbitrate_mem {x0 : Nat} {x1 : List SpmReq} {x2 : List Nat} {x3 : State} (h3 : x3.Mem) : State.Mem (State.arbitrate x0 x1 x2 x3) := by
  induction x1 generalizing x2 x3 with
  | nil => exact h3
  | cons r t ih =>
    unfold State.arbitrate
    split
    · exact ih h3
    · split
      · exact ih (State.bankFault_mem h3)
      · split
        · refine ih ?_
          split
          · exact State.bankFault_mem h3
          · exact State.bankLater_mem h3
        · exact ih (State.serve_mem h3)

theorem State.stampFor_mem {x0 : State} {x1 x2 : Nat} (h0 : x0.Mem) : State.Mem (State.stampFor x0 x1 x2).2 := by
  unfold State.stampFor
  repeat' first | with_reducible assumption | with_reducible apply State.setCore_mem
theorem State.stampFor_mem' {x0 : State} {x1 : Nat} {x2 : Nat} {y : Stamp} {t : State} (h0 : x0.Mem) (e : (State.stampFor x0 x1 x2) = (y, t)) :
    State.Mem t := by
  have : State.Mem (State.stampFor x0 x1 x2).2 := State.stampFor_mem h0
  rw [e] at this
  exact this

theorem State.arrivalCmd_mem {x0 : State} {x1 : Nat} {x2 : Seq} {x3 : Instr} {x4 : Bool} (h0 : x0.Mem) : State.Mem (State.arrivalCmd x0 x1 x2 x3 x4) := by
  unfold State.arrivalCmd
  repeat' first | with_reducible assumption | with_reducible apply State.stampFor_mem | with_reducible apply State.addCmd_mem | with_reducible apply State.schedFree_mem

theorem State.setBarrier_mem {x0 : State} {x1 : Barrier} (h0 : x0.Mem) : State.Mem (State.setBarrier x0 x1) := by
  unfold State.setBarrier
  repeat' first | with_reducible assumption | (lift_lets; intro _) | split | (change Memory.wf _ = true; dsimp only; change State.Mem _)

theorem State.arrive_mem {x0 : State} {x1 : Nat} {x2 : Seq} {x3 : Nat} {x4 : Barrier} {x5 : Nat} (h0 : x0.Mem) : State.Mem (State.arrive x0 x1 x2 x3 x4 x5) := by
  unfold State.arrive
  repeat' first | with_reducible assumption | with_reducible apply State.modCore_mem | with_reducible apply State.setBarrier_mem | with_reducible apply State.unspill_mem | with_reducible apply State.checkBarrier_mem

theorem State.sendTo_mem {x0 : State} {x1 : Nat} {x2 : Option Nat} {x3 : Nat} (h0 : x0.Mem) : State.Mem (State.sendTo x0 x1 x2 x3) := by
  unfold State.sendTo
  repeat' first | with_reducible assumption | refine fun _ _ (_ : State.Mem _) => ?_ | with_reducible apply State.schedInp_mem | with_reducible apply State.Mem.foldl

theorem State.askRemote_mem {x0 : State} {x1 x2 : Nat} (h0 : x0.Mem) : State.Mem (State.askRemote x0 x1 x2) := by
  unfold State.askRemote
  repeat' first | with_reducible assumption | with_reducible apply State.schedInpFree_mem | with_reducible apply State.sendTo_mem | (lift_lets; intro _) | split

theorem State.askAll_mem {x0 : State} {x1 : List PageTr} (h0 : x0.Mem) : State.Mem (State.askAll x0 x1) := by
  unfold State.askAll
  repeat' first | with_reducible assumption | refine fun _ _ (_ : State.Mem _) => ?_ | with_reducible apply State.askRemote_mem | with_reducible apply State.Mem.foldl | split

theorem State.askStop_mem {x0 : State} {x1 x2 : Nat} (h0 : x0.Mem) : State.Mem (State.askStop x0 x1 x2) := by
  unfold State.askStop
  repeat' first | with_reducible assumption | with_reducible apply State.sched_mem | with_reducible apply State.modCore_mem | split

theorem State.atomicDue_mem {x0 x1 : Nat} {x2 : State} (h2 : x2.Mem) : State.Mem (State.atomicDue x0 x1 x2) := by
  unfold State.atomicDue
  repeat' first | with_reducible assumption | with_reducible apply State.schedMem_mem | split

theorem State.deviceWrites_mem {x0 : State} {x1 x2 : Nat} {x3 : List Byte} (h0 : x0.Mem) : State.Mem (State.deviceWrites x0 x1 x2 x3) := by
  induction x2 generalizing x0 x1 x3 with
  | zero => exact h0
  | succ n ih =>
    unfold State.deviceWrites
    split
    · exact h0
    · exact ih (State.deviceWrite_mem h0)

theorem State.attest_mem {x0 : State} {x1 : Nat} (h0 : x0.Mem) : State.Mem (State.attest x0 x1) := by
  unfold State.attest
  repeat' first | with_reducible assumption | with_reducible apply State.deviceWrites_mem

theorem State.schedRack_mem {x0 : State} {x1 : Nat} {x2 : Instr} {x3 : Input} (h0 : x0.Mem) : State.Mem (State.schedRack x0 x1 x2 x3) := by
  unfold State.schedRack
  repeat' first | with_reducible assumption | with_reducible apply State.drawLat_mem | with_reducible apply State.schedInp_mem

theorem State.awaitAck_mem {x0 : State} {x1 : Input} {x2 : BitVec 16} (h0 : x0.Mem) : State.Mem (State.awaitAck x0 x1 x2) := by
  unfold State.awaitAck
  repeat' first | with_reducible assumption | with_reducible apply State.schedRack_mem | (lift_lets; intro _) | split

theorem State.bankCycle_mem {x0 : State} {x1 : Nat} (h0 : x0.Mem) : State.Mem (State.bankCycle x0 x1) := by
  unfold State.bankCycle
  repeat' first | with_reducible assumption | with_reducible apply State.arbitrate_mem | with_reducible apply State.setCore_mem | (lift_lets; intro _) | intro _ | split

theorem State.bankCycles_mem {x0 : State} (h0 : x0.Mem) : State.Mem (State.bankCycles x0) := by
  unfold State.bankCycles
  repeat' first | with_reducible assumption | refine fun _ _ (_ : State.Mem _) => ?_ | with_reducible apply State.bankCycle_mem | with_reducible apply State.Mem.foldl

theorem State.markLost_mem {x0 : State} {x1 : Nat} (h0 : x0.Mem) : State.Mem (State.markLost x0 x1) := by
  unfold State.markLost
  repeat' first | with_reducible assumption | with_reducible apply State.modDie_mem | (lift_lets; intro z; refine State.Mem.cut z (fun hz => ?_) ?_; rotate_left; subst z; rotate_right) | (lift_lets; intro _) | (change Memory.wf _ = true; dsimp only; change State.Mem _)

theorem State.packageStop_mem {x0 : State} (h0 : x0.Mem) : State.Mem (State.packageStop x0) := by
  unfold State.packageStop
  repeat' first | with_reducible assumption | refine fun _ _ (_ : State.Mem _) => ?_ | with_reducible apply State.errorAll_mem | with_reducible apply State.vacate_mem | with_reducible apply State.completeLaunch_mem | with_reducible apply State.raise_mem | with_reducible apply State.Mem.foldl | (lift_lets; intro z; refine State.Mem.cut z (fun hz => ?_) ?_; rotate_left; subst z; rotate_right) | (lift_lets; intro _) | (intro z; refine State.Mem.cut z (fun hz => ?_) ?_; rotate_left; subst z; rotate_right) | split | (change Memory.wf _ = true; dsimp only; change State.Mem _)

theorem State.rehome_mem {x0 : State} {x1 x2 : Nat} (h0 : x0.Mem) : State.Mem (State.rehome x0 x1 x2) := by
  unfold State.rehome
  repeat' first | with_reducible assumption | with_reducible apply State.setDie_mem | (change Memory.wf _ = true; dsimp only; change State.Mem _)

theorem State.seat_mem {x0 : State} {x1 : Nat} (h0 : x0.Mem) : State.Mem (State.seat x0 x1) := by
  unfold State.seat
  repeat' first | with_reducible assumption | with_reducible apply State.setRec_mem | with_reducible apply State.modCtx_mem | split

theorem State.unplace_mem {x0 : State} {x1 : Nat} (h0 : x0.Mem) : State.Mem (State.unplace x0 x1) := by
  unfold State.unplace
  repeat' first | with_reducible assumption | with_reducible apply State.dropWindows_mem | with_reducible apply State.offCore_mem

theorem State.restart_mem {x0 : State} {x1 : Nat} (h0 : x0.Mem) : State.Mem (State.restart x0 x1) := by
  unfold State.restart
  repeat' first | with_reducible assumption | with_reducible apply State.unplace_mem | with_reducible apply State.freeSlot_mem | with_reducible apply State.readyOrWait_mem | (lift_lets; intro z; refine State.Mem.cut z (fun hz => ?_) ?_; rotate_left; subst z; rotate_right) | split

theorem State.loseRecords_mem {x0 : State} {x1 x2 : Nat} (h0 : x0.Mem) : State.Mem (State.loseRecords x0 x1 x2) := by
  unfold State.loseRecords
  repeat' first | with_reducible assumption | refine fun _ _ (_ : State.Mem _) => ?_ | with_reducible apply State.seat_mem | with_reducible apply State.restart_mem | with_reducible apply State.Mem.foldl | (change Memory.wf _ = true; dsimp only; change State.Mem _)

theorem State.loseStack_mem {x0 : State} {x1 : Nat} (h0 : x0.Mem) : State.Mem (State.loseStack x0 x1) := by
  unfold State.loseStack
  exact Memory.filter_wf _ h0

theorem State.toWait_mem {x0 : State} {x1 : Nat} (h0 : x0.Mem) : State.Mem (State.toWait x0 x1) := by
  unfold State.toWait
  repeat' first | with_reducible assumption | refine fun _ _ (_ : State.Mem _) => ?_ | with_reducible apply State.restart_mem | with_reducible apply State.Mem.foldl

theorem State.setDir_mem {x0 : State} {x1 : DirEnt} (h0 : x0.Mem) : State.Mem (State.setDir x0 x1) := by
  unfold State.setDir
  repeat' first | with_reducible assumption | (change Memory.wf _ = true; dsimp only; change State.Mem _)

theorem State.loseUnacked_mem {x0 : State} {x1 : Nat} (h0 : x0.Mem) : State.Mem (State.loseUnacked x0 x1) := by
  unfold State.loseUnacked
  refine State.Mem.foldl (fun t l h => ?_) h0
  dsimp only
  split
  · exact h
  · split
    · exact State.schedDarner_mem (State.toWait_mem (State.setDir_mem
        (State.Mem.foldl (fun _ _ h => State.freeFrames_mem h) (State.freeFrames_mem (State.freeFrames_mem h)))))
    · split
      · exact h
      · exact h

theorem State.newFrame_mem {x0 : State} {x1 : Nat} (h0 : x0.Mem) : State.Mem (State.newFrame x0 x1).2 := Memory.zeroRange_wf _ _ h0
theorem State.newFrame_mem' {x0 : State} {x1 : Nat} {y : Nat} {t : State} (h0 : x0.Mem) (e : State.newFrame x0 x1 = (y, t)) : State.Mem t := by
  have : State.Mem (State.newFrame x0 x1).2 := State.newFrame_mem h0
  rw [e] at this
  exact this

theorem State.copyPoison_mem {x0 : State} {x1 x2 x3 : Nat} (h0 : x0.Mem) : State.Mem (State.copyPoison x0 x1 x2 x3) := by
  unfold State.copyPoison
  repeat' first | with_reducible assumption | refine fun _ _ (_ : State.Mem _) => ?_ | with_reducible apply State.modDie_mem | with_reducible apply State.Mem.foldl

theorem State.copyFrame_mem {x0 : State} {x1 x2 x3 : Nat} (h0 : x0.Mem) : State.Mem (State.copyFrame x0 x1 x2 x3) :=
  State.copyPoison_mem (SMap.puts_wf _ _ _ (Memory.zeroRange_wf _ _ (State.evictHot_mem h0)))

theorem State.copyFrames_mem {x0 : State} {x1 : Nat} {x2 : SMap Nat} (h0 : x0.Mem) : State.Mem (State.copyFrames x0 x1 x2).2 := by
  unfold State.copyFrames
  repeat' first | with_reducible assumption | refine fun _ _ (_ : State.Mem _) => ?_ | with_reducible apply State.newFrame_mem | with_reducible apply State.copyFrame_mem | with_reducible apply State.Mem.foldl2
theorem State.copyFrames_mem' {x0 : State} {x1 : Nat} {x2 : SMap Nat} {y : SMap Nat} {t : State} (h0 : x0.Mem) (e : (State.copyFrames x0 x1 x2) = (y, t)) :
    State.Mem t := by
  have : State.Mem (State.copyFrames x0 x1 x2).2 := State.copyFrames_mem h0
  rw [e] at this
  exact this

theorem State.losePrimary_mem {x0 : State} {x1 : Nat} (h0 : x0.Mem) : State.Mem (State.losePrimary x0 x1) := by
  unfold State.losePrimary
  repeat' first | with_reducible assumption | with_reducible apply State.freeFrames_mem | with_reducible apply State.copyFrames_mem | with_reducible apply State.setDir_mem | with_reducible apply State.schedDarner_mem | with_reducible apply State.toWait_mem | (lift_lets; intro z; refine State.Mem.cut z (fun hz => ?_) ?_; rotate_left; subst z; rotate_right) | split

theorem State.loseAll_mem {x0 : State} {x1 : List DirEnt} (h0 : x0.Mem) : State.Mem (State.loseAll x0 x1) := by
  unfold State.loseAll
  repeat' first | with_reducible assumption | refine fun _ _ (_ : State.Mem _) => ?_ | with_reducible apply State.losePrimary_mem | with_reducible apply State.Mem.foldl

theorem State.loseVersions_mem {x0 : State} {x1 : Nat} {x2 : List Nat} (h0 : x0.Mem) : State.Mem (State.loseVersions x0 x1 x2) := by
  unfold State.loseVersions
  repeat' first | with_reducible assumption | refine fun _ _ (_ : State.Mem _) => ?_ | with_reducible apply State.setDir_mem | with_reducible apply State.loseAll_mem | with_reducible apply State.schedDarner_mem | with_reducible apply State.Mem.foldl | (lift_lets; intro _) | split | (change Memory.wf _ = true; dsimp only; change State.Mem _)

theorem State.takeHomes_mem {x0 : State} {x1 : Nat} (h0 : x0.Mem) : State.Mem (State.takeHomes x0 x1) := by
  unfold State.takeHomes
  repeat' first | with_reducible assumption | with_reducible apply State.rehome_mem | with_reducible apply State.loseRecords_mem | with_reducible apply State.loseStack_mem | with_reducible apply State.dropWindows_mem | with_reducible apply State.loseUnacked_mem | with_reducible apply State.loseVersions_mem | (change Memory.wf _ = true; dsimp only; change State.Mem _)

theorem State.resendLineage_mem {x0 : State} (h0 : x0.Mem) : State.Mem (State.resendLineage x0) := by
  have go {t : State} {l : Lineage} {b c : Bool} (h : t.Mem) : State.Mem (if c then t else t.sendLineage l (fun _ => none) b) := by
    split
    · exact h
    · exact State.sendLineage_mem h
  exact State.Mem.foldl (fun _ _ h => go (go h)) h0

theorem State.rerouteLoads_mem {x0 x1 : State} (h0 : x0.Mem) (h1 : x1.Mem) : State.Mem (State.rerouteLoads x0 x1) := by
  unfold State.rerouteLoads
  repeat' first | with_reducible assumption | refine fun _ _ (_ : State.Mem _) => ?_ | with_reducible apply State.Mem.foldl | split | refine State.drawLat_mem' ?_ (by assumption) | (change Memory.wf _ = true; dsimp only; change State.Mem _)

theorem State.setPairBuf_mem {x0 : State} {x1 : Nat} {x2 : List Nat} (h0 : x0.Mem) : State.Mem (State.setPairBuf x0 x1 x2) := by
  unfold State.setPairBuf
  repeat' first | with_reducible assumption | with_reducible apply State.modDie_mem | split | (change Memory.wf _ = true; dsimp only; change State.Mem _)

theorem State.setPair_mem {x0 : State} {x1 : PairOp} (h0 : x0.Mem) : State.Mem (State.setPair x0 x1) := by
  unfold State.setPair
  repeat' first | with_reducible assumption | (change Memory.wf _ = true; dsimp only; change State.Mem _)

theorem State.reroutePairs_mem {x0 : State} (h0 : x0.Mem) : State.Mem (State.reroutePairs x0) := by
  unfold State.reroutePairs
  repeat' first | with_reducible assumption | refine fun _ _ (_ : State.Mem _) => ?_ | with_reducible apply State.setPairBuf_mem | with_reducible apply State.drawLat_mem | with_reducible apply State.unsched_mem | with_reducible apply State.setPair_mem | with_reducible apply State.sched_mem | with_reducible apply State.Mem.foldl | (lift_lets; intro _) | (intro z; refine State.Mem.cut z (fun hz => ?_) ?_; rotate_left; subst z; rotate_right) | split

theorem State.reformRing_mem {x0 x1 : State} (h0 : x0.Mem) (h1 : x1.Mem) : State.Mem (State.reformRing x0 x1) := by
  unfold State.reformRing
  repeat' first | with_reducible assumption | refine fun _ _ (_ : State.Mem _) => ?_ | with_reducible apply State.rerouteLoads_mem | with_reducible apply State.reroutePairs_mem | with_reducible apply State.drawLat_mem | with_reducible apply State.schedInp_mem | with_reducible apply State.Mem.foldl2 | (change Memory.wf _ = true; dsimp only; change State.Mem _)

theorem State.fillsAgain_mem {x0 : State} {x1 : Nat} (h0 : x0.Mem) : State.Mem (State.fillsAgain x0 x1) := by
  unfold State.fillsAgain
  repeat' first | with_reducible assumption | refine fun _ _ (_ : State.Mem _) => ?_ | with_reducible apply State.sched_mem | with_reducible apply State.unsched_mem | with_reducible apply State.Mem.foldl | (lift_lets; intro z; refine State.Mem.cut z (fun hz => ?_) ?_; rotate_left; subst z; rotate_right) | split

theorem State.takeOver_mem {x0 : State} (h0 : x0.Mem) : State.Mem (State.takeOver x0) := by
  unfold State.takeOver
  repeat' first | with_reducible assumption | (lift_lets; intro _) | intro _ | (change Memory.wf _ = true; dsimp only; change State.Mem _)

theorem State.hostResult_mem {x0 : State} {x1 x2 : Nat} (h0 : x0.Mem) : State.Mem (State.hostResult x0 x1 x2) := by
  unfold State.hostResult
  repeat' first | with_reducible assumption | with_reducible apply State.deviceTell_mem

theorem State.endMigrates_mem {x0 : State} {x1 : List Migration} (h0 : x0.Mem) : State.Mem (State.endMigrates x0 x1) := by
  unfold State.endMigrates
  repeat' first | with_reducible assumption | refine fun _ _ (_ : State.Mem _) => ?_ | with_reducible apply State.hostResult_mem | with_reducible apply State.Mem.foldl

theorem State.dieLoss_mem {x0 : State} {x1 : Nat} (h0 : x0.Mem) : State.Mem (State.dieLoss x0 x1) := by
  unfold State.dieLoss
  repeat' first | with_reducible assumption | refine fun _ _ (_ : State.Mem _) => ?_ | with_reducible apply State.markLost_mem | with_reducible apply State.packageStop_mem | with_reducible apply State.takeHomes_mem | with_reducible apply State.resendLineage_mem | with_reducible apply State.turnSources_mem | with_reducible apply State.reformRing_mem | with_reducible apply State.fillsAgain_mem | with_reducible apply State.takeOver_mem | with_reducible apply State.endMigrates_mem | with_reducible apply State.checkBarriers_mem | with_reducible apply State.raise_mem | with_reducible apply State.kick_mem | with_reducible apply State.Mem.foldl | (lift_lets; intro z; refine State.Mem.cut z (fun hz => ?_) ?_; rotate_left; subst z; rotate_right) | (lift_lets; intro _) | (intro z; refine State.Mem.cut z (fun hz => ?_) ?_; rotate_left; subst z; rotate_right) | split

theorem State.beat_mem {x0 : State} {x1 : Input} (h0 : x0.Mem) : State.Mem (State.beat x0 x1) := by
  unfold State.beat
  repeat' first | with_reducible assumption | with_reducible apply State.schedInp_mem | with_reducible apply State.modDie_mem | with_reducible apply State.dieLoss_mem | (lift_lets; intro z; refine State.Mem.cut z (fun hz => ?_) ?_; rotate_left; subst z; rotate_right) | (lift_lets; intro _) | (intro z; refine State.Mem.cut z (fun hz => ?_) ?_; rotate_left; subst z; rotate_right) | intro _ | split | (change Memory.wf _ = true; dsimp only; change State.Mem _)

theorem State.beginCopy_mem {x0 : State} {x1 : Migration} (h0 : x0.Mem) : State.Mem (State.beginCopy x0 x1) := by
  unfold State.beginCopy
  repeat' first | with_reducible assumption | with_reducible apply State.schedInp_mem | with_reducible apply State.evictHot_mem | with_reducible apply State.setMigration_mem | (lift_lets; intro _) | (intro z; refine State.Mem.cut z (fun hz => ?_) ?_; rotate_left; subst z; rotate_right) | split

theorem State.begun_mem {x0 : State} {x1 : Kind} {x2 : Core} (h0 : x0.Mem) : State.Mem (State.begun x0 x1 x2) := by
  unfold State.begun
  repeat' first | with_reducible assumption | with_reducible apply State.setCore_mem

theorem State.markDue_mem {x0 : State} {x1 x2 : Nat} (h0 : x0.Mem) : State.Mem (State.markDue x0 x1 x2) := by
  unfold State.markDue
  repeat' first | with_reducible assumption | with_reducible apply State.schedInp_mem | with_reducible apply State.setDie_mem

theorem State.blame_mem {x0 : State} {x1 : TaskRec} {x2 : RunResult} (h0 : x0.Mem) : State.Mem (State.blame x0 x1 x2) := by
  unfold State.blame
  repeat' first | with_reducible assumption | with_reducible apply State.markDue_mem | split

theorem State.modCur_mem {x0 : State} {x1 : Core → Core} (h0 : x0.Mem) : State.Mem (State.modCur x0 x1) := by
  unfold State.modCur
  repeat' first | with_reducible assumption | with_reducible apply State.modCore_mem

theorem State.wordTrap_mem {x0 : State} {x1 : Cause} {x2 : BitVec 10} (h0 : x0.Mem) : State.Mem (State.wordTrap x0 x1 x2) := by
  unfold State.wordTrap
  repeat' first | with_reducible assumption | with_reducible apply State.modCur_mem | with_reducible apply State.takeTrap_mem | (lift_lets; intro _) | split

theorem State.block_mem {x0 : State} {x1 : Cause} (h0 : x0.Mem) : State.Mem (State.block x0 x1) := by
  unfold State.block
  repeat' first | with_reducible assumption | with_reducible apply State.modCur_mem | with_reducible apply State.wordTrap_mem | split

theorem State.releaseRun_mem {x0 : State} {x1 x2 : Nat} (h0 : x0.Mem) : State.Mem (State.releaseRun x0 x1 x2) := by
  unfold State.releaseRun
  repeat' first | with_reducible assumption | with_reducible apply State.unsched_mem | with_reducible apply State.modCore_mem | (lift_lets; intro z; refine State.Mem.cut z (fun hz => ?_) ?_; rotate_left; subst z; rotate_right) | split

theorem State.matrixFault_mem {x0 : State} {x1 : Nat} {x2 : MxCmd} {x3 : Cause} {x4 x5 : Nat} (h0 : x0.Mem) : State.Mem (State.matrixFault x0 x1 x2 x3 x4 x5) := by
  unfold State.matrixFault
  repeat' first | with_reducible assumption | with_reducible apply State.releaseRun_mem | with_reducible apply State.unsched_mem | with_reducible apply State.modCore_mem | with_reducible apply State.sched_mem

theorem State.blockAdd_mem {x0 : State} {x1 x2 x3 : Nat} (h0 : x0.Mem) : State.Mem (State.blockAdd x0 x1 x2 x3) := by
  unfold State.blockAdd
  repeat' first | with_reducible assumption | with_reducible apply State.matrixFault_mem | with_reducible apply State.setCore_mem | with_reducible apply State.sched_mem | (lift_lets; intro _) | intro _ | split | (change Memory.wf _ = true; dsimp only; change State.Mem _)

theorem State.blockCount_mem {x0 : State} {x1 x2 x3 : Nat} (h0 : x0.Mem) : State.Mem (State.blockCount x0 x1 x2 x3) := by
  unfold State.blockCount
  repeat' first | with_reducible assumption | with_reducible apply State.setCore_mem | with_reducible apply State.sched_mem | (lift_lets; intro _) | (intro z; refine State.Mem.cut z (fun hz => ?_) ?_; rotate_left; subst z; rotate_right) | intro _ | split

theorem State.stallRun_mem {x0 : State} {x1 : Nat} {x2 : MxRun} {x3 : Instr} (h0 : x0.Mem) : State.Mem (State.stallRun x0 x1 x2 x3) := by
  unfold State.stallRun
  repeat' first | with_reducible assumption | with_reducible apply State.modCore_mem | with_reducible apply State.sched_mem | (change Memory.wf _ = true; dsimp only; change State.Mem _)

theorem State.placeRun_mem {x0 : State} {x1 : Nat} {x2 : MxRun} (h0 : x0.Mem) : State.Mem (State.placeRun x0 x1 x2) := by
  unfold State.placeRun
  repeat' first | with_reducible assumption | with_reducible apply State.sched_mem | split

theorem State.waitRun_mem {x0 : State} {x1 : Nat} {x2 : MxRun} (h0 : x0.Mem) : State.Mem (State.waitRun x0 x1 x2) := by
  unfold State.waitRun
  repeat' first | with_reducible assumption | with_reducible apply State.matrixFault_mem | with_reducible apply State.setCore_mem | with_reducible apply State.stallRun_mem | with_reducible apply State.placeRun_mem | (lift_lets; intro _) | split

theorem State.blockRead_mem {x0 : State} {x1 x2 x3 : Nat} (h0 : x0.Mem) : State.Mem (State.blockRead x0 x1 x2 x3) := by
  unfold State.blockRead
  repeat' first | with_reducible assumption | with_reducible apply State.waitRun_mem | with_reducible apply State.sched_mem | with_reducible apply State.setCore_mem | with_reducible apply State.stallRun_mem | (lift_lets; intro _) | (intro z; refine State.Mem.cut z (fun hz => ?_) ?_; rotate_left; subst z; rotate_right) | intro _ | split

theorem State.schedRestore_mem {x0 : State} {x1 x2 x3 : Nat} (h0 : x0.Mem) : State.Mem (State.schedRestore x0 x1 x2 x3) := by
  unfold State.schedRestore
  repeat' first | with_reducible assumption | with_reducible apply State.unsched_mem | with_reducible apply State.sched_mem

theorem State.schedStart_mem {x0 : State} {x1 x2 x3 : Nat} (h0 : x0.Mem) : State.Mem (State.schedStart x0 x1 x2 x3) := by
  unfold State.schedStart
  repeat' first | with_reducible assumption | with_reducible apply State.unsched_mem | with_reducible apply State.sched_mem

theorem State.bookAt_mem {x0 : State} {x1 : TaskRec} {x2 : Nat} {x3 : List Nat} {x4 : Template} {x5 x6 : Nat} (h0 : x0.Mem) : State.Mem (State.bookAt x0 x1 x2 x3 x4 x5 x6) := by
  unfold State.bookAt
  repeat' first | with_reducible assumption | refine fun _ _ (_ : State.Mem _) => ?_ | with_reducible apply State.setRec_mem | with_reducible apply State.addWindow_mem | with_reducible apply State.schedRestore_mem | with_reducible apply State.schedStart_mem | with_reducible apply State.bindQueues_mem | with_reducible apply State.Mem.foldl | split

theorem State.booked_mem {x0 : State} {x1 : Nat} {x2 : List Nat} (h0 : x0.Mem) : State.Mem (State.booked x0 x1 x2).2 := by
  unfold State.booked
  repeat' first | with_reducible assumption | with_reducible apply State.setCore_mem
theorem State.booked_mem' {x0 : State} {x1 : Nat} {x2 : List Nat} {y : Bool} {t : State} (h0 : x0.Mem) (e : (State.booked x0 x1 x2) = (y, t)) :
    State.Mem t := by
  have : State.Mem (State.booked x0 x1 x2).2 := State.booked_mem h0
  rw [e] at this
  exact this

theorem State.borrow_mem {x0 : State} {x1 : Nat} (h0 : x0.Mem) : State.Mem (State.borrow x0 x1) := by
  unfold State.borrow
  repeat' first | with_reducible assumption | with_reducible apply State.schedFree_mem | split

theorem State.borrowAck_mem {x0 : State} {x1 : Nat} (h0 : x0.Mem) : State.Mem (State.borrowAck x0 x1) := by
  unfold State.borrowAck
  repeat' first | with_reducible assumption | with_reducible apply State.setLaunch_mem | with_reducible apply State.setRec_mem | split

theorem State.linkAlarm_mem {x0 : State} {x1 : Nat} (h0 : x0.Mem) : State.Mem (State.linkAlarm x0 x1) := by
  unfold State.linkAlarm
  repeat' first | with_reducible assumption | with_reducible apply State.raise_mem | with_reducible apply State.errorAll_mem | with_reducible apply State.linkDown_mem

theorem State.emitFrame_mem {x0 : State} {x1 : Nat} {x2 : Frame} (h0 : x0.Mem) : State.Mem (State.emitFrame x0 x1 x2) := by
  unfold State.emitFrame
  repeat' first | with_reducible assumption | with_reducible apply State.schedInpFree_mem | with_reducible apply State.setLink_mem

theorem State.switchKey_mem {x0 : State} {x1 : Nat} (h0 : x0.Mem) : State.Mem (State.switchKey x0 x1) := by
  unfold State.switchKey
  repeat' first | with_reducible assumption | with_reducible apply State.emitFrame_mem | with_reducible apply State.setLink_mem | (lift_lets; intro _) | split

theorem State.sendFrame_mem {x0 : State} {x1 : Nat} (h0 : x0.Mem) : State.Mem (State.sendFrame x0 x1) := by
  unfold State.sendFrame
  repeat' first | with_reducible assumption | with_reducible apply State.linkAlarm_mem | with_reducible apply State.switchKey_mem | with_reducible apply State.emitFrame_mem | with_reducible apply State.setLink_mem | with_reducible apply State.schedInpFree_mem | (lift_lets; intro _) | (intro z; refine State.Mem.cut z (fun hz => ?_) ?_; rotate_left; subst z; rotate_right) | split

theorem State.busyAgain_mem {x0 : State} {x1 : Input} (h0 : x0.Mem) : State.Mem (State.busyAgain x0 x1) := by
  unfold State.busyAgain
  repeat' first | with_reducible assumption | with_reducible apply State.awaitAck_mem | with_reducible apply State.sendFrame_mem | with_reducible apply State.setDelivery_mem | with_reducible apply State.schedInp_mem | (lift_lets; intro _) | split | (change Memory.wf _ = true; dsimp only; change State.Mem _)

theorem State.settled_mem {x0 : State} (h0 : x0.Mem) : State.Mem (State.settled x0) := by
  unfold State.settled
  repeat' first | with_reducible assumption | with_reducible apply State.modCur_mem

theorem State.finishIssue_mem {x0 : State} {x1 : Kind} {x2 : Nat} {x3 : Option (Option (BitVec 14))} {x4 : BitVec 14} (h0 : x0.Mem) : State.Mem (State.finishIssue x0 x1 x2 x3 x4) := by
  unfold State.finishIssue
  repeat' first | with_reducible assumption | with_reducible apply State.modCur_mem

theorem State.setAudit_mem {x0 : State} {x1 : Nat} (h0 : x0.Mem) : State.Mem (State.setAudit x0 x1) := by
  unfold State.setAudit
  repeat' first | with_reducible assumption | with_reducible apply State.modCore_mem

theorem State.conclude_mem {x0 : State} {x1 : Kind} {x2 : Res} (h0 : x0.Mem) (h2 : x2.Mem) : State.Mem (State.conclude x0 x1 x2) := by
  cases x2 <;> simp only [Res.Mem] at h2 <;> simp only [State.conclude]
  · exact State.finishIssue_mem h2
  · exact State.finishIssue_mem h2
  · exact State.finishIssue_mem h2
  · refine State.wordTrap_mem ?_
    split
    · exact State.setAudit_mem h0
    · exact h0
  · exact State.wordTrap_mem (h2 _ h0)
  · exact State.block_mem h0
  · exact State.block_mem h0
  · split
    · exact h2 _ (State.block_mem h0)
    · exact State.block_mem h0
  · exact h2

theorem State.gate_mem {s t : State} {k : Kind} (h : s.Mem) (e : s.gate k = .error t) : t.Mem := by
  unfold State.gate at e
  split at e
  · cases e; exact State.wordTrap_mem h
  · split at e
    · cases e; exact State.wordTrap_mem h
    · split at e
      · cases e; exact State.block_mem h
      · split at e
        · cases e; exact State.block_mem h
        · cases e
theorem State.issue_mem {x0 : State} {x1 : Kind} {x2 : State → Res} (h0 : x0.Mem) (h2 : ∀ t : State, t.Mem → (x2 t).Mem) :
    State.Mem (State.issue x0 x1 x2) := by
  unfold State.issue
  split
  · rename_i e
    exact State.gate_mem (State.settled_mem h0) e
  · exact State.conclude_mem (State.settled_mem h0) (h2 _ (State.begun_mem (State.settled_mem h0)))

theorem State.interlock_mem {x0 : State} {x1 : List RegF} {x2 : State → Res} {x3 : State} (h0 : x0.Mem) (h2 : ∀ (a0 : State), a0.Mem → (x2 a0).Mem) (h3 : x3.Mem) : Res.Mem (State.interlock x0 x1 x2 x3) := by
  unfold State.interlock
  repeat' first | with_reducible assumption | with_reducible apply h2 | with_reducible apply Res.Mem.wait | split

theorem State.callTo_mem {x0 : State} {x1 : List RegF} {x2 : State → Tgt} (h0 : x0.Mem) : State.Mem (State.callTo x0 x1 x2) := by
  unfold State.callTo
  repeat' first | with_reducible assumption | refine fun _ (_ : State.Mem _) => ?_ | with_reducible apply State.issue_mem | with_reducible apply State.interlock_mem | with_reducible apply State.setCore_mem | with_reducible apply Res.Mem.branch | with_reducible apply Res.Mem.trap | split

theorem State.cancelWindow_mem {x0 : State} {x1 : Nat} {x2 : XEntry} (h0 : x0.Mem) : State.Mem (State.cancelWindow x0 x1 x2) := by
  unfold State.cancelWindow
  repeat' first | with_reducible assumption | with_reducible apply State.unsched_mem | with_reducible apply State.setCore_mem | split

theorem State.exportsDone_mem {x0 : State} (h0 : x0.Mem) : State.Mem (State.exportsDone x0) := by
  unfold State.exportsDone
  repeat' first | with_reducible assumption | refine fun _ _ (_ : State.Mem _) => ?_ | with_reducible apply State.hostResult_mem | with_reducible apply State.Mem.foldl | (lift_lets; intro _) | intro _ | split | (change Memory.wf _ = true; dsimp only; change State.Mem _)

theorem State.tellImporters_mem {x0 : State} {x1 : ExportEnt} (h0 : x0.Mem) : State.Mem (State.tellImporters x0 x1) := by
  unfold State.tellImporters
  repeat' first | with_reducible assumption | refine fun _ _ (_ : State.Mem _) => ?_ | with_reducible apply State.schedRack_mem | with_reducible apply State.sendTo_mem | with_reducible apply State.Mem.foldl

theorem State.changeExport_mem {x0 : State} {x1 : ExportEnt} {x2 : Nat} {x3 : Option (Nat × Bool × Bool)} (h0 : x0.Mem) : State.Mem (State.changeExport x0 x1 x2 x3) := by
  unfold State.changeExport
  repeat' first | with_reducible assumption | with_reducible apply State.exportsDone_mem | with_reducible apply State.tellImporters_mem | (change Memory.wf _ = true; dsimp only; change State.Mem _)

theorem State.pairDone_mem {x0 : State} {x1 : PairOp} {x2 x3 : Word} (h0 : x0.Mem) : State.Mem (State.pairDone x0 x1 x2 x3) := by
  unfold State.pairDone
  repeat' first | with_reducible assumption | with_reducible apply State.unsched_mem | with_reducible apply State.setPairBuf_mem | with_reducible apply State.schedFree_mem | with_reducible apply State.modCore_mem | (lift_lets; intro z; refine State.Mem.cut z (fun hz => ?_) ?_; rotate_left; subst z; rotate_right) | split | (change Memory.wf _ = true; dsimp only; change State.Mem _)

theorem State.exchange_mem {x0 : State} {x1 : PairOp × PairOp} (h0 : x0.Mem) : State.Mem (State.exchange x0 x1) := by
  unfold State.exchange
  repeat' first | with_reducible assumption | with_reducible apply State.pairDone_mem

theorem State.clasp_mem {x0 : State} {x1 : Nat} (h0 : x0.Mem) : State.Mem (State.clasp x0 x1) := by
  unfold State.clasp
  repeat' first | with_reducible assumption | refine fun _ _ (_ : State.Mem _) => ?_ | with_reducible apply State.exchange_mem | with_reducible apply State.schedInp_mem | with_reducible apply State.Mem.foldl | (lift_lets; intro _) | (intro z; refine State.Mem.cut z (fun hz => ?_) ?_; rotate_left; subst z; rotate_right) | split

theorem State.clearCauses_mem {x0 : State} {x1 : BitVec 16} (h0 : x0.Mem) : State.Mem (State.clearCauses x0 x1) := by
  unfold State.clearCauses
  repeat' first | with_reducible assumption | (lift_lets; intro _) | (change Memory.wf _ = true; dsimp only; change State.Mem _)

theorem State.unplaceRestore_mem {x0 : State} {x1 : Nat} (h0 : x0.Mem) : State.Mem (State.unplaceRestore x0 x1) := by
  unfold State.unplaceRestore
  repeat' first | with_reducible assumption | with_reducible apply State.dropWindows_mem | with_reducible apply State.offCore_mem

theorem State.clearCore_mem {x0 : State} {x1 : Nat} (h0 : x0.Mem) : State.Mem (State.clearCore x0 x1) := by
  unfold State.clearCore
  repeat' first | with_reducible assumption | refine fun _ _ (_ : State.Mem _) => ?_ | with_reducible apply State.unplaceRestore_mem | with_reducible apply State.restart_mem | with_reducible apply State.Mem.foldl | split

theorem applyDamos_mem {x0 : List DamoOp} {x1 : State} (h1 : x1.Mem) : State.Mem (applyDamos x0 x1).1 := by
  induction x0 generalizing x1 with
  | nil => exact h1
  | cons o t ih =>
    unfold applyDamos
    split
    · exact h1
    · exact ih (State.applyDamo_mem h1)
theorem applyDamos_mem' {x0 : List DamoOp} {x1 : State} {y : List DamoOp} {t : State} (h1 : x1.Mem) (e : applyDamos x0 x1 = (t, y)) : State.Mem t := by
  have : State.Mem (applyDamos x0 x1).1 := applyDamos_mem h1
  rw [e] at this
  exact this

theorem State.setDau_mem {x0 : State} {x1 : Nat} {x2 : Dau} (h0 : x0.Mem) : State.Mem (State.setDau x0 x1 x2) := by
  unfold State.setDau
  repeat' first | with_reducible assumption | (change Memory.wf _ = true; dsimp only; change State.Mem _)

theorem State.schedUnit_mem {x0 : State} {x1 x2 : Nat} {x3 : Stamp} (h0 : x0.Mem) : State.Mem (State.schedUnit x0 x1 x2 x3) := by
  unfold State.schedUnit
  repeat' first | with_reducible assumption | (change Memory.wf _ = true; dsimp only; change State.Mem _)

theorem State.closeWindows_mem {x0 : State} {x1 : Nat} (h0 : x0.Mem) : State.Mem (State.closeWindows x0 x1) := by
  unfold State.closeWindows
  dsimp only
  split
  · exact State.schedUnit_mem (State.setDau_mem (applyDamos_mem h0))
  · split
    · exact State.setDau_mem (applyDamos_mem h0)
    · exact State.schedUnit_mem (State.setDau_mem (applyDamos_mem h0))

theorem State.commandAgain_mem {x0 : State} {x1 : Instr} {x2 : Input} (h0 : x0.Mem) : State.Mem (State.commandAgain x0 x1 x2) := by
  unfold State.commandAgain
  repeat' first | with_reducible assumption | with_reducible apply State.schedInpFree_mem

theorem State.kickMatrix_mem {x0 : State} {x1 x2 : Nat} (h0 : x0.Mem) : State.Mem (State.kickMatrix x0 x1 x2) := by
  unfold State.kickMatrix
  repeat' first | with_reducible assumption | with_reducible apply State.sched_mem | split

theorem State.startRun_mem {x0 : State} {x1 : Nat} {x2 : MxRun} {x3 : Core} (h0 : x0.Mem) : State.Mem (State.startRun x0 x1 x2 x3) := by
  unfold State.startRun
  repeat' first | with_reducible assumption | with_reducible apply State.setCore_mem | with_reducible apply State.stallRun_mem | with_reducible apply State.placeRun_mem | with_reducible apply State.kickMatrix_mem | (lift_lets; intro z; refine State.Mem.cut z (fun hz => ?_) ?_; rotate_left; subst z; rotate_right) | (lift_lets; intro _) | (intro z; refine State.Mem.cut z (fun hz => ?_) ?_; rotate_left; subst z; rotate_right) | intro _ | split | refine State.stampFor_mem' ?_ (by assumption)

theorem State.commandStart_mem {x0 : State} {x1 : Nat} (h0 : x0.Mem) : State.Mem (State.commandStart x0 x1) := by
  unfold State.commandStart
  repeat' first | with_reducible assumption | with_reducible apply State.kickMatrix_mem | with_reducible apply State.matrixFault_mem | with_reducible apply State.setCore_mem | with_reducible apply State.startRun_mem | (lift_lets; intro _) | split | (change Memory.wf _ = true; dsimp only; change State.Mem _)

theorem State.kickCommit_mem {x0 : State} {x1 : Nat} (h0 : x0.Mem) : State.Mem (State.kickCommit x0 x1) := by
  unfold State.kickCommit
  repeat' first | with_reducible assumption | with_reducible apply State.sched_mem | split

theorem State.xFault_mem {x0 : State} {x1 : Nat} {x2 : Cause} (h0 : x0.Mem) : State.Mem (State.xFault x0 x1 x2) := by
  unfold State.xFault
  repeat' first | with_reducible assumption | with_reducible apply State.modCore_mem | with_reducible apply State.takeTrap_mem

theorem State.shiftVector_mem {x0 : State} {x1 x2 : Nat} (h0 : x0.Mem) : State.Mem (State.shiftVector x0 x1 x2) := by
  unfold State.shiftVector
  repeat' first | with_reducible assumption | with_reducible apply State.modCore_mem | (change Memory.wf _ = true; dsimp only; change State.Mem _)

theorem State.commitWindow_mem {x0 : State} {x1 x2 : Nat} (h0 : x0.Mem) : State.Mem (State.commitWindow x0 x1 x2) := by
  induction x2 generalizing x0 with
  | zero => exact h0
  | succ n ih =>
    unfold State.commitWindow
    dsimp only
    repeat' first
      | with_reducible assumption
      | with_reducible apply ih
      | with_reducible apply State.takeTrap_mem
      | with_reducible apply State.modCore_mem
      | with_reducible apply State.setCore_mem
      | with_reducible apply State.cancelWindow_mem
      | with_reducible apply State.kickMatrix_mem
      | with_reducible apply State.sched_mem
      | with_reducible apply State.kickCommit_mem
      | with_reducible apply State.xFault_mem
      | with_reducible apply State.shiftVector_mem
      | (lift_lets; intro z; first | (refine State.Mem.cut z (fun hz => ?_) ?_; rotate_left; subst z; rotate_right) | skip)
      | (intro z; first | (refine State.Mem.cut z (fun hz => ?_) ?_; rotate_left; subst z; rotate_right) | skip)
      | split

theorem State.moveWindow_mem {x0 : State} {x1 : Window} {x2 : Nat} (h0 : x0.Mem) : State.Mem (State.moveWindow x0 x1 x2) := by
  unfold State.moveWindow
  repeat' first | with_reducible assumption | with_reducible apply State.modCore_mem | with_reducible apply State.sched_mem | with_reducible apply State.unsched_mem | with_reducible apply State.schedInp_mem | with_reducible apply State.setRec_mem | with_reducible apply State.schedRestore_mem | with_reducible apply State.schedStart_mem | (lift_lets; intro z; refine State.Mem.cut z (fun hz => ?_) ?_; rotate_left; subst z; rotate_right) | (lift_lets; intro _) | (intro z; refine State.Mem.cut z (fun hz => ?_) ?_; rotate_left; subst z; rotate_right) | split | (change Memory.wf _ = true; dsimp only; change State.Mem _)

theorem State.compactOne_mem {x0 : State} {x1 : Window} (h0 : x0.Mem) : State.Mem (State.compactOne x0 x1) := by
  unfold State.compactOne
  repeat' first | with_reducible assumption | with_reducible apply State.moveWindow_mem | split

theorem State.compact_mem {x0 : State} (h0 : x0.Mem) : State.Mem (State.compact x0) := by
  unfold State.compact
  repeat' first | with_reducible assumption | refine fun _ _ (_ : State.Mem _) => ?_ | with_reducible apply State.compactOne_mem | with_reducible apply State.Mem.foldl

theorem State.dropWord_mem {x0 : State} {x1 x2 : Nat} (h0 : x0.Mem) : State.Mem (State.dropWord x0 x1 x2) := by
  unfold State.dropWord
  repeat' first | with_reducible assumption | with_reducible apply State.unsched_mem | with_reducible apply State.modCore_mem | with_reducible apply State.kickCommit_mem

theorem State.completion_mem {x0 : State} {x1 x2 x3 : Nat} (h0 : x0.Mem) : State.Mem (State.completion x0 x1 x2 x3) := by
  unfold State.completion
  repeat' first | with_reducible assumption | with_reducible apply State.kickCommit_mem | with_reducible apply State.setCore_mem | with_reducible apply State.sched_mem | with_reducible apply State.shiftVector_mem | with_reducible apply State.xFault_mem | with_reducible apply State.dropWord_mem | (lift_lets; intro _) | intro _ | split

theorem State.condBranch_mem {x0 : State} {x1 : List RegF} {x2 : Tgt} {x3 : State → Bool} (h0 : x0.Mem) : State.Mem (State.condBranch x0 x1 x2 x3) := by
  unfold State.condBranch
  repeat' first | with_reducible assumption | refine fun _ (_ : State.Mem _) => ?_ | with_reducible apply State.issue_mem | with_reducible apply State.interlock_mem | with_reducible apply Res.Mem.branch

theorem State.errorTask_mem {x0 : State} {x1 x2 : Nat} {x3 : Word} {x4 x5 x6 : Nat} (h0 : x0.Mem) : State.Mem (State.errorTask x0 x1 x2 x3 x4 x5 x6) := by
  unfold State.errorTask
  repeat' first | with_reducible assumption | with_reducible apply State.errorEntry_mem

theorem State.setRwin_mem {x0 : State} {x1 : RWin} (h0 : x0.Mem) : State.Mem (State.setRwin x0 x1) := by
  unfold State.setRwin
  repeat' first | with_reducible assumption | (change Memory.wf _ = true; dsimp only; change State.Mem _)

theorem State.contribHeld_mem {x0 : State} {x1 : Contrib} (h0 : x0.Mem) : State.Mem (State.contribHeld x0 x1) := by
  unfold State.contribHeld
  repeat' first | with_reducible assumption | with_reducible apply State.retireCmd_mem | with_reducible apply State.errorTask_mem | with_reducible apply State.setRwin_mem | with_reducible apply State.schedMemFree_mem | (lift_lets; intro z; refine State.Mem.cut z (fun hz => ?_) ?_; rotate_left; subst z; rotate_right) | (lift_lets; intro _) | (intro z; refine State.Mem.cut z (fun hz => ?_) ?_; rotate_left; subst z; rotate_right) | intro _ | split | (change Memory.wf _ = true; dsimp only; change State.Mem _)

theorem State.takeSlot_mem {x0 : State} {x1 : Nat} {x2 : Cmd} {x3 : Bool} (h0 : x0.Mem) : State.Mem (State.takeSlot x0 x1 x2 x3) := by
  unfold State.takeSlot
  repeat' first | with_reducible assumption | with_reducible apply State.modCore_mem

theorem State.contribArrive_mem {x0 : State} {x1 : Nat} (h0 : x0.Mem) : State.Mem (State.contribArrive x0 x1) := by
  unfold State.contribArrive
  repeat' first | with_reducible assumption | with_reducible apply State.contribHeld_mem | with_reducible apply State.sched_mem | with_reducible apply State.schedFree_mem | with_reducible apply State.takeSlot_mem | split

theorem State.copyDone_mem {x0 : State} {x1 : Nat} (h0 : x0.Mem) : State.Mem (State.copyDone x0 x1) := by
  unfold State.copyDone
  repeat' first | with_reducible assumption | with_reducible apply State.beginCopy_mem | with_reducible apply State.schedInp_mem | with_reducible apply State.setMigration_mem | split

theorem State.errorName_mem {x0 : State} {x1 x2 x3 : Nat} (h0 : x0.Mem) : State.Mem (State.errorName x0 x1 x2 x3) := by
  unfold State.errorName
  repeat' first | with_reducible assumption | refine fun _ _ (_ : State.Mem _) => ?_ | with_reducible apply State.errorEntry_mem | with_reducible apply State.Mem.foldl | (lift_lets; intro _) | split

theorem State.markSuspects_mem {x0 : State} {x1 x2 x3 : Nat} (h0 : x0.Mem) : State.Mem (State.markSuspects x0 x1 x2 x3).2 := by
  unfold State.markSuspects
  repeat' first | with_reducible assumption | refine fun _ _ (_ : State.Mem _) => ?_ | with_reducible apply State.modDir_mem | with_reducible apply State.errorName_mem | with_reducible apply State.addRec_mem | with_reducible apply State.Mem.foldl | (lift_lets; intro _) | split
theorem State.markSuspects_mem' {x0 : State} {x1 : Nat} {x2 : Nat} {x3 : Nat} {y : Nat} {t : State} (h0 : x0.Mem) (e : (State.markSuspects x0 x1 x2 x3) = (y, t)) :
    State.Mem t := by
  have : State.Mem (State.markSuspects x0 x1 x2 x3).2 := State.markSuspects_mem h0
  rw [e] at this
  exact this

theorem State.errorDie_mem {x0 : State} {x1 : Nat} {x2 : Word} {x3 : Nat} (h0 : x0.Mem) : State.Mem (State.errorDie x0 x1 x2 x3) := by
  unfold State.errorDie
  repeat' first | with_reducible assumption | with_reducible apply State.errorAll_mem

theorem State.persist_mem {x0 : State} {x1 : Nat} (h0 : x0.Mem) : State.Mem (State.persist x0 x1) := by
  unfold State.persist
  repeat' first | with_reducible assumption | (lift_lets; intro _) | (change Memory.wf _ = true; dsimp only; change State.Mem _)

theorem State.coreFailed_mem {x0 : State} {x1 x2 : Nat} (h0 : x0.Mem) : State.Mem (State.coreFailed x0 x1 x2) := by
  unfold State.coreFailed
  repeat' first | with_reducible assumption | with_reducible apply State.clearCore_mem | with_reducible apply State.setDie_mem | with_reducible apply State.modDie_mem | with_reducible apply State.markSuspects_mem | with_reducible apply State.errorDie_mem | with_reducible apply State.kick_mem | with_reducible apply State.persist_mem | (lift_lets; intro z; refine State.Mem.cut z (fun hz => ?_) ?_; rotate_left; subst z; rotate_right) | (lift_lets; intro _) | intro _ | split

theorem State.coreIdle_mem {x0 : State} {x1 : Nat} (h0 : x0.Mem) : State.Mem (State.coreIdle x0 x1) := by
  unfold State.coreIdle
  repeat' first | with_reducible assumption | with_reducible apply State.modDie_mem | with_reducible apply State.schedInp_mem | (lift_lets; intro _) | (intro z; refine State.Mem.cut z (fun hz => ?_) ?_; rotate_left; subst z; rotate_right) | split

theorem State.corePassed_mem {x0 : State} {x1 x2 x3 : Nat} (h0 : x0.Mem) : State.Mem (State.corePassed x0 x1 x2 x3) := by
  unfold State.corePassed
  repeat' first | with_reducible assumption | with_reducible apply State.modDie_mem | with_reducible apply State.persist_mem | with_reducible apply State.kick_mem | with_reducible apply State.schedInp_mem | (lift_lets; intro _) | split | (change Memory.wf _ = true; dsimp only; change State.Mem _)

theorem State.retire_mem {x0 : State} {x1 : Nat} {x2 : Bool} (h0 : x0.Mem) : State.Mem (State.retire x0 x1 x2) := by
  unfold State.retire
  repeat' first | with_reducible assumption | with_reducible apply State.schedInp_mem | split

theorem State.corrected_mem {x0 : State} {x1 : Nat} (h0 : x0.Mem) : State.Mem (State.corrected x0 x1) := by
  unfold State.corrected
  repeat' first | with_reducible assumption | with_reducible apply State.setDie_mem | with_reducible apply State.retire_mem | (lift_lets; intro _) | (intro z; refine State.Mem.cut z (fun hz => ?_) ?_; rotate_left; subst z; rotate_right) | intro _ | split

theorem State.ctxEnd_mem {x0 : State} {x1 x2 : Nat} (h0 : x0.Mem) : State.Mem (State.ctxEnd x0 x1 x2) := by
  unfold State.ctxEnd
  repeat' first | with_reducible assumption | with_reducible apply State.hostResult_mem | with_reducible apply State.stopContext_mem | with_reducible apply State.modCtx_mem | with_reducible apply State.checkContext_mem | (lift_lets; intro z; refine State.Mem.cut z (fun hz => ?_) ?_; rotate_left; subst z; rotate_right) | split

theorem State.raiseSvn_mem {x0 : State} {x1 x2 : Nat} (h0 : x0.Mem) : State.Mem (State.raiseSvn x0 x1 x2) := by
  unfold State.raiseSvn
  repeat' first | with_reducible assumption | (lift_lets; intro _) | (change Memory.wf _ = true; dsimp only; change State.Mem _)

theorem State.sigFail_mem {x0 : State} {x1 : Nat} (h0 : x0.Mem) : State.Mem (State.sigFail x0 x1) := by
  unfold State.sigFail
  repeat' first | with_reducible assumption | with_reducible apply State.errorAll_mem

theorem State.ctxNew_mem {x0 : State} {x1 x2 : Nat} (h0 : x0.Mem) : State.Mem (State.ctxNew x0 x1 x2) := by
  unfold State.ctxNew
  repeat' first | with_reducible assumption | with_reducible apply State.raiseSvn_mem | with_reducible apply State.hostResult_mem | with_reducible apply State.sigFail_mem | split | (change Memory.wf _ = true; dsimp only; change State.Mem _)

theorem State.cutBoundary_mem {x0 : State} {x1 : Nat} (h0 : x0.Mem) : State.Mem (State.cutBoundary x0 x1) := by
  unfold State.cutBoundary
  dsimp only
  repeat' first
    | with_reducible assumption
    | with_reducible apply State.dieLoss_mem
    | with_reducible apply State.packageStop_mem
    | with_reducible apply State.reformRing_mem
    | split
    | (change Memory.wf _ = true; dsimp only; change State.Mem _)

theorem State.damoArrive_mem {x0 : State} {x1 : Nat} (h0 : x0.Mem) : State.Mem (State.damoArrive x0 x1) := by
  unfold State.damoArrive
  repeat' first | with_reducible assumption | with_reducible apply hz | with_reducible apply State.sched_mem | (lift_lets; intro _) | (intro z; refine State.Mem.cutG z (fun hz => ?_) ?_; rotate_left; subst z; rotate_right) | intro _ | split | apply_assumption

theorem State.wake_mem {x0 : State} {x1 : Nat} (h0 : x0.Mem) : State.Mem (State.wake x0 x1) := by
  unfold State.wake
  repeat' first | with_reducible assumption | refine fun _ _ (_ : State.Mem _) => ?_ | with_reducible apply State.makeReady_mem | with_reducible apply State.Mem.foldl | split

theorem State.recoveryRecord_mem {x0 : State} {x1 : Lineage} (h0 : x0.Mem) : State.Mem (State.recoveryRecord x0 x1) := by
  unfold State.recoveryRecord
  repeat' first | with_reducible assumption | with_reducible apply State.inherit_mem | with_reducible apply State.addRec_mem | split

theorem State.walkBack_mem {x0 : State} {x1 : Lineage} (h0 : x0.Mem) : State.Mem (State.walkBack x0 x1) := by
  unfold State.walkBack
  repeat' first | with_reducible assumption | refine fun _ _ (_ : State.Mem _) => ?_ | with_reducible apply State.schedDarner_mem | with_reducible apply State.recoveryRecord_mem | with_reducible apply State.Mem.foldl | split

theorem State.endRebuilds_mem {x0 : State} {x1 : Nat} (h0 : x0.Mem) : State.Mem (State.endRebuilds x0 x1) := by
  unfold State.endRebuilds
  repeat' first | with_reducible assumption | refine fun _ _ (_ : State.Mem _) => ?_ | with_reducible apply State.endTask_mem | with_reducible apply State.endRec_mem | with_reducible apply State.Mem.foldl | split

theorem State.darn_mem {x0 : State} {x1 : Nat} (h0 : x0.Mem) : State.Mem (State.darn x0 x1) := by
  unfold State.darn
  repeat' first | with_reducible assumption | with_reducible apply State.copyFrames_mem | with_reducible apply State.wake_mem | with_reducible apply State.setDir_mem | with_reducible apply State.walkBack_mem | with_reducible apply State.endRebuilds_mem | with_reducible apply State.poison_mem | with_reducible apply State.errorName_mem | split

theorem State.decodeTrap_mem {x0 : State} {x1 : Cause} (h0 : x0.Mem) : State.Mem (State.decodeTrap x0 x1) := by
  unfold State.decodeTrap
  repeat' first | with_reducible assumption | with_reducible apply State.wordTrap_mem | with_reducible apply State.modCur_mem

theorem State.deliverOne_mem {x0 : State} {x1 : RWin} {x2 x3 : Nat} (h0 : x0.Mem) : State.Mem (State.deliverOne x0 x1 x2 x3).2 := by
  unfold State.deliverOne
  repeat' first | with_reducible assumption | with_reducible apply State.applyWrite_mem | with_reducible apply State.modTask_mem | (lift_lets; intro _) | (intro z; refine State.Mem.cut z (fun hz => ?_) ?_; rotate_left; subst z; rotate_right) | intro _ | split | (change Memory.wf _ = true; dsimp only; change State.Mem _)
theorem State.deliverOne_mem' {x0 : State} {x1 : RWin} {x2 : Nat} {x3 : Nat} {y : Bool} {t : State} (h0 : x0.Mem) (e : (State.deliverOne x0 x1 x2 x3) = (y, t)) :
    State.Mem t := by
  have : State.Mem (State.deliverOne x0 x1 x2 x3).2 := State.deliverOne_mem h0
  rw [e] at this
  exact this

theorem State.deliverAll_mem {x0 : RWin} {x1 : List (Nat × Nat)} {x2 : Nat} {x3 : State} (h3 : x3.Mem) : State.Mem (State.deliverAll x0 x1 x2 x3).2 := by
  induction x1 generalizing x2 x3 with
  | nil => exact h3
  | cons p t ih =>
    unfold State.deliverAll
    split
    · rename_i e
      exact ih (State.deliverOne_mem' h3 e)
    · rename_i e
      exact State.deliverOne_mem' h3 e
theorem State.deliverAll_mem' {x0 : RWin} {x1 : List (Nat × Nat)} {x2 : Nat} {x3 : State} {y : Nat} {t : State} (h3 : x3.Mem)
    (e : State.deliverAll x0 x1 x2 x3 = (y, t)) : State.Mem t := by
  have : State.Mem (State.deliverAll x0 x1 x2 x3).2 := State.deliverAll_mem h3
  rw [e] at this
  exact this

theorem State.deliver_mem {x0 : State} {x1 : Nat} (h0 : x0.Mem) : State.Mem (State.deliver x0 x1) := by
  unfold State.deliver
  repeat' first | with_reducible assumption | with_reducible apply State.schedMem_mem | with_reducible apply State.setRwin_mem | (lift_lets; intro _) | split | refine State.deliverAll_mem' ?_ (by assumption)

theorem State.readOut_mem {x0 : State} {x1 : Input} (h0 : x0.Mem) : State.Mem (State.readOut x0 x1) := by
  unfold State.readOut
  repeat' first | with_reducible assumption | (change Memory.wf _ = true; dsimp only; change State.Mem _)

theorem State.farAtomic_mem {x0 : State} {x1 x2 x3 : Nat} {x4 : Input} (h0 : x0.Mem) : State.Mem (State.farAtomic x0 x1 x2 x3 x4) := by
  unfold State.farAtomic
  repeat' first | with_reducible assumption | with_reducible apply State.applyWrite_mem | (lift_lets; intro _) | intro _ | split

theorem State.installHot_mem {x0 : State} {x1 : Nat} (h0 : x0.Mem) : State.Mem (State.installHot x0 x1) := by
  unfold State.installHot
  repeat' first | with_reducible assumption | with_reducible apply State.modDie_mem | with_reducible apply State.evictHot_mem | (lift_lets; intro _) | (intro z; refine State.Mem.cut z (fun hz => ?_) ?_; rotate_left; subst z; rotate_right) | intro _ | split

theorem State.kickHorizons_mem {x0 : State} {x1 : Nat} (h0 : x0.Mem) : State.Mem (State.kickHorizons x0 x1) := by
  unfold State.kickHorizons
  repeat' first | with_reducible assumption | refine fun _ _ (_ : State.Mem _) => ?_ | with_reducible apply State.drawLat_mem | with_reducible apply State.sched_mem | with_reducible apply State.Mem.foldl | split

theorem State.schedRing_mem {x0 : State} {x1 x2 : Nat} {x3 : Instr} {x4 : Input} (h0 : x0.Mem) : State.Mem (State.schedRing x0 x1 x2 x3 x4) := by
  unfold State.schedRing
  repeat' first | with_reducible assumption | with_reducible apply State.ringDue_mem | with_reducible apply State.schedInp_mem

theorem State.sendDamo_mem {x0 : State} {x1 : DamoOp} (h0 : x0.Mem) : State.Mem (State.sendDamo x0 x1) := by
  unfold State.sendDamo
  repeat' first | with_reducible assumption | with_reducible apply State.kickHorizons_mem | with_reducible apply State.schedRing_mem

theorem State.farDamo_mem {x0 : State} {x1 x2 x3 : Nat} {x4 : Input} (h0 : x0.Mem) : State.Mem (State.farDamo x0 x1 x2 x3 x4) := by
  unfold State.farDamo
  repeat' first | with_reducible assumption | with_reducible apply State.fresh_mem | with_reducible apply State.sendDamo_mem | (lift_lets; intro _) | (change Memory.wf _ = true; dsimp only; change State.Mem _)

theorem State.farPair_mem {x0 : State} {x1 : Nat} {x2 x3 : Bool} {x4 : Input} (h0 : x0.Mem) : State.Mem (State.farPair x0 x1 x2 x3 x4) := by
  unfold State.farPair
  repeat' first | with_reducible assumption | with_reducible apply State.fresh_mem | with_reducible apply State.sched_mem | (lift_lets; intro _) | (change Memory.wf _ = true; dsimp only; change State.Mem _)

theorem State.remoteAccess_mem {x0 : State} {x1 : Input} (h0 : x0.Mem) : State.Mem (State.remoteAccess x0 x1) := by
  unfold State.remoteAccess
  repeat' first | with_reducible assumption | with_reducible apply State.readOut_mem | with_reducible apply State.dramWrite_mem | with_reducible apply State.farAtomic_mem | with_reducible apply State.installHot_mem | with_reducible apply State.farDamo_mem | with_reducible apply State.farPair_mem | (lift_lets; intro _) | (intro z; refine State.Mem.cut z (fun hz => ?_) ?_; rotate_left; subst z; rotate_right) | intro _ | split

theorem State.drainEarly_mem {x0 : Nat} {x1 : State} {x2 : Delivery} (h1 : x1.Mem) : State.Mem (State.drainEarly x0 x1 x2).1 := by
  induction x0 generalizing x1 x2 with
  | zero => exact h1
  | succ n ih =>
    unfold State.drainEarly
    split
    · exact h1
    · exact ih (State.remoteAccess_mem h1)
theorem State.drainEarly_mem' {x0 : Nat} {x1 : State} {x2 : Delivery} {y : Delivery} {t : State} (h1 : x1.Mem) (e : State.drainEarly x0 x1 x2 = (t, y)) :
    State.Mem t := by
  have : State.Mem (State.drainEarly x0 x1 x2).1 := State.drainEarly_mem h1
  rw [e] at this
  exact this

theorem State.deliverPacket_mem {x0 : State} {x1 : Input} (h0 : x0.Mem) : State.Mem (State.deliverPacket x0 x1) := by
  unfold State.deliverPacket
  repeat' first | with_reducible assumption | with_reducible apply State.remoteAccess_mem | with_reducible apply State.drainEarly_mem | with_reducible apply State.sendFrame_mem | with_reducible apply State.setDelivery_mem | (lift_lets; intro z; refine State.Mem.cut z (fun hz => ?_) ?_; rotate_left; subst z; rotate_right) | (lift_lets; intro _) | intro _ | split

theorem State.depart_mem {x0 : State} {x1 x2 x3 : Nat} (h0 : x0.Mem) : State.Mem (State.depart x0 x1 x2 x3) := by
  unfold State.depart
  repeat' first | with_reducible assumption | with_reducible apply State.checkBarrier_mem | with_reducible apply State.setBarrier_mem | (lift_lets; intro _) | split | (change Memory.wf _ = true; dsimp only; change State.Mem _)

theorem State.dieIdle_mem {x0 : State} {x1 : Nat} (h0 : x0.Mem) : State.Mem (State.dieIdle x0 x1) := by
  unfold State.dieIdle
  repeat' first | with_reducible assumption | refine fun _ _ (_ : State.Mem _) => ?_ | with_reducible apply State.setDie_mem | with_reducible apply State.modCore_mem | with_reducible apply State.schedInp_mem | with_reducible apply State.Mem.foldl | (lift_lets; intro z; refine State.Mem.cut z (fun hz => ?_) ?_; rotate_left; subst z; rotate_right) | (lift_lets; intro _) | (intro z; refine State.Mem.cut z (fun hz => ?_) ?_; rotate_left; subst z; rotate_right) | intro _ | split

theorem State.discardQueued_mem {x0 : State} {x1 x2 : Nat} (h0 : x0.Mem) : State.Mem (State.discardQueued x0 x1 x2) := by
  unfold State.discardQueued
  repeat' first | with_reducible assumption | with_reducible apply State.modCore_mem | with_reducible apply State.unsched_mem | with_reducible apply State.discardCmds_mem | split

theorem State.displace_mem {x0 : State} {x1 : TaskRec} (h0 : x0.Mem) : State.Mem (State.displace x0 x1) := by
  unfold State.displace
  repeat' first | with_reducible assumption | with_reducible apply State.kick_mem | with_reducible apply State.unplaceRestore_mem | with_reducible apply State.restart_mem | split

theorem State.placeArmed_mem {x0 : State} {x1 : Nat} {x2 : Bool} (h0 : x0.Mem) : State.Mem (State.placeArmed x0 x1 x2) := by
  unfold State.placeArmed
  repeat' first | with_reducible assumption | with_reducible apply State.sched_mem | with_reducible apply State.dropWindows_mem | with_reducible apply State.addWindow_mem | with_reducible apply State.modCore_mem | (lift_lets; intro _) | (intro z; refine State.Mem.cut z (fun hz => ?_) ?_; rotate_left; subst z; rotate_right) | split

theorem State.drainDone_mem {x0 : State} {x1 : Nat} (h0 : x0.Mem) : State.Mem (State.drainDone x0 x1) := by
  unfold State.drainDone
  repeat' first | with_reducible assumption | with_reducible apply State.modCore_mem | with_reducible apply State.takeTrap_mem | with_reducible apply State.sched_mem | with_reducible apply State.setCore_mem | with_reducible apply State.placeArmed_mem | (lift_lets; intro _) | (intro z; refine State.Mem.cut z (fun hz => ?_) ?_; rotate_left; subst z; rotate_right) | intro _ | split

theorem State.drainStop_mem {x0 : State} {x1 : Nat} (h0 : x0.Mem) : State.Mem (State.drainStop x0 x1) := by
  unfold State.drainStop
  repeat' first | with_reducible assumption | with_reducible apply State.setCore_mem | with_reducible apply State.sched_mem | (lift_lets; intro _) | (intro z; refine State.Mem.cut z (fun hz => ?_) ?_; rotate_left; subst z; rotate_right) | split

theorem State.runStop_mem {x0 : State} {x1 : Bool} (h0 : x0.Mem) : State.Mem (State.runStop x0 x1) := by
  unfold State.runStop
  repeat' first | with_reducible assumption | with_reducible apply State.setAudit_mem | with_reducible apply State.endTask_mem | split

theorem State.fillCache_mem {x0 : State} {x1 : Nat} {x2 : PageTr} (h0 : x0.Mem) : State.Mem (State.fillCache x0 x1 x2) := by
  unfold State.fillCache
  repeat' first | with_reducible assumption | with_reducible apply State.setCore_mem | (lift_lets; intro _) | (intro z; refine State.Mem.cut z (fun hz => ?_) ?_; rotate_left; subst z; rotate_right) | intro _ | (change Memory.wf _ = true; dsimp only; change State.Mem _)

theorem State.walkWait_mem {x0 : State} {x1 : Nat} {x2 : Seq} {x3 : PageTr} (h0 : x0.Mem) : State.Mem (State.walkWait x0 x1 x2 x3) := by
  unfold State.walkWait
  repeat' first | with_reducible assumption | with_reducible apply State.drawLat_mem | with_reducible apply State.fillCache_mem | with_reducible apply State.modCore_mem

theorem State.useBridge_mem {x0 : State} {x1 : Nat} {x2 : List PageTr} {x3 : List (Nat × Nat)} (h0 : x0.Mem) : State.Mem (State.useBridge x0 x1 x2 x3) := by
  unfold State.useBridge
  repeat' first | with_reducible assumption | refine fun _ _ (_ : State.Mem _) => ?_ | with_reducible apply State.sendTo_mem | with_reducible apply State.Mem.foldl

theorem State.translated_mem {x0 : State} {x1 : Nat} {x2 : Bool} {x3 : List (Nat × Nat)} {x4 : List PageTr → State → Res} (h0 : x0.Mem) (h4 : ∀ (a0 : List PageTr) (a1 : State), a1.Mem → (x4 a0 a1).Mem) : Res.Mem (State.translated x0 x1 x2 x3 x4) := by
  unfold State.translated
  repeat' first | with_reducible assumption | with_reducible apply h4 | refine fun _ (_ : State.Mem _) => ?_ | with_reducible apply State.stopBadRead_mem | with_reducible apply State.walkWait_mem | with_reducible apply State.askRemote_mem | with_reducible apply State.modCur_mem | with_reducible apply State.useBridge_mem | with_reducible apply Res.Mem.whole | with_reducible apply Res.Mem.trap | with_reducible apply Res.Mem.wait | (lift_lets; intro _) | split

theorem State.holdLater_mem {x0 : State} {x1 : Bool} {x2 : Nat} (h0 : x0.Mem) : State.Mem (State.holdLater x0 x1 x2) := by
  unfold State.holdLater
  repeat' first | with_reducible assumption | with_reducible apply State.modCur_mem | split

theorem State.dramAtomic_mem {x0 : State} {x1 : Instr} {x2 x3 x4 x5 : RegF} {x6 : BitVec 4} {x7 : BitVec 2} {x8 : Ordr} {x9 : Bool} {x10 : Nat → Nat → State → State} (h0 : x0.Mem) (h10 : ∀ (a0 : Nat) (a1 : Nat) (a2 : State), a2.Mem → (x10 a0 a1 a2).Mem) : State.Mem (State.dramAtomic x0 x1 x2 x3 x4 x5 x6 x7 x8 x9 x10) := by
  unfold State.dramAtomic
  repeat' first | with_reducible assumption | with_reducible apply h10 | refine fun _ (_ : State.Mem _) => ?_ | refine fun _ _ (_ : State.Mem _) => ?_ | with_reducible apply State.issue_mem | with_reducible apply State.runStop_mem | with_reducible apply State.interlock_mem | with_reducible apply State.access_mem | with_reducible apply State.translated_mem | with_reducible apply State.stampFor_mem | with_reducible apply State.addCmd_mem | with_reducible apply State.holdLater_mem | with_reducible apply Res.Mem.done | with_reducible apply Res.Mem.whole | with_reducible apply Res.Mem.trap | with_reducible apply Res.Mem.wait | (lift_lets; intro _) | intro _ | split

theorem State.dramReturn_mem {x0 : State} {x1 x2 : Nat} (h0 : x0.Mem) : State.Mem (State.dramReturn x0 x1 x2) := by
  unfold State.dramReturn
  repeat' first | with_reducible assumption | with_reducible apply State.schedMem_mem | with_reducible apply State.retireCmd_mem | with_reducible apply State.stopBadRead_mem | with_reducible apply State.setCore_mem | with_reducible apply State.sched_mem | (lift_lets; intro _) | (intro z; refine State.Mem.cut z (fun hz => ?_) ?_; rotate_left; subst z; rotate_right) | intro _ | split

theorem State.dropCopies_mem {x0 : State} {x1 : Nat} (h0 : x0.Mem) : State.Mem (State.dropCopies x0 x1) := by
  unfold State.dropCopies
  repeat' first | with_reducible assumption | refine fun _ _ (_ : State.Mem _) => ?_ | with_reducible apply State.freeFrames_mem | with_reducible apply State.unsched_mem | with_reducible apply State.setDir_mem | with_reducible apply State.Mem.foldl | split

theorem State.dropDelivery_mem {x0 : State} {x1 : Input} {x2 : Bool} (h0 : x0.Mem) : State.Mem (State.dropDelivery x0 x1 x2) := by
  unfold State.dropDelivery
  repeat' first | with_reducible assumption | (change Memory.wf _ = true; dsimp only; change State.Mem _)

theorem State.dropImports_mem {x0 : State} (h0 : x0.Mem) : State.Mem (State.dropImports x0) := by
  unfold State.dropImports
  repeat' first | with_reducible assumption | refine fun _ _ (_ : State.Mem _) => ?_ | with_reducible apply State.sendTo_mem | with_reducible apply State.Mem.foldl | (change Memory.wf _ = true; dsimp only; change State.Mem _)

theorem State.dueForTest_mem {x0 : State} {x1 x2 : Nat} {x3 : Bool} (h0 : x0.Mem) : State.Mem (State.dueForTest x0 x1 x2 x3) := by
  unfold State.dueForTest
  repeat' first | with_reducible assumption | with_reducible apply State.setDie_mem | with_reducible apply State.addWindow_mem | with_reducible apply State.schedInp_mem | (lift_lets; intro _) | (intro z; refine State.Mem.cut z (fun hz => ?_) ?_; rotate_left; subst z; rotate_right) | split

theorem State.emitRrb_mem {x0 : State} (h0 : x0.Mem) : State.Mem (State.emitRrb x0) := by
  unfold State.emitRrb
  repeat' first | with_reducible assumption | with_reducible apply State.modCur_mem | split

theorem State.endWait_mem {x0 : State} (h0 : x0.Mem) : State.Mem (State.endWait x0) := by
  unfold State.endWait
  repeat' first | with_reducible assumption | with_reducible apply State.modCur_mem

theorem State.engTrap_mem {x0 : State} {x1 x2 : Nat} (h0 : x0.Mem) : State.Mem (State.engTrap x0 x1 x2) := by
  unfold State.engTrap
  repeat' first | with_reducible assumption | with_reducible apply State.setCore_mem | with_reducible apply State.discardQueued_mem | with_reducible apply State.modCore_mem | with_reducible apply State.endTask_mem | with_reducible apply State.takeTrap_mem | (lift_lets; intro z; refine State.Mem.cut z (fun hz => ?_) ?_; rotate_left; subst z; rotate_right) | (lift_lets; intro _) | (intro z; refine State.Mem.cut z (fun hz => ?_) ?_; rotate_left; subst z; rotate_right) | split

theorem State.engineFault_mem {x0 : State} {x1 x2 : Nat} {x3 : Cause} (h0 : x0.Mem) : State.Mem (State.engineFault x0 x1 x2 x3) := by
  unfold State.engineFault
  repeat' first | with_reducible assumption | with_reducible apply State.faultOf_mem | split

theorem State.openShadows_mem {x0 : State} {x1 : Nat} {x2 : List PageTr} (h0 : x0.Mem) : State.Mem (State.openShadows x0 x1 x2) := by
  unfold State.openShadows
  repeat' first | with_reducible assumption | refine fun _ _ (_ : State.Mem _) => ?_ | with_reducible apply State.setCore_mem | with_reducible apply State.Mem.foldl | (lift_lets; intro _) | intro _ | split

theorem State.enqueue_mem {x0 : State} {x1 : CopyNode} (h0 : x0.Mem) : Res.Mem (State.enqueue x0 x1) := by
  unfold State.enqueue
  repeat' first | with_reducible assumption | refine fun _ _ (_ : State.Mem _) => ?_ | with_reducible apply State.translated_mem | with_reducible apply State.openShadows_mem | with_reducible apply State.stampFor_mem | with_reducible apply State.sched_mem | with_reducible apply State.setCore_mem | with_reducible apply Res.Mem.done | with_reducible apply Res.Mem.trap | (lift_lets; intro _) | split

theorem State.enterPublish_mem {x0 : State} {x1 : TaskRec} {x2 : Nat} {x3 : Bool} {x4 : Stamp} (h0 : x0.Mem) : State.Mem (State.enterPublish x0 x1 x2 x3 x4).2 := by
  unfold State.enterPublish
  repeat' first | with_reducible assumption | with_reducible apply State.setDir_mem | split | (change Memory.wf _ = true; dsimp only; change State.Mem _)
theorem State.enterPublish_mem' {x0 : State} {x1 : TaskRec} {x2 : Nat} {x3 : Bool} {x4 : Stamp} {y : DirEnt} {t : State} (h0 : x0.Mem) (e : (State.enterPublish x0 x1 x2 x3 x4) = (y, t)) :
    State.Mem t := by
  have : State.Mem (State.enterPublish x0 x1 x2 x3 x4).2 := State.enterPublish_mem h0
  rw [e] at this
  exact this

theorem State.escalate_mem {x0 : State} {x1 : Nat} {x2 : TaskRec} (h0 : x0.Mem) : State.Mem (State.escalate x0 x1 x2) := by
  unfold State.escalate
  repeat' first | with_reducible assumption | with_reducible apply State.markDue_mem | with_reducible apply State.endRec_mem | with_reducible apply State.restart_mem | with_reducible apply State.setRec_mem | with_reducible apply State.addRec_mem | (lift_lets; intro z; refine State.Mem.cut z (fun hz => ?_) ?_; rotate_left; subst z; rotate_right) | (lift_lets; intro _) | (intro z; refine State.Mem.cut z (fun hz => ?_) ?_; rotate_left; subst z; rotate_right) | split

theorem State.exchangeKey_mem {x0 : State} {x1 : Nat} (h0 : x0.Mem) : State.Mem (State.exchangeKey x0 x1) := by
  unfold State.exchangeKey
  repeat' first | with_reducible assumption | with_reducible apply State.setLink_mem | with_reducible apply State.schedInpFree_mem | (lift_lets; intro _) | split | (change Memory.wf _ = true; dsimp only; change State.Mem _)

theorem State.exportAcked_mem {x0 : State} {x1 : Nat} {x2 : Option Nat} (h0 : x0.Mem) : State.Mem (State.exportAcked x0 x1 x2) := by
  unfold State.exportAcked
  repeat' first | with_reducible assumption | with_reducible apply State.exportsDone_mem | (change Memory.wf _ = true; dsimp only; change State.Mem _)

theorem State.export__mem {x0 : State} {x1 : Instr} {x2 : Input} (h0 : x0.Mem) : State.Mem (State.export_ x0 x1 x2) := by
  unfold State.export_
  repeat' first | with_reducible assumption | with_reducible apply State.hostResult_mem | with_reducible apply State.commandAgain_mem | with_reducible apply State.changeExport_mem | (lift_lets; intro _) | intro _ | split | (change Memory.wf _ = true; dsimp only; change State.Mem _)

theorem State.farEnd_mem {x0 : State} {x1 x2 : Nat} (h0 : x0.Mem) : State.Mem (State.farEnd x0 x1 x2) := by
  unfold State.farEnd
  repeat' first | with_reducible assumption | refine fun _ _ (_ : State.Mem _) => ?_ | with_reducible apply State.retireCmd_mem | with_reducible apply State.modCore_mem | with_reducible apply State.addrEnd_mem | with_reducible apply State.Mem.foldl

theorem State.failDelivery_mem {x0 : State} {x1 : Input} (h0 : x0.Mem) : State.Mem (State.failDelivery x0 x1) := by
  unfold State.failDelivery
  repeat' first | with_reducible assumption | refine fun _ _ (_ : State.Mem _) => ?_ | with_reducible apply State.farEnd_mem | with_reducible apply State.dropDelivery_mem | with_reducible apply State.raise_mem | with_reducible apply State.exportAcked_mem | with_reducible apply State.Mem.foldl

theorem State.unrebuilt_mem {x0 : State} {x1 : TaskRec} (h0 : x0.Mem) : State.Mem (State.unrebuilt x0 x1) := by
  unfold State.unrebuilt
  repeat' first | with_reducible assumption | refine fun _ _ (_ : State.Mem _) => ?_ | with_reducible apply State.poison_mem | with_reducible apply State.errorName_mem | with_reducible apply State.Mem.foldl

theorem State.unverified_mem {x0 : State} {x1 : TaskRec} (h0 : x0.Mem) : State.Mem (State.unverified x0 x1) := by
  unfold State.unverified
  repeat' first | with_reducible assumption | refine fun _ _ (_ : State.Mem _) => ?_ | with_reducible apply State.errorName_mem | with_reducible apply State.Mem.foldl

theorem State.recompare_mem {x0 : State} {x1 : TaskRec} (h0 : x0.Mem) : State.Mem (State.recompare x0 x1) := by
  unfold State.recompare
  repeat' first | with_reducible assumption | refine fun _ _ (_ : State.Mem _) => ?_ | with_reducible apply State.schedInp_mem | with_reducible apply State.Mem.foldl

theorem State.failed_mem {x0 : State} {x1 : Nat} {x2 : TaskRec} {x3 : Nat} {x4 : Word} (h0 : x0.Mem) : State.Mem (State.failed x0 x1 x2 x3 x4) := by
  unfold State.failed
  repeat' first | with_reducible assumption | with_reducible apply State.restart_mem | with_reducible apply State.endRec_mem | with_reducible apply State.setRec_mem | with_reducible apply State.unrebuilt_mem | with_reducible apply State.unverified_mem | with_reducible apply State.recompare_mem | with_reducible apply State.escalate_mem | with_reducible apply State.errorTask_mem | with_reducible apply State.poison_mem | (lift_lets; intro z; refine State.Mem.cut z (fun hz => ?_) ?_; rotate_left; subst z; rotate_right) | (lift_lets; intro _) | (intro z; refine State.Mem.cut z (fun hz => ?_) ?_; rotate_left; subst z; rotate_right) | intro _ | split | (change Memory.wf _ = true; dsimp only; change State.Mem _)

theorem State.pairWrite_mem {x0 : State} {x1 : Nat} {x2 : PageTr} {x3 : Nat} {x4 : List Byte} {x5 : Cmd} (h0 : x0.Mem) : State.Mem (State.pairWrite x0 x1 x2 x3 x4 x5) := by
  unfold State.pairWrite
  repeat' first | with_reducible assumption | with_reducible apply State.taskWrite_mem | with_reducible apply State.applyWrite_mem | split

theorem State.fallThrough_mem {x0 : State} {x1 : Nat} (h0 : x0.Mem) : State.Mem (State.fallThrough x0 x1) := by
  have drop {s : State} (h : s.Mem) : State.Mem { s with pairs := s.pairs.filter fun x => x.id ≠ x1 } := h
  unfold State.fallThrough
  dsimp only
  repeat' first
    | with_reducible assumption
    | with_reducible apply drop
    | with_reducible apply State.retireCmd_mem
    | with_reducible apply State.stopBadRead_mem
    | with_reducible apply State.engineFault_mem
    | with_reducible apply State.schedMem_mem
    | with_reducible apply State.pairWrite_mem
    | with_reducible apply State.pairDone_mem
    | split

theorem State.farHorizon_mem {x0 : State} {x1 : Nat} (h0 : x0.Mem) : State.Mem (State.farHorizon x0 x1) := by
  unfold State.farHorizon
  repeat' first | with_reducible assumption | (lift_lets; intro _) | split | refine State.drawLat_mem' ?_ (by assumption) | (change Memory.wf _ = true; dsimp only; change State.Mem _)

theorem State.fillDone_mem {x0 : State} {x1 : Nat} (h0 : x0.Mem) : State.Mem (State.fillDone x0 x1) := by
  unfold State.fillDone
  repeat' first | with_reducible assumption | with_reducible apply State.modDie_mem | (lift_lets; intro _) | intro _ | split

theorem State.fillHere_mem {x0 : State} {x1 x2 : Nat} (h0 : x0.Mem) : State.Mem (State.fillHere x0 x1 x2) := by
  unfold State.fillHere
  repeat' first | with_reducible assumption | with_reducible apply State.copyFrames_mem | with_reducible apply State.setDir_mem | split

theorem State.fillStage_mem {x0 : State} {x1 : Nat} {x2 : Input} (h0 : x0.Mem) : State.Mem (State.fillStage x0 x1 x2) := by
  unfold State.fillStage
  repeat' first | with_reducible assumption | with_reducible apply State.schedInp_mem | with_reducible apply State.sched_mem | (lift_lets; intro _) | split

theorem State.finishTask_mem {x0 : State} {x1 : Nat} (h0 : x0.Mem) : State.Mem (State.finishTask x0 x1) := by
  unfold State.finishTask
  repeat' first | with_reducible assumption | with_reducible apply State.vacate_mem | with_reducible apply State.failed_mem | with_reducible apply State.endRec_mem | with_reducible apply State.errorTask_mem | with_reducible apply State.recompare_mem | (lift_lets; intro z; refine State.Mem.cut z (fun hz => ?_) ?_; rotate_left; subst z; rotate_right) | (lift_lets; intro _) | intro _ | split

theorem State.firstRow_mem {x0 : State} {x1 : Nat} {x2 : Cmd} {x3 x4 x5 x6 : Nat} (h0 : x0.Mem) : State.Mem (State.firstRow x0 x1 x2 x3 x4 x5 x6) := by
  unfold State.firstRow
  repeat' first | with_reducible assumption | with_reducible apply State.modCore_mem

theorem State.forwardPair_mem {x0 : State} {x1 : PairOp} (h0 : x0.Mem) : State.Mem (State.forwardPair x0 x1) := by
  unfold State.forwardPair
  repeat' first | with_reducible assumption | with_reducible apply State.setPairBuf_mem | with_reducible apply State.setPair_mem | with_reducible apply State.schedMemFree_mem | with_reducible apply State.schedRing_mem | (lift_lets; intro z; refine State.Mem.cut z (fun hz => ?_) ?_; rotate_left; subst z; rotate_right) | (lift_lets; intro _) | (intro z; refine State.Mem.cut z (fun hz => ?_) ?_; rotate_left; subst z; rotate_right) | intro _ | split

theorem State.frameAck_mem {x0 : State} {x1 : Nat} {x2 : Bool} {x3 : Nat} (h0 : x0.Mem) : State.Mem (State.frameAck x0 x1 x2 x3) := by
  unfold State.frameAck
  repeat' first | with_reducible assumption | with_reducible apply State.setLink_mem

theorem State.sendNak_mem {x0 : State} {x1 x2 : Nat} (h0 : x0.Mem) : State.Mem (State.sendNak x0 x1 x2) := by
  unfold State.sendNak
  repeat' first | with_reducible assumption | with_reducible apply State.setLink_mem | (lift_lets; intro _) | split

theorem State.frameIn_mem {x0 : State} {x1 x2 : Nat} {x3 x4 x5 : Bool} (h0 : x0.Mem) : State.Mem (State.frameIn x0 x1 x2 x3 x4 x5) := by
  unfold State.frameIn
  repeat' first | with_reducible assumption | with_reducible apply State.setLink_mem | with_reducible apply State.schedInpFree_mem | with_reducible apply State.sendNak_mem | with_reducible apply State.linkAlarm_mem | (lift_lets; intro _) | (intro z; refine State.Mem.cut z (fun hz => ?_) ?_; rotate_left; subst z; rotate_right) | split

theorem State.frameNak_mem {x0 : State} {x1 x2 : Nat} (h0 : x0.Mem) : State.Mem (State.frameNak x0 x1 x2) := by
  unfold State.frameNak
  repeat' first | with_reducible assumption | with_reducible apply State.setLink_mem | (lift_lets; intro _) | intro _ | split

theorem State.listFrame_mem {x0 : State} {x1 : Nat} {x2 : Bool} (h0 : x0.Mem) : State.Mem (State.listFrame x0 x1 x2) := by
  unfold State.listFrame
  repeat' first | with_reducible assumption | with_reducible apply State.errorDie_mem | (lift_lets; intro _) | split | (change Memory.wf _ = true; dsimp only; change State.Mem _)

theorem State.freeOld_mem {x0 : State} {x1 : Nat} (h0 : x0.Mem) : State.Mem (State.freeOld x0 x1) := by
  unfold State.freeOld
  repeat' first | with_reducible assumption | with_reducible apply State.errorDie_mem | with_reducible apply State.listFrame_mem | with_reducible apply State.hostResult_mem | (lift_lets; intro z; refine State.Mem.cut z (fun hz => ?_) ?_; rotate_left; subst z; rotate_right) | split | (change Memory.wf _ = true; dsimp only; change State.Mem _)

theorem State.installTest_mem {x0 : State} {x1 : TestPkg} (h0 : x0.Mem) : State.Mem (State.installTest x0 x1) := by
  unfold State.installTest
  repeat' first | with_reducible assumption | refine fun _ _ (_ : State.Mem _) => ?_ | with_reducible apply State.modDie_mem | with_reducible apply State.schedInp_mem | with_reducible apply State.Mem.foldl

theorem State.fwStage_mem {x0 : State} {x1 : Nat} (h0 : x0.Mem) : State.Mem (State.fwStage x0 x1) := by
  unfold State.fwStage
  repeat' first | with_reducible assumption | with_reducible apply State.sigFail_mem | with_reducible apply State.raiseSvn_mem | with_reducible apply State.installTest_mem | (lift_lets; intro _) | (intro z; refine State.Mem.cut z (fun hz => ?_) ?_; rotate_left; subst z; rotate_right) | split | (change Memory.wf _ = true; dsimp only; change State.Mem _)

theorem State.gather_mem {x0 : State} {x1 x2 x3 : Nat} (h0 : x0.Mem) : State.Mem (State.gather x0 x1 x2 x3) := by
  unfold State.gather
  repeat' first | with_reducible assumption | with_reducible apply hz | refine fun _ (_ : State.Mem _) => ?_ | with_reducible apply State.schedMem_mem | with_reducible apply State.firstRow_mem | with_reducible apply State.setCore_mem | with_reducible apply State.schedMemFree_mem | with_reducible apply State.sched_mem | with_reducible apply State.engineFault_mem | with_reducible apply State.retireCmd_mem | with_reducible apply State.stopBadRead_mem | with_reducible apply State.fillCache_mem | with_reducible apply State.taskWrite_mem | (lift_lets; intro z; refine State.Mem.cut z (fun hz => ?_) ?_; rotate_left; subst z; rotate_right) | (lift_lets; intro _) | (intro z; refine State.Mem.cutF z (fun hz => ?_) ?_; rotate_left; subst z; rotate_right) | intro _ | split

theorem State.giveBack_mem {x0 : State} {x1 : Nat} (h0 : x0.Mem) : State.Mem (State.giveBack x0 x1) := by
  unfold State.giveBack
  repeat' first | with_reducible assumption | with_reducible apply State.setRec_mem | with_reducible apply State.setLaunch_mem | with_reducible apply State.dropWindows_mem | with_reducible apply State.checkContext_mem | with_reducible apply State.checkLaunch_mem | (lift_lets; intro z; refine State.Mem.cut z (fun hz => ?_) ?_; rotate_left; subst z; rotate_right) | split

theorem State.giveUp_mem {x0 : State} {x1 : Nat} (h0 : x0.Mem) : State.Mem (State.giveUp x0 x1) := by
  unfold State.giveUp
  repeat' first | with_reducible assumption | refine fun _ _ (_ : State.Mem _) => ?_ | with_reducible apply State.retireCmd_mem | with_reducible apply State.modCore_mem | with_reducible apply State.unsched_mem | with_reducible apply State.releaseRun_mem | with_reducible apply State.Mem.foldl | (lift_lets; intro z; refine State.Mem.cut z (fun hz => ?_) ?_; rotate_left; subst z; rotate_right) | (lift_lets; intro _) | (intro z; refine State.Mem.cut z (fun hz => ?_) ?_; rotate_left; subst z; rotate_right) | split

theorem State.groupRead_mem {x0 : State} {x1 x2 x3 : Nat} (h0 : x0.Mem) : State.Mem (State.groupRead x0 x1 x2 x3) := by
  unfold State.groupRead
  repeat' first | with_reducible assumption | with_reducible apply State.setCore_mem | with_reducible apply State.sched_mem | with_reducible apply State.shiftVector_mem | with_reducible apply State.xFault_mem | with_reducible apply State.dropWord_mem | (lift_lets; intro z; refine State.Mem.cut z (fun hz => ?_) ?_; rotate_left; subst z; rotate_right) | (lift_lets; intro _) | intro _ | split | (change Memory.wf _ = true; dsimp only; change State.Mem _)

theorem State.memWord_mem {x0 : State} {x1 : List RegF} {x2 : State → Res} (h0 : x0.Mem) (h2 : ∀ (a0 : State), a0.Mem → (x2 a0).Mem) : State.Mem (State.memWord x0 x1 x2) := by
  unfold State.memWord
  repeat' first | with_reducible assumption | refine fun _ (_ : State.Mem _) => ?_ | with_reducible apply State.issue_mem | with_reducible apply State.interlock_mem | with_reducible apply State.access_mem

theorem State.gseWord_mem {x0 : State} {x1 : List RegF} {x2 x3 : BitVec 5} {x4 : BitVec 24} {x5 : State → Option (Cmd × State)} (h0 : x0.Mem)
    (h5 : ∀ t m u, State.Mem t → x5 t = some (m, u) → u.Mem) : State.Mem (State.gseWord x0 x1 x2 x3 x4 x5) := by
  refine State.memWord_mem h0 fun t ht => ?_
  dsimp only
  split
  · exact Res.Mem.trap
  · cases e : x5 t with
    | none => exact Res.Mem.wait
    | some p =>
      obtain ⟨m, u⟩ := p
      dsimp only
      split
      · exact Res.Mem.full
      · exact Res.Mem.done (State.schedMem_mem (State.addCmd_mem (State.stampFor_mem (h5 _ _ _ ht e))))

theorem State.handOver_mem {x0 : State} {x1 : Instr} {x2 : BitVec 32} (h0 : x0.Mem) : State.Mem (State.handOver x0 x1 x2) := by
  unfold State.handOver
  repeat' first | with_reducible assumption | refine fun _ (_ : State.Mem _) => ?_ | with_reducible apply State.issue_mem | with_reducible apply State.setCore_mem | with_reducible apply State.kickMatrix_mem | with_reducible apply State.modCur_mem | with_reducible apply Res.Mem.done | with_reducible apply Res.Mem.full | (lift_lets; intro _) | (intro z; refine State.Mem.cut z (fun hz => ?_) ?_; rotate_left; subst z; rotate_right) | intro _ | split | refine State.stampFor_mem' ?_ (by assumption)

theorem State.hearHorizon_mem {x0 : State} {x1 x2 x3 : Nat} (h0 : x0.Mem) : State.Mem (State.hearHorizon x0 x1 x2 x3) := by
  unfold State.hearHorizon
  repeat' first | with_reducible assumption | with_reducible apply State.setDau_mem | with_reducible apply State.schedUnit_mem | (lift_lets; intro _) | (intro z; refine State.Mem.cut z (fun hz => ?_) ?_; rotate_left; subst z; rotate_right) | split

theorem State.heat_mem {x0 : State} {x1 : Nat} {x2 : BitVec 16} (h0 : x0.Mem) : State.Mem (State.heat x0 x1 x2) := by
  unfold State.heat
  repeat' first | with_reducible assumption | with_reducible apply State.kick_mem | with_reducible apply State.seekAll_mem | with_reducible apply State.schedInp_mem | (lift_lets; intro _) | (intro z; refine State.Mem.cut z (fun hz => ?_) ?_; rotate_left; subst z; rotate_right) | intro _ | split | (change Memory.wf _ = true; dsimp only; change State.Mem _)

theorem State.holdPublish_mem {x0 : State} {x1 : Nat} {x2 : TaskRec} {x3 x4 : Nat} (h0 : x0.Mem) : State.Mem (State.holdPublish x0 x1 x2 x3 x4) := by
  unfold State.holdPublish
  repeat' first | with_reducible assumption | with_reducible apply State.modCore_mem | with_reducible apply State.sched_mem | with_reducible apply State.schedInp_mem | (lift_lets; intro z; refine State.Mem.cut z (fun hz => ?_) ?_; rotate_left; subst z; rotate_right) | (lift_lets; intro _) | (intro z; refine State.Mem.cut z (fun hz => ?_) ?_; rotate_left; subst z; rotate_right) | intro _ | split | refine State.stampFor_mem' ?_ (by assumption) | (change Memory.wf _ = true; dsimp only; change State.Mem _)

theorem State.homeWrite_mem {x0 : State} {x1 : Nat} {x2 : List PageTr} {x3 : Nat} {x4 : List Byte} {x5 : Stamp} {x6 : Nat} (h0 : x0.Mem) : State.Mem (State.homeWrite x0 x1 x2 x3 x4 x5 x6) := by
  unfold State.homeWrite
  repeat' first | with_reducible assumption | with_reducible apply State.taskWrite_mem | with_reducible apply State.writeOne_mem | split

theorem State.horizon_mem {x0 : State} {x1 x2 : Nat} (h0 : x0.Mem) : State.Mem (State.horizon x0 x1 x2) := by
  unfold State.horizon
  repeat' first | with_reducible assumption | with_reducible apply State.farHorizon_mem | with_reducible apply State.schedRing_mem | with_reducible apply State.drawLat_mem | with_reducible apply State.sched_mem | (lift_lets; intro z; refine State.Mem.cut z (fun hz => ?_) ?_; rotate_left; subst z; rotate_right) | (lift_lets; intro _) | split

theorem State.hostCommand_mem {x0 : State} {x1 : Instr} {x2 : State → State} (h0 : x0.Mem) (h2 : ∀ (a0 : State), a0.Mem → (x2 a0).Mem) : State.Mem (State.hostCommand x0 x1 x2) := by
  unfold State.hostCommand
  repeat' first | with_reducible assumption | with_reducible apply h2 | with_reducible apply State.raise_mem | with_reducible apply State.schedInp_mem | (lift_lets; intro _) | (intro z; refine State.Mem.cut z (fun hz => ?_) ?_; rotate_left; subst z; rotate_right) | intro _ | split | (change Memory.wf _ = true; dsimp only; change State.Mem _)

theorem State.hostWrite_mem {x0 : State} {x1 : Nat} {x2 : List Byte} (h0 : x0.Mem) : State.Mem (State.hostWrite x0 x1 x2) := by
  unfold State.hostWrite
  repeat' first | with_reducible assumption | with_reducible apply State.unitStamp_mem | with_reducible apply State.dramWrite_mem

theorem State.versionFrame_mem {x0 : State} {x1 x2 : Nat} (h0 : x0.Mem) : State.Mem (State.versionFrame x0 x1 x2).2 := by
  unfold State.versionFrame
  repeat' first | with_reducible assumption | with_reducible apply State.newFrame_mem | with_reducible apply State.modDir_mem | split
theorem State.versionFrame_mem' {x0 : State} {x1 : Nat} {x2 : Nat} {y : Nat} {t : State} (h0 : x0.Mem) (e : (State.versionFrame x0 x1 x2) = (y, t)) :
    State.Mem t := by
  have : State.Mem (State.versionFrame x0 x1 x2).2 := State.versionFrame_mem h0
  rw [e] at this
  exact this

theorem State.replaceFrame_mem {x0 : State} {x1 : Nat} {x2 : List Host.Cell} {x3 : List Nat} (h0 : x0.Mem) :
    State.Mem (State.replaceFrame x0 x1 x2 x3) :=
  State.Mem.foldl (fun _ _ h => State.modDie_mem h)
    (State.unpoison_mem (SMap.puts_wf _ _ _ (Memory.zeroRange_wf _ _ (State.evictHot_mem h0))))

theorem State.installVersion_mem {x0 : State} {x1 x2 : Nat} {x3 : List Shadow} (h0 : x0.Mem) : State.Mem (State.installVersion x0 x1 x2 x3) := by
  unfold State.installVersion
  repeat' first | with_reducible assumption | refine fun _ _ (_ : State.Mem _) => ?_ | with_reducible apply State.versionFrame_mem | with_reducible apply State.replaceFrame_mem | with_reducible apply State.dropCopies_mem | with_reducible apply State.Mem.foldl

theorem State.invalsDone_mem {x0 : State} (h0 : x0.Mem) : State.Mem (State.invalsDone x0) := by
  unfold State.invalsDone
  repeat' first | with_reducible assumption | refine fun _ _ (_ : State.Mem _) => ?_ | with_reducible apply State.hostResult_mem | with_reducible apply State.Mem.foldl | (lift_lets; intro _) | split | (change Memory.wf _ = true; dsimp only; change State.Mem _)

theorem State.inval_mem {x0 : State} {x1 x2 : Nat} (h0 : x0.Mem) : State.Mem (State.inval x0 x1 x2) := by
  unfold State.inval
  repeat' first | with_reducible assumption | with_reducible apply State.hostResult_mem | with_reducible apply State.invalsDone_mem | (lift_lets; intro _) | (intro z; refine State.Mem.cut z (fun hz => ?_) ?_; rotate_left; subst z; rotate_right) | intro _ | split | (change Memory.wf _ = true; dsimp only; change State.Mem _)

theorem State.invalidateImport_mem {x0 : State} {x1 x2 : Nat} (h0 : x0.Mem) : State.Mem (State.invalidateImport x0 x1 x2) := by
  unfold State.invalidateImport
  repeat' first | with_reducible assumption | with_reducible apply State.dropImports_mem | (change Memory.wf _ = true; dsimp only; change State.Mem _)

theorem State.jump_mem {x0 : State} {x1 : List RegF} {x2 : State → Tgt} (h0 : x0.Mem) : State.Mem (State.jump x0 x1 x2) := by
  unfold State.jump
  repeat' first | with_reducible assumption | refine fun _ (_ : State.Mem _) => ?_ | with_reducible apply State.issue_mem | with_reducible apply State.interlock_mem | with_reducible apply Res.Mem.branch

theorem State.lateData_mem {x0 : State} {x1 : Nat} (h0 : x0.Mem) : State.Mem (State.lateData x0 x1) := by
  unfold State.lateData
  repeat' first | with_reducible assumption | refine fun _ _ (_ : State.Mem _) => ?_ | with_reducible apply State.Mem.foldl | (change Memory.wf _ = true; dsimp only; change State.Mem _)

theorem State.rejectTo_mem {x0 : State} {x1 : Option Nat} {x2 x3 x4 : Nat} (h0 : x0.Mem) : State.Mem (State.rejectTo x0 x1 x2 x3 x4) := by
  unfold State.rejectTo
  repeat' first | with_reducible assumption | with_reducible apply State.raise_mem | with_reducible apply State.errorTask_mem | (lift_lets; intro _) | split | (change Memory.wf _ = true; dsimp only; change State.Mem _)

theorem State.launchUnread_mem {x0 : State} {x1 : Option Nat} {x2 x3 x4 x5 : Nat} (h0 : x0.Mem) : State.Mem (State.launchUnread x0 x1 x2 x3 x4 x5) := by
  unfold State.launchUnread
  repeat' first | with_reducible assumption | with_reducible apply State.errorTask_mem | with_reducible apply State.rejectTo_mem | with_reducible apply State.errorEntry_mem | split

theorem State.packageIdle_mem {x0 : State} (h0 : x0.Mem) : State.Mem (State.packageIdle x0) := by
  unfold State.packageIdle
  repeat' first | with_reducible assumption | (lift_lets; intro _) | intro _ | split | (change Memory.wf _ = true; dsimp only; change State.Mem _)

theorem State.linkPower_mem {x0 : State} {x1 : Bool} (h0 : x0.Mem) : State.Mem (State.linkPower x0 x1) := by
  unfold State.linkPower
  repeat' first | with_reducible assumption | with_reducible apply State.packageIdle_mem | (lift_lets; intro _) | (change Memory.wf _ = true; dsimp only; change State.Mem _)

theorem State.loadMaps_mem {x0 : State} (h0 : x0.Mem) : State.Mem (State.loadMaps x0) := by
  unfold State.loadMaps
  repeat' first | with_reducible assumption | refine fun _ _ (_ : State.Mem _) => ?_ | with_reducible apply State.modDie_mem | with_reducible apply State.Mem.foldl

theorem State.loadPush_mem {x0 : State} {x1 x2 : Nat} (h0 : x0.Mem) : State.Mem (State.loadPush x0 x1 x2) := by
  unfold State.loadPush
  repeat' first | with_reducible assumption | with_reducible apply State.sched_mem | with_reducible apply State.engineFault_mem | with_reducible apply State.retireCmd_mem | with_reducible apply State.setCore_mem | with_reducible apply State.faultOf_mem | (lift_lets; intro _) | (intro z; refine State.Mem.cut z (fun hz => ?_) ?_; rotate_left; subst z; rotate_right) | split

theorem State.loopOn_mem {x0 : State} {x1 : BitVec 2} {x2 : List RegF} {x3 : State → Nat} {x4 : Tgt} (h0 : x0.Mem) : State.Mem (State.loopOn x0 x1 x2 x3 x4) := by
  unfold State.loopOn
  repeat' first | with_reducible assumption | refine fun _ (_ : State.Mem _) => ?_ | with_reducible apply State.issue_mem | with_reducible apply State.interlock_mem | with_reducible apply State.modCur_mem | with_reducible apply Res.Mem.done | with_reducible apply Res.Mem.skip | (lift_lets; intro _) | intro _ | split

theorem State.loseFrame_mem {x0 : State} {x1 : Nat} (h0 : x0.Mem) : State.Mem (State.loseFrame x0 x1) := by
  unfold State.loseFrame
  repeat' first | with_reducible assumption | with_reducible apply State.loseAll_mem | (change Memory.wf _ = true; dsimp only; change State.Mem _)

theorem State.mcGroup_mem {x0 : State} {x1 : Nat} (h0 : x0.Mem) : State.Mem (State.mcGroup x0 x1) := by
  unfold State.mcGroup
  repeat' first | with_reducible assumption | with_reducible apply State.hostResult_mem | (lift_lets; intro _) | intro _ | split | (change Memory.wf _ = true; dsimp only; change State.Mem _)

theorem State.meet_mem {x0 : State} {x1 : Nat} (h0 : x0.Mem) : State.Mem (State.meet x0 x1) := by
  unfold State.meet
  repeat' first | with_reducible assumption | with_reducible apply State.meetingTrap_mem | with_reducible apply State.sched_mem | with_reducible apply State.unsched_mem | with_reducible apply State.setCore_mem | (lift_lets; intro _) | intro _ | split

theorem State.startMigration_mem {x0 : State} {x1 : Migration} (h0 : x0.Mem) : State.Mem (State.startMigration x0 x1) := by
  unfold State.startMigration
  repeat' first | with_reducible assumption | with_reducible apply State.schedInp_mem | (change Memory.wf _ = true; dsimp only; change State.Mem _)

theorem State.migrate_mem {x0 : State} {x1 : Input} (h0 : x0.Mem) : State.Mem (State.migrate x0 x1) := by
  unfold State.migrate
  repeat' first | with_reducible assumption | with_reducible apply State.hostResult_mem | with_reducible apply State.commandAgain_mem | with_reducible apply State.startMigration_mem | (lift_lets; intro _) | intro _ | split

theorem State.migrationsFree_mem {x0 : State} (h0 : x0.Mem) : State.Mem (State.migrationsFree x0) := by
  unfold State.migrationsFree
  repeat' first | with_reducible assumption | refine fun _ _ (_ : State.Mem _) => ?_ | with_reducible apply State.schedInp_mem | with_reducible apply State.Mem.foldl | (lift_lets; intro _) | split

theorem State.modeWord_mem {x0 : State} {x1 : Bool} (h0 : x0.Mem) : State.Mem (State.modeWord x0 x1) := by
  unfold State.modeWord
  repeat' first | with_reducible assumption | refine fun _ (_ : State.Mem _) => ?_ | with_reducible apply State.issue_mem | with_reducible apply State.modCur_mem | with_reducible apply State.sched_mem | with_reducible apply State.meet_mem | with_reducible apply State.unsched_mem | with_reducible apply Res.Mem.done | with_reducible apply Res.Mem.trap | (lift_lets; intro z; refine State.Mem.cut z (fun hz => ?_) ?_; rotate_left; subst z; rotate_right) | (lift_lets; intro _) | (intro z; refine State.Mem.cut z (fun hz => ?_) ?_; rotate_left; subst z; rotate_right) | intro _ | split

theorem State.multicast_mem {x0 : State} {x1 : Input} (h0 : x0.Mem) : State.Mem (State.multicast x0 x1) := by
  unfold State.multicast
  dsimp only
  split
  · exact State.writeOne_mem h0
  · split
    · exact h0
    · split
      · exact h0
      · exact State.Mem.foldl (fun _ _ h => State.writeOne_mem h) h0

theorem dropHeld_mem {x0 : Nat} {x1 : State} (h1 : x1.Mem) : State.Mem (dropHeld x0 x1) := by
  unfold dropHeld
  repeat' first | with_reducible assumption | (change Memory.wf _ = true; dsimp only; change State.Mem _)

theorem State.noVote_mem {x0 : State} {x1 : Nat} (h0 : x0.Mem) : State.Mem (State.noVote x0 x1) := by
  unfold State.noVote
  repeat' first | with_reducible assumption | with_reducible apply State.poison_mem | with_reducible apply State.errorName_mem | with_reducible apply dropHeld_mem

theorem State.nodeRetire_mem {x0 : State} {x1 x2 : Nat} (h0 : x0.Mem) : State.Mem (State.nodeRetire x0 x1 x2) := by
  unfold State.nodeRetire
  repeat' first | with_reducible assumption | with_reducible apply State.sched_mem | with_reducible apply State.unpin_mem | with_reducible apply State.setCore_mem | (lift_lets; intro _) | intro _ | split

theorem State.nodeStart_mem {x0 : State} {x1 x2 : Nat} (h0 : x0.Mem) : State.Mem (State.nodeStart x0 x1 x2) := by
  unfold State.nodeStart
  repeat' first | with_reducible assumption | with_reducible apply State.sched_mem | with_reducible apply State.unitGo_mem | with_reducible apply State.setCore_mem | (lift_lets; intro _) | (intro z; refine State.Mem.cut z (fun hz => ?_) ?_; rotate_left; subst z; rotate_right) | split

theorem State.noteWait_mem {x0 : State} {x1 : Nat} (h0 : x0.Mem) : State.Mem (State.noteWait x0 x1) := by
  unfold State.noteWait
  repeat' first | with_reducible assumption | with_reducible apply State.modCur_mem

theorem State.openTarget_mem {x0 : State} {x1 : Input} (h0 : x0.Mem) : State.Mem (State.openTarget x0 x1) := by
  unfold State.openTarget
  repeat' first | with_reducible assumption | with_reducible apply State.sendFrame_mem | with_reducible apply State.dropDelivery_mem | with_reducible apply State.schedInp_mem | with_reducible apply State.remoteAccess_mem | (lift_lets; intro z; refine State.Mem.cut z (fun hz => ?_) ?_; rotate_left; subst z; rotate_right) | (lift_lets; intro _) | (intro z; refine State.Mem.cut z (fun hz => ?_) ?_; rotate_left; subst z; rotate_right) | split | (change Memory.wf _ = true; dsimp only; change State.Mem _)

theorem State.overrun_mem {x0 : State} {x1 : Nat} (h0 : x0.Mem) : State.Mem (State.overrun x0 x1) := by
  unfold State.overrun
  repeat' first | with_reducible assumption | with_reducible apply State.endTask_mem

theorem State.packetAcked_mem {x0 : State} {x1 : Nat} (h0 : x0.Mem) : State.Mem (State.packetAcked x0 x1) := by
  unfold State.packetAcked
  repeat' first | with_reducible assumption | with_reducible apply State.modDie_mem | (lift_lets; intro z; refine State.Mem.cut z (fun hz => ?_) ?_; rotate_left; subst z; rotate_right) | split | (change Memory.wf _ = true; dsimp only; change State.Mem _)

theorem State.packetAgain_mem {x0 : State} {x1 : Nat} (h0 : x0.Mem) : State.Mem (State.packetAgain x0 x1) := by
  unfold State.packetAgain
  repeat' first | with_reducible assumption | with_reducible apply State.onRing_mem | split | (change Memory.wf _ = true; dsimp only; change State.Mem _)

theorem State.packetIn_mem {x0 : State} {x1 : Nat} (h0 : x0.Mem) : State.Mem (State.packetIn x0 x1) := by
  unfold State.packetIn
  repeat' first | with_reducible assumption | with_reducible apply State.schedInp_mem | with_reducible apply State.setDie_mem | (lift_lets; intro _) | (intro z; refine State.Mem.cut z (fun hz => ?_) ?_; rotate_left; subst z; rotate_right) | intro _ | split | (change Memory.wf _ = true; dsimp only; change State.Mem _)

theorem State.pairArrive_mem {x0 : State} {x1 : Nat} (h0 : x0.Mem) : State.Mem (State.pairArrive x0 x1) := by
  unfold State.pairArrive
  repeat' first | with_reducible assumption | with_reducible apply State.forwardPair_mem | with_reducible apply State.setPair_mem | with_reducible apply State.setPairBuf_mem | with_reducible apply State.sched_mem | with_reducible apply State.schedInp_mem | (lift_lets; intro z; refine State.Mem.cut z (fun hz => ?_) ?_; rotate_left; subst z; rotate_right) | (lift_lets; intro _) | split

theorem State.pairWord_mem {x0 : State} {x1 : Instr} {x2 : Bool} {x3 x4 x5 : RegF} {x6 : BitVec 1} {x7 : Ordr} (h0 : x0.Mem) : State.Mem (State.pairWord x0 x1 x2 x3 x4 x5 x6 x7) := by
  unfold State.pairWord
  repeat' first | with_reducible assumption | refine fun _ (_ : State.Mem _) => ?_ | refine fun _ _ (_ : State.Mem _) => ?_ | with_reducible apply State.issue_mem | with_reducible apply State.runStop_mem | with_reducible apply State.interlock_mem | with_reducible apply State.access_mem | with_reducible apply State.translated_mem | with_reducible apply State.stampFor_mem | with_reducible apply State.fresh_mem | with_reducible apply State.addCmd_mem | with_reducible apply State.schedFree_mem | with_reducible apply State.holdLater_mem | with_reducible apply Res.Mem.done | with_reducible apply Res.Mem.whole | with_reducible apply Res.Mem.trap | with_reducible apply Res.Mem.wait | (lift_lets; intro _) | intro _ | split | (change Memory.wf _ = true; dsimp only; change State.Mem _)

theorem State.tick_mem {x0 : State} (h0 : x0.Mem) : State.Mem (State.tick x0) := by
  unfold State.tick
  repeat' first | with_reducible assumption | (change Memory.wf _ = true; dsimp only; change State.Mem _)

theorem State.passCycle_mem {x0 : State} (h0 : x0.Mem) : State.Mem (State.passCycle x0) := by
  unfold State.passCycle
  repeat' first | with_reducible assumption | with_reducible apply State.schedInpFree_mem | with_reducible apply State.bankCycles_mem | with_reducible apply State.tick_mem | split

theorem State.placeRec_mem {x0 : State} {x1 : Nat} (h0 : x0.Mem) : State.Mem (State.placeRec x0 x1) := by
  unfold State.placeRec
  dsimp only
  repeat' first
    | with_reducible assumption
    | with_reducible apply State.bookAt_mem
    | with_reducible apply State.schedInp_mem
    | with_reducible apply State.sched_mem
    | split

theorem State.placeReturn_mem {x0 : State} {x1 : Nat} (h0 : x0.Mem) : State.Mem (State.placeReturn x0 x1) := by
  unfold State.placeReturn
  repeat' first | with_reducible assumption | with_reducible apply State.addWindow_mem | with_reducible apply State.sched_mem | (lift_lets; intro _) | split

theorem State.placeWord_mem {x0 : State} {x1 : Nat} {x2 : Seq} {x3 : Word} (h0 : x0.Mem) : State.Mem (State.placeWord x0 x1 x2 x3) := by
  unfold State.placeWord
  repeat' first | with_reducible assumption | with_reducible apply State.modCore_mem | (lift_lets; intro _) | (intro z; refine State.Mem.cut z (fun hz => ?_) ?_; rotate_left; subst z; rotate_right) | (change Memory.wf _ = true; dsimp only; change State.Mem _)

theorem State.placeTableWord_mem {x0 : State} {x1 x2 : Nat} (h0 : x0.Mem) : State.Mem (State.placeTableWord x0 x1 x2) := by
  unfold State.placeTableWord
  repeat' first | with_reducible assumption | with_reducible apply State.placeWord_mem | with_reducible apply State.modCore_mem | (lift_lets; intro z; refine State.Mem.cut z (fun hz => ?_) ?_; rotate_left; subst z; rotate_right) | (lift_lets; intro _) | (intro z; refine State.Mem.cut z (fun hz => ?_) ?_; rotate_left; subst z; rotate_right) | intro _ | (change Memory.wf _ = true; dsimp only; change State.Mem _)

theorem State.post_mem {x0 : State} {x1 : Cmd} {x2 : Nat} {x3 : List Word} {x4 : Bool} (h0 : x0.Mem) : (State.post x0 x1 x2 x3 x4).2.2.Mem :=
  h0
theorem State.post_mem' {x0 : State} {x1 : Cmd} {x2 : Nat} {x3 : List Word} {x4 : Bool} {y z : Nat} {t : State} (h0 : x0.Mem)
    (e : State.post x0 x1 x2 x3 x4 = (y, z, t)) : State.Mem t := by
  have : (State.post x0 x1 x2 x3 x4).2.2.Mem := State.post_mem h0
  rw [e] at this
  exact this

theorem State.stackIdle_mem {x0 : State} {x1 : Nat} (h0 : x0.Mem) : State.Mem (State.stackIdle x0 x1) := by
  unfold State.stackIdle
  repeat' first | with_reducible assumption | with_reducible apply State.schedInp_mem | with_reducible apply State.packageIdle_mem | with_reducible apply State.setDie_mem | (lift_lets; intro _) | split

theorem State.powerDown_mem {x0 : State} {x1 : Input} (h0 : x0.Mem) : State.Mem (State.powerDown x0 x1) := by
  unfold State.powerDown
  repeat' first | with_reducible assumption | with_reducible apply State.coreIdle_mem | with_reducible apply State.dieIdle_mem | with_reducible apply State.stackIdle_mem | with_reducible apply State.linkPower_mem | split

theorem State.powerUp_mem {x0 : State} {x1 : Input} (h0 : x0.Mem) : State.Mem (State.powerUp x0 x1) := by
  unfold State.powerUp
  repeat' first | with_reducible assumption | with_reducible apply State.modDie_mem | with_reducible apply State.schedInp_mem | (lift_lets; intro z; refine State.Mem.cut z (fun hz => ?_) ?_; rotate_left; subst z; rotate_right) | (lift_lets; intro _) | (intro z; refine State.Mem.cut z (fun hz => ?_) ?_; rotate_left; subst z; rotate_right) | split | (change Memory.wf _ = true; dsimp only; change State.Mem _)

theorem State.prefetch_mem {x0 : State} {x1 : Nat} (h0 : x0.Mem) : State.Mem (State.prefetch x0 x1) := by
  unfold State.prefetch
  repeat' first | with_reducible assumption | with_reducible apply State.fillCache_mem | (lift_lets; intro _) | split

theorem State.present_mem {x0 : State} {x1 : Option Nat} {x2 x3 : Nat} (h0 : x0.Mem) : State.Mem (State.present x0 x1 x2 x3) := by
  unfold State.present
  repeat' first | with_reducible assumption | with_reducible apply hz | with_reducible apply State.rejectTo_mem | with_reducible apply State.modCtx_mem | with_reducible apply State.launchUnread_mem | with_reducible apply State.writeCompletion_mem | with_reducible apply State.acceptLaunch_mem | (lift_lets; intro _) | (intro z; refine State.Mem.cut z (fun hz => ?_) ?_; rotate_left; subst z; rotate_right) | (intro z; refine State.Mem.cutG z (fun hz => ?_) ?_; rotate_left; subst z; rotate_right) | intro _ | split

theorem State.prologue_mem {x0 : State} {x1 : Nat} (h0 : x0.Mem) : State.Mem (State.prologue x0 x1) := by
  unfold State.prologue
  repeat' first | with_reducible assumption | with_reducible apply State.displace_mem | with_reducible apply State.loadBack_mem | with_reducible apply State.setRec_mem | with_reducible apply State.modCore_mem | with_reducible apply State.loadChunk_mem | (lift_lets; intro z; refine State.Mem.cut z (fun hz => ?_) ?_; rotate_left; subst z; rotate_right) | split

theorem State.rackFailure_mem {x0 : State} {x1 : Nat} (h0 : x0.Mem) : State.Mem (State.rackFailure x0 x1) := by
  unfold State.rackFailure
  repeat' first | with_reducible assumption | with_reducible apply State.turnSources_mem | split | (change Memory.wf _ = true; dsimp only; change State.Mem _)

theorem State.setClock_mem {x0 : State} {x1 : Nat} (h0 : x0.Mem) : State.Mem (State.setClock x0 x1) := by
  unfold State.setClock
  repeat' first | with_reducible assumption | (lift_lets; intro _) | intro _ | (change Memory.wf _ = true; dsimp only; change State.Mem _)

theorem State.rackSync_mem {x0 : State} {x1 : Nat} {x2 : Int} (h0 : x0.Mem) : State.Mem (State.rackSync x0 x1 x2) := by
  unfold State.rackSync
  repeat' first | with_reducible assumption | refine fun _ _ (_ : State.Mem _) => ?_ | with_reducible apply State.sendTo_mem | with_reducible apply State.setClock_mem | with_reducible apply State.Mem.foldl | split

theorem State.ramoInstall_mem {x0 : State} {x1 x2 : Nat} (h0 : x0.Mem) : State.Mem (State.ramoInstall x0 x1 x2) := by
  unfold State.ramoInstall
  repeat' first | with_reducible assumption | with_reducible apply State.installHot_mem | (lift_lets; intro _) | split

theorem State.svnOf_mem {x0 : State} {x1 : Nat} (h0 : x0.Mem) : State.Mem (State.svnOf x0 x1) := by
  unfold State.svnOf
  repeat' first | with_reducible assumption | with_reducible apply State.raiseSvn_mem | split

theorem State.ready_mem {x0 : State} (h0 : x0.Mem) : State.Mem (State.ready x0) := by
  unfold State.ready
  repeat' first | with_reducible assumption | refine fun _ _ (_ : State.Mem _) => ?_ | with_reducible apply State.svnOf_mem | with_reducible apply State.sched_mem | with_reducible apply State.schedInpFree_mem | with_reducible apply State.schedInp_mem | with_reducible apply State.Mem.foldl | (lift_lets; intro _) | (change Memory.wf _ = true; dsimp only; change State.Mem _)

theorem State.rebase_mem {x0 : State} (h0 : x0.Mem) : State.Mem (State.rebase x0) := by
  unfold State.rebase
  repeat' first | with_reducible assumption | refine fun _ _ (_ : State.Mem _) => ?_ | with_reducible apply State.modDie_mem | with_reducible apply State.setClock_mem | with_reducible apply State.Mem.foldl

theorem State.reboot_mem {x0 : State} {x1 x2 : Bool} (h0 : x0.Mem) : State.Mem (State.reboot x0 x1 x2) := by
  unfold State.reboot
  repeat' first | (lift_lets; intro _) | (intro z; refine State.Mem.cut z (fun hz => ?_) ?_; rotate_left; subst z; rotate_right) | exact State.reset_mem

theorem State.rebuiltAudit_mem {x0 : State} {x1 : TaskRec} {x2 : Nat} {x3 : Bool} (h0 : x0.Mem) : State.Mem (State.rebuiltAudit x0 x1 x2 x3).2 := by
  unfold State.rebuiltAudit
  repeat' first | with_reducible assumption | with_reducible apply State.errorName_mem | split
theorem State.rebuiltAudit_mem' {x0 : State} {x1 : TaskRec} {x2 : Nat} {x3 : Bool} {y : Bool} {t : State} (h0 : x0.Mem) (e : (State.rebuiltAudit x0 x1 x2 x3) = (y, t)) :
    State.Mem t := by
  have : State.Mem (State.rebuiltAudit x0 x1 x2 x3).2 := State.rebuiltAudit_mem h0
  rw [e] at this
  exact this

theorem State.redirect_mem {x0 : State} {x1 : Migration} (h0 : x0.Mem) : State.Mem (State.redirect x0 x1) := by
  unfold State.redirect
  repeat' first | with_reducible assumption | refine fun _ _ (_ : State.Mem _) => ?_ | with_reducible apply State.modDie_mem | with_reducible apply State.Mem.foldl | (lift_lets; intro _) | (intro z; refine State.Mem.cut z (fun hz => ?_) ?_; rotate_left; subst z; rotate_right) | intro _ | (change Memory.wf _ = true; dsimp only; change State.Mem _)

theorem State.refusedAccess_mem {x0 : State} {x1 : Input} (h0 : x0.Mem) : State.Mem (State.refusedAccess x0 x1) := by
  unfold State.refusedAccess
  repeat' first | with_reducible assumption | with_reducible apply State.farEnd_mem | with_reducible apply State.ackDelivery_mem | split

theorem State.release_mem {x0 : State} (h0 : x0.Mem) : State.Mem (State.release x0) := by
  unfold State.release
  repeat' first | with_reducible assumption | refine fun _ _ (_ : State.Mem _) => ?_ | with_reducible apply State.compact_mem | with_reducible apply State.placeArmed_mem | with_reducible apply State.placeReturn_mem | with_reducible apply State.schedInp_mem | with_reducible apply State.kick_mem | with_reducible apply State.Mem.foldl | split

theorem State.releasePin_mem {x0 : State} {x1 : Option Nat} {x2 : Nat} (h0 : x0.Mem) : State.Mem (State.releasePin x0 x1 x2) := by
  unfold State.releasePin
  repeat' first | with_reducible assumption | with_reducible apply State.modCore_mem | with_reducible apply State.migrationsFree_mem | with_reducible apply State.invalsDone_mem | with_reducible apply State.dropImports_mem | (lift_lets; intro z; refine State.Mem.cut z (fun hz => ?_) ?_; rotate_left; subst z; rotate_right) | split

theorem State.startReplica_mem {x0 : State} {x1 : Nat} (h0 : x0.Mem) : State.Mem (State.startReplica x0 x1) := by
  unfold State.startReplica
  repeat' first | with_reducible assumption | with_reducible apply State.schedDarner_mem | with_reducible apply State.setDir_mem | split

theorem State.relieve_mem {x0 : State} {x1 : Nat} {x2 : Bool} (h0 : x0.Mem) : State.Mem (State.relieve x0 x1 x2) := by
  unfold State.relieve
  repeat' first | with_reducible assumption | with_reducible apply State.schedInp_mem | with_reducible apply State.startReplica_mem | with_reducible apply State.setDir_mem | (lift_lets; intro _) | intro _ | split

theorem State.remoteReply_mem {x0 : State} {x1 : Input} (h0 : x0.Mem) : State.Mem (State.remoteReply x0 x1) := by
  unfold State.remoteReply
  repeat' first | with_reducible assumption | (lift_lets; intro _) | intro _ | (change Memory.wf _ = true; dsimp only; change State.Mem _)

theorem State.remoteReq_mem {x0 : State} {x1 : Input} (h0 : x0.Mem) : State.Mem (State.remoteReq x0 x1) := by
  unfold State.remoteReq
  repeat' first | with_reducible assumption | with_reducible apply State.schedRack_mem | (lift_lets; intro _) | intro _ | split | (change Memory.wf _ = true; dsimp only; change State.Mem _)

theorem State.replacePage_mem {x0 : State} {x1 : Shadow} (h0 : x0.Mem) : State.Mem (State.replacePage x0 x1) :=
  State.Mem.foldl (fun _ _ h => State.replaceFrame_mem h) h0

theorem State.replicaDone_mem {x0 : State} {x1 : Nat} (h0 : x0.Mem) : State.Mem (State.replicaDone x0 x1) := by
  unfold State.replicaDone
  repeat' first | with_reducible assumption | with_reducible apply State.copyFrames_mem | with_reducible apply State.prune_mem | with_reducible apply State.setDir_mem | split

theorem State.replicaStart_mem {x0 : State} {x1 : Nat} {x2 : Input} (h0 : x0.Mem) : State.Mem (State.replicaStart x0 x1 x2) := by
  unfold State.replicaStart
  repeat' first | with_reducible assumption | with_reducible apply State.schedDarner_mem | (lift_lets; intro _) | split

theorem State.report_mem {x0 : State} {x1 x2 : Nat} {x3 : TaskRec} {x4 x5 : Nat} {x6 : Bool} {x7 : Stamp} (h0 : x0.Mem) : State.Mem (State.report x0 x1 x2 x3 x4 x5 x6 x7) := by
  unfold State.report
  repeat' first | with_reducible assumption | with_reducible apply State.sendLineage_mem | (change Memory.wf _ = true; dsimp only; change State.Mem _)

theorem State.requestStop_mem {x0 : State} {x1 : Nat} (h0 : x0.Mem) : State.Mem (State.requestStop x0 x1) := by
  unfold State.requestStop
  repeat' first | with_reducible assumption | refine fun _ _ (_ : State.Mem _) => ?_ | with_reducible apply State.askStop_mem | with_reducible apply State.Mem.foldl | split

theorem State.sendFlits_mem {x0 : State} {x1 x2 : Nat} (h0 : x0.Mem) : State.Mem (State.sendFlits x0 x1 x2) := by
  unfold State.sendFlits
  repeat' first | with_reducible assumption | refine fun _ _ (_ : State.Mem _) => ?_ | with_reducible apply State.sendFrame_mem | with_reducible apply State.Mem.foldl

theorem State.resendDelivery_mem {x0 : State} {x1 : Input} (h0 : x0.Mem) : State.Mem (State.resendDelivery x0 x1) := by
  unfold State.resendDelivery
  repeat' first | with_reducible assumption | with_reducible apply State.failDelivery_mem | with_reducible apply State.sendFlits_mem | with_reducible apply State.awaitAck_mem | with_reducible apply State.schedInp_mem | with_reducible apply State.setDelivery_mem | (lift_lets; intro _) | split | (change Memory.wf _ = true; dsimp only; change State.Mem _)

theorem State.schedEnd_mem {x0 : State} {x1 : Nat} (h0 : x0.Mem) : State.Mem (State.schedEnd x0 x1) := by
  unfold State.schedEnd
  repeat' first | with_reducible assumption | with_reducible apply State.unsched_mem | with_reducible apply State.sched_mem | (lift_lets; intro z; refine State.Mem.cut z (fun hz => ?_) ?_; rotate_left; subst z; rotate_right) | split

theorem State.restoreTask_mem {x0 : State} {x1 : Nat} (h0 : x0.Mem) : State.Mem (State.restoreTask x0 x1) := by
  unfold State.restoreTask
  repeat' first | with_reducible assumption | refine fun _ _ (_ : State.Mem _) => ?_ | with_reducible apply State.restart_mem | with_reducible apply State.errorRec_mem | with_reducible apply State.displace_mem | with_reducible apply State.setCore_mem | with_reducible apply State.setRec_mem | with_reducible apply State.askAll_mem | with_reducible apply State.schedEnd_mem | with_reducible apply State.freeSlot_mem | with_reducible apply State.sched_mem | with_reducible apply State.kickMatrix_mem | with_reducible apply State.placeArmed_mem | with_reducible apply State.placeReturn_mem | with_reducible apply State.kick_mem | with_reducible apply State.Mem.foldl | (lift_lets; intro z; refine State.Mem.cut z (fun hz => ?_) ?_; rotate_left; subst z; rotate_right) | (lift_lets; intro _) | (intro z; refine State.Mem.cut z (fun hz => ?_) ?_; rotate_left; subst z; rotate_right) | intro _ | split

theorem State.returnValue_mem {x0 : State} {x1 : Nat} {x2 : Cmd} (h0 : x0.Mem) : State.Mem (State.returnValue x0 x1 x2) := by
  unfold State.returnValue
  repeat' first | with_reducible assumption | with_reducible apply State.retireCmd_mem | with_reducible apply State.modCore_mem

theorem State.resultReturn_mem {x0 : State} {x1 x2 : Nat} (h0 : x0.Mem) : State.Mem (State.resultReturn x0 x1 x2) := by
  unfold State.resultReturn
  repeat' first | with_reducible assumption | with_reducible apply State.returnValue_mem | with_reducible apply State.applyAtomic_mem | with_reducible apply State.ramoInstall_mem | with_reducible apply State.sched_mem | with_reducible apply State.schedFree_mem | with_reducible apply State.takeSlot_mem | split

theorem State.retireFrame_mem {x0 : State} {x1 : Nat} {x2 : Bool} (h0 : x0.Mem) : State.Mem (State.retireFrame x0 x1 x2) := by
  unfold State.retireFrame
  repeat' first | with_reducible assumption | with_reducible apply State.schedInpFree_mem | with_reducible apply State.errorDie_mem | with_reducible apply State.newFrame_mem | with_reducible apply State.startMigration_mem | (lift_lets; intro _) | intro _ | split

theorem State.retireRun_mem {x0 : State} {x1 x2 : Nat} (h0 : x0.Mem) : State.Mem (State.retireRun x0 x1 x2) := by
  unfold State.retireRun
  repeat' first | with_reducible assumption | with_reducible apply State.matrixFault_mem | with_reducible apply State.setCore_mem | (lift_lets; intro _) | intro _ | split

theorem State.retryWrite_mem {x0 : State} {x1 : Nat} (h0 : x0.Mem) : State.Mem (State.retryWrite x0 x1) := by
  unfold State.retryWrite
  repeat' first | with_reducible assumption | with_reducible apply State.applyAtomic_mem | with_reducible apply State.writeOne_mem | with_reducible apply State.tellHost_mem | (lift_lets; intro z; refine State.Mem.cut z (fun hz => ?_) ?_; rotate_left; subst z; rotate_right) | (lift_lets; intro _) | split | (change Memory.wf _ = true; dsimp only; change State.Mem _)

theorem State.revokeConsumers_mem {x0 : State} {x1 : Nat} (h0 : x0.Mem) : State.Mem (State.revokeConsumers x0 x1) := by
  unfold State.revokeConsumers
  repeat' first | with_reducible assumption | refine fun _ _ (_ : State.Mem _) => ?_ | with_reducible apply State.endTask_mem | with_reducible apply State.restart_mem | with_reducible apply State.toWait_mem | with_reducible apply State.modDir_mem | with_reducible apply State.recoveryRecord_mem | with_reducible apply State.errorName_mem | with_reducible apply State.Mem.foldl | split

theorem State.ringWord_mem {x0 : State} {x1 : BitVec 4} {x2 x3 : BitVec 5} {x4 : Bool} {x5 : Ring → Nat → Nat → Res} (h0 : x0.Mem) (h5 : ∀ (a0 : Ring) (a1 : Nat) (a2 : Nat), (x5 a0 a1 a2).Mem) : Res.Mem (State.ringWord x0 x1 x2 x3 x4 x5) := by
  unfold State.ringWord
  repeat' first | with_reducible apply h5 | with_reducible apply Res.Mem.trap | (lift_lets; intro _) | intro _ | split

theorem State.rotate_mem {x0 : State} {x1 : Nat} (h0 : x0.Mem) : State.Mem (State.rotate x0 x1) := by
  unfold State.rotate
  repeat' first | with_reducible assumption | with_reducible apply State.setDie_mem | (lift_lets; intro _) | intro _ | split

theorem State.runStart_mem {x0 : State} {x1 : Nat} (h0 : x0.Mem) : State.Mem (State.runStart x0 x1) := by
  unfold State.runStart
  repeat' first | with_reducible assumption | with_reducible apply State.setRec_mem | with_reducible apply State.modCore_mem | with_reducible apply State.schedEnd_mem | (lift_lets; intro z; refine State.Mem.cut z (fun hz => ?_) ?_; rotate_left; subst z; rotate_right) | (lift_lets; intro _) | (intro z; refine State.Mem.cut z (fun hz => ?_) ?_; rotate_left; subst z; rotate_right) | split

theorem State.writeSlot_mem {x0 : State} {x1 : Nat} (h0 : x0.Mem) : State.Mem (State.writeSlot x0 x1) := by
  unfold State.writeSlot
  repeat' first | with_reducible assumption | with_reducible apply State.fresh_mem | with_reducible apply State.evictHot_mem | with_reducible apply State.unpoison_mem | (change Memory.wf _ = true; dsimp only; change State.Mem _)

theorem State.saveDone_mem {x0 : State} {x1 : Nat} (h0 : x0.Mem) : State.Mem (State.saveDone x0 x1) := by
  unfold State.saveDone
  repeat' first | with_reducible assumption | with_reducible apply State.setRec_mem | with_reducible apply State.writeSlot_mem | with_reducible apply State.modCtx_mem | with_reducible apply State.dropWindows_mem | with_reducible apply State.vacate_mem | with_reducible apply State.kick_mem | with_reducible apply State.checkTeam_mem | (lift_lets; intro _) | intro _ | split

theorem State.sbWord_mem {x0 : State} {x1 : Kind} {x2 : List RegF} {x3 : State → Res} (h0 : x0.Mem) (h3 : ∀ (a0 : State), a0.Mem → (x3 a0).Mem) : State.Mem (State.sbWord x0 x1 x2 x3) := by
  unfold State.sbWord
  repeat' first | with_reducible assumption | refine fun _ (_ : State.Mem _) => ?_ | with_reducible apply State.issue_mem | with_reducible apply State.interlock_mem | with_reducible apply State.access_mem | with_reducible apply Res.Mem.trap | split

theorem State.wr_mem {x0 : State} {x1 : Nat} {x2 : RegF} {x3 : Word} (h0 : x0.Mem) : State.Mem (State.wr x0 x1 x2 x3) := by
  unfold State.wr
  repeat' first | with_reducible assumption | with_reducible apply State.modCur_mem

theorem State.scalar_mem {x0 : State} {x1 : Nat} {x2 : RegF} {x3 : List RegF} {x4 : State → Word} (h0 : x0.Mem) : State.Mem (State.scalar x0 x1 x2 x3 x4) := by
  unfold State.scalar
  repeat' first | with_reducible assumption | refine fun _ (_ : State.Mem _) => ?_ | with_reducible apply State.issue_mem | with_reducible apply State.interlock_mem | with_reducible apply State.wr_mem | with_reducible apply Res.Mem.done

theorem State.scanEnd_mem {x0 : State} {x1 : Input} (h0 : x0.Mem) : State.Mem (State.scanEnd x0 x1) := by
  unfold State.scanEnd
  repeat' first | with_reducible assumption | with_reducible apply State.dropWindows_mem | with_reducible apply State.modDie_mem | with_reducible apply State.schedInp_mem | with_reducible apply State.corePassed_mem | with_reducible apply State.coreFailed_mem | (lift_lets; intro z; refine State.Mem.cut z (fun hz => ?_) ?_; rotate_left; subst z; rotate_right) | split

theorem State.scanStart_mem {x0 : State} {x1 : Input} (h0 : x0.Mem) : State.Mem (State.scanStart x0 x1) := by
  unfold State.scanStart
  repeat' first | with_reducible assumption | with_reducible apply State.modDie_mem | with_reducible apply State.modCore_mem | with_reducible apply State.schedInp_mem | (lift_lets; intro z; refine State.Mem.cut z (fun hz => ?_) ?_; rotate_left; subst z; rotate_right) | split

theorem State.schedVector_mem {x0 : State} {x1 : Nat} {x2 : VWord} (h0 : x0.Mem) : State.Mem (State.schedVector x0 x1 x2) := by
  unfold State.schedVector
  repeat' first | with_reducible assumption | refine fun _ _ (_ : State.Mem _) => ?_ | with_reducible apply State.sched_mem | with_reducible apply State.Mem.forUp

theorem State.sealRun_mem {x0 : State} {x1 : Nat} {x2 : HeldPub} {x3 : TaskRec} (h0 : x0.Mem) : State.Mem (State.sealRun x0 x1 x2 x3) := by
  unfold State.sealRun
  repeat' first | with_reducible assumption | with_reducible apply State.schedInpFree_mem | with_reducible apply dropHeld_mem | with_reducible apply State.enterPublish_mem | with_reducible apply State.report_mem | with_reducible apply State.schedInp_mem | (lift_lets; intro z; refine State.Mem.cut z (fun hz => ?_) ?_; rotate_left; subst z; rotate_right) | split | (change Memory.wf _ = true; dsimp only; change State.Mem _)

theorem State.sealed_mem {x0 : State} {x1 : Nat} (h0 : x0.Mem) : State.Mem (State.sealed x0 x1) := by
  unfold State.sealed
  repeat' first | with_reducible assumption | with_reducible apply State.modDir_mem | with_reducible apply State.startReplica_mem | with_reducible apply State.wake_mem | with_reducible apply State.releaseVersions_mem | (lift_lets; intro z; refine State.Mem.cut z (fun hz => ?_) ?_; rotate_left; subst z; rotate_right) | split

theorem State.sendNext_mem {x0 : State} {x1 : Input} {x2 : Delivery} (h0 : x0.Mem) : State.Mem (State.sendNext x0 x1 x2) := by
  unfold State.sendNext
  repeat' first | with_reducible assumption | with_reducible apply State.sendFlits_mem | with_reducible apply State.setDelivery_mem | with_reducible apply State.schedInp_mem | with_reducible apply State.awaitAck_mem | split

theorem State.sendOwn_mem {x0 : State} {x1 : Input} (h0 : x0.Mem) : State.Mem (State.sendOwn x0 x1) := by
  unfold State.sendOwn
  repeat' first | with_reducible assumption | with_reducible apply State.sendNext_mem | with_reducible apply State.schedInp_mem | (lift_lets; intro _) | split | (change Memory.wf _ = true; dsimp only; change State.Mem _)

theorem State.sendPending_mem {x0 : State} {x1 : Nat} (h0 : x0.Mem) : State.Mem (State.sendPending x0 x1) := by
  unfold State.sendPending
  repeat' first | with_reducible assumption | with_reducible apply State.raiseVector_mem | (lift_lets; intro _) | split | (change Memory.wf _ = true; dsimp only; change State.Mem _)

theorem State.sendPublish_mem {x0 : State} {x1 : Instr} {x2 : Publish} {x3 : Stamp} {x4 : List Shadow} {x5 : Nat} (h0 : x0.Mem) : State.Mem (State.sendPublish x0 x1 x2 x3 x4 x5) := by
  unfold State.sendPublish
  repeat' first | with_reducible assumption | (lift_lets; intro _) | intro _ | split | refine State.addCmd_mem' ?_ (by assumption) | refine State.fresh_mem' ?_ (by assumption) | (change Memory.wf _ = true; dsimp only; change State.Mem _)

theorem State.spanStart_mem {x0 : State} {x1 : Nat} (h0 : x0.Mem) : State.Mem (State.spanStart x0 x1) := by
  unfold State.spanStart
  repeat' first | with_reducible assumption | with_reducible apply State.displace_mem | with_reducible apply State.seekAll_mem | with_reducible apply State.askAll_mem | with_reducible apply State.setCore_mem | with_reducible apply State.stopBadRead_mem | (lift_lets; intro z; refine State.Mem.cut z (fun hz => ?_) ?_; rotate_left; subst z; rotate_right) | split

theorem State.sqPop_mem {x0 : State} {x1 : RegF} (h0 : x0.Mem) : State.Mem (State.sqPop x0 x1) := by
  unfold State.sqPop
  repeat' first | with_reducible assumption | with_reducible apply State.modCur_mem

theorem State.sramError_mem {x0 : State} {x1 : Nat} (h0 : x0.Mem) : State.Mem (State.sramError x0 x1) := by
  unfold State.sramError
  repeat' first | with_reducible assumption | with_reducible apply State.modDie_mem | with_reducible apply State.errorTask_mem | with_reducible apply State.endTask_mem | with_reducible apply State.setRec_mem | with_reducible apply State.kick_mem | with_reducible apply State.markDue_mem | with_reducible apply State.clearCore_mem | (lift_lets; intro z; refine State.Mem.cut z (fun hz => ?_) ?_; rotate_left; subst z; rotate_right) | split

theorem State.useFirmware_mem {x0 : State} {x1 : Nat} {x2 : Nat × List Byte} (h0 : x0.Mem) : State.Mem (State.useFirmware x0 x1 x2) := by
  unfold State.useFirmware
  repeat' first | with_reducible assumption | (lift_lets; intro _) | (change Memory.wf _ = true; dsimp only; change State.Mem _)

theorem State.stageWork_mem {s t : State} {k : Nat} (h : s.Mem) (e : s.stageWork k = .ok t) : t.Mem := by
  have fw {k : Nat} (e : (s.firmware k).map (s.useFirmware k) = .ok t) : t.Mem := by
    cases f : s.firmware k with
    | error x => rw [f] at e; cases e
    | ok y => rw [f] at e; exact Except.ok.inj e ▸ State.useFirmware_mem h
  unfold State.stageWork at e
  split at e
  · exact fw e
  · exact fw e
  · exact Except.ok.inj e ▸ State.loadMaps_mem h
  · exact Except.ok.inj e ▸ State.rebase_mem h
  · exact Except.ok.inj e ▸ State.ready_mem h
theorem State.stageDone_mem {x0 : State} {x1 : Bool} (h0 : x0.Mem) : State.Mem (State.stageDone x0 x1) := by
  unfold State.stageDone
  dsimp only
  split
  · exact h0
  · split
    · exact h0
    · split
      · rename_i e
        refine State.stageWork_mem ?_ e
        exact h0
      · exact h0

theorem State.startFill_mem {x0 : State} {x1 : Nat} (h0 : x0.Mem) : State.Mem (State.startFill x0 x1) := by
  unfold State.startFill
  repeat' first | with_reducible assumption | refine fun _ _ (_ : State.Mem _) => ?_ | with_reducible apply State.modDie_mem | with_reducible apply State.schedDarner_mem | with_reducible apply State.unsched_mem | with_reducible apply State.sched_mem | with_reducible apply State.Mem.foldl | (lift_lets; intro _) | split

theorem State.startSkip_mem {x0 : State} {x1 : BitVec 1024} {x2 : Nat} (h0 : x0.Mem) : State.Mem (State.startSkip x0 x1 x2) := by
  unfold State.startSkip
  repeat' first | with_reducible assumption | with_reducible apply State.modCur_mem

theorem State.startSpm_mem {x0 : State} {x1 : Cmd} (h0 : x0.Mem) : Res.Mem (State.startSpm x0 x1) := by
  unfold State.startSpm
  repeat' first | with_reducible assumption | with_reducible apply State.stampFor_mem | with_reducible apply State.addCmd_mem | with_reducible apply State.firstRow_mem | with_reducible apply Res.Mem.done | with_reducible apply Res.Mem.full | (lift_lets; intro _) | intro _ | split

theorem State.startVector_mem {x0 : State} {x1 : Instr} {x2 : VOps} {x3 : List VResult} {x4 : List VReg} (h0 : x0.Mem) : State.Mem (State.startVector x0 x1 x2 x3 x4) := by
  unfold State.startVector
  repeat' first | with_reducible assumption | with_reducible apply State.stampFor_mem | with_reducible apply State.schedVector_mem | with_reducible apply State.setCore_mem

theorem State.steal_mem {x0 : State} {x1 : Nat} (h0 : x0.Mem) : State.Mem (State.steal x0 x1) := by
  unfold State.steal
  repeat' first | with_reducible assumption | with_reducible apply State.seek_mem | with_reducible apply State.kick_mem | with_reducible apply State.unspill_mem | with_reducible apply State.setRec_mem | split

theorem State.stopNow_mem {x0 : State} {x1 : Nat} (h0 : x0.Mem) : State.Mem (State.stopNow x0 x1) := by
  unfold State.stopNow
  repeat' first | with_reducible assumption | refine fun _ _ (_ : State.Mem _) => ?_ | with_reducible apply State.modCore_mem | with_reducible apply State.unsched_mem | with_reducible apply State.displace_mem | with_reducible apply State.sched_mem | with_reducible apply State.Mem.foldl

theorem State.stopOrWait_mem {x0 : State} {x1 : Nat} (h0 : x0.Mem) : State.Mem (State.stopOrWait x0 x1) := by
  unfold State.stopOrWait
  repeat' first | with_reducible assumption | with_reducible apply State.sched_mem | with_reducible apply State.unsched_mem | with_reducible apply State.stopNow_mem | (lift_lets; intro _) | split

theorem State.stopSeq_mem {x0 : State} {x1 : SeqRun} (h0 : x0.Mem) : State.Mem (State.stopSeq x0 x1) := by
  unfold State.stopSeq
  repeat' first | with_reducible assumption | refine fun _ (_ : State.Mem _) => ?_ | with_reducible apply State.afterStop_mem | with_reducible apply State.issue_mem | with_reducible apply State.modCur_mem | with_reducible apply Res.Mem.done

theorem State.storeDone_mem {x0 : State} {x1 x2 : Nat} (h0 : x0.Mem) : State.Mem (State.storeDone x0 x1 x2) := by
  unfold State.storeDone
  repeat' first | with_reducible assumption | refine fun _ (_ : State.Mem _) => ?_ | refine fun _ _ (_ : State.Mem _) => ?_ | with_reducible apply State.schedMem_mem | with_reducible apply State.taskWrite_mem | with_reducible apply State.modCore_mem | with_reducible apply State.retireCmd_mem | with_reducible apply State.homeWrite_mem | with_reducible apply State.Mem.foldl | (lift_lets; intro z; refine State.Mem.cut z (fun hz => ?_) ?_; rotate_left; subst z; rotate_right) | (lift_lets; intro z; refine State.Mem.cutF z (fun hz => ?_) ?_; rotate_left; subst z; rotate_right) | (lift_lets; intro _) | (intro z; refine State.Mem.cut z (fun hz => ?_) ?_; rotate_left; subst z; rotate_right) | intro _ | split

theorem State.swap_mem {x0 : State} (h0 : x0.Mem) : State.Mem (State.swap x0) := by
  unfold State.swap
  repeat' first | with_reducible assumption | refine fun _ _ (_ : State.Mem _) => ?_ | with_reducible apply State.kick_mem | with_reducible apply State.schedSwap_mem | with_reducible apply State.setTeam_mem | with_reducible apply State.restart_mem | with_reducible apply State.unplaceRestore_mem | with_reducible apply State.askStop_mem | with_reducible apply State.checkTeam_mem | with_reducible apply State.Mem.foldl | (lift_lets; intro z; refine State.Mem.cut z (fun hz => ?_) ?_; rotate_left; subst z; rotate_right) | (lift_lets; intro _) | (intro z; refine State.Mem.cut z (fun hz => ?_) ?_; rotate_left; subst z; rotate_right) | split

theorem State.switch_mem {x0 : State} {x1 : Nat} (h0 : x0.Mem) : State.Mem (State.switch x0 x1) := by
  unfold State.switch
  repeat' first | with_reducible assumption | refine fun _ _ (_ : State.Mem _) => ?_ | with_reducible apply State.installVersion_mem | with_reducible apply State.replacePage_mem | with_reducible apply State.retireCmd_mem | with_reducible apply State.modCore_mem | with_reducible apply State.sealed_mem | with_reducible apply State.Mem.foldl | (lift_lets; intro z; refine State.Mem.cut z (fun hz => ?_) ?_; rotate_left; subst z; rotate_right) | (lift_lets; intro _) | (intro z; refine State.Mem.cut z (fun hz => ?_) ?_; rotate_left; subst z; rotate_right) | intro _ | split | (change Memory.wf _ = true; dsimp only; change State.Mem _)

theorem State.switchFrame_mem {x0 : State} {x1 : Migration} (h0 : x0.Mem) : State.Mem (State.switchFrame x0 x1) := by
  unfold State.switchFrame
  repeat' first | with_reducible assumption | refine fun _ _ (_ : State.Mem _) => ?_ | with_reducible apply State.redirect_mem | with_reducible apply State.setMigration_mem | with_reducible apply State.copyFrame_mem | with_reducible apply State.modDie_mem | with_reducible apply State.tellImporters_mem | with_reducible apply State.migrationsFree_mem | with_reducible apply State.Mem.foldl | (lift_lets; intro z; refine State.Mem.cut z (fun hz => ?_) ?_; rotate_left; subst z; rotate_right) | (lift_lets; intro _) | (intro z; refine State.Mem.cut z (fun hz => ?_) ?_; rotate_left; subst z; rotate_right) | split | (change Memory.wf _ = true; dsimp only; change State.Mem _)

theorem State.takeWindow_mem {x0 : State} {x1 x2 : Nat} (h0 : x0.Mem) : State.Mem (State.takeWindow x0 x1 x2) := by
  unfold State.takeWindow
  repeat' first | with_reducible assumption | with_reducible apply State.dropWindows_mem | with_reducible apply State.schedEnd_mem | split | (change Memory.wf _ = true; dsimp only; change State.Mem _)

theorem State.t0Resume_mem {x0 : State} {x1 : Nat} (h0 : x0.Mem) : State.Mem (State.t0Resume x0 x1) := by
  unfold State.t0Resume
  repeat' first | with_reducible assumption | with_reducible apply State.kickMatrix_mem | with_reducible apply State.takeWindow_mem | with_reducible apply State.setCore_mem | (lift_lets; intro _) | intro _ | split

theorem State.taskOver_mem {x0 : State} {x1 : Nat} (h0 : x0.Mem) : State.Mem (State.taskOver x0 x1) := by
  unfold State.taskOver
  repeat' first | with_reducible assumption | with_reducible apply State.setCore_mem | with_reducible apply State.giveUp_mem | with_reducible apply State.sched_mem | with_reducible apply State.allHalted_mem | with_reducible apply State.finishTask_mem | (lift_lets; intro z; refine State.Mem.cut z (fun hz => ?_) ?_; rotate_left; subst z; rotate_right) | (lift_lets; intro _) | (intro z; refine State.Mem.cut z (fun hz => ?_) ?_; rotate_left; subst z; rotate_right) | split

theorem State.tearDown_mem {x0 : State} {x1 : Input} (h0 : x0.Mem) : State.Mem (State.tearDown x0 x1) := by
  unfold State.tearDown
  repeat' first | with_reducible assumption | with_reducible apply State.schedInp_mem | with_reducible apply State.dropDelivery_mem | (lift_lets; intro z; refine State.Mem.cut z (fun hz => ?_) ?_; rotate_left; subst z; rotate_right) | split | (change Memory.wf _ = true; dsimp only; change State.Mem _)

theorem State.tieBreak_mem {x0 : State} {x1 x2 : TaskRec} (h0 : x0.Mem) : State.Mem (State.tieBreak x0 x1 x2) := by
  unfold State.tieBreak
  repeat' first | with_reducible assumption | with_reducible apply State.addRec_mem | split

theorem State.transit_mem {x0 : State} {x1 : Input} (h0 : x0.Mem) : State.Mem (State.transit x0 x1) := by
  unfold State.transit
  repeat' first | with_reducible assumption | with_reducible apply State.schedInp_mem | with_reducible apply State.sendFrame_mem | (lift_lets; intro _) | split

theorem State.trySwitch_mem {x0 : State} {x1 : Nat} (h0 : x0.Mem) : State.Mem (State.trySwitch x0 x1) := by
  unfold State.trySwitch
  repeat' first | with_reducible assumption | with_reducible apply State.switchFrame_mem | with_reducible apply State.schedInp_mem | with_reducible apply State.setMigration_mem | (lift_lets; intro _) | split

theorem State.uncorrectable_mem {x0 : State} {x1 : Nat} (h0 : x0.Mem) : State.Mem (State.uncorrectable x0 x1) := by
  unfold State.uncorrectable
  repeat' first | with_reducible assumption | with_reducible apply State.modDie_mem | with_reducible apply State.retire_mem | with_reducible apply State.loseFrame_mem

theorem State.unexport_mem {x0 : State} {x1 : Instr} {x2 : Input} (h0 : x0.Mem) : State.Mem (State.unexport x0 x1 x2) := by
  unfold State.unexport
  repeat' first | with_reducible assumption | with_reducible apply State.commandAgain_mem | with_reducible apply State.changeExport_mem | with_reducible apply State.hostResult_mem | split

theorem State.unitStep_mem {x0 : State} {x1 x2 x3 : Nat} (h0 : x0.Mem) : State.Mem (State.unitStep x0 x1 x2 x3) := by
  unfold State.unitStep
  repeat' first | with_reducible assumption | with_reducible apply State.sched_mem | with_reducible apply State.stopBadRead_mem | with_reducible apply State.unitGo_mem | with_reducible apply State.setCore_mem | with_reducible apply State.unitWritten_mem | with_reducible apply State.taskWrite_mem | (lift_lets; intro _) | intro _ | split

theorem State.xDone_mem {x0 : State} {x1 x2 : Nat} (h0 : x0.Mem) : State.Mem (State.xDone x0 x1 x2) := by
  unfold State.xDone
  repeat' first | with_reducible assumption | with_reducible apply State.sched_mem

theorem State.vecInstant_mem {x0 : State} {x1 : Instr} {x2 : Bool} {x3 : Option Cause} {x4 : State → Except Cause State} (h0 : x0.Mem)
    (h4 : ∀ t u, State.Mem t → x4 t = .ok u → u.Mem) : State.Mem (State.vecInstant x0 x1 x2 x3 x4) := by
  refine State.issue_mem h0 fun t ht => ?_
  dsimp only
  split
  · exact Res.Mem.done ht
  · split
    · exact Res.Mem.wait
    · split
      · refine Res.Mem.done ?_
        split
        · exact ht
        · exact State.xDone_mem ht
      · split
        · exact Res.Mem.trap
        · rename_i e
          have hu := State.modCur_mem (x1 := fun c => c.modEngine engVxe fun x => { x with out := x.out + 1 }) (h4 _ _ ht e)
          refine Res.Mem.done ?_
          split
          · exact State.xDone_mem (State.modCur_mem hu)
          · exact State.modCur_mem hu

theorem State.vecIssue_mem {x0 : State} {x1 : Instr} {x2 x3 : Bool} {x4 : State → Option Cause} {x5 : State → List VResult × List VReg} {x6 : State → State} (h0 : x0.Mem) (h6 : ∀ (a0 : State), a0.Mem → (x6 a0).Mem) : State.Mem (State.vecIssue x0 x1 x2 x3 x4 x5 x6) := by
  unfold State.vecIssue
  repeat' first | with_reducible assumption | with_reducible apply h6 | refine fun _ (_ : State.Mem _) => ?_ | with_reducible apply State.issue_mem | with_reducible apply State.startVector_mem | with_reducible apply Res.Mem.done | with_reducible apply Res.Mem.trap | with_reducible apply Res.Mem.wait | (lift_lets; intro _) | intro _ | split

theorem State.vecWord_mem {x0 : State} {x1 : Instr} (h0 : x0.Mem) : State.Mem (State.vecWord x0 x1) := by
  unfold State.vecWord
  repeat' first | with_reducible assumption | refine fun _ (_ : State.Mem _) => ?_ | with_reducible apply State.vecIssue_mem | assumption

theorem State.verify_mem {x0 : State} {x1 : Nat} {x2 : Bool} (h0 : x0.Mem) : State.Mem (State.verify x0 x1 x2) := by
  unfold State.verify
  repeat' first | with_reducible assumption | with_reducible apply hz | refine fun _ (_ : State.Mem _) => ?_ | with_reducible apply State.freeFrames_mem | with_reducible apply State.installVersion_mem | with_reducible apply State.setDir_mem | with_reducible apply State.modDir_mem | with_reducible apply State.startReplica_mem | with_reducible apply State.revokeConsumers_mem | with_reducible apply State.wake_mem | with_reducible apply State.errorName_mem | (lift_lets; intro z; refine State.Mem.cutF z (fun hz => ?_) ?_; rotate_left; subst z; rotate_right) | split | (change Memory.wf _ = true; dsimp only; change State.Mem _)

theorem State.vote_mem {x0 : State} {x1 : Nat} {x2 : Bool} (h0 : x0.Mem) : State.Mem (State.vote x0 x1 x2) := by
  unfold State.vote
  repeat' first | with_reducible assumption | with_reducible apply hz | refine fun _ (_ : State.Mem _) => ?_ | refine fun _ _ (_ : State.Mem _) => ?_ | with_reducible apply State.sealed_mem | with_reducible apply State.installVersion_mem | with_reducible apply dropHeld_mem | with_reducible apply State.tryReturn_mem | with_reducible apply State.blame_mem | with_reducible apply State.sealRun_mem | with_reducible apply State.noVote_mem | with_reducible apply State.tieBreak_mem | with_reducible apply State.Mem.foldl | (lift_lets; intro z; refine State.Mem.cutF z (fun hz => ?_) ?_; rotate_left; subst z; rotate_right) | (lift_lets; intro _) | intro _ | split | (change Memory.wf _ = true; dsimp only; change State.Mem _)

theorem State.windowOver_mem {x0 : State} {x1 : Nat} (h0 : x0.Mem) : State.Mem (State.windowOver x0 x1) := by
  unfold State.windowOver
  repeat' first | with_reducible assumption | with_reducible apply State.setCore_mem | with_reducible apply State.stopNow_mem | with_reducible apply State.overrun_mem | (lift_lets; intro _) | (intro z; refine State.Mem.cut z (fun hz => ?_) ?_; rotate_left; subst z; rotate_right) | intro _ | split

theorem State.withFetchWord_mem {x0 : State} {x1 x2 : Nat} (h0 : x0.Mem) : State.Mem (State.withFetchWord x0 x1 x2) := by
  unfold State.withFetchWord
  repeat' first | with_reducible assumption | with_reducible apply State.placeTableWord_mem

theorem State.withTurn_mem {x0 : State} {x1 : Nat} {x2 : Seq} {x3 : Hdr} (h0 : x0.Mem) : State.Mem (State.withTurn x0 x1 x2 x3) := by
  unfold State.withTurn
  repeat' first | with_reducible assumption | (change Memory.wf _ = true; dsimp only; change State.Mem _)

theorem State.wrFree_mem {x0 : State} {x1 : RegF} {x2 : Word} (h0 : x0.Mem) : State.Mem (State.wrFree x0 x1 x2) := by
  unfold State.wrFree
  repeat' first | with_reducible assumption | with_reducible apply State.drawLat_mem | with_reducible apply State.wr_mem

theorem State.writeLkstat_mem {x0 : State} {x1 : Nat} {x2 : Word} (h0 : x0.Mem) : State.Mem (State.writeLkstat x0 x1 x2) := by
  unfold State.writeLkstat
  repeat' first | with_reducible assumption | with_reducible apply State.setLink_mem

theorem State.writeMask_mem {x0 : State} {x1 : BitVec 16} (h0 : x0.Mem) : State.Mem (State.writeMask x0 x1) := by
  unfold State.writeMask
  repeat' first | with_reducible assumption | refine fun _ _ (_ : State.Mem _) => ?_ | with_reducible apply State.raiseVector_mem | with_reducible apply State.Mem.foldl | (lift_lets; intro _) | split | (change Memory.wf _ = true; dsimp only; change State.Mem _)

theorem State.writePcap_mem {x0 : State} {x1 : Nat} (h0 : x0.Mem) : State.Mem (State.writePcap x0 x1) := by
  unfold State.writePcap
  repeat' first | with_reducible assumption | with_reducible apply State.kick_mem | (lift_lets; intro _) | split | (change Memory.wf _ = true; dsimp only; change State.Mem _)

theorem State.writeRegister_mem {x0 : State} {x1 x2 : Nat} {x3 : Word} (h0 : x0.Mem) : State.Mem (State.writeRegister x0 x1 x2 x3) := by
  unfold State.writeRegister
  repeat' first | with_reducible assumption | with_reducible apply State.sendPending_mem | (lift_lets; intro _) | intro _ | split | (change Memory.wf _ = true; dsimp only; change State.Mem _)

end Sys2Proof.Machine
end

