-- ==== Sys2Proof/Laws/CanonicalExec.lean ====
section
/-! SUPPORT. Every instruction and every event of the machine keeps memory in its canonical form: one lemma per meaning. -/

set_option Elab.async false

namespace Sys2Proof.Machine

theorem execA2v_mem {x0 : VOpF} {x1 : RegF} {x2 : BitVec 3} {x3 : BitVec 1} {x4 : PredF} {x5 : State} (h5 : x5.Mem) : OutMem (execA2v x0 x1 x2 x3 x4 x5) := by
  unfold execA2v
  repeat' first | with_reducible assumption | with_reducible apply OutMem.next | refine fun _ (_ : State.Mem _) => ?_ | with_reducible apply State.vecIssue_mem | assumption

theorem execAdd_mem {x0 x1 x2 : RegF} {x3 : State} (h3 : x3.Mem) : OutMem (execAdd x0 x1 x2 x3) := by
  unfold execAdd
  repeat' first | with_reducible assumption | with_reducible apply OutMem.next | with_reducible apply State.scalar_mem

theorem execAddi_mem {x0 : RegF} {x1 : BitVec 32} {x2 : State} (h2 : x2.Mem) : OutMem (execAddi x0 x1 x2) := by
  unfold execAddi
  repeat' first | with_reducible assumption | with_reducible apply OutMem.next | with_reducible apply State.scalar_mem

theorem execAload_mem {x0 : BitVec 1} {x1 : RegF} {x2 : BitVec 32} {x3 : State} (h3 : x3.Mem) : OutMem (execAload x0 x1 x2 x3) := by
  unfold execAload
  repeat' first | with_reducible assumption | with_reducible apply OutMem.next | with_reducible apply State.handOver_mem

theorem execAmo_mem {x0 x1 x2 x3 : RegF} {x4 : BitVec 4} {x5 : BitVec 2} {x6 : BitVec 1} {x7 : Ordr} {x8 : State} (h8 : x8.Mem) : OutMem (execAmo x0 x1 x2 x3 x4 x5 x6 x7 x8) := by
  unfold execAmo
  repeat' first | with_reducible assumption | with_reducible apply OutMem.next | refine fun _ (_ : State.Mem _) => ?_ | with_reducible apply State.dramAtomic_mem | with_reducible apply State.atomicDue_mem | with_reducible apply State.issue_mem | with_reducible apply State.interlock_mem | with_reducible apply State.access_mem | with_reducible apply State.stampFor_mem | with_reducible apply State.addCmd_mem | with_reducible apply State.holdLater_mem | with_reducible apply State.firstRow_mem | with_reducible apply Res.Mem.done | with_reducible apply Res.Mem.trap | (lift_lets; intro _) | intro _ | split

theorem execAnd_mem {x0 x1 x2 : RegF} {x3 : State} (h3 : x3.Mem) : OutMem (execAnd x0 x1 x2 x3) := by
  unfold execAnd
  repeat' first | with_reducible assumption | with_reducible apply OutMem.next | with_reducible apply State.scalar_mem

theorem execAndi_mem {x0 : RegF} {x1 : BitVec 32} {x2 : State} (h2 : x2.Mem) : OutMem (execAndi x0 x1 x2) := by
  unfold execAndi
  repeat' first | with_reducible assumption | with_reducible apply OutMem.next | with_reducible apply State.scalar_mem

theorem execAndn_mem {x0 x1 x2 : RegF} {x3 : State} (h3 : x3.Mem) : OutMem (execAndn x0 x1 x2 x3) := by
  unfold execAndn
  repeat' first | with_reducible assumption | with_reducible apply OutMem.next | with_reducible apply State.scalar_mem

theorem execAstore_mem {x0 : BitVec 1} {x1 : RegF} {x2 : BitVec 32} {x3 : State} (h3 : x3.Mem) : OutMem (execAstore x0 x1 x2 x3) := by
  unfold execAstore
  repeat' first | with_reducible assumption | with_reducible apply OutMem.next | with_reducible apply State.handOver_mem

theorem execAtomicResultReturn_mem {x0 x1 : Nat} {x2 : State} (h2 : x2.Mem) : OutMem (execAtomicResultReturn x0 x1 x2) := by
  unfold execAtomicResultReturn
  repeat' first | with_reducible assumption | with_reducible apply OutMem.next | with_reducible apply State.resultReturn_mem

theorem execAttreq_mem {x0 : State} (h0 : x0.Mem) : OutMem (execAttreq x0) := by
  unfold execAttreq
  repeat' first | with_reducible assumption | with_reducible apply OutMem.next | with_reducible apply State.attest_mem | split

theorem execAzero_mem {x0 : RegF} {x1 : BitVec 32} {x2 : State} (h2 : x2.Mem) : OutMem (execAzero x0 x1 x2) := by
  unfold execAzero
  repeat' first | with_reducible assumption | with_reducible apply OutMem.next | with_reducible apply State.handOver_mem

theorem execBar_mem {x0 : BitVec 3} {x1 : Ordr} {x2 : State} (h2 : x2.Mem) : OutMem (execBar x0 x1 x2) := by
  unfold execBar
  repeat' first | with_reducible assumption | with_reducible apply OutMem.next | refine fun _ (_ : State.Mem _) => ?_ | with_reducible apply State.sbWord_mem | with_reducible apply State.modCur_mem | with_reducible apply State.setBarrier_mem | with_reducible apply State.arrivalCmd_mem | with_reducible apply State.arrive_mem | with_reducible apply Res.Mem.done | with_reducible apply Res.Mem.trap | with_reducible apply Res.Mem.wait | (lift_lets; intro z; refine State.Mem.cut z (fun hz => ?_) ?_; rotate_left; subst z; rotate_right) | (lift_lets; intro _) | (intro z; refine State.Mem.cut z (fun hz => ?_) ?_; rotate_left; subst z; rotate_right) | (intro z; refine State.Mem.cutF z (fun hz => ?_) ?_; rotate_left; subst z; rotate_right) | intro _ | split

theorem execBarrierDeparture_mem {x0 x1 x2 : Nat} {x3 : State} (h3 : x3.Mem) : OutMem (execBarrierDeparture x0 x1 x2 x3) := by
  unfold execBarrierDeparture
  repeat' first | with_reducible assumption | with_reducible apply OutMem.next | with_reducible apply State.depart_mem

theorem execBeng_mem {x0 x1 : RegF} {x2 : Tgt} {x3 : State} (h3 : x3.Mem) : OutMem (execBeng x0 x1 x2 x3) := by
  unfold execBeng
  repeat' first | with_reducible assumption | with_reducible apply OutMem.next | refine fun _ (_ : State.Mem _) => ?_ | with_reducible apply State.issue_mem | with_reducible apply Res.Mem.branch

theorem execBeq_mem {x0 x1 : RegF} {x2 : Tgt} {x3 : State} (h3 : x3.Mem) : OutMem (execBeq x0 x1 x2 x3) := by
  unfold execBeq
  repeat' first | with_reducible assumption | with_reducible apply OutMem.next | with_reducible apply State.condBranch_mem

theorem execBge_mem {x0 x1 : RegF} {x2 : Tgt} {x3 : State} (h3 : x3.Mem) : OutMem (execBge x0 x1 x2 x3) := by
  unfold execBge
  repeat' first | with_reducible assumption | with_reducible apply OutMem.next | with_reducible apply State.condBranch_mem

theorem execBgeu_mem {x0 x1 : RegF} {x2 : Tgt} {x3 : State} (h3 : x3.Mem) : OutMem (execBgeu x0 x1 x2 x3) := by
  unfold execBgeu
  repeat' first | with_reducible assumption | with_reducible apply OutMem.next | with_reducible apply State.condBranch_mem

theorem execBload_mem {x0 : BitVec 1} {x1 : BitVec 32} {x2 : State} (h2 : x2.Mem) : OutMem (execBload x0 x1 x2) := by
  unfold execBload
  repeat' first | with_reducible assumption | with_reducible apply OutMem.next | with_reducible apply State.handOver_mem

theorem execBlt_mem {x0 x1 : RegF} {x2 : Tgt} {x3 : State} (h3 : x3.Mem) : OutMem (execBlt x0 x1 x2 x3) := by
  unfold execBlt
  repeat' first | with_reducible assumption | with_reducible apply OutMem.next | with_reducible apply State.condBranch_mem

theorem execBltu_mem {x0 x1 : RegF} {x2 : Tgt} {x3 : State} (h3 : x3.Mem) : OutMem (execBltu x0 x1 x2 x3) := by
  unfold execBltu
  repeat' first | with_reducible assumption | with_reducible apply OutMem.next | with_reducible apply State.condBranch_mem

theorem execBne_mem {x0 x1 : RegF} {x2 : Tgt} {x3 : State} (h3 : x3.Mem) : OutMem (execBne x0 x1 x2 x3) := by
  unfold execBne
  repeat' first | with_reducible assumption | with_reducible apply OutMem.next | with_reducible apply State.condBranch_mem

theorem execBnz_mem {x0 : RegF} {x1 : Tgt} {x2 : State} (h2 : x2.Mem) : OutMem (execBnz x0 x1 x2) := by
  unfold execBnz
  repeat' first | with_reducible assumption | with_reducible apply OutMem.next | with_reducible apply State.condBranch_mem

theorem execBook_mem {x0 x1 : RegF} {x2 : State} (h2 : x2.Mem) : OutMem (execBook x0 x1 x2) := by
  unfold execBook
  repeat' first | with_reducible assumption | with_reducible apply OutMem.next | refine fun _ (_ : State.Mem _) => ?_ | with_reducible apply State.sbWord_mem | with_reducible apply State.wrFree_mem | with_reducible apply State.dropWindows_mem | with_reducible apply State.modCur_mem | with_reducible apply State.addWindow_mem | with_reducible apply Res.Mem.done | with_reducible apply Res.Mem.trap | (lift_lets; intro z; refine State.Mem.cut z (fun hz => ?_) ?_; rotate_left; subst z; rotate_right) | (lift_lets; intro _) | split

theorem execBookingPlacement_mem {x0 : Nat} {x1 : State} (h1 : x1.Mem) : OutMem (execBookingPlacement x0 x1) := by
  unfold execBookingPlacement
  repeat' first | with_reducible assumption | with_reducible apply OutMem.next | with_reducible apply State.placeRec_mem

theorem execBookingRelease_mem {x0 : State} (h0 : x0.Mem) : OutMem (execBookingRelease x0) := by
  unfold execBookingRelease
  repeat' first | with_reducible assumption | with_reducible apply OutMem.next | with_reducible apply State.release_mem

theorem execBookq_mem {x0 x1 : RegF} {x2 : State} (h2 : x2.Mem) : OutMem (execBookq x0 x1 x2) := by
  unfold execBookq
  repeat' first | with_reducible assumption | with_reducible apply OutMem.next | refine fun _ (_ : State.Mem _) => ?_ | with_reducible apply State.sbWord_mem | with_reducible apply State.wrFree_mem | with_reducible apply Res.Mem.done | with_reducible apply Res.Mem.trap | split

theorem execBoundaryCut_mem {x0 : State} (h0 : x0.Mem) : OutMem (execBoundaryCut x0) := by
  unfold execBoundaryCut
  repeat' first | with_reducible assumption | with_reducible apply OutMem.next | with_reducible apply State.cutBoundary_mem

theorem execBringupStage_mem {x0 : State} (h0 : x0.Mem) : OutMem (execBringupStage x0) := by
  unfold execBringupStage
  repeat' first | with_reducible assumption | with_reducible apply OutMem.next | with_reducible apply State.stageDone_mem

theorem execBsave_mem {x0 : BitVec 1} {x1 : BitVec 32} {x2 : State} (h2 : x2.Mem) : OutMem (execBsave x0 x1 x2) := by
  unfold execBsave
  repeat' first | with_reducible assumption | with_reducible apply OutMem.next | with_reducible apply State.handOver_mem

theorem execBz_mem {x0 : RegF} {x1 : Tgt} {x2 : State} (h2 : x2.Mem) : OutMem (execBz x0 x1 x2) := by
  unfold execBz
  repeat' first | with_reducible assumption | with_reducible apply OutMem.next | with_reducible apply State.condBranch_mem

theorem execCalendarT0Resume_mem {x0 : Nat} {x1 : State} (h1 : x1.Mem) : OutMem (execCalendarT0Resume x0 x1) := by
  unfold execCalendarT0Resume
  repeat' first | with_reducible assumption | with_reducible apply OutMem.next | with_reducible apply State.t0Resume_mem

theorem execCall_mem {x0 : Tgt} {x1 : State} (h1 : x1.Mem) : OutMem (execCall x0 x1) := by
  unfold execCall
  repeat' first | with_reducible assumption | with_reducible apply OutMem.next | with_reducible apply State.callTo_mem

theorem execCallr_mem {x0 : RegF} {x1 : State} (h1 : x1.Mem) : OutMem (execCallr x0 x1) := by
  unfold execCallr
  repeat' first | with_reducible assumption | with_reducible apply OutMem.next | with_reducible apply State.callTo_mem

theorem execCkctlDetect_mem {x0 : BitVec 32} {x1 : State} (h1 : x1.Mem) : OutMem (execCkctlDetect x0 x1) := by
  unfold execCkctlDetect
  repeat' first | with_reducible assumption | with_reducible apply OutMem.next | with_reducible apply State.handOver_mem

theorem execCkctlOff_mem {x0 : BitVec 32} {x1 : State} (h1 : x1.Mem) : OutMem (execCkctlOff x0 x1) := by
  unfold execCkctlOff
  repeat' first | with_reducible assumption | with_reducible apply OutMem.next | with_reducible apply State.handOver_mem

theorem execCkctlOn_mem {x0 : BitVec 32} {x1 : State} (h1 : x1.Mem) : OutMem (execCkctlOn x0 x1) := by
  unfold execCkctlOn
  repeat' first | with_reducible assumption | with_reducible apply OutMem.next | with_reducible apply State.handOver_mem

theorem execCkrd_mem {x0 : VOpF} {x1 : State} (h1 : x1.Mem) : OutMem (execCkrd x0 x1) := by
  unfold execCkrd
  repeat' first | with_reducible assumption | with_reducible apply OutMem.next | refine fun _ (_ : State.Mem _) => ?_ | with_reducible apply State.vecIssue_mem | assumption

theorem execClaspPairing_mem {x0 : State} (h0 : x0.Mem) : OutMem (execClaspPairing x0) := by
  unfold execClaspPairing
  repeat' first | with_reducible assumption | with_reducible apply OutMem.next | with_reducible apply State.clasp_mem

theorem execClmul_mem {x0 x1 x2 : RegF} {x3 : State} (h3 : x3.Mem) : OutMem (execClmul x0 x1 x2 x3) := by
  unfold execClmul
  repeat' first | with_reducible assumption | with_reducible apply OutMem.next | with_reducible apply State.scalar_mem

theorem execClmulh_mem {x0 x1 x2 : RegF} {x3 : State} (h3 : x3.Mem) : OutMem (execClmulh x0 x1 x2 x3) := by
  unfold execClmulh
  repeat' first | with_reducible assumption | with_reducible apply OutMem.next | with_reducible apply State.scalar_mem

theorem execClz_mem {x0 x1 : RegF} {x2 : State} (h2 : x2.Mem) : OutMem (execClz x0 x1 x2) := by
  unfold execClz
  repeat' first | with_reducible assumption | with_reducible apply OutMem.next | with_reducible apply State.scalar_mem

theorem execColdReset_mem {x0 : State} (h0 : x0.Mem) : OutMem (execColdReset x0) := by
  unfold execColdReset
  repeat' first | with_reducible assumption | with_reducible apply OutMem.next | with_reducible apply State.reboot_mem

theorem execCopy_mem {x0 x1 x2 x3 : RegF} {x4 : BitVec 6} {x5 x6 x7 : BitVec 1} {x8 : State} (h8 : x8.Mem) : OutMem (execCopy x0 x1 x2 x3 x4 x5 x6 x7 x8) := by
  unfold execCopy
  repeat' first | with_reducible assumption | with_reducible apply OutMem.next | refine fun _ (_ : State.Mem _) => ?_ | with_reducible apply State.issue_mem | with_reducible apply State.interlock_mem | with_reducible apply State.access_mem | with_reducible apply State.enqueue_mem | with_reducible apply Res.Mem.trap | (lift_lets; intro _) | intro _ | split

theorem execCopyNodeRetire_mem {x0 x1 : Nat} {x2 : State} (h2 : x2.Mem) : OutMem (execCopyNodeRetire x0 x1 x2) := by
  unfold execCopyNodeRetire
  repeat' first | with_reducible assumption | with_reducible apply OutMem.next | with_reducible apply State.nodeRetire_mem

theorem execCopyNodeStart_mem {x0 x1 : Nat} {x2 : State} (h2 : x2.Mem) : OutMem (execCopyNodeStart x0 x1 x2) := by
  unfold execCopyNodeStart
  repeat' first | with_reducible assumption | with_reducible apply OutMem.next | with_reducible apply State.nodeStart_mem

theorem execCopyUnit_mem {x0 x1 x2 : Nat} {x3 : State} (h3 : x3.Mem) : OutMem (execCopyUnit x0 x1 x2 x3) := by
  unfold execCopyUnit
  repeat' first | with_reducible assumption | with_reducible apply OutMem.next | with_reducible apply State.unitStep_mem

theorem execCopyw_mem {x0 x1 x2 x3 : RegF} {x4 : BitVec 6} {x5 x6 x7 : BitVec 1} {x8 : State} (h8 : x8.Mem) : OutMem (execCopyw x0 x1 x2 x3 x4 x5 x6 x7 x8) := by
  unfold execCopyw
  repeat' first | with_reducible assumption | with_reducible apply OutMem.next | refine fun _ (_ : State.Mem _) => ?_ | with_reducible apply State.issue_mem | with_reducible apply State.interlock_mem | with_reducible apply State.access_mem | with_reducible apply State.enqueue_mem | with_reducible apply Res.Mem.trap | (lift_lets; intro _) | intro _ | split

theorem execCoreSpanStart_mem {x0 : Nat} {x1 : State} (h1 : x1.Mem) : OutMem (execCoreSpanStart x0 x1) := by
  unfold execCoreSpanStart
  repeat' first | with_reducible assumption | with_reducible apply OutMem.next | with_reducible apply State.spanStart_mem

theorem execCtz_mem {x0 x1 : RegF} {x2 : State} (h2 : x2.Mem) : OutMem (execCtz x0 x1 x2) := by
  unfold execCtz
  repeat' first | with_reducible assumption | with_reducible apply OutMem.next | with_reducible apply State.scalar_mem

theorem execCut_mem {x0 : State} (h0 : x0.Mem) : OutMem (execCut x0) := by
  unfold execCut
  repeat' first | with_reducible assumption | with_reducible apply OutMem.next | refine fun _ (_ : State.Mem _) => ?_ | with_reducible apply State.issue_mem | with_reducible apply State.modCur_mem | with_reducible apply State.sched_mem | with_reducible apply Res.Mem.done | (lift_lets; intro _) | (intro z; refine State.Mem.cut z (fun hz => ?_) ?_; rotate_left; subst z; rotate_right) | intro _ | split

theorem execDamo_mem {x0 x1 x2 x3 : RegF} {x4 : BitVec 4} {x5 : BitVec 2} {x6 : Ordr} {x7 : State} (h7 : x7.Mem) : OutMem (execDamo x0 x1 x2 x3 x4 x5 x6 x7) := by
  unfold execDamo
  repeat' first | with_reducible assumption | with_reducible apply OutMem.next | refine fun _ _ (_ : State.Mem _) => ?_ | with_reducible apply State.dramAtomic_mem | with_reducible apply State.fresh_mem | with_reducible apply State.sendDamo_mem | (lift_lets; intro _) | split | (change Memory.wf _ = true; dsimp only; change State.Mem _)

theorem execDamoArrival_mem {x0 : Nat} {x1 : State} (h1 : x1.Mem) : OutMem (execDamoArrival x0 x1) := by
  unfold execDamoArrival
  repeat' first | with_reducible assumption | with_reducible apply OutMem.next | with_reducible apply State.damoArrive_mem

theorem execDamoRetryResend_mem {x0 : Nat} {x1 : State} (h1 : x1.Mem) : OutMem (execDamoRetryResend x0 x1) := by
  unfold execDamoRetryResend
  repeat' first | with_reducible assumption | with_reducible apply OutMem.next | with_reducible apply State.sendDamo_mem | split | (change Memory.wf _ = true; dsimp only; change State.Mem _)

theorem execDamoWindowClose_mem {x0 : Nat} {x1 : State} (h1 : x1.Mem) : OutMem (execDamoWindowClose x0 x1) := by
  unfold execDamoWindowClose
  repeat' first | with_reducible assumption | with_reducible apply OutMem.next | with_reducible apply State.closeWindows_mem

theorem execDarnerWalk_mem {x0 : Nat} {x1 : State} (h1 : x1.Mem) : OutMem (execDarnerWalk x0 x1) := by
  unfold execDarnerWalk
  repeat' first | with_reducible assumption | with_reducible apply OutMem.next | with_reducible apply State.darn_mem

theorem execDcpFatalFault_mem {x0 : State} (h0 : x0.Mem) : OutMem (execDcpFatalFault x0) := by
  unfold execDcpFatalFault
  repeat' first | with_reducible assumption | with_reducible apply OutMem.next | with_reducible apply State.dieLoss_mem

theorem execDeliveryAck_mem {x0 : State} (h0 : x0.Mem) : OutMem (execDeliveryAck x0) := by
  unfold execDeliveryAck
  repeat' first | with_reducible assumption | with_reducible apply OutMem.next | with_reducible apply State.refusedAccess_mem | with_reducible apply State.ackDelivery_mem | split

theorem execDeliveryBusyRetry_mem {x0 : State} (h0 : x0.Mem) : OutMem (execDeliveryBusyRetry x0) := by
  unfold execDeliveryBusyRetry
  repeat' first | with_reducible assumption | with_reducible apply OutMem.next | with_reducible apply State.busyAgain_mem

theorem execDeliveryContextOpen_mem {x0 : State} (h0 : x0.Mem) : OutMem (execDeliveryContextOpen x0) := by
  unfold execDeliveryContextOpen
  repeat' first | with_reducible assumption | with_reducible apply OutMem.next | with_reducible apply State.openTarget_mem | with_reducible apply State.sendOwn_mem | split

theorem execDeliveryPacketArrival_mem {x0 : State} (h0 : x0.Mem) : OutMem (execDeliveryPacketArrival x0) := by
  unfold execDeliveryPacketArrival
  repeat' first | with_reducible assumption | with_reducible apply OutMem.next | with_reducible apply State.transit_mem | with_reducible apply State.deliverPacket_mem | split

theorem execDeliveryResendTimeout_mem {x0 : State} (h0 : x0.Mem) : OutMem (execDeliveryResendTimeout x0) := by
  unfold execDeliveryResendTimeout
  repeat' first | with_reducible assumption | with_reducible apply OutMem.next | with_reducible apply State.resendDelivery_mem

theorem execDeliveryTeardown_mem {x0 : State} (h0 : x0.Mem) : OutMem (execDeliveryTeardown x0) := by
  unfold execDeliveryTeardown
  repeat' first | with_reducible assumption | with_reducible apply OutMem.next | with_reducible apply State.tearDown_mem

theorem execDieWorkSteal_mem {x0 : State} (h0 : x0.Mem) : OutMem (execDieWorkSteal x0) := by
  unfold execDieWorkSteal
  repeat' first | with_reducible assumption | with_reducible apply OutMem.next | with_reducible apply State.steal_mem

theorem execEccCorrection_mem {x0 : State} (h0 : x0.Mem) : OutMem (execEccCorrection x0) := by
  unfold execEccCorrection
  repeat' first | with_reducible assumption | with_reducible apply OutMem.next | with_reducible apply State.corrected_mem

theorem execEccReread_mem {x0 : State} (h0 : x0.Mem) : OutMem (execEccReread x0) := by
  unfold execEccReread
  repeat' first | with_reducible assumption | with_reducible apply OutMem.next | with_reducible apply State.uncorrectable_mem | with_reducible apply State.lateData_mem | split

theorem execEngineFaultTrap_mem {x0 x1 : Nat} {x2 : State} (h2 : x2.Mem) : OutMem (execEngineFaultTrap x0 x1 x2) := by
  unfold execEngineFaultTrap
  repeat' first | with_reducible assumption | with_reducible apply OutMem.next | with_reducible apply State.engTrap_mem

theorem execExportInvalidation_mem {x0 : State} (h0 : x0.Mem) : OutMem (execExportInvalidation x0) := by
  unfold execExportInvalidation
  repeat' first | with_reducible assumption | with_reducible apply OutMem.next | with_reducible apply State.invalidateImport_mem

theorem execExportInvalidationAck_mem {x0 : State} (h0 : x0.Mem) : OutMem (execExportInvalidationAck x0) := by
  unfold execExportInvalidationAck
  repeat' first | with_reducible assumption | with_reducible apply OutMem.next | with_reducible apply State.exportAcked_mem

theorem execFallThroughApply_mem {x0 : Nat} {x1 : State} (h1 : x1.Mem) : OutMem (execFallThroughApply x0 x1) := by
  unfold execFallThroughApply
  repeat' first | with_reducible assumption | with_reducible apply OutMem.next | with_reducible apply State.fallThrough_mem

theorem execFence_mem {x0 : Ordr} {x1 : State} (h1 : x1.Mem) : OutMem (execFence x0 x1) := by
  unfold execFence
  repeat' first | with_reducible assumption | with_reducible apply OutMem.next | refine fun _ (_ : State.Mem _) => ?_ | with_reducible apply State.issue_mem | with_reducible apply Res.Mem.done | with_reducible apply Res.Mem.wait | split

theorem execFpush_mem {x0 : RegF} {x1 : State} (h1 : x1.Mem) : OutMem (execFpush x0 x1) := by
  unfold execFpush
  repeat' first | with_reducible assumption | with_reducible apply OutMem.next | refine fun _ (_ : State.Mem _) => ?_ | with_reducible apply State.issue_mem | with_reducible apply State.interlock_mem | with_reducible apply State.modCur_mem | with_reducible apply Res.Mem.done | with_reducible apply Res.Mem.full | split

theorem execFrameRetirement_mem {x0 : State} (h0 : x0.Mem) : OutMem (execFrameRetirement x0) := by
  unfold execFrameRetirement
  repeat' first | with_reducible assumption | with_reducible apply OutMem.next | with_reducible apply State.retireFrame_mem

theorem execFwstage_mem {x0 : State} (h0 : x0.Mem) : OutMem (execFwstage x0) := by
  unfold execFwstage
  repeat' first | with_reducible assumption | with_reducible apply OutMem.next | with_reducible apply State.fwStage_mem

theorem execGatherElement_mem {x0 x1 x2 : Nat} {x3 : State} (h3 : x3.Mem) : OutMem (execGatherElement x0 x1 x2 x3) := by
  unfold execGatherElement
  repeat' first | with_reducible assumption | with_reducible apply OutMem.next | with_reducible apply State.gather_mem

theorem execHalt_mem {x0 : State} (h0 : x0.Mem) : OutMem (execHalt x0) := by
  unfold execHalt
  repeat' first | with_reducible assumption | with_reducible apply OutMem.next | with_reducible apply State.stopSeq_mem

theorem execHcmdCtxend_mem {x0 : State} (h0 : x0.Mem) : OutMem (execHcmdCtxend x0) := by
  unfold execHcmdCtxend
  repeat' first | with_reducible assumption | with_reducible apply OutMem.next | refine fun _ (_ : State.Mem _) => ?_ | with_reducible apply State.hostCommand_mem | with_reducible apply State.ctxEnd_mem

theorem execHcmdCtxnew_mem {x0 : State} (h0 : x0.Mem) : OutMem (execHcmdCtxnew x0) := by
  unfold execHcmdCtxnew
  repeat' first | with_reducible assumption | with_reducible apply OutMem.next | refine fun _ (_ : State.Mem _) => ?_ | with_reducible apply State.hostCommand_mem | with_reducible apply State.ctxNew_mem

theorem execHcmdExport_mem {x0 : State} (h0 : x0.Mem) : OutMem (execHcmdExport x0) := by
  unfold execHcmdExport
  repeat' first | with_reducible assumption | with_reducible apply OutMem.next | refine fun _ (_ : State.Mem _) => ?_ | with_reducible apply State.hostCommand_mem | with_reducible apply State.export__mem

theorem execHcmdInval_mem {x0 : State} (h0 : x0.Mem) : OutMem (execHcmdInval x0) := by
  unfold execHcmdInval
  repeat' first | with_reducible assumption | with_reducible apply OutMem.next | refine fun _ (_ : State.Mem _) => ?_ | with_reducible apply State.hostCommand_mem | with_reducible apply State.inval_mem

theorem execHcmdLaunch_mem {x0 : State} (h0 : x0.Mem) : OutMem (execHcmdLaunch x0) := by
  unfold execHcmdLaunch
  repeat' first | with_reducible assumption | with_reducible apply OutMem.next | refine fun _ (_ : State.Mem _) => ?_ | with_reducible apply State.hostCommand_mem | with_reducible apply State.present_mem | (lift_lets; intro z; refine State.Mem.cut z (fun hz => ?_) ?_; rotate_left; subst z; rotate_right) | (lift_lets; intro _) | (change Memory.wf _ = true; dsimp only; change State.Mem _)

theorem execHcmdMcgroup_mem {x0 : State} (h0 : x0.Mem) : OutMem (execHcmdMcgroup x0) := by
  unfold execHcmdMcgroup
  repeat' first | with_reducible assumption | with_reducible apply OutMem.next | refine fun _ (_ : State.Mem _) => ?_ | with_reducible apply State.hostCommand_mem | with_reducible apply State.mcGroup_mem

theorem execHcmdMigrate_mem {x0 : State} (h0 : x0.Mem) : OutMem (execHcmdMigrate x0) := by
  unfold execHcmdMigrate
  repeat' first | with_reducible assumption | with_reducible apply OutMem.next | refine fun _ (_ : State.Mem _) => ?_ | with_reducible apply State.hostCommand_mem | with_reducible apply State.migrate_mem

theorem execHcmdUnexport_mem {x0 : State} (h0 : x0.Mem) : OutMem (execHcmdUnexport x0) := by
  unfold execHcmdUnexport
  repeat' first | with_reducible assumption | with_reducible apply OutMem.next | refine fun _ (_ : State.Mem _) => ?_ | with_reducible apply State.hostCommand_mem | with_reducible apply State.unexport_mem

theorem execHeartbeat_mem {x0 : State} (h0 : x0.Mem) : OutMem (execHeartbeat x0) := by
  unfold execHeartbeat
  repeat' first | with_reducible assumption | with_reducible apply OutMem.next | with_reducible apply State.beat_mem

theorem execHorizonMessage_mem {x0 x1 : Nat} {x2 : State} (h2 : x2.Mem) : OutMem (execHorizonMessage x0 x1 x2) := by
  unfold execHorizonMessage
  repeat' first | with_reducible assumption | with_reducible apply OutMem.next | with_reducible apply State.hearHorizon_mem | with_reducible apply State.horizon_mem | split

theorem execHostMemoryWrite_mem {x0 : State} (h0 : x0.Mem) : OutMem (execHostMemoryWrite x0) := by
  unfold execHostMemoryWrite
  repeat' first | with_reducible assumption | with_reducible apply OutMem.next | with_reducible apply State.readOut_mem | with_reducible apply State.hostWrite_mem | split

theorem execIcauseWrite_mem {x0 : State} (h0 : x0.Mem) : OutMem (execIcauseWrite x0) := by
  unfold execIcauseWrite
  repeat' first | with_reducible assumption | with_reducible apply OutMem.next | with_reducible apply State.clearCauses_mem | split

theorem execImaskWrite_mem {x0 : State} (h0 : x0.Mem) : OutMem (execImaskWrite x0) := by
  unfold execImaskWrite
  repeat' first | with_reducible assumption | with_reducible apply OutMem.next | with_reducible apply State.writeMask_mem | split

theorem execJmp_mem {x0 : Tgt} {x1 : State} (h1 : x1.Mem) : OutMem (execJmp x0 x1) := by
  unfold execJmp
  repeat' first | with_reducible assumption | with_reducible apply OutMem.next | with_reducible apply State.jump_mem

theorem execJmpr_mem {x0 : RegF} {x1 : State} (h1 : x1.Mem) : OutMem (execJmpr x0 x1) := by
  unfold execJmpr
  repeat' first | with_reducible assumption | with_reducible apply OutMem.next | with_reducible apply State.jump_mem

theorem execLaunch_mem {x0 x1 : RegF} {x2 : State} (h2 : x2.Mem) : OutMem (execLaunch x0 x1 x2) := by
  unfold execLaunch
  repeat' first | with_reducible assumption | with_reducible apply OutMem.next | refine fun _ (_ : State.Mem _) => ?_ | with_reducible apply State.issue_mem | with_reducible apply State.interlock_mem | with_reducible apply State.access_mem | with_reducible apply State.runStop_mem | with_reducible apply State.modCur_mem | with_reducible apply State.wr_mem | with_reducible apply State.present_mem | with_reducible apply Res.Mem.done | with_reducible apply Res.Mem.whole | (lift_lets; intro z; refine State.Mem.cut z (fun hz => ?_) ?_; rotate_left; subst z; rotate_right) | (lift_lets; intro _) | (intro z; refine State.Mem.cut z (fun hz => ?_) ?_; rotate_left; subst z; rotate_right) | intro _ | split

theorem execLdbc_mem {x0 : RegF} {x1 x2 : BitVec 5} {x3 : BitVec 24} {x4 : State} (h4 : x4.Mem) : OutMem (execLdbc x0 x1 x2 x3 x4) := by
  unfold execLdbc
  repeat' first | with_reducible assumption | with_reducible apply OutMem.next | refine fun _ (_ : State.Mem _) => ?_ | with_reducible apply State.memWord_mem | with_reducible apply State.startSpm_mem | with_reducible apply Res.Mem.trap | (lift_lets; intro _) | intro _ | split

theorem execLddram_mem {x0 : RegF} {x1 x2 : BitVec 5} {x3 : BitVec 24} {x4 : State} (h4 : x4.Mem) : OutMem (execLddram x0 x1 x2 x3 x4) := by
  unfold execLddram
  repeat' first | with_reducible assumption | with_reducible apply OutMem.next | refine fun _ (_ : State.Mem _) => ?_ | refine fun _ _ (_ : State.Mem _) => ?_ | with_reducible apply State.memWord_mem | with_reducible apply State.translated_mem | with_reducible apply State.booked_mem | with_reducible apply State.addCmd_mem | with_reducible apply State.sched_mem | with_reducible apply State.schedMem_mem | with_reducible apply Res.Mem.done | with_reducible apply Res.Mem.trap | with_reducible apply Res.Mem.full | (lift_lets; intro _) | intro _ | split | refine State.stampFor_mem' ?_ (by assumption) | refine State.drawLat_mem' ?_ (by assumption)

theorem execLddramReturn_mem {x0 x1 : Nat} {x2 : State} (h2 : x2.Mem) : OutMem (execLddramReturn x0 x1 x2) := by
  unfold execLddramReturn
  repeat' first | with_reducible assumption | with_reducible apply OutMem.next | with_reducible apply State.dramReturn_mem

theorem execLdgath_mem {x0 : RegF} {x1 x2 : BitVec 5} {x3 : BitVec 24} {x4 : State} (h4 : x4.Mem) : OutMem (execLdgath x0 x1 x2 x3 x4) :=
  OutMem.next (State.gseWord_mem h4 fun _ _ _ h e => by cases e; exact h)

theorem execLdrg_mem {x0 : RegF} {x1 x2 : BitVec 5} {x3 : BitVec 4} {x4 : BitVec 1} {x5 : State} (h5 : x5.Mem) : OutMem (execLdrg x0 x1 x2 x3 x4 x5) := by
  unfold execLdrg
  repeat' first | with_reducible assumption | with_reducible apply OutMem.next | refine fun _ (_ : State.Mem _) => ?_ | with_reducible apply State.memWord_mem | with_reducible apply State.ringWord_mem | with_reducible apply State.startSpm_mem | with_reducible apply Res.Mem.wait | (lift_lets; intro _) | intro _ | split

theorem execLdscal_mem {x0 : RegF} {x1 x2 : BitVec 5} {x3 : BitVec 24} {x4 : State} (h4 : x4.Mem) : OutMem (execLdscal x0 x1 x2 x3 x4) := by
  unfold execLdscal
  repeat' first | with_reducible assumption | with_reducible apply OutMem.next | refine fun _ (_ : State.Mem _) => ?_ | with_reducible apply State.memWord_mem | with_reducible apply State.startSpm_mem | with_reducible apply Res.Mem.trap | (lift_lets; intro _) | intro _ | split

theorem execLdspm_mem {x0 : RegF} {x1 x2 : BitVec 5} {x3 : BitVec 24} {x4 : State} (h4 : x4.Mem) : OutMem (execLdspm x0 x1 x2 x3 x4) := by
  unfold execLdspm
  repeat' first | with_reducible assumption | with_reducible apply OutMem.next | refine fun _ (_ : State.Mem _) => ?_ | with_reducible apply State.memWord_mem | with_reducible apply State.startSpm_mem | with_reducible apply Res.Mem.trap | (lift_lets; intro _) | intro _ | split

theorem execLi_mem {x0 : RegF} {x1 : BitVec 32} {x2 : State} (h2 : x2.Mem) : OutMem (execLi x0 x1 x2) := by
  unfold execLi
  repeat' first | with_reducible assumption | with_reducible apply OutMem.next | with_reducible apply State.scalar_mem

theorem execLih_mem {x0 : RegF} {x1 : BitVec 32} {x2 : State} (h2 : x2.Mem) : OutMem (execLih x0 x1 x2) := by
  unfold execLih
  repeat' first | with_reducible assumption | with_reducible apply OutMem.next | with_reducible apply State.scalar_mem

theorem execLineageAck_mem {x0 : Nat} {x1 : Bool} {x2 : State} (h2 : x2.Mem) : OutMem (execLineageAck x0 x1 x2) := by
  unfold execLineageAck
  repeat' first | with_reducible assumption | with_reducible apply OutMem.next | with_reducible apply State.ackLineage_mem

theorem execLinkFrameAck_mem {x0 : State} (h0 : x0.Mem) : OutMem (execLinkFrameAck x0) := by
  unfold execLinkFrameAck
  repeat' first | with_reducible assumption | with_reducible apply OutMem.next | with_reducible apply State.frameAck_mem

theorem execLinkFrameReceive_mem {x0 : State} (h0 : x0.Mem) : OutMem (execLinkFrameReceive x0) := by
  unfold execLinkFrameReceive
  repeat' first | with_reducible assumption | with_reducible apply OutMem.next | with_reducible apply State.frameIn_mem

theorem execLinkKeyExchange_mem {x0 : State} (h0 : x0.Mem) : OutMem (execLinkKeyExchange x0) := by
  unfold execLinkKeyExchange
  repeat' first | with_reducible assumption | with_reducible apply OutMem.next | with_reducible apply State.exchangeKey_mem

theorem execLinkKeyMarker_mem {x0 : State} (h0 : x0.Mem) : OutMem (execLinkKeyMarker x0) := by
  unfold execLinkKeyMarker
  repeat' first | with_reducible assumption | with_reducible apply OutMem.next | with_reducible apply State.switchKey_mem

theorem execLinkNakReceive_mem {x0 : State} (h0 : x0.Mem) : OutMem (execLinkNakReceive x0) := by
  unfold execLinkNakReceive
  repeat' first | with_reducible assumption | with_reducible apply OutMem.next | with_reducible apply State.frameNak_mem

theorem execLoadQueuePush_mem {x0 x1 : Nat} {x2 : State} (h2 : x2.Mem) : OutMem (execLoadQueuePush x0 x1 x2) := by
  unfold execLoadQueuePush
  repeat' first | with_reducible assumption | with_reducible apply OutMem.next | with_reducible apply State.loadPush_mem

theorem execLoop_mem {x0 : BitVec 2} {x1 : RegF} {x2 : Tgt} {x3 : State} (h3 : x3.Mem) : OutMem (execLoop x0 x1 x2 x3) := by
  unfold execLoop
  repeat' first | with_reducible assumption | with_reducible apply OutMem.next | with_reducible apply State.loopOn_mem

theorem execLoopi_mem {x0 : BitVec 2} {x1 : BitVec 18} {x2 : Tgt} {x3 : State} (h3 : x3.Mem) : OutMem (execLoopi x0 x1 x2 x3) := by
  unfold execLoopi
  repeat' first | with_reducible assumption | with_reducible apply OutMem.next | with_reducible apply State.loopOn_mem

theorem execMatrixCommandStart_mem {x0 : Nat} {x1 : State} (h1 : x1.Mem) : OutMem (execMatrixCommandStart x0 x1) := by
  unfold execMatrixCommandStart
  repeat' first | with_reducible assumption | with_reducible apply OutMem.next | with_reducible apply State.commandStart_mem

theorem execMatrixRetire_mem {x0 x1 : Nat} {x2 : State} (h2 : x2.Mem) : OutMem (execMatrixRetire x0 x1 x2) := by
  unfold execMatrixRetire
  repeat' first | with_reducible assumption | with_reducible apply OutMem.next | with_reducible apply State.retireRun_mem

theorem execMax_mem {x0 x1 x2 : RegF} {x3 : State} (h3 : x3.Mem) : OutMem (execMax x0 x1 x2 x3) := by
  unfold execMax
  repeat' first | with_reducible assumption | with_reducible apply OutMem.next | with_reducible apply State.scalar_mem

theorem execMaxu_mem {x0 x1 x2 : RegF} {x3 : State} (h3 : x3.Mem) : OutMem (execMaxu x0 x1 x2 x3) := by
  unfold execMaxu
  repeat' first | with_reducible assumption | with_reducible apply OutMem.next | with_reducible apply State.scalar_mem

theorem execMdrain_mem {x0 : BitVec 1} {x1 : RegF} {x2 : BitVec 32} {x3 : State} (h3 : x3.Mem) : OutMem (execMdrain x0 x1 x2 x3) := by
  unfold execMdrain
  repeat' first | with_reducible assumption | with_reducible apply OutMem.next | with_reducible apply State.handOver_mem

theorem execMfsr_mem {x0 : RegF} {x1 : BitVec 10} {x2 : State} (h2 : x2.Mem) : OutMem (execMfsr x0 x1 x2) := by
  unfold execMfsr
  repeat' first | with_reducible assumption | with_reducible apply OutMem.next | refine fun _ (_ : State.Mem _) => ?_ | with_reducible apply State.issue_mem | with_reducible apply State.modCur_mem | with_reducible apply State.xDone_mem | with_reducible apply State.interlock_mem | with_reducible apply State.wr_mem | with_reducible apply Res.Mem.done | with_reducible apply Res.Mem.trap | with_reducible apply Res.Mem.wait | (lift_lets; intro _) | (intro z; refine State.Mem.cut z (fun hz => ?_) ?_; rotate_left; subst z; rotate_right) | split

theorem execMholdOff_mem {x0 : BitVec 1} {x1 : BitVec 32} {x2 : State} (h2 : x2.Mem) : OutMem (execMholdOff x0 x1 x2) := by
  unfold execMholdOff
  repeat' first | with_reducible assumption | with_reducible apply OutMem.next | with_reducible apply State.handOver_mem

theorem execMholdOn_mem {x0 : BitVec 1} {x1 : BitVec 32} {x2 : State} (h2 : x2.Mem) : OutMem (execMholdOn x0 x1 x2) := by
  unfold execMholdOn
  repeat' first | with_reducible assumption | with_reducible apply OutMem.next | with_reducible apply State.handOver_mem

theorem execMigrationCopyDone_mem {x0 : State} (h0 : x0.Mem) : OutMem (execMigrationCopyDone x0) := by
  unfold execMigrationCopyDone
  repeat' first | with_reducible assumption | with_reducible apply OutMem.next | with_reducible apply State.copyDone_mem

theorem execMigrationFree_mem {x0 : State} (h0 : x0.Mem) : OutMem (execMigrationFree x0) := by
  unfold execMigrationFree
  repeat' first | with_reducible assumption | with_reducible apply OutMem.next | with_reducible apply State.freeOld_mem

theorem execMigrationLogRetry_mem {x0 : State} (h0 : x0.Mem) : OutMem (execMigrationLogRetry x0) := by
  unfold execMigrationLogRetry
  repeat' first | with_reducible assumption | with_reducible apply OutMem.next | with_reducible apply State.retryWrite_mem

theorem execMigrationSwitch_mem {x0 : State} (h0 : x0.Mem) : OutMem (execMigrationSwitch x0) := by
  unfold execMigrationSwitch
  repeat' first | with_reducible assumption | with_reducible apply OutMem.next | with_reducible apply State.trySwitch_mem

theorem execMin_mem {x0 x1 x2 : RegF} {x3 : State} (h3 : x3.Mem) : OutMem (execMin x0 x1 x2 x3) := by
  unfold execMin
  repeat' first | with_reducible assumption | with_reducible apply OutMem.next | with_reducible apply State.scalar_mem

theorem execMinu_mem {x0 x1 x2 : RegF} {x3 : State} (h3 : x3.Mem) : OutMem (execMinu x0 x1 x2 x3) := by
  unfold execMinu
  repeat' first | with_reducible assumption | with_reducible apply OutMem.next | with_reducible apply State.scalar_mem

theorem execMinv_mem {a : BitVec 10} {s : State} (h : s.Mem) : OutMem (execMinv a s) :=
  OutMem.next (State.vecInstant_mem h fun t u ht e => by
    dsimp only at e
    split at e
    · cases e
    · cases e; exact State.startSkip_mem (State.modCur_mem ht))

theorem execMma_mem {x0 : RegF} {x1 : BitVec 32} {x2 : State} (h2 : x2.Mem) : OutMem (execMma x0 x1 x2) := by
  unfold execMma
  repeat' first | with_reducible assumption | with_reducible apply OutMem.next | with_reducible apply State.handOver_mem

theorem execMmaBlockAdd_mem {x0 x1 x2 : Nat} {x3 : State} (h3 : x3.Mem) : OutMem (execMmaBlockAdd x0 x1 x2 x3) := by
  unfold execMmaBlockAdd
  repeat' first | with_reducible assumption | with_reducible apply OutMem.next | with_reducible apply State.blockAdd_mem

theorem execMmerge_mem {x0 : BitVec 1} {x1 : BitVec 32} {x2 : State} (h2 : x2.Mem) : OutMem (execMmerge x0 x1 x2) := by
  unfold execMmerge
  repeat' first | with_reducible assumption | with_reducible apply OutMem.next | with_reducible apply State.handOver_mem

theorem execModeCal_mem {x0 : State} (h0 : x0.Mem) : OutMem (execModeCal x0) := by
  unfold execModeCal
  repeat' first | with_reducible assumption | with_reducible apply OutMem.next | with_reducible apply State.modeWord_mem

theorem execModeDrainDone_mem {x0 : Nat} {x1 : State} (h1 : x1.Mem) : OutMem (execModeDrainDone x0 x1) := by
  unfold execModeDrainDone
  repeat' first | with_reducible assumption | with_reducible apply OutMem.next | with_reducible apply State.drainDone_mem

theorem execModeSb_mem {x0 : State} (h0 : x0.Mem) : OutMem (execModeSb x0) := by
  unfold execModeSb
  repeat' first | with_reducible assumption | with_reducible apply OutMem.next | with_reducible apply State.modeWord_mem

theorem execMov_mem {x0 x1 : RegF} {x2 : State} (h2 : x2.Mem) : OutMem (execMov x0 x1 x2) := by
  unfold execMov
  repeat' first | with_reducible assumption | with_reducible apply OutMem.next | with_reducible apply State.scalar_mem

theorem execMpop_mem {s : State} (h : s.Mem) : OutMem (execMpop s) :=
  OutMem.next (State.vecInstant_mem h fun t u ht e => by
    split at e
    · cases e
    · cases e; exact State.modCur_mem ht)

theorem execMpush_mem {x0 : VOpF} {x1 : BitVec 10} {x2 : BitVec 2} {x3 : State} (h3 : x3.Mem) : OutMem (execMpush x0 x1 x2 x3) := by
  unfold execMpush
  repeat' first | with_reducible assumption | with_reducible apply OutMem.next | refine fun _ (_ : State.Mem _) => ?_ | with_reducible apply State.issue_mem | with_reducible apply State.startVector_mem | with_reducible apply State.setCore_mem | with_reducible apply State.modCur_mem | with_reducible apply State.startSkip_mem | with_reducible apply Res.Mem.done | with_reducible apply Res.Mem.trap | with_reducible apply Res.Mem.wait | (lift_lets; intro _) | intro _ | split | dsimp only

theorem execMresetGo_mem {x0 : State} (h0 : x0.Mem) : OutMem (execMresetGo x0) := by
  unfold execMresetGo
  repeat' first | with_reducible assumption | with_reducible apply OutMem.next | with_reducible apply State.reboot_mem | split

theorem execMtsr_mem {x0 : RegF} {x1 : BitVec 10} {x2 : State} (h2 : x2.Mem) : OutMem (execMtsr x0 x1 x2) := by
  unfold execMtsr
  repeat' first | with_reducible assumption | with_reducible apply OutMem.next | refine fun _ (_ : State.Mem _) => ?_ | with_reducible apply State.issue_mem | with_reducible apply State.modCur_mem | with_reducible apply State.xDone_mem | with_reducible apply State.interlock_mem | with_reducible apply Res.Mem.done | with_reducible apply Res.Mem.trap | with_reducible apply Res.Mem.wait | (lift_lets; intro _) | (intro z; refine State.Mem.cut z (fun hz => ?_) ?_; rotate_left; subst z; rotate_right) | split

theorem execMul_mem {x0 x1 x2 : RegF} {x3 : State} (h3 : x3.Mem) : OutMem (execMul x0 x1 x2 x3) := by
  unfold execMul
  repeat' first | with_reducible assumption | with_reducible apply OutMem.next | with_reducible apply State.scalar_mem

theorem execMulhi_mem {x0 x1 x2 : RegF} {x3 : State} (h3 : x3.Mem) : OutMem (execMulhi x0 x1 x2 x3) := by
  unfold execMulhi
  repeat' first | with_reducible assumption | with_reducible apply OutMem.next | with_reducible apply State.scalar_mem

theorem execMulhu_mem {x0 x1 x2 : RegF} {x3 : State} (h3 : x3.Mem) : OutMem (execMulhu x0 x1 x2 x3) := by
  unfold execMulhu
  repeat' first | with_reducible assumption | with_reducible apply OutMem.next | with_reducible apply State.scalar_mem

theorem execMulticastWrite_mem {x0 : State} (h0 : x0.Mem) : OutMem (execMulticastWrite x0) := by
  unfold execMulticastWrite
  repeat' first | with_reducible assumption | with_reducible apply OutMem.next | with_reducible apply State.multicast_mem

theorem execNop_mem {x0 : State} (h0 : x0.Mem) : OutMem (execNop x0) := by
  unfold execNop
  repeat' first | with_reducible assumption | with_reducible apply OutMem.next | refine fun _ (_ : State.Mem _) => ?_ | with_reducible apply State.issue_mem | with_reducible apply Res.Mem.done

theorem execOr_mem {x0 x1 x2 : RegF} {x3 : State} (h3 : x3.Mem) : OutMem (execOr x0 x1 x2 x3) := by
  unfold execOr
  repeat' first | with_reducible assumption | with_reducible apply OutMem.next | with_reducible apply State.scalar_mem

theorem execOri_mem {x0 : RegF} {x1 : BitVec 32} {x2 : State} (h2 : x2.Mem) : OutMem (execOri x0 x1 x2) := by
  unfold execOri
  repeat' first | with_reducible assumption | with_reducible apply OutMem.next | with_reducible apply State.scalar_mem

theorem execPairingArrival_mem {x0 : Nat} {x1 : State} (h1 : x1.Mem) : OutMem (execPairingArrival x0 x1) := by
  unfold execPairingArrival
  repeat' first | with_reducible assumption | with_reducible apply OutMem.next | with_reducible apply State.pairArrive_mem

theorem execPairingHoldExpiry_mem {x0 : Nat} {x1 : State} (h1 : x1.Mem) : OutMem (execPairingHoldExpiry x0 x1) := by
  unfold execPairingHoldExpiry
  repeat' first | with_reducible assumption | with_reducible apply OutMem.next | with_reducible apply State.forwardPair_mem | split

theorem execPatrolScrub_mem {x0 : State} (h0 : x0.Mem) : OutMem (execPatrolScrub x0) := by
  unfold execPatrolScrub
  repeat' first | with_reducible assumption | with_reducible apply OutMem.next | with_reducible apply State.uncorrectable_mem | with_reducible apply State.schedInp_mem | split

theorem execPcapWrite_mem {x0 : State} (h0 : x0.Mem) : OutMem (execPcapWrite x0) := by
  unfold execPcapWrite
  repeat' first | with_reducible assumption | with_reducible apply OutMem.next | with_reducible apply State.writePcap_mem | split

theorem execPcieReset_mem {x0 : State} (h0 : x0.Mem) : OutMem (execPcieReset x0) := by
  unfold execPcieReset
  repeat' first | with_reducible assumption | with_reducible apply OutMem.next | with_reducible apply State.reboot_mem

theorem execPcnt_mem {x0 x1 : VOpF} {x2 : BitVec 3} {x3 : BitVec 2} {x4 : State} (h4 : x4.Mem) : OutMem (execPcnt x0 x1 x2 x3 x4) := by
  unfold execPcnt
  repeat' first | with_reducible assumption | with_reducible apply OutMem.next | with_reducible apply State.vecWord_mem

theorem execPfirst_mem {x0 x1 : VOpF} {x2 : BitVec 3} {x3 : BitVec 2} {x4 : State} (h4 : x4.Mem) : OutMem (execPfirst x0 x1 x2 x3 x4) := by
  unfold execPfirst
  repeat' first | with_reducible assumption | with_reducible apply OutMem.next | with_reducible apply State.vecWord_mem

theorem execPinRelease_mem {x0 : State} (h0 : x0.Mem) : OutMem (execPinRelease x0) := by
  unfold execPinRelease
  repeat' first | with_reducible assumption | with_reducible apply OutMem.next | with_reducible apply State.releasePin_mem

theorem execPinit_mem {x0 x1 : RegF} {x2 : State} (h2 : x2.Mem) : OutMem (execPinit x0 x1 x2) := by
  unfold execPinit
  repeat' first | with_reducible assumption | with_reducible apply OutMem.next | refine fun _ (_ : State.Mem _) => ?_ | refine fun _ _ (_ : State.Mem _) => ?_ | with_reducible apply State.issue_mem | with_reducible apply State.interlock_mem | with_reducible apply State.access_mem | with_reducible apply State.translated_mem | with_reducible apply State.stampFor_mem | with_reducible apply State.addCmd_mem | with_reducible apply State.schedMem_mem | with_reducible apply Res.Mem.done | with_reducible apply Res.Mem.trap | (lift_lets; intro _) | intro _ | split

theorem execPopc_mem {x0 x1 : RegF} {x2 : State} (h2 : x2.Mem) : OutMem (execPopc x0 x1 x2) := by
  unfold execPopc
  repeat' first | with_reducible assumption | with_reducible apply OutMem.next | with_reducible apply State.scalar_mem

theorem execPowerStateEntry_mem {x0 : State} (h0 : x0.Mem) : OutMem (execPowerStateEntry x0) := by
  unfold execPowerStateEntry
  repeat' first | with_reducible assumption | with_reducible apply OutMem.next | with_reducible apply State.powerDown_mem

theorem execPowerStateExit_mem {x0 : State} (h0 : x0.Mem) : OutMem (execPowerStateExit x0) := by
  unfold execPowerStateExit
  repeat' first | with_reducible assumption | with_reducible apply OutMem.next | with_reducible apply State.powerUp_mem

theorem execPpop_mem {x0 x1 x2 : RegF} {x3 : BitVec 1} {x4 : Ordr} {x5 : State} (h5 : x5.Mem) : OutMem (execPpop x0 x1 x2 x3 x4 x5) := by
  unfold execPpop
  repeat' first | with_reducible assumption | with_reducible apply OutMem.next | with_reducible apply State.pairWord_mem

theorem execPpush_mem {x0 x1 x2 : RegF} {x3 : BitVec 1} {x4 : Ordr} {x5 : State} (h5 : x5.Mem) : OutMem (execPpush x0 x1 x2 x3 x4 x5) := by
  unfold execPpush
  repeat' first | with_reducible assumption | with_reducible apply OutMem.next | with_reducible apply State.pairWord_mem

theorem execPreemptCutStop_mem {x0 : Nat} {x1 : State} (h1 : x1.Mem) : OutMem (execPreemptCutStop x0 x1) := by
  unfold execPreemptCutStop
  repeat' first | with_reducible assumption | with_reducible apply OutMem.next | with_reducible apply State.stopOrWait_mem

theorem execPreemptRequest_mem {x0 : Nat} {x1 : State} (h1 : x1.Mem) : OutMem (execPreemptRequest x0 x1) := by
  unfold execPreemptRequest
  repeat' first | with_reducible assumption | with_reducible apply OutMem.next | with_reducible apply State.requestStop_mem

theorem execPreemptTimeoutStop_mem {x0 : Nat} {x1 : State} (h1 : x1.Mem) : OutMem (execPreemptTimeoutStop x0 x1) := by
  unfold execPreemptTimeoutStop
  repeat' first | with_reducible assumption | with_reducible apply OutMem.next | with_reducible apply State.drainStop_mem | with_reducible apply State.stopOrWait_mem | split

theorem execPref_mem {x0 x1 : BitVec 5} {x2 : BitVec 24} {x3 : State} (h3 : x3.Mem) : OutMem (execPref x0 x1 x2 x3) := by
  unfold execPref
  repeat' first | with_reducible assumption | with_reducible apply OutMem.next | refine fun _ (_ : State.Mem _) => ?_ | with_reducible apply State.issue_mem | with_reducible apply State.interlock_mem | with_reducible apply State.prefetch_mem | with_reducible apply Res.Mem.done

theorem execPriorityAging_mem {x0 : Nat} {x1 : State} (h1 : x1.Mem) : OutMem (execPriorityAging x0 x1) := by
  unfold execPriorityAging
  repeat' first | with_reducible assumption | with_reducible apply OutMem.next | with_reducible apply State.age_mem

theorem execPrologueStart_mem {x0 : Nat} {x1 : State} (h1 : x1.Mem) : OutMem (execPrologueStart x0 x1) := by
  unfold execPrologueStart
  repeat' first | with_reducible assumption | with_reducible apply OutMem.next | with_reducible apply State.prologue_mem

theorem execPset_mem {a : BitVec 3} {b : BitVec 13} {c : BitVec 2} {d : BitVec 3} {s : State} (h : s.Mem) : OutMem (execPset a b c d s) :=
  OutMem.next (State.vecInstant_mem h fun t u ht e => by cases e; exact State.modCur_mem ht)

theorem execPublishBuf_mem {x0 x1 : RegF} {x2 : BitVec 3} {x3 : State} (h3 : x3.Mem) : OutMem (execPublishBuf x0 x1 x2 x3) := by
  unfold execPublishBuf
  repeat' first | with_reducible assumption | with_reducible apply OutMem.next | refine fun _ (_ : State.Mem _) => ?_ | with_reducible apply State.issue_mem | with_reducible apply State.interlock_mem | with_reducible apply State.access_mem | with_reducible apply State.stampFor_mem | with_reducible apply State.sendPublish_mem | with_reducible apply Res.Mem.done | with_reducible apply Res.Mem.wait | (lift_lets; intro _) | intro _ | split

theorem execPublishSwitch_mem {x0 : Nat} {x1 : State} (h1 : x1.Mem) : OutMem (execPublishSwitch x0 x1) := by
  unfold execPublishSwitch
  repeat' first | with_reducible assumption | with_reducible apply OutMem.next | with_reducible apply State.switch_mem

theorem execPublishTile_mem {x0 : RegF} {x1 : BitVec 3} {x2 : State} (h2 : x2.Mem) : OutMem (execPublishTile x0 x1 x2) := by
  unfold execPublishTile
  repeat' first | with_reducible assumption | with_reducible apply OutMem.next | refine fun _ (_ : State.Mem _) => ?_ | with_reducible apply State.issue_mem | with_reducible apply State.interlock_mem | with_reducible apply State.access_mem | with_reducible apply State.modCur_mem | with_reducible apply State.holdPublish_mem | with_reducible apply State.rebuiltAudit_mem | with_reducible apply State.stampFor_mem | with_reducible apply State.sendPublish_mem | with_reducible apply State.enterPublish_mem | with_reducible apply State.report_mem | with_reducible apply Res.Mem.done | with_reducible apply Res.Mem.trap | with_reducible apply Res.Mem.wait | (lift_lets; intro _) | (intro z; refine State.Mem.cut z (fun hz => ?_) ?_; rotate_left; subst z; rotate_right) | intro _ | split

theorem execQmark_mem {x0 : BitVec 8} {x1 : State} (h1 : x1.Mem) : OutMem (execQmark x0 x1) := by
  unfold execQmark
  repeat' first | with_reducible assumption | with_reducible apply OutMem.next | refine fun _ (_ : State.Mem _) => ?_ | with_reducible apply State.issue_mem | with_reducible apply State.modCur_mem | with_reducible apply Res.Mem.done | with_reducible apply Res.Mem.trap | (lift_lets; intro _) | intro _ | split

theorem execQueueRotation_mem {x0 : State} (h0 : x0.Mem) : OutMem (execQueueRotation x0) := by
  unfold execQueueRotation
  repeat' first | with_reducible assumption | with_reducible apply OutMem.next | refine fun _ _ (_ : State.Mem _) => ?_ | with_reducible apply State.kick_mem | with_reducible apply State.sched_mem | with_reducible apply State.rotate_mem | with_reducible apply State.Mem.foldl

theorem execRackLinkFailure_mem {x0 : State} (h0 : x0.Mem) : OutMem (execRackLinkFailure x0) := by
  unfold execRackLinkFailure
  repeat' first | with_reducible assumption | with_reducible apply OutMem.next | with_reducible apply State.rackFailure_mem | with_reducible apply State.linkDown_mem | split

theorem execRackStcSync_mem {x0 : State} (h0 : x0.Mem) : OutMem (execRackStcSync x0) := by
  unfold execRackStcSync
  repeat' first | with_reducible assumption | with_reducible apply OutMem.next | with_reducible apply State.rackSync_mem

theorem execRamo_mem {x0 x1 x2 x3 : RegF} {x4 : BitVec 4} {x5 : BitVec 2} {x6 : Ordr} {x7 : State} (h7 : x7.Mem) : OutMem (execRamo x0 x1 x2 x3 x4 x5 x6 x7) := by
  unfold execRamo
  repeat' first | with_reducible assumption | with_reducible apply OutMem.next | with_reducible apply State.dramAtomic_mem | with_reducible apply State.atomicDue_mem

theorem execRdeng_mem {x0 : RegF} {x1 : BitVec 10} {x2 : State} (h2 : x2.Mem) : OutMem (execRdeng x0 x1 x2) := by
  unfold execRdeng
  repeat' first | with_reducible assumption | with_reducible apply OutMem.next | refine fun _ (_ : State.Mem _) => ?_ | with_reducible apply State.issue_mem | with_reducible apply State.interlock_mem | with_reducible apply State.wr_mem | with_reducible apply Res.Mem.done

theorem execRdstc_mem {x0 : RegF} {x1 : State} (h1 : x1.Mem) : OutMem (execRdstc x0 x1) := by
  unfold execRdstc
  repeat' first | with_reducible assumption | with_reducible apply OutMem.next | refine fun _ (_ : State.Mem _) => ?_ | with_reducible apply State.issue_mem | with_reducible apply State.interlock_mem | with_reducible apply State.wr_mem | with_reducible apply Res.Mem.done

theorem execRdstcT0_mem {x0 : RegF} {x1 : State} (h1 : x1.Mem) : OutMem (execRdstcT0 x0 x1) := by
  unfold execRdstcT0
  repeat' first | with_reducible assumption | with_reducible apply OutMem.next | refine fun _ (_ : State.Mem _) => ?_ | with_reducible apply State.issue_mem | with_reducible apply State.interlock_mem | with_reducible apply State.wr_mem | with_reducible apply Res.Mem.done

theorem execRedundantRunCompare_mem {x0 : State} (h0 : x0.Mem) : OutMem (execRedundantRunCompare x0) := by
  unfold execRedundantRunCompare
  repeat' first | with_reducible assumption | with_reducible apply OutMem.next | with_reducible apply State.vote_mem

theorem execRegisterWrite_mem {x0 : State} (h0 : x0.Mem) : OutMem (execRegisterWrite x0) := by
  unfold execRegisterWrite
  repeat' first | with_reducible assumption | with_reducible apply OutMem.next | with_reducible apply State.writeLkstat_mem | with_reducible apply State.writeRegister_mem | split

theorem execRemoteTranslationReply_mem {x0 : State} (h0 : x0.Mem) : OutMem (execRemoteTranslationReply x0) := by
  unfold execRemoteTranslationReply
  repeat' first | with_reducible assumption | with_reducible apply OutMem.next | with_reducible apply State.remoteReply_mem

theorem execRemoteTranslationReq_mem {x0 : State} (h0 : x0.Mem) : OutMem (execRemoteTranslationReq x0) := by
  unfold execRemoteTranslationReq
  repeat' first | with_reducible assumption | with_reducible apply OutMem.next | with_reducible apply State.remoteReq_mem

theorem execReplicaComplete_mem {x0 : Nat} {x1 : State} (h1 : x1.Mem) : OutMem (execReplicaComplete x0 x1) := by
  unfold execReplicaComplete
  repeat' first | with_reducible assumption | with_reducible apply OutMem.next | with_reducible apply State.replicaDone_mem | with_reducible apply State.replicaStart_mem | split

theorem execRestorePrologue_mem {x0 : Nat} {x1 : State} (h1 : x1.Mem) : OutMem (execRestorePrologue x0 x1) := by
  unfold execRestorePrologue
  repeat' first | with_reducible assumption | with_reducible apply OutMem.next | with_reducible apply State.restoreTask_mem

theorem execRet_mem {x0 : State} (h0 : x0.Mem) : OutMem (execRet x0) := by
  unfold execRet
  repeat' first | with_reducible assumption | with_reducible apply OutMem.next | refine fun _ (_ : State.Mem _) => ?_ | with_reducible apply State.issue_mem | with_reducible apply State.setCore_mem | with_reducible apply Res.Mem.branch | with_reducible apply Res.Mem.trap | split

theorem execRetEh_mem {x0 : State} (h0 : x0.Mem) : OutMem (execRetEh x0) := by
  unfold execRetEh
  repeat' first | with_reducible assumption | with_reducible apply OutMem.next | refine fun _ (_ : State.Mem _) => ?_ | with_reducible apply State.issue_mem | with_reducible apply State.setCore_mem | with_reducible apply State.placeReturn_mem | with_reducible apply Res.Mem.whole | with_reducible apply Res.Mem.trap | with_reducible apply Res.Mem.wait | (lift_lets; intro _) | intro _ | split

theorem execRingBlockRead_mem {x0 x1 x2 : Nat} {x3 : State} (h3 : x3.Mem) : OutMem (execRingBlockRead x0 x1 x2 x3) := by
  unfold execRingBlockRead
  repeat' first | with_reducible assumption | with_reducible apply OutMem.next | with_reducible apply State.blockRead_mem

theorem execRingPacketAck_mem {x0 : State} (h0 : x0.Mem) : OutMem (execRingPacketAck x0) := by
  unfold execRingPacketAck
  repeat' first | with_reducible assumption | with_reducible apply OutMem.next | with_reducible apply State.packetAcked_mem

theorem execRingPacketArrival_mem {x0 : State} (h0 : x0.Mem) : OutMem (execRingPacketArrival x0) := by
  unfold execRingPacketArrival
  repeat' first | with_reducible assumption | with_reducible apply OutMem.next | with_reducible apply State.packetIn_mem

theorem execRingPacketResend_mem {x0 : State} (h0 : x0.Mem) : OutMem (execRingPacketResend x0) := by
  unfold execRingPacketResend
  repeat' first | with_reducible assumption | with_reducible apply OutMem.next | with_reducible apply State.packetAgain_mem

theorem execRingadv_mem {x0 : BitVec 4} {x1 : RegF} {x2 : State} (h2 : x2.Mem) : OutMem (execRingadv x0 x1 x2) := by
  unfold execRingadv
  repeat' first | with_reducible assumption | with_reducible apply OutMem.next | refine fun _ (_ : State.Mem _) => ?_ | with_reducible apply State.issue_mem | with_reducible apply State.interlock_mem | with_reducible apply State.modCur_mem | with_reducible apply Res.Mem.done | with_reducible apply Res.Mem.trap | with_reducible apply Res.Mem.full | (lift_lets; intro _) | intro _ | split

theorem execRingpop_mem {x0 : BitVec 4} {x1 : RegF} {x2 : State} (h2 : x2.Mem) : OutMem (execRingpop x0 x1 x2) := by
  unfold execRingpop
  repeat' first | with_reducible assumption | with_reducible apply OutMem.next | refine fun _ (_ : State.Mem _) => ?_ | with_reducible apply State.issue_mem | with_reducible apply State.modCur_mem | with_reducible apply Res.Mem.done | with_reducible apply Res.Mem.trap | with_reducible apply Res.Mem.wait | (lift_lets; intro _) | split

theorem execRingset_mem {x0 : BitVec 4} {x1 x2 : RegF} {x3 : State} (h3 : x3.Mem) : OutMem (execRingset x0 x1 x2 x3) := by
  unfold execRingset
  repeat' first | with_reducible assumption | with_reducible apply OutMem.next | refine fun _ (_ : State.Mem _) => ?_ | with_reducible apply State.issue_mem | with_reducible apply State.interlock_mem | with_reducible apply State.modCur_mem | with_reducible apply Res.Mem.done | with_reducible apply Res.Mem.trap | (lift_lets; intro _) | split

theorem execRrbdec_mem {s : State} (h : s.Mem) : OutMem (execRrbdec s) :=
  OutMem.next (State.vecInstant_mem h fun t u ht e => by cases e; exact State.emitRrb_mem ht)

theorem execRrbset_mem {a : BitVec 10} {s : State} (h : s.Mem) : OutMem (execRrbset a s) :=
  OutMem.next (State.vecInstant_mem h fun t u ht e => by cases e; exact State.modCur_mem ht)

theorem execRwContribution_mem {x0 : Nat} {x1 : State} (h1 : x1.Mem) : OutMem (execRwContribution x0 x1) := by
  unfold execRwContribution
  repeat' first | with_reducible assumption | with_reducible apply OutMem.next | with_reducible apply State.contribArrive_mem

theorem execRwDelivery_mem {x0 : Nat} {x1 : State} (h1 : x1.Mem) : OutMem (execRwDelivery x0 x1) := by
  unfold execRwDelivery
  repeat' first | with_reducible assumption | with_reducible apply OutMem.next | with_reducible apply State.deliver_mem

theorem execRwadd_mem {x0 x1 x2 : RegF} {x3 : BitVec 1} {x4 : BitVec 2} {x5 : State} (h5 : x5.Mem) : OutMem (execRwadd x0 x1 x2 x3 x4 x5) := by
  unfold execRwadd
  repeat' first | with_reducible assumption | with_reducible apply OutMem.next | refine fun _ (_ : State.Mem _) => ?_ | with_reducible apply State.issue_mem | with_reducible apply State.interlock_mem | with_reducible apply State.access_mem | with_reducible apply State.runStop_mem | with_reducible apply State.post_mem | with_reducible apply State.schedFree_mem | with_reducible apply Res.Mem.done | with_reducible apply Res.Mem.whole | (lift_lets; intro _) | split

theorem execRwaddBlk_mem {x0 x1 x2 : RegF} {x3 : BitVec 1} {x4 : BitVec 2} {x5 : State} (h5 : x5.Mem) : OutMem (execRwaddBlk x0 x1 x2 x3 x4 x5) := by
  unfold execRwaddBlk
  repeat' first | with_reducible assumption | with_reducible apply OutMem.next | refine fun _ (_ : State.Mem _) => ?_ | with_reducible apply State.issue_mem | with_reducible apply State.interlock_mem | with_reducible apply State.access_mem | with_reducible apply State.runStop_mem | with_reducible apply State.post_mem | with_reducible apply State.firstRow_mem | with_reducible apply Res.Mem.done | with_reducible apply Res.Mem.whole | with_reducible apply Res.Mem.trap | (lift_lets; intro _) | intro _ | split

theorem execRwclose_mem {x0 x1 : RegF} {x2 : BitVec 2} {x3 : State} (h3 : x3.Mem) : OutMem (execRwclose x0 x1 x2 x3) := by
  unfold execRwclose
  repeat' first | with_reducible assumption | with_reducible apply OutMem.next | refine fun _ (_ : State.Mem _) => ?_ | with_reducible apply State.issue_mem | with_reducible apply State.interlock_mem | with_reducible apply State.access_mem | with_reducible apply State.unspill_mem | with_reducible apply State.noteWait_mem | with_reducible apply State.endWait_mem | with_reducible apply State.stampFor_mem | with_reducible apply State.addCmd_mem | with_reducible apply State.schedFree_mem | with_reducible apply Res.Mem.done | with_reducible apply Res.Mem.trap | (lift_lets; intro z; refine State.Mem.cut z (fun hz => ?_) ?_; rotate_left; subst z; rotate_right) | split | (change Memory.wf _ = true; dsimp only; change State.Mem _)

theorem execRwopen_mem {x0 x1 x2 x3 : RegF} {x4 : BitVec 1} {x5 : BitVec 3} {x6 : State} (h6 : x6.Mem) : OutMem (execRwopen x0 x1 x2 x3 x4 x5 x6) := by
  unfold execRwopen
  repeat' first | with_reducible assumption | with_reducible apply OutMem.next | refine fun _ (_ : State.Mem _) => ?_ | refine fun _ _ (_ : State.Mem _) => ?_ | with_reducible apply State.issue_mem | with_reducible apply State.interlock_mem | with_reducible apply State.access_mem | with_reducible apply State.translated_mem | with_reducible apply State.fresh_mem | with_reducible apply State.stampFor_mem | with_reducible apply State.addCmd_mem | with_reducible apply State.schedFree_mem | with_reducible apply Res.Mem.done | with_reducible apply Res.Mem.trap | (lift_lets; intro _) | (intro z; refine State.Mem.cut z (fun hz => ?_) ?_; rotate_left; subst z; rotate_right) | intro _ | split | (change Memory.wf _ = true; dsimp only; change State.Mem _)

theorem execScnt_mem {x0 : BitVec 1} {x1 : BitVec 32} {x2 : State} (h2 : x2.Mem) : OutMem (execScnt x0 x1 x2) := by
  unfold execScnt
  repeat' first | with_reducible assumption | with_reducible apply OutMem.next | with_reducible apply State.handOver_mem

theorem execScntBlockCount_mem {x0 x1 x2 : Nat} {x3 : State} (h3 : x3.Mem) : OutMem (execScntBlockCount x0 x1 x2 x3) := by
  unfold execScntBlockCount
  repeat' first | with_reducible assumption | with_reducible apply OutMem.next | with_reducible apply State.blockCount_mem

theorem execSel_mem {x0 x1 x2 : RegF} {x3 : State} (h3 : x3.Mem) : OutMem (execSel x0 x1 x2 x3) := by
  unfold execSel
  repeat' first | with_reducible assumption | with_reducible apply OutMem.next | with_reducible apply State.scalar_mem

theorem execSensorAlarm_mem {x0 : State} (h0 : x0.Mem) : OutMem (execSensorAlarm x0) := by
  unfold execSensorAlarm
  repeat' first | with_reducible assumption | with_reducible apply OutMem.next | with_reducible apply State.schedInp_mem | with_reducible apply State.alarm_mem | split

theorem execSeq_mem {x0 x1 x2 : RegF} {x3 : State} (h3 : x3.Mem) : OutMem (execSeq x0 x1 x2 x3) := by
  unfold execSeq
  repeat' first | with_reducible assumption | with_reducible apply OutMem.next | with_reducible apply State.scalar_mem

theorem execShardPressureReplication_mem {x0 : State} (h0 : x0.Mem) : OutMem (execShardPressureReplication x0) := by
  unfold execShardPressureReplication
  repeat' first | with_reducible assumption | with_reducible apply OutMem.next | with_reducible apply State.relieve_mem

theorem execShl_mem {x0 x1 x2 : RegF} {x3 : State} (h3 : x3.Mem) : OutMem (execShl x0 x1 x2 x3) := by
  unfold execShl
  repeat' first | with_reducible assumption | with_reducible apply OutMem.next | with_reducible apply State.scalar_mem

theorem execShli_mem {x0 : RegF} {x1 : BitVec 32} {x2 : State} (h2 : x2.Mem) : OutMem (execShli x0 x1 x2) := by
  unfold execShli
  repeat' first | with_reducible assumption | with_reducible apply OutMem.next | with_reducible apply State.scalar_mem

theorem execShr_mem {x0 x1 x2 : RegF} {x3 : State} (h3 : x3.Mem) : OutMem (execShr x0 x1 x2 x3) := by
  unfold execShr
  repeat' first | with_reducible assumption | with_reducible apply OutMem.next | with_reducible apply State.scalar_mem

theorem execShri_mem {x0 : RegF} {x1 : BitVec 32} {x2 : State} (h2 : x2.Mem) : OutMem (execShri x0 x1 x2) := by
  unfold execShri
  repeat' first | with_reducible assumption | with_reducible apply OutMem.next | with_reducible apply State.scalar_mem

theorem execSlt_mem {x0 x1 x2 : RegF} {x3 : State} (h3 : x3.Mem) : OutMem (execSlt x0 x1 x2 x3) := by
  unfold execSlt
  repeat' first | with_reducible assumption | with_reducible apply OutMem.next | with_reducible apply State.scalar_mem

theorem execSltu_mem {x0 x1 x2 : RegF} {x3 : State} (h3 : x3.Mem) : OutMem (execSltu x0 x1 x2 x3) := by
  unfold execSltu
  repeat' first | with_reducible assumption | with_reducible apply OutMem.next | with_reducible apply State.scalar_mem

theorem execSpareFill_mem {x0 : Nat} {x1 : State} (h1 : x1.Mem) : OutMem (execSpareFill x0 x1) := by
  unfold execSpareFill
  repeat' first | with_reducible assumption | with_reducible apply OutMem.next | with_reducible apply State.startFill_mem

theorem execSpareFillComplete_mem {x0 : Nat} {x1 : State} (h1 : x1.Mem) : OutMem (execSpareFillComplete x0 x1) := by
  unfold execSpareFillComplete
  repeat' first | with_reducible assumption | with_reducible apply OutMem.next | with_reducible apply State.fillStage_mem | with_reducible apply State.schedInp_mem | with_reducible apply State.fillDone_mem | split

theorem execSpawn_mem {x0 x1 x2 : RegF} {x3 : BitVec 3} {x4 : BitVec 1} {x5 : State} (h5 : x5.Mem) : OutMem (execSpawn x0 x1 x2 x3 x4 x5) := by
  unfold execSpawn
  repeat' first | with_reducible assumption | with_reducible apply OutMem.next | refine fun _ (_ : State.Mem _) => ?_ | with_reducible apply State.issue_mem | with_reducible apply State.interlock_mem | with_reducible apply State.access_mem | with_reducible apply State.runStop_mem | with_reducible apply State.setLaunch_mem | with_reducible apply State.borrow_mem | with_reducible apply State.setRec_mem | with_reducible apply State.addRec_mem | with_reducible apply State.wr_mem | with_reducible apply Res.Mem.done | with_reducible apply Res.Mem.whole | with_reducible apply Res.Mem.trap | with_reducible apply Res.Mem.wait | (lift_lets; intro _) | intro _ | split | dsimp only

theorem execSpset_mem {a : BitVec 8} {s : State} (h : s.Mem) : OutMem (execSpset a s) :=
  OutMem.next (State.vecInstant_mem h fun t u ht e => by cases e; exact State.modCur_mem ht)

theorem execSpshl_mem {a b : BitVec 1} {s : State} (h : s.Mem) : OutMem (execSpshl a b s) :=
  OutMem.next (State.vecInstant_mem h fun t u ht e => by
    cases e
    split
    · exact State.emitRrb_mem (State.modCur_mem ht)
    · exact State.modCur_mem ht)

theorem execSra_mem {x0 x1 x2 : RegF} {x3 : State} (h3 : x3.Mem) : OutMem (execSra x0 x1 x2 x3) := by
  unfold execSra
  repeat' first | with_reducible assumption | with_reducible apply OutMem.next | with_reducible apply State.scalar_mem

theorem execSrai_mem {x0 : RegF} {x1 : BitVec 32} {x2 : State} (h2 : x2.Mem) : OutMem (execSrai x0 x1 x2) := by
  unfold execSrai
  repeat' first | with_reducible assumption | with_reducible apply OutMem.next | with_reducible apply State.scalar_mem

theorem execSramDoubleBitError_mem {x0 : State} (h0 : x0.Mem) : OutMem (execSramDoubleBitError x0) := by
  unfold execSramDoubleBitError
  repeat' first | with_reducible assumption | with_reducible apply OutMem.next | with_reducible apply State.sramError_mem

theorem execStart_mem {x0 : RegF} {x1 : State} (h1 : x1.Mem) : OutMem (execStart x0 x1) := by
  unfold execStart
  repeat' first | with_reducible assumption | with_reducible apply OutMem.next | refine fun _ (_ : State.Mem _) => ?_ | with_reducible apply State.sbWord_mem | with_reducible apply State.modCur_mem | with_reducible apply Res.Mem.done | with_reducible apply Res.Mem.trap | (lift_lets; intro _) | split | (change Memory.wf _ = true; dsimp only; change State.Mem _)

theorem execStateSaveDone_mem {x0 : Nat} {x1 : State} (h1 : x1.Mem) : OutMem (execStateSaveDone x0 x1) := by
  unfold execStateSaveDone
  repeat' first | with_reducible assumption | with_reducible apply OutMem.next | with_reducible apply State.saveDone_mem

theorem execStdram_mem {x0 : RegF} {x1 x2 : BitVec 5} {x3 : BitVec 24} {x4 : State} (h4 : x4.Mem) : OutMem (execStdram x0 x1 x2 x3 x4) := by
  unfold execStdram
  repeat' first | with_reducible assumption | with_reducible apply OutMem.next | refine fun _ (_ : State.Mem _) => ?_ | refine fun _ _ (_ : State.Mem _) => ?_ | with_reducible apply State.memWord_mem | with_reducible apply State.translated_mem | with_reducible apply State.stampFor_mem | with_reducible apply State.sqPop_mem | with_reducible apply State.addCmd_mem | with_reducible apply State.drawLat_mem | with_reducible apply State.schedMem_mem | with_reducible apply Res.Mem.done | with_reducible apply Res.Mem.trap | with_reducible apply Res.Mem.wait | with_reducible apply Res.Mem.full | (lift_lets; intro _) | intro _ | split

theorem execStorePerformed_mem {x0 x1 : Nat} {x2 : State} (h2 : x2.Mem) : OutMem (execStorePerformed x0 x1 x2) := by
  unfold execStorePerformed
  repeat' first | with_reducible assumption | with_reducible apply OutMem.next | with_reducible apply State.storeDone_mem

theorem execStrg_mem {x0 : RegF} {x1 x2 : BitVec 5} {x3 : BitVec 4} {x4 : BitVec 1} {x5 : State} (h5 : x5.Mem) : OutMem (execStrg x0 x1 x2 x3 x4 x5) := by
  unfold execStrg
  repeat' first | with_reducible assumption | with_reducible apply OutMem.next | refine fun _ (_ : State.Mem _) => ?_ | with_reducible apply State.memWord_mem | with_reducible apply State.ringWord_mem | with_reducible apply State.startSpm_mem | with_reducible apply State.sqPop_mem | with_reducible apply Res.Mem.wait | with_reducible apply Res.Mem.full | (lift_lets; intro _) | intro _ | split

theorem execStscal_mem {x0 : RegF} {x1 x2 : BitVec 5} {x3 : BitVec 24} {x4 : State} (h4 : x4.Mem) : OutMem (execStscal x0 x1 x2 x3 x4) := by
  unfold execStscal
  repeat' first | with_reducible assumption | with_reducible apply OutMem.next | refine fun _ (_ : State.Mem _) => ?_ | with_reducible apply State.memWord_mem | with_reducible apply State.startSpm_mem | with_reducible apply Res.Mem.trap | (lift_lets; intro _) | intro _ | split

theorem execStscat_mem {x0 : RegF} {x1 x2 : BitVec 5} {x3 : BitVec 24} {x4 : State} (h4 : x4.Mem) : OutMem (execStscat x0 x1 x2 x3 x4) :=
  OutMem.next (State.gseWord_mem h4 fun t _ _ h e => by
    dsimp only at e
    cases hq : t.sqHead x0 with
    | none => rw [hq] at e; cases e
    | some v => rw [hq] at e; cases e; exact State.sqPop_mem h)

theorem execStspm_mem {x0 : RegF} {x1 x2 : BitVec 5} {x3 : BitVec 24} {x4 : State} (h4 : x4.Mem) : OutMem (execStspm x0 x1 x2 x3 x4) := by
  unfold execStspm
  repeat' first | with_reducible assumption | with_reducible apply OutMem.next | refine fun _ (_ : State.Mem _) => ?_ | with_reducible apply State.memWord_mem | with_reducible apply State.startSpm_mem | with_reducible apply State.sqPop_mem | with_reducible apply Res.Mem.trap | with_reducible apply Res.Mem.wait | (lift_lets; intro _) | intro _ | split

theorem execSub_mem {x0 x1 x2 : RegF} {x3 : State} (h3 : x3.Mem) : OutMem (execSub x0 x1 x2 x3) := by
  unfold execSub
  repeat' first | with_reducible assumption | with_reducible apply OutMem.next | with_reducible apply State.scalar_mem

theorem execTaskEnd_mem {x0 : Nat} {x1 : State} (h1 : x1.Mem) : OutMem (execTaskEnd x0 x1) := by
  unfold execTaskEnd
  repeat' first | with_reducible assumption | with_reducible apply OutMem.next | with_reducible apply State.taskOver_mem

theorem execTaskRunStart_mem {x0 : Nat} {x1 : State} (h1 : x1.Mem) : OutMem (execTaskRunStart x0 x1) := by
  unfold execTaskRunStart
  repeat' first | with_reducible assumption | with_reducible apply OutMem.next | with_reducible apply State.runStart_mem

theorem execTeamAdmission_mem {x0 : State} (h0 : x0.Mem) : OutMem (execTeamAdmission x0) := by
  unfold execTeamAdmission
  repeat' first | with_reducible assumption | with_reducible apply OutMem.next | with_reducible apply State.admitTeam_mem

theorem execTeamSwap_mem {x0 : State} (h0 : x0.Mem) : OutMem (execTeamSwap x0) := by
  unfold execTeamSwap
  repeat' first | with_reducible assumption | with_reducible apply OutMem.next | with_reducible apply State.swap_mem

theorem execTend_mem {x0 : State} (h0 : x0.Mem) : OutMem (execTend x0) := by
  unfold execTend
  repeat' first | with_reducible assumption | with_reducible apply OutMem.next | with_reducible apply State.stopSeq_mem

theorem execTestAbort_mem {x0 : State} (h0 : x0.Mem) : OutMem (execTestAbort x0) := by
  unfold execTestAbort
  repeat' first | with_reducible assumption | with_reducible apply OutMem.next | with_reducible apply State.abortTest_mem

theorem execTestDue_mem {x0 : State} (h0 : x0.Mem) : OutMem (execTestDue x0) := by
  unfold execTestDue
  repeat' first | with_reducible assumption | with_reducible apply OutMem.next | with_reducible apply State.dueForTest_mem

theorem execTestScanEnd_mem {x0 : State} (h0 : x0.Mem) : OutMem (execTestScanEnd x0) := by
  unfold execTestScanEnd
  repeat' first | with_reducible assumption | with_reducible apply OutMem.next | with_reducible apply State.scanEnd_mem

theorem execTestScanStart_mem {x0 : State} (h0 : x0.Mem) : OutMem (execTestScanStart x0) := by
  unfold execTestScanStart
  repeat' first | with_reducible assumption | with_reducible apply OutMem.next | with_reducible apply State.scanStart_mem

theorem execThermalLimit_mem {x0 : State} (h0 : x0.Mem) : OutMem (execThermalLimit x0) := by
  unfold execThermalLimit
  repeat' first | with_reducible assumption | with_reducible apply OutMem.next | with_reducible apply State.heat_mem

theorem execTksig_mem {x0 : BitVec 2} {x1 : BitVec 6} {x2 : BitVec 2} {x3 : State} (h3 : x3.Mem) : OutMem (execTksig x0 x1 x2 x3) := by
  unfold execTksig
  repeat' first | with_reducible assumption | with_reducible apply OutMem.next | refine fun _ (_ : State.Mem _) => ?_ | with_reducible apply State.issue_mem | with_reducible apply State.modCur_mem | with_reducible apply Res.Mem.done | with_reducible apply Res.Mem.wait | with_reducible apply Res.Mem.full | (lift_lets; intro _) | intro _ | split

theorem execTkwait_mem {x0 : BitVec 2} {x1 : BitVec 6} {x2 : BitVec 2} {x3 : State} (h3 : x3.Mem) : OutMem (execTkwait x0 x1 x2 x3) := by
  unfold execTkwait
  repeat' first | with_reducible assumption | with_reducible apply OutMem.next | refine fun _ (_ : State.Mem _) => ?_ | with_reducible apply State.issue_mem | with_reducible apply State.modCur_mem | with_reducible apply Res.Mem.done | with_reducible apply Res.Mem.wait | (lift_lets; intro _) | intro _ | split

theorem execTlfill_mem {x0 : RegF} {x1 : State} (h1 : x1.Mem) : OutMem (execTlfill x0 x1) := by
  unfold execTlfill
  repeat' first | with_reducible assumption | with_reducible apply OutMem.next | refine fun _ (_ : State.Mem _) => ?_ | with_reducible apply State.issue_mem | with_reducible apply State.interlock_mem | with_reducible apply State.access_mem | with_reducible apply State.fillHere_mem | with_reducible apply Res.Mem.done

theorem execTlquery_mem {x0 x1 : RegF} {x2 : State} (h2 : x2.Mem) : OutMem (execTlquery x0 x1 x2) := by
  unfold execTlquery
  repeat' first | with_reducible assumption | with_reducible apply OutMem.next | refine fun _ (_ : State.Mem _) => ?_ | with_reducible apply State.sbWord_mem | with_reducible apply State.wrFree_mem | with_reducible apply Res.Mem.done

theorem execTlwait_mem {x0 x1 : RegF} {x2 : State} (h2 : x2.Mem) : OutMem (execTlwait x0 x1 x2) := by
  unfold execTlwait
  repeat' first | with_reducible assumption | with_reducible apply OutMem.next | refine fun _ (_ : State.Mem _) => ?_ | with_reducible apply State.sbWord_mem | with_reducible apply State.unspill_mem | with_reducible apply State.noteWait_mem | with_reducible apply State.wrFree_mem | with_reducible apply State.endWait_mem | with_reducible apply Res.Mem.done | (lift_lets; intro _) | intro _ | split

theorem execTrap_mem {x0 : BitVec 10} {x1 : State} (h1 : x1.Mem) : OutMem (execTrap x0 x1) := by
  unfold execTrap
  repeat' first | with_reducible assumption | with_reducible apply OutMem.next | refine fun _ (_ : State.Mem _) => ?_ | with_reducible apply State.issue_mem | with_reducible apply Res.Mem.trap

theorem execV2a_mem {x0 : VOpF} {x1 : RegF} {x2 : BitVec 3} {x3 : BitVec 1} {x4 : PredF} {x5 : State} (h5 : x5.Mem) : OutMem (execV2a x0 x1 x2 x3 x4 x5) := by
  unfold execV2a
  repeat' first | with_reducible assumption | with_reducible apply OutMem.next | refine fun _ (_ : State.Mem _) => ?_ | with_reducible apply State.vecIssue_mem | assumption

theorem execVabs_mem {x0 x1 : VOpF} {x2 : PredF} {x3 : TyF} {x4 : State} (h4 : x4.Mem) : OutMem (execVabs x0 x1 x2 x3 x4) := by
  unfold execVabs
  repeat' first | with_reducible assumption | with_reducible apply OutMem.next | with_reducible apply State.vecWord_mem

theorem execVadd_mem {x0 x1 x2 : VOpF} {x3 : PredF} {x4 : TyF} {x5 : State} (h5 : x5.Mem) : OutMem (execVadd x0 x1 x2 x3 x4 x5) := by
  unfold execVadd
  repeat' first | with_reducible assumption | with_reducible apply OutMem.next | with_reducible apply State.vecWord_mem

theorem execVbcc_mem {x0 x1 : VOpF} {x2 : BitVec 10} {x3 : PredF} {x4 : TyF} {x5 : State} (h5 : x5.Mem) : OutMem (execVbcc x0 x1 x2 x3 x4 x5) := by
  unfold execVbcc
  repeat' first | with_reducible assumption | with_reducible apply OutMem.next | with_reducible apply State.vecWord_mem

theorem execVbcr_mem {x0 x1 : VOpF} {x2 : BitVec 10} {x3 : PredF} {x4 : TyF} {x5 : State} (h5 : x5.Mem) : OutMem (execVbcr x0 x1 x2 x3 x4 x5) := by
  unfold execVbcr
  repeat' first | with_reducible assumption | with_reducible apply OutMem.next | with_reducible apply State.vecWord_mem

theorem execVclass_mem {x0 x1 : VOpF} {x2 : PredF} {x3 : TyF} {x4 : State} (h4 : x4.Mem) : OutMem (execVclass x0 x1 x2 x3 x4) := by
  unfold execVclass
  repeat' first | with_reducible assumption | with_reducible apply OutMem.next | with_reducible apply State.vecWord_mem

theorem execVcmpeq_mem {x0 x1 x2 : VOpF} {x3 : PredF} {x4 : TyF} {x5 : State} (h5 : x5.Mem) : OutMem (execVcmpeq x0 x1 x2 x3 x4 x5) := by
  unfold execVcmpeq
  repeat' first | with_reducible assumption | with_reducible apply OutMem.next | with_reducible apply State.vecWord_mem

theorem execVcmple_mem {x0 x1 x2 : VOpF} {x3 : PredF} {x4 : TyF} {x5 : State} (h5 : x5.Mem) : OutMem (execVcmple x0 x1 x2 x3 x4 x5) := by
  unfold execVcmple
  repeat' first | with_reducible assumption | with_reducible apply OutMem.next | with_reducible apply State.vecWord_mem

theorem execVcmplt_mem {x0 x1 x2 : VOpF} {x3 : PredF} {x4 : TyF} {x5 : State} (h5 : x5.Mem) : OutMem (execVcmplt x0 x1 x2 x3 x4 x5) := by
  unfold execVcmplt
  repeat' first | with_reducible assumption | with_reducible apply OutMem.next | with_reducible apply State.vecWord_mem

theorem execVcmpne_mem {x0 x1 x2 : VOpF} {x3 : PredF} {x4 : TyF} {x5 : State} (h5 : x5.Mem) : OutMem (execVcmpne x0 x1 x2 x3 x4 x5) := by
  unfold execVcmpne
  repeat' first | with_reducible assumption | with_reducible apply OutMem.next | with_reducible apply State.vecWord_mem

theorem execVcvt_mem {x0 x1 : VOpF} {x2 : BitVec 10} {x3 : PredF} {x4 : TyF} {x5 : State} (h5 : x5.Mem) : OutMem (execVcvt x0 x1 x2 x3 x4 x5) := by
  unfold execVcvt
  repeat' first | with_reducible assumption | with_reducible apply OutMem.next | with_reducible apply State.vecWord_mem

theorem execVdiv_mem {x0 x1 x2 : VOpF} {x3 : PredF} {x4 : TyF} {x5 : State} (h5 : x5.Mem) : OutMem (execVdiv x0 x1 x2 x3 x4 x5) := by
  unfold execVdiv
  repeat' first | with_reducible assumption | with_reducible apply OutMem.next | with_reducible apply State.vecWord_mem

theorem execVectorCommit_mem {x0 x1 : Nat} {x2 : State} (h2 : x2.Mem) : OutMem (execVectorCommit x0 x1 x2) := by
  unfold execVectorCommit
  repeat' first | with_reducible assumption | with_reducible apply OutMem.next | with_reducible apply State.commitWindow_mem | split

theorem execVectorCompletion_mem {x0 x1 x2 : Nat} {x3 : State} (h3 : x3.Mem) : OutMem (execVectorCompletion x0 x1 x2 x3) := by
  unfold execVectorCompletion
  repeat' first | with_reducible assumption | with_reducible apply OutMem.next | with_reducible apply State.completion_mem

theorem execVectorGroupRead_mem {x0 x1 x2 : Nat} {x3 : State} (h3 : x3.Mem) : OutMem (execVectorGroupRead x0 x1 x2 x3) := by
  unfold execVectorGroupRead
  repeat' first | with_reducible assumption | with_reducible apply OutMem.next | with_reducible apply State.groupRead_mem

theorem execVerf_mem {x0 x1 : VOpF} {x2 : PredF} {x3 : TyF} {x4 : State} (h4 : x4.Mem) : OutMem (execVerf x0 x1 x2 x3 x4) := by
  unfold execVerf
  repeat' first | with_reducible assumption | with_reducible apply OutMem.next | with_reducible apply State.vecWord_mem

theorem execVerificationCompare_mem {x0 : Nat} {x1 : State} (h1 : x1.Mem) : OutMem (execVerificationCompare x0 x1) := by
  unfold execVerificationCompare
  repeat' first | with_reducible assumption | with_reducible apply OutMem.next | with_reducible apply State.verify_mem

theorem execVexp_mem {x0 x1 : VOpF} {x2 : PredF} {x3 : TyF} {x4 : State} (h4 : x4.Mem) : OutMem (execVexp x0 x1 x2 x3 x4) := by
  unfold execVexp
  repeat' first | with_reducible assumption | with_reducible apply OutMem.next | with_reducible apply State.vecWord_mem

theorem execVexp2_mem {x0 x1 : VOpF} {x2 : PredF} {x3 : TyF} {x4 : State} (h4 : x4.Mem) : OutMem (execVexp2 x0 x1 x2 x3 x4) := by
  unfold execVexp2
  repeat' first | with_reducible assumption | with_reducible apply OutMem.next | with_reducible apply State.vecWord_mem

theorem execVflclr_mem {a : BitVec 5} {b : PredF} {s : State} (h : s.Mem) : OutMem (execVflclr a b s) :=
  OutMem.next (State.vecInstant_mem h fun t u ht e => by cases e; exact State.modCur_mem ht)

theorem execVflrd_mem {x0 : VOpF} {x1 : PredF} {x2 : State} (h2 : x2.Mem) : OutMem (execVflrd x0 x1 x2) := by
  unfold execVflrd
  repeat' first | with_reducible assumption | with_reducible apply OutMem.next | refine fun _ (_ : State.Mem _) => ?_ | with_reducible apply State.vecIssue_mem | assumption

theorem execVfma_mem {x0 x1 x2 : VOpF} {x3 : PredF} {x4 : TyF} {x5 : State} (h5 : x5.Mem) : OutMem (execVfma x0 x1 x2 x3 x4 x5) := by
  unfold execVfma
  repeat' first | with_reducible assumption | with_reducible apply OutMem.next | with_reducible apply State.vecWord_mem

theorem execVfms_mem {x0 x1 x2 : VOpF} {x3 : PredF} {x4 : TyF} {x5 : State} (h5 : x5.Mem) : OutMem (execVfms x0 x1 x2 x3 x4 x5) := by
  unfold execVfms
  repeat' first | with_reducible assumption | with_reducible apply OutMem.next | with_reducible apply State.vecWord_mem

theorem execVfnma_mem {x0 x1 x2 : VOpF} {x3 : PredF} {x4 : TyF} {x5 : State} (h5 : x5.Mem) : OutMem (execVfnma x0 x1 x2 x3 x4 x5) := by
  unfold execVfnma
  repeat' first | with_reducible assumption | with_reducible apply OutMem.next | with_reducible apply State.vecWord_mem

theorem execVfnms_mem {x0 x1 x2 : VOpF} {x3 : PredF} {x4 : TyF} {x5 : State} (h5 : x5.Mem) : OutMem (execVfnms x0 x1 x2 x3 x4 x5) := by
  unfold execVfnms
  repeat' first | with_reducible assumption | with_reducible apply OutMem.next | with_reducible apply State.vecWord_mem

theorem execViabs_mem {x0 x1 : VOpF} {x2 : PredF} {x3 : TyF} {x4 : State} (h4 : x4.Mem) : OutMem (execViabs x0 x1 x2 x3 x4) := by
  unfold execViabs
  repeat' first | with_reducible assumption | with_reducible apply OutMem.next | with_reducible apply State.vecWord_mem

theorem execViadd_mem {x0 x1 x2 : VOpF} {x3 : PredF} {x4 : TyF} {x5 : State} (h5 : x5.Mem) : OutMem (execViadd x0 x1 x2 x3 x4 x5) := by
  unfold execViadd
  repeat' first | with_reducible assumption | with_reducible apply OutMem.next | with_reducible apply State.vecWord_mem

theorem execViand_mem {x0 x1 x2 : VOpF} {x3 : PredF} {x4 : TyF} {x5 : State} (h5 : x5.Mem) : OutMem (execViand x0 x1 x2 x3 x4 x5) := by
  unfold execViand
  repeat' first | with_reducible assumption | with_reducible apply OutMem.next | with_reducible apply State.vecWord_mem

theorem execVicmpeq_mem {x0 x1 x2 : VOpF} {x3 : PredF} {x4 : TyF} {x5 : State} (h5 : x5.Mem) : OutMem (execVicmpeq x0 x1 x2 x3 x4 x5) := by
  unfold execVicmpeq
  repeat' first | with_reducible assumption | with_reducible apply OutMem.next | with_reducible apply State.vecWord_mem

theorem execVicmple_mem {x0 x1 x2 : VOpF} {x3 : PredF} {x4 : TyF} {x5 : State} (h5 : x5.Mem) : OutMem (execVicmple x0 x1 x2 x3 x4 x5) := by
  unfold execVicmple
  repeat' first | with_reducible assumption | with_reducible apply OutMem.next | with_reducible apply State.vecWord_mem

theorem execVicmplt_mem {x0 x1 x2 : VOpF} {x3 : PredF} {x4 : TyF} {x5 : State} (h5 : x5.Mem) : OutMem (execVicmplt x0 x1 x2 x3 x4 x5) := by
  unfold execVicmplt
  repeat' first | with_reducible assumption | with_reducible apply OutMem.next | with_reducible apply State.vecWord_mem

theorem execVimax_mem {x0 x1 x2 : VOpF} {x3 : PredF} {x4 : TyF} {x5 : State} (h5 : x5.Mem) : OutMem (execVimax x0 x1 x2 x3 x4 x5) := by
  unfold execVimax
  repeat' first | with_reducible assumption | with_reducible apply OutMem.next | with_reducible apply State.vecWord_mem

theorem execVimin_mem {x0 x1 x2 : VOpF} {x3 : PredF} {x4 : TyF} {x5 : State} (h5 : x5.Mem) : OutMem (execVimin x0 x1 x2 x3 x4 x5) := by
  unfold execVimin
  repeat' first | with_reducible assumption | with_reducible apply OutMem.next | with_reducible apply State.vecWord_mem

theorem execVimul_mem {x0 x1 x2 : VOpF} {x3 : PredF} {x4 : TyF} {x5 : State} (h5 : x5.Mem) : OutMem (execVimul x0 x1 x2 x3 x4 x5) := by
  unfold execVimul
  repeat' first | with_reducible assumption | with_reducible apply OutMem.next | with_reducible apply State.vecWord_mem

theorem execVimulh_mem {x0 x1 x2 : VOpF} {x3 : PredF} {x4 : TyF} {x5 : State} (h5 : x5.Mem) : OutMem (execVimulh x0 x1 x2 x3 x4 x5) := by
  unfold execVimulh
  repeat' first | with_reducible assumption | with_reducible apply OutMem.next | with_reducible apply State.vecWord_mem

theorem execVior_mem {x0 x1 x2 : VOpF} {x3 : PredF} {x4 : TyF} {x5 : State} (h5 : x5.Mem) : OutMem (execVior x0 x1 x2 x3 x4 x5) := by
  unfold execVior
  repeat' first | with_reducible assumption | with_reducible apply OutMem.next | with_reducible apply State.vecWord_mem

theorem execVishl_mem {x0 x1 x2 : VOpF} {x3 : PredF} {x4 : TyF} {x5 : State} (h5 : x5.Mem) : OutMem (execVishl x0 x1 x2 x3 x4 x5) := by
  unfold execVishl
  repeat' first | with_reducible assumption | with_reducible apply OutMem.next | with_reducible apply State.vecWord_mem

theorem execVishr_mem {x0 x1 x2 : VOpF} {x3 : PredF} {x4 : TyF} {x5 : State} (h5 : x5.Mem) : OutMem (execVishr x0 x1 x2 x3 x4 x5) := by
  unfold execVishr
  repeat' first | with_reducible assumption | with_reducible apply OutMem.next | with_reducible apply State.vecWord_mem

theorem execVisra_mem {x0 x1 x2 : VOpF} {x3 : PredF} {x4 : TyF} {x5 : State} (h5 : x5.Mem) : OutMem (execVisra x0 x1 x2 x3 x4 x5) := by
  unfold execVisra
  repeat' first | with_reducible assumption | with_reducible apply OutMem.next | with_reducible apply State.vecWord_mem

theorem execVisub_mem {x0 x1 x2 : VOpF} {x3 : PredF} {x4 : TyF} {x5 : State} (h5 : x5.Mem) : OutMem (execVisub x0 x1 x2 x3 x4 x5) := by
  unfold execVisub
  repeat' first | with_reducible assumption | with_reducible apply OutMem.next | with_reducible apply State.vecWord_mem

theorem execVixor_mem {x0 x1 x2 : VOpF} {x3 : PredF} {x4 : TyF} {x5 : State} (h5 : x5.Mem) : OutMem (execVixor x0 x1 x2 x3 x4 x5) := by
  unfold execVixor
  repeat' first | with_reducible assumption | with_reducible apply OutMem.next | with_reducible apply State.vecWord_mem

theorem execVlog_mem {x0 x1 : VOpF} {x2 : PredF} {x3 : TyF} {x4 : State} (h4 : x4.Mem) : OutMem (execVlog x0 x1 x2 x3 x4) := by
  unfold execVlog
  repeat' first | with_reducible assumption | with_reducible apply OutMem.next | with_reducible apply State.vecWord_mem

theorem execVlog2_mem {x0 x1 : VOpF} {x2 : PredF} {x3 : TyF} {x4 : State} (h4 : x4.Mem) : OutMem (execVlog2 x0 x1 x2 x3 x4) := by
  unfold execVlog2
  repeat' first | with_reducible assumption | with_reducible apply OutMem.next | with_reducible apply State.vecWord_mem

theorem execVmax_mem {x0 x1 x2 : VOpF} {x3 : PredF} {x4 : TyF} {x5 : State} (h5 : x5.Mem) : OutMem (execVmax x0 x1 x2 x3 x4 x5) := by
  unfold execVmax
  repeat' first | with_reducible assumption | with_reducible apply OutMem.next | with_reducible apply State.vecWord_mem

theorem execVmin_mem {x0 x1 x2 : VOpF} {x3 : PredF} {x4 : TyF} {x5 : State} (h5 : x5.Mem) : OutMem (execVmin x0 x1 x2 x3 x4 x5) := by
  unfold execVmin
  repeat' first | with_reducible assumption | with_reducible apply OutMem.next | with_reducible apply State.vecWord_mem

theorem execVmov_mem {x0 x1 : VOpF} {x2 : PredF} {x3 : TyF} {x4 : State} (h4 : x4.Mem) : OutMem (execVmov x0 x1 x2 x3 x4) := by
  unfold execVmov
  repeat' first | with_reducible assumption | with_reducible apply OutMem.next | with_reducible apply State.vecWord_mem

theorem execVmul_mem {x0 x1 x2 : VOpF} {x3 : PredF} {x4 : TyF} {x5 : State} (h5 : x5.Mem) : OutMem (execVmul x0 x1 x2 x3 x4 x5) := by
  unfold execVmul
  repeat' first | with_reducible assumption | with_reducible apply OutMem.next | with_reducible apply State.vecWord_mem

theorem execVneg_mem {x0 x1 : VOpF} {x2 : PredF} {x3 : TyF} {x4 : State} (h4 : x4.Mem) : OutMem (execVneg x0 x1 x2 x3 x4) := by
  unfold execVneg
  repeat' first | with_reducible assumption | with_reducible apply OutMem.next | with_reducible apply State.vecWord_mem

theorem execVperm_mem {x0 x1 x2 : VOpF} {x3 : PredF} {x4 : TyF} {x5 : State} (h5 : x5.Mem) : OutMem (execVperm x0 x1 x2 x3 x4 x5) := by
  unfold execVperm
  repeat' first | with_reducible assumption | with_reducible apply OutMem.next | with_reducible apply State.vecWord_mem

theorem execVpk4_mem {x0 x1 x2 : VOpF} {x3 : TyF} {x4 : State} (h4 : x4.Mem) : OutMem (execVpk4 x0 x1 x2 x3 x4) := by
  unfold execVpk4
  repeat' first | with_reducible assumption | with_reducible apply OutMem.next | with_reducible apply State.vecWord_mem

theorem execVpk4x_mem {x0 x1 x2 : VOpF} {x3 : TyF} {x4 : State} (h4 : x4.Mem) : OutMem (execVpk4x x0 x1 x2 x3 x4) := by
  unfold execVpk4x
  repeat' first | with_reducible assumption | with_reducible apply OutMem.next | with_reducible apply State.vecWord_mem

theorem execVpk8_mem {x0 x1 x2 : VOpF} {x3 : TyF} {x4 : State} (h4 : x4.Mem) : OutMem (execVpk8 x0 x1 x2 x3 x4) := by
  unfold execVpk8
  repeat' first | with_reducible assumption | with_reducible apply OutMem.next | with_reducible apply State.vecWord_mem

theorem execVpk8x_mem {x0 x1 x2 : VOpF} {x3 : TyF} {x4 : State} (h4 : x4.Mem) : OutMem (execVpk8x x0 x1 x2 x3 x4) := by
  unfold execVpk8x
  repeat' first | with_reducible assumption | with_reducible apply OutMem.next | with_reducible apply State.vecWord_mem

theorem execVpopc_mem {x0 x1 : VOpF} {x2 : PredF} {x3 : TyF} {x4 : State} (h4 : x4.Mem) : OutMem (execVpopc x0 x1 x2 x3 x4) := by
  unfold execVpopc
  repeat' first | with_reducible assumption | with_reducible apply OutMem.next | with_reducible apply State.vecWord_mem

theorem execVprec_mem {x0 x1 : VOpF} {x2 : BitVec 10} {x3 : PredF} {x4 : TyF} {x5 : State} (h5 : x5.Mem) : OutMem (execVprec x0 x1 x2 x3 x4 x5) := by
  unfold execVprec
  repeat' first | with_reducible assumption | with_reducible apply OutMem.next | with_reducible apply State.vecWord_mem

theorem execVprer_mem {x0 x1 : VOpF} {x2 : BitVec 10} {x3 : PredF} {x4 : TyF} {x5 : State} (h5 : x5.Mem) : OutMem (execVprer x0 x1 x2 x3 x4 x5) := by
  unfold execVprer
  repeat' first | with_reducible assumption | with_reducible apply OutMem.next | with_reducible apply State.vecWord_mem

theorem execVpxorc_mem {x0 x1 : VOpF} {x2 : TyF} {x3 : State} (h3 : x3.Mem) : OutMem (execVpxorc x0 x1 x2 x3) := by
  unfold execVpxorc
  repeat' first | with_reducible assumption | with_reducible apply OutMem.next | with_reducible apply State.vecWord_mem

theorem execVpxorr_mem {x0 x1 : VOpF} {x2 : BitVec 10} {x3 : TyF} {x4 : State} (h4 : x4.Mem) : OutMem (execVpxorr x0 x1 x2 x3 x4) := by
  unfold execVpxorr
  repeat' first | with_reducible assumption | with_reducible apply OutMem.next | with_reducible apply State.vecWord_mem

theorem execVrand_mem {x0 x1 : VOpF} {x2 : PredF} {x3 : BitVec 2} {x4 : State} (h4 : x4.Mem) : OutMem (execVrand x0 x1 x2 x3 x4) := by
  unfold execVrand
  repeat' first | with_reducible assumption | with_reducible apply OutMem.next | with_reducible apply State.vecWord_mem

theorem execVrcp_mem {x0 x1 : VOpF} {x2 : PredF} {x3 : TyF} {x4 : State} (h4 : x4.Mem) : OutMem (execVrcp x0 x1 x2 x3 x4) := by
  unfold execVrcp
  repeat' first | with_reducible assumption | with_reducible apply OutMem.next | with_reducible apply State.vecWord_mem

theorem execVredc_mem {x0 x1 : VOpF} {x2 : BitVec 10} {x3 : PredF} {x4 : TyF} {x5 : State} (h5 : x5.Mem) : OutMem (execVredc x0 x1 x2 x3 x4 x5) := by
  unfold execVredc
  repeat' first | with_reducible assumption | with_reducible apply OutMem.next | with_reducible apply State.vecWord_mem

theorem execVredr_mem {x0 x1 : VOpF} {x2 : BitVec 10} {x3 : PredF} {x4 : TyF} {x5 : State} (h5 : x5.Mem) : OutMem (execVredr x0 x1 x2 x3 x4 x5) := by
  unfold execVredr
  repeat' first | with_reducible assumption | with_reducible apply OutMem.next | with_reducible apply State.vecWord_mem

theorem execVrotc_mem {x0 x1 : VOpF} {x2 : BitVec 10} {x3 : PredF} {x4 : TyF} {x5 : State} (h5 : x5.Mem) : OutMem (execVrotc x0 x1 x2 x3 x4 x5) := by
  unfold execVrotc
  repeat' first | with_reducible assumption | with_reducible apply OutMem.next | with_reducible apply State.vecWord_mem

theorem execVrotr_mem {x0 x1 : VOpF} {x2 : BitVec 10} {x3 : PredF} {x4 : TyF} {x5 : State} (h5 : x5.Mem) : OutMem (execVrotr x0 x1 x2 x3 x4 x5) := by
  unfold execVrotr
  repeat' first | with_reducible assumption | with_reducible apply OutMem.next | with_reducible apply State.vecWord_mem

theorem execVrsqrt_mem {x0 x1 : VOpF} {x2 : PredF} {x3 : TyF} {x4 : State} (h4 : x4.Mem) : OutMem (execVrsqrt x0 x1 x2 x3 x4) := by
  unfold execVrsqrt
  repeat' first | with_reducible assumption | with_reducible apply OutMem.next | with_reducible apply State.vecWord_mem

theorem execVsel_mem {x0 x1 x2 : VOpF} {x3 : PredF} {x4 : TyF} {x5 : State} (h5 : x5.Mem) : OutMem (execVsel x0 x1 x2 x3 x4 x5) := by
  unfold execVsel
  repeat' first | with_reducible assumption | with_reducible apply OutMem.next | with_reducible apply State.vecWord_mem

theorem execVsqrt_mem {x0 x1 : VOpF} {x2 : PredF} {x3 : TyF} {x4 : State} (h4 : x4.Mem) : OutMem (execVsqrt x0 x1 x2 x3 x4) := by
  unfold execVsqrt
  repeat' first | with_reducible assumption | with_reducible apply OutMem.next | with_reducible apply State.vecWord_mem

theorem execVsub_mem {x0 x1 x2 : VOpF} {x3 : PredF} {x4 : TyF} {x5 : State} (h5 : x5.Mem) : OutMem (execVsub x0 x1 x2 x3 x4 x5) := by
  unfold execVsub
  repeat' first | with_reducible assumption | with_reducible apply OutMem.next | with_reducible apply State.vecWord_mem

theorem execVunzip_mem {x0 x1 x2 : VOpF} {x3 : PredF} {x4 : TyF} {x5 : State} (h5 : x5.Mem) : OutMem (execVunzip x0 x1 x2 x3 x4 x5) := by
  unfold execVunzip
  repeat' first | with_reducible assumption | with_reducible apply OutMem.next | with_reducible apply State.vecWord_mem

theorem execVupk4_mem {x0 x1 x2 : VOpF} {x3 : BitVec 2} {x4 : State} (h4 : x4.Mem) : OutMem (execVupk4 x0 x1 x2 x3 x4) := by
  unfold execVupk4
  repeat' first | with_reducible assumption | with_reducible apply OutMem.next | with_reducible apply State.vecWord_mem

theorem execVupk8_mem {x0 x1 x2 : VOpF} {x3 : BitVec 2} {x4 : State} (h4 : x4.Mem) : OutMem (execVupk8 x0 x1 x2 x3 x4) := by
  unfold execVupk8
  repeat' first | with_reducible assumption | with_reducible apply OutMem.next | with_reducible apply State.vecWord_mem

theorem execVzip_mem {x0 x1 x2 : VOpF} {x3 : PredF} {x4 : TyF} {x5 : State} (h5 : x5.Mem) : OutMem (execVzip x0 x1 x2 x3 x4 x5) := by
  unfold execVzip
  repeat' first | with_reducible assumption | with_reducible apply OutMem.next | with_reducible apply State.vecWord_mem

theorem execWborrow_mem {x0 : RegF} {x1 : State} (h1 : x1.Mem) : OutMem (execWborrow x0 x1) := by
  unfold execWborrow
  repeat' first | with_reducible assumption | with_reducible apply OutMem.next | refine fun _ (_ : State.Mem _) => ?_ | with_reducible apply State.sbWord_mem | with_reducible apply State.wrFree_mem | with_reducible apply State.borrow_mem | with_reducible apply Res.Mem.done | with_reducible apply Res.Mem.trap | split

theorem execWcvt_mem {x0 : RegF} {x1 : BitVec 32} {x2 : State} (h2 : x2.Mem) : OutMem (execWcvt x0 x1 x2) := by
  unfold execWcvt
  repeat' first | with_reducible assumption | with_reducible apply OutMem.next | with_reducible apply State.handOver_mem

theorem execWeightBorrowAck_mem {x0 : Nat} {x1 : State} (h1 : x1.Mem) : OutMem (execWeightBorrowAck x0 x1) := by
  unfold execWeightBorrowAck
  repeat' first | with_reducible assumption | with_reducible apply OutMem.next | with_reducible apply State.borrowAck_mem

theorem execWeightReturn_mem {x0 : Nat} {x1 : State} (h1 : x1.Mem) : OutMem (execWeightReturn x0 x1) := by
  unfold execWeightReturn
  repeat' first | with_reducible assumption | with_reducible apply OutMem.next | with_reducible apply State.giveBack_mem

theorem execWindowEnd_mem {x0 : Nat} {x1 : State} (h1 : x1.Mem) : OutMem (execWindowEnd x0 x1) := by
  unfold execWindowEnd
  repeat' first | with_reducible assumption | with_reducible apply OutMem.next | with_reducible apply State.windowOver_mem

theorem execWzero_mem {x0 : RegF} {x1 : BitVec 32} {x2 : State} (h2 : x2.Mem) : OutMem (execWzero x0 x1 x2) := by
  unfold execWzero
  repeat' first | with_reducible assumption | with_reducible apply OutMem.next | with_reducible apply State.handOver_mem

theorem execXor_mem {x0 x1 x2 : RegF} {x3 : State} (h3 : x3.Mem) : OutMem (execXor x0 x1 x2 x3) := by
  unfold execXor
  repeat' first | with_reducible assumption | with_reducible apply OutMem.next | with_reducible apply State.scalar_mem

theorem execXori_mem {x0 : RegF} {x1 : BitVec 32} {x2 : State} (h2 : x2.Mem) : OutMem (execXori x0 x1 x2) := by
  unfold execXori
  repeat' first | with_reducible assumption | with_reducible apply OutMem.next | with_reducible apply State.scalar_mem

/-- Every instruction and every event keeps memory canonical. -/
theorem exec_mem {i : Instr} {s : State} (h : s.Mem) : OutMem (exec i s) := by
  cases i with
  | add => exact execAdd_mem h
  | sub => exact execSub_mem h
  | mul => exact execMul_mem h
  | mulhi => exact execMulhi_mem h
  | mulhu => exact execMulhu_mem h
  | and => exact execAnd_mem h
  | or => exact execOr_mem h
  | xor => exact execXor_mem h
  | andn => exact execAndn_mem h
  | shl => exact execShl_mem h
  | shr => exact execShr_mem h
  | sra => exact execSra_mem h
  | min => exact execMin_mem h
  | max => exact execMax_mem h
  | minu => exact execMinu_mem h
  | maxu => exact execMaxu_mem h
  | clmul => exact execClmul_mem h
  | clmulh => exact execClmulh_mem h
  | popc => exact execPopc_mem h
  | clz => exact execClz_mem h
  | ctz => exact execCtz_mem h
  | sel => exact execSel_mem h
  | seq => exact execSeq_mem h
  | slt => exact execSlt_mem h
  | sltu => exact execSltu_mem h
  | mov => exact execMov_mem h
  | addi => exact execAddi_mem h
  | andi => exact execAndi_mem h
  | ori => exact execOri_mem h
  | xori => exact execXori_mem h
  | shli => exact execShli_mem h
  | shri => exact execShri_mem h
  | srai => exact execSrai_mem h
  | li => exact execLi_mem h
  | lih => exact execLih_mem h
  | beq => exact execBeq_mem h
  | bne => exact execBne_mem h
  | blt => exact execBlt_mem h
  | bge => exact execBge_mem h
  | bltu => exact execBltu_mem h
  | bgeu => exact execBgeu_mem h
  | bz => exact execBz_mem h
  | bnz => exact execBnz_mem h
  | jmp => exact execJmp_mem h
  | jmpr => exact execJmpr_mem h
  | call => exact execCall_mem h
  | callr => exact execCallr_mem h
  | beng => exact execBeng_mem h
  | loop => exact execLoop_mem h
  | loopi => exact execLoopi_mem h
  | mfsr => exact execMfsr_mem h
  | mtsr => exact execMtsr_mem h
  | rdstc => exact execRdstc_mem h
  | rdstcT0 => exact execRdstcT0_mem h
  | rdeng => exact execRdeng_mem h
  | trap => exact execTrap_mem h
  | vadd => exact execVadd_mem h
  | vsub => exact execVsub_mem h
  | vmul => exact execVmul_mem h
  | vdiv => exact execVdiv_mem h
  | vfma => exact execVfma_mem h
  | vfms => exact execVfms_mem h
  | vfnma => exact execVfnma_mem h
  | vfnms => exact execVfnms_mem h
  | vmin => exact execVmin_mem h
  | vmax => exact execVmax_mem h
  | vabs => exact execVabs_mem h
  | vneg => exact execVneg_mem h
  | vsqrt => exact execVsqrt_mem h
  | vrcp => exact execVrcp_mem h
  | vrsqrt => exact execVrsqrt_mem h
  | vclass => exact execVclass_mem h
  | vexp => exact execVexp_mem h
  | vexp2 => exact execVexp2_mem h
  | vlog => exact execVlog_mem h
  | vlog2 => exact execVlog2_mem h
  | verf => exact execVerf_mem h
  | viadd => exact execViadd_mem h
  | visub => exact execVisub_mem h
  | vimul => exact execVimul_mem h
  | vimulh => exact execVimulh_mem h
  | viand => exact execViand_mem h
  | vior => exact execVior_mem h
  | vixor => exact execVixor_mem h
  | vishl => exact execVishl_mem h
  | vishr => exact execVishr_mem h
  | visra => exact execVisra_mem h
  | vimin => exact execVimin_mem h
  | vimax => exact execVimax_mem h
  | viabs => exact execViabs_mem h
  | vpopc => exact execVpopc_mem h
  | vrotr => exact execVrotr_mem h
  | vrotc => exact execVrotc_mem h
  | vbcr => exact execVbcr_mem h
  | vbcc => exact execVbcc_mem h
  | vredr => exact execVredr_mem h
  | vredc => exact execVredc_mem h
  | vprer => exact execVprer_mem h
  | vprec => exact execVprec_mem h
  | vpxorr => exact execVpxorr_mem h
  | vpxorc => exact execVpxorc_mem h
  | vperm => exact execVperm_mem h
  | vsel => exact execVsel_mem h
  | vmov => exact execVmov_mem h
  | vzip => exact execVzip_mem h
  | vunzip => exact execVunzip_mem h
  | vcmpeq => exact execVcmpeq_mem h
  | vcmpne => exact execVcmpne_mem h
  | vcmplt => exact execVcmplt_mem h
  | vcmple => exact execVcmple_mem h
  | vicmpeq => exact execVicmpeq_mem h
  | vicmplt => exact execVicmplt_mem h
  | vicmple => exact execVicmple_mem h
  | pset => exact execPset_mem h
  | pcnt => exact execPcnt_mem h
  | pfirst => exact execPfirst_mem h
  | mpush => exact execMpush_mem h
  | minv => exact execMinv_mem h
  | spset => exact execSpset_mem h
  | spshl => exact execSpshl_mem h
  | rrbset => exact execRrbset_mem h
  | vcvt => exact execVcvt_mem h
  | vpk8 => exact execVpk8_mem h
  | vpk4 => exact execVpk4_mem h
  | vupk8 => exact execVupk8_mem h
  | vupk4 => exact execVupk4_mem h
  | vpk8x => exact execVpk8x_mem h
  | vpk4x => exact execVpk4x_mem h
  | vflrd => exact execVflrd_mem h
  | vflclr => exact execVflclr_mem h
  | vrand => exact execVrand_mem h
  | fpush => exact execFpush_mem h
  | mma => exact execMma_mem h
  | scnt => exact execScnt_mem h
  | mholdOn => exact execMholdOn_mem h
  | mholdOff => exact execMholdOff_mem h
  | mdrain => exact execMdrain_mem h
  | mmerge => exact execMmerge_mem h
  | bsave => exact execBsave_mem h
  | bload => exact execBload_mem h
  | azero => exact execAzero_mem h
  | aload => exact execAload_mem h
  | astore => exact execAstore_mem h
  | wcvt => exact execWcvt_mem h
  | wzero => exact execWzero_mem h
  | ckctlOn => exact execCkctlOn_mem h
  | ckctlDetect => exact execCkctlDetect_mem h
  | ckctlOff => exact execCkctlOff_mem h
  | ringset => exact execRingset_mem h
  | ringadv => exact execRingadv_mem h
  | ringpop => exact execRingpop_mem h
  | a2v => exact execA2v_mem h
  | v2a => exact execV2a_mem h
  | ckrd => exact execCkrd_mem h
  | ldspm => exact execLdspm_mem h
  | lddram => exact execLddram_mem h
  | ldgath => exact execLdgath_mem h
  | ldrg => exact execLdrg_mem h
  | ldscal => exact execLdscal_mem h
  | ldbc => exact execLdbc_mem h
  | pref => exact execPref_mem h
  | stspm => exact execStspm_mem h
  | stdram => exact execStdram_mem h
  | stscat => exact execStscat_mem h
  | strg => exact execStrg_mem h
  | stscal => exact execStscal_mem h
  | qmark => exact execQmark_mem h
  | copy => exact execCopy_mem h
  | copyw => exact execCopyw_mem h
  | fence => exact execFence_mem h
  | publishBuf => exact execPublishBuf_mem h
  | publishTile => exact execPublishTile_mem h
  | amo => exact execAmo_mem h
  | ramo => exact execRamo_mem h
  | damo => exact execDamo_mem h
  | rwopen => exact execRwopen_mem h
  | rwadd => exact execRwadd_mem h
  | rwaddBlk => exact execRwaddBlk_mem h
  | rwclose d a o => exact execRwclose_mem (x2 := o) h
  | pinit => exact execPinit_mem h
  | ppush => exact execPpush_mem h
  | ppop => exact execPpop_mem h
  | tkwait d n o => exact execTkwait_mem (x2 := o) h
  | tksig => exact execTksig_mem h
  | bar => exact execBar_mem h
  | book => exact execBook_mem h
  | bookq => exact execBookq_mem h
  | start => exact execStart_mem h
  | spawn => exact execSpawn_mem h
  | launch => exact execLaunch_mem h
  | wborrow => exact execWborrow_mem h
  | tlfill => exact execTlfill_mem h
  | tlwait => exact execTlwait_mem h
  | tlquery => exact execTlquery_mem h
  | vectorGroupRead => exact execVectorGroupRead_mem h
  | vectorCompletion => exact execVectorCompletion_mem h
  | vectorCommit => exact execVectorCommit_mem h
  | matrixCommandStart => exact execMatrixCommandStart_mem h
  | ringBlockRead => exact execRingBlockRead_mem h
  | mmaBlockAdd => exact execMmaBlockAdd_mem h
  | scntBlockCount => exact execScntBlockCount_mem h
  | matrixRetire => exact execMatrixRetire_mem h
  | engineFaultTrap => exact execEngineFaultTrap_mem h
  | loadQueuePush => exact execLoadQueuePush_mem h
  | lddramReturn => exact execLddramReturn_mem h
  | storePerformed => exact execStorePerformed_mem h
  | gatherElement => exact execGatherElement_mem h
  | copyNodeStart => exact execCopyNodeStart_mem h
  | copyUnit => exact execCopyUnit_mem h
  | copyNodeRetire => exact execCopyNodeRetire_mem h
  | publishSwitch => exact execPublishSwitch_mem h
  | rwContribution => exact execRwContribution_mem h
  | rwDelivery => exact execRwDelivery_mem h
  | modeDrainDone => exact execModeDrainDone_mem h
  | calendarT0Resume => exact execCalendarT0Resume_mem h
  | taskEnd => exact execTaskEnd_mem h
  | bookingPlacement => exact execBookingPlacement_mem h
  | prologueStart => exact execPrologueStart_mem h
  | coreSpanStart => exact execCoreSpanStart_mem h
  | taskRunStart => exact execTaskRunStart_mem h
  | windowEnd => exact execWindowEnd_mem h
  | preemptRequest => exact execPreemptRequest_mem h
  | preemptCutStop => exact execPreemptCutStop_mem h
  | preemptTimeoutStop => exact execPreemptTimeoutStop_mem h
  | stateSaveDone => exact execStateSaveDone_mem h
  | restorePrologue => exact execRestorePrologue_mem h
  | priorityAging => exact execPriorityAging_mem h
  | weightReturn => exact execWeightReturn_mem h
  | barrierDeparture => exact execBarrierDeparture_mem h
  | lineageAck => exact execLineageAck_mem h
  | replicaComplete => exact execReplicaComplete_mem h
  | darnerWalk => exact execDarnerWalk_mem h
  | verificationCompare => exact execVerificationCompare_mem h
  | spareFill => exact execSpareFill_mem h
  | spareFillComplete => exact execSpareFillComplete_mem h
  | damoArrival => exact execDamoArrival_mem h
  | damoRetryResend => exact execDamoRetryResend_mem h
  | horizonMessage => exact execHorizonMessage_mem h
  | damoWindowClose => exact execDamoWindowClose_mem h
  | pairingArrival => exact execPairingArrival_mem h
  | pairingHoldExpiry => exact execPairingHoldExpiry_mem h
  | fallThroughApply => exact execFallThroughApply_mem h
  | atomicResultReturn => exact execAtomicResultReturn_mem h
  | weightBorrowAck => exact execWeightBorrowAck_mem h
  | ret => exact execRet_mem h
  | retEh => exact execRetEh_mem h
  | modeCal => exact execModeCal_mem h
  | modeSb => exact execModeSb_mem h
  | halt => exact execHalt_mem h
  | nop => exact execNop_mem h
  | mpop => exact execMpop_mem h
  | rrbdec => exact execRrbdec_mem h
  | tend => exact execTend_mem h
  | cut => exact execCut_mem h
  | queueRotation => exact execQueueRotation_mem h
  | dieWorkSteal => exact execDieWorkSteal_mem h
  | bookingRelease => exact execBookingRelease_mem h
  | teamAdmission => exact execTeamAdmission_mem h
  | teamSwap => exact execTeamSwap_mem h
  | shardPressureReplication => exact execShardPressureReplication_mem h
  | claspPairing => exact execClaspPairing_mem h
  | multicastWrite => exact execMulticastWrite_mem h
  | ringPacketArrival => exact execRingPacketArrival_mem h
  | ringPacketResend => exact execRingPacketResend_mem h
  | heartbeat => exact execHeartbeat_mem h
  | boundaryCut => exact execBoundaryCut_mem h
  | deliveryContextOpen => exact execDeliveryContextOpen_mem h
  | deliveryPacketArrival => exact execDeliveryPacketArrival_mem h
  | deliveryResendTimeout => exact execDeliveryResendTimeout_mem h
  | deliveryBusyRetry => exact execDeliveryBusyRetry_mem h
  | deliveryTeardown => exact execDeliveryTeardown_mem h
  | remoteTranslationReq => exact execRemoteTranslationReq_mem h
  | remoteTranslationReply => exact execRemoteTranslationReply_mem h
  | exportInvalidation => exact execExportInvalidation_mem h
  | pinRelease => exact execPinRelease_mem h
  | migrationCopyDone => exact execMigrationCopyDone_mem h
  | migrationSwitch => exact execMigrationSwitch_mem h
  | migrationLogRetry => exact execMigrationLogRetry_mem h
  | migrationFree => exact execMigrationFree_mem h
  | hcmdLaunch => exact execHcmdLaunch_mem h
  | hcmdCtxnew => exact execHcmdCtxnew_mem h
  | hcmdCtxend => exact execHcmdCtxend_mem h
  | hcmdInval => exact execHcmdInval_mem h
  | hcmdExport => exact execHcmdExport_mem h
  | hcmdUnexport => exact execHcmdUnexport_mem h
  | hcmdMigrate => exact execHcmdMigrate_mem h
  | hcmdMcgroup => exact execHcmdMcgroup_mem h
  | icauseWrite => exact execIcauseWrite_mem h
  | imaskWrite => exact execImaskWrite_mem h
  | registerWrite => exact execRegisterWrite_mem h
  | mresetGo => exact execMresetGo_mem h
  | fwstage => exact execFwstage_mem h
  | attreq => exact execAttreq_mem h
  | pcapWrite => exact execPcapWrite_mem h
  | coldReset => exact execColdReset_mem h
  | pcieReset => exact execPcieReset_mem h
  | bringupStage => exact execBringupStage_mem h
  | rackStcSync => exact execRackStcSync_mem h
  | powerStateEntry => exact execPowerStateEntry_mem h
  | powerStateExit => exact execPowerStateExit_mem h
  | thermalLimit => exact execThermalLimit_mem h
  | eccCorrection => exact execEccCorrection_mem h
  | eccReread => exact execEccReread_mem h
  | patrolScrub => exact execPatrolScrub_mem h
  | frameRetirement => exact execFrameRetirement_mem h
  | sramDoubleBitError => exact execSramDoubleBitError_mem h
  | redundantRunCompare => exact execRedundantRunCompare_mem h
  | testDue => exact execTestDue_mem h
  | testScanStart => exact execTestScanStart_mem h
  | testScanEnd => exact execTestScanEnd_mem h
  | testAbort => exact execTestAbort_mem h
  | sensorAlarm => exact execSensorAlarm_mem h
  | linkFrameReceive => exact execLinkFrameReceive_mem h
  | linkNakReceive => exact execLinkNakReceive_mem h
  | linkKeyExchange => exact execLinkKeyExchange_mem h
  | linkKeyMarker => exact execLinkKeyMarker_mem h
  | dcpFatalFault => exact execDcpFatalFault_mem h
  | rackLinkFailure => exact execRackLinkFailure_mem h
  | hostMemoryWrite => exact execHostMemoryWrite_mem h
  | ringPacketAck => exact execRingPacketAck_mem h
  | deliveryAck => exact execDeliveryAck_mem h
  | linkFrameAck => exact execLinkFrameAck_mem h
  | exportInvalidationAck => exact execExportInvalidationAck_mem h

end Sys2Proof.Machine
end

