-- ==== Sys2Proof/Laws/Issue.lean ====
section
/-! SUPPORT. What the issue of a word does: one lemma per answer of the word's effect, the registers that pending results leave,
and the parts of a core that issue does not touch. -/

namespace Sys2Proof.Machine

/-! ### The answers of a word -/

theorem State.issue_error (s : State) (k : Kind) (body : State → Res) (t : State) (h : s.settled.gate k = .error t) :
    s.issue k body = t := by simp [State.issue, h]

theorem State.issue_ok (s : State) (k : Kind) (body : State → Res) (c : Core) (h : s.settled.gate k = .ok c) :
    s.issue k body = s.settled.conclude k (body (s.settled.begun k c)) := by simp [State.issue, h]

/-- A word whose kind names a trap takes it. -/
theorem State.issue_pre (s : State) (k : Kind) (body : State → Res) (c : Cause) (h : k.pre = some c) :
    s.issue k body = s.settled.wordTrap c 0 := by simp [State.issue, State.gate, h]

/-- A branch in a delay slot traps (05 R113). -/
theorem State.issue_slot (s : State) (k : Kind) (body : State → Res) (h : k.pre = none) (hb : k.branch = true)
    (hs : s.settled.curSeq.slots ≠ 0) : s.issue k body = s.settled.wordTrap .slot 0 := by
  simp [State.issue, State.gate, h, hb, hs]

theorem State.interlock_cal (s : State) (rs : List RegF) (body : State → Res) (t : State) (h : s.cur.sys.region = false) :
    s.interlock rs body t = body t := by simp [State.interlock, h]

/-- With its registers free, a word goes on. -/
theorem State.interlock_free (s : State) (rs : List RegF) (body : State → Res) (t : State)
    (h : t.cur.regBusy s.turn.q (rs.map (·.toNat)) = false) : s.interlock rs body t = body t := by
  simp [State.interlock, h]

/-! ### Pending results -/

/-- The value that the results pending by cycle `now` leave in a register. -/
def regLeft (now : Nat) (q : Seq) (r : Nat) : List Pend → Word → Word
  | [], v => v
  | p :: t, v =>
    regLeft now q r t
      (if p.due ≤ now then (match p.eff with
        | .reg q' r' w => if q' = q ∧ r' = r then w else v
        | _ => v) else v)

theorem Core.reg_ite (p : Prop) [Decidable p] (a b : Core) (q : Seq) (r : Nat) (z : Word) (ha : (a.seq q).reg r = z)
    (hb : (b.seq q).reg r = z) : ((if p then a else b).seq q).reg r = z := by
  by_cases h : p
  · rw [if_pos h]; exact ha
  · rw [if_neg h]; exact hb

/-- A change of a sequencer that keeps its registers. -/
theorem Core.modSeq_keep (c : Core) (q q' : Seq) (g : SeqSt → SeqSt) (r : Nat) (h : ∀ x, (g x).regs = x.regs) :
    ((c.modSeq q' g).seq q).reg r = (c.seq q).reg r := by
  by_cases e : q = q'
  · subst e; simp [SeqSt.reg, h]
  · rw [Core.modSeq_seq_ne _ _ _ _ e]

theorem Core.writeSys_reg (c : Core) (now : Nat) (q q' : Seq) (n r : Nat) (v : Word) :
    ((c.writeSys now q' n v).seq q).reg r = (c.seq q).reg r := by
  simp only [Core.writeSys]
  repeat' refine Core.reg_ite _ _ _ _ _ _ ?_ ?_
  all_goals first
    | exact Core.modSeq_keep _ _ _ _ _ fun _ => rfl
    | (cases q <;> simp only [Core.seq])

theorem Core.moveSys_reg (c : Core) (now : Nat) (q q' : Seq) (n r : Nat) (v : Word) :
    ((c.moveSys now q' n v).seq q).reg r = (c.seq q).reg r := by
  have h := Core.writeSys_reg c now q q' n r v
  unfold Core.moveSys Core.noteMove
  split
  · cases q <;> exact h
  · exact h

theorem Eff.apply_reg (now : Nat) (e : Eff) (c : Core) (q : Seq) (r : Nat) :
    ((e.apply now c).seq q).reg r =
      (match e with
      | .reg q' r' w => if q' = q ∧ r' = r then w else (c.seq q).reg r
      | _ => (c.seq q).reg r) := by
  cases e with
  | reg q' r' w =>
    simp only [Eff.apply]
    by_cases hq : q' = q
    · subst hq
      by_cases hr : r' = r
      · subst hr; simp
      · have h : r ≠ r' := fun h => hr h.symm
        simp [hr, SeqSt.setReg_reg_ne _ _ _ _ h]
    · have h : q ≠ q' := fun h => hq h.symm
      simp [hq, Core.modSeq_seq_ne _ _ _ _ h]
  | sys q' n v => exact Core.moveSys_reg c now q q' n r v
  | loop q' k v => cases q <;> cases q' <;> rfl
  | token f n => cases q <;> rfl
  | _ => cases q <;> rfl

theorem settleGo_reg (now : Nat) (l : List Pend) (c : Core) (q : Seq) (r : Nat) :
    ((settleGo now l c).seq q).reg r = regLeft now q r l ((c.seq q).reg r) := by
  induction l generalizing c with
  | nil => rfl
  | cons p t ih =>
    simp only [settleGo, regLeft]
    split
    · rw [ih, Eff.apply_reg]
    · rw [ih]

/-- A register after the effects due by a cycle. -/
theorem Core.settle_reg (c : Core) (now : Nat) (q : Seq) (r : Nat) :
    ((c.settle now).seq q).reg r = regLeft now q r c.pend ((c.seq q).reg r) := by
  rw [← settleGo_reg]; cases q <;> rfl

theorem regLeft_none (now : Nat) (q : Seq) (r : Nat) (l : List Pend) (v : Word) (h : ∀ p ∈ l, now < p.due) :
    regLeft now q r l v = v := by
  induction l generalizing v with
  | nil => rfl
  | cons p t ih =>
    have hp : ¬ p.due ≤ now := Nat.not_le.mpr (h p (List.mem_cons_self ..))
    simp only [regLeft, hp, if_false]
    exact ih _ fun x hx => h x (List.mem_cons_of_mem _ hx)

/-- Of the results due by its cycle, the one placed last survives (05 R110). -/
theorem regLeft_ins (due : Nat) (q : Seq) (r : Nat) (w v : Word) (l : List Pend) :
    regLeft due q r (insPend ⟨due, .reg q r w⟩ l) v = w := by
  induction l generalizing v with
  | nil => simp [insPend, regLeft]
  | cons p t ih =>
    simp only [insPend]
    split
    · rename_i h
      have hp : ¬ p.due ≤ due := Nat.not_le.mpr h.1
      have ht : ∀ x ∈ t, due < x.due := by simpa using h.2
      simp [regLeft, hp, regLeft_none due q r t w ht]
    · simp only [regLeft]; exact ih _

/-- A result leaves every other register. -/
theorem regLeft_ins_ne (now due : Nat) (q q' : Seq) (r r' : Nat) (w v : Word) (l : List Pend) (h : ¬ (q' = q ∧ r' = r)) :
    regLeft now q r (insPend ⟨due, .reg q' r' w⟩ l) v = regLeft now q r l v := by
  induction l generalizing v with
  | nil => simp [insPend, regLeft, h]
  | cons p t ih =>
    simp only [insPend]
    split
    · simp [regLeft, h]
    · simp only [regLeft, ih]

/-! ### What the end of an issue leaves -/

theorem endCheck_regs (pc d : BitVec 14) (l : List Nat) (x : SeqSt) : (endCheck pc d l x).1.regs = x.regs := by
  induction l generalizing x with
  | nil => rfl
  | cons k t ih =>
    simp only [endCheck]
    split
    · split
      · rfl
      · rw [ih]; rfl
    · exact ih x

@[simp] theorem SeqSt.advance_regs (x : SeqSt) (now : Nat) (r : Option (Option (BitVec 14))) (d : BitVec 14) :
    (x.advance now r d).regs = x.regs := by
  simp only [SeqSt.advance]
  split
  · split <;> rfl
  · split
    · rfl
    · simp [endCheck_regs]
    · simp [endCheck_regs]

@[simp] theorem SeqSt.advance_reg (x : SeqSt) (now : Nat) (r : Option (Option (BitVec 14))) (d : BitVec 14) (k : Nat) :
    (x.advance now r d).reg k = x.reg k := by simp [SeqSt.reg]

theorem endCheck_frame (pc d : BitVec 14) (l : List Nat) (x : SeqSt) :
    (endCheck pc d l x).1.lastPc = x.lastPc ∧ (endCheck pc d l x).1.last = x.last ∧ (endCheck pc d l x).1.ras = x.ras ∧
    (endCheck pc d l x).1.rsspill = x.rsspill ∧ (endCheck pc d l x).1.tvec = x.tvec ∧ (endCheck pc d l x).1.epc = x.epc ∧
    (endCheck pc d l x).1.mode = x.mode := by
  induction l generalizing x with
  | nil => simp [endCheck]
  | cons k t ih =>
    simp only [endCheck]
    split
    · split
      · simp [SeqSt.setLoop]
      · simpa [SeqSt.setLoop] using ih (x.setLoop k (x.loopReg k - 1#64))
    · exact ih x

/-- The word issued is the last one of its stream, in this cycle. -/
@[simp] theorem SeqSt.advance_lastPc (x : SeqSt) (now : Nat) (r : Option (Option (BitVec 14))) (d : BitVec 14) :
    (x.advance now r d).lastPc = x.pc := by
  simp only [SeqSt.advance]
  split
  · split <;> rfl
  · split
    · rfl
    · simp [(endCheck_frame _ _ _ _).1]
    · simp [(endCheck_frame _ _ _ _).1]
@[simp] theorem SeqSt.advance_last (x : SeqSt) (now : Nat) (r : Option (Option (BitVec 14))) (d : BitVec 14) :
    (x.advance now r d).last = now := by
  simp only [SeqSt.advance]
  split
  · split <;> rfl
  · split
    · rfl
    · simp [(endCheck_frame _ _ _ _).2.1]
    · simp [(endCheck_frame _ _ _ _).2.1]

/-- What the effects due leave of a sequencer beside its registers, loops and system registers. -/
theorem Eff.apply_seq (now : Nat) (e : Eff) (c : Core) (q : Seq) :
    ((e.apply now c).seq q).pc = (c.seq q).pc ∧ ((e.apply now c).seq q).lastPc = (c.seq q).lastPc ∧
    ((e.apply now c).seq q).slots = (c.seq q).slots ∧ ((e.apply now c).seq q).target = (c.seq q).target ∧
    ((e.apply now c).seq q).mode = (c.seq q).mode ∧ ((e.apply now c).seq q).last = (c.seq q).last ∧
    ((e.apply now c).seq q).ras = (c.seq q).ras := by
  have hm : ∀ (q' : Seq) (g : SeqSt → SeqSt), (∀ x, (g x).pc = x.pc ∧ (g x).lastPc = x.lastPc ∧ (g x).slots = x.slots ∧
      (g x).target = x.target ∧ (g x).mode = x.mode ∧ (g x).last = x.last ∧ (g x).ras = x.ras) →
      ((c.modSeq q' g).seq q).pc = (c.seq q).pc ∧ ((c.modSeq q' g).seq q).lastPc = (c.seq q).lastPc ∧
      ((c.modSeq q' g).seq q).slots = (c.seq q).slots ∧ ((c.modSeq q' g).seq q).target = (c.seq q).target ∧
      ((c.modSeq q' g).seq q).mode = (c.seq q).mode ∧ ((c.modSeq q' g).seq q).last = (c.seq q).last ∧
      ((c.modSeq q' g).seq q).ras = (c.seq q).ras := by
    intro q' g hg
    by_cases e : q = q'
    · subst e; simpa using hg _
    · rw [Core.modSeq_seq_ne _ _ _ _ e]; simp
  cases e with
  | reg q' r w => exact hm q' _ fun x => ⟨rfl, rfl, rfl, rfl, rfl, rfl, rfl⟩
  | loop q' k v => exact hm q' _ fun x => ⟨rfl, rfl, rfl, rfl, rfl, rfl, rfl⟩
  | sys q' n v =>
    simp only [Eff.apply]
    have hi : ∀ (p : Prop) [Decidable p] (a b : Core),
        ((a.seq q).pc = (c.seq q).pc ∧ (a.seq q).lastPc = (c.seq q).lastPc ∧ (a.seq q).slots = (c.seq q).slots ∧
          (a.seq q).target = (c.seq q).target ∧ (a.seq q).mode = (c.seq q).mode ∧ (a.seq q).last = (c.seq q).last ∧
          (a.seq q).ras = (c.seq q).ras) →
        ((b.seq q).pc = (c.seq q).pc ∧ (b.seq q).lastPc = (c.seq q).lastPc ∧ (b.seq q).slots = (c.seq q).slots ∧
          (b.seq q).target = (c.seq q).target ∧ (b.seq q).mode = (c.seq q).mode ∧ (b.seq q).last = (c.seq q).last ∧
          (b.seq q).ras = (c.seq q).ras) →
        (((if p then a else b).seq q).pc = (c.seq q).pc ∧ ((if p then a else b).seq q).lastPc = (c.seq q).lastPc ∧
          ((if p then a else b).seq q).slots = (c.seq q).slots ∧ ((if p then a else b).seq q).target = (c.seq q).target ∧
          ((if p then a else b).seq q).mode = (c.seq q).mode ∧ ((if p then a else b).seq q).last = (c.seq q).last ∧
          ((if p then a else b).seq q).ras = (c.seq q).ras) := by
      intro p _ a b ha hb
      by_cases h : p
      · rw [if_pos h]; exact ha
      · rw [if_neg h]; exact hb
    repeat' refine hi _ _ _ ?_ ?_
    all_goals first
      | exact hm _ _ fun x => ⟨rfl, rfl, rfl, rfl, rfl, rfl, rfl⟩
      | (cases q <;> simp only [Core.seq, and_self])
  | token f n => cases q <;> exact ⟨rfl, rfl, rfl, rfl, rfl, rfl, rfl⟩
  | _ => cases q <;> exact ⟨rfl, rfl, rfl, rfl, rfl, rfl, rfl⟩

theorem settleGo_seq (now : Nat) (l : List Pend) (c : Core) (q : Seq) :
    ((settleGo now l c).seq q).pc = (c.seq q).pc ∧ ((settleGo now l c).seq q).lastPc = (c.seq q).lastPc ∧
    ((settleGo now l c).seq q).slots = (c.seq q).slots ∧ ((settleGo now l c).seq q).target = (c.seq q).target ∧
    ((settleGo now l c).seq q).mode = (c.seq q).mode ∧ ((settleGo now l c).seq q).last = (c.seq q).last ∧
    ((settleGo now l c).seq q).ras = (c.seq q).ras := by
  induction l generalizing c with
  | nil => simp [settleGo]
  | cons p t ih =>
    simp only [settleGo]
    split
    · have h := ih (p.eff.apply now c)
      have e := Eff.apply_seq now p.eff c q
      simp only [h, e, and_self]
    · exact ih c

/-- Effects in force change neither where a stream stands nor what it does. -/
theorem Core.settle_seq (c : Core) (now : Nat) (q : Seq) :
    ((c.settle now).seq q).pc = (c.seq q).pc ∧ ((c.settle now).seq q).lastPc = (c.seq q).lastPc ∧
    ((c.settle now).seq q).slots = (c.seq q).slots ∧ ((c.settle now).seq q).target = (c.seq q).target ∧
    ((c.settle now).seq q).mode = (c.seq q).mode ∧ ((c.settle now).seq q).last = (c.seq q).last ∧
    ((c.settle now).seq q).ras = (c.seq q).ras := by
  have h := settleGo_seq now c.pend c q
  cases q <;> exact h

@[simp] theorem State.settled_pc (s : State) : s.settled.curSeq.pc = s.curSeq.pc := by
  simp only [State.curSeq, State.settled_cur, State.settled_turn]; exact (Core.settle_seq _ _ _).1
@[simp] theorem State.settled_slots (s : State) : s.settled.curSeq.slots = s.curSeq.slots := by
  simp only [State.curSeq, State.settled_cur, State.settled_turn]; exact (Core.settle_seq _ _ _).2.2.1

/-! ### The state in which a word's effect is worked out, and the end of its issue -/

theorem popTokens_keep (now : Nat) (fs : List Nat) (c c' : Core) (h : popTokens now fs c = some c') :
    ∃ x, c' = { c with q := x } := by
  induction fs generalizing c with
  | nil => simp only [popTokens, Option.some.injEq] at h; exact ⟨c.q, by rw [← h]⟩
  | cons f t ih =>
    simp only [popTokens] at h
    split at h
    · obtain ⟨x, hx⟩ := ih _ h
      exact ⟨x, by rw [hx]; rfl⟩
    · simp at h

/-- A word that begins has no trap of its own, stands in no slot if it is a branch, and its tokens are popped. -/
theorem State.gate_ok (s : State) (k : Kind) (c : Core) (h : s.gate k = .ok c) :
    k.pre = none ∧ (k.branch = true → s.curSeq.slots = 0) ∧ popTokens s.stc (s.popsOf k) s.cur = some c ∧
    (k.tokens = true → pushRoom s.stc (pushList s.turn.q s.turn.hdr.push) c = true) := by
  unfold State.gate at h
  split at h
  · simp at h
  · rename_i hp
    split at h
    · simp at h
    · rename_i hb
      split at h
      · simp at h
      · rename_i c' hc
        split at h
        · simp at h
        · rename_i hr
          simp only [Except.ok.injEq] at h
          subst h
          refine ⟨hp, fun hk => ?_, hc, fun hk => ?_⟩
          · simpa [hk] using hb
          · simpa [hk] using hr

/-- A word that begins: its core is that of the settled state but for the token queues, the refill cycles of its stream and its
entry in the precise window. -/
theorem State.gate_core (s : State) (k : Kind) (c : Core) (h : s.gate k = .ok c) : ∃ x, c = { s.cur with q := x } :=
  popTokens_keep _ _ _ _ (State.gate_ok s k c h).2.2.1

/-- Off X, the state in which a word's effect is worked out. -/
theorem State.begun_cur (s : State) (k : Kind) (c : Core) (hq : s.turn.q ≠ .x) :
    (s.begun k c).cur = c.modSeq s.turn.q fun x => { x with extra := 0 } := by
  simp only [State.begun]
  rw [if_neg (fun h => hq h.1)]
  exact State.setCore_core s s.turn.core _

theorem pushTokens_keep (now : Nat) (q : Seq) (fs : List Nat) (c : Core) (h : q ≠ .x) :
    ∃ x, pushTokens now q fs c = { c with q := x } := by
  induction fs generalizing c with
  | nil => exact ⟨c.q, rfl⟩
  | cons f t ih =>
    simp only [pushTokens, h, false_and, if_false]
    obtain ⟨x, hx⟩ := ih (c.pushTok f now 1)
    exact ⟨x, by rw [hx]; rfl⟩

/-- Off X, the end of an issue changes of its core only the token queues, AUDIT and where the stream stands. -/
theorem State.finishIssue_cur (t : State) (k : Kind) (n : Nat) (r : Option (Option (BitVec 14))) (d : BitVec 14)
    (hq : t.turn.q ≠ .x) :
    ∃ x b, (t.finishIssue k n r d).cur =
      ({ t.cur with q := x, sys := { t.cur.sys with audit := b } } : Core).modSeq t.turn.q fun y => y.advance t.stc r d := by
  obtain ⟨x, hx⟩ := pushTokens_keep t.stc t.turn.q (pushList t.turn.q t.turn.hdr.push) t.cur hq
  refine ⟨if k.tokens then x else t.cur.q, k.audit || t.cur.sys.audit, ?_⟩
  have h : (t.finishIssue k n r d).cur = _ := State.modCur_cur t _
  rw [h]
  simp only [stepSkip, hq, false_and, if_false]
  cases k.tokens <;> cases k.audit <;> simp [hx]

/-- The end check reads and changes the loop registers alone. -/
theorem endCheck_lc (pc d : BitVec 14) (l : List Nat) (x y : SeqSt) (h : x.lc = y.lc) :
    (endCheck pc d l x).2 = (endCheck pc d l y).2 ∧ (endCheck pc d l x).1.lc = (endCheck pc d l y).1.lc := by
  induction l generalizing x y with
  | nil => exact ⟨rfl, h⟩
  | cons k t ih =>
    have hk : x.loopReg k = y.loopReg k := by simp [SeqSt.loopReg, h]
    simp only [endCheck, hk]
    split
    · split
      · exact ⟨rfl, by simp [SeqSt.setLoop, h]⟩
      · exact ih _ _ (by simp [SeqSt.setLoop, h])
    · exact ih _ _ h

/-- A taken branch outside a delay slot: two delay slots, then its target (05 R114). -/
theorem SeqSt.advance_taken (x : SeqSt) (now : Nat) (g d : BitVec 14) (h : x.slots = 0) :
    (x.advance now (some (some g)) d).slots = 2 ∧ (x.advance now (some (some g)) d).target = some g ∧
    (x.advance now (some (some g)) d).pc = d ∧ (x.advance now (some (some g)) d).lc = x.lc := by
  simp [SeqSt.advance, h]

/-- A branch that is not taken: two delay slots with no target, and the end check of the loops. -/
theorem SeqSt.advance_untaken (x : SeqSt) (now : Nat) (d : BitVec 14) (h : x.slots = 0) :
    (x.advance now (some none) d).slots = 2 ∧ (x.advance now (some none) d).target = none ∧
    (x.advance now (some none) d).pc = (endCheck x.pc d [0, 1, 2, 3] x).2 ∧
    (x.advance now (some none) d).lc = (endCheck x.pc d [0, 1, 2, 3] x).1.lc := by
  unfold SeqSt.advance
  rw [if_neg (by simp [h])]
  have e := endCheck_lc x.pc d [0, 1, 2, 3] { x with lastPc := x.pc, last := now, first := false, dueAt := none, retry := 0 } x rfl
  exact ⟨rfl, rfl, e.1, e.2⟩

theorem endCheck_slots (pc d : BitVec 14) (l : List Nat) (x : SeqSt) :
    (endCheck pc d l x).1.slots = x.slots ∧ (endCheck pc d l x).1.target = x.target := by
  induction l generalizing x with
  | nil => exact ⟨rfl, rfl⟩
  | cons k t ih =>
    simp only [endCheck]
    split
    · split
      · exact ⟨rfl, rfl⟩
      · exact ih _
    · exact ih x

/-- Any other word outside a delay slot: the end check of the loops (05 R124). -/
theorem SeqSt.advance_next (x : SeqSt) (now : Nat) (d : BitVec 14) (h : x.slots = 0) :
    (x.advance now none d).slots = 0 ∧ (x.advance now none d).target = x.target ∧
    (x.advance now none d).pc = (endCheck x.pc d [0, 1, 2, 3] x).2 ∧
    (x.advance now none d).lc = (endCheck x.pc d [0, 1, 2, 3] x).1.lc := by
  unfold SeqSt.advance
  rw [if_neg (by simp [h])]
  have e := endCheck_lc x.pc d [0, 1, 2, 3] { x with lastPc := x.pc, last := now, first := false, dueAt := none, retry := 0 } x rfl
  exact ⟨(endCheck_slots _ _ _ _).1.trans h, (endCheck_slots _ _ _ _).2, e.1, e.2⟩

/-- A word in a delay slot that is not the last: one slot fewer. -/
theorem SeqSt.advance_slot (x : SeqSt) (now m : Nat) (r : Option (Option (BitVec 14))) (d : BitVec 14)
    (h : x.slots = m + 2) : (x.advance now r d).slots = m + 1 ∧ (x.advance now r d).target = x.target ∧
    (x.advance now r d).pc = d ∧ (x.advance now r d).lc = x.lc := by
  simp [SeqSt.advance, h]

/-- The word in the last delay slot: the target of a taken branch follows. -/
theorem SeqSt.advance_lastSlot (x : SeqSt) (now : Nat) (r : Option (Option (BitVec 14))) (d : BitVec 14)
    (h : x.slots = 1) : (x.advance now r d).slots = 0 ∧ (x.advance now r d).target = none ∧
    (x.advance now r d).pc = x.target.getD d ∧ (x.advance now r d).lc = x.lc := by
  simp [SeqSt.advance, h]

/-- What the end of an issue keeps of its stream. -/
theorem SeqSt.advance_keep (x : SeqSt) (now : Nat) (r : Option (Option (BitVec 14))) (d : BitVec 14) :
    (x.advance now r d).ras = x.ras ∧ (x.advance now r d).rsspill = x.rsspill ∧ (x.advance now r d).tvec = x.tvec ∧
    (x.advance now r d).epc = x.epc ∧ (x.advance now r d).mode = x.mode := by
  by_cases h : x.slots = 0
  · unfold SeqSt.advance
    rw [if_neg (by simp [h])]
    split
    · exact ⟨rfl, rfl, rfl, rfl, rfl⟩
    · exact (endCheck_frame _ _ _ _).2.2
    · exact (endCheck_frame _ _ _ _).2.2
  · by_cases h1 : x.slots - 1 = 0 <;> simp [SeqSt.advance, h, h1]

@[simp] theorem Core.emit_seq (c : Core) (q r : Seq) (due : Nat) (e : Eff) : (c.emit q due e).seq r = c.seq r := by
  unfold Core.emit
  split
  · cases r <;> rfl
  · exact Core.later_seq ..

@[simp] theorem Core.pushTok_seq (c : Core) (f now n : Nat) (r : Seq) : (c.pushTok f now n).seq r = c.seq r := by
  cases r <;> rfl

@[simp] theorem pushTokens_seq (now : Nat) (q r : Seq) (fs : List Nat) (c : Core) :
    (pushTokens now q fs c).seq r = c.seq r := by
  induction fs generalizing c with
  | nil => rfl
  | cons f t ih => simp only [pushTokens]; split <;> simp [ih]

/-- Where the stream stands after its word has issued. -/
theorem State.finishIssue_curSeq (t : State) (k : Kind) (n : Nat) (r : Option (Option (BitVec 14))) (d : BitVec 14) :
    (t.finishIssue k n r d).curSeq = t.curSeq.advance t.stc r d := by
  have h : (t.finishIssue k n r d).cur = _ := State.modCur_cur t _
  have hs : ∀ (c : Core), (stepSkip n t.turn.q c).seq t.turn.q = c.seq t.turn.q := by
    intro c; unfold stepSkip; split
    · cases t.turn.q <;> rfl
    · rfl
  unfold State.curSeq
  rw [h]
  simp only [State.finishIssue_turn, Core.modSeq_seq, hs]
  congr 1
  have ha : ∀ (c : Core) (b : Bool), (({ c with sys := { c.sys with audit := b } } : Core)).seq t.turn.q = c.seq t.turn.q := by
    intro c b; cases t.turn.q <;> rfl
  cases k.tokens <;> cases k.audit <;> simp [ha]

/-- Where the stream stands while its word's effect is worked out. -/
theorem State.begun_curSeq (s : State) (k : Kind) (c : Core) (h : s.gate k = .ok c) :
    (s.begun k c).curSeq = { s.curSeq with extra := 0 } := by
  obtain ⟨x, rfl⟩ := State.gate_core s k c h
  have hc : (s.begun k { s.cur with q := x }).cur = _ := State.setCore_core s s.turn.core _
  unfold State.curSeq
  rw [hc, State.begun_turn]
  by_cases hw : s.turn.q = .x ∧
      ((({ s.cur with q := x } : Core).modSeq s.turn.q fun y => { y with extra := 0 }).vec.window ≠ [] ∨ k.precise)
  · rw [if_pos hw, hw.1]; rfl
  · rw [if_neg hw]; generalize s.turn.q = q; cases q <;> rfl

end Sys2Proof.Machine
end

