-- ==== Sys2Proof/Laws/PerInstr.lean ====
section
/-! SUPPORT. Families of statements made per instruction, with one lemma for each constructor of Instr. -/

namespace Sys2Proof.Laws

open Sys2Proof

/-! ### The fields of the packed formats (04 Table 4.2) -/

@[simp] theorem packSR_34_6 (d : BitVec 6) (a : BitVec 6) (b : BitVec 6) : (packSR d a b).extractLsb' 34 6 = d := by
  show BitVec.extractLsb' 34 6 (d ++ a ++ b ++ 0#22 : BitVec (6 + 6 + 6 + 22)) = d
  rw [BitVec.extractLsb'_append_eq_of_le (by decide), BitVec.extractLsb'_append_eq_of_le (by decide), BitVec.extractLsb'_append_eq_of_le (by decide)]
  exact BitVec.extractLsb'_eq_self
@[simp] theorem packSR_28_6 (d : BitVec 6) (a : BitVec 6) (b : BitVec 6) : (packSR d a b).extractLsb' 28 6 = a := by
  show BitVec.extractLsb' 28 6 (d ++ a ++ b ++ 0#22 : BitVec (6 + 6 + 6 + 22)) = a
  rw [BitVec.extractLsb'_append_eq_of_le (by decide), BitVec.extractLsb'_append_eq_of_le (by decide), BitVec.extractLsb'_append_eq_of_add_le (by decide)]
  exact BitVec.extractLsb'_eq_self
@[simp] theorem packSR_22_6 (d : BitVec 6) (a : BitVec 6) (b : BitVec 6) : (packSR d a b).extractLsb' 22 6 = b := by
  show BitVec.extractLsb' 22 6 (d ++ a ++ b ++ 0#22 : BitVec (6 + 6 + 6 + 22)) = b
  rw [BitVec.extractLsb'_append_eq_of_le (by decide), BitVec.extractLsb'_append_eq_of_add_le (by decide)]
  exact BitVec.extractLsb'_eq_self
@[simp] theorem packSR_0_22 (d : BitVec 6) (a : BitVec 6) (b : BitVec 6) : (packSR d a b).extractLsb' 0 22 = 0#22 := by
  show BitVec.extractLsb' 0 22 (d ++ a ++ b ++ 0#22 : BitVec (6 + 6 + 6 + 22)) = 0#22
  rw [BitVec.extractLsb'_append_eq_of_add_le (by decide)]
  exact BitVec.extractLsb'_eq_self
@[simp] theorem packSI_34_6 (d : BitVec 6) (imm : BitVec 32) : (packSI d imm).extractLsb' 34 6 = d := by
  show BitVec.extractLsb' 34 6 (d ++ 0#2 ++ imm : BitVec (6 + 2 + 32)) = d
  rw [BitVec.extractLsb'_append_eq_of_le (by decide), BitVec.extractLsb'_append_eq_of_le (by decide)]
  exact BitVec.extractLsb'_eq_self
@[simp] theorem packSI_32_2 (d : BitVec 6) (imm : BitVec 32) : (packSI d imm).extractLsb' 32 2 = 0#2 := by
  show BitVec.extractLsb' 32 2 (d ++ 0#2 ++ imm : BitVec (6 + 2 + 32)) = 0#2
  rw [BitVec.extractLsb'_append_eq_of_le (by decide), BitVec.extractLsb'_append_eq_of_add_le (by decide)]
  exact BitVec.extractLsb'_eq_self
@[simp] theorem packSI_0_32 (d : BitVec 6) (imm : BitVec 32) : (packSI d imm).extractLsb' 0 32 = imm := by
  show BitVec.extractLsb' 0 32 (d ++ 0#2 ++ imm : BitVec (6 + 2 + 32)) = imm
  rw [BitVec.extractLsb'_append_eq_of_add_le (by decide)]
  exact BitVec.extractLsb'_eq_self
@[simp] theorem packBR_34_6 (a : BitVec 6) (b : BitVec 6) (tgt : BitVec 14) : (packBR a b tgt).extractLsb' 34 6 = a := by
  show BitVec.extractLsb' 34 6 (a ++ b ++ 0#14 ++ tgt : BitVec (6 + 6 + 14 + 14)) = a
  rw [BitVec.extractLsb'_append_eq_of_le (by decide), BitVec.extractLsb'_append_eq_of_le (by decide), BitVec.extractLsb'_append_eq_of_le (by decide)]
  exact BitVec.extractLsb'_eq_self
@[simp] theorem packBR_28_6 (a : BitVec 6) (b : BitVec 6) (tgt : BitVec 14) : (packBR a b tgt).extractLsb' 28 6 = b := by
  show BitVec.extractLsb' 28 6 (a ++ b ++ 0#14 ++ tgt : BitVec (6 + 6 + 14 + 14)) = b
  rw [BitVec.extractLsb'_append_eq_of_le (by decide), BitVec.extractLsb'_append_eq_of_le (by decide), BitVec.extractLsb'_append_eq_of_add_le (by decide)]
  exact BitVec.extractLsb'_eq_self
@[simp] theorem packBR_14_14 (a : BitVec 6) (b : BitVec 6) (tgt : BitVec 14) : (packBR a b tgt).extractLsb' 14 14 = 0#14 := by
  show BitVec.extractLsb' 14 14 (a ++ b ++ 0#14 ++ tgt : BitVec (6 + 6 + 14 + 14)) = 0#14
  rw [BitVec.extractLsb'_append_eq_of_le (by decide), BitVec.extractLsb'_append_eq_of_add_le (by decide)]
  exact BitVec.extractLsb'_eq_self
@[simp] theorem packBR_0_14 (a : BitVec 6) (b : BitVec 6) (tgt : BitVec 14) : (packBR a b tgt).extractLsb' 0 14 = tgt := by
  show BitVec.extractLsb' 0 14 (a ++ b ++ 0#14 ++ tgt : BitVec (6 + 6 + 14 + 14)) = tgt
  rw [BitVec.extractLsb'_append_eq_of_add_le (by decide)]
  exact BitVec.extractLsb'_eq_self
@[simp] theorem packLP_38_2 (lc : BitVec 2) (a : BitVec 6) (icnt : BitVec 18) (last : BitVec 14) : (packLP lc a icnt last).extractLsb' 38 2 = lc := by
  show BitVec.extractLsb' 38 2 (lc ++ a ++ icnt ++ last : BitVec (2 + 6 + 18 + 14)) = lc
  rw [BitVec.extractLsb'_append_eq_of_le (by decide), BitVec.extractLsb'_append_eq_of_le (by decide), BitVec.extractLsb'_append_eq_of_le (by decide)]
  exact BitVec.extractLsb'_eq_self
@[simp] theorem packLP_32_6 (lc : BitVec 2) (a : BitVec 6) (icnt : BitVec 18) (last : BitVec 14) : (packLP lc a icnt last).extractLsb' 32 6 = a := by
  show BitVec.extractLsb' 32 6 (lc ++ a ++ icnt ++ last : BitVec (2 + 6 + 18 + 14)) = a
  rw [BitVec.extractLsb'_append_eq_of_le (by decide), BitVec.extractLsb'_append_eq_of_le (by decide), BitVec.extractLsb'_append_eq_of_add_le (by decide)]
  exact BitVec.extractLsb'_eq_self
@[simp] theorem packLP_14_18 (lc : BitVec 2) (a : BitVec 6) (icnt : BitVec 18) (last : BitVec 14) : (packLP lc a icnt last).extractLsb' 14 18 = icnt := by
  show BitVec.extractLsb' 14 18 (lc ++ a ++ icnt ++ last : BitVec (2 + 6 + 18 + 14)) = icnt
  rw [BitVec.extractLsb'_append_eq_of_le (by decide), BitVec.extractLsb'_append_eq_of_add_le (by decide)]
  exact BitVec.extractLsb'_eq_self
@[simp] theorem packLP_0_14 (lc : BitVec 2) (a : BitVec 6) (icnt : BitVec 18) (last : BitVec 14) : (packLP lc a icnt last).extractLsb' 0 14 = last := by
  show BitVec.extractLsb' 0 14 (lc ++ a ++ icnt ++ last : BitVec (2 + 6 + 18 + 14)) = last
  rw [BitVec.extractLsb'_append_eq_of_add_le (by decide)]
  exact BitVec.extractLsb'_eq_self
@[simp] theorem packSY_34_6 (d : BitVec 6) (s : BitVec 10) : (packSY d s).extractLsb' 34 6 = d := by
  show BitVec.extractLsb' 34 6 (d ++ 0#24 ++ s : BitVec (6 + 24 + 10)) = d
  rw [BitVec.extractLsb'_append_eq_of_le (by decide), BitVec.extractLsb'_append_eq_of_le (by decide)]
  exact BitVec.extractLsb'_eq_self
@[simp] theorem packSY_10_24 (d : BitVec 6) (s : BitVec 10) : (packSY d s).extractLsb' 10 24 = 0#24 := by
  show BitVec.extractLsb' 10 24 (d ++ 0#24 ++ s : BitVec (6 + 24 + 10)) = 0#24
  rw [BitVec.extractLsb'_append_eq_of_le (by decide), BitVec.extractLsb'_append_eq_of_add_le (by decide)]
  exact BitVec.extractLsb'_eq_self
@[simp] theorem packSY_0_10 (d : BitVec 6) (s : BitVec 10) : (packSY d s).extractLsb' 0 10 = s := by
  show BitVec.extractLsb' 0 10 (d ++ 0#24 ++ s : BitVec (6 + 24 + 10)) = s
  rw [BitVec.extractLsb'_append_eq_of_add_le (by decide)]
  exact BitVec.extractLsb'_eq_self
@[simp] theorem packV3_30_10 (d : BitVec 10) (a : BitVec 10) (b : BitVec 10) (p : BitVec 5) (ty : BitVec 5) : (packV3 d a b p ty).extractLsb' 30 10 = d := by
  show BitVec.extractLsb' 30 10 (d ++ a ++ b ++ p ++ ty : BitVec (10 + 10 + 10 + 5 + 5)) = d
  rw [BitVec.extractLsb'_append_eq_of_le (by decide), BitVec.extractLsb'_append_eq_of_le (by decide), BitVec.extractLsb'_append_eq_of_le (by decide), BitVec.extractLsb'_append_eq_of_le (by decide)]
  exact BitVec.extractLsb'_eq_self
@[simp] theorem packV3_20_10 (d : BitVec 10) (a : BitVec 10) (b : BitVec 10) (p : BitVec 5) (ty : BitVec 5) : (packV3 d a b p ty).extractLsb' 20 10 = a := by
  show BitVec.extractLsb' 20 10 (d ++ a ++ b ++ p ++ ty : BitVec (10 + 10 + 10 + 5 + 5)) = a
  rw [BitVec.extractLsb'_append_eq_of_le (by decide), BitVec.extractLsb'_append_eq_of_le (by decide), BitVec.extractLsb'_append_eq_of_le (by decide), BitVec.extractLsb'_append_eq_of_add_le (by decide)]
  exact BitVec.extractLsb'_eq_self
@[simp] theorem packV3_10_10 (d : BitVec 10) (a : BitVec 10) (b : BitVec 10) (p : BitVec 5) (ty : BitVec 5) : (packV3 d a b p ty).extractLsb' 10 10 = b := by
  show BitVec.extractLsb' 10 10 (d ++ a ++ b ++ p ++ ty : BitVec (10 + 10 + 10 + 5 + 5)) = b
  rw [BitVec.extractLsb'_append_eq_of_le (by decide), BitVec.extractLsb'_append_eq_of_le (by decide), BitVec.extractLsb'_append_eq_of_add_le (by decide)]
  exact BitVec.extractLsb'_eq_self
@[simp] theorem packV3_5_5 (d : BitVec 10) (a : BitVec 10) (b : BitVec 10) (p : BitVec 5) (ty : BitVec 5) : (packV3 d a b p ty).extractLsb' 5 5 = p := by
  show BitVec.extractLsb' 5 5 (d ++ a ++ b ++ p ++ ty : BitVec (10 + 10 + 10 + 5 + 5)) = p
  rw [BitVec.extractLsb'_append_eq_of_le (by decide), BitVec.extractLsb'_append_eq_of_add_le (by decide)]
  exact BitVec.extractLsb'_eq_self
@[simp] theorem packV3_0_5 (d : BitVec 10) (a : BitVec 10) (b : BitVec 10) (p : BitVec 5) (ty : BitVec 5) : (packV3 d a b p ty).extractLsb' 0 5 = ty := by
  show BitVec.extractLsb' 0 5 (d ++ a ++ b ++ p ++ ty : BitVec (10 + 10 + 10 + 5 + 5)) = ty
  rw [BitVec.extractLsb'_append_eq_of_add_le (by decide)]
  exact BitVec.extractLsb'_eq_self
@[simp] theorem packV3_0_2 (d : BitVec 10) (a : BitVec 10) (b : BitVec 10) (p : BitVec 5) (ty : BitVec 5) : (packV3 d a b p ty).extractLsb' 0 2 = ty.extractLsb' 0 2 := by
  show BitVec.extractLsb' 0 2 (d ++ a ++ b ++ p ++ ty : BitVec (10 + 10 + 10 + 5 + 5)) = ty.extractLsb' 0 2
  rw [BitVec.extractLsb'_append_eq_of_add_le (by decide)]
@[simp] theorem packV3_2_3 (d : BitVec 10) (a : BitVec 10) (b : BitVec 10) (p : BitVec 5) (ty : BitVec 5) : (packV3 d a b p ty).extractLsb' 2 3 = ty.extractLsb' 2 3 := by
  show BitVec.extractLsb' 2 3 (d ++ a ++ b ++ p ++ ty : BitVec (10 + 10 + 10 + 5 + 5)) = ty.extractLsb' 2 3
  rw [BitVec.extractLsb'_append_eq_of_add_le (by decide)]
@[simp] theorem packV3_13_7 (d : BitVec 10) (a : BitVec 10) (b : BitVec 10) (p : BitVec 5) (ty : BitVec 5) : (packV3 d a b p ty).extractLsb' 13 7 = b.extractLsb' 3 7 := by
  show BitVec.extractLsb' 13 7 (d ++ a ++ b ++ p ++ ty : BitVec (10 + 10 + 10 + 5 + 5)) = b.extractLsb' 3 7
  rw [BitVec.extractLsb'_append_eq_of_le (by decide), BitVec.extractLsb'_append_eq_of_le (by decide), BitVec.extractLsb'_append_eq_of_add_le (by decide)]
@[simp] theorem packV3_10_3 (d : BitVec 10) (a : BitVec 10) (b : BitVec 10) (p : BitVec 5) (ty : BitVec 5) : (packV3 d a b p ty).extractLsb' 10 3 = b.extractLsb' 0 3 := by
  show BitVec.extractLsb' 10 3 (d ++ a ++ b ++ p ++ ty : BitVec (10 + 10 + 10 + 5 + 5)) = b.extractLsb' 0 3
  rw [BitVec.extractLsb'_append_eq_of_le (by decide), BitVec.extractLsb'_append_eq_of_le (by decide), BitVec.extractLsb'_append_eq_of_add_le (by decide)]
@[simp] theorem packV3_18_2 (d : BitVec 10) (a : BitVec 10) (b : BitVec 10) (p : BitVec 5) (ty : BitVec 5) : (packV3 d a b p ty).extractLsb' 18 2 = b.extractLsb' 8 2 := by
  show BitVec.extractLsb' 18 2 (d ++ a ++ b ++ p ++ ty : BitVec (10 + 10 + 10 + 5 + 5)) = b.extractLsb' 8 2
  rw [BitVec.extractLsb'_append_eq_of_le (by decide), BitVec.extractLsb'_append_eq_of_le (by decide), BitVec.extractLsb'_append_eq_of_add_le (by decide)]
@[simp] theorem packV3_10_8 (d : BitVec 10) (a : BitVec 10) (b : BitVec 10) (p : BitVec 5) (ty : BitVec 5) : (packV3 d a b p ty).extractLsb' 10 8 = b.extractLsb' 0 8 := by
  show BitVec.extractLsb' 10 8 (d ++ a ++ b ++ p ++ ty : BitVec (10 + 10 + 10 + 5 + 5)) = b.extractLsb' 0 8
  rw [BitVec.extractLsb'_append_eq_of_le (by decide), BitVec.extractLsb'_append_eq_of_le (by decide), BitVec.extractLsb'_append_eq_of_add_le (by decide)]
@[simp] theorem packV3_12_8 (d : BitVec 10) (a : BitVec 10) (b : BitVec 10) (p : BitVec 5) (ty : BitVec 5) : (packV3 d a b p ty).extractLsb' 12 8 = b.extractLsb' 2 8 := by
  show BitVec.extractLsb' 12 8 (d ++ a ++ b ++ p ++ ty : BitVec (10 + 10 + 10 + 5 + 5)) = b.extractLsb' 2 8
  rw [BitVec.extractLsb'_append_eq_of_le (by decide), BitVec.extractLsb'_append_eq_of_le (by decide), BitVec.extractLsb'_append_eq_of_add_le (by decide)]
@[simp] theorem packV3_10_1 (d : BitVec 10) (a : BitVec 10) (b : BitVec 10) (p : BitVec 5) (ty : BitVec 5) : (packV3 d a b p ty).extractLsb' 10 1 = b.extractLsb' 0 1 := by
  show BitVec.extractLsb' 10 1 (d ++ a ++ b ++ p ++ ty : BitVec (10 + 10 + 10 + 5 + 5)) = b.extractLsb' 0 1
  rw [BitVec.extractLsb'_append_eq_of_le (by decide), BitVec.extractLsb'_append_eq_of_le (by decide), BitVec.extractLsb'_append_eq_of_add_le (by decide)]
@[simp] theorem packV3_11_1 (d : BitVec 10) (a : BitVec 10) (b : BitVec 10) (p : BitVec 5) (ty : BitVec 5) : (packV3 d a b p ty).extractLsb' 11 1 = b.extractLsb' 1 1 := by
  show BitVec.extractLsb' 11 1 (d ++ a ++ b ++ p ++ ty : BitVec (10 + 10 + 10 + 5 + 5)) = b.extractLsb' 1 1
  rw [BitVec.extractLsb'_append_eq_of_le (by decide), BitVec.extractLsb'_append_eq_of_le (by decide), BitVec.extractLsb'_append_eq_of_add_le (by decide)]
@[simp] theorem packV3_15_5 (d : BitVec 10) (a : BitVec 10) (b : BitVec 10) (p : BitVec 5) (ty : BitVec 5) : (packV3 d a b p ty).extractLsb' 15 5 = b.extractLsb' 5 5 := by
  show BitVec.extractLsb' 15 5 (d ++ a ++ b ++ p ++ ty : BitVec (10 + 10 + 10 + 5 + 5)) = b.extractLsb' 5 5
  rw [BitVec.extractLsb'_append_eq_of_le (by decide), BitVec.extractLsb'_append_eq_of_le (by decide), BitVec.extractLsb'_append_eq_of_add_le (by decide)]
@[simp] theorem packV3_10_5 (d : BitVec 10) (a : BitVec 10) (b : BitVec 10) (p : BitVec 5) (ty : BitVec 5) : (packV3 d a b p ty).extractLsb' 10 5 = b.extractLsb' 0 5 := by
  show BitVec.extractLsb' 10 5 (d ++ a ++ b ++ p ++ ty : BitVec (10 + 10 + 10 + 5 + 5)) = b.extractLsb' 0 5
  rw [BitVec.extractLsb'_append_eq_of_le (by decide), BitVec.extractLsb'_append_eq_of_le (by decide), BitVec.extractLsb'_append_eq_of_add_le (by decide)]
@[simp] theorem packPI_37_3 (pd : BitVec 3) (n : BitVec 13) (w : BitVec 2) (g : BitVec 3) : (packPI pd n w g).extractLsb' 37 3 = pd := by
  show BitVec.extractLsb' 37 3 (pd ++ n ++ w ++ g ++ 0#19 : BitVec (3 + 13 + 2 + 3 + 19)) = pd
  rw [BitVec.extractLsb'_append_eq_of_le (by decide), BitVec.extractLsb'_append_eq_of_le (by decide), BitVec.extractLsb'_append_eq_of_le (by decide), BitVec.extractLsb'_append_eq_of_le (by decide)]
  exact BitVec.extractLsb'_eq_self
@[simp] theorem packPI_24_13 (pd : BitVec 3) (n : BitVec 13) (w : BitVec 2) (g : BitVec 3) : (packPI pd n w g).extractLsb' 24 13 = n := by
  show BitVec.extractLsb' 24 13 (pd ++ n ++ w ++ g ++ 0#19 : BitVec (3 + 13 + 2 + 3 + 19)) = n
  rw [BitVec.extractLsb'_append_eq_of_le (by decide), BitVec.extractLsb'_append_eq_of_le (by decide), BitVec.extractLsb'_append_eq_of_le (by decide), BitVec.extractLsb'_append_eq_of_add_le (by decide)]
  exact BitVec.extractLsb'_eq_self
@[simp] theorem packPI_22_2 (pd : BitVec 3) (n : BitVec 13) (w : BitVec 2) (g : BitVec 3) : (packPI pd n w g).extractLsb' 22 2 = w := by
  show BitVec.extractLsb' 22 2 (pd ++ n ++ w ++ g ++ 0#19 : BitVec (3 + 13 + 2 + 3 + 19)) = w
  rw [BitVec.extractLsb'_append_eq_of_le (by decide), BitVec.extractLsb'_append_eq_of_le (by decide), BitVec.extractLsb'_append_eq_of_add_le (by decide)]
  exact BitVec.extractLsb'_eq_self
@[simp] theorem packPI_19_3 (pd : BitVec 3) (n : BitVec 13) (w : BitVec 2) (g : BitVec 3) : (packPI pd n w g).extractLsb' 19 3 = g := by
  show BitVec.extractLsb' 19 3 (pd ++ n ++ w ++ g ++ 0#19 : BitVec (3 + 13 + 2 + 3 + 19)) = g
  rw [BitVec.extractLsb'_append_eq_of_le (by decide), BitVec.extractLsb'_append_eq_of_add_le (by decide)]
  exact BitVec.extractLsb'_eq_self
@[simp] theorem packPI_0_19 (pd : BitVec 3) (n : BitVec 13) (w : BitVec 2) (g : BitVec 3) : (packPI pd n w g).extractLsb' 0 19 = 0#19 := by
  show BitVec.extractLsb' 0 19 (pd ++ n ++ w ++ g ++ 0#19 : BitVec (3 + 13 + 2 + 3 + 19)) = 0#19
  rw [BitVec.extractLsb'_append_eq_of_add_le (by decide)]
  exact BitVec.extractLsb'_eq_self
@[simp] theorem packM_34_6 (t : BitVec 6) (x : BitVec 2) (a : BitVec 32) : (packM t x a).extractLsb' 34 6 = t := by
  show BitVec.extractLsb' 34 6 (t ++ x ++ a : BitVec (6 + 2 + 32)) = t
  rw [BitVec.extractLsb'_append_eq_of_le (by decide), BitVec.extractLsb'_append_eq_of_le (by decide)]
  exact BitVec.extractLsb'_eq_self
@[simp] theorem packM_32_2 (t : BitVec 6) (x : BitVec 2) (a : BitVec 32) : (packM t x a).extractLsb' 32 2 = x := by
  show BitVec.extractLsb' 32 2 (t ++ x ++ a : BitVec (6 + 2 + 32)) = x
  rw [BitVec.extractLsb'_append_eq_of_le (by decide), BitVec.extractLsb'_append_eq_of_add_le (by decide)]
  exact BitVec.extractLsb'_eq_self
@[simp] theorem packM_0_32 (t : BitVec 6) (x : BitVec 2) (a : BitVec 32) : (packM t x a).extractLsb' 0 32 = a := by
  show BitVec.extractLsb' 0 32 (t ++ x ++ a : BitVec (6 + 2 + 32)) = a
  rw [BitVec.extractLsb'_append_eq_of_add_le (by decide)]
  exact BitVec.extractLsb'_eq_self
@[simp] theorem packM_32_1 (t : BitVec 6) (x : BitVec 2) (a : BitVec 32) : (packM t x a).extractLsb' 32 1 = x.extractLsb' 0 1 := by
  show BitVec.extractLsb' 32 1 (t ++ x ++ a : BitVec (6 + 2 + 32)) = x.extractLsb' 0 1
  rw [BitVec.extractLsb'_append_eq_of_le (by decide), BitVec.extractLsb'_append_eq_of_add_le (by decide)]
@[simp] theorem packM_33_1 (t : BitVec 6) (x : BitVec 2) (a : BitVec 32) : (packM t x a).extractLsb' 33 1 = x.extractLsb' 1 1 := by
  show BitVec.extractLsb' 33 1 (t ++ x ++ a : BitVec (6 + 2 + 32)) = x.extractLsb' 1 1
  rw [BitVec.extractLsb'_append_eq_of_le (by decide), BitVec.extractLsb'_append_eq_of_add_le (by decide)]
@[simp] theorem packMV_30_10 (v : BitVec 10) (t : BitVec 6) (rb : BitVec 3) (ch : BitVec 1) (p : BitVec 5) : (packMV v t rb ch p).extractLsb' 30 10 = v := by
  show BitVec.extractLsb' 30 10 (v ++ t ++ rb ++ ch ++ 0#10 ++ p ++ 0#5 : BitVec (10 + 6 + 3 + 1 + 10 + 5 + 5)) = v
  rw [BitVec.extractLsb'_append_eq_of_le (by decide), BitVec.extractLsb'_append_eq_of_le (by decide), BitVec.extractLsb'_append_eq_of_le (by decide), BitVec.extractLsb'_append_eq_of_le (by decide), BitVec.extractLsb'_append_eq_of_le (by decide), BitVec.extractLsb'_append_eq_of_le (by decide)]
  exact BitVec.extractLsb'_eq_self
@[simp] theorem packMV_24_6 (v : BitVec 10) (t : BitVec 6) (rb : BitVec 3) (ch : BitVec 1) (p : BitVec 5) : (packMV v t rb ch p).extractLsb' 24 6 = t := by
  show BitVec.extractLsb' 24 6 (v ++ t ++ rb ++ ch ++ 0#10 ++ p ++ 0#5 : BitVec (10 + 6 + 3 + 1 + 10 + 5 + 5)) = t
  rw [BitVec.extractLsb'_append_eq_of_le (by decide), BitVec.extractLsb'_append_eq_of_le (by decide), BitVec.extractLsb'_append_eq_of_le (by decide), BitVec.extractLsb'_append_eq_of_le (by decide), BitVec.extractLsb'_append_eq_of_le (by decide), BitVec.extractLsb'_append_eq_of_add_le (by decide)]
  exact BitVec.extractLsb'_eq_self
@[simp] theorem packMV_21_3 (v : BitVec 10) (t : BitVec 6) (rb : BitVec 3) (ch : BitVec 1) (p : BitVec 5) : (packMV v t rb ch p).extractLsb' 21 3 = rb := by
  show BitVec.extractLsb' 21 3 (v ++ t ++ rb ++ ch ++ 0#10 ++ p ++ 0#5 : BitVec (10 + 6 + 3 + 1 + 10 + 5 + 5)) = rb
  rw [BitVec.extractLsb'_append_eq_of_le (by decide), BitVec.extractLsb'_append_eq_of_le (by decide), BitVec.extractLsb'_append_eq_of_le (by decide), BitVec.extractLsb'_append_eq_of_le (by decide), BitVec.extractLsb'_append_eq_of_add_le (by decide)]
  exact BitVec.extractLsb'_eq_self
@[simp] theorem packMV_20_1 (v : BitVec 10) (t : BitVec 6) (rb : BitVec 3) (ch : BitVec 1) (p : BitVec 5) : (packMV v t rb ch p).extractLsb' 20 1 = ch := by
  show BitVec.extractLsb' 20 1 (v ++ t ++ rb ++ ch ++ 0#10 ++ p ++ 0#5 : BitVec (10 + 6 + 3 + 1 + 10 + 5 + 5)) = ch
  rw [BitVec.extractLsb'_append_eq_of_le (by decide), BitVec.extractLsb'_append_eq_of_le (by decide), BitVec.extractLsb'_append_eq_of_le (by decide), BitVec.extractLsb'_append_eq_of_add_le (by decide)]
  exact BitVec.extractLsb'_eq_self
@[simp] theorem packMV_10_10 (v : BitVec 10) (t : BitVec 6) (rb : BitVec 3) (ch : BitVec 1) (p : BitVec 5) : (packMV v t rb ch p).extractLsb' 10 10 = 0#10 := by
  show BitVec.extractLsb' 10 10 (v ++ t ++ rb ++ ch ++ 0#10 ++ p ++ 0#5 : BitVec (10 + 6 + 3 + 1 + 10 + 5 + 5)) = 0#10
  rw [BitVec.extractLsb'_append_eq_of_le (by decide), BitVec.extractLsb'_append_eq_of_le (by decide), BitVec.extractLsb'_append_eq_of_add_le (by decide)]
  exact BitVec.extractLsb'_eq_self
@[simp] theorem packMV_5_5 (v : BitVec 10) (t : BitVec 6) (rb : BitVec 3) (ch : BitVec 1) (p : BitVec 5) : (packMV v t rb ch p).extractLsb' 5 5 = p := by
  show BitVec.extractLsb' 5 5 (v ++ t ++ rb ++ ch ++ 0#10 ++ p ++ 0#5 : BitVec (10 + 6 + 3 + 1 + 10 + 5 + 5)) = p
  rw [BitVec.extractLsb'_append_eq_of_le (by decide), BitVec.extractLsb'_append_eq_of_add_le (by decide)]
  exact BitVec.extractLsb'_eq_self
@[simp] theorem packMV_0_5 (v : BitVec 10) (t : BitVec 6) (rb : BitVec 3) (ch : BitVec 1) (p : BitVec 5) : (packMV v t rb ch p).extractLsb' 0 5 = 0#5 := by
  show BitVec.extractLsb' 0 5 (v ++ t ++ rb ++ ch ++ 0#10 ++ p ++ 0#5 : BitVec (10 + 6 + 3 + 1 + 10 + 5 + 5)) = 0#5
  rw [BitVec.extractLsb'_append_eq_of_add_le (by decide)]
  exact BitVec.extractLsb'_eq_self
@[simp] theorem packRG_36_4 (rg : BitVec 4) (a : BitVec 6) (b : BitVec 6) : (packRG rg a b).extractLsb' 36 4 = rg := by
  show BitVec.extractLsb' 36 4 (rg ++ a ++ b ++ 0#24 : BitVec (4 + 6 + 6 + 24)) = rg
  rw [BitVec.extractLsb'_append_eq_of_le (by decide), BitVec.extractLsb'_append_eq_of_le (by decide), BitVec.extractLsb'_append_eq_of_le (by decide)]
  exact BitVec.extractLsb'_eq_self
@[simp] theorem packRG_30_6 (rg : BitVec 4) (a : BitVec 6) (b : BitVec 6) : (packRG rg a b).extractLsb' 30 6 = a := by
  show BitVec.extractLsb' 30 6 (rg ++ a ++ b ++ 0#24 : BitVec (4 + 6 + 6 + 24)) = a
  rw [BitVec.extractLsb'_append_eq_of_le (by decide), BitVec.extractLsb'_append_eq_of_le (by decide), BitVec.extractLsb'_append_eq_of_add_le (by decide)]
  exact BitVec.extractLsb'_eq_self
@[simp] theorem packRG_24_6 (rg : BitVec 4) (a : BitVec 6) (b : BitVec 6) : (packRG rg a b).extractLsb' 24 6 = b := by
  show BitVec.extractLsb' 24 6 (rg ++ a ++ b ++ 0#24 : BitVec (4 + 6 + 6 + 24)) = b
  rw [BitVec.extractLsb'_append_eq_of_le (by decide), BitVec.extractLsb'_append_eq_of_add_le (by decide)]
  exact BitVec.extractLsb'_eq_self
@[simp] theorem packRG_0_24 (rg : BitVec 4) (a : BitVec 6) (b : BitVec 6) : (packRG rg a b).extractLsb' 0 24 = 0#24 := by
  show BitVec.extractLsb' 0 24 (rg ++ a ++ b ++ 0#24 : BitVec (4 + 6 + 6 + 24)) = 0#24
  rw [BitVec.extractLsb'_append_eq_of_add_le (by decide)]
  exact BitVec.extractLsb'_eq_self
@[simp] theorem packMEM_34_6 (r : BitVec 6) (base : BitVec 5) (idx : BitVec 5) (off : BitVec 24) : (packMEM r base idx off).extractLsb' 34 6 = r := by
  show BitVec.extractLsb' 34 6 (r ++ base ++ idx ++ off : BitVec (6 + 5 + 5 + 24)) = r
  rw [BitVec.extractLsb'_append_eq_of_le (by decide), BitVec.extractLsb'_append_eq_of_le (by decide), BitVec.extractLsb'_append_eq_of_le (by decide)]
  exact BitVec.extractLsb'_eq_self
@[simp] theorem packMEM_29_5 (r : BitVec 6) (base : BitVec 5) (idx : BitVec 5) (off : BitVec 24) : (packMEM r base idx off).extractLsb' 29 5 = base := by
  show BitVec.extractLsb' 29 5 (r ++ base ++ idx ++ off : BitVec (6 + 5 + 5 + 24)) = base
  rw [BitVec.extractLsb'_append_eq_of_le (by decide), BitVec.extractLsb'_append_eq_of_le (by decide), BitVec.extractLsb'_append_eq_of_add_le (by decide)]
  exact BitVec.extractLsb'_eq_self
@[simp] theorem packMEM_24_5 (r : BitVec 6) (base : BitVec 5) (idx : BitVec 5) (off : BitVec 24) : (packMEM r base idx off).extractLsb' 24 5 = idx := by
  show BitVec.extractLsb' 24 5 (r ++ base ++ idx ++ off : BitVec (6 + 5 + 5 + 24)) = idx
  rw [BitVec.extractLsb'_append_eq_of_le (by decide), BitVec.extractLsb'_append_eq_of_add_le (by decide)]
  exact BitVec.extractLsb'_eq_self
@[simp] theorem packMEM_0_24 (r : BitVec 6) (base : BitVec 5) (idx : BitVec 5) (off : BitVec 24) : (packMEM r base idx off).extractLsb' 0 24 = off := by
  show BitVec.extractLsb' 0 24 (r ++ base ++ idx ++ off : BitVec (6 + 5 + 5 + 24)) = off
  rw [BitVec.extractLsb'_append_eq_of_add_le (by decide)]
  exact BitVec.extractLsb'_eq_self
@[simp] theorem packMEM_0_4 (r : BitVec 6) (base : BitVec 5) (idx : BitVec 5) (off : BitVec 24) : (packMEM r base idx off).extractLsb' 0 4 = off.extractLsb' 0 4 := by
  show BitVec.extractLsb' 0 4 (r ++ base ++ idx ++ off : BitVec (6 + 5 + 5 + 24)) = off.extractLsb' 0 4
  rw [BitVec.extractLsb'_append_eq_of_add_le (by decide)]
@[simp] theorem packMEM_4_1 (r : BitVec 6) (base : BitVec 5) (idx : BitVec 5) (off : BitVec 24) : (packMEM r base idx off).extractLsb' 4 1 = off.extractLsb' 4 1 := by
  show BitVec.extractLsb' 4 1 (r ++ base ++ idx ++ off : BitVec (6 + 5 + 5 + 24)) = off.extractLsb' 4 1
  rw [BitVec.extractLsb'_append_eq_of_add_le (by decide)]
@[simp] theorem packMEM_5_19 (r : BitVec 6) (base : BitVec 5) (idx : BitVec 5) (off : BitVec 24) : (packMEM r base idx off).extractLsb' 5 19 = off.extractLsb' 5 19 := by
  show BitVec.extractLsb' 5 19 (r ++ base ++ idx ++ off : BitVec (6 + 5 + 5 + 24)) = off.extractLsb' 5 19
  rw [BitVec.extractLsb'_append_eq_of_add_le (by decide)]
@[simp] theorem packTK_34_6 (d : BitVec 6) (a : BitVec 6) (b : BitVec 6) (c : BitVec 6) (scope : BitVec 3) (ord : BitVec 2) (k : BitVec 11) : (packTK d a b c scope ord k).extractLsb' 34 6 = d := by
  show BitVec.extractLsb' 34 6 (d ++ a ++ b ++ c ++ scope ++ ord ++ k : BitVec (6 + 6 + 6 + 6 + 3 + 2 + 11)) = d
  rw [BitVec.extractLsb'_append_eq_of_le (by decide), BitVec.extractLsb'_append_eq_of_le (by decide), BitVec.extractLsb'_append_eq_of_le (by decide), BitVec.extractLsb'_append_eq_of_le (by decide), BitVec.extractLsb'_append_eq_of_le (by decide), BitVec.extractLsb'_append_eq_of_le (by decide)]
  exact BitVec.extractLsb'_eq_self
@[simp] theorem packTK_28_6 (d : BitVec 6) (a : BitVec 6) (b : BitVec 6) (c : BitVec 6) (scope : BitVec 3) (ord : BitVec 2) (k : BitVec 11) : (packTK d a b c scope ord k).extractLsb' 28 6 = a := by
  show BitVec.extractLsb' 28 6 (d ++ a ++ b ++ c ++ scope ++ ord ++ k : BitVec (6 + 6 + 6 + 6 + 3 + 2 + 11)) = a
  rw [BitVec.extractLsb'_append_eq_of_le (by decide), BitVec.extractLsb'_append_eq_of_le (by decide), BitVec.extractLsb'_append_eq_of_le (by decide), BitVec.extractLsb'_append_eq_of_le (by decide), BitVec.extractLsb'_append_eq_of_le (by decide), BitVec.extractLsb'_append_eq_of_add_le (by decide)]
  exact BitVec.extractLsb'_eq_self
@[simp] theorem packTK_22_6 (d : BitVec 6) (a : BitVec 6) (b : BitVec 6) (c : BitVec 6) (scope : BitVec 3) (ord : BitVec 2) (k : BitVec 11) : (packTK d a b c scope ord k).extractLsb' 22 6 = b := by
  show BitVec.extractLsb' 22 6 (d ++ a ++ b ++ c ++ scope ++ ord ++ k : BitVec (6 + 6 + 6 + 6 + 3 + 2 + 11)) = b
  rw [BitVec.extractLsb'_append_eq_of_le (by decide), BitVec.extractLsb'_append_eq_of_le (by decide), BitVec.extractLsb'_append_eq_of_le (by decide), BitVec.extractLsb'_append_eq_of_le (by decide), BitVec.extractLsb'_append_eq_of_add_le (by decide)]
  exact BitVec.extractLsb'_eq_self
@[simp] theorem packTK_16_6 (d : BitVec 6) (a : BitVec 6) (b : BitVec 6) (c : BitVec 6) (scope : BitVec 3) (ord : BitVec 2) (k : BitVec 11) : (packTK d a b c scope ord k).extractLsb' 16 6 = c := by
  show BitVec.extractLsb' 16 6 (d ++ a ++ b ++ c ++ scope ++ ord ++ k : BitVec (6 + 6 + 6 + 6 + 3 + 2 + 11)) = c
  rw [BitVec.extractLsb'_append_eq_of_le (by decide), BitVec.extractLsb'_append_eq_of_le (by decide), BitVec.extractLsb'_append_eq_of_le (by decide), BitVec.extractLsb'_append_eq_of_add_le (by decide)]
  exact BitVec.extractLsb'_eq_self
@[simp] theorem packTK_13_3 (d : BitVec 6) (a : BitVec 6) (b : BitVec 6) (c : BitVec 6) (scope : BitVec 3) (ord : BitVec 2) (k : BitVec 11) : (packTK d a b c scope ord k).extractLsb' 13 3 = scope := by
  show BitVec.extractLsb' 13 3 (d ++ a ++ b ++ c ++ scope ++ ord ++ k : BitVec (6 + 6 + 6 + 6 + 3 + 2 + 11)) = scope
  rw [BitVec.extractLsb'_append_eq_of_le (by decide), BitVec.extractLsb'_append_eq_of_le (by decide), BitVec.extractLsb'_append_eq_of_add_le (by decide)]
  exact BitVec.extractLsb'_eq_self
@[simp] theorem packTK_11_2 (d : BitVec 6) (a : BitVec 6) (b : BitVec 6) (c : BitVec 6) (scope : BitVec 3) (ord : BitVec 2) (k : BitVec 11) : (packTK d a b c scope ord k).extractLsb' 11 2 = ord := by
  show BitVec.extractLsb' 11 2 (d ++ a ++ b ++ c ++ scope ++ ord ++ k : BitVec (6 + 6 + 6 + 6 + 3 + 2 + 11)) = ord
  rw [BitVec.extractLsb'_append_eq_of_le (by decide), BitVec.extractLsb'_append_eq_of_add_le (by decide)]
  exact BitVec.extractLsb'_eq_self
@[simp] theorem packTK_0_11 (d : BitVec 6) (a : BitVec 6) (b : BitVec 6) (c : BitVec 6) (scope : BitVec 3) (ord : BitVec 2) (k : BitVec 11) : (packTK d a b c scope ord k).extractLsb' 0 11 = k := by
  show BitVec.extractLsb' 0 11 (d ++ a ++ b ++ c ++ scope ++ ord ++ k : BitVec (6 + 6 + 6 + 6 + 3 + 2 + 11)) = k
  rw [BitVec.extractLsb'_append_eq_of_add_le (by decide)]
  exact BitVec.extractLsb'_eq_self
@[simp] theorem packTK_0_6 (d : BitVec 6) (a : BitVec 6) (b : BitVec 6) (c : BitVec 6) (scope : BitVec 3) (ord : BitVec 2) (k : BitVec 11) : (packTK d a b c scope ord k).extractLsb' 0 6 = k.extractLsb' 0 6 := by
  show BitVec.extractLsb' 0 6 (d ++ a ++ b ++ c ++ scope ++ ord ++ k : BitVec (6 + 6 + 6 + 6 + 3 + 2 + 11)) = k.extractLsb' 0 6
  rw [BitVec.extractLsb'_append_eq_of_add_le (by decide)]
@[simp] theorem packTK_6_1 (d : BitVec 6) (a : BitVec 6) (b : BitVec 6) (c : BitVec 6) (scope : BitVec 3) (ord : BitVec 2) (k : BitVec 11) : (packTK d a b c scope ord k).extractLsb' 6 1 = k.extractLsb' 6 1 := by
  show BitVec.extractLsb' 6 1 (d ++ a ++ b ++ c ++ scope ++ ord ++ k : BitVec (6 + 6 + 6 + 6 + 3 + 2 + 11)) = k.extractLsb' 6 1
  rw [BitVec.extractLsb'_append_eq_of_add_le (by decide)]
@[simp] theorem packTK_7_1 (d : BitVec 6) (a : BitVec 6) (b : BitVec 6) (c : BitVec 6) (scope : BitVec 3) (ord : BitVec 2) (k : BitVec 11) : (packTK d a b c scope ord k).extractLsb' 7 1 = k.extractLsb' 7 1 := by
  show BitVec.extractLsb' 7 1 (d ++ a ++ b ++ c ++ scope ++ ord ++ k : BitVec (6 + 6 + 6 + 6 + 3 + 2 + 11)) = k.extractLsb' 7 1
  rw [BitVec.extractLsb'_append_eq_of_add_le (by decide)]
@[simp] theorem packTK_8_1 (d : BitVec 6) (a : BitVec 6) (b : BitVec 6) (c : BitVec 6) (scope : BitVec 3) (ord : BitVec 2) (k : BitVec 11) : (packTK d a b c scope ord k).extractLsb' 8 1 = k.extractLsb' 8 1 := by
  show BitVec.extractLsb' 8 1 (d ++ a ++ b ++ c ++ scope ++ ord ++ k : BitVec (6 + 6 + 6 + 6 + 3 + 2 + 11)) = k.extractLsb' 8 1
  rw [BitVec.extractLsb'_append_eq_of_add_le (by decide)]
@[simp] theorem packTK_9_2 (d : BitVec 6) (a : BitVec 6) (b : BitVec 6) (c : BitVec 6) (scope : BitVec 3) (ord : BitVec 2) (k : BitVec 11) : (packTK d a b c scope ord k).extractLsb' 9 2 = k.extractLsb' 9 2 := by
  show BitVec.extractLsb' 9 2 (d ++ a ++ b ++ c ++ scope ++ ord ++ k : BitVec (6 + 6 + 6 + 6 + 3 + 2 + 11)) = k.extractLsb' 9 2
  rw [BitVec.extractLsb'_append_eq_of_add_le (by decide)]
@[simp] theorem packTK_0_8 (d : BitVec 6) (a : BitVec 6) (b : BitVec 6) (c : BitVec 6) (scope : BitVec 3) (ord : BitVec 2) (k : BitVec 11) : (packTK d a b c scope ord k).extractLsb' 0 8 = k.extractLsb' 0 8 := by
  show BitVec.extractLsb' 0 8 (d ++ a ++ b ++ c ++ scope ++ ord ++ k : BitVec (6 + 6 + 6 + 6 + 3 + 2 + 11)) = k.extractLsb' 0 8
  rw [BitVec.extractLsb'_append_eq_of_add_le (by decide)]
@[simp] theorem packTK_8_3 (d : BitVec 6) (a : BitVec 6) (b : BitVec 6) (c : BitVec 6) (scope : BitVec 3) (ord : BitVec 2) (k : BitVec 11) : (packTK d a b c scope ord k).extractLsb' 8 3 = k.extractLsb' 8 3 := by
  show BitVec.extractLsb' 8 3 (d ++ a ++ b ++ c ++ scope ++ ord ++ k : BitVec (6 + 6 + 6 + 6 + 3 + 2 + 11)) = k.extractLsb' 8 3
  rw [BitVec.extractLsb'_append_eq_of_add_le (by decide)]
@[simp] theorem packTK_0_1 (d : BitVec 6) (a : BitVec 6) (b : BitVec 6) (c : BitVec 6) (scope : BitVec 3) (ord : BitVec 2) (k : BitVec 11) : (packTK d a b c scope ord k).extractLsb' 0 1 = k.extractLsb' 0 1 := by
  show BitVec.extractLsb' 0 1 (d ++ a ++ b ++ c ++ scope ++ ord ++ k : BitVec (6 + 6 + 6 + 6 + 3 + 2 + 11)) = k.extractLsb' 0 1
  rw [BitVec.extractLsb'_append_eq_of_add_le (by decide)]
@[simp] theorem packTK_1_10 (d : BitVec 6) (a : BitVec 6) (b : BitVec 6) (c : BitVec 6) (scope : BitVec 3) (ord : BitVec 2) (k : BitVec 11) : (packTK d a b c scope ord k).extractLsb' 1 10 = k.extractLsb' 1 10 := by
  show BitVec.extractLsb' 1 10 (d ++ a ++ b ++ c ++ scope ++ ord ++ k : BitVec (6 + 6 + 6 + 6 + 3 + 2 + 11)) = k.extractLsb' 1 10
  rw [BitVec.extractLsb'_append_eq_of_add_le (by decide)]
@[simp] theorem packTK_0_4 (d : BitVec 6) (a : BitVec 6) (b : BitVec 6) (c : BitVec 6) (scope : BitVec 3) (ord : BitVec 2) (k : BitVec 11) : (packTK d a b c scope ord k).extractLsb' 0 4 = k.extractLsb' 0 4 := by
  show BitVec.extractLsb' 0 4 (d ++ a ++ b ++ c ++ scope ++ ord ++ k : BitVec (6 + 6 + 6 + 6 + 3 + 2 + 11)) = k.extractLsb' 0 4
  rw [BitVec.extractLsb'_append_eq_of_add_le (by decide)]
@[simp] theorem packTK_4_2 (d : BitVec 6) (a : BitVec 6) (b : BitVec 6) (c : BitVec 6) (scope : BitVec 3) (ord : BitVec 2) (k : BitVec 11) : (packTK d a b c scope ord k).extractLsb' 4 2 = k.extractLsb' 4 2 := by
  show BitVec.extractLsb' 4 2 (d ++ a ++ b ++ c ++ scope ++ ord ++ k : BitVec (6 + 6 + 6 + 6 + 3 + 2 + 11)) = k.extractLsb' 4 2
  rw [BitVec.extractLsb'_append_eq_of_add_le (by decide)]
@[simp] theorem packTK_7_4 (d : BitVec 6) (a : BitVec 6) (b : BitVec 6) (c : BitVec 6) (scope : BitVec 3) (ord : BitVec 2) (k : BitVec 11) : (packTK d a b c scope ord k).extractLsb' 7 4 = k.extractLsb' 7 4 := by
  show BitVec.extractLsb' 7 4 (d ++ a ++ b ++ c ++ scope ++ ord ++ k : BitVec (6 + 6 + 6 + 6 + 3 + 2 + 11)) = k.extractLsb' 7 4
  rw [BitVec.extractLsb'_append_eq_of_add_le (by decide)]
@[simp] theorem packTK_6_5 (d : BitVec 6) (a : BitVec 6) (b : BitVec 6) (c : BitVec 6) (scope : BitVec 3) (ord : BitVec 2) (k : BitVec 11) : (packTK d a b c scope ord k).extractLsb' 6 5 = k.extractLsb' 6 5 := by
  show BitVec.extractLsb' 6 5 (d ++ a ++ b ++ c ++ scope ++ ord ++ k : BitVec (6 + 6 + 6 + 6 + 3 + 2 + 11)) = k.extractLsb' 6 5
  rw [BitVec.extractLsb'_append_eq_of_add_le (by decide)]
@[simp] theorem packTK_1_1 (d : BitVec 6) (a : BitVec 6) (b : BitVec 6) (c : BitVec 6) (scope : BitVec 3) (ord : BitVec 2) (k : BitVec 11) : (packTK d a b c scope ord k).extractLsb' 1 1 = k.extractLsb' 1 1 := by
  show BitVec.extractLsb' 1 1 (d ++ a ++ b ++ c ++ scope ++ ord ++ k : BitVec (6 + 6 + 6 + 6 + 3 + 2 + 11)) = k.extractLsb' 1 1
  rw [BitVec.extractLsb'_append_eq_of_add_le (by decide)]
@[simp] theorem packTK_2_9 (d : BitVec 6) (a : BitVec 6) (b : BitVec 6) (c : BitVec 6) (scope : BitVec 3) (ord : BitVec 2) (k : BitVec 11) : (packTK d a b c scope ord k).extractLsb' 2 9 = k.extractLsb' 2 9 := by
  show BitVec.extractLsb' 2 9 (d ++ a ++ b ++ c ++ scope ++ ord ++ k : BitVec (6 + 6 + 6 + 6 + 3 + 2 + 11)) = k.extractLsb' 2 9
  rw [BitVec.extractLsb'_append_eq_of_add_le (by decide)]
@[simp] theorem packTK_0_2 (d : BitVec 6) (a : BitVec 6) (b : BitVec 6) (c : BitVec 6) (scope : BitVec 3) (ord : BitVec 2) (k : BitVec 11) : (packTK d a b c scope ord k).extractLsb' 0 2 = k.extractLsb' 0 2 := by
  show BitVec.extractLsb' 0 2 (d ++ a ++ b ++ c ++ scope ++ ord ++ k : BitVec (6 + 6 + 6 + 6 + 3 + 2 + 11)) = k.extractLsb' 0 2
  rw [BitVec.extractLsb'_append_eq_of_add_le (by decide)]
@[simp] theorem packTK_2_6 (d : BitVec 6) (a : BitVec 6) (b : BitVec 6) (c : BitVec 6) (scope : BitVec 3) (ord : BitVec 2) (k : BitVec 11) : (packTK d a b c scope ord k).extractLsb' 2 6 = k.extractLsb' 2 6 := by
  show BitVec.extractLsb' 2 6 (d ++ a ++ b ++ c ++ scope ++ ord ++ k : BitVec (6 + 6 + 6 + 6 + 3 + 2 + 11)) = k.extractLsb' 2 6
  rw [BitVec.extractLsb'_append_eq_of_add_le (by decide)]
@[simp] theorem packTK_0_3 (d : BitVec 6) (a : BitVec 6) (b : BitVec 6) (c : BitVec 6) (scope : BitVec 3) (ord : BitVec 2) (k : BitVec 11) : (packTK d a b c scope ord k).extractLsb' 0 3 = k.extractLsb' 0 3 := by
  show BitVec.extractLsb' 0 3 (d ++ a ++ b ++ c ++ scope ++ ord ++ k : BitVec (6 + 6 + 6 + 6 + 3 + 2 + 11)) = k.extractLsb' 0 3
  rw [BitVec.extractLsb'_append_eq_of_add_le (by decide)]
@[simp] theorem packTK_3_8 (d : BitVec 6) (a : BitVec 6) (b : BitVec 6) (c : BitVec 6) (scope : BitVec 3) (ord : BitVec 2) (k : BitVec 11) : (packTK d a b c scope ord k).extractLsb' 3 8 = k.extractLsb' 3 8 := by
  show BitVec.extractLsb' 3 8 (d ++ a ++ b ++ c ++ scope ++ ord ++ k : BitVec (6 + 6 + 6 + 6 + 3 + 2 + 11)) = k.extractLsb' 3 8
  rw [BitVec.extractLsb'_append_eq_of_add_le (by decide)]
@[simp] theorem packTK_4_7 (d : BitVec 6) (a : BitVec 6) (b : BitVec 6) (c : BitVec 6) (scope : BitVec 3) (ord : BitVec 2) (k : BitVec 11) : (packTK d a b c scope ord k).extractLsb' 4 7 = k.extractLsb' 4 7 := by
  show BitVec.extractLsb' 4 7 (d ++ a ++ b ++ c ++ scope ++ ord ++ k : BitVec (6 + 6 + 6 + 6 + 3 + 2 + 11)) = k.extractLsb' 4 7
  rw [BitVec.extractLsb'_append_eq_of_add_le (by decide)]
@[simp] theorem packTK_3_1 (d : BitVec 6) (a : BitVec 6) (b : BitVec 6) (c : BitVec 6) (scope : BitVec 3) (ord : BitVec 2) (k : BitVec 11) : (packTK d a b c scope ord k).extractLsb' 3 1 = k.extractLsb' 3 1 := by
  show BitVec.extractLsb' 3 1 (d ++ a ++ b ++ c ++ scope ++ ord ++ k : BitVec (6 + 6 + 6 + 6 + 3 + 2 + 11)) = k.extractLsb' 3 1
  rw [BitVec.extractLsb'_append_eq_of_add_le (by decide)]

/-! ### Fields of an operand that holds several values -/

@[simp] theorem sub_c07_g3_3 (g : BitVec 3) : @BitVec.extractLsb' 10 3 7 (0#7 ++ g) = 0#7 := by
  show BitVec.extractLsb' 3 7 (0#7 ++ g : BitVec (7 + 3)) = 0#7
  rw [BitVec.extractLsb'_append_eq_of_le (by decide)]
  exact BitVec.extractLsb'_eq_self
@[simp] theorem sub_c07_g3_0 (g : BitVec 3) : @BitVec.extractLsb' 10 0 3 (0#7 ++ g) = g := by
  show BitVec.extractLsb' 0 3 (0#7 ++ g : BitVec (7 + 3)) = g
  rw [BitVec.extractLsb'_append_eq_of_add_le (by decide)]
  exact BitVec.extractLsb'_eq_self
@[simp] theorem sub_c03_w2_2 (w : BitVec 2) : @BitVec.extractLsb' 5 2 3 (0#3 ++ w) = 0#3 := by
  show BitVec.extractLsb' 2 3 (0#3 ++ w : BitVec (3 + 2)) = 0#3
  rw [BitVec.extractLsb'_append_eq_of_le (by decide)]
  exact BitVec.extractLsb'_eq_self
@[simp] theorem sub_c03_w2_0 (w : BitVec 2) : @BitVec.extractLsb' 5 0 2 (0#3 ++ w) = w := by
  show BitVec.extractLsb' 0 2 (0#3 ++ w : BitVec (3 + 2)) = w
  rw [BitVec.extractLsb'_append_eq_of_add_le (by decide)]
  exact BitVec.extractLsb'_eq_self
@[simp] theorem sub_c02_m8_8 (m : BitVec 8) : @BitVec.extractLsb' 10 8 2 (0#2 ++ m) = 0#2 := by
  show BitVec.extractLsb' 8 2 (0#2 ++ m : BitVec (2 + 8)) = 0#2
  rw [BitVec.extractLsb'_append_eq_of_le (by decide)]
  exact BitVec.extractLsb'_eq_self
@[simp] theorem sub_c02_m8_0 (m : BitVec 8) : @BitVec.extractLsb' 10 0 8 (0#2 ++ m) = m := by
  show BitVec.extractLsb' 0 8 (0#2 ++ m : BitVec (2 + 8)) = m
  rw [BitVec.extractLsb'_append_eq_of_add_le (by decide)]
  exact BitVec.extractLsb'_eq_self
@[simp] theorem sub_c08_rr1_bt1_2 (rr : BitVec 1) (bt : BitVec 1) : @BitVec.extractLsb' 10 2 8 (0#8 ++ rr ++ bt) = 0#8 := by
  show BitVec.extractLsb' 2 8 (0#8 ++ rr ++ bt : BitVec (8 + 1 + 1)) = 0#8
  rw [BitVec.extractLsb'_append_eq_of_le (by decide), BitVec.extractLsb'_append_eq_of_le (by decide)]
  exact BitVec.extractLsb'_eq_self
@[simp] theorem sub_c08_rr1_bt1_1 (rr : BitVec 1) (bt : BitVec 1) : @BitVec.extractLsb' 10 1 1 (0#8 ++ rr ++ bt) = rr := by
  show BitVec.extractLsb' 1 1 (0#8 ++ rr ++ bt : BitVec (8 + 1 + 1)) = rr
  rw [BitVec.extractLsb'_append_eq_of_le (by decide), BitVec.extractLsb'_append_eq_of_add_le (by decide)]
  exact BitVec.extractLsb'_eq_self
@[simp] theorem sub_c08_rr1_bt1_0 (rr : BitVec 1) (bt : BitVec 1) : @BitVec.extractLsb' 10 0 1 (0#8 ++ rr ++ bt) = bt := by
  show BitVec.extractLsb' 0 1 (0#8 ++ rr ++ bt : BitVec (8 + 1 + 1)) = bt
  rw [BitVec.extractLsb'_append_eq_of_add_le (by decide)]
  exact BitVec.extractLsb'_eq_self
@[simp] theorem sub_c05_m5_5 (m : BitVec 5) : @BitVec.extractLsb' 10 5 5 (0#5 ++ m) = 0#5 := by
  show BitVec.extractLsb' 5 5 (0#5 ++ m : BitVec (5 + 5)) = 0#5
  rw [BitVec.extractLsb'_append_eq_of_le (by decide)]
  exact BitVec.extractLsb'_eq_self
@[simp] theorem sub_c05_m5_0 (m : BitVec 5) : @BitVec.extractLsb' 10 0 5 (0#5 ++ m) = m := by
  show BitVec.extractLsb' 0 5 (0#5 ++ m : BitVec (5 + 5)) = m
  rw [BitVec.extractLsb'_append_eq_of_add_le (by decide)]
  exact BitVec.extractLsb'_eq_self
@[simp] theorem sub_c01_k1_1 (k : BitVec 1) : @BitVec.extractLsb' 2 1 1 (0#1 ++ k) = 0#1 := by
  show BitVec.extractLsb' 1 1 (0#1 ++ k : BitVec (1 + 1)) = 0#1
  rw [BitVec.extractLsb'_append_eq_of_le (by decide)]
  exact BitVec.extractLsb'_eq_self
@[simp] theorem sub_c01_k1_0 (k : BitVec 1) : @BitVec.extractLsb' 2 0 1 (0#1 ++ k) = k := by
  show BitVec.extractLsb' 0 1 (0#1 ++ k : BitVec (1 + 1)) = k
  rw [BitVec.extractLsb'_append_eq_of_add_le (by decide)]
  exact BitVec.extractLsb'_eq_self
@[simp] theorem sub_c11_k1_1 (k : BitVec 1) : @BitVec.extractLsb' 2 1 1 (1#1 ++ k) = 1#1 := by
  show BitVec.extractLsb' 1 1 (1#1 ++ k : BitVec (1 + 1)) = 1#1
  rw [BitVec.extractLsb'_append_eq_of_le (by decide)]
  exact BitVec.extractLsb'_eq_self
@[simp] theorem sub_c11_k1_0 (k : BitVec 1) : @BitVec.extractLsb' 2 0 1 (1#1 ++ k) = k := by
  show BitVec.extractLsb' 0 1 (1#1 ++ k : BitVec (1 + 1)) = k
  rw [BitVec.extractLsb'_append_eq_of_add_le (by decide)]
  exact BitVec.extractLsb'_eq_self
@[simp] theorem sub_c019_pop1_rg4_5 (pop : BitVec 1) (rg : BitVec 4) : @BitVec.extractLsb' 24 5 19 (0#19 ++ pop ++ rg) = 0#19 := by
  show BitVec.extractLsb' 5 19 (0#19 ++ pop ++ rg : BitVec (19 + 1 + 4)) = 0#19
  rw [BitVec.extractLsb'_append_eq_of_le (by decide), BitVec.extractLsb'_append_eq_of_le (by decide)]
  exact BitVec.extractLsb'_eq_self
@[simp] theorem sub_c019_pop1_rg4_4 (pop : BitVec 1) (rg : BitVec 4) : @BitVec.extractLsb' 24 4 1 (0#19 ++ pop ++ rg) = pop := by
  show BitVec.extractLsb' 4 1 (0#19 ++ pop ++ rg : BitVec (19 + 1 + 4)) = pop
  rw [BitVec.extractLsb'_append_eq_of_le (by decide), BitVec.extractLsb'_append_eq_of_add_le (by decide)]
  exact BitVec.extractLsb'_eq_self
@[simp] theorem sub_c019_pop1_rg4_0 (pop : BitVec 1) (rg : BitVec 4) : @BitVec.extractLsb' 24 0 4 (0#19 ++ pop ++ rg) = rg := by
  show BitVec.extractLsb' 0 4 (0#19 ++ pop ++ rg : BitVec (19 + 1 + 4)) = rg
  rw [BitVec.extractLsb'_append_eq_of_add_le (by decide)]
  exact BitVec.extractLsb'_eq_self
@[simp] theorem sub_c03_t8_8 (t : BitVec 8) : @BitVec.extractLsb' 11 8 3 (0#3 ++ t) = 0#3 := by
  show BitVec.extractLsb' 8 3 (0#3 ++ t : BitVec (3 + 8)) = 0#3
  rw [BitVec.extractLsb'_append_eq_of_le (by decide)]
  exact BitVec.extractLsb'_eq_self
@[simp] theorem sub_c03_t8_0 (t : BitVec 8) : @BitVec.extractLsb' 11 0 8 (0#3 ++ t) = t := by
  show BitVec.extractLsb' 0 8 (0#3 ++ t : BitVec (3 + 8)) = t
  rw [BitVec.extractLsb'_append_eq_of_add_le (by decide)]
  exact BitVec.extractLsb'_eq_self
@[simp] theorem sub_c02_ds1_ss1_sh1_tag6_9 (ds : BitVec 1) (ss : BitVec 1) (sh : BitVec 1) (tag : BitVec 6) : @BitVec.extractLsb' 11 9 2 (0#2 ++ ds ++ ss ++ sh ++ tag) = 0#2 := by
  show BitVec.extractLsb' 9 2 (0#2 ++ ds ++ ss ++ sh ++ tag : BitVec (2 + 1 + 1 + 1 + 6)) = 0#2
  rw [BitVec.extractLsb'_append_eq_of_le (by decide), BitVec.extractLsb'_append_eq_of_le (by decide), BitVec.extractLsb'_append_eq_of_le (by decide), BitVec.extractLsb'_append_eq_of_le (by decide)]
  exact BitVec.extractLsb'_eq_self
@[simp] theorem sub_c02_ds1_ss1_sh1_tag6_8 (ds : BitVec 1) (ss : BitVec 1) (sh : BitVec 1) (tag : BitVec 6) : @BitVec.extractLsb' 11 8 1 (0#2 ++ ds ++ ss ++ sh ++ tag) = ds := by
  show BitVec.extractLsb' 8 1 (0#2 ++ ds ++ ss ++ sh ++ tag : BitVec (2 + 1 + 1 + 1 + 6)) = ds
  rw [BitVec.extractLsb'_append_eq_of_le (by decide), BitVec.extractLsb'_append_eq_of_le (by decide), BitVec.extractLsb'_append_eq_of_le (by decide), BitVec.extractLsb'_append_eq_of_add_le (by decide)]
  exact BitVec.extractLsb'_eq_self
@[simp] theorem sub_c02_ds1_ss1_sh1_tag6_7 (ds : BitVec 1) (ss : BitVec 1) (sh : BitVec 1) (tag : BitVec 6) : @BitVec.extractLsb' 11 7 1 (0#2 ++ ds ++ ss ++ sh ++ tag) = ss := by
  show BitVec.extractLsb' 7 1 (0#2 ++ ds ++ ss ++ sh ++ tag : BitVec (2 + 1 + 1 + 1 + 6)) = ss
  rw [BitVec.extractLsb'_append_eq_of_le (by decide), BitVec.extractLsb'_append_eq_of_le (by decide), BitVec.extractLsb'_append_eq_of_add_le (by decide)]
  exact BitVec.extractLsb'_eq_self
@[simp] theorem sub_c02_ds1_ss1_sh1_tag6_6 (ds : BitVec 1) (ss : BitVec 1) (sh : BitVec 1) (tag : BitVec 6) : @BitVec.extractLsb' 11 6 1 (0#2 ++ ds ++ ss ++ sh ++ tag) = sh := by
  show BitVec.extractLsb' 6 1 (0#2 ++ ds ++ ss ++ sh ++ tag : BitVec (2 + 1 + 1 + 1 + 6)) = sh
  rw [BitVec.extractLsb'_append_eq_of_le (by decide), BitVec.extractLsb'_append_eq_of_add_le (by decide)]
  exact BitVec.extractLsb'_eq_self
@[simp] theorem sub_c02_ds1_ss1_sh1_tag6_0 (ds : BitVec 1) (ss : BitVec 1) (sh : BitVec 1) (tag : BitVec 6) : @BitVec.extractLsb' 11 0 6 (0#2 ++ ds ++ ss ++ sh ++ tag) = tag := by
  show BitVec.extractLsb' 0 6 (0#2 ++ ds ++ ss ++ sh ++ tag : BitVec (2 + 1 + 1 + 1 + 6)) = tag
  rw [BitVec.extractLsb'_append_eq_of_add_le (by decide)]
  exact BitVec.extractLsb'_eq_self
@[simp] theorem sub_c04_sp1_sz2_k4_7 (sp : BitVec 1) (sz : BitVec 2) (k : BitVec 4) : @BitVec.extractLsb' 11 7 4 (0#4 ++ sp ++ sz ++ k) = 0#4 := by
  show BitVec.extractLsb' 7 4 (0#4 ++ sp ++ sz ++ k : BitVec (4 + 1 + 2 + 4)) = 0#4
  rw [BitVec.extractLsb'_append_eq_of_le (by decide), BitVec.extractLsb'_append_eq_of_le (by decide), BitVec.extractLsb'_append_eq_of_le (by decide)]
  exact BitVec.extractLsb'_eq_self
@[simp] theorem sub_c04_sp1_sz2_k4_6 (sp : BitVec 1) (sz : BitVec 2) (k : BitVec 4) : @BitVec.extractLsb' 11 6 1 (0#4 ++ sp ++ sz ++ k) = sp := by
  show BitVec.extractLsb' 6 1 (0#4 ++ sp ++ sz ++ k : BitVec (4 + 1 + 2 + 4)) = sp
  rw [BitVec.extractLsb'_append_eq_of_le (by decide), BitVec.extractLsb'_append_eq_of_le (by decide), BitVec.extractLsb'_append_eq_of_add_le (by decide)]
  exact BitVec.extractLsb'_eq_self
@[simp] theorem sub_c04_sp1_sz2_k4_4 (sp : BitVec 1) (sz : BitVec 2) (k : BitVec 4) : @BitVec.extractLsb' 11 4 2 (0#4 ++ sp ++ sz ++ k) = sz := by
  show BitVec.extractLsb' 4 2 (0#4 ++ sp ++ sz ++ k : BitVec (4 + 1 + 2 + 4)) = sz
  rw [BitVec.extractLsb'_append_eq_of_le (by decide), BitVec.extractLsb'_append_eq_of_add_le (by decide)]
  exact BitVec.extractLsb'_eq_self
@[simp] theorem sub_c04_sp1_sz2_k4_0 (sp : BitVec 1) (sz : BitVec 2) (k : BitVec 4) : @BitVec.extractLsb' 11 0 4 (0#4 ++ sp ++ sz ++ k) = k := by
  show BitVec.extractLsb' 0 4 (0#4 ++ sp ++ sz ++ k : BitVec (4 + 1 + 2 + 4)) = k
  rw [BitVec.extractLsb'_append_eq_of_add_le (by decide)]
  exact BitVec.extractLsb'_eq_self
@[simp] theorem sub_c05_sz2_k4_6 (sz : BitVec 2) (k : BitVec 4) : @BitVec.extractLsb' 11 6 5 (0#5 ++ sz ++ k) = 0#5 := by
  show BitVec.extractLsb' 6 5 (0#5 ++ sz ++ k : BitVec (5 + 2 + 4)) = 0#5
  rw [BitVec.extractLsb'_append_eq_of_le (by decide), BitVec.extractLsb'_append_eq_of_le (by decide)]
  exact BitVec.extractLsb'_eq_self
@[simp] theorem sub_c05_sz2_k4_4 (sz : BitVec 2) (k : BitVec 4) : @BitVec.extractLsb' 11 4 2 (0#5 ++ sz ++ k) = sz := by
  show BitVec.extractLsb' 4 2 (0#5 ++ sz ++ k : BitVec (5 + 2 + 4)) = sz
  rw [BitVec.extractLsb'_append_eq_of_le (by decide), BitVec.extractLsb'_append_eq_of_add_le (by decide)]
  exact BitVec.extractLsb'_eq_self
@[simp] theorem sub_c05_sz2_k4_0 (sz : BitVec 2) (k : BitVec 4) : @BitVec.extractLsb' 11 0 4 (0#5 ++ sz ++ k) = k := by
  show BitVec.extractLsb' 0 4 (0#5 ++ sz ++ k : BitVec (5 + 2 + 4)) = k
  rw [BitVec.extractLsb'_append_eq_of_add_le (by decide)]
  exact BitVec.extractLsb'_eq_self
@[simp] theorem sub_c010_m1_1 (m : BitVec 1) : @BitVec.extractLsb' 11 1 10 (0#10 ++ m) = 0#10 := by
  show BitVec.extractLsb' 1 10 (0#10 ++ m : BitVec (10 + 1)) = 0#10
  rw [BitVec.extractLsb'_append_eq_of_le (by decide)]
  exact BitVec.extractLsb'_eq_self
@[simp] theorem sub_c010_m1_0 (m : BitVec 1) : @BitVec.extractLsb' 11 0 1 (0#10 ++ m) = m := by
  show BitVec.extractLsb' 0 1 (0#10 ++ m : BitVec (10 + 1)) = m
  rw [BitVec.extractLsb'_append_eq_of_add_le (by decide)]
  exact BitVec.extractLsb'_eq_self
@[simp] theorem sub_c09_l1_c01_2 (l : BitVec 1) : @BitVec.extractLsb' 11 2 9 (0#9 ++ l ++ 0#1) = 0#9 := by
  show BitVec.extractLsb' 2 9 (0#9 ++ l ++ 0#1 : BitVec (9 + 1 + 1)) = 0#9
  rw [BitVec.extractLsb'_append_eq_of_le (by decide), BitVec.extractLsb'_append_eq_of_le (by decide)]
  exact BitVec.extractLsb'_eq_self
@[simp] theorem sub_c09_l1_c01_1 (l : BitVec 1) : @BitVec.extractLsb' 11 1 1 (0#9 ++ l ++ 0#1) = l := by
  show BitVec.extractLsb' 1 1 (0#9 ++ l ++ 0#1 : BitVec (9 + 1 + 1)) = l
  rw [BitVec.extractLsb'_append_eq_of_le (by decide), BitVec.extractLsb'_append_eq_of_add_le (by decide)]
  exact BitVec.extractLsb'_eq_self
@[simp] theorem sub_c09_l1_c01_0 (l : BitVec 1) : @BitVec.extractLsb' 11 0 1 (0#9 ++ l ++ 0#1) = 0#1 := by
  show BitVec.extractLsb' 0 1 (0#9 ++ l ++ 0#1 : BitVec (9 + 1 + 1)) = 0#1
  rw [BitVec.extractLsb'_append_eq_of_add_le (by decide)]
  exact BitVec.extractLsb'_eq_self
@[simp] theorem sub_c09_l1_c11_2 (l : BitVec 1) : @BitVec.extractLsb' 11 2 9 (0#9 ++ l ++ 1#1) = 0#9 := by
  show BitVec.extractLsb' 2 9 (0#9 ++ l ++ 1#1 : BitVec (9 + 1 + 1)) = 0#9
  rw [BitVec.extractLsb'_append_eq_of_le (by decide), BitVec.extractLsb'_append_eq_of_le (by decide)]
  exact BitVec.extractLsb'_eq_self
@[simp] theorem sub_c09_l1_c11_1 (l : BitVec 1) : @BitVec.extractLsb' 11 1 1 (0#9 ++ l ++ 1#1) = l := by
  show BitVec.extractLsb' 1 1 (0#9 ++ l ++ 1#1 : BitVec (9 + 1 + 1)) = l
  rw [BitVec.extractLsb'_append_eq_of_le (by decide), BitVec.extractLsb'_append_eq_of_add_le (by decide)]
  exact BitVec.extractLsb'_eq_self
@[simp] theorem sub_c09_l1_c11_0 (l : BitVec 1) : @BitVec.extractLsb' 11 0 1 (0#9 ++ l ++ 1#1) = 1#1 := by
  show BitVec.extractLsb' 0 1 (0#9 ++ l ++ 1#1 : BitVec (9 + 1 + 1)) = 1#1
  rw [BitVec.extractLsb'_append_eq_of_add_le (by decide)]
  exact BitVec.extractLsb'_eq_self
@[simp] theorem sub_c03_n6_d2_8 (n : BitVec 6) (d : BitVec 2) : @BitVec.extractLsb' 11 8 3 (0#3 ++ n ++ d) = 0#3 := by
  show BitVec.extractLsb' 8 3 (0#3 ++ n ++ d : BitVec (3 + 6 + 2)) = 0#3
  rw [BitVec.extractLsb'_append_eq_of_le (by decide), BitVec.extractLsb'_append_eq_of_le (by decide)]
  exact BitVec.extractLsb'_eq_self
@[simp] theorem sub_c03_n6_d2_2 (n : BitVec 6) (d : BitVec 2) : @BitVec.extractLsb' 11 2 6 (0#3 ++ n ++ d) = n := by
  show BitVec.extractLsb' 2 6 (0#3 ++ n ++ d : BitVec (3 + 6 + 2)) = n
  rw [BitVec.extractLsb'_append_eq_of_le (by decide), BitVec.extractLsb'_append_eq_of_add_le (by decide)]
  exact BitVec.extractLsb'_eq_self
@[simp] theorem sub_c03_n6_d2_0 (n : BitVec 6) (d : BitVec 2) : @BitVec.extractLsb' 11 0 2 (0#3 ++ n ++ d) = d := by
  show BitVec.extractLsb' 0 2 (0#3 ++ n ++ d : BitVec (3 + 6 + 2)) = d
  rw [BitVec.extractLsb'_append_eq_of_add_le (by decide)]
  exact BitVec.extractLsb'_eq_self
@[simp] theorem sub_c08_lv3_3 (lv : BitVec 3) : @BitVec.extractLsb' 11 3 8 (0#8 ++ lv) = 0#8 := by
  show BitVec.extractLsb' 3 8 (0#8 ++ lv : BitVec (8 + 3)) = 0#8
  rw [BitVec.extractLsb'_append_eq_of_le (by decide)]
  exact BitVec.extractLsb'_eq_self
@[simp] theorem sub_c08_lv3_0 (lv : BitVec 3) : @BitVec.extractLsb' 11 0 3 (0#8 ++ lv) = lv := by
  show BitVec.extractLsb' 0 3 (0#8 ++ lv : BitVec (8 + 3)) = lv
  rw [BitVec.extractLsb'_append_eq_of_add_le (by decide)]
  exact BitVec.extractLsb'_eq_self
@[simp] theorem sub_c07_inh1_pr3_4 (inh : BitVec 1) (pr : BitVec 3) : @BitVec.extractLsb' 11 4 7 (0#7 ++ inh ++ pr) = 0#7 := by
  show BitVec.extractLsb' 4 7 (0#7 ++ inh ++ pr : BitVec (7 + 1 + 3)) = 0#7
  rw [BitVec.extractLsb'_append_eq_of_le (by decide), BitVec.extractLsb'_append_eq_of_le (by decide)]
  exact BitVec.extractLsb'_eq_self
@[simp] theorem sub_c07_inh1_pr3_3 (inh : BitVec 1) (pr : BitVec 3) : @BitVec.extractLsb' 11 3 1 (0#7 ++ inh ++ pr) = inh := by
  show BitVec.extractLsb' 3 1 (0#7 ++ inh ++ pr : BitVec (7 + 1 + 3)) = inh
  rw [BitVec.extractLsb'_append_eq_of_le (by decide), BitVec.extractLsb'_append_eq_of_add_le (by decide)]
  exact BitVec.extractLsb'_eq_self
@[simp] theorem sub_c07_inh1_pr3_0 (inh : BitVec 1) (pr : BitVec 3) : @BitVec.extractLsb' 11 0 3 (0#7 ++ inh ++ pr) = pr := by
  show BitVec.extractLsb' 0 3 (0#7 ++ inh ++ pr : BitVec (7 + 1 + 3)) = pr
  rw [BitVec.extractLsb'_append_eq_of_add_le (by decide)]
  exact BitVec.extractLsb'_eq_self

/-! ### The word and its header -/

theorem packWord_opc (opc : BitVec 10) (h : Hdr) (o : BitVec 40) : (packWord opc h o).extractLsb' 54 10 = opc := by
  show BitVec.extractLsb' 54 10 (opc ++ h.idle ++ h.pop ++ h.push ++ o : BitVec (10 + 10 + 2 + 2 + 40)) = opc
  rw [BitVec.extractLsb'_append_eq_of_le (by decide), BitVec.extractLsb'_append_eq_of_le (by decide),
    BitVec.extractLsb'_append_eq_of_le (by decide), BitVec.extractLsb'_append_eq_of_le (by decide)]
  exact BitVec.extractLsb'_eq_self

theorem packWord_operands (opc : BitVec 10) (h : Hdr) (o : BitVec 40) : (packWord opc h o).extractLsb' 0 40 = o := by
  show BitVec.extractLsb' 0 40 (opc ++ h.idle ++ h.pop ++ h.push ++ o : BitVec (10 + 10 + 2 + 2 + 40)) = o
  rw [BitVec.extractLsb'_append_eq_of_add_le (by decide)]
  exact BitVec.extractLsb'_eq_self

/-- The header of a packed word is the header it was packed with. -/
theorem decodeHdr_packWord (opc : BitVec 10) (h : Hdr) (o : BitVec 40) : decodeHdr (packWord opc h o) = h := by
  have e1 : (packWord opc h o).extractLsb' 44 10 = h.idle := by
    show BitVec.extractLsb' 44 10 (opc ++ h.idle ++ h.pop ++ h.push ++ o : BitVec (10 + 10 + 2 + 2 + 40)) = h.idle
    rw [BitVec.extractLsb'_append_eq_of_le (by decide), BitVec.extractLsb'_append_eq_of_le (by decide),
      BitVec.extractLsb'_append_eq_of_le (by decide), BitVec.extractLsb'_append_eq_of_add_le (by decide)]
    exact BitVec.extractLsb'_eq_self
  have e2 : (packWord opc h o).extractLsb' 42 2 = h.pop := by
    show BitVec.extractLsb' 42 2 (opc ++ h.idle ++ h.pop ++ h.push ++ o : BitVec (10 + 10 + 2 + 2 + 40)) = h.pop
    rw [BitVec.extractLsb'_append_eq_of_le (by decide), BitVec.extractLsb'_append_eq_of_le (by decide),
      BitVec.extractLsb'_append_eq_of_add_le (by decide)]
    exact BitVec.extractLsb'_eq_self
  have e3 : (packWord opc h o).extractLsb' 40 2 = h.push := by
    show BitVec.extractLsb' 40 2 (opc ++ h.idle ++ h.pop ++ h.push ++ o : BitVec (10 + 10 + 2 + 2 + 40)) = h.push
    rw [BitVec.extractLsb'_append_eq_of_le (by decide), BitVec.extractLsb'_append_eq_of_add_le (by decide)]
    exact BitVec.extractLsb'_eq_self
  simp only [decodeHdr, e1, e2, e3]

/-- A packed word of an assigned opcode is decoded by its operands. -/
theorem decode_packWord (q : Seq) (opc : Nat) (h : Hdr) (o : BitVec 40) (h0 : opc ≠ 0) (h1 : opc < 0x3C0)
    (hs : opcLegal opc q = true) : decode none q (packWord (BitVec.ofNat 10 opc) h o) = decodeOps q opc o := by
  have hl : opc < 2 ^ 10 := by omega
  have hn : (BitVec.ofNat 10 opc).toNat = opc := by simp; omega
  have hi : (opcSeqs opc).isSome = true := by
    unfold opcLegal at hs; split at hs
    · rename_i e; simp [e]
    · simp at hs
  have ht : (BitVec.ofNat 16 (0x8000 + opc)).toNat = 0x8000 + opc := by simp; omega
  have h2 : (0x8000 + opc) % 1024 = opc := by omega
  unfold decode
  simp only [packWord_opc, packWord_operands, hn, tableEntry, hi, if_true, ht, h2]
  rw [if_neg (by omega)]

/-- What a constructor owes for its word: its opcode, and its operands read back under its own checks. -/
theorem encodes (i : Instr) (opc : Nat) (o : BitVec 40) (ho : i.opc = some opc) (hp : i.operands = o) (h0 : opc ≠ 0) (h1 : opc < 0x3C0)
    (hd : ∀ q, opcLegal opc q = true → i.zeroOk = true → i.inRange q = true → decodeOps q opc o = .ok i) :
    ∀ q h, i.wf q = true → decode none q (encode h i) = .ok i ∧ decodeHdr (encode h i) = h := by
  intro q h hw
  simp only [Instr.wf, ho, Bool.and_eq_true] at hw
  refine ⟨?_, decodeHdr_packWord _ _ _⟩
  simp only [encode, ho, hp, Option.getD_some]
  rw [decode_packWord q opc h o h0 h1 hw.1.1]
  exact hd q hw.1.1 hw.1.2 hw.2

/-- A sub-step event has no word. -/
theorem encodes_none (i : Instr) (ho : i.opc = none) :
    ∀ q h, i.wf q = true → decode none q (encode h i) = .ok i ∧ decodeHdr (encode h i) = h := by
  intro q h hw; simp [Instr.wf, ho] at hw

/-! ### Family Encodes: decoding an encoded word of a well-formed instruction gives the instruction and the header back -/

namespace Encodes

-- the lemmas are elaborated one after another
set_option Elab.async false
set_option linter.unusedSimpArgs false

/-- The word of a well-formed instruction decodes to it, with its header, on every sequencer that may fetch it. -/
def Statement (i : Instr) : Prop :=
  ∀ q h, i.wf q = true → decode none q (encode h i) = .ok i ∧ decodeHdr (encode h i) = h

theorem add (d a b : RegF) : Statement (.add d a b) :=
  encodes (.add d a b) 0x008 (packSR d a b) rfl rfl (by decide) (by decide) fun q hl hz hr => by
    simp [decodeOps, decodeSR, fld6, fld10, finish, hl, hz, hr]
theorem sub (d a b : RegF) : Statement (.sub d a b) :=
  encodes (.sub d a b) 0x009 (packSR d a b) rfl rfl (by decide) (by decide) fun q hl hz hr => by
    simp [decodeOps, decodeSR, fld6, fld10, finish, hl, hz, hr]
theorem mul (d a b : RegF) : Statement (.mul d a b) :=
  encodes (.mul d a b) 0x00A (packSR d a b) rfl rfl (by decide) (by decide) fun q hl hz hr => by
    simp [decodeOps, decodeSR, fld6, fld10, finish, hl, hz, hr]
theorem mulhi (d a b : RegF) : Statement (.mulhi d a b) :=
  encodes (.mulhi d a b) 0x00B (packSR d a b) rfl rfl (by decide) (by decide) fun q hl hz hr => by
    simp [decodeOps, decodeSR, fld6, fld10, finish, hl, hz, hr]
theorem mulhu (d a b : RegF) : Statement (.mulhu d a b) :=
  encodes (.mulhu d a b) 0x00C (packSR d a b) rfl rfl (by decide) (by decide) fun q hl hz hr => by
    simp [decodeOps, decodeSR, fld6, fld10, finish, hl, hz, hr]
theorem and (d a b : RegF) : Statement (.and d a b) :=
  encodes (.and d a b) 0x00D (packSR d a b) rfl rfl (by decide) (by decide) fun q hl hz hr => by
    simp [decodeOps, decodeSR, fld6, fld10, finish, hl, hz, hr]
theorem or (d a b : RegF) : Statement (.or d a b) :=
  encodes (.or d a b) 0x00E (packSR d a b) rfl rfl (by decide) (by decide) fun q hl hz hr => by
    simp [decodeOps, decodeSR, fld6, fld10, finish, hl, hz, hr]
theorem xor (d a b : RegF) : Statement (.xor d a b) :=
  encodes (.xor d a b) 0x00F (packSR d a b) rfl rfl (by decide) (by decide) fun q hl hz hr => by
    simp [decodeOps, decodeSR, fld6, fld10, finish, hl, hz, hr]
theorem andn (d a b : RegF) : Statement (.andn d a b) :=
  encodes (.andn d a b) 0x010 (packSR d a b) rfl rfl (by decide) (by decide) fun q hl hz hr => by
    simp [decodeOps, decodeSR, fld6, fld10, finish, hl, hz, hr]
theorem shl (d a b : RegF) : Statement (.shl d a b) :=
  encodes (.shl d a b) 0x011 (packSR d a b) rfl rfl (by decide) (by decide) fun q hl hz hr => by
    simp [decodeOps, decodeSR, fld6, fld10, finish, hl, hz, hr]
theorem shr (d a b : RegF) : Statement (.shr d a b) :=
  encodes (.shr d a b) 0x012 (packSR d a b) rfl rfl (by decide) (by decide) fun q hl hz hr => by
    simp [decodeOps, decodeSR, fld6, fld10, finish, hl, hz, hr]
theorem sra (d a b : RegF) : Statement (.sra d a b) :=
  encodes (.sra d a b) 0x013 (packSR d a b) rfl rfl (by decide) (by decide) fun q hl hz hr => by
    simp [decodeOps, decodeSR, fld6, fld10, finish, hl, hz, hr]
theorem min (d a b : RegF) : Statement (.min d a b) :=
  encodes (.min d a b) 0x014 (packSR d a b) rfl rfl (by decide) (by decide) fun q hl hz hr => by
    simp [decodeOps, decodeSR, fld6, fld10, finish, hl, hz, hr]
theorem max (d a b : RegF) : Statement (.max d a b) :=
  encodes (.max d a b) 0x015 (packSR d a b) rfl rfl (by decide) (by decide) fun q hl hz hr => by
    simp [decodeOps, decodeSR, fld6, fld10, finish, hl, hz, hr]
theorem minu (d a b : RegF) : Statement (.minu d a b) :=
  encodes (.minu d a b) 0x016 (packSR d a b) rfl rfl (by decide) (by decide) fun q hl hz hr => by
    simp [decodeOps, decodeSR, fld6, fld10, finish, hl, hz, hr]
theorem maxu (d a b : RegF) : Statement (.maxu d a b) :=
  encodes (.maxu d a b) 0x017 (packSR d a b) rfl rfl (by decide) (by decide) fun q hl hz hr => by
    simp [decodeOps, decodeSR, fld6, fld10, finish, hl, hz, hr]
theorem clmul (d a b : RegF) : Statement (.clmul d a b) :=
  encodes (.clmul d a b) 0x018 (packSR d a b) rfl rfl (by decide) (by decide) fun q hl hz hr => by
    simp [decodeOps, decodeSR, fld6, fld10, finish, hl, hz, hr]
theorem clmulh (d a b : RegF) : Statement (.clmulh d a b) :=
  encodes (.clmulh d a b) 0x019 (packSR d a b) rfl rfl (by decide) (by decide) fun q hl hz hr => by
    simp [decodeOps, decodeSR, fld6, fld10, finish, hl, hz, hr]
theorem popc (d a : RegF) : Statement (.popc d a) :=
  encodes (.popc d a) 0x01A (packSR d a 0#6) rfl rfl (by decide) (by decide) fun q hl hz hr => by
    simp [decodeOps, decodeSR, fld6, fld10, finish, hl, hz, hr]
theorem clz (d a : RegF) : Statement (.clz d a) :=
  encodes (.clz d a) 0x01B (packSR d a 0#6) rfl rfl (by decide) (by decide) fun q hl hz hr => by
    simp [decodeOps, decodeSR, fld6, fld10, finish, hl, hz, hr]
theorem ctz (d a : RegF) : Statement (.ctz d a) :=
  encodes (.ctz d a) 0x01C (packSR d a 0#6) rfl rfl (by decide) (by decide) fun q hl hz hr => by
    simp [decodeOps, decodeSR, fld6, fld10, finish, hl, hz, hr]
theorem sel (d a b : RegF) : Statement (.sel d a b) :=
  encodes (.sel d a b) 0x01D (packSR d a b) rfl rfl (by decide) (by decide) fun q hl hz hr => by
    simp [decodeOps, decodeSR, fld6, fld10, finish, hl, hz, hr]
theorem seq (d a b : RegF) : Statement (.seq d a b) :=
  encodes (.seq d a b) 0x01E (packSR d a b) rfl rfl (by decide) (by decide) fun q hl hz hr => by
    simp [decodeOps, decodeSR, fld6, fld10, finish, hl, hz, hr]
theorem slt (d a b : RegF) : Statement (.slt d a b) :=
  encodes (.slt d a b) 0x01F (packSR d a b) rfl rfl (by decide) (by decide) fun q hl hz hr => by
    simp [decodeOps, decodeSR, fld6, fld10, finish, hl, hz, hr]
theorem sltu (d a b : RegF) : Statement (.sltu d a b) :=
  encodes (.sltu d a b) 0x020 (packSR d a b) rfl rfl (by decide) (by decide) fun q hl hz hr => by
    simp [decodeOps, decodeSR, fld6, fld10, finish, hl, hz, hr]
theorem mov (d a : RegF) : Statement (.mov d a) :=
  encodes (.mov d a) 0x021 (packSR d a 0#6) rfl rfl (by decide) (by decide) fun q hl hz hr => by
    simp [decodeOps, decodeSR, fld6, fld10, finish, hl, hz, hr]
theorem addi (d : RegF) (imm : BitVec 32) : Statement (.addi d imm) :=
  encodes (.addi d imm) 0x028 (packSI d imm) rfl rfl (by decide) (by decide) fun q hl hz hr => by
    simp [decodeOps, decodeSI, fld6, fld10, finish, hl, hz, hr]
theorem andi (d : RegF) (imm : BitVec 32) : Statement (.andi d imm) :=
  encodes (.andi d imm) 0x029 (packSI d imm) rfl rfl (by decide) (by decide) fun q hl hz hr => by
    simp [decodeOps, decodeSI, fld6, fld10, finish, hl, hz, hr]
theorem ori (d : RegF) (imm : BitVec 32) : Statement (.ori d imm) :=
  encodes (.ori d imm) 0x02A (packSI d imm) rfl rfl (by decide) (by decide) fun q hl hz hr => by
    simp [decodeOps, decodeSI, fld6, fld10, finish, hl, hz, hr]
theorem xori (d : RegF) (imm : BitVec 32) : Statement (.xori d imm) :=
  encodes (.xori d imm) 0x02B (packSI d imm) rfl rfl (by decide) (by decide) fun q hl hz hr => by
    simp [decodeOps, decodeSI, fld6, fld10, finish, hl, hz, hr]
theorem shli (d : RegF) (imm : BitVec 32) : Statement (.shli d imm) :=
  encodes (.shli d imm) 0x02C (packSI d imm) rfl rfl (by decide) (by decide) fun q hl hz hr => by
    simp [decodeOps, decodeSI, fld6, fld10, finish, hl, hz, hr]
theorem shri (d : RegF) (imm : BitVec 32) : Statement (.shri d imm) :=
  encodes (.shri d imm) 0x02D (packSI d imm) rfl rfl (by decide) (by decide) fun q hl hz hr => by
    simp [decodeOps, decodeSI, fld6, fld10, finish, hl, hz, hr]
theorem srai (d : RegF) (imm : BitVec 32) : Statement (.srai d imm) :=
  encodes (.srai d imm) 0x02E (packSI d imm) rfl rfl (by decide) (by decide) fun q hl hz hr => by
    simp [decodeOps, decodeSI, fld6, fld10, finish, hl, hz, hr]
theorem li (d : RegF) (imm : BitVec 32) : Statement (.li d imm) :=
  encodes (.li d imm) 0x02F (packSI d imm) rfl rfl (by decide) (by decide) fun q hl hz hr => by
    simp [decodeOps, decodeSI, fld6, fld10, finish, hl, hz, hr]
theorem lih (d : RegF) (imm : BitVec 32) : Statement (.lih d imm) :=
  encodes (.lih d imm) 0x030 (packSI d imm) rfl rfl (by decide) (by decide) fun q hl hz hr => by
    simp [decodeOps, decodeSI, fld6, fld10, finish, hl, hz, hr]
theorem beq (a b : RegF) (tgt : Tgt) : Statement (.beq a b tgt) :=
  encodes (.beq a b tgt) 0x038 (packBR a b tgt) rfl rfl (by decide) (by decide) fun q hl hz hr => by
    simp [decodeOps, decodeBR, fld6, fld10, finish, hl, hz, hr]
theorem bne (a b : RegF) (tgt : Tgt) : Statement (.bne a b tgt) :=
  encodes (.bne a b tgt) 0x039 (packBR a b tgt) rfl rfl (by decide) (by decide) fun q hl hz hr => by
    simp [decodeOps, decodeBR, fld6, fld10, finish, hl, hz, hr]
theorem blt (a b : RegF) (tgt : Tgt) : Statement (.blt a b tgt) :=
  encodes (.blt a b tgt) 0x03A (packBR a b tgt) rfl rfl (by decide) (by decide) fun q hl hz hr => by
    simp [decodeOps, decodeBR, fld6, fld10, finish, hl, hz, hr]
theorem bge (a b : RegF) (tgt : Tgt) : Statement (.bge a b tgt) :=
  encodes (.bge a b tgt) 0x03B (packBR a b tgt) rfl rfl (by decide) (by decide) fun q hl hz hr => by
    simp [decodeOps, decodeBR, fld6, fld10, finish, hl, hz, hr]
theorem bltu (a b : RegF) (tgt : Tgt) : Statement (.bltu a b tgt) :=
  encodes (.bltu a b tgt) 0x03C (packBR a b tgt) rfl rfl (by decide) (by decide) fun q hl hz hr => by
    simp [decodeOps, decodeBR, fld6, fld10, finish, hl, hz, hr]
theorem bgeu (a b : RegF) (tgt : Tgt) : Statement (.bgeu a b tgt) :=
  encodes (.bgeu a b tgt) 0x03D (packBR a b tgt) rfl rfl (by decide) (by decide) fun q hl hz hr => by
    simp [decodeOps, decodeBR, fld6, fld10, finish, hl, hz, hr]
theorem bz (a : RegF) (tgt : Tgt) : Statement (.bz a tgt) :=
  encodes (.bz a tgt) 0x03E (packBR a 0#6 tgt) rfl rfl (by decide) (by decide) fun q hl hz hr => by
    simp [decodeOps, decodeBR, fld6, fld10, finish, hl, hz, hr]
theorem bnz (a : RegF) (tgt : Tgt) : Statement (.bnz a tgt) :=
  encodes (.bnz a tgt) 0x03F (packBR a 0#6 tgt) rfl rfl (by decide) (by decide) fun q hl hz hr => by
    simp [decodeOps, decodeBR, fld6, fld10, finish, hl, hz, hr]
theorem jmp (tgt : Tgt) : Statement (.jmp tgt) :=
  encodes (.jmp tgt) 0x040 (packBR 0#6 0#6 tgt) rfl rfl (by decide) (by decide) fun q hl hz hr => by
    simp [decodeOps, decodeBR, fld6, fld10, finish, hl, hz, hr]
theorem jmpr (a : RegF) : Statement (.jmpr a) :=
  encodes (.jmpr a) 0x041 (packBR a 0#6 0#14) rfl rfl (by decide) (by decide) fun q hl hz hr => by
    simp [decodeOps, decodeBR, fld6, fld10, finish, hl, hz, hr]
theorem call (tgt : Tgt) : Statement (.call tgt) :=
  encodes (.call tgt) 0x042 (packBR 0#6 0#6 tgt) rfl rfl (by decide) (by decide) fun q hl hz hr => by
    simp [decodeOps, decodeBR, fld6, fld10, finish, hl, hz, hr]
theorem callr (a : RegF) : Statement (.callr a) :=
  encodes (.callr a) 0x043 (packBR a 0#6 0#14) rfl rfl (by decide) (by decide) fun q hl hz hr => by
    simp [decodeOps, decodeBR, fld6, fld10, finish, hl, hz, hr]
theorem beng (eng cond : RegF) (tgt : Tgt) : Statement (.beng eng cond tgt) :=
  encodes (.beng eng cond tgt) 0x045 (packBR eng cond tgt) rfl rfl (by decide) (by decide) fun q hl hz hr => by
    simp [decodeOps, decodeBR, fld6, fld10, finish, hl, hz, hr]
theorem loop (lc : BitVec 2) (a : RegF) (last : Tgt) : Statement (.loop lc a last) :=
  encodes (.loop lc a last) 0x048 (packLP lc a 0#18 last) rfl rfl (by decide) (by decide) fun q hl hz hr => by
    simp [decodeOps, decodeLP, fld6, fld10, finish, hl, hz, hr]
theorem loopi (lc : BitVec 2) (icnt : BitVec 18) (last : Tgt) : Statement (.loopi lc icnt last) :=
  encodes (.loopi lc icnt last) 0x049 (packLP lc 0#6 icnt last) rfl rfl (by decide) (by decide) fun q hl hz hr => by
    simp [decodeOps, decodeLP, fld6, fld10, finish, hl, hz, hr]
theorem mfsr (d : RegF) (sel : BitVec 10) : Statement (.mfsr d sel) :=
  encodes (.mfsr d sel) 0x050 (packSY d sel) rfl rfl (by decide) (by decide) fun q hl hz hr => by
    simp [decodeOps, decodeSY, fld6, fld10, finish, hl, hz, hr]
theorem mtsr (d : RegF) (sel : BitVec 10) : Statement (.mtsr d sel) :=
  encodes (.mtsr d sel) 0x051 (packSY d sel) rfl rfl (by decide) (by decide) fun q hl hz hr => by
    simp [decodeOps, decodeSY, fld6, fld10, finish, hl, hz, hr]
theorem rdstc (d : RegF) : Statement (.rdstc d) :=
  encodes (.rdstc d) 0x052 (packSY d 0#10) rfl rfl (by decide) (by decide) fun q hl hz hr => by
    simp [decodeOps, decodeSY, fld6, fld10, finish, hl, hz, hr]
theorem rdstcT0 (d : RegF) : Statement (.rdstcT0 d) :=
  encodes (.rdstcT0 d) 0x052 (packSY d 1#10) rfl rfl (by decide) (by decide) fun q hl hz hr => by
    simp [decodeOps, decodeSY, fld6, fld10, finish, hl, hz, hr]
theorem rdeng (d : RegF) (eng : BitVec 10) : Statement (.rdeng d eng) :=
  encodes (.rdeng d eng) 0x053 (packSY d eng) rfl rfl (by decide) (by decide) fun q hl hz hr => by
    simp [decodeOps, decodeSY, fld6, fld10, finish, hl, hz, hr]
theorem trap (code : BitVec 10) : Statement (.trap code) :=
  encodes (.trap code) 0x055 (packSY 0#6 code) rfl rfl (by decide) (by decide) fun q hl hz hr => by
    simp [decodeOps, decodeSY, fld6, fld10, finish, hl, hz, hr]
theorem vadd (d a b : VOpF) (p : PredF) (ty : TyF) : Statement (.vadd d a b p ty) :=
  encodes (.vadd d a b p ty) 0x100 (packV3 d a b p ty) rfl rfl (by decide) (by decide) fun q hl hz hr => by
    simp [decodeOps, decodeVF, fld6, fld10, finish, hl, hz, hr]
theorem vsub (d a b : VOpF) (p : PredF) (ty : TyF) : Statement (.vsub d a b p ty) :=
  encodes (.vsub d a b p ty) 0x101 (packV3 d a b p ty) rfl rfl (by decide) (by decide) fun q hl hz hr => by
    simp [decodeOps, decodeVF, fld6, fld10, finish, hl, hz, hr]
theorem vmul (d a b : VOpF) (p : PredF) (ty : TyF) : Statement (.vmul d a b p ty) :=
  encodes (.vmul d a b p ty) 0x102 (packV3 d a b p ty) rfl rfl (by decide) (by decide) fun q hl hz hr => by
    simp [decodeOps, decodeVF, fld6, fld10, finish, hl, hz, hr]
theorem vdiv (d a b : VOpF) (p : PredF) (ty : TyF) : Statement (.vdiv d a b p ty) :=
  encodes (.vdiv d a b p ty) 0x103 (packV3 d a b p ty) rfl rfl (by decide) (by decide) fun q hl hz hr => by
    simp [decodeOps, decodeVF, fld6, fld10, finish, hl, hz, hr]
theorem vfma (d a b : VOpF) (p : PredF) (ty : TyF) : Statement (.vfma d a b p ty) :=
  encodes (.vfma d a b p ty) 0x104 (packV3 d a b p ty) rfl rfl (by decide) (by decide) fun q hl hz hr => by
    simp [decodeOps, decodeVF, fld6, fld10, finish, hl, hz, hr]
theorem vfms (d a b : VOpF) (p : PredF) (ty : TyF) : Statement (.vfms d a b p ty) :=
  encodes (.vfms d a b p ty) 0x105 (packV3 d a b p ty) rfl rfl (by decide) (by decide) fun q hl hz hr => by
    simp [decodeOps, decodeVF, fld6, fld10, finish, hl, hz, hr]
theorem vfnma (d a b : VOpF) (p : PredF) (ty : TyF) : Statement (.vfnma d a b p ty) :=
  encodes (.vfnma d a b p ty) 0x106 (packV3 d a b p ty) rfl rfl (by decide) (by decide) fun q hl hz hr => by
    simp [decodeOps, decodeVF, fld6, fld10, finish, hl, hz, hr]
theorem vfnms (d a b : VOpF) (p : PredF) (ty : TyF) : Statement (.vfnms d a b p ty) :=
  encodes (.vfnms d a b p ty) 0x107 (packV3 d a b p ty) rfl rfl (by decide) (by decide) fun q hl hz hr => by
    simp [decodeOps, decodeVF, fld6, fld10, finish, hl, hz, hr]
theorem vmin (d a b : VOpF) (p : PredF) (ty : TyF) : Statement (.vmin d a b p ty) :=
  encodes (.vmin d a b p ty) 0x108 (packV3 d a b p ty) rfl rfl (by decide) (by decide) fun q hl hz hr => by
    simp [decodeOps, decodeVF, fld6, fld10, finish, hl, hz, hr]
theorem vmax (d a b : VOpF) (p : PredF) (ty : TyF) : Statement (.vmax d a b p ty) :=
  encodes (.vmax d a b p ty) 0x109 (packV3 d a b p ty) rfl rfl (by decide) (by decide) fun q hl hz hr => by
    simp [decodeOps, decodeVF, fld6, fld10, finish, hl, hz, hr]
theorem vabs (d a : VOpF) (p : PredF) (ty : TyF) : Statement (.vabs d a p ty) :=
  encodes (.vabs d a p ty) 0x10A (packV3 d a 0#10 p ty) rfl rfl (by decide) (by decide) fun q hl hz hr => by
    simp [decodeOps, decodeVF, fld6, fld10, finish, hl, hz, hr]
theorem vneg (d a : VOpF) (p : PredF) (ty : TyF) : Statement (.vneg d a p ty) :=
  encodes (.vneg d a p ty) 0x10B (packV3 d a 0#10 p ty) rfl rfl (by decide) (by decide) fun q hl hz hr => by
    simp [decodeOps, decodeVF, fld6, fld10, finish, hl, hz, hr]
theorem vsqrt (d a : VOpF) (p : PredF) (ty : TyF) : Statement (.vsqrt d a p ty) :=
  encodes (.vsqrt d a p ty) 0x10C (packV3 d a 0#10 p ty) rfl rfl (by decide) (by decide) fun q hl hz hr => by
    simp [decodeOps, decodeVF, fld6, fld10, finish, hl, hz, hr]
theorem vrcp (d a : VOpF) (p : PredF) (ty : TyF) : Statement (.vrcp d a p ty) :=
  encodes (.vrcp d a p ty) 0x10D (packV3 d a 0#10 p ty) rfl rfl (by decide) (by decide) fun q hl hz hr => by
    simp [decodeOps, decodeVF, fld6, fld10, finish, hl, hz, hr]
theorem vrsqrt (d a : VOpF) (p : PredF) (ty : TyF) : Statement (.vrsqrt d a p ty) :=
  encodes (.vrsqrt d a p ty) 0x10E (packV3 d a 0#10 p ty) rfl rfl (by decide) (by decide) fun q hl hz hr => by
    simp [decodeOps, decodeVF, fld6, fld10, finish, hl, hz, hr]
theorem vclass (d a : VOpF) (p : PredF) (ty : TyF) : Statement (.vclass d a p ty) :=
  encodes (.vclass d a p ty) 0x10F (packV3 d a 0#10 p ty) rfl rfl (by decide) (by decide) fun q hl hz hr => by
    simp [decodeOps, decodeVF, fld6, fld10, finish, hl, hz, hr]
theorem vexp (d a : VOpF) (p : PredF) (ty : TyF) : Statement (.vexp d a p ty) :=
  encodes (.vexp d a p ty) 0x110 (packV3 d a 0#10 p ty) rfl rfl (by decide) (by decide) fun q hl hz hr => by
    simp [decodeOps, decodeVF, fld6, fld10, finish, hl, hz, hr]
theorem vexp2 (d a : VOpF) (p : PredF) (ty : TyF) : Statement (.vexp2 d a p ty) :=
  encodes (.vexp2 d a p ty) 0x111 (packV3 d a 0#10 p ty) rfl rfl (by decide) (by decide) fun q hl hz hr => by
    simp [decodeOps, decodeVF, fld6, fld10, finish, hl, hz, hr]
theorem vlog (d a : VOpF) (p : PredF) (ty : TyF) : Statement (.vlog d a p ty) :=
  encodes (.vlog d a p ty) 0x112 (packV3 d a 0#10 p ty) rfl rfl (by decide) (by decide) fun q hl hz hr => by
    simp [decodeOps, decodeVF, fld6, fld10, finish, hl, hz, hr]
theorem vlog2 (d a : VOpF) (p : PredF) (ty : TyF) : Statement (.vlog2 d a p ty) :=
  encodes (.vlog2 d a p ty) 0x113 (packV3 d a 0#10 p ty) rfl rfl (by decide) (by decide) fun q hl hz hr => by
    simp [decodeOps, decodeVF, fld6, fld10, finish, hl, hz, hr]
theorem verf (d a : VOpF) (p : PredF) (ty : TyF) : Statement (.verf d a p ty) :=
  encodes (.verf d a p ty) 0x114 (packV3 d a 0#10 p ty) rfl rfl (by decide) (by decide) fun q hl hz hr => by
    simp [decodeOps, decodeVF, fld6, fld10, finish, hl, hz, hr]
theorem viadd (d a b : VOpF) (p : PredF) (ty : TyF) : Statement (.viadd d a b p ty) :=
  encodes (.viadd d a b p ty) 0x118 (packV3 d a b p ty) rfl rfl (by decide) (by decide) fun q hl hz hr => by
    simp [decodeOps, decodeVI, fld6, fld10, finish, hl, hz, hr]
theorem visub (d a b : VOpF) (p : PredF) (ty : TyF) : Statement (.visub d a b p ty) :=
  encodes (.visub d a b p ty) 0x119 (packV3 d a b p ty) rfl rfl (by decide) (by decide) fun q hl hz hr => by
    simp [decodeOps, decodeVI, fld6, fld10, finish, hl, hz, hr]
theorem vimul (d a b : VOpF) (p : PredF) (ty : TyF) : Statement (.vimul d a b p ty) :=
  encodes (.vimul d a b p ty) 0x11A (packV3 d a b p ty) rfl rfl (by decide) (by decide) fun q hl hz hr => by
    simp [decodeOps, decodeVI, fld6, fld10, finish, hl, hz, hr]
theorem vimulh (d a b : VOpF) (p : PredF) (ty : TyF) : Statement (.vimulh d a b p ty) :=
  encodes (.vimulh d a b p ty) 0x11B (packV3 d a b p ty) rfl rfl (by decide) (by decide) fun q hl hz hr => by
    simp [decodeOps, decodeVI, fld6, fld10, finish, hl, hz, hr]
theorem viand (d a b : VOpF) (p : PredF) (ty : TyF) : Statement (.viand d a b p ty) :=
  encodes (.viand d a b p ty) 0x11C (packV3 d a b p ty) rfl rfl (by decide) (by decide) fun q hl hz hr => by
    simp [decodeOps, decodeVI, fld6, fld10, finish, hl, hz, hr]
theorem vior (d a b : VOpF) (p : PredF) (ty : TyF) : Statement (.vior d a b p ty) :=
  encodes (.vior d a b p ty) 0x11D (packV3 d a b p ty) rfl rfl (by decide) (by decide) fun q hl hz hr => by
    simp [decodeOps, decodeVI, fld6, fld10, finish, hl, hz, hr]
theorem vixor (d a b : VOpF) (p : PredF) (ty : TyF) : Statement (.vixor d a b p ty) :=
  encodes (.vixor d a b p ty) 0x11E (packV3 d a b p ty) rfl rfl (by decide) (by decide) fun q hl hz hr => by
    simp [decodeOps, decodeVI, fld6, fld10, finish, hl, hz, hr]
theorem vishl (d a b : VOpF) (p : PredF) (ty : TyF) : Statement (.vishl d a b p ty) :=
  encodes (.vishl d a b p ty) 0x11F (packV3 d a b p ty) rfl rfl (by decide) (by decide) fun q hl hz hr => by
    simp [decodeOps, decodeVI, fld6, fld10, finish, hl, hz, hr]
theorem vishr (d a b : VOpF) (p : PredF) (ty : TyF) : Statement (.vishr d a b p ty) :=
  encodes (.vishr d a b p ty) 0x120 (packV3 d a b p ty) rfl rfl (by decide) (by decide) fun q hl hz hr => by
    simp [decodeOps, decodeVI, fld6, fld10, finish, hl, hz, hr]
theorem visra (d a b : VOpF) (p : PredF) (ty : TyF) : Statement (.visra d a b p ty) :=
  encodes (.visra d a b p ty) 0x121 (packV3 d a b p ty) rfl rfl (by decide) (by decide) fun q hl hz hr => by
    simp [decodeOps, decodeVI, fld6, fld10, finish, hl, hz, hr]
theorem vimin (d a b : VOpF) (p : PredF) (ty : TyF) : Statement (.vimin d a b p ty) :=
  encodes (.vimin d a b p ty) 0x122 (packV3 d a b p ty) rfl rfl (by decide) (by decide) fun q hl hz hr => by
    simp [decodeOps, decodeVI, fld6, fld10, finish, hl, hz, hr]
theorem vimax (d a b : VOpF) (p : PredF) (ty : TyF) : Statement (.vimax d a b p ty) :=
  encodes (.vimax d a b p ty) 0x123 (packV3 d a b p ty) rfl rfl (by decide) (by decide) fun q hl hz hr => by
    simp [decodeOps, decodeVI, fld6, fld10, finish, hl, hz, hr]
theorem viabs (d a : VOpF) (p : PredF) (ty : TyF) : Statement (.viabs d a p ty) :=
  encodes (.viabs d a p ty) 0x124 (packV3 d a 0#10 p ty) rfl rfl (by decide) (by decide) fun q hl hz hr => by
    simp [decodeOps, decodeVI, fld6, fld10, finish, hl, hz, hr]
theorem vpopc (d a : VOpF) (p : PredF) (ty : TyF) : Statement (.vpopc d a p ty) :=
  encodes (.vpopc d a p ty) 0x125 (packV3 d a 0#10 p ty) rfl rfl (by decide) (by decide) fun q hl hz hr => by
    simp [decodeOps, decodeVI, fld6, fld10, finish, hl, hz, hr]
theorem vrotr (d a : VOpF) (k : BitVec 10) (p : PredF) (ty : TyF) : Statement (.vrotr d a k p ty) :=
  encodes (.vrotr d a k p ty) 0x128 (packV3 d a k p ty) rfl rfl (by decide) (by decide) fun q hl hz hr => by
    simp [decodeOps, decodeVA, fld6, fld10, finish, hl, hz, hr]
theorem vrotc (d a : VOpF) (k : BitVec 10) (p : PredF) (ty : TyF) : Statement (.vrotc d a k p ty) :=
  encodes (.vrotc d a k p ty) 0x129 (packV3 d a k p ty) rfl rfl (by decide) (by decide) fun q hl hz hr => by
    simp [decodeOps, decodeVA, fld6, fld10, finish, hl, hz, hr]
theorem vbcr (d a : VOpF) (k : BitVec 10) (p : PredF) (ty : TyF) : Statement (.vbcr d a k p ty) :=
  encodes (.vbcr d a k p ty) 0x12A (packV3 d a k p ty) rfl rfl (by decide) (by decide) fun q hl hz hr => by
    simp [decodeOps, decodeVA, fld6, fld10, finish, hl, hz, hr]
theorem vbcc (d a : VOpF) (k : BitVec 10) (p : PredF) (ty : TyF) : Statement (.vbcc d a k p ty) :=
  encodes (.vbcc d a k p ty) 0x12B (packV3 d a k p ty) rfl rfl (by decide) (by decide) fun q hl hz hr => by
    simp [decodeOps, decodeVA, fld6, fld10, finish, hl, hz, hr]
theorem vredr (d a : VOpF) (k : BitVec 10) (p : PredF) (ty : TyF) : Statement (.vredr d a k p ty) :=
  encodes (.vredr d a k p ty) 0x12C (packV3 d a k p ty) rfl rfl (by decide) (by decide) fun q hl hz hr => by
    simp [decodeOps, decodeVA, fld6, fld10, finish, hl, hz, hr]
theorem vredc (d a : VOpF) (k : BitVec 10) (p : PredF) (ty : TyF) : Statement (.vredc d a k p ty) :=
  encodes (.vredc d a k p ty) 0x12D (packV3 d a k p ty) rfl rfl (by decide) (by decide) fun q hl hz hr => by
    simp [decodeOps, decodeVA, fld6, fld10, finish, hl, hz, hr]
theorem vprer (d a : VOpF) (k : BitVec 10) (p : PredF) (ty : TyF) : Statement (.vprer d a k p ty) :=
  encodes (.vprer d a k p ty) 0x12E (packV3 d a k p ty) rfl rfl (by decide) (by decide) fun q hl hz hr => by
    simp [decodeOps, decodeVA, fld6, fld10, finish, hl, hz, hr]
theorem vprec (d a : VOpF) (k : BitVec 10) (p : PredF) (ty : TyF) : Statement (.vprec d a k p ty) :=
  encodes (.vprec d a k p ty) 0x12F (packV3 d a k p ty) rfl rfl (by decide) (by decide) fun q hl hz hr => by
    simp [decodeOps, decodeVA, fld6, fld10, finish, hl, hz, hr]
theorem vpxorr (d a : VOpF) (k : BitVec 10) (ty : TyF) : Statement (.vpxorr d a k ty) :=
  encodes (.vpxorr d a k ty) 0x130 (packV3 d a k 0#5 ty) rfl rfl (by decide) (by decide) fun q hl hz hr => by
    simp [decodeOps, decodeVA, fld6, fld10, finish, hl, hz, hr]
theorem vpxorc (d a : VOpF) (ty : TyF) : Statement (.vpxorc d a ty) :=
  encodes (.vpxorc d a ty) 0x131 (packV3 d a 0#10 0#5 ty) rfl rfl (by decide) (by decide) fun q hl hz hr => by
    simp [decodeOps, decodeVA, fld6, fld10, finish, hl, hz, hr]
theorem vperm (d a b : VOpF) (p : PredF) (ty : TyF) : Statement (.vperm d a b p ty) :=
  encodes (.vperm d a b p ty) 0x138 (packV3 d a b p ty) rfl rfl (by decide) (by decide) fun q hl hz hr => by
    simp [decodeOps, decodeVA, fld6, fld10, finish, hl, hz, hr]
theorem vsel (d a b : VOpF) (p : PredF) (ty : TyF) : Statement (.vsel d a b p ty) :=
  encodes (.vsel d a b p ty) 0x139 (packV3 d a b p ty) rfl rfl (by decide) (by decide) fun q hl hz hr => by
    simp [decodeOps, decodeVA, fld6, fld10, finish, hl, hz, hr]
theorem vmov (d a : VOpF) (p : PredF) (ty : TyF) : Statement (.vmov d a p ty) :=
  encodes (.vmov d a p ty) 0x13A (packV3 d a 0#10 p ty) rfl rfl (by decide) (by decide) fun q hl hz hr => by
    simp [decodeOps, decodeVA, fld6, fld10, finish, hl, hz, hr]
theorem vzip (d a b : VOpF) (p : PredF) (ty : TyF) : Statement (.vzip d a b p ty) :=
  encodes (.vzip d a b p ty) 0x13B (packV3 d a b p ty) rfl rfl (by decide) (by decide) fun q hl hz hr => by
    simp [decodeOps, decodeVA, fld6, fld10, finish, hl, hz, hr]
theorem vunzip (d a b : VOpF) (p : PredF) (ty : TyF) : Statement (.vunzip d a b p ty) :=
  encodes (.vunzip d a b p ty) 0x13C (packV3 d a b p ty) rfl rfl (by decide) (by decide) fun q hl hz hr => by
    simp [decodeOps, decodeVA, fld6, fld10, finish, hl, hz, hr]
theorem vcmpeq (d a b : VOpF) (p : PredF) (ty : TyF) : Statement (.vcmpeq d a b p ty) :=
  encodes (.vcmpeq d a b p ty) 0x140 (packV3 d a b p ty) rfl rfl (by decide) (by decide) fun q hl hz hr => by
    simp [decodeOps, decodeVI, fld6, fld10, finish, hl, hz, hr]
theorem vcmpne (d a b : VOpF) (p : PredF) (ty : TyF) : Statement (.vcmpne d a b p ty) :=
  encodes (.vcmpne d a b p ty) 0x141 (packV3 d a b p ty) rfl rfl (by decide) (by decide) fun q hl hz hr => by
    simp [decodeOps, decodeVI, fld6, fld10, finish, hl, hz, hr]
theorem vcmplt (d a b : VOpF) (p : PredF) (ty : TyF) : Statement (.vcmplt d a b p ty) :=
  encodes (.vcmplt d a b p ty) 0x142 (packV3 d a b p ty) rfl rfl (by decide) (by decide) fun q hl hz hr => by
    simp [decodeOps, decodeVI, fld6, fld10, finish, hl, hz, hr]
theorem vcmple (d a b : VOpF) (p : PredF) (ty : TyF) : Statement (.vcmple d a b p ty) :=
  encodes (.vcmple d a b p ty) 0x143 (packV3 d a b p ty) rfl rfl (by decide) (by decide) fun q hl hz hr => by
    simp [decodeOps, decodeVI, fld6, fld10, finish, hl, hz, hr]
theorem vicmpeq (d a b : VOpF) (p : PredF) (ty : TyF) : Statement (.vicmpeq d a b p ty) :=
  encodes (.vicmpeq d a b p ty) 0x144 (packV3 d a b p ty) rfl rfl (by decide) (by decide) fun q hl hz hr => by
    simp [decodeOps, decodeVI, fld6, fld10, finish, hl, hz, hr]
theorem vicmplt (d a b : VOpF) (p : PredF) (ty : TyF) : Statement (.vicmplt d a b p ty) :=
  encodes (.vicmplt d a b p ty) 0x145 (packV3 d a b p ty) rfl rfl (by decide) (by decide) fun q hl hz hr => by
    simp [decodeOps, decodeVI, fld6, fld10, finish, hl, hz, hr]
theorem vicmple (d a b : VOpF) (p : PredF) (ty : TyF) : Statement (.vicmple d a b p ty) :=
  encodes (.vicmple d a b p ty) 0x146 (packV3 d a b p ty) rfl rfl (by decide) (by decide) fun q hl hz hr => by
    simp [decodeOps, decodeVI, fld6, fld10, finish, hl, hz, hr]
theorem pset (pd : BitVec 3) (count : BitVec 13) (width : BitVec 2) (group : BitVec 3) : Statement (.pset pd count width group) :=
  encodes (.pset pd count width group) 0x148 (packPI pd count width group) rfl rfl (by decide) (by decide) fun q hl hz hr => by
    simp [decodeOps, decodeVP, fld6, fld10, finish, hl, hz, hr]
theorem pcnt (pd a : VOpF) (g : BitVec 3) (w : BitVec 2) : Statement (.pcnt pd a g w) :=
  encodes (.pcnt pd a g w) 0x149 (packV3 pd a (0#7 ++ g) 0#5 (0#3 ++ w)) rfl rfl (by decide) (by decide) fun q hl hz hr => by
    simp [decodeOps, decodeVP, fld6, fld10, finish, hl, hz, hr]
theorem pfirst (pd a : VOpF) (g : BitVec 3) (w : BitVec 2) : Statement (.pfirst pd a g w) :=
  encodes (.pfirst pd a g w) 0x14A (packV3 pd a (0#7 ++ g) 0#5 (0#3 ++ w)) rfl rfl (by decide) (by decide) fun q hl hz hr => by
    simp [decodeOps, decodeVP, fld6, fld10, finish, hl, hz, hr]
theorem mpush (a : VOpF) (skip : BitVec 10) (w : BitVec 2) : Statement (.mpush a skip w) :=
  encodes (.mpush a skip w) 0x14B (packV3 0#10 a skip 0#5 (0#3 ++ w)) rfl rfl (by decide) (by decide) fun q hl hz hr => by
    simp [decodeOps, decodeVP, fld6, fld10, finish, hl, hz, hr]
theorem minv (skip : BitVec 10) : Statement (.minv skip) :=
  encodes (.minv skip) 0x14C (packV3 0#10 0#10 skip 0#5 0#5) rfl rfl (by decide) (by decide) fun q hl hz hr => by
    simp [decodeOps, decodeVP, fld6, fld10, finish, hl, hz, hr]
theorem spset (mask : BitVec 8) : Statement (.spset mask) :=
  encodes (.spset mask) 0x14E (packV3 0#10 0#10 (0#2 ++ mask) 0#5 0#5) rfl rfl (by decide) (by decide) fun q hl hz hr => by
    simp [decodeOps, decodeVP, fld6, fld10, finish, hl, hz, hr]
theorem spshl (bit rrb : BitVec 1) : Statement (.spshl bit rrb) :=
  encodes (.spshl bit rrb) 0x14F (packV3 0#10 0#10 (0#8 ++ rrb ++ bit) 0#5 0#5) rfl rfl (by decide) (by decide) fun q hl hz hr => by
    simp [decodeOps, decodeVP, fld6, fld10, finish, hl, hz, hr]
theorem rrbset (base : BitVec 10) : Statement (.rrbset base) :=
  encodes (.rrbset base) 0x151 (packV3 0#10 0#10 base 0#5 0#5) rfl rfl (by decide) (by decide) fun q hl hz hr => by
    simp [decodeOps, decodeVP, fld6, fld10, finish, hl, hz, hr]
theorem vcvt (d a : VOpF) (spec : BitVec 10) (p : PredF) (ty : TyF) : Statement (.vcvt d a spec p ty) :=
  encodes (.vcvt d a spec p ty) 0x158 (packV3 d a spec p ty) rfl rfl (by decide) (by decide) fun q hl hz hr => by
    simp [decodeOps, decodeVC, fld6, fld10, finish, hl, hz, hr]
theorem vpk8 (d a e : VOpF) (ty : TyF) : Statement (.vpk8 d a e ty) :=
  encodes (.vpk8 d a e ty) 0x159 (packV3 d a e 0#5 ty) rfl rfl (by decide) (by decide) fun q hl hz hr => by
    simp [decodeOps, decodeVC, fld6, fld10, finish, hl, hz, hr]
theorem vpk4 (d a e : VOpF) (ty : TyF) : Statement (.vpk4 d a e ty) :=
  encodes (.vpk4 d a e ty) 0x15A (packV3 d a e 0#5 ty) rfl rfl (by decide) (by decide) fun q hl hz hr => by
    simp [decodeOps, decodeVC, fld6, fld10, finish, hl, hz, hr]
theorem vupk8 (d a e : VOpF) (part : BitVec 2) : Statement (.vupk8 d a e part) :=
  encodes (.vupk8 d a e part) 0x15B (packV3 d a e 0#5 (0#3 ++ part)) rfl rfl (by decide) (by decide) fun q hl hz hr => by
    simp [decodeOps, decodeVC, fld6, fld10, finish, hl, hz, hr]
theorem vupk4 (d a e : VOpF) (part : BitVec 2) : Statement (.vupk4 d a e part) :=
  encodes (.vupk4 d a e part) 0x15C (packV3 d a e 0#5 (0#3 ++ part)) rfl rfl (by decide) (by decide) fun q hl hz hr => by
    simp [decodeOps, decodeVC, fld6, fld10, finish, hl, hz, hr]
theorem vpk8x (d a e : VOpF) (ty : TyF) : Statement (.vpk8x d a e ty) :=
  encodes (.vpk8x d a e ty) 0x15D (packV3 d a e 0#5 ty) rfl rfl (by decide) (by decide) fun q hl hz hr => by
    simp [decodeOps, decodeVC, fld6, fld10, finish, hl, hz, hr]
theorem vpk4x (d a e : VOpF) (ty : TyF) : Statement (.vpk4x d a e ty) :=
  encodes (.vpk4x d a e ty) 0x15E (packV3 d a e 0#5 ty) rfl rfl (by decide) (by decide) fun q hl hz hr => by
    simp [decodeOps, decodeVC, fld6, fld10, finish, hl, hz, hr]
theorem vflrd (d : VOpF) (p : PredF) : Statement (.vflrd d p) :=
  encodes (.vflrd d p) 0x160 (packV3 d 0#10 0#10 p 0#5) rfl rfl (by decide) (by decide) fun q hl hz hr => by
    simp [decodeOps, decodeVC, fld6, fld10, finish, hl, hz, hr]
theorem vflclr (mask : BitVec 5) (p : PredF) : Statement (.vflclr mask p) :=
  encodes (.vflclr mask p) 0x161 (packV3 0#10 0#10 (0#5 ++ mask) p 0#5) rfl rfl (by decide) (by decide) fun q hl hz hr => by
    simp [decodeOps, decodeVC, fld6, fld10, finish, hl, hz, hr]
theorem vrand (d a : VOpF) (p : PredF) (key : BitVec 2) : Statement (.vrand d a p key) :=
  encodes (.vrand d a p key) 0x162 (packV3 d a 0#10 p (0#3 ++ key)) rfl rfl (by decide) (by decide) fun q hl hz hr => by
    simp [decodeOps, decodeVC, fld6, fld10, finish, hl, hz, hr]
theorem fpush (a : RegF) : Statement (.fpush a) :=
  encodes (.fpush a) 0x200 (packSR 0#6 a 0#6) rfl rfl (by decide) (by decide) fun q hl hz hr => by
    simp [decodeOps, decodeSR, fld6, fld10, finish, hl, hz, hr]
theorem mma (t : RegF) (at_ : BitVec 32) : Statement (.mma t at_) :=
  encodes (.mma t at_) 0x201 (packM t 0#2 at_) rfl rfl (by decide) (by decide) fun q hl hz hr => by
    simp [decodeOps, decodeM, fld6, fld10, finish, hl, hz, hr]
theorem scnt (bank : BitVec 1) (at_ : BitVec 32) : Statement (.scnt bank at_) :=
  encodes (.scnt bank at_) 0x202 (packM 0#6 (0#1 ++ bank) at_) rfl rfl (by decide) (by decide) fun q hl hz hr => by
    simp [decodeOps, decodeM, fld6, fld10, finish, hl, hz, hr]
theorem mholdOn (bank : BitVec 1) (at_ : BitVec 32) : Statement (.mholdOn bank at_) :=
  encodes (.mholdOn bank at_) 0x203 (packM 0#6 (1#1 ++ bank) at_) rfl rfl (by decide) (by decide) fun q hl hz hr => by
    simp [decodeOps, decodeM, fld6, fld10, finish, hl, hz, hr]
theorem mholdOff (bank : BitVec 1) (at_ : BitVec 32) : Statement (.mholdOff bank at_) :=
  encodes (.mholdOff bank at_) 0x203 (packM 0#6 (0#1 ++ bank) at_) rfl rfl (by decide) (by decide) fun q hl hz hr => by
    simp [decodeOps, decodeM, fld6, fld10, finish, hl, hz, hr]
theorem mdrain (bank : BitVec 1) (t : RegF) (at_ : BitVec 32) : Statement (.mdrain bank t at_) :=
  encodes (.mdrain bank t at_) 0x204 (packM t (0#1 ++ bank) at_) rfl rfl (by decide) (by decide) fun q hl hz hr => by
    simp [decodeOps, decodeM, fld6, fld10, finish, hl, hz, hr]
theorem mmerge (bank : BitVec 1) (at_ : BitVec 32) : Statement (.mmerge bank at_) :=
  encodes (.mmerge bank at_) 0x205 (packM 0#6 (0#1 ++ bank) at_) rfl rfl (by decide) (by decide) fun q hl hz hr => by
    simp [decodeOps, decodeM, fld6, fld10, finish, hl, hz, hr]
theorem bsave (bank : BitVec 1) (at_ : BitVec 32) : Statement (.bsave bank at_) :=
  encodes (.bsave bank at_) 0x206 (packM 0#6 (0#1 ++ bank) at_) rfl rfl (by decide) (by decide) fun q hl hz hr => by
    simp [decodeOps, decodeM, fld6, fld10, finish, hl, hz, hr]
theorem bload (bank : BitVec 1) (at_ : BitVec 32) : Statement (.bload bank at_) :=
  encodes (.bload bank at_) 0x207 (packM 0#6 (0#1 ++ bank) at_) rfl rfl (by decide) (by decide) fun q hl hz hr => by
    simp [decodeOps, decodeM, fld6, fld10, finish, hl, hz, hr]
theorem azero (t : RegF) (at_ : BitVec 32) : Statement (.azero t at_) :=
  encodes (.azero t at_) 0x208 (packM t 0#2 at_) rfl rfl (by decide) (by decide) fun q hl hz hr => by
    simp [decodeOps, decodeM, fld6, fld10, finish, hl, hz, hr]
theorem aload (wide : BitVec 1) (t : RegF) (at_ : BitVec 32) : Statement (.aload wide t at_) :=
  encodes (.aload wide t at_) 0x209 (packM t (0#1 ++ wide) at_) rfl rfl (by decide) (by decide) fun q hl hz hr => by
    simp [decodeOps, decodeM, fld6, fld10, finish, hl, hz, hr]
theorem astore (wide : BitVec 1) (t : RegF) (at_ : BitVec 32) : Statement (.astore wide t at_) :=
  encodes (.astore wide t at_) 0x20A (packM t (0#1 ++ wide) at_) rfl rfl (by decide) (by decide) fun q hl hz hr => by
    simp [decodeOps, decodeM, fld6, fld10, finish, hl, hz, hr]
theorem wcvt (t : RegF) (at_ : BitVec 32) : Statement (.wcvt t at_) :=
  encodes (.wcvt t at_) 0x20B (packM t 0#2 at_) rfl rfl (by decide) (by decide) fun q hl hz hr => by
    simp [decodeOps, decodeM, fld6, fld10, finish, hl, hz, hr]
theorem wzero (t : RegF) (at_ : BitVec 32) : Statement (.wzero t at_) :=
  encodes (.wzero t at_) 0x20C (packM t 0#2 at_) rfl rfl (by decide) (by decide) fun q hl hz hr => by
    simp [decodeOps, decodeM, fld6, fld10, finish, hl, hz, hr]
theorem ckctlOn (at_ : BitVec 32) : Statement (.ckctlOn at_) :=
  encodes (.ckctlOn at_) 0x20D (packM 0#6 1#2 at_) rfl rfl (by decide) (by decide) fun q hl hz hr => by
    simp [decodeOps, decodeM, fld6, fld10, finish, hl, hz, hr]
theorem ckctlDetect (at_ : BitVec 32) : Statement (.ckctlDetect at_) :=
  encodes (.ckctlDetect at_) 0x20D (packM 0#6 2#2 at_) rfl rfl (by decide) (by decide) fun q hl hz hr => by
    simp [decodeOps, decodeM, fld6, fld10, finish, hl, hz, hr]
theorem ckctlOff (at_ : BitVec 32) : Statement (.ckctlOff at_) :=
  encodes (.ckctlOff at_) 0x20D (packM 0#6 0#2 at_) rfl rfl (by decide) (by decide) fun q hl hz hr => by
    simp [decodeOps, decodeM, fld6, fld10, finish, hl, hz, hr]
theorem ringset (rg : BitVec 4) (a b : RegF) : Statement (.ringset rg a b) :=
  encodes (.ringset rg a b) 0x20E (packRG rg a b) rfl rfl (by decide) (by decide) fun q hl hz hr => by
    simp [decodeOps, decodeRG, fld6, fld10, finish, hl, hz, hr]
theorem ringadv (rg : BitVec 4) (a : RegF) : Statement (.ringadv rg a) :=
  encodes (.ringadv rg a) 0x20F (packRG rg a 0#6) rfl rfl (by decide) (by decide) fun q hl hz hr => by
    simp [decodeOps, decodeRG, fld6, fld10, finish, hl, hz, hr]
theorem ringpop (rg : BitVec 4) (n : RegF) : Statement (.ringpop rg n) :=
  encodes (.ringpop rg n) 0x210 (packRG rg n 0#6) rfl rfl (by decide) (by decide) fun q hl hz hr => by
    simp [decodeOps, decodeRG, fld6, fld10, finish, hl, hz, hr]
theorem a2v (v : VOpF) (t : RegF) (rb : BitVec 3) (ch : BitVec 1) (p : PredF) : Statement (.a2v v t rb ch p) :=
  encodes (.a2v v t rb ch p) 0x211 (packMV v t rb ch p) rfl rfl (by decide) (by decide) fun q hl hz hr => by
    simp [decodeOps, decodeRG, fld6, fld10, finish, hl, hz, hr]
theorem v2a (v : VOpF) (t : RegF) (rb : BitVec 3) (ch : BitVec 1) (p : PredF) : Statement (.v2a v t rb ch p) :=
  encodes (.v2a v t rb ch p) 0x212 (packMV v t rb ch p) rfl rfl (by decide) (by decide) fun q hl hz hr => by
    simp [decodeOps, decodeRG, fld6, fld10, finish, hl, hz, hr]
theorem ckrd (v : VOpF) : Statement (.ckrd v) :=
  encodes (.ckrd v) 0x213 (packMV v 0#6 0#3 0#1 0#5) rfl rfl (by decide) (by decide) fun q hl hz hr => by
    simp [decodeOps, decodeRG, fld6, fld10, finish, hl, hz, hr]
theorem ldspm (q : RegF) (base idx : BitVec 5) (off : BitVec 24) : Statement (.ldspm q base idx off) :=
  encodes (.ldspm q base idx off) 0x280 (packMEM q base idx off) rfl rfl (by decide) (by decide) fun q hl hz hr => by
    simp [decodeOps, decodeMEM, fld6, fld10, finish, hl, hz, hr]
theorem lddram (q : RegF) (base idx : BitVec 5) (off : BitVec 24) : Statement (.lddram q base idx off) :=
  encodes (.lddram q base idx off) 0x281 (packMEM q base idx off) rfl rfl (by decide) (by decide) fun q hl hz hr => by
    simp [decodeOps, decodeMEM, fld6, fld10, finish, hl, hz, hr]
theorem ldgath (q : RegF) (base idx : BitVec 5) (off : BitVec 24) : Statement (.ldgath q base idx off) :=
  encodes (.ldgath q base idx off) 0x282 (packMEM q base idx off) rfl rfl (by decide) (by decide) fun q hl hz hr => by
    simp [decodeOps, decodeMEM, fld6, fld10, finish, hl, hz, hr]
theorem ldrg (q : RegF) (base idx : BitVec 5) (rg : BitVec 4) (pop : BitVec 1) : Statement (.ldrg q base idx rg pop) :=
  encodes (.ldrg q base idx rg pop) 0x283 (packMEM q base idx (0#19 ++ pop ++ rg)) rfl rfl (by decide) (by decide) fun q hl hz hr => by
    simp [decodeOps, decodeMEM, fld6, fld10, finish, hl, hz, hr]
theorem ldscal (q : RegF) (base idx : BitVec 5) (off : BitVec 24) : Statement (.ldscal q base idx off) :=
  encodes (.ldscal q base idx off) 0x284 (packMEM q base idx off) rfl rfl (by decide) (by decide) fun q hl hz hr => by
    simp [decodeOps, decodeMEM, fld6, fld10, finish, hl, hz, hr]
theorem ldbc (q : RegF) (base idx : BitVec 5) (off : BitVec 24) : Statement (.ldbc q base idx off) :=
  encodes (.ldbc q base idx off) 0x285 (packMEM q base idx off) rfl rfl (by decide) (by decide) fun q hl hz hr => by
    simp [decodeOps, decodeMEM, fld6, fld10, finish, hl, hz, hr]
theorem pref (base idx : BitVec 5) (off : BitVec 24) : Statement (.pref base idx off) :=
  encodes (.pref base idx off) 0x286 (packMEM 0#6 base idx off) rfl rfl (by decide) (by decide) fun q hl hz hr => by
    simp [decodeOps, decodeMEM, fld6, fld10, finish, hl, hz, hr]
theorem stspm (q : RegF) (base idx : BitVec 5) (off : BitVec 24) : Statement (.stspm q base idx off) :=
  encodes (.stspm q base idx off) 0x288 (packMEM q base idx off) rfl rfl (by decide) (by decide) fun q hl hz hr => by
    simp [decodeOps, decodeMEM, fld6, fld10, finish, hl, hz, hr]
theorem stdram (q : RegF) (base idx : BitVec 5) (off : BitVec 24) : Statement (.stdram q base idx off) :=
  encodes (.stdram q base idx off) 0x289 (packMEM q base idx off) rfl rfl (by decide) (by decide) fun q hl hz hr => by
    simp [decodeOps, decodeMEM, fld6, fld10, finish, hl, hz, hr]
theorem stscat (q : RegF) (base idx : BitVec 5) (off : BitVec 24) : Statement (.stscat q base idx off) :=
  encodes (.stscat q base idx off) 0x28A (packMEM q base idx off) rfl rfl (by decide) (by decide) fun q hl hz hr => by
    simp [decodeOps, decodeMEM, fld6, fld10, finish, hl, hz, hr]
theorem strg (q : RegF) (base idx : BitVec 5) (rg : BitVec 4) (adv : BitVec 1) : Statement (.strg q base idx rg adv) :=
  encodes (.strg q base idx rg adv) 0x28B (packMEM q base idx (0#19 ++ adv ++ rg)) rfl rfl (by decide) (by decide) fun q hl hz hr => by
    simp [decodeOps, decodeMEM, fld6, fld10, finish, hl, hz, hr]
theorem stscal (q : RegF) (base idx : BitVec 5) (off : BitVec 24) : Statement (.stscal q base idx off) :=
  encodes (.stscal q base idx off) 0x28C (packMEM q base idx off) rfl rfl (by decide) (by decide) fun q hl hz hr => by
    simp [decodeOps, decodeMEM, fld6, fld10, finish, hl, hz, hr]
theorem qmark (tag : BitVec 8) : Statement (.qmark tag) :=
  encodes (.qmark tag) 0x290 (packTK 0#6 0#6 0#6 0#6 0#3 0#2 (0#3 ++ tag)) rfl rfl (by decide) (by decide) fun q hl hz hr => by
    simp [decodeOps, decodeTK, fld6, fld10, finish, hl, hz, hr]
theorem copy (d a b c : RegF) (tag : BitVec 6) (shadow sspm dspm : BitVec 1) : Statement (.copy d a b c tag shadow sspm dspm) :=
  encodes (.copy d a b c tag shadow sspm dspm) 0x291 (packTK d a b c 0#3 0#2 (0#2 ++ dspm ++ sspm ++ shadow ++ tag)) rfl rfl (by decide) (by decide) fun q hl hz hr => by
    simp [decodeOps, decodeTK, fld6, fld10, finish, hl, hz, hr]
theorem copyw (d a b c : RegF) (tag : BitVec 6) (shadow sspm dspm : BitVec 1) : Statement (.copyw d a b c tag shadow sspm dspm) :=
  encodes (.copyw d a b c tag shadow sspm dspm) 0x292 (packTK d a b c 0#3 0#2 (0#2 ++ dspm ++ sspm ++ shadow ++ tag)) rfl rfl (by decide) (by decide) fun q hl hz hr => by
    simp [decodeOps, decodeTK, fld6, fld10, finish, hl, hz, hr]
theorem fence (o : Ordr) : Statement (.fence o) :=
  encodes (.fence o) 0x293 (packTK 0#6 0#6 0#6 0#6 o.scope o.ord 0#11) rfl rfl (by decide) (by decide) fun q hl hz hr => by
    simp [decodeOps, decodeTK, fld6, fld10, finish, hl, hz, hr]
theorem publishBuf (a b : RegF) (scope : BitVec 3) : Statement (.publishBuf a b scope) :=
  encodes (.publishBuf a b scope) 0x294 (packTK 0#6 a b 0#6 scope 0#2 0#11) rfl rfl (by decide) (by decide) fun q hl hz hr => by
    simp [decodeOps, decodeTK, fld6, fld10, finish, hl, hz, hr]
theorem publishTile (a : RegF) (scope : BitVec 3) : Statement (.publishTile a scope) :=
  encodes (.publishTile a scope) 0x294 (packTK 0#6 a 0#6 0#6 scope 0#2 1#11) rfl rfl (by decide) (by decide) fun q hl hz hr => by
    simp [decodeOps, decodeTK, fld6, fld10, finish, hl, hz, hr]
theorem amo (d a b c : RegF) (kind : BitVec 4) (size : BitVec 2) (spm : BitVec 1) (o : Ordr) : Statement (.amo d a b c kind size spm o) :=
  encodes (.amo d a b c kind size spm o) 0x298 (packTK d a b c o.scope o.ord (0#4 ++ spm ++ size ++ kind)) rfl rfl (by decide) (by decide) fun q hl hz hr => by
    simp [decodeOps, decodeTK, fld6, fld10, finish, hl, hz, hr]
theorem ramo (d a b c : RegF) (kind : BitVec 4) (size : BitVec 2) (o : Ordr) : Statement (.ramo d a b c kind size o) :=
  encodes (.ramo d a b c kind size o) 0x299 (packTK d a b c o.scope o.ord (0#5 ++ size ++ kind)) rfl rfl (by decide) (by decide) fun q hl hz hr => by
    simp [decodeOps, decodeTK, fld6, fld10, finish, hl, hz, hr]
theorem damo (d a b c : RegF) (kind : BitVec 4) (size : BitVec 2) (o : Ordr) : Statement (.damo d a b c kind size o) :=
  encodes (.damo d a b c kind size o) 0x29A (packTK d a b c o.scope o.ord (0#5 ++ size ++ kind)) rfl rfl (by decide) (by decide) fun q hl hz hr => by
    simp [decodeOps, decodeTK, fld6, fld10, finish, hl, hz, hr]
theorem rwopen (d a b c : RegF) (mirror : BitVec 1) (scope : BitVec 3) : Statement (.rwopen d a b c mirror scope) :=
  encodes (.rwopen d a b c mirror scope) 0x29C (packTK d a b c scope 0#2 (0#10 ++ mirror)) rfl rfl (by decide) (by decide) fun q hl hz hr => by
    simp [decodeOps, decodeTK, fld6, fld10, finish, hl, hz, hr]
theorem rwadd (a b c : RegF) (last : BitVec 1) (ord : BitVec 2) : Statement (.rwadd a b c last ord) :=
  encodes (.rwadd a b c last ord) 0x29B (packTK 0#6 a b c 0#3 ord (0#9 ++ last ++ 0#1)) rfl rfl (by decide) (by decide) fun q hl hz hr => by
    simp [decodeOps, decodeTK, fld6, fld10, finish, hl, hz, hr]
theorem rwaddBlk (a b c : RegF) (last : BitVec 1) (ord : BitVec 2) : Statement (.rwaddBlk a b c last ord) :=
  encodes (.rwaddBlk a b c last ord) 0x29B (packTK 0#6 a b c 0#3 ord (0#9 ++ last ++ 1#1)) rfl rfl (by decide) (by decide) fun q hl hz hr => by
    simp [decodeOps, decodeTK, fld6, fld10, finish, hl, hz, hr]
theorem rwclose (d a : RegF) (ord : BitVec 2) : Statement (.rwclose d a ord) :=
  encodes (.rwclose d a ord) 0x29D (packTK d a 0#6 0#6 0#3 ord 0#11) rfl rfl (by decide) (by decide) fun q hl hz hr => by
    simp [decodeOps, decodeTK, fld6, fld10, finish, hl, hz, hr]
theorem pinit (a b : RegF) : Statement (.pinit a b) :=
  encodes (.pinit a b) 0x2A0 (packTK 0#6 a b 0#6 0#3 0#2 0#11) rfl rfl (by decide) (by decide) fun q hl hz hr => by
    simp [decodeOps, decodeTK, fld6, fld10, finish, hl, hz, hr]
theorem ppush (d a b : RegF) (que : BitVec 1) (o : Ordr) : Statement (.ppush d a b que o) :=
  encodes (.ppush d a b que o) 0x2A1 (packTK d a b 0#6 o.scope o.ord (0#10 ++ que)) rfl rfl (by decide) (by decide) fun q hl hz hr => by
    simp [decodeOps, decodeTK, fld6, fld10, finish, hl, hz, hr]
theorem ppop (d b a : RegF) (que : BitVec 1) (o : Ordr) : Statement (.ppop d b a que o) :=
  encodes (.ppop d b a que o) 0x2A2 (packTK d a b 0#6 o.scope o.ord (0#10 ++ que)) rfl rfl (by decide) (by decide) fun q hl hz hr => by
    simp [decodeOps, decodeTK, fld6, fld10, finish, hl, hz, hr]
theorem tkwait (dir : BitVec 2) (n : BitVec 6) (ord : BitVec 2) : Statement (.tkwait dir n ord) :=
  encodes (.tkwait dir n ord) 0x2A4 (packTK 0#6 0#6 0#6 0#6 0#3 ord (0#3 ++ n ++ dir)) rfl rfl (by decide) (by decide) fun q hl hz hr => by
    simp [decodeOps, decodeTK, fld6, fld10, finish, hl, hz, hr]
theorem tksig (dir : BitVec 2) (n : BitVec 6) (ord : BitVec 2) : Statement (.tksig dir n ord) :=
  encodes (.tksig dir n ord) 0x2A5 (packTK 0#6 0#6 0#6 0#6 0#3 ord (0#3 ++ n ++ dir)) rfl rfl (by decide) (by decide) fun q hl hz hr => by
    simp [decodeOps, decodeTK, fld6, fld10, finish, hl, hz, hr]
theorem bar (level : BitVec 3) (o : Ordr) : Statement (.bar level o) :=
  encodes (.bar level o) 0x2A8 (packTK 0#6 0#6 0#6 0#6 o.scope o.ord (0#8 ++ level)) rfl rfl (by decide) (by decide) fun q hl hz hr => by
    simp [decodeOps, decodeTK, fld6, fld10, finish, hl, hz, hr]
theorem book (d a : RegF) : Statement (.book d a) :=
  encodes (.book d a) 0x2B0 (packTK d a 0#6 0#6 0#3 0#2 0#11) rfl rfl (by decide) (by decide) fun q hl hz hr => by
    simp [decodeOps, decodeTK, fld6, fld10, finish, hl, hz, hr]
theorem bookq (d a : RegF) : Statement (.bookq d a) :=
  encodes (.bookq d a) 0x2B1 (packTK d a 0#6 0#6 0#3 0#2 0#11) rfl rfl (by decide) (by decide) fun q hl hz hr => by
    simp [decodeOps, decodeTK, fld6, fld10, finish, hl, hz, hr]
theorem start (a : RegF) : Statement (.start a) :=
  encodes (.start a) 0x2B2 (packTK 0#6 a 0#6 0#6 0#3 0#2 0#11) rfl rfl (by decide) (by decide) fun q hl hz hr => by
    simp [decodeOps, decodeTK, fld6, fld10, finish, hl, hz, hr]
theorem spawn (d a b : RegF) (prio : BitVec 3) (inherit : BitVec 1) : Statement (.spawn d a b prio inherit) :=
  encodes (.spawn d a b prio inherit) 0x2B4 (packTK d a b 0#6 0#3 0#2 (0#7 ++ inherit ++ prio)) rfl rfl (by decide) (by decide) fun q hl hz hr => by
    simp [decodeOps, decodeTK, fld6, fld10, finish, hl, hz, hr]
theorem launch (d a : RegF) : Statement (.launch d a) :=
  encodes (.launch d a) 0x2B5 (packTK d a 0#6 0#6 0#3 0#2 0#11) rfl rfl (by decide) (by decide) fun q hl hz hr => by
    simp [decodeOps, decodeTK, fld6, fld10, finish, hl, hz, hr]
theorem wborrow (d : RegF) : Statement (.wborrow d) :=
  encodes (.wborrow d) 0x2B6 (packTK d 0#6 0#6 0#6 0#3 0#2 0#11) rfl rfl (by decide) (by decide) fun q hl hz hr => by
    simp [decodeOps, decodeTK, fld6, fld10, finish, hl, hz, hr]
theorem tlfill (a : RegF) : Statement (.tlfill a) :=
  encodes (.tlfill a) 0x2B8 (packTK 0#6 a 0#6 0#6 0#3 0#2 0#11) rfl rfl (by decide) (by decide) fun q hl hz hr => by
    simp [decodeOps, decodeTK, fld6, fld10, finish, hl, hz, hr]
theorem tlwait (d a : RegF) : Statement (.tlwait d a) :=
  encodes (.tlwait d a) 0x2B9 (packTK d a 0#6 0#6 0#3 0#2 0#11) rfl rfl (by decide) (by decide) fun q hl hz hr => by
    simp [decodeOps, decodeTK, fld6, fld10, finish, hl, hz, hr]
theorem tlquery (d a : RegF) : Statement (.tlquery d a) :=
  encodes (.tlquery d a) 0x2BA (packTK d a 0#6 0#6 0#3 0#2 0#11) rfl rfl (by decide) (by decide) fun q hl hz hr => by
    simp [decodeOps, decodeTK, fld6, fld10, finish, hl, hz, hr]
theorem vectorGroupRead (core word k : Nat) : Statement (.vectorGroupRead core word k) := encodes_none (.vectorGroupRead core word k) rfl
theorem vectorCompletion (core word k : Nat) : Statement (.vectorCompletion core word k) := encodes_none (.vectorCompletion core word k) rfl
theorem vectorCommit (core word : Nat) : Statement (.vectorCommit core word) := encodes_none (.vectorCommit core word) rfl
theorem matrixCommandStart (core : Nat) : Statement (.matrixCommandStart core) := encodes_none (.matrixCommandStart core) rfl
theorem ringBlockRead (core cmd b : Nat) : Statement (.ringBlockRead core cmd b) := encodes_none (.ringBlockRead core cmd b) rfl
theorem mmaBlockAdd (core cmd b : Nat) : Statement (.mmaBlockAdd core cmd b) := encodes_none (.mmaBlockAdd core cmd b) rfl
theorem scntBlockCount (core cmd b : Nat) : Statement (.scntBlockCount core cmd b) := encodes_none (.scntBlockCount core cmd b) rfl
theorem matrixRetire (core cmd : Nat) : Statement (.matrixRetire core cmd) := encodes_none (.matrixRetire core cmd) rfl
theorem engineFaultTrap (core eng : Nat) : Statement (.engineFaultTrap core eng) := encodes_none (.engineFaultTrap core eng) rfl
theorem loadQueuePush (core cmd : Nat) : Statement (.loadQueuePush core cmd) := encodes_none (.loadQueuePush core cmd) rfl
theorem lddramReturn (core cmd : Nat) : Statement (.lddramReturn core cmd) := encodes_none (.lddramReturn core cmd) rfl
theorem storePerformed (core cmd : Nat) : Statement (.storePerformed core cmd) := encodes_none (.storePerformed core cmd) rfl
theorem gatherElement (core cmd i : Nat) : Statement (.gatherElement core cmd i) := encodes_none (.gatherElement core cmd i) rfl
theorem copyNodeStart (core node : Nat) : Statement (.copyNodeStart core node) := encodes_none (.copyNodeStart core node) rfl
theorem copyUnit (core node u : Nat) : Statement (.copyUnit core node u) := encodes_none (.copyUnit core node u) rfl
theorem copyNodeRetire (core node : Nat) : Statement (.copyNodeRetire core node) := encodes_none (.copyNodeRetire core node) rfl
theorem publishSwitch (pub : Nat) : Statement (.publishSwitch pub) := encodes_none (.publishSwitch pub) rfl
theorem rwContribution (contrib : Nat) : Statement (.rwContribution contrib) := encodes_none (.rwContribution contrib) rfl
theorem rwDelivery (win : Nat) : Statement (.rwDelivery win) := encodes_none (.rwDelivery win) rfl
theorem modeDrainDone (core : Nat) : Statement (.modeDrainDone core) := encodes_none (.modeDrainDone core) rfl
theorem calendarT0Resume (core : Nat) : Statement (.calendarT0Resume core) := encodes_none (.calendarT0Resume core) rfl
theorem taskEnd (core : Nat) : Statement (.taskEnd core) := encodes_none (.taskEnd core) rfl
theorem bookingPlacement (task : Nat) : Statement (.bookingPlacement task) := encodes_none (.bookingPlacement task) rfl
theorem prologueStart (task : Nat) : Statement (.prologueStart task) := encodes_none (.prologueStart task) rfl
theorem coreSpanStart (task : Nat) : Statement (.coreSpanStart task) := encodes_none (.coreSpanStart task) rfl
theorem taskRunStart (task : Nat) : Statement (.taskRunStart task) := encodes_none (.taskRunStart task) rfl
theorem windowEnd (core : Nat) : Statement (.windowEnd core) := encodes_none (.windowEnd core) rfl
theorem preemptRequest (task : Nat) : Statement (.preemptRequest task) := encodes_none (.preemptRequest task) rfl
theorem preemptCutStop (core : Nat) : Statement (.preemptCutStop core) := encodes_none (.preemptCutStop core) rfl
theorem preemptTimeoutStop (core : Nat) : Statement (.preemptTimeoutStop core) := encodes_none (.preemptTimeoutStop core) rfl
theorem stateSaveDone (task : Nat) : Statement (.stateSaveDone task) := encodes_none (.stateSaveDone task) rfl
theorem restorePrologue (task : Nat) : Statement (.restorePrologue task) := encodes_none (.restorePrologue task) rfl
theorem priorityAging (task : Nat) : Statement (.priorityAging task) := encodes_none (.priorityAging task) rfl
theorem weightReturn (task : Nat) : Statement (.weightReturn task) := encodes_none (.weightReturn task) rfl
theorem barrierDeparture (launch level group : Nat) : Statement (.barrierDeparture launch level group) := encodes_none (.barrierDeparture launch level group) rfl
theorem lineageAck (name : Nat) (mirror : Bool) : Statement (.lineageAck name mirror) := encodes_none (.lineageAck name mirror) rfl
theorem replicaComplete (name : Nat) : Statement (.replicaComplete name) := encodes_none (.replicaComplete name) rfl
theorem darnerWalk (name : Nat) : Statement (.darnerWalk name) := encodes_none (.darnerWalk name) rfl
theorem verificationCompare (name : Nat) : Statement (.verificationCompare name) := encodes_none (.verificationCompare name) rfl
theorem spareFill (die : Nat) : Statement (.spareFill die) := encodes_none (.spareFill die) rfl
theorem spareFillComplete (die : Nat) : Statement (.spareFillComplete die) := encodes_none (.spareFillComplete die) rfl
theorem damoArrival (op : Nat) : Statement (.damoArrival op) := encodes_none (.damoArrival op) rfl
theorem damoRetryResend (op : Nat) : Statement (.damoRetryResend op) := encodes_none (.damoRetryResend op) rfl
theorem horizonMessage (unit src : Nat) : Statement (.horizonMessage unit src) := encodes_none (.horizonMessage unit src) rfl
theorem damoWindowClose (unit : Nat) : Statement (.damoWindowClose unit) := encodes_none (.damoWindowClose unit) rfl
theorem pairingArrival (op : Nat) : Statement (.pairingArrival op) := encodes_none (.pairingArrival op) rfl
theorem pairingHoldExpiry (op : Nat) : Statement (.pairingHoldExpiry op) := encodes_none (.pairingHoldExpiry op) rfl
theorem fallThroughApply (op : Nat) : Statement (.fallThroughApply op) := encodes_none (.fallThroughApply op) rfl
theorem atomicResultReturn (core op : Nat) : Statement (.atomicResultReturn core op) := encodes_none (.atomicResultReturn core op) rfl
theorem weightBorrowAck (task : Nat) : Statement (.weightBorrowAck task) := encodes_none (.weightBorrowAck task) rfl
theorem ret : Statement .ret :=
  encodes .ret 0x044 (packBR 0#6 0#6 0#14) rfl rfl (by decide) (by decide) fun q hl hz hr => by
    simp [decodeOps, decodeBR, fld6, fld10, finish, hl, hz, hr]
theorem retEh : Statement .retEh :=
  encodes .retEh 0x044 (packBR 0#6 1#6 0#14) rfl rfl (by decide) (by decide) fun q hl hz hr => by
    simp [decodeOps, decodeBR, fld6, fld10, finish, hl, hz, hr]
theorem modeCal : Statement .modeCal :=
  encodes .modeCal 0x054 (packSY 0#6 0#10) rfl rfl (by decide) (by decide) fun q hl hz hr => by
    simp [decodeOps, decodeSY, fld6, fld10, finish, hl, hz, hr]
theorem modeSb : Statement .modeSb :=
  encodes .modeSb 0x054 (packSY 0#6 1#10) rfl rfl (by decide) (by decide) fun q hl hz hr => by
    simp [decodeOps, decodeSY, fld6, fld10, finish, hl, hz, hr]
theorem halt : Statement .halt :=
  encodes .halt 0x056 (packSY 0#6 0#10) rfl rfl (by decide) (by decide) fun q hl hz hr => by
    simp [decodeOps, decodeSY, fld6, fld10, finish, hl, hz, hr]
theorem nop : Statement .nop :=
  encodes .nop 0x057 (packSY 0#6 0#10) rfl rfl (by decide) (by decide) fun q hl hz hr => by
    simp [decodeOps, decodeSY, fld6, fld10, finish, hl, hz, hr]
theorem mpop : Statement .mpop :=
  encodes .mpop 0x14D (packV3 0#10 0#10 0#10 0#5 0#5) rfl rfl (by decide) (by decide) fun q hl hz hr => by
    simp [decodeOps, decodeVP, fld6, fld10, finish, hl, hz, hr]
theorem rrbdec : Statement .rrbdec :=
  encodes .rrbdec 0x150 (packV3 0#10 0#10 0#10 0#5 0#5) rfl rfl (by decide) (by decide) fun q hl hz hr => by
    simp [decodeOps, decodeVP, fld6, fld10, finish, hl, hz, hr]
theorem tend : Statement .tend :=
  encodes .tend 0x2B3 (packTK 0#6 0#6 0#6 0#6 0#3 0#2 0#11) rfl rfl (by decide) (by decide) fun q hl hz hr => by
    simp [decodeOps, decodeTK, fld6, fld10, finish, hl, hz, hr]
theorem cut : Statement .cut :=
  encodes .cut 0x2BC (packTK 0#6 0#6 0#6 0#6 0#3 0#2 0#11) rfl rfl (by decide) (by decide) fun q hl hz hr => by
    simp [decodeOps, decodeTK, fld6, fld10, finish, hl, hz, hr]
theorem queueRotation : Statement .queueRotation := encodes_none .queueRotation rfl
theorem dieWorkSteal : Statement .dieWorkSteal := encodes_none .dieWorkSteal rfl
theorem bookingRelease : Statement .bookingRelease := encodes_none .bookingRelease rfl
theorem teamAdmission : Statement .teamAdmission := encodes_none .teamAdmission rfl
theorem teamSwap : Statement .teamSwap := encodes_none .teamSwap rfl
theorem shardPressureReplication : Statement .shardPressureReplication := encodes_none .shardPressureReplication rfl
theorem claspPairing : Statement .claspPairing := encodes_none .claspPairing rfl
theorem multicastWrite : Statement .multicastWrite := encodes_none .multicastWrite rfl
theorem ringPacketArrival : Statement .ringPacketArrival := encodes_none .ringPacketArrival rfl
theorem ringPacketResend : Statement .ringPacketResend := encodes_none .ringPacketResend rfl
theorem heartbeat : Statement .heartbeat := encodes_none .heartbeat rfl
theorem boundaryCut : Statement .boundaryCut := encodes_none .boundaryCut rfl
theorem deliveryContextOpen : Statement .deliveryContextOpen := encodes_none .deliveryContextOpen rfl
theorem deliveryPacketArrival : Statement .deliveryPacketArrival := encodes_none .deliveryPacketArrival rfl
theorem deliveryResendTimeout : Statement .deliveryResendTimeout := encodes_none .deliveryResendTimeout rfl
theorem deliveryBusyRetry : Statement .deliveryBusyRetry := encodes_none .deliveryBusyRetry rfl
theorem deliveryTeardown : Statement .deliveryTeardown := encodes_none .deliveryTeardown rfl
theorem remoteTranslationReq : Statement .remoteTranslationReq := encodes_none .remoteTranslationReq rfl
theorem remoteTranslationReply : Statement .remoteTranslationReply := encodes_none .remoteTranslationReply rfl
theorem exportInvalidation : Statement .exportInvalidation := encodes_none .exportInvalidation rfl
theorem pinRelease : Statement .pinRelease := encodes_none .pinRelease rfl
theorem migrationCopyDone : Statement .migrationCopyDone := encodes_none .migrationCopyDone rfl
theorem migrationSwitch : Statement .migrationSwitch := encodes_none .migrationSwitch rfl
theorem migrationLogRetry : Statement .migrationLogRetry := encodes_none .migrationLogRetry rfl
theorem migrationFree : Statement .migrationFree := encodes_none .migrationFree rfl
theorem hcmdLaunch : Statement .hcmdLaunch := encodes_none .hcmdLaunch rfl
theorem hcmdCtxnew : Statement .hcmdCtxnew := encodes_none .hcmdCtxnew rfl
theorem hcmdCtxend : Statement .hcmdCtxend := encodes_none .hcmdCtxend rfl
theorem hcmdInval : Statement .hcmdInval := encodes_none .hcmdInval rfl
theorem hcmdExport : Statement .hcmdExport := encodes_none .hcmdExport rfl
theorem hcmdUnexport : Statement .hcmdUnexport := encodes_none .hcmdUnexport rfl
theorem hcmdMigrate : Statement .hcmdMigrate := encodes_none .hcmdMigrate rfl
theorem hcmdMcgroup : Statement .hcmdMcgroup := encodes_none .hcmdMcgroup rfl
theorem icauseWrite : Statement .icauseWrite := encodes_none .icauseWrite rfl
theorem imaskWrite : Statement .imaskWrite := encodes_none .imaskWrite rfl
theorem registerWrite : Statement .registerWrite := encodes_none .registerWrite rfl
theorem mresetGo : Statement .mresetGo := encodes_none .mresetGo rfl
theorem fwstage : Statement .fwstage := encodes_none .fwstage rfl
theorem attreq : Statement .attreq := encodes_none .attreq rfl
theorem pcapWrite : Statement .pcapWrite := encodes_none .pcapWrite rfl
theorem coldReset : Statement .coldReset := encodes_none .coldReset rfl
theorem pcieReset : Statement .pcieReset := encodes_none .pcieReset rfl
theorem bringupStage : Statement .bringupStage := encodes_none .bringupStage rfl
theorem rackStcSync : Statement .rackStcSync := encodes_none .rackStcSync rfl
theorem powerStateEntry : Statement .powerStateEntry := encodes_none .powerStateEntry rfl
theorem powerStateExit : Statement .powerStateExit := encodes_none .powerStateExit rfl
theorem thermalLimit : Statement .thermalLimit := encodes_none .thermalLimit rfl
theorem eccCorrection : Statement .eccCorrection := encodes_none .eccCorrection rfl
theorem eccReread : Statement .eccReread := encodes_none .eccReread rfl
theorem patrolScrub : Statement .patrolScrub := encodes_none .patrolScrub rfl
theorem frameRetirement : Statement .frameRetirement := encodes_none .frameRetirement rfl
theorem sramDoubleBitError : Statement .sramDoubleBitError := encodes_none .sramDoubleBitError rfl
theorem redundantRunCompare : Statement .redundantRunCompare := encodes_none .redundantRunCompare rfl
theorem testDue : Statement .testDue := encodes_none .testDue rfl
theorem testScanStart : Statement .testScanStart := encodes_none .testScanStart rfl
theorem testScanEnd : Statement .testScanEnd := encodes_none .testScanEnd rfl
theorem testAbort : Statement .testAbort := encodes_none .testAbort rfl
theorem sensorAlarm : Statement .sensorAlarm := encodes_none .sensorAlarm rfl
theorem linkFrameReceive : Statement .linkFrameReceive := encodes_none .linkFrameReceive rfl
theorem linkNakReceive : Statement .linkNakReceive := encodes_none .linkNakReceive rfl
theorem linkKeyExchange : Statement .linkKeyExchange := encodes_none .linkKeyExchange rfl
theorem linkKeyMarker : Statement .linkKeyMarker := encodes_none .linkKeyMarker rfl
theorem dcpFatalFault : Statement .dcpFatalFault := encodes_none .dcpFatalFault rfl
theorem rackLinkFailure : Statement .rackLinkFailure := encodes_none .rackLinkFailure rfl
theorem hostMemoryWrite : Statement .hostMemoryWrite := encodes_none .hostMemoryWrite rfl
theorem ringPacketAck : Statement .ringPacketAck := encodes_none .ringPacketAck rfl
theorem deliveryAck : Statement .deliveryAck := encodes_none .deliveryAck rfl
theorem linkFrameAck : Statement .linkFrameAck := encodes_none .linkFrameAck rfl
theorem exportInvalidationAck : Statement .exportInvalidationAck := encodes_none .exportInvalidationAck rfl

end Encodes

end Sys2Proof.Laws
end

