-- ==== Sys2Proof/Laws/Words.lean ====
section
/-! SUPPORT. A word that begins: its outcome by what its effect answers, and where its stream then stands. -/

namespace Sys2Proof.Machine

theorem State.Begins.issue {s t : State} {k : Kind} (h : s.Begins k t) (body : State → Res) :
    s.issue k body = s.settled.conclude k (body t) := by
  obtain ⟨c, hc, rfl⟩ := h; exact State.issue_ok s k body c hc

theorem State.Begins.done {s t u : State} {k : Kind} (h : s.Begins k t) {body : State → Res} (hb : body t = .done u) :
    s.issue k body = u.finishIssue k s.settled.cur.vec.skip none (s.curSeq.pc + 1#14) := by
  rw [h.issue, hb]; simp [State.conclude]

theorem State.Begins.branch {s t u : State} {k : Kind} {g : Option (BitVec 14)} (h : s.Begins k t) {body : State → Res}
    (hb : body t = .branch u g) :
    s.issue k body = u.finishIssue k s.settled.cur.vec.skip (some g) (s.curSeq.pc + 1#14) := by
  rw [h.issue, hb]; simp [State.conclude]

theorem State.Begins.skip {s t u : State} {k : Kind} {g : BitVec 14} (h : s.Begins k t) {body : State → Res}
    (hb : body t = .skip u g) : s.issue k body = u.finishIssue k s.settled.cur.vec.skip none g := by
  rw [h.issue, hb]; simp [State.conclude]

theorem State.Begins.trap {s t : State} {k : Kind} {c : Cause} {code : BitVec 10} (h : s.Begins k t) {body : State → Res}
    (hb : body t = .trap c code false) : s.issue k body = s.settled.wordTrap c code := by
  rw [h.issue, hb]; simp [State.conclude]

theorem State.Begins.wait {s t : State} {k : Kind} (h : s.Begins k t) {body : State → Res} (hb : body t = .wait) :
    s.issue k body = s.settled.block .schedmiss := by
  rw [h.issue, hb]; simp [State.conclude]

/-- Where the stream stands in the state in which the effect is worked out: as before, but for the refill cycles. -/
theorem State.Begins.curSeq {s t : State} {k : Kind} (h : s.Begins k t) : t.curSeq = { s.settled.curSeq with extra := 0 } := by
  obtain ⟨c, hc, rfl⟩ := h; exact State.begun_curSeq _ _ _ hc

theorem State.Begins.turn {s t : State} {k : Kind} (h : s.Begins k t) : t.turn = s.turn := by
  obtain ⟨c, _, rfl⟩ := h; rfl
theorem State.Begins.stc {s t : State} {k : Kind} (h : s.Begins k t) : t.stc = s.stc := by
  obtain ⟨c, _, rfl⟩ := h; rfl
theorem State.Begins.dram {s t : State} {k : Kind} (h : s.Begins k t) : t.dram = s.dram := by
  obtain ⟨c, _, rfl⟩ := h; rfl
theorem State.Begins.slots {s t : State} {k : Kind} (h : s.Begins k t) (hb : k.branch = true) : s.curSeq.slots = 0 := by
  obtain ⟨c, hc, rfl⟩ := h
  simpa using (State.gate_ok _ _ _ hc).2.1 hb
theorem State.Begins.pre {s t : State} {k : Kind} (h : s.Begins k t) : k.pre = none := by
  obtain ⟨c, hc, _⟩ := h; exact (State.gate_ok _ _ _ hc).1

/-- Off X the core in which the effect is worked out is the settled core but for the token queues and the refill cycles. -/
theorem State.Begins.cur {s t : State} {k : Kind} (h : s.Begins k t) (hq : s.turn.q ≠ .x) :
    ∃ x, t.cur = ({ s.settled.cur with q := x } : Core).modSeq s.turn.q fun y => { y with extra := 0 } := by
  obtain ⟨c, hc, rfl⟩ := h
  obtain ⟨x, rfl⟩ := State.gate_core _ _ _ hc
  exact ⟨x, State.begun_cur _ _ _ hq⟩

/-- With its registers free, an interlocked word goes on. -/
theorem State.RegsFree.interlock {t : State} {rs : List RegF} (h : t.RegsFree rs) (body : State → Res) :
    t.interlock rs body t = body t := by
  cases hr : t.cur.sys.region
  · exact State.interlock_cal _ _ _ _ hr
  · exact State.interlock_free _ _ _ _ (h hr)

@[simp] theorem State.curSeq_pc_begins {s t : State} {k : Kind} (h : s.Begins k t) : t.curSeq.pc = s.curSeq.pc := by
  rw [h.curSeq]; simp

/-- The end of an issue is the issue of the word. -/
theorem State.Begins.issued {s t u : State} {k : Kind} (h : s.Begins k t) (hc : u.curSeq.pc = t.curSeq.pc)
    (ht : u.turn = t.turn) (hs : u.stc = t.stc) (k' : Kind) (n : Nat) (r : Option (Option (BitVec 14))) (d : BitVec 14) :
    s.Issued (u.finishIssue k' n r d) := by
  refine ⟨?_, ?_, ?_, ?_⟩
  · rw [State.finishIssue_turn, ht, h.turn]
  · rw [State.finishIssue_stc, hs, h.stc]
  · rw [State.finishIssue_curSeq, SeqSt.advance_lastPc, hc, State.curSeq_pc_begins h]
  · rw [State.finishIssue_curSeq, SeqSt.advance_last, hs, h.stc]

end Sys2Proof.Machine
end

