-- ==== Sys2Proof/Laws/Vector.lean ====
section
/-! SUPPORT. What the issue of a word leaves on any sequencer, X among them, the agenda, and the placing of a vector word. -/

namespace Sys2Proof.Machine

/-! ### The agenda -/

theorem mem_insJob (j k : Job) (l : List Job) : j ∈ insJob k l ↔ j = k ∨ j ∈ l := by
  induction l with
  | nil => simp [insJob]
  | cons a t ih =>
    simp only [insJob]
    split
    · simp
    · simp only [List.mem_cons, ih]
      constructor
      · rintro (h | h | h) <;> simp [h]
      · rintro (h | h | h) <;> simp [h]

theorem mem_insPend (p k : Pend) (l : List Pend) : p ∈ insPend k l ↔ p = k ∨ p ∈ l := by
  induction l with
  | nil => simp [insPend]
  | cons a t ih =>
    simp only [insPend]
    split
    · simp
    · simp only [List.mem_cons, ih]
      constructor
      · rintro (h | h | h) <;> simp [h]
      · rintro (h | h | h) <;> simp [h]

theorem State.mem_sched (s : State) (due ph : Nat) (ev : Instr) (j : Job) :
    j ∈ (s.sched due ph ev).agenda ↔ j = ⟨due, ph, ev, {}, {}⟩ ∨ j ∈ s.agenda := mem_insJob ..

theorem State.mem_schedInp (s : State) (due ph : Nat) (ev : Instr) (i : Input) (j : Job) :
    j ∈ (s.schedInp due ph ev i).agenda ↔ j = ⟨due, ph, ev, i, {}⟩ ∨ j ∈ s.agenda := mem_insJob ..

/-! ### Any sequencer -/

/-- Token pushes change the token queues, or are held by the newest entry of the window. -/
theorem pushTokens_any (now : Nat) (q : Seq) (fs : List Nat) (c : Core) :
    ∃ x win, pushTokens now q fs c = { c with q := x, vec := { c.vec with window := win } } ∧
      (c.vec.window = [] → win = []) ∧
      (∀ w ∈ c.vec.window, ∃ w' ∈ win, ∀ e ∈ w.held, e ∈ w'.held) := by
  induction fs generalizing c with
  | nil => exact ⟨c.q, c.vec.window, rfl, id, fun w hw => ⟨w, hw, fun _ h => h⟩⟩
  | cons f t ih =>
    simp only [pushTokens]
    split
    · rename_i h
      obtain ⟨rfl, hw⟩ := h
      have he : ∃ l, c.vec.window.getLast? = some l := by
        cases hl : c.vec.window.getLast? with
        | none => exact absurd (List.getLast?_eq_none_iff.1 hl) hw
        | some l => exact ⟨l, rfl⟩
      obtain ⟨l, hl⟩ := he
      obtain ⟨x, win, h1, h2, h3⟩ := ih (c.emit .x now (.token f 1))
      rw [h1]
      simp only [Core.emit, hl] at h2 h3 ⊢
      refine ⟨x, win, rfl, fun h => absurd h hw, fun w hm => ?_⟩
      have hsplit : c.vec.window = c.vec.window.dropLast ++ [l] := by
        obtain ⟨ys, hy⟩ := List.getLast?_eq_some_iff.1 hl
        rw [hy]; simp
      rw [hsplit] at hm
      rcases List.mem_append.1 hm with hm | hm
      · exact h3 w (List.mem_append_left _ hm)
      · obtain ⟨w', hw', hh⟩ := h3 { l with held := l.held ++ [.token f 1] } (by simp)
        refine ⟨w', hw', fun e he => hh e ?_⟩
        simp only [List.mem_singleton] at hm
        subst hm
        exact List.mem_append_left _ he
    · obtain ⟨x, win, h1, h2, h3⟩ := ih (c.pushTok f now 1)
      rw [h1]
      exact ⟨x, win, rfl, h2, h3⟩

/-- The end of an issue on any sequencer. -/
theorem State.finishIssue_any (t : State) (k : Kind) (n : Nat) (r : Option (Option (BitVec 14))) (d : BitVec 14) :
    ∃ x b win sk, (t.finishIssue k n r d).cur =
      ({ t.cur with q := x, sys := { t.cur.sys with audit := b },
                    vec := { t.cur.vec with window := win, skip := sk } } : Core).modSeq t.turn.q (fun y => y.advance t.stc r d) ∧
      (t.cur.vec.window = [] → win = []) ∧
      (∀ w ∈ t.cur.vec.window, ∃ w' ∈ win, ∀ e ∈ w.held, e ∈ w'.held) ∧
      sk = (if t.turn.q = .x ∧ n ≠ 0 then n - 1 else t.cur.vec.skip) := by
  obtain ⟨x, win, h1, h2, h3⟩ := pushTokens_any t.stc t.turn.q (pushList t.turn.q t.turn.hdr.push) t.cur
  have h : (t.finishIssue k n r d).cur = _ := State.modCur_cur t _
  rw [h]
  have aux : ∀ (c : Core) (x : QueueSt) (win : List XEntry), c = { t.cur with q := x, vec := { t.cur.vec with window := win } } →
      (t.cur.vec.window = [] → win = []) → (∀ w ∈ t.cur.vec.window, ∃ w' ∈ win, ∀ e ∈ w.held, e ∈ w'.held) →
      ∃ x b win sk, (stepSkip n t.turn.q (if k.audit then { c with sys := { c.sys with audit := true } } else c)).modSeq t.turn.q
          (fun y => y.advance t.stc r d) =
        ({ t.cur with q := x, sys := { t.cur.sys with audit := b },
                      vec := { t.cur.vec with window := win, skip := sk } } : Core).modSeq t.turn.q (fun y => y.advance t.stc r d) ∧
        (t.cur.vec.window = [] → win = []) ∧
        (∀ w ∈ t.cur.vec.window, ∃ w' ∈ win, ∀ e ∈ w.held, e ∈ w'.held) ∧
        sk = (if t.turn.q = .x ∧ n ≠ 0 then n - 1 else t.cur.vec.skip) := by
    rintro c x win rfl h2 h3
    refine ⟨x, (if k.audit then true else t.cur.sys.audit), win, _, ?_, h2, h3, rfl⟩
    congr 1
    unfold stepSkip
    cases k.audit <;> split <;> rename_i hh <;> simp only [hh, if_true, if_false] <;> rfl
  by_cases ht : k.tokens
  · simp only [ht, if_true]
    exact aux _ x win h1 h2 h3
  · simp only [ht]
    exact aux _ t.cur.q t.cur.vec.window rfl id fun w hw => ⟨w, hw, fun _ h => h⟩

@[simp] theorem State.finishIssue_core_ne (t : State) (k : Kind) (n : Nat) (r : Option (Option (BitVec 14))) (d : BitVec 14)
    (m : Nat) (h : m ≠ t.turn.core) : (t.finishIssue k n r d).core m = t.core m := State.modCore_core_ne _ _ _ _ h

/-- Core n holds what it held, but for other cores' changes. -/
theorem State.settled_core_ne (s : State) (m : Nat) (h : m ≠ s.turn.core) : s.settled.core m = s.core m :=
  State.modCore_core_ne _ _ _ _ h

theorem State.Begins.core_ne {s t : State} {k : Kind} (h : s.Begins k t) (m : Nat) (hm : m ≠ s.turn.core) :
    t.core m = s.core m := by
  obtain ⟨c, hc, rfl⟩ := h
  unfold State.begun
  rw [State.settled_turn, State.setCore_core_ne _ _ _ _ hm, State.settled_core_ne _ _ hm]

theorem State.Begins.agenda {s t : State} {k : Kind} (h : s.Begins k t) : t.agenda = s.agenda := by
  obtain ⟨c, hc, rfl⟩ := h; rfl

/-! ### The placing of a vector word -/

theorem forUp_mem (n : Nat) (f : Nat → State → State) (g : Nat → Job) (s : State)
    (hs : ∀ k t, (f k t).stc = t.stc) (hf : ∀ k t j, t.stc = s.stc → (j ∈ (f k t).agenda ↔ j = g k ∨ j ∈ t.agenda)) (j : Job) :
    j ∈ (forUp n f s).agenda ↔ (∃ k, k < n ∧ j = g k) ∨ j ∈ s.agenda := by
  induction n with
  | zero => simp [forUp]
  | succ n ih =>
    have he : ∀ n, (forUp n f s).stc = s.stc := by
      intro n; induction n with
      | zero => rfl
      | succ n ih => simp only [forUp, hs, ih]
    simp only [forUp, hf _ _ _ (he n), ih]
    constructor
    · rintro (h | ⟨k, hk, h⟩ | h)
      · exact .inl ⟨n, by omega, h⟩
      · exact .inl ⟨k, by omega, h⟩
      · exact .inr h
    · rintro (⟨k, hk, h⟩ | h)
      · by_cases e : k = n
        · subst e; exact .inl h
        · exact .inr (.inl ⟨k, by omega, h⟩)
      · exact .inr (.inr h)

theorem forUp_keep {β : Type} (n : Nat) (f : Nat → State → State) (p : State → β) (s : State) (hf : ∀ k t, p (f k t) = p t) :
    p (forUp n f s) = p s := by
  induction n with
  | zero => rfl
  | succ n ih => simp only [forUp, hf, ih]

theorem State.schedVector_keep {β : Type} (p : State → β) (hp : ∀ s due ph ev, p (State.sched s due ph ev) = p s) (s : State) (n : Nat) (w : VWord) :
    p (s.schedVector n w) = p s := by
  unfold State.schedVector
  rw [forUp_keep _ _ p _ (fun k t => hp ..), forUp_keep _ _ p _ (fun k t => hp ..)]

theorem State.mem_schedVector (s : State) (n : Nat) (w : VWord) (j : Job) :
    j ∈ (s.schedVector n w).agenda ↔
      (∃ k, k < (Instr.vdones w.op w.group w.occ w.lat).1 ∧
        j = ⟨s.stc + (Instr.vdones w.op w.group w.occ w.lat).2.2 + (Instr.vdones w.op w.group w.occ w.lat).2.1 * k, phComplete, .vectorCompletion n w.id k, {}, {}⟩) ∨
      (∃ k, k < (Instr.vreads w.op w.group w.occ).1 ∧
        j = ⟨s.stc + (Instr.vreads w.op w.group w.occ).2.2 + (Instr.vreads w.op w.group w.occ).2.1 * k,
          (match w.op with | .a2v .. => phTileRead | _ => phRead), .vectorGroupRead n w.id k, {}, {}⟩) ∨ j ∈ s.agenda := by
  unfold State.schedVector
  generalize hr : Instr.vreads w.op w.group w.occ = r
  generalize hd : Instr.vdones w.op w.group w.occ w.lat = d
  obtain ⟨rn, rs, r0⟩ := r
  obtain ⟨dn, ds, d0⟩ := d
  simp only
  refine (forUp_mem dn _ (fun k => ⟨s.stc + d0 + ds * k, phComplete, .vectorCompletion n w.id k, {}, {}⟩) _ ?_ ?_ j).trans
    (or_congr Iff.rfl (forUp_mem rn _ (fun k => ⟨s.stc + r0 + rs * k, _, .vectorGroupRead n w.id k, {}, {}⟩) _ ?_ ?_ j))
  · intros; rfl
  · intro k t j ht
    have : t.stc = s.stc := ht.trans (forUp_keep _ _ (·.stc) s (fun _ _ => rfl))
    rw [← this]; exact State.mem_sched ..
  · intros; rfl
  · intro k t j ht
    rw [← ht]; exact State.mem_sched ..

theorem State.schedVector_core (s : State) (n m : Nat) (w : VWord) : (s.schedVector n w).core m = s.core m :=
  State.schedVector_keep (·.core m) (fun _ _ _ _ => rfl) s n w
theorem State.schedVector_cur (s : State) (n : Nat) (w : VWord) : (s.schedVector n w).cur = s.cur :=
  State.schedVector_keep (·.cur) (fun _ _ _ _ => rfl) s n w

theorem Core.wordId_core (c : Core) : ∃ k, c.wordId.2 = { c with vec := { c.vec with nextId := k } } := by
  unfold Core.wordId; split
  · exact ⟨_, rfl⟩
  · exact ⟨_, rfl⟩

/-- Drawing a stamp changes only the unit's seq. -/
theorem State.stampFor_cur (s : State) (unit : Nat) : (s.stampFor s.turn.core unit).2.cur = s.cur.drawSeq unit :=
  State.setCore_core s s.turn.core _

/-- A vector word placed in the engine: its record, the port, the count, and the jobs that it adds. -/
theorem State.startVector_spec (t : State) (op : Instr) (o : VOps) (res : List VResult) (part : List VReg) :
    ∃ w : VWord,
      (w.op = op ∧ w.issued = t.stc ∧ w.pc = t.cur.x.pc ∧ w.group = t.cur.groupOf o ∧ w.lat = (Instr.vtime op).1 ∧
        w.occ = (Instr.vtime op).2 ∧ w.active = t.cur.active o.p ∧ w.results = (if t.cur.stageOff o.p then [] else res) ∧
        w.part = part) ∧
      let u := t.startVector op o res part
      u.cur.vec.words = t.cur.vec.words ++ [w] ∧ u.cur.vec.portFree = t.stc + (Instr.vtime op).2 * t.cur.groupOf o ∧
      (u.cur.engine engVxe).out = (t.cur.engine engVxe).out + 1 ∧ u.cur.vec.vrf = t.cur.vec.vrf ∧
      u.cur.vec.skip = t.cur.vec.skip ∧ u.curSeq = t.curSeq ∧ u.turn = t.turn ∧ u.stc = t.stc ∧ u.dram = t.dram ∧
      (∀ m, m ≠ t.turn.core → u.core m = t.core m) ∧
      ∀ j, j ∈ u.agenda ↔
        (∃ k, k < (Instr.vdones op w.group w.occ w.lat).1 ∧
          j = ⟨t.stc + (Instr.vdones op w.group w.occ w.lat).2.2 + (Instr.vdones op w.group w.occ w.lat).2.1 * k, phComplete,
            .vectorCompletion t.turn.core w.id k, {}, {}⟩) ∨
        (∃ k, k < (Instr.vreads op w.group w.occ).1 ∧
          j = ⟨t.stc + (Instr.vreads op w.group w.occ).2.2 + (Instr.vreads op w.group w.occ).2.1 * k,
            (match op with | .a2v .. => phTileRead | _ => phRead), .vectorGroupRead t.turn.core w.id k, {}, {}⟩) ∨
        j ∈ t.agenda := by
  obtain ⟨k, hk⟩ := Core.wordId_core (t.cur.drawSeq (unitOfEng engVxe))
  have hs := State.stampFor_cur t (unitOfEng engVxe)
  refine ⟨{
    id := (t.cur.drawSeq (unitOfEng engVxe)).wordId.1, pc := t.cur.x.pc, op := op, issued := t.stc, group := t.cur.groupOf o,
    lat := (Instr.vtime op).1, occ := (Instr.vtime op).2, active := t.cur.active o.p, rm := t.cur.roundMode op,
    rotsz := t.cur.sys.rotsz.toNat, rrb := t.cur.sys.rrb.toNat, fen := t.cur.sys.fen,
    results := if t.cur.stageOff o.p then [] else res, part := part, stamp := (t.stampFor t.turn.core (unitOfEng engVxe)).1 },
    ⟨rfl, rfl, rfl, rfl, rfl, rfl, rfl, rfl, rfl⟩, ?_⟩
  unfold State.startVector
  simp only [hs, hk]
  generalize hu : (t.stampFor t.turn.core (unitOfEng engVxe)).2 = u
  have ht : u.turn = t.turn := by rw [← hu]; rfl
  have hstc : u.stc = t.stc := by rw [← hu]; rfl
  have hag : u.agenda = t.agenda := by rw [← hu]; rfl
  have hdr : u.dram = t.dram := by rw [← hu]; rfl
  have hcore : ∀ m, m ≠ t.turn.core → u.core m = t.core m := fun m hm => by
    rw [← hu]; exact State.setCore_core_ne _ _ _ _ hm
  have hcur : ∀ (c : Core) (w : VWord), ((u.setCore u.turn.core c).schedVector u.turn.core w).cur = c := fun c w => by
    rw [State.schedVector_cur]; exact State.setCore_core _ _ _
  refine ⟨?_, ?_, ?_, ?_, ?_, ?_, ?_, ?_, ?_, ?_, ?_⟩
  · rw [hcur, hstc]; rfl
  · rw [hcur, hstc]; rfl
  · rw [hcur]; simp [Core.countEntry, Core.modEngine, Core.engine, Core.drawSeq]
  · rw [hcur]; rfl
  · rw [hcur]; rfl
  · have : ∀ (c : Core) (w : VWord), ((u.setCore u.turn.core c).schedVector u.turn.core w).curSeq = c.seq t.turn.q := fun c w => by
      unfold State.curSeq
      rw [hcur, State.schedVector_keep (·.turn) (fun _ _ _ _ => rfl), ← ht]; rfl
    rw [this]
    cases h : t.turn.q <;> simp only [State.curSeq, State.cur, h] <;> rfl
  · rw [State.schedVector_keep (·.turn) (fun _ _ _ _ => rfl)]; exact ht
  · rw [State.schedVector_keep (·.stc) (fun _ _ _ _ => rfl)]; exact hstc
  · rw [State.schedVector_keep (·.dram) (fun _ _ _ _ => rfl)]; exact hdr
  · intro m hm
    rw [State.schedVector_core, State.setCore_core_ne _ _ _ _ (by rw [ht]; exact hm)]; exact hcore m hm
  · intro j
    rw [State.mem_schedVector, State.setCore_stc, State.setCore_agenda, ht, hstc, hag]; rfl

end Sys2Proof.Machine
end

