-- ==== Sys2Proof/Tests/Slice0.lean ====
section
/-! SUPPORT. Tests: ill-formed words, words of the manual decoded, single steps with results worked out by hand, and for every
statement with hypotheses a concrete state that meets them. -/

set_option Elab.async false

namespace Sys2Proof.Tests

open Sys2Proof Sys2Proof.Machine

/-! ### Well-formedness: for each check a term that it refuses, beside one of the same shape that passes -/

theorem test_wf_sequencer : (Instr.add 1 2 3).wf .x = false ∧ (Instr.vadd 1 2 3 0 2).wf .c = false ∧ (Instr.fpush 1).wf .l = false ∧
    (Instr.add 1 2 3).wf .c = true ∧ (Instr.loop 0 1 5).wf .x = false ∧ (Instr.copyUnit 0 0 0).wf .c = false := by decide
theorem test_wf_registers : (Instr.add 32 0 0).wf .l = false ∧ (Instr.add 0 32 0).wf .l = false ∧ (Instr.add 0 0 32).wf .s = false ∧
    (Instr.add 63 63 63).wf .c = true ∧ (Instr.popc 32 0).wf .s = false ∧ (Instr.addi 32 0).wf .l = false ∧ (Instr.beq 0 32 0).wf .l = false ∧
    (Instr.bz 32 0).wf .l = false ∧ (Instr.loop 0 32 0).wf .l = false ∧ (Instr.mfsr 32 0).wf .l = false ∧ (Instr.rdstc 32).wf .l = false := by decide
theorem test_wf_scalar_fields : (Instr.shli 0 64).wf .c = false ∧ (Instr.shli 0 63).wf .c = true ∧ (Instr.beng 7 0 0).wf .c = false ∧
    (Instr.beng 6 3 0).wf .c = false ∧ (Instr.beng 6 2 0).wf .c = true ∧ (Instr.rdeng 0 7).wf .c = false ∧ (Instr.trap 1023).wf .c = false ∧
    (Instr.trap 1022).wf .c = true := by decide
theorem test_wf_vector_operands : (Instr.vadd 640 0 0 0 2).wf .x = false ∧ (Instr.vadd 712 0 0 0 2).wf .x = false ∧ (Instr.vadd 711 711 711 17 2).wf .x = true ∧
    (Instr.vadd 0 712 0 0 2).wf .x = false ∧ (Instr.vadd 0 0 712 0 2).wf .x = false ∧ (Instr.vadd 0 0 0 18 2).wf .x = false ∧
    (Instr.vadd 0 0 0 0 20).wf .x = false ∧ (Instr.vadd 0 0 0 0 24).wf .x = false ∧ (Instr.vdiv 0 0 0 0 1).wf .x = false ∧
    (Instr.vsqrt 0 0 0 1).wf .x = false ∧ (Instr.vmin 0 0 0 0 4).wf .x = false ∧ (Instr.vabs 0 0 0 4).wf .x = false := by decide
theorem test_wf_vector_types : (Instr.viadd 0 0 0 0 16).wf .x = false ∧ (Instr.viadd 0 0 0 0 15).wf .x = true ∧ (Instr.viand 0 0 0 0 8).wf .x = false ∧
    (Instr.viabs 0 0 0 16).wf .x = false ∧ (Instr.vpopc 0 0 0 8).wf .x = false ∧ (Instr.vperm 0 0 0 0 8).wf .x = false ∧
    (Instr.vsel 0 0 0 0 4).wf .x = false ∧ (Instr.vmov 0 0 0 4).wf .x = false ∧ (Instr.vrotr 0 0 0 0 4).wf .x = false := by decide
theorem test_wf_vector_counts : (Instr.vrotr 0 0 256 0 0).wf .x = false ∧ (Instr.vrotr 0 0 255 0 0).wf .x = true ∧ (Instr.vrotc 0 0 16 0 0).wf .x = false ∧
    (Instr.vredr 0 0 16 0 2).wf .x = false ∧ (Instr.vredr 0 0 3 0 2).wf .x = false ∧ (Instr.vredr 0 0 14 0 2).wf .x = false ∧
    (Instr.vredr 0 0 13 0 2).wf .x = true ∧ (Instr.vpxorr 0 0 2 2).wf .x = false ∧ (Instr.vpxorr 0 0 4 2).wf .x = false ∧
    (Instr.vpxorr 0 0 3 2).wf .x = true := by decide
theorem test_wf_predicates : (Instr.pset 0 1 2 0).wf .x = false ∧ (Instr.pset 0 1 2 7).wf .x = false ∧ (Instr.pset 0 1025 2 1).wf .x = false ∧
    (Instr.pset 0 1024 2 1).wf .x = true ∧ (Instr.pcnt 8 0 1 2).wf .x = false ∧ (Instr.pcnt 7 0 2 0).wf .x = false ∧ (Instr.pcnt 7 0 1 0).wf .x = true ∧
    (Instr.mpush 0 0 1).wf .x = false ∧ (Instr.vflrd 640 0).wf .x = false ∧ (Instr.vflclr 0 18).wf .x = false := by decide
theorem test_wf_conversions : (Instr.vcvt 0 0 0x000 0 0).wf .x = false ∧ (Instr.vcvt 0 0 0x01E 0 0).wf .x = false ∧ (Instr.vcvt 0 0 0x0E1 0 0).wf .x = false ∧
    (Instr.vcvt 0 0 0x021 0 0).wf .x = true ∧ (Instr.vcvt 0 0 0x221 0 0).wf .x = false ∧ (Instr.vcvt 0 0 0x021 0 1).wf .x = false ∧
    (Instr.vcvt 0 640 0x024 0 0).wf .x = false ∧ (Instr.vupk8 0 640 0 0).wf .x = false ∧ (Instr.vpk8x 0 0 640 0).wf .x = false ∧
    (Instr.vrand 0 640 0 2).wf .x = false := by decide
theorem test_wf_matrix : (Instr.mma 48 0).wf .x = false ∧ (Instr.mma 47 0).wf .x = true ∧ (Instr.mdrain 0 12 0).wf .x = false ∧
    (Instr.aload 1 12 0).wf .x = false ∧ (Instr.aload 0 47 0).wf .x = true ∧ (Instr.ringset 0 0 0).wf .l = false ∧ (Instr.ringadv 0 32).wf .l = false ∧
    (Instr.ringpop 0 0).wf .x = false ∧ (Instr.a2v 640 0 0 0 0).wf .x = false ∧ (Instr.v2a 712 0 0 0 0).wf .x = false ∧ (Instr.ckrd 640).wf .x = false := by decide
theorem test_wf_memory : (Instr.ldspm 8 0 0 0).wf .l = false ∧ (Instr.ldscal 32 0 0 0).wf .l = false ∧ (Instr.stspm 7 0 0 0).wf .l = false ∧
    (Instr.fence ⟨6, 3⟩).wf .c = false ∧ (Instr.publishBuf 0 0 0).wf .c = false ∧ (Instr.amo 0 0 0 1 2 0 0 ⟨5, 3⟩).wf .c = false ∧
    (Instr.amo 0 0 0 0 12 0 0 ⟨5, 3⟩).wf .c = false ∧ (Instr.amo 0 0 0 0 2 2 0 ⟨5, 3⟩).wf .c = false ∧ (Instr.amo 0 0 0 0 2 1 1 ⟨3, 3⟩).wf .c = false ∧
    (Instr.amo 0 0 0 1 10 1 0 ⟨5, 3⟩).wf .c = true ∧ (Instr.damo 0 0 0 0 2 1 ⟨2, 3⟩).wf .c = false ∧ (Instr.rwopen 0 0 0 0 0 2).wf .c = false ∧
    (Instr.rwadd 0 0 0 0 1).wf .c = false ∧ (Instr.rwclose 0 0 2).wf .c = false ∧ (Instr.ppush 0 0 0 0 ⟨2, 0⟩).wf .c = false := by decide
theorem test_wf_tasks : (Instr.tkwait 0 1 0).wf .c = false ∧ (Instr.tkwait 1 0 0).wf .c = false ∧ (Instr.tkwait 1 1 2).wf .c = false ∧
    (Instr.tksig 2 63 2).wf .c = true ∧ (Instr.tksig 2 63 1).wf .c = false ∧ (Instr.bar 6 ⟨2, 3⟩).wf .c = false ∧ (Instr.bar 5 ⟨0, 3⟩).wf .c = false ∧
    (Instr.bar 5 ⟨2, 1⟩).wf .c = false ∧ (Instr.spawn 0 0 0 1 1).wf .c = false ∧ (Instr.spawn 0 0 0 1 0).wf .c = true := by decide

/-! ### Words of the manual: each is assembled by hand from the tables of 04 (many stand in its worked examples) -/

theorem test_decode_scalar : decode none .c 0x0600301022400000 = .ok (.clmul 4 2 9) ∧ decode none .l 0x0A00001C00000000 = .ok (.addi 7 0) ∧
    decode none .c 0x0600301022400001 = .error .illins := ⟨rfl, rfl, rfl⟩
theorem test_decode_branch : decode none .c 0x0FC0101000000007 = .ok (.bnz 4 7) ∧ decode none .s 0x0E00000420003FFF = .ok (.beq 1 2 0x3FFF) ∧
    decode none .c 0x1080000000000005 = .ok (.call 5) ∧ decode none .x 0x10C0000100000000 = .error .illins := ⟨rfl, rfl, rfl, rfl⟩
theorem test_decode_loop : decode none .c 0x124000000000C002 = .ok (.loopi 0 3 2) := rfl
theorem test_decode_system : decode none .c 0x1400000400000027 = .ok (.mfsr 1 0x27) ∧ decode none .x 0x15C0000000000000 = .ok .nop := ⟨rfl, rfl⟩
/-- 04, 4.8: the worked word, its form with TY = 31, the same on C, and P = 18. -/
theorem test_decode_vector : decode none .x 0x4000C40100501882 = .ok (.vadd 4 5 6 4 2) ∧ decode none .x 0x400004010050189E = .ok (.vadd 4 5 6 4 30) ∧
    decode none .c 0x4000C40100501882 = .error .illins ∧ decode none .x 0x4000C40100501A42 = .error .illop ∧
    decodeHdr 0x4000C40100501882 = ⟨12, 1, 0⟩ := ⟨rfl, rfl, rfl, rfl, rfl⟩
/-- 04, 4.8: the same word under a decode table that maps its opcode to an invalid entry. -/
theorem test_decode_table : decode (some [(0x100, 0x0100#16)]) .x 0x4000C40100501882 = .error .illins ∧
    decode (some [(0x2A, 0x8100#16)]) .x 0x0A80C40100501882 = .ok (.vadd 4 5 6 4 2) := ⟨rfl, rfl⟩
theorem test_decode_fma : decode none .x 0x4100000280B03233 = .ok (.vfma 10 11 12 17 19) := rfl
theorem test_decode_integer : decode none .x 0x460000B1EC7B1E2F = .ok (.viadd 711 711 711 17 15) := rfl
theorem test_decode_move : decode none .x 0x4A0000004023FE20 = .ok (.vrotr 1 2 255 17 0) := rfl
theorem test_decode_convert : decode none .x 0x5600000040208400 = .ok (.vcvt 1 2 0x021 0 0) := rfl
/-- 06, after R154. -/
theorem test_decode_predicate : decode none .x 0x5200004003C80000 = .ok (.pset 2 3 3 1) := rfl
/-- 07: fpush s12, and `+3 mma acc5 at=+340`. -/
theorem test_decode_matrix : decode none .c 0x80000000C0000000 = .ok (.fpush 12) ∧ decode none .x 0x8040301400000154 = .ok (.mma 5 0x154) := ⟨rfl, rfl⟩
theorem test_decode_ring : decode none .c 0x838000FFFE000000 = .ok (.ringset 15 63 62) ∧ decode none .x 0x844000016FF00020 = .ok (.a2v 5 47 7 1 1) := ⟨rfl, rfl⟩
/-- 08: `+2 lddram lq2, a4, a5, 0x100`. -/
theorem test_decode_memory : decode none .l 0xA040200885000100 = .ok (.lddram 2 4 5 0x100) ∧ decode none .s 0xA040200885000100 = .error .illins := ⟨rfl, rfl⟩
theorem test_decode_tasks : decode none .c 0xA4C0000000008000 = .ok (.fence ⟨4, 0⟩) ∧ decode none .c 0xA500000070008001 = .ok (.publishTile 7 4) ∧
    decode none .c 0xA680000C41408012 = .ok (.damo 3 4 5 0 2 1 ⟨4, 0⟩) ∧ decode none .c 0xAC00000420000000 = .ok (.book 1 2) := ⟨rfl, rfl, rfl, rfl⟩

/-! ### Results of the manual's worked examples -/

/-- 02, after R42 and R43: ROTSZ 16, RRB 3; then a part of two registers. -/
theorem test_rotation : physReg 16 3 130 = 133 ∧ physReg 16 3 143 = 130 ∧ physReg 16 3 144 = 144 ∧ physReg 16 3 127 = 127 := by decide
/-- 05, 5.3: the prefix exclusive OR of the quote bits. -/
theorem test_clmul : clMul 0x122 0xFFFFFFFFFFFFFFFF % 2 ^ 64 = 0xFFFFFFFFFFFFFF1E ∧ clMul 0x122 0xFFFFFFFFFFFFFFFF / 2 ^ 64 = 0xE1 ∧
    clMul 0x11 0xFFFFFFFFFFFFFFFF % 2 ^ 64 = 0x0F := by decide +kernel
/-- 04, after R98: pi rounded to binary16. -/
theorem test_constant_narrows : Fp.konstF Fp.f16 0x400921FB54442D18 = 0x4248 := by decide +kernel
/-- 06, 6.6: the tree of the reduction. -/
theorem test_add_rounds : Fp.fadd Fp.f32 0 0x3F800000 0x33800000 = (0x3F800000, 16) ∧ Fp.fadd Fp.f32 0 0x33800000 0x33800000 = (0x34000000, 0) ∧
    Fp.fadd Fp.f32 0 0x3F800000 0x34000000 = (0x3F800001, 0) := by decide +kernel
/-- 03, after R77: the block sum is added as a whole. -/
theorem test_block_add : accAdd 0 (.fin 1 (-23)) 0x3F800000 = 0x3F800001 := by decide +kernel
/-- 03, after R84: 10.3 in binary32 with exponents 133 and 130 takes selector 1, sign 0, magnitude 41, and raises NX. -/
theorem test_pack : Fp.packVB 132 63 133 130 0 0x4124CCCD = (1, false, 41, 16) := by decide +kernel
/-- 03, after R75: the byte 0xC5 with E1 = 0x87, 0xFF and 0. -/
theorem test_vb8_value : opVal 0 (0, 0x87) 0xC5 = .fin true 5 3 ∧ opVal 0 (0, 0xFF) 0xC5 = .nan false ∧ opVal 0 (0, 0) 0xC5 = .zero true := by
  decide +kernel
/-- 07, after R170: a dense word VB8 by E4M3 with four blocks. -/
theorem test_format_word : readFmt 1 0x42008081 = .ok { af := 0, bf := 1, rm := 0, nb := 4, rga := 0, rgb := 1, rgsa := 2, rgsb := 0 } := rfl
/-- 06, after R166: FIPS 197 as the example of vrand has it. -/
theorem test_aes : Aes.encrypt (List.range 16) ((List.range 16).map (· * 17)) =
    [0x69, 0xC4, 0xE0, 0xD8, 0x6A, 0x7B, 0x04, 0x30, 0xD8, 0xCD, 0xB7, 0x80, 0x70, 0xB4, 0xC5, 0x5A] := by decide +kernel

/-! ### Witnesses: each theorem applies the clauses of a statement to concrete states, and its proof shows that these states meet
every hypothesis of the clause together -/

/-- A stream that runs. -/
def run0 : SeqSt := { mode := .run }
/-- A core whose four streams run in a scoreboard region. -/
def core0 : Core := { c := run0, l := run0, x := run0, s := run0, sys := { region := true } }
/-- Core 0 as given, a stream's turn, cycle 1000 of a package that is READY. -/
def on (c : Core) (q : Seq := .c) : State :=
  { State.reset with mgmt := { stage := 5 }, stc := 1000, cores := [(0, c)], turn := ⟨0, q, ⟨0, 0, 0⟩⟩ }

/-- The state in which the word at hand begins. -/
def started (s : State) (k : Kind := {}) : State :=
  match s.settled.gate k with
  | .ok c => s.settled.begun k c
  | .error t => t

theorem begins (s : State) (k : Kind) (h : (s.settled.gate k).isOk = true) : s.Begins k (started s k) := by
  unfold started State.Begins
  cases e : s.settled.gate k with
  | ok c => exact ⟨c, rfl, rfl⟩
  | error t => rw [e] at h; cases h

/-- What fits in any shard, whatever its open size (log 36). -/
theorem below {n : Nat} (h : n ≤ 4096) : n ≤ shardCap := Nat.le_trans h (Nat.le_add_right 4096 _)

/-- Room in a shard of which at most 4096 bytes are taken, whatever its open size (log 36). -/
theorem room (s : State) (name : Nat) (r : TaskRec) (hs : s.sentLin = [])
    (h : (s.die (s.homeOf name)).shard.bytes + (s.die (s.homeOf name)).shard.needs (r.lineage 0 0 name 0 false {}) ≤ 4096)
    (hm : (match s.mirrorDie (s.homeOf name) with
      | some m => decide ((s.die m).mirror.bytes + (s.die m).mirror.needs (r.lineage 0 0 name 0 false {}) ≤ 4096)
      | none => true) = true) : s.shardRoom name r = true := by
  simp only [State.shardRoom, State.shardTakes, hs, List.filter_nil, List.foldl_nil, Bool.and_eq_true, decide_eq_true_eq]
  refine ⟨below h, ?_⟩
  revert hm
  cases s.mirrorDie (s.homeOf name) with
  | none => exact fun _ => rfl
  | some m => exact fun hm => decide_eq_true (below (of_decide_eq_true hm))

/-- What a clause says of its next state, in part. -/
theorem nextOf {i : Instr} {s : State} {p : State → Prop} (h : ∃ u, exec i s = .next u ∧ p u) : ∃ u, exec i s = .next u :=
  h.imp fun _ x => x.1
theorem nextOf2 {α : Type} {i : Instr} {s : State} {p : State → α → Prop} (h : ∃ u a, exec i s = .next u ∧ p u a) :
    ∃ u, exec i s = .next u := h.imp fun _ x => x.elim fun _ y => y.1

theorem nextOf3 {α β : Type} {i : Instr} {s : State} {p : State → α → β → Prop} (h : ∃ u a b, exec i s = .next u ∧ p u a b) :
    ∃ u, exec i s = .next u := h.imp fun _ x => x.elim fun _ y => y.elim fun _ z => z.1

/-- Nothing of the DRAM of a state that says nothing of it is moved or lost. -/
theorem plain {s : State} (m : s.migrations = [] := by rfl) (f : s.forwards = [] := by rfl) (g : s.groups = [] := by rfl)
    (d : ∀ d, (s.die d).remap = [] ∧ (s.die d).lost = false := by exact fun _ => ⟨rfl, rfl⟩) : Rules.PlainDram s := ⟨m, f, g, d⟩

theorem witness_DecodeInvertsEncode (h : Obligations.DecodeInvertsEncode) :
    decode none .c (encode ⟨1023, 3, 3⟩ (.add 63 62 61)) = .ok (.add 63 62 61) := (h (.add 63 62 61) .c ⟨1023, 3, 3⟩ (by decide)).1

/-- Core 0 whose stream C has a word at its pc 0. -/
def withWord (w : Word) : State := on {
  core0 with c := { run0 with first := false, last := 998 }, code := { c := [(0, w)] },
             l := { run0 with mode := .halted }, x := { run0 with mode := .halted }, s := { run0 with mode := .halted } }

theorem witness_OpcodesThatTrap (h : Obligations.OpcodesThatTrap) :
    decode none .c (packWord 0x3FF ⟨0, 0, 0⟩ 0) = .error .illins ∧ decode none .c (packWord 0x100 ⟨0, 0, 0⟩ 0) = .error .illins ∧
    (∃ u, step (withWord 0x4000000100501882) = .next u) ∧ (∃ u, step (withWord 0) = .next u) ∧
    ∃ u, step { withWord 0x0600000000000000 with ctxs := [(0, { ptroot := 0, diemask := 1, dtab := some [(0x18, 0x0018#16)] })] } = .next u :=
  ⟨h.1 .c ⟨0, 0, 0⟩ 0 0x3FF (by decide) (by decide), h.2.1 .c ⟨0, 0, 0⟩ 0 0x100 (by decide) (by decide),
    ⟨_, h.2.2 (withWord 0x4000000100501882) 0 .c rfl rfl rfl (.inr (.inr (.inr (by decide))))⟩, ⟨_, h.2.2 (withWord 0) 0 .c rfl rfl rfl (.inl rfl)⟩,
    ⟨_, h.2.2 { withWord 0x0600000000000000 with ctxs := [(0, { ptroot := 0, diemask := 1, dtab := some [(0x18, 0x0018#16)] })] } 0 .c rfl rfl rfl
      (.inr (.inr (.inl (by decide))))⟩⟩

theorem witness_StepRunsTheDecodedWord (h : Obligations.StepRunsTheDecodedWord) :
    (∃ u, step (withWord 0x15C0000000000000) = u) ∧ (∃ u, step (withWord 0) = u) ∧
    (∃ u, step { State.reset with agenda := [⟨0, 0, .icauseWrite, {}, {}⟩] } = u) ∧ (∃ u, step { State.reset with mgmt := { stage := 5 } } = .next u) :=
  ⟨⟨_, (h.1 (withWord 0x15C0000000000000) 0 .c rfl rfl rfl).1 .nop rfl⟩, ⟨_, (h.1 (withWord 0) 0 .c rfl rfl rfl).2 .illins rfl⟩,
    ⟨_, h.2.1 { State.reset with agenda := [⟨0, 0, .icauseWrite, {}, {}⟩] } ⟨0, 0, .icauseWrite, {}, {}⟩ [] rfl rfl (by decide)⟩,
    (h.2.2 { State.reset with mgmt := { stage := 5 } } rfl rfl rfl rfl (by decide)).imp fun _ x => x.1⟩

theorem witness_OnlyAStoppedPackageFaults (h : Obligations.OnlyAStoppedPackageFaults) :
    step { State.reset with stopped := true } = .fault .stopped ∧
    (∃ t, step { State.reset with stopped := true, agenda := [⟨7, 0, .pcieReset, {}, {}⟩] } = .next t) ∧ ∃ t, step State.reset = .next t :=
  ⟨h.1 { State.reset with stopped := true } rfl (fun _ hx => nomatch (show _ ∈ ([] : List Job) from hx)),
    (h.2.1 { State.reset with stopped := true, agenda := [⟨7, 0, .pcieReset, {}, {}⟩] } ⟨7, 0, .pcieReset, {}, {}⟩ rfl (by decide +kernel)).2 (by decide +kernel) |>.imp fun _ x => x.1, h.2.2 State.reset rfl⟩

/-- Two bytes of DRAM listed, and nothing to do but let the cycle pass. -/
theorem witness_MemoryStaysCanonical (h : Obligations.MemoryStaysCanonical) :
    let s := { State.reset with mgmt := { stage := 5 }, dram := [(5, 1), (7, 2)] }
    Memory.wf State.reset.dram = true ∧ step s = .next s.passCycle ∧ Memory.wf s.passCycle.dram = true :=
  ⟨h.1, rfl, h.2 { State.reset with mgmt := { stage := 5 }, dram := [(5, 1), (7, 2)] } _ (by decide) rfl⟩

/-- C holds 5 in s2 and 7 in s3; a result of s4 is 3 cycles away. -/
def coreRegs : Core := { core0 with c := { run0 with regs := [(2, 5), (3, 7)], pc := 9 }, pend := [⟨1003, .reg .c 4 1⟩] }

theorem witness_ScalarWordWritesItsResult (h : Obligations.ScalarWordWritesItsResult) :
    (∃ u, exec (.add 1 2 3) (on coreRegs) = .next u) ∧ (∃ u, exec (.add 1 2 4) (on coreRegs) = .next u) :=
  ⟨nextOf (h.1 (.add 1 2 3) (on coreRegs) (started (on coreRegs)) 1 1 [2, 3] 12 rfl (by decide) (begins _ _ rfl) fun _ => rfl),
    nextOf (h.2 (.add 1 2 4) (on coreRegs) (started (on coreRegs)) 1 1 [2, 4] 5 rfl (by decide) (begins _ _ rfl) rfl rfl)⟩

theorem witness_ScalarWordFrame (h : Obligations.ScalarWordFrame) :
    ∃ u, exec (.add 1 2 3) (on coreRegs) = .next u ∧ (∀ n, n ≠ 0 → u.core n = (on coreRegs).core n) :=
  ⟨_, rfl, (h (.add 1 2 3) (on coreRegs) _ ⟨started (on coreRegs) |>.rd, _, rfl⟩ (by decide) rfl).2.1⟩

/-- In a delay slot with the target 20, and at the end of a loop. -/
def slot2 (m : Nat) : Core := { core0 with c := { run0 with slots := m, target := some 20, pc := 9 } }
def looped (v : Word) : Core := { core0 with c := { run0 with pc := 9, lc := [(0, v)] } }

theorem witness_BranchesTransferControl (h : Obligations.BranchesTransferControl) :
    (∃ u, exec (.bnz 2 7) (on coreRegs) = .next u) ∧ (∃ u, exec (.bz 2 7) (on coreRegs) = .next u) ∧ (∃ u, exec .retEh (on (slot2 1)) = .next u) ∧
    (∃ u, exec .nop (on (slot2 2)) = .next u) ∧ (∃ u, exec .nop (on (slot2 1)) = .next u) :=
  ⟨nextOf (h.1 (.bnz 2 7) (on coreRegs) _ [2] (some 7) rfl (begins _ _ rfl) fun _ => rfl),
    nextOf (h.1 (.bz 2 7) (on coreRegs) _ [2] none rfl (begins _ _ rfl) fun _ => rfl),
    ⟨_, h.2.1 .retEh (on (slot2 1)) (by decide) (by simp)⟩,
    nextOf ((h.2.2 (on (slot2 2)) _ 20 (begins _ _ rfl) rfl).1 rfl), nextOf ((h.2.2 (on (slot2 1)) _ 20 (begins _ _ rfl) rfl).2 rfl)⟩

def calls (n : Nat) (region : Bool) : Core :=
  { core0 with c := { run0 with ras := List.replicate n 5, regs := [(2, 40)] }, sys := { region := region } }

theorem witness_CallsAndReturns (h : Obligations.CallsAndReturns) :
    (∃ u, exec (.call 7) (on (calls 15 true)) = .next u) ∧ (∃ u, exec (.callr 2) (on (calls 0 true)) = .next u) ∧
    (∃ u, exec .ret (on (calls 1 true)) = .next u) ∧ (∃ u, exec (.call 7) (on (calls 16 false)) = .next u) ∧
    (∃ u, exec (.call 7) (on (calls 16 true)) = .next u) ∧ (∃ u, exec .ret (on (calls 0 true)) = .next u) :=
  ⟨nextOf (h.1.1 (on (calls 15 true)) _ 7 (begins _ _ rfl) (by decide)),
    nextOf (h.1.2.1 (on (calls 0 true)) _ 2 (begins _ _ rfl) (fun _ => rfl) (by decide)),
    nextOf (h.1.2.2 (on (calls 1 true)) _ 5 [] (begins _ _ rfl) rfl),
    ⟨_, h.2.1 (on (calls 16 false)) _ 7 (begins _ _ rfl) (by decide) (.inl rfl)⟩,
    ⟨_, h.2.1 (on (calls 16 true)) _ 7 (begins _ _ rfl) (by decide) (.inr rfl)⟩,
    ⟨_, h.2.2 (on (calls 0 true)) _ (begins _ _ rfl) rfl rfl⟩⟩

theorem witness_ClockAndEngineReads (h : Obligations.ClockAndEngineReads) :
    (∃ u, exec (.rdstc 1) (on core0) = .next u) ∧ (∃ u, exec (.rdstcT0 1) (on core0) = .next u) ∧ (∃ u, exec (.rdeng 1 6) (on core0) = .next u) ∧
    (∃ u, exec (.beng 6 2 3) (on core0) = .next u) :=
  ⟨nextOf (h.1.1 (on core0) _ 1 (by decide) (begins _ _ rfl) fun _ => rfl), nextOf (h.1.2.1 (on core0) _ 1 (by decide) (begins _ _ rfl) fun _ => rfl),
    nextOf (h.1.2.2 (on core0) _ 1 6 (by decide) (begins _ _ rfl) fun _ => rfl),
    nextOf (h.2 (on core0) _ 6 2 3 (begins _ _ rfl) (by decide))⟩

theorem witness_Loops (h : Obligations.Loops) :
    (∃ u, exec (.loopi 0 0 5) (on core0) = .next u) ∧ (∃ u, exec (.loop 3 2 5) (on coreRegs) = .next u) ∧
    (∃ u, exec .nop (on (looped 0x0009000400000002)) = .next u) ∧ (∃ u, exec .nop (on (looped 0x0009000400000001)) = .next u) :=
  ⟨nextOf (h.1 (.loopi 0 0 5) (on core0) _ 0 5 0 [] (.inr ⟨0, rfl, rfl, rfl⟩) (by decide) (begins _ _ rfl) fun _ => rfl),
    nextOf (h.1 (.loop 3 2 5) (on coreRegs) (started (on coreRegs) { branch := true }) 3 5 5 [2] (.inl ⟨2, rfl, rfl, rfl⟩) (by decide)
      (begins _ _ rfl) fun _ => rfl),
    nextOf ((h.2 (on (looped 0x0009000400000002)) _ (begins _ _ rfl) rfl rfl).1 (by decide)),
    nextOf ((h.2 (on (looped 0x0009000400000001)) _ (begins _ _ rfl) rfl rfl).2 rfl (by
      intro k hk
      rw [show (started (on (looped 0x0009000400000001))).curSeq.loopReg k = 0 from by
        show SMap.get 0 [(0, (0x0009000400000001 : Word))] k = 0
        simp [SMap.get, hk]]
      decide))⟩

/-- X in a calendar region, its register 1 holding 0. -/
def calX : State := on { core0 with sys := {} } .x

theorem legalFrm : (started calX).cur.legalSys 2 (vreg64 ((started calX).cur.vec.reg 1)) = true := by
  have e : (started calX).cur.vec.reg 1 = 0 := rfl
  have f : vreg64 0 = 0 := by simp [vreg64]
  rw [e, f]; rfl

theorem witness_SystemRegisterMoves (h : Obligations.SystemRegisterMoves) :
    (∃ u, exec (.mfsr 1 0x27) (on core0) = .next u) ∧ (∃ u, exec (.mtsr 1 2) (on core0) = .next u) ∧ (∃ u, exec (.mfsr 1 0x1E) calX = .next u) ∧
    (∃ u, exec (.mtsr 1 2) calX = .next u) ∧ (∃ u, exec (.mfsr 1 0x1F) (on core0) = .next u) ∧ (∃ u, exec (.mtsr 2 2) (on coreRegs) = .next u) :=
  ⟨nextOf (h.1.1 (on core0) _ 1 0x27 (by decide) (begins _ _ rfl) (fun _ => rfl) rfl),
    nextOf (h.1.2 (on core0) _ 1 2 (by decide) (begins _ _ rfl) (fun _ => rfl) rfl rfl),
    nextOf (h.2.1.1 calX _ 1 0x1E rfl rfl rfl rfl (begins _ _ rfl) rfl rfl), nextOf (h.2.1.2 calX _ 1 2 rfl rfl rfl rfl (begins _ _ rfl) rfl rfl legalFrm),
    ⟨_, ((h.2.2 (on core0) _ 1 0x1F (by decide) (begins _ _ rfl)).1 rfl).1⟩,
    ⟨_, (h.2.2 (on coreRegs) _ 2 2 (by decide) (begins _ _ rfl)).2 rfl (fun _ => rfl) rfl⟩⟩

theorem witness_NopOnlyIssues (h : Obligations.NopOnlyIssues) :
    (∃ u, exec .nop (on coreRegs) = .next u) ∧ (∃ u, exec .nop (on coreRegs .x) = .next u) :=
  ⟨nextOf (h.1 (on coreRegs) _ (fun e => nomatch e) (begins _ _ rfl)), nextOf (h.1 (on coreRegs .x) _ (fun _ => rfl) (begins _ _ rfl))⟩


/-- C is in its trap handler, which a calendar or a scoreboard region was left for. -/
def handling : Core :=
  { core0 with c := { run0 with epc := 3, tvec := 0x4010 }, sys := { region := true, handler := some .c, cause := 0x10000E, trapRegion := true } }
def guarded : Core := { core0 with c := { run0 with tvec := 0x4010 } }

theorem witness_TrapWordTakesSoft (h : Obligations.TrapWordTakesSoft) :
    (∃ u, exec (.trap 1022) (on core0) = .next u ∧ (u.core 0).tsk.ending = some (0x20, faultDetail 0x0E 0 0 0 0 1022 0 0)) ∧
    (∃ u, exec (.trap 5) (on guarded .c) = .next u ∧ (u.core 0).c.pc = 0x10) ∧ (∃ u, exec (.trap 0) (on guarded .x) = .next u) :=
  ⟨(h.1 (on core0) _ 1022 (fun e => nomatch e) (begins _ _ rfl)).imp fun _ x => ⟨x.1, x.2.2.2 rfl rfl rfl⟩,
    (h.1 (on guarded) _ 5 (fun e => nomatch e) (begins _ _ rfl)).imp fun _ x => ⟨x.1, (x.2.2.1 rfl rfl).2.1⟩,
    nextOf (h.1 (on guarded .x) _ 0 (fun _ => rfl) (begins _ _ rfl))⟩

theorem witness_TrapsAreTaken (h : Obligations.TrapsAreTaken) :
    (((on guarded).takeTrap 0 .c .slot 0 1023 7 true 1000 false).core 0).sys.region = true ∧
    (((on core0).takeTrap 0 .c .slot 0 0 7 true 1000 false).core 0).sys.valid = true ∧
    (((on handling).takeTrap 0 .c .slot 0 0 7 true 1000 false).core 0).sys.cause = 0x10000E ∧
    (∃ u, exec .retEh (on handling) = .next u) ∧ (∃ u, exec .retEh (on core0) = .next u) :=
  ⟨(h.1 (on guarded) 0 .c .slot 0 1023 7 true false 1000 rfl rfl (by decide)).2.2.2.1,
    ((h.2.1 (on core0) 0 .c .slot 0 0 7 true 1000 rfl (by decide)).1 rfl rfl).2.1,
    ((h.2.1 (on handling) 0 .c .slot 0 0 7 true 1000 rfl (by decide)).2 rfl).2.1,
    nextOf (h.2.2.1 (on handling) _ (by decide) (begins _ _ rfl) rfl rfl rfl),
    ⟨_, h.2.2.2 (on core0) _ (begins _ _ rfl) (by decide)⟩⟩

/-- X about to issue in a scoreboard region; with a full mask stack; with an all-zero mask on it; with a skip under way. -/
def onX : State := on core0 .x
def maskedX (l : List (BitVec 1024)) (skip : Nat) : State := on { core0 with vec := { masks := l, skip := skip } } .x

theorem witness_VectorWordEntersTheEngine (h : Obligations.VectorWordEntersTheEngine) :
    (∃ u, exec (.viadd 1 2 3 0 2) onX = .next u) ∧ (∃ u, exec (.a2v 2 1 0 0 0) onX = .next u) ∧
    (∃ u, exec (.v2a 2 1 0 0 0) onX = .next u) ∧ (∃ u, exec (.ckrd 2) onX = .next u) :=
  ⟨nextOf (h.1 (.viadd 1 2 3 0 2) onX _ 4 4 rfl rfl (begins _ _ rfl) ⟨fun _ => rfl, by decide, fun _ => rfl⟩ rfl),
    nextOf (h.2 (.a2v 2 1 0 0 0) onX _ 8 2 false rfl (.inl ⟨_, _, _, _, _, rfl, rfl, rfl, rfl, fun _ => rfl⟩) (begins _ _ rfl) rfl
      ⟨fun _ => rfl, by decide, fun _ => rfl⟩),
    nextOf (h.2 (.v2a 2 1 0 0 0) onX _ 6 0 false rfl (.inr (.inl ⟨_, _, _, _, _, rfl, rfl, rfl, rfl, fun _ => rfl⟩)) (begins _ _ rfl) rfl
      ⟨fun _ => rfl, by decide, fun _ => rfl⟩),
    nextOf (h.2 (.ckrd 2) onX _ 8 2 true rfl (.inr (.inr ⟨_, rfl, rfl, rfl, rfl⟩)) (begins _ _ rfl) rfl
      ⟨fun _ => rfl, by decide, fun _ => rfl⟩)⟩

theorem witness_VectorStateWords (h : Obligations.VectorStateWords) :
    (∃ u, exec (.pset 1 0 2 1) onX = .next u) ∧ (∃ u, exec .mpop (maskedX [1] 0) = .next u) ∧
    (∃ u, exec (.pset 1 0x1FFF 2 1) onX = .next u) ∧ (∃ u, exec .mpop onX = .next u) ∧
    (∃ u, exec (.mpush 2 9 2) (maskedX (List.replicate 16 1) 0) = .next u) ∧ (∃ u, exec (.rrbset 512) onX = .next u) :=
  ⟨nextOf (h.1 (.pset 1 0 2 1) onX _ true _ rfl rfl (begins _ _ rfl) (fun _ => rfl) fun _ => rfl),
    nextOf (h.1 .mpop (maskedX [1] 0) _ false _ rfl rfl (begins _ _ rfl) nofun fun _ => rfl),
    ⟨_, (h.2 onX onX rfl).1 1 0x1FFF 2 1 (by decide)⟩,
    ⟨_, ((h.2 onX _ rfl).2.1 (begins _ _ rfl) rfl fun _ => rfl).1⟩,
    ⟨_, (h.2 (maskedX (List.replicate 16 1) 0) _ rfl).2.2.2 2 9 2 (begins _ _ rfl) (fun _ => rfl) (by decide) (by decide)⟩,
    ⟨_, (h.2 onX _ rfl).2.2.1 512 (fun _ => rfl) (begins _ _ rfl) (by decide)⟩⟩

theorem witness_MasksAndSkips (h : Obligations.MasksAndSkips) :
    (∃ u, exec (.mpush 639 9 2) (maskedX (List.replicate 15 1) 0) = .next u) ∧ (∃ u, exec (.vflclr 31 0) onX = .next u) ∧
    (∃ u, exec (.viadd 1 2 3 0 2) (maskedX [0] 1) = .next u) :=
  ⟨nextOf (h.1 (maskedX (List.replicate 15 1) 0) _ 639 9 2 rfl (by decide) (begins _ _ rfl) ⟨fun _ => rfl, by decide, fun _ => rfl⟩ (by decide)),
    nextOf (h.2.1 onX _ 31 0 rfl (begins _ _ rfl) rfl rfl rfl fun _ => rfl),
    nextOf (h.2.2 (.viadd 1 2 3 0 2) (maskedX [0] 1) _ rfl (.inl ⟨_, rfl⟩) (begins _ _ rfl) rfl)⟩

/-- Operands of one vector word whose every lane is active. -/
def vin0 : VIn := { a := 5, b := 7 }

theorem witness_VectorElementValues (h : Obligations.VectorElementValues) :
    (∃ v, velem 32 (vcompute (.viadd 1 2 3 0 2) vin0).d 1023 = v) ∧
    (∃ f, Rules.Gives (vcompute (.vadd 1 2 3 0 2) vin0) 32 f) ∧ (∃ f, Rules.Gives (vcompute (.vredr 1 2 0 0 2) vin0) 32 f) ∧
    (∃ f, Rules.Gives (vcompute (.vsel 1 2 3 0 2) vin0) 32 f) ∧ (∃ f, Rules.Gives (vcompute (.vpxorr 1 2 0 2) vin0) 32 f) ∧
    (∃ b, (vcompute (.vpxorr 1 2 1 2) vin0).d.getLsbD 32767 = b) ∧ ∃ b, (vcompute (.vpxorr 1 2 3 2) vin0).d.getLsbD 2048 = b :=
  ⟨⟨_, (h.1 (.viadd 1 2 3 0 2) vin0 1023 32 _ rfl (by decide)).1⟩, ⟨_, h.2.1 (.vadd 1 2 3 0 2) vin0 32 _ rfl⟩,
    ⟨_, h.2.1 (.vredr 1 2 0 0 2) vin0 32 _ rfl⟩, ⟨_, h.2.2.1 vin0 1 2 3 0 2⟩, ⟨_, (h.2.2.2 vin0 1 2 0 2).2.1 rfl⟩,
    ⟨_, (h.2.2.2 vin0 1 2 1 2).2.2.1 rfl 32767 (by decide)⟩, ⟨_, (h.2.2.2 vin0 1 2 3 2).2.2.2 rfl 2048 (by decide)⟩⟩

/-- A word with group 1 in the engine that has added results. -/
def inEng (rs : List VResult) : VWord :=
  { id := 7, pc := 9, op := .viadd 1 2 3 0 2, issued := 996, group := 1, lat := 4, occ := 4, active := .all, rm := 0, rotsz := 0, rrb := 0,
    fen := 0, results := rs }
def engX (rs : List VResult) : State := on { core0 with vec := { words := [inEng rs] } } .x

theorem witness_VectorEngineEvents (h : Obligations.VectorEngineEvents) :
    (∃ u, exec (.vectorGroupRead 0 7 0) (engX []) = .next u) ∧
    (∃ u, exec (.vectorCompletion 0 7 0) (engX [{ k := 0, regs := [(1, 3, 2)] }]) = .next u) ∧
    (∃ r, vresults core0 { inEng [] with op := .vadd 1 2 3 0 2 } ((Instr.vops (.vadd 1 2 3 0 2)).getD {}) 0 [5, 7] = r) ∧
    (∃ r, vresults core0 { inEng [] with op := .vrand 1 2 0 3 } {} 0 [5] = r) ∧
    (∃ r, vresults core0 { inEng [] with op := .vpk8 1 2 3 0 } { d := some 1 } 0 [5, 7] = r) ∧
    (∃ r, vresults core0 { inEng [] with op := .vpk8x 1 2 3 0 } { d := some 1 } 0 [5] = r) ∧
    (∃ r, vresults core0 { inEng [] with op := .vupk8 1 2 3 0 } {} 0 [5, 7] = r) ∧
    (∃ d e byte ex fl, Rules.Packs true 32 3 (vpack8 true 5 7 9 0 3) d e byte ex fl) ∧
    (∃ d e byte ex fl, Rules.Packs false 64 3 (vpack4 false 5 6 7 9 0 3) d e byte ex fl) ∧
    (∃ v, velem 32 (vunpack8 5 7 3) 1023 = v) ∧ ∃ v, velem 32 (vunpack4 5 7 3 1) 1023 = v :=
  ⟨nextOf (h.1 (engX []) 0 7 0 (inEng []) _ rfl rfl nofun rfl (by decide) (fun _ _ _ _ => ⟨nofun, nofun⟩)),
    nextOf (h.2.1 (engX [{ k := 0, regs := [(1, 3, 2)] }]) 0 7 0 1 _ 3 2 _ rfl rfl nofun rfl rfl rfl),
    ⟨_, (h.2.2.1 core0 { inEng [] with op := .vadd 1 2 3 0 2 } ((Instr.vops (.vadd 1 2 3 0 2)).getD {}) 0 1 1 5 7 rfl).1
      rfl rfl (.inl ⟨_, rfl⟩) nofun⟩,
    ⟨_, (h.2.2.1 core0 { inEng [] with op := .vrand 1 2 0 3 } {} 0 1 1 5 7 rfl).2.1 2 0 3 rfl⟩,
    ⟨_, (h.2.2.1 core0 { inEng [] with op := .vpk8 1 2 3 0 } { d := some 1 } 0 1 1 5 7 rfl).2.2.1 2 3 0 rfl rfl⟩,
    ⟨_, (h.2.2.1 core0 { inEng [] with op := .vpk8x 1 2 3 0 } { d := some 1 } 0 1 1 5 7 rfl).2.2.2.1 2 3 0 3 rfl rfl rfl⟩,
    ⟨_, (h.2.2.1 core0 { inEng [] with op := .vupk8 1 2 3 0 } {} 0 1 1 5 7 rfl).2.2.2.2 2 3 0 rfl⟩,
    ⟨_, _, _, _, _, h.2.2.2.1 true 5 7 9 0 3 (by decide)⟩, ⟨_, _, _, _, _, h.2.2.2.2.1 false 5 6 7 9 0 3 (by decide)⟩,
    ⟨_, h.2.2.2.2.2.1 5 7 3 1023 (by decide)⟩, ⟨_, h.2.2.2.2.2.2 5 7 3 2047 (by decide)⟩⟩

/-- A complete precise word with these invalid-operation flags, whose trap is enabled. -/
def precise (f : BitVec 1024) : XEntry :=
  { id := 4, pc := 9, vector := true, ready := true, fen := 1, results := [{ k := 0, regs := [(1, 3, 2)], flags := { nv := f } }] }
def windowX (f : BitVec 1024) : State := on { core0 with x := { run0 with tvec := 0x4010 }, vec := { window := [precise f] } } .x

/-- A window of these words. -/
def windows (l : List XEntry) : State := on { core0 with x := { run0 with tvec := 0x4010 }, vec := { window := l } } .x
/-- A complete word with these held effects, and one that is not complete. -/
def held (l : List Eff) : XEntry := { id := 4, pc := 9, vector := false, ready := true, held := l }
def behind : XEntry := { id := 6, pc := 11, vector := true, ready := false }
def handing : XEntry := { held [.sys .x 0x003 1, .handOver { id := 1, op := .mma 0 0, at_ := 0, handed := 0, pc := 0, cal := false }] with id := 5 }

theorem precise_lanes (f : BitVec 1024) : (precise f).flags.enabled (precise f).fen = f := by
  simp [XEntry.flags, precise, Flags.or, Flags.enabled]

theorem lane (k : Nat) : ((precise 6).flags.enabled (precise 6).fen).getLsbD k = (decide (k < 1024) && Nat.testBit 6 k) := by
  rw [precise_lanes]; exact BitVec.getLsbD_ofNat 1024 6 k

theorem witness_PreciseCommit (h : Obligations.PreciseCommit) :
    (∃ u, exec (.vectorCommit 0 4) (windowX 0) = .next u) ∧
    (∃ u, exec (.vectorCommit 0 4) (windows [precise 0, handing, behind]) = .next u) ∧
    (∃ u, exec (.vectorCommit 0 4) (windows [held [.ringPop 2 1], behind]) = .next u) ∧
    (∃ u, exec (.vectorCommit 0 4) (windows [held [.sys .x 0x01B 7], behind]) = .next u) ∧
    (∃ u, exec (.vectorCommit 0 4) (windows [precise 6, behind]) = .next u) ∧
    exec (.vectorCommit 0 6) (windows [precise 0, behind]) = .next (windows [precise 0, behind]) :=
  ⟨nextOf (h.1 (windowX 0) 0 (precise 0) [] [] _ rfl ⟨rfl, precise_lanes 0, by decide +kernel, by decide +kernel,
      fun _ hf => (nomatch (show _ ∈ ([] : List Eff) from hf)), rfl⟩ nofun (fun _ => rfl) nofun),
    nextOf (h.1 (windows [precise 0, handing, behind]) 0 (precise 0)
      [handing] [behind] _ rfl
      ⟨rfl, precise_lanes 0, by decide +kernel, by decide +kernel, fun _ hf => (nomatch (show _ ∈ ([] : List Eff) from hf)), rfl,
        by decide +kernel, by decide +kernel, by decide +kernel, (by
        intro f hf
        rcases List.mem_cons.mp hf with rfl | hf
        · exact ⟨rfl, nofun⟩
        · rw [List.mem_singleton.mp hf]; exact ⟨rfl, nofun⟩), rfl⟩
      (fun x hx => by cases hx; rfl) nofun nofun),
    nextOf ((h.2.1 (windows [held [.ringPop 2 1], behind]) 0 (held [.ringPop 2 1]) behind rfl rfl rfl rfl nofun).1 2 1 rfl),
    nextOf ((h.2.1 (windows [held [.sys .x 0x01B 7], behind]) 0 (held [.sys .x 0x01B 7]) behind rfl rfl rfl rfl nofun).2 3 7 (by decide) rfl),
    nextOf (h.2.2.1 (windows [precise 6, behind]) 0 1 (precise 6) [behind] rfl rfl (lane 1) (fun k hk => by rw [Nat.lt_one_iff.mp hk]; exact lane 0) rfl rfl),
    h.2.2.2 (windows [precise 0, behind]) 0 6 (fun e he => by cases he; exact .inl (by decide))⟩

/-- The next ring word of stream S, fq holding n words; its rings as given; s2 holds a ring's address, s3 one slot of 64 bytes, s4 511, s5 512. -/
def ringS (n : Nat) (r : Ring) : State :=
  on { core0 with s := { run0 with regs := [(2, 64), (3, 0x200040), (4, 511), (5, 512)] }, q := { fq := List.replicate n (0, 0) },
                  mx := { rings := [(1, r)] } } .s
/-- X with a number of commands in the queue of the matrix engine, and with an open precise word. -/
def cmd0 (op : Instr) : MxCmd := { id := 3, op := op, at_ := 5, handed := 990, pc := 9, cal := false }
def mxX (n : Nat) (win : List XEntry) : State :=
  on { core0 with mx := { queue := List.replicate n (cmd0 (.azero 1 5)) }, vec := { window := win } } .x

theorem witness_MatrixWordsHandOver (h : Obligations.MatrixWordsHandOver) :
    (∃ u, exec (.fpush 2) (ringS 31 {}) = .next u) ∧ (∃ u, exec (.fpush 2) (ringS 32 {}) = .next u) ∧
    (∃ u, exec (.ringset 1 2 3) (ringS 0 {}) = .next u) ∧ (∃ u, exec (.ringset 1 2 3) (ringS 0 { rsv := 1 }) = .next u) ∧
    (∃ u, exec (.ringadv 1 4) (ringS 0 { slots := 512, wsv := 1 }) = .next u) ∧ (∃ u, exec (.ringadv 1 5) (ringS 0 {}) = .next u) ∧
    (∃ u, exec (.ringpop 1 2) (ringS 0 { fill := 2 }) = .next u) ∧ (∃ u, exec (.ringpop 1 2) (ringS 0 { rsv := 1 }) = .next u) ∧
    (∃ u, exec (.mma 1 5) (mxX 15 []) = .next u) ∧ (∃ u, exec (.mma 1 5) (mxX 16 []) = .next u) ∧
    (∃ u, exec (.mma 1 5) (mxX 0 [precise 0]) = .next u) :=
  ⟨nextOf ((h.1 (ringS 31 {}) _ 2 (begins _ _ rfl) fun _ => rfl).1 (by decide)),
    ⟨_, (h.1 (ringS 32 {}) _ 2 (begins _ _ rfl) fun _ => rfl).2 (by decide)⟩,
    nextOf ((h.2.1 (ringS 0 {}) _ 1 2 3 (begins _ _ rfl) rfl).1 _ (fun _ => rfl) rfl rfl rfl),
    ⟨_, (h.2.1 (ringS 0 { rsv := 1 }) _ 1 2 3 (begins _ _ rfl) rfl).2.1 (fun _ => rfl) (.inr (.inl (by decide)))⟩,
    nextOf ((h.2.1 (ringS 0 { slots := 512, wsv := 1 }) _ 1 4 3 (begins _ _ rfl) rfl).2.2.1 (fun _ => rfl) (by decide) (by decide)),
    ⟨_, (h.2.1 (ringS 0 {}) _ 1 5 3 (begins _ _ rfl) rfl).2.2.2.1 (fun _ => rfl) (by decide)⟩,
    nextOf ((h.2.1 (ringS 0 { fill := 2 }) _ 1 2 3 (begins _ _ rfl) rfl).2.2.2.2.1 2 rfl (by decide)),
    ⟨_, (h.2.1 (ringS 0 { rsv := 1 }) _ 1 2 3 (begins _ _ rfl) rfl).2.2.2.2.2 2 (by decide)⟩,
    nextOf2 ((h.2.2 (.mma 1 5) 5 (mxX 15 []) _ rfl rfl (begins _ _ rfl)).1 rfl rfl),
    ⟨_, (h.2.2 (.mma 1 5) 5 (mxX 16 []) _ rfl rfl (begins _ _ rfl)).2.1 rfl rfl⟩,
    nextOf2 ((h.2.2 (.mma 1 5) 5 (mxX 0 [precise 0]) _ rfl rfl (begins _ _ rfl)).2.2 (by intro e; cases e))⟩

/-- The matrix engine of core 0 with this command at its head. -/
def headMx (op : Instr) : State := on { core0 with mx := { queue := [cmd0 op] } }
theorem headDue (op : Instr) (h : ∀ t ∈ Instr.mxTiles op, (core0.vecTile t) = false) : Rules.CommandDue (headMx op) 0 (cmd0 op) [] :=
  ⟨rfl, rfl, rfl, rfl, by show 0 + 5 ≤ 1000; decide, by show 990 < 1000; decide, by show 0 < 1000; decide, by show Nat.max 0 991 ≤ 1000; decide, h⟩

theorem witness_MatrixCommandStarts (h : Obligations.MatrixCommandStarts) :
    (∃ u, exec (.matrixCommandStart 0) (headMx (.azero 63 5)) = .next u) ∧ (∃ u, exec (.matrixCommandStart 0) (headMx (.mma 63 5)) = .next u) :=
  ⟨nextOf2 ((h (headMx (.azero 63 5)) 0 _ [] (headDue _ (by decide))).1 8 2 rfl rfl),
    nextOf ((h (headMx (.mma 63 5)) 0 _ [] (headDue _ (by decide))).2 rfl rfl)⟩

/-- A command under way, and the slot count of its ring. -/
def run1 (op : Instr) : MxRun := { cmd := cmd0 op, s := 990, fw := 0, nb := 1, bc := 32, occ := 32, lat := 20, slots := [(1, 0)] }
def underWay (op : Instr) (fill : Nat) : State := on { core0 with mx := { runs := [run1 op], rings := [(1, { slotsz := 64, slots := 2, fill := fill })] } }

theorem witness_MatrixBlocks (h : Obligations.MatrixBlocks) :
    (∃ u, exec (.ringBlockRead 0 3 0) (underWay (.mma 1 5) 1) = .next u) ∧ (∃ u, exec (.ringBlockRead 0 3 0) (underWay (.mma 1 5) 0) = .next u) ∧
    (∃ u, exec (.mmaBlockAdd 0 3 0) (underWay (.mma 1 5) 1) = .next u) ∧ (∃ u, exec (.scntBlockCount 0 3 0) (underWay (.scnt 1 5) 1) = .next u) :=
  ⟨nextOf ((h.1 (underWay (.mma 1 5) 1) 0 3 0 (run1 (.mma 1 5)) rfl rfl).1 (by simp [MxRun.perBlock, run1, cmd0]; decide)),
    nextOf ((h.1 (underWay (.mma 1 5) 0) 0 3 0 (run1 (.mma 1 5)) rfl rfl).2 ⟨(1, 0), by simp [MxRun.perBlock, run1, cmd0], rfl⟩ rfl),
    nextOf (h.2.1 (underWay (.mma 1 5) 1) 0 3 0 (run1 (.mma 1 5)) 1 5 rfl rfl rfl),
    nextOf (h.2.2 (underWay (.scnt 1 5) 1) 0 3 0 (run1 (.scnt 1 5)) 1 5 rfl rfl)⟩

theorem witness_MatrixRetirement (h : Obligations.MatrixRetirement) : ∃ u, exec (.matrixRetire 0 3) (underWay (.wzero 15 5) 1) = .next u :=
  nextOf (h (underWay (.wzero 15 5) 1) 0 3 (run1 (.wzero 15 5)) rfl rfl)

def mxFault : State :=
  on { core0 with x := { run0 with tvec := 0x4010 }, tsk := { task := some 9 }, mx := { fault := some (.fmtuf, 900) } } .x

theorem witness_EngineFaultTrap (h : Obligations.EngineFaultTrap) : ∃ u, exec (.engineFaultTrap 0 engMxe) mxFault = .next u :=
  nextOf (h mxFault 0 engMxe 9 .fmtuf .x rfl rfl rfl rfl rfl rfl rfl)

/-- A page of 64 KiB that the cache of core 0 holds, in a core whose stream q has its addresses: register 2 holds 256, 3 holds 64,
4 holds 63, 5 holds 2^23, 6 holds 192, 7 holds 1, 8 holds 2^16, 9 holds 77; the store queue 1 holds one entry. -/
def page0 : PageTr := { va := 0, pa := 0x100000, size := 65536, write := true }
def regs0 : SeqSt := { run0 with regs := [(2, 256), (3, 64), (4, 63), (5, 0x800000), (6, 192), (7, 1), (8, 0x10000), (9, 77)] }
def memCore (k : TaskSt) (cmds : List Cmd) : Core :=
  { core0 with c := regs0, l := regs0, s := regs0, q := { sq := [(1, { items := [⟨5, 900⟩] })] },
               tsk := { k with tcache := [page0] }, cmds := cmds, nextCmd := 8 }
def mem (q : Seq) (k : TaskSt := {}) (cmds : List Cmd := []) : State := on (memCore k cmds) q

theorem maps_ok (s : State) (w : Bool) (rs : List (Nat × Nat)) (h : s.xlateAll s.turn.core w rs [] = .ok [page0]) (hp : s.pkg = 0)
    (hr : s.cur.pinRoom (pinKeys [page0]) = true) : Rules.Maps s w rs [page0] := by
  refine ⟨h, fun p hp' _ => ?_, hr⟩
  rw [List.mem_singleton] at hp'
  subst hp'
  rw [hp]; rfl

theorem witness_ScratchpadAccess (h : Obligations.ScratchpadAccess) :
    (∃ u, exec (.ldspm 1 2 2 0) (mem .l) = .next u) ∧ (∃ u, exec (.stspm 1 2 2 0) (mem .s) = .next u) ∧
    (∃ u, exec (.ldspm 1 5 2 0) (mem .l) = .next u) ∧ (∃ u, exec (.ldbc 1 4 4 0) (mem .l) = .next u) ∧
    (∃ u, exec (.ldscal 1 5 5 0) (mem .l) = .next u) :=
  ⟨nextOf2 (h.1 (.ldspm 1 2 2 0) (mem .l) _ _ rfl (by decide) (begins _ _ rfl) (fun _ => rfl) ⟨rfl, rfl⟩ (by decide)),
    nextOf2 (h.1 (.stspm 1 2 2 0) (mem .s) _ _ rfl (by decide) (begins _ _ rfl) (fun _ => rfl) ⟨rfl, rfl⟩ (by decide)),
    ⟨_, h.2 (.ldspm 1 5 2 0) (mem .l) _ 1 5 2 0 (begins _ _ rfl) ⟨rfl, rfl⟩ (.inl ⟨fun _ => rfl, by decide, .inl rfl⟩)⟩,
    ⟨_, h.2 (.ldbc 1 4 4 0) (mem .l) _ 1 4 4 0 (begins _ _ rfl) ⟨rfl, rfl⟩ (.inr (.inl ⟨fun _ => rfl, by decide, rfl⟩))⟩,
    ⟨_, h.2 (.ldscal 1 5 5 0) (mem .l) _ 1 5 5 0 (begins _ _ rfl) ⟨rfl, rfl⟩ (.inr (.inr ⟨fun _ => rfl, .inr (by decide), .inl rfl⟩))⟩⟩

theorem witness_DramAccess (h : Obligations.DramAccess) :
    (∃ u, exec (.lddram 1 2 2 0) (mem .l) = .next u) ∧ (∃ u, exec (.stdram 1 2 2 0) (mem .s) = .next u) ∧
    (∃ u, exec (.lddram 1 4 4 0) (mem .l) = .next u) ∧ (∃ u, exec (.ldgath 1 2 3 0) (mem .l) = .next u) ∧
    (∃ u, exec (.stscat 1 2 3 0) (mem .s) = .next u) ∧ (∃ u, exec (.pref 2 2 0) (mem .l) = .next u) ∧
    (∃ u, exec (.qmark 255) (mem .l) = .next u) ∧ (∃ u, exec (.qmark 255) (mem .s) = .next u) ∧
    (∃ u, exec (.qmark 255) (mem .l { qmS := [254] }) = .next u) ∧ (∃ u, exec (.qmark 255) (mem .s { qmL := [254] }) = .next u) ∧
    (∃ u, exec (.stdram 1 4 4 0) (mem .s) = .next u) ∧ (∃ u, exec (.ldgath 1 4 4 0) (mem .l) = .next u) ∧
    (∃ u, exec (.stscat 1 4 4 0) (mem .s) = .next u) :=
  ⟨nextOf2 ((h.1 (mem .l) _ 1 2 2 0 [page0] (by decide) (begins _ _ rfl) (fun _ => rfl) ⟨rfl, rfl⟩).1 (by decide)
      (maps_ok (started (mem .l)) false (dramRows 256 256) rfl rfl rfl) (by decide)),
    nextOf2 ((h.1 (mem .s) _ 1 2 2 0 [page0] (by decide) (begins _ _ rfl) (fun _ => rfl) ⟨rfl, rfl⟩).2.1 5 (by decide)
      (maps_ok (started (mem .s)) true (dramRows 256 256) rfl rfl rfl) (by decide) rfl),
    ⟨_, (h.1 (mem .l) _ 1 4 4 0 [] (by decide) (begins _ _ rfl) (fun _ => rfl) ⟨rfl, rfl⟩).2.2.1 (.inl (by decide))⟩,
    nextOf2 ((h.1 (mem .l) _ 1 2 3 0 [] (by decide) (begins _ _ rfl) (fun _ => rfl) ⟨rfl, rfl⟩).2.2.2.2.2 (by decide) (by decide) (by decide)
      (by decide)).1,
    nextOf2 (((h.1 (mem .s) _ 1 2 3 0 [] (by decide) (begins _ _ rfl) (fun _ => rfl) ⟨rfl, rfl⟩).2.2.2.2.2 (by decide) (by decide) (by decide)
      (by decide)).2 5 rfl),
    nextOf (h.2.1 (mem .l) _ 2 2 0 (by decide) (begins _ _ rfl) fun _ => rfl),
    nextOf ((h.2.2 (mem .l) _ 255 (.inl rfl) (begins _ _ rfl)).1 rfl nofun), nextOf ((h.2.2 (mem .s) _ 255 (.inr rfl) (begins _ _ rfl)).2.1 rfl nofun),
    ⟨_, (h.2.2 (mem .l { qmS := [254] }) _ 255 (.inl rfl) (begins _ _ rfl)).2.2.1 rfl 254 rfl (by decide)⟩,
    ⟨_, (h.2.2 (mem .s { qmL := [254] }) _ 255 (.inr rfl) (begins _ _ rfl)).2.2.2 rfl 254 rfl (by decide)⟩,
    ⟨_, (h.1 (mem .s) _ 1 4 4 0 [] (by decide) (begins _ _ rfl) (fun _ => rfl) ⟨rfl, rfl⟩).2.2.2.1 (.inl (by decide))⟩,
    ⟨_, ((h.1 (mem .l) _ 1 4 4 0 [] (by decide) (begins _ _ rfl) (fun _ => rfl) ⟨rfl, rfl⟩).2.2.2.2.1 (by decide)).1⟩,
    ⟨_, ((h.1 (mem .s) _ 1 4 4 0 [] (by decide) (begins _ _ rfl) (fun _ => rfl) ⟨rfl, rfl⟩).2.2.2.2.1 (by decide)).2⟩⟩

/-- A command under way on core 0. -/
def cmdOf (q : Seq) (op : Instr) (arrived : Bool) : Cmd :=
  { id := 3, eng := 2, q := q, op := op, issued := 990, addr := 256, pitch := 256, queue := 1, pages := [page0], data := 5, arrived := arrived,
    slot := some false, idxs := [256] }
def busy (q : Seq) (op : Instr) (arrived : Bool := false) : State := mem q {} [cmdOf q op arrived]

theorem witness_LoadsAndStoresArePerformed (h : Obligations.LoadsAndStoresArePerformed) :
    (∃ u, exec (.loadQueuePush 0 3) (busy .l (.lddram 1 2 2 0) true) = .next u) ∧ (∃ u, exec (.lddramReturn 0 3) (busy .l (.lddram 1 2 2 0)) = .next u) ∧
    (∃ u, exec (.gatherElement 0 3 0) (busy .l (.ldgath 1 2 3 0)) = .next u) ∧ (∃ u, exec (.storePerformed 0 3) (busy .s (.stdram 1 2 2 0)) = .next u) ∧
    (∃ u, exec (.gatherElement 0 3 0) (busy .s (.stscat 1 2 3 0)) = .next u) ∧ (∃ u, exec (.storePerformed 0 3) (busy .s (.stspm 1 2 2 0)) = .next u) :=
  ⟨nextOf ((h.1 (busy .l (.lddram 1 2 2 0) true) 0 3 (cmdOf .l (.lddram 1 2 2 0) true) rfl).1 rfl (fun x hx _ _ => by
      have e : x = cmdOf .l (.lddram 1 2 2 0) true := List.mem_singleton.mp hx
      rw [e]; decide) rfl),
    nextOf2 ((h.1 (busy .l (.lddram 1 2 2 0)) 0 3 (cmdOf .l (.lddram 1 2 2 0) false) rfl).2.1 rfl rfl rfl rfl),
    nextOf2 ((h.1 (busy .l (.ldgath 1 2 3 0)) 0 3 (cmdOf .l (.ldgath 1 2 3 0) false) rfl).2.2 0 false page0 1 2 3 0 rfl rfl rfl rfl (fun _ => rfl) rfl),
    nextOf ((h.2 (busy .s (.stdram 1 2 2 0)) 0 3 (cmdOf .s (.stdram 1 2 2 0) false) rfl).1 1 2 2 0 page0 rfl rfl rfl rfl rfl (by decide) (by decide)
      plain fun _ _ => ⟨rfl, rfl, rfl⟩),
    nextOf ((h.2 (busy .s (.stscat 1 2 3 0)) 0 3 (cmdOf .s (.stscat 1 2 3 0) false) rfl).2.1 1 2 3 0 page0 0 false rfl rfl rfl rfl rfl rfl (fun _ => rfl)
      (by decide) (by decide) plain ⟨rfl, rfl, rfl⟩),
    nextOf ((h.2 (busy .s (.stspm 1 2 2 0)) 0 3 (cmdOf .s (.stspm 1 2 2 0) false) rfl).2.2 (.inl ⟨_, _, _, _, rfl⟩) rfl)⟩

/-- A node of the copy engine that has done `units` of its three units, and depends on others. -/
def node0 (deps : List Nat) (buf : Option (List Byte)) : CopyNode :=
  { id := 5, tag := 0, src := 256, dst := 0, len := 192, rows := 1, spitch := 0, dpitch := 0, shadow := false, sspm := false, dspm := false,
    deps := deps, spages := [page0], dpages := [page0], buf := buf }
def copying (deps : List Nat) (buf : Option (List Byte)) (more : List CopyNode := []) : State := mem .c { copies := node0 deps buf :: more }

theorem witness_Copies (h : Obligations.Copies) :
    (∃ u, exec (.copy 1 2 6 0 63 0 0 0) (mem .c) = .next u) ∧ (∃ u, exec (.copy 4 2 6 0 63 0 1 1) (mem .c) = .next u) ∧
    (∃ u, exec (.copyNodeStart 0 5) (copying [] none) = .next u) ∧
    (∃ u, exec (.copyNodeStart 0 5) (copying [6] none [{ node0 [] none with id := 6 }]) = .next u) ∧
    (∃ u, exec (.copyUnit 0 5 0) (copying [] none) = .next u) ∧
    (∃ u, exec (.copyUnit 0 5 0) (copying [] (some (List.replicate 64 7))) = .next u) ∧
    (∃ u, exec (.copyNodeRetire 0 5) (copying [] none) = .next u) :=
  ⟨nextOf2 ((h.1 (.copy 1 2 6 0 63 0 0 0) (mem .c) _ 256 0 192 1 0 0 63 _ false false false [page0] [page0] rfl (by decide) (begins _ _ rfl)
      (fun _ => rfl) ⟨rfl, rfl⟩ (fun _ => .inr (by decide)) nofun).1 (by decide) (by decide) nofun nofun (maps_ok _ _ _ rfl rfl rfl) rfl
      (fun p hp _ => by rw [List.mem_singleton] at hp; subst hp; rfl) rfl),
    ⟨_, (h.1 (.copy 4 2 6 0 63 0 1 1) (mem .c) _ 256 63 192 1 0 0 63 _ false true true [] [] rfl (by decide) (begins _ _ rfl)
      (fun _ => rfl) ⟨rfl, rfl⟩ (fun _ => .inr (by decide)) nofun).2 (.inr (by decide))⟩,
    nextOf ((h.2 (copying [] none) 0 5 (node0 [] none) rfl).1 false nofun rfl),
    ⟨_, (h.2 (copying [6] none [{ node0 [] none with id := 6 }]) 0 5 (node0 [6] none) rfl).2.1 ⟨6, List.mem_singleton.mpr rfl, by decide⟩⟩,
    nextOf ((h.2 (copying [] none) 0 5 (node0 [] none) rfl).2.2.1 rfl rfl),
    nextOf ((h.2 (copying [] (some (List.replicate 64 7))) 0 5 (node0 [] (some (List.replicate 64 7))) rfl).2.2.2.1 _ page0 rfl rfl rfl
      plain ⟨rfl, rfl, rfl⟩),
    nextOf ((h.2 (copying [] none) 0 5 (node0 [] none) rfl).2.2.2.2 rfl)⟩

/-- Stream L with tokens in its two FIFOs. -/
def tokens (n : Nat) : State := on { core0 with q := { tk := [1, 2, 4, 5].map fun k => (k, { count := n }) } } .l

theorem witness_FencesAndTokens (h : Obligations.FencesAndTokens) :
    (∃ u, exec (.fence ⟨0, 3⟩) (busy .l (.lddram 1 2 2 0)) = .next u) ∧ (∃ u, exec (.fence ⟨4, 3⟩) (busy .l (.lddram 1 2 2 0)) = .next u) ∧
    (∃ u, exec (.tkwait 0 63 0) (tokens 63) = .next u) ∧ (∃ u, exec (.tkwait 1 63 0) (tokens 62) = .next u) ∧
    (∃ u, exec (.tksig 1 63 0) (tokens 0) = .next u) ∧ (∃ u, exec (.tksig 0 63 0) (tokens 1) = .next u) :=
  ⟨nextOf ((h.1 (busy .l (.lddram 1 2 2 0)) _ ⟨0, 3⟩ (begins _ _ rfl)).1 (.inl rfl)),
    ⟨_, (h.1 (busy .l (.lddram 1 2 2 0)) _ ⟨4, 3⟩ (begins _ _ rfl)).2 (by decide) rfl⟩,
    nextOf ((h.2 (tokens 63) _ 0 63 0 (by decide) (begins _ _ rfl) rfl).1 (by decide)),
    ⟨_, (h.2 (tokens 62) _ 1 63 0 (by decide) (begins _ _ rfl) rfl).2.1 (by decide)⟩,
    nextOf ((h.2 (tokens 0) _ 1 63 0 (by decide) (begins _ _ rfl) rfl).2.2.1 nofun (by decide)),
    ⟨_, (h.2 (tokens 1) _ 0 63 0 (by decide) (begins _ _ rfl) rfl).2.2.2 nofun (by decide)⟩⟩

/-- An open shadow of a small page, and its publish. -/
def shadow0 : Shadow := { va := 0, pa := 0x100000, size := 65536, mem := [(0, 5)], version := none }
def pub0 : Publish := { id := 4, tsw := 1000, vas := [0], version := none, task := 9, core := 0, q := .c, cmd := 3 }
/-- The task of core 0, which writes version 77. -/
def rec0 : TaskRec := { id := 9, ctx := 0, lserial := 0, wid := 0, taskno := 0, param := 0, prio := 0, weight := 1, tiles := [(77, true)] }
def writer (tiles : List (Nat × Bool)) : State :=
  { mem .c { task := some 9 } with recs := [{ rec0 with tiles := tiles }], dir := [{ name := 77 }] }
def lin0 : Lineage :=
  { name := 77, taskno := 0, ctx := 0, audit := false, pcore := 0, die := 0, lserial := 0, wid := 0, param := 0, stc := 1000, issuer := 0, opds := [],
    depth := 0, prio := 0 }

/-- Its report on the way, and what has been acknowledged. -/
def acks (l : Bool) : DirEnt := { name := 77, linack := l }
def acking (l : Bool) (held : List Lineage := []) : State :=
  { mem .c with sentLin := [lin0], dir := [acks l], dies := [(5, { shard := { lineage := held } })], inp := { die := 5 } }
/-- A record of n operands, which fills a shard. -/
def bigLin (n : Nat) : Lineage := { lin0 with opds := List.replicate n 0 }

theorem bigLin_bytes (n : Nat) : Shard.bytes { lineage := [bigLin n] } = (64 + 8 * n + 63) / 64 * 64 := by
  simp only [Shard.bytes, List.foldl_cons, List.foldl_nil, List.length_nil, Lineage.bytes, bigLin, List.length_replicate]
  omega

theorem full (x : Shard) (h : x = { lineage := [bigLin shardCap] }) : shardCap < x.bytes + x.needs lin0 := by
  rw [h, bigLin_bytes]; generalize shardCap = c; omega

theorem witness_Publishing (h : Obligations.Publishing) :
    (∃ u, exec (.publishBuf 2 6 4) (mem .c) = .next u) ∧ (∃ u, exec (.publishBuf 2 6 4) (mem .c { shadows := [shadow0] }) = .next u) ∧
    (∃ u, exec (.publishTile 9 4) (writer [(77, true)]) = .next u) ∧ (∃ u, exec (.publishTile 9 4) (writer [(77, false)]) = .next u) ∧
    (∃ u, exec (.publishSwitch 4) { mem .c { task := some 9, shadows := [shadow0] } with publishes := [pub0] } = .next u) ∧
    (∃ u, exec (.lineageAck 77 false) (acking false) = .next u) ∧ (∃ u, exec (.lineageAck 77 true) (acking false) = .next u) ∧
    (∃ u, exec (.lineageAck 77 true) (acking true) = .next u) ∧
    (∃ u, exec (.lineageAck 77 true) (acking false [bigLin shardCap]) = .next u) :=
  ⟨nextOf ((h.1 (mem .c) _ 2 6 4 rfl (begins _ _ rfl) (fun _ => rfl) ⟨rfl, rfl⟩ rfl rfl).1 rfl),
    nextOf2 ((h.1 (mem .c { shadows := [shadow0] }) _ 2 6 4 rfl (begins _ _ rfl) (fun _ => rfl) ⟨rfl, rfl⟩ rfl rfl).2 (by decide)),
    nextOf2 ((h.2.1 (writer [(77, true)]) _ 9 4 rfl (begins _ _ rfl) (fun _ => rfl) ⟨rfl, rfl⟩ rfl rfl).1 rec0 0 { name := 77 } rfl rfl rfl rfl rfl
      (by decide) (by decide) (room _ _ _ rfl (by decide) (by decide))),
    ⟨_, (h.2.1 (writer [(77, false)]) _ 9 4 rfl (begins _ _ rfl) (fun _ => rfl) ⟨rfl, rfl⟩ rfl rfl).2 { rec0 with tiles := [(77, false)] } rfl rfl⟩,
    nextOf (h.2.2.1 { mem .c { task := some 9, shadows := [shadow0] } with publishes := [pub0] } pub0 shadow0 9 rfl rfl rfl rfl rfl rfl rfl
      plain (fun _ => rfl) rfl (by decide) rfl),
    nextOf (((h.2.2.2 (acking false) lin0 (acks false) false rfl rfl rfl).2 (below (by decide))).1 rfl),
    nextOf (((h.2.2.2 (acking false) lin0 (acks false) true rfl rfl rfl).2 (below (by decide))).1 rfl),
    nextOf (((h.2.2.2 (acking true) lin0 (acks true) true rfl rfl rfl).2 (below (by decide))).2 rfl),
    nextOf ((h.2.2.2 (acking false [bigLin shardCap]) lin0 (acks false) true rfl rfl rfl).1 (full _ (if_pos (by decide))))⟩

theorem acts (s : State) (regs : List RegF) (va len : Nat) (write : Bool) (o : Ordr) (hq : s.turn.q ≠ .x) (hr : s.cur.sys.region = true)
    (t : State) (hf : t.RegsFree regs) (ha : t.cur.acquiring t.turn.q = false) (hm : t.cur.marked t.turn.q = false)
    (hp : t.cur.allPerformed t.turn.q = true) (h0 : t.cur.tsk.run = 0) (hx : t.xlateAll t.turn.core write [(va, len)] [] = .ok [page0])
    (hk : t.pkg = 0) (hn : t.cur.pinRoom (pinKeys [page0]) = true) (hv : va + len ≤ 65536) (hc : t.cur.cmds = []) :
    Rules.ActsOn s t regs va len write o page0 :=
  ⟨hq, hr, hf, ⟨ha, hm⟩, fun _ => hp, h0, maps_ok t write _ hx hk hn, Nat.zero_le va, by show va + len ≤ 0 + 65536; omega,
    by simp [State.clashes, show (t.core t.turn.core).cmds = [] from hc], fun m hm => by rw [hc] at hm; cases hm⟩

theorem witness_AtomicsApply (h : Obligations.AtomicsApply) :
    (∃ u, exec (.amo 1 2 3 4 11 3 0 ⟨4, 3⟩) (mem .c) = .next u) ∧ (∃ u, exec (.ramo 1 2 3 4 0 2 ⟨4, 3⟩) (mem .c) = .next u) ∧
    (∃ u, exec (.amo 1 2 3 4 2 2 0 ⟨0, 0⟩) (on { core0 with sys := {} }) = .next u) ∧
    (∃ u, exec (.amo 1 2 3 4 2 2 0 ⟨0, 0⟩) (on { core0 with sys := {}, tsk := { run := 1 } }) = .next u) ∧ (∃ u, exec (.damo 1 4 3 4 2 2 ⟨0, 0⟩) (mem .c) = .next u) ∧
    (∃ u, exec (.amo 1 2 3 4 2 2 1 ⟨0, 0⟩) (mem .s) = .next u) ∧ (∃ u, exec (.amo 1 4 3 4 2 2 0 ⟨0, 0⟩) (mem .c) = .next u) ∧
    (∃ u, exec (.atomicResultReturn 0 3) (busy .c (.amo 1 2 3 4 11 3 0 ⟨4, 3⟩)) = .next u) ∧
    (∃ u, exec (.atomicResultReturn 0 3) (busy .c (.ramo 1 2 3 4 0 2 ⟨4, 3⟩)) = .next u) :=
  ⟨nextOf2 ((h.1 (mem .c) (started (mem .c) { audit := true }) 1 2 3 4 11 3 ⟨4, 3⟩ page0 (begins _ _ rfl)
      (acts _ _ _ _ _ _ (by decide) rfl _ (fun _ => rfl) rfl rfl rfl rfl rfl rfl rfl (by decide) rfl) _ (.inl rfl)).1 (by decide)),
    nextOf2 ((h.1 (mem .c) (started (mem .c) { audit := true }) 1 2 3 4 0 2 ⟨4, 3⟩ page0 (begins _ _ rfl)
      (acts _ _ _ _ _ _ (by decide) rfl _ (fun _ => rfl) rfl rfl rfl rfl rfl rfl rfl (by decide) rfl) _ (.inr rfl)).1 (by decide)),
    ⟨_, ((h.2.2 (on { core0 with sys := {} }) _ 1 2 3 4 2 2 ⟨0, 0⟩).1 rfl (begins _ _ rfl) _ (.inl rfl)).1 rfl⟩,
    ⟨_, ((h.2.2 (on { core0 with sys := {}, tsk := { run := 1 } }) _ 1 2 3 4 2 2 ⟨0, 0⟩).1 rfl (begins _ _ rfl) _ (.inl rfl)).2 (by decide)⟩,
    ⟨_, (h.2.2 (mem .c) _ 1 4 3 4 2 2 ⟨0, 0⟩).2.1 rfl (begins _ _ rfl) (fun _ => rfl) ⟨rfl, rfl⟩ nofun rfl (by decide)⟩,
    nextOf2 ((h.2.2 (mem .s) (started (mem .s) { audit := true }) 1 2 3 4 2 2 ⟨0, 0⟩).2.2 (by decide) (begins _ _ rfl) (fun _ => rfl) ⟨rfl, rfl⟩ nofun
      (by decide) (by decide)),
    ⟨_, (h.1 (mem .c) (started (mem .c) { audit := true }) 1 4 3 4 2 2 ⟨0, 0⟩ page0 (begins _ _ rfl)
      (acts _ _ _ _ _ _ (by decide) rfl _ (fun _ => rfl) rfl rfl rfl rfl rfl rfl rfl (by decide) rfl) _ (.inl rfl)).2 (by decide)⟩,
    nextOf (h.2.1 (busy .c (.amo 1 2 3 4 11 3 0 ⟨4, 3⟩)) 0 3 _ page0 11 3 rfl rfl rfl rfl (by decide) (by decide) plain rfl rfl),
    nextOf (h.2.1 (busy .c (.ramo 1 2 3 4 0 2 ⟨4, 3⟩)) 0 3 _ page0 0 2 rfl rfl rfl rfl (by decide) (by decide) plain rfl rfl)⟩

/-- An accepted or a travelling damo on word 0x100100, and the unit of the word. -/
def damo0 (n : Nat) : DamoOp :=
  { id := n, core := 0, cmd := 3, kind := 2, size := 0, b := 1, c := 0, pa := 0x100100, src := 0, stamp := { stc := 500 } }
def dauK : Nat := (mem .c).unitOf (damo0 0)
def dau0 (n : Nat) (log : List DamoOp) : Dau :=
  { buf := (List.range n).map damo0, log := log, horizon := (List.range 10).map fun k => (k, 768) }
def damoS (n : Nat) (log : List DamoOp) (sent : List DamoOp) : State :=
  { busy .c (.damo 1 2 3 4 2 0 ⟨0, 0⟩) with damos := sent, daus := [(dauK, dau0 n log)] }
/-- The close of its window at its own stamp, and one of another package. -/
def closing : Input := { stamp := { stc := 500 } }
def afar : DamoOp := { damo0 0 with far := true }

theorem witness_AtomicsReturn (h : Obligations.AtomicsReturn) :
    (∃ u, exec (.atomicResultReturn 0 3) (mem .c {} [{ cmdOf .c (.damo 63 2 3 4 2 0 ⟨0, 0⟩) true with dst := 63 }]) = .next u) ∧
    (∃ u, exec (.atomicResultReturn 0 3) (mem .c {} [{ cmdOf .c (.rwclose 63 7 3) false with dst := 63 }]) = .next u) ∧
    (∃ u, exec (.damo 1 2 3 4 11 3 ⟨4, 3⟩) (mem .c) = .next u) ∧ (∃ u, exec (.damoArrival 20) (damoS 15 [] [damo0 20]) = .next u) ∧
    (∃ u, exec (.damoArrival 20) (damoS 16 (List.replicate 65536 (damo0 21)) [damo0 20]) = .next u) ∧
    (∃ u, exec (.damoArrival 20) (damoS 16 [] [damo0 20]) = .next u) ∧ (∃ u, exec (.damoRetryResend 20) (damoS 16 [] [damo0 20]) = .next u) ∧
    (∃ u, exec (.horizonMessage dauK 9) (damoS 0 [] [damo0 20]) = .next u) ∧
    (∃ u, exec (.horizonMessage dauK 9) { damoS 0 [] [damo0 20] with inp := { mark := true } } = .next u) ∧
    (∃ u, exec (.damoWindowClose dauK) (damoS 1 [] []) = .next u) ∧
    (∃ u, exec (.damoWindowClose dauK) { damoS 1 [] [] with inp := closing } = .next u) ∧
    (∃ u, exec (.damoWindowClose dauK) { damoS 0 [] [] with daus := [(dauK, { dau0 0 [] with buf := [afar] })], inp := closing } = .next u) :=
  ⟨nextOf (h.1 _ 0 3 { cmdOf .c (.damo 63 2 3 4 2 0 ⟨0, 0⟩) true with dst := 63 } rfl (by decide) rfl (.inl rfl)),
    nextOf (h.1 _ 0 3 { cmdOf .c (.rwclose 63 7 3) false with dst := 63 } rfl (by decide) rfl (.inr ⟨nofun, rfl⟩)),
    nextOf3 (h.2.1 (mem .c) (started (mem .c)) 1 2 3 4 11 3 ⟨4, 3⟩ page0 (begins _ _ rfl)
      (acts _ _ _ _ _ _ (by decide) rfl _ (fun _ => rfl) rfl rfl rfl rfl rfl rfl rfl (by decide) rfl) (by decide)),
    nextOf ((h.2.2.1 (damoS 15 [] [damo0 20]) (damo0 20) rfl).1 (by decide)),
    nextOf ((h.2.2.1 (damoS 16 (List.replicate 65536 (damo0 21)) [damo0 20]) (damo0 20) rfl).2.2.1 (by decide)
      (Nat.le_of_eq (List.length_replicate (n := 65536) (a := damo0 21)).symm)),
    nextOf ((h.2.2.1 (damoS 16 [] [damo0 20]) (damo0 20) rfl).2.1 (by decide +kernel) (by decide +kernel)),
    nextOf (h.2.2.1 (damoS 16 [] [damo0 20]) (damo0 20) rfl).2.2.2,
    nextOf2 ((h.2.2.2.1 (damoS 0 [] [damo0 20]) dauK 9 (by decide)).1 rfl),
    nextOf ((h.2.2.2.1 { damoS 0 [] [damo0 20] with inp := { mark := true } } dauK 9 (by decide)).2 rfl),
    nextOf ((h.2.2.2.2 (damoS 1 [] []) dauK (damo0 0) rfl rfl (by decide) plain (fun _ => rfl) (by decide) (by decide)).1 rfl),
    nextOf ((h.2.2.2.2 { damoS 1 [] [] with inp := closing } dauK (damo0 0) rfl rfl (by decide) plain (fun _ => rfl) (by decide) (by decide)).2 rfl
      (.inr ⟨_, rfl, rfl, rfl, rfl⟩)),
    nextOf ((h.2.2.2.2 { damoS 0 [] [] with daus := [(dauK, { dau0 0 [] with buf := [afar] })], inp := closing } dauK afar rfl rfl (by decide) plain
      (fun _ => rfl) (by decide) (by decide)).2 rfl (.inl ⟨rfl, rfl⟩))⟩

/-- An open reduction window of one element over the page, with an integer type, and contributions to it. -/
def part0 (n : Nat) (last : Bool) : Contrib :=
  { id := n, win := none, ctx := 0, handle := 1, core := 0, cmd := 3, elem := 0, values := [7], last := last, stamp := {} }
def win0 (parts : List Contrib) (delivered : Bool) : RWin :=
  { id := 6, handle := 1, ctx := 0, die := 0, base := 0, va := 256, n := 1, type_ := 0, tasks := 1, scope := 2, mirror := false, mbase := 0,
    parts := parts, delivered := delivered, pages := [page0] }
def open_ (w : RWin) (sent : List Contrib) (q : Seq := .s) : State := { mem q with rwins := [w], contribs := sent }

theorem witness_WindowsOpen (h : Obligations.WindowsOpen) :
    (∃ u, exec (.rwopen 1 2 7 7 0 2) (mem .c) = .next u) ∧ (∃ u, exec (.rwopen 1 2 0 7 0 2) (mem .c) = .next u) ∧
    (∃ u, exec (.rwopen 1 7 7 7 0 2) (mem .c) = .next u) ∧
    (∃ u, exec (.rwadd 7 0 6 1 3) (open_ (win0 [] false) []) = .next u) ∧ (∃ u, exec (.rwaddBlk 7 2 7 1 3) (open_ (win0 [] false) []) = .next u) :=
  ⟨nextOf3 ((h.1 (mem .c) _ 1 2 7 7 0 2 (by decide) (begins _ _ rfl) (fun _ => rfl) ⟨rfl, rfl⟩).1 1 0 1 [page0] (by decide) (by decide) nofun
      (maps_ok (started (mem .c)) true [(256, 4)] rfl rfl rfl) (by decide)),
    ⟨_, (h.1 (mem .c) _ 1 2 0 7 0 2 (by decide) (begins _ _ rfl) (fun _ => rfl) ⟨rfl, rfl⟩).2.1 (by decide)⟩,
    ⟨_, (h.1 (mem .c) _ 1 7 7 7 0 2 (by decide) (begins _ _ rfl) (fun _ => rfl) ⟨rfl, rfl⟩).2.2 (by decide) rfl (by decide)⟩,
    nextOf2 (h.2 (open_ (win0 [] false) []) _ 7 0 6 1 3 (by decide) (begins _ _ rfl) (fun _ => rfl) ⟨⟨rfl, rfl⟩, fun _ => rfl⟩ rfl).1,
    nextOf2 ((h.2 (open_ (win0 [] false) []) _ 7 2 7 1 3 (by decide) (begins _ _ rfl) (fun _ => rfl) ⟨⟨rfl, rfl⟩, fun _ => rfl⟩ rfl).2
      (win0 [] false) rfl (by decide) (by decide) (by decide) (by decide) (by decide))⟩

/-- The command of a contribution on its way. -/
def joining (b : Option Bool) : Cmd := { cmdOf .s (.rwadd 7 0 6 1 3) false with eng := engCle, slot := b }

theorem witness_WindowsDeliver (h : Obligations.WindowsDeliver) :
    (∃ u, exec (.rwContribution 8) { open_ (win0 [] false) [part0 8 true] with cores := [(0, memCore {} [joining none])] } = .next u) ∧
    (∃ u, exec (.rwContribution 8) (open_ (win0 [] false) [part0 8 true]) = .next u) ∧
    (∃ u, exec (.rwDelivery 6) (open_ (win0 [part0 8 true] false) []) = .next u) ∧
    (∃ u, exec (.rwclose 1 7 3) (open_ (win0 [] true) []) = .next u) ∧ (∃ u, exec (.rwclose 1 7 3) (open_ (win0 [] false) []) = .next u) ∧
    (∃ u, exec (.rwclose 1 2 3) (open_ (win0 [] false) []) = .next u) :=
  ⟨nextOf (h.1.1 { open_ (win0 [] false) [part0 8 true] with cores := [(0, memCore {} [joining none])] } (part0 8 true) (joining none) false rfl rfl rfl rfl),
    nextOf2 (h.1.2.1 (open_ (win0 [] false) [part0 8 true]) (part0 8 true) (win0 [] false) rfl (fun _ e => nomatch (show none = some _ from e)) rfl (by decide)
      fun x hx _ => List.mem_singleton.mp hx),
    nextOf (h.1.2.2 (open_ (win0 [part0 8 true] false) []) (win0 [part0 8 true] false) 0 7 page0 rfl rfl rfl rfl plain rfl rfl),
    nextOf2 ((h.2 (open_ (win0 [] true) []) _ 1 7 3 (by decide) rfl (begins _ _ rfl) (fun _ => rfl) ⟨rfl, rfl⟩).1 (win0 [] true) rfl rfl),
    nextOf ((h.2 (open_ (win0 [] false) []) _ 1 7 3 (by decide) rfl (begins _ _ rfl) (fun _ => rfl) ⟨rfl, rfl⟩).2.1 (win0 [] false) rfl rfl nofun),
    ⟨_, (h.2 (open_ (win0 [] false) []) _ 1 2 3 (by decide) rfl (begins _ _ rfl) (fun _ => rfl) ⟨rfl, rfl⟩).2.2 rfl⟩⟩

theorem witness_PairingWords (h : Obligations.PairingWords) :
    (∃ u, exec (.pinit 2 8) (mem .c) = .next u) ∧ (∃ u, exec (.pinit 2 3) (mem .c) = .next u) ∧ (∃ u, exec (.pinit 4 8) (mem .c) = .next u) ∧
    (∃ u, exec (.ppush 1 2 3 0 ⟨4, 0⟩) (on { core0 with sys := {} }) = .next u) ∧
    (∃ u, exec (.ppop 1 3 2 0 ⟨4, 0⟩) (on { core0 with sys := {}, tsk := { run := 1 } }) = .next u) ∧ (∃ u, exec (.ppush 1 2 3 0 ⟨4, 3⟩) (mem .c) = .next u) ∧
    (∃ u, exec (.ppop 1 3 2 1 ⟨4, 3⟩) (mem .c) = .next u) ∧ (∃ u, exec (.storePerformed 0 3) (busy .c (.pinit 2 8)) = .next u) :=
  ⟨nextOf2 ((h.1 (mem .c) _ 2 8 rfl (begins _ _ rfl) (fun _ => rfl) ⟨⟨rfl, rfl⟩, fun _ => rfl⟩).1 page0 (by decide) (by decide)
      (maps_ok (started (mem .c)) true [(256, 64)] rfl rfl rfl)),
    ⟨_, (h.1 (mem .c) _ 2 3 rfl (begins _ _ rfl) (fun _ => rfl) ⟨⟨rfl, rfl⟩, fun _ => rfl⟩).2.1 (by decide)⟩,
    ⟨_, (h.1 (mem .c) _ 4 8 rfl (begins _ _ rfl) (fun _ => rfl) ⟨⟨rfl, rfl⟩, fun _ => rfl⟩).2.2 (by decide) (by decide)⟩,
    ⟨_, ((h.2.2 (on { core0 with sys := {} }) _ 1 2 3 0 ⟨4, 0⟩ page0).1 rfl (begins _ _ rfl) _ (.inl rfl)).1 rfl⟩,
    ⟨_, ((h.2.2 (on { core0 with sys := {}, tsk := { run := 1 } }) _ 1 2 3 0 ⟨4, 0⟩ page0).1 rfl (begins _ _ rfl) _ (.inr rfl)).2 (by decide)⟩,
    nextOf3 ((h.2.2 (mem .c) (started (mem .c) { audit := true }) 1 2 3 0 ⟨4, 3⟩ page0).2.1 (begins _ _ rfl)
      (acts _ _ _ _ _ _ (by decide) rfl _ (fun _ => rfl) rfl rfl rfl rfl rfl rfl rfl (by decide) rfl)),
    nextOf3 ((h.2.2 (mem .c) (started (mem .c) { audit := true }) 1 2 3 1 ⟨4, 3⟩ page0).2.2 (begins _ _ rfl)
      (acts _ _ _ _ _ _ (by decide) rfl _ (fun _ => rfl) rfl rfl rfl rfl rfl rfl rfl (by decide) rfl)),
    nextOf (h.2.1 (busy .c (.pinit 2 8)) 0 3 _ 2 8 page0 rfl rfl rfl rfl (by decide) (by decide) plain rfl rfl)⟩

/-- A push and a pop on an object at 0x100100, held by die 0 or on their way; the object is a LIFO of capacity 1 with `n` items. -/
def pair0 (n : Nat) (push : Bool) (que : Bool) (held : Option Nat) : PairOp :=
  { id := n, core := 0, cmd := n, push := push, item := 5, que := que, obj := 0x100100, path := [0], held := held, arrived := 936, stamp := {} }
def pairs0 (l : List PairOp) (here : List Nat) (dram : List Host.Cell := []) : State :=
  { mem .c {} ([3, 4].map fun n => { cmdOf .c (.ppush 1 2 3 0 ⟨4, 0⟩) false with id := n }) with
    pairs := l, dies := [(0, { pairBuf := here })], dram := dram }
def lifo (n : Nat) : List Host.Cell := if n = 0 then [(0x100102, 1)] else [(0x100100, 1), (0x100102, 1), (0x100140, 9)]

theorem plainD {l : List PairOp} {here : List Nat} {dram : List Host.Cell} : Rules.PlainDram (pairs0 l here dram) :=
  plain (d := fun d => match d with | 0 => ⟨rfl, rfl⟩ | _ + 1 => ⟨rfl, rfl⟩)

theorem witness_PairingMeets (h : Obligations.PairingMeets) :
    (∃ u, exec (.pairingArrival 3) (pairs0 [pair0 3 true false none] []) = .next u) ∧
    (∃ u, exec (.pairingArrival 3) (pairs0 [pair0 3 true true none] []) = .next u) ∧
    (∃ u, exec (.pairingHoldExpiry 3) (pairs0 [pair0 3 true false (some 0)] [3]) = .next u) ∧
    (∃ u, exec .claspPairing (pairs0 [pair0 3 true false (some 0), pair0 4 false false (some 0)] [3, 4]) = .next u) ∧
    (∃ u, exec (.fallThroughApply 3) (pairs0 [pair0 3 true false none] [] (lifo 0)) = .next u) ∧
    (∃ u, exec (.fallThroughApply 3) (pairs0 [pair0 3 false false none] [] (lifo 1)) = .next u) ∧
    (∃ u, exec (.fallThroughApply 3) (pairs0 [pair0 3 true false none] [] (lifo 1)) = .next u) ∧
    (∃ u, exec (.fallThroughApply 3) (pairs0 [pair0 3 false false none] [] (lifo 0)) = .next u) :=
  ⟨nextOf ((h.1.1 (pairs0 [pair0 3 true false none] []) (pair0 3 true false none) 0 [] rfl rfl).1 rfl (by decide)),
    nextOf ((h.1.1 (pairs0 [pair0 3 true true none] []) (pair0 3 true true none) 0 [] rfl rfl).2.1 (.inl rfl) rfl),
    nextOf ((h.1.1 (pairs0 [pair0 3 true false (some 0)] [3]) (pair0 3 true false (some 0)) 0 [] rfl rfl).2.2 rfl rfl),
    nextOf (h.1.2 (pairs0 [pair0 3 true false (some 0), pair0 4 false false (some 0)] [3, 4]) 0 (pair0 3 true false (some 0))
      (pair0 4 false false (some 0)) _ _ rfl rfl (by decide) rfl rfl rfl rfl rfl rfl rfl rfl rfl rfl rfl (by decide)),
    nextOf ((h.2 (pairs0 [pair0 3 true false none] [] (lifo 0)) (pair0 3 true false none) _ page0 rfl rfl rfl rfl rfl (by decide) plainD (fun _ => rfl) (fun d => match d with | 0 => rfl | _ + 1 => rfl) (by decide) (by decide)).1 rfl (by decide)),
    nextOf ((h.2 (pairs0 [pair0 3 false false none] [] (lifo 1)) (pair0 3 false false none) _ page0 rfl rfl rfl rfl rfl (by decide) plainD (fun _ => rfl) (fun d => match d with | 0 => rfl | _ + 1 => rfl) (by decide) (by decide)).2.1 rfl (by decide)),
    nextOf ((h.2 (pairs0 [pair0 3 true false none] [] (lifo 1)) (pair0 3 true false none) _ page0 rfl rfl rfl rfl rfl (by decide) plainD (fun _ => rfl) (fun d => match d with | 0 => rfl | _ + 1 => rfl) (by decide) (by decide)).2.2.1 rfl
      (by decide)),
    nextOf ((h.2 (pairs0 [pair0 3 false false none] [] (lifo 0)) (pair0 3 false false none) _ page0 rfl rfl rfl rfl rfl (by decide) plainD (fun _ => rfl) (fun d => match d with | 0 => rfl | _ + 1 => rfl) (by decide) (by decide)).2.2.2 rfl
      (by decide))⟩

/-- Core 0 with its four streams in these modes; the turn is C's. -/
def modes (c l x s : SeqRun) (k : TaskSt := {}) : State :=
  on { core0 with c := { run0 with mode := c }, l := { run0 with mode := l }, x := { run0 with mode := x }, s := { run0 with mode := s }, tsk := k }
/-- A booking that is armed, its window, and the task that holds both. -/
def book0 : Booking := { count := 1, t0 := 2000, tmpl := { len := 4096 } }
def window0 : Window := { task := 9, core := 0, t0 := 2000, pre := 0, tmpl := { len := 4096 }, order := 0, armed := true, use := 1 }

theorem allMode (m : SeqRun) (k : TaskSt) : ∀ q, (((modes m m m m k).core 0).seq q).mode = m := fun q => by cases q <;> rfl
theorem othersMode (m n : SeqRun) (k : TaskSt) : ∀ r, r ≠ Seq.c → (((modes m n n n k).core 0).seq r).mode = n :=
  fun q h => by cases q <;> first | exact absurd rfl h | rfl

/-- Stream C of a calendar region at a meeting to which no other stream comes. -/
def alone : State := on { core0 with c := { run0 with mode := .meeting false, last := 1000, tvec := 0x4000 }, sys := {} }

theorem witness_StreamsStopAndMeet (h : Obligations.StreamsStopAndMeet) :
    (∃ u, exec .halt (modes .run .run .halted .ended) = .next u) ∧ (∃ u, exec .tend (modes .run .halted .halted .ended) = .next u) ∧
    (∃ u, exec .modeSb (modes .run .run .run .run) = .next u) ∧
    (∃ u, exec .modeCal (modes .run (.meeting false) (.meeting false) (.meeting false) { armed := some book0 }) = .next u) ∧
    (∃ u, exec (.modeDrainDone 0) { modes (.meeting true) (.meeting true) (.meeting true) (.meeting true) { meetAt := some 1000, copies := [node0 [] none] } with stc := 1000 } = .next u) ∧
    (∃ u, exec (.modeDrainDone 0) (modes (.meeting true) (.meeting true) (.meeting true) (.meeting true) { meetAt := some 1000 }) = .next u) ∧
    (∃ u, exec (.modeDrainDone 0) { modes (.meeting false) (.meeting false) (.meeting false) (.meeting false)
      { meetAt := some 1000, armed := some book0, task := some 9 } with windows := [window0] } = .next u) ∧ (∃ u, exec (.modeDrainDone 0) alone = .next u) ∧
    (∃ u, exec (.calendarT0Resume 0) (modes .run .run .run .run { armed := some book0 }) = .next u) ∧
    (∃ u, exec (.calendarT0Resume 0) (modes .run .run .run .run { rebook := some 5 }) = .next u) := by
  refine ⟨nextOf ((h.1 (modes .run .run .halted .ended) _ (begins _ _ rfl) (fun r _ => by cases r <;> rfl)).1 ⟨.l, by decide, rfl⟩).1,
    nextOf ((h.1 (modes .run .halted .halted .ended) _ (begins _ _ rfl) (fun r _ => by cases r <;> rfl)).2
      (fun r hr => by cases r <;> first | exact absurd rfl hr | rfl)),
    nextOf ((h.2.1 .modeSb true (modes .run .run .run .run) _ (.inr ⟨rfl, rfl⟩) (begins _ _ rfl) rfl rfl (fun r => by cases r <;> rfl)).1
      ⟨.l, by decide, rfl⟩),
    nextOf ((h.2.1 .modeCal false (modes .run (.meeting false) (.meeting false) (.meeting false) { armed := some book0 }) _ (.inl ⟨rfl, rfl⟩)
      (begins _ _ rfl) rfl rfl (fun r => by cases r <;> rfl)).2 (fun r hr => by cases r <;> first | exact absurd rfl hr | rfl) rfl
      (fun _ => by intro e; cases e) nofun),
    ⟨_, (h.2.2.1 { modes (.meeting true) (.meeting true) (.meeting true) (.meeting true) { meetAt := some 1000, copies := [node0 [] none] } with stc := 1000 }
      0 1000 rfl rfl).1 rfl⟩,
    nextOf ((h.2.2.1 (modes (.meeting true) (.meeting true) (.meeting true) (.meeting true) { meetAt := some 1000 }) 0 1000 rfl rfl).2.1 rfl
      (allMode _ _)),
    nextOf ((h.2.2.1 { modes (.meeting false) (.meeting false) (.meeting false) (.meeting false)
      { meetAt := some 1000, armed := some book0, task := some 9 } with windows := [window0] } 0 1000 rfl rfl).2.2 book0 9 window0 rfl
      (fun q => by cases q <;> rfl) rfl rfl (List.mem_singleton.mpr rfl) rfl rfl rfl (by decide)),
    nextOf (h.2.2.2.1 alone 0 .c rfl rfl rfl rfl rfl),
    nextOf ((h.2.2.2.2 (modes .run .run .run .run { armed := some book0 }) 0).1 book0 rfl rfl),
    nextOf ((h.2.2.2.2 (modes .run .run .run .run { rebook := some 5 }) 0).2 5 rfl)⟩

/-- The task with a template of the given length at scratchpad address 256, with bit b of its LEN set. -/
def templ (b : Nat) (k : TaskSt := {}) : State :=
  on { core0 with c := regs0, tsk := { k with task := some 9 },
                  spm := { mem := [(260 + b / 8, BitVec.ofNat 8 (2 ^ (b % 8)))], live := [(4, true)] } }

theorem witness_BookingWords (h : Obligations.BookingWords) :
    (∃ u, exec (.book 1 2) (templ 12) = .next u) ∧ (∃ u, exec (.book 1 2) (templ 22) = .next u) ∧ (∃ u, exec (.bookq 1 2) (templ 12) = .next u) ∧
    (∃ u, exec (.start 7) (templ 12 { pending := some book0 }) = .next u) ∧ (∃ u, exec (.start 7) (templ 12) = .next u) ∧
    (∃ u, exec (.start 8) (templ 12 { pending := some book0 }) = .next u) ∧
    (∃ u, exec .cut (templ 12) = .next u) ∧ (∃ u, exec .cut (templ 12 { preempt := some 3, cutAt := 1000, cuts := [.l, .x, .s] }) = .next u) :=
  ⟨nextOf2 ((h.1 (templ 12) _ 1 2 { len := 4096 } 9 (by decide) rfl (begins _ _ rfl) (fun _ => rfl) ⟨rfl, rfl⟩ rfl rfl).1 1064 (by decide)),
    nextOf ((h.1 (templ 22) _ 1 2 { len := 2 ^ 22 } 9 (by decide) rfl (begins _ _ rfl) (fun _ => rfl) ⟨rfl, rfl⟩ rfl rfl).2 (by decide)),
    nextOf (h.2.1 (templ 12) (started (templ 12) { audit := true }) 1 2 { len := 4096 } 9 (by decide) rfl (begins _ _ rfl) (fun _ => rfl) ⟨rfl, rfl⟩ rfl rfl),
    nextOf ((h.2.2.1 (templ 12 { pending := some book0 }) _ 7 rfl (begins _ _ rfl) (fun _ => rfl) ⟨rfl, rfl⟩).1 book0 rfl rfl),
    ⟨_, (h.2.2.1 (templ 12) _ 7 rfl (begins _ _ rfl) (fun _ => rfl) ⟨rfl, rfl⟩).2 (.inl rfl)⟩,
    ⟨_, (h.2.2.1 (templ 12 { pending := some book0 }) _ 8 rfl (begins _ _ rfl) (fun _ => rfl) ⟨rfl, rfl⟩).2 (.inr ⟨book0, rfl, by decide⟩)⟩,
    nextOf ((h.2.2.2 (templ 12) _ (begins _ _ rfl)).1 rfl),
    nextOf ((h.2.2.2 (templ 12 { preempt := some 3, cutAt := 1000, cuts := [.l, .x, .s] }) _ (begins _ _ rfl)).2 (by decide) rfl rfl)⟩

/-- A launch of work identifiers of one bit, whose team is the whole launch. -/
def launch0 : Launch :=
  { ctx := 0, lserial := 0, va := 0x1000, prio := 0, nfld := 1, teamlvl := 0, tnshift := 0, diemask := 1, dist := false, width := [1, 0, 0, 0, 0, 0],
    ext := [2, 0, 0, 0, 0, 0], image := 0x2000, param := 0, paramlen := 0, teammax := 2, qid := 0, compl := 0x3000, held := 0, total := 100, order := 3 }
/-- Core 0 runs the task of record r. -/
def tasked (r : TaskRec) (l : Launch := launch0) (k : TaskSt := {}) (more : List TaskRec := []) : State :=
  { mem .c { k with task := some 9 } with recs := r :: more, launches := [l], ctxs := [(0, { ptroot := 0x10000, diemask := 1 })] }

theorem witness_SpawnAndWeight (h : Obligations.SpawnAndWeight) :
    (∃ u, exec (.spawn 1 7 0 7 1) (tasked { rec0 with weight := 2, tiles := [] }) = .next u) ∧ (∃ u, exec (.wborrow 1) (tasked { rec0 with weight := 2 ^ 16 }) = .next u) ∧
    (∃ u, exec (.wborrow 1) (tasked { rec0 with weight := 65535 }) = .next u) ∧
    (∃ u, exec (.weightBorrowAck 9) (tasked rec0 { launch0 with total := 2 ^ 95 - 2 ^ 32 }) = .next u) ∧
    (∃ u, exec (.weightReturn 9) (tasked { rec0 with st := .ended, weight := 2 }) = .next u) ∧
    (∃ u, exec (.weightReturn 9) (tasked { rec0 with st := .ended, weight := 100 }) = .next u) :=
  ⟨nextOf2 (h.1 (tasked { rec0 with weight := 2, tiles := [] }) _ 1 7 0 7 1 { rec0 with weight := 2, tiles := [] } launch0 (by decide) (begins _ _ rfl)
      (fun _ => rfl) ⟨⟨rfl, rfl⟩, fun _ => rfl⟩ rfl rfl rfl (by decide) rfl (by decide) rfl ⟨by decide, by decide⟩),
    nextOf ((h.2.1 (tasked { rec0 with weight := 2 ^ 16 }) _ 1 { rec0 with weight := 2 ^ 16 } (by decide) rfl (begins _ _ rfl) (fun _ => rfl) ⟨rfl, rfl⟩
      rfl).1 (by decide)),
    nextOf ((h.2.1 (tasked { rec0 with weight := 65535 }) _ 1 { rec0 with weight := 65535 } (by decide) rfl (begins _ _ rfl) (fun _ => rfl) ⟨rfl, rfl⟩
      rfl).2 (by decide) rfl rfl),
    nextOf ((h.2.2 (tasked rec0 { launch0 with total := 2 ^ 95 - 2 ^ 32 }) rec0 { launch0 with total := 2 ^ 95 - 2 ^ 32 } rfl rfl).1 (by decide)),
    nextOf (((h.2.2 (tasked { rec0 with st := .ended, weight := 2 }) { rec0 with st := .ended, weight := 2 } launch0 rfl rfl).2 rfl rfl rfl rfl
      (fun x hx => by cases hx; rfl)).1 (by decide)),
    nextOf (((h.2.2 (tasked { rec0 with st := .ended, weight := 100 }) { rec0 with st := .ended, weight := 100 } launch0 rfl rfl).2 rfl rfl rfl rfl
      (fun x hx => by cases hx; rfl)).2 rfl (by decide))⟩

/-- Memory that maps the first 32 MiB of context 0 to 0x2000000, with a launch record of one task at 0x1000 and its image at 0x2000. -/
def recBits : Nat :=
  0x484C4556 + 2 ^ 38 + 2 ^ 41 + 2 ^ 50 + 2 ^ 64 + 2 ^ 128 + 0x2000 * 2 ^ 320 + 2 ^ 480 + 2 ^ 496 + 0x3000 * 2 ^ 576
def imageBits : Nat := 0x314C4556 + 2 ^ 32 + 64 * 2 ^ 256 + 80 * 2 ^ 288 + 88 * 2 ^ 320 + 96 * 2 ^ 352 + 2 ^ 556 + 2 ^ 584
def memory0 : List Host.Cell :=
  ([(0x10000, 8, 0x20001), (0x20000, 8, 0x30001), (0x30000, 8, 0x2000007), (0x2001000, 96, recBits), (0x2002000, 96, imageBits)] :
    List (Nat × Nat × Nat)).foldl (fun m p => Memory.write m p.1 p.2.1 p.2.2) []
def ctx0 : Context := { ptroot := 0x10000, diemask := 1 }
def accepted0 : Launch := readLaunch 0 0 0x1000 recBits
/-- A task of context 0 whose register 2 names the record; and the host's LAUNCH. -/
def launching : State :=
  { on { core0 with c := { run0 with regs := [(2, 0x1000)] } } with dram := memory0, ctxs := [(0, ctx0)] }
def hosting : State := { launching with inp := { addr := 0x1000 }, host := { credit := 1 } }

def isSound (r : Option (Except Nat (List Byte))) : Bool :=
  match r with
  | some (.ok bs) => decide (bs = leBytes 96 recBits)
  | _ => false
theorem isSound_eq {r : Option (Except Nat (List Byte))} (h : isSound r = true) : r = some (.ok (leBytes 96 recBits)) := by
  match r with
  | some (.ok bs) => rw [of_decide_eq_true h]
  | some (.error _) => cases h
  | none => cases h

theorem accepts (s : State) (hv : isSound (s.vgetSound (s.ctxRoot 0) (pieces 96) 0x1000 96) = true) (hl : leVal (leBytes 96 recBits) = recBits)
    (hb : s.launchBad ctx0 accepted0 recBits = none) (hi : s.vbad (s.ctxRoot 0) (pieces 64) accepted0.image 64 = none) (ht : s.tileCount accepted0 (s.taskHdr accepted0) = 0) (hr : s.recs = [])
    (hp : s.poolFree (s.initialDie accepted0 0) = poolSize) : Rules.Accepted s 0 0x1000 ctx0 accepted0 :=
  ⟨rfl, rfl, rfl, rfl, ⟨_, isSound_eq hv, (congrArg (readLaunch 0 0 0x1000) hl).symm, by rw [hl]; decide, by rw [hl]; decide, by rw [hl]; exact hb, hi⟩, by decide, ht,
    by rw [hp]; decide, fun x hx => by rw [hr] at hx; cases hx⟩

theorem witness_LaunchesAreAccepted (h : Obligations.LaunchesAreAccepted) :
    (∃ u, exec (.launch 1 2) launching = .next u) ∧ (∃ u, exec .hcmdLaunch hosting = .next u) :=
  ⟨nextOf (h.1 launching _ 1 2 ctx0 accepted0 (by decide) (begins _ _ rfl) (fun _ => rfl) ⟨⟨rfl, rfl⟩, fun _ => rfl⟩ rfl (by decide +kernel)
      (accepts _ (by decide +kernel) (by decide +kernel) (by decide +kernel) (by decide +kernel) (by decide +kernel) rfl (by decide +kernel))),
    nextOf (h.2 hosting ctx0 accepted0 rfl (by decide) (by decide) rfl rfl (by decide +kernel)
      (accepts _ (by decide +kernel) (by decide +kernel) (by decide +kernel) (by decide +kernel) (by decide +kernel) rfl (by decide +kernel)))⟩

/-- The task of core 0, asking for version 77 in a directory entry of this state, and a barrier of its group. -/
def tiled (e : DirEnt) : State := { mem .c with dir := [e] }
def bar0 (n : Nat) : Barrier := { launch := 3, level := 0, group := 0, arrivals := [(9, n)] }
/-- A second task of the group. -/
def rec1 : TaskRec := { rec0 with id := 10, wid := 1 }
def barred (l : Launch) (k : TaskSt := {}) (more : List TaskRec := []) (bs : List Barrier := []) : State :=
  { tasked rec0 l k more with barriers := bs }

theorem witness_TilesAndBarriers (h : Obligations.TilesAndBarriers) :
    (∃ u, exec (.tlquery 1 9) (tiled { name := 77 }) = .next u) ∧ (∃ u, exec (.tlwait 1 9) (tiled { name := 77, st := .full }) = .next u) ∧
    (∃ u, exec (.tlwait 1 9) (tiled { name := 77, st := .lost }) = .next u) ∧ (∃ u, exec (.tlfill 9) (tiled { name := 77, st := .full }) = .next u) ∧
    (∃ u, exec (.tlfill 9) (tiled { name := 77 }) = .next u) ∧ (∃ u, exec (.bar 0 ⟨0, 3⟩) (barred { launch0 with teamlvl := 1 }) = .next u) ∧
    (∃ u, exec (.bar 0 ⟨0, 3⟩) (barred launch0) = .next u) ∧ (∃ u, exec (.bar 0 ⟨0, 3⟩) (barred launch0 {} [rec1]) = .next u) ∧
    (∃ u, exec (.bar 0 ⟨0, 3⟩) (barred launch0 { barWait := [(.l, 0, 1)] }) = .next u) ∧
    (∃ u, exec (.bar 0 ⟨0, 3⟩) (barred launch0 { barWait := [(.c, 0, 1)] } [rec1] [{ bar0 1 with departed := 1 }]) = .next u) ∧
    (∃ u, exec (.bar 0 ⟨0, 3⟩) { barred launch0 with recs := [{ rec0 with kind := .recovery }] } = .next u) ∧
    (∃ u, exec (.barrierDeparture 3 0 0) (barred launch0 {} [] [bar0 1]) = .next u) ∧
    (∃ u, exec (.barrierDeparture 3 0 0) (barred launch0 {} [rec1] [bar0 1]) = .next u) :=
  ⟨nextOf (h.1.1 (tiled { name := 77 }) (started (tiled { name := 77 }) { audit := true }) 1 9 (by decide) rfl (begins _ _ rfl) (fun _ => rfl) ⟨rfl, rfl⟩),
    nextOf ((h.1.2.1 (tiled { name := 77, st := .full }) _ 1 9 (by decide) rfl (begins _ _ rfl) (fun _ => rfl) ⟨rfl, rfl⟩).1 (by decide) (by decide)),
    nextOf ((h.1.2.1 (tiled { name := 77, st := .lost }) _ 1 9 (by decide) rfl (begins _ _ rfl) (fun _ => rfl) ⟨rfl, rfl⟩).2 (by decide) nofun),
    nextOf3 ((h.1.2.2 (tiled { name := 77, st := .full }) _ 9 (begins _ _ rfl) (fun _ => rfl) ⟨rfl, rfl⟩).1 { name := 77, st := .full } rfl rfl (by decide)
      nofun nofun),
    nextOf ((h.1.2.2 (tiled { name := 77 }) _ 9 (begins _ _ rfl) (fun _ => rfl) ⟨rfl, rfl⟩).2 (by decide)),
    ⟨_, (h.2.1 (barred { launch0 with teamlvl := 1 }) _ 0 ⟨0, 3⟩ rec0 { launch0 with teamlvl := 1 } rfl (begins _ _ rfl) ⟨rfl, rfl⟩ rfl rfl).1 (by decide)⟩,
    nextOf (((h.2.1 (barred launch0) _ 0 ⟨0, 3⟩ rec0 launch0 rfl (begins _ _ rfl) ⟨rfl, rfl⟩ rfl rfl).2.2.2.1 (by decide) rfl (fun _ => rfl)
      (fun _ hx => nomatch (show _ ∈ ([] : List (Seq × Nat × Nat)) from hx)) rfl (by decide)).1 (by decide)),
    nextOf (((h.2.1 (barred launch0 {} [rec1]) _ 0 ⟨0, 3⟩ rec0 launch0 rfl (begins _ _ rfl) ⟨rfl, rfl⟩ rfl rfl).2.2.2.1 (by decide) rfl (fun _ => rfl)
      (fun _ hx => nomatch (show _ ∈ ([] : List (Seq × Nat × Nat)) from hx)) rfl (by decide)).2 (by decide) (fun x hx => by rw [List.mem_singleton.mp (show x ∈ [(0, ({ ptroot := 0x10000, diemask := 1 } : Context))] from hx)])),
    ⟨_, (h.2.1 (barred launch0 { barWait := [(.l, 0, 1)] }) _ 0 ⟨0, 3⟩ rec0 launch0 rfl (begins _ _ rfl) ⟨rfl, rfl⟩ rfl rfl).2.2.1 (by decide) rfl
      (fun _ => rfl) (fun x hx => by rw [List.mem_singleton.mp (show x ∈ [(Seq.l, 0, 1)] from hx)]; decide) ⟨(.l, 0, 1), List.mem_singleton.mpr rfl, rfl, by decide⟩⟩,
    nextOf ((h.2.1 (barred launch0 { barWait := [(.c, 0, 1)] } [rec1] [{ bar0 1 with departed := 1 }]) _ 0 ⟨0, 3⟩ rec0 launch0 rfl (begins _ _ rfl)
      ⟨rfl, rfl⟩ rfl rfl).2.2.2.2 1 (by decide) rfl rfl (by decide)),
    nextOf ((h.2.1 { barred launch0 with recs := [{ rec0 with kind := .recovery }] } _ 0 ⟨0, 3⟩ { rec0 with kind := .recovery } launch0 rfl (begins _ _ rfl)
      ⟨rfl, rfl⟩ rfl rfl).2.1 (by decide) rfl (fun _ => rfl)),
    nextOf ((h.2.2 (barred launch0 {} [] [bar0 1]) 3 0 0 (bar0 1) rfl (by decide)).1 rfl),
    ⟨_, (h.2.2 (barred launch0 {} [rec1] [bar0 1]) 3 0 0 (bar0 1) rfl (by decide)).2 rfl⟩⟩

/-- The task of core 0 with its window, in a region, its streams in a mode. -/
def living (st : RecSt) (m : SeqRun) (region : Bool) (k : TaskSt := {}) : State :=
  { on { core0 with c := { run0 with mode := m }, l := { run0 with mode := m }, x := { run0 with mode := m }, s := { run0 with mode := m },
                    sys := { region := region, t0 := 600 }, tsk := { k with task := some 9 } } with
    recs := [{ rec0 with st := st, tiles := [] }], launches := [{ launch0 with pquads := [15] }],
    ctxs := [(0, { ctx0 with saveslots := 1 })], windows := [{ window0 with use := 0, armed := false, t0 := 600, tmpl := { len := 4096 } }] }
def living0 (st : RecSt) : TaskRec := { rec0 with st := st, tiles := [] }

theorem nothing (s : State) (n : Nat) (h : ∀ x ∈ s.recs, s.heldOver x = false) : Rules.NothingBegun s n :=
  fun x hx _ ho => Bool.noConfusion ((h x hx).symm.trans ho)
theorem own (s : State) (h : s.recs = [living0 .run]) (ho : s.heldOver (living0 .run) = false) : ∀ x ∈ s.recs, s.heldOver x = false := fun x hx => by
  rw [h] at hx; rw [List.mem_singleton.mp hx]; exact ho

theorem witness_TasksStartAndEnd (h : Obligations.TasksStartAndEnd) :
    (∃ u, exec (.prologueStart 9) (living .booked .halted true) = .next u) ∧ (∃ u, exec (.coreSpanStart 9) (living .loading .halted true) = .next u) ∧
    (∃ u, exec (.taskRunStart 9) (living .loading .halted true) = .next u) ∧ (∃ u, exec (.windowEnd 0) (living .run .run true) = .next u) ∧
    (∃ u, exec (.windowEnd 0) (living .run .run false) = .next u) ∧ (∃ u, exec (.taskEnd 0) (living .run .ended true) = .next u) ∧
    (∃ u, exec (.taskEnd 0) (living .run .ended true { copies := [node0 [] none] }) = .next u) :=
  ⟨nextOf ((h.1 (living .booked .halted true) (living0 .booked) { launch0 with pquads := [15] } rfl rfl).1 rfl rfl (.inl rfl)),
    nextOf ((h.1 (living .loading .halted true) (living0 .loading) { launch0 with pquads := [15] } rfl rfl).2.1 { ctx0 with saveslots := 1 } rfl rfl rfl
      (by decide +kernel)),
    nextOf ((h.1 (living .loading .halted true) (living0 .loading) { launch0 with pquads := [15] } rfl rfl).2.2 rfl),
    nextOf ((h.2.1 (living .run .run true) 0 (living0 .run) rfl rfl rfl rfl).1 _ _ rfl rfl (nothing _ _ (own _ rfl rfl)) rfl (by decide)),
    nextOf ((h.2.1 (living .run .run false) 0 (living0 .run) rfl rfl rfl rfl).2 rfl),
    nextOf2 ((h.2.2 (living .run .ended true) 0 (living0 .run) rfl rfl rfl rfl rfl rfl rfl rfl rfl rfl ⟨.c, rfl⟩ (fun x hx => by
      rw [List.mem_singleton.mp (show x ∈ [(0, { ctx0 with saveslots := 1 })] from hx)]; exact ⟨rfl, rfl⟩)).1 rfl),
    nextOf ((h.2.2 (living .run .ended true { copies := [node0 [] none] }) 0 (living0 .run) rfl rfl rfl rfl rfl rfl rfl rfl rfl rfl ⟨.c, rfl⟩ (fun x hx => by
      rw [List.mem_singleton.mp (show x ∈ [(0, { ctx0 with saveslots := 1 })] from hx)]; exact ⟨rfl, rfl⟩)).2 rfl rfl)⟩

/-- Core 0 runs task 9, whose window goes on for 100000 cycles and whose team holds core 0; task 10 of the same team is READY and of higher
priority. -/
def team0 : Team := { launch := 3, index := 0, cores := [0], admitted := true, since := 10 }
def lives (k : TaskSt := {}) (more : List TaskRec := []) : State :=
  { living .run .run true k with
    recs := living0 .run :: more, teams := [team0], dies := [(0, { slots := [(0, 0, 0)] })],
    windows := [{ window0 with use := 0, armed := false, t0 := 600, tmpl := { len := 100000 } }] }
def high : TaskRec := { living0 .ready with id := 10, wid := 1, prio := 1 }
/-- A saved residue of task 9. -/
def res0 : Residue := { tmpl := { len := 99600 }, stop := 400, core := (lives { task := some 9 }).core 0, slot := 0 }
def stopped9 : TaskRec := { living0 .stopped with residue := some res0 }
/-- What the saver wrote of it stands in its slot. -/
def saved9 : State := { lives with recs := [stopped9], saveAreas := [{ base := 0, key := 0 }] }

theorem witness_TasksArePreempted (h : Obligations.TasksArePreempted) :
    (∃ u, exec (.preemptRequest 10) (lives {} [high]) = .next u) ∧ (∃ u, exec (.preemptCutStop 0) (lives { preempt := some 10 }) = .next u) ∧
    (∃ u, exec (.preemptTimeoutStop 0) (lives { preempt := some 10, meetAt := some 1000 }) = .next u) ∧
    (∃ u, exec (.preemptTimeoutStop 0) (lives { stopAt := some 1000 }) = .next u) ∧
    (∃ u, exec (.preemptTimeoutStop 0) (lives { stopAt := some 990, copies := [node0 [] none] }) = .next u) ∧
    (∃ u, exec (.stateSaveDone 9) (lives { stopAt := some 990 }) = .next u) ∧
    (∃ u, exec (.prologueStart 9) saved9 = .next u) ∧ (∃ u, exec (.restorePrologue 9) saved9 = .next u) :=
  ⟨nextOf (h.1 (lives {} [high]) high 0 rfl rfl (by decide +kernel) (fun x t hx _ ht => by cases hx; cases ht; decide +kernel)),
    nextOf ((h.2.1 (lives { preempt := some 10 }) 0 (by intro e; cases e) (by intro e; cases e) rfl rfl _ (.inl rfl)).1 rfl rfl
      (nothing _ _ (own _ rfl rfl))),
    nextOf ((h.2.1 (lives { preempt := some 10, meetAt := some 1000 }) 0 (by intro e; cases e) (by intro e; cases e) rfl rfl _ (.inr rfl)).2
      (.inl (by intro e; cases e))),
    nextOf ((h.2.2.1 (lives { stopAt := some 1000 }) 0 9 rfl (by intro e; cases e) rfl rfl rfl).1 rfl rfl
      (fun _ hx => nomatch (show _ ∈ ([] : List SpmReq) from hx))),
    nextOf ((h.2.2.1 (lives { stopAt := some 990, copies := [node0 [] none] }) 0 9 rfl (by intro e; cases e) rfl rfl rfl).2
      (.inl (by intro e; cases e))),
    nextOf2 (h.2.2.2.1 (lives { stopAt := some 990 }) (living0 .run) 0 990 _ { ctx0 with saveslots := 1 } _ rfl rfl rfl rfl rfl),
    nextOf (h.2.2.2.2.1 saved9 stopped9 res0 rfl rfl (.inl rfl)), nextOf (h.2.2.2.2.2 saved9 stopped9 res0 rfl rfl (by decide +kernel) rfl rfl rfl)⟩

theorem placed_at (h : Obligations.PlacementIsTheEarliest) (s : State) (t : Template) (t0 : Nat) (hl : 1 ≤ t.len) (he : t.entries = [])
    (hs : s.place 0 0 [] t s.stc (fun _ => false) = some t0) : s.stc + 64 ≤ t0 ∧ t0 + t.len ≤ s.stc + 4194304 := by
  have p := h.1 s 0 0 [] t s.stc (fun _ => false) hl (by rw [he]; exact fun e h => nomatch h)
  rw [hs] at p
  exact ⟨p.1.1, p.1.2.1⟩

theorem never_placed (h : Obligations.PlacementIsTheEarliest) (s : State) (t : Template) (hl : 1 ≤ t.len) (he : t.entries = [])
    (hw : s.windows = []) (hs : s.place 0 0 [] t s.stc (fun _ => false) = none) :
    ∀ t1 : Nat, ¬ (s.stc + 64 ≤ t1 ∧ t1 + t.len ≤ s.stc + 4194304 ∧ Rules.FreeFor [] ((s.usesOf 0 0 [] t).map fun u => u.shift t1)) := by
  have p := h.1 s 0 0 [] t s.stc (fun _ => false) hl (by rw [he]; exact fun e h => nomatch h)
  rw [hs, hw] at p
  exact p

/-- The same task on a die in a power state; in deep idle; on a die that is too hot. -/
def powered (p : Power) : State := { templ 12 with dies := [(0, { power := p })] }
def deeply : State := { templ 12 with mgmt := { stage := 5, deep := true } }
def tooHot : State := { templ 12 with mgmt := { stage := 5, thermal := [0] } }
def tmpl0 : Template := { len := 4096 }

/-- Both outcomes occur: a template of 4096 cycles, and one as long as the calendars reach; and each power state. -/
theorem witness_PlacementIsTheEarliest (h : Obligations.PlacementIsTheEarliest) :
    (1000 + 64 ≤ 1064 ∧ 1064 + 4096 ≤ 1000 + 4194304) ∧
    (∀ t1 : Nat, ¬ (1000 + 64 ≤ t1 ∧ t1 + 4194304 ≤ 1000 + 4194304 ∧
      Rules.FreeFor [] (((templ 12).usesOf 0 0 [] { len := 4194304 }).map fun u => u.shift t1))) ∧
    (templ 12).placeNow 0 0 [] tmpl0 (fun _ => false) = (templ 12).place 0 0 [] tmpl0 (1000 + (templ 12).exitLatency 0 tmpl0) (fun _ => false) ∧
    tooHot.placeNow 0 0 [] tmpl0 (fun _ => false) = none ∧ deeply.exitLatency 0 tmpl0 = 2100000 ∧ (powered .p3).exitLatency 0 tmpl0 = 105000 ∧
    (powered .p2).exitLatency 0 tmpl0 = 10500 ∧
    (powered .p0).exitLatency 0 tmpl0 = if (powered .p0).corePower 0 = .p1 then 64 else 0 :=
  ⟨placed_at h (templ 12) { len := 4096 } 1064 (by decide) rfl (by decide), never_placed h (templ 12) { len := 4194304 } (by decide) rfl rfl (by decide),
    (h.2 (templ 12) 0 0 [] tmpl0 (fun _ => false)).1 (by decide +kernel) (by decide +kernel),
    (h.2 tooHot 0 0 [] tmpl0 (fun _ => false)).2.1 (.inr (by decide +kernel)),
    (h.2 deeply 0 0 [] tmpl0 (fun _ => false)).2.2.1 rfl,
    ((h.2 (powered .p3) 0 0 [] tmpl0 (fun _ => false)).2.2.2 rfl).1 (by decide +kernel),
    ((h.2 (powered .p2) 0 0 [] tmpl0 (fun _ => false)).2.2.2 rfl).2.1 (by decide +kernel) (by decide +kernel),
    ((h.2 (powered .p0) 0 0 [] tmpl0 (fun _ => false)).2.2.2 rfl).2.2 (by decide +kernel) (by decide +kernel)⟩

/-- Task 10 is READY and may be booked; on a die whose cores are all held back, with the die 1 idle. -/
def readyS (r : TaskRec) : State := { lives with recs := [r], windows := [], cores := [] }
def steal (d : Nat) : State :=
  { readyS high with inp := { die := d }, stc := 20000, launches := [{ launch0 with diemask := 3 }], mgmt := { thermal := [0] } }
/-- A window to come that a release may move. -/
def late : Window := { window0 with armed := false, use := 0, t0 := 5000 }
/-- A waiting team of task 10, and one of task 9 that holds these cores. -/
def launch2 : Launch := { launch0 with nfld := 2, width := [1, 1, 0, 0, 0, 0], teammax := 1, teamlvl := 1 }
def wait0 : Team := { launch := 3, index := 1 }
def team1 : Team := { team0 with cores := List.range 24 }
def queued (held : List Team) (now : Nat) : State :=
  { lives with recs := [living0 .run, { high with wid := 2 }], teams := wait0 :: held, stc := now, launches := [launch2] }
theorem oneTeam (now : Nat) (y : Team) (hy : y ∈ (queued [team1] now).teams) (ha : y.admitted = true) : y = team1 := by
  rcases List.mem_cons.mp (show y ∈ [wait0, team1] from hy) with e | e
  · rw [e] at ha; cases ha
  · exact List.mem_singleton.mp e
theorem noSwap {now : Nat} : ∀ y ∈ (queued [team1] now).teams, y.swapping = false := by
  intro y hy
  rcases List.mem_cons.mp (show y ∈ [wait0, team1] from hy) with e | e
  · rw [e]; rfl
  · rw [List.mem_singleton.mp e]; rfl
/-- A die whose pool is full. -/
def poolFull : State := { steal 1 with recs := List.replicate 4096 { living0 .run with die := 1 } }
theorem oneCore (p : Nat × Core → Prop) (s : State) (h : s.cores = lives.cores) (hp : p (0, lives.core 0)) : ∀ c ∈ s.cores, p c := by
  intro c hc
  rw [h] at hc
  rw [List.mem_singleton.mp (show c ∈ [(0, lives.core 0)] from hc)]
  exact hp

theorem witness_Dispatchers (h : Obligations.Dispatchers) :
    (∃ u, exec (.bookingPlacement 10) (readyS high) = .next u) ∧ (∃ u, exec .bookingRelease lives = .next u) ∧
    (∃ u, exec .bookingRelease { lives with windows := [late] } = .next u) ∧ (∃ u, exec (.priorityAging 10) (readyS high) = .next u) ∧
    (∃ u, exec (.priorityAging 9) lives = .next u) ∧ (∃ u, exec .queueRotation State.reset = .next u) ∧
    (∃ u, exec .dieWorkSteal (steal 0) = .next u) ∧ (∃ u, exec .dieWorkSteal { steal 1 with stc := 1000 } = .next u) ∧
    (∃ u, exec .dieWorkSteal (steal 1) = .next u) ∧ (∃ u, exec .dieWorkSteal poolFull = .next u) ∧
    (∃ u, exec .teamAdmission (queued [] 1000) = .next u) ∧ (∃ u, exec .teamSwap (queued [team1] 1000) = .next u) ∧
    (∃ u, exec .teamAdmission (queued [team1] 1000) = .next u) ∧
    (∃ u, exec .teamSwap (queued [team1] 1050010) = .next u) :=
  ⟨nextOf2 (h.1 (readyS high) high { launch0 with pquads := [15] } 1576 0 rfl (by decide +kernel) rfl rfl (by decide +kernel) (by decide +kernel)),
    nextOf ((h.2.1 lives (oneCore _ _ rfl ⟨rfl, rfl⟩)).1 (fun w hw => by
      rw [List.mem_singleton.mp (show w ∈ [_] from hw)]; exact .inr (by decide))),
    nextOf ((h.2.1 { lives with windows := [late] } (oneCore _ _ rfl ⟨rfl, rfl⟩)).2 late 1064 rfl rfl rfl (by decide) (by decide) (by decide +kernel)
      (by decide)),
    nextOf ((h.2.2.1 (readyS high) high rfl).1 rfl), ⟨_, (h.2.2.1 lives (living0 .run) rfl).2 (by decide)⟩, nextOf (h.2.2.2.1 State.reset),
    ⟨_, (h.2.2.2.2.1 (steal 0) 0 rfl (by decide)).1 (by decide +kernel)⟩,
    ⟨_, (h.2.2.2.2.1 { steal 1 with stc := 1000 } 1 rfl (by decide)).2.1 (by decide +kernel) rfl (by decide) (by decide +kernel)⟩,
    nextOf ((h.2.2.2.2.1 (steal 1) 1 rfl (by decide)).2.2.1 high { launch0 with diemask := 3 } rfl rfl (by decide) rfl rfl (by decide) rfl (by decide)
      (by decide) (by decide +kernel) (by decide +kernel) (fun x hx _ => by
        rw [List.mem_singleton.mp (show x ∈ [high] from hx)]; exact ⟨rfl, fun e => absurd rfl e⟩) (fun x hx => by
        rw [List.mem_singleton.mp (show x ∈ [(0, { ctx0 with saveslots := 1 })] from hx)]; rfl)),
    ⟨_, (h.2.2.2.2.1 poolFull 1 rfl (by decide)).2.2.2 (by decide +kernel) rfl (by decide) (by decide +kernel)⟩,
    nextOf2 ((h.2.2.2.2.2 (queued [] 1000) wait0 launch2 (by decide +kernel) rfl (by decide +kernel)).1 (by decide +kernel)),
    nextOf (((h.2.2.2.2.2 (queued [team1] 1000) wait0 launch2 (by decide +kernel) rfl (by decide +kernel)).2 (by decide +kernel) noSwap).1 team1 _
      ⟨by decide +kernel, rfl, by decide +kernel⟩ (by decide +kernel) (fun y hy => oneTeam 1000 y hy.1 hy.2.1 ▸ Nat.le_refl _) (.inr rfl)),
    nextOf (((h.2.2.2.2.2 (queued [team1] 1000) wait0 launch2 (by decide +kernel) rfl (by decide +kernel)).2 (by decide +kernel) noSwap).1 team1 _
      ⟨by decide +kernel, rfl, by decide +kernel⟩ (by decide +kernel) (fun y hy => oneTeam 1000 y hy.1 hy.2.1 ▸ Nat.le_refl _) (.inl rfl)),
    nextOf2 (((h.2.2.2.2.2 (queued [team1] 1050010) wait0 launch2 (by decide +kernel) rfl (by decide +kernel)).2 (by decide +kernel) noSwap).2 team1 (living0 .run)
      ⟨by decide +kernel, rfl, by decide +kernel⟩ (by decide +kernel) (fun y hy _ hne => absurd (oneTeam 1050010 y hy.1 hy.2.1) hne)
      (List.mem_cons_self ..) ⟨rfl, team1, rfl, rfl, rfl⟩ rfl (by
        rintro y hy ⟨_, z, hz, hl, hi⟩
        rcases List.mem_cons.mp (show y ∈ [living0 .run, { high with wid := 2 }] from hy) with e | e
        · exact e
        · rw [List.mem_singleton.mp e] at hz
          cases hz
          exact absurd hi (by decide)))⟩

/-- Version 77 with this entry, the task of core 0 naming it, a lineage record of it on its home die, and held publishes. -/
def version (e : DirEnt) (held : List HeldPub := []) (l : List Lineage := []) : State :=
  { mem .c with dir := [e], recs := [{ rec0 with outs := [77] }], launches := [launch0], heldPubs := held, dies := [(5, { shard := { lineage := l } })] }
def held0 (k : RunKind) (sh : List Shadow) : HeldPub := { name := 77, kind := k, shadows := sh, base := 0, task := 9 }
/-- The runs of a redundant pair, their held publishes, and the subject of their comparison. -/
def pair9 (e : DirEnt) (sh : List Shadow) (flag : Bool) : State :=
  { mem .c with dir := [e], recs := [{ rec0 with id := 11, kind := .redA }, { rec0 with id := 12, kind := .redB }], launches := [launch0],
                heldPubs := [held0 .redA [], held0 .redB sh], inp := { id := 77, flag := flag } }
def pressure (l : List Lineage) : State := { version { name := 77, st := .full } with dies := [(0, { shard := { lineage := l } })] }

theorem pressed_of (x : Shard) (h : ∀ c, c = shardCap → 9 * c < 10 * x.bytes) : x.pressed = true := decide_eq_true (h _ rfl)

theorem pressed : ((pressure [bigLin shardCap]).die 0).shard.pressed = true :=
  pressed_of { lineage := [bigLin shardCap] } fun c hc => by rw [bigLin_bytes, ← hc]; omega

def replicating (i : Input) : State := { version { name := 77, st := .full, rpend := true } with inp := i }
def filling (i : Input) : State := { mem .c with dies := [(0, { lost := true }), (4, { fill := some 1 })], inp := i }

/-- A version that a verification run has disproved, as its content is replaced; its task has not started. -/
def disproved (flag : Bool) : State :=
  { version { name := 77, st := .revoked, suspect := true, rpend := true } [held0 .verification [shadow0]] with
    recs := [{ rec0 with st := .ready, outs := [77] }], inp := { flag := flag } }

theorem witness_DirectoryEvents (h : Obligations.DirectoryEvents) :
    (∃ u, exec (.replicaComplete 77) (replicating {}) = .next u) ∧ (∃ u, exec (.replicaComplete 77) (replicating { mark := true }) = .next u) ∧
    (∃ u, exec (.replicaComplete 77) { version { name := 77, st := .revoked, rpend := true } with inp := { mark := true } } = .next u) ∧
    (∃ u, exec (.darnerWalk 77) (version { name := 77, st := .lost, copies := [(0, [])] }) = .next u) ∧
    (∃ u, exec (.darnerWalk 77) { version { name := 77, st := .lost, linack := true, mirack := true } [] [lin0] with recs := [] } = .next u) ∧
    (∃ u, exec (.darnerWalk 77) { version { name := 77, st := .lost } [] [lin0] with recs := [] } = .next u) ∧
    (∃ u, exec (.verificationCompare 77) (version { name := 77, st := .full, suspect := true } [held0 .verification []]) = .next u) ∧
    (∃ u, exec (.verificationCompare 77) (version { name := 77, st := .full, suspect := true } [held0 .verification [shadow0]]) = .next u) ∧
    (∃ u, exec (.verificationCompare 77) (disproved true) = .next u) ∧
    (∃ u, exec (.spareFill 0) { mem .c with dies := [(0, { lost := true })] } = .next u) ∧
    (∃ u, exec (.spareFillComplete 0) (filling {}) = .next u) ∧ (∃ u, exec (.spareFillComplete 0) (filling { flag := true }) = .next u) ∧
    (∃ u, exec .shardPressureReplication (pressure []) = .next u) ∧ (∃ u, exec .shardPressureReplication (pressure [bigLin shardCap]) = .next u) ∧
    (∃ u, exec .redundantRunCompare (pair9 { name := 77 } [] false) = .next u) ∧
    (∃ u, exec .redundantRunCompare (pair9 { name := 77 } [shadow0] false) = .next u) ∧
    (∃ u, exec .redundantRunCompare { pair9 { name := 77 } [] true with recs := [{ rec0 with id := 11, kind := .redA, outs := [77] },
      { rec0 with id := 12, kind := .redB }] } = .next u) :=
  ⟨⟨_, h.1 (replicating {}) 77 _ rfl rfl rfl (by decide +kernel)⟩, nextOf2 (h.2.1 (replicating { mark := true }) 77 1 _ rfl rfl rfl (.inl rfl) rfl rfl rfl),
    nextOf2 (h.2.1 { version { name := 77, st := .revoked, rpend := true } with inp := { mark := true } } 77 1 _ rfl rfl rfl (.inr rfl) rfl rfl rfl),
    nextOf2 ((h.2.2.1 (version { name := 77, st := .lost, copies := [(0, [])] }) 77 { name := 77, st := .lost, copies := [(0, [])] } rfl rfl).1 [] rfl),
    nextOf2 ((h.2.2.1 { version { name := 77, st := .lost, linack := true, mirack := true } [] [lin0] with recs := [] } 77
      { name := 77, st := .lost, linack := true, mirack := true } rfl rfl).2 lin0 launch0 rfl rfl rfl (fun _ hx => nomatch hx)
      (fun y hy => by rw [List.mem_singleton.mp (show y ∈ [({ name := 77, st := .lost, linack := true, mirack := true } : DirEnt)] from hy)]; decide)
      (fun _ hx => nomatch hx)),
    nextOf2 ((h.2.2.1 { version { name := 77, st := .lost } [] [lin0] with recs := [] } 77 { name := 77, st := .lost } rfl rfl).2 lin0 launch0 rfl rfl
      rfl (fun _ hx => nomatch hx)
      (fun y hy => by rw [List.mem_singleton.mp (show y ∈ [({ name := 77, st := .lost } : DirEnt)] from hy)]; decide) (fun _ hx => nomatch hx)),
    nextOf ((h.2.2.2.1 (version { name := 77, st := .full, suspect := true } [held0 .verification []]) 77 _ (held0 .verification []) rfl rfl rfl rfl rfl).1 rfl),
    nextOf ((h.2.2.2.1 (version { name := 77, st := .full, suspect := true } [held0 .verification [shadow0]]) 77 _ (held0 .verification [shadow0]) rfl rfl rfl
      rfl rfl).2 (by decide +kernel)),
    nextOf2 (h.2.2.2.2.1 (disproved true) { name := 77, st := .revoked, suspect := true, rpend := true } (held0 .verification [shadow0]) rfl rfl rfl
      (fun r hr => by rw [List.mem_singleton.mp (show r ∈ [{ rec0 with st := .ready, outs := [77] }] from hr)]; exact ⟨nofun, nofun⟩)),
    nextOf (h.2.2.2.2.2.1 { mem .c with dies := [(0, { lost := true })] } 0 1 rfl),
    ⟨_, h.2.2.2.2.2.2.1 (filling {}) 0 rfl rfl (by decide +kernel)⟩,
    nextOf (h.2.2.2.2.2.2.2.1 (filling { flag := true }) 0 1 rfl (by decide +kernel) rfl rfl rfl),
    ⟨_, (h.2.2.2.2.2.2.2.2.1 (pressure []) 0 rfl rfl).1 rfl⟩,
    nextOf2 ((h.2.2.2.2.2.2.2.2.1 (pressure [bigLin shardCap]) 0 rfl rfl).2 { name := 77, st := .full } (bigLin shardCap) pressed rfl rfl rfl rfl
      (by decide) (List.mem_singleton.mpr rfl) rfl),
    nextOf2 (((h.2.2.2.2.2.2.2.2.2 (pair9 { name := 77 } [] false) 77 { name := 77 } _ _ rfl rfl rfl rfl).1 (held0 .redA []) (held0 .redB []) rfl rfl rfl rfl
      rfl).1 rfl (room _ _ _ rfl (by decide) (by decide))),
    nextOf2 (((h.2.2.2.2.2.2.2.2.2 (pair9 { name := 77 } [shadow0] false) 77 { name := 77 } _ _ rfl rfl rfl rfl).1 (held0 .redA []) (held0 .redB [shadow0]) rfl
      rfl rfl rfl rfl).2 launch0 (by decide +kernel) rfl rfl
      (fun y hy => by rw [List.mem_singleton.mp (show y ∈ [({ name := 77 } : DirEnt)] from hy)]; decide) (by decide +kernel)),
    nextOf2 ((h.2.2.2.2.2.2.2.2.2 { pair9 { name := 77 } [] true with recs := [{ rec0 with id := 11, kind := .redA, outs := [77] },
      { rec0 with id := 12, kind := .redB }] } 77 { name := 77 } _ _ rfl rfl rfl rfl).2 (held0 .redA []) rfl (by decide) rfl rfl)⟩

/-- A multicast write that ends a frame; a packet from die 0 to die 1; cut boundaries. -/
def casting : State := { mem .c with groups := [(5, [0x100000, 0x200000])], inp := { id := 5, addr := 65535, bytes := [7] } }
def packet0 : Packet := { id := 3, src := 0, dst := 1, cw := true, stamp := {}, payload := .icauseWrite }
def ringS0 (got : List Stamp) : State := { State.reset with packets := [packet0], inp := { id := 3 }, dies := [(1, { received := got })] }
def cutting (l : List Nat) : State := { State.reset with cut := l }

theorem witness_PackageRing (h : Obligations.PackageRing) :
    (∃ u, exec .multicastWrite casting = .next u) ∧ (∃ u, exec .multicastWrite { casting with groups := [] } = .next u) ∧
    (∃ u, exec .ringPacketArrival (ringS0 []) = .next u) ∧ (∃ u, exec .ringPacketArrival (ringS0 [{}]) = .next u) ∧
    (∃ u, exec .ringPacketResend (ringS0 []) = .next u) ∧ (∃ u, exec .ringPacketAck (ringS0 []) = .next u) ∧
    (∃ u, exec .heartbeat { State.reset with dies := [(0, { lost := true })] } = .next u) ∧
    (∃ u, exec .heartbeat { State.reset with dies := [(0, { stcOff := 1 })] } = .next u) ∧ (∃ u, exec .boundaryCut (cutting []) = .next u) ∧
    (∃ u, exec .boundaryCut (cutting [4]) = .next u) ∧ (∃ u, exec .dcpFatalFault State.reset = .next u) :=
  ⟨nextOf (h.1 casting [0x100000, 0x200000] rfl (by decide) rfl rfl (fun _ => ⟨rfl, rfl⟩) (fun _ hx => nomatch (show _ ∈ ([] : List Job) from hx))
      (fun _ => rfl) (by decide)),
    nextOf (h.2.1 { casting with groups := [] } rfl rfl rfl fun _ => ⟨rfl, rfl⟩),
    nextOf ((h.2.2.1 (ringS0 []) packet0 rfl rfl).1 rfl (by decide)), ⟨_, (h.2.2.1 (ringS0 [{}]) packet0 rfl rfl).2.1 rfl (by decide)⟩,
    nextOf2 (h.2.2.1 (ringS0 []) packet0 rfl rfl).2.2.1, nextOf (h.2.2.1 (ringS0 []) packet0 rfl rfl).2.2.2,
    ⟨_, (h.2.2.2.1 { State.reset with dies := [(0, { lost := true })] }).1 rfl⟩,
    nextOf ((h.2.2.2.1 { State.reset with dies := [(0, { stcOff := 1 })] }).2 rfl rfl (by decide) (by decide) (by decide)),
    nextOf ((h.2.2.2.2.1 (cutting []) (by decide) (by decide +kernel)).1 (by decide +kernel)),
    nextOf ((h.2.2.2.2.1 (cutting [4]) (by decide) (by decide +kernel)).2 (by decide +kernel)),
    nextOf (h.2.2.2.2.2 State.reset 0 rfl (fun _ => rfl) rfl rfl)⟩

/-- A delivery context of bridge 1 towards package 2, and the subject of its events. -/
def peer0 (target : Bool) (un : List SentPkt) (last : Nat) : Delivery :=
  { bridge := 1, peer := 2, ccw := false, target := target, next := 65535, unacked := un, last := last }
def sent0 (at_ tries : Nat) : SentPkt := { seqno := 3, at_ := at_, tries := tries }
def route0 : Input := { bridge := 1, peer := 2 }
def export0 : ExportEnt := { pkg := 2, ctx := 0, page := 7, frame := 0x100000, large := false, write := true }
def context (l : List Delivery) (i : Input) (ex : List ExportEnt := []) : State :=
  { State.reset with stc := 5000, deliveries := l, inp := i, exports := ex }
/-- An OPEN of send STC n at a target whose floor is 9. -/
def opening (n : Nat) : State := { context [] { route0 with flag := true, sent := n } with floors := [(17, 9)] }
/-- A target that serves 256 sources. -/
def crowded : State := context (List.replicate 256 { peer0 true [] 900 with peer := 3 }) { route0 with flag := true }
/-- A refusal of packet 3, which a task of core 0 sent. -/
def refusing : State :=
  { lives with deliveries := [peer0 false [{ sent0 900 0 with task := some 9 }] 900], inp := { route0 with mark := true, seqno := 3 } }

/-- A live context of which an older packet comes. -/
def newer : Delivery := { peer0 true [] 900 with opened := 5 }
/-- An atomic of another package, the next of its context. -/
def farAmo : State := context [peer0 true [] 900] { route0 with seqno := 65535, page := 7, addr := 0x10FFF8, far := .amo 2 1, val := 7 } [export0]
/-- A context whose packet 3 has gone eight times without an answer, of the task of core 0. -/
def silent : State := { lives with deliveries := [peer0 false [{ sent0 10 8 with task := some 9 }] 900], inp := route0, stc := 5000 }

theorem noFloor {l : List Delivery} {i : Input} {ex : List ExportEnt} :
    ∀ f, SMap.get? (context l i ex).floors (floorKey i) = some f → f < i.sent :=
  fun _ hf => nomatch (show (none : Option Nat) = some _ from hf)

theorem witness_DeliveryContexts (h : Obligations.DeliveryContexts) :
    (∃ u, exec .deliveryContextOpen (context [] route0) = .next u) ∧ (∃ u, exec .deliveryContextOpen (context [peer0 false [] 900] route0) = .next u) ∧
    (∃ u, exec .deliveryContextOpen (opening 9) = .next u) ∧ (∃ u, exec .deliveryContextOpen (opening 10) = .next u) ∧
    (∃ u, exec .deliveryContextOpen (context [peer0 true [] 900] { route0 with flag := true }) = .next u) ∧
    (∃ u, exec .deliveryContextOpen (context [peer0 true [] 900] { route0 with flag := true, sent := 10 }) = .next u) ∧
    (∃ u, exec .deliveryContextOpen crowded = .next u) ∧ (∃ u, exec .deliveryPacketArrival (context [] { route0 with mark := true }) = .next u) ∧
    exec .deliveryPacketArrival (opening 9) = .next (opening 9) ∧ (∃ u, exec .deliveryPacketArrival (context [newer] { route0 with sent := 4 }) = .next u) :=
  ⟨nextOf2 ((h.1 (context [] route0)).1 rfl rfl rfl (by decide)),
    nextOf ((h.1 (context [peer0 false [] 900] route0)).2.1 (peer0 false [] 900) rfl rfl rfl (by decide)),
    ⟨_, (h.1 (opening 9)).2.2.1 rfl (fun _ hx => nomatch (show (none : Option Delivery) = some _ from hx)) (.inl ⟨9, rfl, by decide⟩)⟩,
    nextOf2 ((h.1 (opening 10)).2.2.2.1 rfl (fun _ hx => nomatch (show (none : Option Delivery) = some _ from hx)) (fun f hf => by
      cases (show some 9 = some f from hf); decide) (by decide) (by decide)),
    nextOf ((h.1 (context [peer0 true [] 900] { route0 with flag := true })).2.2.2.2.1 (peer0 true [] 900) rfl rfl rfl rfl (by decide)),
    nextOf2 ((h.1 (context [peer0 true [] 900] { route0 with flag := true, sent := 10 })).2.2.2.1 rfl (fun _ hx => by
      cases (show some (peer0 true [] 900) = some _ from hx); decide) noFloor (by decide) (by decide)),
    nextOf ((h.1 crowded).2.2.2.2.2.1 rfl (by decide +kernel) rfl (by decide +kernel) rfl (by decide)),
    ⟨_, (h.1 (context [] { route0 with mark := true })).2.2.2.2.2.2 rfl rfl⟩,
    h.2.1 (opening 9) rfl (.inl ⟨9, rfl, by decide⟩), ⟨_, h.2.1 (context [newer] { route0 with sent := 4 }) rfl (.inr ⟨newer, rfl, by decide⟩)⟩⟩

theorem witness_DeliveryPackets (h : Obligations.DeliveryContexts) :
    (∃ u, exec .deliveryPacketArrival (context [peer0 true [] 900] { route0 with seqno := 65535, page := 7, addr := 0x10FFFF, bytes := [7] } [export0]) = .next u) ∧
    (∃ u, exec .deliveryPacketArrival farAmo = .next u) ∧
    (∃ u, exec .deliveryPacketArrival (context [peer0 true [] 900] { route0 with seqno := 65535 }) = .next u) ∧
    (∃ u, exec .deliveryPacketArrival (context [peer0 true [] 900] { route0 with seqno := 32766 }) = .next u) ∧
    (∃ u, exec .deliveryAck (context [peer0 false [sent0 10 0] 900] { route0 with seqno := 3 }) = .next u) ∧ (∃ u, exec .deliveryAck refusing = .next u) ∧
    (∃ u, exec .deliveryBusyRetry (context [peer0 false [] 900] route0) = .next u) ∧
    (∃ u, exec .deliveryResendTimeout (context [peer0 false [sent0 3976 7] 900] route0) = .next u) ∧
    (∃ u, exec .deliveryResendTimeout (context [peer0 false [sent0 10 8] 900] route0) = .next u) ∧ (∃ u, exec .deliveryResendTimeout silent = .next u) ∧
    (∃ u, exec .deliveryTeardown (context [peer0 true [] 904] { route0 with flag := true }) = .next u) ∧
    (∃ u, exec .deliveryTeardown (context [peer0 true [] 905] { route0 with flag := true }) = .next u) :=
  ⟨nextOf (((h.2.2.1 (context [peer0 true [] 900] { route0 with seqno := 65535, page := 7, addr := 0x10FFFF, bytes := [7] } [export0]) (peer0 true [] 900) rfl
      (by decide) noFloor rfl (by decide)).1 export0 1 rfl rfl (List.mem_singleton.mpr rfl) rfl rfl rfl rfl (by decide) (by decide) (by decide) plain).1
      rfl rfl nofun),
    nextOf (((h.2.2.1 farAmo (peer0 true [] 900) rfl (by decide) noFloor rfl (by decide)).1 export0 8 rfl rfl (List.mem_singleton.mpr rfl) rfl rfl rfl rfl
      (by decide) (by decide) (by decide) plain).2 2 1 rfl rfl (by decide) rfl),
    nextOf ((h.2.2.1 (context [peer0 true [] 900] { route0 with seqno := 65535 }) (peer0 true [] 900) rfl (by decide) noFloor rfl (by decide)).2.1 rfl rfl rfl),
    nextOf ((h.2.2.1 (context [peer0 true [] 900] { route0 with seqno := 32766 }) (peer0 true [] 900) rfl (by decide) noFloor rfl (by decide)).2.2 (by decide) (by decide) (by decide)
      (fun _ hx => nomatch (show _ ∈ ([] : List Input) from hx))),
    nextOf2 ((h.2.2.2.1 (context [peer0 false [sent0 10 0] 900] { route0 with seqno := 3 }) (peer0 false [sent0 10 0] 900) rfl).1 rfl),
    nextOf2 ((h.2.2.2.1 refusing _ rfl).2.1 9 0 { sent0 900 0 with task := some 9 } rfl rfl rfl rfl rfl rfl rfl),
    nextOf ((h.2.2.2.1 (context [peer0 false [] 900] route0) (peer0 false [] 900) rfl).2.2.1 rfl),
    nextOf ((h.2.2.2.1 (context [peer0 false [sent0 3976 7] 900] route0) (peer0 false [sent0 3976 7] 900) rfl).2.2.2.1 (by decide) (fun e he => by
      rw [List.mem_singleton.mp (show e ∈ [sent0 3976 7] from he)]; decide) (by decide)),
    nextOf ((h.2.2.2.1 (context [peer0 false [sent0 10 8] 900] route0) (peer0 false [sent0 10 8] 900) rfl).2.2.2.2.1 ⟨_, List.mem_singleton.mpr rfl, by decide⟩),
    nextOf2 ((h.2.2.2.1 silent _ rfl).2.2.2.2.2 9 0 { sent0 10 8 with task := some 9 } rfl (by decide) (by decide) rfl rfl rfl rfl),
    nextOf ((h.2.2.2.2 (context [peer0 true [] 904] { route0 with flag := true }) (peer0 true [] 904) rfl).1 rfl (by decide)),
    nextOf2 ((h.2.2.2.2 (context [peer0 true [] 905] { route0 with flag := true }) (peer0 true [] 905) rfl).2 (.inr (by decide)))⟩

/-- A link in a state, and the subject of a frame on it; link 1 is a sender's, link 9 a receiver's. -/
def linked (x : Link) (i : Input) (k : Nat := 1) : State := { State.reset with stc := 1000, links := [(k, x)], inp := { i with link := k } }

theorem witness_LinkSecurity (h : Obligations.LinkSecurity) :
    (∃ u, exec .linkFrameReceive (linked { expect := 5 } { sent := 5, flag := true, mark := true }) = .next u) ∧
    (∃ u, exec .linkFrameReceive (linked { expect := 5 } { sent := 5 } 9) = .next u) ∧
    (∃ u, exec .linkFrameReceive (linked { expect := 5, failures := 1 } { sent := 5 }) = .next u) ∧ (∃ u, exec .linkNakReceive (linked {} {}) = .next u) ∧
    (∃ u, exec .linkKeyExchange (linked {} {}) = .next u) ∧ (∃ u, exec .linkKeyExchange (linked { ctr := 2 ^ 31, keyA := true } {}) = .next u) ∧
    (∃ u, exec .linkKeyExchange (linked { expect := 2 ^ 31, keyA := true } {} 9) = .next u) ∧
    (∃ u, exec .linkKeyMarker (linked { idleReady := true } {}) = .next u) ∧ (∃ u, exec .linkFrameAck (linked {} {}) = .next u) ∧
    (∃ u, exec .rackLinkFailure (linked {} {}) = .next u) ∧ (∃ u, exec .rackLinkFailure (linked {} { mark := true, pkg := 3 }) = .next u) :=
  ⟨nextOf (((h (linked { expect := 5 } { sent := 5, flag := true, mark := true })).1 rfl).1 rfl rfl rfl),
    nextOf (((h (linked { expect := 5 } { sent := 5 } 9)).1 rfl).2.1 (.inr (.inr rfl)) rfl (by decide)),
    nextOf (((h (linked { expect := 5, failures := 1 } { sent := 5 })).1 rfl).2.2.1 rfl rfl rfl (by decide)),
    nextOf ((h (linked {} {})).1 rfl).2.2.2.1, nextOf (((h (linked {} {})).1 rfl).2.2.2.2.1 (by decide) rfl rfl),
    nextOf2 (((h (linked { ctr := 2 ^ 31, keyA := true } {})).1 rfl).2.2.2.2.2.1 (by decide) rfl rfl (by decide) rfl),
    nextOf (((h (linked { expect := 2 ^ 31, keyA := true } {} 9)).1 rfl).2.2.2.2.2.2.1 (by decide) rfl rfl (by decide) rfl),
    nextOf (((h (linked { idleReady := true } {})).1 rfl).2.2.2.2.2.2.2 rfl), nextOf (h (linked {} {})).2.1, nextOf ((h (linked {} {})).2.2.1 rfl),
    nextOf ((h (linked {} { mark := true, pkg := 3 })).2.2.2 rfl)⟩

theorem witness_RemoteTranslation (h : Obligations.RemoteTranslation) :
    (∃ u, exec .remoteTranslationReq (context [] route0) = .next u) ∧ (∃ u, exec .remoteTranslationReq (context [] { route0 with flag := true }) = .next u) ∧
    (∃ u, exec .remoteTranslationReply (context [] route0) = .next u) ∧ (∃ u, exec .exportInvalidation (context [] route0) = .next u) ∧
    (∃ u, exec .exportInvalidationAck (context [] { pkg := 3, page := 7 } [{ export0 with removing := some 0x200, fetched := [3] }]) = .next u) ∧
    (∃ u, exec .exportInvalidationAck (context [] { pkg := 3, page := 7 } [{ export0 with removing := some 0x200, fetched := [3], next := some (0, true, true) }])
      = .next u) ∧
    (∃ u, exec .pinRelease (context [] { core := some 0, page := 16 }) = .next u) ∧
    (∃ u, exec .pinRelease { context [] { page := 16 } with invals := [{ result := 0x200, ctx := 0, pages := [16] }] } = .next u) :=
  ⟨nextOf2 ((h.1 (context [] route0)).1 rfl), nextOf ((h.1 (context [] { route0 with flag := true })).2.1 rfl), nextOf (h.1 (context [] route0)).2.2.1,
    nextOf (h.1 (context [] route0)).2.2.2,
    nextOf ((h.2.1 (context [] { pkg := 3, page := 7 } [{ export0 with removing := some 0x200, fetched := [3] }]) _ 0x200 rfl rfl rfl rfl rfl
      plain).1 rfl),
    nextOf ((h.2.1 (context [] { pkg := 3, page := 7 } [{ export0 with removing := some 0x200, fetched := [3], next := some (0, true, true) }]) _ 0x200 rfl rfl
      rfl rfl rfl plain).2 _ rfl),
    nextOf ((h.2.2 (context [] { core := some 0, page := 16 })).1 0 rfl),
    nextOf ((h.2.2 { context [] { page := 16 } with invals := [{ result := 0x200, ctx := 0, pages := [16] }] }).2 _ rfl rfl rfl rfl rfl plain)⟩

/-- A migration of a small page of die 0. -/
def move (m : Migration) : State := { State.reset with stc := 5000, migrations := [m], dram := [(0x100000, 9)] }
def move0 : Migration := { die := 0, old := 0x100000, new := 0x200000, size := 65536 }
def retry0 : RetryWrite := { id := 3, pa := 0x100000, bytes := [7], stamp := {} }
def fullLog : Migration := { move0 with begun := true, log := List.replicate 4096 (0x100000, [7], {}), replayAt := 5000 }

theorem witness_PageMigration (h : Obligations.PageMigration) :
    (∃ u, exec .migrationCopyDone (move move0) = .next u) ∧ (∃ u, exec .migrationCopyDone (move { move0 with begun := true }) = .next u) ∧
    (∃ u, exec .migrationSwitch (move { move0 with copied := true }) = .next u) ∧
    (∃ u, exec .migrationSwitch (move { move0 with copied := true, tsw := some 5000 }) = .next u) ∧
    (∃ u, exec .migrationFree { move { move0 with switched := true } with cores := [(0, { tsk := { tcache := [page0], pins := [(16, 1)] }, cmds := [cmdOf .l (.lddram 1 2 2 0) false] })] }
      = .next u) ∧
    (∃ u, exec .migrationFree (move { move0 with switched := true, result := some 0x40 }) = .next u) ∧
    (∃ u, exec .migrationFree (move { move0 with switched := true, retirement := some true }) = .next u) ∧
    (∃ u, exec .migrationLogRetry { move fullLog with retries := [retry0], inp := { id := 3 } } = .next u) ∧
    (∃ u, exec .migrationLogRetry { State.reset with retries := [retry0], inp := { id := 3 } } = .next u) :=
  ⟨nextOf (h.1 (move move0) move0 rfl rfl rfl (by decide +kernel)), nextOf (h.2.1 (move { move0 with begun := true }) _ rfl rfl rfl),
    nextOf ((h.2.2.1 (move { move0 with copied := true }) { move0 with copied := true } rfl rfl rfl).1 rfl rfl),
    nextOf2 ((h.2.2.1 (move { move0 with copied := true, tsw := some 5000 }) { move0 with copied := true, tsw := some 5000 } rfl rfl rfl).2 5000 rfl (by decide)
      rfl (by decide) (fun _ => rfl) (fun _ => rfl) (.inl (by decide))),
    ⟨_, (h.2.2.2.1 { move { move0 with switched := true } with cores := [(0, { tsk := { tcache := [page0], pins := [(16, 1)] }, cmds := [cmdOf .l (.lddram 1 2 2 0) false] })] }
      { move0 with switched := true } rfl rfl rfl).1 (by decide +kernel)⟩,
    nextOf ((h.2.2.2.1 (move { move0 with switched := true, result := some 0x40 }) { move0 with switched := true, result := some 0x40 } rfl rfl rfl).2.1 0x40 rfl
      rfl rfl rfl (fun _ => ⟨rfl, rfl⟩) (fun _ hx => nomatch (show _ ∈ ([] : List (Nat × Nat × Nat)) from hx))),
    nextOf ((h.2.2.2.1 (move { move0 with switched := true, retirement := some true }) { move0 with switched := true, retirement := some true } rfl rfl rfl).2.2
      true rfl rfl rfl (by decide)),
    ⟨_, (h.2.2.2.2 { move fullLog with retries := [retry0], inp := { id := 3 } } retry0 rfl (by decide)).1 (by decide +kernel)⟩,
    nextOf ((h.2.2.2.2 { State.reset with retries := [retry0], inp := { id := 3 } } retry0 rfl (by decide)).2 plain (by decide))⟩

/-- READY, with one credit left: a command whose block at 0x4000 holds these values, and a context descriptor at 0x5000. -/
def descBits : Nat := 2 ^ (8 * 0x18 + 16) + 2 ^ (8 * 0x38) + 16 * 2 ^ (8 * 0x48) + 2 ^ (8 * 0x58)
def commanded (args : List Nat) (cs : SMap Context := []) (ex : List ExportEnt := []) : State :=
  { State.reset with
    mgmt := { stage := 5 }, host := { credit := 1 }, stc := 1000, inp := { addr := 0x4000 }, ctxs := cs, exports := ex,
    dram := Memory.write (((List.range args.length).zip args).foldl (fun m p => Memory.write m (0x4008 + 8 * p.1) 8 p.2) []) 0x5000 96 descBits }
def new0 : Context := { ptroot := 0, diemask := 1 }
theorem ready (a : List Nat) (c : SMap Context) (e : List ExportEnt) : Rules.HostReady (commanded a c e) :=
  ⟨rfl, (by decide : 1 ≤ 1), (by decide : 1 ≤ 64), rfl, rfl, rfl, rfl, rfl, fun _ => ⟨rfl, rfl⟩⟩
def isOk (e : Except (Nat × Option Nat) Context) (x : Context) : Bool :=
  match e with
  | .ok y => decide (y = x)
  | .error _ => false
theorem isOk_eq {e : Except (Nat × Option Nat) Context} {x : Context} (h : isOk e x = true) : e = .ok x := by
  cases e with
  | ok y => rw [of_decide_eq_true h]
  | error z => cases h
def isBad (e : Except (Nat × Option Nat) Context) (c : Nat) : Bool :=
  match e with
  | .ok _ => false
  | .error z => decide (z = (c, none))
theorem isBad_eq {e : Except (Nat × Option Nat) Context} {c : Nat} (h : isBad e c = true) : e = .error (c, none) := by
  cases e with
  | ok y => cases h
  | error z => rw [of_decide_eq_true h]

theorem witness_HostCommands (h : Obligations.HostCommands) :
    (∃ u, exec .hcmdCtxnew State.reset = .next u) ∧ (∃ u, exec .hcmdCtxnew (commanded [0x5000]) = .next u) ∧
    (∃ u, exec .hcmdCtxnew (commanded [0x5001]) = .next u) ∧ (∃ u, exec .hcmdCtxend (commanded [] [(0, ctx0)]) = .next u) ∧
    (∃ u, exec .hcmdCtxend (commanded []) = .next u) ∧ (∃ u, exec .hcmdInval (commanded [0x10000, 0x10000] [(0, ctx0)]) = .next u) ∧
    (∃ u, exec .hcmdExport (commanded [2, 7, 0x100000]) = .next u) ∧ (∃ u, exec .hcmdUnexport (commanded [2, 7] [] [export0]) = .next u) ∧
    (∃ u, exec .hcmdUnexport (commanded [2, 8] [] [export0]) = .next u) ∧ (∃ u, exec .hcmdMigrate (commanded [0x100000, 0x200000]) = .next u) ∧
    (∃ u, exec .hcmdMigrate (commanded [0x100000, 0x100000]) = .next u) ∧ (∃ u, exec .hcmdMcgroup (commanded [0x2FF, 0x100000, 0x200000]) = .next u) ∧
    (∃ u, exec .hcmdMcgroup { commanded [0xFF] with groups := [(255, [])] } = .next u) ∧ (∃ u, exec .hcmdMcgroup (commanded [0x1FF]) = .next u) :=
  ⟨nextOf (h.1 State.reset .hcmdCtxnew (List.mem_cons_of_mem _ (List.mem_cons_self ..)) rfl (.inl (by decide))),
    nextOf ((h.2 (commanded [0x5000]) (ready _ _ _)).1 new0 (isOk_eq (by decide +kernel))),
    nextOf ((h.2 (commanded [0x5001]) (ready _ _ _)).2.1 errBadCtxDesc (isBad_eq (by decide +kernel))),
    nextOf ((h.2 (commanded [] [(0, ctx0)]) (ready _ _ _)).2.2.1 ctx0 rfl rfl (fun _ hx => nomatch hx) (fun _ hx => nomatch hx)),
    nextOf ((h.2 (commanded []) (ready _ _ _)).2.2.2.1 rfl),
    nextOf ((h.2 (commanded [0x10000, 0x10000] [(0, ctx0)]) (ready _ _ _)).2.2.2.2.1 (by decide +kernel) (by decide +kernel) (by decide +kernel) rfl rfl),
    nextOf ((h.2 (commanded [2, 7, 0x100000]) (ready _ _ _)).2.2.2.2.2.1 (by decide +kernel) (by decide +kernel) (by decide +kernel) (by decide +kernel)
      (by decide +kernel)),
    nextOf ((h.2 (commanded [2, 7] [] [export0]) (ready _ _ _)).2.2.2.2.2.2.1 export0 rfl (by decide +kernel) rfl rfl),
    nextOf ((h.2 (commanded [2, 8] [] [export0]) (ready _ _ _)).2.2.2.2.2.2.2.1 (by decide +kernel)),
    nextOf ((h.2 (commanded [0x100000, 0x200000]) (ready _ _ _)).2.2.2.2.2.2.2.2.1 (fun a ha => by
      rcases ha with e | e <;> rw [e] <;> decide +kernel) (by decide +kernel) (by decide +kernel)),
    nextOf ((h.2 (commanded [0x100000, 0x100000]) (ready _ _ _)).2.2.2.2.2.2.2.2.2.1 (by decide +kernel)),
    nextOf ((h.2 (commanded [0x2FF, 0x100000, 0x200000]) (ready _ _ _)).2.2.2.2.2.2.2.2.2.2.1 (by decide +kernel) (by decide +kernel) (by decide +kernel)),
    nextOf ((h.2 { commanded [0xFF] with groups := [(255, [])] } ⟨rfl, (by decide : 1 ≤ 1), (by decide : 1 ≤ 64), rfl, rfl, rfl, rfl, rfl,
      fun _ => ⟨rfl, rfl⟩⟩).2.2.2.2.2.2.2.2.2.2.2.1 (by decide +kernel) (by decide +kernel)),
    nextOf ((h.2 (commanded [0x1FF]) (ready _ _ _)).2.2.2.2.2.2.2.2.2.2.2.2 (by decide +kernel))⟩

def wrote (i : Input) : State := { State.reset with inp := i, mgmt := { stage := 5 } }

theorem witness_HostRegistersAndManagement (h : Obligations.HostRegistersAndManagement) :
    (∃ u, exec .icauseWrite (wrote {}) = .next u) ∧ (∃ u, exec .imaskWrite (wrote {}) = .next u) ∧
    (∃ u, exec .registerWrite (wrote { addr := 0x10 }) = .next u) ∧ (∃ u, exec .registerWrite (wrote { addr := 0x13F8, bytes := List.replicate 8 0 }) = .next u) ∧
    (∃ u, exec .icauseWrite State.reset = .next u) ∧ (∃ u, exec .registerWrite (wrote { addr := 0x1400 }) = .next u) ∧
    (∃ u, exec .pcapWrite { State.reset with mgmt := { fail := true } } = .next u) ∧ (∃ u, exec .registerWrite (wrote { mark := true, link := 4 }) = .next u) ∧ (∃ v, (wrote {}).hostRead false 0x8000 4 = some v) ∧
    State.reset.hostRead false 0x9000 8 = none ∧ State.reset.hostMemoryRead 0 8 = none ∧ (∃ u, exec .pcapWrite (wrote { val := 1000 }) = .next u) ∧
    (∃ u, exec .pcapWrite (wrote { val := 999 }) = .next u) ∧ (∃ u, exec .hostMemoryWrite State.reset = .next u) ∧
    (∃ u, exec .hostMemoryWrite { wrote { mark := true, frame := some 0 } with dir := [{ name := 0 }] } = .next u) ∧
    (∃ u, exec .hostMemoryWrite (wrote { addr := 5, bytes := [1] }) = .next u) ∧ (∃ u, exec .attreq State.reset = .next u) ∧
    (∃ u, exec .attreq (wrote {}) = .next u) :=
  ⟨nextOf ((h.1 (wrote {})).1 (by decide)).1, nextOf ((h.1 (wrote {})).1 (by decide)).2.1,
    nextOf (((h.1 (wrote { addr := 0x10 })).1 (by decide)).2.2.1 rfl rfl (by decide)),
    nextOf (((h.1 (wrote { addr := 0x13F8, bytes := List.replicate 8 0 })).1 (by decide)).2.2.2 rfl rfl (by decide) (by decide) rfl),
    ⟨_, ((h.1 State.reset).2.1 (by decide)).1⟩,
    ⟨_, (h.1 (wrote { addr := 0x1400 })).2.2.1 rfl (by decide) (.inr (by decide)) (by decide)⟩,
    ⟨_, ((h.1 { State.reset with mgmt := { fail := true } }).2.2.2.1 rfl).2⟩,
    nextOf ((h.1 (wrote { mark := true, link := 4 })).2.2.2.2.1 rfl rfl), ⟨_, ((h.1 (wrote {})).2.2.2.2.2.1 rfl).1⟩,
    (((h.1 State.reset).2.2.2.2.2.1 rfl).2.2 (by decide)).1 _ (.inr (by decide)), (((h.1 State.reset).2.2.2.2.2.1 rfl).2.2 (by decide)).2 _ _,
    nextOf ((h.1 (wrote { val := 1000 })).2.2.2.2.2.2.1 (by decide) rfl), nextOf ((h.1 (wrote { val := 999 })).2.2.2.2.2.2.2.1 (by decide) rfl),
    ⟨_, (h.1 State.reset).2.2.2.2.2.2.2.2.1 (by decide)⟩,
    nextOf ((h.1 { wrote { mark := true, frame := some 0 } with dir := [{ name := 0 }] }).2.2.2.2.2.2.2.2.2.1 (by decide) rfl),
    nextOf ((h.1 (wrote { addr := 5, bytes := [1] })).2.2.2.2.2.2.2.2.2.2 (by decide) rfl plain),
    ⟨_, (h.2.2 State.reset).1 (.inl rfl)⟩, nextOf2 ((h.2.2 (wrote {})).2 (by decide) rfl rfl rfl plain)⟩

/-- A signed object verifies exactly where the two signature checks, which are open (log 8), say so: the witness of its clauses is a
state in which one does. -/
theorem witness_signedObjects (h : Obligations.HostRegistersAndManagement) (s : State) (o : SignedObj)
    (ho : s.readObject (s.inp.addr.toNat % 2 ^ 43) = .ok o) (hk : o.kind ≤ 3) : ∃ u, exec .fwstage s = .next u := by
  by_cases k : o.kind ≤ 1
  · exact nextOf (((h.2.1 s).2 o ho).1 k)
  · exact nextOf (((h.2.1 s).2 o ho).2 (by omega))

def staged (n : Nat) (i : Input) : State := { State.reset with mgmt := { stage := n }, inp := i }
/-- Firmware of KIND 1 with SVN 5 installed, under this minimum, at the first stage. -/
def installed (least : Nat) : State := { staged 0 { flag := true } with bx := { staged := [(1, (5, []))], minSvn := [(1, least)] } }
/-- A package of a rack, READY, told the time. -/
def synced (pkg : Nat) : State :=
  { State.reset with mgmt := { stage := 5 }, stc := 1000, pkg := pkg, nPkg := 2, agenda := [⟨1010, phTask, .queueRotation, {}, {}⟩],
                     inp := { sent := 1128, offset := -64 } }

theorem witness_ResetsAndBringUp (h : Obligations.ResetsAndBringUp) :
    (∃ u, exec .coldReset (wrote {}) = .next u) ∧ (∃ u, exec .pcieReset (wrote {}) = .next u) ∧ (∃ u, exec .mresetGo (wrote { val := 1 }) = .next u) ∧
    (∃ u, exec .mresetGo (wrote {}) = .next u) ∧ (∃ u, exec .bringupStage (staged 5 {}) = .next u) ∧
    (∃ u, exec .bringupStage (staged 4 {}) = .next u) ∧ (∃ u, exec .bringupStage (staged 4 { flag := true }) = .next u) ∧
    (∃ u, exec .bringupStage (installed 6) = .next u) ∧ (∃ u, exec .bringupStage (installed 5) = .next u) ∧
    (∃ e, (installed 6).firmware 1 = .error e) ∧ (installed 5).firmware 1 = .ok (5, []) ∧
    (∃ u, exec .rackStcSync State.reset = .next u) ∧ (∃ u, exec .rackStcSync (synced 0) = .next u) ∧ (∃ u, exec .rackStcSync (synced 1) = .next u) :=
  ⟨nextOf (h.1 (wrote {}) .coldReset (.inl rfl)), nextOf (h.1 (wrote {}) .pcieReset (.inr (.inl rfl))),
    nextOf (h.1 (wrote { val := 1 }) .mresetGo (.inr (.inr ⟨rfl, rfl⟩))), ⟨_, h.2.1 (wrote {}) rfl⟩,
    ⟨_, (h.2.2.1 (staged 5 {}) rfl).1 (by decide)⟩, nextOf ((h.2.2.1 (staged 4 {}) rfl).2.1 (by decide) rfl),
    nextOf ((h.2.2.1 (staged 4 { flag := true }) rfl).2.2.2 (by decide) rfl fun e => absurd e (by decide)),
    nextOf ((h.2.2.1 (installed 6) rfl).2.2.1 _ (by decide) rfl rfl), nextOf ((h.2.2.1 (installed 5) rfl).2.2.2 (by decide) rfl fun _ => ⟨(5, []), rfl⟩),
    (h.2.2.2.1 (installed 6) 1 (5, []) rfl).1 (by decide), (h.2.2.2.1 (installed 5) 1 (5, []) rfl).2 (by decide),
    ⟨_, (h.2.2.2.2 State.reset).1 (.inl (by decide))⟩, nextOf (((h.2.2.2.2 (synced 0)).2 (by decide) rfl).1 rfl),
    nextOf (((h.2.2.2.2 (synced 1)).2 (by decide) rfl).2 (by decide))⟩

/-- A die whose cores sleep, in a power state. -/
def asleep (p : Power) (now : Nat) (i : Input) : State :=
  { State.reset with stc := now, inp := i, dies := (List.range 8).map fun d => (d, { power := p, corePower := (List.range 24).map fun k => (k, .p1) }) }

/-- A window that has booked a group of die 0's stack. -/
def stackWindow : Window := { window0 with tmpl := { window0.tmpl with entries := [{ kind := 4, res := 0, off := 0, dur := 1, amt := 1 }] } }

/-- The last die that is not in P3, its package's link in L1. -/
def lastAwake : State :=
  { asleep .p3 16777216 { id := 3 } with mgmt := { l1 := true }, dies := (List.range 8).map fun d => (d, { power := if d = 0 then .p2 else .p3 }) }

theorem witness_PowerAndHeat (h : Obligations.PowerAndHeat) :
    (∃ u, exec .powerStateEntry { State.reset with inp := { core := some 0 }, windows := [window0] } = .next u) ∧
    (∃ u, exec .powerStateEntry { State.reset with inp := { core := some 0 }, stc := 1024 } = .next u) ∧
    (∃ u, exec .powerStateEntry (asleep .p0 1049600 { id := 2 }) = .next u) ∧ (∃ u, exec .powerStateEntry lastAwake = .next u) ∧ (∃ u, exec .powerStateEntry (asleep .p2 16777216 { id := 3 }) = .next u) ∧
    (∃ u, exec .powerStateEntry { asleep .p2 16777216 { id := 3 } with windows := [stackWindow] } = .next u) ∧
    (∃ u, exec .powerStateEntry (asleep .p2 16777215 { id := 3 }) = .next u) ∧
    (∃ u, exec .powerStateEntry (asleep .p3 0 { flag := true }) = .next u) ∧ (∃ u, exec .powerStateEntry (asleep .p3 0 {}) = .next u) ∧ (∃ u, exec .powerStateExit State.reset = .next u) ∧
    (∃ u, exec .thermalLimit State.reset = .next u) :=
  ⟨⟨_, (h.1 { State.reset with inp := { core := some 0 }, windows := [window0] } 0 rfl).1 ⟨window0, List.mem_singleton.mpr rfl, rfl⟩⟩,
    nextOf ((h.1 { State.reset with inp := { core := some 0 }, stc := 1024 } 0 rfl).2 (fun _ hx => nomatch hx) (by decide)),
    nextOf ((h.2.1 (asleep .p0 1049600 { id := 2 }) 0 rfl rfl rfl).1 rfl rfl (fun _ hx => nomatch hx) (by decide +kernel)),
    nextOf (((h.2.1 lastAwake 0 rfl rfl rfl).2 rfl rfl).1 (by decide) rfl rfl (by decide +kernel)),
    nextOf (((h.2.1 (asleep .p2 16777216 { id := 3 }) 0 rfl rfl rfl).2 rfl rfl).2.1 (by decide) rfl),
    nextOf (((h.2.1 { asleep .p2 16777216 { id := 3 } with windows := [stackWindow] } 0 rfl rfl rfl).2 rfl rfl).2.2.1 (by decide) (by decide)),
    nextOf (((h.2.1 (asleep .p2 16777215 { id := 3 }) 0 rfl rfl rfl).2 rfl rfl).2.2.2 (by decide)),
    nextOf ((h.2.2.1 (asleep .p3 0 { flag := true }) rfl rfl).1 rfl rfl (by decide +kernel)), nextOf ((h.2.2.1 (asleep .p3 0 {}) rfl rfl).2 rfl), nextOf (h.2.2.2.1 State.reset), nextOf (h.2.2.2.2 State.reset)⟩

/-- The subject of an error or a test on a package whose die 0 has a test package; core 0's binding as given. -/
def test0 : TestPkg := { duration := 100, period := 1, abortprio := 8, npat := 1, expsig := 5 }
def tested (i : Input) (x : Die := { testPkg := some test0 }) (ws : List Window := []) : State :=
  { State.reset with mgmt := { stage := 5 }, stc := 1000, inp := i, dies := [(0, x)], windows := ws }
def probing (spares : BitVec 32) : Die := { testPkg := some test0, testing := [(0, 900)], lcspare := spares }

/-- Readings of the clock's sensor of level 1, 2 and 3, and an alarm of level 2 at the same cycle. -/
def alarmOf (k : Nat) : Input :=
  { code := 8, reading := if k = 1 then { dev := 6 } else if k = 2 then { period := 10 } else if k = 3 then { absent := 64 } else {} }
def higher : Job := ⟨1000, phTask, .sensorAlarm, alarmOf 2, {}⟩

/-- A record that is booked on core 0, which has no task. -/
def bookedThere : State :=
  { living .booked .halted true with inp := { core := some 0 }, cores := [],
                                     windows := [{ window0 with use := 0, armed := false, t0 := 60000, tmpl := { len := 4096 } }] }

theorem witness_TestsErrorsAndAlarms (h : Obligations.TestsErrorsAndAlarms) :
    (∃ u, exec .eccCorrection (tested {}) = .next u) ∧ (∃ u, exec .eccReread (tested {}) = .next u) ∧
    (∃ u, exec .patrolScrub (tested { flag := true }) = .next u) ∧ (∃ u, exec .patrolScrub (tested {}) = .next u) ∧
    (∃ u, exec .frameRetirement (tested { id := 5 }) = .next u) ∧ (∃ u, exec .frameRetirement (tested { id := 5 } { remap := [(5, 6)] }) = .next u) ∧
    (∃ u, exec .sramDoubleBitError (tested { core := some 0 }) = .next u) ∧ (∃ u, exec .sramDoubleBitError { lives with inp := { core := some 0 } } = .next u) ∧
    (∃ u, exec .sramDoubleBitError bookedThere = .next u) ∧
    (∃ u, exec .sensorAlarm (tested (alarmOf 1)) = .next u) ∧ (∃ u, exec .sensorAlarm (tested (alarmOf 2)) = .next u) ∧
    (∃ u, exec .sensorAlarm (tested (alarmOf 3)) = .next u) ∧ (∃ u, exec .sensorAlarm (tested {}) = .next u) ∧
    (∃ u, exec .sensorAlarm { tested (alarmOf 1) with agenda := [higher] } = .next u) ∧
    (∃ u, exec .sensorAlarm { tested (alarmOf 1) with bx := { level := 2 } } = .next u) ∧ Input.level (alarmOf 3) = 3 ∧
    (∃ u, exec .testDue (tested {}) = .next u) ∧ (∃ u, exec .testDue (tested { phys := 24 }) = .next u) ∧ (∃ u, exec .testScanStart (tested {}) = .next u) ∧
    exec .testScanStart (tested { core := some 0 }) = .next (tested { core := some 0 }) ∧
    (∃ u, exec .testScanEnd (tested { sig := 5 } (probing 1)) = .next u) ∧ (∃ u, exec .testScanEnd (tested { sig := 4 } (probing 0x1000000)) = .next u) ∧
    (∃ u, exec .testScanEnd (tested { sig := 4 } (probing 0)) = .next u) ∧ (∃ u, exec .testAbort (tested { flag := true }) = .next u) ∧
    (∃ u, exec .testAbort (tested {} { testPkg := some test0 } [{ late with task := 2 ^ 32 }]) = .next u) := by
  have p : ∀ (i : Input), Rules.PlainDram (tested i) := fun i => plain (d := fun d => match d with | 0 => ⟨rfl, rfl⟩ | _ + 1 => ⟨rfl, rfl⟩)
  exact ⟨nextOf (h.1.1 (tested {}) (p _)).1, nextOf ((h.1.1 (tested {}) (p _)).2.1 rfl),
    nextOf ((h.1.1 (tested { flag := true }) (p _)).2.2.1 rfl rfl .patrolScrub (.inr rfl)), ⟨_, (h.1.1 (tested {}) (p _)).2.2.2 rfl⟩,
    nextOf2 ((h.1.2.1 (tested { id := 5 })).1 rfl rfl rfl (by decide)),
    ⟨_, (h.1.2.1 (tested { id := 5 } { remap := [(5, 6)] })).2 (by decide)⟩,
    nextOf ((h.1.2.2.1 (tested { core := some 0 }) 0 rfl).1 rfl fun _ hx => nomatch hx),
    nextOf ((h.1.2.2.1 { lives with inp := { core := some 0 } } 0 rfl).2.2 (living0 .run) rfl rfl rfl fun w hw _ => .inl (by
      rw [List.mem_singleton.mp (show w ∈ [_] from hw)]; rfl)),
    nextOf ((h.1.2.2.1 bookedThere 0 rfl).2.1 _ (living0 .booked) rfl rfl rfl (by decide) rfl rfl rfl),
    nextOf ((h.1.2.2.2.2.2.2.1 (tested (alarmOf 1)) (by decide) (by decide) rfl).1 rfl),
    nextOf ((h.1.2.2.2.2.2.2.1 (tested (alarmOf 2)) (by decide) (by decide) rfl).2.1 rfl rfl rfl (.inl rfl)),
    nextOf ((h.1.2.2.2.2.2.2.1 (tested (alarmOf 3)) (by decide) (by decide) rfl).2.2 rfl rfl), ⟨_, h.1.2.2.2.2.2.2.2 (tested {}) rfl⟩,
    ⟨_, h.1.2.2.2.1 { tested (alarmOf 1) with agenda := [higher] } (by decide)⟩,
    nextOf (h.1.2.2.2.2.2.1 { tested (alarmOf 1) with bx := { level := 2 } } (by decide) (by decide) rfl),
    ((h.1.2.2.2.2.1 (alarmOf 3)).2.1 rfl).1 (by decide),
    nextOf2 (((h.2 (tested {}) test0 rfl).1 rfl rfl rfl).1 0 1064 rfl (by decide) (by decide +kernel)),
    nextOf (((h.2 (tested { phys := 24 }) test0 rfl).1 rfl rfl rfl).2 rfl rfl), nextOf2 ((h.2 (tested {}) test0 rfl).2.2.1 (.inl rfl)),
    (h.2 (tested { core := some 0 }) test0 rfl).2.1 (fun x => x.elim nofun fun y => y.1.elim fun _ z => nomatch z.1),
    nextOf (((h.2 (tested { sig := 5 } (probing 1)) test0 rfl).2.2.2.1 rfl (by decide) (by decide)).1 rfl),
    nextOf ((((h.2 (tested { sig := 4 } (probing 0x1000000)) test0 rfl).2.2.2.1 rfl (by decide) (by decide)).2 0 (by decide) rfl (fun _ hx => nomatch hx)).1 24 rfl),
    nextOf ((((h.2 (tested { sig := 4 } (probing 0)) test0 rfl).2.2.2.1 rfl (by decide) (by decide)).2 0 (by decide) rfl (fun _ hx => nomatch hx)).2 rfl),
    nextOf ((h.2 (tested { flag := true }) test0 rfl).2.2.2.2.1 rfl .testAbort (.inr rfl)),
    nextOf ((h.2 (tested {} { testPkg := some test0 } [{ late with task := 2 ^ 32 }]) test0 rfl).2.2.2.2.2 rfl ⟨_, List.mem_singleton.mpr rfl, rfl, rfl⟩
      (fun _ hx => nomatch hx))⟩


/-! ### Single steps -/

/-- The effects that a word leaves to fall due. -/
def pendAfter (i : Instr) (s : State) : List Pend := match exec i s with | .next u => (u.core 0).pend | _ => []
/-- Core 0 with scalar registers given. -/
def holding (rs : SMap Word) : State := on { core0 with c := { run0 with regs := rs } }

/-- 05 R107, R111: a sum wraps, and is visible after one cycle. -/
theorem test_add_wraps : pendAfter (.add 1 2 3) (holding [(2, 0xFFFFFFFFFFFFFFFF), (3, 2)]) = [⟨1001, .reg .c 1 1⟩] := by decide +kernel
/-- 05: a shift count is taken modulo 64. -/
theorem test_shl_count : pendAfter (.shl 1 2 3) (holding [(2, 3), (3, 65)]) = [⟨1001, .reg .c 1 6⟩] := by decide +kernel
theorem test_sra_sign : pendAfter (.sra 1 2 3) (holding [(2, 0x8000000000000000), (3, 63)]) = [⟨1001, .reg .c 1 0xFFFFFFFFFFFFFFFF⟩] := by decide +kernel
theorem test_lih : pendAfter (.lih 1 5) (holding [(1, 0xFFFFFFFFFFFFFFFF)]) = [⟨1001, .reg .c 1 0x5FFFFFFFF⟩] := by decide +kernel
theorem test_slt_signed : pendAfter (.slt 1 2 3) (holding [(2, 0xFFFFFFFFFFFFFFFF), (3, 1)]) = [⟨1001, .reg .c 1 1⟩] ∧
    pendAfter (.sltu 1 2 3) (holding [(2, 0xFFFFFFFFFFFFFFFF), (3, 1)]) = [⟨1001, .reg .c 1 0⟩] := by decide +kernel

end Sys2Proof.Tests
end

/-! SUPPORT. What a write of DRAM leaves at every byte, and what the device's own writes leave unchanged (13 R322; 14 R361, R362; 12 R294,
R316). -/

namespace Sys2Proof.Machine

/-! ### Folds and tables -/

/-- A fold stays within a reflexive and transitive relation that each of its steps keeps. -/
theorem foldl_related {σ α : Type} {R : σ → σ → Prop} {f : σ → α → σ} (refl : ∀ s, R s s) (trans : ∀ {s t u}, R s t → R t u → R s u)
    (step : ∀ s x, R s (f s x)) (l : List α) (s : σ) : R s (l.foldl f s) := by
  induction l generalizing s with
  | nil => exact refl s
  | cons x t ih => exact trans (step s x) (ih (f s x))

/-- A table holds what was inserted. -/
@[simp] theorem SMap.get?_ins {α : Type} (x : α) (m : SMap α) (n : Nat) : SMap.get? (SMap.ins m n x) n = some x := by
  induction m with
  | nil => simp [SMap.ins, SMap.get?]
  | cons p t ih =>
    obtain ⟨k, v⟩ := p
    simp only [SMap.ins]
    split
    · simp [SMap.get?]
    · split
      · simp [SMap.get?]
      · rename_i h; simp [SMap.get?, h, ih]

/-- A change of a die that keeps a value of it keeps that value of every die. -/
theorem State.modDie_die_value {α : Type} (g : Die → α) (s : State) (d e : Nat) (f : Die → Die)
    (hf : ∀ x, g (f x) = g x := by intro x; rfl) : g ((s.modDie d f).die e) = g (s.die e) := by
  by_cases h : e = d
  · subst h; rw [State.modDie, State.setDie_die, hf]
  · rw [State.modDie, State.setDie_die_ne _ _ _ _ h]

/-! ### Hot words (14 R362) -/

theorem hotSet_of_word_eq {a b : Nat} (h : a / 8 = b / 8) : hotSet a = hotSet b := by
  simp only [hotSet, bitsN]; omega

theorem paDie_of_word_eq {a b : Nat} (h : a / 8 = b / 8) : paDie a = paDie b := by
  simp only [paDie, bitsN]; omega

/-- The entries of a set with the value of one word replaced hold that value for that word and what they held for any other. -/
theorem find_replaced (l : List (Nat × Word)) (w x : Nat) (v : Word) :
    (((l.map fun e => if e.1 = w then (e.1, v) else e).find? fun e => e.1 = x).map (·.2)) =
      if x = w then ((l.find? fun e => e.1 = x).map fun _ => v) else (l.find? fun e => e.1 = x).map (·.2) := by
  induction l with
  | nil => simp
  | cons e t ih =>
    rw [List.map_cons, List.find?_cons, List.find?_cons]
    by_cases hx : e.1 = x
    · subst hx
      by_cases hw : e.1 = w <;> simp [hw]
    · have hx' : (if e.1 = w then (e.1, v) else e).1 ≠ x := by split <;> exact hx
      rw [decide_eq_false hx, decide_eq_false hx']
      exact ih

/-- The word replaced in a hot-word cache that holds it is found with its new value, every other word as before. -/
theorem hotFind_hotPut {h : HotCache} {pa : Nat} {w : Word} (hw : hotFind h pa = some w) (v : Word) (x : Nat) :
    hotFind (hotPut h pa v) x = if x / 8 = pa / 8 then some v else hotFind h x := by
  by_cases hs : hotSet x = hotSet pa
  · simp only [hotFind] at hw
    simp only [hotFind, hotPut, hs, SMap.get_ins, find_replaced]
    split
    · rename_i e
      rw [e]
      cases hf : (SMap.get [] h (hotSet pa)).find? (fun e => decide (e.1 = pa / 8)) with
      | none => simp [hf] at hw
      | some p => rfl
    · rfl
  · have hx : ¬ x / 8 = pa / 8 := fun e => hs (hotSet_of_word_eq e)
    simp only [hotFind, hotPut, if_neg hx, SMap.get_ins_ne _ _ _ _ _ hs]

/-- A byte put into a word at byte i stands there, and the other bytes stay. -/
theorem byte_merged (v : Word) (b : Byte) {i j : Nat} (hi : i < 8) (hj : j < 8) :
    ((v &&& ~~~(0xFF#64 <<< (8 * i))) ||| (b.setWidth 64 <<< (8 * i))).extractLsb' (8 * j) 8 =
      if j = i then b else v.extractLsb' (8 * j) 8 := by
  have mask : ∀ k, (0xFF#64).getLsbD k = (decide (k < 64) && decide (k < 8)) := fun k => by
    rw [BitVec.getLsbD_ofNat, show 255 = 2 ^ 8 - 1 from rfl, Nat.testBit_two_pow_sub_one]
  apply BitVec.eq_of_getLsbD_eq
  intro k hk
  by_cases e : j = i
  · subst e
    simp only [if_true, BitVec.getLsbD_extractLsb', BitVec.getLsbD_or, BitVec.getLsbD_and, BitVec.getLsbD_not, BitVec.getLsbD_shiftLeft,
      BitVec.getLsbD_setWidth, mask]
    simp [hk, show 8 * j + k < 64 by omega, show ¬ 8 * j + k < 8 * j by omega, show k < 64 by omega]
  · simp only [if_neg e, BitVec.getLsbD_extractLsb', BitVec.getLsbD_or, BitVec.getLsbD_and, BitVec.getLsbD_not, BitVec.getLsbD_shiftLeft,
      BitVec.getLsbD_setWidth, mask]
    rcases Nat.lt_or_gt_of_ne e with h | h
    · simp [hk, show 8 * j + k < 64 by omega, show 8 * j + k < 8 * i by omega]
    · simp [hk, show ¬ 8 * j + k < 8 * i by omega, show ¬ 8 * j + k - 8 * i < 8 by omega,
        BitVec.getLsbD_of_ge b (8 * j + k - 8 * i) (by omega)]
      intro _; omega

/-! ### Save slots (12 R316) -/

@[simp] theorem SaveArea.spoil_base (a : SaveArea) (lo n : Nat) : (a.spoil lo n).base = a.base := by unfold SaveArea.spoil; split <;> rfl
@[simp] theorem SaveArea.spoil_key (a : SaveArea) (lo n : Nat) : (a.spoil lo n).key = a.key := by unfold SaveArea.spoil; split <;> rfl

/-- A slot with one byte overwritten is spoilt there, and elsewhere where it was. -/
theorem SaveArea.spoil_byte (a : SaveArea) {pa x : Nat} (hx : a.base ≤ x ∧ x < a.base + savedBytes) :
    SMap.get false (a.spoil pa 1).spoilt (x - a.base) = (decide (x = pa) || SMap.get false a.spoilt (x - a.base)) := by
  unfold SaveArea.spoil
  split
  · rename_i h
    simp only [List.range_one, List.foldl_cons, List.foldl_nil, Nat.add_zero]
    rw [if_pos (by omega)]
    by_cases e : x = pa
    · subst e; simp
    · rw [SMap.get_put_ne _ _ _ _ _ (by omega)]; simp [e]
  · rw [show decide (x = pa) = false from decide_eq_false (by omega), Bool.false_or]

/-! ### One byte -/

theorem State.dramByte_of_hot {s : State} {pa : Nat} {v : Word} (hl : s.stackLost pa = false)
    (hh : hotFind (s.die (paDie pa)).stationHot pa = some v) : s.dramByte pa = v.extractLsb' (8 * (pa % 8)) 8 := by
  simp [State.dramByte, hl, hh]

/-- What the stack itself holds at an address: its cell, or what the saver wrote. -/
def State.stackByte (s : State) (pa : Nat) : Byte :=
  match s.saveArea? pa with
  | some a => if SMap.get false a.spoilt (pa - a.base) then Memory.byte s.dram pa else Config.savedByte a.key (pa - a.base)
  | none => Memory.byte s.dram pa

theorem State.dramByte_of_cold {s : State} {pa : Nat} (hl : s.stackLost pa = false)
    (hh : hotFind (s.die (paDie pa)).stationHot pa = none) : s.dramByte pa = s.stackByte pa := by
  simp only [State.dramByte, hl, hh]; rfl

theorem State.stackLost_eq_false {s : State} (h : ∀ d, (s.die d).lost = false) (pa : Nat) : s.stackLost pa = false := by
  simp [State.stackLost, h]

/-- A byte is decided by the loss of its die, the hot words of its die, the save slots, the cells and, where its stack is lost, the time. -/
theorem State.dramByte_congr {s u : State} {x : Nat} (hl : u.stackLost x = s.stackLost x)
    (hh : hotFind (u.die (paDie x)).stationHot x = hotFind (s.die (paDie x)).stationHot x) (ha : u.saveAreas = s.saveAreas) (hd : u.dram = s.dram)
    (ht : u.stc = s.stc) : u.dramByte x = s.dramByte x := by
  simp only [State.dramByte, State.saveArea?, hl, hh, ha, hd, ht]

/-- A change of a die that loses nothing and keeps its hot words leaves every byte. -/
theorem State.modDie_dramByte (s : State) (d x : Nat) (f : Die → Die) (hl : ∀ y, (f y).lost = y.lost := by intro y; rfl)
    (hh : ∀ y, (f y).stationHot = y.stationHot := by intro y; rfl) : (s.modDie d f).dramByte x = s.dramByte x := by
  have lost := State.modDie_die_value Die.lost s d (paDie x) f hl
  have hot := State.modDie_die_value Die.stationHot s d (paDie x) f hh
  exact State.dramByte_congr (by rw [State.stackLost, State.stackLost, State.modDie_pkg, lost]) (by rw [hot]) rfl rfl rfl

theorem State.saveArea?_covers {s : State} {x : Nat} {a : SaveArea} (h : s.saveArea? x = some a) : a.base ≤ x ∧ x < a.base + savedBytes := by
  simpa using List.find?_some h

/-- Slots are found by their bases, which a change of each slot may leave. -/
theorem State.saveArea?_map {s u : State} {f : SaveArea → SaveArea} (hf : ∀ a, (f a).base = a.base) (h : u.saveAreas = s.saveAreas.map f)
    (x : Nat) : u.saveArea? x = (s.saveArea? x).map f := by
  rw [State.saveArea?, State.saveArea?, h, List.find?_map]
  simp only [Function.comp_def, hf]

/-- The stack with a cell written, and the save slots spoilt there, holds it. The change of the slots is a variable: the kernel would
evaluate the size of a slot to compare two forms of it. -/
theorem State.stackByte_written {s u : State} {pa : Nat} {b : Byte} {f : SaveArea → SaveArea} (hf : ∀ a, f a = a.spoil pa 1)
    (hd : u.dram = Memory.setByte s.dram pa b) (ha : u.saveAreas = s.saveAreas.map f) (x : Nat) :
    u.stackByte x = if x = pa then b else s.stackByte x := by
  have base (a : SaveArea) : (f a).base = a.base := by rw [hf, SaveArea.spoil_base]
  have key (a : SaveArea) : (f a).key = a.key := by rw [hf, SaveArea.spoil_key]
  rw [State.stackByte, State.stackByte, State.saveArea?_map base ha, hd]
  cases hs : s.saveArea? x with
  | none =>
    by_cases e : x = pa
    · subst e; simp
    · simp [e, Memory.setByte_byte_ne]
  | some a =>
    have marks : SMap.get false (f a).spoilt (x - a.base) = (decide (x = pa) || SMap.get false a.spoilt (x - a.base)) := by
      rw [hf, SaveArea.spoil_byte a (State.saveArea?_covers hs)]
    simp only [Option.map_some, base, key, marks]
    by_cases e : x = pa
    · subst e; simp
    · simp [e, Memory.setByte_byte_ne]

/-- A word with a byte of it, by the byte's address, replaced. -/
def putByte (v : Word) (pa : Nat) (b : Byte) : Word := (v &&& ~~~(0xFF#64 <<< (8 * (pa % 8)))) ||| (b.setWidth 64 <<< (8 * (pa % 8)))

theorem State.dramPut_of_hot {s : State} {pa : Nat} {v : Word} (h : hotFind (s.die (paDie pa)).stationHot pa = some v) (b : Byte) :
    s.dramPut pa b = s.modDie (paDie pa) fun y => { y with stationHot := hotPut y.stationHot pa (putByte v pa b) } := by
  simp only [State.dramPut, h]; rfl

theorem State.dramPut_of_cold {s : State} {pa : Nat} (h : hotFind (s.die (paDie pa)).stationHot pa = none) (b : Byte) :
    s.dramPut pa b = { s with dram := Memory.setByte s.dram pa b, saveAreas := s.saveAreas.map fun a => a.spoil pa 1 } := by
  simp only [State.dramPut, h]

/-- A byte put into a hot word reads back; the word's other bytes and every other word stay. -/
theorem State.dramPut_dramByte_of_hot {s : State} (hl : ∀ d, (s.die d).lost = false) {pa : Nat} {v : Word}
    (hh : hotFind (s.die (paDie pa)).stationHot pa = some v) (x : Nat) (b : Byte) :
    (s.dramPut pa b).dramByte x = if x = pa then b else s.dramByte x := by
  rw [State.dramPut_of_hot hh]
  generalize hf : (fun y : Die => { y with stationHot := hotPut y.stationHot pa (putByte v pa b) }) = f
  have lost : ∀ d, ((s.modDie (paDie pa) f).die d).lost = false := fun d => by
    rw [State.modDie_die_value Die.lost s _ d f (by subst hf; intro y; rfl), hl]
  have hot : ((s.modDie (paDie pa) f).die (paDie pa)).stationHot = hotPut (s.die (paDie pa)).stationHot pa (putByte v pa b) := by
    rw [State.modDie, State.setDie_die, ← hf]
  by_cases hw : x / 8 = pa / 8
  · have hd := paDie_of_word_eq hw
    have before : hotFind (s.die (paDie x)).stationHot x = some v := by
      rw [hd]; simpa only [hotFind, hotSet_of_word_eq hw, hw] using hh
    have after : hotFind ((s.modDie (paDie pa) f).die (paDie x)).stationHot x = some (putByte v pa b) := by
      rw [hd, hot, hotFind_hotPut hh, if_pos hw]
    rw [State.dramByte_of_hot (State.stackLost_eq_false lost x) after, State.dramByte_of_hot (State.stackLost_eq_false hl x) before, putByte,
      byte_merged v b (Nat.mod_lt _ (by decide)) (Nat.mod_lt _ (by decide))]
    exact if_congr (by omega) rfl rfl
  · have same : hotFind ((s.modDie (paDie pa) f).die (paDie x)).stationHot x = hotFind (s.die (paDie x)).stationHot x := by
      by_cases hd : paDie x = paDie pa
      · rw [hd, hot, hotFind_hotPut hh, if_neg hw]
      · rw [State.modDie, State.setDie_die_ne _ _ _ _ hd]
    rw [if_neg fun e => hw (by rw [e])]
    exact State.dramByte_congr (by rw [State.stackLost_eq_false lost, State.stackLost_eq_false hl]) same rfl rfl rfl

/-- A byte put into the stack reads back, and every other byte stays. -/
theorem State.dramPut_dramByte_of_cold {s : State} (hl : ∀ d, (s.die d).lost = false) {pa : Nat}
    (hh : hotFind (s.die (paDie pa)).stationHot pa = none) (x : Nat) (b : Byte) :
    (s.dramPut pa b).dramByte x = if x = pa then b else s.dramByte x := by
  rw [State.dramPut_of_cold hh]
  generalize hu : ({ s with dram := Memory.setByte s.dram pa b, saveAreas := s.saveAreas.map fun a => a.spoil pa 1 } : State) = u
  have die : ∀ d, u.die d = s.die d := fun d => by rw [← hu]; rfl
  have lost : u.stackLost x = false := State.stackLost_eq_false (fun d => by rw [die, hl]) x
  cases hx : hotFind (s.die (paDie x)).stationHot x with
  | some w =>
    have hne : x ≠ pa := fun e => by rw [e, hh] at hx; cases hx
    rw [if_neg hne, State.dramByte_of_hot (State.stackLost_eq_false hl x) hx, State.dramByte_of_hot lost (by rw [die, hx])]
  | none =>
    rw [State.dramByte_of_cold (State.stackLost_eq_false hl x) hx, State.dramByte_of_cold lost (by rw [die, hx]),
      State.stackByte_written (fun _ => rfl) (by rw [← hu]) (by rw [← hu])]

/-- A byte put at its owner reads back, and every other byte stays. -/
theorem State.dramPut_dramByte {s : State} (hl : ∀ d, (s.die d).lost = false) (pa x : Nat) (b : Byte) :
    (s.dramPut pa b).dramByte x = if x = pa then b else s.dramByte x := by
  cases hh : hotFind (s.die (paDie pa)).stationHot pa with
  | some v => exact State.dramPut_dramByte_of_hot hl hh x b
  | none => exact State.dramPut_dramByte_of_cold hl hh x b

/-! ### What the bytes of a write leave -/

/-- Only dies, cells and save slots differ, and no die's remapped frames or loss. -/
def State.BytesOnly (s u : State) : Prop :=
  u = { s with dies := u.dies, dram := u.dram, saveAreas := u.saveAreas } ∧
    ∀ d, (u.die d).remap = (s.die d).remap ∧ (u.die d).lost = (s.die d).lost

theorem State.BytesOnly.refl (s : State) : s.BytesOnly s := ⟨rfl, fun _ => ⟨rfl, rfl⟩⟩

theorem State.BytesOnly.trans {s t u : State} (h : s.BytesOnly t) (k : t.BytesOnly u) : s.BytesOnly u :=
  ⟨k.1.trans (by rw [h.1]), fun d => ⟨(k.2 d).1.trans (h.2 d).1, (k.2 d).2.trans (h.2 d).2⟩⟩

theorem State.modDie_bytesOnly (s : State) (d : Nat) (f : Die → Die) (hr : ∀ x, (f x).remap = x.remap := by intro x; rfl)
    (hl : ∀ x, (f x).lost = x.lost := by intro x; rfl) : s.BytesOnly (s.modDie d f) :=
  ⟨rfl, fun e => ⟨State.modDie_die_value Die.remap s d e f hr, State.modDie_die_value Die.lost s d e f hl⟩⟩

theorem State.dramPut_bytesOnly (s : State) (pa : Nat) (b : Byte) : s.BytesOnly (s.dramPut pa b) := by
  cases h : hotFind (s.die (paDie pa)).stationHot pa with
  | some v => rw [State.dramPut_of_hot h]; exact State.modDie_bytesOnly s _ _
  | none => rw [State.dramPut_of_cold h]; exact ⟨rfl, fun _ => ⟨rfl, rfl⟩⟩

theorem State.dramPutAll_bytesOnly (s : State) (pa : Nat) (bs : List Byte) : s.BytesOnly (s.dramPutAll pa bs) := by
  induction bs generalizing s pa with
  | nil => exact .refl s
  | cons b t ih => exact (s.dramPut_bytesOnly pa b).trans (ih _ _)

theorem State.unpoison_bytesOnly (s : State) (pa n : Nat) : s.BytesOnly (s.unpoison pa n) := by
  unfold State.unpoison
  split
  · exact .refl s
  · exact State.modDie_bytesOnly s _ _

theorem State.unpoison_dramByte (s : State) (pa n x : Nat) : (s.unpoison pa n).dramByte x = s.dramByte x := by
  unfold State.unpoison
  split
  · rfl
  · exact State.modDie_dramByte s _ x _

/-- Bytes put from an address upward read back, and every other byte stays. -/
theorem State.dramPutAll_dramByte {s : State} (hl : ∀ d, (s.die d).lost = false) (pa x : Nat) (bs : List Byte) :
    (s.dramPutAll pa bs).dramByte x = if pa ≤ x ∧ x < pa + bs.length then bs.getD (x - pa) 0 else s.dramByte x := by
  induction bs generalizing s pa with
  | nil => rw [if_neg (by rw [List.length_nil]; omega)]; rfl
  | cons b t ih =>
    have hl' : ∀ d, ((s.dramPut pa b).die d).lost = false := fun d => ((s.dramPut_bytesOnly pa b).2 d).2.trans (hl d)
    rw [State.dramPutAll, ih hl', State.dramPut_dramByte hl, List.length_cons]
    by_cases e : x = pa
    · subst e
      rw [if_neg (by omega), if_pos rfl, if_pos (by omega), Nat.sub_self]
      rfl
    · by_cases h : pa + 1 ≤ x ∧ x < pa + 1 + t.length
      · rw [if_pos h, if_pos (by omega), show x - pa = x - (pa + 1) + 1 by omega, List.getD_cons_succ]
      · rw [if_neg h, if_neg e, if_neg (by omega)]

end Sys2Proof.Machine

namespace Sys2Proof.Rules

open Sys2Proof.Machine

/-! ### A write where an address is served where it points -/

/-- Nothing that decides where an address is served has changed. -/
theorem PlainDram.bytesOnly {s u : State} (h : PlainDram s) (k : s.BytesOnly u) : PlainDram u := by
  obtain ⟨hm, hf, hg, hd⟩ := h
  obtain ⟨e, home⟩ := k
  refine ⟨?_, ?_, ?_, fun d => ⟨(home d).1.trans (hd d).1, (home d).2.trans (hd d).2⟩⟩
  · rw [e]; exact hm
  · rw [e]; exact hf
  · rw [e]; exact hg

theorem PlainDram.notLost {s : State} (h : PlainDram s) (d : Nat) : (s.die d).lost = false := (h.2.2.2 d).2

theorem PlainDram.resolve {s : State} (h : PlainDram s) (pa : Nat) : s.resolve pa = pa := by
  obtain ⟨hm, hf, -, hd⟩ := h
  simp [State.resolve, hm, hf, hd, SMap.get?]

/-- No write goes to a group. -/
theorem PlainDram.rootGroup {s : State} (h : PlainDram s) (pa : Nat) : s.rootGroup pa = none := by
  obtain ⟨-, -, hg, -⟩ := h
  rw [State.rootGroup, hg]
  rfl

theorem PlainDram.logFull {s : State} (h : PlainDram s) (pa : Nat) : s.logFull pa = false := by
  simp [State.logFull, State.migrating, h.1]

/-- A write is its bytes at their addresses, with the time of the access and the marks of the codewords it covers whole. -/
theorem PlainDram.applyWrite {s : State} (h : PlainDram s) (pa : Nat) (bs : List Byte) (st : Stamp) :
    s.applyWrite pa bs st =
      ((s.modDie (paDie pa) fun d => { d with lastDram := s.stc }).dramPutAll pa bs).unpoison pa bs.length := by
  simp [State.applyWrite, h.resolve, State.stackLost_eq_false h.notLost, State.migrating, h.1]

theorem PlainDram.applyWrite_bytesOnly {s : State} (h : PlainDram s) (pa : Nat) (bs : List Byte) (st : Stamp) :
    s.BytesOnly (s.applyWrite pa bs st) := by
  rw [h.applyWrite]
  exact ((State.modDie_bytesOnly s _ _).trans (State.dramPutAll_bytesOnly _ pa bs)).trans
    (State.unpoison_bytesOnly _ pa _)

theorem stored_iff {s u : State} {pa : Nat} {bs : List Byte} : Stored s u pa bs ↔
    ∀ x, u.dramByte x = if pa ≤ x ∧ x < pa + bs.length then bs.getD (x - pa) 0 else s.dramByte x := by
  constructor
  · rintro ⟨hin, hout⟩ x
    split
    · rename_i h
      have := hin (x - pa) (by omega)
      rwa [show pa + (x - pa) = x by omega] at this
    · exact hout x (by omega)
  · intro h
    refine ⟨fun k hk => ?_, fun x hx => ?_⟩
    · rw [h, if_pos (by omega), Nat.add_sub_cancel_left]
    · rw [h, if_neg (by omega)]

theorem PlainDram.applyWrite_stored {s : State} (h : PlainDram s) (pa : Nat) (bs : List Byte) (st : Stamp) :
    Stored s (s.applyWrite pa bs st) pa bs := by
  refine stored_iff.mpr fun x => ?_
  have hl : ∀ d, ((s.modDie (paDie pa) fun y => { y with lastDram := s.stc }).die d).lost = false := fun d =>
    (State.modDie_die_value Die.lost s (paDie pa) d _).trans (h.notLost d)
  rw [h.applyWrite, State.unpoison_dramByte, State.dramPutAll_dramByte hl,
    State.modDie_dramByte s _ x _]

theorem Stored.nil (s : State) (pa : Nat) : Stored s s pa [] := ⟨fun _ hk => absurd hk (by simp), fun _ _ => rfl⟩

/-- A write behind another is one write. -/
theorem Stored.append {s t u : State} {pa : Nat} {as bs : List Byte} (h : Stored s t pa as)
    (k : Stored t u (pa + as.length) bs) : Stored s u pa (as ++ bs) := by
  refine stored_iff.mpr fun x => ?_
  rw [stored_iff.mp k, stored_iff.mp h, List.length_append]
  by_cases hb : pa + as.length ≤ x ∧ x < pa + as.length + bs.length
  · rw [if_pos hb, if_pos (by omega), List.getD_append_right _ _ _ _ (by omega), Nat.sub_sub]
  · rw [if_neg hb]
    by_cases ha : pa ≤ x ∧ x < pa + as.length
    · rw [if_pos ha, if_pos (by omega), List.getD_append _ _ _ _ (by omega)]
    · rw [if_neg ha, if_neg (by omega)]

/-! ### Writes of the device (12 R294) -/

/-- Drawing a stamp changes the unit's own count alone. -/
theorem PlainDram.unitStamp {s : State} (h : PlainDram s) (unit sub die : Nat) : PlainDram (s.unitStamp unit sub die).2 := h

theorem PlainDram.deviceWrite {s : State} (h : PlainDram s) (hr : s.retries = []) (pa : Nat) (bs : List Byte) :
    s.deviceWrite pa bs = (s.unitStamp 11 0 s.lead).2.applyWrite pa bs (s.unitStamp 11 0 s.lead).1 := by
  have held : (s.unitStamp 11 0 s.lead).2.deviceHeld pa = false := by
    simp only [State.deviceHeld, (h.unitStamp 11 0 s.lead).logFull, Bool.false_or]
    rw [show (s.unitStamp 11 0 s.lead).2.retries = [] from hr]
    rfl
  simp only [State.deviceWrite, held]
  rfl

/-- A write of the device that nothing holds back stands in memory, and holds back none behind it. -/
theorem PlainDram.deviceWrite_stored {s : State} (h : PlainDram s) (hr : s.retries = []) (pa : Nat) (bs : List Byte) :
    Stored s (s.deviceWrite pa bs) pa bs ∧ PlainDram (s.deviceWrite pa bs) ∧ (s.deviceWrite pa bs).retries = [] := by
  have plain := h.unitStamp 11 0 s.lead
  have frame := plain.applyWrite_bytesOnly pa bs (s.unitStamp 11 0 s.lead).1
  rw [h.deviceWrite hr]
  exact ⟨plain.applyWrite_stored pa bs _, plain.bytesOnly frame, (congrArg State.retries frame.1).trans hr⟩

/-- A long write of the device is its pieces, one behind the other. -/
theorem PlainDram.deviceWrites_stored {s : State} (h : PlainDram s) (hr : s.retries = []) (pa : Nat) {fuel : Nat} {bs : List Byte}
    (hb : bs.length ≤ 64 * fuel) : Stored s (s.deviceWrites pa fuel bs) pa bs := by
  induction fuel generalizing s pa bs with
  | zero =>
    obtain rfl := List.eq_nil_of_length_eq_zero (Nat.le_zero.mp hb)
    exact Stored.nil s pa
  | succ fuel ih =>
    cases bs with
    | nil => exact Stored.nil s pa
    | cons b t =>
      obtain ⟨first, plain, free⟩ := h.deviceWrite_stored hr pa ((b :: t).take 64)
      have rest := ih plain free (pa + 64) (bs := (b :: t).drop 64) (by rw [List.length_drop]; omega)
      rw [State.deviceWrites, List.isEmpty_cons, if_neg Bool.false_ne_true]
      conv_rhs => rw [← List.take_append_drop 64 (b :: t)]
      by_cases hs : 64 ≤ (b :: t).length
      · exact first.append (by rwa [List.length_take_of_le hs])
      · rw [List.drop_of_length_le (by omega)] at rest ⊢
        exact first.append (stored_iff.mpr fun x => by
          rw [stored_iff.mp rest]; simp only [List.length_nil]; rw [if_neg (by omega), if_neg (by omega)])

end Sys2Proof.Rules

/-! SUPPORT. The host's registers and the management window: what interrupts, the dispatchers' new look, the device's error entries and
the reads of BAR0 do, clause by clause of the host's accesses (14 R365, R368; 17 R408 to R411; 19 R428, R434). -/

namespace Sys2Proof.Machine

/-! ### What the operations behind a host access leave unchanged -/

/-- Only dies and the agenda differ. -/
def State.DiesAndAgendaOnly (s u : State) : Prop := u = { s with dies := u.dies, agenda := u.agenda }

theorem State.DiesAndAgendaOnly.refl (s : State) : s.DiesAndAgendaOnly s := rfl

theorem State.DiesAndAgendaOnly.trans {s t u : State} (h : s.DiesAndAgendaOnly t) (k : t.DiesAndAgendaOnly u) : s.DiesAndAgendaOnly u :=
  Eq.trans k (by rw [show t = _ from h])

theorem State.DiesAndAgendaOnly.foldl {α : Type} {f : State → α → State} (step : ∀ (s : State) (x : α), s.DiesAndAgendaOnly (f s x))
    (l : List α) (s : State) : s.DiesAndAgendaOnly (l.foldl f s) := foldl_related (R := State.DiesAndAgendaOnly) .refl .trans step l s

theorem State.DiesAndAgendaOnly.eq {s u : State} (h : s.DiesAndAgendaOnly u) : u = { s with dies := u.dies, agenda := u.agenda } := h
theorem State.DiesAndAgendaOnly.dram {s u : State} (h : s.DiesAndAgendaOnly u) : u.dram = s.dram := by rw [h.eq]
theorem State.DiesAndAgendaOnly.mgmt {s u : State} (h : s.DiesAndAgendaOnly u) : u.mgmt = s.mgmt := by rw [h.eq]
theorem State.DiesAndAgendaOnly.bx {s u : State} (h : s.DiesAndAgendaOnly u) : u.bx = s.bx := by rw [h.eq]

theorem State.bindQueues_diesAndAgendaOnly (s : State) (d : Nat) : s.DiesAndAgendaOnly (s.bindQueues d) := by
  unfold State.bindQueues
  dsimp only
  split <;> rfl

theorem State.seek_diesAndAgendaOnly (s : State) (d : Nat) : s.DiesAndAgendaOnly (s.seek d) := by
  unfold State.seek
  dsimp only
  repeat' split
  all_goals rfl

theorem State.sched_diesAndAgendaOnly (s : State) (due ph : Nat) (ev : Instr) : s.DiesAndAgendaOnly (s.sched due ph ev) := rfl
theorem State.schedInp_diesAndAgendaOnly (s : State) (due ph : Nat) (ev : Instr) (i : Input) :
    s.DiesAndAgendaOnly (s.schedInp due ph ev i) := rfl
theorem State.unsched_diesAndAgendaOnly (s : State) (p : Instr → Bool) : s.DiesAndAgendaOnly (s.unsched p) := rfl
theorem State.modDie_diesAndAgendaOnly (s : State) (d : Nat) (f : Die → Die) : s.DiesAndAgendaOnly (s.modDie d f) := rfl

/-- The dispatchers' new look books nothing yet: it binds queues and places events. -/
theorem State.kick_diesAndAgendaOnly (s : State) : s.DiesAndAgendaOnly s.kick := by
  have queues := State.DiesAndAgendaOnly.foldl State.bindQueues_diesAndAgendaOnly (List.range 8) s
  have idle := State.DiesAndAgendaOnly.foldl State.seek_diesAndAgendaOnly (List.range 8) ((List.range 8).foldl State.bindQueues s)
  have looked := (queues.trans idle).trans (State.unsched_diesAndAgendaOnly _ isPlacement)
  unfold State.kick State.seekAll
  dsimp only
  generalize (List.foldl State.seek (List.foldl State.bindQueues s (List.range 8)) (List.range 8)).unsched isPlacement = t at looked ⊢
  refine looked.trans ?_
  refine State.DiesAndAgendaOnly.trans ?_ (State.DiesAndAgendaOnly.foldl (fun t _ => t.sched_diesAndAgendaOnly _ _ _) _ _)
  split
  · exact t.sched_diesAndAgendaOnly _ _ _
  · exact .refl t

theorem State.installTest_diesAndAgendaOnly (s : State) (p : TestPkg) : s.DiesAndAgendaOnly (s.installTest p) :=
  .foldl (fun s d => (s.modDie_diesAndAgendaOnly d _).trans (.foldl (fun s _ => s.schedInp_diesAndAgendaOnly _ _ _ _) _ _)) _ _

/-- Only what a write of the device and its report to the host touch differs. -/
def State.ReportOnly (s u : State) : Prop :=
  u = { s with dies := u.dies, dram := u.dram, saveAreas := u.saveAreas, unitSeq := u.unitSeq, migrations := u.migrations,
               nextId := u.nextId, retries := u.retries, agenda := u.agenda, host := u.host }

theorem State.ReportOnly.refl (s : State) : s.ReportOnly s := rfl

theorem State.ReportOnly.trans {s t u : State} (h : s.ReportOnly t) (k : t.ReportOnly u) : s.ReportOnly u :=
  Eq.trans k (by rw [show t = _ from h])

theorem State.ReportOnly.eq {s u : State} (h : s.ReportOnly u) :
    u = { s with dies := u.dies, dram := u.dram, saveAreas := u.saveAreas, unitSeq := u.unitSeq, migrations := u.migrations,
                 nextId := u.nextId, retries := u.retries, agenda := u.agenda, host := u.host } := h
theorem State.ReportOnly.bx {s u : State} (h : s.ReportOnly u) : u.bx = s.bx := by rw [h.eq]
theorem State.ReportOnly.mgmt {s u : State} (h : s.ReportOnly u) : u.mgmt = s.mgmt := by rw [h.eq]

theorem State.BytesOnly.reportOnly {s u : State} (h : s.BytesOnly u) : s.ReportOnly u := by
  rw [h.1]; rfl

theorem State.applyWrite_reportOnly (s : State) (pa : Nat) (bs : List Byte) (st : Stamp) : s.ReportOnly (s.applyWrite pa bs st) := by
  unfold State.applyWrite
  dsimp only
  split
  · rfl
  · refine .trans (.trans ?_ (State.dramPutAll_bytesOnly _ _ bs).reportOnly) (State.unpoison_bytesOnly _ _ _).reportOnly
    split <;> rfl

theorem State.deviceWrite_reportOnly (s : State) (pa : Nat) (bs : List Byte) : s.ReportOnly (s.deviceWrite pa bs) := by
  have stamped : s.ReportOnly (s.unitStamp 11 0 s.lead).2 := rfl
  unfold State.deviceWrite
  dsimp only
  split
  · exact stamped.trans rfl
  · exact stamped.trans (State.applyWrite_reportOnly _ pa bs _)

theorem State.raiseVector_reportOnly (s : State) (v : Nat) : s.ReportOnly (s.raiseVector v) := by
  unfold State.raiseVector
  dsimp only
  split <;> rfl

theorem State.raise_reportOnly (s : State) (k : Nat) : s.ReportOnly (s.raise k) := by
  unfold State.raise
  dsimp only
  split
  · refine .trans ?_ (State.raiseVector_reportOnly _ k)
    rfl
  · rfl

theorem State.errorEntry_reportOnly (s : State) (ctx : Nat) (e : ErrEnt) : s.ReportOnly (s.errorEntry ctx e) := by
  unfold State.errorEntry
  dsimp only
  split
  · rfl
  · split
    · exact State.deviceWrite_reportOnly ..
    · exact ((State.deviceWrite_reportOnly ..).trans (State.deviceWrite_reportOnly ..)).trans (State.raise_reportOnly ..)

/-- A SIGFAIL entry goes to the error rings and the host alone. -/
theorem State.sigFail_reportOnly (s : State) (detail : Nat) : s.ReportOnly (s.sigFail detail) :=
  foldl_related (R := State.ReportOnly) .refl .trans (fun _ _ => State.errorEntry_reportOnly ..) _ _

/-! ### Interrupts (14 R368) -/

@[simp] theorem State.raiseVector_dram (s : State) (v : Nat) : (s.raiseVector v).dram = s.dram := by unfold State.raiseVector; dsimp only; split <;> rfl
@[simp] theorem State.raiseVector_icause (s : State) (v : Nat) : (s.raiseVector v).host.icause = s.host.icause := by
  unfold State.raiseVector; dsimp only; split <;> rfl
@[simp] theorem State.raiseVector_imask (s : State) (v : Nat) : (s.raiseVector v).host.imask = s.host.imask := by
  unfold State.raiseVector; dsimp only; split <;> rfl
@[simp] theorem State.raiseVector_told (s : State) (v : Nat) : (s.raiseVector v).host.told = s.host.told := by
  unfold State.raiseVector; dsimp only; split <;> rfl
@[simp] theorem State.raiseVector_msix (s : State) (v : Nat) : (s.raiseVector v).host.msix = s.host.msix := by
  unfold State.raiseVector; dsimp only; split <;> rfl

/-- The cause k, when the mask written lets it through and it is pending and not yet told, is told. -/
def State.tellCause (v : BitVec 16) (s : State) (k : Nat) : State :=
  if v.getLsbD k && s.host.icause.getLsbD k && !s.host.told.getLsbD k then
    ({ s with host := { s.host with told := s.host.told ||| (1#16 <<< k) } } : State).raiseVector k else s

theorem State.writeMask_eq (s : State) (v : BitVec 16) :
    s.writeMask v = ((List.range 7).map (· + 1)).foldl (State.tellCause v) { s with host := { s.host with imask := v } } := rfl

/-- Cells, causes and mask stay, and nothing told is taken back. -/
def State.OnlyTells (s u : State) : Prop :=
  u.dram = s.dram ∧ u.host.icause = s.host.icause ∧ u.host.imask = s.host.imask ∧
    ∀ j, s.host.told.getLsbD j = true → u.host.told.getLsbD j = true

theorem State.OnlyTells.refl (s : State) : s.OnlyTells s := ⟨rfl, rfl, rfl, fun _ h => h⟩

theorem State.OnlyTells.trans {s t u : State} (h : s.OnlyTells t) (k : t.OnlyTells u) : s.OnlyTells u := by
  obtain ⟨hd, hc, hm, ht⟩ := h
  obtain ⟨kd, kc, km, kt⟩ := k
  exact ⟨kd.trans hd, kc.trans hc, km.trans hm, fun j hj => kt j (ht j hj)⟩

theorem State.tellCause_onlyTells (v : BitVec 16) (s : State) (k : Nat) : s.OnlyTells (s.tellCause v k) := by
  unfold State.tellCause
  split
  · refine ⟨by simp, by simp, by simp, fun j hj => ?_⟩
    simp [hj]
  · exact .refl s

theorem State.tellCause_told {v : BitVec 16} {s : State} {k : Nat} (hk : k < 16) (hv : v.getLsbD k = true)
    (hc : s.host.icause.getLsbD k = true) : (s.tellCause v k).host.told.getLsbD k = true := by
  unfold State.tellCause
  split
  · simp [hk]
  · simp_all

/-- After the causes of a list have been gone through, each of them that is pending and let through is told. -/
theorem State.tellCauses_told {v : BitVec 16} {k : Nat} (hk : k < 16) (hv : v.getLsbD k = true) {l : List Nat} (hl : k ∈ l) {s : State}
    (hc : s.host.icause.getLsbD k = true) : (l.foldl (State.tellCause v) s).host.told.getLsbD k = true := by
  induction l generalizing s with
  | nil => cases hl
  | cons x t ih =>
    obtain ⟨-, hcause, -, -⟩ := State.tellCause_onlyTells v s x
    rcases List.mem_cons.mp hl with rfl | hl
    · obtain ⟨-, -, -, told⟩ := foldl_related (R := State.OnlyTells) .refl .trans (State.tellCause_onlyTells v) t (s.tellCause v k)
      exact told k (State.tellCause_told hk hv hc)
    · exact ih hl (by rw [hcause]; exact hc)

theorem State.served_ready {s : State} (h : 5 ≤ s.mgmt.stage) (off : Nat) : s.served off = true := by simp [State.served, h]

/-- Before READY the rest of BAR0 is not served (19 R428). -/
theorem State.served_early {s : State} (h : s.mgmt.stage < 5) {off : Nat} (ho : off < 0x8000 ∨ 0x9000 ≤ off) : s.served off = false := by
  simp [State.served]; omega

/-! ### Writes of registers -/

theorem icauseWrite_ready {s : State} (h : 5 ≤ s.mgmt.stage) : ∃ u, exec .icauseWrite s = .next u ∧
    u.host.icause = s.host.icause &&& ~~~(s.inp.val.setWidth 16) ∧ u.host.imask = s.host.imask ∧ u.dram = s.dram :=
  ⟨s.clearCauses (s.inp.val.setWidth 16), by simp only [exec, execIcauseWrite, State.served_ready h, if_true], rfl, rfl, rfl⟩

theorem imaskWrite_ready {s : State} (h : 5 ≤ s.mgmt.stage) : ∃ u, exec .imaskWrite s = .next u ∧
    u.host.imask = s.inp.val.setWidth 16 ∧ u.host.icause = s.host.icause ∧ u.dram = s.dram ∧
    ∀ k, 1 ≤ k → k ≤ 7 → s.inp.val.getLsbD k = true → s.host.icause.getLsbD k = true → u.host.told.getLsbD k = true := by
  refine ⟨s.writeMask (s.inp.val.setWidth 16), by simp only [exec, execImaskWrite, State.served_ready h, if_true], ?_⟩
  rw [State.writeMask_eq]
  obtain ⟨hd, hc, hm, -⟩ := foldl_related (R := State.OnlyTells) .refl .trans (State.tellCause_onlyTells (s.inp.val.setWidth 16))
    ((List.range 7).map (· + 1)) { s with host := { s.host with imask := s.inp.val.setWidth 16 } }
  refine ⟨hm, hc, hd, fun k h1 h7 hv hk => ?_⟩
  refine State.tellCauses_told (by omega) ?_ (List.mem_map.mpr ⟨k - 1, List.mem_range.mpr (by omega), by omega⟩) hk
  rw [BitVec.getLsbD_setWidth, hv, decide_eq_true (by omega : k < 16)]
  rfl

/-- A write of a register of BAR0, once bring-up has not failed. -/
theorem registerWrite_eq {s : State} (hm : s.inp.mark = false) (hf : s.mgmt.fail = false) :
    exec .registerWrite s = .next (s.writeRegister (s.inp.addr.toNat % 65536) s.inp.bytes.length s.inp.val) := by
  simp [exec, execRegisterWrite, hm, hf]

/-- A write that the register ignores changes nothing, nor does one after a failed bring-up. -/
theorem registerWrite_ignored {s : State} (hm : s.inp.mark = false)
    (h : s.writeRegister (s.inp.addr.toNat % 65536) s.inp.bytes.length s.inp.val = s) : exec .registerWrite s = .next s := by
  simp [exec, execRegisterWrite, hm, h]

theorem State.writeRegister_status {s : State} (h : 5 ≤ s.mgmt.stage) {off : Nat} (ho : off = 0x10) (n : Nat) (v : Word) :
    s.writeRegister off n v = { s with host := { s.host with drop := s.host.drop && !v.getLsbD 0, lrej := s.host.lrej && !v.getLsbD 3 } } := by
  rw [State.writeRegister, if_neg (by rw [State.served_ready h]; decide), if_pos ho]

theorem State.sendPending_dram (s : State) (v : Nat) : (s.sendPending v).dram = s.dram := by
  unfold State.sendPending; split <;> simp

theorem State.sendPending_msix (s : State) (v : Nat) : (s.sendPending v).host.msix = s.host.msix := by
  unfold State.sendPending; split <;> simp

/-- The MSI-X table with a word written holds it, whatever pending vector is then sent. -/
theorem State.sendPending_written (s : State) (k j : Nat) (w : Word) :
    let u := ({ s with host := { s.host with msix := SMap.put 0 s.host.msix k w } } : State).sendPending j
    SMap.get 0 u.host.msix k = w ∧ u.dram = s.dram := by
  intro u
  exact ⟨by rw [State.sendPending_msix]; exact SMap.get_put .., State.sendPending_dram ..⟩

theorem msixWord_whole (old v : Word) (off : Nat) : msixWord old v off 8 = v := if_pos (by decide)

/-- A word of the MSI-X table takes a write of 8 bytes whole. -/
theorem State.writeRegister_msix {s : State} (h : 5 ≤ s.mgmt.stage) {off : Nat} (h0 : 0x1000 ≤ off) (h1 : off < 0x1400) (v : Word) :
    s.writeRegister off 8 v =
      ({ s with host := { s.host with msix := SMap.put 0 s.host.msix ((off - 0x1000) / 8) v } } : State).sendPending ((off - 0x1000) / 8 / 2) := by
  rw [State.writeRegister, if_neg (by rw [State.served_ready h]; decide), if_neg (by omega), if_pos ⟨h0, h1⟩]
  dsimp only
  rw [msixWord_whole]

theorem State.writeRegister_unserved {s : State} {off : Nat} (h : s.served off = false) (n : Nat) (v : Word) : s.writeRegister off n v = s := by
  simp [State.writeRegister, h]

theorem State.writeRegister_unlisted (s : State) {off : Nat} (h0 : off ≠ 0x10) (h1 : off < 0x1000 ∨ 0x1400 ≤ off) (h2 : off ≠ 0x8080)
    (n : Nat) (v : Word) : s.writeRegister off n v = s := by
  by_cases hs : s.served off = false
  · exact State.writeRegister_unserved hs n v
  · rw [State.writeRegister, if_neg hs, if_neg h0, if_neg (by omega), if_neg h2]

/-- RETRIES of the link named is cleared where a 1 is written; the rest of LKSTAT ignores the write. -/
theorem lkstatWrite {s : State} (hm : s.inp.mark = true) (hf : s.mgmt.fail = false) : ∃ u, exec .registerWrite s = .next u ∧ u.dram = s.dram ∧
    u.link s.inp.link = { s.link s.inp.link with retries := (u.link s.inp.link).retries } ∧
    ∀ j, j < 32 → (u.link s.inp.link).retries.testBit j = ((s.link s.inp.link).retries.testBit j && !s.inp.val.getLsbD (32 + j)) := by
  have hl : (s.writeLkstat s.inp.link s.inp.val).link s.inp.link = { s.link s.inp.link with
      retries := (BitVec.ofNat 32 (s.link s.inp.link).retries &&& ~~~(s.inp.val.extractLsb' 32 32)).toNat } := SMap.get_ins ..
  refine ⟨s.writeLkstat s.inp.link s.inp.val, by simp [exec, execRegisterWrite, hm, hf], rfl, by rw [hl], fun j hj => ?_⟩
  rw [hl, BitVec.testBit_toNat, BitVec.getLsbD_and, BitVec.getLsbD_not, BitVec.getLsbD_ofNat, BitVec.getLsbD_extractLsb']
  simp only [hj, decide_true, Bool.true_and]

/-- PCAP takes the power that is chosen for what the host writes. -/
theorem pcapWrite_next {s : State} (hf : s.mgmt.fail = false) : ∃ u, exec .pcapWrite s = .next u ∧ u.dram = s.dram ∧
    u.mgmt.pcap = if s.inp.val.toNat % 65536 < 1000 then 1000 + Config.freeChoice s.freeCtr % 3801
      else Nat.min (s.inp.val.toNat % 65536) 4800 := by
  refine ⟨s.writePcap (s.inp.val.toNat % 65536), by simp [exec, execPcapWrite, hf], ?_⟩
  unfold State.writePcap
  by_cases hw : s.inp.val.toNat % 65536 < 1000
  · simp only [if_pos hw]
    rw [(State.kick_diesAndAgendaOnly _).dram, (State.kick_diesAndAgendaOnly _).mgmt]
    exact ⟨rfl, rfl⟩
  · simp only [if_neg hw]
    rw [(State.kick_diesAndAgendaOnly _).dram, (State.kick_diesAndAgendaOnly _).mgmt]
    exact ⟨rfl, rfl⟩

/-! ### Reads of BAR0 (19 R434; 00 R7, R8) -/

/-- The n low bytes of a value, each by its own division. -/
theorem map_range_bytes (n w : Nat) : ((List.range n).map fun i => BitVec.ofNat 8 (w / 256 ^ i)) = leBytes n w := by
  induction n generalizing w with
  | zero => rfl
  | succ n ih =>
    rw [List.range_succ_eq_map, List.map_cons, List.map_map, leBytes, ← ih]
    simp [Function.comp_def, Nat.pow_succ', Nat.div_div_eq_div_mul]

/-- A read within the aligned 8 bytes at a served offset gives the low bytes of the word there. -/
theorem State.hostRead_aligned {s : State} (hl : (s.die 0).lost = false) {off n : Nat} (hs : s.served off = true) (ha : off % 8 = 0)
    (hn : n ≤ 8) : s.hostRead false off n = some (leBytes n (s.barWord off)) := by
  have bytes : ((List.range n).map fun i => BitVec.ofNat 8 (s.barWord ((off + i) / 8 * 8) / 256 ^ ((off + i) % 8))) =
      leBytes n (s.barWord off) := by
    rw [← map_range_bytes]
    refine List.map_congr_left fun i hi => ?_
    have := List.mem_range.mp hi
    rw [show (off + i) / 8 * 8 = off by omega, show (off + i) % 8 = i by omega]
  simp [State.hostRead, hl, hs, bytes]

theorem State.hostRead_unserved {s : State} {off : Nat} (h : s.served off = false) (n : Nat) : s.hostRead false off n = none := by
  simp [State.hostRead, h]

/-- A register that takes only writes, or an offset with none, reads as 0. -/
theorem State.barWord_writeOnly (s : State) {o : Nat} (h : o = 0x0000 ∨ o = 0x8010 ∨ o = 0x8800 ∨ o = 0x8808) : s.barWord o = 0 := by
  rcases h with rfl | rfl | rfl | rfl <;> simp [State.barWord]

/-! ### Writes and reads through BAR2/3 (14 R365) -/

/-- A write through BAR2/3 stands at its place in the package's memory. -/
theorem State.hostWrite_stored {s : State} (h : Rules.PlainDram s) (off : Nat) (bs : List Byte) :
    Rules.Stored s (s.hostWrite off bs) (2 ^ 39 * s.pkg + off % 2 ^ 39) bs := by
  have plain := h.unitStamp 14 0 s.lead
  have e : s.hostWrite off bs = (s.unitStamp 14 0 s.lead).2.applyWrite (2 ^ 39 * s.pkg + off % 2 ^ 39) bs (s.unitStamp 14 0 s.lead).1 := by
    simp only [State.hostWrite, State.dramWrite, plain.rootGroup, State.writeOne, plain.logFull]
    rfl
  rw [e]
  exact plain.applyWrite_stored _ bs _

/-! ### Signed objects (17 R408, R409) -/

/-- A stored minimum rises to the SVN accepted, and never falls. -/
theorem State.raiseSvn_minSvn (s : State) (kind svn : Nat) :
    SMap.get 0 (s.raiseSvn kind svn).bx.minSvn kind = Nat.max svn (SMap.get 0 s.bx.minSvn kind) := SMap.get_ins ..

theorem State.fwStage_rejected {s : State} {pa e : Nat} (h : s.readObject pa = .error e) : s.fwStage pa = s.sigFail e := by
  rw [State.fwStage, h]

/-- Firmware that verifies is staged with its SVN and digest. -/
theorem State.fwStage_firmware {s : State} {pa : Nat} {o : SignedObj} (h : s.readObject pa = .ok o) (hk : o.kind ≤ 1) :
    SMap.get? (s.fwStage pa).bx.staged o.kind = some (o.svn, Sha.digest o.signed) ∧ (s.fwStage pa).dram = s.dram := by
  have e : s.fwStage pa = { s with bx := { s.bx with staged := SMap.ins s.bx.staged o.kind o.measure } } := by
    simp only [State.fwStage, h, if_pos hk]
  rw [e]
  exact ⟨SMap.get?_ins .., rfl⟩

/-- A decode-table image or test package that verifies raises its minimum; a well-formed test package is also installed. -/
theorem State.fwStage_minimum {s : State} {pa : Nat} {o : SignedObj} (h : s.readObject pa = .ok o) (hk : o.kind = 2 ∨ o.kind = 3) :
    SMap.get 0 (s.fwStage pa).bx.minSvn o.kind = Nat.max o.svn (SMap.get 0 s.bx.minSvn o.kind) ∧ (s.fwStage pa).dram = s.dram := by
  rcases hk with hk | hk
  · simp only [State.fwStage, h, if_neg (show ¬ o.kind ≤ 1 by omega), if_pos hk]
    rw [hk]
    exact ⟨s.raiseSvn_minSvn 2 o.svn, rfl⟩
  · have raised := s.raiseSvn_minSvn 3 o.svn
    simp only [State.fwStage, h, if_neg (show ¬ o.kind ≤ 1 by omega), if_neg (show ¬ o.kind = 2 by omega)]
    rw [hk]
    cases readTestPkg o.body with
    | none => exact ⟨raised, rfl⟩
    | some p =>
      have frame := State.installTest_diesAndAgendaOnly
        { s.raiseSvn 3 o.svn with bx := { (s.raiseSvn 3 o.svn).bx with meas := SMap.ins (s.raiseSvn 3 o.svn).bx.meas 3 o.measure } } p
      exact ⟨by rw [frame.bx]; exact raised, by rw [frame.dram]; rfl⟩

/-! ### Attestation (17 R410, R411) -/

@[simp] theorem leBytes_length (n v : Nat) : (leBytes n v).length = n := by
  induction n generalizing v with
  | zero => rfl
  | succ n ih => rw [leBytes, List.length_cons, ih]

@[simp] theorem fit_length (n : Nat) (bs : List Byte) : (fit n bs).length = n := by simp [fit]

theorem fit_of_length {n : Nat} {bs : List Byte} (h : bs.length = n) : fit n bs = bs := by rw [fit, List.take_left' h]

@[simp] theorem State.paBytes_length (s : State) (pa n : Nat) : (s.paBytes pa n).length = n := by simp [State.paBytes]

/-- The report of an attestation, with its two signatures. -/
def State.attestReport (s : State) (pa : Nat) : List Byte :=
  s.reportBytes (s.paBytes pa 32) ++
    fit 64 (Config.edSign (fit 48 (SMap.get (0, []) s.bx.meas 1).2) (s.reportBytes (s.paBytes pa 32))) ++
    fit 3309 (Config.mlSign (fit 48 (SMap.get (0, []) s.bx.meas 1).2) (s.reportBytes (s.paBytes pa 32)))

theorem State.attest_eq (s : State) (pa : Nat) : s.attest pa = s.deviceWrites (pa + 64) 88 (s.attestReport pa) := rfl

theorem State.attestReport_length (s : State) (pa : Nat) : (s.attestReport pa).length = 5613 := by
  simp [State.attestReport, State.reportBytes]

/-- A report begins with its magic number, the nonce and STC. -/
theorem State.attestReport_head (s : State) (pa : Nat) :
    ∃ rest, s.attestReport pa = leBytes 8 0x54414556 ++ (s.paBytes pa 32 ++ (leBytes 8 s.stc ++ rest)) := by
  simp only [State.attestReport, State.reportBytes, List.append_assoc, fit_of_length (s.paBytes_length pa 32)]
  exact ⟨_, rfl⟩

theorem State.attestReport_fields (s : State) (pa : Nat) : (s.attestReport pa).take 8 = leBytes 8 0x54414556 ∧
    ((s.attestReport pa).drop 8).take 32 = s.paBytes pa 32 ∧ ((s.attestReport pa).drop 40).take 8 = leBytes 8 s.stc := by
  obtain ⟨rest, e⟩ := s.attestReport_head pa
  have d8 : (s.attestReport pa).drop 8 = s.paBytes pa 32 ++ (leBytes 8 s.stc ++ rest) := by rw [e, List.drop_left' (leBytes_length 8 _)]
  refine ⟨by rw [e, List.take_left' (leBytes_length 8 _)], by rw [d8, List.take_left' (s.paBytes_length pa 32)], ?_⟩
  rw [show 40 = 8 + 32 from rfl, ← List.drop_drop, d8, List.drop_left' (s.paBytes_length pa 32), List.take_left' (leBytes_length 8 _)]

/-! ### The clauses of the host's accesses -/

theorem registerWrite_status {s : State} (h : 5 ≤ s.mgmt.stage) (hm : s.inp.mark = false) (hf : s.mgmt.fail = false)
    (ho : s.inp.addr.toNat % 65536 = 0x10) : ∃ u, exec .registerWrite s = .next u ∧ u.host.drop = (s.host.drop && !s.inp.val.getLsbD 0) ∧
      u.host.lrej = (s.host.lrej && !s.inp.val.getLsbD 3) ∧ u.dram = s.dram := by
  rw [registerWrite_eq hm hf, State.writeRegister_status h ho]
  exact ⟨_, rfl, rfl, rfl, rfl⟩

theorem registerWrite_msix {s : State} (h : 5 ≤ s.mgmt.stage) (hm : s.inp.mark = false) (hf : s.mgmt.fail = false)
    (h0 : 0x1000 ≤ s.inp.addr.toNat % 65536) (h1 : s.inp.addr.toNat % 65536 < 0x1400) (hb : s.inp.bytes.length = 8) :
    ∃ u, exec .registerWrite s = .next u ∧ SMap.get 0 u.host.msix ((s.inp.addr.toNat % 65536 - 0x1000) / 8) = s.inp.val ∧ u.dram = s.dram := by
  rw [registerWrite_eq hm hf, hb, State.writeRegister_msix h h0 h1]
  generalize (s.inp.addr.toNat % 65536 - 0x1000) / 8 = k
  exact ⟨_, rfl, State.sendPending_written s k (k / 2) s.inp.val⟩

theorem interruptWrites_early {s : State} (h : s.mgmt.stage < 5) :
    exec .icauseWrite s = .next s ∧ exec .imaskWrite s = .next s := by
  have h18 : s.served 0x18 = false := State.served_early h (by decide)
  have h20 : s.served 0x20 = false := State.served_early h (by decide)
  simp [exec, execIcauseWrite, execImaskWrite, h18, h20]

theorem managementWrites_failed {s : State} (h : s.mgmt.fail = true) : exec .registerWrite s = .next s ∧ exec .pcapWrite s = .next s := by
  simp [exec, execRegisterWrite, execPcapWrite, h]

theorem pcapWrite_legal {s : State} (hw : 1000 ≤ s.inp.val.toNat % 65536) (hf : s.mgmt.fail = false) :
    ∃ u, exec .pcapWrite s = .next u ∧ u.mgmt.pcap = Nat.min (s.inp.val.toNat % 65536) 4800 ∧ u.dram = s.dram := by
  obtain ⟨u, hu, hd, hp⟩ := pcapWrite_next hf
  exact ⟨u, hu, by rw [hp, if_neg (by omega)], hd⟩

theorem pcapWrite_low {s : State} (hw : s.inp.val.toNat % 65536 < 1000) (hf : s.mgmt.fail = false) :
    ∃ u, exec .pcapWrite s = .next u ∧ 1000 ≤ u.mgmt.pcap ∧ u.mgmt.pcap ≤ 4800 ∧ u.dram = s.dram := by
  obtain ⟨u, hu, hd, hp⟩ := pcapWrite_next hf
  rw [if_pos hw] at hp
  exact ⟨u, hu, by omega, by omega, hd⟩

/-- A read of MID, of what takes only writes, and of what is not served yet. -/
theorem hostRead_fixed {s : State} (hl : (s.die 0).lost = false) :
    s.hostRead false 0x8000 4 = some (leBytes 4 (1 + 16 * (s.pkg % 16) + 256 * (255 - s.lostMask % 256) + 65536 * 0x0058)) ∧
    (5 ≤ s.mgmt.stage → ∀ o, o = 0x0000 ∨ o = 0x8010 ∨ o = 0x8800 ∨ o = 0x8808 → s.hostRead false o 8 = some (leBytes 8 0)) ∧
    (s.mgmt.stage < 5 → (∀ o, o < 0x8000 ∨ 0x9000 ≤ o → s.hostRead false o 8 = none) ∧ ∀ o n, s.hostMemoryRead o n = none) := by
  refine ⟨?_, fun h o ho => ?_, fun h => ⟨fun o ho => State.hostRead_unserved (State.served_early h ho) 8, fun o n => if_pos h⟩⟩
  · exact State.hostRead_aligned hl (off := 0x8000) (by simp [State.served]) (by decide) (by decide)
  · rw [State.hostRead_aligned hl (State.served_ready h o) (by omega) (Nat.le_refl 8), State.barWord_writeOnly s ho]

theorem hostMemoryRead_marksOut {s : State} (h : 5 ≤ s.mgmt.stage) (hm : s.inp.mark = true) : ∃ u, exec .hostMemoryWrite s = .next u ∧
    u.dram = s.dram ∧ ∀ e ∈ s.dir, s.inp.frame = some e.name → { e with xout := true } ∈ u.dir := by
  refine ⟨s.readOut s.inp, by simp [exec, execHostMemoryWrite, hm, Nat.not_lt.mpr h], rfl, fun e he hn => ?_⟩
  exact List.mem_map.mpr ⟨e, he, if_pos hn⟩

theorem hostMemoryWrite_stored {s : State} (h : 5 ≤ s.mgmt.stage) (hm : s.inp.mark = false) (hp : Rules.PlainDram s) :
    ∃ u, exec .hostMemoryWrite s = .next u ∧ Rules.Stored s u (2 ^ 39 * s.pkg + s.inp.addr.toNat % 2 ^ 39) s.inp.bytes :=
  ⟨_, by simp only [exec, execHostMemoryWrite, hm, if_neg (Nat.not_lt.mpr h)]; rfl, State.hostWrite_stored hp _ _⟩

/-- An object that does not verify leaves Boxwood's store and the management registers. -/
theorem fwstage_rejected {s : State} {e : Nat} (h : s.readObject (s.inp.addr.toNat % 2 ^ 43) = .error e) :
    ∃ u, exec .fwstage s = .next u ∧ u.bx = s.bx ∧ u.mgmt = s.mgmt := by
  have frame := s.sigFail_reportOnly e
  rw [← State.fwStage_rejected h] at frame
  exact ⟨_, rfl, frame.bx, frame.mgmt⟩

/-- The identity that signs a report exists from stage 1 on, until a failure or an erasure. -/
theorem attreq_withoutIdentity {s : State} (h : s.mgmt.stage = 0 ∨ s.mgmt.fail = true ∨ s.bx.hold = true) : exec .attreq s = .next s :=
  congrArg Host.Outcome.next (if_pos h)

theorem attreq_report {s : State} (h0 : s.mgmt.stage ≠ 0) (hf : s.mgmt.fail = false) (hh : s.bx.hold = false) (hr : s.retries = [])
    (hp : Rules.PlainDram s) : exec .attreq s = .next (s.attest (s.inp.addr.toNat % 2 ^ 43)) ∧
      Rules.Stored s (s.attest (s.inp.addr.toNat % 2 ^ 43)) (s.inp.addr.toNat % 2 ^ 43 + 64) (s.attestReport (s.inp.addr.toNat % 2 ^ 43)) := by
  refine ⟨by simp [exec, execAttreq, h0, hf, hh], ?_⟩
  rw [State.attest_eq]
  exact hp.deviceWrites_stored hr _ (by rw [State.attestReport_length]; decide)

/-- Settles O57: the accesses of the host, then the signed objects, then the attestation, each clause by its lemma. -/
theorem hostRegistersAndManagement : Obligations.HostRegistersAndManagement := by
  unfold Obligations.HostRegistersAndManagement
  refine ⟨fun s => ⟨fun h => ⟨icauseWrite_ready h, imaskWrite_ready h, registerWrite_status h, registerWrite_msix h⟩,
    fun h => ⟨(interruptWrites_early h).1, (interruptWrites_early h).2, fun hm ho =>
      registerWrite_ignored hm (State.writeRegister_unserved (State.served_early h ho) _ _)⟩,
    fun hm h0 h1 h2 => registerWrite_ignored hm (State.writeRegister_unlisted s h0 h1 h2 _ _), managementWrites_failed, lkstatWrite,
    hostRead_fixed, pcapWrite_legal, pcapWrite_low, fun h => congrArg Host.Outcome.next (if_pos h), hostMemoryRead_marksOut, hostMemoryWrite_stored⟩,
    fun s => ⟨fun e => fwstage_rejected, fun o ho => ⟨fun hk => ⟨_, rfl, State.fwStage_firmware ho hk⟩, fun hk => ⟨_, rfl, State.fwStage_minimum ho hk⟩⟩⟩,
    fun s => ⟨attreq_withoutIdentity, fun h0 hf hh hr hp => ?_⟩⟩
  obtain ⟨next, stored⟩ := attreq_report h0 hf hh hr hp
  obtain ⟨magic, nonce, time⟩ := s.attestReport_fields (s.inp.addr.toNat % 2 ^ 43)
  exact ⟨_, _, next, s.attestReport_length _, magic, nonce, time, stored⟩

end Sys2Proof.Machine

/-! SUPPORT. What a cold reset leaves (02 R60). -/

namespace Sys2Proof.Machine

-- one after another: every waiting worker thread counts towards the check's memory limit
set_option Elab.async false

theorem State.reset_core (n : Nat) : State.reset.core n = {} := rfl

theorem Core.default_seq (q : Seq) : ({} : Core).seq q = {} := by cases q <;> rfl

theorem State.reset_seq (n : Nat) (q : Seq) : (State.reset.core n).seq q = {} := by rw [State.reset_core, Core.default_seq]

/-- The reset value of a compact predicate, field by field (02 Table 2.3). -/
theorem predReset_fields : predCount predReset = 0 ∧ predWidth predReset = 2 ∧ predGroup predReset = 1 := by decide

/-- Settles O7: sequencers first, then the vector state, the system registers, the engines' stores and the tables of the package. -/
theorem resetState : Obligations.ResetState := by
  unfold Obligations.ResetState
  refine ⟨fun n q r => ?_, fun n q k => ?_, fun n q => ?_, fun _ _ => rfl, fun _ => rfl, fun _ _ => predReset_fields, fun _ => ?_,
    fun _ _ => rfl, fun _ _ => ⟨rfl, rfl⟩, fun _ => ⟨rfl, rfl⟩, fun _ _ => rfl, rfl, rfl, rfl, rfl, rfl⟩
  · rw [State.reset_seq]; rfl
  · rw [State.reset_seq]; rfl
  · rw [State.reset_seq]; exact ⟨rfl, rfl, rfl, rfl, rfl⟩
  · exact ⟨rfl, rfl, rfl, rfl, rfl, rfl, rfl, rfl, rfl⟩

end Sys2Proof.Machine

/-! SUPPORT. Fences and token words (02 R51 to R53; 08 R218, R229). -/

namespace Sys2Proof.Machine

-- one after another: every waiting worker thread counts towards the check's memory limit
set_option Elab.async false

/-! ### The token FIFOs -/

@[simp] theorem QueueSt.setTok_tok (x : QueueSt) (f : Nat) (k : TokFifo) : (x.setTok f k).tok f = k := SMap.get_ins ..
theorem QueueSt.setTok_tok_ne (x : QueueSt) {f h : Nat} (k : TokFifo) (e : h ≠ f) : (x.setTok f k).tok h = x.tok h :=
  SMap.get_ins_ne _ _ _ _ _ e

/-- FIFO f of the second set of queues counts m, and every other FIFO is that of the first. -/
def QueueSt.TokOnly (x y : QueueSt) (f m : Nat) : Prop := (y.tok f).count = m ∧ ∀ h, h ≠ f → y.tok h = x.tok h

theorem Core.popTok_tokOnly (c : Core) (f now n : Nat) : c.q.TokOnly (c.popTok f now n).q f ((c.q.tok f).count - n) :=
  ⟨by simp [Core.popTok, TokFifo.pop], fun _ h => QueueSt.setTok_tok_ne _ _ h⟩

theorem Core.pushTok_tokOnly (c : Core) (f now n : Nat) : c.q.TokOnly (c.pushTok f now n).q f ((c.q.tok f).count + n) :=
  ⟨by simp [Core.pushTok, TokFifo.push], fun _ h => QueueSt.setTok_tok_ne _ _ h⟩

theorem pushList_none (q : Seq) : pushList q 0#2 = [] := rfl

/-! ### The end of an issue -/

theorem State.Begins.full {s t : State} {k : Kind} (h : s.Begins k t) {body : State → Res} (hb : body t = .full) :
    s.issue k body = s.settled.block .ovf := by
  rw [h.issue, hb]; rfl

/-- The end of an issue leaves what the core has under way. -/
theorem State.finishIssue_underWay (t : State) (k : Kind) (n : Nat) (r : Option (Option (BitVec 14))) (d : BitVec 14) :
    let u := t.finishIssue k n r d
    u.cur.cmds = t.cur.cmds ∧ u.cur.tsk = t.cur.tsk ∧ u.cur.spm = t.cur.spm ∧ u.cur.pend = t.cur.pend := by
  obtain ⟨x, b, win, sk, h, -⟩ := State.finishIssue_any t k n r d
  simp [h]

/-- A word without PUSH leaves the queues at the end of its issue. -/
theorem State.finishIssue_q {t : State} (h : t.turn.hdr.push = 0#2) (k : Kind) (n : Nat) (r : Option (Option (BitVec 14))) (d : BitVec 14) :
    (t.finishIssue k n r d).cur.q = t.cur.q := by
  have hs (c : Core) : (stepSkip n t.turn.q c).q = c.q := by unfold stepSkip; split <;> rfl
  rw [State.finishIssue, State.modCur_cur, h, pushList_none]
  simp only [pushTokens, ite_self, Core.modSeq_q, hs]
  split <;> rfl

/-- A word without PUSH whose effect is a change of its core's queues: it issues, and the queues are as the effect left them. -/
theorem State.Begins.issue_queues {s t : State} (h : s.Begins {} t) (hp : s.turn.hdr.push = 0#2) {g : Core → Core}
    (hg : (g t.cur).seq s.turn.q = t.cur.seq s.turn.q) {body : State → Res} (hb : body t = .done (t.modCur g)) :
    s.Issued (s.issue {} body) ∧ (s.issue {} body).cur.q = (g t.cur).q := by
  have stands : (t.modCur g).curSeq = t.curSeq := by
    rw [State.curSeq, State.modCur_cur, State.modCur_turn, h.turn, hg, State.curSeq, h.turn]
  rw [h.done hb]
  refine ⟨h.issued (congrArg _ stands) rfl rfl _ _ _ _, ?_⟩
  rw [State.finishIssue_q (by rw [State.modCur_turn, h.turn, hp]), State.modCur_cur]

/-! ### Fences (08 R218) -/

/-- A fence that waits for nothing issues and changes nothing else. -/
theorem fence_issues {s t : State} {o : Ordr} (h : s.Begins {} t) (ho : o.scope = 0#3 ∨ t.cur.fenced s.turn.q o.ord = false) :
    ∃ u, exec (.fence o) s = .next u ∧ s.Issued u ∧ u.dram = s.dram ∧ u.cur.cmds = t.cur.cmds ∧ u.cur.tsk = t.cur.tsk ∧
      u.cur.spm = t.cur.spm ∧ u.cur.pend = t.cur.pend ∧ u.agenda = s.agenda := by
  have goesOn : (o.scope ≠ 0#3 && t.cur.fenced t.turn.q o.ord) = false := by
    rw [h.turn]; rcases ho with ho | ho <;> simp [ho]
  obtain ⟨cmds, tsk, spm, pend⟩ := State.finishIssue_underWay t {} s.settled.cur.vec.skip none (s.curSeq.pc + 1#14)
  refine ⟨_, congrArg Host.Outcome.next (h.done (by rw [goesOn]; rfl)), h.issued rfl rfl rfl _ _ _ _, ?_, cmds, tsk, spm, pend, ?_⟩
  · rw [State.finishIssue_dram, h.dram]
  · rw [State.finishIssue_agenda, h.agenda]

/-- A fence with a scope waits while what it orders is not performed. -/
theorem fence_waits {s t : State} {o : Ordr} (h : s.Begins {} t) (hs : o.scope ≠ 0#3) (hf : t.cur.fenced s.turn.q o.ord = true) :
    exec (.fence o) s = .next (s.settled.block .schedmiss) :=
  congrArg Host.Outcome.next (h.wait (by simp [h.turn, hs, hf]))

/-! ### Token words (08 R229) -/

/-- FIFO from which a tkwait of a sequencer takes its tokens, by DIR. -/
def popFifo (q : Seq) (dir : BitVec 2) : Nat := if dir = 1#2 then popPrev q else popNext q
/-- FIFO to which a tksig of a sequencer adds its tokens, by DIR. -/
def pushFifo (q : Seq) (dir : BitVec 2) : Nat := if dir = 1#2 then pushPrev q else pushNext q

/-- Off X, a tkwait without PUSH takes the tokens that are there. -/
theorem tkwait_takes {s t : State} {dir o : BitVec 2} {n : BitVec 6} (hq : s.turn.q ≠ .x) (h : s.Begins {} t)
    (hp : s.turn.hdr.push = 0#2) (ha : n.toNat ≤ (t.cur.q.tok (popFifo s.turn.q dir)).avail s.stc) :
    ∃ u, exec (.tkwait dir n o) s = .next u ∧ s.Issued u ∧
      t.cur.q.TokOnly u.cur.q (popFifo s.turn.q dir) ((t.cur.q.tok (popFifo s.turn.q dir)).count - n.toNat) := by
  refine ⟨_, rfl, (h.issue_queues hp (g := fun c => c.popTok (popFifo s.turn.q dir) s.stc n.toNat)
    (by cases s.turn.q <;> rfl) ?_).imp id fun queues => by rw [queues]; exact Core.popTok_tokOnly ..⟩
  simp only [h.turn, h.stc]
  rw [← popFifo, if_neg (Nat.not_lt.mpr ha)]
  generalize s.turn.q = q at hq
  cases q with
  | x => exact absurd rfl hq
  | _ => rfl

/-- Without its tokens a tkwait waits. -/
theorem tkwait_waits {s t : State} {dir o : BitVec 2} {n : BitVec 6} (h : s.Begins {} t)
    (ha : (t.cur.q.tok (popFifo s.turn.q dir)).avail s.stc < n.toNat) : exec (.tkwait dir n o) s = .next (s.settled.block .schedmiss) :=
  congrArg Host.Outcome.next (h.wait (by simp only [h.turn, h.stc]; exact if_pos ha))

/-- A release whose accesses are all performed, or a word that is none, is not held back. -/
theorem Core.released {c : Core} {q : Seq} {o : BitVec 2} (h : ordRel o = true → c.allPerformed q = true) :
    (ordRel o && !c.allPerformed q) = false := by simpa using h

/-- Off X, a tksig without PUSH whose release waits for nothing adds its tokens where 63 holds them. -/
theorem tksig_adds {s t : State} {dir o : BitVec 2} {n : BitVec 6} (hq : s.turn.q ≠ .x) (h : s.Begins {} t) (hp : s.turn.hdr.push = 0#2)
    (hr : ordRel o = true → t.cur.allPerformed s.turn.q = true)
    (hn : (t.cur.q.tok (pushFifo s.turn.q dir)).held s.stc + t.cur.heldTokens (pushFifo s.turn.q dir) + n.toNat ≤ 63) :
    ∃ u, exec (.tksig dir n o) s = .next u ∧ s.Issued u ∧
      t.cur.q.TokOnly u.cur.q (pushFifo s.turn.q dir) ((t.cur.q.tok (pushFifo s.turn.q dir)).count + n.toNat) := by
  refine ⟨_, rfl, (h.issue_queues hp (g := fun c => c.pushTok (pushFifo s.turn.q dir) s.stc n.toNat)
    (Core.pushTok_seq ..) ?_).imp id fun queues => by rw [queues]; exact Core.pushTok_tokOnly ..⟩
  simp only [h.turn, h.stc, hp, pushList_none, Core.released hr]
  rw [← pushFifo]
  simp [Nat.not_lt.mpr hn, hq]

/-- Without room for its tokens a tksig does not issue. -/
theorem tksig_full {s t : State} {dir o : BitVec 2} {n : BitVec 6} (h : s.Begins {} t) (hp : s.turn.hdr.push = 0#2)
    (hr : ordRel o = true → t.cur.allPerformed s.turn.q = true)
    (hn : 63 < (t.cur.q.tok (pushFifo s.turn.q dir)).held s.stc + t.cur.heldTokens (pushFifo s.turn.q dir) + n.toNat) :
    exec (.tksig dir n o) s = .next (s.settled.block .ovf) := by
  refine congrArg Host.Outcome.next (h.full ?_)
  simp only [h.turn, h.stc, hp, pushList_none, Core.released hr]
  rw [← pushFifo]
  simp [hn]

/-- Settles O33: the fences, then the token words, each clause by its lemma. -/
theorem fencesAndTokens : Obligations.FencesAndTokens := by
  unfold Obligations.FencesAndTokens
  refine ⟨fun s t o h => ⟨fence_issues h, fence_waits h⟩, fun s t dir n o hq h hp => ?_⟩
  exact ⟨tkwait_takes hq h hp, tkwait_waits h, tksig_adds hq h hp, tksig_full h hp⟩

end Sys2Proof.Machine

/-! SUPPORT. Taking a trap, ending a task by one, and the return from a handler (02 R58; 05 R117, R132). -/

namespace Sys2Proof.Machine

-- one after another: every waiting worker thread counts towards the check's memory limit
set_option Elab.async false

/-! ### The end of a task by an error -/

/-- The first error of a task ends it: it is recorded, every stream stops, and the end step falls due. -/
theorem State.endTask_eq {s : State} {n : Nat} (h : (s.core n).tsk.ending = none) (code : Nat) (detail : Word) (first unit : Nat) :
    s.endTask n code detail first unit =
      (s.setCore n { (s.core n).modSeqs (fun x => { x with mode := .ended }) with
        tsk := { (s.core n).tsk with ending := some (code, detail), first := BitVec.ofNat 8 first, endStc := s.stc, endUnit := unit } }).sched
        s.stc phTask (.taskEnd n) := by
  simp only [State.endTask, h]

/-- The task of core n has ended with an error record, all its streams stopped, its system registers and DRAM as they were, and its end
step due at once. -/
structure State.EndsTask (s u : State) (n code : Nat) (detail : Word) : Prop where
  ending : (u.core n).tsk.ending = some (code, detail)
  mode : ∀ q, ((u.core n).seq q).mode = .ended
  epc : ∀ q, ((u.core n).seq q).epc = ((s.core n).seq q).epc
  sys : (u.core n).sys = (s.core n).sys
  dram : u.dram = s.dram
  due : ⟨s.stc, phTask, .taskEnd n, {}, {}⟩ ∈ u.agenda

theorem State.endTask_endsTask {s : State} {n : Nat} (h : (s.core n).tsk.ending = none) (code : Nat) (detail : Word) (first unit : Nat) :
    s.EndsTask (s.endTask n code detail first unit) n code detail := by
  rw [State.endTask_eq h]
  constructor <;> simp only [State.sched_core, State.setCore_core]
  · intro q; cases q <;> rfl
  · intro q; cases q <;> rfl
  · rfl
  · rfl
  · exact (State.mem_sched ..).mpr (.inl rfl)

/-! ### Taking a trap (02 R58) -/

/-- What sr.cause receives: VALID, lane, sequencer and cause. -/
def causeWord (q : Seq) (c : Cause) (lane : Nat) : BitVec 21 := BitVec.ofNat 21 (2 ^ 20 + (2 ^ 10 * lane + (2 ^ 8 * seqNum q + causeCode c)))

theorem causeWord_valid (q : Seq) (c : Cause) {lane : Nat} (h : lane < 1024) : (causeWord q c lane).getLsbD 20 = true := by
  have hq : seqNum q ≤ 3 := by cases q <;> decide
  have hc : causeCode c ≤ 16 := by cases c <;> decide
  rw [causeWord, BitVec.getLsbD_ofNat, Nat.testBit_two_pow_add_eq, Nat.testBit_lt_two_pow (by omega)]
  rfl

/-- The sequencer of a trap with what the trap records of it: the pc, the pending redirect of 05 R132, the cycle of the word. -/
def State.trapSeq (s : State) (n : Nat) (q : Seq) (pc : BitVec 14) (own : Bool) (at_ : Nat) : SeqSt :=
  let x := (s.core n).seq q
  { x with epc := pc.setWidth 64, trapPc := pc, redirect := x.target.map fun g => (g, x.slots),
           saved := if own then at_ else x.due (wordIdle ((s.core n).fetch q x.pc)) }

/-- The core with the trap recorded in sr.epc and sr.cause. -/
def State.trapCore (s : State) (n : Nat) (q : Seq) (c : Cause) (code : BitVec 10) (lane : Nat) (pc : BitVec 14) (own : Bool) (at_ : Nat) : Core :=
  { (s.core n).setSeq q (s.trapSeq n q pc own at_) with
    sys := { (s.core n).sys with cause := causeWord q c lane, trapCode := code } }

/-- The same sequencer where its handler is enabled: it stands at HPC. -/
def State.handlerSeq (s : State) (n : Nat) (q : Seq) (pc : BitVec 14) (own : Bool) (at_ : Nat) : SeqSt :=
  { s.trapSeq n q pc own at_ with
    pc := ((s.core n).seq q).tvec.setWidth 14, slots := 0, target := none, last := s.stc, first := false, extra := 0, retry := 0, dueAt := none }

/-- The core in the handler, in a scoreboard region. -/
def State.handlerCore (s : State) (n : Nat) (q : Seq) (c : Cause) (code : BitVec 10) (lane : Nat) (pc : BitVec 14) (own : Bool) (at_ : Nat) : Core :=
  { (s.trapCore n q c code lane pc own at_).setSeq q (s.handlerSeq n q pc own at_) with
    sys := { (s.trapCore n q c code lane pc own at_).sys with
      handler := some q, trapRegion := (s.core n).sys.region, region := true, trapAt := if own then at_ else s.stc } }

theorem Core.withSys_seq (k : Core) (y : SysSt) (r : Seq) : ({ k with sys := y } : Core).seq r = k.seq r := by cases r <;> rfl

theorem State.handlerCore_seq (s : State) (n : Nat) (q : Seq) (c : Cause) (code : BitVec 10) (lane : Nat) (pc : BitVec 14) (own : Bool)
    (at_ : Nat) : (s.handlerCore n q c code lane pc own at_).seq q = s.handlerSeq n q pc own at_ := by
  rw [State.handlerCore, Core.withSys_seq, Core.setSeq_seq]

theorem State.handlerCore_seq_ne (s : State) (n : Nat) {q r : Seq} (h : r ≠ q) (c : Cause) (code : BitVec 10) (lane : Nat) (pc : BitVec 14)
    (own : Bool) (at_ : Nat) : (s.handlerCore n q c code lane pc own at_).seq r = (s.core n).seq r := by
  rw [State.handlerCore, Core.withSys_seq, Core.setSeq_seq_ne _ _ _ _ h, State.trapCore, Core.withSys_seq, Core.setSeq_seq_ne _ _ _ _ h]

/-- With VALID 1 a trap is a double trap: the task ends. -/
theorem State.takeTrap_double {s : State} {n : Nat} (h : (s.core n).sys.valid = true) (q : Seq) (c : Cause) (code : BitVec 10) (lane : Nat)
    (pc : BitVec 14) (own : Bool) (at_ : Nat) (mx : Bool) :
    s.takeTrap n q c code lane pc own at_ mx =
      s.endTask n errFault (faultDetail (causeCode .dbltrap) (seqNum q) lane (mxDetail (s.core n) mx) pc.toNat code.toNat (causeCode c) 0)
        ((s.core n).sys.cause.toNat % 256) (seqNum q) := if_pos h

/-- With the handler enabled its stream goes on at HPC, in a scoreboard region. -/
theorem State.takeTrap_handler {s : State} {n : Nat} {q : Seq} {lane : Nat} (hv : (s.core n).sys.valid = false)
    (he : ((s.core n).seq q).tvec.getLsbD 14 = true) (hl : lane < 1024) (c : Cause) (code : BitVec 10) (pc : BitVec 14) (own : Bool)
    (at_ : Nat) (mx : Bool) :
    s.takeTrap n q c code lane pc own at_ mx =
      s.setCore n (s.handlerCore n q c code lane pc own at_) := by
  simp only [State.takeTrap, hv, he, Nat.mod_eq_of_lt hl, State.handlerCore, State.handlerSeq, State.trapCore, State.trapSeq, causeWord]
  rfl

/-- With the handler disabled the task ends, its trap recorded. -/
theorem State.takeTrap_disabled {s : State} {n : Nat} {q : Seq} {lane : Nat} (hv : (s.core n).sys.valid = false)
    (he : ((s.core n).seq q).tvec.getLsbD 14 = false) (hl : lane < 1024) (c : Cause) (code : BitVec 10) (pc : BitVec 14) (own : Bool)
    (at_ : Nat) (mx : Bool) :
    s.takeTrap n q c code lane pc own at_ mx = (s.setCore n (s.trapCore n q c code lane pc own at_)).endTask n errFault
      (faultDetail (causeCode c) (seqNum q) lane (mxDetail (s.core n) mx) pc.toNat code.toNat 0 0) 0 (seqNum q) := by
  simp only [State.takeTrap, hv, he, Nat.mod_eq_of_lt hl, State.trapCore, State.trapSeq, causeWord]
  rfl

/-! ### The return from a handler (05 R117) -/

/-- Without a pending redirect a handler's return resumes at sr.epc, in no delay slot. -/
theorem SeqSt.resume_plain {x : SeqSt} (h : x.redirect = none) :
    x.resume = { x with pc := x.epc.setWidth 14, slots := 0, target := none, redirect := none, extra := 0 } := by
  simp only [SeqSt.resume, h]

theorem Core.leaveHandler_seq (c : Core) (q : Seq) (now : Nat) :
    (c.leaveHandler q now).seq q = { (c.seq q).resume with last := now, first := false, lastPc := (c.seq q).pc } := by cases q <;> rfl

theorem Core.leaveHandler_sys (c : Core) (q : Seq) (now : Nat) :
    (c.leaveHandler q now).sys = { c.sys with cause := c.sys.cause &&& 0x0FFFFF#21, region := c.sys.trapRegion, handler := none } := by
  cases q <;> rfl

/-- A handler's return clears VALID. -/
theorem Core.leaveHandler_valid (c : Core) (q : Seq) (now : Nat) : (c.leaveHandler q now).sys.valid = false := by
  rw [Core.leaveHandler_sys, SysSt.valid, BitVec.getLsbD_and]
  exact Bool.and_false _

/-- ret.eh in the handler of its own sequencer, of a trap from a scoreboard region: its core leaves the handler. -/
theorem retEh_next {s t : State} (hq : s.turn.q ≠ .x) (h : s.Begins { branch := true } t) (hh : t.cur.sys.handler = some s.turn.q)
    (hr : t.cur.sys.trapRegion = true) :
    exec .retEh s = .next (t.setCore t.turn.core
      ((pushTokens t.stc s.turn.q (pushList s.turn.q t.turn.hdr.push) t.cur).leaveHandler s.turn.q t.stc)) := by
  obtain ⟨x, queues⟩ := pushTokens_keep t.stc s.turn.q (pushList s.turn.q t.turn.hdr.push) t.cur hq
  have region : ((pushTokens t.stc s.turn.q (pushList s.turn.q t.turn.hdr.push) t.cur).leaveHandler s.turn.q t.stc).sys.region = true := by
    rw [Core.leaveHandler_sys, queues]; exact hr
  refine congrArg Host.Outcome.next ((h.issue _).trans ?_)
  simp only [h.turn] at region hh ⊢
  simp only [hh, hq, region, ne_eq, not_true, false_and, if_true, if_false, State.conclude]

/-- A return to a scoreboard region with no pending redirect: the stream goes on at sr.epc. -/
theorem retEh_returns {s t : State} (hq : s.turn.q ≠ .x) (h : s.Begins { branch := true } t) (hh : t.cur.sys.handler = some s.turn.q)
    (hr : t.cur.sys.trapRegion = true) (hd : t.curSeq.redirect = none) :
    ∃ u, exec .retEh s = .next u ∧ u.curSeq.pc = t.curSeq.epc.setWidth 14 ∧ u.curSeq.lastPc = s.curSeq.pc ∧
      u.cur.sys.valid = false ∧ u.cur.sys.region = true ∧ u.cur.sys.handler = none ∧ u.curSeq.slots = 0 ∧
      u.curSeq.regs = t.curSeq.regs := by
  refine ⟨_, retEh_next hq h hh hr, ?_⟩
  obtain ⟨x, queues⟩ := pushTokens_keep t.stc s.turn.q (pushList s.turn.q t.turn.hdr.push) t.cur hq
  generalize hc : pushTokens t.stc s.turn.q (pushList s.turn.q t.turn.hdr.push) t.cur = c at queues
  have stream : c.seq s.turn.q = t.curSeq := by rw [← hc, pushTokens_seq, ← h.turn]; rfl
  have curSeq : (t.setCore t.turn.core (c.leaveHandler s.turn.q t.stc)).curSeq =
      { t.curSeq.resume with last := t.stc, first := false, lastPc := t.curSeq.pc } := by
    rw [← stream, ← Core.leaveHandler_seq, State.curSeq, State.setCore_cur, State.setCore_turn, h.turn]
  rw [curSeq, State.setCore_cur, SeqSt.resume_plain hd]
  refine ⟨rfl, State.curSeq_pc_begins h, Core.leaveHandler_valid .., ?_, ?_, rfl, rfl⟩
  · rw [Core.leaveHandler_sys, queues]; exact hr
  · rw [Core.leaveHandler_sys]

/-- Outside the handler of its sequencer ret.eh traps. -/
theorem retEh_illop {s t : State} (h : s.Begins { branch := true } t) (hh : t.cur.sys.handler ≠ some s.turn.q) :
    exec .retEh s = .next (s.settled.wordTrap .illop 0) :=
  congrArg Host.Outcome.next (h.trap (by rw [← h.turn] at hh; exact if_pos hh))

/-! ### The clauses of a trap -/

theorem takeTrap_entersHandler (s : State) (n : Nat) (q : Seq) (c : Cause) (code : BitVec 10) (lane : Nat) (pc : BitVec 14) (own mx : Bool)
    (at_ : Nat) (hv : (s.core n).sys.valid = false) (he : ((s.core n).seq q).tvec.getLsbD 14 = true) (hl : lane < 1024) :
    let u := s.takeTrap n q c code lane pc own at_ mx
    ((u.core n).seq q).epc = pc.setWidth 64 ∧ ((u.core n).seq q).pc = ((s.core n).seq q).tvec.setWidth 14 ∧
    (u.core n).sys.cause = causeWord q c lane ∧
    (u.core n).sys.region = true ∧ (u.core n).sys.handler = some q ∧ (u.core n).sys.trapRegion = (s.core n).sys.region ∧
    (∀ r, r ≠ q → (u.core n).seq r = (s.core n).seq r) ∧ ((u.core n).seq q).regs = ((s.core n).seq q).regs ∧
    u.dram = s.dram ∧ (∀ m, m ≠ n → u.core m = s.core m) := by
  intro u
  have hu : u = s.setCore n (s.handlerCore n q c code lane pc own at_) := State.takeTrap_handler hv he hl c code pc own at_ mx
  have core : u.core n = s.handlerCore n q c code lane pc own at_ := by rw [hu, State.setCore_core]
  rw [core, State.handlerCore_seq]
  refine ⟨rfl, rfl, rfl, rfl, rfl, rfl, fun r hr => State.handlerCore_seq_ne s n hr .., rfl, ?_, fun m hm => ?_⟩
  · rw [hu, State.setCore_dram]
  · rw [hu, State.setCore_core_ne _ _ _ _ hm]

theorem takeTrap_endsTask (s : State) (n : Nat) (q : Seq) (c : Cause) (code : BitVec 10) (lane : Nat) (pc : BitVec 14) (own : Bool)
    (at_ : Nat) (h : (s.core n).tsk.ending = none) (hl : lane < 1024) :
    let u := s.takeTrap n q c code lane pc own at_ false
    ((s.core n).sys.valid = false → ((s.core n).seq q).tvec.getLsbD 14 = false →
      (u.core n).tsk.ending = some (0x20, faultDetail (causeCode c) (seqNum q) lane 0 pc.toNat code.toNat 0 0) ∧
      (u.core n).sys.valid = true ∧ (∀ r, ((u.core n).seq r).mode = .ended)) ∧
    ((s.core n).sys.valid = true →
      (u.core n).tsk.ending = some (0x20, faultDetail 0x10 (seqNum q) lane 0 pc.toNat code.toNat (causeCode c) 0) ∧
      (u.core n).sys.cause = (s.core n).sys.cause ∧ (∀ r, ((u.core n).seq r).epc = ((s.core n).seq r).epc) ∧
      (∀ r, ((u.core n).seq r).mode = .ended)) := by
  intro u
  refine ⟨fun hv he => ?_, fun hv => ?_⟩
  · have hu : u = _ := State.takeTrap_disabled hv he hl c code pc own at_ false
    have running : ((s.setCore n (s.trapCore n q c code lane pc own at_)).core n).tsk.ending = none := by
      rw [State.setCore_core, State.trapCore, Core.setSeq_tsk]; exact h
    have ends := State.endTask_endsTask running errFault
      (faultDetail (causeCode c) (seqNum q) lane (mxDetail (s.core n) false) pc.toNat code.toNat 0 0) 0 (seqNum q)
    rw [← hu] at ends
    refine ⟨ends.ending, ?_, ends.mode⟩
    rw [ends.sys, State.setCore_core]
    exact causeWord_valid q c hl
  · have ends := State.endTask_endsTask h errFault
      (faultDetail (causeCode .dbltrap) (seqNum q) lane (mxDetail (s.core n) false) pc.toNat code.toNat (causeCode c) 0)
      ((s.core n).sys.cause.toNat % 256) (seqNum q)
    rw [← State.takeTrap_double hv q c code lane pc own at_ false] at ends
    exact ⟨ends.ending, congrArg SysSt.cause ends.sys, ends.epc, ends.mode⟩

/-- Settles O17: the trap that a handler takes, those that end the task, and the return. -/
theorem trapsAreTaken : Obligations.TrapsAreTaken := by
  unfold Obligations.TrapsAreTaken
  exact ⟨takeTrap_entersHandler, takeTrap_endsTask, fun s t => retEh_returns, fun s t => retEh_illop⟩

end Sys2Proof.Machine

/-! SUPPORT. The operations behind a task's start and end: records, zero marks, the loader, and what the end of a record leaves (09 R242,
R246; 12 R301 to R309). -/

namespace Sys2Proof.Machine

-- one after another: every waiting worker thread counts towards the check's memory limit
set_option Elab.async false

/-! ### Records and cores -/

/-- A record put in the place of one with its number is found under it. -/
theorem State.setRec_rec? {s : State} {r x : TaskRec} (h : s.rec? x.id = some r) : (s.setRec x).rec? x.id = some x := by
  have found : r.id = x.id := by simpa using List.find?_some h
  have same : ((fun y : TaskRec => decide (y.id = x.id)) ∘ fun y => if y.id = x.id then x else y) = fun y => decide (y.id = x.id) := by
    funext y; simp only [Function.comp]; split <;> simp_all
  rw [State.rec?, State.setRec, List.find?_map, same, show s.recs.find? _ = some r from h, Option.map_some, if_pos found]

/-- A change of a core that keeps what it holds of its task keeps that of every core. -/
theorem State.modCore_core_tsk (s : State) (m n : Nat) {f : Core → Core} (hf : ∀ c, (f c).tsk = c.tsk) :
    ((s.modCore m f).core n).tsk = (s.core n).tsk := by
  by_cases h : n = m
  · subst h; rw [State.modCore_core, hf]
  · rw [State.modCore_core_ne _ _ _ _ h]

/-- A core put in its own place with the same task holds that task still. -/
theorem State.coreOfTask_setCore {s : State} {id n : Nat} {c : Core} (h : s.coreOfTask id = some n) (hc : c.tsk.task = some id) :
    (s.setCore n c).coreOfTask id = some n := by
  simp only [State.coreOfTask, State.setCore] at h ⊢
  generalize s.cores = m at h ⊢
  induction m with
  | nil => simp at h
  | cons p t ih =>
    obtain ⟨k, v⟩ := p
    simp only [SMap.ins]
    split
    · simp [hc]
    · split
      · simp [hc]
      · rename_i hk
        by_cases hv : v.tsk.task = some id
        · simp only [List.find?_cons, hv, decide_true, Option.map_some, Option.some.injEq] at h
          exact absurd h.symm hk
        · simp only [List.find?_cons, hv, decide_false] at h ⊢
          exact ih h

/-! ### Zero marks (09 R246) -/

theorem SMap.get_filter_keys {α : Type} (d : α) (p : Nat → Bool) (m : SMap α) (k : Nat) :
    SMap.get d (m.filter fun e => p e.1) k = if p k then SMap.get d m k else d := by
  induction m with
  | nil => simp [SMap.get]
  | cons e t ih =>
    obtain ⟨j, v⟩ := e
    rw [List.filter_cons]
    by_cases hk : k = j
    · subst hk
      by_cases hp : p k <;> simp [hp, SMap.get, ih]
    · by_cases hp : p j <;> simp [hp, SMap.get, hk, ih]

/-- Marking a range sets the marks of its units and leaves the others. -/
theorem SpmSt.markRange_marked (m : SpmSt) (lo hi u : Nat) :
    (m.markRange lo hi).marked u = (m.marked u || (decide (lo / 64 ≤ u) && decide (u < hi / 64))) := by
  rw [SpmSt.marked, SpmSt.markRange, SMap.get_filter_keys false (fun k => decide (k < lo / 64) || decide (hi / 64 ≤ k))]
  by_cases h : u < lo / 64 ∨ hi / 64 ≤ u
  · rw [if_pos (by simpa using h)]
    have outside : (decide (lo / 64 ≤ u) && decide (u < hi / 64)) = false := by simp; omega
    rw [outside, Bool.or_false, SpmSt.marked]
  · rw [if_neg (by simpa using h)]
    have inside : (decide (lo / 64 ≤ u) && decide (u < hi / 64)) = true := by simp; omega
    rw [inside, Bool.or_true]
    rfl

/-- The marks of whole quads. -/
def SpmSt.markQuads (m : SpmSt) (qs : List Nat) : SpmSt := qs.foldl (fun m q => m.markRange (2 ^ 19 * q) (2 ^ 19 * (q + 1))) m

theorem SpmSt.markQuads_keeps (m : SpmSt) (qs : List Nat) {u : Nat} (h : m.marked u = true) : (m.markQuads qs).marked u = true := by
  induction qs generalizing m with
  | nil => exact h
  | cons q t ih => exact ih _ (by rw [SpmSt.markRange_marked, h, Bool.true_or])

theorem SpmSt.markQuads_marked (m : SpmSt) {qs : List Nat} {q u : Nat} (hq : q ∈ qs) (h : u / 2 ^ 13 = q) : (m.markQuads qs).marked u = true := by
  induction qs generalizing m with
  | nil => cases hq
  | cons x t ih =>
    rcases List.mem_cons.mp hq with rfl | hq
    · refine SpmSt.markQuads_keeps _ t ?_
      rw [SpmSt.markRange_marked, decide_eq_true (by omega), decide_eq_true (by omega), Bool.and_self, Bool.or_true]
    · exact ih _ hq

/-- Every byte of a marked quad reads 0. -/
theorem SpmSt.markQuads_byte (m : SpmSt) {qs : List Nat} {q k : Nat} (hq : q ∈ qs) (hk : k < 2 ^ 19) : (m.markQuads qs).byte (2 ^ 19 * q + k) = 0 :=
  if_pos (SpmSt.markQuads_marked m hq (by omega))

/-! ### Memory and the task header, as long as only cores and records change -/

/-- Only cores and records differ. -/
def State.CoresAndRecsOnly (s u : State) : Prop := u = { s with cores := u.cores, recs := u.recs }

theorem State.CoresAndRecsOnly.eq {s u : State} (h : s.CoresAndRecsOnly u) : u = { s with cores := u.cores, recs := u.recs } := h
theorem State.CoresAndRecsOnly.ctxs {s u : State} (h : s.CoresAndRecsOnly u) : u.ctxs = s.ctxs := by rw [h.eq]

theorem State.CoresAndRecsOnly.dramByte {s u : State} (h : s.CoresAndRecsOnly u) (pa : Nat) : u.dramByte pa = s.dramByte pa := by
  rw [h.eq]; rfl
theorem State.CoresAndRecsOnly.resolve {s u : State} (h : s.CoresAndRecsOnly u) (pa : Nat) : u.resolve pa = s.resolve pa := by
  rw [h.eq]; rfl

theorem State.CoresAndRecsOnly.dramBytes {s u : State} (h : s.CoresAndRecsOnly u) (pa n : Nat) : u.dramBytes pa n = s.dramBytes pa n := by
  rw [State.dramBytes, State.dramBytes, h.resolve]
  generalize s.resolve pa = a
  induction n generalizing a with
  | zero => rfl
  | succ n ih => rw [State.dramBytesAt, State.dramBytesAt, h.dramByte, ih]

theorem State.CoresAndRecsOnly.dramRead {s u : State} (h : s.CoresAndRecsOnly u) (pa n : Nat) : u.dramRead pa n = s.dramRead pa n :=
  congrArg leVal (h.dramBytes pa n)

theorem State.CoresAndRecsOnly.badFrame {s u : State} (h : s.CoresAndRecsOnly u) (pa n : Nat) : u.badFrame pa n = s.badFrame pa n := by
  rw [h.eq]; rfl

theorem State.CoresAndRecsOnly.walk {s u : State} (h : s.CoresAndRecsOnly u) (root va : Nat) : u.walk root va = s.walk root va := by
  simp only [State.walk, h.dramRead, h.badFrame]

theorem State.CoresAndRecsOnly.vread {s u : State} (h : s.CoresAndRecsOnly u) (root fuel va n : Nat) :
    u.vread root fuel va n = s.vread root fuel va n := by
  induction fuel generalizing va n with
  | zero => rfl
  | succ fuel ih =>
    refine if_congr Iff.rfl rfl (if_congr Iff.rfl rfl ?_)
    rw [h.walk]
    cases s.walk root va with
    | none => rfl
    | some p => simp only [h.dramBytes, ih]

theorem State.CoresAndRecsOnly.taskHdr {s u : State} (h : s.CoresAndRecsOnly u) (l : Launch) : u.taskHdr l = s.taskHdr l := by
  have root : u.ctxRoot l.ctx = s.ctxRoot l.ctx := by rw [State.ctxRoot, State.ctxRoot, State.ctx?, State.ctx?, h.ctxs]
  rw [State.taskHdr, State.taskHdr, State.imgVal, State.imgVal, State.vget, State.vget, root, h.vread]

/-! ### The loader's chunks -/

theorem State.loadChunk_recs (s : State) (n id k due : Nat) (h : TaskHdr) : (s.loadChunk n id k due h).recs = s.recs := by
  unfold State.loadChunk; dsimp only; split <;> rfl

theorem State.loadChunk_dram (s : State) (n id k due : Nat) (h : TaskHdr) : (s.loadChunk n id k due h).dram = s.dram := by
  unfold State.loadChunk; dsimp only; split <;> rfl

theorem State.loadChunk_spm (s : State) (n id k due : Nat) (h : TaskHdr) : ((s.loadChunk n id k due h).core n).spm = (s.core n).spm := by
  unfold State.loadChunk; dsimp only; split
  · rfl
  · rw [State.modCore_core]

/-- A chunk that the image has is asked for. -/
theorem State.loadChunk_asks (s : State) (n id k due : Nat) {h : TaskHdr} (hk : 256 * k < h.imageLen) :
    (⟨due, 6, id, k, h.spmaddr + 256 * k, Nat.min 256 (h.imageLen - 256 * k)⟩ : SpmReq) ∈ ((s.loadChunk n id k due h).core n).reqs := by
  unfold State.loadChunk; dsimp only
  rw [if_neg (Nat.not_le.mpr hk), State.modCore_core]
  exact List.mem_append_right _ (List.mem_singleton.mpr rfl)

/-! ### What asking and looking leave unchanged -/

/-- Only the agenda and the count of free values differ. -/
def State.AgendaOnly (s u : State) : Prop := u = { s with agenda := u.agenda, freeCtr := u.freeCtr }

theorem State.AgendaOnly.refl (s : State) : s.AgendaOnly s := rfl
theorem State.AgendaOnly.trans {s t u : State} (h : s.AgendaOnly t) (k : t.AgendaOnly u) : s.AgendaOnly u :=
  Eq.trans k (by rw [show t = _ from h])
theorem State.AgendaOnly.eq {s u : State} (h : s.AgendaOnly u) : u = { s with agenda := u.agenda, freeCtr := u.freeCtr } := h
theorem State.AgendaOnly.cores {s u : State} (h : s.AgendaOnly u) : u.cores = s.cores := by rw [h.eq]
theorem State.AgendaOnly.dram {s u : State} (h : s.AgendaOnly u) : u.dram = s.dram := by rw [h.eq]

theorem State.schedInp_agendaOnly (s : State) (due ph : Nat) (ev : Instr) (i : Input) : s.AgendaOnly (s.schedInp due ph ev i) := rfl
theorem State.schedInpFree_agendaOnly (s : State) (ph : Nat) (ev : Instr) (i : Input) : s.AgendaOnly (s.schedInpFree ph ev i) := rfl

theorem State.sendTo_agendaOnly (s : State) (pkg : Nat) (core : Option Nat) (bytes : Nat) : s.AgendaOnly (s.sendTo pkg core bytes) :=
  foldl_related (R := State.AgendaOnly) .refl .trans (fun t _ => t.schedInp_agendaOnly ..) _ _

theorem State.askRemote_agendaOnly (s : State) (pkg page : Nat) : s.AgendaOnly (s.askRemote pkg page) := by
  unfold State.askRemote
  dsimp only
  split
  · exact .refl s
  · exact (s.sendTo_agendaOnly ..).trans (State.schedInpFree_agendaOnly ..)

theorem State.askAll_agendaOnly (s : State) (ps : List PageTr) : s.AgendaOnly (s.askAll ps) := by
  refine foldl_related (R := State.AgendaOnly) .refl .trans (fun t p => ?_) ps s
  split
  · split
    · exact State.askRemote_agendaOnly ..
    · exact .refl t
  · exact .refl t

theorem State.DiesAndAgendaOnly.cores {s u : State} (h : s.DiesAndAgendaOnly u) : u.cores = s.cores := by rw [h.eq]
theorem State.DiesAndAgendaOnly.recs {s u : State} (h : s.DiesAndAgendaOnly u) : u.recs = s.recs := by rw [h.eq]
theorem State.DiesAndAgendaOnly.ctxs {s u : State} (h : s.DiesAndAgendaOnly u) : u.ctxs = s.ctxs := by rw [h.eq]

theorem State.seekAll_diesAndAgendaOnly (s : State) : s.DiesAndAgendaOnly s.seekAll := .foldl State.seek_diesAndAgendaOnly _ s

theorem State.core_of_cores {s u : State} (h : u.cores = s.cores) (n : Nat) : u.core n = s.core n := congrArg (SMap.get ({} : Core) · n) h

end Sys2Proof.Machine

/-! SUPPORT. A task's prologue, core span and T0, and the end of its window (02 R60; 04 R100; 09 R242 to R246, R258). -/

namespace Sys2Proof.Machine

-- one after another: every waiting worker thread counts towards the check's memory limit
set_option Elab.async false

/-! ### The prologue -/

/-- The prologue of a first start marks the quads that it writes and begins with the image. -/
theorem State.prologue_firstStart {s : State} {r : TaskRec} {l : Launch} (hr : s.rec? r.id = some r) (hl : s.launchOf r = some l)
    (hb : r.st = .booked) (hn : r.residue = none) (ho : s.heldOver r = false ∨ (s.core r.core).tsk.stopAt = none) :
    let t := (s.setRec { r with st := .loading }).modCore r.core fun c => { c with spm := c.spm.markQuads l.pquads }
    s.prologue r.id = t.loadChunk r.core r.id 0 s.stc (s.taskHdr l) := by
  intro t
  have free : ¬ ((s.heldOver r && (s.core r.core).tsk.stopAt.isSome) = true) := by rcases ho with ho | ho <;> simp [ho]
  have only : s.CoresAndRecsOnly t := rfl
  rw [← only.taskHdr l]
  unfold State.prologue
  rw [hr]
  dsimp only
  rw [if_neg free, if_neg (by rw [hn]; decide), if_neg (not_not.mpr hb), hl]
  rfl

theorem prologueStart_loads {s : State} {r : TaskRec} {l : Launch} (hr : s.rec? r.id = some r) (hl : s.launchOf r = some l)
    (hb : r.st = .booked) (hn : r.residue = none) (ho : s.heldOver r = false ∨ (s.core r.core).tsk.stopAt = none) :
    ∃ u, exec (.prologueStart r.id) s = .next u ∧ u.rec? r.id = some { r with st := .loading } ∧
      (∀ q ∈ l.pquads, ∀ k, k < 2 ^ 19 → (u.core r.core).spm.byte (2 ^ 19 * q + k) = 0) ∧
      (0 < (s.taskHdr l).imageLen →
        (⟨s.stc, 6, r.id, 0, (s.taskHdr l).spmaddr, Nat.min 256 (s.taskHdr l).imageLen⟩ : SpmReq) ∈ (u.core r.core).reqs) ∧
      u.dram = s.dram := by
  refine ⟨_, congrArg Host.Outcome.next (State.prologue_firstStart hr hl hb hn ho), ?_, fun q hq k hk => ?_,
    fun hi => State.loadChunk_asks _ _ _ 0 _ hi, ?_⟩
  · rw [State.rec?, State.loadChunk_recs]
    exact State.setRec_rec? (x := { r with st := .loading }) hr
  · rw [State.loadChunk_spm, State.modCore_core]
    exact SpmSt.markQuads_byte _ hq hk
  · rw [State.loadChunk_dram]
    rfl

/-! ### The core span -/

/-- At the core span the core takes the state of a first start. -/
theorem State.spanStart_firstStart {s : State} {r : TaskRec} {l : Launch} {x : Context} (hr : s.rec? r.id = some r)
    (hl : s.launchOf r = some l) (hs : r.st = .loading) (hx : s.ctx? r.ctx = some x) (ho : s.heldOver r = false)
    (hb : s.loaderBad l r = none) :
    s.spanStart r.id = ((s.setCore r.core (s.freshCore r.core r l x)).askAll (s.paramPages l r)).seekAll := by
  unfold State.spanStart
  simp only [hr, hl, hx, hs, ho, hb, ne_eq, not_true, if_false, Bool.false_eq_true]

/-- C's registers 0 and 1 hold WID and PARAM, and every other register of the four sequencers 0. -/
theorem State.freshCore_reg (s : State) (n : Nat) (r : TaskRec) (l : Launch) (x : Context) (q : Seq) (k : Nat) :
    ((s.freshCore n r l x).seq q).reg k =
      if q = .c ∧ k = 0 then r.wid else if q = .c ∧ k = 1 then BitVec.ofNat 64 r.param else 0 := by
  cases q with
  | c =>
    by_cases h1 : k = 1
    · subst h1; exact SeqSt.setReg_reg ..
    · have outer := SeqSt.setReg_reg_ne ((freshSeq ((s.taskHdr l).entry.getD 0 0)).setReg 0 r.wid) 1 k (BitVec.ofNat 64 r.param) h1
      by_cases h0 : k = 0
      · subst h0; exact outer.trans (SeqSt.setReg_reg ..)
      · simp only [h0, h1, and_false, if_false]
        exact outer.trans (SeqSt.setReg_reg_ne _ _ _ _ h0)
  | _ => rfl

theorem State.freshCore_stream (s : State) (n : Nat) (r : TaskRec) (l : Launch) (x : Context) (q : Seq) :
    ((s.freshCore n r l x).seq q).pc = BitVec.ofNat 14 ((s.taskHdr l).entry.getD (seqNum q) 0) ∧ ((s.freshCore n r l x).seq q).tvec = 0 ∧
    ((s.freshCore n r l x).seq q).ras = [] ∧ ((s.freshCore n r l x).seq q).mode = .halted ∧
    (s.freshCore n r l x).code.mem q = s.loadCode l (s.taskHdr l) (seqNum q) := by
  cases q <;> exact ⟨rfl, rfl, rfl, rfl, rfl⟩

theorem coreSpanStart_loads {s : State} {r : TaskRec} {l : Launch} (hr : s.rec? r.id = some r) (hl : s.launchOf r = some l) (x : Context)
    (hs : r.st = .loading) (hx : s.ctx? r.ctx = some x) (ho : s.heldOver r = false) (hb : s.loaderBad l r = none) :
    ∃ u, exec (.coreSpanStart r.id) s = .next u ∧
      (∀ q k, ((u.core r.core).seq q).reg k =
        (if q = .c ∧ k = 0 then r.wid else if q = .c ∧ k = 1 then BitVec.ofNat 64 r.param else 0)) ∧
      (∀ q, ((u.core r.core).seq q).pc = BitVec.ofNat 14 ((s.taskHdr l).entry.getD (seqNum q) 0) ∧ ((u.core r.core).seq q).tvec = 0 ∧
        ((u.core r.core).seq q).ras = [] ∧ ((u.core r.core).seq q).mode = .halted ∧
        (u.core r.core).code.mem q = s.loadCode l (s.taskHdr l) (seqNum q)) ∧
      (u.core r.core).sys = { ctx := BitVec.ofNat 3 r.ctx, immsel := x.immsel, dtgen := x.dtgen, taskid := BitVec.ofNat 32 r.id, t0 := r.t0 } ∧
      (u.core r.core).vec.vrf = [] ∧ (u.core r.core).vec.masks = [] ∧ (u.core r.core).vec.flags = {} ∧ (u.core r.core).mx.acc = [] ∧
      (u.core r.core).q = {} ∧ (u.core r.core).tsk.task = some r.id ∧ (∀ m, m ≠ r.core → u.core m = s.core m) ∧ u.dram = s.dram := by
  refine ⟨_, congrArg Host.Outcome.next (State.spanStart_firstStart hr hl hs hx ho hb), ?_⟩
  have asked := (s.setCore r.core (s.freshCore r.core r l x)).askAll_agendaOnly (s.paramPages l r)
  have looked := State.seekAll_diesAndAgendaOnly ((s.setCore r.core (s.freshCore r.core r l x)).askAll (s.paramPages l r))
  generalize ((s.setCore r.core (s.freshCore r.core r l x)).askAll (s.paramPages l r)).seekAll = u at looked
  have cores := State.core_of_cores (looked.cores.trans asked.cores)
  have dram : u.dram = s.dram := looked.dram.trans asked.dram
  rw [cores, State.setCore_core]
  refine ⟨State.freshCore_reg s _ r l x, State.freshCore_stream s _ r l x, rfl, rfl, rfl, rfl, rfl, rfl, rfl, fun m hm => ?_, dram⟩
  rw [cores, State.setCore_core_ne _ _ _ _ hm]

/-! ### T0 -/

/-- The end of a core's current window falls due at its last cycle. -/
theorem State.schedEnd_due {s : State} {n : Nat} {w : Window} (h : s.windowOf n = some w) :
    ⟨w.t0 + w.tmpl.len, phTask, .windowEnd n, {}, {}⟩ ∈ (s.schedEnd n).agenda := by
  have kept : (s.unsched fun e => e = .windowEnd n).windowOf n = some w := h
  simp only [State.schedEnd, kept]
  exact (State.mem_sched ..).mpr (.inl rfl)

/-- Only the agenda differs once the end of a window falls due. -/
theorem State.schedEnd_agendaOnly (s : State) (n : Nat) : s.AgendaOnly (s.schedEnd n) := by
  unfold State.schedEnd
  dsimp only
  split <;> rfl

/-- The four streams of core n run from now on, the first cycle of their task. -/
def Core.runFrom (c : Core) (now : Nat) (audit : Bool) : Core :=
  { c.modSeqs (fun x => { x with mode := .run, last := now, first := true }) with sys := { c.sys with t0 := now, audit := audit } }

theorem State.runStart_eq {s : State} {r : TaskRec} (hr : s.rec? r.id = some r) (hs : r.st = .loading) :
    s.runStart r.id = ((s.setRec { r with st := .run }).modCore r.core fun c =>
      c.runFrom s.stc (r.ins.any fun v => (s.dirEnt v).any (·.audit))).schedEnd r.core := by
  simp only [State.runStart, hr, hs, ne_eq, not_true, if_false]
  rfl

theorem taskRunStart_runs {s : State} {r : TaskRec} (hr : s.rec? r.id = some r) (hs : r.st = .loading) :
    ∃ u, exec (.taskRunStart r.id) s = .next u ∧ u.rec? r.id = some { r with st := .run } ∧
      (∀ q, ((u.core r.core).seq q).mode = .run ∧ ((u.core r.core).seq q).last = s.stc ∧ ((u.core r.core).seq q).first = true ∧
        ((u.core r.core).seq q).pc = ((s.core r.core).seq q).pc) ∧
      (u.core r.core).sys.t0 = s.stc ∧ (u.core r.core).sys.audit = (r.ins.any fun v => (s.dirEnt v).any (·.audit)) ∧
      (∀ w, s.windowOf r.core = some w → ⟨w.t0 + w.tmpl.len, phTask, .windowEnd r.core, {}, {}⟩ ∈ u.agenda) ∧ u.dram = s.dram := by
  refine ⟨_, congrArg Host.Outcome.next (State.runStart_eq hr hs), ?_⟩
  generalize r.ins.any (fun v => (s.dirEnt v).any (·.audit)) = audit
  have frame := ((s.setRec { r with st := .run }).modCore r.core fun c => c.runFrom s.stc audit).schedEnd_agendaOnly r.core
  rw [State.core_of_cores frame.cores, State.modCore_core]
  refine ⟨?_, fun q => ?_, rfl, rfl, fun w hw => State.schedEnd_due ?_, frame.dram⟩
  · rw [State.rec?, frame.eq]
    exact State.setRec_rec? (x := { r with st := .run }) hr
  · cases q <;> exact ⟨rfl, rfl, rfl, rfl⟩
  · rw [State.windowOf, State.modCore_core_tsk]
    · exact hw
    · intro c; rfl

/-! ### The end of the window (09 R258) -/

/-- The core held for a stop in cycle `now`. -/
def Core.stopAt (c : Core) (now : Nat) : Core :=
  { c with sys := { c.sys with hold := true }, tsk := { c.tsk with stopAt := some now, preempt := none, cuts := [] } }

/-- Events of core n that a stop takes out of the agenda. -/
def stopDrops (n : Nat) (e : Instr) : Bool :=
  e = .matrixCommandStart n || e = .modeDrainDone n || e = .calendarT0Resume n || e = .preemptCutStop n || e = .preemptTimeoutStop n

/-- The core held by a stop, and its events gone. -/
def State.holdCore (s : State) (n : Nat) : State := (s.modCore n fun c => c.stopAt s.stc).unsched (stopDrops n)

theorem State.holdCore_core (s : State) (n : Nat) : (s.holdCore n).core n = (s.core n).stopAt s.stc :=
  (State.core_of_cores (State.unsched_cores ..) n).trans (State.modCore_core ..)

/-- Records for which the loader has begun on core n while another task holds it. -/
def State.begunOn (s : State) (n : Nat) : List TaskRec :=
  s.recs.filter fun r => r.core = n && s.heldOver r && (r.st = .loading || (r.residue.isSome && (s.core n).reqs.any fun q =>
    q.rank = 6 && q.cmd = r.id))

/-- A stop holds the core, displaces what the loader has begun, and drains. -/
theorem State.stopNow_displaces (s : State) (n : Nat) :
    s.stopNow n = (((s.holdCore n).begunOn n).foldl State.displace (s.holdCore n)).sched
      (((s.holdCore n).begunOn n).foldl State.displace (s.holdCore n)).stc phTask (.preemptTimeoutStop n) := rfl

theorem State.begunOn_eq_nil {s : State} {n : Nat} (h : Rules.NothingBegun s n) : s.begunOn n = [] := by
  refine List.filter_eq_nil_iff.mpr fun x hx begun => ?_
  simp only [Bool.and_eq_true, Bool.or_eq_true, decide_eq_true_eq] at begun
  obtain ⟨⟨rfl, held⟩, begun⟩ := begun
  obtain ⟨notLoading, noRequest⟩ := h x hx rfl held
  rcases begun with loading | ⟨saved, request⟩
  · exact notLoading loading
  · rcases noRequest with noResidue | noRequest
    · simp [noResidue] at saved
    · obtain ⟨q, hq, asks⟩ := List.any_eq_true.mp request
      exact noRequest q hq (by simpa using asks)

theorem State.holdCore_nothingBegun {s : State} {n : Nat} (h : Rules.NothingBegun s n) : Rules.NothingBegun (s.holdCore n) n := by
  rintro x hx rfl held
  rw [State.heldOver, State.holdCore_core] at held
  rw [State.holdCore_core]
  exact h x hx rfl held

/-- Where the loader has begun nothing on the core, a stop holds the core and drains. -/
theorem State.stopNow_eq {s : State} {n : Nat} (h : Rules.NothingBegun s n) :
    s.stopNow n = (s.holdCore n).sched s.stc phTask (.preemptTimeoutStop n) := by
  rw [State.stopNow_displaces, State.begunOn_eq_nil (State.holdCore_nothingBegun h)]
  rfl

/-- The end of its window stops a task of a scoreboard region that can be saved. -/
theorem windowEnd_stops {s : State} {n : Nat} {r : TaskRec} (hr : s.recOf n = some r) (hs : (s.core n).tsk.stopAt = none)
    (he : (s.core n).tsk.ending = none) (t : Template) (k : Nat) (hg : (s.core n).sys.region = true) (hf : s.slotsFree r.ctx = true)
    (hb : Rules.NothingBegun s n) (hu : s.residueOf n s.stc = some (t, k)) (hl : residueTooLong t = false) :
    ∃ u, exec (.windowEnd n) s = .next u ∧ (u.core n).tsk.stopAt = some s.stc ∧ (u.core n).sys.hold = true ∧
      ⟨s.stc, phTask, .preemptTimeoutStop n, {}, {}⟩ ∈ u.agenda ∧ u.recs = s.recs ∧ u.dram = s.dram := by
  have next : s.windowOver n = (s.holdCore n).sched s.stc phTask (.preemptTimeoutStop n) := by
    simp [State.windowOver, hr, hs, he, hg, hf, hu, hl, State.stopNow_eq hb]
  refine ⟨_, congrArg Host.Outcome.next next, ?_, ?_, (State.mem_sched ..).mpr (.inl rfl), rfl, rfl⟩
  · rw [State.sched_core, State.holdCore_core]; rfl
  · rw [State.sched_core, State.holdCore_core]; rfl

/-- The end of its window ends a running task of a calendar region, with OVR. -/
theorem windowEnd_faults {s : State} {n : Nat} {r : TaskRec} (hr : s.recOf n = some r) (hs : (s.core n).tsk.stopAt = none)
    (he : (s.core n).tsk.ending = none) (ha : (s.core n).allStopped = false) (hg : (s.core n).sys.region = false) :
    ∃ u, exec (.windowEnd n) s = .next u ∧ (u.core n).tsk.ending = some (0x20, faultDetail 10 0 0 0 (s.core n).c.lastPc.toNat 0 0 1) ∧
      (∀ q, ((u.core n).seq q).mode = .ended) ∧ ⟨s.stc, phTask, .taskEnd n, {}, {}⟩ ∈ u.agenda ∧ u.dram = s.dram := by
  have next : s.windowOver n = s.overrun n := by simp [State.windowOver, hr, hs, he, ha, hg]
  have ends := State.endTask_endsTask he errFault (faultDetail (causeCode .schedmiss) 0 0 0 (s.core n).c.lastPc.toNat 0 0 1) 0 0
  exact ⟨_, congrArg Host.Outcome.next next, ends.ending, ends.mode, ends.due, ends.dram⟩

end Sys2Proof.Machine

/-! SUPPORT. The end step of a task, and what the end of its record leaves (08 R234; 12 R301 to R309). -/

namespace Sys2Proof.Machine

-- one after another: every waiting worker thread counts towards the check's memory limit
set_option Elab.async false

/-! ### Work that keeps the tasks -/

/-- No core, record or context differs, and the returns of weight that are due still are. -/
structure State.TasksKept (s u : State) : Prop where
  cores : u.cores = s.cores
  recs : u.recs = s.recs
  ctxs : u.ctxs = s.ctxs
  returns : ∀ id, s.hasJob (.weightReturn id) = true → u.hasJob (.weightReturn id) = true

theorem State.TasksKept.refl (s : State) : s.TasksKept s := ⟨rfl, rfl, rfl, fun _ h => h⟩

theorem State.TasksKept.trans {s t u : State} (h : s.TasksKept t) (k : t.TasksKept u) : s.TasksKept u :=
  ⟨k.cores.trans h.cores, k.recs.trans h.recs, k.ctxs.trans h.ctxs, fun id j => k.returns id (h.returns id j)⟩

theorem State.TasksKept.foldl {α : Type} {f : State → α → State} (step : ∀ (s : State) (x : α), s.TasksKept (f s x)) (l : List α) (s : State) :
    s.TasksKept (l.foldl f s) := foldl_related (R := State.TasksKept) .refl .trans step l s

/-- A change that leaves the cores, the records, the contexts and the agenda keeps the tasks. -/
theorem State.TasksKept.of_agenda {s u : State} (hc : u.cores = s.cores) (hr : u.recs = s.recs) (hx : u.ctxs = s.ctxs)
    (ha : u.agenda = s.agenda) : s.TasksKept u := ⟨hc, hr, hx, fun id h => by rw [State.hasJob, ha]; exact h⟩

theorem State.hasJob_iff (s : State) (ev : Instr) : s.hasJob ev = true ↔ ∃ j ∈ s.agenda, j.ev = ev := by simp [State.hasJob]

theorem State.sched_hasJob (s : State) (due ph : Nat) (ev : Instr) : (s.sched due ph ev).hasJob ev = true :=
  (State.hasJob_iff ..).mpr ⟨_, (State.mem_sched ..).mpr (.inl rfl), rfl⟩

theorem State.sched_tasksKept (s : State) (due ph : Nat) (ev : Instr) : s.TasksKept (s.sched due ph ev) := by
  refine ⟨rfl, rfl, rfl, fun id h => ?_⟩
  obtain ⟨j, hj, hev⟩ := (State.hasJob_iff ..).mp h
  exact (State.hasJob_iff ..).mpr ⟨j, (State.mem_sched ..).mpr (.inr hj), hev⟩

theorem State.schedInp_tasksKept (s : State) (due ph : Nat) (ev : Instr) (i : Input) : s.TasksKept (s.schedInp due ph ev i) := by
  refine ⟨rfl, rfl, rfl, fun id h => ?_⟩
  obtain ⟨j, hj, hev⟩ := (State.hasJob_iff ..).mp h
  exact (State.hasJob_iff ..).mpr ⟨j, (State.mem_schedInp ..).mpr (.inr hj), hev⟩

/-- What takes no return of weight out of the agenda keeps the tasks. -/
theorem State.unsched_tasksKept (s : State) {p : Instr → Bool} (hp : ∀ id, p (.weightReturn id) = false) : s.TasksKept (s.unsched p) := by
  refine ⟨rfl, rfl, rfl, fun id h => ?_⟩
  obtain ⟨j, hj, hev⟩ := (State.hasJob_iff ..).mp h
  exact (State.hasJob_iff ..).mpr ⟨j, List.mem_filter.mpr ⟨hj, by rw [hev, hp]; rfl⟩, hev⟩

theorem State.modDie_tasksKept (s : State) (d : Nat) (f : Die → Die) : s.TasksKept (s.modDie d f) := .of_agenda rfl rfl rfl rfl
theorem State.setLaunch_tasksKept (s : State) (l : Launch) : s.TasksKept (s.setLaunch l) := .of_agenda rfl rfl rfl rfl

theorem State.drawLat_tasksKept (s : State) : s.TasksKept s.drawLat.2 := .of_agenda rfl rfl rfl rfl
theorem State.withDir_tasksKept (s : State) (l : List DirEnt) : s.TasksKept { s with dir := l } := .of_agenda rfl rfl rfl rfl
theorem State.withSentLin_tasksKept (s : State) (l : List Lineage) : s.TasksKept { s with sentLin := l } := .of_agenda rfl rfl rfl rfl
theorem State.withDram_tasksKept (s : State) (m : List Host.Cell) : s.TasksKept { s with dram := m } := .of_agenda rfl rfl rfl rfl

theorem State.bindQueues_tasksKept (s : State) (d : Nat) : s.TasksKept (s.bindQueues d) := by
  have frame := s.bindQueues_diesAndAgendaOnly d
  refine .of_agenda frame.cores frame.recs frame.ctxs ?_
  unfold State.bindQueues
  dsimp only
  split <;> rfl

theorem State.seek_tasksKept (s : State) (d : Nat) : s.TasksKept (s.seek d) := by
  unfold State.seek
  dsimp only
  repeat' split
  · exact .refl s
  · exact s.schedInp_tasksKept _ _ _ _
  · exact s.schedInp_tasksKept _ _ _ _
  · exact .refl s

theorem State.kick_tasksKept (s : State) : s.TasksKept s.kick := by
  have looked := ((State.TasksKept.foldl State.bindQueues_tasksKept (List.range 8) s).trans
    (.foldl State.seek_tasksKept (List.range 8) _)).trans (State.unsched_tasksKept _ (p := isPlacement) fun _ => rfl)
  unfold State.kick State.seekAll
  dsimp only
  generalize (List.foldl State.seek (List.foldl State.bindQueues s (List.range 8)) (List.range 8)).unsched isPlacement = t at looked ⊢
  refine looked.trans (State.TasksKept.trans ?_ (.foldl (fun t _ => t.sched_tasksKept _ _ _) _ _))
  split
  · exact t.sched_tasksKept _ _ _
  · exact .refl t

theorem State.checkTeam_tasksKept (s : State) (r : TaskRec) : s.TasksKept (s.checkTeam r) := by
  unfold State.checkTeam
  dsimp only
  repeat' split
  all_goals exact .of_agenda rfl rfl rfl rfl

theorem State.checkBarriers_tasksKept (s : State) : s.TasksKept s.checkBarriers := by
  refine .foldl (fun t b => ?_) _ s
  unfold State.checkBarrier
  dsimp only
  split
  · exact t.drawLat_tasksKept.trans (t.drawLat.2.sched_tasksKept _ _ _)
  · exact .refl t

theorem State.tryReturn_tasksKept (s : State) (id : Nat) : s.TasksKept (s.tryReturn id) := by
  unfold State.tryReturn
  repeat' split
  · exact s.sched_tasksKept _ _ _
  · exact .refl s
  · exact .refl s

theorem State.freeFrames_tasksKept (s : State) (fs : SMap Nat) : s.TasksKept (s.freeFrames fs) :=
  .foldl (fun t _ => t.withDram_tasksKept _) fs s

theorem State.trim_tasksKept (s : State) (name : Nat) : s.TasksKept (s.trim name) := by
  exact (s.withSentLin_tasksKept _).trans (.foldl (fun t d => t.modDie_tasksKept d _) _ _)

theorem State.releaseVersions_tasksKept (s : State) (ctx : Nat) : s.TasksKept (s.releaseVersions ctx) := by
  refine .foldl (fun t e => ?_) _ s
  have freed := ((t.freeFrames_tasksKept e.frames).trans (State.freeFrames_tasksKept _ e.rframes)).trans
    (.foldl (fun t c => t.freeFrames_tasksKept c.2) e.copies _)
  exact (freed.trans (State.withDir_tasksKept _ _)).trans (State.trim_tasksKept _ e.name)

/-! ### Contexts with nothing spilled that are not being destroyed -/

/-- No context has a spilled record or is being destroyed. -/
def State.CtxsQuiet (s : State) : Prop := ∀ x ∈ s.ctxs, x.2.spilled = [] ∧ x.2.ending = false

theorem State.CtxsQuiet.of_ctxs {s u : State} (h : s.CtxsQuiet) (hx : u.ctxs = s.ctxs) : u.CtxsQuiet := fun x m => h x (hx ▸ m)

theorem State.CtxsQuiet.modCtx {s : State} (h : s.CtxsQuiet) (ctx : Nat) {f : Context → Context}
    (hs : ∀ x, x.spilled = [] → (f x).spilled = []) (he : ∀ x, (f x).ending = x.ending) : (s.modCtx ctx f).CtxsQuiet := by
  intro y hy
  obtain ⟨x, hx, rfl⟩ := List.mem_map.mp hy
  obtain ⟨spilled, ending⟩ := h x hx
  split
  · exact ⟨hs _ spilled, (he _).trans ending⟩
  · exact ⟨spilled, ending⟩

theorem State.CtxsQuiet.freeSlot {s : State} (h : s.CtxsQuiet) (ctx slot : Nat) : (s.freeSlot ctx slot).CtxsQuiet :=
  h.modCtx ctx (fun _ => id) fun _ => rfl

theorem State.CtxsQuiet.dropSpilled {s : State} (h : s.CtxsQuiet) (ctx id : Nat) : (s.dropSpilled ctx id).CtxsQuiet :=
  h.modCtx ctx (fun x hx => by simp [hx]) fun _ => rfl

theorem State.CtxsQuiet.unspill {s : State} (h : s.CtxsQuiet) : s.unspill = s :=
  if_pos (List.all_eq_true.mpr fun x hx => by rw [(h x hx).1]; rfl)

theorem SMap.mem_of_get? {α : Type} {m : SMap α} {k : Nat} {x : α} (h : SMap.get? m k = some x) : (k, x) ∈ m := by
  induction m with
  | nil => cases h
  | cons p t ih =>
    obtain ⟨j, v⟩ := p
    simp only [SMap.get?] at h
    split at h
    · rename_i e
      rw [e, Option.some.inj h]
      exact List.mem_cons_self ..
    · exact List.mem_cons_of_mem _ (ih h)

theorem State.CtxsQuiet.checkContext {s : State} (h : s.CtxsQuiet) (ctx : Nat) : s.checkContext ctx = s := by
  unfold State.checkContext
  split
  · rename_i x hx
    rw [(h _ (SMap.mem_of_get? hx)).2]
    rfl
  · rfl

/-! ### The end of a record -/

/-- The weight of an ended record without outputs is on its way back. -/
theorem State.tryReturn_due {s : State} {r : TaskRec} (hr : s.rec? r.id = some r) (hst : r.st = .ended) (hw : r.weightBack = false)
    (hk : r.kind ≠ .redA) (ho : r.outs = []) : (s.tryReturn r.id).hasJob (.weightReturn r.id) = true := by
  have acked : s.acked r = true := by simp [State.acked, hk, ho]
  simp only [State.tryReturn, hr]
  cases hj : s.hasJob (.weightReturn r.id) with
  | true => rw [if_neg (by simp), hj]
  | false => rw [if_pos (by simp [hst, hw, acked])]; exact State.sched_hasJob ..

/-- The save slot of a record's residue, if it has one, is free again. -/
def State.freeResidue (s : State) (r : TaskRec) : State :=
  match r.residue with
  | some x => s.freeSlot r.ctx x.slot
  | none => s

/-- A record as it stands once it has ended. -/
def TaskRec.asEnded (r : TaskRec) : TaskRec := { r with st := .ended, residue := none, spilled := false }

/-- The record ended, off its core and out of the queues. -/
def State.endedRec (s : State) (r : TaskRec) : State :=
  ((((s.offCore r.id).freeResidue r).setRec r.asEnded).unsched fun e => e = .priorityAging r.id).dropSpilled r.ctx r.id

theorem State.endedRec_tables (s : State) (r : TaskRec) : (s.endedRec r).cores = (s.offCore r.id).cores ∧
    (s.endedRec r).recs = ((s.offCore r.id).setRec r.asEnded).recs := by
  unfold State.endedRec State.freeResidue
  cases r.residue <;> exact ⟨rfl, rfl⟩

theorem State.endedRec_ctxsQuiet {s : State} (r : TaskRec) (h : (s.offCore r.id).CtxsQuiet) : (s.endedRec r).CtxsQuiet := by
  have freed : ((s.offCore r.id).freeResidue r).CtxsQuiet := by
    unfold State.freeResidue
    cases r.residue with
    | none => exact h
    | some x => exact h.freeSlot _ _
  exact State.CtxsQuiet.dropSpilled (freed.of_ctxs rfl) _ _

/-- What follows the end of an ordinary record without outputs, where no record is spilled and no context is being destroyed, keeps every
core and record, and returns its weight. -/
theorem State.endRec_keeps {s : State} {r : TaskRec} (hr : s.rec? r.id = some r) (hst : r.st ≠ .ended) (hk : r.kind = .ordinary)
    (ho : r.outs = []) (hq : (s.endedRec r).CtxsQuiet) (hf : (s.endedRec r).rec? r.id = some r.asEnded) (err : Option (Stamp × Nat))
    (audit : Bool) : (s.endedRec r).TasksKept (s.endRec r.id err audit) ∧
      (r.weightBack = false → (s.endRec r.id err audit).hasJob (.weightReturn r.id) = true) := by
  unfold State.endRec
  rw [hr]
  change State.TasksKept _ (ite _ _ _) ∧ (_ → State.hasJob (ite _ _ _) _ = true)
  rw [if_neg hst]
  extract_lets off freed ended dropped counted sat launched checked recovered returned siblings walked
  have toLaunched : (s.endedRec r).TasksKept launched := by
    show dropped.TasksKept launched
    simp only [launched]
    split
    · split
      · exact dropped.setLaunch_tasksKept _
      · exact .refl dropped
    · exact .refl dropped
  have toChecked := toLaunched.trans ((launched.checkTeam_tasksKept r).trans (State.checkBarriers_tasksKept _))
  have notRecovered : recovered = checked := if_neg (by rw [hk]; decide)
  have toReleased := toChecked.trans (checked.releaseVersions_tasksKept r.ctx)
  have atReturn : returned = (checked.releaseVersions r.ctx).tryReturn r.id := by
    show (recovered.releaseVersions r.ctx).unspill.tryReturn r.id = _
    rw [notRecovered, (hq.of_ctxs toReleased.ctxs).unspill]
  have toReturned := toReleased.trans (State.tryReturn_tasksKept _ r.id)
  rw [← atReturn] at toReturned
  have noWalk : walked = siblings := by
    show List.foldl _ siblings (List.filter _ r.outs) = _
    rw [ho]; rfl
  have fromReturned : returned.TasksKept walked.kick :=
    noWalk ▸ (State.TasksKept.foldl (fun (t : State) (x : TaskRec) => t.tryReturn_tasksKept x.id) _ returned).trans siblings.kick_tasksKept
  have toKicked := toReturned.trans fromReturned
  rw [(hq.of_ctxs toKicked.ctxs).checkContext]
  refine ⟨toKicked, fun hw => fromReturned.returns _ ?_⟩
  rw [atReturn]
  exact State.tryReturn_due (r := r.asEnded) (by rw [State.rec?, toReleased.recs]; exact hf) rfl hw (by rw [TaskRec.asEnded, hk]; decide) ho

/-! ### A core without its task -/

theorem State.pinsFell_diesAndAgendaOnly (s : State) (ks : List Nat) : s.DiesAndAgendaOnly (s.pinsFell ks) :=
  .foldl (fun t _ => t.schedInp_diesAndAgendaOnly _ _ _ _) ks s

theorem State.vacate_frame (s : State) (n : Nat) :
    (s.vacate n).cores = (s.modCore n Core.vacate).cores ∧ (s.vacate n).recs = s.recs ∧ (s.vacate n).ctxs = s.ctxs := by
  have frame := ((s.modCore n Core.vacate).unsched (coreJob n)).pinsFell_diesAndAgendaOnly ((s.core n).tsk.pins.map (·.1))
  exact ⟨frame.cores, frame.recs, frame.ctxs⟩

theorem State.offCore_frame (s : State) (id : Nat) : (s.offCore id).recs = s.recs ∧ (s.offCore id).ctxs = s.ctxs := by
  unfold State.offCore
  dsimp only
  split
  · rename_i n _
    obtain ⟨-, recs, ctxs⟩ := (s.unsched (startJobs id)).vacate_frame n
    exact ⟨recs, ctxs⟩
  · exact ⟨rfl, rfl⟩

/-- A core that held a task holds none once the task's record is off it. -/
theorem State.offCore_free {s : State} {id n : Nat} (h : s.coreOfTask id = some n) : ((s.offCore id).core n).tsk.task = none := by
  have held : (s.unsched (startJobs id)).coreOfTask id = some n := h
  obtain ⟨cores, -, -⟩ := (s.unsched (startJobs id)).vacate_frame n
  unfold State.offCore
  simp only [held]
  rw [State.modCore_core_tsk, State.core_of_cores cores, State.modCore_core]
  · rfl
  · intro c; rfl

/-! ### The end step -/

/-- With nothing pending, effects that are due change nothing. -/
theorem Core.settle_idle {c : Core} (h : c.pend = []) (now : Nat) : c.settle now = c := by
  simp only [Core.settle, h, settleGo, List.filter_nil]
  rw [← h]

/-- A task without an error and with no command under way gives nothing up. -/
theorem State.giveUp_idle {s : State} {n : Nat} (hc : (s.core n).cmds = []) (he : (s.core n).tsk.ending = none) : s.giveUp n = s := by
  simp [State.giveUp, hc, he]

/-- The task of a core that has a record. -/
theorem State.recOf_task {s : State} {n : Nat} {r : TaskRec} (h : s.recOf n = some r) : (s.core n).tsk.task = some r.id := by
  obtain ⟨id, task, found⟩ := Option.bind_eq_some_iff.mp h
  have same : r.id = id := by simpa using List.find?_some found
  rw [task, same]

/-- A task that ends without an error, an ordinary run with no outputs, ends its record. -/
theorem State.finishTask_plain {s : State} {n : Nat} {r : TaskRec} (hr : s.recOf n = some r) (hk : r.kind = .ordinary) (ho : r.outs = [])
    (he : (s.core n).tsk.ending = none) : s.finishTask n = s.endRec r.id none (s.core n).sys.audit := by
  simp [State.finishTask, hr, he, ho, TaskRec.vouches, hk]

/-- The end step of a stopped task without an error and with no command under way: it waits for what has not retired, else the task
finishes. -/
theorem State.taskOver_eq {s : State} {n : Nat} (ht : (s.core n).tsk.task.isNone = false) (hp : (s.core n).pend = [])
    (he : (s.core n).tsk.ending = none) (ha : (s.core n).allStopped = true) (hf : (s.core n).faultDue = false)
    (hm : ∃ q, ((s.core n).seq q).mode = .ended) (hc : (s.core n).cmds = []) :
    s.taskOver n = if (s.core n).retired then (s.setCore n (s.core n)).finishTask n
      else (s.setCore n (s.core n)).sched (s.stc + 1) phTask (.taskEnd n) := by
  have someEnded : (allSeqs.any fun q => ((s.core n).seq q).mode = .ended) = true := by
    obtain ⟨q, hq⟩ := hm
    exact List.any_eq_true.mpr ⟨q, by cases q <;> decide, by simpa using hq⟩
  have nothing : (s.setCore n (s.core n)).giveUp n = s.setCore n (s.core n) := by
    apply State.giveUp_idle <;> rw [State.setCore_core] <;> assumption
  simp only [State.taskOver, Core.settle_idle hp, nothing, State.setCore_core, ht, he, ha, hf, someEnded]
  cases (s.core n).retired <;> rfl

theorem taskEnd_waits {s : State} {n : Nat} (ht : (s.core n).tsk.task.isNone = false) (hp : (s.core n).pend = [])
    (he : (s.core n).tsk.ending = none) (ha : (s.core n).allStopped = true) (hf : (s.core n).faultDue = false)
    (hm : ∃ q, ((s.core n).seq q).mode = .ended) (hc : (s.core n).cmds = []) (hr : (s.core n).retired = false) :
    ∃ u, exec (.taskEnd n) s = .next u ∧ ⟨s.stc + 1, phTask, .taskEnd n, {}, {}⟩ ∈ u.agenda ∧ u.recs = s.recs := by
  have next := State.taskOver_eq ht hp he ha hf hm hc
  rw [hr] at next
  exact ⟨_, congrArg Host.Outcome.next next, (State.mem_sched ..).mpr (.inl rfl), rfl⟩

theorem Core.cmds_of_retired {c : Core} (h : c.retired = true) : c.cmds = [] := by
  simp only [Core.retired, Bool.and_eq_true, List.isEmpty_iff] at h
  tauto

/-- The end step of a task whose work has retired: the core is free, the record ended with its weight, which is on its way back. -/
theorem taskEnd_ends {s : State} {n : Nat} {r : TaskRec} (ho : s.recOf n = some r) (hr : s.rec? r.id = some r)
    (hn : s.coreOfTask r.id = some n) (hst : r.st = .run) (hk : r.kind = .ordinary) (hout : r.outs = []) (hp : (s.core n).pend = [])
    (he : (s.core n).tsk.ending = none) (ha : (s.core n).allStopped = true) (hf : (s.core n).faultDue = false)
    (hm : ∃ q, ((s.core n).seq q).mode = .ended) (hq : s.CtxsQuiet) (hd : (s.core n).retired = true) :
    ∃ u x, exec (.taskEnd n) s = .next u ∧ (u.core n).tsk.task = none ∧ u.rec? r.id = some x ∧ x.st = .ended ∧ x.weight = r.weight ∧
      (r.weightBack = false → u.hasJob (.weightReturn r.id) = true) := by
  have task := State.recOf_task ho
  have next := State.taskOver_eq (by rw [task]; rfl) hp he ha hf hm (Core.cmds_of_retired hd)
  have recOf : (s.setCore n (s.core n)).recOf n = some r := by rw [State.recOf, State.setCore_core]; exact ho
  have held := State.coreOfTask_setCore hn task
  rw [if_pos hd, State.finishTask_plain recOf hk hout (by rw [State.setCore_core]; exact he)] at next
  generalize hs' : s.setCore n (s.core n) = t at next held
  have found : t.rec? r.id = some r := by rw [← hs']; exact hr
  obtain ⟨offRecs, offCtxs⟩ := t.offCore_frame r.id
  obtain ⟨cores, recs⟩ := t.endedRec_tables r
  have ended : (t.endedRec r).rec? r.id = some r.asEnded := by
    have listed : (t.offCore r.id).rec? r.asEnded.id = some r := by rw [State.rec?, offRecs]; exact found
    rw [State.rec?, recs]
    exact State.setRec_rec? listed
  have quiet : (t.endedRec r).CtxsQuiet := State.endedRec_ctxsQuiet r (hq.of_ctxs (by rw [offCtxs, ← hs']; rfl))
  obtain ⟨kept, returns⟩ := State.endRec_keeps found (by rw [hst]; decide) hk hout quiet ended none (t.core n).sys.audit
  refine ⟨_, r.asEnded, congrArg Host.Outcome.next next, ?_, ?_, rfl, rfl, returns⟩
  · rw [State.core_of_cores (kept.cores.trans cores)]
    exact State.offCore_free held
  · rw [State.rec?, kept.recs]
    exact ended

/-- Settles O46: the start of a task, the end of its window, and its end step, each clause by its lemma. -/
theorem tasksStartAndEnd : Obligations.TasksStartAndEnd := by
  unfold Obligations.TasksStartAndEnd
  refine ⟨fun s r l hr hl => ?_, fun s n r hr hs he ha => ?_, fun s n r ho hr hn hst hk hout hp he ha hf hm hq => ?_⟩
  · exact ⟨prologueStart_loads hr hl, coreSpanStart_loads hr hl, taskRunStart_runs hr⟩
  · exact ⟨windowEnd_stops hr hs he, windowEnd_faults hr hs he ha⟩
  · exact ⟨taskEnd_ends ho hr hn hst hk hout hp he ha hf hm hq,
      taskEnd_waits (by rw [State.recOf_task ho]; rfl) hp he ha hf hm⟩

end Sys2Proof.Machine

/-! SUPPORT. The blocks of a matrix command: what a packed row and a packed cell read as, what a dense block leaves in its tile and a
counted block in its bank, and the ends of a block's read, addition and count (03 R76, R77, R79; 07 R181, R183, R184). -/

namespace Sys2Proof.Machine

-- one after another: every waiting worker thread counts towards the check's memory limit
set_option Elab.async false

/-! ### Packed digits -/

/-- Digit i of a packed list. -/
theorem bitsN_packNat (w : Nat) (xs : List Nat) (i : Nat) : bitsN (packNat w xs) (w * i) w = xs.getD i 0 % 2 ^ w := by
  induction xs generalizing i with
  | nil => simp [packNat, bitsN]
  | cons x t ih =>
    cases i with
    | zero => simp [packNat, bitsN]
    | succ i =>
      have shifted : packNat w (x :: t) / 2 ^ w = packNat w t := by
        rw [packNat, Nat.add_mul_div_left _ _ (Nat.two_pow_pos w), Nat.div_eq_of_lt (Nat.mod_lt _ (Nat.two_pow_pos w)), Nat.zero_add]
      rw [List.getD_cons_succ, ← ih i, bitsN, Nat.mul_succ, Nat.add_comm, Nat.pow_add, ← Nat.div_div_eq_div_mul, shifted, bitsN]

/-- A field of a word is that of the number it was made from. -/
theorem bitsN_ofNat (x : Nat) {lo w k : Nat} (h : lo + w ≤ k) : bitsN (BitVec.ofNat k x).toNat lo w = bitsN x lo w := by
  obtain ⟨d, rfl⟩ := Nat.exists_eq_add_of_le h
  rw [BitVec.toNat_ofNat, bitsN, Nat.add_assoc, Nat.pow_add, Nat.mod_mul_right_div_self,
    Nat.mod_mod_of_dvd _ (Nat.pow_dvd_pow 2 (Nat.le_add_right w d)), bitsN]

theorem rowElem_rowOf (xs : List Nat) {j : Nat} (h : j < 128) : rowElem (rowOf xs) j = xs.getD j 0 % 2 ^ 32 := by
  rw [rowElem, rowOf, bitsN_ofNat _ (by omega), bitsN_packNat]

theorem cellCtr_cellOf (xs : List Int) {x : Nat} (h : x < 24) : cellCtr (cellOf xs) x = Fp.signedOf 12 (Fp.wrapN 12 (xs.getD x 0)) := by
  have digit : (xs.map (Fp.wrapN 12)).getD x (Fp.wrapN 12 0) = Fp.wrapN 12 (xs.getD x 0) := List.getD_map ..
  rw [show Fp.wrapN 12 0 = 0 from rfl] at digit
  rw [cellCtr, cellOf, bitsN_ofNat _ (by omega), bitsN_packNat, digit, Fp.signedOf, Fp.signedOf, Nat.mod_mod]

/-! ### Folds that act at keys -/

/-- A fold of which no element acts on a value. -/
theorem foldl_value_kept {σ α β : Type} {g : σ → β} {f : σ → α → σ} {l : List α} (h : ∀ x ∈ l, ∀ s, g (f s x) = g s) (s : σ) :
    g (l.foldl f s) = g s := by
  induction l generalizing s with
  | nil => rfl
  | cons x t ih => rw [List.foldl_cons, ih fun y hy => h y (List.mem_cons_of_mem x hy), h x List.mem_cons_self]

/-- A fold of which one element acts on a value, and the others, of other keys, leave it. -/
theorem foldl_value_at_key {σ α β : Type} {g : σ → β} {f : σ → α → σ} {key : α → Nat} {v : β → β} {l : List α} {x : α} (hx : x ∈ l)
    (nodup : (l.map key).Nodup) (own : ∀ s, g (f s x) = v (g s)) (others : ∀ s y, key y ≠ key x → g (f s y) = g s) (s : σ) :
    g (l.foldl f s) = v (g s) := by
  induction l generalizing s with
  | nil => cases hx
  | cons y t ih =>
    rw [List.map_cons, List.nodup_cons] at nodup
    obtain ⟨fresh, nodup⟩ := nodup
    rw [List.foldl_cons]
    rcases List.mem_cons.mp hx with rfl | hx
    · rw [foldl_value_kept (g := g) fun z hz s => others s z fun e => fresh (e ▸ List.mem_map_of_mem hz), own]
    · rw [ih hx nodup, others]
      exact fun e => fresh (e ▸ List.mem_map_of_mem hx)

/-! ### A dense block in its tile (03 R76, R77; 07 R183) -/

/-- Row i of a tile that has been set. -/
theorem setTile_row_same (m : MxSt) (t : Nat) {rows : List Row} (h : rows.length = 128) {i : Nat} (hi : i < 128) :
    (setTile m t rows).row t i = rows.getD i 0 := by
  have held : (i, rows.getD i 0) ∈ (List.range 128).zip rows := by
    refine List.mem_iff_getElem.mpr ⟨i, by simp [h, hi], ?_⟩
    simp [h, hi]
  refine foldl_value_at_key (g := fun m => m.row t i) (v := fun _ => rows.getD i 0) (key := Prod.fst) held ?_ ?_ ?_ m
  · rw [List.map_fst_zip (by simp [h])]
    exact List.nodup_range
  · exact fun m => SMap.get_put ..
  · exact fun m p hp => SMap.get_put_ne _ _ _ _ _ (by simp only at hp; omega)

/-- Setting a tile leaves the rows of other tiles. -/
theorem setTile_row_ne (m : MxSt) {t k i : Nat} (rows : List Row) (hk : k ≠ t) (hi : i < 128) : (setTile m t rows).row k i = m.row k i := by
  refine foldl_value_kept (g := fun m => m.row k i) (fun p hp m => ?_) m
  have inTile : p.1 < 128 := List.mem_range.mp (List.of_mem_zip hp).1
  exact SMap.get_put_ne _ _ _ _ _ (by omega)

/-- Setting a tile changes the accumulators alone. -/
theorem setTile_eq (m : MxSt) (t : Nat) (rows : List Row) : ∃ acc, setTile m t rows = { m with acc := acc } :=
  foldl_related (R := fun m m' => ∃ acc, m' = { m with acc := acc }) (fun m => ⟨m.acc, rfl⟩)
    (fun ⟨_, h⟩ ⟨acc, h'⟩ => ⟨acc, by rw [h', h]⟩) (fun _ _ => ⟨_, rfl⟩) ((List.range 128).zip rows) m

@[simp] theorem tileOf_length (m : MxSt) (t : Nat) : (tileOf m t).length = 128 := by simp [tileOf]
@[simp] theorem aRows_length (c : Nat) (blk scale : List Byte) : (aRows c blk scale).length = 128 := by simp [aRows]
@[simp] theorem bCols_length (c : Nat) (blk scale : List Byte) : (bCols c blk scale).length = 128 := by simp [bCols]

@[simp] theorem mmaAdd_length {fw : FmtWord} {rows : List Row} {a b : List (List Fp.FVal)} {adj : SMap (Int × Int)} (hr : rows.length = 128)
    (ha : a.length = 128) : (mmaAdd fw rows a b adj).length = 128 := by simp [mmaAdd, hr, ha]

/-- Element j of row i after a dense block without a net error in any cell. -/
theorem mmaAdd_elem (fw : FmtWord) {rows : List Row} {a b : List (List Fp.FVal)} (hr : rows.length = 128) (ha : a.length = 128)
    (hb : b.length = 128) {i j : Nat} (hi : i < 128) (hj : j < 128) :
    rowElem ((mmaAdd fw rows a b []).getD i 0) j =
      accAdd fw.rm (blockSum (a.getD i []) (b.getD j []) (0, 0)) (rowElem (rows.getD i 0) j) % 2 ^ 32 := by
  have row : (mmaAdd fw rows a b []).getD i 0 = rowOf ((b.zip (List.range 128)).map fun q =>
      accAdd fw.rm (blockSum (a.getD i []) q.1 (0, 0)) (rowElem (rows.getD i 0) q.2)) := by
    simp [mmaAdd, hr, ha, hi, SMap.get]
  rw [row, rowElem_rowOf _ hj]
  simp [hb, hj]

theorem tileOf_getD (m : MxSt) (t : Nat) {i : Nat} (hi : i < 128) : (tileOf m t).getD i 0 = m.row t i := by simp [tileOf, hi]

/-! ### A counted block in its bank (03 R79; 07 R184) -/

/-- The class of a nonzero product of magnitudes is its place among the six products (02 R49). -/
theorem classOf_eq_findIdx : ∀ a < 4, ∀ b < 4, a * b ≠ 0 → classOf (a * b) = [1, 2, 3, 4, 6, 9].findIdx (fun v => v = a * b) := by decide

/-- What a pair of nibbles adds to counter x. -/
theorem stitchPair_counts (a b x : Nat) :
    (stitchPair a b).elim 0 (fun p => if p.1 = x then p.2 else 0) = Rules.pairCount a b x := by
  by_cases hp : a % 4 * (b % 4) = 0
  · simp [stitchPair, Rules.pairCount, hp]
  · simp [stitchPair, Rules.pairCount, hp, classOf_eq_findIdx _ (Nat.mod_lt a (by decide)) _ (Nat.mod_lt b (by decide)) hp, eq_comm]

/-- The counts found along a list of pairs. -/
theorem foldl_stitchPairs (l : List (Nat × Nat)) (x : Nat) (n : Int) :
    (l.filterMap fun p => stitchPair p.1 p.2).foldl (fun s p => if p.1 = x then s + p.2 else s) n =
      n + (l.map fun p => Rules.pairCount p.1 p.2 x).sum := by
  induction l generalizing n with
  | nil => simp
  | cons p t ih =>
    rw [List.map_cons, List.sum_cons, ← stitchPair_counts, List.filterMap_cons]
    cases stitchPair p.1 p.2 with
    | none => simp [ih]
    | some q =>
      simp only [List.foldl_cons, ih, Option.elim]
      split <;> omega

/-- The cells that a block counts into, with what it adds to their 24 counters. -/
def blockCells (ablk bblk : List Byte) : List (Nat × List Int) :=
  (List.range 128).flatMap fun i => (List.range 128).map fun j =>
    (128 * i + j, (List.range 24).map (Rules.blockCount ablk bblk i j))

/-- The nibbles of a row and of a column count what 03 R79 gives for their cell. -/
theorem stitchDelta_block (ablk bblk : List Byte) (i j : Nat) :
    stitchDelta ((List.range 32).map fun kk => bitsN (leVal ablk) (4 * (32 * i + kk)) 4)
        ((List.range 32).map fun kk => bitsN (leVal bblk) (4 * (128 * kk + j)) 4) =
      (List.range 24).map (Rules.blockCount ablk bblk i j) := by
  have nibble : ∀ n k : Nat, bitsN n (4 * k) 4 = n / 16 ^ k % 16 := fun n k => by rw [bitsN, Nat.pow_mul]; rfl
  simp only [stitchDelta, List.zip_map', foldl_stitchPairs, nibble, List.map_map, Int.zero_add]
  rfl

theorem blockCells_eq (ablk bblk : List Byte) :
    ((nibRows ablk).zip (List.range 128)).flatMap (fun p =>
      ((nibCols bblk).zip (List.range 128)).map fun q => (128 * p.2 + q.2, stitchDelta p.1 q.1)) = blockCells ablk bblk := by
  have indexed : ∀ f : Nat → List Nat, ((List.range 128).map f).zip (List.range 128) = (List.range 128).map fun i => (f i, i) := fun f => by
    simpa using List.zip_map' (f := f) (g := id) (l := List.range 128)
  simp only [nibRows, nibCols, indexed, List.flatMap_map, List.map_map, blockCells]
  simp only [Function.comp_def, stitchDelta_block]

/-- Each cell is counted into once. -/
theorem blockCells_nodup (ablk bblk : List Byte) : ((blockCells ablk bblk).map Prod.fst).Nodup := by
  simp only [blockCells, List.map_flatMap, List.map_map, List.nodup_flatMap]
  refine ⟨fun i _ => List.nodup_range.map fun j j' h => ?_, ?_⟩
  · simpa using h
  · refine List.Pairwise.imp_of_mem ?_ List.nodup_range
    intro i i' _ _ ne
    simp only [Function.onFun, List.disjoint_left, List.mem_map, List.mem_range, Function.comp_apply]
    rintro _ ⟨j, hj, rfl⟩ ⟨j', hj', h⟩
    omega

/-- The counters of one cell move by what a block adds to them. -/
def countCell (m : SMap (BitVec 288)) (p : Nat × List Int) : SMap (BitVec 288) :=
  let new := cellOf ((List.range 24).map fun x => cellCtr (SMap.get 0 m p.1) x + p.2.getD x 0)
  if new = SMap.get 0 m p.1 then m else SMap.put 0 m p.1 new

theorem countCell_same (m : SMap (BitVec 288)) (p : Nat × List Int) :
    SMap.get 0 (countCell m p) p.1 = cellOf ((List.range 24).map fun x => cellCtr (SMap.get 0 m p.1) x + p.2.getD x 0) := by
  unfold countCell
  dsimp only
  split
  · rename_i same; exact same.symm
  · exact SMap.get_put ..

theorem countCell_ne (m : SMap (BitVec 288)) {p : Nat × List Int} {k : Nat} (h : p.1 ≠ k) :
    SMap.get 0 (countCell m p) k = SMap.get 0 m k := by
  unfold countCell
  dsimp only
  split
  · rfl
  · exact SMap.get_put_ne _ _ _ _ _ h.symm

/-- Counter x of cell (i, j) after a block. -/
theorem foldl_countCell_ctr (m : SMap (BitVec 288)) (ablk bblk : List Byte) {i j x : Nat} (hi : i < 128) (hj : j < 128) (hx : x < 24) :
    cellCtr (SMap.get 0 ((blockCells ablk bblk).foldl countCell m) (128 * i + j)) x =
      Fp.signedOf 12 (Fp.wrapN 12 (cellCtr (SMap.get 0 m (128 * i + j)) x + Rules.blockCount ablk bblk i j x)) := by
  have cell : (128 * i + j, (List.range 24).map (Rules.blockCount ablk bblk i j)) ∈ blockCells ablk bblk :=
    List.mem_flatMap.mpr ⟨i, List.mem_range.mpr hi, List.mem_map.mpr ⟨j, List.mem_range.mpr hj, rfl⟩⟩
  rw [foldl_value_at_key (g := fun m => SMap.get 0 m (128 * i + j)) (key := Prod.fst) cell (blockCells_nodup ablk bblk)
    (v := fun c => cellOf ((List.range 24).map fun x => cellCtr c x + ((List.range 24).map (Rules.blockCount ablk bblk i j)).getD x 0))
    (fun m => countCell_same m _) (fun m p hp => countCell_ne m hp), cellCtr_cellOf _ hx]
  simp [hx]

/-- A checksum counter moves by the amounts of its key. -/
theorem addCtrs_get (m : SMap (BitVec 20)) (xs : List (Nat × Int)) (k : Nat) :
    SMap.get 0 (addCtrs m xs) k = SMap.get 0 m k + BitVec.ofInt 20 (xs.map fun p => if p.1 = k then p.2 else 0).sum := by
  induction xs generalizing m with
  | nil => simp [addCtrs]
  | cons p t ih =>
    have step : SMap.get 0 (if p.2 = 0 then m else SMap.put 0 m p.1 (SMap.get 0 m p.1 + BitVec.ofInt 20 p.2)) k =
        SMap.get 0 m k + BitVec.ofInt 20 (if p.1 = k then p.2 else 0) := by
      by_cases hk : p.1 = k
      · subst hk
        by_cases h0 : p.2 = 0
        · simp [h0]
        · simp [h0]
      · rw [if_neg hk]
        split
        · simp
        · simp [SMap.get_put_ne _ _ _ _ _ (Ne.symm hk)]
    rw [List.map_cons, List.sum_cons, BitVec.ofInt_add, ← BitVec.add_assoc, ← step]
    exact ih _

/-- The amounts that a block's cells add to the checksum counters, 24 to a line of cells. -/
def lineAmounts (line : Nat → Nat) (cells : List (Nat × List Int)) : List (Nat × Int) :=
  cells.flatMap fun p => (List.range 24).map fun x => (24 * line p.1 + x, p.2.getD x 0)

theorem foldl_addCtrs (line : Nat → Nat) (cells : List (Nat × List Int)) (m : SMap (BitVec 20)) :
    cells.foldl (fun m p => addCtrs m ((List.range 24).map fun x => (24 * line p.1 + x, p.2.getD x 0))) m =
      addCtrs m (lineAmounts line cells) := by
  simp only [addCtrs, lineAmounts, List.foldl_flatMap]

/-- A sum of which one index counts. -/
theorem sum_range_ite_eq {n k : Nat} (hk : k < n) (f : Nat → Int) :
    ((List.range n).map fun i => if i = k then f i else 0).sum = f k := by
  rw [List.sum_map_ite_eq, List.count_eq_one_of_mem List.nodup_range (List.mem_range.mpr hk)]
  simp

theorem sum_map_flatMap {α β : Type} (l : List α) (f : α → List β) (g : β → Int) :
    ((l.flatMap f).map g).sum = (l.map fun a => ((f a).map g).sum).sum := by
  rw [List.map_flatMap, List.flatMap_def, List.sum_flatten, List.map_map]
  rfl

/-- What a block adds to checksum counter x of line c: what it adds to counter x of the line's cells. -/
theorem sum_lineAmounts (line : Nat → Nat) (ablk bblk : List Byte) {c x : Nat} (hx : x < 24) :
    ((lineAmounts line (blockCells ablk bblk)).map fun p => if p.1 = 24 * c + x then p.2 else 0).sum =
      ((List.range 128).map fun i => ((List.range 128).map fun j =>
        if line (128 * i + j) = c then Rules.blockCount ablk bblk i j x else 0).sum).sum := by
  have cell : ∀ i j, ((List.range 24).map fun y => if 24 * line (128 * i + j) + y = 24 * c + x
      then ((List.range 24).map (Rules.blockCount ablk bblk i j)).getD y 0 else 0).sum =
      if line (128 * i + j) = c then Rules.blockCount ablk bblk i j x else 0 := by
    intro i j
    have counters : ∀ y ∈ List.range 24, (if 24 * line (128 * i + j) + y = 24 * c + x
        then ((List.range 24).map (Rules.blockCount ablk bblk i j)).getD y 0 else 0) =
        if y = x then (if line (128 * i + j) = c then Rules.blockCount ablk bblk i j y else 0) else 0 := by
      intro y hy
      have hy := List.mem_range.mp hy
      have key : 24 * line (128 * i + j) + y = 24 * c + x ↔ y = x ∧ line (128 * i + j) = c := by omega
      simp only [key, ite_and]
      simp [hy]
    rw [List.map_congr_left counters, sum_range_ite_eq hx fun y => if line (128 * i + j) = c then Rules.blockCount ablk bblk i j y else 0]
  simp only [lineAmounts, blockCells, sum_map_flatMap, List.map_map, Function.comp_def, cell]

/-- A counted block without upsets. -/
theorem scntAdd_eq (b : Bank) (ablk bblk : List Byte) :
    scntAdd b ablk bblk [] = { b with
      cnt := (blockCells ablk bblk).foldl countCell b.cnt,
      kr := addCtrs b.kr (lineAmounts (· % 128) (blockCells ablk bblk)),
      kc := addCtrs b.kc (lineAmounts (· / 128) (blockCells ablk bblk)),
      depth := b.depth + 1 } := by
  unfold scntAdd
  extract_lets +onlyGivenNames ar bc cells
  have listed : cells = blockCells ablk bblk := blockCells_eq ..
  rw [← listed]
  clear_value cells
  -- as a hypothesis it is rewritten with, where the kernel would evaluate the folds to compare them
  have noUpset : ∀ {σ : Type} (f : σ → Upset → σ) (x : σ), [].foldl f x = x := fun _ _ => List.foldl_nil
  simp only [noUpset, ← foldl_addCtrs, Int.add_zero]
  rfl

@[simp] theorem scntAdd_depth (b : Bank) (ablk bblk : List Byte) (us : List Upset) : (scntAdd b ablk bblk us).depth = b.depth + 1 := by
  simp only [scntAdd]
@[simp] theorem scntAdd_ea (b : Bank) (ablk bblk : List Byte) (us : List Upset) : (scntAdd b ablk bblk us).ea = b.ea := by
  simp only [scntAdd]
@[simp] theorem scntAdd_eb (b : Bank) (ablk bblk : List Byte) (us : List Upset) : (scntAdd b ablk bblk us).eb = b.eb := by
  simp only [scntAdd]

/-- Counter x of cell (i, j). -/
theorem scntAdd_ctr (b : Bank) (ablk bblk : List Byte) {i j x : Nat} (hi : i < 128) (hj : j < 128) (hx : x < 24) :
    cellCtr ((scntAdd b ablk bblk []).cell i j) x =
      Fp.signedOf 12 (Fp.wrapN 12 (cellCtr (b.cell i j) x + Rules.blockCount ablk bblk i j x)) := by
  simp only [scntAdd_eq, Bank.cell, foldl_countCell_ctr _ _ _ hi hj hx]

/-- The checksum counters of column j. -/
theorem scntAdd_kr (b : Bank) (ablk bblk : List Byte) {j x : Nat} (hj : j < 128) (hx : x < 24) :
    SMap.get 0 (scntAdd b ablk bblk []).kr (24 * j + x) =
      SMap.get 0 b.kr (24 * j + x) + BitVec.ofInt 20 ((List.range 128).map fun m => Rules.blockCount ablk bblk m j x).sum := by
  have rowSum : ∀ i, ((List.range 128).map fun m => if (128 * i + m) % 128 = j then Rules.blockCount ablk bblk i m x else 0).sum =
      Rules.blockCount ablk bblk i j x := by
    intro i
    rw [← sum_range_ite_eq hj fun m => Rules.blockCount ablk bblk i m x]
    refine congrArg List.sum (List.map_congr_left fun m hm => ?_)
    have hm := List.mem_range.mp hm
    rw [show (128 * i + m) % 128 = m by omega]
  rw [scntAdd_eq, addCtrs_get, sum_lineAmounts _ _ _ hx]
  simp only [rowSum]

/-- The checksum counters of row i. -/
theorem scntAdd_kc (b : Bank) (ablk bblk : List Byte) {i x : Nat} (hi : i < 128) (hx : x < 24) :
    SMap.get 0 (scntAdd b ablk bblk []).kc (24 * i + x) =
      SMap.get 0 b.kc (24 * i + x) + BitVec.ofInt 20 ((List.range 128).map fun m => Rules.blockCount ablk bblk i m x).sum := by
  have rowSum : ∀ k, ((List.range 128).map fun m => if (128 * k + m) / 128 = i then Rules.blockCount ablk bblk k m x else 0).sum =
      if k = i then ((List.range 128).map fun m => Rules.blockCount ablk bblk k m x).sum else 0 := by
    intro k
    have sameRow : ∀ m ∈ List.range 128, (if (128 * k + m) / 128 = i then Rules.blockCount ablk bblk k m x else 0) =
        if k = i then Rules.blockCount ablk bblk k m x else 0 := by
      intro m hm
      have hm := List.mem_range.mp hm
      rw [show (128 * k + m) / 128 = k by omega]
    rw [List.map_congr_left sameRow]
    split <;> simp
  rw [scntAdd_eq, addCtrs_get, sum_lineAmounts _ _ _ hx]
  simp only [rowSum]
  rw [sum_range_ite_eq hi fun k => ((List.range 128).map fun m => Rules.blockCount ablk bblk k m x).sum]

/-! ### Runs and banks -/

/-- A run put in the place of one with its number is found under it. -/
theorem Core.run?_replaced {c d : Core} {id : Nat} {x r : MxRun} (h : c.run? id = some x) (hr : r.cmd.id = id)
    (hd : d.mx.runs = c.mx.runs.map fun y => if y.cmd.id = id then r else y) : d.run? id = some r := by
  unfold Core.run? at h ⊢
  rw [hd]
  generalize c.mx.runs = l at h
  induction l with
  | nil => cases h
  | cons y t ih =>
    by_cases hy : y.cmd.id = id
    · simp [hy, hr]
    · simp only [List.find?_cons, hy, decide_false] at h
      simp [hy, ih h]

theorem Core.run?_id {c : Core} {id : Nat} {r : MxRun} (h : c.run? id = some r) : r.cmd.id = id := by
  simpa using List.find?_some h

@[simp] theorem Core.setRun_row (c : Core) (r : MxRun) (k i : Nat) : (c.setRun r).mx.row k i = c.mx.row k i := rfl
@[simp] theorem Core.setRun_acc (c : Core) (r : MxRun) : (c.setRun r).mx.acc = c.mx.acc := rfl
@[simp] theorem Core.setRun_bank (c : Core) (r : MxRun) (k : Nat) : (c.setRun r).bank k = c.bank k := rfl

@[simp] theorem Core.setBank_bank (c : Core) (k : Nat) (b : Bank) : (c.setBank k b).bank k = b := by
  unfold Core.setBank Core.bank
  split <;> rfl

theorem Core.setBank_bank_other (c : Core) (k : BitVec 1) (b : Bank) :
    (c.setBank k.toNat b).bank (1 - k.toNat) = c.bank (1 - k.toNat) := by
  obtain rfl | rfl : k = 0 ∨ k = 1 := by decide +revert
  · rfl
  · rfl

@[simp] theorem Core.setBank_acc (c : Core) (k : Nat) (b : Bank) : (c.setBank k b).mx.acc = c.mx.acc := by
  unfold Core.setBank
  split <;> rfl

/-! ### The read of a block (07 R181) -/

/-- What a read block brings at its end: its addition, or its count. -/
def MxRun.blockEffect (r : MxRun) (n id b : Nat) : Instr :=
  match r.cmd.op with
  | .mma .. => .mmaBlockAdd n id b
  | _ => .scntBlockCount n id b

/-- A read whose slots are filled: the run has read the block, its effect and the next read are placed. -/
theorem State.blockRead_filled {s : State} {n id b : Nat} {r : MxRun} (h : (s.core n).run? id = some r) (hw : r.waiting = false)
    (hf : ∀ p ∈ r.perBlock, slotFilled (s.core n).mx p.1 (p.2 + b) = true) :
    ∃ c : Core, c.mx = ((s.core n).setRun { r with read := b + 1, blocks := r.blocks ++ [([], [], [], [])] }).mx ∧
      s.blockRead n id b =
        (let t := (s.setCore n c).sched (s.stc + r.bc + r.lat) phMatrix (r.blockEffect n id b)
        if b + 1 < r.nb then t.sched (s.stc + r.bc) phEngine (.ringBlockRead n id (b + 1)) else t) := by
  have filled : (r.perBlock.any fun p => !slotFilled (s.core n).mx p.1 (p.2 + b)) = false := by
    simpa [List.any_eq_false] using hf
  unfold State.blockRead
  simp only [h, hw, filled, Bool.false_eq_true, if_false]
  refine ⟨_, ?_, rfl⟩
  rfl

/-- An empty slot outside a calendar region stalls the array. -/
theorem State.blockRead_empty {s : State} {n id b : Nat} {r : MxRun} (h : (s.core n).run? id = some r) (hw : r.waiting = false)
    (he : ∃ p ∈ r.perBlock, slotFilled (s.core n).mx p.1 (p.2 + b) = false) (hc : r.cmd.cal = false) :
    s.blockRead n id b = s.stallRun n r (.ringBlockRead n id b) := by
  have empty : (r.perBlock.any fun p => !slotFilled (s.core n).mx p.1 (p.2 + b)) = true := by
    simpa [List.any_eq_true] using he
  simp only [State.blockRead, h, hw, empty, hc, Bool.false_eq_true, if_false, if_true]

/-- A stalled run counts one more cycle, and its event falls due again in the next. -/
theorem State.stallRun_stalls {s : State} {n id : Nat} {r : MxRun} (h : (s.core n).run? id = some r) (ev : Instr) :
    (((s.stallRun n r ev).core n).run? id = some { r with stall := r.stall + 1 }) ∧
      ⟨s.stc + 1, phEngine, ev, {}, {}⟩ ∈ (s.stallRun n r ev).agenda := by
  have id_eq := Core.run?_id h
  refine ⟨Core.run?_replaced h id_eq ?_, (State.mem_sched ..).mpr (.inl rfl)⟩
  simp only [State.stallRun, State.sched_core, State.modCore_core, id_eq]
  rfl

/-- The read of a block whose slots are filled (07 R181, R183, R184). -/
theorem ringBlockRead_filled {s : State} {n id b : Nat} {r : MxRun} (h : (s.core n).run? id = some r) (hw : r.waiting = false)
    (hf : ∀ p ∈ r.perBlock, slotFilled (s.core n).mx p.1 (p.2 + b) = true) :
    ∃ u, exec (.ringBlockRead n id b) s = .next u ∧
      (∃ r', (u.core n).run? id = some r' ∧ r'.read = b + 1 ∧ r'.cmd = r.cmd) ∧
      ((∃ t a, r.cmd.op = .mma t a) → ⟨s.stc + r.bc + r.lat, phMatrix, .mmaBlockAdd n id b, {}, {}⟩ ∈ u.agenda) ∧
      ((∃ k a, r.cmd.op = .scnt k a) → ⟨s.stc + r.bc + r.lat, phMatrix, .scntBlockCount n id b, {}, {}⟩ ∈ u.agenda) ∧
      (b + 1 < r.nb → ⟨s.stc + r.bc, phEngine, .ringBlockRead n id (b + 1), {}, {}⟩ ∈ u.agenda) := by
  obtain ⟨c, mx, next⟩ := State.blockRead_filled h hw hf
  have core : (s.blockRead n id b).core n = c := by rw [next]; dsimp only; split <;> simp
  have effect : ⟨s.stc + r.bc + r.lat, phMatrix, r.blockEffect n id b, {}, {}⟩ ∈ (s.blockRead n id b).agenda := by
    rw [next]; dsimp only; split <;> simp [State.mem_sched]
  refine ⟨s.blockRead n id b, rfl, ⟨{ r with read := b + 1, blocks := r.blocks ++ [([], [], [], [])] }, ?_, rfl, rfl⟩, ?_, ?_, fun hb => ?_⟩
  · have id_eq := Core.run?_id h
    rw [core]
    refine Core.run?_replaced h id_eq ?_
    rw [mx, ← id_eq]
    rfl
  · rintro ⟨t, a, op⟩
    simpa only [MxRun.blockEffect, op] using effect
  · rintro ⟨k, a, op⟩
    simpa only [MxRun.blockEffect, op] using effect
  · rw [next]
    simp [hb, State.mem_sched]

/-! ### The end of a block's addition and of its count (07 R183, R184) -/

/-- The run of a block that has taken effect: the block is behind it. -/
def MxRun.blockDone (r : MxRun) (b : Nat) : MxRun := { r with added := b + 1, blocks := r.blocks.set b ([], [], [], []) }

/-- Block b of a run has taken effect on its core; after the last one the command retires. -/
def State.blockDone (s : State) (n id b : Nat) (r : MxRun) (c : Core) : State :=
  let t := s.setCore n (c.setRun (r.blockDone b))
  if b + 1 = r.nb then t.sched s.stc phMatrix (.matrixRetire n id) else t

@[simp] theorem State.blockDone_core (s : State) (n id b : Nat) (r : MxRun) (c : Core) :
    (s.blockDone n id b r c).core n = c.setRun (r.blockDone b) := by
  unfold State.blockDone
  dsimp only
  split <;> simp

@[simp] theorem State.blockDone_dram (s : State) (n id b : Nat) (r : MxRun) (c : Core) : (s.blockDone n id b r c).dram = s.dram := by
  unfold State.blockDone
  dsimp only
  split <;> rfl

theorem State.blockDone_retires (s : State) {n id b : Nat} {r : MxRun} (c : Core) (h : b + 1 = r.nb) :
    ⟨s.stc, phMatrix, .matrixRetire n id, {}, {}⟩ ∈ (s.blockDone n id b r c).agenda := by
  simp [State.blockDone, h, State.mem_sched]

/-- A set without mismatches lets its block proceed. -/
theorem ckOutcome_nil {α : Type} [DecidableEq α] (mode : CkMode) : ckOutcome mode ([] : List (Nat × α)) [] = .proceed := by
  cases mode <;> rfl

/-- The rows that a dense block without upsets leaves in its tile. -/
def MxRun.sumRows (r : MxRun) (m : MxSt) (t b : Nat) : List Row :=
  let blk := r.blocks.getD b ([], [], [], [])
  mmaAdd r.fmt (tileOf m t) (aRows r.fmt.af blk.1 blk.2.2.1) (bCols r.fmt.bf blk.2.1 blk.2.2.2) []

/-- The addition of a block without upsets sets the command's tile. -/
theorem State.blockAdd_eq {s : State} {n id b : Nat} {r : MxRun} (h : (s.core n).run? id = some r) (hu : (s.core n).mx.upsets = []) :
    s.blockAdd n id b = s.blockDone n id b r { s.core n with
      mx := setTile (s.core n).mx (Instr.mxT r.cmd.op) (r.sumRows (s.core n).mx (Instr.mxT r.cmd.op) b) } := by
  have taken : (s.core n).mx.takeUpsets b = ([], (s.core n).mx) := by
    rw [MxSt.takeUpsets, hu, List.filter_nil, List.filter_nil, ← hu]
  have noRow : upsetD [] upsetRow = [] := rfl
  have noCol : upsetD [] upsetCol = [] := rfl
  have noError : upsetAdj [] .proceed [] = [] := rfl
  simp only [State.blockAdd, h, taken, noRow, noCol, ckOutcome_nil, noError, reduceCtorEq, if_false]
  rfl

/-- A count changes the bank that its command names. -/
theorem State.blockCount_eq {s : State} {n id b : Nat} {r : MxRun} (h : (s.core n).run? id = some r) :
    s.blockCount n id b = s.blockDone n id b r (({ s.core n with mx := ((s.core n).mx.takeUpsets b).2 } : Core).setBank (Instr.mxBank r.cmd.op)
      (scntAdd ((s.core n).bank (Instr.mxBank r.cmd.op)) (r.blocks.getD b ([], [], [], [])).1 (r.blocks.getD b ([], [], [], [])).2.1
        ((s.core n).mx.takeUpsets b).1)) := by
  simp only [State.blockCount, h]
  rfl

/-- The addition of a block without upsets (03 R76, R77; 07 R183). -/
theorem mmaBlockAdd_adds {s : State} {n id b : Nat} {r : MxRun} {t : RegF} {at_ : BitVec 32} (h : (s.core n).run? id = some r)
    (op : r.cmd.op = .mma t at_) (hu : (s.core n).mx.upsets = []) :
    let f := r.fmt
    let blk := r.blocks.getD b ([], [], [], [])
    ∃ u, exec (.mmaBlockAdd n id b) s = .next u ∧
      (∀ i j, i < 128 → j < 128 → rowElem ((u.core n).mx.row t.toNat i) j =
        accAdd f.rm (blockSum ((aRows f.af blk.1 blk.2.2.1).getD i []) ((bCols f.bf blk.2.1 blk.2.2.2).getD j []) (0, 0))
          (rowElem ((s.core n).mx.row t.toNat i) j) % 2 ^ 32) ∧
      (∀ k i, k ≠ t.toNat → i < 128 → (u.core n).mx.row k i = (s.core n).mx.row k i) ∧
      (u.core n).mx.b0 = (s.core n).mx.b0 ∧ (u.core n).mx.b1 = (s.core n).mx.b1 ∧
      (b + 1 = r.nb → ⟨s.stc, phMatrix, .matrixRetire n id, {}, {}⟩ ∈ u.agenda) ∧ u.dram = s.dram := by
  intro f blk
  have next := State.blockAdd_eq (b := b) h hu
  rw [show Instr.mxT r.cmd.op = t.toNat by rw [op]; rfl] at next
  generalize hrows : r.sumRows (s.core n).mx t.toNat b = rows at next
  have length : rows.length = 128 := by rw [← hrows]; exact mmaAdd_length (tileOf_length ..) (aRows_length ..)
  obtain ⟨acc, banksKept⟩ := setTile_eq (s.core n).mx t.toNat rows
  refine ⟨s.blockAdd n id b, rfl, fun i j hi hj => ?_, fun k i hk hi => ?_, ?_, ?_, fun hb => ?_, ?_⟩ <;> rw [next]
  · rw [State.blockDone_core, Core.setRun_row, setTile_row_same _ _ length hi, ← hrows, MxRun.sumRows,
      mmaAdd_elem _ (tileOf_length ..) (aRows_length ..) (bCols_length ..) hi hj, tileOf_getD _ _ hi]
  · rw [State.blockDone_core, Core.setRun_row, setTile_row_ne _ _ hk hi]
  · rw [State.blockDone_core, banksKept]
    rfl
  · rw [State.blockDone_core, banksKept]
    rfl
  · exact s.blockDone_retires _ hb
  · exact s.blockDone_dram ..

/-- The count of a block (03 R79; 07 R184). -/
theorem scntBlockCount_counts {s : State} {n id b : Nat} {r : MxRun} {k : BitVec 1} {at_ : BitVec 32} (h : (s.core n).run? id = some r)
    (op : r.cmd.op = .scnt k at_) :
    ∃ u, exec (.scntBlockCount n id b) s = .next u ∧
      ((u.core n).bank k.toNat).depth = ((s.core n).bank k.toNat).depth + 1 ∧
      (u.core n).bank (1 - k.toNat) = (s.core n).bank (1 - k.toNat) ∧
      ((u.core n).bank k.toNat).ea = ((s.core n).bank k.toNat).ea ∧ ((u.core n).bank k.toNat).eb = ((s.core n).bank k.toNat).eb ∧
      (u.core n).mx.acc = (s.core n).mx.acc ∧
      ((s.core n).mx.upsets = [] →
        let old := (s.core n).bank k.toNat
        let new := (u.core n).bank k.toNat
        let add := Rules.blockCount (r.blocks.getD b ([], [], [], [])).1 (r.blocks.getD b ([], [], [], [])).2.1
        ∀ i j x, i < 128 → j < 128 → x < 24 →
          cellCtr (new.cell i j) x = Fp.signedOf 12 (Fp.wrapN 12 (cellCtr (old.cell i j) x + add i j x)) ∧
          SMap.get 0 new.kr (24 * j + x) = SMap.get 0 old.kr (24 * j + x) + BitVec.ofInt 20 ((List.range 128).map fun m => add m j x).sum ∧
          SMap.get 0 new.kc (24 * i + x) = SMap.get 0 old.kc (24 * i + x) + BitVec.ofInt 20 ((List.range 128).map fun m => add i m x).sum) ∧
      (b + 1 = r.nb → ⟨s.stc, phMatrix, .matrixRetire n id, {}, {}⟩ ∈ u.agenda) ∧ u.dram = s.dram := by
  have next := State.blockCount_eq (b := b) h
  rw [show Instr.mxBank r.cmd.op = k.toNat by rw [op]; rfl] at next
  have core := (s.blockDone_core n id b r _).symm.trans (congrArg (State.core · n) next.symm)
  have bank := (congrArg (Core.bank · k.toNat) core).symm.trans ((Core.setRun_bank ..).trans (Core.setBank_bank ..))
  refine ⟨s.blockCount n id b, rfl, ?_, ?_, ?_, ?_, ?_, fun hu i j x hi hj hx => ?_, fun hb => ?_, ?_⟩
  · rw [bank, scntAdd_depth]
  · rw [← core, Core.setRun_bank, Core.setBank_bank_other]
    rfl
  · rw [bank, scntAdd_ea]
  · rw [bank, scntAdd_eb]
  · rw [← core, Core.setRun_acc, Core.setBank_acc]
    rfl
  · have none : ((s.core n).mx.takeUpsets b).1 = [] := by rw [MxSt.takeUpsets, hu, List.filter_nil]
    rw [none] at bank
    rw [bank]
    exact ⟨scntAdd_ctr _ _ _ hi hj hx, scntAdd_kr _ _ _ hj hx, scntAdd_kc _ _ _ hi hx⟩
  · rw [next]
    exact s.blockDone_retires _ hb
  · rw [next]
    exact s.blockDone_dram ..

/-- Settles O26: the read of a block with its slots filled and with an empty one, the addition and the count, each by its lemma. -/
theorem matrixBlocks : Obligations.MatrixBlocks := by
  unfold Obligations.MatrixBlocks
  refine ⟨fun s n id b r h hw => ⟨ringBlockRead_filled h hw, fun he hc => ?_⟩, fun s n id b r t at_ h op hu => mmaBlockAdd_adds h op hu,
    fun s n id b r k at_ h op => scntBlockCount_counts h op⟩
  obtain ⟨run, again⟩ := State.stallRun_stalls h (.ringBlockRead n id b)
  exact ⟨_, congrArg Host.Outcome.next (State.blockRead_empty h hw he hc), ⟨_, run, rfl⟩, again⟩

end Sys2Proof.Machine

/-! SUPPORT. Decoding inverts encoding (04 R85 to R106), and which words the decode table refuses (04 R88, R105). -/

namespace Sys2Proof.Laws

open Sys2Proof

-- one after another: every waiting worker thread counts towards the check's memory limit
set_option Elab.async false

/-! ### Every constructor of Instr -/

namespace Encodes

/-- The lemma of each constructor, in the order in which Instr lists them. -/
theorem every (i : Instr) : Statement i :=
  @Instr.casesOn Statement i
    add sub mul mulhi mulhu and or xor andn shl shr sra min max minu maxu clmul clmulh popc clz ctz sel seq slt sltu mov addi
    andi ori xori shli shri srai li lih beq bne blt bge bltu bgeu bz bnz jmp jmpr call callr beng loop loopi mfsr mtsr rdstc
    rdstcT0 rdeng trap vadd vsub vmul vdiv vfma vfms vfnma vfnms vmin vmax vabs vneg vsqrt vrcp vrsqrt vclass vexp vexp2 vlog
    vlog2 verf viadd visub vimul vimulh viand vior vixor vishl vishr visra vimin vimax viabs vpopc vrotr vrotc vbcr vbcc vredr
    vredc vprer vprec vpxorr vpxorc vperm vsel vmov vzip vunzip vcmpeq vcmpne vcmplt vcmple vicmpeq vicmplt vicmple pset pcnt
    pfirst mpush minv spset spshl rrbset vcvt vpk8 vpk4 vupk8 vupk4 vpk8x vpk4x vflrd vflclr vrand fpush mma scnt mholdOn
    mholdOff mdrain mmerge bsave bload azero aload astore wcvt wzero ckctlOn ckctlDetect ckctlOff ringset ringadv ringpop a2v
    v2a ckrd ldspm lddram ldgath ldrg ldscal ldbc pref stspm stdram stscat strg stscal qmark copy copyw fence publishBuf
    publishTile amo ramo damo rwopen rwadd rwaddBlk rwclose pinit ppush ppop tkwait tksig bar book bookq start spawn launch
    wborrow tlfill tlwait tlquery vectorGroupRead vectorCompletion vectorCommit matrixCommandStart ringBlockRead mmaBlockAdd
    scntBlockCount matrixRetire engineFaultTrap loadQueuePush lddramReturn storePerformed gatherElement copyNodeStart copyUnit
    copyNodeRetire publishSwitch rwContribution rwDelivery modeDrainDone calendarT0Resume taskEnd bookingPlacement prologueStart
    coreSpanStart taskRunStart windowEnd preemptRequest preemptCutStop preemptTimeoutStop stateSaveDone restorePrologue
    priorityAging weightReturn barrierDeparture lineageAck replicaComplete darnerWalk verificationCompare spareFill
    spareFillComplete damoArrival damoRetryResend horizonMessage damoWindowClose pairingArrival pairingHoldExpiry
    fallThroughApply atomicResultReturn weightBorrowAck ret retEh modeCal modeSb halt nop mpop rrbdec tend cut queueRotation
    dieWorkSteal bookingRelease teamAdmission teamSwap shardPressureReplication claspPairing multicastWrite ringPacketArrival
    ringPacketResend heartbeat boundaryCut deliveryContextOpen deliveryPacketArrival deliveryResendTimeout deliveryBusyRetry
    deliveryTeardown remoteTranslationReq remoteTranslationReply exportInvalidation pinRelease migrationCopyDone migrationSwitch
    migrationLogRetry migrationFree hcmdLaunch hcmdCtxnew hcmdCtxend hcmdInval hcmdExport hcmdUnexport hcmdMigrate hcmdMcgroup
    icauseWrite imaskWrite registerWrite mresetGo fwstage attreq pcapWrite coldReset pcieReset bringupStage rackStcSync
    powerStateEntry powerStateExit thermalLimit eccCorrection eccReread patrolScrub frameRetirement sramDoubleBitError
    redundantRunCompare testDue testScanStart testScanEnd testAbort sensorAlarm linkFrameReceive linkNakReceive linkKeyExchange
    linkKeyMarker dcpFatalFault rackLinkFailure hostMemoryWrite ringPacketAck deliveryAck linkFrameAck exportInvalidationAck

end Encodes

/-- Settles O1: every constructor by its lemma of the family Encodes. -/
theorem decodeInvertsEncode : Obligations.DecodeInvertsEncode := by
  unfold Obligations.DecodeInvertsEncode
  exact Encodes.every

/-! ### Words that trap with ILLINS -/

/-- An operation that the table does not list for the sequencer is refused whatever its operands (04 R105). -/
theorem decodeOps_illegal {q : Seq} {iop : Nat} (o : BitVec 40) (h : opcLegal iop q = false) :
    decodeOps q iop o = .error .illins := by
  simp [decodeOps, h]

/-- An opcode that the generation-1 map does not list is illegal on every sequencer. -/
theorem opcLegal_of_opcSeqs_none {opc : Nat} (q : Seq) (h : opcSeqs opc = none) : opcLegal opc q = false := by
  simp [opcLegal, h]

/-- Under any decode table: opcode 0, the opcodes from 0x3C0, an invalid entry, and an entry whose operation the sequencer
may not fetch (04 R88 steps 1 and 2, R102, R105, R106). -/
theorem decode_illins (tab : Option (SMap (BitVec 16))) (q : Seq) (w : Word)
    (h : (w.extractLsb' 54 10).toNat = 0 ∨ 0x3C0 ≤ (w.extractLsb' 54 10).toNat ∨
      (tableEntry tab (w.extractLsb' 54 10).toNat).toNat < 0x8000 ∨
      opcLegal ((tableEntry tab (w.extractLsb' 54 10).toNat).toNat % 1024) q = false) :
    decode tab q w = .error .illins := by
  change ite _ _ _ = _
  split
  · rfl
  · next valid =>
    have illegal : opcLegal ((tableEntry tab (w.extractLsb' 54 10).toNat).toNat % 1024) q = false := by tauto
    exact decodeOps_illegal _ illegal

/-- In the generation-1 map an unlisted opcode has an invalid entry, a listed one the entry of its own operation (04 R102). -/
theorem tableEntry_none {opc : Nat} (h : opc < 1024) :
    opcSeqs opc = none ∧ (tableEntry none opc).toNat < 0x8000 ∨ (tableEntry none opc).toNat % 1024 = opc := by
  cases hs : opcSeqs opc <;> simp [tableEntry, hs] <;> omega

/-- Under the generation-1 map a packed word whose opcode the sequencer may not fetch is refused (04 R105). -/
theorem decode_packWord_illegal {q : Seq} {opc : Nat} (h : Hdr) (o : BitVec 40) (ho : opc < 1024) (hl : opcLegal opc q = false) :
    decode none q (packWord (BitVec.ofNat 10 opc) h o) = .error .illins := by
  have field : ((packWord (BitVec.ofNat 10 opc) h o).extractLsb' 54 10).toNat = opc := by
    rw [packWord_opc, BitVec.toNat_ofNat, Nat.mod_eq_of_lt ho]
  refine decode_illins _ _ _ (.inr (.inr ?_))
  rw [field]
  rcases tableEntry_none ho with ⟨-, invalid⟩ | own
  · exact .inl invalid
  · exact .inr (own.symm ▸ hl)

end Sys2Proof.Laws

/-! SUPPORT. What a step runs: the event due, the word of the stream at hand, or nothing (04 R86, R88). -/

namespace Sys2Proof.Machine

-- one after another: every waiting worker thread counts towards the check's memory limit
set_option Elab.async false

/-- The first event of the agenda is due: before this cycle, or in it with its phase come. -/
theorem State.dueJob_cons {s : State} {j : Job} {l : List Job} (h : s.agenda = j :: l)
    (due : j.due < s.stc ∨ j.due = s.stc ∧ (j.phase < phEnd ∨ s.nextSeq = none)) :
    s.dueJob = some (j.ev, { s with agenda := l, inp := j.inp }) := by
  simp [State.dueJob, h, due]

/-- An event that is due runs. -/
theorem step_event {s s' : State} {i : Instr} (hs : s.stopped = false) (hd : s.dueJob = some (i, s')) :
    step s = exec i s' := by
  simp [step, hs, hd]

/-- With nothing due, the streams have the step. -/
theorem step_noEvent {s : State} (hs : s.stopped = false) (hd : s.dueJob = none) : step s = stepIssue s := by
  simp [step, hs, hd]

/-- A fetched word that decodes is run in its turn. -/
theorem step_word {s : State} {n : Nat} {q : Seq} {h : Hdr} {i : Instr} (hs : s.stopped = false) (hd : s.dueJob = none)
    (hn : s.nextSeq = some (n, q)) (hf : s.fetchDecode n q = (h, .ok i)) : step s = exec i (s.withTurn n q h) := by
  rw [step_noEvent hs hd, stepIssue, hn]
  simp only [hf]

/-- A fetched word that does not decode takes the trap of its cause. -/
theorem step_refusedWord {s : State} {n : Nat} {q : Seq} {h : Hdr} {c : Cause} (hs : s.stopped = false)
    (hd : s.dueJob = none) (hn : s.nextSeq = some (n, q)) (hf : s.fetchDecode n q = (h, .error c)) :
    step s = .next ((s.withTurn n q h).settled.wordTrap c 0) := by
  rw [step_noEvent hs hd, stepIssue, hn]
  simp only [hf]
  rfl

/-- With no stream ready either, bring-up goes on or the cycle passes. -/
theorem step_noWord {s : State} (hs : s.stopped = false) (hd : s.dueJob = none) (hn : s.nextSeq = none) :
    step s = .next s.passCycle := by
  rw [step_noEvent hs hd, stepIssue, hn]

/-- With bring-up over and no bank asked for, the passing of a cycle is the tick of the clock. -/
theorem State.passCycle_quiet {s : State} (up : s.bringupDue = false) (quiet : ∀ p ∈ s.cores, p.2.reqs = []) :
    s.passCycle = s.tick := by
  have idle : (s.cores.any fun p => p.2.reqs.any fun r => decide (r.due ≤ s.stc)) = false :=
    List.any_eq_false.mpr fun p hp => by simp [quiet p hp]
  simp [State.passCycle, up, idle]

/-- Settles O3: the first two clauses are words under the generation-1 map, the third a fetched word that decode refuses. -/
theorem opcodesThatTrap : Obligations.OpcodesThatTrap := by
  unfold Obligations.OpcodesThatTrap
  refine ⟨fun q h o opc ho hn => ?_, fun q h o opc ho hl => ?_, fun s n q hs hd hn bad => ?_⟩
  · exact Laws.decode_packWord_illegal h o ho (Laws.opcLegal_of_opcSeqs_none q hn)
  · exact Laws.decode_packWord_illegal h o (by omega) hl
  · exact step_refusedWord hs hd hn (Prod.ext rfl (Laws.decode_illins _ q _ bad))

/-- Settles O4: the word of the stream at hand, the event that is due, and the quiet cycle, each by its lemma. -/
theorem stepRunsTheDecodedWord : Obligations.StepRunsTheDecodedWord := by
  unfold Obligations.StepRunsTheDecodedWord
  refine ⟨fun s n q hs hd hn => ⟨fun i hi => ?_, fun c hc => ?_⟩, fun s j l hs ha due => ?_, fun s hs hd hn h5 quiet => ?_⟩
  · exact step_word hs hd hn (Prod.ext rfl hi)
  · exact step_refusedWord hs hd hn (Prod.ext rfl hc)
  · exact step_event hs (State.dueJob_cons ha due)
  · have up : s.bringupDue = false := by simp [State.bringupDue, h5]
    exact ⟨s.tick, (step_noWord hs hd hn).trans (congrArg _ (State.passCycle_quiet up quiet)), rfl, rfl, rfl, rfl⟩

end Sys2Proof.Machine

/-! SUPPORT. What the issue of a word leaves of its core, part by part, and the results that it places (04 R86 to R88; 05 R109, R110). -/

namespace Sys2Proof.Machine

-- one after another: every waiting worker thread counts towards the check's memory limit
set_option Elab.async false

/-! ### The end of an issue -/

/-- Behind an open precise word an effect of X is held by the window. -/
theorem Core.emit_open {c : Core} (h : c.vec.window ≠ []) (due : Nat) (e : Eff) :
    ∃ win, c.emit .x due e = { c with vec := { c.vec with window := win } } := by
  unfold Core.emit
  split
  · exact ⟨_, rfl⟩
  · next free =>
    cases last : c.vec.window.getLast? with
    | none => exact absurd (List.getLast?_eq_none_iff.mp last) h
    | some w => exact absurd last (free w rfl)

/-- Pushes change the token FIFOs alone, but on X behind an open precise word, whose window entry holds them back. -/
theorem pushTokens_tokens (now : Nat) (q : Seq) (fs : List Nat) (c : Core) :
    ∃ tk win, pushTokens now q fs c = { c with q := { c.q with tk := tk }, vec := { c.vec with window := win } } ∧
      ((q = .x → c.vec.window = []) → win = c.vec.window) := by
  induction fs generalizing c with
  | nil => exact ⟨c.q.tk, c.vec.window, rfl, fun _ => rfl⟩
  | cons f t ih =>
    simp only [pushTokens]
    split
    · next held =>
      obtain ⟨rfl, isOpen⟩ := held
      obtain ⟨tk, win, h, -⟩ := ih (c.emit .x now (.token f 1))
      obtain ⟨w, entry⟩ := Core.emit_open isOpen now (.token f 1)
      exact ⟨tk, win, by rw [h, entry], fun none => absurd (none rfl) isOpen⟩
    · obtain ⟨tk, win, h, kept⟩ := ih (c.pushTok f now 1)
      exact ⟨tk, win, h, kept⟩

/-- The end of an issue: token FIFOs, AUDIT, the count of a skip and where the stream stands; on X behind an open precise word also
its window. -/
theorem State.finishIssue_exact (t : State) (k : Kind) (n : Nat) (r : Option (Option (BitVec 14))) (d : BitVec 14) :
    ∃ tk win, (t.finishIssue k n r d).cur =
      ({ t.cur with
          q := { t.cur.q with tk := tk }, sys := { t.cur.sys with audit := k.audit || t.cur.sys.audit },
          vec := { t.cur.vec with window := win, skip := if t.turn.q = .x ∧ n ≠ 0 then n - 1 else t.cur.vec.skip } } : Core).modSeq
        t.turn.q (fun y => y.advance t.stc r d) ∧
      ((t.turn.q = .x → t.cur.vec.window = []) → win = t.cur.vec.window) := by
  obtain ⟨tk, win, pushed, kept⟩ := pushTokens_tokens t.stc t.turn.q (pushList t.turn.q t.turn.hdr.push) t.cur
  refine ⟨if k.tokens then tk else t.cur.q.tk, if k.tokens then win else t.cur.vec.window, ?_, fun none => by rw [kept none, ite_self]⟩
  rw [State.finishIssue, State.modCur_cur]
  dsimp only
  rw [pushed]
  congr 1
  unfold stepSkip
  cases k.tokens <;> cases k.audit <;> split <;> rfl

/-- The end of an issue changes of the system registers AUDIT alone. -/
theorem State.finishIssue_sys (t : State) (k : Kind) (n : Nat) (r : Option (Option (BitVec 14))) (d : BitVec 14) :
    (t.finishIssue k n r d).cur.sys = { t.cur.sys with audit := k.audit || t.cur.sys.audit } := by
  obtain ⟨tk, win, ended, -⟩ := t.finishIssue_exact k n r d
  rw [ended, Core.modSeq_sys]

/-- With no precise word open, the end of an issue changes of the vector state the count of a skip alone. -/
theorem State.finishIssue_vec {t : State} (hw : t.turn.q = .x → t.cur.vec.window = []) (k : Kind) (n : Nat)
    (r : Option (Option (BitVec 14))) (d : BitVec 14) :
    (t.finishIssue k n r d).cur.vec = { t.cur.vec with skip := if t.turn.q = .x ∧ n ≠ 0 then n - 1 else t.cur.vec.skip } := by
  obtain ⟨tk, win, ended, kept⟩ := t.finishIssue_exact k n r d
  rw [ended, kept hw, Core.modSeq_vec]

theorem State.finishIssue_pend (t : State) (k : Kind) (n : Nat) (r : Option (Option (BitVec 14))) (d : BitVec 14) :
    (t.finishIssue k n r d).cur.pend = t.cur.pend := (t.finishIssue_underWay k n r d).2.2.2

/-! ### What issue itself does not touch -/

/-- Alike but for the token FIFOs, system registers, vector state, results under way and where the streams stand. -/
structure Core.Alike (c d : Core) : Prop where
  regs : ∀ q, (d.seq q).regs = (c.seq q).regs
  mx : d.mx = c.mx
  spm : d.spm = c.spm
  tsk : d.tsk = c.tsk
  lq : d.q.lq = c.q.lq
  sq : d.q.sq = c.q.sq
  fq : d.q.fq = c.q.fq
  eng : d.eng = c.eng
  cmds : d.cmds = c.cmds
  code : d.code = c.code

theorem Core.Alike.trans {c d e : Core} (h : c.Alike d) (k : d.Alike e) : c.Alike e :=
  ⟨fun q => (k.regs q).trans (h.regs q), k.mx.trans h.mx, k.spm.trans h.spm, k.tsk.trans h.tsk, k.lq.trans h.lq,
    k.sq.trans h.sq, k.fq.trans h.fq, k.eng.trans h.eng, k.cmds.trans h.cmds, k.code.trans h.code⟩

theorem Core.tokens_alike (c : Core) (tk : SMap TokFifo) (y : SysSt) (v : VecSt) :
    c.Alike { c with q := { c.q with tk := tk }, sys := y, vec := v } :=
  ⟨fun q => by cases q <;> rfl, rfl, rfl, rfl, rfl, rfl, rfl, rfl, rfl, rfl⟩

theorem Core.modSeq_alike (c : Core) (q : Seq) {g : SeqSt → SeqSt} (hg : ∀ x, (g x).regs = x.regs) : c.Alike (c.modSeq q g) := by
  refine ⟨fun r => ?_, Core.modSeq_mx .., Core.modSeq_spm .., Core.modSeq_tsk .., ?_, ?_, ?_, Core.modSeq_eng ..,
    Core.modSeq_cmds .., Core.modSeq_code ..⟩
  · by_cases own : r = q
    · subst own; rw [Core.modSeq_seq, hg]
    · rw [Core.modSeq_seq_ne _ _ _ _ own]
  all_goals rw [Core.modSeq_q]

theorem State.finishIssue_alike (t : State) (k : Kind) (n : Nat) (r : Option (Option (BitVec 14))) (d : BitVec 14) :
    t.cur.Alike (t.finishIssue k n r d).cur := by
  obtain ⟨tk, win, ended, -⟩ := t.finishIssue_exact k n r d
  rw [ended]
  exact (t.cur.tokens_alike tk _ _).trans (Core.modSeq_alike _ _ fun x => x.advance_regs t.stc r d)

/-! ### The state in which a word's effect is worked out -/

theorem popTokens_tokens (now : Nat) (fs : List Nat) (c c' : Core) (h : popTokens now fs c = some c') :
    ∃ tk, c' = { c with q := { c.q with tk := tk } } := by
  induction fs generalizing c with
  | nil => exact ⟨c.q.tk, by simpa only [popTokens, Option.some.injEq] using h.symm⟩
  | cons f t ih =>
    simp only [popTokens] at h
    split at h
    · obtain ⟨tk, popped⟩ := ih _ h
      exact ⟨tk, popped⟩
    · simp at h

/-- A word of no precise mode: its effect is worked out in the settled core but for the token FIFOs and the refill cycles. -/
theorem State.Begins.cur_plain {s t : State} {k : Kind} (h : s.Begins k t) (hw : s.turn.q = .x → s.settled.cur.vec.window = [])
    (hp : k.precise = false) :
    ∃ tk, t.cur = ({ s.settled.cur with q := { s.settled.cur.q with tk := tk } } : Core).modSeq s.turn.q fun y => { y with extra := 0 } := by
  obtain ⟨c, gate, rfl⟩ := h
  obtain ⟨tk, rfl⟩ := popTokens_tokens _ _ _ _ (State.gate_ok _ _ _ gate).2.2.1
  refine ⟨tk, ?_⟩
  rw [State.begun, if_neg]
  · exact State.setCore_core s.settled s.turn.core _
  · rintro ⟨onX, open_ | precise⟩
    · rw [Core.modSeq_vec] at open_
      exact open_ (hw onX)
    · exact absurd precise (by simp [hp])

/-- Beyond those, the core in which its effect is worked out is the settled one. -/
theorem State.Begins.alike {s t : State} {k : Kind} (h : s.Begins k t) (hw : s.turn.q = .x → s.settled.cur.vec.window = [])
    (hp : k.precise = false) : s.settled.cur.Alike t.cur := by
  obtain ⟨tk, begun⟩ := h.cur_plain hw hp
  rw [begun]
  exact (s.settled.cur.tokens_alike tk _ _).trans (Core.modSeq_alike _ _ fun _ => rfl)

/-- Its system registers, vector state and results under way are the settled ones. -/
theorem State.Begins.sys_vec_pend {s t : State} {k : Kind} (h : s.Begins k t) (hw : s.turn.q = .x → s.settled.cur.vec.window = [])
    (hp : k.precise = false) : t.cur.sys = s.settled.cur.sys ∧ t.cur.vec = s.settled.cur.vec ∧ t.cur.pend = s.settled.cur.pend := by
  obtain ⟨tk, begun⟩ := h.cur_plain hw hp
  rw [begun, Core.modSeq_sys, Core.modSeq_vec, Core.modSeq_pend]
  exact ⟨rfl, rfl, rfl⟩

/-! ### Results placed for a register -/

/-- With no precise word open, an effect is placed for its cycle. -/
theorem Core.emit_later {c : Core} {q : Seq} (h : q = .x → c.vec.window = []) (due : Nat) (e : Eff) : c.emit q due e = c.later due e := by
  unfold Core.emit
  split
  · next held => simp [h rfl] at held
  · rfl

/-- What registers hold at every cycle depends on their contents and the results under way. -/
theorem State.regAt_congr {s u : State} {n : Nat} {q : Seq} (hp : (u.core n).pend = (s.core n).pend)
    (hr : ((u.core n).seq q).regs = ((s.core n).seq q).regs) (r at_ : Nat) : u.regAt n q r at_ = s.regAt n q r at_ := by
  rw [State.regAt, State.regAt, Core.settle_reg, Core.settle_reg, hp, SeqSt.reg, SeqSt.reg, hr]

theorem State.finishIssue_regAt (t : State) (k : Kind) (n : Nat) (x : Option (Option (BitVec 14))) (d : BitVec 14) (q : Seq) (r at_ : Nat) :
    (t.finishIssue k n x d).regAt t.turn.core q r at_ = t.regAt t.turn.core q r at_ :=
  State.regAt_congr (t.finishIssue_pend k n x d) ((t.finishIssue_alike k n x d).regs q) r at_

/-- A word that begins finds every register as the settled state has it. -/
theorem State.Begins.regAt {s t : State} {k : Kind} (h : s.Begins k t) (hw : s.turn.q = .x → s.settled.cur.vec.window = [])
    (hp : k.precise = false) (q : Seq) (r at_ : Nat) : t.regAt s.turn.core q r at_ = s.settled.regAt s.turn.core q r at_ := by
  have core : t.core s.turn.core = t.cur := by rw [State.cur, h.turn]
  obtain ⟨-, -, pend⟩ := h.sys_vec_pend hw hp
  exact State.regAt_congr (by rw [core]; exact pend) (by rw [core]; exact (h.alike hw hp).regs q) r at_

theorem State.wr_cur {t : State} (h : t.turn.q ≠ .x) (lat : Nat) (d : RegF) (v : Word) :
    (t.wr lat d v).cur = t.cur.later (t.stc + lat) (.reg t.turn.q d.toNat v) := by
  rw [State.wr, State.modCur_cur, Core.emit_later (absurd · h)]

/-- A result holds at its cycle, whatever other results are under way (05 R110). -/
theorem State.wr_regAt {t : State} (h : t.turn.q ≠ .x) (lat : Nat) (d : RegF) (v : Word) :
    (t.wr lat d v).regAt t.turn.core t.turn.q d.toNat (t.stc + lat) = v := by
  have cur : (t.wr lat d v).core t.turn.core = _ := State.wr_cur h lat d v
  rw [State.regAt, Core.settle_reg, cur]
  exact regLeft_ins ..

/-- Every other register holds what earlier words left it. -/
theorem State.wr_regAt_ne {t : State} (h : t.turn.q ≠ .x) (lat : Nat) (d : RegF) (v : Word) {q : Seq} {r : Nat}
    (hr : (q, r) ≠ (t.turn.q, d.toNat)) (at_ : Nat) : (t.wr lat d v).regAt t.turn.core q r at_ = t.regAt t.turn.core q r at_ := by
  have cur : (t.wr lat d v).core t.turn.core = _ := State.wr_cur h lat d v
  rw [State.regAt, State.regAt, Core.settle_reg, Core.settle_reg, cur, Core.later_seq]
  exact regLeft_ins_ne _ _ _ _ _ _ _ _ _ fun e => hr (Prod.ext e.1.symm e.2.symm)

theorem State.wr_alike {t : State} (h : t.turn.q ≠ .x) (lat : Nat) (d : RegF) (v : Word) : t.cur.Alike (t.wr lat d v).cur := by
  rw [State.wr_cur h]
  exact ⟨fun q => by rw [Core.later_seq], rfl, rfl, rfl, rfl, rfl, rfl, rfl, rfl, rfl⟩

theorem State.wr_curSeq {t : State} (h : t.turn.q ≠ .x) (lat : Nat) (d : RegF) (v : Word) : (t.wr lat d v).curSeq = t.curSeq := by
  rw [State.curSeq, State.wr_cur h, Core.later_seq, State.wr_turn, State.curSeq]

/-- Off X, a word whose effect is the write of a register issues, and the register holds its value after the latency. -/
theorem State.Begins.writes {s t : State} {k : Kind} (hq : s.turn.q ≠ .x) (h : s.Begins k t) {body : State → Res} {lat : Nat} {d : RegF}
    {v : Word} (hb : body t = .done (t.wr lat d v)) :
    s.Issued (s.issue k body) ∧ (s.issue k body).regAt s.turn.core s.turn.q d.toNat (s.stc + lat) = v ∧
      (s.issue k body).cur.sys.audit = (k.audit || t.cur.sys.audit) := by
  have ht : t.turn.q ≠ .x := by rwa [h.turn]
  rw [h.done hb]
  refine ⟨h.issued (congrArg SeqSt.pc (State.wr_curSeq ht lat d v)) rfl rfl _ _ _ _, ?_, ?_⟩
  · rw [← h.turn, ← h.stc]
    exact (State.finishIssue_regAt ..).trans (State.wr_regAt ht lat d v)
  · rw [State.finishIssue_sys, State.wr_cur ht, Core.later_sys]

/-- The same of a word that waits for its registers, once they are free. -/
theorem State.Begins.interlockedWrites {s t : State} {k : Kind} (hq : s.turn.q ≠ .x) (h : s.Begins k t) {rs : List RegF}
    (hf : t.RegsFree rs) (lat : Nat) (d : RegF) (f : State → Word) :
    let u := s.issue k fun x => x.interlock rs (fun y => .done (y.wr lat d (f y))) x
    s.Issued u ∧ u.regAt s.turn.core s.turn.q d.toNat (s.stc + lat) = f t ∧ u.cur.sys.audit = (k.audit || t.cur.sys.audit) :=
  h.writes hq (hf.interlock _)

/-- A word whose effect is placed for a cycle, with no precise word open: it issues, and the effect is under way. -/
theorem State.Begins.places {s t : State} {k : Kind} (h : s.Begins k t) {body : State → Res} {q : Seq} {due : Nat} {e : Eff}
    (hw : q = .x → t.cur.vec.window = []) (hb : body t = .done (t.modCur fun c => c.emit q due e)) :
    s.Issued (s.issue k body) ∧ ⟨due, e⟩ ∈ (s.issue k body).cur.pend := by
  have stands : (t.modCur fun c => c.emit q due e).curSeq = t.curSeq := by
    rw [State.curSeq, State.modCur_cur, State.modCur_turn, Core.emit_seq, State.curSeq]
  rw [h.done hb]
  refine ⟨h.issued (congrArg SeqSt.pc stands) rfl rfl _ _ _ _, ?_⟩
  rw [State.finishIssue_pend, State.modCur_cur, Core.emit_later hw]
  exact (mem_insPend ..).mpr (.inl rfl)

end Sys2Proof.Machine

/-! SUPPORT. The scalar register and immediate words: their values, their results, and what they leave unchanged (05 R109 to R112). -/

namespace Sys2Proof.Machine

-- one after another: every waiting worker thread counts towards the check's memory limit
set_option Elab.async false

/-! ### The values of Tables 5.2 and 5.3, read from the operations on 64-bit words -/

theorem sub_eq_ofInt (x y : Word) : x - y = BitVec.ofInt 64 (x.toNat - y.toNat) := by
  have whole (z : Word) : BitVec.ofInt 64 z.toNat = z := by rw [BitVec.ofInt_natCast, BitVec.ofNat_toNat, BitVec.setWidth_eq]
  have sum : BitVec.ofInt 64 ((x.toNat : Int) - y.toNat) + y = x :=
    calc _ = BitVec.ofInt 64 ((x.toNat : Int) - y.toNat) + BitVec.ofInt 64 y.toNat := by rw [whole]
      _ = x := by rw [← BitVec.ofInt_add, Int.sub_add_cancel, whole]
  rw [← sum, BitVec.add_sub_cancel, sum]

theorem shl_eq_ofNat (x : Word) (n : Nat) : x <<< n = BitVec.ofNat 64 (x.toNat * 2 ^ n) := by
  apply BitVec.eq_of_toNat_eq
  simp [Nat.shiftLeft_eq]

theorem shr_eq_ofNat (x : Word) (n : Nat) : x >>> n = BitVec.ofNat 64 (x.toNat / 2 ^ n) := by
  apply BitVec.eq_of_toNat_eq
  rw [BitVec.toNat_ushiftRight, Nat.shiftRight_eq_div_pow, BitVec.toNat_ofNat,
    Nat.mod_eq_of_lt (Nat.lt_of_le_of_lt (Nat.div_le_self ..) x.isLt)]

theorem sra_eq_ofInt (x : Word) (n : Nat) : x.sshiftRight n = BitVec.ofInt 64 (x.toInt / 2 ^ n) := by
  rw [BitVec.sshiftRight, Int.shiftRight_eq_div_pow]
  norm_cast

theorem ofNat_eq_ofNat_mod (n : Nat) : BitVec.ofNat 64 n = BitVec.ofNat 64 (n % 2 ^ 64) :=
  BitVec.eq_of_toNat_eq (by simp only [BitVec.toNat_ofNat, Nat.mod_mod])

theorem addi_eq_ofInt (x : Word) (n : BitVec 32) : x + n.signExtend 64 = BitVec.ofInt 64 (x.toNat + n.toInt) := by
  rw [BitVec.ofInt_add, BitVec.ofInt_natCast, BitVec.ofNat_toNat, BitVec.setWidth_eq, BitVec.signExtend]

/-- lih puts its immediate above the low half of D. -/
theorem lih_eq (x : Word) (n : BitVec 32) :
    (n.setWidth 64 <<< 32) ||| (x &&& 0xFFFFFFFF#64) = BitVec.ofNat 64 (n.toNat * 2 ^ 32 + x.toNat % 2 ^ 32) := by
  have hn := n.isLt
  apply BitVec.eq_of_toNat_eq
  rw [BitVec.toNat_or, BitVec.toNat_and, BitVec.toNat_shiftLeft, BitVec.toNat_setWidth, BitVec.toNat_ofNat, BitVec.toNat_ofNat,
    show 0xFFFFFFFF % 2 ^ 64 = 2 ^ 32 - 1 from rfl, Nat.and_two_pow_sub_one_eq_mod,
    Nat.mod_eq_of_lt (by omega : n.toNat < 2 ^ 64),
    Nat.mod_eq_of_lt (by rw [Nat.shiftLeft_eq]; omega : n.toNat <<< 32 < 2 ^ 64),
    ← Nat.shiftLeft_add_eq_or_of_lt (Nat.mod_lt _ (by decide)), Nat.shiftLeft_eq]
  omega

/-! ### What exec does with a scalar word -/

/-- A word of Tables 5.2 and 5.3 is a scalar word of its latency, destination and sources, and its value is that of the table. -/
theorem exec_scalar {rd : RegF → Word} {i : Instr} {lat : Nat} {d : RegF} {srcs : List RegF} {v : Word}
    (h : Rules.scalar rd i = some (lat, d, srcs, v)) :
    ∃ f : State → Word, (∀ s, exec i s = .next (s.scalar lat d srcs f)) ∧ ∀ t : State, t.rd = rd → f t = v := by
  unfold Rules.scalar at h
  split at h <;> cases h <;> refine ⟨_, fun _ => rfl, ?_⟩ <;> rintro t rfl
  case h_2 => exact sub_eq_ofInt ..
  case h_10 | h_31 => exact shl_eq_ofNat ..
  case h_11 | h_32 => exact shr_eq_ofNat ..
  case h_12 | h_33 => exact sra_eq_ofInt ..
  case h_17 => exact ofNat_eq_ofNat_mod _
  case h_22 => exact ite_not ..
  case h_27 => exact addi_eq_ofInt ..
  case h_35 => exact lih_eq ..
  all_goals rfl

/-! ### The result of a scalar word -/

/-- Off X, a scalar word that begins with its registers free is a write of its value. -/
theorem State.Begins.scalar {s t : State} (h : s.Begins {} t) {d : RegF} {srcs : List RegF} (hf : t.RegsFree (d :: srcs)) (lat : Nat)
    (f : State → Word) : s.scalar lat d srcs f = (t.wr lat d (f t)).finishIssue {} s.settled.cur.vec.skip none (s.curSeq.pc + 1#14) :=
  h.done (hf.interlock _)

theorem scalar_writes {i : Instr} {s t : State} {lat : Nat} {d : RegF} {srcs : List RegF} {v : Word}
    (hi : Rules.scalar t.rd i = some (lat, d, srcs, v)) (hq : s.turn.q ≠ .x) (h : s.Begins {} t) (hf : t.RegsFree (d :: srcs)) :
    ∃ u, exec i s = .next u ∧ s.Issued u ∧ u.regAt s.turn.core s.turn.q d.toNat (s.stc + lat) = v := by
  obtain ⟨f, meaning, value⟩ := exec_scalar hi
  obtain ⟨issued, result, -⟩ := h.interlockedWrites hq hf lat d f
  exact ⟨_, meaning s, issued, result.trans (value t rfl)⟩

/-- In a scoreboard region a word that waits is tried again in the next cycle. -/
theorem State.block_waits {s : State} (h : s.cur.sys.region = true) (c : Cause) :
    s.block c = s.modCur fun k => k.modSeq s.turn.q fun x => { x with retry := s.stc + 1 } := if_pos h

theorem scalar_waits {i : Instr} {s t : State} {lat : Nat} {d : RegF} {srcs : List RegF} {v : Word}
    (hi : Rules.scalar t.rd i = some (lat, d, srcs, v)) (hq : s.turn.q ≠ .x) (h : s.Begins {} t) (hr : t.cur.sys.region = true)
    (hb : t.cur.regBusy t.turn.q ((d :: srcs).map (·.toNat)) = true) :
    ∃ u, exec i s = .next u ∧ u.curSeq = { s.settled.curSeq with retry := s.stc + 1 } ∧ u.dram = s.dram ∧
      u.cur.pend = s.settled.cur.pend := by
  obtain ⟨f, meaning, -⟩ := exec_scalar hi
  have region : s.settled.cur.sys.region = true := by
    rw [← (h.sys_vec_pend (absurd · hq) rfl).1]
    exact hr
  have waits : s.scalar lat d srcs f = s.settled.block .schedmiss := h.wait (by rw [State.interlock, hr, hb]; rfl)
  refine ⟨_, meaning s, ?_⟩
  rw [waits, State.block_waits region]
  refine ⟨?_, rfl, ?_⟩
  · rw [State.curSeq, State.modCur_cur, State.modCur_turn, Core.modSeq_seq]; rfl
  · rw [State.modCur_cur, Core.modSeq_pend]

/-- Settles O9: the word that goes on writes its result, and the one that waits is tried again. -/
theorem scalarWordWritesItsResult : Obligations.ScalarWordWritesItsResult := by
  unfold Obligations.ScalarWordWritesItsResult
  exact ⟨fun _ _ _ _ _ _ _ => scalar_writes, fun _ _ _ _ _ _ _ => scalar_waits⟩

/-! ### What a scalar word leaves unchanged, whatever becomes of it -/

/-- DRAM, the turn and every core but that of the turn are as they were. -/
structure State.OwnCoreOnly (s u : State) : Prop where
  dram : u.dram = s.dram
  turn : u.turn = s.turn
  others : ∀ n, n ≠ s.turn.core → u.core n = s.core n

theorem State.OwnCoreOnly.refl (s : State) : s.OwnCoreOnly s := ⟨rfl, rfl, fun _ _ => rfl⟩

theorem State.OwnCoreOnly.trans {s t u : State} (h : s.OwnCoreOnly t) (k : t.OwnCoreOnly u) : s.OwnCoreOnly u :=
  ⟨k.dram.trans h.dram, k.turn.trans h.turn, fun n hn => (k.others n (h.turn ▸ hn)).trans (h.others n hn)⟩

theorem State.setCore_ownCoreOnly (s : State) (c : Core) : s.OwnCoreOnly (s.setCore s.turn.core c) :=
  ⟨rfl, rfl, fun _ hn => State.setCore_core_ne _ _ _ _ hn⟩

theorem State.modCur_ownCoreOnly (s : State) (f : Core → Core) : s.OwnCoreOnly (s.modCur f) := s.setCore_ownCoreOnly _

theorem State.wr_ownCoreOnly (s : State) (lat : Nat) (d : RegF) (v : Word) : s.OwnCoreOnly (s.wr lat d v) := s.modCur_ownCoreOnly _

theorem State.finishIssue_ownCoreOnly (s : State) (k : Kind) (n : Nat) (r : Option (Option (BitVec 14))) (d : BitVec 14) :
    s.OwnCoreOnly (s.finishIssue k n r d) := s.modCur_ownCoreOnly _

theorem State.sched_ownCoreOnly (s : State) (due ph : Nat) (ev : Instr) : s.OwnCoreOnly (s.sched due ph ev) :=
  ⟨rfl, rfl, fun _ _ => rfl⟩

theorem State.endTask_ownCoreOnly (s : State) (code : Nat) (detail : Word) (first unit : Nat) :
    s.OwnCoreOnly (s.endTask s.turn.core code detail first unit) := by
  unfold State.endTask
  dsimp only
  split
  · exact .refl s
  · exact (s.setCore_ownCoreOnly _).trans (State.sched_ownCoreOnly ..)

theorem State.takeTrap_ownCoreOnly (s : State) (q : Seq) (c : Cause) (code : BitVec 10) (lane : Nat) (pc : BitVec 14) (own : Bool)
    (at_ : Nat) (mx : Bool) : s.OwnCoreOnly (s.takeTrap s.turn.core q c code lane pc own at_ mx) := by
  unfold State.takeTrap
  dsimp only
  split
  · exact s.endTask_ownCoreOnly ..
  · split
    · exact s.setCore_ownCoreOnly _
    · exact (s.setCore_ownCoreOnly _).trans (State.endTask_ownCoreOnly ..)

theorem State.wordTrap_ownCoreOnly (s : State) (c : Cause) (code : BitVec 10) : s.OwnCoreOnly (s.wordTrap c code) := by
  unfold State.wordTrap
  dsimp only
  split
  · exact s.modCur_ownCoreOnly _
  · exact s.takeTrap_ownCoreOnly ..

theorem State.block_ownCoreOnly (s : State) (c : Cause) : s.OwnCoreOnly (s.block c) := by
  unfold State.block
  split
  · exact s.modCur_ownCoreOnly _
  · exact s.wordTrap_ownCoreOnly ..

/-- A word that does not begin traps or waits on its own core. -/
theorem State.gate_error_ownCoreOnly {s : State} {k : Kind} {t : State} (h : s.gate k = .error t) : s.OwnCoreOnly t := by
  unfold State.gate at h
  repeat' split at h
  all_goals cases h
  · exact s.wordTrap_ownCoreOnly ..
  · exact s.wordTrap_ownCoreOnly ..
  · exact s.block_ownCoreOnly _
  · exact s.block_ownCoreOnly _

/-- A scalar word, whether it completes, traps or waits, touches its own core alone. -/
theorem State.scalar_ownCoreOnly (s : State) (lat : Nat) (d : RegF) (srcs : List RegF) (f : State → Word) :
    s.OwnCoreOnly (s.scalar lat d srcs f) := by
  have settled : s.OwnCoreOnly s.settled := s.modCur_ownCoreOnly _
  unfold State.scalar
  cases gate : s.settled.gate {} with
  | error t =>
    rw [State.issue_error _ _ _ _ gate]
    exact settled.trans (State.gate_error_ownCoreOnly gate)
  | ok c =>
    rw [State.issue_ok _ _ _ _ gate]
    unfold State.interlock
    split
    · exact settled.trans (State.block_ownCoreOnly ..)
    · have begun : s.settled.OwnCoreOnly (s.settled.begun {} c) := State.setCore_ownCoreOnly ..
      have written := begun.trans (State.wr_ownCoreOnly _ lat d (f (s.settled.begun {} c)))
      exact settled.trans (written.trans (State.finishIssue_ownCoreOnly ..))

theorem scalar_frame {i : Instr} {s t u : State} {lat : Nat} {d : RegF} {srcs : List RegF} {v : Word} (hq : s.turn.q ≠ .x)
    (hu : exec i s = .next u) (hi : Rules.scalar t.rd i = some (lat, d, srcs, v)) (h : s.Begins {} t) (hf : t.RegsFree (d :: srcs)) :
    (∀ q r at_, (q, r) ≠ (s.turn.q, d.toNat) → u.regAt s.turn.core q r at_ = s.settled.regAt s.turn.core q r at_) ∧
      u.cur.sys = s.settled.cur.sys ∧ u.cur.vec = s.settled.cur.vec ∧ u.cur.mx = s.settled.cur.mx ∧
      u.cur.spm = s.settled.cur.spm ∧ u.cur.code = s.settled.cur.code ∧ u.cur.cmds = s.settled.cur.cmds ∧
      u.cur.eng = s.settled.cur.eng ∧ u.cur.tsk = s.settled.cur.tsk := by
  obtain ⟨f, meaning, -⟩ := exec_scalar hi
  rw [meaning s, h.scalar hf] at hu
  cases hu
  have ht : t.turn.q ≠ .x := by rwa [h.turn]
  have begun := h.alike (absurd · hq) rfl
  have alike := (begun.trans (State.wr_alike ht lat d (f t))).trans
    (State.finishIssue_alike _ {} s.settled.cur.vec.skip none (s.curSeq.pc + 1#14))
  obtain ⟨sys, vec, -⟩ := h.sys_vec_pend (absurd · hq) rfl
  refine ⟨fun q r at_ hr => ?_, ?_, ?_, alike.mx, alike.spm, alike.code, alike.cmds, alike.eng, alike.tsk⟩
  · rw [← h.regAt (absurd · hq) rfl, ← h.turn]
    rw [← h.turn] at hr
    exact (State.finishIssue_regAt ..).trans (State.wr_regAt_ne ht lat d _ hr at_)
  · rw [State.finishIssue_sys, State.wr_cur ht, Core.later_sys, sys]; rfl
  · rw [State.finishIssue_vec (t := t.wr lat d (f t)) (absurd · ht), State.wr_cur ht, Core.later_vec, State.wr_turn,
      if_neg (fun e => ht e.1), vec]

/-- Settles O8: every outcome of the word touches its own core alone, and the one with its registers free only its destination. -/
theorem scalarWordFrame : Obligations.ScalarWordFrame := by
  unfold Obligations.ScalarWordFrame
  rintro i s u ⟨rd, ⟨lat, d, srcs, v⟩, hi⟩ hq hu
  refine ⟨?_, ?_, fun t lat d srcs v hi h hf => scalar_frame hq hu hi h hf⟩
  all_goals
    obtain ⟨f, meaning, -⟩ := exec_scalar hi
    have own := s.scalar_ownCoreOnly lat d srcs f
    rw [meaning s] at hu
    cases hu
  · exact fun a => congrArg (Memory.byte · a) own.dram
  · exact own.others

end Sys2Proof.Machine

/-! SUPPORT. Calls, returns, engine branches and loops (05 R113 to R124). -/

namespace Sys2Proof.Machine

-- one after another: every waiting worker thread counts towards the check's memory limit
set_option Elab.async false

/-! ### Branches that issue -/

/-- A word that reads no register waits for none. -/
theorem State.RegsFree.nil (t : State) : t.RegsFree [] := fun _ => by
  simp only [Core.regBusy, List.map_nil, List.contains_nil, Bool.and_false, Bool.or_self, Bool.or_eq_false_iff, List.any_eq_false]
  refine ⟨fun p _ => ?_, fun _ _ => nofun⟩
  split <;> exact nofun

theorem State.setCore_curSeq (t : State) (c : Core) : (t.setCore t.turn.core c).curSeq = c.seq t.turn.q := by
  rw [State.curSeq, State.setCore_cur, State.setCore_turn]

theorem State.Begins.curSeq_slots {s t : State} {k : Kind} (h : s.Begins k t) : t.curSeq.slots = s.curSeq.slots := by
  rw [h.curSeq]; exact s.settled_slots

/-- A branch that begins stands in no delay slot (05 R113). -/
theorem State.Begins.noSlots {s t : State} {k : Kind} (h : s.Begins k t) (hk : k.branch = true) : t.curSeq.slots = 0 :=
  h.curSeq_slots.trans (h.slots hk)

/-- A branch that issues has two delay slots, and its target when taken (05 R114). -/
theorem SeqSt.advance_branch {x : SeqSt} (h : x.slots = 0) (now : Nat) (g : Option (BitVec 14)) (d : BitVec 14) :
    (x.advance now (some g) d).slots = 2 ∧ (x.advance now (some g) d).target = g := by
  cases g with
  | none =>
    obtain ⟨slots, target, -⟩ := x.advance_untaken now d h
    exact ⟨slots, target⟩
  | some g =>
    obtain ⟨slots, target, -⟩ := x.advance_taken now g d h
    exact ⟨slots, target⟩

/-- A branch whose effect changes of its core only the return-address store: it issues, and the store is as the effect left it. -/
theorem State.Begins.branches {s t : State} {k : Kind} (h : s.Begins k t) (hk : k.branch = true) {body : State → Res} {c : Core}
    {g : Option (BitVec 14)} {l : List (BitVec 14)} (hc : c.seq t.turn.q = { t.curSeq with ras := l })
    (hb : body t = .branch (t.setCore t.turn.core c) g) :
    s.Issued (s.issue k body) ∧ (s.issue k body).curSeq.ras = l ∧ (s.issue k body).curSeq.slots = 2 ∧
      (s.issue k body).curSeq.target = g := by
  have stands : (t.setCore t.turn.core c).curSeq = { t.curSeq with ras := l } := (t.setCore_curSeq c).trans hc
  have free : (t.setCore t.turn.core c).curSeq.slots = 0 := by rw [stands]; exact h.noSlots hk
  rw [h.branch hb]
  refine ⟨h.issued (u := t.setCore t.turn.core c) (by rw [stands]) rfl rfl _ _ _ _, ?_, ?_⟩
  · rw [State.finishIssue_curSeq, (SeqSt.advance_keep ..).1, stands]
  · rw [State.finishIssue_curSeq]
    exact SeqSt.advance_branch free ..

/-! ### Calls and returns (05 R116) -/

theorem Core.pushRet_room {c : Core} {q : Seq} (h : (c.seq q).ras.length < 16) (now : Nat) (pc : BitVec 14) :
    c.pushRet q now pc = some (c.modSeq q fun x => { x with ras := pc :: x.ras }) := if_pos h

theorem Core.pushRet_full {c : Core} {q : Seq} (h : 16 ≤ (c.seq q).ras.length)
    (hs : c.sys.region = false ∨ spillUsed (c.seq q).rsspill = spillSlots (c.seq q).rsspill) (now : Nat) (pc : BitVec 14) :
    c.pushRet q now pc = none := by
  unfold Core.pushRet
  rw [if_neg (Nat.not_lt.mpr h)]
  rcases hs with cal | used
  · rw [cal]; rfl
  · rw [if_pos used, ite_self]

/-- A call with room: the word after its second delay slot enters the store. -/
theorem State.Begins.calls {s t : State} (h : s.Begins { branch := true } t) {srcs : List RegF} (hf : t.RegsFree srcs)
    (hr : t.curSeq.ras.length < 16) (g : State → Tgt) :
    s.Issued (s.callTo srcs g) ∧ (s.callTo srcs g).curSeq.ras = (s.curSeq.pc + 3#14) :: t.curSeq.ras ∧
      (s.callTo srcs g).curSeq.slots = 2 ∧ (s.callTo srcs g).curSeq.target = some (g t) := by
  have room := Core.pushRet_room (c := t.cur) (q := t.turn.q) hr t.stc (t.curSeq.pc + 3#14)
  refine h.branches rfl (c := t.cur.modSeq t.turn.q fun x => { x with ras := (t.curSeq.pc + 3#14) :: x.ras }) ?_ ?_
  · rw [Core.modSeq_seq, State.curSeq_pc_begins h]; rfl
  · rw [hf.interlock]
    simp only [room]

theorem State.Begins.calls_full {s t : State} (h : s.Begins { branch := true } t) (hr : 16 ≤ t.curSeq.ras.length)
    (hs : t.cur.sys.region = false ∨ spillUsed t.curSeq.rsspill = spillSlots t.curSeq.rsspill) (g : State → Tgt) :
    s.callTo [] g = s.settled.wordTrap .rsfull 0 := by
  have full := Core.pushRet_full (c := t.cur) (q := t.turn.q) hr hs t.stc (t.curSeq.pc + 3#14)
  refine h.trap ?_
  rw [(State.RegsFree.nil t).interlock]
  simp only [full]

theorem ret_pops {s t : State} (h : s.Begins { branch := true } t) {e : BitVec 14} {l : List (BitVec 14)} (hr : t.curSeq.ras = e :: l) :
    ∃ u, exec .ret s = .next u ∧ s.Issued u ∧ u.curSeq.ras = l ∧ u.curSeq.slots = 2 ∧ u.curSeq.target = some e := by
  have pops : t.cur.popRet t.turn.q t.stc = some (t.cur.modSeq t.turn.q (fun x => { x with ras := l }), e) := by
    unfold Core.popRet
    rw [show (t.cur.seq t.turn.q).ras = e :: l from hr]
  refine ⟨_, rfl, h.branches rfl (c := t.cur.modSeq t.turn.q fun x => { x with ras := l }) ?_ ?_⟩
  · rw [Core.modSeq_seq]; rfl
  · simp only [pops]

theorem ret_empty {s t : State} (h : s.Begins { branch := true } t) (hr : t.curSeq.ras = []) (hs : spillUsed t.curSeq.rsspill = 0) :
    exec .ret s = .next (s.settled.wordTrap .rsempty 0) := by
  have empty : t.cur.popRet t.turn.q t.stc = none := by
    unfold Core.popRet
    rw [show (t.cur.seq t.turn.q).ras = [] from hr, show spillUsed (t.cur.seq t.turn.q).rsspill = 0 from hs]
    rfl
  exact congrArg Host.Outcome.next (h.trap (by simp only [empty]))

/-- Settles O11: the store with room and with an entry, then full and empty. -/
theorem callsAndReturns : Obligations.CallsAndReturns := by
  unfold Obligations.CallsAndReturns
  refine ⟨⟨fun s t g h hr => ⟨_, rfl, h.calls (.nil t) hr fun _ => g⟩,
    fun s t a h hf hr => ⟨_, rfl, h.calls hf hr fun u => (u.rd a).setWidth 14⟩, fun s t e l h hr => ret_pops h hr⟩,
    fun s t g h hr hs => congrArg Host.Outcome.next (h.calls_full hr hs _), fun s t h => ret_empty h⟩

/-! ### Loop registers (05 R123, R124) -/

theorem SeqSt.setLoop_loopReg (x : SeqSt) (k : Nat) (v : Word) : (x.setLoop k v).loopReg k = v &&& lcMask := SMap.get_put ..

theorem SeqSt.setLoop_loopReg_ne (x : SeqSt) {k j : Nat} (v : Word) (h : j ≠ k) : (x.setLoop k v).loopReg j = x.loopReg j :=
  SMap.get_put_ne _ _ _ _ _ h

/-- The reserved bits lie above COUNT. -/
theorem lcCount_lcMask (v : Word) : lcCount (v &&& lcMask) = lcCount v := by
  unfold lcCount
  rw [BitVec.toNat_and, ← Nat.and_two_pow_sub_one_eq_mod, ← Nat.and_two_pow_sub_one_eq_mod, Nat.and_assoc]
  rfl

theorem lcCount_pred {v : Word} (h : lcCount v ≠ 0) : lcCount (v - 1#64) = lcCount v - 1 := by
  unfold lcCount at *
  have := v.isLt
  rw [BitVec.toNat_sub]
  simp only [BitVec.toNat_ofNat]
  omega

/-- The END of a loop whose COUNT is 2 or more: START follows, and COUNT is one less. -/
theorem endCheck_again {pc d : BitVec 14} {k : Nat} {l : List Nat} {x : SeqSt} (he : lcEnd (x.loopReg k) = pc)
    (hc : 2 ≤ lcCount (x.loopReg k)) :
    endCheck pc d (k :: l) x = (x.setLoop k (x.loopReg k - 1#64), lcStart (x.loopReg k)) := by
  have left : lcCount (x.loopReg k - 1#64) ≠ 0 := by rw [lcCount_pred (by omega)]; omega
  simp only [endCheck]
  rw [if_pos ⟨by omega, he⟩, if_pos left]

/-- No loop ends here: fetch goes on in sequence. -/
theorem endCheck_noEnd {pc d : BitVec 14} {l : List Nat} {x : SeqSt} (h : ∀ k ∈ l, lcEnd (x.loopReg k) ≠ pc) :
    endCheck pc d l x = (x, d) := by
  induction l with
  | nil => rfl
  | cons k t ih =>
    rw [endCheck]
    dsimp only
    rw [if_neg (fun e => h k (List.mem_cons_self ..) e.2)]
    exact ih fun j hj => h j (List.mem_cons_of_mem _ hj)

/-- The END of a loop at COUNT 1, with no later loop ending there: its register falls to 0, and fetch goes on in sequence. -/
theorem endCheck_last {pc d : BitVec 14} {k : Nat} {l : List Nat} {x : SeqSt} (he : lcEnd (x.loopReg k) = pc)
    (hc : lcCount (x.loopReg k) = 1) (hl : ∀ j ∈ l, j ≠ k ∧ lcEnd (x.loopReg j) ≠ pc) :
    endCheck pc d (k :: l) x = (x.setLoop k (x.loopReg k - 1#64), d) := by
  have fallen : lcCount (x.loopReg k - 1#64) = 0 := by rw [lcCount_pred (by omega), hc]
  rw [endCheck]
  dsimp only
  rw [if_pos ⟨by omega, he⟩, if_neg (not_not.mpr fallen)]
  refine endCheck_noEnd fun j hj => ?_
  rw [SeqSt.setLoop_loopReg_ne _ _ (hl j hj).1]
  exact (hl j hj).2

/-! ### Loop words (05 R123) -/

theorem Core.noteLoop_seq (c : Core) (q r : Seq) (k : Nat) : (c.noteLoop q k).seq r = c.seq r := by
  unfold Core.noteLoop
  split
  · cases r <;> rfl
  · rfl

/-- Loop register k is to hold COUNT, START and END from the next cycle. -/
def State.armLoop (t : State) (k : BitVec 2) (n : Nat) (last : Tgt) : State :=
  t.modCur fun c => (c.noteLoop t.turn.q k.toNat).later (t.stc + 1) (.loop t.turn.q k.toNat (loopWord n (t.curSeq.pc + 1#14) last))

theorem State.armLoop_curSeq (t : State) (k : BitVec 2) (n : Nat) (last : Tgt) : (t.armLoop k n last).curSeq = t.curSeq := by
  unfold State.armLoop
  rw [State.curSeq, State.modCur_cur, Core.later_seq, Core.noteLoop_seq, State.modCur_turn, State.curSeq]

theorem State.armLoop_pend (t : State) (k : BitVec 2) (n : Nat) (last : Tgt) :
    ⟨t.stc + 1, .loop t.turn.q k.toNat (loopWord n (t.curSeq.pc + 1#14) last)⟩ ∈ (t.armLoop k n last).cur.pend := by
  unfold State.armLoop
  rw [State.modCur_cur]
  exact (mem_insPend ..).mpr (.inl rfl)

/-- A loop word off its own END, its registers free, skips its body or arms its register. -/
theorem State.Begins.loopOn {s t : State} (h : s.Begins { branch := true } t) {srcs : List RegF} (hf : t.RegsFree srcs) {last : Tgt}
    (hl : last ≠ s.curSeq.pc) (k : BitVec 2) (count : State → Nat) :
    (count t = 0 → s.loopOn k srcs count last =
      t.finishIssue { branch := true } s.settled.cur.vec.skip none (last + 1#14)) ∧
    (count t ≠ 0 → s.loopOn k srcs count last =
      (t.armLoop k (count t) last).finishIssue { branch := true } s.settled.cur.vec.skip none (s.curSeq.pc + 1#14)) := by
  unfold State.loopOn
  rw [if_neg hl]
  exact ⟨fun zero => h.skip ((hf.interlock _).trans (if_pos zero)), fun nonzero => h.done ((hf.interlock _).trans (if_neg nonzero))⟩

theorem State.Begins.loops {s t : State} (h : s.Begins { branch := true } t) {srcs : List RegF} (hf : t.RegsFree srcs) {last : Tgt}
    (hl : last ≠ s.curSeq.pc) (k : BitVec 2) {n : Nat} {count : State → Nat} (hn : n = count t) :
    s.Issued (s.loopOn k srcs count last) ∧ (s.loopOn k srcs count last).curSeq.slots = 0 ∧
      (n = 0 → (s.loopOn k srcs count last).curSeq.pc = (endCheck s.curSeq.pc (last + 1#14) [0, 1, 2, 3] t.curSeq).2) ∧
      (n ≠ 0 → ⟨s.stc + 1, .loop s.turn.q k.toNat (loopWord n (s.curSeq.pc + 1#14) last)⟩ ∈ (s.loopOn k srcs count last).cur.pend) := by
  have free := h.noSlots rfl
  have pc := State.curSeq_pc_begins h
  obtain ⟨skips, arms⟩ := h.loopOn hf hl k count
  subst hn
  by_cases zero : count t = 0
  · rw [skips zero, State.finishIssue_curSeq]
    obtain ⟨slots, -, next, -⟩ := SeqSt.advance_next t.curSeq t.stc (last + 1#14) free
    exact ⟨h.issued rfl rfl rfl _ _ _ _, slots, fun _ => by rw [next, pc], fun nonzero => absurd zero nonzero⟩
  · rw [arms zero, State.finishIssue_curSeq, State.finishIssue_pend, State.armLoop_curSeq]
    refine ⟨h.issued (congrArg SeqSt.pc (t.armLoop_curSeq ..)) rfl rfl _ _ _ _,
      (SeqSt.advance_next t.curSeq _ _ free).1, fun isZero => absurd isZero zero, fun _ => ?_⟩
    rw [← h.turn, ← h.stc, ← pc]
    exact t.armLoop_pend ..

/-! ### The END of a loop (05 R124) -/

/-- A nop outside delay slots: the end check gives the next word and the loop registers. -/
theorem nop_next {s t : State} (h : s.Begins {} t) (hs : s.curSeq.slots = 0) {x : SeqSt} {g : BitVec 14}
    (he : endCheck s.curSeq.pc (s.curSeq.pc + 1#14) [0, 1, 2, 3] t.curSeq = (x, g)) :
    ∃ u, exec .nop s = .next u ∧ s.Issued u ∧ u.curSeq.pc = g ∧ ∀ k, u.curSeq.loopReg k = x.loopReg k := by
  have free := h.curSeq_slots.trans hs
  obtain ⟨-, -, pc, lc⟩ := SeqSt.advance_next t.curSeq t.stc (s.curSeq.pc + 1#14) free
  rw [State.curSeq_pc_begins h, he] at pc lc
  refine ⟨_, congrArg Host.Outcome.next (h.done rfl), h.issued rfl rfl rfl _ _ _ _, ?_, fun k => ?_⟩
  · rw [State.finishIssue_curSeq]; exact pc
  · rw [State.finishIssue_curSeq, SeqSt.loopReg, lc]; rfl

/-- Lower-numbered loops are checked first: that of lc0 goes on whatever the others hold. -/
theorem nop_loopsAgain {s t : State} (h : s.Begins {} t) (hs : s.curSeq.slots = 0) (he : lcEnd (t.curSeq.loopReg 0) = s.curSeq.pc)
    (hc : 2 ≤ lcCount (t.curSeq.loopReg 0)) :
    ∃ u, exec .nop s = .next u ∧ s.Issued u ∧ u.curSeq.pc = lcStart (t.curSeq.loopReg 0) ∧
      lcCount (u.curSeq.loopReg 0) = lcCount (t.curSeq.loopReg 0) - 1 ∧
      (∀ k, k ≠ 0 → u.curSeq.loopReg k = t.curSeq.loopReg k) := by
  obtain ⟨u, run, issued, pc, loops⟩ := nop_next h hs (endCheck_again he hc)
  refine ⟨u, run, issued, pc, ?_, fun k hk => ?_⟩
  · rw [loops, SeqSt.setLoop_loopReg, lcCount_lcMask, lcCount_pred (by omega)]
  · rw [loops, SeqSt.setLoop_loopReg_ne _ _ hk]

theorem nop_loopFalls {s t : State} (h : s.Begins {} t) (hs : s.curSeq.slots = 0) (he : lcEnd (t.curSeq.loopReg 0) = s.curSeq.pc)
    (hc : lcCount (t.curSeq.loopReg 0) = 1) (ho : ∀ k, k ≠ 0 → lcEnd (t.curSeq.loopReg k) ≠ s.curSeq.pc) :
    ∃ u, exec .nop s = .next u ∧ s.Issued u ∧ u.curSeq.pc = s.curSeq.pc + 1#14 ∧ lcCount (u.curSeq.loopReg 0) = 0 := by
  have others : ∀ j ∈ [1, 2, 3], j ≠ 0 ∧ lcEnd (t.curSeq.loopReg j) ≠ s.curSeq.pc := fun j hj => by
    have nonzero : j ≠ 0 := by rintro rfl; simp at hj
    exact ⟨nonzero, ho j nonzero⟩
  obtain ⟨u, run, issued, pc, loops⟩ := nop_next h hs (endCheck_last he hc others)
  exact ⟨u, run, issued, pc, by rw [loops, SeqSt.setLoop_loopReg, lcCount_lcMask, lcCount_pred (by omega), hc]⟩

/-- Settles O13: both forms of the loop word, then the END of a loop that goes on and of one that is over. -/
theorem loops : Obligations.Loops := by
  unfold Obligations.Loops
  refine ⟨?_, fun s t h hs he => ⟨nop_loopsAgain h hs he, nop_loopFalls h hs he⟩⟩
  rintro i s t k last n srcs (⟨a, rfl, rfl, hn⟩ | ⟨c, rfl, rfl, hn⟩) hl h hf
  · exact ⟨_, rfl, h.loops hf hl k hn⟩
  · exact ⟨_, rfl, h.loops hf hl k hn⟩

/-! ### Engine branches (05 R118, R121, R122) -/

/-- The status word of an engine: its count below FLT and DONE. -/
theorem engStatus_bits {out : Nat} (ho : out < 1024) (flt done : Bool) :
    (BitVec.ofNat 64 (out + 1024 * flt.toNat + 2048 * done.toNat)).getLsbD 10 = flt ∧
    (BitVec.ofNat 64 (out + 1024 * flt.toNat + 2048 * done.toNat)).getLsbD 11 = done := by
  have hf := flt.toNat_le
  have hd := done.toNat_le
  have bit10 : (out + 1024 * flt.toNat + 2048 * done.toNat) / 2 ^ 10 % 2 = flt.toNat := by omega
  have bit11 : (out + 1024 * flt.toNat + 2048 * done.toNat) / 2 ^ 11 % 2 = done.toNat := by omega
  constructor
  · rw [BitVec.getLsbD_ofNat, Nat.testBit_eq_decide_div_mod_eq, bit10]; simp
  · rw [BitVec.getLsbD_ofNat, Nat.testBit_eq_decide_div_mod_eq, bit11]; simp

theorem engCond_engStatus (c : Core) (e cond : Nat) :
    engCond cond (c.engStatus e) =
      (let x := c.engine e
       let done := decide (x.out = 0) && !x.flt
       if cond = 0 then done else if cond = 1 then !done else x.flt) := by
  obtain ⟨flt, done⟩ := engStatus_bits (Nat.lt_of_le_of_lt (Nat.min_le_right (c.engine e).out 1023) (by decide)) (c.engine e).flt
    (decide ((c.engine e).out = 0) && !(c.engine e).flt)
  unfold engCond Core.engStatus
  dsimp only
  rw [flt, done]

theorem beng_branches {s t : State} {e c : RegF} {g : Tgt} (h : s.Begins { branch := true, audit := s.cur.sys.region } t) :
    ∃ u, exec (.beng e c g) s = .next u ∧ s.Issued u ∧ u.curSeq.slots = 2 ∧
      (let x := t.cur.engine e.toNat
       let done := decide (x.out = 0) && !x.flt
       let taken := if c.toNat = 0 then done else if c.toNat = 1 then !done else x.flt
       u.curSeq.target = if taken then some g else none) ∧
      (s.cur.sys.region = true → u.cur.sys.audit = true) := by
  have free := h.noSlots rfl
  refine ⟨_, congrArg Host.Outcome.next (h.branch rfl), h.issued rfl rfl rfl _ _ _ _, ?_, ?_, fun region => ?_⟩
  · rw [State.finishIssue_curSeq]
    exact (SeqSt.advance_branch free ..).1
  · rw [State.finishIssue_curSeq, engCond_engStatus]
    exact (SeqSt.advance_branch free ..).2
  · rw [State.finishIssue_sys, region]
    rfl

/-! ### A mode word in a delay slot (05 R113, R129, R130) -/

/-- L, X and S of a calendar region have met for a scoreboard region in this cycle, so that the check of R129 stands at its end; C comes to
a mode.cal in a delay slot. -/
def slotAtMeeting : State :=
  { State.reset with
    stc := 1000, turn := ⟨0, .c, ⟨0, 0, 0⟩⟩,
    cores := [(0, { c := { mode := .run, slots := 1, target := some 20 }, l := { mode := .meeting true, last := 1000 },
                    x := { mode := .meeting true, last := 1000 }, s := { mode := .meeting true, last := 1000 } })],
    agenda := [⟨1000, phEnd, .modeDrainDone 0, {}, {}⟩] }

/-- Refutes O10: in a delay slot a mode word takes the trap SLOT, but where the three others have met for the other region it also
takes their check of R129 off the agenda, which the trap alone leaves. -/
theorem not_branchesTransferControl : ¬ Obligations.BranchesTransferControl := by
  unfold Obligations.BranchesTransferControl
  rintro ⟨-, slot, -⟩
  have running : slotAtMeeting.curSeq.mode = .run := rfl
  have trapOnly : exec .modeCal slotAtMeeting = .next (slotAtMeeting.settled.wordTrap .slot 0) :=
    slot .modeCal slotAtMeeting (by decide) (by simp [running])
  have same : slotAtMeeting.modeWord false = slotAtMeeting.settled.wordTrap .slot 0 := Host.Outcome.next.inj trapOnly
  have checkGone : (slotAtMeeting.modeWord false).hasJob (.modeDrainDone 0) = false := rfl
  have checkStands : (slotAtMeeting.settled.wordTrap .slot 0).hasJob (.modeDrainDone 0) = true := rfl
  rw [same, checkStands] at checkGone
  cases checkGone

end Sys2Proof.Machine

/-! SUPPORT. The stamp clock and engine status, system-register moves, nop and trap (05 R120 to R122, R126, R127, R131, R134). -/

namespace Sys2Proof.Machine

-- one after another: every waiting worker thread counts towards the check's memory limit
set_option Elab.async false

/-! ### The clock and the engines' status (05 R120 to R122, R127) -/

theorem rdstc_reads {s t : State} {d : RegF} (hq : s.turn.q ≠ .x) (h : s.Begins { audit := true } t) (hf : t.RegsFree [d]) :
    ∃ u, exec (.rdstc d) s = .next u ∧ s.Issued u ∧ u.cur.sys.audit = true ∧
      u.regAt s.turn.core s.turn.q d.toNat (s.stc + 1) = BitVec.ofNat 64 s.stc := by
  obtain ⟨issued, result, audit⟩ := h.interlockedWrites hq hf 1 d fun u => BitVec.ofNat 64 u.stc
  exact ⟨_, rfl, issued, audit, result.trans (by rw [h.stc])⟩

theorem rdstcT0_reads {s t : State} {d : RegF} (hq : s.turn.q ≠ .x) (h : s.Begins { audit := true } t) (hf : t.RegsFree [d]) :
    ∃ u, exec (.rdstcT0 d) s = .next u ∧ s.Issued u ∧ u.cur.sys.audit = true ∧
      u.regAt s.turn.core s.turn.q d.toNat (s.stc + 1) = BitVec.ofInt 64 ((s.stc : Int) - t.cur.sys.t0) := by
  obtain ⟨issued, result, audit⟩ := h.interlockedWrites hq hf 1 d fun u => BitVec.ofInt 64 ((u.stc : Int) - u.cur.sys.t0)
  exact ⟨_, rfl, issued, audit, result.trans (by rw [h.stc])⟩

theorem rdeng_reads {s t : State} {d : RegF} {e : BitVec 10} (hq : s.turn.q ≠ .x) (h : s.Begins { audit := s.cur.sys.region } t)
    (hf : t.RegsFree [d]) :
    ∃ u, exec (.rdeng d e) s = .next u ∧ s.Issued u ∧ (s.cur.sys.region = true → u.cur.sys.audit = true) ∧
      u.regAt s.turn.core s.turn.q d.toNat (s.stc + 1) = t.cur.engStatus e.toNat := by
  obtain ⟨issued, result, audit⟩ := h.interlockedWrites hq hf 1 d fun u => u.cur.engStatus e.toNat
  exact ⟨_, rfl, issued, fun region => audit.trans (by rw [region]; rfl), result⟩

/-- Settles O12: both forms of rdstc, rdeng, then beng. -/
theorem clockAndEngineReads : Obligations.ClockAndEngineReads := by
  unfold Obligations.ClockAndEngineReads
  exact ⟨⟨fun _ _ _ => rdstc_reads, fun _ _ _ => rdstcT0_reads, fun _ _ _ _ => rdeng_reads⟩, fun _ _ _ _ _ h _ => beng_branches h⟩

/-! ### System-register moves (05 R126, 02 R56) -/

theorem Core.window_ite (p : Prop) [Decidable p] {a b : Core} {w : List XEntry} (ha : a.vec.window = w) (hb : b.vec.window = w) :
    (if p then a else b).vec.window = w := by
  split
  · exact ha
  · exact hb

/-- No register move opens or closes a precise word. -/
theorem Core.writeSys_window (c : Core) (now : Nat) (q : Seq) (n : Nat) (v : Word) :
    (c.writeSys now q n v).vec.window = c.vec.window := by
  unfold Core.writeSys
  repeat' refine Core.window_ite _ ?_ ?_
  all_goals simp only [Core.modSeq_vec, VecSt.clearFlags]

/-- A move that is remembered for its cycle changes no vector state. -/
theorem Core.noteMove_vec (c : Core) (now : Nat) (q : Seq) (n : Nat) (v : Word) : (c.noteMove now q n v).vec = c.vec := by
  unfold Core.noteMove
  split <;> rfl

/-- No effect opens or closes a precise word. -/
theorem Eff.apply_window (now : Nat) (e : Eff) (c : Core) : (e.apply now c).vec.window = c.vec.window := by
  cases e with
  | reg q r v => exact congrArg _ (Core.modSeq_vec ..)
  | loop q k v => exact congrArg _ (Core.modSeq_vec ..)
  | sys q n v => exact (congrArg _ (Core.noteMove_vec ..)).trans (Core.writeSys_window ..)
  | pred k v => exact (congrArg VecSt.window (Core.noteMove_vec ..)).trans rfl
  | _ => rfl

theorem Core.settle_window (c : Core) (now : Nat) : (c.settle now).vec.window = c.vec.window := by
  have go (l : List Pend) (c : Core) : (settleGo now l c).vec.window = c.vec.window := by
    induction l generalizing c with
    | nil => rfl
    | cons p t ih =>
      rw [settleGo]
      split
      · rw [ih, Eff.apply_window]
      · exact ih c
  exact go c.pend c

theorem State.settled_window (s : State) : s.settled.cur.vec.window = s.cur.vec.window := by
  rw [State.settled_cur, Core.settle_window]

/-- With no enabled flag and no word open, X is not in precise mode (06 R140). -/
theorem State.precise_off {s : State} (hf : s.cur.sys.fen = 0#5) (hw : s.cur.vec.window = []) : s.precise = false := by
  simp [State.precise, hf, hw]

theorem State.Begins.idOf {s t : State} {k : Kind} (h : s.Begins k t) (n : Nat) : t.idOf n = s.idOf n := by
  obtain ⟨c, -, rfl⟩ := h
  rfl

theorem mfsr_reads {s t : State} {d : RegF} {n : BitVec 10} (hq : s.turn.q ≠ .x) (h : s.Begins {} t) (hf : t.RegsFree [d])
    (ha : sysAssigned n.toNat = true) :
    ∃ u, exec (.mfsr d n) s = .next u ∧ s.Issued u ∧
      u.regAt s.turn.core s.turn.q d.toNat (s.stc + 1) = t.cur.readSys (s.idOf s.turn.core) s.turn.q n.toNat := by
  refine ⟨_, congrArg Host.Outcome.next (if_neg hq), (h.writes hq (lat := 1) (d := d) ?_).imp id (·.1)⟩
  simp only [ha, Bool.not_true, Bool.false_eq_true, if_false]
  rw [hf.interlock, h.idOf, h.turn]

theorem mtsr_places {s t : State} {d : RegF} {n : BitVec 10} (hq : s.turn.q ≠ .x) (h : s.Begins {} t) (hf : t.RegsFree [d])
    (ha : sysAssigned n.toNat = true) (hl : t.cur.legalSys n.toNat (t.rd d) = true) :
    ∃ u, exec (.mtsr d n) s = .next u ∧ s.Issued u ∧ ⟨s.stc + 1, .sys s.turn.q n.toNat (t.rd d)⟩ ∈ u.cur.pend := by
  refine ⟨_, congrArg Host.Outcome.next (if_neg hq), h.places (absurd · hq) ?_⟩
  simp only [ha, Bool.not_true, Bool.false_eq_true, if_false]
  rw [hf.interlock, hl, h.turn, h.stc]
  rfl

/-- On X in a calendar region, outside precise mode: what its words find. -/
theorem State.Begins.offPrecise {s t : State} (h : s.Begins {} t) (hs : s.settled.cur.sys.fen = 0#5)
    (hw : s.settled.cur.vec.window = []) : t.cur.vec.window = [] ∧ t.precise = false := by
  obtain ⟨sys, vec, -⟩ := h.sys_vec_pend (fun _ => hw) rfl
  rw [← vec] at hw
  rw [← sys] at hs
  exact ⟨hw, State.precise_off hs hw⟩

section
variable {s t : State} {d : RegF} {n : BitVec 10} (hq : s.turn.q = .x) (hf : s.cur.sys.fen = 0#5) (hs : s.settled.cur.sys.fen = 0#5)
  (hw : s.settled.cur.vec.window = []) (h : s.Begins {} t) (hr : t.cur.sys.region = false) (ha : sysAssigned n.toNat = true)
include hq hf hs hw h hr ha

theorem mfsr_x_places : ∃ u, exec (.mfsr d n) s = .next u ∧ s.Issued u ∧
    ⟨s.stc + 2, .element0 d.toNat (t.cur.readSys (s.idOf s.turn.core) .x n.toNat)⟩ ∈ u.cur.pend := by
  obtain ⟨window, plain⟩ := h.offPrecise hs hw
  have precise := State.precise_off hf (s.settled_window ▸ hw)
  refine ⟨_, congrArg Host.Outcome.next ((if_pos hq).trans (by rw [precise])), h.places (q := .x) (fun _ => window) ?_⟩
  simp only [ha, hr, plain, h.idOf, h.turn, h.stc, Bool.not_true, Bool.false_and, Bool.false_eq_true, if_false]

theorem mtsr_x_places (hl : t.cur.legalSys n.toNat (vreg64 (t.cur.vec.reg d.toNat)) = true) :
    ∃ u, exec (.mtsr d n) s = .next u ∧ s.Issued u ∧
      ⟨s.stc + 1, .sys .x n.toNat (vreg64 (t.cur.vec.reg d.toNat))⟩ ∈ u.cur.pend := by
  obtain ⟨window, plain⟩ := h.offPrecise hs hw
  have precise := State.precise_off hf (s.settled_window ▸ hw)
  refine ⟨_, congrArg Host.Outcome.next ((if_pos hq).trans (by rw [precise])), h.places (q := .x) (fun _ => window) ?_⟩
  simp only [ha, hr, hl, plain, h.stc, Bool.not_true, Bool.false_and, Bool.false_eq_true, if_false]

end

theorem move_illsr {s t : State} (d : RegF) {n : BitVec 10} (hq : s.turn.q ≠ .x) (h : s.Begins {} t) (ha : sysAssigned n.toNat = false) :
    exec (.mfsr d n) s = .next (s.settled.wordTrap .illsr 0) ∧ exec (.mtsr d n) s = .next (s.settled.wordTrap .illsr 0) := by
  constructor <;> refine congrArg Host.Outcome.next ((if_neg hq).trans (h.trap ?_)) <;> rw [ha] <;> rfl

theorem mtsr_illop {s t : State} {d : RegF} {n : BitVec 10} (hq : s.turn.q ≠ .x) (h : s.Begins {} t) (ha : sysAssigned n.toNat = true)
    (hf : t.RegsFree [d]) (hl : t.cur.legalSys n.toNat (t.rd d) = false) :
    exec (.mtsr d n) s = .next (s.settled.wordTrap .illop 0) := by
  refine congrArg Host.Outcome.next ((if_neg hq).trans (h.trap ?_))
  simp only [ha, Bool.not_true, Bool.false_eq_true, if_false]
  rw [hf.interlock, hl]
  rfl

/-- Settles O14: the moves of C, L and S, those of X, and the traps. -/
theorem systemRegisterMoves : Obligations.SystemRegisterMoves := by
  unfold Obligations.SystemRegisterMoves
  refine ⟨⟨fun _ _ _ _ => mfsr_reads, fun _ _ _ _ => mtsr_places⟩, ⟨fun _ _ _ _ => mfsr_x_places, fun _ _ _ _ => mtsr_x_places⟩, ?_⟩
  exact fun s t d n hq h => ⟨move_illsr d hq h, mtsr_illop hq h⟩

/-! ### nop (05 R134) -/

/-- A skip of no words stays one of no words (06 R157). -/
theorem VecSt.dropSkip (v : VecSt) (q : Seq) :
    { v with skip := if q = .x ∧ v.skip ≠ 0 then v.skip - 1 else v.skip } = if q = .x then { v with skip := v.skip - 1 } else v := by
  by_cases onX : q = .x
  · by_cases none : v.skip = 0 <;> simp [onX, none]
  · simp [onX]

theorem nop_onlyIssues {s t : State} (hw : s.turn.q = .x → s.settled.cur.vec.window = []) (h : s.Begins {} t) :
    ∃ u, exec .nop s = .next u ∧ s.Issued u ∧ u.dram = s.dram ∧ u.cur.pend = s.settled.cur.pend ∧
      (∀ q, (u.cur.seq q).regs = (s.settled.cur.seq q).regs) ∧ u.cur.sys = s.settled.cur.sys ∧
      u.cur.vec = (if s.turn.q = .x then { s.settled.cur.vec with skip := s.settled.cur.vec.skip - 1 } else s.settled.cur.vec) ∧
      u.cur.mx = s.settled.cur.mx ∧ u.cur.spm = s.settled.cur.spm ∧ u.cur.tsk = s.settled.cur.tsk ∧ u.agenda = s.agenda ∧
      u.cur.q.lq = s.settled.cur.q.lq ∧ u.cur.q.sq = s.settled.cur.q.sq ∧ u.cur.q.fq = s.settled.cur.q.fq ∧
      u.cur.eng = s.settled.cur.eng ∧ u.cur.cmds = s.settled.cur.cmds ∧ u.cur.code = s.settled.cur.code ∧
      ∀ m, m ≠ s.turn.core → u.core m = s.core m := by
  have alike := (h.alike hw rfl).trans (t.finishIssue_alike {} s.settled.cur.vec.skip none (s.curSeq.pc + 1#14))
  obtain ⟨sys, vec, pend⟩ := h.sys_vec_pend hw rfl
  refine ⟨_, congrArg Host.Outcome.next (h.done rfl), h.issued rfl rfl rfl _ _ _ _, h.dram, (t.finishIssue_pend ..).trans pend,
    alike.regs, ?_, ?_, alike.mx, alike.spm, alike.tsk, h.agenda, alike.lq, alike.sq, alike.fq, alike.eng, alike.cmds, alike.code, fun m hm => ?_⟩
  · rw [State.finishIssue_sys, sys]; rfl
  · rw [State.finishIssue_vec (by rw [vec, h.turn]; exact hw), vec, h.turn]
    exact VecSt.dropSkip ..
  · rw [State.finishIssue_core_ne _ _ _ _ _ _ (by rwa [h.turn]), h.core_ne m hm]

/-- Settles O15: what nop leaves, then its word. -/
theorem nopOnlyIssues : Obligations.NopOnlyIssues := by
  unfold Obligations.NopOnlyIssues
  exact ⟨fun _ _ hw h => nop_onlyIssues hw h, fun q => by cases q <;> rfl⟩

/-! ### trap (05 R131) -/

/-- With no precise word open on X, the word at hand takes its trap at once. -/
theorem State.wordTrap_taken {s : State} (hw : s.turn.q = .x → s.cur.vec.window = []) (c : Cause) (code : BitVec 10) :
    s.wordTrap c code = s.takeTrap s.turn.core s.turn.q c code 0 s.curSeq.pc true s.stc false :=
  if_neg fun held => held.2 (hw held.1)

theorem trap_takesSoft {s t : State} (code : BitVec 10) (hw : s.turn.q = .x → s.settled.cur.vec.window = []) (h : s.Begins {} t) :
    exec (.trap code) s = .next (s.settled.takeTrap s.turn.core s.turn.q .soft code 0 s.curSeq.pc true s.stc false) := by
  refine congrArg Host.Outcome.next ((h.trap rfl).trans ?_)
  rw [State.wordTrap_taken hw, State.settled_pc]
  rfl

/-- Settles O16: the trap that the word takes, by what a trap does with its handler enabled and disabled; then its reserved code. -/
theorem trapWordTakesSoft : Obligations.TrapWordTakesSoft := by
  unfold Obligations.TrapWordTakesSoft
  refine ⟨fun s t code hw h => ⟨_, trap_takesSoft code hw h, rfl, fun hv he => ?_, fun hv he running => ?_⟩, fun q => by cases q <;> rfl⟩
  · obtain ⟨epc, pc, cause, -⟩ :=
      takeTrap_entersHandler s.settled s.turn.core s.turn.q .soft code 0 s.curSeq.pc true false s.stc hv he (by decide)
    exact ⟨epc, pc, cause.trans (by rw [causeWord, Nat.mul_zero, Nat.zero_add])⟩
  · obtain ⟨disabled, -⟩ := takeTrap_endsTask s.settled s.turn.core s.turn.q .soft code 0 s.curSeq.pc true s.stc running (by decide)
    exact (disabled hv he).1

end Sys2Proof.Machine

/-! SUPPORT. The end of a drain whose armed booking has its window elsewhere (09 R263), and words that the manual writes out. -/

namespace Sys2Proof.Machine

-- one after another: every waiting worker thread counts towards the check's memory limit
set_option Elab.async false

/-- The four streams of core 0 have met for a calendar region, with a booking armed for T0 2000, but its window stands in the calendar
of core 1. -/
def armedElsewhere : State :=
  { State.reset with
    stc := 1000, mgmt := { stage := 5 },
    cores := [(0, { c := { mode := .meeting false }, l := { mode := .meeting false }, x := { mode := .meeting false },
                    s := { mode := .meeting false },
                    tsk := { task := some 9, meetAt := some 1000, armed := some { count := 1, t0 := 2000, tmpl := { len := 4096 } } } })],
    windows := [{ task := 9, core := 1, t0 := 2000, pre := 0, tmpl := { len := 4096 }, order := 0, armed := true, use := 1 }] }

/-- Refutes O41: the clause of the end of the drain asks for a window of the task, but not for one on its core; without one there the
booking is placed again, and nothing happens at its old T0. -/
theorem not_streamsStopAndMeet : ¬ Obligations.StreamsStopAndMeet := by
  unfold Obligations.StreamsStopAndMeet
  rintro ⟨-, -, drain, -, -⟩
  obtain ⟨u, run, -, resumes⟩ := (drain armedElsewhere 0 1000 rfl rfl).2.2 { count := 1, t0 := 2000, tmpl := { len := 4096 } } 9
    { task := 9, core := 1, t0 := 2000, pre := 0, tmpl := { len := 4096 }, order := 0, armed := true, use := 1 }
    rfl (fun q => by cases q <;> rfl) rfl rfl (List.mem_singleton.mpr rfl) rfl rfl rfl (by decide)
  have placedAgain : (armedElsewhere.drainDone 0).agenda.map (·.due) = [1000, 1064, 2024] := rfl
  have drained : u = armedElsewhere.drainDone 0 := (Host.Outcome.next.inj run).symm
  have atOldT0 : 2000 ∈ (armedElsewhere.drainDone 0).agenda.map (·.due) := List.mem_map.mpr ⟨_, drained ▸ resumes, rfl⟩
  rw [placedAgain] at atOldT0
  exact absurd atOldT0 (by decide)

/-- Settles O2: each word is taken apart by evaluation. -/
theorem sampleWordsDecode : Obligations.SampleWordsDecode := by
  unfold Obligations.SampleWordsDecode
  exact ⟨rfl, rfl, rfl, rfl, rfl, rfl, rfl, rfl, rfl, rfl, rfl⟩

end Sys2Proof.Machine

/-! SUPPORT. The elements of a vector register and the lanes of the flag plane: what a register built from elements reads as (02 R40,
R41; 06 R139). -/

namespace Sys2Proof.Machine

-- one after another: every waiting worker thread counts towards the check's memory limit
set_option Elab.async false

/-! ### Elements of a register -/

theorem velem_lt (w : Nat) (v : VReg) (i : Nat) : velem w v i < 2 ^ w := Nat.mod_lt _ (Nat.two_pow_pos w)

@[simp] theorem velem_mod (w : Nat) (v : VReg) (i : Nat) : velem w v i % 2 ^ w = velem w v i := Nat.mod_eq_of_lt (velem_lt w v i)

/-- An element lies within the register. -/
theorem element_fits {w i : Nat} (h : i < 32768 / w) : w * i + w ≤ 32768 := by
  rw [← Nat.mul_succ]
  exact (Nat.mul_le_mul_left w h).trans (Nat.mul_div_le 32768 w)

/-- A register built from elements reads them back. -/
theorem velem_vbuild {w i : Nat} (xs : List Nat) (h : i < 32768 / w) : velem w (vbuild w xs) i = xs.getD i 0 % 2 ^ w := by
  rw [velem, vbuild, bitsN_ofNat _ (element_fits h), bitsN_packNat]

theorem velem_vbuild_range {w i : Nat} (f : Nat → Nat) (h : i < 32768 / w) :
    velem w (vbuild w ((List.range (velems w)).map f)) i = f i % 2 ^ w := by
  rw [velem_vbuild _ h, List.getD_eq_getElem _ _ (by simpa [velems] using h)]
  simp

/-- A word that raises no flag gives its active elements their values and keeps the others (06 R139). -/
theorem velem_vmove {w j : Nat} (x : VIn) (f : Nat → Nat) (h : j < 32768 / w) :
    velem w (vmove w x f).d j = if x.act.elem w x.k j then f j % 2 ^ w else velem w x.d j := by
  rw [vmove, velem_vbuild_range _ h]
  split
  · rfl
  · exact velem_mod ..

end Sys2Proof.Machine

/-! SUPPORT. A precise word that holds moves of S and of X (06 R140, 02 R56), and a random word of which no element is active (06 R165). -/

namespace Sys2Proof.Machine

-- one after another: every waiting worker thread counts towards the check's memory limit
set_option Elab.async false

/-! ### The commit of a word that holds moves -/

/-- The commit event of the head commits the words at the head of the window (06 R140). -/
theorem vectorCommit_head {s : State} {n : Nat} {e : XEntry} {rest : List XEntry} (h : (s.core n).vec.window = e :: rest) :
    exec (.vectorCommit n e.id) s = .next (s.commitWindow n (rest.length + 2)) := by
  change execVectorCommit n e.id s = _
  simp only [execVectorCommit, h, if_true]

/-- A complete word that holds a move of S and behind it a move of X, both of the rounding mode. -/
def twoMoves : XEntry := { id := 4, pc := 9, vector := false, ready := true, held := [.sys .s 0x002 1, .sys .x 0x002 2] }

/-- That word alone in the window of core 0. -/
def twoMovesHeld : State := { State.reset with stc := 1000, cores := [(0, { vec := { window := [twoMoves] } })] }

/-- In the order of the held effects X's move holds. -/
theorem twoMoves_commitEntry : (Rules.commitEntry twoMovesHeld.stc (twoMovesHeld.core 0) twoMoves).sys.frm = 2#3 := rfl

/-- At the commit S's move, which takes hold in the same cycle, stands over X's. -/
theorem twoMoves_commitWindow : ((twoMovesHeld.commitWindow 0 2).core 0).sys.frm = 1#3 := by decide +kernel

/-- Refutes O23: the first clause keeps moves of S out of those that took hold before the commit, but not out of what the word holds. -/
theorem not_preciseCommit : ¬ Obligations.PreciseCommit := by
  unfold Obligations.PreciseCommit
  rintro ⟨commits, -⟩
  have inOrder : Rules.Commits twoMovesHeld.stc (twoMovesHeld.core 0) [twoMoves] (Rules.commitEntry twoMovesHeld.stc (twoMovesHeld.core 0) twoMoves) := by
    refine ⟨rfl, by decide +kernel, rfl, rfl, fun f hf => ?_, rfl⟩
    rcases List.mem_cons.mp hf with rfl | hf
    · exact ⟨rfl, nofun⟩
    · rw [List.mem_singleton.mp hf]; exact ⟨rfl, nofun⟩
  obtain ⟨u, run, core, -⟩ := commits twoMovesHeld 0 twoMoves [] [] _ rfl inOrder nofun (fun _ => rfl) nofun
  rw [vectorCommit_head (s := twoMovesHeld) (n := 0) (e := twoMoves) (rest := []) rfl, List.length_nil] at run
  have both : (1#3 : BitVec 3) = 2#3 := by
    rw [← twoMoves_commitWindow, ← twoMoves_commitEntry, ← core, ← Host.Outcome.next.inj run]
  exact absurd both (by decide)


/-! ### A random word without active elements -/

/-- The result of a random word names its register, and the value that its element function gives (06 R165). -/
theorem vresults_vrand {w : VWord} {dd y : VOpF} {p : PredF} {key : BitVec 2} {n : Nat} (h : w.op = .vrand dd y p key) (hn : opReg dd = some n)
    (c : Core) (o : VOps) (k : Nat) (a : VReg) :
    vresults c w o k [a] = [{ k := k, regs := [(physReg w.rotsz w.rrb (n + k), vwritten w.op w.active k,
      (vcompute w.op { a := a, d := c.oldDest w o.d k, act := w.active, k := k, key := vkeyOf c key.toNat }).d)] }] := by
  simp only [vresults, h, VResult.to, hn]
  rfl

/-- A random word into register 1 of which the mask covers no lane. -/
def maskedRand : VWord :=
  { id := 7, pc := 9, op := .vrand 1 2 0 3, issued := 996, group := 1, lat := 14, occ := 8, active := .lanes 0, rm := 0, rotsz := 0, rrb := 0,
    fen := 0 }

/-- A core whose register 1 holds 1. -/
def oneInReg1 : Core := { vec := { vrf := [(1, 1)] } }

/-- Its elements keep the old destination that the word is given. -/
theorem maskedRand_keeps (a d : VReg) (key : Nat) :
    velem 32 (vcompute maskedRand.op { a := a, d := d, act := maskedRand.active, key := key }).d 0 = velem 32 d 0 := by
  refine (velem_vmove (w := 32) (j := 0) { a := a, d := d, act := maskedRand.active, key := key } _ (by decide)).trans (if_neg ?_)
  simp [Active.elem, maskedRand]

theorem maskedRand_oldDest : oneInReg1.oldDest maskedRand (some 1) 0 = 1#32768 := rfl

/-- Refutes O22: the clause of vrand does not ask that the operands name the word's destination, from which the model takes what an
inactive element keeps; with operands that name none, it keeps 0 and not the register. -/
theorem not_vectorEngineEvents : ¬ Obligations.VectorEngineEvents := by
  unfold Obligations.VectorEngineEvents
  rintro ⟨-, -, results, -⟩
  have stated := (results oneInReg1 maskedRand {} 0 1 1 0 0 rfl).2.1 2 0 3 rfl
  rw [vresults_vrand (w := maskedRand) rfl rfl] at stated
  have value := congrArg (fun rs : List VResult => rs.map fun r => r.regs.map fun x => velem 32 x.2.2 0) stated
  simp only [List.map_cons, List.map_nil, maskedRand_keeps, maskedRand_oldDest] at value
  exact absurd value (by decide +kernel)

end Sys2Proof.Machine

/-! SUPPORT. A vector word that enters the engine: its record, the port, its reads and its completions (06 R135, R136; 07 R193, R197). -/

namespace Sys2Proof.Machine

-- one after another: every waiting worker thread counts towards the check's memory limit
set_option Elab.async false

/-! ### The vector words of Table 6.1 -/

/-- The issue of a vector word of Table 6.1; vflrd brings the sample that it takes at issue (06 R163). -/
theorem exec_vector {i : Instr} {l n : Nat} (h : Rules.vector i = some (l, n)) (s : State) :
    ∃ extra, exec i s = .next (s.vecIssue i true false (fun _ => none) extra id) ∧ ∀ t, (extra t).1 = [] := by
  unfold Rules.vector at h
  split at h
  case h_51 d p => exact ⟨fun t => ([], [flagReg t.cur.vec.flags]), rfl, fun _ => rfl⟩
  case h_69 => cases h
  all_goals exact ⟨fun _ => ([], []), rfl, fun _ => rfl⟩

/-- Table 6.1: latency and occupancy. -/
theorem vtime_of_vector {i : Instr} {l n : Nat} (h : Rules.vector i = some (l, n)) : Instr.vtime i = (l, n) := by
  unfold Rules.vector at h
  split at h
  case h_56 d a k ty =>
    rw [← Option.some.inj h, Instr.vtime]
    split <;> split <;> rfl
  case h_69 => cases h
  all_goals exact Option.some.inj h

/-- A word of Table 6.1 reads as it issues, and at the gaps of its occupancy, but for the four-bit packs (06 R135, R160, R162). -/
theorem vreads_of_vector {i : Instr} {x : Nat × Nat} (h : Rules.vector i = some x) (n g : Nat) :
    Rules.readAt i n g = (List.range (Instr.vreads i g n).1).map fun k => (Instr.vreads i g n).2.2 + (Instr.vreads i g n).2.1 * k := by
  unfold Rules.readAt
  split
  · rfl
  · rfl
  · rfl
  · next four four' half =>
    have plain : Instr.vreads i g n = (g, n, 0) := by
      unfold Instr.vreads
      split
      · exact (four _ _ _ _ rfl).elim
      · exact (four' _ _ _ _ rfl).elim
      · exact (half _ _ _ _ rfl).elim
      · cases h
      · cases h
      · cases h
      · rfl
    simp only [plain, Nat.zero_add]

/-- It completes its latency after each read, but for the unpack of four bits and the words that write a predicate (06 R135, R155, R162). -/
theorem vdones_of_vector {i : Instr} {x : Nat × Nat} (h : Rules.vector i = some x) (l n g : Nat) :
    Rules.doneAt i l n g = (List.range (Instr.vdones i g n l).1).map fun k => (Instr.vdones i g n l).2.2 + (Instr.vdones i g n l).2.1 * k := by
  unfold Rules.doneAt
  split
  · rfl
  · rfl
  · rfl
  · next unpack count lead =>
    have plain : Instr.vdones i g n l = (g, n, l) := by
      unfold Instr.vdones
      split
      · exact (unpack _ _ _ _ rfl).elim
      · exact (count _ _ _ _ rfl).elim
      · exact (lead _ _ _ _ rfl).elim
      · rfl
    simp only [plain]

/-- The phase of a word's reads: that of a2v is the tiles' (07 R193). -/
def Instr.readPhase (op : Instr) : Nat :=
  match op with
  | .a2v .. => phTileRead
  | _ => phRead

theorem readPhase_of_vector {i : Instr} {x : Nat × Nat} (h : Rules.vector i = some x) : Instr.readPhase i = phRead := by
  unfold Instr.readPhase
  split
  · cases h
  · rfl

/-! ### A word placed in the engine -/

/-- Word w stands in the engine of state u, placed by operation `op` in state t with results known at issue: its record, the port, the
count of the engine, and its reads and completions. -/
structure State.Entered (t u : State) (op : Instr) (o : VOps) (res : List VResult) (w : VWord) : Prop where
  mem : w ∈ u.cur.vec.words
  op_eq : w.op = op
  issued : w.issued = t.stc
  pc : w.pc = t.cur.x.pc
  group : w.group = t.cur.groupOf o
  lat : w.lat = (Instr.vtime op).1
  occ : w.occ = (Instr.vtime op).2
  active : w.active = t.cur.active o.p
  results : w.results = if t.cur.stageOff o.p then [] else res
  port : u.cur.vec.portFree = t.stc + (Instr.vtime op).2 * t.cur.groupOf o
  out : (u.cur.engine engVxe).out = (t.cur.engine engVxe).out + 1
  vrf : u.cur.vec.vrf = t.cur.vec.vrf
  dones : ∀ k, k < (Instr.vdones op w.group w.occ w.lat).1 →
    ⟨t.stc + (Instr.vdones op w.group w.occ w.lat).2.2 + (Instr.vdones op w.group w.occ w.lat).2.1 * k, phComplete,
      .vectorCompletion t.turn.core w.id k, {}, {}⟩ ∈ u.agenda
  reads : ∀ k, k < (Instr.vreads op w.group w.occ).1 →
    ⟨t.stc + (Instr.vreads op w.group w.occ).2.2 + (Instr.vreads op w.group w.occ).2.1 * k,
      Instr.readPhase op, .vectorGroupRead t.turn.core w.id k, {}, {}⟩ ∈ u.agenda

/-- Beside its own core and the agenda nothing has changed, and the stream stands where it stood. -/
structure State.PlacedIn (t u : State) : Prop where
  curSeq : u.curSeq = t.curSeq
  turn : u.turn = t.turn
  stc : u.stc = t.stc
  dram : u.dram = t.dram
  others : ∀ m, m ≠ t.turn.core → u.core m = t.core m

theorem State.startVector_enters (t : State) (op : Instr) (o : VOps) (res : List VResult) (part : List VReg) :
    t.PlacedIn (t.startVector op o res part) ∧ (t.startVector op o res part).cur.vec.skip = t.cur.vec.skip ∧
      ∃ w, t.Entered (t.startVector op o res part) op o res w := by
  obtain ⟨w, ⟨op_eq, issued, pc, group, lat, occ, active, results, -⟩, words, port, out, vrf, skip, curSeq, turn, stc, dram, others, agenda⟩ :=
    t.startVector_spec op o res part
  refine ⟨⟨curSeq, turn, stc, dram, others⟩, skip, w,
    ⟨?_, op_eq, issued, pc, group, lat, occ, active, results, port, out, vrf, fun k hk => ?_, fun k hk => ?_⟩⟩
  · rw [words]; exact List.mem_append_right _ (List.mem_singleton.mpr rfl)
  · exact (agenda _).mpr (.inl ⟨k, hk, rfl⟩)
  · exact (agenda _).mpr (.inr (.inl ⟨k, hk, rfl⟩))

/-- What changes neither the words, the port and the registers, nor the engines, nor the agenda leaves a word in the engine. -/
theorem State.Entered.of_same {t u v : State} {op : Instr} {o : VOps} {res : List VResult} {w : VWord} (h : t.Entered u op o res w)
    (hw : v.cur.vec.words = u.cur.vec.words) (hp : v.cur.vec.portFree = u.cur.vec.portFree) (hr : v.cur.vec.vrf = u.cur.vec.vrf)
    (he : v.cur.eng = u.cur.eng) (ha : v.agenda = u.agenda) : t.Entered v op o res w :=
  { h with
    mem := hw ▸ h.mem
    port := hp.trans h.port
    out := (congrArg (fun eng => (SMap.get ({} : EngSt) eng engVxe).out) he).trans h.out
    vrf := hr.trans h.vrf
    dones := fun k hk => ha ▸ h.dones k hk
    reads := fun k hk => ha ▸ h.reads k hk }

/-- The end of an issue keeps of the vector state all but the window and the count of a skip. -/
theorem State.finishIssue_vec_any (t : State) (k : Kind) (n : Nat) (r : Option (Option (BitVec 14))) (d : BitVec 14) :
    ∃ win sk, (t.finishIssue k n r d).cur.vec = { t.cur.vec with window := win, skip := sk } ∧
      (t.cur.vec.window = [] → win = []) ∧ (∀ w ∈ t.cur.vec.window, ∃ w' ∈ win, ∀ e ∈ w.held, e ∈ w'.held) ∧
      sk = (if t.turn.q = .x ∧ n ≠ 0 then n - 1 else t.cur.vec.skip) := by
  obtain ⟨x, b, win, sk, ended, none, held, skip⟩ := t.finishIssue_any k n r d
  exact ⟨win, sk, by rw [ended, Core.modSeq_vec], none, held, skip⟩

/-- A word in the engine stands there when its issue ends. -/
theorem State.Entered.finishIssue {t u : State} {op : Instr} {o : VOps} {res : List VResult} {w : VWord} (h : t.Entered u op o res w)
    (k : Kind) (n : Nat) (r : Option (Option (BitVec 14))) (d : BitVec 14) : t.Entered (u.finishIssue k n r d) op o res w := by
  obtain ⟨win, sk, vec, -⟩ := u.finishIssue_vec_any k n r d
  exact h.of_same (by rw [vec]) (by rw [vec]) (by rw [vec]) (u.finishIssue_alike k n r d).eng rfl

/-! ### The issue of a vector word -/

/-- A vector word that begins and may enter the engine is placed there, and its issue ends (06 R136). -/
theorem State.Begins.vecIssue {s t : State} {i : Instr} {skippable audit : Bool}
    (h : s.Begins (s.vecKind ((Instr.vops i).getD {}) skippable audit) t) (hr : Rules.VectorReady t i)
    (hs : skippable = true → t.suppressed = false) {more : State → Option Cause}
    (hm : t.cur.stageOff ((Instr.vops i).getD {}).p = false → more t = none) (extra : State → List VResult × List VReg) :
    s.vecIssue i skippable audit more extra id =
      (t.startVector i ((Instr.vops i).getD {}) (extra t).1 (extra t).2).finishIssue (s.vecKind ((Instr.vops i).getD {}) skippable audit)
        s.settled.cur.vec.skip none (s.curSeq.pc + 1#14) := by
  obtain ⟨free, port, heads⟩ := hr
  unfold State.vecIssue
  refine h.done ?_
  have notSkipped : (skippable && t.suppressed) = false := by
    cases skippable
    · rfl
    · exact hs rfl
  have notWaiting : (t.cur.sys.region && t.cur.vecWaits i ((Instr.vops i).getD {})) = false := by
    cases region : t.cur.sys.region
    · rfl
    · exact free region
  simp only [notSkipped, notWaiting, Nat.not_lt.mpr port, Bool.false_eq_true, if_false]
  cases off : t.cur.stageOff ((Instr.vops i).getD {}).p with
  | true => rfl
  | false => simp [hm off, heads off]

/-- The word at hand is that of X. -/
theorem State.curSeq_x {s : State} (hq : s.turn.q = .x) : s.curSeq = s.cur.x := by rw [State.curSeq, hq]; rfl

/-- A word placed in the engine has issued, and only its own core and the agenda have changed. -/
theorem State.Begins.placed {s t u : State} {k : Kind} (h : s.Begins k t) (p : t.PlacedIn u) (k' : Kind) (n : Nat) (d : BitVec 14) :
    let v := u.finishIssue k' n none d
    s.Issued v ∧ v.dram = s.dram ∧ ∀ m, m ≠ s.turn.core → v.core m = s.core m := by
  refine ⟨h.issued (congrArg SeqSt.pc p.curSeq) p.turn p.stc _ _ _ _, p.dram.trans h.dram, fun m hm => ?_⟩
  have other : m ≠ t.turn.core := by rwa [h.turn]
  rw [State.finishIssue_core_ne _ _ _ _ _ _ (by rwa [p.turn]), p.others m other, h.core_ne m hm]

/-- A word of Table 6.1 completes its issue in the engine. -/
theorem vector_inEngine {s t : State} {i : Instr} {l n : Nat} (hi : Rules.vector i = some (l, n)) (hq : s.turn.q = .x)
    (h : s.Begins (s.vecKind ((Instr.vops i).getD {}) true false) t) (hr : Rules.VectorReady t i) (hs : t.suppressed = false) :
    let g := t.cur.groupOf ((Instr.vops i).getD {})
    ∃ u, exec i s = .next u ∧ s.Issued u ∧ Rules.InEngine s t u i l n (Rules.readAt i n g) (Rules.doneAt i l n g) ∧
      u.cur.vec.vrf = t.cur.vec.vrf ∧ u.dram = s.dram ∧ ∀ m, m ≠ s.turn.core → u.core m = s.core m := by
  obtain ⟨extra, meaning, -⟩ := exec_vector hi s
  obtain ⟨placed, -, w, entered⟩ := t.startVector_enters i ((Instr.vops i).getD {}) (extra t).1 (extra t).2
  replace entered := entered.finishIssue (s.vecKind ((Instr.vops i).getD {}) true false) s.settled.cur.vec.skip none (s.curSeq.pc + 1#14)
  obtain ⟨issued, dram, others⟩ := h.placed placed (s.vecKind ((Instr.vops i).getD {}) true false) s.settled.cur.vec.skip (s.curSeq.pc + 1#14)
  have time := vtime_of_vector hi
  refine ⟨_, meaning.trans (congrArg Host.Outcome.next (h.vecIssue hr (fun _ => hs) (fun _ => rfl) extra)), issued, ?_, entered.vrf, dram, others⟩
  have listed (f : Nat → Nat) (m k c : Nat) : ((List.range m).map f)[k]? = some c ↔ k < m ∧ f k = c := by simp [List.getElem?_eq_some_iff]
  have lat : w.lat = l := by rw [entered.lat, time]
  have occ : w.occ = n := by rw [entered.occ, time]
  refine ⟨entered.out, by rw [entered.port, time, h.stc], w, entered.mem, entered.op_eq, entered.issued.trans h.stc, ?_, entered.group, lat, occ,
    entered.active, fun k c hc => ?_, fun k c hc => ?_⟩
  · rw [entered.pc, ← State.curSeq_x (h.turn ▸ hq), State.curSeq_pc_begins h]
  · rw [vreads_of_vector hi, listed] at hc
    obtain ⟨hk, rfl⟩ := hc
    have job := entered.reads k (by rwa [entered.group, occ])
    rwa [readPhase_of_vector hi, h.stc, h.turn, entered.group, occ, Nat.add_assoc] at job
  · rw [vdones_of_vector hi, listed] at hc
    obtain ⟨hk, rfl⟩ := hc
    have job := entered.dones k (by rwa [entered.group, occ, lat])
    rwa [h.stc, h.turn, entered.group, occ, lat, Nat.add_assoc] at job

/-! ### Tile moves (07 R193, R197) -/

/-- A word of one register that reads and completes once, its latency after its issue, completes its issue in the engine. -/
theorem tileMove_inEngine {s t : State} {i : Instr} {l r : Nat} {audit : Bool}
    (h : s.Begins (s.vecKind ((Instr.vops i).getD {}) false audit) t) (hr : Rules.VectorReady t i) {more : State → Option Cause}
    (hm : t.cur.stageOff ((Instr.vops i).getD {}).p = false → more t = none)
    (meaning : exec i s = .next (s.vecIssue i false audit more (fun _ => ([], [])) id))
    (lat : (Instr.vtime i).1 = l) (one : t.cur.groupOf ((Instr.vops i).getD {}) = 1)
    (reads : ∀ n, (Instr.vreads i 1 n).1 = 1 ∧ (Instr.vreads i 1 n).2.2 = r) (dones : ∀ n, (Instr.vdones i 1 n l).1 = 1 ∧ (Instr.vdones i 1 n l).2.2 = l) :
    ∃ u, exec i s = .next u ∧ s.Issued u ∧ (u.cur.engine engVxe).out = (t.cur.engine engVxe).out + 1 ∧
      ∃ w ∈ u.cur.vec.words, w.op = i ∧ w.issued = s.stc ∧ w.active = t.cur.active ((Instr.vops i).getD {}).p ∧
        (∃ j ∈ u.agenda, j.due = s.stc + r ∧ j.ev = .vectorGroupRead s.turn.core w.id 0) ∧
        (∃ j ∈ u.agenda, j.due = s.stc + l ∧ j.ev = .vectorCompletion s.turn.core w.id 0) := by
  obtain ⟨placed, -, w, entered⟩ := t.startVector_enters i ((Instr.vops i).getD {}) [] []
  replace entered := entered.finishIssue (s.vecKind ((Instr.vops i).getD {}) false audit) s.settled.cur.vec.skip none (s.curSeq.pc + 1#14)
  obtain ⟨issued, -⟩ := h.placed placed (s.vecKind ((Instr.vops i).getD {}) false audit) s.settled.cur.vec.skip (s.curSeq.pc + 1#14)
  have group : w.group = 1 := entered.group.trans one
  have wLat : w.lat = l := entered.lat.trans lat
  refine ⟨_, meaning.trans (congrArg Host.Outcome.next (h.vecIssue hr nofun hm _)), issued, entered.out, w, entered.mem, entered.op_eq,
    entered.issued.trans h.stc, entered.active, ⟨_, entered.reads 0 ?_, ?_, ?_⟩, ⟨_, entered.dones 0 ?_, ?_, ?_⟩⟩
  · rw [group, (reads _).1]; exact Nat.one_pos
  · rw [group, (reads _).2, h.stc]; rfl
  · rw [h.turn]
  · rw [group, wLat, (dones _).1]; exact Nat.one_pos
  · rw [group, wLat, (dones _).2, h.stc]; rfl
  · rw [h.turn]

/-- Settles O18: the words of Table 6.1, then a2v, v2a and ckrd. -/
theorem vectorWordEntersTheEngine : Obligations.VectorWordEntersTheEngine := by
  unfold Obligations.VectorWordEntersTheEngine
  refine ⟨fun i s t l n hi hq h hr hs => vector_inEngine hi hq h hr hs, ?_⟩
  rintro i s t l r audit - (⟨v, a, rb, ch, p, rfl, rfl, rfl, rfl, booked⟩ | ⟨v, a, rb, ch, p, rfl, rfl, rfl, rfl, booked⟩ |
    ⟨v, rfl, rfl, rfl, rfl⟩) o h one hr
  · exact tileMove_inEngine h hr (more := fun u => u.tileCheck a 2) booked rfl rfl one (fun _ => ⟨rfl, rfl⟩) fun _ => ⟨rfl, rfl⟩
  · exact tileMove_inEngine h hr (more := fun u => u.tileCheck a 6) booked rfl rfl one (fun _ => ⟨rfl, rfl⟩) fun _ => ⟨rfl, rfl⟩
  · exact tileMove_inEngine h hr (fun _ => rfl) rfl rfl one (fun _ => ⟨rfl, rfl⟩) fun _ => ⟨rfl, rfl⟩

end Sys2Proof.Machine

/-! SUPPORT. Vector words that take no port: predicate, mask, stage and rotation words (06 R136, R154 to R158). -/

namespace Sys2Proof.Machine

-- one after another: every waiting worker thread counts towards the check's memory limit
set_option Elab.async false

/-! ### The state in which the effect of a word of X is worked out -/

/-- Of its core only token FIFOs, the window and its numbering, and the refill cycles differ from the settled one; the window has at
most gained an entry that holds nothing. -/
theorem State.Begins.cur_any {s t : State} {k : Kind} (h : s.Begins k t) : ∃ tk win id,
    t.cur = ({ s.settled.cur with q := { s.settled.cur.q with tk := tk },
                                  vec := { s.settled.cur.vec with window := win, nextId := id } } : Core).modSeq s.turn.q (fun y => { y with extra := 0 }) ∧
      (win = s.settled.cur.vec.window ∨ ∃ e : XEntry, e.held = [] ∧ e.results = [] ∧ win = s.settled.cur.vec.window ++ [e]) := by
  obtain ⟨c, gate, rfl⟩ := h
  obtain ⟨tk, rfl⟩ := popTokens_tokens _ _ _ _ (State.gate_ok _ _ _ gate).2.2.1
  rw [State.begun]
  split
  · next precise =>
    refine ⟨tk, s.settled.cur.vec.window ++ [newEntry s.settled.cur k (s.settled.popsOf k) s.settled.stc], s.settled.cur.vec.nextId + 1, ?_,
      .inr ⟨_, rfl, rfl, rfl⟩⟩
    refine (State.setCore_core s.settled s.turn.core _).trans ?_
    rw [State.settled_turn]
    generalize s.turn.q = q
    cases q <;> rfl
  · refine ⟨tk, s.settled.cur.vec.window, s.settled.cur.vec.nextId, ?_, .inl rfl⟩
    exact State.setCore_core s.settled s.turn.core _

theorem State.Begins.sys {s t : State} {k : Kind} (h : s.Begins k t) : t.cur.sys = s.settled.cur.sys := by
  obtain ⟨tk, win, id, cur, -⟩ := h.cur_any
  rw [cur, Core.modSeq_sys]

theorem State.Begins.skip_eq {s t : State} {k : Kind} (h : s.Begins k t) : t.cur.vec.skip = s.settled.cur.vec.skip := by
  obtain ⟨tk, win, id, cur, -⟩ := h.cur_any
  rw [cur, Core.modSeq_vec]

/-- A word waits for the writes under way whether or not it has its own entry in the window. -/
theorem State.Begins.sysWaits {s t : State} {k : Kind} (h : s.Begins k t) (needs : List Nat) :
    t.cur.sysWaits needs = s.settled.cur.sysWaits needs := by
  obtain ⟨tk, win, id, cur, same | ⟨e, held, results, added⟩⟩ := h.cur_any
  · rw [cur, Core.sysWaits, Core.sysWaits, Core.modSeq_pend, Core.modSeq_vec, same]
  · rw [cur, Core.sysWaits, Core.sysWaits, Core.modSeq_pend, Core.modSeq_vec, added]
    simp [held, results]

/-- The trap of a vector word at decode is ILLOP (04 R88). -/
theorem State.vecKind_pre (s : State) (o : VOps) (skippable audit : Bool) :
    (s.vecKind o skippable audit).pre = none ∨ (s.vecKind o skippable audit).pre = some .illop := by
  simp only [State.vecKind]
  split
  · unfold State.konstPre; split <;> simp
  · unfold State.vecPre; dsimp only; split <;> simp

/-! ### Effects placed by a word of X -/

/-- Effects in force from one cycle, one after the other. -/
def Core.emits (c : Core) (due : Nat) (effs : List Eff) : Core := effs.foldl (fun c e => c.emit .x due e) c

theorem Core.emits_seq (c : Core) (due : Nat) (effs : List Eff) (q : Seq) : (c.emits due effs).seq q = c.seq q := by
  unfold Core.emits
  exact foldl_value_kept (g := fun c : Core => c.seq q) (fun e _ c => Core.emit_seq ..) c

/-- Outside precise mode they are placed for the cycle. -/
theorem Core.emits_closed (due : Nat) (effs : List Eff) {c : Core} (h : c.vec.window = []) :
    (c.emits due effs).vec = c.vec ∧ (∀ e ∈ effs, ⟨due, e⟩ ∈ (c.emits due effs).pend) ∧ ∀ p ∈ c.pend, p ∈ (c.emits due effs).pend := by
  induction effs generalizing c with
  | nil => exact ⟨rfl, fun e he => absurd he List.not_mem_nil, fun _ hp => hp⟩
  | cons e t ih =>
    have placed : c.emits due (e :: t) = (c.later due e).emits due t := by rw [Core.emits, List.foldl_cons, Core.emit_later fun _ => h]; rfl
    obtain ⟨vec, effs, pend⟩ := ih (c := c.later due e) h
    rw [placed]
    refine ⟨vec, fun f hf => ?_, fun p hp => pend p ((mem_insPend ..).mpr (.inr hp))⟩
    rcases List.mem_cons.mp hf with rfl | hf
    · exact pend _ ((mem_insPend ..).mpr (.inl rfl))
    · exact effs f hf

/-- Behind an open precise word the newest entry of the window holds them. -/
theorem Core.emits_open (due : Nat) (effs : List Eff) {c : Core} {l : List XEntry} {w : XEntry} (h : c.vec.window = l ++ [w]) :
    c.emits due effs = { c with vec := { c.vec with window := l ++ [{ w with held := w.held ++ effs }] } } := by
  induction effs generalizing c w with
  | nil => rw [List.append_nil, ← h]; rfl
  | cons e t ih =>
    have held : c.emit .x due e = { c with vec := { c.vec with window := l ++ [{ w with held := w.held ++ [e] }] } } := by
      simp [Core.emit, h]
    have placed : c.emits due (e :: t) = (c.emit .x due e).emits due t := rfl
    rw [placed, held, ih rfl]
    simp

/-- What state u, reached from t, shows of effects placed for a cycle: outside precise mode they are under way, behind an open precise
word the window holds them. -/
structure State.Places (t u : State) (due : Nat) (effs : List Eff) : Prop where
  placed : t.PlacedIn u
  vrf : u.cur.vec.vrf = t.cur.vec.vrf
  masks : u.cur.vec.masks = t.cur.vec.masks
  closed : t.cur.vec.window = [] → ∀ e ∈ effs, ⟨due, e⟩ ∈ u.cur.pend
  open_ : t.cur.vec.window ≠ [] → ∃ w ∈ u.cur.vec.window, ∀ e ∈ effs, e ∈ w.held

theorem State.PlacedIn.refl (t : State) : t.PlacedIn t := ⟨rfl, rfl, rfl, rfl, fun _ _ => rfl⟩

theorem State.PlacedIn.trans {t u v : State} (h : t.PlacedIn u) (k : u.PlacedIn v) : t.PlacedIn v :=
  ⟨k.curSeq.trans h.curSeq, k.turn.trans h.turn, k.stc.trans h.stc, k.dram.trans h.dram,
    fun m hm => (k.others m (by rwa [h.turn])).trans (h.others m hm)⟩

/-- A change of its own core that leaves the streams. -/
theorem State.modCur_placedIn (t : State) {f : Core → Core} (h : (f t.cur).seq t.turn.q = t.cur.seq t.turn.q) : t.PlacedIn (t.modCur f) := by
  refine ⟨?_, rfl, rfl, rfl, fun m hm => State.modCore_core_ne _ _ _ _ hm⟩
  rw [State.curSeq, State.modCur_cur, State.modCur_turn, h, State.curSeq]

/-- A core that emits effects places them. -/
theorem State.places_of_cur {t u : State} {due : Nat} {effs : List Eff} (p : t.PlacedIn u) {sk : Nat}
    (h : u.cur = { t.cur.emits due effs with vec := { (t.cur.emits due effs).vec with skip := sk } }) : t.Places u due effs := by
  rcases List.eq_nil_or_concat' t.cur.vec.window with closed | ⟨l, w, isOpen⟩
  · obtain ⟨vec, placed, -⟩ := Core.emits_closed due effs closed
    exact ⟨p, by rw [h, vec], by rw [h, vec], fun _ => by rw [h]; exact placed, fun ne => absurd closed ne⟩
  · rw [Core.emits_open due effs isOpen] at h
    refine ⟨p, by rw [h], by rw [h], fun nil => ?_, fun _ => ⟨_, by rw [h]; exact List.mem_append_right _ (List.mem_singleton.mpr rfl), fun e he => ?_⟩⟩
    · simp [isOpen] at nil
    · exact List.mem_append_right _ he

/-! ### Words that take no port -/

/-- The engine counts the word at hand, which leaves it at the end of the next cycle, or at its commit in precise mode (06 R136, R140). -/
def State.countInstant (u : State) : State :=
  let v := u.modCur fun c => (c.drawSeq (unitOfEng engVxe)).modEngine engVxe fun x => { x with out := x.out + 1 }
  if !u.cur.vec.window.isEmpty then (v.modCur fun c => c.countEntry v.entryId).xDone v.entryId (v.stc + 1)
  else v.modCur fun c => c.later (v.stc + 2) (.engRetire engVxe)

/-- It keeps the vector state but for marks in the window, and what is under way. -/
theorem State.countInstant_keeps (u : State) : u.PlacedIn u.countInstant ∧ (∀ p ∈ u.cur.pend, p ∈ u.countInstant.cur.pend) ∧
    ∃ win, u.countInstant.cur.vec = { u.cur.vec with window := win } ∧ ∀ e ∈ u.cur.vec.window, ∃ e' ∈ win, e'.held = e.held := by
  have counted : u.PlacedIn (u.modCur fun c => (c.drawSeq (unitOfEng engVxe)).modEngine engVxe fun x => { x with out := x.out + 1 }) :=
    u.modCur_placedIn (by cases u.turn.q <;> rfl)
  unfold State.countInstant
  dsimp only
  generalize hv : (u.modCur fun c => (c.drawSeq (unitOfEng engVxe)).modEngine engVxe fun x => { x with out := x.out + 1 }) = v at counted ⊢
  have vec : v.cur.vec = u.cur.vec := by rw [← hv, State.modCur_cur]; rfl
  have pend : v.cur.pend = u.cur.pend := by rw [← hv, State.modCur_cur]; rfl
  split
  · have marked : v.PlacedIn (v.modCur fun c => c.countEntry v.entryId) := v.modCur_placedIn (by cases v.turn.q <;> rfl)
    have cur : ((v.modCur fun c => c.countEntry v.entryId).xDone v.entryId (v.stc + 1)).cur = v.cur.countEntry v.entryId :=
      State.modCur_cur v fun c => c.countEntry v.entryId
    refine ⟨counted.trans (marked.trans ⟨rfl, rfl, rfl, rfl, fun _ _ => rfl⟩), fun p hp => ?_,
      u.cur.vec.window.map fun e => if e.id = v.entryId then { e with counted := true } else e, ?_, fun e he => ?_⟩
    · rw [cur]; exact pend.symm ▸ hp
    · rw [cur, Core.countEntry, vec]
    · exact ⟨_, List.mem_map_of_mem he, by split <;> rfl⟩
  · have retires : v.PlacedIn (v.modCur fun c => c.later (v.stc + 2) (.engRetire engVxe)) := v.modCur_placedIn (by rw [Core.later_seq])
    refine ⟨counted.trans retires, fun p hp => ?_, u.cur.vec.window, ?_, fun e he => ⟨e, he, rfl⟩⟩
    · rw [State.modCur_cur]; exact (mem_insPend ..).mpr (.inr (pend.symm ▸ hp))
    · rw [State.modCur_cur, Core.later_vec, vec]

/-- What the effect of such a word answers: a trap, or a state in which the engine counts the word. -/
def instantRes : Except Cause State → Res
  | .error c => .trap c 0 false
  | .ok u => .done u.countInstant

section
variable {s t : State} {op : Instr} {skippable : Bool} (h : s.Begins (s.vecKind ((Instr.vops op).getD {}) skippable false) t)
  (hs : skippable = true → t.suppressed = false)
  (hw : t.cur.sys.region = true → t.cur.sysWaits (Instr.sysReads op ((Instr.vops op).getD {})) = false)
  (on : t.cur.stageOff ((Instr.vops op).getD {}).p = false) {effect : State → Except Cause State}
include h hs hw on

/-- A word that takes no port, begins and is not suppressed: its effect is worked out at its issue (06 R136). -/
theorem State.Begins.vecInstant : s.vecInstant op skippable none effect =
    s.settled.conclude (s.vecKind ((Instr.vops op).getD {}) skippable false) (instantRes (effect t)) := by
  have notSkipped : (skippable && t.suppressed) = false := by
    cases skippable
    · rfl
    · exact hs rfl
  have notWaiting : (t.cur.sys.region && t.cur.sysWaits (Instr.sysReads op ((Instr.vops op).getD {}))) = false := by
    cases region : t.cur.sys.region
    · rfl
    · exact hw region
  unfold State.vecInstant
  dsimp only
  rw [Option.or_none, h.issue]
  congr 1
  simp only [notSkipped, notWaiting, on, Bool.false_eq_true, if_false]
  cases effect t with
  | error c => rfl
  | ok u =>
    simp only [instantRes, State.countInstant]

theorem State.Begins.vecInstant_trap {c : Cause} (he : effect t = .error c) :
    s.vecInstant op skippable none effect = s.settled.wordTrap c 0 := by
  rw [h.vecInstant hs hw on, he]
  simp [instantRes, State.conclude]

/-- The word issues; the vector state is as its effect left it but for marks and tokens in the window and the count of a skip, and what the
effect placed is under way. -/
theorem State.Begins.vecInstant_issues {u : State} (he : effect t = .ok u) (placed : t.PlacedIn u) :
    let v := s.vecInstant op skippable none effect
    s.Issued v ∧ v.dram = s.dram ∧ (∀ m, m ≠ s.turn.core → v.core m = s.core m) ∧ (∀ p ∈ u.cur.pend, p ∈ v.cur.pend) ∧
      ∃ win sk, v.cur.vec = { u.cur.vec with window := win, skip := sk } ∧ ∀ w ∈ u.cur.vec.window, ∃ w' ∈ win, ∀ e ∈ w.held, e ∈ w'.held := by
  obtain ⟨counted, pend, win, vec, marked⟩ := u.countInstant_keeps
  have ended : s.vecInstant op skippable none effect = u.countInstant.finishIssue (s.vecKind ((Instr.vops op).getD {}) skippable false)
      s.settled.cur.vec.skip none (s.curSeq.pc + 1#14) := by
    rw [h.vecInstant hs hw on, he]
    simp [instantRes, State.conclude]
  obtain ⟨issued, dram, others⟩ := h.placed (placed.trans counted) (s.vecKind ((Instr.vops op).getD {}) skippable false)
    s.settled.cur.vec.skip (s.curSeq.pc + 1#14)
  obtain ⟨win', sk, vec', -, held, -⟩ := u.countInstant.finishIssue_vec_any (s.vecKind ((Instr.vops op).getD {}) skippable false)
    s.settled.cur.vec.skip none (s.curSeq.pc + 1#14)
  rw [ended]
  refine ⟨issued, dram, others, fun p hp => ?_, win', sk, by rw [vec', vec], fun w hw => ?_⟩
  · rw [State.finishIssue_pend]; exact pend p hp
  · obtain ⟨w₁, mem, same⟩ := marked w hw
    obtain ⟨w₂, mem', more⟩ := held w₁ (by rw [vec]; exact mem)
    exact ⟨w₂, mem', fun e he => more e (same ▸ he)⟩

end

/-! ### Predicate, mask, stage and rotation words (06 R154 to R158) -/

/-- The base one step down, by Table 2.6's region (06 R158). -/
theorem rrbStep_eq (c : Core) : (rrbStep c.sys).toList.map Eff.rrb = Rules.stateWord.stepBase c := by
  unfold rrbStep Rules.stateWord.stepBase
  dsimp only
  split
  · rfl
  · next size =>
    have step : (c.sys.rrb.toNat + c.sys.rotsz.toNat - 1) % c.sys.rotsz.toNat =
        if c.sys.rrb.toNat % c.sys.rotsz.toNat = 0 then c.sys.rotsz.toNat - 1 else c.sys.rrb.toNat % c.sys.rotsz.toNat - 1 := by
      generalize c.sys.rrb.toNat = b at *
      have pos : 0 < c.sys.rotsz.toNat := Nat.pos_of_ne_zero size
      generalize c.sys.rotsz.toNat = n at pos
      have small := Nat.mod_lt b pos
      split
      · next zero => rw [show b + n - 1 = b + (n - 1) by omega, Nat.add_mod, zero, Nat.zero_add, Nat.mod_mod, Nat.mod_eq_of_lt (by omega)]
      · next some =>
        obtain ⟨q, hq⟩ : ∃ q, b + n - 1 = (b % n - 1) + n * q := ⟨b / n + 1, by rw [Nat.mul_add, Nat.mul_one]; have := Nat.mod_add_div b n; omega⟩
        rw [hq, Nat.add_mul_mod_self_left, Nat.mod_eq_of_lt (by omega)]
    rw [step]; rfl

theorem State.emitRrb_cur (u : State) : u.emitRrb.cur = u.cur.emits (u.stc + 1) (Rules.stateWord.stepBase u.cur) ∧ u.PlacedIn u.emitRrb := by
  rw [← rrbStep_eq]
  unfold State.emitRrb
  split
  · next none => rw [none]; exact ⟨rfl, .refl u⟩
  · next v some => rw [some]; exact ⟨State.modCur_cur .., u.modCur_placedIn (Core.emit_seq ..)⟩

theorem State.startSkip_cur (u : State) (top : BitVec 1024) (skip : Nat) : u.PlacedIn (u.startSkip top skip) ∧
    (u.startSkip top skip).cur = { u.cur with vec := { u.cur.vec with
      skip := if u.cur.vec.skip = 0 ∧ top = 0#1024 ∧ skip ≠ 0 then skip else u.cur.vec.skip } } := by
  unfold State.startSkip
  constructor
  · refine u.modCur_placedIn ?_
    split
    · cases u.turn.q <;> rfl
    · rfl
  · rw [State.modCur_cur]
    split <;> rfl

/-- 06 R158: the bases that Table 2.6 takes. -/
theorem legalSys_rrb (c : Core) (b : BitVec 10) :
    (decide (b.toNat < 512) && c.legalSys 0x006 (b.setWidth 64)) = true ↔
      (b.toNat < c.sys.rotsz.toNat ∧ b.toNat < 512) ∨ (c.sys.rotsz = 0#10 ∧ b = 0#10) := by
  have wide : (b.setWidth 64 : Word).toNat = b.toNat := by simp; omega
  have zero : b = 0#10 ↔ b.toNat = 0 := ⟨fun h => h ▸ rfl, fun h => BitVec.eq_of_toNat_eq h⟩
  simp only [Core.legalSys, wide, zero]
  simp
  constructor
  · rintro ⟨small, below | ⟨none, zero⟩⟩
    · rw [Nat.mod_eq_of_lt small] at below; exact .inl ⟨below, small⟩
    · rw [Nat.mod_eq_of_lt small] at zero; exact .inr ⟨none, zero⟩
  · rintro (⟨below, small⟩ | ⟨none, zero⟩)
    · exact ⟨small, .inl (by rwa [Nat.mod_eq_of_lt small])⟩
    · rw [zero]; exact ⟨by decide, .inr ⟨none, rfl⟩⟩

/-- The words of R154 to R158, each with what it places. -/
theorem stateWord_cases {c : Core} {i : Instr} {sk : Bool} {effs : List Eff} (hi : Rules.stateWord c i = some (sk, effs)) :
    (∃ pd n w g, i = .pset pd n w g ∧ predLegal (BitVec.ofNat 18 (n.toNat + 8192 * w.toNat + 32768 * g.toNat)) = true ∧ sk = true ∧
      effs = [.pred pd.toNat (BitVec.ofNat 18 (n.toNat + 8192 * w.toNat + 32768 * g.toNat))]) ∨
    (∃ k, i = .minv k ∧ c.maskNone = false ∧ sk = false ∧ effs = [.maskTop (~~~c.maskTop &&& c.maskBelow)]) ∨
    (i = .mpop ∧ c.maskNone = false ∧ sk = false ∧ effs = [.maskPop]) ∨
    (∃ m, i = .spset m ∧ sk = true ∧ effs = [.spv m]) ∨
    (∃ b r, i = .spshl b r ∧ sk = true ∧
      effs = .spv (c.sys.spv <<< 1 ||| b.setWidth 8) :: (if r = 1#1 then Rules.stateWord.stepBase c else [])) ∨
    (i = .rrbdec ∧ sk = true ∧ effs = Rules.stateWord.stepBase c) ∨
    (∃ b, i = .rrbset b ∧ ((b.toNat < c.sys.rotsz.toNat ∧ b.toNat < 512) ∨ (c.sys.rotsz = 0#10 ∧ b = 0#10)) ∧ sk = true ∧
      effs = [.rrb (b.setWidth 9)]) := by
  cases i
  case pset pd n w g =>
    let p := BitVec.ofNat 18 (n.toNat + 8192 * w.toNat + 32768 * g.toNat)
    replace hi : (if predLegal p then some (true, [Eff.pred pd.toNat p]) else none) = some (sk, effs) := hi
    split at hi
    · next legal => cases hi; exact .inl ⟨pd, n, w, g, rfl, legal, rfl, rfl⟩
    · cases hi
  case minv k =>
    replace hi : (if c.maskNone then none else some (false, [Eff.maskTop (~~~c.maskTop &&& c.maskBelow)])) = some (sk, effs) := hi
    split at hi
    · cases hi
    · next entry => cases hi; exact .inr (.inl ⟨k, rfl, Bool.eq_false_iff.mpr entry, rfl, rfl⟩)
  case mpop =>
    replace hi : (if c.maskNone then none else some (false, [Eff.maskPop])) = some (sk, effs) := hi
    split at hi
    · cases hi
    · next entry => cases hi; exact .inr (.inr (.inl ⟨rfl, Bool.eq_false_iff.mpr entry, rfl, rfl⟩))
  case spset m => cases hi; exact .inr (.inr (.inr (.inl ⟨m, rfl, rfl, rfl⟩)))
  case spshl b r => cases hi; exact .inr (.inr (.inr (.inr (.inl ⟨b, r, rfl, rfl, rfl⟩))))
  case rrbdec => cases hi; exact .inr (.inr (.inr (.inr (.inr (.inl ⟨rfl, rfl, rfl⟩)))))
  case rrbset b =>
    replace hi : (if (b.toNat < c.sys.rotsz.toNat ∧ b.toNat < 512) ∨ (c.sys.rotsz = 0#10 ∧ b = 0#10) then
      some (true, [Eff.rrb (b.setWidth 9)]) else none) = some (sk, effs) := hi
    split at hi
    · next legal => cases hi; exact .inr (.inr (.inr (.inr (.inr (.inr ⟨b, rfl, legal, rfl, rfl⟩)))))
    · cases hi
  all_goals exact absurd (show none = some _ from hi) nofun

theorem Core.emit_sys (c : Core) (q : Seq) (due : Nat) (e : Eff) : (c.emit q due e).sys = c.sys := by
  unfold Core.emit
  split <;> rfl

/-- An effect emitted by a word of X. -/
theorem State.places_emit (t : State) (due : Nat) (e : Eff) : t.Places (t.modCur fun c => c.emit .x due e) due [e] :=
  State.places_of_cur (t.modCur_placedIn (Core.emit_seq ..)) (sk := (t.cur.emit .x due e).vec.skip) (State.modCur_cur ..)

/-- A count of a skip set behind it leaves it placed. -/
theorem State.Places.startSkip {t u : State} {due : Nat} {effs : List Eff} (h : t.Places u due effs) (top : BitVec 1024) (skip : Nat) :
    t.Places (u.startSkip top skip) due effs := by
  obtain ⟨kept, cur⟩ := u.startSkip_cur top skip
  exact ⟨h.placed.trans kept, by rw [cur]; exact h.vrf, by rw [cur]; exact h.masks, fun closed => by rw [cur]; exact h.closed closed,
    fun opened => by rw [cur]; exact h.open_ opened⟩

/-- The base stepped down. -/
theorem State.places_emitRrb (t : State) : t.Places t.emitRrb (t.stc + 1) (Rules.stateWord.stepBase t.cur) :=
  State.places_of_cur t.emitRrb_cur.2 (sk := t.emitRrb.cur.vec.skip) (by rw [← t.emitRrb_cur.1])

/-- spshl: the stage bits shifted, and the base stepped down where the word asks for it. -/
theorem State.places_shift (t : State) (v : BitVec 8) (r : BitVec 1) :
    t.Places (if r = 1#1 then (t.modCur fun c => c.emit .x (t.stc + 1) (.spv v)).emitRrb else t.modCur fun c => c.emit .x (t.stc + 1) (.spv v))
      (t.stc + 1) (.spv v :: if r = 1#1 then Rules.stateWord.stepBase t.cur else []) := by
  split
  · generalize hu : (t.modCur fun c => c.emit .x (t.stc + 1) (.spv v)) = u
    have shifted : t.PlacedIn u := hu ▸ t.modCur_placedIn (Core.emit_seq ..)
    have cur : u.cur = t.cur.emit .x (t.stc + 1) (.spv v) := by rw [← hu, State.modCur_cur]
    obtain ⟨stepped, kept⟩ := u.emitRrb_cur
    have base : Rules.stateWord.stepBase u.cur = Rules.stateWord.stepBase t.cur := by
      rw [cur, Rules.stateWord.stepBase, Core.emit_sys, Rules.stateWord.stepBase]
    refine State.places_of_cur (shifted.trans kept) (sk := u.emitRrb.cur.vec.skip) ?_
    rw [stepped, base, cur, shifted.stc]; rfl
  · exact t.places_emit ..

section
variable {s t : State} {i : Instr} {sk : Bool} {effs : List Eff}

/-- Such a word takes no operand; its meaning works its effect out at its issue. -/
theorem stateWord_effect (hi : Rules.stateWord t.cur i = some (sk, effs)) (sys : t.cur.sys = s.settled.cur.sys) :
    Instr.vops i = none ∧
      ∃ effect u, exec i s = .next (s.vecInstant i sk none effect) ∧ effect t = .ok u ∧ t.Places u (t.stc + 1) effs := by
  rcases stateWord_cases hi with ⟨pd, n, w, g, rfl, legal, rfl, rfl⟩ | ⟨k, rfl, entry, rfl, rfl⟩ | ⟨rfl, entry, rfl, rfl⟩ | ⟨m, rfl, rfl, rfl⟩ |
    ⟨b, r, rfl, rfl, rfl⟩ | ⟨rfl, rfl, rfl⟩ | ⟨b, rfl, legal, rfl, rfl⟩
  · refine ⟨rfl, fun u => .ok (u.modCur fun c => c.emit .x (u.stc + 1) _), _, congrArg Host.Outcome.next ?_, rfl, t.places_emit ..⟩
    rw [if_pos (show predLegal (predWord _ _ _) = true from legal)]; rfl
  · exact ⟨rfl, _, _, rfl, if_neg (by rw [entry]; decide), (t.places_emit ..).startSkip ..⟩
  · exact ⟨rfl, _, _, rfl, if_neg (by rw [entry]; decide), t.places_emit ..⟩
  · exact ⟨rfl, _, _, rfl, rfl, t.places_emit ..⟩
  · exact ⟨rfl, _, _, rfl, rfl, t.places_shift ..⟩
  · exact ⟨rfl, _, _, rfl, rfl, t.places_emitRrb⟩
  · refine ⟨rfl, fun u => .ok (u.modCur fun c => c.emit .x (u.stc + 1) _), _, congrArg Host.Outcome.next ?_, rfl, t.places_emit ..⟩
    rw [sys] at legal
    obtain ⟨small, fits⟩ := Bool.and_eq_true_iff.mp ((legalSys_rrb s.settled.cur b).mpr legal)
    simp only [small, fits, Bool.or_true, Bool.and_self, if_true]

end

/-! ### Their issue -/

/-- No stage bit guards a word that takes no operand. -/
theorem stageOff_none (c : Core) {i : Instr} (h : Instr.vops i = none) : c.stageOff ((Instr.vops i).getD {}).p = false := by rw [h]; rfl

theorem stateWord_issues {s t : State} {i : Instr} {sk : Bool} {effs : List Eff} (hi : Rules.stateWord t.cur i = some (sk, effs))
    (h : s.Begins (s.vecKind ((Instr.vops i).getD {}) sk false) t) (hs : sk = true → t.suppressed = false)
    (hw : t.cur.sys.region = true → t.cur.sysWaits (Instr.sysReads i ((Instr.vops i).getD {})) = false) :
    ∃ u, exec i s = .next u ∧ s.Issued u ∧
      (t.cur.vec.window = [] → ∀ e ∈ effs, ⟨s.stc + 1, e⟩ ∈ u.cur.pend) ∧
      (t.cur.vec.window ≠ [] → ∃ w ∈ u.cur.vec.window, ∀ e ∈ effs, e ∈ w.held) ∧
      u.cur.vec.vrf = t.cur.vec.vrf ∧ u.cur.vec.masks = t.cur.vec.masks ∧ u.dram = s.dram ∧
      (∀ m, m ≠ s.turn.core → u.core m = s.core m) := by
  obtain ⟨plain, effect, u, meaning, worked, places⟩ := stateWord_effect (s := s) hi h.sys
  obtain ⟨issued, dram, others, pend, win, sk', vec, held⟩ := h.vecInstant_issues hs hw (stageOff_none _ plain) worked places.placed
  refine ⟨_, meaning, issued, fun closed e he => ?_, fun opened => ?_, by rw [vec]; exact places.vrf, by rw [vec]; exact places.masks, dram, others⟩
  · exact pend _ (h.stc ▸ places.closed closed e he)
  · obtain ⟨w, mem, holds⟩ := places.open_ opened
    obtain ⟨w', mem', kept⟩ := held w mem
    exact ⟨w', by rw [vec]; exact mem', fun e he => kept e (holds e he)⟩

/-- What such a word is judged by at decode traps with ILLOP (04 R88). -/
theorem State.vecInstant_illop (s : State) (i : Instr) (sk : Bool) (effect : State → Except Cause State) :
    s.vecInstant i sk (some .illop) effect = s.settled.wordTrap .illop 0 := by
  unfold State.vecInstant
  refine State.issue_pre _ _ _ _ ?_
  rcases s.vecKind_pre ((Instr.vops i).getD {}) sk false with none | some
  · simp [none]
  · simp [some]

/-- An empty mask stack has no entry for mpop and minv. -/
theorem mask_empty {s t : State} (h : s.Begins (s.vecKind {} false false) t) (empty : t.cur.vec.masks = [])
    (hw : t.cur.sys.region = true → t.cur.sysWaits [0x003, 0x008] = false) :
    exec .mpop s = .next (s.settled.wordTrap .msempty 0) ∧ ∀ k, exec (.minv k) s = .next (s.settled.wordTrap .msempty 0) := by
  have none : t.cur.maskNone = true := by rw [Core.maskNone, empty]; rfl
  exact ⟨congrArg Host.Outcome.next (State.Begins.vecInstant_trap (op := .mpop) h nofun hw rfl (if_pos none)),
    fun k => congrArg Host.Outcome.next (State.Begins.vecInstant_trap (op := .minv k) h nofun hw rfl (if_pos none))⟩

/-- A base that Table 2.6 does not take. -/
theorem rrbset_illegal {s t : State} {b : BitVec 10} (hw : t.cur.sys.region = true → t.cur.sysWaits [0x005] = false)
    (h : s.Begins (s.vecKind {} true false) t)
    (outside : ¬((b.toNat < t.cur.sys.rotsz.toNat ∧ b.toNat < 512) ∨ (t.cur.sys.rotsz = 0#10 ∧ b = 0#10))) :
    exec (.rrbset b) s = .next (s.settled.wordTrap .illop 0) := by
  rw [h.sys, h.sysWaits] at hw
  rw [h.sys, ← legalSys_rrb, Bool.not_eq_true] at outside
  have settledNow : (s.settled.cur.sys.region && !s.settled.suppressed && s.settled.cur.sysWaits [0x005]) = false := by
    cases region : s.settled.cur.sys.region
    · rfl
    · rw [hw region, Bool.and_false]
  refine congrArg Host.Outcome.next (Eq.trans ?_ (s.vecInstant_illop (.rrbset b) true fun t =>
    .ok (t.modCur fun c => c.emit .x (t.stc + 1) (.rrb (b.setWidth 9)))))
  simp only [settledNow, Bool.false_or, outside, Bool.false_eq_true, if_false]

/-- A stack of 16 entries takes no other. -/
theorem mpush_full {s t : State} {a : VOpF} {k : BitVec 10} {w : BitVec 2}
    (h : s.Begins (s.vecKind ((Instr.vops (.mpush a k w)).getD {}) false false) t)
    (hw : t.cur.sys.region = true → t.cur.vecWaits (.mpush a k w) ((Instr.vops (.mpush a k w)).getD {}) = false)
    (port : t.cur.vec.portFree ≤ t.stc) (full : 16 ≤ t.cur.vec.masks.length) :
    exec (.mpush a k w) s = .next (s.settled.wordTrap .msfull 0) := by
  have none : t.cur.maskFull = true := by rw [Core.maskFull, decide_eq_true full]; rfl
  have notWaiting : (t.cur.sys.region && t.cur.vecWaits (.mpush a k w) ((Instr.vops (.mpush a k w)).getD {})) = false := by
    cases region : t.cur.sys.region
    · rfl
    · exact hw region
  refine congrArg Host.Outcome.next (h.trap ?_)
  simp only [notWaiting, none, Nat.not_lt.mpr port, Bool.false_eq_true, if_false, if_true]

/-- Settles O19: what the words place, then the traps. -/
theorem vectorStateWords : Obligations.VectorStateWords := by
  unfold Obligations.VectorStateWords
  refine ⟨fun i s t sk effs hi _ h hs hw => stateWord_issues hi h hs hw, fun s t _ => ⟨fun pd n w g illegal => ?_, mask_empty, fun b => rrbset_illegal,
    fun a k w => mpush_full⟩⟩
  refine congrArg Host.Outcome.next (Eq.trans ?_ (s.vecInstant_illop (.pset pd n w g) true fun t =>
    .ok (t.modCur fun c => c.emit .x (t.stc + 1) (.pred pd.toNat (predWord n.toNat w.toNat g.toNat)))))
  rw [if_neg (show ¬predLegal (predWord n.toNat w.toNat g.toNat) = true from Bool.eq_false_iff.mp illegal)]

end Sys2Proof.Machine

/-! SUPPORT. The mask push from a register, the clearing of flags, and words in a skip (06 R156, R157, R164). -/

namespace Sys2Proof.Machine

-- one after another: every waiting worker thread counts towards the check's memory limit
set_option Elab.async false

/-! ### Mask pushes from a register (06 R156, R157) -/

/-- The operand of mpush, where it is a register, as the register stands; nothing else changes. -/
theorem State.maskOperand_reg (t : State) {a : VOpF} (ha : a.toNat ≤ 639) (wd : BitVec 2) :
    t.maskOperand a wd = some (t.cur.vec.reg (physReg t.cur.sys.rotsz.toNat t.cur.sys.rrb.toNat a.toNat), t.cur) := by
  have reg : opReg a = some a.toNat := if_pos ha
  simp only [State.maskOperand, State.readOperand, reg, Nat.add_zero]

/-- The state that mpush with mask `top` leaves in the engine: outside precise mode and outside a calendar region the push is placed at
once, elsewhere it is the word's result. -/
def State.pushMask (t : State) (op : Instr) (top : BitVec 1024) : State :=
  let plain := !t.cur.sys.region && t.cur.vec.window.isEmpty
  let u := (t.setCore t.turn.core t.cur).startVector op ((Instr.vops op).getD {}) (if plain then [] else [{ k := 0, mask := some top }]) []
  if plain then u.modCur fun c => c.later (t.stc + 2) (.maskPush top) else u

/-- An mpush of a register that begins, finds the port free and room on the stack. -/
theorem mpush_pushes {s t : State} {a : VOpF} {skip : BitVec 10} {wd : BitVec 2} (ha : a.toNat ≤ 639)
    (h : s.Begins (s.vecKind ((Instr.vops (.mpush a skip wd)).getD {}) false false) t) (hr : Rules.VectorReady t (.mpush a skip wd))
    (room : t.cur.maskFull = false) {top : BitVec 1024}
    (htop : top = nzLanes (8 * 2 ^ wd.toNat) (t.cur.vec.reg (physReg t.cur.sys.rotsz.toNat t.cur.sys.rrb.toNat a.toNat)) &&& t.cur.maskTop) :
    exec (.mpush a skip wd) s = .next (((t.pushMask (.mpush a skip wd) top).startSkip top skip.toNat).finishIssue
      (s.vecKind ((Instr.vops (.mpush a skip wd)).getD {}) false false) s.settled.cur.vec.skip none (s.curSeq.pc + 1#14)) := by
  obtain ⟨free, port, -⟩ := hr
  have notWaiting : (t.cur.sys.region && t.cur.vecWaits (.mpush a skip wd) ((Instr.vops (.mpush a skip wd)).getD {})) = false := by
    cases region : t.cur.sys.region
    · rfl
    · exact free region
  refine congrArg Host.Outcome.next (h.done ?_)
  simp only [notWaiting, room, Nat.not_lt.mpr port, t.maskOperand_reg ha, ← htop, Bool.false_eq_true, if_false]
  rfl

/-- What the push leaves: the word in the engine, or the push under way. -/
theorem State.pushMask_spec (t : State) (a : VOpF) (skip : BitVec 10) (wd : BitVec 2) (top : BitVec 1024) :
    let i : Instr := .mpush a skip wd
    let u := t.pushMask i top
    t.PlacedIn u ∧ u.cur.vec.skip = t.cur.vec.skip ∧
      (t.cur.sys.region = true ∨ t.cur.vec.window ≠ [] → ∃ w ∈ u.cur.vec.words, w.op = i ∧ w.results = [{ k := 0, mask := some top }] ∧
        ⟨t.stc + 2, phComplete, .vectorCompletion t.turn.core w.id 0, {}, {}⟩ ∈ u.agenda) ∧
      (t.cur.sys.region = false → t.cur.vec.window = [] → ⟨t.stc + 2, .maskPush top⟩ ∈ u.cur.pend) := by
  intro i u
  have set : t.PlacedIn (t.setCore t.turn.core t.cur) := t.modCur_placedIn (f := id) rfl
  have cur : (t.setCore t.turn.core t.cur).cur = t.cur := t.modCur_cur id
  cases plain : (!t.cur.sys.region && t.cur.vec.window.isEmpty) with
  | false =>
    obtain ⟨placed, kept, w, entered⟩ := (t.setCore t.turn.core t.cur).startVector_enters i ((Instr.vops i).getD {}) [{ k := 0, mask := some top }] []
    rw [cur] at kept
    have started : u = (t.setCore t.turn.core t.cur).startVector i ((Instr.vops i).getD {}) [{ k := 0, mask := some top }] [] := by
      simp [u, State.pushMask, plain]
    have on : (t.setCore t.turn.core t.cur).cur.stageOff ((Instr.vops i).getD {}).p = false := rfl
    rw [started]
    refine ⟨set.trans placed, kept, fun _ => ⟨w, entered.mem, entered.op_eq, ?_, ?_⟩, fun region window => ?_⟩
    · rw [entered.results, on]; rfl
    · have one : w.group = 1 := entered.group
      have lat : w.lat = 2 := entered.lat
      have job := entered.dones 0 (by rw [one]; exact Nat.one_pos)
      rw [one, lat] at job
      exact job
    · simp [region, window] at plain
  | true =>
    obtain ⟨placed, kept, -⟩ := (t.setCore t.turn.core t.cur).startVector_enters i ((Instr.vops i).getD {}) [] []
    rw [cur] at kept
    have started : u = ((t.setCore t.turn.core t.cur).startVector i ((Instr.vops i).getD {}) [] []).modCur
        fun c => c.later (t.stc + 2) (.maskPush top) := by
      simp [u, State.pushMask, plain]
    rw [started]
    refine ⟨(set.trans placed).trans (State.modCur_placedIn _ (Core.later_seq ..)), ?_, fun held => ?_, fun _ _ => ?_⟩
    · rw [State.modCur_cur, Core.later_vec, kept]
    · obtain ⟨region, window⟩ := Bool.and_eq_true_iff.mp plain
      rcases held with inRegion | opened
      · simp [inRegion] at region
      · exact absurd (List.isEmpty_iff.mp window) opened
    · rw [State.modCur_cur]; exact (mem_insPend ..).mpr (.inl rfl)

/-- 06 R156, R157: an mpush of a register that begins. -/
theorem mpush_issues {s t : State} {a : VOpF} {skip : BitVec 10} {wd : BitVec 2} (ha : a.toNat ≤ 639)
    (h : s.Begins (s.vecKind ((Instr.vops (.mpush a skip wd)).getD {}) false false) t) (hr : Rules.VectorReady t (.mpush a skip wd))
    (room : t.cur.maskFull = false) {top : BitVec 1024}
    (htop : top = nzLanes (8 * 2 ^ wd.toNat) (t.cur.vec.reg (physReg t.cur.sys.rotsz.toNat t.cur.sys.rrb.toNat a.toNat)) &&& t.cur.maskTop) :
    ∃ u, exec (.mpush a skip wd) s = .next u ∧ s.Issued u ∧
      (t.cur.sys.region = true ∨ t.cur.vec.window ≠ [] →
        ∃ w ∈ u.cur.vec.words, w.op = .mpush a skip wd ∧ w.results = [{ k := 0, mask := some top }] ∧
          ⟨s.stc + 2, phComplete, .vectorCompletion s.turn.core w.id 0, {}, {}⟩ ∈ u.agenda) ∧
      (t.cur.sys.region = false → t.cur.vec.window = [] → ⟨s.stc + 2, .maskPush top⟩ ∈ u.cur.pend) ∧
      (t.cur.vec.skip = 0 → top = 0#1024 → u.cur.vec.skip = skip.toNat) ∧ (t.cur.vec.skip = 0 → top ≠ 0#1024 → u.cur.vec.skip = 0) := by
  refine ⟨_, mpush_pushes ha h hr room htop, ?_⟩
  obtain ⟨placed, noSkip, held, open_⟩ := t.pushMask_spec a skip wd top
  generalize t.pushMask (.mpush a skip wd) top = p at placed noSkip held open_
  obtain ⟨started, cur⟩ := p.startSkip_cur top skip.toNat
  have agenda : (p.startSkip top skip.toNat).agenda = p.agenda := rfl
  generalize p.startSkip top skip.toNat = u at started cur agenda
  obtain ⟨win, sk, vec, -, -, skips⟩ := u.finishIssue_vec_any (s.vecKind ((Instr.vops (.mpush a skip wd)).getD {}) false false)
    s.settled.cur.vec.skip none (s.curSeq.pc + 1#14)
  have upTo : t.PlacedIn u := placed.trans started
  obtain ⟨issued, -, -⟩ := h.placed upTo (s.vecKind ((Instr.vops (.mpush a skip wd)).getD {}) false false) s.settled.cur.vec.skip (s.curSeq.pc + 1#14)
  have counts (outside : t.cur.vec.skip = 0) : sk = if top = 0#1024 ∧ skip.toNat ≠ 0 then skip.toNat else 0 := by
    rw [skips, if_neg (by rw [← h.skip_eq, outside]; simp), cur, noSkip, outside]; simp
  refine ⟨issued, fun inEngine => ?_, fun region closed => ?_, fun outside zero => ?_, fun outside some => ?_⟩
  · obtain ⟨w, mem, op, res, job⟩ := held inEngine
    rw [h.stc, h.turn] at job
    exact ⟨w, by rw [vec, cur]; exact mem, op, res, show _ ∈ u.agenda from agenda ▸ job⟩
  · rw [State.finishIssue_pend, cur, ← h.stc]; exact open_ region closed
  · rw [vec]; show sk = _; rw [counts outside]
    split
    · rfl
    · next noCount => exact (Classical.not_not.mp fun ne => noCount ⟨zero, ne⟩).symm
  · rw [vec]; show sk = _; rw [counts outside, if_neg fun both => some both.1]

/-! ### Words that clear flags, and words in a skip (06 R157, R164) -/

/-- What vflclr does at its issue. -/
def State.clearActive (t : State) (mask : BitVec 5) (p : PredF) : State :=
  t.modCur fun c =>
    if c.vec.window.isEmpty then { c with vec := c.vec.clearFlags t.stc mask (activeLanes (t.cur.active p)) }
    else c.emit .x t.stc (.flagClear mask (activeLanes (t.cur.active p)))

/-- vflclr outside precise mode. -/
theorem vflclr_clears {s t : State} {mask : BitVec 5} {p : PredF} (h : s.Begins (s.vecKind ((Instr.vops (.vflclr mask p)).getD {}) true false) t)
    (hs : t.suppressed = false) (on : t.cur.stageOff p = false) (closed : t.cur.vec.window = [])
    (hw : t.cur.sys.region = true → t.cur.sysWaits (Instr.sysReads (.vflclr mask p) ((Instr.vops (.vflclr mask p)).getD {})) = false) :
    ∃ u, exec (.vflclr mask p) s = .next u ∧ s.Issued u ∧
      u.cur.vec.flags = (t.cur.vec.clearFlags s.stc mask (activeLanes (t.cur.active p))).flags ∧ u.cur.vec.vrf = t.cur.vec.vrf := by
  have cur : (t.clearActive mask p).cur = { t.cur with vec := t.cur.vec.clearFlags t.stc mask (activeLanes (t.cur.active p)) } := by
    rw [State.clearActive, State.modCur_cur, closed]; rfl
  have placed : t.PlacedIn (t.clearActive mask p) := t.modCur_placedIn (by rw [closed]; cases t.turn.q <;> rfl)
  obtain ⟨issued, -, -, -, win, sk, vec, -⟩ := h.vecInstant_issues (effect := fun t => .ok (t.clearActive mask p)) (fun _ => hs) hw on rfl placed
  refine ⟨_, rfl, issued, ?_, ?_⟩
  · refine (congrArg VecSt.flags vec).trans ?_
    rw [cur, h.stc]
  · refine (congrArg VecSt.vrf vec).trans ?_
    rw [cur]; rfl

/-- A word that a skip suppresses only issues (06 R157). -/
theorem suppressed_issues {s t : State} {i : Instr} (hq : s.turn.q = .x) (h : s.Begins (s.vecKind ((Instr.vops i).getD {}) true false) t)
    (hs : t.suppressed = true) (meaning : exec i s = .next (t.finishIssue (s.vecKind ((Instr.vops i).getD {}) true false)
      s.settled.cur.vec.skip none (s.curSeq.pc + 1#14))) :
    ∃ u, exec i s = .next u ∧ s.Issued u ∧ u.cur.vec.words = t.cur.vec.words ∧ u.cur.vec.vrf = t.cur.vec.vrf ∧
      u.cur.vec.flags = t.cur.vec.flags ∧ u.cur.vec.skip = t.cur.vec.skip - 1 ∧ u.cur.eng = t.cur.eng ∧ u.agenda = s.agenda := by
  obtain ⟨issued, -, -⟩ := h.placed (.refl t) (s.vecKind ((Instr.vops i).getD {}) true false) s.settled.cur.vec.skip (s.curSeq.pc + 1#14)
  obtain ⟨win, sk, vec, -, -, skips⟩ := t.finishIssue_vec_any (s.vecKind ((Instr.vops i).getD {}) true false)
    s.settled.cur.vec.skip none (s.curSeq.pc + 1#14)
  have inSkip : t.turn.q = .x ∧ s.settled.cur.vec.skip ≠ 0 := ⟨h.turn ▸ hq, by rw [← h.skip_eq]; exact of_decide_eq_true hs⟩
  refine ⟨_, meaning, issued, by rw [vec], by rw [vec], by rw [vec], ?_, (t.finishIssue_alike _ _ _ _).eng, h.agenda⟩
  rw [vec, skips, if_pos inSkip, h.skip_eq]

theorem State.Begins.vecIssue_suppressed {s t : State} {i : Instr} {audit : Bool}
    (h : s.Begins (s.vecKind ((Instr.vops i).getD {}) true audit) t) (hs : t.suppressed = true) (more : State → Option Cause)
    (extra : State → List VResult × List VReg) (after : State → State) : s.vecIssue i true audit more extra after =
      t.finishIssue (s.vecKind ((Instr.vops i).getD {}) true audit) s.settled.cur.vec.skip none (s.curSeq.pc + 1#14) := by
  unfold State.vecIssue
  refine h.done ?_
  simp only [hs, Bool.and_self, if_true]

theorem State.Begins.vecInstant_suppressed {s t : State} {i : Instr} (h : s.Begins (s.vecKind ((Instr.vops i).getD {}) true false) t)
    (hs : t.suppressed = true) (effect : State → Except Cause State) : s.vecInstant i true none effect =
      t.finishIssue (s.vecKind ((Instr.vops i).getD {}) true false) s.settled.cur.vec.skip none (s.curSeq.pc + 1#14) := by
  unfold State.vecInstant
  dsimp only
  rw [Option.or_none]
  refine h.done ?_
  simp only [hs, Bool.and_self, if_true]

/-- Settles O20: mask pushes, clearing of flags, and words in a skip. -/
theorem masksAndSkips : Obligations.MasksAndSkips := by
  unfold Obligations.MasksAndSkips
  refine ⟨?_, fun s t mask p _ h hs on closed hw => vflclr_clears h hs on closed hw, ?_⟩
  · intro s t a skip wd _ ha i o h hr room top
    exact mpush_issues ha h hr room rfl
  · rintro i s t hq kinds h hs
    refine suppressed_issues hq h hs ?_
    rcases kinds with ⟨⟨l, n⟩, hi⟩ | ⟨b, r, rfl⟩ | ⟨m, rfl⟩ | rfl | ⟨m, p, rfl⟩
    · obtain ⟨extra, meaning, -⟩ := exec_vector hi s
      exact meaning.trans (congrArg Host.Outcome.next (h.vecIssue_suppressed hs ..))
    · exact congrArg Host.Outcome.next (h.vecInstant_suppressed hs _)
    · exact congrArg Host.Outcome.next (h.vecInstant_suppressed hs _)
    · exact congrArg Host.Outcome.next (h.vecInstant_suppressed hs _)
    · exact congrArg Host.Outcome.next (h.vecInstant_suppressed hs _)

end Sys2Proof.Machine

/-! SUPPORT. Integer, move, rotation, broadcast, permute and interleave words, element by element (06 Tables 6.5 and 6.6, R146, R147, R149,
R153). -/

namespace Sys2Proof.Machine

-- one after another: every waiting worker thread counts towards the check's memory limit
set_option Elab.async false

open Fp

/-! ### The integers that elements stand for (04 R94) -/

/-- The integer of an element, as the rule reads it. -/
theorem readInt_velem (ty : TyF) (v : VReg) (j : Nat) :
    readInt (tyUns ty) (tyWidth ty) (velem (tyWidth ty) v j) = Rules.element.intOf ty (velem (Rules.element.ew ty) v j) := by
  unfold readInt Rules.element.intOf tyUns
  rw [velem_mod]
  simp only [decide_eq_true_eq]
  rfl

theorem wrapN_eq_mod2 (w : Nat) (v : Int) : wrapN w v = Rules.element.mod2 w v := by
  rw [wrapN, Rules.element.mod2]; push_cast; rfl

/-- Narrowed and stored, a result is what MOD asks for (06 R146). -/
theorem wrapN_narrow (ty : TyF) (v : Int) : wrapN (tyWidth ty) (narrow ty (tyWidth ty) v) = Rules.element.intN ty v := by
  have half : ((2 ^ (tyWidth ty - 1) : Nat) : Int) = 2 ^ (tyWidth ty - 1) := by push_cast; rfl
  have full : ((2 ^ tyWidth ty : Nat) : Int) = 2 ^ tyWidth ty := by push_cast; rfl
  rw [wrapN_eq_mod2]
  refine congrArg (Rules.element.mod2 (tyWidth ty)) ?_
  unfold narrow satTo satU satI tySat tyUns
  simp only [half, full, decide_eq_true_eq]
  split
  · split
    · rfl
    · rfl
  · rfl

/-- The pattern of the integer of a pattern. -/
theorem wrapN_intOf (ty : TyF) {v : Nat} (h : v < 2 ^ tyWidth ty) : wrapN (tyWidth ty) (Rules.element.intOf ty v) = v := by
  have whole : wrapN (tyWidth ty) (v : Int) = v := by rw [wrapN, ← Int.natCast_mod, Int.toNat_natCast, Nat.mod_eq_of_lt h]
  unfold Rules.element.intOf
  split
  · exact whole
  · show wrapN (tyWidth ty) (signedOf (tyWidth ty) v) = v
    rw [signedOf, Nat.mod_eq_of_lt h]
    split
    · exact whole
    · rw [wrapN, Int.sub_emod_right]; exact whole

/-- MOD's low bit. -/
theorem tyUns_bit (ty : TyF) : (if tyUns ty then 1 else 0) = ty.toNat / 4 % 2 := by
  simp only [tyUns, decide_eq_true_eq]
  split <;> omega

/-- A row holds elements. -/
theorem vcols_pos (ty : TyF) : 0 < vcols (tyWidth ty) := by
  have four : ty.toNat % 4 < 4 := Nat.mod_lt _ (by decide)
  unfold vcols tyWidth
  generalize ty.toNat % 4 = m at four
  decide +revert

/-- Patterns differ with their integers. -/
theorem intOf_inj (ty : TyF) {u v : Nat} (hu : u < 2 ^ tyWidth ty) (hv : v < 2 ^ tyWidth ty) :
    Rules.element.intOf ty u = Rules.element.intOf ty v ↔ u = v :=
  ⟨fun h => by rw [← wrapN_intOf ty hu, h, wrapN_intOf ty hv], fun h => h ▸ rfl⟩

/-! ### Words that raise no flag -/

/-- Element j of a word that raises no flag is v where it is active, and the old one elsewhere (06 R139). -/
def VOut.Moves (o : VOut) (x : VIn) (w j v : Nat) : Prop :=
  velem w o.d j = (if x.act.elem w x.k j then v % 2 ^ w else velem w x.d j) ∧ o.fl = {}

theorem vmove_moves {w j v : Nat} (x : VIn) {f : Nat → Nat} (hj : j < 32768 / w) (hf : f j = v) : (vmove w x f).Moves x w j v :=
  ⟨by rw [velem_vmove x f hj, hf], rfl⟩

/-- Only the pattern of the value counts. -/
theorem VOut.Moves.mod {o : VOut} {x : VIn} {w j v : Nat} (h : o.Moves x w j v) : o.Moves x w j (v % 2 ^ w) :=
  ⟨by rw [Nat.mod_mod]; exact h.1, h.2⟩

section
variable {x : VIn} {j v : Nat} {ty : TyF} (hj : j < 32768 / Rules.element.ew ty)
include hj

/-- An integer word: the pattern of a function of the integers of A and B. -/
theorem v3i_moves {g : Nat → Int → Int → Int}
    (hg : wrapN (tyWidth ty) (g (tyWidth ty) (Rules.element.intOf ty (velem (Rules.element.ew ty) x.a j))
      (Rules.element.intOf ty (velem (Rules.element.ew ty) x.b j))) = v) :
    (v3i x ty g).Moves x (Rules.element.ew ty) j v :=
  vmove_moves x hj (by rw [readInt_velem, readInt_velem, hg])

/-- An integer comparison: all ones where it holds. -/
theorem vcmpI_moves {rel : Int → Int → Bool} {holds : Prop} [Decidable holds]
    (hg : rel (Rules.element.intOf ty (velem (Rules.element.ew ty) x.a j)) (Rules.element.intOf ty (velem (Rules.element.ew ty) x.b j)) = true ↔
      holds) : (vcmpI x ty rel).Moves x (Rules.element.ew ty) j (if holds then 2 ^ Rules.element.ew ty - 1 else 0) :=
  vmove_moves x hj (by rw [readInt_velem, readInt_velem]; simp only [hg]; rfl)

end

/-- 06 Tables 6.5 and 6.6, element by element. -/
theorem element_moves {i : Instr} {x : VIn} {j w v : Nat} (hi : Rules.element x j i = some (w, v)) (hj : j < 32768 / w) :
    (vcompute i x).Moves x w j v := by
  cases i
  case viadd d a b p ty => cases hi; exact v3i_moves hj (wrapN_narrow ..)
  case visub d a b p ty => cases hi; exact v3i_moves hj (wrapN_narrow ..)
  case vimul d a b p ty => cases hi; exact v3i_moves hj (wrapN_narrow ..)
  case vimulh d a b p ty => cases hi; exact v3i_moves hj (by rw [wrapN_eq_mod2]; push_cast; rfl)
  case viand d a b p ty => cases hi; exact vmove_moves x hj rfl
  case vior d a b p ty => cases hi; exact vmove_moves x hj rfl
  case vixor d a b p ty => cases hi; exact vmove_moves x hj rfl
  case vishl d a b p ty => cases hi; exact (vmove_moves x hj rfl).mod
  case vishr d a b p ty => cases hi; exact vmove_moves x hj rfl
  case visra d a b p ty => cases hi; exact vmove_moves x hj ((wrapN_eq_mod2 ..).trans (by push_cast; rfl))
  case vimin d a b p ty => cases hi; exact v3i_moves hj (by split <;> exact wrapN_intOf ty (velem_lt ..))
  case vimax d a b p ty => cases hi; exact v3i_moves hj (by split <;> exact wrapN_intOf ty (velem_lt ..))
  case viabs d a p ty => cases hi; exact v3i_moves hj (wrapN_narrow ..)
  case vpopc d a p ty => cases hi; exact vmove_moves x hj rfl
  case vicmpeq d a b p ty => cases hi; exact vcmpI_moves hj (by rw [decide_eq_true_iff]; exact intOf_inj ty (velem_lt ..) (velem_lt ..))
  case vicmplt d a b p ty => cases hi; exact vcmpI_moves hj decide_eq_true_iff
  case vicmple d a b p ty => cases hi; exact vcmpI_moves hj decide_eq_true_iff
  case vmov d a p ty => cases hi; exact vmove_moves x hj rfl
  case vrotr d a k p ty =>
    cases hi
    refine vmove_moves x hj (congrArg (fun m => velem (tyWidth ty) x.a (j / vcols (tyWidth ty) * vcols (tyWidth ty) + m)) ?_)
    exact congrArg (· % vcols (tyWidth ty)) (Nat.add_sub_assoc (Nat.mod_lt _ (vcols_pos ty)).le _)
  case vrotc d a k p ty =>
    cases hi
    refine vmove_moves x hj (congrArg (fun m => velem (tyWidth ty) x.a (m % 16 * vcols (tyWidth ty) + j % vcols (tyWidth ty))) ?_)
    exact Nat.add_sub_assoc (Nat.mod_lt _ (by decide)).le _
  case vbcr d a k p ty => cases hi; exact vmove_moves x hj rfl
  case vbcc d a k p ty => cases hi; exact vmove_moves x hj rfl
  case vperm d a b p ty => cases hi; exact vmove_moves x hj (by simp only [tyUns, decide_eq_true_eq]; split <;> rfl)
  case vzip d a b p ty => cases hi; exact vmove_moves x hj (by
      simp only [tyUns, decide_eq_true_eq]
      exact apply_ite (fun r => velem (tyWidth ty) r _) ..)
  case vunzip d a b p ty => cases hi; exact vmove_moves x hj (by
      simp only [tyUns_bit]
      exact ite_congr rfl (fun _ => rfl) fun beyond =>
        congrArg (velem (tyWidth ty) x.b) (Nat.add_sub_assoc (Nat.le_of_not_lt beyond) _).symm)
  all_goals exact absurd (show none = some _ from hi) nofun

end Sys2Proof.Machine

/-! SUPPORT. Words that raise flags: floating-point words, comparisons, conversions and the word that selects (06 Tables 6.2, 6.4, R142 to R145,
R159; 02 R41). -/

namespace Sys2Proof.Machine

-- one after another: every waiting worker thread counts towards the check's memory limit
set_option Elab.async false

/-! ### The flag plane of a list of elements (02 R41) -/

/-- A lane holds a flag just where one of its elements raises it. -/
theorem testBit_lanes (w bit l : Nat) (ps : List (Nat × BitVec 5)) (acc : Nat) :
    (ps.foldl (fun acc p => if p.2.getLsbD bit then acc ||| 2 ^ laneOf w p.1 else acc) acc).testBit l = true ↔
      acc.testBit l = true ∨ ∃ p ∈ ps, laneOf w p.1 = l ∧ p.2.getLsbD bit = true := by
  induction ps generalizing acc with
  | nil => simp
  | cons p t ih =>
    rw [List.foldl_cons, ih]
    cases raised : p.2.getLsbD bit with
    | false => simp [raised]
    | true => simp [raised, Nat.testBit_two_pow, or_assoc]

/-- The flags of the elements of a register, in their lanes. -/
theorem raises_flagsFrom (w : Nat) (g : Nat → BitVec 5) : Rules.Raises (flagsFrom w ((List.range (velems w)).map g)) w g := by
  have lane (l bit : Nat) (hl : l < 1024) : (BitVec.ofNat 1024 (((List.range ((List.range (velems w)).map g).length).zip
      ((List.range (velems w)).map g)).foldl (fun acc p => if p.2.getLsbD bit then acc ||| 2 ^ laneOf w p.1 else acc) 0)).getLsbD l = true ↔
        ∃ j, j < 32768 / w ∧ j * w / 32 = l ∧ (g j).getLsbD bit = true := by
    have pairs : (List.range ((List.range (velems w)).map g).length).zip ((List.range (velems w)).map g) =
        (List.range (velems w)).map fun j => (j, g j) := by
      refine List.ext_getElem (by simp) fun n _ _ => by simp
    rw [BitVec.getLsbD_ofNat, decide_eq_true hl, Bool.true_and, pairs, testBit_lanes]
    simp [velems, laneOf]
  intro l k hl hk
  obtain rfl | rfl | rfl | rfl | rfl : k = 0 ∨ k = 1 ∨ k = 2 ∨ k = 3 ∨ k = 4 := by omega
  all_goals exact lane l _ hl

/-- No element raises a flag. -/
theorem raises_none (w : Nat) : Rules.Raises {} w fun _ => 0 := by
  intro l k hl hk
  obtain rfl | rfl | rfl | rfl | rfl : k = 0 ∨ k = 1 ∨ k = 2 ∨ k = 3 ∨ k = 4 := by omega
  all_goals simp [Rules.plane]

/-! ### Registers built with their flags -/

/-- A register and a flag plane built from the elements. -/
theorem gives_built (w : Nat) (g : Nat → Nat × BitVec 5) :
    Rules.Gives ⟨vbuild w (((List.range (velems w)).map g).map (·.1)), flagsFrom w (((List.range (velems w)).map g).map (·.2))⟩ w g := by
  simp only [List.map_map]
  exact ⟨fun j hj => velem_vbuild_range _ hj, raises_flagsFrom w _⟩

/-- Only the elements of the register count. -/
theorem Gives.congr {o : VOut} {w : Nat} {f g : Nat → Nat × BitVec 5} (h : Rules.Gives o w f) (same : ∀ j, j < 32768 / w → f j = g j) :
    Rules.Gives o w g := by
  obtain ⟨values, raised⟩ := h
  refine ⟨fun j hj => same j hj ▸ values j hj, fun l k hl hk => (raised l k hl hk).trans (exists_congr fun j => ?_)⟩
  exact and_congr_right fun hj => by simp only [same j hj]

/-- An elementwise word. -/
theorem velementwise_gives (w : Nat) (x : VIn) (f : Nat → Nat × BitVec 5) :
    Rules.Gives (velementwise w x f) w fun j => if x.act.elem w x.k j then f j else (velem w x.d j, 0) := gives_built w _

/-- 06 R159: a conversion, element by element. -/
theorem vconvert_gives {x : VIn} {d a : VOpF} {spec : BitVec 10} {p : PredF} {ty : TyF} {w : Nat} {f : Nat → Nat × BitVec 5}
    (hi : Rules.value x (.vcvt d a spec p ty) = some (w, f)) :
    Rules.Gives (vconvert x spec ty) w fun j => if x.act.elem w x.k j then f j else (velem w x.d j, 0) := by
  cases hi
  refine Gives.congr (gives_built (cvtWidth (cvtTo spec)) _) fun j _ => ?_
  cases active : x.act.elem (cvtWidth (cvtTo spec)) x.k j with
  | false =>
    simp only [Bool.false_eq_true, if_false]
    split <;> rfl
  | true => rfl

/-- vsel takes A where active and B elsewhere (06 R147). -/
theorem vselect_gives (x : VIn) (ty : TyF) :
    Rules.Gives (vselect x ty) (Rules.element.ew ty) fun j =>
      (if x.act.elem (Rules.element.ew ty) x.k j then velem (Rules.element.ew ty) x.a j else velem (Rules.element.ew ty) x.b j, 0) :=
  ⟨fun _ hj => velem_vbuild_range _ hj, raises_none _⟩

end Sys2Proof.Machine

/-! SUPPORT. Reductions and prefixes along the rows and the columns of a register (06 R148, R150, R151). -/

namespace Sys2Proof.Machine

-- one after another: every waiting worker thread counts towards the check's memory limit
set_option Elab.async false

open Fp

/-! ### The combining operation (06 R148) -/

/-- What a combination of K and TY takes: any pattern of floating point, an element of the integer type. -/
def Operand (k : Nat) (ty : TyF) (v : Nat) : Prop := k / 8 % 2 = 0 ∨ v < 2 ^ tyWidth ty

/-- The integer of an operand, as the rule reads it. -/
theorem readInt_eq_intOf (ty : TyF) {v : Nat} (h : v < 2 ^ tyWidth ty) : readInt (tyUns ty) (tyWidth ty) v = Rules.element.intOf ty v := by
  unfold readInt Rules.element.intOf tyUns
  rw [Nat.mod_eq_of_lt h]
  simp only [decide_eq_true_eq]
  rfl

theorem mod2_lt (w : Nat) (v : Int) : Rules.element.mod2 w v < 2 ^ w := by
  have pos : (0 : Int) < 2 ^ w := pow_pos (by decide) w
  rw [Rules.element.mod2, Int.toNat_lt (Int.emod_nonneg v pos.ne')]
  push_cast
  exact Int.emod_lt_of_pos v pos

/-- The combination of K and TY is the rule's, and what it leaves may be combined again. -/
theorem comb_eq (k : Nat) (ty : TyF) (rm : Nat) {u v : Nat} (hu : Operand k ty u) (hv : Operand k ty v) :
    comb k ty rm u v = Rules.comb k ty rm u v ∧ Operand k ty (Rules.comb k ty rm u v).1 := by
  unfold comb Rules.comb
  by_cases float : k / 8 % 2 = 0
  · refine ⟨?_, .inl float⟩
    simp only [float, if_true]
    match k % 8 with
    | 0 => rfl
    | 1 => rfl
    | m + 2 => rfl
  · replace hu := hu.resolve_left float
    replace hv := hv.resolve_left float
    simp only [float, if_false, readInt_eq_intOf ty hu, readInt_eq_intOf ty hv, Operand, false_or]
    match k % 8 with
    | 0 => exact ⟨congrArg (·, 0) (wrapN_narrow ..), mod2_lt ..⟩
    | 1 => exact ⟨congrArg (·, 0) (wrapN_eq_mod2 ..), mod2_lt ..⟩
    | 2 => exact ⟨congrArg (·, 0) (wrapN_eq_mod2 ..), mod2_lt ..⟩
    | 3 => exact ⟨rfl, Nat.and_lt_two_pow _ hv⟩
    | 4 => exact ⟨rfl, Nat.or_lt_two_pow hu hv⟩
    | m + 5 => exact ⟨rfl, Nat.xor_lt_two_pow hu hv⟩

/-- With an operand absent, too. -/
theorem combO_eq {c c' : Nat → Nat → Nat × BitVec 5} {P : Nat → Prop} (agree : ∀ u v, P u → P v → c u v = c' u v ∧ P (c' u v).1)
    {u v : Option Nat} (hu : ∀ a ∈ u, P a) (hv : ∀ a ∈ v, P a) :
    combO c u v = Rules.combAbsent c' u v ∧ ∀ a ∈ (Rules.combAbsent c' u v).1, P a := by
  cases u with
  | none =>
    cases v with
    | none => exact ⟨rfl, hu⟩
    | some b => exact ⟨rfl, hv⟩
  | some a =>
    cases v with
    | none => exact ⟨rfl, hu⟩
    | some b =>
      obtain ⟨same, kept⟩ := agree a b (hu a rfl) (hv b rfl)
      refine ⟨by simp only [combO, Rules.combAbsent, same], fun y hy => ?_⟩
      rw [← Option.some.inj hy]; exact kept

/-! ### The tree of a line (06 R150) -/

theorem foldl_or_left {α : Type} {n : Nat} (g : α → BitVec n) (l : List α) (x y : BitVec n) :
    l.foldl (fun a j => a ||| g j) (x ||| y) = x ||| l.foldl (fun a j => a ||| g j) y := by
  induction l generalizing y with
  | nil => rfl
  | cons j t ih => rw [List.foldl_cons, List.foldl_cons, BitVec.or_assoc, ih]

/-- The two halves of the places of a line, side by side. -/
theorem zipWith_halves {α β : Type} (F : α → α → β) (f : Nat → α) (s : Nat) :
    List.zipWith F (((List.range (2 ^ (s + 1))).map f).take (2 ^ s)) (((List.range (2 ^ (s + 1))).map f).drop (2 ^ s)) =
      (List.range (2 ^ s)).map fun j => F (f j) (f (j + 2 ^ s)) := by
  refine List.ext_getElem (by simp; omega) fun n _ _ => ?_
  simp [Nat.add_comm]

section
variable {c c' : Nat → Nat → Nat × BitVec 5} {P : Nat → Prop} (agree : ∀ u v, P u → P v → c u v = c' u v ∧ P (c' u v).1)
include agree

theorem treeGo_eq (n : Nat) {f : Nat → Option Nat} (hf : ∀ j, ∀ a ∈ f j, P a) (fl : BitVec 5) :
    treeGo c n ((List.range (2 ^ n)).map f) fl = ((Rules.tree c' n f).1, fl ||| (Rules.tree c' n f).2) := by
  induction n generalizing f fl with
  | zero => simp [treeGo, Rules.tree]
  | succ n ih =>
    have pair (j : Nat) := combO_eq agree (hf j) (hf (j + 2 ^ n))
    rw [treeGo, zipWith_halves]
    simp only [(pair _).1, List.map_map, List.foldl_map]
    rw [show ((fun y : Option Nat × BitVec 5 => y.1) ∘ fun j => Rules.combAbsent c' (f j) (f (j + 2 ^ n))) =
      fun j => (Rules.combAbsent c' (f j) (f (j + 2 ^ n))).1 from rfl, ih fun j => (pair j).2, Rules.tree]
    refine congrArg (Prod.mk _) ?_
    rw [BitVec.or_comm, ← foldl_or_left, BitVec.or_comm, foldl_or_left]

/-! ### What a place of a line holds (06 R151) -/

theorem running_kept {f : Nat → Option Nat} (hf : ∀ j, ∀ a ∈ f j, P a) : ∀ p, ∀ a ∈ Rules.running c' f p, P a
  | 0 => nofun
  | p + 1 => (combO_eq agree (running_kept hf p) (hf p)).2

/-- An active element takes the value of its place. -/
theorem prefixGo_eq {f : Nat → Option Nat} (hf : ∀ j, ∀ a ∈ f j, P a) (n m p : Nat) (hp : p < n) (active : f (m + p) ≠ none) :
    (prefixGo c (Rules.running c' f m) ((List.range n).map fun i => f (m + i))).getD p (none, 0) =
      Rules.combAbsent c' (Rules.running c' f (m + p)) (f (m + p)) := by
  induction n generalizing m p with
  | zero => omega
  | succ n ih =>
    have step := combO_eq agree (running_kept agree hf m) (hf m)
    have next : Rules.running c' f (m + 1) = (Rules.combAbsent c' (Rules.running c' f m) (f m)).1 := rfl
    have later : (List.range (n + 1)).map (fun i => f (m + i)) = f m :: (List.range n).map fun i => f (m + 1 + i) := by
      rw [List.range_succ_eq_map, List.map_cons, List.map_map]
      refine congrArg (List.cons _) (List.map_congr_left fun i _ => ?_)
      exact congrArg f (by simp only [Nat.succ_eq_add_one]; omega)
    rw [later]
    cases value : f m with
    | none =>
      have skips : Rules.running c' f (m + 1) = Rules.running c' f m := by
        rw [next, value]; cases Rules.running c' f m <;> rfl
      cases p with
      | zero => exact absurd value active
      | succ p =>
        rw [prefixGo, List.getD_cons_succ, ← skips, ih (m + 1) p (by omega) (by rwa [Nat.add_assoc, Nat.add_comm 1 p]), Nat.add_assoc, Nat.add_comm 1 p]
    | some v =>
      rw [value] at step next
      rw [prefixGo]
      simp only [step.1]
      cases p with
      | zero => rw [List.getD_cons_zero, Nat.add_zero, value]
      | succ p =>
        rw [List.getD_cons_succ, ← next, ih (m + 1) p (by omega) (by rwa [Nat.add_assoc, Nat.add_comm 1 p]), Nat.add_assoc, Nat.add_comm 1 p]

end

/-! ### Lines of a register -/

/-- The element widths of the reductions and prefixes. -/
theorem redWidth_cases (k : Nat) (ty : TyF) : redWidth k ty = 8 ∨ redWidth k ty = 16 ∨ redWidth k ty = 32 ∨ redWidth k ty = 64 := by
  have four : ty.toNat % 4 < 4 := Nat.mod_lt _ (by decide)
  unfold redWidth tyFpWidth tyFmt tyWidth
  obtain m | m | m | m : ty.toNat % 4 = 0 ∨ ty.toNat % 4 = 1 ∨ ty.toNat % 4 = 2 ∨ ty.toNat % 4 = 3 := by omega
  all_goals (rw [m]; split <;> decide)

/-- The lines of a register of elements of width w, along its rows or down its columns: how many, how long, and which holds element j. -/
def lineCount (w : Nat) (row : Bool) : Nat := if row then 16 else vcols w
def lineLength (w : Nat) (row : Bool) : Nat := if row then vcols w else 16
def lineOf (w : Nat) (row : Bool) (j : Nat) : Nat := if row then j / vcols w else j % vcols w

section
variable {w j : Nat} (hw : w = 8 ∨ w = 16 ∨ w = 32 ∨ w = 64) (hj : j < 32768 / w) (row : Bool)
include hw

theorem lineLength_pow : 2 ^ Nat.log2 (lineLength w row) = lineLength w row := by
  rcases hw with rfl | rfl | rfl | rfl <;> cases row <;> decide

include hj

theorem lineOf_lt : lineOf w row j < lineCount w row := by
  rcases hw with rfl | rfl | rfl | rfl <;> cases row <;> simp [lineOf, lineCount, vcols] at hj ⊢ <;> omega

theorem place_lt (x : VIn) : (Rules.line x w row j).1 < lineLength w row := by
  rcases hw with rfl | rfl | rfl | rfl <;> cases row <;> simp [lineLength, vcols, Rules.line] at hj ⊢ <;> omega

end

/-- Its place in its line is its own. -/
theorem line_place (x : VIn) (w : Nat) (row : Bool) (j : Nat) :
    (Rules.line x w row j).2 (Rules.line x w row j).1 = if x.act.elem w x.k j then some (velem w x.a j) else none := by
  cases row <;> simp [Rules.line, Nat.div_add_mod']

/-- The active values of the line of element j, in order. -/
theorem lineVals_eq (x : VIn) (w : Nat) (row : Bool) (j : Nat) :
    lineVals w x (lineIdx w row (lineOf w row j)) = (List.range (lineLength w row)).map (Rules.line x w row j).2 := by
  cases row <;> simp [lineVals, lineIdx, lineOf, lineLength, Rules.line, vcols]

/-- They may be combined. -/
theorem line_operand (x : VIn) (k : Nat) (ty : TyF) (row : Bool) (j p : Nat) :
    ∀ a ∈ (Rules.line x (redWidth k ty) row j).2 p, Operand k ty a := by
  intro a ha
  have element : ∃ m, velem (redWidth k ty) x.a m = a := by
    simp only [Rules.line, Option.mem_ite_none_right, Option.mem_some] at ha
    exact ⟨_, ha.2⟩
  obtain ⟨m, rfl⟩ := element
  by_cases float : k / 8 % 2 = 0
  · exact .inl float
  · refine .inr ?_
    rw [redWidth, if_neg float]
    exact velem_lt ..

theorem getD_map_range {α : Type} {n i : Nat} (f : Nat → α) (d : α) (h : i < n) : ((List.range n).map f).getD i d = f i := by
  rw [List.getD_eq_getElem _ _ (by simpa using h)]
  simp

/-! ### The words -/

/-- 06 R150: the tree of the line of element j. -/
theorem treeGo_line (x : VIn) (k : Nat) (ty : TyF) (row : Bool) (j : Nat) :
    treeGo (comb k ty x.rm) (Nat.log2 (lineLength (redWidth k ty) row))
        (lineVals (redWidth k ty) x (lineIdx (redWidth k ty) row (lineOf (redWidth k ty) row j))) 0 =
      Rules.tree (Rules.comb k ty x.rm) (Nat.log2 (lineLength (redWidth k ty) row)) (Rules.line x (redWidth k ty) row j).2 := by
  have whole := lineLength_pow (redWidth_cases k ty) row
  rw [lineVals_eq]
  conv_lhs => rw [← whole]
  rw [Nat.log2_two_pow]
  exact (treeGo_eq (fun _ _ hu hv => comb_eq k ty x.rm hu hv) _ (line_operand x k ty row j) 0).trans (Prod.ext rfl BitVec.zero_or)

theorem vreduce_gives (row : Bool) (x : VIn) (k : BitVec 10) (ty : TyF) {w : Nat} {f : Nat → Nat × BitVec 5}
    (hi : Rules.value.red x row k.toNat ty = some (w, f)) :
    Rules.Gives (vreduce row x k ty) w fun j => if x.act.elem w x.k j then f j else (velem w x.d j, 0) := by
  cases hi
  refine Gives.congr (gives_built (redWidth k.toNat ty) _) fun j hj => if_congr Iff.rfl ?_ rfl
  have line := (getD_map_range (fun l => treeGo (comb k.toNat ty x.rm) (Nat.log2 (lineLength (redWidth k.toNat ty) row))
    (lineVals (redWidth k.toNat ty) x (lineIdx (redWidth k.toNat ty) row l)) 0) (none, 0)
    (lineOf_lt (redWidth_cases k.toNat ty) hj row)).trans (treeGo_line x k.toNat ty row j)
  exact congrArg (fun r : Option Nat × BitVec 5 => (r.1.getD 0, r.2)) line

theorem vprefix_gives (row : Bool) (x : VIn) (k : BitVec 10) (ty : TyF) {w : Nat} {f : Nat → Nat × BitVec 5}
    (hi : Rules.value.pre x row k.toNat ty = some (w, f)) :
    Rules.Gives (vprefix row x k ty) w fun j => if x.act.elem w x.k j then f j else (velem w x.d j, 0) := by
  cases hi
  refine Gives.congr (gives_built (redWidth k.toNat ty) _) fun j hj => ite_congr rfl (fun active => ?_) fun _ => rfl
  have value : (Rules.line x (redWidth k.toNat ty) row j).2 (Rules.line x (redWidth k.toNat ty) row j).1 ≠ none := by
    rw [line_place, if_pos active]; exact nofun
  have place := prefixGo_eq (fun _ _ hu hv => comb_eq k.toNat ty x.rm hu hv) (line_operand x k.toNat ty row j) (lineLength (redWidth k.toNat ty) row) 0
    (Rules.line x (redWidth k.toNat ty) row j).1 (place_lt (redWidth_cases k.toNat ty) hj row x) (by rwa [Nat.zero_add])
  have line := getD_map_range (fun l => prefixGo (comb k.toNat ty x.rm) none
    (lineVals (redWidth k.toNat ty) x (lineIdx (redWidth k.toNat ty) row l))) [] (lineOf_lt (redWidth_cases k.toNat ty) hj row)
  simp only [Nat.zero_add] at place
  rw [lineVals_eq] at line
  exact congrArg (fun r : Option Nat × BitVec 5 => (r.1.getD 0, r.2)) (
    (congrArg (fun l : List (Option Nat × BitVec 5) => l.getD (Rules.line x (redWidth k.toNat ty) row j).1 (none, 0)) line).trans place)

end Sys2Proof.Machine

/-! SUPPORT. Random words and parities, and the values of all vector words (06 R152, R165). -/

namespace Sys2Proof.Machine

-- one after another: every waiting worker thread counts towards the check's memory limit
set_option Elab.async false

/-! ### Lists of lists of one length -/

/-- Item m of list q. -/
theorem getD_flatMap_range {α : Type} {n k q m : Nat} {f : Nat → List α} (hf : ∀ i, (f i).length = k) (hq : q < n) (hm : m < k) (d : α) :
    ((List.range n).flatMap f).getD (q * k + m) d = (f q).getD m d := by
  have before (n : Nat) : ((List.range n).flatMap f).length = n * k := by
    simp [List.length_flatMap, hf]
  induction n with
  | zero => omega
  | succ n ih =>
    rw [List.range_succ, List.flatMap_append, List.flatMap_singleton]
    rcases Nat.lt_succ_iff_lt_or_eq.mp hq with below | rfl
    · rw [List.getD_append _ _ _ _ (by rw [before]; nlinarith), ih below]
    · rw [List.getD_append_right _ _ _ _ (by rw [before]; omega), before, Nat.add_sub_cancel_left]

/-! ### Random words (06 R165) -/

/-- The last round gives sixteen bytes. -/
theorem aesRounds_length (rc : Nat) (rcs key s : List Nat) : (Aes.rounds (rc :: rcs) key s).length = 16 := by
  induction rcs generalizing rc key s with
  | nil => rw [Aes.rounds, Aes.xorKey, List.length_zipWith]; rfl
  | cons r t ih =>
    rw [Aes.rounds]
    · exact ih ..
    · nofun

theorem aesEncrypt_length (key block : List Nat) : (Aes.encrypt key block).length = 16 := aesRounds_length ..

/-- A field in two parts. -/
theorem bitsN_add (x lo m n : Nat) : bitsN x lo (m + n) = bitsN x lo m + 2 ^ m * bitsN x (lo + m) n := by
  simp only [bitsN, Nat.pow_add, Nat.mod_mul, Nat.div_div_eq_div_mul]

/-- An element of 32 bits of a register built from bytes. -/
theorem velem_bytes {j : Nat} (bs : List Nat) (h : j < 1024) : velem 32 (vbuild 8 bs) j =
    bs.getD (4 * j) 0 % 256 + 256 * (bs.getD (4 * j + 1) 0 % 256) + 65536 * (bs.getD (4 * j + 2) 0 % 256) +
      16777216 * (bs.getD (4 * j + 3) 0 % 256) := by
  have byte (i : Nat) : bitsN (packNat 8 bs) (8 * i) 8 = bs.getD i 0 % 256 := bitsN_packNat 8 bs i
  rw [velem, vbuild, bitsN_ofNat _ (by omega), show (32 : Nat) = 8 + (8 + (8 + 8)) from rfl]
  simp only [bitsN_add]
  rw [show (8 + (8 + (8 + 8))) * j = 8 * (4 * j) by omega, show 8 * (4 * j) + 8 = 8 * (4 * j + 1) by omega,
    show 8 * (4 * j + 1) + 8 = 8 * (4 * j + 2) by omega, show 8 * (4 * j + 2) + 8 = 8 * (4 * j + 3) by omega, byte, byte, byte, byte]
  omega

/-- A word that raises no flag, with its values. -/
theorem vmove_gives (w : Nat) (x : VIn) (g : Nat → Nat) :
    Rules.Gives (vmove w x g) w fun j => if x.act.elem w x.k j then (g j, 0) else (velem w x.d j, 0) := by
  refine Gives.congr (f := fun j => (if x.act.elem w x.k j then g j else velem w x.d j, 0)) ⟨fun j hj => ?_, raises_none w⟩
    fun j _ => (apply_ite (fun v => (v, (0 : BitVec 5))) ..)
  exact velem_vbuild_range _ hj

theorem vrandom_gives {x : VIn} {d a : VOpF} {p : PredF} {key : BitVec 2} {w : Nat} {f : Nat → Nat × BitVec 5}
    (hi : Rules.value x (.vrand d a p key) = some (w, f)) :
    Rules.Gives (vrandom x) w fun j => if x.act.elem w x.k j then f j else (velem w x.d j, 0) := by
  cases hi
  refine Gives.congr (vmove_gives 32 x _) fun j hj => if_congr Iff.rfl (congrArg (·, 0) ?_) rfl
  have bytes (b : Nat) (hb : b < 4) : ((List.range 256).flatMap fun q => Aes.encrypt ((List.range 16).map fun j => bitsN x.key (8 * j) 8)
      ((List.range 16).map fun j => velem 8 x.a (16 * q + j))).getD (4 * j + b) 0 =
        (Aes.encrypt ((List.range 16).map fun j => bitsN x.key (8 * j) 8) ((List.range 16).map fun m => velem 8 x.a (16 * (j / 4) + m))).getD
          (4 * (j % 4) + b) 0 := by
    rw [show 4 * j + b = j / 4 * 16 + (4 * (j % 4) + b) by omega]
    exact getD_flatMap_range (fun _ => aesEncrypt_length ..) (by omega) (by omega) 0
  rw [velem_bytes _ hj, bytes 1 (by omega), bytes 2 (by omega), bytes 3 (by omega)]
  exact congrArg (fun v => v % 256 + _ + _ + _) (bytes 0 (by omega))

/-! ### Prefix parities of elements (06 R152) -/

theorem xorTo_succ (f : Nat → Nat) (p : Nat) : Rules.xorTo f (p + 1) = f 0 ^^^ Rules.xorTo (fun i => f (i + 1)) p := by
  induction p with
  | zero => rfl
  | succ p ih => rw [Rules.xorTo, ih, Nat.xor_assoc]; rfl

/-- The running XOR up to a place. -/
theorem prefixXor_getD {n p : Nat} (f : Nat → Nat) (acc : Nat) (hp : p < n) :
    (prefixXor acc ((List.range n).map f)).getD p 0 = acc ^^^ Rules.xorTo f p := by
  induction n generalizing f acc p with
  | zero => omega
  | succ n ih =>
    rw [List.range_succ_eq_map, List.map_cons, List.map_map, prefixXor]
    cases p with
    | zero => rfl
    | succ p => rw [List.getD_cons_succ, xorTo_succ, ← Nat.xor_assoc]; exact ih (fun i => f (i + 1)) _ (by omega)

theorem prefixXor_length (acc : Nat) (xs : List Nat) : (prefixXor acc xs).length = xs.length := by
  induction xs generalizing acc with
  | nil => rfl
  | cons x t ih => rw [prefixXor, List.length_cons, ih, List.length_cons]

theorem tyWidth_cases (ty : TyF) : tyWidth ty = 8 ∨ tyWidth ty = 16 ∨ tyWidth ty = 32 ∨ tyWidth ty = 64 := by
  have four : ty.toNat % 4 < 4 := Nat.mod_lt _ (by decide)
  unfold tyWidth
  obtain m | m | m | m : ty.toNat % 4 = 0 ∨ ty.toNat % 4 = 1 ∨ ty.toNat % 4 = 2 ∨ ty.toNat % 4 = 3 := by omega
  all_goals (rw [m]; decide)

theorem vpxorCol_gives (a : VReg) (ty : TyF) :
    Rules.Gives ⟨vpxorCol a ty, {}⟩ (Rules.element.ew ty) fun j =>
      (Rules.xorTo (fun r => velem (Rules.element.ew ty) a (r * (2048 / Rules.element.ew ty) + j % (2048 / Rules.element.ew ty)))
        (j / (2048 / Rules.element.ew ty)), 0) := by
  refine ⟨fun j hj => (velem_vbuild_range _ hj).trans (congrArg (· % 2 ^ tyWidth ty) ?_), raises_none _⟩
  have column := getD_map_range (fun j => prefixXor 0 ((List.range 16).map fun r => velem (tyWidth ty) a (r * vcols (tyWidth ty) + j))) []
    (Nat.mod_lt j (vcols_pos ty))
  exact (congrArg (fun l : List Nat => l.getD (j / vcols (tyWidth ty)) 0) column).trans
    ((prefixXor_getD _ 0 (lineOf_lt (tyWidth_cases ty) hj true)).trans (Nat.zero_xor _))

theorem vpxorRow_gives (a : VReg) {k : BitVec 10} (ty : TyF) (even : k.toNat % 2 = 0) :
    Rules.Gives ⟨vpxorRow a k ty, {}⟩ (Rules.element.ew ty) fun j =>
      (Rules.xorTo (fun p => velem (Rules.element.ew ty) a (j / (2048 / Rules.element.ew ty) * (2048 / Rules.element.ew ty) + p))
        (j % (2048 / Rules.element.ew ty)), 0) := by
  refine ⟨fun j hj => ?_, raises_none _⟩
  simp only [vpxorRow, even, if_true]
  refine (velem_vbuild _ hj).trans (congrArg (· % 2 ^ tyWidth ty) ?_)
  have row := getD_flatMap_range (f := fun r => prefixXor 0 ((List.range (vcols (tyWidth ty))).map fun j => velem (tyWidth ty) a (r * vcols (tyWidth ty) + j)))
    (fun _ => (prefixXor_length ..).trans (by simp)) (lineOf_lt (tyWidth_cases ty) hj true) (Nat.mod_lt j (vcols_pos ty)) 0
  refine (congrArg (List.getD _ · 0) (Nat.div_add_mod' j (vcols (tyWidth ty))).symm).trans (row.trans ?_)
  exact (prefixXor_getD _ 0 (Nat.mod_lt j (vcols_pos ty))).trans (Nat.zero_xor _)

/-! ### Prefix parities of bits (06 R152) -/

/-- Parity of the bits below n. -/
def parityBelow (f : Nat → Bool) : Nat → Bool
  | 0 => false
  | n + 1 => parityBelow f n ^^ f n

theorem parityTo_eq (f : Nat → Bool) (p : Nat) : Rules.parityTo f p = parityBelow f (p + 1) := by
  induction p with
  | zero => simp [Rules.parityTo, parityBelow]
  | succ p ih => rw [Rules.parityTo, ih]; rfl

theorem parityTo_congr {f g : Nat → Bool} {p : Nat} (same : ∀ i, i ≤ p → f i = g i) : Rules.parityTo f p = Rules.parityTo g p := by
  induction p with
  | zero => exact same 0 (Nat.le_refl 0)
  | succ p ih => rw [Rules.parityTo, Rules.parityTo, ih fun i hi => same i (by omega), same (p + 1) (Nat.le_refl _)]

/-- After s doublings a bit holds the parity of the last 2^s bits up to it. -/
theorem testBit_prefixXorBits (n s x : Nat) {q : Nat} (hq : q < n) :
    (prefixXorBits n s x).testBit q = (parityBelow x.testBit (q + 1) ^^ parityBelow x.testBit (q + 1 - 2 ^ s)) := by
  induction s generalizing q with
  | zero =>
    show x.testBit q = (parityBelow x.testBit q ^^ x.testBit q ^^ parityBelow x.testBit q)
    rw [Bool.xor_comm, ← Bool.xor_assoc, Bool.xor_self, Bool.false_xor]
  | succ s ih =>
    have double : 2 ^ (s + 1) = 2 ^ s + 2 ^ s := by rw [Nat.pow_succ, Nat.mul_two]
    simp only [prefixXorBits, Nat.testBit_mod_two_pow, hq, decide_true, Bool.true_and, Nat.testBit_xor, Nat.testBit_mul_two_pow, ih hq]
    by_cases far : 2 ^ s ≤ q
    · rw [ih ((Nat.sub_le ..).trans_lt hq), show q - 2 ^ s + 1 = q + 1 - 2 ^ s by omega, show q + 1 - 2 ^ s - 2 ^ s = q + 1 - 2 ^ (s + 1) by omega]
      simp [far]
    · rw [show q + 1 - 2 ^ s = 0 by omega, show q + 1 - 2 ^ (s + 1) = 0 by omega]
      simp [far, parityBelow]

/-- Enough doublings give the parity up to each bit. -/
theorem testBit_prefixXorBits_whole (n s x : Nat) {q : Nat} (hq : q < n) (enough : n ≤ 2 ^ s) :
    (prefixXorBits n s x).testBit q = Rules.parityTo x.testBit q := by
  rw [testBit_prefixXorBits n s x hq, parityTo_eq, show q + 1 - 2 ^ s = 0 by omega, parityBelow, Bool.xor_false]

/-- A bit of a register, in its element. -/
theorem testBit_velem (w i : Nat) (v : VReg) {m : Nat} (hm : m < w) : (velem w v i).testBit m = v.getLsbD (i * w + m) := by
  rw [velem, bitsN, Nat.testBit_mod_two_pow, decide_eq_true hm, Bool.true_and, Nat.testBit_div_two_pow, Nat.mul_comm, Nat.add_comm]
  rfl

theorem vpxorRow_rowBits (a : VReg) {k : BitVec 10} (ty : TyF) (hk : k.toNat % 4 = 1) {q : Nat} (hq : q < 32768) :
    (vpxorRow a k ty).getLsbD q = Rules.parityTo (fun p => a.getLsbD (q / 2048 * 2048 + p)) (q % 2048) := by
  have small : q % 2048 < 2048 := Nat.mod_lt _ (by decide)
  have odd : ¬k.toNat % 2 = 0 := by omega
  have row : k.toNat / 2 % 2 = 0 := by omega
  have place : q / 2048 * 2048 + q % 2048 = q := Nat.div_add_mod' ..
  rw [vpxorRow, if_neg odd, if_pos row]
  conv_lhs => rw [← place]
  rw [← testBit_velem 2048 _ _ small, velem_vbuild _ (by omega : q / 2048 < 32768 / 2048), getD_map_range _ _ (by omega),
    Nat.testBit_mod_two_pow, decide_eq_true small, Bool.true_and, testBit_prefixXorBits_whole 2048 11 _ small (by decide)]
  exact parityTo_congr fun i hi => testBit_velem 2048 _ a (by omega)

theorem vpxorRow_allBits (a : VReg) {k : BitVec 10} (ty : TyF) (hk : k.toNat % 4 = 3) {q : Nat} (hq : q < 32768) :
    (vpxorRow a k ty).getLsbD q = Rules.parityTo (fun p => a.getLsbD p) q := by
  have odd : ¬k.toNat % 2 = 0 := by omega
  have whole : ¬k.toNat / 2 % 2 = 0 := by omega
  rw [vpxorRow, if_neg odd, if_neg whole, BitVec.getLsbD_ofNat, decide_eq_true hq, Bool.true_and]
  exact testBit_prefixXorBits_whole 32768 15 _ hq (by decide)

/-! ### The statement -/

/-- 06 Tables 6.2 to 6.4, R142 to R145, R150, R151, R159, R165: a word that may raise flags, with its values and flags. -/
theorem value_gives {i : Instr} {x : VIn} {w : Nat} {f : Nat → Nat × BitVec 5} (hi : Rules.value x i = some (w, f)) :
    Rules.Gives (vcompute i x) w fun j => if x.act.elem w x.k j then f j else (velem w x.d j, 0) := by
  cases i
  case vadd | vsub | vmul | vdiv | vfma | vfms | vfnma | vfnms | vmin | vmax | vabs | vneg | vsqrt | vrcp | vrsqrt | vclass | vexp | vexp2 | vlog |
      vlog2 | verf =>
    cases hi; exact velementwise_gives ..
  case vcmpeq | vcmpne | vcmplt | vcmple => cases hi; exact velementwise_gives ..
  case vredr d a k p ty => exact vreduce_gives true x k ty hi
  case vredc d a k p ty => exact vreduce_gives false x k ty hi
  case vprer d a k p ty => exact vprefix_gives true x k ty hi
  case vprec d a k p ty => exact vprefix_gives false x k ty hi
  case vcvt d a spec p ty => exact vconvert_gives hi
  case vrand d a p key => exact vrandom_gives hi
  all_goals exact absurd (show none = some _ from hi) nofun

/-- Settles O21: words that raise no flag, words that may, vsel, and the parities. -/
theorem vectorElementValues : Obligations.VectorElementValues := by
  unfold Obligations.VectorElementValues
  exact ⟨fun i x j w v hi hj => element_moves hi hj, fun i x w f hi => value_gives hi, fun x d a b p ty => vselect_gives x ty,
    fun x d a k ty => ⟨vpxorCol_gives x.a ty, fun even => vpxorRow_gives x.a ty even, fun hk q hq => vpxorRow_rowBits x.a ty hk hq,
      fun hk q hq => vpxorRow_allBits x.a ty hk hq⟩⟩

end Sys2Proof.Machine

/-! SUPPORT. Words that hand something to the matrix engine: format pushes, ring words, and commands, which the engine takes at once or
behind an open precise word at its commit (07 R169, R171, R172, R179, R180). -/

namespace Sys2Proof.Machine

-- one after another: every waiting worker thread counts towards the check's memory limit
set_option Elab.async false

/-! ### Format words (07 R169) -/

/-- A format word that finds room stands at the end of fq, with the cycle of its push. -/
theorem fpush_appends {s t : State} {a : RegF} (h : s.Begins {} t) (hf : t.RegsFree [a]) (room : t.cur.fqHeld t.stc < 32) :
    ∃ u, exec (.fpush a) s = .next u ∧ s.Issued u ∧ u.cur.q.fq = t.cur.q.fq ++ [(t.rd a, s.stc)] ∧ u.cur.mx = t.cur.mx ∧
      u.dram = s.dram ∧ ∀ m, m ≠ s.turn.core → u.core m = s.core m := by
  have placed : t.PlacedIn (t.modCur fun c => { c with q := { c.q with fq := c.q.fq ++ [(t.rd a, t.stc)] } }) :=
    t.modCur_placedIn (by cases t.turn.q <;> rfl)
  obtain ⟨issued, dram, others⟩ := h.placed placed {} s.settled.cur.vec.skip (s.curSeq.pc + 1#14)
  refine ⟨_, congrArg Host.Outcome.next (h.done ((hf.interlock _).trans (if_neg (Nat.not_le.mpr room)))), issued, ?_, ?_, dram, others⟩
  · rw [(State.finishIssue_alike ..).fq, State.modCur_cur, h.stc]
  · rw [(State.finishIssue_alike ..).mx, State.modCur_cur]

theorem fpush_full {s t : State} {a : RegF} (h : s.Begins {} t) (hf : t.RegsFree [a]) (full : 32 ≤ t.cur.fqHeld t.stc) :
    exec (.fpush a) s = .next (s.settled.block .ovf) :=
  congrArg Host.Outcome.next (h.full ((hf.interlock _).trans (if_pos full)))

/-! ### Rings (07 R179, R180) -/

section
variable {s t : State} (h : s.Begins {} t) {rg : BitVec 4} {a b : RegF}
include h

/-- A word whose effect takes hold in the next cycle, outside precise mode. -/
theorem State.Begins.placesNext (hw : t.cur.vec.window = []) {body : State → Res} {e : Eff}
    (hb : body t = .done (t.modCur fun c => c.emit t.turn.q (t.stc + 1) e)) :
    ∃ u, Host.Outcome.next (s.issue {} body) = (.next u : Out) ∧ s.Issued u ∧ ⟨s.stc + 1, e⟩ ∈ u.cur.pend := by
  obtain ⟨issued, pend⟩ := h.places (fun _ => hw) hb
  exact ⟨_, rfl, issued, by rw [← h.stc]; exact pend⟩

theorem ringset_sets (hw : t.cur.vec.window = []) (hf : t.RegsFree [a, b]) {x : Ring} (hx : ringOfRegs (t.rd a).toNat (t.rd b).toNat = some x)
    (hr : (t.cur.mx.ring rg.toNat).rsv = 0) (hv : (t.cur.mx.ring rg.toNat).wsv = 0) :
    ∃ u, exec (.ringset rg a b) s = .next u ∧ s.Issued u ∧ ⟨s.stc + 1, .ringSet rg.toNat x⟩ ∈ u.cur.pend := by
  refine h.placesNext hw ((hf.interlock _).trans ?_)
  simp [hx, hr, hv]

theorem ringset_illop (hf : t.RegsFree [a, b]) (bad : ringOfRegs (t.rd a).toNat (t.rd b).toNat = none ∨
    (t.cur.mx.ring rg.toNat).rsv ≠ 0 ∨ (t.cur.mx.ring rg.toNat).wsv ≠ 0) :
    exec (.ringset rg a b) s = .next (s.settled.wordTrap .illop 0) := by
  refine congrArg Host.Outcome.next (h.trap ((hf.interlock _).trans ?_))
  cases hx : ringOfRegs (t.rd a).toNat (t.rd b).toNat with
  | none => rfl
  | some x => exact if_pos (bad.resolve_left (by simp [hx]))

theorem ringadv_fills (hw : t.cur.vec.window = []) (hf : t.RegsFree [a]) (hv : (t.rd a).toNat < 512)
    (room : (t.cur.mx.ring rg.toNat).fill + (t.cur.mx.ring rg.toNat).wsv + (t.rd a).toNat ≤ (t.cur.mx.ring rg.toNat).slots) :
    ∃ u, exec (.ringadv rg a) s = .next u ∧ s.Issued u ∧ ⟨s.stc + 1, .ringFill rg.toNat (t.rd a).toNat⟩ ∈ u.cur.pend := by
  refine h.placesNext hw ((hf.interlock _).trans ?_)
  exact (if_neg (by rw [Nat.div_eq_of_lt hv]; simp)).trans (if_neg (Nat.not_lt.mpr room))

theorem ringadv_illop (hf : t.RegsFree [a]) (hv : 512 ≤ (t.rd a).toNat) :
    exec (.ringadv rg a) s = .next (s.settled.wordTrap .illop 0) :=
  congrArg Host.Outcome.next (h.trap ((hf.interlock _).trans (if_pos (Nat.div_pos hv (by decide)).ne')))

theorem ringpop_pops (hw : t.cur.vec.window = []) {k : RegF} (hr : (t.cur.mx.ring rg.toNat).rsv = 0)
    (filled : k.toNat ≤ (t.cur.mx.ring rg.toNat).fill) :
    ∃ u, exec (.ringpop rg k) s = .next u ∧ s.Issued u ∧ ⟨s.stc + 1, .ringPop rg.toNat k.toNat⟩ ∈ u.cur.pend :=
  h.placesNext hw ((if_neg (not_not.mpr hr)).trans (if_neg (Nat.not_lt.mpr filled)))

theorem ringpop_illop {k : RegF} (hr : (t.cur.mx.ring rg.toNat).rsv ≠ 0) : exec (.ringpop rg k) s = .next (s.settled.wordTrap .illop 0) :=
  congrArg Host.Outcome.next (h.trap (if_pos hr))

end

/-! ### Commands (07 R171, R172) -/

/-- Every matrix word hands its command over. -/
theorem exec_matrix {i : Instr} {at_ : BitVec 32} (hi : Rules.matrix i = some at_) (s : State) : exec i s = .next (s.handOver i at_) := by
  cases i
  case mma | scnt | mholdOn | mholdOff | mdrain | mmerge | bsave | bload | azero | aload | astore | wcvt | wzero | ckctlOn | ckctlDetect |
      ckctlOff => cases hi; rfl
  all_goals exact absurd (show none = some _ from hi) nofun

/-- X has drawn its stamp. -/
def State.mxStamped (t : State) : State := (t.stampFor t.turn.core (seqNum .x)).2

/-- The command that a matrix word makes. -/
def State.mxCommand (t : State) (op : Instr) (at_ : BitVec 32) : MxCmd :=
  let c := t.mxStamped.cur
  { id := c.mx.nextId, op := op, at_ := at_.toNat, handed := t.stc, pc := c.x.pc, cal := !c.sys.region,
    stamp := (t.stampFor t.turn.core (seqNum .x)).1 }

/-- The command has its number. -/
def State.mxNumbered (t : State) : State :=
  t.mxStamped.modCur fun c => { c with mx := { c.mx with nextId := c.mx.nextId + 1 } }

/-- The command stands in the queue, whose head is judged from the next cycle on. -/
def State.mxHanded (t : State) (op : Instr) (at_ : BitVec 32) : State :=
  (t.mxNumbered.modCur fun c => (Eff.handOver (t.mxCommand op at_)).apply t.stc c).kickMatrix t.turn.core (t.stc + 1)

/-- The newest entry of the precise window holds the command. -/
def State.mxHeld (t : State) (op : Instr) (at_ : BitVec 32) : State :=
  t.mxNumbered.modCur fun c => c.emit .x t.stc (.handOver (t.mxCommand op at_))

theorem State.mxStamped_cur (t : State) : t.mxStamped.cur = t.cur.drawSeq (seqNum .x) := t.stampFor_cur (seqNum .x)

theorem State.mxNumbered_cur (t : State) : t.mxNumbered.cur =
    { t.cur.drawSeq (seqNum .x) with mx := { t.cur.mx with nextId := t.cur.mx.nextId + 1 } } := by
  rw [State.mxNumbered, State.modCur_cur, State.mxStamped_cur]
  rfl

theorem State.mxCommand_eq (t : State) (op : Instr) (at_ : BitVec 32) : t.mxCommand op at_ =
    { id := t.cur.mx.nextId, op := op, at_ := at_.toNat, handed := t.stc, pc := t.cur.x.pc, cal := !t.cur.sys.region,
      stamp := (t.stampFor t.turn.core (seqNum .x)).1 } := by
  rw [State.mxCommand, State.mxStamped_cur]
  rfl

/-- What the effect of a matrix word answers. -/
theorem State.Begins.handOver {s t : State} (h : s.Begins {} t) (op : Instr) (at_ : BitVec 32) :
    s.handOver op at_ = s.settled.conclude {} (if t.cur.vec.window.isEmpty then
      if !t.cur.handFits t.stc 1 then .full else .done (t.mxHanded op at_) else .done (t.mxHeld op at_)) := by
  have numbered : t.mxStamped.cur.vec = t.cur.vec ∧ t.mxStamped.cur.mx = t.cur.mx := by rw [State.mxStamped_cur]; exact ⟨rfl, rfl⟩
  rw [← numbered.1, show t.cur.handFits t.stc 1 = t.mxStamped.cur.handFits t.stc 1 by rw [Core.handFits, ← numbered.2]; rfl]
  exact h.issue _

/-- The judgement of the head of the queue is due. -/
theorem State.kickMatrix_hasJob (s : State) (n due : Nat) : (s.kickMatrix n due).hasJob (.matrixCommandStart n) = true := by
  unfold State.kickMatrix
  split
  · assumption
  · exact State.sched_hasJob ..

/-- To ask for that judgement changes the agenda alone. -/
theorem State.kickMatrix_eq (s : State) (n due : Nat) : ∃ l, s.kickMatrix n due = { s with agenda := l } := by
  unfold State.kickMatrix
  split
  · exact ⟨s.agenda, rfl⟩
  · exact ⟨_, rfl⟩

@[simp] theorem State.kickMatrix_core (s : State) (n due m : Nat) : (s.kickMatrix n due).core m = s.core m := by
  obtain ⟨l, kicked⟩ := s.kickMatrix_eq n due
  rw [kicked]; rfl

theorem State.kickMatrix_placedIn (s : State) (n due : Nat) : s.PlacedIn (s.kickMatrix n due) := by
  obtain ⟨l, kicked⟩ := s.kickMatrix_eq n due
  rw [kicked]
  exact ⟨rfl, rfl, rfl, rfl, fun _ _ => rfl⟩

theorem State.mxNumbered_placedIn (t : State) : t.PlacedIn t.mxNumbered := by
  have stamped : t.PlacedIn t.mxStamped := t.modCur_placedIn (f := (·.drawSeq (seqNum .x))) (by cases t.turn.q <;> rfl)
  exact stamped.trans (t.mxStamped.modCur_placedIn (by cases t.mxStamped.turn.q <;> rfl))

theorem State.mxHanded_placedIn (t : State) (op : Instr) (at_ : BitVec 32) : t.PlacedIn (t.mxHanded op at_) :=
  t.mxNumbered_placedIn.trans ((t.mxNumbered.modCur_placedIn (by cases t.mxNumbered.turn.q <;> rfl)).trans (State.kickMatrix_placedIn ..))

theorem State.mxHeld_placedIn (t : State) (op : Instr) (at_ : BitVec 32) : t.PlacedIn (t.mxHeld op at_) :=
  t.mxNumbered_placedIn.trans (t.mxNumbered.modCur_placedIn (Core.emit_seq ..))

theorem State.mxHanded_cur (t : State) (op : Instr) (at_ : BitVec 32) :
    (t.mxHanded op at_).cur = (Eff.handOver (t.mxCommand op at_)).apply t.stc t.mxNumbered.cur := by
  rw [State.cur, (t.mxHanded_placedIn op at_).turn, State.mxHanded, State.kickMatrix_core, ← t.mxNumbered_placedIn.turn]
  exact State.modCur_cur ..

section
variable {s t : State} (h : s.Begins {} t) {i : Instr} {at_ : BitVec 32} (hi : Rules.matrix i = some at_)
include h hi

/-- With room in the queue the engine has the command (07 R171, R172). -/
theorem matrix_handsOver (hq : s.turn.q = .x) (hw : t.cur.vec.window = []) (fits : t.cur.handFits s.stc 1 = true) :
    ∃ u cmd, exec i s = .next u ∧ s.Issued u ∧ u.cur.mx.queue = t.cur.mx.queue ++ [cmd] ∧
      cmd.op = i ∧ cmd.at_ = at_.toNat ∧ cmd.handed = s.stc ∧ cmd.pc = s.curSeq.pc ∧ cmd.cal = !t.cur.sys.region ∧
      (u.cur.engine engMxe).out = (t.cur.engine engMxe).out + 1 ∧ u.hasJob (.matrixCommandStart s.turn.core) = true ∧
      u.cur.mx.acc = t.cur.mx.acc ∧ u.cur.vec.vrf = t.cur.vec.vrf ∧ u.dram = s.dram := by
  obtain ⟨issued, dram, -⟩ := h.placed (t.mxHanded_placedIn i at_) {} s.settled.cur.vec.skip (s.settled.curSeq.pc + 1#14)
  have ended : s.handOver i at_ = (t.mxHanded i at_).finishIssue {} s.settled.cur.vec.skip none (s.settled.curSeq.pc + 1#14) := by
    rw [h.handOver, hw, h.stc, fits]
    rfl
  have alike := (t.mxHanded i at_).finishIssue_alike {} s.settled.cur.vec.skip none (s.settled.curSeq.pc + 1#14)
  obtain ⟨win, sk, vec, -⟩ := (t.mxHanded i at_).finishIssue_vec_any {} s.settled.cur.vec.skip none (s.settled.curSeq.pc + 1#14)
  have cur := t.mxHanded_cur i at_
  rw [t.mxNumbered_cur] at cur
  have pc : t.cur.x.pc = s.curSeq.pc := by
    rw [← State.curSeq_pc_begins h, State.curSeq, h.turn, hq]
    rfl
  refine ⟨_, { t.mxCommand i at_ with handed := t.stc }, (exec_matrix hi s).trans (congrArg Host.Outcome.next ended), issued, ?_, ?_, ?_, h.stc,
    ?_, ?_, ?_, ?_, ?_, ?_, dram⟩
  · rw [alike.mx, cur]; rfl
  · rw [t.mxCommand_eq]
  · rw [t.mxCommand_eq]
  · rw [t.mxCommand_eq]; exact pc
  · rw [t.mxCommand_eq]
  · rw [Core.engine, alike.eng, cur]
    exact congrArg EngSt.out (SMap.get_ins ..)
  · rw [← h.turn]
    exact State.kickMatrix_hasJob ..
  · rw [alike.mx, cur]; rfl
  · rw [vec, cur]; rfl

/-- With 16 commands there it does not issue (07 R172). -/
theorem matrix_full (hw : t.cur.vec.window = []) (full : t.cur.handFits s.stc 1 = false) : exec i s = .next (s.settled.block .ovf) := by
  rw [exec_matrix hi, h.handOver, hw, h.stc, full]
  rfl

/-- Behind an open precise word its own entry holds the command (06 R140). -/
theorem matrix_held (hw : t.cur.vec.window ≠ []) :
    ∃ u cmd, exec i s = .next u ∧ s.Issued u ∧ cmd.op = i ∧ (∃ w ∈ u.cur.vec.window, Eff.handOver cmd ∈ w.held) ∧
      u.cur.mx.queue = t.cur.mx.queue := by
  obtain ⟨issued, -⟩ := h.placed (t.mxHeld_placedIn i at_) {} s.settled.cur.vec.skip (s.settled.curSeq.pc + 1#14)
  have ended : s.handOver i at_ = (t.mxHeld i at_).finishIssue {} s.settled.cur.vec.skip none (s.settled.curSeq.pc + 1#14) := by
    rw [h.handOver, if_neg (by simpa using hw)]
    rfl
  have alike := (t.mxHeld i at_).finishIssue_alike {} s.settled.cur.vec.skip none (s.settled.curSeq.pc + 1#14)
  obtain ⟨win, sk, vec, -, held, -⟩ := (t.mxHeld i at_).finishIssue_vec_any {} s.settled.cur.vec.skip none (s.settled.curSeq.pc + 1#14)
  have cur : (t.mxHeld i at_).cur = t.mxNumbered.cur.emits t.stc [.handOver (t.mxCommand i at_)] := State.modCur_cur ..
  obtain ⟨l, w, newest⟩ := (List.eq_nil_or_concat' t.cur.vec.window).resolve_left hw
  rw [Core.emits_open (l := l) (w := w) _ _ (by rw [t.mxNumbered_cur]; exact newest)] at cur
  refine ⟨_, t.mxCommand i at_, (exec_matrix hi s).trans (congrArg Host.Outcome.next ended), issued, rfl, ?_, ?_⟩
  · obtain ⟨w', mem, more⟩ := held { w with held := w.held ++ [.handOver (t.mxCommand i at_)] } (by rw [cur]; simp)
    exact ⟨w', by rw [vec]; exact mem, more _ (by simp)⟩
  · rw [alike.mx, cur, t.mxNumbered_cur]

end

/-- Settles O24: format pushes, ring words, and commands that are handed over, do not issue, or are held. -/
theorem matrixWordsHandOver : Obligations.MatrixWordsHandOver := by
  unfold Obligations.MatrixWordsHandOver
  refine ⟨fun s t a h hf => ⟨fpush_appends h hf, fpush_full h hf⟩, fun s t rg a b h hw => ?_, fun i at_ s t hi hq h => ?_⟩
  · exact ⟨fun x hf hx hr hv => ringset_sets h hw hf hx hr hv, ringset_illop h, ringadv_fills h hw, ringadv_illop h, fun k => ringpop_pops h hw,
      fun k => ringpop_illop h⟩
  · exact ⟨matrix_handsOver h hi hq, matrix_full h hi, matrix_held h hi⟩

end Sys2Proof.Machine

/-! SUPPORT. The start of a matrix command in a scoreboard region, and the fault of one that finds no format word (07 R173 to R175, R177,
Table 7.4). -/

namespace Sys2Proof.Machine

-- one after another: every waiting worker thread counts towards the check's memory limit
set_option Elab.async false

/-! ### The judgement of a command that is due (07 R174, R175) -/

/-- The outcome of the judgement of the head of the queue. -/
def State.startJudged (s : State) (n : Nat) (cmd : MxCmd) : Judged → State
  | .bad cause code k => (s.setCore n (if code = 13 then k else k.popFmt s.stc cmd.op)).matrixFault n cmd cause code 0
  | .stall r => s.startRun n { r with waiting := true } (s.core n)
  | .go r c => s.startRun n r c

/-- A command that is due is judged in this cycle, unless its format word names tiles that a move of X may touch. -/
theorem State.commandStart_due {s : State} {n : Nat} {cmd : MxCmd} {rest : List MxCmd} (h : Rules.CommandDue s n cmd rest)
    (hs : (s.core n).wcvtTiles cmd.op = []) :
    s.commandStart n = s.startJudged n cmd ((s.core n).judge s.stc cmd none false) := by
  obtain ⟨queue, cal, running, placed, at_, handed, last, earliest, tiles⟩ := h
  have due : ¬s.stc < Nat.max (Nat.max ((s.core n).sys.t0 + cmd.at_) (Nat.max (cmd.handed + 1) ((s.core n).mx.lastStart + 1)))
      ((s.core n).earliest cmd) :=
    Nat.not_lt.mpr (Nat.max_le.mpr ⟨Nat.max_le.mpr ⟨at_, Nat.max_le.mpr ⟨handed, last⟩⟩, earliest⟩)
  have free : ((Instr.mxTiles cmd.op ++ []).any fun t => (s.core n).vecTile t) = false := by simpa using tiles
  unfold State.commandStart
  simp only [queue, cal, running, placed, hs, due, free, Option.isSome_none, Bool.or_self, Bool.not_false, Bool.true_and, Bool.false_eq_true,
    if_true, if_false]
  cases (s.core n).judge s.stc cmd none false <;> rfl

/-- A command that finds no format word has the fault FMTUF, whatever else is wrong (07 R175). -/
theorem Core.judge_noFormat {c : Core} {cmd : MxCmd} (hk : Instr.mxKind cmd.op ≠ 0) (hq : c.q.fq = []) (now : Nat) (late : Option Nat)
    (cal : Bool) : c.judge now cmd late cal = .bad .fmtuf 13 c := by
  simp only [Core.judge, hq, hk, ne_eq, not_false_eq_true, true_and, if_true]

/-- A window that books no tile leaves every tile free for its task (09 R257). -/
theorem Core.tileBooked_open {c : Core} (h : c.tsk.win.kinds 2 = []) (t user lo hi : Nat) : c.tileBooked t user lo hi = true := by
  simp only [Core.tileBooked, h, List.isEmpty_nil, if_true]

/-- A command that takes no format word needs none of its operands in rings. -/
theorem plainCommand_spec {op : Instr} {o l : Nat} (h : Rules.plainCommand op = some (o, l)) :
    Instr.mxKind op = 0 ∧ mxTime op {} = (o, l) ∧ (∀ hold, blockRings op {} hold = []) ∧ writeRing op {} = none ∧
      (∀ w, wcvtSource op w = []) ∧ blockCycles op {} = 16 := by
  cases op
  case azero | wzero | mholdOff | ckctlOn | ckctlDetect | ckctlOff => cases h; exact ⟨rfl, rfl, fun _ => rfl, rfl, fun _ => rfl, rfl⟩
  all_goals exact absurd (show none = some _ from h) nofun

/-- Its own checks all pass, and they leave the tiles, the queue and the runs. -/
theorem Core.ownChecks_plain {c : Core} {cmd : MxCmd} {o l : Nat} (h : Rules.plainCommand cmd.op = some (o, l)) (now : Nat) (r : MxRun)
    (cal : Bool) : ∃ d, c.ownChecks now cmd {} r cal = .go r d ∧ d.mx.acc = c.mx.acc ∧ d.mx.queue = c.mx.queue ∧ d.mx.runs = c.mx.runs := by
  have bank : ∀ k b, (c.setBank k b).mx.acc = c.mx.acc ∧ (c.setBank k b).mx.queue = c.mx.queue ∧ (c.setBank k b).mx.runs = c.mx.runs :=
    fun k b => by unfold Core.setBank; split <;> exact ⟨rfl, rfl, rfl⟩
  unfold Core.ownChecks
  generalize cmd.op = op at h
  cases op
  case azero | wzero | ckctlOn | ckctlDetect | ckctlOff => exact ⟨_, rfl, rfl, rfl, rfl⟩
  case mholdOff => exact ⟨_, rfl, bank ..⟩
  all_goals exact absurd (show none = some _ from h) nofun

/-- The run of a command that takes no format word. -/
def plainRun (cmd : MxCmd) (now o l : Nat) (st : Stamp) : MxRun :=
  { cmd := cmd, s := now, fw := 0, nb := 0, bc := 16, occ := o, lat := l, stamp := st }

theorem Core.judge_plain {c : Core} {cmd : MxCmd} {o l : Nat} (h : Rules.plainCommand cmd.op = some (o, l)) (hb : c.tsk.win.kinds 2 = [])
    (now : Nat) : ∃ d, c.judge now cmd none false = .go (plainRun cmd now o l {}) d ∧ d.mx.acc = c.mx.acc ∧ d.mx.queue = c.mx.queue ∧
      d.mx.runs = c.mx.runs := by
  obtain ⟨kind, time, rings, writes, source, cycles⟩ := plainCommand_spec h
  obtain ⟨d, checks, kept⟩ := c.ownChecks_plain h now (plainRun cmd now o l {}) false
  refine ⟨d, ?_, kept⟩
  have nowhere : ∀ l : List Nat, (l.any fun _ => false) = false := by simp
  simp only [Core.judge, kind, time, rings, writes, cycles, Core.tileBooked_open hb, takeSlots, nowhere, ne_eq, not_true, false_and, if_true,
    if_false, Bool.not_true, List.append_nil, Option.toList_none, List.any_nil, List.isEmpty_nil, List.map_nil, Bool.false_eq_true]
  exact congrArg (c.firstBlock false) checks

/-! ### The start (07 R173, R175) -/

/-- A command that takes no format word retires its occupancy and its latency after its start. -/
theorem State.placeRun_plain (s : State) (n : Nat) {r : MxRun} (h : Instr.mxKind r.cmd.op = 0) :
    s.placeRun n r = s.sched r.retire phMatrix (.matrixRetire n r.cmd.id) := by
  unfold State.placeRun
  split
  · next op => rw [op] at h; cases h
  · next op => rw [op] at h; cases h
  · rfl

/-- The core of a started command: its format word popped, its slots reserved, the array held. -/
def Core.started (c : Core) (now : Nat) (r : MxRun) : Core :=
  let c := c.popFmt now r.cmd.op
  let c := r.slots.foldl (fun (c : Core) p => c.later (now + 1) (.ringRsv p.1 true r.nb)) c
  let c := match r.wslot with
    | some p => c.later (now + 1) (.ringWsv p.1 true 1)
    | none => c
  { c with mx := { c.mx.leave now 1 with queue := c.mx.queue.tail, runs := c.mx.runs ++ [r], occEnd := now + r.occ, lastStart := now } }

/-- The state of a started command: its core, its next event, and the judgement of the command behind it. -/
def State.started (s : State) (n : Nat) (r : MxRun) : State :=
  let c := (s.core n).started s.stc r
  let s := s.setCore n c
  let s := if r.waiting then s.stallRun n r (.ringBlockRead n r.cmd.id 0) else s.placeRun n r
  if c.mx.queue.isEmpty then s else s.kickMatrix n (s.stc + 1)

/-- A start draws the engine's stamp first (07 R176). -/
theorem State.startRun_eq (s : State) (n : Nat) (r : MxRun) (c : Core) :
    s.startRun n r c = ((s.setCore n c).stampFor n (unitOfEng engMxe)).2.started n
      { r with stamp := ((s.setCore n c).stampFor n (unitOfEng engMxe)).1 } := rfl

/-- A job of the agenda stays there when the judgement of the head is asked for. -/
theorem State.mem_kickMatrix (s : State) (n due : Nat) {j : Job} (h : j ∈ s.agenda) : j ∈ (s.kickMatrix n due).agenda := by
  unfold State.kickMatrix
  split
  · exact h
  · exact (State.mem_sched ..).mpr (.inr h)

/-- A command that takes no format word has started: its retirement is due. -/
theorem State.started_retires (s : State) (n : Nat) {r : MxRun} (hw : r.waiting = false) (hk : Instr.mxKind r.cmd.op = 0) :
    (s.started n r).core n = (s.core n).started s.stc r ∧
      ⟨r.retire, phMatrix, .matrixRetire n r.cmd.id, {}, {}⟩ ∈ (s.started n r).agenda := by
  unfold State.started
  simp only [hw, Bool.false_eq_true, if_false, State.placeRun_plain _ _ hk]
  have placed : ⟨r.retire, phMatrix, .matrixRetire n r.cmd.id, {}, {}⟩ ∈
      ((s.setCore n ((s.core n).started s.stc r)).sched r.retire phMatrix (.matrixRetire n r.cmd.id)).agenda :=
    (State.mem_sched ..).mpr (.inl rfl)
  split
  · exact ⟨by simp, placed⟩
  · exact ⟨by simp, State.mem_kickMatrix _ _ _ placed⟩

/-- A run that reserves no slot changes of the engine the queue, the runs and what holds the array. -/
theorem Core.started_plain (c : Core) {cmd : MxCmd} (h : Instr.mxKind cmd.op = 0) (now o l : Nat) (st : Stamp) :
    (c.started now (plainRun cmd now o l st)).mx = { c.mx.leave now 1 with
      queue := c.mx.queue.tail, runs := c.mx.runs ++ [plainRun cmd now o l st], occEnd := now + o, lastStart := now } := by
  have noFormat : c.popFmt now cmd.op = c := if_pos h
  rw [Core.started, show (plainRun cmd now o l st).cmd = cmd from rfl, noFormat]
  rfl

/-- Its command leaves the queue, the array is held, and its retirement is due its occupancy and its latency later. -/
theorem State.startRun_plain (s : State) (n : Nat) (c : Core) {cmd : MxCmd} (h : Instr.mxKind cmd.op = 0) (o l : Nat) :
    ∃ st, ((s.startRun n (plainRun cmd s.stc o l {}) c).core n).mx =
        { c.mx.leave s.stc 1 with queue := c.mx.queue.tail, runs := c.mx.runs ++ [plainRun cmd s.stc o l st],
                                  occEnd := s.stc + o, lastStart := s.stc } ∧
      ⟨s.stc + o + l, phMatrix, .matrixRetire n cmd.id, {}, {}⟩ ∈ (s.startRun n (plainRun cmd s.stc o l {}) c).agenda := by
  obtain ⟨t, stamped, stc, mx⟩ : ∃ t, ((s.setCore n c).stampFor n (unitOfEng engMxe)).2 = t ∧ t.stc = s.stc ∧ (t.core n).mx = c.mx :=
    ⟨_, rfl, rfl, by rw [State.stampFor]; simp [Core.drawSeq]⟩
  rw [State.startRun_eq, stamped]
  obtain ⟨core, due⟩ := t.started_retires n (r := plainRun cmd s.stc o l ((s.setCore n c).stampFor n (unitOfEng engMxe)).1) rfl h
  exact ⟨_, (congrArg Core.mx core).trans (by rw [stc, Core.started_plain _ h, mx]), due⟩

/-- A due command that takes no format word starts in a window that books no tile. -/
theorem matrixCommandStart_starts {s : State} {n : Nat} {cmd : MxCmd} {rest : List MxCmd} (h : Rules.CommandDue s n cmd rest) {o l : Nat}
    (hp : Rules.plainCommand cmd.op = some (o, l)) (hb : (s.core n).tsk.win.kinds 2 = []) :
    ∃ u r, exec (.matrixCommandStart n) s = .next u ∧ (u.core n).mx.queue = rest ∧ (u.core n).mx.runs = (s.core n).mx.runs ++ [r] ∧
      r.cmd = cmd ∧ r.s = s.stc ∧ r.occ = o ∧ r.lat = l ∧ (u.core n).mx.occEnd = s.stc + o ∧ (u.core n).mx.lastStart = s.stc ∧
      ⟨s.stc + o + l, phMatrix, .matrixRetire n cmd.id, {}, {}⟩ ∈ u.agenda ∧ (u.core n).mx.acc = (s.core n).mx.acc := by
  obtain ⟨kind, -, -, -, source, -⟩ := plainCommand_spec hp
  obtain ⟨d, judged, acc, queue, runs⟩ := (s.core n).judge_plain hp hb s.stc
  obtain ⟨st, mx, due⟩ := s.startRun_plain n d kind o l
  have next : s.commandStart n = s.startRun n (plainRun cmd s.stc o l {}) d := by
    rw [State.commandStart_due h (source _), judged]
    rfl
  refine ⟨_, plainRun cmd s.stc o l st, congrArg Host.Outcome.next next, ?_, ?_, rfl, rfl, rfl, rfl, ?_, ?_, due, ?_⟩ <;> rw [mx]
  · rw [queue, h.1]
    rfl
  · rw [runs]
  · exact acc

/-! ### The fault of a command without its format word (07 R177) -/

/-- The release of a run keeps the tiles and the clock. -/
theorem State.releaseRun_keeps (s : State) (n id : Nat) :
    (s.releaseRun n id).stc = s.stc ∧ ((s.releaseRun n id).core n).mx.acc = (s.core n).mx.acc := by
  unfold State.releaseRun
  split
  · exact ⟨rfl, rfl⟩
  · next r _ =>
    have reserved : ∀ c : Core, (r.slots.foldl (fun (c : Core) p => c.later (s.stc + 1) (.ringRsv p.1 false r.nb)) c).mx = c.mx :=
      foldl_value_kept fun _ _ _ => rfl
    refine ⟨rfl, ?_⟩
    rw [State.modCore_core]
    have kept := congrArg MxSt.acc (reserved (s.core n))
    split <;> exact kept

theorem Core.laterN_mx (c : Core) (due k : Nat) (e : Eff) : (c.laterN due k e).mx = c.mx := by
  induction k with
  | zero => rfl
  | succ k ih => exact ih

/-- A fault is recorded with its DETAIL, the queue is discarded, and X's trap is due in the next cycle. -/
theorem State.matrixFault_records (s : State) (n : Nat) (cmd : MxCmd) (cause : Cause) (code block : Nat) :
    let u := s.matrixFault n cmd cause code block
    (u.core n).mx.queue = [] ∧ (u.core n).mx.fault = some (cause, s.stc) ∧ (u.core n).mx.detail = detailWord code cmd.op block ∧
      ⟨s.stc + 1, phEngine, .engineFaultTrap n engMxe, {}, {}⟩ ∈ u.agenda ∧ (u.core n).mx.acc = (s.core n).mx.acc := by
  obtain ⟨stc, acc⟩ := s.releaseRun_keeps n cmd.id
  unfold State.matrixFault
  dsimp only
  rw [State.sched_core, State.modCore_core]
  refine ⟨rfl, ?_, rfl, (State.mem_sched ..).mpr (.inl ?_), ?_⟩
  · exact congrArg (fun x => some (cause, x)) stc
  · rw [← stc]; rfl
  · have kept := congrArg MxSt.acc (Core.laterN_mx ((s.releaseRun n cmd.id).core n) ((s.releaseRun n cmd.id).stc + 1)
      (((s.releaseRun n cmd.id).core n).mx.queue.filter fun m => m.id ≠ cmd.id).length.succ (.engRetire engMxe))
    exact Eq.trans kept acc

/-- The low byte of DETAIL is its code (07 R198). -/
theorem detailWord_code {code : Nat} (h : code < 256) (op : Instr) (block : Nat) : (detailWord code op block).toNat % 256 = code := by
  rw [detailWord, BitVec.toNat_ofNat]
  omega

/-- A due command that needs a format word and finds none faults with FMTUF. -/
theorem matrixCommandStart_fmtuf {s : State} {n : Nat} {cmd : MxCmd} {rest : List MxCmd} (h : Rules.CommandDue s n cmd rest)
    (hf : Rules.needsFormat cmd.op = true) (hq : (s.core n).q.fq = []) :
    ∃ u, exec (.matrixCommandStart n) s = .next u ∧ (u.core n).mx.queue = [] ∧
      (u.core n).mx.fault = some (.fmtuf, s.stc) ∧ (u.core n).mx.detail.toNat % 256 = 13 ∧
      ⟨s.stc + 1, phEngine, .engineFaultTrap n engMxe, {}, {}⟩ ∈ u.agenda ∧ (u.core n).mx.acc = (s.core n).mx.acc := by
  have kind : Instr.mxKind cmd.op ≠ 0 := by
    generalize cmd.op = op at hf
    cases op
    case mma | scnt | mdrain | wcvt | aload | astore | bsave | bload => nofun
    all_goals cases hf
  have source : (s.core n).wcvtTiles cmd.op = [] := by
    rw [Core.wcvtTiles, hq]
    unfold wcvtSource
    split
    · next found => cases found
    · rfl
  have next : s.commandStart n = (s.setCore n (s.core n)).matrixFault n cmd .fmtuf 13 0 := by
    rw [State.commandStart_due h source, Core.judge_noFormat kind hq]
    rfl
  obtain ⟨queue, fault, detail, due, acc⟩ := (s.setCore n (s.core n)).matrixFault_records n cmd .fmtuf 13 0
  exact ⟨_, congrArg Host.Outcome.next next, queue, fault, by rw [detail, detailWord_code (by decide)], due, by rw [acc, State.setCore_core]⟩

/-- Settles O25: the start of a command that takes no format word, and the fault of one that finds none. -/
theorem matrixCommandStarts : Obligations.MatrixCommandStarts := by
  unfold Obligations.MatrixCommandStarts
  exact fun s n cmd rest h => ⟨fun o l hp hb => matrixCommandStart_starts h hp hb, matrixCommandStart_fmtuf h⟩

end Sys2Proof.Machine

/-! SUPPORT. The trap of an engine fault: the fault's bit falls, the commands of its cycle leave, and the sequencer that issued the command
enters its handler (07 R177; 02 R58). -/

namespace Sys2Proof.Machine

-- one after another: every waiting worker thread counts towards the check's memory limit
set_option Elab.async false

/-! ### Commands that leave (08 R240) -/

/-- A change of a task's core is a change of core n or leaves it. -/
theorem State.modTask_core (s : State) (id n : Nat) (f : Core → Core) :
    (s.modTask id f).core n = s.core n ∨ (s.modTask id f).core n = f (s.core n) := by
  change SMap.get {} (s.cores.map fun p => if p.2.tsk.task = some id then (p.1, f p.2) else p) n = SMap.get {} s.cores n ∨
    SMap.get {} (s.cores.map fun p => if p.2.tsk.task = some id then (p.1, f p.2) else p) n = f (SMap.get {} s.cores n)
  induction s.cores with
  | nil => exact .inl rfl
  | cons p t ih =>
    obtain ⟨k, c⟩ := p
    simp only [List.map_cons]
    by_cases hk : n = k
    · by_cases ht : c.tsk.task = some id
      · exact .inr (by simp [ht, SMap.get, hk])
      · exact .inl (by simp [ht, SMap.get, hk])
    · by_cases ht : c.tsk.task = some id <;> simpa only [ht, if_true, if_false, SMap.get, hk] using ih

/-- Core d is core c but for what goes with commands: their list, requests and queue, what is under way, the task's pins, the vector state. -/
structure Core.CommandsLeave (c d : Core) : Prop where
  seq : ∀ q, d.seq q = c.seq q
  sys : d.sys = c.sys
  eng : d.eng = c.eng
  fault : d.mx.fault = c.mx.fault

/-- State u is state s but for what goes with commands of core n and for other cores; clock and DRAM stay. -/
structure State.CommandsLeave (s u : State) (n : Nat) : Prop where
  stc : u.stc = s.stc
  dram : u.dram = s.dram
  core : (s.core n).CommandsLeave (u.core n)

theorem Core.CommandsLeave.refl (c : Core) : c.CommandsLeave c := ⟨fun _ => rfl, rfl, rfl, rfl⟩

theorem State.CommandsLeave.refl (s : State) (n : Nat) : s.CommandsLeave s n := ⟨rfl, rfl, .refl _⟩

theorem State.CommandsLeave.trans {s t u : State} {n : Nat} (h : s.CommandsLeave t n) (k : t.CommandsLeave u n) : s.CommandsLeave u n :=
  ⟨k.stc.trans h.stc, k.dram.trans h.dram, fun q => (k.core.seq q).trans (h.core.seq q), k.core.sys.trans h.core.sys,
    k.core.eng.trans h.core.eng, k.core.fault.trans h.core.fault⟩

theorem State.modCore_commandsLeave (s : State) (n : Nat) {f : Core → Core} (h : (s.core n).CommandsLeave (f (s.core n))) :
    s.CommandsLeave (s.modCore n f) n := ⟨rfl, rfl, by rw [State.modCore_core]; exact h⟩

theorem State.schedInp_commandsLeave (s : State) (n due ph : Nat) (ev : Instr) (i : Input) : s.CommandsLeave (s.schedInp due ph ev i) n :=
  ⟨rfl, rfl, .refl _⟩

theorem State.unpin_commandsLeave (s : State) (n : Nat) (ks : List Nat) : s.CommandsLeave (s.unpin n ks) n :=
  foldl_related (R := fun s u : State => s.CommandsLeave u n) (fun s => .refl s n) .trans (fun s _ => s.schedInp_commandsLeave ..) ks s

theorem State.pinsFell_commandsLeave (s : State) (n : Nat) (ks : List Nat) : s.CommandsLeave (s.pinsFell ks) n :=
  foldl_related (R := fun s u : State => s.CommandsLeave u n) (fun s => .refl s n) .trans (fun s _ => s.schedInp_commandsLeave ..) ks s

theorem State.dropPins_commandsLeave (s : State) (id n : Nat) (ks : List Nat) : s.CommandsLeave (s.modTask id fun c => c.dropPins ks) n := by
  refine ⟨rfl, rfl, ?_⟩
  rcases s.modTask_core id n fun c => c.dropPins ks with kept | dropped
  · rw [kept]
    exact .refl _
  · rw [dropped]
    exact ⟨fun q => by cases q <;> rfl, rfl, rfl, rfl⟩

theorem State.retireCmd_commandsLeave (s : State) (n id : Nat) : s.CommandsLeave (s.retireCmd n id) n := by
  have retired : ∀ (cmds : List Cmd) (eng : Nat), s.CommandsLeave
      (s.setCore n (if eng < 7 then ({ s.core n with cmds := cmds } : Core).later (s.stc + 1) (.engRetire eng) else { s.core n with cmds := cmds })) n := by
    refine fun cmds eng => ⟨rfl, rfl, ?_⟩
    rw [State.setCore_core]
    split <;> exact ⟨fun q => by cases q <;> rfl, rfl, rfl, rfl⟩
  unfold State.retireCmd
  dsimp only
  split
  · exact .refl s n
  · split
    · exact retired ..
    · exact (retired ..).trans ((State.dropPins_commandsLeave ..).trans (State.pinsFell_commandsLeave ..))
    · exact (retired ..).trans (State.unpin_commandsLeave ..)

theorem State.discardCmds_commandsLeave (s : State) (n : Nat) (gone : List Cmd) : s.CommandsLeave (s.discardCmds n gone) n := by
  have retired := foldl_related (R := fun s u : State => s.CommandsLeave u n) (fun s => .refl s n) .trans
    (fun s (x : Cmd) => s.retireCmd_commandsLeave n x.id) gone s
  exact retired.trans (State.modCore_commandsLeave _ n (f := fun c =>
    { c with reqs := c.reqs.filter fun r => !(gone.any fun x => x.id = r.cmd) || decide (r.rank = 1) })
    ⟨fun q => by cases q <;> rfl, rfl, rfl, rfl⟩)

theorem Core.laterN_commandsLeave (c : Core) (due k : Nat) (e : Eff) : c.CommandsLeave (c.laterN due k e) := by
  induction k with
  | zero => exact .refl c
  | succ k ih => exact ⟨fun q => (Core.later_seq ..).trans (ih.seq q), ih.sys, ih.eng, ih.fault⟩

/-- The commands that left with a fault's queue change nothing else (09 R267). -/
theorem State.discardQueued_commandsLeave (s : State) (n e : Nat) : s.CommandsLeave (s.discardQueued n e) n := by
  unfold State.discardQueued
  split
  · refine State.CommandsLeave.trans (t := s.unsched fun ev => ev = .matrixCommandStart n) ⟨rfl, rfl, .refl _⟩ (State.modCore_commandsLeave _ n ?_)
    obtain ⟨seq, sys, eng, fault⟩ := Core.laterN_commandsLeave (s.core n) (s.stc + 1) (s.core n).mx.queue.length (.engRetire engMxe)
    exact ⟨fun q => (by cases q <;> rfl : _ = _).trans (seq q), sys, eng, fault⟩
  · split
    · exact State.discardCmds_commandsLeave ..
    · exact .refl s n

/-! ### The trap (07 R177) -/

/-- With nothing under way a core stands as its effects leave it. -/
theorem Core.settle_nil {c : Core} (h : c.pend = []) (now : Nat) : c.settle now = c := by
  rw [Core.settle, h, settleGo, List.filter_nil, ← h]

/-- A cleared fault is none, and its bit is 0. -/
theorem Core.clearFault_engine (c : Core) (e : Nat) : ((c.clearFault e).engine e).flt = false ∧ (c.clearFault e).engFaultOf e = none := by
  have engine : (c.clearFault e).engine e = { c.engine e with flt := false, fault := none } := by
    unfold Core.clearFault
    split <;> exact SMap.get_ins ..
  refine ⟨by rw [engine], ?_⟩
  unfold Core.engFaultOf
  split
  · next mx => rw [Core.clearFault, if_pos mx]; rfl
  · rw [engine]

/-- A cleared fault leaves the streams and the system registers. -/
theorem Core.clearFault_keeps (c : Core) (e : Nat) : (∀ q, (c.clearFault e).seq q = c.seq q) ∧ (c.clearFault e).sys = c.sys := by
  unfold Core.clearFault
  split <;> exact ⟨fun q => by cases q <;> rfl, rfl⟩

/-- An engine's status and fault follow from the engines' records and the fault of the matrix engine. -/
theorem Core.engFaultOf_congr {c d : Core} (heng : d.eng = c.eng) (hfault : d.mx.fault = c.mx.fault) (e : Nat) :
    d.engine e = c.engine e ∧ d.engFaultOf e = c.engFaultOf e := by
  have engine : d.engine e = c.engine e := congrArg (SMap.get ({} : EngSt) · e) heng
  exact ⟨engine, by rw [Core.engFaultOf, Core.engFaultOf, engine, hfault]⟩

/-- Entering a handler leaves the engines. -/
theorem State.handlerCore_engines (s : State) (n : Nat) (q : Seq) (c : Cause) (code : BitVec 10) (lane : Nat) (pc : BitVec 14) (own : Bool)
    (at_ : Nat) : (s.handlerCore n q c code lane pc own at_).eng = (s.core n).eng ∧ (s.handlerCore n q c code lane pc own at_).mx = (s.core n).mx := by
  cases q <;> exact ⟨rfl, rfl⟩

/-- The state in which the trap is taken: the fault's bit clear, the commands of its cycle gone, no trap of X waiting. -/
def State.faultCleared (s : State) (n e : Nat) (q : Seq) : State :=
  let t := (s.setCore n ((s.core n).clearFault e)).discardQueued n e
  if q = .x then t.modCore n fun c => { c with vec := { c.vec with lateTrap := none } } else t

theorem State.faultCleared_commandsLeave (s : State) (n e : Nat) (q : Seq) :
    (s.setCore n ((s.core n).clearFault e)).CommandsLeave (s.faultCleared n e q) n := by
  have discarded := State.discardQueued_commandsLeave (s.setCore n ((s.core n).clearFault e)) n e
  unfold State.faultCleared
  dsimp only
  split
  · exact discarded.trans (State.modCore_commandsLeave _ n ⟨fun q => by cases q <;> rfl, rfl, rfl, rfl⟩)
  · exact discarded

/-- An engine fault of a sequencer that has not stopped is a trap at its next boundary. -/
theorem State.engTrap_eq {s : State} {n e id : Nat} {cause : Cause} {q : Seq} (hp : (s.core n).pend = [])
    (ht : (s.core n).tsk.task = some id) (he : (s.core n).tsk.ending = none) (hf : (s.core n).engFaultOf e = some (cause, q))
    (hm : ((s.core n).seq q).mode = .run) :
    s.engTrap n e = ((s.setCore n (s.core n)).faultCleared n e q).takeTrap n q cause 0 0 ((s.core n).seq q).pc false s.stc (e = engMxe) := by
  unfold State.engTrap
  simp only [Core.settle_nil hp, ht, hf, he, hm, SeqRun.stopped, Option.isSome_none, Bool.false_eq_true, if_false, State.faultCleared,
    State.setCore_core]
  rfl

/-- The low byte of sr.cause is the cause. -/
theorem causeWord_code (q : Seq) (c : Cause) : (causeWord q c 0).toNat % 256 = causeCode c := by
  cases q <;> cases c <;> rfl

/-- Settles O28: with the fault cleared and the commands of its cycle gone, the trap is taken by the enabled handler. -/
theorem engineFaultTrap : Obligations.EngineFaultTrap := by
  unfold Obligations.EngineFaultTrap
  intro s n e id cause q hp ht he hf hm hv enabled
  have next := State.engTrap_eq hp ht he hf hm
  generalize hk : (s.setCore n (s.core n)).faultCleared n e q = t at next
  obtain ⟨stc, dram, core⟩ := (s.setCore n (s.core n)).faultCleared_commandsLeave n e q
  rw [hk] at dram core
  rw [State.setCore_core, State.setCore_core] at core
  obtain ⟨seq, sys⟩ := (s.core n).clearFault_keeps e
  obtain ⟨bit, cleared⟩ := (s.core n).clearFault_engine e
  have stream : (t.core n).seq q = (s.core n).seq q := (core.seq q).trans (seq q)
  have valid : (t.core n).sys.valid = false := by rw [core.sys, sys, hv]
  have taken := State.takeTrap_handler valid (by rw [stream]; exact enabled) (by decide : 0 < 1024) cause 0 ((s.core n).seq q).pc false s.stc
    (e = engMxe)
  refine ⟨_, congrArg Host.Outcome.next (next.trans taken), ?_⟩
  rw [State.setCore_core, State.handlerCore_seq, State.handlerSeq, stream]
  obtain ⟨eng, mx⟩ := t.handlerCore_engines n q cause 0 0 ((s.core n).seq q).pc false s.stc
  obtain ⟨engine, fault⟩ := Core.engFaultOf_congr (eng.trans core.eng) ((congrArg MxSt.fault mx).trans core.fault) e
  exact ⟨causeWord_code q cause, causeWord_valid q cause (by decide), rfl, rfl, rfl, by rw [engine, bit], fault.trans cleared, dram⟩

end Sys2Proof.Machine

/-! SUPPORT. The retirement of a matrix command: what it writes into tiles, banks and its slot, and what it leaves (07 R173, R181, R186 to
R188, R192). -/

namespace Sys2Proof.Machine

-- one after another: every waiting worker thread counts towards the check's memory limit
set_option Elab.async false

/-! ### Rows of tiles -/

/-- A command's rows change the accumulators alone. -/
theorem putRows_eq (m : MxSt) (rows : List (Nat × Row)) : ∃ acc, putRows m rows = { m with acc := acc } :=
  foldl_related (R := fun m m' => ∃ acc, m' = { m with acc := acc }) (fun m => ⟨m.acc, rfl⟩)
    (fun ⟨_, h⟩ ⟨acc, h'⟩ => ⟨acc, by rw [h', h]⟩) (fun _ _ => ⟨_, rfl⟩) rows m

theorem putRows_row_ne (m : MxSt) {rows : List (Nat × Row)} {k i : Nat} (h : ∀ p ∈ rows, p.1 ≠ 128 * k + i) :
    (putRows m rows).row k i = m.row k i :=
  foldl_value_kept (g := fun m : MxSt => m.row k i) (fun p hp m => by exact SMap.get_put_ne _ p.2 m.acc _ _ (h p hp).symm) m

/-- A row takes the value that all its entries have. -/
theorem putRows_row_same (m : MxSt) {rows : List (Nat × Row)} {k i : Nat} {v : Row} (mem : ∃ p ∈ rows, p.1 = 128 * k + i)
    (all : ∀ p ∈ rows, p.1 = 128 * k + i → p.2 = v) : (putRows m rows).row k i = v := by
  induction rows generalizing m with
  | nil => obtain ⟨p, hp, -⟩ := mem; cases hp
  | cons p t ih =>
    by_cases later : ∃ q ∈ t, q.1 = 128 * k + i
    · exact ih _ later fun q hq => all q (List.mem_cons_of_mem p hq)
    · obtain ⟨q, hq, key⟩ := mem
      rcases List.mem_cons.mp hq with rfl | hq
      · have put : (putRows m [q]).row k i = v := by
          rw [← all q List.mem_cons_self key, MxSt.row, ← key]
          exact SMap.get_put ..
        exact (putRows_row_ne _ fun q hq key => later ⟨q, hq, key⟩).trans put
      · exact absurd ⟨q, hq, key⟩ later

/-- Rows that cover whole tiles: each row of such a tile has its value, and the rows of other tiles stay. -/
theorem putRows_row (m : MxSt) {rows : List (Nat × Row)} {tile : Nat → Prop} [DecidablePred tile] {f : Nat → Nat → Row}
    (h : ∀ p, p ∈ rows ↔ ∃ k i, tile k ∧ i < 128 ∧ p = (128 * k + i, f k i)) (k : Nat) {i : Nat} (hi : i < 128) :
    (putRows m rows).row k i = if tile k then f k i else m.row k i := by
  split
  · next own =>
    refine putRows_row_same m ⟨_, (h _).mpr ⟨k, i, own, hi, rfl⟩, rfl⟩ fun p hp key => ?_
    obtain ⟨k', i', -, hi', rfl⟩ := (h p).mp hp
    obtain ⟨rfl, rfl⟩ : k' = k ∧ i' = i := by simp only at key; omega
    rfl
  · next other =>
    refine putRows_row_ne m fun p hp key => ?_
    obtain ⟨k', i', own, hi', rfl⟩ := (h p).mp hp
    obtain rfl : k' = k := by simp only at key; omega
    exact other own

theorem mem_zeroRows (ts : List Nat) (p : Nat × Row) : p ∈ zeroRows ts ↔ ∃ k i, k ∈ ts ∧ i < 128 ∧ p = (128 * k + i, 0) := by
  simp only [zeroRows, List.mem_flatMap, List.mem_map, List.mem_range, eq_comm (a := p)]
  exact ⟨fun ⟨k, hk, i, hi, e⟩ => ⟨k, i, hk, hi, e⟩, fun ⟨k, i, hk, hi, e⟩ => ⟨k, hk, i, hi, e⟩⟩

/-- The rows of one tile. -/
theorem mem_tileRows (t : Nat) (f : Nat → Row) (p : Nat × Row) :
    p ∈ (List.range 128).map (fun i => (128 * t + i, f i)) ↔ ∃ k i, k = t ∧ i < 128 ∧ p = (128 * k + i, f i) := by
  simp only [List.mem_map, List.mem_range, eq_comm (a := p)]
  exact ⟨fun ⟨i, hi, e⟩ => ⟨t, i, rfl, hi, e⟩, fun ⟨k, i, hk, hi, e⟩ => ⟨i, hi, hk ▸ e⟩⟩

/-- Row i of the q-th tile of a wide tile that holds a list of elements. -/
def wideRow (xs : List Int) (q i : Nat) : Row := rowOf ((((xs.drop (128 * i)).take 128).map (Fp.wrapN 128)).map fun v => bitsN v (32 * q) 32)

theorem mem_wideRows (w : Nat) (xs : List Int) (p : Nat × Row) :
    p ∈ wideRows w xs ↔ ∃ k i, k / 4 = w ∧ i < 128 ∧ p = (128 * k + i, wideRow xs (k % 4) i) := by
  simp only [wideRows, List.mem_flatMap, List.mem_map, List.mem_range, eq_comm (a := p)]
  constructor
  · rintro ⟨i, hi, q, hq, rfl⟩
    refine ⟨4 * w + q, i, by omega, hi, ?_⟩
    rw [show (4 * w + q) % 4 = q by omega]
    rfl
  · rintro ⟨k, i, rfl, hi, rfl⟩
    refine ⟨i, hi, k % 4, by omega, ?_⟩
    rw [Nat.div_add_mod]
    rfl

/-! ### Elements of wide tiles (02 R48) -/

/-- Element j of a line of a list. -/
theorem getD_line (xs : List Int) (a : Nat) {j : Nat} (hj : j < 128) : ((xs.drop a).take 128).getD j 0 = xs.getD (a + j) 0 := by
  rw [List.getD_eq_getElem?_getD, List.getElem?_take_of_lt hj, List.getElem?_drop, ← List.getD_eq_getElem?_getD]

theorem rowElem_wideRow (xs : List Int) (q i : Nat) {j : Nat} (hj : j < 128) :
    rowElem (wideRow xs q i) j = bitsN (Fp.wrapN 128 (xs.getD (128 * i + j) 0)) (32 * q) 32 := by
  have zero : bitsN (Fp.wrapN 128 0) (32 * q) 32 = 0 := by simp [Fp.wrapN, bitsN]
  have elem : ((((xs.drop (128 * i)).take 128).map (Fp.wrapN 128)).map fun v => bitsN v (32 * q) 32).getD j 0 =
      bitsN (Fp.wrapN 128 (xs.getD (128 * i + j) 0)) (32 * q) 32 := by
    rw [List.map_map, ← getD_line xs _ hj, ← zero]
    exact List.getD_map ..
  rw [wideRow, rowElem_rowOf _ hj, elem, bitsN, Nat.mod_mod]

theorem signedOf_mod (n x : Nat) : Fp.signedOf n (x % 2 ^ n) = Fp.signedOf n x := by rw [Fp.signedOf, Fp.signedOf, Nat.mod_mod]

/-- Fields of 32 bits make up a number. -/
theorem foldl_fields (v n : Nat) : (List.range n).foldl (fun a q => a + bitsN v (32 * q) 32 * 2 ^ (32 * q)) 0 = v % 2 ^ (32 * n) := by
  induction n with
  | zero => simp [Nat.mod_one]
  | succ n ih =>
    have next := bitsN_add v 0 (32 * n) 32
    rw [bitsN, bitsN, Nat.pow_zero, Nat.div_one, Nat.zero_add] at next
    rw [List.range_succ, List.foldl_append, ih, Nat.mul_succ, next, Nat.mul_comm (2 ^ (32 * n))]
    rfl

/-- The four parts of an element make it up. -/
theorem wideElem_of_rows {m : MxSt} {w i j : Nat} {xs : List Int} (hj : j < 128) (h : ∀ q < 4, m.row (4 * w + q) i = wideRow xs q i) :
    wideElem m w i j = Fp.signedOf 128 (Fp.wrapN 128 (xs.getD (128 * i + j) 0)) := by
  have parts : (List.range 4).foldl (fun v q => v + rowElem (m.row (4 * w + q) i) j * 2 ^ (32 * q)) 0 =
      Fp.wrapN 128 (xs.getD (128 * i + j) 0) % 2 ^ (32 * 4) := by
    rw [← foldl_fields]
    exact List.foldl_ext _ _ _ fun a q hq => by rw [h q (List.mem_range.mp hq), rowElem_wideRow _ _ _ hj]
  rw [wideElem, parts]
  exact signedOf_mod 128 _

/-- An integer of n bits has the pattern that it is read from. -/
theorem wrapN_signedOf (n x : Nat) : Fp.wrapN n (Fp.signedOf n x) = x % 2 ^ n := by
  have pattern : ((x % 2 ^ n : Nat) : Int) % ((2 ^ n : Nat) : Int) = ((x % 2 ^ n : Nat) : Int) :=
    Int.emod_eq_of_lt (Int.natCast_nonneg _) (Int.ofNat_lt.mpr (Nat.mod_lt _ (Nat.two_pow_pos n)))
  unfold Fp.wrapN Fp.signedOf
  split
  · rw [pattern, Int.toNat_natCast]
  · rw [Int.sub_emod_right, pattern, Int.toNat_natCast]

theorem signedOf_wrapN_signedOf (n x : Nat) : Fp.signedOf n (Fp.wrapN n (Fp.signedOf n x)) = Fp.signedOf n x := by
  rw [wrapN_signedOf, signedOf_mod]

/-- The k-th of a number of chunks. -/
theorem chunks_getD (w n : Nat) (bs : List Byte) {k : Nat} (hk : k < n) : (chunks w n bs).getD k 0 = leVal ((bs.drop (w * k)).take w) := by
  induction n generalizing bs k with
  | zero => omega
  | succ n ih =>
    cases k with
    | zero => rfl
    | succ k =>
      rw [chunks, List.getD_cons_succ, ih _ (by omega), List.drop_drop, Nat.mul_succ, Nat.add_comm]

/-- The elements that a slot's bytes put into a wide tile. -/
theorem slotInts_getD (bs : List Byte) {k : Nat} (hk : k < 16384) :
    ((chunks 16 16384 bs).map (Fp.signedOf 128)).getD k 0 = Fp.signedOf 128 (leVal ((bs.drop (16 * k)).take 16)) := by
  rw [← chunks_getD 16 16384 bs hk]
  exact List.getD_map (d := 0) ..

/-! ### The merge of banks (07 R187) -/

/-- The keys of a table in canonical form. -/
theorem SMap.wfFrom_le {α : Type} [DecidableEq α] {d : α} {lo : Nat} {m : SMap α} (h : SMap.wfFrom d lo m = true) : ∀ p ∈ m, lo ≤ p.1 := by
  induction m generalizing lo with
  | nil => nofun
  | cons p t ih =>
    obtain ⟨k, v⟩ := p
    simp only [SMap.wfFrom, Bool.and_eq_true, decide_eq_true_eq] at h
    obtain ⟨⟨le, -⟩, tail⟩ := h
    intro q hq
    rcases List.mem_cons.mp hq with rfl | hq
    · exact le
    · exact le.trans (Nat.le_of_succ_le (ih tail q hq))

/-- A table changed by each entry of another, in canonical form: a relation that holds of a value with what an entry makes of it, and of a
value left alone with the default, holds at every key. -/
theorem SMap.get_merged {α : Type} [DecidableEq α] {d : α} {g : α → α → α} {R : α → α → α → Prop} (changed : ∀ x v, R x v (g x v))
    (kept : ∀ x, R x d x) {lo : Nat} {n : SMap α} (h : SMap.wfFrom d lo n = true) (m : SMap α) (k : Nat) :
    R (SMap.get d m k) (SMap.get d n k) (SMap.get d (n.foldl (fun m p => SMap.put d m p.1 (g (SMap.get d m p.1) p.2)) m) k) := by
  induction n generalizing lo m with
  | nil => exact kept _
  | cons p t ih =>
    obtain ⟨k', v⟩ := p
    simp only [SMap.wfFrom, Bool.and_eq_true, decide_eq_true_eq] at h
    obtain ⟨-, tail⟩ := h
    rw [List.foldl_cons]
    by_cases hk : k = k'
    · subst hk
      have above : ∀ p ∈ t, p.1 ≠ k := fun p hp => Nat.ne_of_gt (SMap.wfFrom_le tail p hp)
      rw [foldl_value_kept (g := fun m => SMap.get d m k) fun p hp m => SMap.get_put_ne _ _ _ _ _ (above p hp).symm, SMap.get_put, SMap.get,
        if_pos rfl]
      exact changed ..
    · rw [SMap.get, if_neg hk, ← SMap.get_put_ne d (g (SMap.get d m k') v) m k' k hk]
      exact ih tail _

/-- Counter x of a sum of cells. -/
theorem cellAdd_ctr (a b : BitVec 288) {x : Nat} (hx : x < 24) :
    cellCtr (cellAdd a b) x = Fp.signedOf 12 (Fp.wrapN 12 (cellCtr a x + cellCtr b x)) := by
  rw [cellAdd, cellCtr_cellOf _ hx, getD_map_range _ _ hx]

theorem cellCtr_zero (x : Nat) : cellCtr 0#288 x = 0 := by
  rw [cellCtr, BitVec.toNat_zero, bitsN, Nat.zero_div]
  rfl

/-- The banks after the merge of e into d; a merge that its checks refuse leaves them. -/
def mergedBanks (d e : Bank) : Bank × Bank :=
  match mergeBanks d e with
  | .ok p => p
  | .error _ => (d, e)

theorem mergedBanks_of_ok {d e : Bank} {p : Bank × Bank} (h : mergeBanks d e = .ok p) : mergedBanks d e = p := by rw [mergedBanks, h]

/-- What a merge leaves of the cells, counters and flags of both banks. -/
theorem mergedBanks_merged (d e : Bank) : Rules.Merged d e (mergedBanks d e).1 (mergedBanks d e).2 := by
  refine ⟨fun empty => ?_, fun filled fresh unscaled => ?_, fun filled scaled ea eb fits => ?_⟩
  · rw [mergedBanks_of_ok (if_pos empty)]
    exact ⟨rfl, rfl⟩
  · rw [mergedBanks_of_ok ((if_neg filled).trans (if_pos ⟨fresh, unscaled⟩))]
    exact ⟨rfl, rfl⟩
  · have same : d.sameScales e = true := by simp [Bank.sameScales, ea, eb]
    rw [mergedBanks_of_ok ((if_neg filled).trans ((if_neg (by simp [scaled])).trans ((if_neg (by simp [scaled, same])).trans
      (if_neg (Nat.not_lt.mpr fits)))))]
    refine ⟨rfl, rfl, scaled, rfl, rfl, rfl, fun wf i j x hi hj hx => ?_, fun wf k => ?_, fun wf k => ?_⟩
    · have kept : ∀ c, cellCtr c x = Fp.signedOf 12 (Fp.wrapN 12 (cellCtr c x + cellCtr 0#288 x)) := fun c => by
        rw [cellCtr_zero, Int.add_zero, cellCtr, signedOf_wrapN_signedOf]
      exact SMap.get_merged (R := fun a b s => cellCtr s x = Fp.signedOf 12 (Fp.wrapN 12 (cellCtr a x + cellCtr b x)))
        (fun a b => cellAdd_ctr a b hx) kept wf d.cnt (128 * i + j)
    · exact SMap.get_merged (R := fun a b s => s = a + b) (fun _ _ => rfl) (fun a => (BitVec.add_zero a).symm) wf d.kr k
    · exact SMap.get_merged (R := fun a b s => s = a + b) (fun _ _ => rfl) (fun a => (BitVec.add_zero a).symm) wf d.kc k

/-! ### A slot of the scratchpad -/

/-- Clearing a zero mark leaves every byte as it reads (09 R246). -/
theorem SpmSt.unmark_byte (m : SpmSt) (u a : Nat) : (m.unmark u).byte a = m.byte a := by
  unfold SpmSt.unmark
  split
  · next marked =>
    by_cases own : a / 64 = u
    · have here : 64 * u ≤ a ∧ a < 64 * u + (List.replicate 64 (0 : Byte)).length := by
        rw [List.length_replicate]; omega
      rw [SpmSt.byte, SpmSt.byte, own, if_pos marked, SpmSt.marked, SMap.get_put, Memory.setBytes_byte, if_pos here]
      exact (if_neg (by simp)).trans (List.getD_replicate _ (by omega))
    · have there : ¬(64 * u ≤ a ∧ a < 64 * u + (List.replicate 64 (0 : Byte)).length) := by
        rw [List.length_replicate]; omega
      simp only [SpmSt.byte, SpmSt.marked, SMap.get_put_ne _ _ _ _ _ own, Memory.setBytes_byte, if_neg there]
      rfl
  · rfl

theorem SpmSt.unmark_marked (m : SpmSt) (u : Nat) : (m.unmark u).marked u = false := by
  unfold SpmSt.unmark
  split
  · rw [SpmSt.marked, SMap.get_put]; rfl
  · next h => simpa using h

theorem SpmSt.setByte_byte (m : SpmSt) (a x : Nat) (b : Byte) : (m.setByte a b).byte x = if x = a then b else m.byte x := by
  have stored : (m.setByte a b).byte x = if (m.unmark (a / 64)).marked (x / 64) then 0 else
      Memory.byte (Memory.setByte (m.unmark (a / 64)).mem a b) x := rfl
  rw [stored]
  split
  · next marked =>
    have other : x ≠ a := by
      rintro rfl
      rw [SpmSt.unmark_marked] at marked
      cases marked
    rw [if_neg other, ← SpmSt.unmark_byte m (a / 64), SpmSt.byte, if_pos marked]
  · next live =>
    split
    · next same => rw [same, Memory.setByte_byte]
    · next other => rw [Memory.setByte_byte_ne _ _ _ _ other, ← SpmSt.unmark_byte m (a / 64) x, SpmSt.byte, if_neg live]

/-- Bytes written from an address upward, and every other byte as it was. -/
theorem SpmSt.setBytes_byte (m : SpmSt) (a x : Nat) (bs : List Byte) :
    (m.setBytes a bs).byte x = if a ≤ x ∧ x < a + bs.length then bs.getD (x - a) 0 else m.byte x := by
  induction bs generalizing m a with
  | nil => rw [if_neg (by rw [List.length_nil]; omega)]; rfl
  | cons b t ih =>
    rw [SpmSt.setBytes, ih, SpmSt.setByte_byte, List.length_cons]
    rcases Nat.lt_trichotomy x a with below | rfl | above
    · rw [if_neg (by omega), if_neg (by omega), if_neg (by omega)]
    · rw [if_neg (by omega), if_pos rfl, if_pos (by omega), Nat.sub_self]
      rfl
    · obtain ⟨k, rfl⟩ : ∃ k, x = a + (k + 1) := ⟨x - a - 1, by omega⟩
      rw [show a + (k + 1) - a = k + 1 by omega, show a + (k + 1) - (a + 1) = k by omega, List.getD_cons_succ, if_neg (by omega : ¬a + (k + 1) = a)]
      exact if_congr (by omega) rfl rfl

/-- A change of the other bank leaves a bank. -/
theorem Core.setBank_bank_first (c : Core) (k : BitVec 1) (b : Bank) : (c.setBank (1 - k.toNat) b).bank k.toNat = c.bank k.toNat := by
  obtain rfl | rfl : k = 0 ∨ k = 1 := by decide +revert
  · rfl
  · rfl

/-- What tiles hold depends on the accumulators alone. -/
theorem MxSt.row_congr {m m' : MxSt} (h : m'.acc = m.acc) (k i : Nat) : m'.row k i = m.row k i := congrArg (SMap.get 0 · (128 * k + i)) h

theorem wideElem_congr {m m' : MxSt} (h : m'.acc = m.acc) (w i j : Nat) : wideElem m' w i j = wideElem m w i j := by
  simp only [wideElem, MxSt.row_congr h]

/-! ### What a command writes (07 R181, R186 to R188, R192) -/

section
variable {c : Core} {r : MxRun}

theorem Core.retireWrites_azero {t : RegF} {a : BitVec 32} (op : r.cmd.op = .azero t a) (k : Nat) {i : Nat} (hi : i < 128) :
    (c.retireWrites r).mx.row k i = if k = t.toNat then 0 else c.mx.row k i := by
  simp only [Core.retireWrites, op]
  rw [putRows_row c.mx (mem_zeroRows _) k hi]
  exact if_congr List.mem_singleton rfl rfl

theorem Core.retireWrites_wzero {t : RegF} {a : BitVec 32} (op : r.cmd.op = .wzero t a) (k : Nat) {i : Nat} (hi : i < 128) :
    (c.retireWrites r).mx.row k i = if k / 4 = t.toNat then 0 else c.mx.row k i := by
  simp only [Core.retireWrites, op]
  rw [putRows_row c.mx (mem_zeroRows _) k hi]
  refine if_congr ?_ rfl rfl
  rw [List.mem_map]
  exact ⟨fun ⟨q, hq, e⟩ => by have := List.mem_range.mp hq; omega, fun e => ⟨k % 4, List.mem_range.mpr (by omega), by omega⟩⟩

theorem Core.retireWrites_ckctl {a : BitVec 32} (op : r.cmd.op = .ckctlOn a ∨ r.cmd.op = .ckctlDetect a ∨ r.cmd.op = .ckctlOff a) :
    c.retireWrites r = c := by
  rcases op with op | op | op <;> simp only [Core.retireWrites, op]

/-- aload of a narrow tile: the rows of its slot. -/
theorem Core.retireWrites_aload {t : RegF} {a : BitVec 32} (op : r.cmd.op = .aload 0 t a) (k : Nat) {i : Nat} (hi : i < 128) :
    (c.retireWrites r).mx.row k i = if k = t.toNat then
      BitVec.ofNat 4096 (leVal (((r.blocks.getD 0 ([], [], [], [])).1.drop (512 * i)).take 512)) else c.mx.row k i := by
  simp only [Core.retireWrites, op]
  exact putRows_row c.mx (mem_tileRows t.toNat fun i =>
    BitVec.ofNat 4096 (leVal (((r.blocks.getD 0 ([], [], [], [])).1.drop (512 * i)).take 512))) k hi

/-- A wide tile that takes a list of elements. -/
theorem putRows_wide (m : MxSt) (w : Nat) (xs : List Int) :
    (∀ i j, i < 128 → j < 128 → wideElem (putRows m (wideRows w xs)) w i j = Fp.signedOf 128 (Fp.wrapN 128 (xs.getD (128 * i + j) 0))) ∧
      ∀ k i, k / 4 ≠ w → i < 128 → (putRows m (wideRows w xs)).row k i = m.row k i := by
  refine ⟨fun i j hi hj => wideElem_of_rows hj fun q hq => ?_, fun k i hk hi => ?_⟩
  · rw [putRows_row m (mem_wideRows w xs) _ hi, if_pos (by omega), show (4 * w + q) % 4 = q by omega]
  · rw [putRows_row m (mem_wideRows w xs) _ hi, if_neg hk]

/-- aload of a wide tile: the elements of its slot. -/
theorem Core.retireWrites_aloadWide {t : RegF} {a : BitVec 32} (op : r.cmd.op = .aload 1 t a) :
    (∀ i j, i < 128 → j < 128 → wideElem (c.retireWrites r).mx t.toNat i j =
      Fp.signedOf 128 (leVal (((r.blocks.getD 0 ([], [], [], [])).1.drop (16 * (128 * i + j))).take 16))) ∧
    ∀ k i, k / 4 ≠ t.toNat → i < 128 → (c.retireWrites r).mx.row k i = c.mx.row k i := by
  have tiles : (c.retireWrites r).mx = putRows c.mx (wideRows t.toNat
      ((chunks 16 16384 (r.blocks.getD 0 ([], [], [], [])).1).map (Fp.signedOf 128))) := by
    simp only [Core.retireWrites, op]
    rfl
  have slot : ∀ k < 16384, Fp.signedOf 128 (Fp.wrapN 128
      (((chunks 16 16384 (r.blocks.getD 0 ([], [], [], [])).1).map (Fp.signedOf 128)).getD k 0)) =
      Fp.signedOf 128 (leVal (((r.blocks.getD 0 ([], [], [], [])).1.drop (16 * k)).take 16)) := fun k hk => by
    rw [slotInts_getD _ hk, signedOf_wrapN_signedOf]
  generalize (chunks 16 16384 (r.blocks.getD 0 ([], [], [], [])).1).map (Fp.signedOf 128) = xs at tiles slot
  obtain ⟨elems, others⟩ := putRows_wide c.mx t.toNat xs
  rw [tiles]
  exact ⟨fun i j hi hj => by rw [elems i j hi hj, slot _ (by omega)], others⟩

/-- wcvt: the elements worked out at its start. -/
theorem Core.retireWrites_wcvt {t : RegF} {a : BitVec 32} {m : MxSt} {f : FmtWord} (op : r.cmd.op = .wcvt t a)
    (rows : r.rows = wcvtRows m t.toNat f) :
    (∀ i j, i < 128 → j < 128 → rowElem ((c.retireWrites r).mx.row t.toNat i) j = wideToF32 (wideElem m f.wsrc i j) f.anchor f.rm % 2 ^ 32) ∧
    ∀ k i, k ≠ t.toNat → i < 128 → (c.retireWrites r).mx.row k i = c.mx.row k i := by
  have next : c.retireWrites r = { c with mx := putRows c.mx (wcvtRows m t.toNat f) } := by
    simp only [Core.retireWrites, op, rows]
  have row := fun k i (hi : i < 128) => putRows_row c.mx (mem_tileRows t.toNat fun i =>
    rowOf ((List.range 128).map fun j => wideToF32 (wideElem m f.wsrc i j) f.anchor f.rm)) k hi
  rw [next]
  refine ⟨fun i j hi hj => ?_, fun k i hk hi => (row k i hi).trans (if_neg hk)⟩
  have elem := (row t.toNat i hi).trans (if_pos rfl)
  rw [← getD_map_range (fun j => wideToF32 (wideElem m f.wsrc i j) f.anchor f.rm) 0 hj, ← rowElem_rowOf _ hj]
  exact congrArg (rowElem · j) elem

/-- mdrain: the elements worked out at its start, and its bank drained, with its HOLD. -/
theorem Core.retireWrites_mdrain {k : BitVec 1} {t : RegF} {a : BitVec 32} {b : Bank} {xs : List Int} (op : r.cmd.op = .mdrain k t a)
    (bank : r.bank = some b) (rows : r.rows = wideRows t.toNat xs) :
    (∀ i j, i < 128 → j < 128 →
      wideElem (c.retireWrites r).mx t.toNat i j = Fp.signedOf 128 (Fp.wrapN 128 (xs.getD (128 * i + j) 0))) ∧
    (∀ m i, m / 4 ≠ t.toNat → i < 128 → (c.retireWrites r).mx.row m i = c.mx.row m i) ∧
    (c.retireWrites r).bank k.toNat = { b with hold := (c.bank k.toNat).hold } ∧
    (c.retireWrites r).bank (1 - k.toNat) = c.bank (1 - k.toNat) := by
  obtain ⟨elems, others⟩ := putRows_wide c.mx t.toNat xs
  obtain ⟨acc, banks⟩ := putRows_eq c.mx (wideRows t.toNat xs)
  have next : c.retireWrites r = ({ c with mx := putRows c.mx (wideRows t.toNat xs) } : Core).setBank k.toNat
      { b with hold := (c.bank k.toNat).hold } := by
    simp only [Core.retireWrites, op, bank, rows]
  have tiles : (c.retireWrites r).mx.acc = (putRows c.mx (wideRows t.toNat xs)).acc := by rw [next, Core.setBank_acc]
  refine ⟨fun i j hi hj => ?_, fun m i hm hi => ?_, ?_, ?_⟩
  · rw [wideElem_congr tiles, elems i j hi hj]
  · rw [MxSt.row_congr tiles, others m i hm hi]
  · rw [next, Core.setBank_bank]
  · rw [next, Core.setBank_bank_other, banks]
    rfl

/-- bload: the bank of its image. -/
theorem Core.retireWrites_bload {k : BitVec 1} {a : BitVec 32} {b : Bank} (op : r.cmd.op = .bload k a) (bank : r.bank = some b) :
    (c.retireWrites r).bank k.toNat = b ∧ (c.retireWrites r).bank (1 - k.toNat) = c.bank (1 - k.toNat) ∧
      (c.retireWrites r).mx.acc = c.mx.acc := by
  have next : c.retireWrites r = c.setBank k.toNat b := by simp only [Core.retireWrites, op, bank]
  rw [next]
  exact ⟨Core.setBank_bank .., Core.setBank_bank_other .., Core.setBank_acc ..⟩

/-- mmerge: the merged banks. -/
theorem Core.retireWrites_mmerge {k : BitVec 1} {a : BitVec 32} (op : r.cmd.op = .mmerge k a) :
    Rules.Merged (c.bank k.toNat) (c.bank (1 - k.toNat)) ((c.retireWrites r).bank k.toNat) ((c.retireWrites r).bank (1 - k.toNat)) ∧
      (c.retireWrites r).mx.acc = c.mx.acc := by
  have merged := mergedBanks_merged (c.bank k.toNat) (c.bank (1 - k.toNat))
  simp only [Core.retireWrites, op]
  rw [mergedBanks] at merged
  split at merged
  · next p ok =>
    obtain ⟨d, e⟩ := p
    simp only [ok]
    rw [Core.setBank_bank_first, Core.setBank_bank, Core.setBank_bank, Core.setBank_acc, Core.setBank_acc]
    exact ⟨merged, rfl⟩
  · next ok =>
    simp only [ok]
    exact ⟨merged, trivial⟩

/-- astore and bsave: their slot. -/
theorem Core.retireWrites_stores {rg idx : Nat} (op : (∃ w t a, r.cmd.op = .astore w t a) ∨ ∃ k a, r.cmd.op = .bsave k a)
    (slot : r.wslot = some (rg, idx)) :
    c.retireWrites r = c.setSpm ((c.mx.ring rg).slotAddr idx) (r.blocks.getD 0 ([], [], [], [])).1 := by
  rcases op with ⟨w, t, a, op⟩ | ⟨k, a, op⟩ <;> simp only [Core.retireWrites, op, slot]

end

/-! ### The end of a run (07 R173, R181) -/

/-- What the run of a retired command leaves to come: its slots popped and their reservations released, its written slot filled, its count;
and the run is gone. -/
def Core.runRetired (c : Core) (due id : Nat) (r : MxRun) : Core :=
  let c := r.slots.foldl (fun (c : Core) p => (c.later due (.ringPop p.1 r.nb)).later due (.ringRsv p.1 false r.nb)) c
  let c := match r.wslot with
    | some p => (c.later due (.ringFill p.1 1)).later due (.ringWsv p.1 false 1)
    | none => c
  let c := c.later due (.engRetire engMxe)
  { c with mx := { c.mx with runs := c.mx.runs.filter fun x => x.cmd.id ≠ id } }

theorem State.retireRun_eq {s : State} {n id : Nat} {r : MxRun} (h : (s.core n).run? id = some r) (hf : r.fault = none) :
    s.retireRun n id = s.setCore n (((s.core n).retireWrites r).runRetired (s.stc + 1) id r) := by
  simp only [State.retireRun, h, hf]
  rfl

/-- A core with more effects under way. -/
def Core.Later (c d : Core) : Prop := ∃ pend, d = { c with pend := pend } ∧ ∀ p ∈ c.pend, p ∈ pend

theorem Core.Later.refl (c : Core) : c.Later c := ⟨c.pend, rfl, fun _ h => h⟩

theorem Core.Later.trans {c d e : Core} (h : c.Later d) (k : d.Later e) : c.Later e := by
  obtain ⟨pend, rfl, more⟩ := h
  obtain ⟨pend', rfl, more'⟩ := k
  exact ⟨pend', rfl, fun p hp => more' p (more p hp)⟩

theorem Core.Later.pend {c d : Core} (h : c.Later d) {p : Pend} (hp : p ∈ c.pend) : p ∈ d.pend := by
  obtain ⟨pend, rfl, more⟩ := h
  exact more p hp

theorem Core.later_later (c : Core) (due : Nat) (e : Eff) : c.Later (c.later due e) := ⟨_, rfl, fun _ hp => (mem_insPend ..).mpr (.inr hp)⟩

theorem Core.later_mem (c : Core) (due : Nat) (e : Eff) : ⟨due, e⟩ ∈ (c.later due e).pend := (mem_insPend ..).mpr (.inl rfl)

/-- The slots that a run read are popped. -/
theorem foldl_ringPop (due nb : Nat) (slots : List (Nat × Nat)) (c : Core) :
    let d := slots.foldl (fun (c : Core) p => (c.later due (.ringPop p.1 nb)).later due (.ringRsv p.1 false nb)) c
    c.Later d ∧ ∀ p ∈ slots, ⟨due, .ringPop p.1 nb⟩ ∈ d.pend := by
  induction slots generalizing c with
  | nil => exact ⟨.refl c, nofun⟩
  | cons p t ih =>
    obtain ⟨later, pops⟩ := ih ((c.later due (.ringPop p.1 nb)).later due (.ringRsv p.1 false nb))
    refine ⟨((c.later_later ..).trans (Core.later_later ..)).trans later, fun q hq => ?_⟩
    rcases List.mem_cons.mp hq with rfl | hq
    · exact later.pend ((Core.later_later ..).pend (Core.later_mem ..))
    · exact pops q hq

/-- The engine's count falls, the slots read are popped and the slot written is filled; of the core nothing else changes but its runs. -/
theorem Core.runRetired_spec (c : Core) (due id : Nat) (r : MxRun) : ∃ pend,
    c.runRetired due id r = { c with pend := pend, mx := { c.mx with runs := c.mx.runs.filter fun x => x.cmd.id ≠ id } } ∧
      ⟨due, .engRetire engMxe⟩ ∈ pend ∧ (∀ p ∈ r.slots, ⟨due, .ringPop p.1 r.nb⟩ ∈ pend) ∧
      ∀ rg idx, r.wslot = some (rg, idx) → ⟨due, .ringFill rg 1⟩ ∈ pend := by
  obtain ⟨popped, pops⟩ := foldl_ringPop due r.nb r.slots c
  unfold Core.runRetired
  dsimp only
  generalize r.slots.foldl (fun (c : Core) p => (c.later due (.ringPop p.1 r.nb)).later due (.ringRsv p.1 false r.nb)) c = d at popped pops
  have written : ∃ e, (match r.wslot with
      | some p => (d.later due (.ringFill p.1 1)).later due (.ringWsv p.1 false 1)
      | none => d) = e ∧ d.Later e ∧ ∀ rg idx, r.wslot = some (rg, idx) → ⟨due, .ringFill rg 1⟩ ∈ e.pend := by
    cases r.wslot with
    | none => exact ⟨d, rfl, .refl d, nofun⟩
    | some p =>
      refine ⟨_, rfl, (d.later_later ..).trans (Core.later_later ..), fun rg idx e => ?_⟩
      cases e
      exact (Core.later_later ..).pend (Core.later_mem ..)
  obtain ⟨e, next, filled, fills⟩ := written
  rw [next]
  obtain ⟨pend, whole, -⟩ := (popped.trans filled).trans (e.later_later due (.engRetire engMxe))
  have pend_eq : (e.later due (.engRetire engMxe)).pend = pend := by rw [whole]
  rw [whole]
  refine ⟨pend, rfl, ?_, fun p hp => ?_, fun rg idx hr => ?_⟩ <;> rw [← pend_eq]
  · exact e.later_mem ..
  · exact (e.later_later ..).pend (filled.pend (pops p hp))
  · exact (e.later_later ..).pend (fills rg idx hr)

/-- A retired run is gone. -/
theorem Core.run?_filtered {c : Core} {runs : List MxRun} {id : Nat} (h : c.mx.runs = runs.filter fun x => x.cmd.id ≠ id) :
    c.run? id = none := by
  rw [Core.run?, h, List.find?_eq_none]
  intro x hx
  simpa using (List.mem_filter.mp hx).2

/-- The retirement of a command that met no fault: what it writes, and what follows from its run. -/
theorem matrixRetire_retires {s : State} {n id : Nat} {r : MxRun} (h : (s.core n).run? id = some r) (hf : r.fault = none) :
    ∃ u l, exec (.matrixRetire n id) s = .next u ∧ (u.core n).run? id = none ∧ ⟨s.stc + 1, .engRetire engMxe⟩ ∈ (u.core n).pend ∧
      (∀ p ∈ r.slots, ⟨s.stc + 1, .ringPop p.1 r.nb⟩ ∈ (u.core n).pend) ∧
      (∀ rg idx, r.wslot = some (rg, idx) → ⟨s.stc + 1, .ringFill rg 1⟩ ∈ (u.core n).pend) ∧
      (u.core n).mx = { ((s.core n).retireWrites r).mx with runs := l } ∧ (u.core n).spm = ((s.core n).retireWrites r).spm ∧ u.dram = s.dram := by
  obtain ⟨pend, core, counts, pops, fills⟩ := ((s.core n).retireWrites r).runRetired_spec (s.stc + 1) id r
  have next := State.retireRun_eq h hf
  rw [core] at next
  refine ⟨_, ((s.core n).retireWrites r).mx.runs.filter fun x => x.cmd.id ≠ id, congrArg Host.Outcome.next next, ?_⟩
  rw [State.setCore_core]
  exact ⟨Core.run?_filtered rfl, counts, pops, fills, rfl, rfl, rfl⟩

/-- Settles O27: the retirement of a run, and what each command writes. -/
theorem matrixRetirement : Obligations.MatrixRetirement := by
  unfold Obligations.MatrixRetirement
  intro s n id r h hf
  obtain ⟨u, l, next, gone, counts, pops, fills, mx, spm, dram⟩ := matrixRetire_retires h hf
  have acc : (u.core n).mx.acc = ((s.core n).retireWrites r).mx.acc := by rw [mx]
  have row := MxSt.row_congr acc
  have bank : ∀ k, (u.core n).bank k = ((s.core n).retireWrites r).bank k := fun k => by rw [Core.bank, Core.bank, mx]
  have elem := wideElem_congr acc
  refine ⟨u, next, gone, counts, pops, fun t a op k i hi => ?_, fun t a op k i hi => ?_, fun ⟨a, op⟩ => ?_,
    ⟨fun t a op k i hi => ?_, fun t a op => ?_, fun t a m f op rows => ?_, fun k t a b xs op held rows _ => ?_, fun k a b op held => ?_,
      fun k a op => ?_, fun op rg idx slot => ?_⟩, dram⟩
  · rw [row]; exact Core.retireWrites_azero op k hi
  · rw [row]; exact Core.retireWrites_wzero op k hi
  · rw [acc, Core.retireWrites_ckctl op]
  · rw [row]; exact Core.retireWrites_aload op k hi
  · simp only [row, elem]; exact Core.retireWrites_aloadWide op
  · simp only [row]; exact Core.retireWrites_wcvt op rows
  · simp only [row, elem, bank]; exact Core.retireWrites_mdrain op held rows
  · rw [bank, bank, acc]; exact Core.retireWrites_bload op held
  · rw [bank, bank, acc]; exact Core.retireWrites_mmerge op
  · rw [Core.retireWrites_stores op slot] at spm mx
    refine ⟨fun a => ?_, fills rg idx slot, ?_, ?_, ?_⟩
    · rw [spm]; exact SpmSt.setBytes_byte ..
    · rw [mx]; rfl
    · rw [mx]; rfl
    · rw [mx]; rfl

end Sys2Proof.Machine

/-! SUPPORT. The stamp of a switch's event (08 R215, R216; 13 R335). -/

namespace Sys2Proof.Machine

-- one after another: every waiting worker thread counts towards the check's memory limit
set_option Elab.async false

/-- C of core 0 comes to a publish of the byte at 0, of a page that the task shadows. -/
def shadowedPublish : State :=
  { State.reset with
    stc := 1000, turn := ⟨0, .c, ⟨0, 0, 0⟩⟩,
    cores := [(0, { c := { mode := .run, regs := [(2, 1)] },
                    tsk := { shadows := [{ va := 0, pa := 0, size := 65536, mem := [], version := none }] } })] }

/-- The switch carries the stamp of its publish. -/
theorem shadowedPublish_stamped {u : State} (run : exec (.publishBuf 1 2 0) shadowedPublish = .next u) :
    u.agenda.map (·.key.stc) = [1000] := by
  rw [← Host.Outcome.next.inj (show Host.Outcome.next _ = Host.Outcome.next u from run)]
  rfl

/-- Refutes O34: the clause of the publish asks for the switch's event with an empty stamp; it carries that of the publish, by which the
switches of one cycle are ordered. -/
theorem not_publishing : ¬ Obligations.Publishing := by
  unfold Obligations.Publishing
  rintro ⟨publish, -⟩
  obtain ⟨-, switches⟩ := publish shadowedPublish _ 1 2 0 rfl ⟨_, rfl, rfl⟩ (fun _ => rfl) ⟨rfl, rfl⟩ rfl rfl
  obtain ⟨u, p, run, -, -, -, -, -, -, event, -⟩ := switches (by decide +kernel)
  have unstamped : 0 ∈ u.agenda.map (·.key.stc) := List.mem_map.mpr ⟨_, event, rfl⟩
  rw [shadowedPublish_stamped run] at unstamped
  exact absurd unstamped (by decide)

end Sys2Proof.Machine

/-! SUPPORT. The retirement of an rwclose releases the pins of the task that opened its window (08 R222, R225). -/

namespace Sys2Proof.Machine

-- one after another: every waiting worker thread counts towards the check's memory limit
set_option Elab.async false

/-- An rwclose at work on core 0, of a window that the task on core 1 opened. -/
def windowClosing : Cmd :=
  { id := 4, eng := engCle, q := .c, op := .rwclose 3 2 0, issued := 900, dst := 3, dst2 := 64, obj := 9, pins := [5], slot := some false }

/-- That command on core 0, and on core 1 the task with the page pinned. -/
def closingElsewhere : State :=
  { State.reset with
    stc := 1000, cores := [(0, { cmds := [windowClosing] }), (1, { tsk := { task := some 9, pins := [(5, 1)] } })] }

/-- At its retirement the pin on core 1 falls. -/
theorem closingElsewhere_pins {u : State} (run : exec (.atomicResultReturn 0 4) closingElsewhere = .next u) : (u.core 1).tsk.pins = [] := by
  rw [← Host.Outcome.next.inj (show Host.Outcome.next _ = Host.Outcome.next u from run)]
  rfl

/-- Refutes O36: the first clause leaves every other core as it was, but an rwclose that retires releases the pins of the task that
opened the window, wherever that runs. -/
theorem not_atomicsReturn : ¬ Obligations.AtomicsReturn := by
  unfold Obligations.AtomicsReturn
  rintro ⟨returns, -⟩
  obtain ⟨u, run, -, -, -, -, others⟩ := returns closingElsewhere 0 4 windowClosing rfl (by decide) rfl (.inr ⟨nofun, rfl⟩)
  have kept : (u.core 1).tsk.pins = [(5, 1)] := by rw [others 1 (by decide)]; rfl
  rw [closingElsewhere_pins run] at kept
  cases kept

end Sys2Proof.Machine

/-! SUPPORT. Words that make an access or a command (08 R201, R203, R205): when they go on, what their parts leave unchanged, the command
that the engine takes, and its first request to a bank. -/

namespace Sys2Proof.Machine

-- one after another: every waiting worker thread counts towards the check's memory limit
set_option Elab.async false

/-! ### When a word goes on -/

/-- With its registers free and nothing in the way of its access, a word goes on. -/
theorem State.RegsFree.access {t : State} {rs : List RegF} (hf : t.RegsFree rs) (ha : Rules.AccessFree t) {rel : Bool}
    (hr : rel = true → t.cur.allPerformed t.turn.q = true) (body : State → Res) :
    t.interlock rs (fun u => u.access rel body) t = body t := by
  obtain ⟨acquire, marker⟩ := ha
  rw [hf.interlock, State.access, acquire, marker]
  cases rel
  · rfl
  · rw [hr rfl]; rfl

/-- The same of a word that is no release. -/
theorem State.RegsFree.mem {t : State} {rs : List RegF} (hf : t.RegsFree rs) (ha : Rules.AccessFree t) (body : State → Res) :
    t.interlock rs (fun u => u.access false body) t = body t := hf.access ha (absurd · Bool.false_ne_true) body

/-- A word whose access may go on issues with what its effect leaves, -/
theorem State.Begins.accessDone {s t v : State} {k : Kind} {i : Instr} {rs : List RegF} {rel : Bool} {body : State → Res}
    (hi : exec i s = .next (s.issue k fun u => u.interlock rs (fun w => w.access rel body) u)) (h : s.Begins k t) (hf : t.RegsFree rs)
    (ha : Rules.AccessFree t) (hr : rel = true → t.cur.allPerformed t.turn.q = true) (hb : body t = .done v) :
    exec i s = .next (v.finishIssue k s.settled.cur.vec.skip none (s.curSeq.pc + 1#14)) :=
  hi.trans (congrArg Host.Outcome.next (h.done ((hf.access ha hr body).trans hb)))

/-- or takes its trap; the flag says whether AUDIT survives it. -/
theorem State.Begins.accessTrap {s t : State} {k : Kind} {i : Instr} {rs : List RegF} {rel : Bool} {body : State → Res} {c : Cause} {b : Bool}
    (hi : exec i s = .next (s.issue k fun u => u.interlock rs (fun w => w.access rel body) u)) (h : s.Begins k t) (hf : t.RegsFree rs)
    (ha : Rules.AccessFree t) (hr : rel = true → t.cur.allPerformed t.turn.q = true) (hb : body t = .trap c 0 b) :
    exec i s = .next ((if k.audit && b then s.settled.setAudit s.settled.turn.core else s.settled).wordTrap c 0) :=
  hi.trans (congrArg Host.Outcome.next (by rw [h.issue, hf.access ha hr body, hb]; rfl))

/-! ### What the parts of a word leave -/

/-- One state follows another within a word: the turn, the cycle, DRAM, the scratchpad, the registers, where the stream stands and the other
cores stay, and no command, bank request or event is lost. -/
structure State.Extends (t v : State) : Prop where
  turn : v.turn = t.turn
  stc : v.stc = t.stc
  dram : v.dram = t.dram
  pc : v.curSeq.pc = t.curSeq.pc
  regs : v.curSeq.regs = t.curSeq.regs
  sys : v.cur.sys = t.cur.sys
  spm : v.cur.spm = t.cur.spm
  others : ∀ k, k ≠ t.turn.core → v.core k = t.core k
  cmds : ∀ m ∈ t.cur.cmds, m ∈ v.cur.cmds
  reqs : ∀ r ∈ t.cur.reqs, r ∈ v.cur.reqs
  agenda : ∀ j ∈ t.agenda, j ∈ v.agenda

theorem State.Extends.refl (t : State) : t.Extends t :=
  ⟨rfl, rfl, rfl, rfl, rfl, rfl, rfl, fun _ _ => rfl, fun _ => id, fun _ => id, fun _ => id⟩

theorem State.Extends.trans {t v w : State} (h : t.Extends v) (k : v.Extends w) : t.Extends w :=
  ⟨k.turn.trans h.turn, k.stc.trans h.stc, k.dram.trans h.dram, k.pc.trans h.pc, k.regs.trans h.regs, k.sys.trans h.sys, k.spm.trans h.spm,
    fun n hn => (k.others n (h.turn ▸ hn)).trans (h.others n hn), fun m hm => k.cmds m (h.cmds m hm),
    fun r hr => k.reqs r (h.reqs r hr), fun j hj => k.agenda j (h.agenda j hj)⟩

/-- It reads its registers alike. -/
theorem State.Extends.rd {t v : State} (h : t.Extends v) (r : RegF) : v.rd r = t.rd r := by
  rw [State.rd, SeqSt.reg, h.regs]; rfl

/-- A change of the core of the turn that keeps its registers, where the stream stands, system registers, scratchpad, commands and requests. -/
theorem State.modCur_extends (t : State) {f : Core → Core} (hp : ((f t.cur).seq t.turn.q).pc = t.curSeq.pc)
    (hg : ((f t.cur).seq t.turn.q).regs = t.curSeq.regs) (hs : (f t.cur).sys = t.cur.sys)
    (hm : (f t.cur).spm = t.cur.spm) (hc : ∀ m ∈ t.cur.cmds, m ∈ (f t.cur).cmds) (hr : ∀ r ∈ t.cur.reqs, r ∈ (f t.cur).reqs) :
    t.Extends (t.modCur f) := by
  refine ⟨rfl, rfl, rfl, ?_, ?_, ?_, ?_, fun k hk => State.modCore_core_ne _ _ _ _ hk, ?_, ?_, fun _ => id⟩
  · rw [State.curSeq, State.modCur_cur, State.modCur_turn, hp]
  · rw [State.curSeq, State.modCur_cur, State.modCur_turn, hg]
  · rw [State.modCur_cur, hs]
  · rw [State.modCur_cur, hm]
  · rw [State.modCur_cur]; exact hc
  · rw [State.modCur_cur]; exact hr

/-- One that keeps the stream whole. -/
theorem State.modCur_extends_seq (t : State) {f : Core → Core} (hq : (f t.cur).seq t.turn.q = t.curSeq) (hs : (f t.cur).sys = t.cur.sys)
    (hm : (f t.cur).spm = t.cur.spm) (hc : ∀ m ∈ t.cur.cmds, m ∈ (f t.cur).cmds) (hr : ∀ r ∈ t.cur.reqs, r ∈ (f t.cur).reqs) :
    t.Extends (t.modCur f) := t.modCur_extends (by rw [hq]) (by rw [hq]) hs hm hc hr

theorem State.placed_extends (t : State) (j : Job) : t.Extends { t with agenda := insJob j t.agenda } :=
  ⟨rfl, rfl, rfl, rfl, rfl, rfl, rfl, fun _ _ => rfl, fun _ => id, fun _ => id, fun _ hj => (mem_insJob ..).mpr (.inr hj)⟩

theorem State.sched_extends (t : State) (due ph : Nat) (ev : Instr) : t.Extends (t.sched due ph ev) := t.placed_extends _
theorem State.schedInp_extends (t : State) (due ph : Nat) (ev : Instr) (i : Input) : t.Extends (t.schedInp due ph ev i) := t.placed_extends _
theorem State.schedMem_extends (t : State) (due : Nat) (ev : Instr) (st : Stamp) : t.Extends (t.schedMem due ev st) := t.placed_extends _

theorem State.drawLat_extends (t : State) : t.Extends t.drawLat.2 :=
  ⟨rfl, rfl, rfl, rfl, rfl, rfl, rfl, fun _ _ => rfl, fun _ => id, fun _ => id, fun _ => id⟩

theorem State.fresh_extends (t : State) : t.Extends t.fresh.2 :=
  ⟨rfl, rfl, rfl, rfl, rfl, rfl, rfl, fun _ _ => rfl, fun _ => id, fun _ => id, fun _ => id⟩

theorem State.schedMemFree_extends (t : State) (ev : Instr) (st : Stamp) : t.Extends (t.schedMemFree ev st) :=
  t.drawLat_extends.trans (State.schedMem_extends ..)
theorem State.schedFree_extends (t : State) (ph : Nat) (ev : Instr) : t.Extends (t.schedFree ph ev) :=
  t.drawLat_extends.trans (State.sched_extends ..)
theorem State.schedInpFree_extends (t : State) (ph : Nat) (ev : Instr) (i : Input) : t.Extends (t.schedInpFree ph ev i) :=
  t.drawLat_extends.trans (State.schedInp_extends ..)

/-- What is placed stands in the agenda. -/
theorem State.mem_schedMem (t : State) (due : Nat) (ev : Instr) (st : Stamp) : ⟨due, phMemory, ev, {}, st⟩ ∈ (t.schedMem due ev st).agenda :=
  (mem_insJob ..).mpr (.inl rfl)

/-- An event placed after an open latency falls due later (log 4). -/
theorem State.mem_schedMemFree (t : State) (ev : Instr) (st : Stamp) :
    ∃ j ∈ (t.schedMemFree ev st).agenda, t.stc < j.due ∧ j.ev = ev :=
  ⟨_, t.drawLat.2.mem_schedMem _ ev st, Nat.lt_add_of_pos_right (Nat.succ_pos _), rfl⟩

theorem State.mem_schedFree (t : State) (ph : Nat) (ev : Instr) : ∃ j ∈ (t.schedFree ph ev).agenda, t.stc < j.due ∧ j.ev = ev :=
  ⟨_, (mem_insJob ..).mpr (.inl rfl), Nat.lt_add_of_pos_right (Nat.succ_pos _), rfl⟩

theorem State.mem_schedInpFree (t : State) (ph : Nat) (ev : Instr) (i : Input) :
    ∃ j ∈ (t.schedInpFree ph ev i).agenda, t.stc < j.due ∧ j.ev = ev ∧ j.inp = i :=
  ⟨_, (mem_insJob ..).mpr (.inl rfl), Nat.lt_add_of_pos_right (Nat.succ_pos _), rfl, rfl⟩

theorem Core.drawSeq_seq (c : Core) (unit : Nat) (q : Seq) : (c.drawSeq unit).seq q = c.seq q := by cases q <;> rfl

theorem State.stampFor_extends {t : State} {n : Nat} (unit : Nat) (hn : n = t.turn.core := by rfl) : t.Extends (t.stampFor n unit).2 := by
  subst hn
  exact t.modCur_extends_seq (f := fun c => c.drawSeq unit) (Core.drawSeq_seq ..) rfl rfl (fun _ => id) fun _ => id

theorem Core.pin_seq (c : Core) (ks : List Nat) (q : Seq) : (c.pin ks).seq q = c.seq q := by cases q <;> rfl

theorem State.pin_extends (t : State) (ks : List Nat) : t.Extends (t.modCur fun c => c.pin ks) :=
  t.modCur_extends_seq (Core.pin_seq ..) rfl rfl (fun _ => id) fun _ => id

theorem State.sqPop_extends (t : State) (q : RegF) : t.Extends (t.sqPop q) :=
  t.modCur_extends_seq (by rw [State.curSeq]; cases t.turn.q <;> rfl) rfl rfl (fun _ => id) fun _ => id

/-- Within one word, an acquire that begins holds the stream where it stands. -/
theorem State.holdLater_extends (t : State) (acq : Bool) (id' : Nat) : t.Extends (t.holdLater acq id') := by
  cases acq
  · exact .refl t
  · exact t.modCur_extends (f := fun c => c.modSeq t.turn.q fun x => { x with acquire := some id' }) (by rw [Core.modSeq_seq]; rfl)
      (by rw [Core.modSeq_seq]; rfl)
      (Core.modSeq_sys ..) (Core.modSeq_spm ..) (fun m hm => by rwa [Core.modSeq_cmds]) fun r hr => by rwa [Core.modSeq_reqs]

/-! ### A command is accepted -/

/-- The core that takes a command in a cycle: its number, the engine's count raised. -/
def Core.accept (c : Core) (now : Nat) (m : Cmd) : Core :=
  let d := { c with cmds := c.cmds ++ [{ m with id := c.nextCmd, issued := now }], nextCmd := c.nextCmd + 1 }
  if m.eng < 7 then d.modEngine m.eng fun x => { x with out := x.out + 1 } else d

theorem State.addCmd_eq (t : State) (n : Nat) (m : Cmd) : t.addCmd n m = ((t.core n).nextCmd, t.modCore n fun c => c.accept t.stc m) := rfl

theorem Core.accept_frame (c : Core) (now : Nat) (m : Cmd) :
    (c.accept now m).cmds = c.cmds ++ [{ m with id := c.nextCmd, issued := now }] ∧ (c.accept now m).sys = c.sys ∧
      (c.accept now m).spm = c.spm ∧ (c.accept now m).reqs = c.reqs ∧ (c.accept now m).tsk = c.tsk ∧ (c.accept now m).pend = c.pend ∧
      ∀ q, (c.accept now m).seq q = c.seq q := by
  unfold Core.accept
  dsimp only
  split
  all_goals exact ⟨rfl, rfl, rfl, rfl, rfl, rfl, fun q => by cases q <;> rfl⟩

theorem Core.accept_out (c : Core) (now : Nat) {m : Cmd} (h : m.eng < 7) :
    ((c.accept now m).engine m.eng).out = (c.engine m.eng).out + 1 := by
  simp [Core.accept, h, Core.modEngine, Core.engine]

theorem State.addCmd_cur (t : State) (m : Cmd) : (t.addCmd t.turn.core m).2.cur = t.cur.accept t.stc m :=
  State.modCore_core t t.turn.core fun c => c.accept t.stc m

theorem State.addCmd_extends {t : State} {n : Nat} (m : Cmd) (hn : n = t.turn.core := by rfl) : t.Extends (t.addCmd n m).2 := by
  subst hn
  obtain ⟨cmds, sys, spm, reqs, -, -, seq⟩ := t.cur.accept_frame t.stc m
  exact t.modCur_extends_seq (f := fun c => c.accept t.stc m) (seq _) sys spm
    (fun x hx => by rw [cmds]; exact List.mem_append_left _ hx) (fun r hr => by rwa [reqs])

/-- The command as it was accepted, by its number. -/
theorem State.mem_addCmd {t : State} {n : Nat} (m : Cmd) (hn : n = t.turn.core := by rfl) :
    { m with id := (t.addCmd n m).1, issued := t.stc } ∈ (t.addCmd n m).2.cur.cmds := by
  subst hn
  rw [State.addCmd_cur, (Core.accept_frame ..).1]
  exact List.mem_append_right _ (List.mem_singleton.mpr rfl)

/-! ### The first request of a command to its bank (08 Table 8.4) -/

/-- The first access of a command asks its bank in the next cycle. -/
theorem State.firstRow_extends {t : State} {n : Nat} (m : Cmd) (id' rank addr len : Nat) (hn : n = t.turn.core := by rfl) :
    t.Extends (t.firstRow n m id' rank addr len) := by
  subst hn
  exact t.modCur_extends_seq (by rw [State.curSeq]; cases t.turn.q <;> rfl) rfl rfl (fun _ => id) fun _ hr => List.mem_append_left _ hr

theorem State.mem_firstRow {t : State} {n : Nat} (m : Cmd) (id' rank addr len : Nat) (hn : n = t.turn.core := by rfl) :
    ⟨t.stc + 1, rank, id', m.rows, addr, len⟩ ∈ (t.firstRow n m id' rank addr len).cur.reqs := by
  subst hn
  rw [State.firstRow, State.cur, State.modCore_turn, State.modCore_core]
  exact List.mem_append_right _ (List.mem_singleton.mpr rfl)

theorem State.firstRow_cur (t : State) (m : Cmd) (id' rank addr len : Nat) :
    (t.firstRow t.turn.core m id' rank addr len).cur = { t.cur with reqs := t.cur.reqs ++ [⟨t.stc + 1, rank, id', m.rows, addr, len⟩] } :=
  State.modCore_core t _ _

/-- A scratchpad command that its engine has room for: it is accepted, and its first access asks its bank in the next cycle. -/
theorem State.startSpm_starts (t : State) (m : Cmd) (room : m.eng < 7 → (t.cur.cmds.filter fun x => x.eng = m.eng).length < 8) :
    ∃ v x, t.startSpm m = .done v ∧ t.Extends v ∧ x ∈ v.cur.cmds ∧
      x = { m with q := t.turn.q, cal := t.cal, stamp := x.stamp, id := x.id, issued := t.stc } ∧
      (m.eng < 7 → (v.cur.engine m.eng).out = (t.cur.engine m.eng).out + 1) ∧
      ∃ r ∈ v.cur.reqs, r.due = t.stc + 1 ∧ r.cmd = x.id ∧ r.row = m.rows ∧ r.addr = m.rowAddr 0 ∧ r.len = m.rowLen := by
  have open_ : ¬(m.eng < 7 ∧ 8 ≤ (t.cur.cmds.filter fun x => x.eng = m.eng).length) := fun h => absurd h.2 (Nat.not_le.mpr (room h.1))
  generalize hu : (if m.eng < 7 then unitOfEng m.eng else seqNum t.turn.q) = unit
  let t1 := (t.stampFor t.turn.core unit).2
  let m' : Cmd := { m with q := t.turn.q, cal := t1.cal, stamp := (t.stampFor t.turn.core unit).1 }
  let t2 := (t1.addCmd t.turn.core m').2
  let v := t2.firstRow t.turn.core m' (t1.addCmd t.turn.core m').1 (seqRank t.turn.q) (m'.rowAddr 0) m'.rowLen
  have started : t.startSpm m = .done v := by
    unfold State.startSpm
    rw [if_neg open_, hu]
    rfl
  have stamped : t.Extends t1 := State.stampFor_extends unit
  have cal : t1.cal = t.cal := congrArg (fun y : SysSt => !y.region) stamped.sys
  have first : t2.Extends v := State.firstRow_extends ..
  refine ⟨v, { m' with id := (t1.addCmd t.turn.core m').1, issued := t.stc }, started,
    (stamped.trans (State.addCmd_extends m')).trans first, first.cmds _ (State.mem_addCmd m'), ?_, fun he => ?_,
    ⟨_, State.mem_firstRow .., rfl, rfl, rfl, rfl, rfl⟩⟩
  · rw [← cal]
  · have out : (t2.cur.engine m'.eng).out = (t1.cur.engine m'.eng).out + 1 := by
      rw [show t2.cur = _ from t1.addCmd_cur m']
      exact Core.accept_out _ _ he
    rw [show v.cur = _ from t2.firstRow_cur ..]
    refine out.trans ?_
    rw [show t1.cur = _ from t.stampFor_cur unit]
    rfl

/-! ### The end of the issue of such a word -/

theorem State.finishIssue_cmds (t : State) (k : Kind) (n : Nat) (r : Option (Option (BitVec 14))) (d : BitVec 14) :
    (t.finishIssue k n r d).cur.cmds = t.cur.cmds := (t.finishIssue_alike k n r d).cmds
theorem State.finishIssue_tsk (t : State) (k : Kind) (n : Nat) (r : Option (Option (BitVec 14))) (d : BitVec 14) :
    (t.finishIssue k n r d).cur.tsk = t.cur.tsk := (t.finishIssue_alike k n r d).tsk
theorem State.finishIssue_spm (t : State) (k : Kind) (n : Nat) (r : Option (Option (BitVec 14))) (d : BitVec 14) :
    (t.finishIssue k n r d).cur.spm = t.cur.spm := (t.finishIssue_alike k n r d).spm
theorem State.finishIssue_engine (t : State) (k : Kind) (n : Nat) (r : Option (Option (BitVec 14))) (d : BitVec 14) (e : Nat) :
    (t.finishIssue k n r d).cur.engine e = t.cur.engine e :=
  congrArg (fun x : SMap EngSt => SMap.get ({} : EngSt) x e) (t.finishIssue_alike k n r d).eng
theorem State.finishIssue_reqs (t : State) (k : Kind) (n : Nat) (r : Option (Option (BitVec 14))) (d : BitVec 14) :
    (t.finishIssue k n r d).cur.reqs = t.cur.reqs := by
  obtain ⟨tk, win, ended, -⟩ := t.finishIssue_exact k n r d
  rw [ended, Core.modSeq_reqs]

/-- A word has issued with what its effect left: s was the state before it, t the state in which its effect was worked out, v the state that
the effect left, and u is the state after the word. -/
structure State.IssuesAs (s t v u : State) : Prop where
  ends : ∃ k n r d, u = v.finishIssue k n r d
  issued : s.Issued u
  begun : t.stc = s.stc ∧ t.turn = s.turn
  dram : u.dram = s.dram
  spm : u.cur.spm = t.cur.spm
  others : ∀ k, k ≠ s.turn.core → u.core k = s.core k

section
variable {s t v u : State} (h : s.IssuesAs t v u)
include h

theorem State.IssuesAs.agenda : u.agenda = v.agenda := by obtain ⟨k, n, r, d, rfl⟩ := h.ends; rfl
theorem State.IssuesAs.rwins : u.rwins = v.rwins := by obtain ⟨k, n, r, d, rfl⟩ := h.ends; rfl
theorem State.IssuesAs.contribs : u.contribs = v.contribs := by obtain ⟨k, n, r, d, rfl⟩ := h.ends; rfl
theorem State.IssuesAs.pairs : u.pairs = v.pairs := by obtain ⟨k, n, r, d, rfl⟩ := h.ends; rfl
theorem State.IssuesAs.cmds : u.cur.cmds = v.cur.cmds := by obtain ⟨k, n, r, d, rfl⟩ := h.ends; exact State.finishIssue_cmds ..
theorem State.IssuesAs.tsk : u.cur.tsk = v.cur.tsk := by obtain ⟨k, n, r, d, rfl⟩ := h.ends; exact State.finishIssue_tsk ..
theorem State.IssuesAs.reqs : u.cur.reqs = v.cur.reqs := by obtain ⟨k, n, r, d, rfl⟩ := h.ends; exact State.finishIssue_reqs ..
theorem State.IssuesAs.engine (e : Nat) : u.cur.engine e = v.cur.engine e := by
  obtain ⟨k, n, r, d, rfl⟩ := h.ends; exact State.finishIssue_engine ..

/-- A command that the effect left stands after the word. -/
theorem State.IssuesAs.mem_cmds {m : Cmd} (hm : m ∈ v.cur.cmds) : m ∈ u.cur.cmds := by rwa [h.cmds]

/-- A bank request that the effect left stands after the word. -/
theorem State.IssuesAs.mem_reqs {r : SpmReq} (hr : r ∈ v.cur.reqs) : r ∈ u.cur.reqs := by rwa [h.reqs]

/-- An event that the effect placed for later stands after the word. -/
theorem State.IssuesAs.event {c : Nat} {ev : Instr} (he : ∃ j ∈ v.agenda, c < j.due ∧ j.ev = ev) (hc : c = t.stc) :
    ∃ j ∈ u.agenda, s.stc < j.due ∧ j.ev = ev := by
  rwa [h.agenda, ← h.begun.1, ← hc]

end

/-- A word whose effect extends the state that it began in issues. -/
theorem State.Begins.issuesAs {s t v : State} {k : Kind} (h : s.Begins k t) (e : t.Extends v) (k' : Kind) (n : Nat)
    (r : Option (Option (BitVec 14))) (d : BitVec 14) : s.IssuesAs t v (v.finishIssue k' n r d) where
  ends := ⟨k', n, r, d, rfl⟩
  issued := h.issued e.pc e.turn e.stc k' n r d
  begun := ⟨h.stc, h.turn⟩
  dram := e.dram.trans h.dram
  spm := (State.finishIssue_spm ..).trans e.spm
  others m hm := by
    have away : m ≠ t.turn.core := h.turn ▸ hm
    rw [State.finishIssue_core_ne _ _ _ _ _ _ (e.turn ▸ away), e.others m away, h.core_ne m hm]

/-- A word whose access may go on and whose effect extends the state that it began in issues. -/
theorem State.Begins.accessIssues {s t v : State} {k : Kind} {i : Instr} {rs : List RegF} {rel : Bool} {body : State → Res}
    (hi : exec i s = .next (s.issue k fun u => u.interlock rs (fun w => w.access rel body) u)) (h : s.Begins k t) (hf : t.RegsFree rs)
    (ha : Rules.AccessFree t) (hr : rel = true → t.cur.allPerformed t.turn.q = true) (hb : body t = .done v) (he : t.Extends v) :
    ∃ u, exec i s = .next u ∧ s.IssuesAs t v u :=
  ⟨_, h.accessDone hi hf ha hr hb, h.issuesAs he ..⟩

end Sys2Proof.Machine

/-! SUPPORT. Scratchpad loads and stores (08 R205, R206, R208; Table 8.4). -/

namespace Sys2Proof.Machine

-- one after another: every waiting worker thread counts towards the check's memory limit
set_option Elab.async false

theorem spmWord_keep {ok : Bool} {a b : Rules.SpmAccess} (h : Rules.spmWord.keep ok a = some b) : ok = true ∧ a = b := by
  cases ok
  · cases h
  · exact ⟨rfl, Option.some.inj h⟩

/-- Rows that lie in the scratchpad pass the check of the word. -/
theorem rowsOk_iff (ea pitch limit : Nat) : rowsOk ea pitch limit = Rules.rowsLie ea pitch limit := rfl

/-! ### A word that starts its command -/

/-- What the start of a scratchpad command on an engine leaves. -/
def SpmStarted (s t u : State) (i : Instr) (eng addr pitch len : Nat) (data : Option VReg) : Prop :=
  ∃ m, s.Issued u ∧ m ∈ u.cur.cmds ∧ m.op = i ∧ m.eng = eng ∧ m.q = s.turn.q ∧ m.addr = addr ∧ m.pitch = pitch ∧
    (∀ v, data = some v → m.data = v) ∧ (eng < 7 → (u.cur.engine eng).out = (t.cur.engine eng).out + 1) ∧
    (∃ r ∈ u.cur.reqs, r.due = s.stc + 1 ∧ r.cmd = m.id ∧ r.row = 0 ∧ r.addr = addr ∧ r.len = len) ∧
    u.cur.spm = t.cur.spm ∧ u.dram = s.dram ∧ (∀ k, k ≠ s.turn.core → u.core k = s.core k)

/-- A word that starts a scratchpad command, from a state that differs in a store queue alone. -/
theorem State.Begins.startsSpm {s t t' : State} {k : Kind} (h : s.Begins k t) {body : State → Res} {m : Cmd} (e : t.Extends t')
    (hc : t'.cur.cmds = t.cur.cmds) (he : t'.cur.eng = t.cur.eng) (hb : body t = t'.startSpm m)
    (room : m.eng < 7 → (t.cur.cmds.filter fun x => x.eng = m.eng).length < 8) (hm : m.rows = 0) :
    SpmStarted s t (s.issue k body) m.op m.eng m.addr m.pitch m.rowLen (some m.data) := by
  obtain ⟨v, x, starts, grows, mem, value, out, r, asked, due, cmd, row, addr, len⟩ := t'.startSpm_starts m (by rwa [hc])
  have ends := h.issuesAs (e.trans grows) k s.settled.cur.vec.skip none (s.curSeq.pc + 1#14)
  rw [← h.done (hb.trans starts)] at ends
  have seq : x.q = s.turn.q := ((congrArg Cmd.q value :)).trans (by rw [← h.turn, ← e.turn])
  refine ⟨x, ends.issued, by rw [ends.cmds]; exact mem, (congrArg Cmd.op value :), (congrArg Cmd.eng value :), seq, (congrArg Cmd.addr value :),
    (congrArg Cmd.pitch value :), ?_, fun low => ?_, ⟨r, by rw [ends.reqs]; exact asked, ?_, cmd, row.trans hm, ?_, len⟩, ends.spm, ends.dram,
    ends.others⟩
  · exact fun v hv => ((congrArg Cmd.data value :)).trans (Option.some.inj hv)
  · rw [ends.engine, out low, Core.engine, he, Core.engine]
  · rw [due, e.stc, h.stc]
  · rw [addr, Cmd.rowAddr, Nat.zero_mul, Nat.add_zero]

/-- A command that takes no data has what any says of it. -/
theorem SpmStarted.noData {s t u : State} {i : Instr} {eng addr pitch len : Nat} {data : Option VReg}
    (h : SpmStarted s t u i eng addr pitch len data) : SpmStarted s t u i eng addr pitch len none := by
  obtain ⟨m, issued, mem, op, ofEng, ofQ, ofAddr, ofPitch, -, rest⟩ := h
  exact ⟨m, issued, mem, op, ofEng, ofQ, ofAddr, ofPitch, fun v e => absurd e.symm (Option.some_ne_none v), rest⟩

theorem State.sqPop_cmds (t : State) (q : RegF) : (t.sqPop q).cur.cmds = t.cur.cmds := by rw [State.sqPop, State.modCur_cur]
theorem State.sqPop_eng (t : State) (q : RegF) : (t.sqPop q).cur.eng = t.cur.eng := by rw [State.sqPop, State.modCur_cur]

section
variable {s t : State} (h : s.Begins {} t) (ha : Rules.AccessFree t) {rs : List RegF} (hf : t.RegsFree rs) {body : State → Res} {m : Cmd}
include h ha hf

/-- A word without a store queue. -/
theorem State.Begins.memWordLoads {i : Instr} {eng addr pitch len : Nat} (hb : body t = t.startSpm m)
    (room : (t.cur.cmds.filter fun x => x.eng = eng).length < 8) (hm : m.op = i ∧ m.eng = eng ∧ m.addr = addr ∧ m.pitch = pitch ∧
      m.rowLen = len ∧ m.rows = 0) : SpmStarted s t (s.memWord rs body) i eng addr pitch len none := by
  obtain ⟨rfl, rfl, rfl, rfl, rfl, first⟩ := hm
  exact (h.startsSpm (body := fun u => u.interlock rs (fun v => v.access false body) u) (.refl t) rfl rfl ((hf.mem ha body).trans hb)
    (fun _ => room) first).noData

/-- A word that takes its data from a store queue. -/
theorem State.Begins.memWordStores {i : Instr} {eng addr pitch len : Nat} {q : RegF} {v : VReg} (hb : body t = (t.sqPop q).startSpm m)
    (room : (t.cur.cmds.filter fun x => x.eng = eng).length < 8) (hm : m.op = i ∧ m.eng = eng ∧ m.addr = addr ∧ m.pitch = pitch ∧
      m.rowLen = len ∧ m.data = v ∧ m.rows = 0) : SpmStarted s t (s.memWord rs body) i eng addr pitch len (some v) := by
  obtain ⟨rfl, rfl, rfl, rfl, rfl, rfl, first⟩ := hm
  exact h.startsSpm (body := fun u => u.interlock rs (fun v => v.access false body) u) (t.sqPop_extends q) (t.sqPop_cmds q) (t.sqPop_eng q)
    ((hf.mem ha body).trans hb) (fun _ => room) first

/-- A word whose check fails traps. -/
theorem State.Begins.memWordTraps {c : Cause} (hb : body t = .trap c 0 false) : s.memWord rs body = s.settled.wordTrap c 0 :=
  h.trap (body := fun u => u.interlock rs (fun v => v.access false body) u) ((hf.mem ha body).trans hb)

end

/-- The checks of ldrg and strg pass (08 R206). -/
theorem State.ringWord_passes {t : State} {rg : BitVec 4} {b x : BitVec 5} {pop : Bool} {k : Ring → Nat → Nat → Res}
    (size : (t.cur.mx.ring rg.toNat).slotsz ≠ 0) (held : ¬(pop = true ∧ (t.cur.mx.ring rg.toNat).rsv ≠ 0))
    (rows : rowsOk (t.areg b).toNat (t.pitchOf b x) (t.cur.mx.ring rg.toNat).slotsz = true) :
    t.ringWord rg b x pop k = k (t.cur.mx.ring rg.toNat) (t.areg b).toNat (t.pitchOf b x) := by
  unfold State.ringWord
  dsimp only
  rw [if_neg (fun e => e.elim size held), rows]
  rfl

section
variable {s t : State} (h : s.Begins {} t) (ha : Rules.AccessFree t)
include h ha

/-- Every scratchpad load and store that may go on starts its command. -/
theorem State.Begins.spmWord {i : Instr} {a : Rules.SpmAccess} (hi : Rules.spmWord t i = some a) (hf : t.RegsFree a.regs)
    (room : (t.cur.cmds.filter fun x => x.eng = a.eng).length < 8) :
    ∃ u data, exec i s = .next u ∧ SpmStarted s t u i a.eng a.addr a.pitch a.len data ∧ a.eng < 7 ∧
      ∀ q, a.pop = some q → ∃ v, t.sqHead q = some v ∧ data = some v := by
  unfold Rules.spmWord at hi
  split at hi
  case h_1 q b x o =>
    obtain ⟨ok, rfl⟩ := spmWord_keep hi
    have rows : rowsOk (t.memEa b o) (t.pitchOf b x) spmSize = true := ok
    exact ⟨_, none, rfl, h.memWordLoads ha hf (if_neg (by rw [rows]; nofun)) room ⟨rfl, rfl, rfl, rfl, rfl, rfl⟩, (by decide : 2 < 7), nofun⟩
  case h_2 q b x o =>
    obtain ⟨ok, rfl⟩ := spmWord_keep hi
    have rows : rowsOk (t.areg b + o.signExtend 64 + t.indexOf b x).toNat 0 spmSize = true := ok
    exact ⟨_, none, rfl, h.memWordLoads ha hf (if_neg (by rw [rows]; nofun)) room ⟨rfl, rfl, rfl, rfl, rfl, rfl⟩, (by decide : 2 < 7), nofun⟩
  case h_3 d b x o =>
    obtain ⟨ok, rfl⟩ := spmWord_keep hi
    have within : ¬((t.areg b + o.signExtend 64 + t.indexOf b x).toNat % 8 ≠ 0 ∨
        spmSize < (t.areg b + o.signExtend 64 + t.indexOf b x).toNat + 8) := by
      simp only [Bool.and_eq_true, decide_eq_true_eq] at ok
      exact fun e => e.elim (· ok.1) (Nat.not_lt.mpr ok.2)
    exact ⟨_, none, rfl, h.memWordLoads ha hf (if_neg within) room ⟨rfl, rfl, rfl, rfl, rfl, rfl⟩, (by decide : 2 < 7), nofun⟩
  case h_4 q b x rg pop =>
    obtain ⟨ok, rfl⟩ := spmWord_keep hi
    simp only [Bool.and_eq_true, decide_eq_true_eq, Bool.not_eq_true', Bool.and_eq_false_iff, decide_eq_false_iff_not] at ok
    obtain ⟨⟨⟨size, held⟩, rows⟩, fill⟩ := ok
    have passes (k : Ring → Nat → Nat → Res) := t.ringWord_passes (k := k) (pop := pop = 1#1) size
      (fun e => held.elim (· (of_decide_eq_true e.1)) (· e.2)) rows
    exact ⟨_, none, rfl, h.memWordLoads ha hf ((passes _).trans (if_neg fill)) room ⟨rfl, rfl, rfl, rfl, rfl, rfl⟩, (by decide : 2 < 7), nofun⟩
  case h_5 q b x o =>
    obtain ⟨ok, rfl⟩ := spmWord_keep hi
    simp only [Bool.and_eq_true] at ok
    obtain ⟨v, head⟩ := Option.isSome_iff_exists.mp ok.2
    have rows : rowsOk (t.memEa b o) (t.pitchOf b x) spmSize = true := ok.1
    refine ⟨_, some v, rfl, h.memWordStores ha hf ((if_neg (by rw [rows]; nofun)).trans (by rw [head])) room ⟨rfl, rfl, rfl, rfl, rfl, rfl, rfl⟩, (by decide : 3 < 7), ?_⟩
    rintro _ ⟨⟩
    exact ⟨v, head, rfl⟩
  case h_6 d b x o =>
    obtain ⟨ok, rfl⟩ := spmWord_keep hi
    have within : ¬((t.areg b + o.signExtend 64 + t.indexOf b x).toNat % 8 ≠ 0 ∨
        spmSize < (t.areg b + o.signExtend 64 + t.indexOf b x).toNat + 8) := by
      simp only [Bool.and_eq_true, decide_eq_true_eq] at ok
      exact fun e => e.elim (· ok.1) (Nat.not_lt.mpr ok.2)
    exact ⟨_, none, rfl, h.memWordLoads ha hf (if_neg within) room ⟨rfl, rfl, rfl, rfl, rfl, rfl⟩, (by decide : 3 < 7), nofun⟩
  case h_7 q b x rg adv =>
    obtain ⟨ok, rfl⟩ := spmWord_keep hi
    simp only [Bool.and_eq_true, decide_eq_true_eq] at ok
    obtain ⟨⟨⟨size, rows⟩, fill⟩, head⟩ := ok
    obtain ⟨v, head⟩ := Option.isSome_iff_exists.mp head
    have passes (k : Ring → Nat → Nat → Res) := t.ringWord_passes (k := k) (pop := false) size (fun e => nomatch e.1) rows
    refine ⟨_, some v, rfl, h.memWordStores ha hf ((passes _).trans ((if_neg (Nat.not_le.mpr fill)).trans (by rw [head]))) room ⟨rfl, rfl, rfl, rfl, rfl, rfl, rfl⟩, (by decide : 3 < 7), ?_⟩
    rintro _ ⟨⟩
    exact ⟨v, head, rfl⟩
  case h_8 => cases hi

end

/-- Settles O29: the seven words that start a command, and the checks of the address. -/
theorem scratchpadAccess : Obligations.ScratchpadAccess := by
  unfold Obligations.ScratchpadAccess
  refine ⟨fun i s t a hi hq h hf ha room => ?_, fun i s t q b x o h ha illegal => ?_⟩
  · obtain ⟨u, data, run, ⟨m, issued, mem, op, eng, seq, addr, pitch, value, out, rest⟩, low, popped⟩ := h.spmWord ha hi hf room
    refine ⟨u, m, run, issued, mem, op, eng, seq, addr, pitch, fun q hq => ?_, out low, rest⟩
    obtain ⟨v, head, taken⟩ := popped q hq
    rw [head, value v taken]
  · rcases illegal with ⟨hf, rows, rfl | rfl⟩ | ⟨hf, rows, rfl⟩ | ⟨hf, off, rfl | rfl⟩
    case inl.inl | inl.inr =>
      have fails : rowsOk (t.memEa b o) (t.pitchOf b x) spmSize = false := rows
      exact congrArg Host.Outcome.next (h.memWordTraps ha hf (if_pos (by rw [fails]; rfl)))
    case inr.inl =>
      have fails : rowsOk (t.areg b + o.signExtend 64 + t.indexOf b x).toNat 0 spmSize = false := rows
      exact congrArg Host.Outcome.next (h.memWordTraps ha hf (if_pos (by rw [fails]; rfl)))
    all_goals exact congrArg Host.Outcome.next (h.memWordTraps ha hf (if_pos off))

end Sys2Proof.Machine

/-! SUPPORT. Pages mapped and pinned (08 R203; 09 R274), and reduction windows that open and take contributions (08 R222 to R224). -/

namespace Sys2Proof.Machine

-- one after another: every waiting worker thread counts towards the check's memory limit
set_option Elab.async false

/-! ### Translation -/

/-- With no page in another package, an access sends no packet. -/
theorem State.useBridge_near {t : State} {ps : List PageTr} (h : ∀ p ∈ ps, realPa p.pa = true → paPkg p.pa = t.pkg) (n : Nat)
    (writes : List (Nat × Nat)) : t.useBridge n ps writes = t := by
  have near : ps.filter (fun p => realPa p.pa && decide (paPkg p.pa ≠ t.pkg)) = [] := by
    refine List.filter_eq_nil_iff.mpr fun p hp => ?_
    cases real : realPa p.pa
    · simp
    · simp [h p hp real]
  unfold State.useBridge
  dsimp only
  rw [near]
  rfl

/-- Ranges that map to pages of this package: the word goes on with them pinned. -/
theorem State.translated_maps {t : State} {write : Bool} {rs : List (Nat × Nat)} {ps : List PageTr} (h : Rules.Maps t write rs ps)
    (scope : Nat) (k : List PageTr → State → Res) :
    t.translated scope write rs k = k ps (t.modCur fun c => c.pin (pinKeys ps)) := by
  obtain ⟨maps, near, room⟩ := h
  have here : ps.any (fun p => realPa p.pa && decide (paPkg p.pa ≠ t.pkg)) = false := by
    refine List.any_eq_false.mpr fun p hp => ?_
    cases real : realPa p.pa
    · simp
    · simp [near p hp real]
  unfold State.translated
  dsimp only
  rw [maps]
  dsimp only
  rw [here, Bool.and_false, if_neg Bool.false_ne_true, room, State.useBridge_near near]
  rfl

/-- The same, the state with the pages pinned named. -/
theorem State.maps_pinned {t : State} {write : Bool} {rs : List (Nat × Nat)} {ps : List PageTr} (h : Rules.Maps t write rs ps) :
    ∃ t1, t1 = (t.modCur fun c => c.pin (pinKeys ps)) ∧ t.Extends t1 ∧ ∀ scope k, t.translated scope write rs k = k ps t1 :=
  ⟨_, rfl, t.pin_extends _, fun _ _ => State.translated_maps h ..⟩

/-- A range that no page maps traps with ADDR (08 R203). -/
theorem State.translated_bad {t : State} {write : Bool} {rs : List (Nat × Nat)} (h : t.xlateAll t.turn.core write rs [] = .error .bad)
    (scope : Nat) (k : List PageTr → State → Res) : t.translated scope write rs k = .trap .addr 0 true := by
  unfold State.translated
  dsimp only
  rw [h]

/-- A trap that follows AUDIT, of a word that does not set it. -/
theorem State.Begins.trapIssued {s t : State} {k : Kind} {c : Cause} {code : BitVec 10} (h : s.Begins k t) {body : State → Res}
    (hk : k.audit = false) (hb : body t = .trap c code true) : s.issue k body = s.settled.wordTrap c code := by
  rw [h.issue, hb]
  simp [State.conclude, hk]

theorem State.pin_cur (t : State) (ks : List Nat) : (t.modCur fun c => c.pin ks).cur = t.cur.pin ks := State.modCur_cur ..

/-! ### A change of the tables beside the cores -/

/-- A state with the same cores, DRAM, agenda, turn and cycle. -/
theorem State.Extends.ofTables {t v : State} (turn : v.turn = t.turn) (stc : v.stc = t.stc) (cores : v.cores = t.cores)
    (dram : v.dram = t.dram) (agenda : v.agenda = t.agenda) : t.Extends v := by
  have core (n : Nat) : v.core n = t.core n := by rw [State.core, cores, State.core]
  have cur : v.cur = t.cur := by rw [State.cur, turn, core, State.cur]
  exact ⟨turn, stc, dram, by rw [State.curSeq, cur, turn, State.curSeq], by rw [State.curSeq, cur, turn, State.curSeq], by rw [cur], by rw [cur], fun k _ => core k,
    by rw [cur]; exact fun _ => id, by rw [cur]; exact fun _ => id, by rw [agenda]; exact fun _ => id⟩

/-! ### rwopen (08 R222, R223) -/

theorem windowOf_eq {b c : Word} {n ty k : Nat} (h : Rules.windowOf b c = some (n, ty, k)) :
    n = b.toNat % 2 ^ 32 ∧ ty = bitsN b.toNat 32 4 ∧ k = c.toNat ∧
      ¬(b.toNat % 2 ^ 32 = 0 ∨ 2 ^ 31 < b.toNat % 2 ^ 32 ∨ 4 ≤ bitsN b.toNat 32 4 ∨ b.toNat / 2 ^ 36 ≠ 0 ∨ c.toNat = 0 ∨ 2 ^ 24 ≤ c.toNat) := by
  simp only [Rules.windowOf] at h
  split at h
  · simp only [Option.some.injEq, Prod.mk.injEq] at h
    obtain ⟨rfl, rfl, rfl⟩ := h
    have type_ : bitsN b.toNat 32 4 = b.toNat / 2 ^ 32 := Nat.mod_eq_of_lt (by omega)
    refine ⟨rfl, type_.symm, rfl, ?_⟩
    rw [type_]
    omega
  · cases h

theorem windowOf_none {b c : Word} : Rules.windowOf b c = none ↔
    (b.toNat % 2 ^ 32 = 0 ∨ 2 ^ 31 < b.toNat % 2 ^ 32 ∨ 4 ≤ bitsN b.toNat 32 4 ∨ b.toNat / 2 ^ 36 ≠ 0 ∨ c.toNat = 0 ∨ 2 ^ 24 ≤ c.toNat) := by
  simp only [Rules.windowOf, bitsN, ite_eq_right_iff, reduceCtorEq, imp_false]
  omega


section
variable {s t : State} (h : s.Begins {} t) {d a b c : RegF} (hf : t.RegsFree [d, a, b, c]) (ha : Rules.AccessFree t)
include h hf ha

theorem rwopen_opens {mirror : BitVec 1} {scope : BitVec 3} {n ty k : Nat} {ps : List PageTr}
    (legal : Rules.windowOf (t.rd b) (t.rd c) = some (n, ty, k)) (aligned : (t.rd a).toNat % 64 = 0)
    (inSource : mirror = 1#1 → ∃ x md, t.ctx? t.cur.sys.ctx.toNat = some x ∧ x.mirror = some md ∧ md.srcbase ≤ (t.rd a).toNat ∧
      (t.rd a).toNat + n * (if ty % 2 = 0 then 4 else 8) ≤ md.srcbase + md.mlen)
    (maps : Rules.Maps t true [((t.rd a).toNat, n * (if ty % 2 = 0 then 4 else 8))] ps)
    (room : (t.rwins.filter fun w => w.ctx = t.cur.sys.ctx.toNat && w.die = dieOf s.turn.core).length < 64) :
    ∃ u w m, exec (.rwopen d a b c mirror scope) s = .next u ∧ s.Issued u ∧ u.rwins = t.rwins ++ [w] ∧ w.ctx = t.cur.sys.ctx.toNat ∧
      w.va = (t.rd a).toNat ∧ w.n = n ∧ w.type_ = ty ∧ w.tasks = k ∧ w.pages = ps ∧ w.lasts = 0 ∧ w.errors = 0 ∧ m ∈ u.cur.cmds ∧
      m.dst = d.toNat ∧ m.value = BitVec.ofNat 64 w.handle ∧
      (∃ j ∈ u.agenda, s.stc < j.due ∧ j.ev = .atomicResultReturn s.turn.core m.id) ∧ u.dram = s.dram := by
  obtain ⟨rfl, rfl, rfl, within⟩ := windowOf_eq legal
  rw [← h.turn] at room
  have inside : ¬(mirror = 1#1 ∧ (match (t.ctx? t.cur.sys.ctx.toNat).bind (·.mirror) with
      | none => true
      | some m => decide ((t.rd a).toNat < m.srcbase) || decide (m.srcbase + m.mlen < (t.rd a).toNat +
          (t.rd b).toNat % 2 ^ 32 * rwBytes (bitsN (t.rd b).toNat 32 4))) = true) := by
    rintro ⟨mirrored, out⟩
    obtain ⟨x, md, ctx, desc, low, high⟩ := inSource mirrored
    rw [ctx, Option.bind_some, desc] at out
    rcases (Bool.or_eq_true _ _).mp out with before | after
    · exact absurd (of_decide_eq_true before) (Nat.not_lt.mpr low)
    · exact absurd (of_decide_eq_true after) (Nat.not_lt.mpr high)
  obtain ⟨t1, pinned, grows, maps⟩ := State.maps_pinned maps
  have windows : t1.rwins = t.rwins := by rw [pinned, State.modCur_rwins]
  have here : t.turn.core = t1.turn.core := by rw [grows.turn]
  obtain ⟨u, run, ends⟩ := h.accessIssues (i := .rwopen d a b c mirror scope) rfl hf ha nofun ((if_neg within).trans ((if_neg inside).trans
    ((if_neg (not_not.mpr aligned)).trans ((maps scope.toNat _).trans (if_neg (Nat.not_le.mpr (by rw [windows]; exact room))))))) (by
    refine .trans ?_ (State.schedFree_extends ..)
    refine .trans ?_ (State.addCmd_extends _ here)
    exact (grows.trans (State.stampFor_extends (unitOfEng engCle) here)).trans (.ofTables rfl rfl rfl rfl rfl))
  have opened : u.rwins = t1.rwins ++ [_] := ends.rwins
  rw [windows] at opened
  have taken := ends.mem_cmds ((State.schedFree_extends ..).cmds _ (State.mem_addCmd _ here))
  have event := ends.event (State.mem_schedFree ..) grows.stc
  rw [← h.turn]
  refine ⟨u, _, _, run, ends.issued, opened, rfl, rfl, rfl, rfl, rfl, rfl, rfl, rfl, taken, ?_, ?_, event, ends.dram⟩
  all_goals dsimp only [mkCmd]

theorem rwopen_illegal {mirror : BitVec 1} {scope : BitVec 3} (illegal : Rules.windowOf (t.rd b) (t.rd c) = none) :
    exec (.rwopen d a b c mirror scope) s = .next (s.settled.wordTrap .illop 0) :=
  h.accessTrap rfl hf ha nofun (if_pos (windowOf_none.mp illegal))

theorem rwopen_misaligned {scope : BitVec 3} (legal : Rules.windowOf (t.rd b) (t.rd c) ≠ none) (off : (t.rd a).toNat % 64 ≠ 0) :
    exec (.rwopen d a b c 0#1 scope) s = .next (s.settled.wordTrap .addr 0) :=
  h.accessTrap rfl hf ha nofun ((if_neg (mt windowOf_none.mpr legal)).trans ((if_neg (fun e => nomatch e.1)).trans (if_pos off)))

end

/-! ### Contributions (08 R224) -/

/-- A contribution is posted: cle takes its command, and it stands among those on their way. -/
theorem State.post_posts (t : State) {m : Cmd} (he : m.eng = engCle) (elem : Nat) (values : List Word) (last : Bool) :
    ∃ v k, t.post m elem values last = (k.cmd, k.id, v) ∧ t.Extends v ∧ k ∈ v.contribs ∧ k.handle = m.obj ∧ k.elem = elem ∧
      k.values = values ∧ k.last = last ∧ k.stamp.stc = t.stc ∧ (v.cur.engine engCle).out = (t.cur.engine engCle).out + 1 := by
  let t1 := (t.stampFor t.turn.core (seqNum t.turn.q)).2
  let x : Cmd := { m with stamp := (t.stampFor t.turn.core (seqNum t.turn.q)).1, cal := t1.cal }
  let t2 := (t1.addCmd t.turn.core x).2
  have grows : t.Extends t2 := (State.stampFor_extends _).trans (State.addCmd_extends _)
  let k : Contrib := { id := t2.nextId, win := none, ctx := t2.cur.sys.ctx.toNat, handle := m.obj, core := t.turn.core,
                       cmd := (t1.addCmd t.turn.core x).1, elem := elem, values := values, last := last, stamp := x.stamp }
  refine ⟨_, k, rfl, grows.trans (.ofTables rfl rfl rfl rfl rfl), List.mem_append_right _ (List.mem_singleton.mpr rfl), rfl, rfl, rfl, rfl, rfl, ?_⟩
  have out : (t2.cur.engine x.eng).out = (t1.cur.engine x.eng).out + 1 := by
    rw [show t2.cur = _ from t1.addCmd_cur x]
    exact Core.accept_out _ _ (he ▸ (by decide : engCle < 7))
  rw [show x.eng = engCle from he, show t1.cur = _ from State.stampFor_cur ..] at out
  exact out

section
variable {s t : State} (h : s.Begins {} t) {a b c : RegF} {last : BitVec 1} {o : BitVec 2} (hf : t.RegsFree [a, b, c])
  (ha : Rules.MayAccess t (ordRel o)) (hr : t.cur.tsk.run = 0)
include h hf ha hr

theorem rwadd_posts : ∃ u k, exec (.rwadd a b c last o) s = .next u ∧ s.Issued u ∧ k ∈ u.contribs ∧ k.handle = (t.rd a).toNat ∧
    k.elem = (t.rd b).toNat ∧ k.values = [t.rd c] ∧ k.last = (last = 1#1) ∧ k.stamp.stc = s.stc ∧
    (u.cur.engine engCle).out = (t.cur.engine engCle).out + 1 ∧ (∃ j ∈ u.agenda, s.stc < j.due ∧ j.ev = .rwContribution k.id) ∧
    u.dram = s.dram := by
  obtain ⟨free, released⟩ := ha
  obtain ⟨v, k, posted, grows, mem, handle, elem, values, ofLast, stamp, out⟩ := t.post_posts
    (m := { mkCmd engCle t.turn.q (.rwadd a b c last o) with obj := (t.rd a).toNat }) rfl (t.rd b).toNat [t.rd c] (last = 1#1)
  obtain ⟨u, run, ends⟩ := h.accessIssues (i := .rwadd a b c last o) (v := v.schedFree phTask (.rwContribution k.id)) rfl hf free released
    ((if_neg (not_not.mpr hr)).trans (by rw [posted])) (grows.trans (State.schedFree_extends ..))
  refine ⟨u, k, run, ends.issued, ?_, handle, elem, values, by simp [ofLast], stamp.trans h.stc, (congrArg EngSt.out (ends.engine engCle)).trans out,
    ends.event (State.mem_schedFree ..) grows.stc, ends.dram⟩
  rw [ends.contribs]
  exact mem

theorem rwaddBlk_posts {w : RWin} (hw : t.rwin? t.cur.sys.ctx.toNat (t.rd a).toNat = some w) (low : 1 ≤ (t.rd c).toNat % 2 ^ 13)
    (high : (t.rd c).toNat % 2 ^ 13 ≤ 4096) (zero : (t.rd b).toNat / 2 ^ 23 % 2 ^ 9 = 0) (aligned : (t.rd b).toNat % 2 ^ 23 % 64 = 0)
    (within : (t.rd b).toNat % 2 ^ 23 + (t.rd c).toNat % 2 ^ 13 * (if w.type_ % 2 = 0 then 4 else 8) ≤ 2 ^ 23) :
    ∃ u k, exec (.rwaddBlk a b c last o) s = .next u ∧ s.Issued u ∧ k ∈ u.contribs ∧ k.handle = (t.rd a).toNat ∧
      k.elem = (t.rd b).toNat / 2 ^ 32 ∧ k.values = [] ∧ k.last = (last = 1#1) ∧
      (∃ r ∈ u.cur.reqs, r.due = s.stc + 1 ∧ r.cmd = k.cmd ∧ r.row = 0 ∧ r.addr = (t.rd b).toNat % 2 ^ 23 ∧ r.len = 64) ∧
      (u.cur.engine engCle).out = (t.cur.engine engCle).out + 1 ∧ u.dram = s.dram := by
  obtain ⟨free, released⟩ := ha
  let m : Cmd := { mkCmd engCle t.turn.q (.rwaddBlk a b c last o) with
    addr := (t.rd b).toNat % 2 ^ 23, pitch := 64, table := ((t.rd c).toNat % 2 ^ 13 * rwBytes w.type_ + 63) / 64,
    queue := (t.rd c).toNat % 2 ^ 13, value := BitVec.ofNat 64 (rwBytes w.type_), obj := (t.rd a).toNat }
  obtain ⟨v, k, posted, grows, mem, handle, elem, values, ofLast, -, out⟩ := t.post_posts (m := m) rfl ((t.rd b).toNat / 2 ^ 32) []
    (last = 1#1)
  have here : v.turn.core = t.turn.core := by rw [grows.turn]
  have legal : ¬((t.rd c).toNat % 2 ^ 13 = 0 ∨ 4096 < (t.rd c).toNat % 2 ^ 13 ∨ bitsN (t.rd b).toNat 23 9 ≠ 0) := by
    simp only [bitsN]; omega
  have lies : ¬((t.rd b).toNat % 2 ^ 23 % 64 ≠ 0 ∨ spmSize < (t.rd b).toNat % 2 ^ 23 + (t.rd c).toNat % 2 ^ 13 * rwBytes w.type_) :=
    fun e => e.elim (fun off => off aligned) (Nat.not_lt.mpr within)
  obtain ⟨u, run, ends⟩ := h.accessIssues (i := .rwaddBlk a b c last o)
    (v := v.firstRow v.turn.core m k.cmd (seqRank v.turn.q) ((t.rd b).toNat % 2 ^ 23) 64) rfl hf free released
    (by dsimp only; rw [hw, if_neg (not_not.mpr hr), if_neg legal, if_neg lies, posted]) (grows.trans (State.firstRow_extends ..))
  refine ⟨u, k, run, ends.issued, ?_, handle, elem, values, by simp [ofLast], ⟨_, ends.mem_reqs (State.mem_firstRow ..), ?_⟩, ?_, ends.dram⟩
  · rw [ends.contribs]; exact mem
  · rw [grows.stc, h.stc]; exact ⟨rfl, rfl, rfl, rfl, rfl⟩
  · rw [ends.engine, State.firstRow_cur]; exact out
end

/-- Settles O37: rwopen and the two words of a contribution. -/
theorem windowsOpen : Obligations.WindowsOpen := by
  unfold Obligations.WindowsOpen
  refine ⟨fun s t d a b c mirror scope hq h hf ha => ⟨fun n ty k ps legal aligned inSource maps room =>
    rwopen_opens h hf ha legal aligned inSource maps room, rwopen_illegal h hf ha, fun legal plain off => ?_⟩,
    fun s t a b c last o hq h hf ha hr => ⟨rwadd_posts h hf ha hr, fun w hw low high zero aligned within =>
      rwaddBlk_posts h hf ha hr hw low high zero aligned within⟩⟩
  rw [plain]
  exact rwopen_misaligned h hf ha legal off

end Sys2Proof.Machine

/-! SUPPORT. What a translation and a read of a task look at (08 R203, R204, R210; 12 R292, R293): states that agree on it answer alike. -/

namespace Sys2Proof.Machine

-- one after another: every waiting worker thread counts towards the check's memory limit
set_option Elab.async false

/-- Nothing that a translation, a read or a write of DRAM looks at differs, but what the cores hold. -/
structure State.SameStore (s u : State) : Prop where
  stc : u.stc = s.stc
  pkg : u.pkg = s.pkg
  dies : u.dies = s.dies
  dram : u.dram = s.dram
  saveAreas : u.saveAreas = s.saveAreas
  forwards : u.forwards = s.forwards
  migrations : u.migrations = s.migrations
  bx : u.bx = s.bx
  dir : u.dir = s.dir
  ht : u.ht = s.ht
  rtc : u.rtc = s.rtc
  recs : u.recs = s.recs
  ctxs : u.ctxs = s.ctxs
  groups : u.groups = s.groups

theorem State.SameStore.refl (s : State) : s.SameStore s := by constructor <;> rfl

theorem State.SameStore.trans {s t u : State} (h : s.SameStore t) (k : t.SameStore u) : s.SameStore u where
  stc := k.stc.trans h.stc
  pkg := k.pkg.trans h.pkg
  dies := k.dies.trans h.dies
  dram := k.dram.trans h.dram
  saveAreas := k.saveAreas.trans h.saveAreas
  forwards := k.forwards.trans h.forwards
  migrations := k.migrations.trans h.migrations
  bx := k.bx.trans h.bx
  dir := k.dir.trans h.dir
  ht := k.ht.trans h.ht
  rtc := k.rtc.trans h.rtc
  recs := k.recs.trans h.recs
  ctxs := k.ctxs.trans h.ctxs
  groups := k.groups.trans h.groups

theorem State.setCore_sameStore (s : State) (n : Nat) (c : Core) : s.SameStore (s.setCore n c) := by constructor <;> rfl
theorem State.modCore_sameStore (s : State) (n : Nat) (f : Core → Core) : s.SameStore (s.modCore n f) := s.setCore_sameStore ..
theorem State.schedInp_sameStore (s : State) (due ph : Nat) (ev : Instr) (i : Input) : s.SameStore (s.schedInp due ph ev i) := by
  constructor <;> rfl
theorem State.sched_sameStore (s : State) (due ph : Nat) (ev : Instr) : s.SameStore (s.sched due ph ev) := s.schedInp_sameStore ..
theorem State.schedMem_sameStore (s : State) (due : Nat) (ev : Instr) (st : Stamp) : s.SameStore (s.schedMem due ev st) := by
  constructor <;> rfl
theorem State.drawLat_sameStore (s : State) : s.SameStore s.drawLat.2 := by constructor <;> rfl
theorem State.schedFree_sameStore (s : State) (ph : Nat) (ev : Instr) : s.SameStore (s.schedFree ph ev) :=
  s.drawLat_sameStore.trans (State.sched_sameStore ..)
theorem State.schedMemFree_sameStore (s : State) (ev : Instr) (st : Stamp) : s.SameStore (s.schedMemFree ev st) :=
  s.drawLat_sameStore.trans (State.schedMem_sameStore ..)
theorem State.unpin_sameStore (s : State) (n : Nat) (ks : List Nat) : s.SameStore (s.unpin n ks) :=
  foldl_related .refl .trans (fun s _ => s.schedInp_sameStore ..) ks s

section
variable {s u : State} (h : s.SameStore u)
include h

theorem State.SameStore.die (d : Nat) : u.die d = s.die d := by rw [State.die, h.dies, State.die]

theorem State.SameStore.resolve (pa : Nat) : u.resolve pa = s.resolve pa := by
  simp only [State.resolve, h.die, h.forwards, h.migrations]

theorem State.SameStore.stackLost (pa : Nat) : u.stackLost pa = s.stackLost pa := by
  rw [State.stackLost, h.pkg, h.die, State.stackLost]

theorem State.SameStore.dramByte (pa : Nat) : u.dramByte pa = s.dramByte pa :=
  State.dramByte_congr (h.stackLost pa) (by rw [h.die]) h.saveAreas h.dram h.stc

theorem State.SameStore.dramBytes (pa n : Nat) : u.dramBytes pa n = s.dramBytes pa n := by
  have from_ (n a : Nat) : u.dramBytesAt a n = s.dramBytesAt a n := by
    induction n generalizing a with
    | zero => rfl
    | succ n ih => rw [State.dramBytesAt, h.dramByte, ih, State.dramBytesAt]
  rw [State.dramBytes, h.resolve, from_, State.dramBytes]

theorem State.SameStore.dramRead (pa n : Nat) : u.dramRead pa n = s.dramRead pa n := congrArg leVal (h.dramBytes pa n)

/-- What stood after a write stands there still. -/
theorem State.SameStore.stored {r : State} {pa : Nat} {bs : List Byte} (k : Rules.Stored r s pa bs) : Rules.Stored r u pa bs :=
  ⟨fun i hi => (h.dramByte _).trans (k.1 i hi), fun a ha => (h.dramByte a).trans (k.2 a ha)⟩

theorem State.SameStore.plain (k : Rules.PlainDram s) : Rules.PlainDram u := by
  obtain ⟨migrations, forwards, groups, dies⟩ := k
  exact ⟨h.migrations.trans migrations, h.forwards.trans forwards, h.groups.trans groups, fun d => by rw [h.die]; exact dies d⟩

theorem State.SameStore.badWord (pa n : Nat) : u.badWord pa n = s.badWord pa n := by
  simp only [State.badWord, h.resolve, h.die]

theorem State.SameStore.badFrame (pa size : Nat) : u.badFrame pa size = s.badFrame pa size := by
  simp only [State.badFrame, h.bx, h.die]

theorem State.SameStore.walk (root va : Nat) : u.walk root va = s.walk root va := by
  simp only [State.walk, h.badFrame, h.dramRead]

theorem State.SameStore.walkBad (root va : Nat) : u.walkBad root va = s.walkBad root va := by
  simp only [State.walkBad, h.dramRead, h.badWord]

theorem State.SameStore.apertureTr (va name base : Nat) (out : Bool) : u.apertureTr va name base out = s.apertureTr va name base out := by
  simp only [State.apertureTr, State.dirEnt, State.homeOf, h.dir, h.ht]

theorem State.SameStore.remoteTr (p : PageTr) : u.remoteTr p = s.remoteTr p := by
  simp only [State.remoteTr, h.pkg, h.rtc, h.stc]

theorem State.SameStore.ctx? (k : Nat) : u.ctx? k = s.ctx? k := by rw [State.ctx?, h.ctxs, State.ctx?]

theorem State.SameStore.mirrorOf (k : Nat) : u.mirrorOf k = s.mirrorOf k := by rw [State.mirrorOf, h.ctx?, State.mirrorOf]

theorem State.SameStore.slotFor (k : Nat) (r : TaskRec) (va : Nat) : u.slotFor k r va = s.slotFor k r va := by
  simp only [State.slotFor, h.mirrorOf]

end

/-- What the task of a core translates and reads alike: the same store, and on the core the same task, system registers, cache entries and
shadows. -/
structure State.SameReads (s u : State) (n : Nat) : Prop extends State.SameStore s u where
  task : (u.core n).tsk.task = (s.core n).tsk.task
  sys : (u.core n).sys = (s.core n).sys
  cache : (u.core n).tsk.tcache = (s.core n).tsk.tcache
  shadows : (u.core n).tsk.shadows = (s.core n).tsk.shadows

section
variable {s u : State} {n : Nat} (h : s.SameReads u n)
include h

theorem State.SameReads.recOf : u.recOf n = s.recOf n := by
  have find : u.rec? = s.rec? := by funext id'; rw [State.rec?, h.recs, State.rec?]
  rw [State.recOf, h.task, find, State.recOf]

theorem State.SameReads.slotOf (va : Nat) : u.slotOf n va = s.slotOf n va := by
  simp only [State.slotOf, h.recOf, h.slotFor, h.sys]

theorem State.SameReads.xlate (va : Nat) (write : Bool) : u.xlate n va write = s.xlate n va write := by
  simp only [State.xlate, h.slotOf, h.ctx?, h.apertureTr, h.remoteTr, h.walk, h.walkBad, h.sys, h.cache]

theorem State.SameReads.xlateRange (write : Bool) (fuel va hi : Nat) (acc : List PageTr) :
    u.xlateRange n write fuel va hi acc = s.xlateRange n write fuel va hi acc := by
  induction fuel generalizing va acc with
  | zero => rfl
  | succ fuel ih => simp only [State.xlateRange, h.xlate, ih]

theorem State.SameReads.xlateAll (write : Bool) (rs : List (Nat × Nat)) (acc : List PageTr) :
    u.xlateAll n write rs acc = s.xlateAll n write rs acc := by
  induction rs generalizing acc with
  | nil => rfl
  | cons r rs ih => simp only [State.xlateAll, h.xlateRange, ih]

theorem State.SameReads.livePage (ps : List PageTr) (va : Nat) : u.livePage n ps va = s.livePage n ps va := by
  simp only [State.livePage, h.slotOf, h.apertureTr]

theorem State.SameReads.shadowAt (va : Nat) : (u.core n).shadowAt va = (s.core n).shadowAt va := by
  rw [Core.shadowAt, h.shadows, Core.shadowAt]

theorem State.SameReads.taskRead (ps : List PageTr) (va len : Nat) : u.taskRead n ps va len = s.taskRead n ps va len := by
  simp only [State.taskRead, h.shadowAt, h.livePage, h.dramBytes]

theorem State.SameReads.homeRead (ps : List PageTr) (va len : Nat) : u.homeRead n ps va len = s.homeRead n ps va len := by
  simp only [State.homeRead, h.slotOf, h.taskRead, h.dramBytes]

/-- The bytes that a pairing object may touch are those that its header gives it. -/
theorem State.SameReads.objLen (va : Nat) : u.objLen n va = s.objLen n va := by
  simp only [State.objLen, h.xlateAll, h.homeRead]

/-- The same commands stand in the way of an access. -/
theorem State.SameReads.clashes (cmds : (u.core n).cmds = (s.core n).cmds) (spm : (u.core n).spm = (s.core n).spm) (q : Seq)
    (p : Cmd → Bool) (rs : List (Nat × Nat)) : u.clashes n q p rs = s.clashes n q p rs := by
  simp only [State.clashes, State.locsOf, Core.elems, cmds, spm, h.xlate]

end

/-- Pages pinned: the task of every core reads as before. -/
theorem State.pin_sameReads (t : State) (ks : List Nat) (n : Nat) : t.SameReads (t.modCur fun c => c.pin ks) n := by
  have store : t.SameStore (t.modCur fun c => c.pin ks) := t.setCore_sameStore ..
  by_cases here : n = t.turn.core
  · subst here
    have core : (t.modCur fun c => c.pin ks).core t.turn.core = t.cur.pin ks := State.modCore_core ..
    exact ⟨store, by rw [core]; rfl, by rw [core]; rfl, by rw [core]; rfl, by rw [core]; rfl⟩
  · have core : (t.modCur fun c => c.pin ks).core n = t.core n := State.modCore_core_ne _ _ _ _ here
    exact ⟨store, by rw [core], by rw [core], by rw [core], by rw [core]⟩

end Sys2Proof.Machine

/-! SUPPORT. Commands at work: one found by its number, one changed, one that retires (08 R201; 09 R267, R274). -/

namespace Sys2Proof.Machine

-- one after another: every waiting worker thread counts towards the check's memory limit
set_option Elab.async false

theorem Core.cmd?_id {c : Core} {id' : Nat} {m : Cmd} (h : c.cmd? id' = some m) : m.id = id' := by simpa using List.find?_some h

theorem Core.cmd?_mem {c : Core} {id' : Nat} {m : Cmd} (h : c.cmd? id' = some m) : m ∈ c.cmds := List.mem_of_find?_eq_some h

/-! ### Records of a list, by their number -/

section
variable {α : Type} {key : α → Nat} {l : List α} {x : α}

/-- A record that is replaced is found as it was replaced. -/
theorem find?_replace {i : Nat} (hi : key x = i) (present : ∃ y ∈ l, key y = i) :
    (l.map fun y => if key y = i then x else y).find? (fun y => key y = i) = some x := by
  induction l with
  | nil => simp at present
  | cons y t ih =>
    by_cases here : key y = i
    · simp [here, hi]
    · simp only [List.map_cons, here, if_false, List.find?_cons, decide_false]
      exact ih (by simpa [here] using present)

/-- The other records are found as before. -/
theorem find?_replace_ne {i j : Nat} (hi : key x = i) (ne : j ≠ i) :
    (l.map fun y => if key y = i then x else y).find? (fun y => key y = j) = l.find? (fun y => key y = j) := by
  subst hi
  induction l with
  | nil => rfl
  | cons y t ih =>
    by_cases here : key y = key x
    · simp only [List.map_cons, here, if_true, List.find?_cons, ne.symm, decide_false, ih]
    · simp only [List.map_cons, here, if_false, List.find?_cons, ih]

/-- A record that leaves is found no more. -/
theorem find?_remove (i : Nat) : (l.filter fun y => key y ≠ i).find? (fun y => key y = i) = none := by
  rw [List.find?_eq_none]
  intro y hy
  simpa using (List.mem_filter.mp hy).2

/-- What is found by its number has that number and stands in the list. -/
theorem find?_key {i : Nat} (h : l.find? (fun y => key y = i) = some x) : x ∈ l ∧ key x = i :=
  ⟨List.mem_of_find?_eq_some h, by simpa using List.find?_some h⟩

end

/-- A command that is changed is found as it was changed. -/
theorem Core.setCmd_cmd? {c : Core} {m x : Cmd} (h : c.cmd? x.id = some m) : (c.setCmd x).cmd? x.id = some x :=
  find?_replace (key := Cmd.id) rfl ⟨m, Core.cmd?_mem h, Core.cmd?_id h⟩

/-- The other commands are found as before. -/
theorem Core.setCmd_cmd?_ne {c : Core} {x : Cmd} {id' : Nat} (h : id' ≠ x.id) : (c.setCmd x).cmd? id' = c.cmd? id' :=
  find?_replace_ne (key := Cmd.id) rfl h

theorem Core.setCmd_seq (c : Core) (m : Cmd) (q : Seq) : (c.setCmd m).seq q = c.seq q := by cases q <;> rfl

/-- The core without a command that has retired. -/
def Core.without (c : Core) (now : Nat) (m : Cmd) : Core :=
  let d := { c with cmds := c.cmds.filter fun x => x.id ≠ m.id }
  if m.eng < 7 then d.later (now + 1) (.engRetire m.eng) else d

theorem Core.without_frame (c : Core) (now : Nat) (m : Cmd) :
    (c.without now m).cmds = c.cmds.filter (fun x => x.id ≠ m.id) ∧ (c.without now m).q = c.q ∧ (c.without now m).tsk = c.tsk ∧
      (c.without now m).sys = c.sys ∧ (c.without now m).spm = c.spm ∧ ∀ p ∈ c.pend, p ∈ (c.without now m).pend := by
  unfold Core.without
  dsimp only
  split
  · exact ⟨rfl, rfl, rfl, rfl, rfl, fun p hp => (mem_insPend ..).mpr (.inr hp)⟩
  · exact ⟨rfl, rfl, rfl, rfl, rfl, fun _ => id⟩

/-- Whether a command is the retirement of a reduction window, whose pins belong to the task that opened it (08 R222). -/
def Cmd.closesWindow (m : Cmd) : Bool :=
  match m.op with
  | .rwclose .. => true
  | _ => false

theorem State.unpin_core (t : State) (n : Nat) (ks : List Nat) (k : Nat) : (t.unpin n ks).core k = t.core k :=
  foldl_related (R := fun t u : State => u.core k = t.core k) (f := fun s x => s.schedInp s.stc phTask .pinRelease { core := some n, page := x })
    (fun _ => rfl) (fun a b => b.trans a) (fun _ _ => rfl) ks t

/-- A command that retires leaves its core; but for an rwclose nothing changes beside that core and the agenda. -/
theorem State.retireCmd_retires {s : State} {n id' : Nat} {m : Cmd} (h : (s.core n).cmd? id' = some m) (hm : m.closesWindow = false) :
    s.SameStore (s.retireCmd n id') ∧ (s.retireCmd n id').core n = (s.core n).without s.stc m ∧
      (∀ k, k ≠ n → (s.retireCmd n id').core k = s.core k) := by
  obtain rfl := Core.cmd?_id h
  have left := s.setCore_sameStore n ((s.core n).without s.stc m)
  have own := State.setCore_core s n ((s.core n).without s.stc m)
  have away := fun k hk => State.setCore_core_ne s n k ((s.core n).without s.stc m) hk
  unfold State.retireCmd
  dsimp only
  rw [h]
  dsimp only
  split
  · exact ⟨left, own, away⟩
  · next op => simp [Cmd.closesWindow, op] at hm
  · exact ⟨left.trans (State.unpin_sameStore ..), (State.unpin_core ..).trans own, fun k hk => (State.unpin_core ..).trans (away k hk)⟩

/-- A command that retires is found no more; DRAM and the queues stay. -/
theorem State.retireCmd_gone {s : State} {n id' : Nat} {m : Cmd} (h : (s.core n).cmd? id' = some m) :
    ((s.retireCmd n id').core n).cmd? id' = none ∧ ((s.retireCmd n id').core n).q = (s.core n).q ∧ (s.retireCmd n id').dram = s.dram := by
  have gone (c : Core) (hc : c.cmds = (s.core n).cmds.filter (fun x => x.id ≠ id')) : c.cmd? id' = none := by
    rw [Core.cmd?, hc]
    exact find?_remove (key := Cmd.id) id'
  cases hm : m.closesWindow with
  | false =>
    obtain ⟨store, own, -⟩ := State.retireCmd_retires h hm
    obtain ⟨cmds, q, -⟩ := (s.core n).without_frame s.stc m
    rw [own]
    exact ⟨gone _ (by rw [cmds, Core.cmd?_id h]), q, store.dram⟩
  | true =>
    obtain rfl := Core.cmd?_id h
    have kept (t : State) (i : Nat) : (((t.modTask i fun c => c.dropPins m.pins).pinsFell m.pins).core n).cmds = (t.core n).cmds ∧
        (((t.modTask i fun c => c.dropPins m.pins).pinsFell m.pins).core n).q = (t.core n).q := by
      have fell : ((t.modTask i fun c => c.dropPins m.pins).pinsFell m.pins).core n = (t.modTask i fun c => c.dropPins m.pins).core n := by
        rw [State.core, (State.pinsFell_diesAndAgendaOnly ..).cores, State.core]
      rw [fell]
      rcases t.modTask_core i n fun c => c.dropPins m.pins with same | dropped
      · rw [same]; exact ⟨rfl, rfl⟩
      · rw [dropped]; exact ⟨rfl, rfl⟩
    obtain ⟨cmds, q, -⟩ := (s.core n).without_frame s.stc m
    have own := State.setCore_core s n ((s.core n).without s.stc m)
    have retired : s.retireCmd n m.id =
        ((s.setCore n ((s.core n).without s.stc m)).modTask m.obj fun c => c.dropPins m.pins).pinsFell m.pins := by
      unfold State.retireCmd
      dsimp only
      rw [h]
      dsimp only
      split
      · next op => simp [Cmd.closesWindow, op] at hm
      · rfl
      · next other =>
        unfold Cmd.closesWindow at hm
        split at hm
        · next op => exact absurd op (other _ _ _)
        · cases hm
    obtain ⟨keptCmds, keptQ⟩ := kept (s.setCore n ((s.core n).without s.stc m)) m.obj
    rw [retired]
    refine ⟨gone _ ?_, ?_, (State.pinsFell_diesAndAgendaOnly ..).dram⟩
    · rw [keptCmds, own, cmds]
    · rw [keptQ, own, q]

end Sys2Proof.Machine

/-! SUPPORT. Pairing words: pinit and its write, and pushes and pops that leave for their object (08 R226, R227; 13 R338). -/

namespace Sys2Proof.Machine

-- one after another: every waiting worker thread counts towards the check's memory limit
set_option Elab.async false

/-! ### pinit (08 R226) -/

/-- The header values that pinit refuses. -/
theorem pinit_illegal_iff (v : Nat) :
    (v % 4 = 3 ∨ bitsN v 16 16 = 0 ∨ bitsN v 2 14 ≠ 0 ∨ v / 2 ^ 32 ≠ 0) ↔
      ¬(v % 4 ≠ 3 ∧ 1 ≤ v / 2 ^ 16 ∧ v / 2 ^ 16 < 65536 ∧ v / 4 % 2 ^ 14 = 0) := by
  simp only [bitsN]
  omega

theorem pageOf_one {p : PageTr} {va : Nat} (low : p.va ≤ va) (high : va < p.va + p.size) : pageOf [p] va = some p := by
  simp [pageOf, low, high]

section
variable {s t : State} (h : s.Begins {} t) {a b : RegF} (hf : t.RegsFree [a, b]) (ha : Rules.MayAccess t true)
include h hf ha

theorem pinit_writesLater {p : PageTr} (legal : (t.rd b).toNat % 4 ≠ 3 ∧ 1 ≤ (t.rd b).toNat / 2 ^ 16 ∧ (t.rd b).toNat / 2 ^ 16 < 65536 ∧
      (t.rd b).toNat / 4 % 2 ^ 14 = 0) (aligned : (t.rd a).toNat % 64 = 0) (maps : Rules.Maps t true [((t.rd a).toNat, 64)] [p]) :
    ∃ u m, exec (.pinit a b) s = .next u ∧ s.Issued u ∧ m ∈ u.cur.cmds ∧ m.op = .pinit a b ∧ m.addr = (t.rd a).toNat ∧ m.pages = [p] ∧
      m.rows = 0 ∧ m.value = BitVec.ofNat 64 (2 ^ 16 * ((t.rd b).toNat / 2 ^ 16) + 2 ^ 32 * ((t.rd b).toNat % 4)) ∧
      (∃ j ∈ u.agenda, j.due = s.stc + 1 ∧ j.ev = .storePerformed s.turn.core m.id) ∧ u.dram = s.dram := by
  obtain ⟨free, released⟩ := ha
  obtain ⟨t1, -, grows, maps⟩ := State.maps_pinned maps
  have here : t.turn.core = t1.turn.core := by rw [grows.turn]
  have cap : bitsN (t.rd b).toNat 16 16 = (t.rd b).toNat / 2 ^ 16 := Nat.mod_eq_of_lt legal.2.2.1
  obtain ⟨u, run, ends⟩ := h.accessIssues (i := .pinit a b) rfl hf free released ((if_neg (fun e => (pinit_illegal_iff _).mp e legal)).trans
    ((if_neg (not_not.mpr aligned)).trans (maps 0 _))) (by
    refine .trans ?_ (State.schedMem_extends ..)
    refine .trans ?_ (State.addCmd_extends _ here)
    exact grows.trans (State.stampFor_extends _ here))
  have taken := ends.mem_cmds ((State.schedMem_extends ..).cmds _ (State.mem_addCmd _ here))
  have placed := ends.agenda ▸ State.mem_schedMem ..
  rw [← h.turn, ← h.stc, ← grows.stc]
  refine ⟨u, _, run, ends.issued, taken, ?_, ?_, ?_, ?_, ?_, ⟨_, placed, ?_, ?_⟩, ends.dram⟩
  all_goals dsimp only [mkCmd]
  · rw [cap]
  all_goals rfl

theorem pinit_illegal (illegal : ¬((t.rd b).toNat % 4 ≠ 3 ∧ 1 ≤ (t.rd b).toNat / 2 ^ 16 ∧ (t.rd b).toNat / 2 ^ 16 < 65536 ∧
    (t.rd b).toNat / 4 % 2 ^ 14 = 0)) : exec (.pinit a b) s = .next (s.settled.wordTrap .illop 0) :=
  h.accessTrap rfl hf ha.1 ha.2 (if_pos ((pinit_illegal_iff _).mpr illegal))

theorem pinit_misaligned (legal : (t.rd b).toNat % 4 ≠ 3 ∧ 1 ≤ (t.rd b).toNat / 2 ^ 16 ∧ (t.rd b).toNat / 2 ^ 16 < 65536 ∧
    (t.rd b).toNat / 4 % 2 ^ 14 = 0) (off : (t.rd a).toNat % 64 ≠ 0) : exec (.pinit a b) s = .next (s.settled.wordTrap .addr 0) :=
  h.accessTrap rfl hf ha.1 ha.2 ((if_neg (fun e => (pinit_illegal_iff _).mp e legal)).trans (if_pos off))

end

/-! ### A store is performed -/

/-- A write at home stands at its page's address. -/
theorem State.homeWrite_stored {s : State} {n va : Nat} {ps : List PageTr} {p : PageTr} (plain : Rules.PlainDram s) (slot : s.slotOf n va = none)
    (run : (s.core n).tsk.run = 0) (page : pageOf ps va = some p) (bs : List Byte) (st : Stamp) (id' : Nat) :
    Rules.Stored s (s.homeWrite n ps va bs st id') (p.pa + (va - p.va)) bs ∧ s.BytesOnly (s.homeWrite n ps va bs st id') := by
  have written : s.homeWrite n ps va bs st id' = s.applyWrite (p.pa + (va - p.va)) bs st := by
    rw [State.homeWrite, slot, page]
    simp [run, State.writeOne, plain.logFull]
  rw [written]
  exact ⟨plain.applyWrite_stored .., plain.applyWrite_bytesOnly ..⟩

theorem State.BytesOnly.core {s u : State} (h : s.BytesOnly u) (n : Nat) : u.core n = s.core n := by
  rw [h.1]; rfl

/-- The end of a store: what stands in DRAM stays, whether it retires or waits for a refused write. -/
theorem State.storeEnds_sameStore {s : State} {n : Nat} {m x : Cmd} (h : (s.core n).cmd? x.id = some m) (hx : x.closesWindow = false) :
    let t := s.modCore n fun c => c.setCmd x
    s.SameStore (if t.refused n x.id then t.schedMem (t.stc + 1) (.storePerformed n x.id) x.stamp else t.retireCmd n x.id) := by
  have found : ((s.modCore n fun c => c.setCmd x).core n).cmd? x.id = some x := by
    rw [State.modCore_core]; exact Core.setCmd_cmd? h
  dsimp only
  split
  · exact (s.modCore_sameStore ..).trans (State.schedMem_sameStore ..)
  · exact (s.modCore_sameStore ..).trans (State.retireCmd_retires found hx).1

theorem pinit_writes {s : State} {n : Nat} {m : Cmd} {a b : RegF} {p : PageTr} (found : (s.core n).cmd? m.id = some m)
    (op : m.op = .pinit a b) (rows : m.rows = 0) (pages : m.pages = [p]) (low : p.va ≤ m.addr) (high : m.addr < p.va + p.size)
    (plain : Rules.PlainDram s) (slot : s.slotOf n m.addr = none) (run : (s.core n).tsk.run = 0) :
    Rules.Stored s (s.storeDone n m.id) (p.pa + (m.addr - p.va)) (leBytes 64 m.value.toNat) := by
  have page : pageOf m.pages m.addr = some p := by rw [pages]; exact pageOf_one low high
  obtain ⟨stored, bytes⟩ := State.homeWrite_stored plain slot run page (leBytes 64 m.value.toNat) m.stamp m.id
  have here := (congrArg (fun c => Core.cmd? c m.id) (bytes.core n)).trans found
  have ends := State.storeEnds_sameStore (x := { m with op := .pinit a b, rows := 1 }) here rfl
  unfold State.storeDone
  dsimp only
  rw [found]
  dsimp only
  rw [op]
  dsimp only
  rw [if_pos rows]
  exact ends.stored stored

/-! ### ppush and ppop (08 R227; 13 R338) -/

/-- A word whose access may go on and whose effect is known by a property of the state it leaves. -/
theorem State.Begins.accessLeaves {s t : State} {k : Kind} {i : Instr} {rs : List RegF} {rel : Bool} {body : State → Res}
    (hi : exec i s = .next (s.issue k fun u => u.interlock rs (fun w => w.access rel body) u)) (h : s.Begins k t) (hf : t.RegsFree rs)
    (ha : Rules.AccessFree t) (hr : rel = true → t.cur.allPerformed t.turn.q = true) {P : State → Prop}
    (hb : ∃ v, body t = .done v ∧ t.Extends v ∧ P v) : ∃ u v, exec i s = .next u ∧ s.IssuesAs t v u ∧ P v := by
  obtain ⟨v, done, grows, left⟩ := hb
  obtain ⟨u, run, ends⟩ := h.accessIssues hi hf ha hr done grows
  exact ⟨u, v, run, ends, left⟩

/-- The bytes of an object that lies in one page stand at one place. -/
theorem rangeLocs_one {p : PageTr} {va len : Nat} (low : p.va ≤ va) (high : va + len ≤ p.va + p.size) :
    rangeLocs [p] va len = [(locOf [p] va, len)] := by
  have start : Nat.max va p.va = va := Nat.max_eq_left low
  have stop : Nat.min (va + len) (p.va + p.size) = va + len := Nat.min_eq_left high
  rw [rangeLocs, List.map_singleton, start, stop, Nat.add_sub_cancel_left]

/-- The command m and the operation x that a pairing word leaves on its way to the object at pa. -/
structure State.PairSent (t v : State) (push que : Bool) (d b : RegF) (pa : Nat) (m : Cmd) (x : PairOp) : Prop where
  taken : m ∈ v.cur.cmds
  dst : m.dst = d.toNat
  dst2 : m.dst2 = if push then 64 else b.toNat
  sent : x ∈ v.pairs
  cmd : x.cmd = m.id
  core : x.core = t.turn.core
  kind : x.push = push
  item : x.item = t.rd b
  que : x.que = que
  obj : x.obj = pa
  stamp : x.stamp.stc = t.stc
  event : ∃ j ∈ v.agenda, t.stc < j.due ∧ j.ev = .pairingArrival x.id

/-- A state with an operation on its way. -/
def State.sendPair (t : State) (x : PairOp) : State := { t with pairs := t.pairs ++ [x] }
theorem State.sendPair_extends (t : State) (x : PairOp) : t.Extends (t.sendPair x) := .ofTables rfl rfl rfl rfl rfl
theorem State.mem_sendPair (t : State) (x : PairOp) : x ∈ (t.sendPair x).pairs := List.mem_append_right _ (List.mem_singleton.mpr rfl)
theorem State.holdLater_pairs (t : State) (acq : Bool) (id' : Nat) : (t.holdLater acq id').pairs = t.pairs := by cases acq <;> rfl

theorem State.Begins.pairLeaves {s t : State} (h : s.Begins { audit := true } t) {i : Instr} {push : Bool} {d a b : RegF} {que : BitVec 1}
    {o : Ordr} {p : PageTr} (hi : exec i s = .next (s.pairWord i push d a b que o))
    (acts : Rules.ActsOn s t [d, a, b] (t.rd a).toNat (t.objLen s.turn.core (t.rd a).toNat) true o p) :
    ∃ u v m x, exec i s = .next u ∧ s.IssuesAs t v u ∧ t.PairSent v push (que = 1#1) d b (p.pa + ((t.rd a).toNat - p.va)) m x := by
  obtain ⟨-, region, hf, ha, hr, runs, maps, low, high, clear, -⟩ := acts
  have open_ : ¬s.cal = true := by simp [State.cal, region]
  rw [← h.turn] at maps high clear
  rw [State.pairWord, if_neg open_] at hi
  obtain ⟨t1, pinned, grows, maps⟩ := State.maps_pinned maps
  have alike : t.SameReads t1 t.turn.core := pinned ▸ t.pin_sameReads ..
  have core : t1.core t.turn.core = t.cur.pin (pinKeys [p]) := pinned ▸ State.modCore_core ..
  have here : t.turn.core = t1.turn.core := by rw [grows.turn]
  have size := alike.objLen (t.rd a).toNat
  have within : (t.rd a).toNat < p.va + p.size := by
    have pos : 0 < t.objLen t.turn.core (t.rd a).toNat := by
      unfold State.objLen
      split
      all_goals omega
    omega
  have clear : t1.clashes t.turn.core t.turn.q (fun _ => true) (rangeLocs [p] (t.rd a).toNat (t1.objLen t.turn.core (t.rd a).toNat)) = false := by
    rw [size, rangeLocs_one low high, alike.clashes (core ▸ rfl) (core ▸ rfl)]
    exact clear
  obtain ⟨u, v, run, ends, m, x, sent⟩ := h.accessLeaves hi hf ha hr
    (P := fun v => ∃ m x, t.PairSent v push (que = 1#1) d b (p.pa + ((t.rd a).toNat - p.va)) m x) (by
    rw [if_neg (not_not.mpr runs), maps]
    dsimp only
    rw [clear, if_neg Bool.false_ne_true, pageOf_one low within]
    dsimp only
    have stamped : t1.Extends (t1.stampFor t.turn.core (seqNum t.turn.q)).2 ∧
        (t1.stampFor t.turn.core (seqNum t.turn.q)).1.stc = t1.stc := ⟨State.stampFor_extends _ here, rfl⟩
    generalize t1.stampFor t.turn.core (seqNum t.turn.q) = drawn at stamped ⊢
    obtain ⟨st, t2⟩ := drawn
    obtain ⟨grows', time⟩ := stamped
    have grows := (grows.trans grows').trans (State.fresh_extends t2)
    dsimp only at grows time ⊢
    generalize t2.fresh = numbered at grows ⊢
    obtain ⟨i', t3⟩ := numbered
    dsimp only at grows ⊢
    have here : t.turn.core = t3.turn.core := by rw [grows.turn]
    let m : Cmd := { mkCmd engNone t.turn.q i with
      addr := (t.rd a).toNat, pages := [p], pins := pinKeys [p], stamp := st,
      locs := rangeLocs [p] (t.rd a).toNat (t1.objLen t.turn.core (t.rd a).toNat), value := t3.rd b, dst := d.toNat,
      dst2 := if push then 64 else b.toNat, obj := i' }
    have grows' := grows.trans (State.addCmd_extends m here)
    have taken := State.mem_addCmd m here
    generalize hAdd : t3.addCmd t.turn.core m = added at grows' taken
    obtain ⟨id', t4⟩ := added
    dsimp only at grows' taken
    let x : PairOp := { id := i', core := t.turn.core, cmd := id', push := push, item := t4.rd b, que := que = 1#1,
                        obj := p.pa + ((t.rd a).toNat - p.va), path := t3.pairPath t.turn.core (p.pa + ((t.rd a).toNat - p.va)) false, stamp := st }
    have later := ((t4.sendPair_extends x).trans (State.holdLater_extends _ (ordAcq o.ord) id')).trans
      (State.schedFree_extends _ phTask (.pairingArrival i'))
    have sent : x ∈ ((t4.sendPair x).holdLater (ordAcq o.ord) id').pairs := by rw [State.holdLater_pairs]; exact t4.mem_sendPair x
    have event := State.mem_schedFree ((t4.sendPair x).holdLater (ordAcq o.ord) id') phTask (.pairingArrival i')
    rw [((t4.sendPair_extends x).trans (State.holdLater_extends _ (ordAcq o.ord) id')).stc, grows'.stc] at event
    refine ⟨_, rfl, grows'.trans later, _, x, later.cmds _ taken, rfl, rfl, sent, rfl, rfl, rfl, grows'.rd b, rfl, rfl, time.trans ?_, event⟩
    exact alike.stc)
  exact ⟨u, v, m, x, run, ends, sent⟩

/-- Settles O39: pinit, its write, and the two words of a pairing operation. -/
theorem pairingWords : Obligations.PairingWords := by
  unfold Obligations.PairingWords
  refine ⟨fun s t a b hq h hf ha => ⟨fun p => pinit_writesLater h hf ha, pinit_illegal h hf ha, pinit_misaligned h hf ha⟩,
    fun s n id' m a b p found op rows pages low high plain slot run => ?_, fun s t d a b que o p => ⟨fun region h i hi => ?_, fun h acts => ?_, fun h acts => ?_⟩⟩
  · obtain rfl := Core.cmd?_id found
    exact ⟨_, rfl, pinit_writes found op rows pages low high plain slot run⟩
  · have booked : s.cal = true := by simp [State.cal, region]
    have word : exec i s = .next (s.issue {} fun u => if u.cur.tsk.run ≠ 0 then .whole (u.runStop false) else .trap .illop 0 false) := by
      rcases hi with rfl | rfl
      all_goals exact congrArg Host.Outcome.next (if_pos booked)
    rw [word]
    refine ⟨fun runs => congrArg _ (h.trap (if_neg (not_not.mpr runs))), fun runs => congrArg _ ?_⟩
    rw [h.issue, if_pos runs]
    rfl
  · obtain ⟨u, v, m, x, run, ends, sent⟩ := h.pairLeaves (i := .ppush d a b que o) rfl acts
    rw [← h.turn, ← h.stc]
    refine ⟨u, m, x, run, ends.issued, ends.mem_cmds sent.taken, sent.dst, sent.dst2, ?_, sent.cmd, sent.core, sent.kind, sent.item,
      by simp [sent.que], sent.obj, sent.stamp, by rw [ends.agenda]; exact sent.event, ends.dram⟩
    rw [ends.pairs]; exact sent.sent
  · obtain ⟨u, v, m, x, run, ends, sent⟩ := h.pairLeaves (i := .ppop d b a que o) rfl acts
    rw [← h.stc]
    refine ⟨u, m, x, run, ends.issued, ends.mem_cmds sent.taken, sent.dst, sent.dst2, ?_, sent.cmd, sent.kind, sent.obj,
      by rw [ends.agenda]; exact sent.event, ends.dram⟩
    rw [ends.pairs]; exact sent.sent

end Sys2Proof.Machine

/-! SUPPORT. DRAM loads and stores, gathers and scatters, pref and qmark as they issue (08 R205, R207 to R209, R212; 09 R260). -/

namespace Sys2Proof.Machine

-- one after another: every waiting worker thread counts towards the check's memory limit
set_option Elab.async false

/-! ### Where an address is served, and how far it is -/

/-- One state follows another within a word, and the package serves every address as before. -/
structure State.Steady (t v : State) : Prop extends State.Extends t v, State.SameStore t v where
  cut : v.cut = t.cut

theorem State.Steady.trans {t v w : State} (h : t.Steady v) (k : v.Steady w) : t.Steady w :=
  { h.toExtends.trans k.toExtends, h.toSameStore.trans k.toSameStore with cut := k.cut.trans h.cut }

theorem State.pin_steady (t : State) (ks : List Nat) : t.Steady (t.modCur fun c => c.pin ks) :=
  { t.pin_extends ks, t.modCore_sameStore t.turn.core fun c => c.pin ks with cut := rfl }

theorem State.stampFor_steady {t : State} {n : Nat} (unit : Nat) (hn : n = t.turn.core) : t.Steady (t.stampFor n unit).2 :=
  { State.stampFor_extends unit hn, t.modCore_sameStore n fun c => c.drawSeq unit with cut := rfl }

theorem State.drawLat_steady (t : State) : t.Steady t.drawLat.2 := { t.drawLat_extends, t.drawLat_sameStore with cut := rfl }

theorem State.sqPop_steady (t : State) (q : RegF) : t.Steady (t.sqPop q) :=
  { t.sqPop_extends q, t.modCore_sameStore t.turn.core fun c => { c with q := c.q.setSq q.toNat ((c.q.squeue q.toNat).pop t.stc) } with
    cut := rfl }

section
variable {t v : State} (h : t.Steady v)
include h

theorem State.Steady.hops (a b : Nat) : v.hops a b = t.hops a b := by
  have whole (cw : Bool) : v.pathOk a b cw = t.pathOk a b cw := by rw [State.pathOk, h.cut, State.pathOk]
  have way : v.dirCw a b = t.dirCw a b := by rw [State.dirCw, whole, State.dirCw]
  rw [State.hops, way, State.hops]

theorem State.Steady.homeDie (ps : List PageTr) (va : Nat) : v.homeDie ps va = t.homeDie ps va := by
  simp only [State.homeDie, State.servedPa, h.resolve]

theorem State.Steady.cal : v.cal = t.cal := congrArg (fun y : SysSt => !y.region) h.sys

end

theorem State.booked_extends {t : State} {n : Nat} (pas : List Nat) (hn : n = t.turn.core) : t.Extends (t.booked n pas).2 := by
  subst hn
  exact t.modCur_extends_seq (f := fun c => { c with tsk := { c.tsk with dramUse := _ } }) (by rw [State.curSeq]; cases t.turn.q <;> rfl) rfl rfl
    (fun _ => id) fun _ => id

/-! ### lddram and stdram (08 R205, R208; 09 R260) -/

/-- What an access of 16 rows to DRAM asks of its address and pitch. -/
theorem rowsAligned {ea pitch : Nat} (h : ea % 64 = 0 ∧ pitch % 64 = 0 ∧ pitch < 2 ^ 32) : ¬(ea % 64 ≠ 0 ∨ pitch % 64 ≠ 0 ∨ 2 ^ 32 ≤ pitch) := by
  omega

theorem rowsMisaligned {ea pitch : Nat} (h : ¬(ea % 64 = 0 ∧ pitch % 64 = 0 ∧ pitch < 2 ^ 32)) : ea % 64 ≠ 0 ∨ pitch % 64 ≠ 0 ∨ 2 ^ 32 ≤ pitch := by
  omega

section
variable {s t : State} (h : s.Begins {} t) {q : RegF} {b x : BitVec 5} {o : BitVec 24} (hf : t.RegsFree [b.setWidth 6, x.setWidth 6])
  (ha : Rules.AccessFree t)
include h hf ha

theorem lddram_starts {ps : List PageTr}
    (aligned : t.memEa b o % 64 = 0 ∧ t.pitchOf b x % 64 = 0 ∧ t.pitchOf b x < 2 ^ 32)
    (maps : Rules.Maps t false (dramRows (t.memEa b o) (t.pitchOf b x)) ps) (room : (t.cur.cmds.filter fun m => m.eng = engLde).length < 8) :
    ∃ u m, exec (.lddram q b x o) s = .next u ∧ s.Issued u ∧ m ∈ u.cur.cmds ∧ m.op = .lddram q b x o ∧ m.pages = ps ∧
      m.addr = t.memEa b o ∧ m.pitch = t.pitchOf b x ∧ m.queue = q.toNat ∧ m.pins = pinKeys ps ∧
      (∃ j ∈ u.agenda, s.stc < j.due ∧ j.ev = .lddramReturn s.turn.core m.id) ∧
      (t.cur.sys.region = false → ⟨s.stc + 400 + 48 * t.hops (dieOf s.turn.core) (t.homeDie ps (t.memEa b o)), phEngine,
        .loadQueuePush s.turn.core m.id, {}, {}⟩ ∈ u.agenda) := by
  obtain ⟨t1, pinned, -, maps⟩ := State.maps_pinned maps
  have grows : t.Steady t1 := pinned ▸ t.pin_steady ..
  have cmds : t1.cur.cmds = t.cur.cmds := by rw [pinned, State.pin_cur]; rfl
  have here : t.turn.core = t1.turn.core := by rw [grows.turn]
  obtain ⟨u, v, run, ends, m, mem, op, pages, addr, pitch, queue, pins, event, push⟩ := h.accessLeaves (i := .lddram q b x o) rfl hf ha nofun
    (P := fun v => ∃ m ∈ v.cur.cmds, m.op = .lddram q b x o ∧ m.pages = ps ∧
      m.addr = t.memEa b o ∧ m.pitch = t.pitchOf b x ∧ m.queue = q.toNat ∧ m.pins = pinKeys ps ∧
      (∃ j ∈ v.agenda, t.stc < j.due ∧ j.ev = .lddramReturn t.turn.core m.id) ∧
      (t.cal = true → ⟨t.stc + 400 + 48 * t.hops (dieOf t.turn.core) (t.homeDie ps (t.memEa b o)), phEngine,
        .loadQueuePush t.turn.core m.id, {}, {}⟩ ∈ v.agenda)) (by
    dsimp only
    rw [if_neg (rowsAligned aligned), maps, if_neg (by rw [cmds]; exact Nat.not_le.mpr room)]
    have stamped := grows.trans (State.stampFor_steady (unitOfEng engLde) here)
    generalize t1.stampFor t.turn.core (unitOfEng engLde) = drawn at stamped ⊢
    obtain ⟨st, t2⟩ := drawn
    have grows := stamped.trans t2.drawLat_steady
    have late : 0 < t2.drawLat.1 := Nat.succ_pos _
    dsimp only at grows ⊢
    generalize t2.drawLat = drawn at grows late ⊢
    obtain ⟨f, t3⟩ := drawn
    dsimp only at grows late ⊢
    rw [grows.hops, grows.homeDie, grows.stc, grows.cal]
    have here : t.turn.core = t3.turn.core := by rw [grows.turn]
    have time := grows.stc
    cases cal : t.cal
    · rw [if_neg Bool.false_ne_true]
      refine ⟨_, rfl, .trans (grows.toExtends.trans (State.addCmd_extends _ here)) (State.schedMem_extends ..),
        _, (State.schedMem_extends ..).cmds _ (State.mem_addCmd _ here), rfl, rfl, rfl, rfl, rfl, rfl, ⟨_, State.mem_schedMem .., ?_, rfl⟩, nofun⟩
      show t.stc < t3.stc + _
      rw [time]
      omega
    · rw [if_pos rfl]
      have grows := grows.toExtends.trans (State.booked_extends ((dramUnits (t.memEa b o) (t.pitchOf b x)).filterMap (t3.servedPa ps)) here)
      have here : t.turn.core = (t3.booked t.turn.core ((dramUnits (t.memEa b o) (t.pitchOf b x)).filterMap (t3.servedPa ps))).2.turn.core := by
        rw [grows.turn]
      refine ⟨_, rfl, .trans (grows.trans (State.addCmd_extends _ here)) ((State.schedMem_extends ..).trans (State.sched_extends ..)),
        _, ((State.schedMem_extends ..).trans (State.sched_extends ..)).cmds _ (State.mem_addCmd _ here), rfl, rfl, rfl, rfl, rfl, rfl,
        ⟨_, (State.sched_extends ..).agenda _ (State.mem_schedMem ..), ?_, rfl⟩, fun _ => (mem_insJob ..).mpr (.inl rfl)⟩
      show t.stc < if _ then Nat.min (t3.stc + _) _ else t3.stc + _
      rw [time]
      generalize 48 * t.hops (dieOf t.turn.core) (t.homeDie ps (t.memEa b o)) = way
      split
      · exact Nat.lt_min.mpr ⟨by omega, by omega⟩
      · exact Nat.lt_add_of_pos_right (by omega))
  rw [← h.turn, ← h.stc]
  refine ⟨u, m, run, ends.issued, ends.mem_cmds mem, op, pages, addr, pitch, queue, pins, ?_, fun calendar => ?_⟩
  · rw [ends.agenda]; exact event
  · rw [ends.agenda]; exact push (by rw [State.cal, calendar]; rfl)

theorem stdram_starts {ps : List PageTr} {v : VReg}
    (aligned : t.memEa b o % 64 = 0 ∧ t.pitchOf b x % 64 = 0 ∧ t.pitchOf b x < 2 ^ 32)
    (maps : Rules.Maps t true (dramRows (t.memEa b o) (t.pitchOf b x)) ps) (room : (t.cur.cmds.filter fun m => m.eng = engSte).length < 8)
    (head : t.sqHead q = some v) :
    ∃ u m, exec (.stdram q b x o) s = .next u ∧ s.Issued u ∧ m ∈ u.cur.cmds ∧ m.op = .stdram q b x o ∧ m.pages = ps ∧
      m.addr = t.memEa b o ∧ m.pitch = t.pitchOf b x ∧ m.data = v ∧ m.pins = pinKeys ps ∧ u.dram = s.dram ∧
      (∃ j ∈ u.agenda, s.stc < j.due ∧ j.ev = .storePerformed s.turn.core m.id) := by
  obtain ⟨t1, pinned, grows, maps⟩ := State.maps_pinned maps
  have cmds : t1.cur.cmds = t.cur.cmds := by rw [pinned, State.pin_cur]; rfl
  have held : t1.sqHead q = some v := by
    rw [State.sqHead, pinned, State.pin_cur]
    exact head
  obtain ⟨u, w, run, ends, m, mem, op, pages, addr, pitch, data, pins, event⟩ := h.accessLeaves (i := .stdram q b x o) rfl hf ha nofun
    (P := fun w => ∃ m ∈ w.cur.cmds, m.op = .stdram q b x o ∧ m.pages = ps ∧
      m.addr = t.memEa b o ∧ m.pitch = t.pitchOf b x ∧ m.data = v ∧ m.pins = pinKeys ps ∧
      (∃ j ∈ w.agenda, t.stc < j.due ∧ j.ev = .storePerformed t.turn.core m.id)) (by
    dsimp only
    rw [if_neg (rowsAligned aligned), maps, held]
    dsimp only
    rw [if_neg (by rw [cmds]; exact Nat.not_le.mpr room)]
    have grows := grows.trans (t1.sqPop_extends q)
    have here : t.turn.core = (t1.sqPop q).turn.core := by rw [grows.turn]
    have grows := grows.trans (State.stampFor_extends (unitOfEng engSte) here)
    generalize (t1.sqPop q).stampFor t.turn.core (unitOfEng engSte) = drawn at grows ⊢
    obtain ⟨st, t2⟩ := drawn
    dsimp only at grows ⊢
    have here : t.turn.core = t2.turn.core := by rw [grows.turn]
    have time := grows.stc
    refine ⟨_, rfl, (grows.trans (State.addCmd_extends _ here)).trans ((State.drawLat_extends _).trans (State.schedMem_extends ..)), _,
      ((State.drawLat_extends _).trans (State.schedMem_extends ..)).cmds _ (State.mem_addCmd _ here), rfl, rfl, rfl, rfl, rfl,
      rfl, ⟨_, State.mem_schedMem .., ?_, rfl⟩⟩
    show t.stc < t2.stc + (Config.freeLatency _ + 1) + _
    rw [time]
    omega)
  rw [← h.turn, ← h.stc]
  exact ⟨u, m, run, ends.issued, ends.mem_cmds mem, op, pages, addr, pitch, data, pins, ends.dram, by rw [ends.agenda]; exact event⟩

theorem dramWord_misaligned (off : ¬(t.memEa b o % 64 = 0 ∧ t.pitchOf b x % 64 = 0 ∧ t.pitchOf b x < 2 ^ 32)) :
    exec (.lddram q b x o) s = .next (s.settled.wordTrap .addr 0) ∧ exec (.stdram q b x o) s = .next (s.settled.wordTrap .addr 0) :=
  ⟨h.accessTrap rfl hf ha nofun (if_pos (rowsMisaligned off)), h.accessTrap rfl hf ha nofun (if_pos (rowsMisaligned off))⟩

theorem lddram_unmapped (aligned : t.memEa b o % 64 = 0 ∧ t.pitchOf b x % 64 = 0 ∧ t.pitchOf b x < 2 ^ 32)
    (bad : t.xlateAll t.turn.core false (dramRows (t.memEa b o) (t.pitchOf b x)) [] = .error .bad) :
    exec (.lddram q b x o) s = .next (s.settled.wordTrap .addr 0) :=
  h.accessTrap rfl hf ha nofun ((if_neg (rowsAligned aligned)).trans (State.translated_bad bad ..))

theorem stdram_unmapped (aligned : t.memEa b o % 64 = 0 ∧ t.pitchOf b x % 64 = 0 ∧ t.pitchOf b x < 2 ^ 32)
    (bad : t.xlateAll t.turn.core true (dramRows (t.memEa b o) (t.pitchOf b x)) [] = .error .bad) :
    exec (.stdram q b x o) s = .next (s.settled.wordTrap .addr 0) :=
  h.accessTrap rfl hf ha nofun ((if_neg (rowsAligned aligned)).trans (State.translated_bad bad ..))

/-! ### ldgath and stscat (08 R205, R209) -/

theorem gseWord_misaligned (off : t.memEa b o % 4 ≠ 0 ∨ (t.areg x).toNat % 64 ≠ 0 ∨ 2 ^ 23 < (t.areg x).toNat + 4096) :
    exec (.ldgath q b x o) s = .next (s.settled.wordTrap .addr 0) ∧ exec (.stscat q b x o) s = .next (s.settled.wordTrap .addr 0) :=
  ⟨h.accessTrap rfl hf ha nofun (if_pos off), h.accessTrap rfl hf ha nofun (if_pos off)⟩

/-- A gather or scatter that its engine has room for becomes a command, whose engine looks at it in the next cycle. -/
theorem State.Begins.gseWord_starts {i : Instr} {f : State → Option (Cmd × State)} {m : Cmd} {t' : State}
    (hi : exec i s = .next (s.gseWord (memRegs b x) b x o f)) (taken : f t = some (m, t')) (grows : t.Extends t')
    (cmds : t'.cur.cmds = t.cur.cmds) (within : ¬(t.memEa b o % 4 ≠ 0 ∨ (t.areg x).toNat % 64 ≠ 0 ∨ spmSize < (t.areg x).toNat + 4096))
    (room : (t.cur.cmds.filter fun m => m.eng = engGse).length < 4) :
    ∃ u y, exec i s = .next u ∧ s.Issued u ∧ y ∈ u.cur.cmds ∧ y.op = m.op ∧ y.addr = t.memEa b o ∧ y.table = (t.areg x).toNat ∧
      y.data = m.data ∧ (∃ j ∈ u.agenda, j.due = s.stc + 1 ∧ j.ev = .gatherElement s.turn.core y.id 0) := by
  obtain ⟨u, w, run, ends, y, mem, op, addr, table, data, event⟩ := h.accessLeaves hi hf ha nofun
    (P := fun w => ∃ y ∈ w.cur.cmds, y.op = m.op ∧ y.addr = t.memEa b o ∧ y.table = (t.areg x).toNat ∧ y.data = m.data ∧
      (∃ j ∈ w.agenda, j.due = t.stc + 1 ∧ j.ev = .gatherElement t.turn.core y.id 0)) (by
    dsimp only
    rw [if_neg within, taken]
    dsimp only
    rw [if_neg (by rw [cmds]; exact Nat.not_le.mpr room)]
    have here : t.turn.core = t'.turn.core := by rw [grows.turn]
    have grows := grows.trans (State.stampFor_extends (unitOfEng engGse) here)
    generalize t'.stampFor t.turn.core (unitOfEng engGse) = drawn at grows ⊢
    obtain ⟨st, t2⟩ := drawn
    dsimp only at grows ⊢
    have here : t.turn.core = t2.turn.core := by rw [grows.turn]
    refine ⟨_, rfl, (grows.trans (State.addCmd_extends _ here)).trans (State.schedMem_extends ..),
      _, (State.schedMem_extends ..).cmds _ (State.mem_addCmd _ here), rfl, rfl, rfl, rfl, ⟨_, State.mem_schedMem .., ?_, rfl⟩⟩
    exact congrArg (· + 1) grows.stc)
  rw [← h.turn, ← h.stc]
  exact ⟨u, y, run, ends.issued, ends.mem_cmds mem, op, addr, table, data, by rw [ends.agenda]; exact event⟩

end

/-! ### pref and qmark (08 R207, R212) -/

/-- A page enters the cache of the task, the newest last; one of a full cache leaves. -/
theorem State.fillCache_extends (t : State) (p : PageTr) :
    t.Extends (t.fillCache t.turn.core p) ∧ (t.fillCache t.turn.core p).cur.cmds = t.cur.cmds ∧
      p ∈ (t.fillCache t.turn.core p).cur.tsk.tcache := by
  let f (c : Core) : Core := { c with tsk := { c.tsk with
    tcache := (if t.cur.tsk.tcache.length < 512 then t.cur.tsk.tcache else t.cur.tsk.tcache.eraseIdx (Config.freeChoice t.freeCtr % 512)) ++ [p] } }
  have filled : (t.fillCache t.turn.core p).cur = f t.cur := State.setCore_core ..
  refine ⟨.trans (v := t.modCur f) ?_ (.ofTables rfl rfl rfl rfl rfl), by rw [filled], by rw [filled]; exact List.mem_append_right _ (List.mem_singleton.mpr rfl)⟩
  exact t.modCur_extends_seq (by rw [State.curSeq]; cases t.turn.q <;> rfl) rfl rfl (fun _ => id) fun _ => id

/-- A word whose effect extends the state that it began in issues. -/
theorem State.Begins.doneIssues {s t v : State} {k : Kind} {i : Instr} {body : State → Res} (h : s.Begins k t)
    (hi : exec i s = .next (s.issue k body)) (hb : body t = .done v) (grows : t.Extends v) : ∃ u, exec i s = .next u ∧ s.IssuesAs t v u :=
  ⟨_, hi.trans (congrArg Host.Outcome.next (h.done hb)), h.issuesAs grows ..⟩

theorem State.prefetch_extends (t : State) (va : Nat) :
    t.Extends (t.prefetch va) ∧ (t.prefetch va).cur.cmds = t.cur.cmds ∧ (t.cal = true → t.prefetch va = t) ∧
      ∀ p, t.cal = false → t.xlate t.turn.core va false = .miss p → p ∈ (t.prefetch va).cur.tsk.tcache := by
  unfold State.prefetch
  dsimp only
  cases cal : t.cal
  · rw [if_neg Bool.false_ne_true]
    split
    · next p miss =>
      obtain ⟨grows, cmds, filled⟩ := t.fillCache_extends p
      exact ⟨grows, cmds, nofun, fun p' _ e => by cases miss.symm.trans e; exact filled⟩
    · next other => exact ⟨.refl t, rfl, nofun, fun p _ e => absurd e (other p)⟩
  · exact ⟨.refl t, rfl, fun _ => rfl, nofun⟩

theorem pref_fills {s t : State} (h : s.Begins {} t) {b x : BitVec 5} (o : BitVec 24) (hf : t.RegsFree [b.setWidth 6, x.setWidth 6]) :
    ∃ u, exec (.pref b x o) s = .next u ∧ s.Issued u ∧ u.dram = s.dram ∧ u.cur.cmds = t.cur.cmds ∧
      (∀ p, t.cur.sys.region = true → t.xlate s.turn.core (Rules.spmWord.sum t b x o) false = .miss p → p ∈ u.cur.tsk.tcache) ∧
      (t.cur.sys.region = false → u.cur.tsk = t.cur.tsk) := by
  obtain ⟨grows, cmds, calendar, fills⟩ := t.prefetch_extends (Rules.spmWord.sum t b x o)
  obtain ⟨u, run, ends⟩ := h.doneIssues (i := .pref b x o) rfl (hf.interlock _) grows
  rw [← h.turn]
  refine ⟨u, run, ends.issued, ends.dram, ends.cmds.trans cmds, fun p board miss => ?_, fun region => ?_⟩
  · rw [ends.tsk]; exact fills p (by rw [State.cal, board]; rfl) miss
  · exact ends.tsk.trans (congrArg (fun v => v.cur.tsk) (calendar (by rw [State.cal, region]; rfl)))

section
variable {s t : State} (h : s.Begins {} t) {tag : BitVec 8} {mine other : List (BitVec 8)}
  (sides : (if t.turn.q = .l then (t.cur.tsk.qmL, t.cur.tsk.qmS) else (t.cur.tsk.qmS, t.cur.tsk.qmL)) = (mine, other))
include h sides

/-- A marker that its partner does not contradict stands on its side. -/
theorem qmark_marks (agree : ∀ g, other[mine.length]? = some g → g = tag) : ∃ u, exec (.qmark tag) s = .next u ∧ s.Issued u ∧
    u.cur.tsk.qmL = (if t.turn.q = .l then t.cur.tsk.qmL ++ [tag] else t.cur.tsk.qmL) ∧
    u.cur.tsk.qmS = (if t.turn.q = .l then t.cur.tsk.qmS else t.cur.tsk.qmS ++ [tag]) := by
  have same : ¬(other[mine.length]?.any fun x => decide (x ≠ tag)) = true := by
    cases partner : other[mine.length]? with
    | none => exact Bool.false_ne_true
    | some g => simp [agree g partner]
  let marked : TaskSt := if t.turn.q = .l then { t.cur.tsk with qmL := t.cur.tsk.qmL ++ [tag], qmLid := t.cur.tsk.qmLid ++ [t.cur.nextCmd] }
    else { t.cur.tsk with qmS := t.cur.tsk.qmS ++ [tag], qmSid := t.cur.tsk.qmSid ++ [t.cur.nextCmd] }
  obtain ⟨u, run, ends⟩ := h.doneIssues (i := .qmark tag) (v := t.modCur fun c => { c with tsk := marked }) rfl
    (by dsimp only; rw [sides]; exact if_neg same)
    (t.modCur_extends_seq (by rw [State.curSeq]; cases t.turn.q <;> rfl) rfl rfl (fun _ => id) fun _ => id)
  refine ⟨u, run, ends.issued, ?_⟩
  rw [ends.tsk, State.modCur_cur]
  dsimp only [marked]
  split
  · exact ⟨rfl, rfl⟩
  · exact ⟨rfl, rfl⟩

/-- One whose partner has another tag traps. -/
theorem qmark_differs {g : BitVec 8} (partner : other[mine.length]? = some g) (differs : g ≠ tag) :
    exec (.qmark tag) s = .next (s.settled.wordTrap .illop 0) := by
  refine congrArg Host.Outcome.next (h.trap ?_)
  dsimp only
  rw [sides]
  dsimp only
  rw [partner]
  exact if_pos (decide_eq_true differs)

end

/-- Settles O30: lddram, stdram, ldgath, stscat, pref and qmark. -/
theorem dramAccess : Obligations.DramAccess := by
  unfold Obligations.DramAccess
  refine ⟨fun s t q b x o ps hq h hf ha => ?_, fun s t b x o hq h hf => pref_fills h o hf, fun s t tag hq h => ?_⟩
  · refine ⟨fun aligned maps room => lddram_starts h hf ha aligned maps room,
      fun v aligned maps room head => stdram_starts h hf ha aligned maps room head, fun bad => ?_, fun bad => ?_,
      fun off => gseWord_misaligned h hf ha off, fun ea tb top room => ?_⟩
    · by_cases aligned : t.memEa b o % 64 = 0 ∧ t.pitchOf b x % 64 = 0 ∧ t.pitchOf b x < 2 ^ 32
      · exact lddram_unmapped h hf ha aligned (h.turn ▸ bad.resolve_left (not_not.mpr aligned))
      · exact (dramWord_misaligned h hf ha aligned).1
    · by_cases aligned : t.memEa b o % 64 = 0 ∧ t.pitchOf b x % 64 = 0 ∧ t.pitchOf b x < 2 ^ 32
      · exact stdram_unmapped h hf ha aligned (h.turn ▸ bad.resolve_left (not_not.mpr aligned))
      · exact (dramWord_misaligned h hf ha aligned).2
    · have within : ¬(t.memEa b o % 4 ≠ 0 ∨ (t.areg x).toNat % 64 ≠ 0 ∨ spmSize < (t.areg x).toNat + 4096) := by
        rintro (off | off | off)
        exacts [off ea, off tb, Nat.not_lt.mpr top off]
      refine ⟨?_, fun v head => ?_⟩
      · obtain ⟨u, y, run, issued, mem, op, addr, table, -, event⟩ := h.gseWord_starts (i := .ldgath q b x o) hf ha rfl rfl (.refl t) rfl within room
        exact ⟨u, y, run, issued, mem, op, addr, table, event⟩
      · exact h.gseWord_starts (i := .stscat q b x o) hf ha rfl (by rw [head]; rfl) (t.sqPop_extends q) (t.sqPop_cmds q) within room
  · have here := h.turn
    refine ⟨fun l agree => ?_, fun c agree => ?_, fun l g partner differs => ?_, fun c g partner differs => ?_⟩
    · have side : t.turn.q = .l := by rw [here, l]
      obtain ⟨u, run, issued, ofL, ofS⟩ := qmark_marks h (if_pos side) agree
      exact ⟨u, run, issued, ofL.trans (if_pos side), ofS.trans (if_pos side)⟩
    · have side : ¬t.turn.q = .l := by rw [here, c]; exact nofun
      obtain ⟨u, run, issued, ofL, ofS⟩ := qmark_marks h (if_neg side) agree
      exact ⟨u, run, issued, ofS.trans (if_neg side), ofL.trans (if_neg side)⟩
    · exact qmark_differs h (if_pos (by rw [here, l])) partner differs
    · exact qmark_differs h (if_neg (by rw [here, c]; exact nofun)) partner differs

end Sys2Proof.Machine

/-! SUPPORT. Copies on cpe: how a node is placed, starts, moves its units and retires (08 R213, R214). -/

namespace Sys2Proof.Machine

-- one after another: every waiting worker thread counts towards the check's memory limit
set_option Elab.async false

/-! ### A node takes its place -/

/-- The core with a node placed, which is the latest of its tag. -/
def Core.addNode (c : Core) (k : CopyNode) (sp dp : List PageTr) (st : Stamp) : Core :=
  let d := { c with nextCmd := c.nextCmd + 1, tsk := { c.tsk with
    copies := c.tsk.copies ++ [{ k with id := c.nextCmd, spages := sp, dpages := dp, stamp := st }],
    tagIds := SMap.ins c.tsk.tagIds k.tag c.nextCmd } }
  d.modEngine engCpe fun x => { x with out := x.out + 1 }

theorem Core.addNode_frame (c : Core) (k : CopyNode) (sp dp : List PageTr) (st : Stamp) :
    (c.addNode k sp dp st).sys = c.sys ∧ (c.addNode k sp dp st).spm = c.spm ∧ (c.addNode k sp dp st).cmds = c.cmds ∧
      (c.addNode k sp dp st).reqs = c.reqs ∧ (∀ q, (c.addNode k sp dp st).seq q = c.seq q) ∧
      ((c.addNode k sp dp st).engine engCpe).out = (c.engine engCpe).out + 1 :=
  ⟨rfl, rfl, rfl, rfl, fun q => by cases q <;> rfl, by simp [Core.addNode, Core.modEngine, Core.engine]⟩

/-- Shadows opened leave every engine as it was. -/
theorem State.openShadows_extends (t : State) (ps : List PageTr) :
    t.Extends (t.openShadows t.turn.core ps) ∧ (t.openShadows t.turn.core ps).cur.eng = t.cur.eng := by
  refine foldl_related (R := fun s u : State => s.turn.core = t.turn.core → s.Extends u ∧ u.cur.eng = s.cur.eng)
    (fun s _ => ⟨.refl s, rfl⟩) (fun {s u w} h k here => ?_) (fun s p here => ?_) ps t rfl
  · obtain ⟨grows, eng⟩ := h here
    obtain ⟨grows', eng'⟩ := k (by rw [grows.turn, here])
    exact ⟨grows.trans grows', eng'.trans eng⟩
  · rw [← here]
    dsimp only
    split
    · exact ⟨.refl s, rfl⟩
    · refine ⟨?_, by rw [State.cur, State.setCore_turn, State.setCore_core]; rfl⟩
      exact s.modCur_extends_seq (f := fun c => { c with tsk := { c.tsk with shadows := _ } }) (by rw [State.curSeq]; cases s.turn.q <;> rfl)
        rfl rfl (fun _ => id) fun _ => id

/-- What a node that takes its place leaves. -/
structure State.NodePlaced (t v : State) (k x : CopyNode) (ps qs : List PageTr) : Prop where
  value : x = { k with id := x.id, spages := ps, dpages := qs, stamp := x.stamp }
  mem : x ∈ v.cur.tsk.copies
  latest : SMap.get? v.cur.tsk.tagIds k.tag = some x.id
  out : (v.cur.engine engCpe).out = (t.cur.engine engCpe).out + 1
  event : ⟨t.stc + 1, phEngine, .copyNodeStart t.turn.core x.id, {}, {}⟩ ∈ v.agenda

/-- A copy whose checks pass and whose sides are mapped takes its place. -/
theorem State.enqueue_places {t : State} {k : CopyNode} {ps qs : List PageTr} (apart : ¬(k.overlaps ∨ (k.shadow ∧ k.dspm)))
    (aligned : ¬(k.src % 64 ≠ 0 ∨ k.dst % 64 ≠ 0))
    (within : ¬((k.sspm ∧ spmSize < k.span k.src k.spitch) ∨ (k.dspm ∧ spmSize < k.span k.dst k.dpitch)))
    (source : Rules.Maps t false (k.ranges k.src k.spitch k.sspm) ps)
    (dest : t.xlateAll t.turn.core true (k.ranges k.dst k.dpitch k.dspm) [] = .ok qs)
    (near : ∀ p ∈ qs, realPa p.pa = true → paPkg p.pa = t.pkg) (room : (t.cur.pin (pinKeys ps)).pinRoom (pinKeys qs) = true) :
    ∃ v, t.enqueue k = .done v ∧ t.Extends v ∧ ∃ x, t.NodePlaced v k x ps qs := by
  obtain ⟨t1, pinned, grows, source⟩ := State.maps_pinned source
  have alike : t.SameReads t1 t.turn.core := pinned ▸ t.pin_sameReads ..
  have own : t1.cur = t.cur.pin (pinKeys ps) := pinned ▸ State.pin_cur ..
  have eng : t1.cur.eng = t.cur.eng := by rw [own]; rfl
  have dest : Rules.Maps t1 true (k.ranges k.dst k.dpitch k.dspm) qs :=
    ⟨by rw [grows.turn, alike.xlateAll]; exact dest, by rw [alike.pkg]; exact near, by rw [own]; exact room⟩
  obtain ⟨t2, pinned, grows', dest⟩ := State.maps_pinned dest
  have eng : t2.cur.eng = t.cur.eng := by rw [pinned, State.pin_cur, ← eng]; rfl
  have grows := grows.trans grows'
  unfold State.enqueue
  dsimp only
  rw [if_neg apart, if_neg aligned, if_neg within, source, dest]
  have shaded : t.Extends (if k.shadow then t2.openShadows t.turn.core qs else t2) ∧
      (if k.shadow then t2.openShadows t.turn.core qs else t2).cur.eng = t.cur.eng := by
    obtain ⟨opens, same⟩ := t2.openShadows_extends qs
    rw [grows.turn] at opens same
    split
    · exact ⟨grows.trans opens, same.trans eng⟩
    · exact ⟨grows, eng⟩
  generalize (if k.shadow then t2.openShadows t.turn.core qs else t2) = t3 at shaded ⊢
  obtain ⟨grows, eng⟩ := shaded
  have here : t.turn.core = t3.turn.core := by rw [grows.turn]
  have stamped := grows.trans (State.stampFor_extends (unitOfEng engCpe) here)
  have eng : (t3.stampFor t.turn.core (unitOfEng engCpe)).2.cur.eng = t.cur.eng := by
    rw [here, t3.stampFor_cur, ← eng]; rfl
  generalize t3.stampFor t.turn.core (unitOfEng engCpe) = drawn at stamped eng ⊢
  obtain ⟨st, t4⟩ := drawn
  dsimp only at stamped eng ⊢
  have here : t.turn.core = t4.turn.core := by rw [stamped.turn]
  obtain ⟨sys, spm, cmds, reqs, seq, out⟩ := t4.cur.addNode_frame k ps qs st
  have placed := t4.modCur_extends_seq (f := fun c => c.addNode k ps qs st) (seq _) sys spm (by rw [cmds]; exact fun _ => id)
    (by rw [reqs]; exact fun _ => id)
  have own : (t4.modCur fun c => c.addNode k ps qs st).cur = t4.cur.addNode k ps qs st := State.modCur_cur ..
  rw [here]
  refine ⟨_, rfl, (stamped.trans placed).trans (State.sched_extends ..), { k with id := t4.cur.nextCmd, spages := ps, dpages := qs, stamp := st },
    rfl, ?_, ?_, ?_, ?_⟩
  · show _ ∈ (t4.modCur fun c => c.addNode k ps qs st).cur.tsk.copies
    rw [own]
    exact List.mem_append_right _ (List.mem_singleton.mpr rfl)
  · show SMap.get? (t4.modCur fun c => c.addNode k ps qs st).cur.tsk.tagIds k.tag = _
    rw [own]
    exact SMap.get?_ins ..
  · show ((t4.modCur fun c => c.addNode k ps qs st).cur.engine engCpe).out = _
    rw [own, out, Core.engine, eng, Core.engine]
  · rw [here, ← stamped.stc]
    exact (mem_insJob ..).mpr (.inl rfl)

/-! ### Both words of a copy -/

/-- A copy whose lengths are legal enqueues its node. -/
theorem copyOf_enqueues {s t : State} {i : Instr} {src dst len rows sp dp tag : Nat} {regs : List RegF} {sh ss ds : Bool}
    (h : Rules.copyOf t i = some (src, dst, len, rows, sp, dp, regs, sh, ss, ds, tag)) :
    ∃ body k, exec i s = .next (s.issue {} fun u => u.interlock regs (fun w => w.access false body) u) ∧ body t = t.enqueue k ∧
      k.src = src ∧ k.dst = dst ∧ k.len = len ∧ k.rows = rows ∧ k.spitch = sp ∧ k.dpitch = dp ∧ k.shadow = sh ∧ k.sspm = ss ∧
      k.dspm = ds ∧ k.tag = tag := by
  unfold Rules.copyOf at h
  split at h
  · next d a b c tag sh ss ds =>
    dsimp only at h
    split at h
    · cases h
    · next legal =>
      obtain ⟨rfl, rfl, rfl, rfl, rfl, rfl, rfl, rfl, rfl, rfl, rfl⟩ : _ ∧ _ := by simpa using h
      exact ⟨_, _, rfl, if_neg legal, rfl, rfl, rfl, rfl, rfl, rfl, rfl, rfl, rfl, rfl⟩
  · next d a b c tag sh ss ds =>
    dsimp only at h
    split at h
    · cases h
    · next legal =>
      obtain ⟨rfl, rfl, rfl, rfl, rfl, rfl, rfl, rfl, rfl, rfl, rfl⟩ : _ ∧ _ := by simpa using h
      have rows : bitsN (t.rd b).toNat 32 16 = (t.rd b).toNat / 2 ^ 32 := Nat.mod_eq_of_lt (by omega)
      have lengths : ¬((t.rd b).toNat % 2 ^ 32 = 0 ∨ (t.rd b).toNat % 2 ^ 32 % 64 ≠ 0 ∨ bitsN (t.rd b).toNat 32 16 = 0 ∨
          (t.rd b).toNat / 2 ^ 48 ≠ 0 ∨ (t.rd c).toNat % 2 ^ 32 % 64 ≠ 0 ∨ (t.rd c).toNat / 2 ^ 32 % 64 ≠ 0 ∨
          (t.rd c).toNat % 2 ^ 32 < (t.rd b).toNat % 2 ^ 32 ∨ (t.rd c).toNat / 2 ^ 32 < (t.rd b).toNat % 2 ^ 32) := by
        rw [rows]
        omega
      exact ⟨_, _, rfl, if_neg lengths, rfl, rfl, rfl, rows, rfl, rfl, rfl, rfl, rfl, rfl⟩
  · cases h

/-! ### A node at work -/

theorem Core.setNode_node? {c : Core} {k x : CopyNode} (h : c.node? x.id = some k) : (c.setNode x).node? x.id = some x :=
  find?_replace (key := CopyNode.id) rfl ⟨k, (find?_key (key := CopyNode.id) h).1, (find?_key (key := CopyNode.id) h).2⟩

theorem Core.node?_id {c : Core} {id' : Nat} {k : CopyNode} (h : c.node? id' = some k) : k.id = id' := (find?_key (key := CopyNode.id) h).2

/-- A unit that goes on asks its bank, or comes to its home later: no task and no byte changes. -/
theorem State.unitGo_keeps (s : State) (n : Nat) (k : CopyNode) :
    s.SameStore (s.unitGo n k) ∧ ∀ j, ((s.unitGo n k).core j).tsk = (s.core j).tsk := by
  have bank (row addr : Nat) : s.SameStore (s.nodeReq n k.id row addr) ∧ ∀ j, ((s.nodeReq n k.id row addr).core j).tsk = (s.core j).tsk := by
    refine ⟨s.modCore_sameStore .., fun j => ?_⟩
    by_cases here : j = n
    · subst here
      rw [State.nodeReq, State.modCore_core]
    · rw [State.nodeReq, State.modCore_core_ne _ _ _ _ here]
  have home : s.SameStore (s.schedMemFree (.copyUnit n k.id k.units) k.stamp) ∧
      ∀ j, ((s.schedMemFree (.copyUnit n k.id k.units) k.stamp).core j).tsk = (s.core j).tsk := ⟨s.schedMemFree_sameStore .., fun _ => rfl⟩
  unfold State.unitGo
  split
  all_goals
    split
    · exact bank ..
    · exact home

/-- A node that was changed is found as it was changed, where nothing else changed the task of its core. -/
theorem State.setNode_found {s u : State} {n : Nat} {k x : CopyNode} (found : (s.core n).node? x.id = some k)
    (same : (u.core n).tsk = ((s.core n).setNode x).tsk) : (u.core n).node? x.id = some x := by
  rw [Core.node?, same]
  exact Core.setNode_node? found

/-- A write of the task that lands in the page itself. -/
theorem State.taskWrite_home {s : State} {n va : Nat} {ps : List PageTr} {p : PageTr} (lands : Rules.LandsAtHome s n va)
    (page : pageOf ps va = some p) (plain : Rules.PlainDram s) (bs : List Byte) (st : Stamp) (id' : Nat) :
    s.taskWrite n ps va bs st id' = s.applyWrite (p.pa + (va - p.va)) bs st := by
  obtain ⟨shadow, slot, run⟩ := lands
  unfold State.taskWrite
  dsimp only
  rw [shadow]
  dsimp only
  rw [slot, page]
  dsimp only
  rw [if_neg (not_not.mpr run), State.dramWrite, plain.rootGroup]
  simp [State.writeOne, plain.logFull]

section
variable {s : State} {n : Nat} {k : CopyNode} (found : (s.core n).node? k.id = some k)
include found

theorem copyNodeStart_starts {b : Bool} (free : ∀ d ∈ k.deps, (s.core n).node? d = none) (slot : s.grabSlot n engCpe = some b) :
    (s.nodeStart n k.id |>.core n).node? k.id = some { k with started := true, slot := some b } ∧ (s.nodeStart n k.id).dram = s.dram := by
  have ready : ¬(k.deps.any fun d => ((s.core n).node? d).isSome) = true := by
    rw [List.any_eq_true]
    rintro ⟨d, mem, left⟩
    rw [free d mem] at left
    exact Bool.false_ne_true left
  have core := State.setCore_core s n ((s.core n).setNode { k with started := true, slot := some b })
  obtain ⟨store, tasks⟩ := (s.setCore n ((s.core n).setNode { k with started := true, slot := some b })).unitGo_keeps n
    { k with started := true, slot := some b }
  unfold State.nodeStart
  dsimp only
  rw [found]
  dsimp only
  rw [if_neg ready, slot]
  refine ⟨State.setNode_found (x := { k with started := true, slot := some b }) found ?_, store.dram⟩
  rw [tasks, core]

theorem copyNodeStart_waits (behind : ∃ d ∈ k.deps, (s.core n).node? d ≠ none) :
    s.nodeStart n k.id = s.sched (s.stc + 1) phEngine (.copyNodeStart n k.id) := by
  obtain ⟨d, mem, left⟩ := behind
  have waits : (k.deps.any fun d => ((s.core n).node? d).isSome) = true :=
    List.any_eq_true.mpr ⟨d, mem, Option.isSome_iff_ne_none.mpr left⟩
  unfold State.nodeStart
  dsimp only
  rw [found]
  exact if_pos waits

theorem copyUnit_reads (empty : k.buf = none) (good : s.homeBad n k.spages (k.srcAt k.units) 64 = none) :
    (s.unitStep n k.id k.units |>.core n).node? k.id = some { k with buf := some (s.homeRead n k.spages (k.srcAt k.units) 64) } ∧
      (s.unitStep n k.id k.units).dram = s.dram := by
  have core := State.setCore_core s n ((s.core n).setNode { k with buf := some (s.homeRead n k.spages (k.srcAt k.units) 64) })
  obtain ⟨store, tasks⟩ := (s.setCore n ((s.core n).setNode { k with buf := some (s.homeRead n k.spages (k.srcAt k.units) 64) })).unitGo_keeps n
    { k with buf := some (s.homeRead n k.spages (k.srcAt k.units) 64) }
  unfold State.unitStep
  dsimp only
  rw [found]
  dsimp only
  rw [if_neg (not_not.mpr rfl), empty]
  dsimp only
  rw [good]
  refine ⟨State.setNode_found (x := { k with buf := some (s.homeRead n k.spages (k.srcAt k.units) 64) }) found ?_, store.dram⟩
  rw [tasks, core]

theorem copyUnit_writes {bs : List Byte} {p : PageTr} (full : k.buf = some bs) (page : pageOf k.dpages (k.dstAt k.units) = some p)
    (plain : Rules.PlainDram s) (lands : Rules.LandsAtHome s n (k.dstAt k.units)) :
    Rules.Stored s (s.unitStep n k.id k.units) (p.pa + (k.dstAt k.units - p.va)) bs ∧
      (s.unitStep n k.id k.units |>.core n).node? k.id = some { k with units := k.units + 1, buf := none } ∧
      (k.total ≤ k.units + 1 → ⟨s.stc, phEngine, .copyNodeRetire n k.id, {}, {}⟩ ∈ (s.unitStep n k.id k.units).agenda) := by
  have written := State.taskWrite_home lands page plain bs k.stamp k.id
  have stored := plain.applyWrite_stored (p.pa + (k.dstAt k.units - p.va)) bs k.stamp
  have bytes := plain.applyWrite_bytesOnly (p.pa + (k.dstAt k.units - p.va)) bs k.stamp
  have step : s.unitStep n k.id k.units = (s.applyWrite (p.pa + (k.dstAt k.units - p.va)) bs k.stamp).unitWritten n k := by
    unfold State.unitStep
    dsimp only
    rw [found]
    dsimp only
    rw [if_neg (not_not.mpr rfl), full]
    dsimp only
    rw [written]
  rw [step]
  generalize s.applyWrite (p.pa + (k.dstAt k.units - p.va)) bs k.stamp = w at stored bytes ⊢
  have core := State.modCore_core w n fun c => c.setNode { k with units := k.units + 1, buf := none }
  have same := w.modCore_sameStore n fun c => c.setNode { k with units := k.units + 1, buf := none }
  have time : w.stc = s.stc := by rw [bytes.1]
  unfold State.unitWritten
  dsimp only
  generalize w.modCore n (fun c => c.setNode { k with units := k.units + 1, buf := none }) = w' at core same ⊢
  rw [bytes.core] at core
  split
  · next more =>
    obtain ⟨store, tasks⟩ := w'.unitGo_keeps n { k with units := k.units + 1, buf := none }
    refine ⟨(same.trans store).stored stored, State.setNode_found (x := { k with units := k.units + 1, buf := none }) found ?_,
      fun last => absurd more (Nat.not_lt.mpr last)⟩
    rw [tasks, core]
  · refine ⟨(same.trans (State.sched_sameStore ..)).stored stored,
      State.setNode_found (x := { k with units := k.units + 1, buf := none }) found (congrArg Core.tsk core), fun _ => ?_⟩
    rw [← time, ← same.stc]
    exact (mem_insJob ..).mpr (.inl rfl)

theorem copyNodeRetire_retires (calm : s.refused n k.id = false) :
    (s.nodeRetire n k.id |>.core n).node? k.id = none ∧ ⟨s.stc + 1, .engRetire engCpe⟩ ∈ (s.nodeRetire n k.id |>.core n).pend ∧
      (s.nodeRetire n k.id).dram = s.dram := by
  let c : Core := { s.core n with tsk := { (s.core n).tsk with copies := (s.core n).tsk.copies.filter fun x => x.id ≠ k.id } }
  have retired : s.nodeRetire n k.id = (s.setCore n (c.later (s.stc + 1) (.engRetire engCpe))).unpin n (pinKeys (k.spages ++ k.dpages)) := by
    unfold State.nodeRetire
    dsimp only
    rw [found]
    dsimp only
    rw [calm]
    rfl
  have core : (s.nodeRetire n k.id).core n = c.later (s.stc + 1) (.engRetire engCpe) := by
    rw [retired, State.unpin_core, State.setCore_core]
  rw [core, retired]
  exact ⟨find?_remove (key := CopyNode.id) k.id, (mem_insPend ..).mpr (.inl rfl),
    ((s.setCore_sameStore ..).trans (State.unpin_sameStore ..)).dram⟩

end

/-- Settles O32: both words of a copy, and a node from its start to its end. -/
theorem copies : Obligations.Copies := by
  unfold Obligations.Copies
  refine ⟨fun i s t src dst len rows sp dp tag regs sh ss ds ps qs word hq h hf ha => ?_, fun s n id' k found => ?_⟩
  · obtain ⟨body, k, run, enqueues, rfl, rfl, rfl, rfl, rfl, rfl, rfl, rfl, rfl, rfl⟩ := copyOf_enqueues (s := s) word
    intro last side apart shaded
    have clear : ¬(k.overlaps ∨ (k.shadow ∧ k.dspm)) := by
      rintro (meets | ⟨shadow, dspm⟩)
      · simp only [CopyNode.overlaps, Bool.and_eq_true, decide_eq_true_eq] at meets
        obtain ⟨⟨same, low⟩, high⟩ := meets
        exact (apart same).elim (fun e => absurd high (Nat.not_lt.mpr e)) fun e => absurd low (Nat.not_lt.mpr e)
      · exact absurd dspm (by rw [shaded shadow]; exact Bool.false_ne_true)
    refine ⟨fun srcA dstA srcIn dstIn source dest near room => ?_, fun off => ?_⟩
    · have within : ¬((k.sspm ∧ spmSize < k.span k.src k.spitch) ∨ (k.dspm ∧ spmSize < k.span k.dst k.dpitch)) := by
        rintro (⟨spm, out⟩ | ⟨spm, out⟩)
        · exact absurd out (Nat.not_lt.mpr (srcIn spm))
        · exact absurd out (Nat.not_lt.mpr (dstIn spm))
      have places := State.enqueue_places clear (fun e => e.elim (· srcA) (· dstA)) within source dest near room
      rw [← enqueues] at places
      obtain ⟨u, v, run, ends, x, placed⟩ := h.accessLeaves run hf ha nofun places
      have value := placed.value
      rw [← h.stc, ← h.turn]
      refine ⟨u, x, run, ends.issued, by rw [ends.tsk]; exact placed.mem, ?_, ?_, ?_, ?_, ?_, ?_, ?_, ?_, ?_, ?_, ?_, ?_,
        by rw [ends.tsk]; exact placed.latest, by rw [ends.engine]; exact placed.out, by rw [ends.agenda]; exact placed.event, ends.dram⟩
      all_goals rw [value]
    · refine h.accessTrap (b := false) run hf ha nofun (enqueues.trans ?_)
      unfold State.enqueue
      dsimp only
      rw [if_neg clear]
      exact if_pos off
  · obtain rfl := Core.node?_id found
    refine ⟨fun b free slot => ?_, fun behind => congrArg Host.Outcome.next (copyNodeStart_waits found behind), fun empty good => ?_, fun bs p full _ page plain lands => ?_, fun calm => ?_⟩
    · exact ⟨_, rfl, copyNodeStart_starts found free slot⟩
    · exact ⟨_, rfl, copyUnit_reads found empty good⟩
    · exact ⟨_, rfl, copyUnit_writes found full page plain lands⟩
    · exact ⟨_, rfl, copyNodeRetire_retires found calm⟩

end Sys2Proof.Machine

/-! SUPPORT. book, bookq, start and cut (08 R231 to R233; 09 R251, R254; 19 R431 to R433). -/

namespace Sys2Proof.Machine

-- one after another: every waiting worker thread counts towards the check's memory limit
set_option Elab.async false

/-! ### The calendars -/

/-- A change of dies and of what is to come, in which no event is lost. -/
theorem State.DiesAndAgendaOnly.extends {t v : State} (h : t.DiesAndAgendaOnly v) (kept : ∀ j ∈ t.agenda, j ∈ v.agenda) : t.Extends v := by
  have core (n : Nat) : v.core n = t.core n := by rw [State.core, h.eq, State.core]
  have turn : v.turn = t.turn := by rw [h.eq]
  have cur : v.cur = t.cur := by rw [State.cur, turn, core, State.cur]
  exact ⟨turn, by rw [h.eq], h.dram, by rw [State.curSeq, cur, turn, State.curSeq], by rw [State.curSeq, cur, turn, State.curSeq],
    by rw [cur], by rw [cur], fun k _ => core k, by rw [cur]; exact fun _ => id, by rw [cur]; exact fun _ => id, kept⟩

/-- A fold of such changes is one. -/
theorem State.foldl_diesAndAgenda {α : Type} {f : State → α → State}
    (step : ∀ (s : State) (x : α), s.DiesAndAgendaOnly (f s x) ∧ ∀ j ∈ s.agenda, j ∈ (f s x).agenda) (l : List α) (s : State) :
    s.DiesAndAgendaOnly (l.foldl f s) ∧ ∀ j ∈ s.agenda, j ∈ (l.foldl f s).agenda :=
  foldl_related (R := fun s u : State => s.DiesAndAgendaOnly u ∧ ∀ j ∈ s.agenda, j ∈ u.agenda) (fun _ => ⟨.refl _, fun _ => id⟩)
    (fun h k => ⟨h.1.trans k.1, fun j hj => k.2 j (h.2 j hj)⟩) step l s

/-- Windows that leave the calendars: the others stay in their order. -/
theorem State.dropWindows_drops (s : State) (p : Window → Bool) :
    ({ s with windows := s.windows.filter fun w => !p w } : State).DiesAndAgendaOnly (s.dropWindows p) ∧
      ∀ j ∈ s.agenda, j ∈ (s.dropWindows p).agenda := by
  unfold State.dropWindows
  split
  · next none =>
    have quiet : ∀ w ∈ s.windows, p w = false := by simpa using none
    have all : s.windows.filter (fun w => !p w) = s.windows := List.filter_eq_self.mpr fun w hw => by rw [quiet w hw]; rfl
    rw [all]
    exact ⟨.refl s, fun _ => id⟩
  · obtain ⟨only, kept⟩ := State.foldl_diesAndAgenda (f := fun s w => (s.modDie (dieOf w.core) fun d =>
      { d with lastWin := SMap.ins d.lastWin (lcoreOf w.core) (Nat.min s.stc (w.t0 + w.tmpl.len)) }).schedInp (s.stc + 1024) phTask
        .powerStateEntry { die := dieOf w.core, core := some w.core }) (fun s w => ⟨rfl, fun j hj => (mem_insJob ..).mpr (.inr hj)⟩)
      (s.windows.filter p) { s with windows := s.windows.filter fun w => !p w }
    dsimp only
    split
    · exact ⟨only, kept⟩
    · exact ⟨only.trans rfl, fun j hj => (mem_insJob ..).mpr (.inr (kept j hj))⟩

theorem State.dropWindows_windows (s : State) (p : Window → Bool) : (s.dropWindows p).windows = s.windows.filter fun w => !p w := by
  rw [(s.dropWindows_drops p).1.eq]

theorem State.dropWindows_extends (s : State) (p : Window → Bool) : s.Extends (s.dropWindows p) :=
  .trans (v := { s with windows := s.windows.filter fun w => !p w }) (.ofTables rfl rfl rfl rfl rfl)
    ((s.dropWindows_drops p).1.extends (s.dropWindows_drops p).2)

theorem State.dropWindows_core (s : State) (p : Window → Bool) (n : Nat) : (s.dropWindows p).core n = s.core n := by
  rw [(s.dropWindows_drops p).1.eq]; rfl

/-- The units that a booking needs wake: no window changes. -/
theorem State.wakePath_wakes (s : State) (n : Nat) (m : Template) :
    s.DiesAndAgendaOnly (s.wakePath n m) ∧ ∀ j ∈ s.agenda, j ∈ (s.wakePath n m).agenda := by
  unfold State.wakePath
  dsimp only
  split
  · exact ⟨.refl s, fun _ => id⟩
  · exact State.foldl_diesAndAgenda (fun s d => ⟨s.schedInp_diesAndAgendaOnly .., fun j hj => (mem_insJob ..).mpr (.inr hj)⟩) _ s

theorem State.addWindow_extends (s : State) (w : Window) : s.Extends (s.addWindow w) :=
  ((s.wakePath_wakes w.core w.tmpl).1.extends (s.wakePath_wakes w.core w.tmpl).2).trans (.ofTables rfl rfl rfl rfl rfl)

theorem State.addWindow_core (s : State) (w : Window) (n : Nat) : (s.addWindow w).core n = s.core n := by
  show (s.wakePath w.core w.tmpl).core n = _
  rw [(s.wakePath_wakes w.core w.tmpl).1.eq]; rfl

theorem State.addWindow_windows (s : State) (w : Window) : ∃ x, (s.addWindow w).windows = s.windows ++ [x] ∧ x = { w with order := x.order } :=
  ⟨_, rfl, rfl⟩

/-! ### A word whose result returns after an open latency (log 4) -/

theorem State.wr_extends {t : State} (h : t.turn.q ≠ .x) (lat : Nat) (d : RegF) (v : Word) : t.Extends (t.wr lat d v) := by
  have placed : (t.cur.emit t.turn.q (t.stc + lat) (.reg t.turn.q d.toNat v)) = t.cur.later (t.stc + lat) (.reg t.turn.q d.toNat v) :=
    Core.emit_later (absurd · h) ..
  refine t.modCur_extends_seq (f := fun c => c.emit t.turn.q (t.stc + lat) (.reg t.turn.q d.toNat v)) ?_ ?_ ?_ ?_ ?_
  all_goals rw [placed]
  · exact Core.later_seq ..
  · rfl
  · rfl
  · exact fun _ => id
  · exact fun _ => id

theorem State.wrFree_extends {t : State} (h : t.turn.q ≠ .x) (d : RegF) (v : Word) : t.Extends (t.wrFree d v) :=
  t.drawLat_extends.trans (State.wr_extends (t := t.drawLat.2) h ..)

theorem State.wrFree_tsk {t : State} (h : t.turn.q ≠ .x) (d : RegF) (v : Word) : (t.wrFree d v).cur.tsk = t.cur.tsk :=
  (State.wr_alike (t := t.drawLat.2) h ..).tsk

/-- The result stands in its register at some later cycle. -/
theorem State.wrFree_returns {s t w : State} {k : Kind} (h : s.Begins k t) (hq : s.turn.q ≠ .x) (grows : t.Extends w) (d : RegF) (v : Word)
    (k' : Kind) (n : Nat) (r : Option (Option (BitVec 14))) (e : BitVec 14) :
    Rules.Returns s ((w.wrFree d v).finishIssue k' n r e) d v := by
  have turn : w.turn = s.turn := grows.turn.trans h.turn
  have value := State.wr_regAt (t := w.drawLat.2) (show w.turn.q ≠ .x by rwa [turn]) w.drawLat.1 d v
  refine ⟨w.drawLat.1, Nat.succ_pos _, ?_⟩
  rw [← turn, ← h.stc, ← grows.stc]
  exact (State.finishIssue_regAt ..).trans value

/-! ### The four words -/

theorem State.sbWord_open {s : State} (board : s.cur.sys.region = true) (k : Kind) (regs : List RegF) (body : State → Res) :
    s.sbWord k regs body = s.issue k fun u => u.interlock regs (fun w => w.access false body) u := by
  unfold State.sbWord
  rw [if_neg (by simp [State.cal, board])]

theorem State.IssuesAs.windows {s t v u : State} (h : s.IssuesAs t v u) : u.windows = v.windows := by
  obtain ⟨k, n, r, d, rfl⟩ := h.ends; rfl

section
variable {s t : State} {d a : RegF} (hq : s.turn.q ≠ .x) (board : s.cur.sys.region = true) (hf : t.RegsFree [d, a])
  (ha : Rules.AccessFree t)
include hq board hf ha

/-- book with a T0 found: the booking stands, the latest and not armed. -/
theorem book_books {m : Template} {id' t0 : Nat} (h : s.Begins { branch := true } t) (legal : t.cur.spmTemplate (t.rd a).toNat = .ok m)
    (task : t.cur.tsk.task = some id')
    (found : (t.dropWindows fun w => w.task = id' && w.use = 1).placeNow s.turn.core 0 [] m (fun w => w.task = id' && w.use = 0) = some t0) :
    ∃ u w, exec (.book d a) s = .next u ∧ s.Issued u ∧ u.windows = (t.windows.filter fun w => !(w.task = id' && w.use = 1)) ++ [w] ∧
      w.task = id' ∧ w.core = s.turn.core ∧ w.t0 = t0 ∧ w.tmpl = m ∧ w.use = 1 ∧ w.armed = false ∧
      u.cur.tsk.pending = some ⟨t.cur.tsk.bookCount + 1, t0, m⟩ ∧ u.cur.tsk.armed = none ∧
      Rules.Returns s u d (BitVec.ofNat 64 (t.cur.tsk.bookCount + 1)) := by
  have drops : t.Extends (t.dropWindows fun w => w.task = id' && w.use = 1) := t.dropWindows_extends _
  have kept := t.dropWindows_windows fun w => w.task = id' && w.use = 1
  have own : (t.dropWindows fun w => w.task = id' && w.use = 1).cur = t.cur := by
    rw [State.cur, drops.turn, State.dropWindows_core, State.cur]
  rw [← h.turn] at found ⊢
  have run := h.accessDone (i := .book d a) (congrArg _ (State.sbWord_open board ..)) hf ha nofun (by
    dsimp only
    rw [legal, task]
    dsimp only
    rw [found])
  generalize (t.dropWindows fun w => w.task = id' && w.use = 1) = r at drops kept own run
  rw [own] at run
  let b : Booking := ⟨t.cur.tsk.bookCount + 1, t0, m⟩
  let f (c : Core) : Core := { c with tsk := { c.tsk with bookCount := t.cur.tsk.bookCount + 1, pending := some b, armed := none } }
  have noted : r.Extends (r.modCur f) := r.modCur_extends_seq (by rw [State.curSeq]; cases r.turn.q <;> rfl) rfl rfl (fun _ => id) fun _ => id
  have books : (r.modCur f).cur = f t.cur := by rw [State.modCur_cur, own]
  have windows : (r.modCur f).windows = r.windows := rfl
  let w : Window := { task := id', core := t.turn.core, t0 := t0, pre := 0, tmpl := m, order := 0, use := 1 }
  change exec _ s = .next ((((r.modCur f).addWindow w).wrFree d (BitVec.ofNat 64 (t.cur.tsk.bookCount + 1))).finishIssue _ _ _ _) at run
  have added := (r.modCur f).addWindow_extends w
  have stands := (r.modCur f).addWindow_core w t.turn.core
  obtain ⟨x, list, value⟩ := (r.modCur f).addWindow_windows w
  generalize (r.modCur f).addWindow w = v at added stands list run
  have grows := (drops.trans noted).trans added
  have hv : v.turn.q ≠ .x := by rwa [grows.turn, h.turn]
  have tsk : v.cur.tsk = (f t.cur).tsk := by
    rw [State.cur, grows.turn, stands, ← books, State.cur, noted.turn, drops.turn]
  have ends := h.issuesAs (grows.trans (State.wrFree_extends hv d (BitVec.ofNat 64 (t.cur.tsk.bookCount + 1)))) { branch := true }
    s.settled.cur.vec.skip none (s.curSeq.pc + 1#14)
  refine ⟨_, x, run, ends.issued, ?_, ?_, ?_, ?_, ?_, ?_, ?_, ?_, ?_, State.wrFree_returns h hq grows ..⟩
  · rw [ends.windows, show (v.wrFree d _).windows = v.windows from rfl, list, windows, kept]
  iterate 6 rw [value]
  all_goals rw [ends.tsk, State.wrFree_tsk hv, tsk]

/-- book with no T0 found, or none that may be booked (log 52). -/
theorem book_refuses {m : Template} {id' : Nat} (h : s.Begins { branch := true } t) (legal : t.cur.spmTemplate (t.rd a).toNat = .ok m)
    (task : t.cur.tsk.task = some id')
    (none_ : (t.dropWindows fun w => w.task = id' && w.use = 1).placeNow s.turn.core 0 [] m (fun w => w.task = id' && w.use = 0) = none) :
    ∃ u, exec (.book d a) s = .next u ∧ s.Issued u ∧ u.windows = (t.windows.filter fun w => !(w.task = id' && w.use = 1)) ∧
      u.cur.tsk.pending = none ∧ Rules.Returns s u d 0 := by
  have drops : t.Extends (t.dropWindows fun w => w.task = id' && w.use = 1) := t.dropWindows_extends _
  have kept := t.dropWindows_windows fun w => w.task = id' && w.use = 1
  rw [← h.turn] at none_
  have run := h.accessDone (i := .book d a) (congrArg _ (State.sbWord_open board ..)) hf ha nofun (by
    dsimp only
    rw [legal, task]
    dsimp only
    rw [none_])
  generalize (t.dropWindows fun w => w.task = id' && w.use = 1) = r at drops kept run
  let f (c : Core) : Core := { c with tsk := { c.tsk with pending := none, armed := none } }
  have noted : r.Extends (r.modCur f) := r.modCur_extends_seq (by rw [State.curSeq]; cases r.turn.q <;> rfl) rfl rfl (fun _ => id) fun _ => id
  have books : (r.modCur f).cur.tsk.pending = none := by rw [State.modCur_cur]
  have windows : (r.modCur f).windows = r.windows := rfl
  change exec _ s = .next (((r.modCur f).wrFree d 0).finishIssue _ _ _ _) at run
  generalize r.modCur f = v at noted books windows run
  have grows := drops.trans noted
  have hv : v.turn.q ≠ .x := by rwa [grows.turn, h.turn]
  have ends := h.issuesAs (grows.trans (State.wrFree_extends hv d 0)) { branch := true } s.settled.cur.vec.skip none (s.curSeq.pc + 1#14)
  refine ⟨_, run, ends.issued, ?_, ?_, State.wrFree_returns h hq grows ..⟩
  · rw [ends.windows, show (v.wrFree d 0).windows = v.windows from rfl, windows, kept]
  · rw [ends.tsk, State.wrFree_tsk hv, books]

/-- bookq answers where book would place the template, and books nothing. -/
theorem bookq_answers {m : Template} {id' : Nat} (h : s.Begins { audit := true } t) (legal : t.cur.spmTemplate (t.rd a).toNat = .ok m)
    (task : t.cur.tsk.task = some id') :
    ∃ u, exec (.bookq d a) s = .next u ∧ s.Issued u ∧ u.windows = t.windows ∧ u.cur.sys.audit = true ∧
      Rules.Returns s u d (match t.placeNow s.turn.core 0 [] m fun w => w.task = id' && (w.use = 0 || w.use = 1) with
        | some t0 => BitVec.ofNat 64 t0
        | none => BitVec.allOnes 64) := by
  have ht : t.turn.q ≠ .x := by rwa [h.turn]
  have own : (fun w : Window => some w.task = t.cur.tsk.task && (w.use = 0 || w.use = 1)) = fun w => w.task = id' && (w.use = 0 || w.use = 1) := by
    funext w
    simp [task]
  have run := h.accessDone (i := .bookq d a) (congrArg _ (State.sbWord_open board ..)) hf ha nofun (by
    dsimp only
    rw [legal])
  rw [own] at run
  rw [← h.turn]
  have ends (v : Word) := h.issuesAs (State.wrFree_extends ht d v) { audit := true } s.settled.cur.vec.skip none (s.curSeq.pc + 1#14)
  exact ⟨_, run, (ends _).issued, (ends _).windows, by rw [State.finishIssue_sys]; rfl, State.wrFree_returns h hq (.refl t) ..⟩

end

/-- start of the last booking arms it (08 R232). -/
theorem start_arms {s t : State} {a : RegF} (board : s.cur.sys.region = true) (h : s.Begins {} t) (hf : t.RegsFree [a])
    (ha : Rules.AccessFree t) {b : Booking} (last : t.cur.tsk.pending = some b) (count : (t.rd a).toNat = b.count) :
    ∃ u, exec (.start a) s = .next u ∧ s.Issued u ∧ u.cur.tsk.armed = some b ∧ u.cur.tsk.pending = none := by
  let f (c : Core) : Core := { c with tsk := { c.tsk with pending := none, armed := some b } }
  obtain ⟨u, v, run, ends, armed⟩ := h.accessLeaves (i := .start a) (congrArg _ (State.sbWord_open board ..)) hf ha nofun
    (P := fun v => v.cur.tsk.armed = some b ∧ v.cur.tsk.pending = none) (by
    rw [last]
    dsimp only
    rw [if_neg (not_not.mpr count)]
    refine ⟨_, rfl, .trans (State.modCur_extends_seq (f := f) t ?_ rfl rfl (fun _ => id) fun _ => id) (.ofTables rfl rfl rfl rfl rfl), ?_⟩
    · rw [State.curSeq]; cases t.turn.q <;> rfl
    · rw [State.modCur_cur]; exact ⟨rfl, rfl⟩)
  exact ⟨u, run, ends.issued, by rw [ends.tsk]; exact armed⟩

/-- start of anything else traps with ILLOP. -/
theorem start_illegal {s t : State} {a : RegF} (board : s.cur.sys.region = true) (h : s.Begins {} t) (hf : t.RegsFree [a])
    (ha : Rules.AccessFree t)
    (other : t.cur.tsk.pending = none ∨ ∃ b, t.cur.tsk.pending = some b ∧ (t.rd a).toNat ≠ b.count) :
    exec (.start a) s = .next (s.settled.wordTrap .illop 0) := by
  refine h.accessTrap (b := false) (i := .start a) (congrArg _ (State.sbWord_open board ..)) hf ha nofun ?_
  rcases other with idle | ⟨b, last, count⟩
  · rw [idle]
  · rw [last]
    exact if_pos count

/-- With no stop asked for, cut only issues (08 R233). -/
theorem cut_issues {s t : State} (h : s.Begins {} t) (calm : t.cur.tsk.preempt = none) :
    ∃ u, exec .cut s = .next u ∧ s.Issued u ∧ u.cur.tsk = t.cur.tsk ∧ u.agenda = s.agenda ∧ u.dram = s.dram := by
  obtain ⟨u, run, ends⟩ := h.doneIssues (i := .cut) (v := t) rfl (by dsimp only; rw [calm]; rfl) (.refl t)
  exact ⟨u, run, ends.issued, ends.tsk, ends.agenda.trans h.agenda, ends.dram⟩

/-- The fourth cut of its cycle stops the task that is asked to stop. -/
theorem cut_stops {s t : State} (h : s.Begins {} t) (asked : t.cur.tsk.preempt ≠ none) (now : t.cur.tsk.cutAt = s.stc)
    (three : t.cur.tsk.cuts.length = 3) :
    ∃ u, exec .cut s = .next u ∧ s.Issued u ∧ ⟨s.stc, phTask, .preemptCutStop s.turn.core, {}, {}⟩ ∈ u.agenda := by
  rw [← h.stc] at now ⊢
  have open_ : ¬t.cur.tsk.preempt.isNone = true := by simpa using asked
  let f (c : Core) : Core := { c with tsk := { c.tsk with cuts := t.cur.tsk.cuts ++ [t.turn.q], cutAt := t.stc } }
  have noted : t.Extends (t.modCur f) := t.modCur_extends_seq (by rw [State.curSeq]; cases t.turn.q <;> rfl) rfl rfl (fun _ => id) fun _ => id
  obtain ⟨u, run, ends⟩ := h.doneIssues (i := .cut) (v := (t.modCur f).sched t.stc phTask (.preemptCutStop s.turn.core)) rfl (by
    dsimp only
    rw [if_neg open_, if_pos now, if_pos (by simp [three])]
    rfl) (noted.trans (State.sched_extends ..))
  refine ⟨u, run, ends.issued, ?_⟩
  rw [ends.agenda]
  exact (mem_insJob ..).mpr (.inl rfl)

/-- Settles O42: book, bookq, start and cut. -/
theorem bookingWords : Obligations.BookingWords := by
  unfold Obligations.BookingWords
  refine ⟨fun s t d a m id' hq board h hf ha legal task => ⟨fun t0 found => book_books hq board hf ha h legal task found, fun none_ =>
      book_refuses hq board hf ha h legal task none_⟩,
    fun s t d a m id' hq board h hf ha legal task => bookq_answers hq board hf ha h legal task,
    fun s t a board h hf ha => ⟨fun b last count => start_arms board h hf ha last count, start_illegal board h hf ha⟩,
    fun s t h => ⟨cut_issues h, cut_stops h⟩⟩

end Sys2Proof.Machine

/-! SUPPORT. Atomics: how they issue, and how they are applied at their point, a hot word included (08 R219, R220; Tables 8.2 and 8.5; 13 R322; 14 R362). -/

namespace Sys2Proof.Machine

-- one after another: every waiting worker thread counts towards the check's memory limit
set_option Elab.async false

/-! ### Values -/

theorem leVal_lt (bs : List Byte) : leVal bs < 2 ^ (8 * bs.length) := by
  induction bs with
  | nil => simp [leVal]
  | cons b t ih =>
    have byte := b.isLt
    rw [leVal, List.length_cons, Nat.mul_succ, Nat.pow_add]
    omega

theorem State.dramBytesAt_length (s : State) (pa n : Nat) : (s.dramBytesAt pa n).length = n := by
  induction n generalizing pa with
  | zero => rfl
  | succ n ih => rw [State.dramBytesAt, List.length_cons, ih]

/-- The lesser of two, with the first on a tie. -/
theorem lesser_eq (x y : Int) (b o : Nat) [Decidable (y < x)] [Decidable (x ≤ y)] : (if y < x then b else o) = if x ≤ y then o else b := by
  by_cases h : x ≤ y
  · rw [if_pos h, if_neg (not_lt.mpr h)]
  · rw [if_neg h, if_pos (not_le.mp h)]

/-- Table 8.5: the new value of a word. -/
theorem atomicNew_eq {kind w o : Nat} (low : o < 2 ^ w) (b c : Nat) : atomicNew kind w o b c = Rules.atomic kind w o b c := by
  have own : o % 2 ^ w = o := Nat.mod_eq_of_lt low
  have signed (x : Nat) (hx : x < 2 ^ w) : Fp.signedOf w x = if x < 2 ^ (w - 1) then (x : Int) else (x : Int) - 2 ^ w := by
    rw [Fp.signedOf, Nat.mod_eq_of_lt hx]
    simp
  have other := signed (b % 2 ^ w) (Nat.mod_lt _ (by positivity))
  unfold atomicNew Rules.atomic
  dsimp only
  rw [own, signed o low, other]
  split
  case h_7 => exact lesser_eq ..
  case h_8 => exact lesser_eq ..
  case h_9 => exact rfl
  case h_10 => exact max_def' ..
  case h_12 n0 n1 n2 n3 n4 n5 n6 n7 n8 n9 n10 =>
    rw [if_neg n0, if_neg n1, if_neg n2, if_neg n3, if_neg n4, if_neg n5, if_neg n6, if_neg n7, if_neg n8, if_neg n9, if_neg n10]
  all_goals rfl

/-- A byte of a word that was put together from its bytes. -/
theorem wordByte (bs : List Byte) (h : bs.length = 8) {k : Nat} (hk : k < 8) :
    (BitVec.ofNat 64 (leVal bs)).extractLsb' (8 * k) 8 = bs.getD k 0 := by
  match bs, h with
  | [a, b, c, d, e, f, g, i], _ =>
    have ha := a.isLt; have hb := b.isLt; have hc := c.isLt; have hd := d.isLt
    have he := e.isLt; have hf := f.isLt; have hg := g.isLt; have hi := i.isLt
    apply BitVec.eq_of_toNat_eq
    rw [BitVec.extractLsb'_toNat, BitVec.toNat_ofNat, Nat.shiftRight_eq_div_pow]
    simp only [leVal]
    interval_cases k
    all_goals simp only [List.getD_cons_zero, List.getD_cons_succ]
    all_goals omega

/-! ### An atomic issues -/

/-- A word that sets AUDIT leaves it set. -/
theorem State.Begins.accessAudits {s t : State} {k : Kind} {i : Instr} {rs : List RegF} {rel : Bool} {body : State → Res}
    (hi : exec i s = .next (s.issue k fun u => u.interlock rs (fun w => w.access rel body) u)) (h : s.Begins k t) (hf : t.RegsFree rs)
    (ha : Rules.AccessFree t) (hr : rel = true → t.cur.allPerformed t.turn.q = true) (hk : k.audit = true) {P : State → Prop}
    (hb : ∃ v, body t = .done v ∧ t.Extends v ∧ P v) : ∃ u v, exec i s = .next u ∧ s.IssuesAs t v u ∧ u.cur.sys.audit = true ∧ P v := by
  obtain ⟨v, done, grows, left⟩ := hb
  exact ⟨_, v, h.accessDone hi hf ha hr done, h.issuesAs grows .., by rw [State.finishIssue_sys, hk]; rfl, left⟩

/-- The newest command is found by its number, where every number before it is lower. -/
theorem State.addCmd_cmd? {t : State} {n : Nat} (m : Cmd) (older : ∀ x ∈ (t.core n).cmds, x.id < (t.core n).nextCmd) :
    ((t.addCmd n m).2.core n).cmd? (t.addCmd n m).1 = some { m with id := (t.addCmd n m).1, issued := t.stc } := by
  have own : (t.addCmd n m).2.core n = (t.core n).accept t.stc m := State.modCore_core t n fun c => c.accept t.stc m
  rw [own, Core.cmd?, (Core.accept_frame ..).1, List.find?_append, List.find?_eq_none.mpr fun x hx => ?_]
  · simp [State.addCmd_eq]
  · simp [State.addCmd_eq, Nat.ne_of_lt (older x hx)]

/-- What holds later accesses back is no command. -/
theorem State.holdLater_core_cmds (t : State) (acq : Bool) (id' n : Nat) : ((t.holdLater acq id').core n).cmds = (t.core n).cmds := by
  cases acq
  · rfl
  · let f (c : Core) : Core := c.modSeq t.turn.q fun x => { x with acquire := some id' }
    show ((t.modCore t.turn.core f).core n).cmds = _
    by_cases here : n = t.turn.core
    · rw [here, State.modCore_core, Core.modSeq_cmds]
    · rw [State.modCore_core_ne _ _ _ _ here]

/-- What an atomic that issues leaves: its command, and its point in the next cycle. -/
structure State.AtomicSent (t v : State) (op : Instr) (d b c : RegF) (va : Nat) (p : PageTr) (m : Cmd) : Prop where
  taken : m ∈ v.cur.cmds
  op : m.op = op
  dst : m.dst = d.toNat
  addr : m.addr = va
  pages : m.pages = [p]
  value : m.value = t.rd b
  value2 : m.value2 = t.rd c
  waiting : m.arrived = false
  stamp : m.stamp.stc = t.stc
  event : ∃ j ∈ v.agenda, j.due = t.stc + 1 ∧ j.ev = .atomicResultReturn t.turn.core m.id

section
variable {s t : State} (h : s.Begins { audit := true } t) {i op : Instr} {d a b c : RegF} {kind : BitVec 4} {size : BitVec 2} {o : Ordr} {p : PageTr}
  (hi : exec i s = .next (s.dramAtomic op d a b c kind size o true State.atomicDue))
  (acts : Rules.ActsOn s t [d, a, b, c] (t.rd a).toNat (amoBytes size) (kind ≠ 0#4) o p)
include h hi acts

theorem State.Begins.atomicLeaves (plain : isDamo op = false) (aligned : (t.rd a).toNat % amoBytes size = 0) :
    ∃ u v m, exec i s = .next u ∧ s.IssuesAs t v u ∧ u.cur.sys.audit = true ∧ t.AtomicSent v op d b c (t.rd a).toNat p m := by
  obtain ⟨-, region, hf, ha, hr, runs, maps, low, high, clear, older⟩ := acts
  have open_ : ¬s.cal = true := by simp [State.cal, region]
  rw [State.dramAtomic, if_neg open_] at hi
  obtain ⟨t1, pinned, grows, maps⟩ := State.maps_pinned maps
  have alike : t.SameReads t1 t.turn.core := pinned ▸ t.pin_sameReads ..
  have core : t1.core t.turn.core = t.cur.pin (pinKeys [p]) := pinned ▸ State.modCore_core ..
  have here : t.turn.core = t1.turn.core := by rw [grows.turn]
  have clear : t1.clashes t.turn.core t.turn.q (fun m => !(isDamo op && isDamo m.op)) [(locOf [p] (t.rd a).toNat, amoBytes size)] = false := by
    rw [plain, alike.clashes (core ▸ rfl) (core ▸ rfl)]
    exact clear
  obtain ⟨u, v, run, ends, audit, m, sent⟩ := h.accessAudits hi hf ha hr rfl
    (P := fun v => ∃ m, t.AtomicSent v op d b c (t.rd a).toNat p m) (by
    rw [if_neg (not_not.mpr runs), if_neg (not_not.mpr aligned), maps]
    dsimp only
    rw [clear, if_neg Bool.false_ne_true]
    have stamped : t1.Extends (t1.stampFor t.turn.core (seqNum t.turn.q)).2 ∧
        (t1.stampFor t.turn.core (seqNum t.turn.q)).1.stc = t1.stc ∧
        (t1.stampFor t.turn.core (seqNum t.turn.q)).2.core t.turn.core = (t1.core t.turn.core).drawSeq (seqNum t.turn.q) :=
      ⟨State.stampFor_extends _ here, rfl, State.modCore_core t1 t.turn.core fun c => c.drawSeq (seqNum t.turn.q)⟩
    generalize t1.stampFor t.turn.core (seqNum t.turn.q) = drawn at stamped ⊢
    obtain ⟨st, t2⟩ := drawn
    obtain ⟨grows', time, own⟩ := stamped
    dsimp only at grows' time own ⊢
    have older : ∀ x ∈ (t2.core t.turn.core).cmds, x.id < (t2.core t.turn.core).nextCmd := by
      rw [own, core]
      exact older
    have grows := grows.trans grows'
    have here : t.turn.core = t2.turn.core := by rw [grows.turn]
    let m : Cmd := { atomicCmd t.turn.q op d (t.rd a).toNat [p] (t2.rd b) (t2.rd c) [(locOf [p] (t.rd a).toNat, amoBytes size)] with stamp := st }
    have found := State.addCmd_cmd? m older
    have grows' := grows.trans (State.addCmd_extends m here)
    have taken := State.mem_addCmd m here
    generalize t2.addCmd t.turn.core m = added at found grows' taken
    obtain ⟨id', t3⟩ := added
    dsimp only at found grows' taken ⊢
    have held := t3.holdLater_extends (ordAcq o.ord) id'
    have found : ((t3.holdLater (ordAcq o.ord) id').core t.turn.core).cmd? id' = some { m with id := id', issued := t2.stc } := by
      rw [Core.cmd?, State.holdLater_core_cmds]
      exact found
    generalize t3.holdLater (ordAcq o.ord) id' = t4 at held found
    have grows4 := grows'.trans held
    refine ⟨_, rfl, ?_⟩
    unfold State.atomicDue
    rw [found]
    refine ⟨grows4.trans (State.schedMem_extends ..), { m with id := id', issued := t2.stc }, (State.schedMem_extends ..).cmds _ (held.cmds _ taken),
      rfl, rfl, rfl, rfl, grows.rd b, grows.rd c, rfl, ?_, ⟨_, State.mem_schedMem .., ?_, rfl⟩⟩
    · exact time.trans (by rw [alike.stc])
    · exact congrArg (· + 1) grows4.stc)
  exact ⟨u, v, m, run, ends, audit, sent⟩

theorem State.Begins.atomicMisaligned (off : (t.rd a).toNat % amoBytes size ≠ 0) :
    exec i s = .next ((s.settled.setAudit s.turn.core).wordTrap .addr 0) := by
  obtain ⟨-, region, hf, ha, hr, runs, -⟩ := acts
  have open_ : ¬s.cal = true := by simp [State.cal, region]
  rw [State.dramAtomic, if_neg open_] at hi
  exact h.accessTrap hi hf ha hr ((if_neg (not_not.mpr runs)).trans (if_pos off))

end

/-- The checks of an atomic in a calendar region (08 Table 8.2; 16 R386). -/
theorem State.Begins.atomicBooked {s t : State} (h : s.Begins {} t) {i op : Instr} {d a b c : RegF} {kind : BitVec 4} {size : BitVec 2} {o : Ordr}
    {audit : Bool} {go : Nat → Nat → State → State} (hi : exec i s = .next (s.dramAtomic op d a b c kind size o audit go))
    (region : s.cur.sys.region = false) :
    (t.cur.tsk.run = 0 → exec i s = .next (s.settled.wordTrap .illop 0)) ∧ (t.cur.tsk.run ≠ 0 → exec i s = .next (t.runStop false)) := by
  have booked : s.cal = true := by simp [State.cal, region]
  rw [hi, State.dramAtomic, if_pos booked]
  refine ⟨fun runs => congrArg _ (h.trap (if_neg (not_not.mpr runs))), fun runs => congrArg _ ?_⟩
  rw [h.issue, if_pos runs]
  rfl

/-- A misaligned damo. -/
theorem damo_misaligned {s t : State} (h : s.Begins {} t) {d a b c : RegF} {kind : BitVec 4} {size : BitVec 2} {o : Ordr}
    (region : s.cur.sys.region = true) (hf : t.RegsFree [d, a, b, c]) (ha : Rules.AccessFree t)
    (hr : ordRel o.ord = true → t.cur.allPerformed t.turn.q = true) (runs : t.cur.tsk.run = 0) (off : (t.rd a).toNat % amoBytes size ≠ 0) :
    exec (.damo d a b c kind size o) s = .next (s.settled.wordTrap .addr 0) := by
  have open_ : ¬s.cal = true := by simp [State.cal, region]
  exact h.accessTrap (i := .damo d a b c kind size o) (congrArg _ (if_neg open_)) hf ha hr ((if_neg (not_not.mpr runs)).trans (if_pos off))

/-- An amo to the scratchpad asks its bank in the next cycle. -/
theorem amoSpm_asks {s t : State} (h : s.Begins { audit := s.cur.sys.region } t) {d a b c : RegF} {kind : BitVec 4} {size : BitVec 2} {o : Ordr}
    (hf : t.RegsFree [d, a, b, c]) (ha : Rules.AccessFree t) (hr : ordRel o.ord = true → t.cur.allPerformed t.turn.q = true)
    (aligned : (t.rd a).toNat % amoBytes size = 0) (top : (t.rd a).toNat + amoBytes size ≤ spmSize) :
    ∃ u m, exec (.amo d a b c kind size 1#1 o) s = .next u ∧ s.Issued u ∧ m ∈ u.cur.cmds ∧ m.op = .amo d a b c kind size 1#1 o ∧
      (∃ r ∈ u.cur.reqs, r.due = s.stc + 1 ∧ r.cmd = m.id ∧ r.addr = (t.rd a).toNat ∧ r.len = amoBytes size) ∧ u.dram = s.dram := by
  obtain ⟨u, v, run, ends, m, mem, op, asks⟩ := h.accessLeaves (i := .amo d a b c kind size 1#1 o) rfl hf ha hr
    (P := fun v => ∃ m ∈ v.cur.cmds, m.op = .amo d a b c kind size 1#1 o ∧
      ∃ r ∈ v.cur.reqs, r.due = t.stc + 1 ∧ r.cmd = m.id ∧ r.addr = (t.rd a).toNat ∧ r.len = amoBytes size) (by
    rw [if_neg (by omega)]
    have stamped : t.Extends (t.stampFor t.turn.core (seqNum t.turn.q)).2 := State.stampFor_extends _
    generalize t.stampFor t.turn.core (seqNum t.turn.q) = drawn at stamped ⊢
    obtain ⟨st, t1⟩ := drawn
    dsimp only at stamped ⊢
    have here : t.turn.core = t1.turn.core := by rw [stamped.turn]
    let m : Cmd := { atomicCmd t.turn.q (.amo d a b c kind size 1#1 o) d (t.rd a).toNat [] (t1.rd b) (t1.rd c) [] with cal := t1.cal, stamp := st }
    have grows := stamped.trans (State.addCmd_extends m here)
    have taken := State.mem_addCmd m here
    generalize t1.addCmd t.turn.core m = added at grows taken
    obtain ⟨id', t2⟩ := added
    dsimp only at grows taken ⊢
    have here : t.turn.core = t2.turn.core := by rw [grows.turn]
    refine ⟨_, rfl, grows.trans ((State.firstRow_extends _ _ _ _ _ here).trans (State.holdLater_extends ..)), _,
      ((State.firstRow_extends _ _ _ _ _ here).trans (State.holdLater_extends ..)).cmds _ taken, rfl,
      _, (State.holdLater_extends ..).reqs _ (State.mem_firstRow _ _ _ _ _ here), ?_, rfl, rfl, rfl⟩
    exact congrArg (· + 1) grows.stc)
  rw [← h.stc]
  obtain ⟨r, asked, due, rest⟩ := asks
  exact ⟨u, m, run, ends.issued, ends.mem_cmds mem, op, ⟨r, ends.mem_reqs asked, due, rest⟩, ends.dram⟩

end Sys2Proof.Machine

/-! SUPPORT. Atomics at their point: a hot word enters its cache, the kind is applied, and the old value is on its way (08 R219, R220; 13 R322; 14 R362). -/

namespace Sys2Proof.Machine

-- one after another: every waiting worker thread counts towards the check's memory limit
set_option Elab.async false

/-! ### A hot word enters its cache (13 R322) -/

/-- A cache with one set replaced: a word of the set is found among its new entries, every other as before. -/
theorem hotFind_ins (h : HotCache) (pa x : Nat) (l : List (Nat × Word)) :
    hotFind (SMap.ins h (hotSet pa) l) x = if hotSet x = hotSet pa then (l.find? fun e => e.1 = x / 8).map (·.2) else hotFind h x := by
  by_cases same : hotSet x = hotSet pa
  · rw [if_pos same, hotFind, same, SMap.get_ins]
  · rw [if_neg same, hotFind, SMap.get_ins_ne _ _ _ _ _ same, hotFind]

/-- An entry brought to the front of its set is found as before, and so is every other. -/
theorem find?_front {l : List (Nat × Word)} {w : Nat} {e : Nat × Word} (found : l.find? (fun y => y.1 = w) = some e) (x : Nat) :
    (e :: l.filter fun y => y.1 ≠ w).find? (fun y => y.1 = x) = l.find? (fun y => y.1 = x) := by
  obtain ⟨-, rfl⟩ := find?_key (key := Prod.fst) found
  by_cases own : x = e.1
  · subst own
    rw [found, List.find?_cons_of_pos (by simp)]
  · rw [List.find?_cons_of_neg (by simpa using Ne.symm own), List.find?_filter]
    congr 1
    funext y
    by_cases at_ : y.1 = x
    · simp [at_, own]
    · simp [at_]

/-- The hot words of a die after one set of one die was replaced. -/
theorem State.modDie_hotSet (s : State) (d pa e : Nat) (l : List (Nat × Word)) :
    ((s.modDie d fun y => { y with stationHot := SMap.ins y.stationHot (hotSet pa) l }).die e).stationHot =
      if e = d then SMap.ins (s.die d).stationHot (hotSet pa) l else (s.die e).stationHot := by
  by_cases own : e = d
  · subst own
    rw [if_pos rfl, State.modDie, State.setDie_die]
  · rw [if_neg own, State.modDie, State.setDie_die_ne _ _ _ _ own]

theorem State.dramBytesAt_getD (s : State) (pa n k : Nat) (hk : k < n) : (s.dramBytesAt pa n).getD k 0 = s.dramByte (pa + k) := by
  induction n generalizing pa k with
  | zero => omega
  | succ n ih =>
    cases k with
    | zero => rfl
    | succ k =>
      rw [State.dramBytesAt, List.getD_cons_succ, ih (pa + 1) k (by omega)]
      congr 1
      omega

/-- A word that enters the hot-word cache with a way free changes no byte. -/
theorem State.installHot_dramByte {s : State} (lost : ∀ d, (s.die d).lost = false) {pa : Nat}
    (room : (SMap.get [] (s.die (paDie pa)).stationHot (hotSet pa)).length < 8) (x : Nat) : (s.installHot pa).dramByte x = s.dramByte x := by
  have step (l : List (Nat × Word)) (hot : paDie x = paDie pa → hotFind (SMap.ins (s.die (paDie pa)).stationHot (hotSet pa) l) x =
      hotFind (s.die (paDie pa)).stationHot x) :
      (s.modDie (paDie pa) fun y => { y with stationHot := SMap.ins y.stationHot (hotSet pa) l }).dramByte x = s.dramByte x := by
    have same := State.modDie_die_value Die.lost s (paDie pa) (paDie x) fun y => { y with stationHot := SMap.ins y.stationHot (hotSet pa) l }
    refine State.dramByte_congr (by rw [State.stackLost, State.stackLost, State.modDie_pkg, same]) ?_ rfl rfl rfl
    rw [State.modDie_hotSet]
    split
    · next own => rw [own, hot own]
    · rfl
  unfold State.installHot
  dsimp only
  cases found : (SMap.get [] (s.die (paDie pa)).stationHot (hotSet pa)).find? (fun e => e.1 = pa / 8) with
  | some e =>
    refine step _ fun _ => ?_
    rw [hotFind_ins]
    split
    · next same => rw [find?_front found, hotFind, same]
    · rfl
  | none =>
    dsimp only
    rw [if_pos room]
    by_cases own : x / 8 = pa / 8
    · have die := paDie_of_word_eq own
      have set := hotSet_of_word_eq own
      have same := State.modDie_die_value Die.lost s (paDie pa) (paDie x) fun y =>
        { y with stationHot := SMap.ins y.stationHot (hotSet pa) ((pa / 8, BitVec.ofNat 64 (leVal (s.dramBytesAt (8 * (pa / 8)) 8))) ::
          SMap.get [] (s.die (paDie pa)).stationHot (hotSet pa)) }
      rw [State.dramByte_of_hot (v := BitVec.ofNat 64 (leVal (s.dramBytesAt (8 * (pa / 8)) 8)))]
      · rw [wordByte _ (State.dramBytesAt_length ..) (Nat.mod_lt _ (by decide)), State.dramBytesAt_getD _ _ _ _ (Nat.mod_lt _ (by decide)), ← own,
          Nat.div_add_mod]
      · rw [State.stackLost, same, lost, Bool.and_false]
      · rw [State.modDie_hotSet, if_pos die, hotFind_ins, if_pos set, own]
        simp
    · refine step _ fun _ => ?_
      rw [hotFind_ins]
      split
      · next same => rw [List.find?_cons_of_neg (by simpa using Ne.symm own), hotFind, same]
      · rfl

/-! ### The kind is applied -/

/-- A command that was changed, and whose return falls due later. -/
theorem State.cmdReturns {w : State} {n : Nat} {m x : Cmd} (found : (w.core n).cmd? x.id = some m) (ph : Nat) (ev : Instr) :
    let v := (w.modCore n fun c => c.setCmd x).schedFree ph ev
    (v.core n).cmd? x.id = some x ∧ (∃ j ∈ v.agenda, w.stc < j.due ∧ j.ev = ev) ∧ w.SameStore v := by
  have own : ((w.modCore n fun c => c.setCmd x).core n).cmd? x.id = some x := by
    rw [State.modCore_core]
    exact Core.setCmd_cmd? found
  exact ⟨own, State.mem_schedFree .., (w.modCore_sameStore ..).trans (State.schedFree_sameStore ..)⟩

section
variable {s : State} {n : Nat} {m : Cmd} {p : PageTr} {kind : BitVec 4} {size : BitVec 2}
  (found : (s.core n).cmd? m.id = some m) (page : pageOf m.pages m.addr = some p) (plain : Rules.PlainDram s) (slot : s.slotOf n m.addr = none)
  (sound : s.poisoned (p.pa + (m.addr - p.va)) (amoBytes size) = false)
include found page plain slot sound

/-- An atomic at its point: the old value is on its way, and with a kind other than 0 the word holds the new one. -/
theorem State.applyAtomic_applies :
    let old := leVal (s.dramBytes (p.pa + (m.addr - p.va)) (amoBytes size))
    let u := s.applyAtomic n m.id kind size
    (u.core n).cmd? m.id = some { m with arrived := true, value := BitVec.ofNat 64 old } ∧
      (∃ j ∈ u.agenda, s.stc < j.due ∧ j.ev = .atomicResultReturn n m.id) ∧ (kind = 0#4 → ∀ x, u.dramByte x = s.dramByte x) ∧
      (kind ≠ 0#4 → Rules.Stored s u (p.pa + (m.addr - p.va))
        (leBytes (amoBytes size) (Rules.atomic kind.toNat (8 * amoBytes size) old m.value.toNat m.value2.toNat))) := by
  intro old u
  have good : s.homeBad n m.pages m.addr (amoBytes size) = none := by
    have clean : s.badWord (p.pa + (m.addr - p.va)) (amoBytes size) = none := by
      rwa [State.poisoned, Option.isSome_eq_false_iff, Option.isNone_iff_eq_none] at sound
    rw [State.homeBad, slot, page, Option.bind_some, clean]
    rfl
  have read : s.homeRead n m.pages m.addr (amoBytes size) = s.dramBytes (p.pa + (m.addr - p.va)) (amoBytes size) := by
    rw [State.homeRead, slot, page]; rfl
  have small : old < 2 ^ (8 * amoBytes size) := by
    have := leVal_lt (s.dramBytes (p.pa + (m.addr - p.va)) (amoBytes size))
    rwa [State.dramBytes, State.dramBytesAt_length] at this
  have new := atomicNew_eq (kind := kind.toNat) small m.value.toNat m.value2.toNat
  have applied (w : State)
      (rmw : s.rmw n m.pages m.addr (amoBytes size) (fun o => atomicNew kind.toNat (8 * amoBytes size) o m.value.toNat m.value2.toNat)
        (kind ≠ 0#4) m.stamp m.id = (w, some old)) :
      u = (w.modCore n fun c => c.setCmd { m with arrived := true, value := BitVec.ofNat 64 old }).schedFree phEngine (.atomicResultReturn n m.id) := by
    show s.applyAtomic n m.id kind size = _
    unfold State.applyAtomic
    rw [found]
    dsimp only
    rw [good]
    dsimp only
    rw [rmw]
  by_cases reads : kind = 0#4
  · have rmw : s.rmw n m.pages m.addr (amoBytes size) (fun o => atomicNew kind.toNat (8 * amoBytes size) o m.value.toNat m.value2.toNat)
        (kind ≠ 0#4) m.stamp m.id = (s, some old) := by
      unfold State.rmw
      rw [slot, page, read]
      simp [reads, old]
    obtain ⟨cmd, event, store⟩ := State.cmdReturns (x := { m with arrived := true, value := BitVec.ofNat 64 old }) found phEngine (.atomicResultReturn n m.id)
    rw [applied s rmw]
    exact ⟨cmd, event, fun _ => store.dramByte, fun writes => absurd reads writes⟩
  · have rmw : s.rmw n m.pages m.addr (amoBytes size) (fun o => atomicNew kind.toNat (8 * amoBytes size) o m.value.toNat m.value2.toNat)
        (kind ≠ 0#4) m.stamp m.id = (s.applyWrite (p.pa + (m.addr - p.va)) (leBytes (amoBytes size)
          (Rules.atomic kind.toNat (8 * amoBytes size) old m.value.toNat m.value2.toNat)) m.stamp, some old) := by
      unfold State.rmw
      rw [slot, page, read, ← new]
      simp [reads, plain.logFull, old]
    have stored := plain.applyWrite_stored (p.pa + (m.addr - p.va)) (leBytes (amoBytes size)
      (Rules.atomic kind.toNat (8 * amoBytes size) old m.value.toNat m.value2.toNat)) m.stamp
    have bytes := plain.applyWrite_bytesOnly (p.pa + (m.addr - p.va)) (leBytes (amoBytes size)
      (Rules.atomic kind.toNat (8 * amoBytes size) old m.value.toNat m.value2.toNat)) m.stamp
    have time : (s.applyWrite (p.pa + (m.addr - p.va)) (leBytes (amoBytes size)
      (Rules.atomic kind.toNat (8 * amoBytes size) old m.value.toNat m.value2.toNat)) m.stamp).stc = s.stc := by rw [bytes.1]
    obtain ⟨cmd, event, store⟩ := State.cmdReturns (x := { m with arrived := true, value := BitVec.ofNat 64 old })
      ((congrArg (fun c => Core.cmd? c m.id) (bytes.core n)).trans found) phEngine (.atomicResultReturn n m.id)
    rw [time] at event
    rw [applied _ rmw]
    exact ⟨cmd, event, fun zero => absurd zero reads, fun _ => store.stored stored⟩

end

/-- With a way free, nothing but one set of one die's hot-word cache changes. -/
theorem State.installHot_eq {s : State} {pa : Nat} (room : (SMap.get [] (s.die (paDie pa)).stationHot (hotSet pa)).length < 8) :
    ∃ l, s.installHot pa = s.modDie (paDie pa) fun y => { y with stationHot := SMap.ins y.stationHot (hotSet pa) l } := by
  unfold State.installHot
  dsimp only
  split
  · exact ⟨_, rfl⟩
  · rw [if_pos room]
    exact ⟨_, rfl⟩

/-- A ramo's word is installed, or stays where it is; its point sees the same bytes. -/
theorem State.ramoInstall_keeps {s : State} {n : Nat} {m : Cmd} {p : PageTr} (found : (s.core n).cmd? m.id = some m)
    (page : pageOf m.pages m.addr = some p) (plain : Rules.PlainDram s) (slot : s.slotOf n m.addr = none)
    (room : (SMap.get [] (s.die (paDie (p.pa + (m.addr - p.va)))).stationHot (hotSet (p.pa + (m.addr - p.va)))).length < 8) :
    let t := s.ramoInstall n m.id
    s.BytesOnly t ∧ (∀ x, t.dramByte x = s.dramByte x) ∧ t.slotOf n m.addr = none ∧ ∀ d, (t.die d).poison = (s.die d).poison := by
  have step : s.ramoInstall n m.id = s ∨ s.ramoInstall n m.id = s.installHot (p.pa + (m.addr - p.va)) := by
    unfold State.ramoInstall
    rw [found]
    dsimp only
    rw [slot, page]
    dsimp only
    rw [plain.resolve]
    split
    · exact .inl rfl
    · exact .inr rfl
  dsimp only
  rcases step with same | installed
  · rw [same]
    exact ⟨.refl s, fun _ => rfl, slot, fun _ => rfl⟩
  · have bytes := State.installHot_dramByte plain.notLost room
    rw [installed]
    obtain ⟨l, eq⟩ := State.installHot_eq room
    rw [eq] at bytes ⊢
    exact ⟨State.modDie_bytesOnly _ _ _, bytes, slot, fun d => State.modDie_die_value Die.poison s _ d _⟩

theorem State.dramBytes_plain {s : State} (h : Rules.PlainDram s) (pa n : Nat) : s.dramBytes pa n = s.dramBytesAt pa n := by
  rw [State.dramBytes, h.resolve]

/-- States with the same bytes read the same. -/
theorem State.dramBytesAt_congr {s u : State} (h : ∀ x, u.dramByte x = s.dramByte x) (pa n : Nat) : u.dramBytesAt pa n = s.dramBytesAt pa n := by
  induction n generalizing pa with
  | zero => rfl
  | succ n ih => rw [State.dramBytesAt, h, ih, State.dramBytesAt]

/-- An amo or ramo at its point. -/
theorem atomicReturn_applies {s : State} {n : Nat} {m : Cmd} {p : PageTr} {kind : BitVec 4} {size : BitVec 2}
    (found : (s.core n).cmd? m.id = some m) (waiting : m.arrived = false)
    (op : Rules.atomicAt s (p.pa + (m.addr - p.va)) kind size m.op = true) (page : pageOf m.pages m.addr = some p) (plain : Rules.PlainDram s)
    (slot : s.slotOf n m.addr = none) (sound : s.poisoned (p.pa + (m.addr - p.va)) (amoBytes size) = false) :
    let old := leVal (s.dramBytes (p.pa + (m.addr - p.va)) (amoBytes size))
    let u := s.resultReturn n m.id
    (u.core n).cmd? m.id = some { m with arrived := true, value := BitVec.ofNat 64 old } ∧
      (∃ j ∈ u.agenda, s.stc < j.due ∧ j.ev = .atomicResultReturn n m.id) ∧ (kind = 0#4 → ∀ x, u.dramByte x = s.dramByte x) ∧
      (kind ≠ 0#4 → Rules.Stored s u (p.pa + (m.addr - p.va))
        (leBytes (amoBytes size) (Rules.atomic kind.toNat (8 * amoBytes size) old m.value.toNat m.value2.toNat))) := by
  intro old u
  have step (v : State) (eq : s.resultReturn n m.id = v) : u = v := eq
  unfold State.resultReturn at step
  rw [found] at step
  dsimp only at step
  rw [if_neg (by rw [waiting]; exact Bool.false_ne_true)] at step
  unfold Rules.atomicAt at op
  split at op
  · next d a b c k z spm o eq =>
    rw [eq] at step
    simp only [Bool.and_eq_true, decide_eq_true_eq] at op
    obtain ⟨⟨rfl, rfl⟩, -⟩ := op
    rw [step _ rfl]
    exact State.applyAtomic_applies found page plain slot sound
  · next d a b c k z o eq =>
    rw [eq] at step
    simp only [Bool.and_eq_true, decide_eq_true_eq] at op
    obtain ⟨⟨rfl, rfl⟩, room⟩ := op
    obtain ⟨bytes, same, slot', poison⟩ := State.ramoInstall_keeps found page plain slot room
    have plain' := plain.bytesOnly bytes
    have sound' : (s.ramoInstall n m.id).poisoned (p.pa + (m.addr - p.va)) (amoBytes z) = false := by
      rw [State.poisoned, State.badWord, plain'.resolve, poison]
      rwa [State.poisoned, State.badWord, plain.resolve] at sound
    have found' : ((s.ramoInstall n m.id).core n).cmd? m.id = some m := by rw [bytes.core, found]
    have applied := State.applyAtomic_applies (kind := k) found' page plain' slot' sound'
    have old' : leVal ((s.ramoInstall n m.id).dramBytes (p.pa + (m.addr - p.va)) (amoBytes z)) = old := by
      rw [State.dramBytes_plain plain', State.dramBytesAt_congr same, ← State.dramBytes_plain plain]
    have time : (s.ramoInstall n m.id).stc = s.stc := by rw [bytes.1]
    rw [step _ rfl]
    dsimp only at applied
    rw [old', time] at applied
    obtain ⟨cmd, event, reads, writes⟩ := applied
    exact ⟨cmd, event, fun zero x => (reads zero x).trans (same x), fun kind =>
      ⟨(writes kind).1, fun a out => ((writes kind).2 a out).trans (same a)⟩⟩
  · cases op

/-- Settles O35: amo, ramo and damo as they issue, and amo and ramo at their point. -/
theorem atomicsApply : Obligations.AtomicsApply := by
  unfold Obligations.AtomicsApply
  refine ⟨fun s t d a b c kind size o p h acts i word => ?_, fun s n id' m p kind size found waiting op pages low high plain slot sound => ?_,
    fun s t d a b c kind size o => ⟨fun region h i word => ?_, fun region h hf ha hr runs off => damo_misaligned h region hf ha hr runs off,
      fun hq h hf ha hr aligned top => amoSpm_asks h hf ha hr aligned top⟩⟩
  · have run : exec i s = .next (s.dramAtomic i d a b c kind size o true State.atomicDue) ∧ isDamo i = false := by
      rcases word with rfl | rfl
      · exact ⟨rfl, rfl⟩
      · exact ⟨rfl, rfl⟩
    obtain ⟨run, plain⟩ := run
    refine ⟨fun aligned => ?_, fun off => h.atomicMisaligned run acts off⟩
    obtain ⟨u, v, m, run, ends, audit, sent⟩ := h.atomicLeaves run acts plain aligned
    rw [← h.turn, ← h.stc]
    exact ⟨u, m, run, ends.issued, ends.mem_cmds sent.taken, sent.op, sent.dst, sent.addr, sent.pages, sent.value, sent.value2, sent.waiting,
      sent.stamp, audit, by rw [ends.agenda]; exact sent.event, ends.dram⟩
  · obtain rfl := Core.cmd?_id found
    exact ⟨_, rfl, atomicReturn_applies found waiting op (by rw [pages]; exact pageOf_one low high) plain slot sound⟩
  · rcases word with rfl | rfl | rfl
    · exact h.atomicBooked (op := .amo d a b c kind size 0#1 o) (audit := true) (go := State.atomicDue) rfl region
    · exact h.atomicBooked (op := .ramo d a b c kind size o) (audit := true) (go := State.atomicDue) rfl region
    · exact h.atomicBooked (op := .damo d a b c kind size o) rfl region

end Sys2Proof.Machine

/-! SUPPORT. Loads that deliver and stores that are performed (08 R205, R208, R209; 09 R267). -/

namespace Sys2Proof.Machine

-- one after another: every waiting worker thread counts towards the check's memory limit
set_option Elab.async false

/-! ### Loads -/

section
variable {s : State} {n : Nat} {m : Cmd} (found : (s.core n).cmd? m.id = some m)
include found

theorem loadPush_pushes (arrived : m.arrived = true) (oldest : ∀ x ∈ (s.core n).cmds, x.pushes = true → x.queue = m.queue → m.id ≤ x.id)
    (room : ((s.core n).q.lqueue m.queue).room s.stc = true) :
    ((s.loadPush n m.id).core n).cmd? m.id = none ∧
      (((s.loadPush n m.id).core n).q.lqueue m.queue).items = ((s.core n).q.lqueue m.queue).items ++ [⟨m.data, s.stc⟩] ∧
      (s.loadPush n m.id).dram = s.dram := by
  have first : ¬((s.core n).cmds.any fun x => x.pushes && x.queue = m.queue && decide (x.id < m.id)) = true := by
    simp only [List.any_eq_true, Bool.and_eq_true, decide_eq_true_eq, not_exists, not_and]
    rintro x mem ⟨pushes, queue⟩
    exact Nat.not_lt.mpr (oldest x mem pushes queue)
  let c : Core := { s.core n with q := (s.core n).q.setLq m.queue (((s.core n).q.lqueue m.queue).push s.stc m.data) }
  have pushed : s.loadPush n m.id = (s.setCore n c).retireCmd n m.id := by
    unfold State.loadPush
    dsimp only
    rw [found]
    dsimp only
    rw [if_neg first, if_neg (by rw [arrived]; exact Bool.false_ne_true), if_pos room]
  have own : (s.setCore n c).core n = c := State.setCore_core ..
  obtain ⟨gone, queues, dram⟩ := State.retireCmd_gone (s := s.setCore n c) (n := n) (by rw [own]; exact found)
  rw [pushed]
  refine ⟨gone, ?_, dram⟩
  rw [queues, own]
  exact congrArg VQueue.items (SMap.get_ins ..)

theorem dramReturn_reads (free : m.cal = false) (behind : s.accessBefore n m.q m.id m.locs = false) (held : (s.core n).loadHeld s.stc m.id = false)
    (good : s.firstBad n m.pages (dramUnits m.addr m.pitch) = none) :
    let v := BitVec.ofNat 32768 (leVal ((dramUnits m.addr m.pitch).flatMap fun a => s.taskRead n m.pages a 64))
    ((s.dramReturn n m.id).core n).cmd? m.id = some { m with arrived := true, data := v } ∧
      ⟨s.stc, phEngine, .loadQueuePush n m.id, {}, {}⟩ ∈ (s.dramReturn n m.id).agenda ∧ (s.dramReturn n m.id).dram = s.dram := by
  intro v
  let t := s.setCore n ((s.core n).setCmd { m with arrived := true, data := v })
  have returned : s.dramReturn n m.id = t.sched t.stc phEngine (.loadQueuePush n m.id) := by
    unfold State.dramReturn
    dsimp only
    rw [found]
    dsimp only
    rw [if_neg (by simp [behind, held]), good]
    dsimp only
    rw [if_neg (by simp [free])]
  rw [returned]
  refine ⟨?_, (mem_insJob ..).mpr (.inl rfl), rfl⟩
  have own : t.core n = (s.core n).setCmd { m with arrived := true, data := v } := State.setCore_core ..
  show (t.core n).cmd? m.id = _
  rw [own]
  exact Core.setCmd_cmd? (x := { m with arrived := true, data := v }) found

end

/-! ### Elements of gathers and scatters -/

/-- What follows an element: the next one, or with the last the push of the register or the end of the store. -/
def State.gatherNext (s : State) (n : Nat) (m : Cmd) (i : Nat) (store : Bool) : State :=
  if i < 1023 then s.schedMemFree (.gatherElement n m.id (i + 1)) m.stamp
  else if store then s.schedMem s.stc (.storePerformed n m.id) m.stamp
  else s.sched s.stc phEngine (.loadQueuePush n m.id)

theorem State.gatherNext_sameStore (s : State) (n : Nat) (m : Cmd) (i : Nat) (store : Bool) : s.SameStore (s.gatherNext n m i store) := by
  unfold State.gatherNext
  split
  · exact State.schedMemFree_sameStore ..
  · split
    · exact State.schedMem_sameStore ..
    · exact State.sched_sameStore ..

theorem State.gatherNext_core (s : State) (n : Nat) (m : Cmd) (i : Nat) (store : Bool) (j : Nat) :
    (s.gatherNext n m i store).core j = s.core j := by
  unfold State.gatherNext
  split
  · rfl
  · split <;> rfl

section
variable {s : State} {n k : Nat} {m : Cmd} {b : Bool} {p : PageTr} (found : (s.core n).cmd? m.id = some m) (slot : m.slot = some b)
  (behind : s.accessBefore n m.q m.id [(locOf [p] (m.elemAddr k), 4)] = false) (maps : s.xlate n (m.elemAddr k) false = .ok p)
  (near : realPa p.pa = true → paPkg p.pa = s.pkg)
include found slot behind maps near

theorem State.gather_loads {q : RegF} {ba ix : BitVec 5} {o : BitVec 24} (op : m.op = .ldgath q ba ix o)
    (good : s.badRead n [p] (m.elemAddr k) 4 = none) :
    s.gather n m.id k = (s.setCore n ((s.core n).setCmd { m with
      data := m.data ||| BitVec.ofNat 32768 (leVal (s.taskRead n [p] (m.elemAddr k) 4) * 2 ^ (32 * k)), arrived := decide (k = 1023) })).gatherNext
        n m k false := by
  have inside : ¬(paPkg p.pa ≠ s.pkg ∧ realPa p.pa = true) := fun e => e.1 (near e.2)
  unfold State.gather
  dsimp only
  rw [found]
  dsimp only
  rw [slot]
  dsimp only
  rw [maps, op]
  dsimp only
  rw [behind, if_neg (by simp), maps]
  dsimp only
  rw [if_neg inside, if_neg Bool.false_ne_true, good]
  rfl

theorem State.gather_stores {q : RegF} {ba ix : BitVec 5} {o : BitVec 24} (op : m.op = .stscat q ba ix o) (calm : s.refused n m.id = false)
    (own : s.xlate n (m.elemAddr k) true = .ok p) :
    s.gather n m.id k = (s.taskWrite n [p] (m.elemAddr k) (leBytes 4 (velem 32 m.data k)) m.stamp m.id).gatherNext n m k true := by
  have inside : ¬(paPkg p.pa ≠ s.pkg ∧ realPa p.pa = true) := fun e => e.1 (near e.2)
  unfold State.gather
  dsimp only
  rw [found]
  dsimp only
  rw [slot]
  dsimp only
  rw [maps, op]
  dsimp only
  rw [behind, calm, if_neg (by simp), own]
  dsimp only
  rw [if_neg inside]
  rfl

end

theorem ldgath_reads {s : State} {n k : Nat} {m : Cmd} {b : Bool} {p : PageTr} {q : RegF} {ba ix : BitVec 5} {o : BitVec 24}
    (found : (s.core n).cmd? m.id = some m) (op : m.op = .ldgath q ba ix o) (slot : m.slot = some b)
    (behind : s.accessBefore n m.q m.id [(locOf [p] (m.elemAddr k), 4)] = false) (maps : s.xlate n (m.elemAddr k) false = .ok p)
    (near : realPa p.pa = true → paPkg p.pa = s.pkg) (good : s.badRead n [p] (m.elemAddr k) 4 = none) :
    let d := m.data ||| BitVec.ofNat 32768 (leVal (s.taskRead n [p] (m.elemAddr k) 4) * 2 ^ (32 * k))
    let u := s.gather n m.id k
    (u.core n).cmd? m.id = some { m with data := d, arrived := decide (k = 1023) } ∧
      (k < 1023 → ∃ j ∈ u.agenda, s.stc < j.due ∧ j.ev = .gatherElement n m.id (k + 1)) ∧
      (1023 ≤ k → ⟨s.stc, phEngine, .loadQueuePush n m.id, {}, {}⟩ ∈ u.agenda) ∧ u.dram = s.dram := by
  intro d u
  have core := State.setCore_core s n ((s.core n).setCmd { m with data := d, arrived := decide (k = 1023) })
  have step : u = (s.setCore n ((s.core n).setCmd { m with data := d, arrived := decide (k = 1023) })).gatherNext n m k false :=
    State.gather_loads found slot behind maps near op good
  rw [step]
  refine ⟨?_, fun more => ?_, fun last => ?_, (State.gatherNext_sameStore ..).dram⟩
  · rw [State.gatherNext_core, core]
    exact Core.setCmd_cmd? (x := { m with data := d, arrived := decide (k = 1023) }) found
  · rw [State.gatherNext, if_pos more]
    exact State.mem_schedMemFree (s.setCore n _) _ _
  · rw [State.gatherNext, if_neg (Nat.not_lt.mpr last)]
    exact (mem_insJob ..).mpr (.inl rfl)

/-! ### Stores -/

theorem stscat_stores {s : State} {n k : Nat} {m : Cmd} {b : Bool} {p : PageTr} {q : RegF} {ba ix : BitVec 5} {o : BitVec 24}
    (found : (s.core n).cmd? m.id = some m) (op : m.op = .stscat q ba ix o) (slot : m.slot = some b) (calm : s.refused n m.id = false)
    (behind : s.accessBefore n m.q m.id [(locOf [p] (m.elemAddr k), 4)] = false) (own : s.xlate n (m.elemAddr k) true = .ok p)
    (maps : s.xlate n (m.elemAddr k) false = .ok p) (near : realPa p.pa = true → paPkg p.pa = s.pkg) (low : p.va ≤ m.elemAddr k)
    (high : m.elemAddr k < p.va + p.size) (plain : Rules.PlainDram s) (lands : Rules.LandsAtHome s n (m.elemAddr k)) :
    Rules.Stored s (s.gather n m.id k) (p.pa + (m.elemAddr k - p.va)) (leBytes 4 (velem 32 m.data k)) := by
  rw [State.gather_stores found slot behind maps near op calm own, State.taskWrite_home lands (pageOf_one low high) plain]
  exact (State.gatherNext_sameStore ..).stored (plain.applyWrite_stored ..)

theorem State.BytesOnly.slotOf {s u : State} (h : s.BytesOnly u) (n va : Nat) : u.slotOf n va = s.slotOf n va := by
  rw [h.1]; rfl

theorem State.BytesOnly.landsAtHome {s u : State} (h : s.BytesOnly u) {n va : Nat} (k : Rules.LandsAtHome s n va) :
    Rules.LandsAtHome u n va := by
  obtain ⟨shadow, slot, run⟩ := k
  exact ⟨by rw [h.core]; exact shadow, by rw [h.slotOf]; exact slot, by rw [h.core]; exact run⟩

/-- The pieces of 64 bytes of a register that lie one after the other. -/
theorem stdram_pieces {s : State} {n va len : Nat} {ps : List PageTr} {p : PageTr} (bs : List Byte) (st : Stamp) (id' : Nat)
    (whole : 64 * len ≤ bs.length) (low : p.va ≤ va) (page : ∀ k < len, pageOf ps (va + 64 * k) = some p) (plain : Rules.PlainDram s)
    (lands : ∀ k < len, Rules.LandsAtHome s n (va + 64 * k)) :
    let u := (List.range len).foldl (fun s k => s.taskWrite n ps (va + 64 * k) ((bs.drop (64 * k)).take 64) st id') s
    s.BytesOnly u ∧ Rules.Stored s u (p.pa + (va - p.va)) (bs.take (64 * len)) := by
  induction len with
  | zero => exact ⟨.refl s, Rules.Stored.nil s _⟩
  | succ len ih =>
    obtain ⟨bytes, stored⟩ := ih (by omega) (fun k hk => page k (by omega)) (fun k hk => lands k (by omega))
    dsimp only
    rw [List.range_succ, List.foldl_append, List.foldl_cons, List.foldl_nil]
    generalize (List.range len).foldl (fun s k => s.taskWrite n ps (va + 64 * k) ((bs.drop (64 * k)).take 64) st id') s = t at bytes stored ⊢
    have plain' := plain.bytesOnly bytes
    rw [State.taskWrite_home (bytes.landsAtHome (lands len (by omega))) (page len (by omega)) plain']
    refine ⟨bytes.trans (plain'.applyWrite_bytesOnly ..), ?_⟩
    have next := plain'.applyWrite_stored (p.pa + (va + 64 * len - p.va)) ((bs.drop (64 * len)).take 64) st
    have at_ : p.pa + (va + 64 * len - p.va) = p.pa + (va - p.va) + (bs.take (64 * len)).length := by
      rw [List.length_take]; omega
    have parts : bs.take (64 * (len + 1)) = bs.take (64 * len) ++ (bs.drop (64 * len)).take 64 := by
      rw [Nat.mul_succ, List.take_add]
    rw [at_] at next ⊢
    rw [parts]
    exact stored.append next

/-- The units of a register whose rows follow one another. -/
theorem dramUnits_dense (ea : Nat) : dramUnits ea 256 = (List.range 64).map fun k => ea + 64 * k := by
  unfold dramUnits
  refine List.map_congr_left fun k _ => ?_
  omega

theorem stdram_stores {s : State} {n : Nat} {m : Cmd} {p : PageTr} {q : RegF} {ba ix : BitVec 5} {o : BitVec 24}
    (found : (s.core n).cmd? m.id = some m) (op : m.op = .stdram q ba ix o) (rows : m.rows = 0) (pitch : m.pitch = 256)
    (behind : s.accessBefore n m.q m.id m.locs = false) (pages : m.pages = [p]) (low : p.va ≤ m.addr) (high : m.addr + 4096 ≤ p.va + p.size)
    (plain : Rules.PlainDram s) (lands : ∀ k, k < 4096 → Rules.LandsAtHome s n (m.addr + k)) :
    Rules.Stored s (s.storeDone n m.id) (p.pa + (m.addr - p.va)) (leBytes 4096 m.data.toNat) := by
  obtain ⟨bytes, stored⟩ := stdram_pieces (len := 64) (ps := m.pages) (leBytes 4096 m.data.toNat) m.stamp m.id (by rw [leBytes_length]) low
    (fun k hk => by rw [pages]; exact pageOf_one (by omega) (by omega)) plain (fun k hk => lands (64 * k) (by omega))
  rw [List.take_of_length_le (by rw [leBytes_length])] at stored
  have here := (congrArg (fun c => Core.cmd? c m.id) (bytes.core n)).trans found
  have ends := State.storeEnds_sameStore (x := { m with op := .stdram q ba ix o, rows := 16 }) here rfl
  have pieces (f : State → Nat × Nat → State) : ((List.range 64).zip (dramUnits m.addr m.pitch)).foldl f s =
      (List.range 64).foldl (fun s k => f s (k, m.addr + 64 * k)) s := by
    have paired := List.zip_map' (l := List.range 64) (f := id) (g := fun k => m.addr + 64 * k)
    rw [List.map_id] at paired
    rw [pitch, dramUnits_dense, paired, List.foldl_map]
    rfl
  unfold State.storeDone
  dsimp only
  rw [found]
  dsimp only
  rw [op]
  dsimp only
  rw [if_neg (by rw [behind]; exact Bool.false_ne_true), if_pos rows, pieces]
  exact ends.stored stored

/-- A scratchpad store that has written its last row retires; with ADV its ring has one slot more in the next cycle. -/
theorem spmStore_retires {s : State} {n : Nat} {m : Cmd} (found : (s.core n).cmd? m.id = some m)
    (op : (∃ q ba ix o, m.op = .stspm q ba ix o) ∨ ∃ q ba ix rg v, m.op = .strg q ba ix rg v) (calm : s.refused n m.id = false) :
    ((s.storeDone n m.id).core n).cmd? m.id = none ∧ (s.storeDone n m.id).dram = s.dram ∧
      ∀ q ba ix rg, m.op = .strg q ba ix rg 1#1 → ⟨s.stc + 1, .ringFill rg.toNat 1⟩ ∈ ((s.storeDone n m.id).core n).pend := by
  rcases op with ⟨q, ba, ix, o, op⟩ | ⟨q, ba, ix, rg, v, op⟩
  · have done : s.storeDone n m.id = s.retireCmd n m.id := by
      unfold State.storeDone
      dsimp only
      rw [found]
      dsimp only
      rw [op]
      dsimp only
      rw [calm, if_neg Bool.false_ne_true]
    obtain ⟨gone, -, dram⟩ := State.retireCmd_gone found
    rw [done]
    exact ⟨gone, dram, fun _ _ _ _ e => nomatch op.symm.trans e⟩
  · let t := if v = 1#1 then s.modCore n fun c => c.later (s.stc + 1) (.ringFill rg.toNat 1) else s
    have done : s.storeDone n m.id = t.retireCmd n m.id := by
      unfold State.storeDone
      dsimp only
      rw [found]
      dsimp only
      rw [op]
    have dram : t.dram = s.dram := by dsimp only [t]; split <;> rfl
    have found' : (t.core n).cmd? m.id = some m := by
      dsimp only [t]
      split
      · rw [State.modCore_core]; exact found
      · exact found
    obtain ⟨gone, -, dram'⟩ := State.retireCmd_gone found'
    obtain ⟨-, own, -⟩ := State.retireCmd_retires found' (by rw [Cmd.closesWindow, op])
    rw [done]
    refine ⟨gone, dram'.trans dram, fun q' ba' ix' rg' e => ?_⟩
    rw [op] at e
    obtain ⟨rfl, rfl, rfl, rfl, rfl⟩ := Instr.strg.inj e
    obtain ⟨-, -, -, -, -, kept⟩ := (t.core n).without_frame t.stc m
    rw [own]
    refine kept _ ?_
    dsimp only [t]
    rw [if_pos rfl, State.modCore_core]
    exact (mem_insPend ..).mpr (.inl rfl)

/-- Settles O31: loads that deliver, and stores that are performed. -/
theorem loadsAndStoresArePerformed : Obligations.LoadsAndStoresArePerformed := by
  unfold Obligations.LoadsAndStoresArePerformed
  refine ⟨fun s n id' m found => ?_, fun s n id' m found => ?_⟩
  all_goals obtain rfl := Core.cmd?_id found
  · refine ⟨fun arrived oldest room => ⟨_, rfl, loadPush_pushes found arrived oldest room⟩, fun free behind held good => ?_,
      fun k b p q ba ix o op slot behind maps near good => ?_⟩
    · obtain ⟨cmd, event, dram⟩ := dramReturn_reads found free behind held good
      exact ⟨_, _, rfl, cmd, rfl, event, dram⟩
    · obtain ⟨cmd, next, last, dram⟩ := ldgath_reads found op slot behind maps near good
      exact ⟨_, _, rfl, cmd, rfl, next, last, dram⟩
  · exact ⟨fun q ba ix o p op rows pitch behind pages low high plain lands =>
        ⟨_, rfl, stdram_stores found op rows pitch behind pages low high plain lands⟩,
      fun q ba ix o p k b op slot calm behind own maps near low high plain lands =>
        ⟨_, rfl, stscat_stores found op slot calm behind own maps near low high plain lands⟩,
      fun op calm => ⟨_, rfl, spmStore_retires found op calm⟩⟩

end Sys2Proof.Machine

/-! SUPPORT. Reduction windows deliver and close (08 R224, R225; 09 R256), and words that hold their sequencer. -/

namespace Sys2Proof.Machine

-- one after another: every waiting worker thread counts towards the check's memory limit
set_option Elab.async false

/-! ### A word that holds its sequencer (12 R307) -/

/-- The settled state in which the word at hand is to be tried again in the next cycle. -/
def State.retrying (s : State) : State := s.settled.modCur fun k => k.modSeq s.turn.q fun x => { x with retry := s.stc + 1 }

theorem Core.region_ite (p : Prop) [Decidable p] {a b : Core} {r : Bool} (ha : a.sys.region = r) (hb : b.sys.region = r) :
    (if p then a else b).sys.region = r := by
  split
  · exact ha
  · exact hb

/-- No register move changes the kind of region. -/
theorem Core.moveSys_region (c : Core) (now : Nat) (q : Seq) (n : Nat) (v : Word) : (c.moveSys now q n v).sys.region = c.sys.region := by
  have written : (c.writeSys now q n v).sys.region = c.sys.region := by
    unfold Core.writeSys
    repeat' refine Core.region_ite _ ?_ ?_
    all_goals simp only [Core.modSeq_sys]
  unfold Core.moveSys Core.noteMove
  exact Core.region_ite _ written written

/-- No effect that takes hold does. -/
theorem Eff.apply_region (now : Nat) (e : Eff) (c : Core) : (e.apply now c).sys.region = c.sys.region := by
  cases e with
  | reg q r v => exact congrArg _ (Core.modSeq_sys ..)
  | loop q k v => exact congrArg _ (Core.modSeq_sys ..)
  | sys q n v => exact Core.moveSys_region ..
  | _ => rfl

theorem Core.settle_region (c : Core) (now : Nat) : (c.settle now).sys.region = c.sys.region := by
  have go (l : List Pend) (c : Core) : (settleGo now l c).sys.region = c.sys.region := by
    induction l generalizing c with
    | nil => rfl
    | cons p t ih =>
      rw [settleGo]
      split
      · rw [ih, Eff.apply_region]
      · exact ih c
  exact go c.pend c

/-- In a scoreboard region a held word is tried again, and what it asks for happens meanwhile. -/
theorem State.Begins.holds {s t : State} {k : Kind} (h : s.Begins k t) (board : s.cur.sys.region = true) {body : State → Res}
    {f : State → State} (hb : body t = .hold f) : s.issue k body = f s.retrying := by
  have region : s.settled.cur.sys.region = true := by rw [State.settled_cur, Core.settle_region, board]
  rw [h.issue, hb, State.conclude, if_pos region, State.block_waits region]
  rfl

/-- The same of a word whose access may go on. -/
theorem State.Begins.accessHolds {s t : State} {k : Kind} {i : Instr} {rs : List RegF} {body : State → Res} {f : State → State}
    (hi : exec i s = .next (s.issue k fun u => u.interlock rs (fun w => w.access false body) u)) (h : s.Begins k t)
    (board : s.cur.sys.region = true) (hf : t.RegsFree rs) (ha : Rules.AccessFree t) (hb : body t = .hold f) :
    exec i s = .next (f s.retrying) :=
  hi.trans (congrArg Host.Outcome.next (h.holds board ((hf.mem ha body).trans hb)))

theorem State.retrying_curSeq (s : State) : s.retrying.curSeq = { s.settled.curSeq with retry := s.stc + 1 } := by
  rw [State.retrying, State.curSeq, State.modCur_cur, State.modCur_turn, State.settled_turn, Core.modSeq_seq]
  rfl

/-- With no record spilled, none comes on-chip. -/
theorem State.unspill_none {s : State} (quiet : ∀ x ∈ s.ctxs, x.2.spilled = []) : s.unspill = s := by
  unfold State.unspill
  refine if_pos (List.all_eq_true.mpr fun x hx => ?_)
  rw [quiet x hx]
  rfl

/-- A change of a task's own account leaves its streams. -/
theorem State.modTsk_curSeq (s : State) (f : TaskSt → TaskSt) : (s.modCur fun c => { c with tsk := f c.tsk }).curSeq = s.curSeq := by
  rw [State.curSeq, State.modCur_cur, State.modCur_turn, State.curSeq]
  cases s.turn.q <;> rfl

/-! ### What the retirement of a command changes -/

/-- Nothing but cores, records of tasks, dies and what is to come differs. -/
def State.CoresDown (s u : State) : Prop := u = { s with cores := u.cores, recs := u.recs, dies := u.dies, agenda := u.agenda }

theorem State.CoresDown.ofDies {s u : State} (h : s.DiesAndAgendaOnly u) : s.CoresDown u := by
  rw [State.CoresDown, h.eq]

theorem State.CoresDown.trans {s t u : State} (h : s.CoresDown t) (k : t.CoresDown u) : s.CoresDown u := by
  rw [State.CoresDown, k, h]

/-- A command that retires leaves the windows, their contributions and the pairing operations as they are. -/
theorem State.retireCmd_coresDown (s : State) (n id' : Nat) : s.CoresDown (s.retireCmd n id') := by
  unfold State.retireCmd
  dsimp only
  split
  · rfl
  · split
    · rfl
    · exact .trans (t := (s.setCore n _).modTask _ _) rfl (.ofDies (State.pinsFell_diesAndAgendaOnly ..))
    · exact .trans (t := s.setCore n _) rfl (.ofDies (.foldl (fun s x => s.schedInp_diesAndAgendaOnly ..) ..))

/-! ### Contributions (08 R224) -/

/-- A contribution takes a slot of cle. -/
theorem contribution_takesSlot {s : State} {k : Contrib} {m : Cmd} {b : Bool} (stands : s.contribs.find? (fun x => x.id = k.id) = some k)
    (found : (s.core k.core).cmd? k.cmd = some m) (waits : m.slot = none) (free : s.grabSlot k.core engCle = some b) :
    let u := s.contribArrive k.id
    (u.core k.core).cmd? k.cmd = some { m with slot := some b } ∧ (∃ j ∈ u.agenda, s.stc < j.due ∧ j.ev = .rwContribution k.id) ∧
      u.contribs = s.contribs ∧ u.dram = s.dram := by
  have step : s.contribArrive k.id = (s.takeSlot k.core m b).schedFree phTask (.rwContribution k.id) := by
    unfold State.contribArrive
    rw [stands]
    dsimp only
    rw [found]
    dsimp only
    rw [waits, free]
    rfl
  have number := Core.cmd?_id found
  rw [← number] at found
  obtain ⟨cmd, event, store⟩ := State.cmdReturns (x := { m with slot := some b }) found phTask (.rwContribution k.id)
  dsimp only
  rw [step, ← number]
  exact ⟨cmd, event, rfl, store.dram⟩

/-- A window that is changed is found as it was changed. -/
theorem State.setRwin_rwin? {s : State} {w x : RWin} {ctx handle : Nat} (found : s.rwin? ctx handle = some w) (key : x.id = w.id)
    (same : x.ctx = w.ctx ∧ x.handle = w.handle) (unique : ∀ y ∈ s.rwins, y.id = w.id → y = w) :
    (s.setRwin x).rwin? ctx handle = some x := by
  let wanted (y : RWin) : Bool := y.ctx = ctx && y.handle = handle
  have reads (y : RWin) (hy : y ∈ s.rwins) : (wanted ∘ fun y => if y.id = x.id then x else y) y = wanted y := by
    dsimp only [Function.comp_apply, wanted]
    split
    · next own => rw [unique y hy (own.trans key), same.1, same.2]
    · rfl
  show (s.rwins.map _).find? wanted = _
  rw [List.find?_map, List.find?_congr reads]
  show (s.rwin? ctx handle).map _ = _
  rw [found]
  simp [key]

/-- A contribution whose command runs joins its open window; with the last LAST the delivery falls due. -/
theorem contribution_joins {s : State} {k : Contrib} {w : RWin} (stands : s.contribs.find? (fun x => x.id = k.id) = some k)
    (runs : ∀ m, (s.core k.core).cmd? k.cmd = some m → m.slot ≠ none) (window : s.rwin? k.ctx k.handle = some w)
    (open_ : w.lasts < w.tasks) (unique : ∀ x ∈ s.rwins, x.id = w.id → x = w) :
    ∃ w', (s.contribArrive k.id).rwin? k.ctx k.handle = some w' ∧ w'.parts = w.parts ++ [k] ∧ w'.lasts = w.lasts + k.last.toNat ∧
      (∀ x ∈ (s.contribArrive k.id).contribs, x.id ≠ k.id) ∧
      (w.lasts + k.last.toNat = w.tasks → ∃ j ∈ (s.contribArrive k.id).agenda, s.stc < j.due ∧ j.ev = .rwDelivery w.id) ∧
      (s.contribArrive k.id).dram = s.dram := by
  have arrives : s.contribArrive k.id = s.contribHeld k := by
    unfold State.contribArrive
    rw [stands]
    dsimp only
    cases found : (s.core k.core).cmd? k.cmd with
    | none => rfl
    | some m => exact if_pos (Option.isSome_iff_ne_none.mpr (runs m found))
  let left : State := { s with contribs := s.contribs.filter fun (x : Contrib) => decide (x.id ≠ k.id) }
  have kept : left.CoresDown (left.retireCmd k.core k.cmd) := State.retireCmd_coresDown ..
  have held : s.contribHeld k = _ := rfl
  unfold State.contribHeld at held
  change s.contribHeld k = (match (left.retireCmd k.core k.cmd).rwin? k.ctx k.handle with | none => _ | some w => _) at held
  rw [arrives]
  generalize left.retireCmd k.core k.cmd = t at kept held
  have windows : t.rwins = s.rwins := by rw [kept]
  have window' : t.rwin? k.ctx k.handle = some w := by rw [State.rwin?, windows]; exact window
  dsimp only at held
  rw [window'] at held
  dsimp only at held
  rw [if_neg (Nat.not_le.mpr open_)] at held
  let w' : RWin := { w with
    parts := w.parts ++ [k]
    errors := Nat.min (w.errors + ((List.range k.values.length).filter fun j => decide (w.n ≤ k.elem + j)).length) (2 ^ 32 - 1)
    lasts := w.lasts + k.last.toNat }
  change s.contribHeld k = (if w'.lasts = w.tasks then (t.setRwin w').schedMemFree (.rwDelivery w.id) w.stamp else t.setRwin w') at held
  have found : (t.setRwin w').rwin? k.ctx k.handle = some w' :=
    State.setRwin_rwin? window' rfl ⟨rfl, rfl⟩ (by rw [windows]; exact unique)
  have gone : ∀ x ∈ t.contribs, x.id ≠ k.id := by
    rw [show t.contribs = left.contribs by rw [kept]]
    exact fun x hx => of_decide_eq_true (List.mem_filter.mp hx).2
  have stc : t.stc = s.stc := by rw [kept]
  have dram : t.dram = s.dram := by rw [kept]
  by_cases last : w'.lasts = w.tasks
  · rw [if_pos last] at held
    rw [held]
    refine ⟨w', found, rfl, rfl, gone, fun _ => ?_, dram⟩
    rw [← stc]
    exact (t.setRwin w').mem_schedMemFree _ _
  · rw [if_neg last] at held
    rw [held]
    exact ⟨w', found, rfl, rfl, gone, fun e => absurd e last, dram⟩

/-! ### Delivery -/

/-- The delivery of a window with one element writes its sum, and the window is delivered. -/
theorem window_delivers {s : State} {w : RWin} {e v : Nat} {p : PageTr} (stands : s.rwins.find? (fun x => x.id = w.id) = some w)
    (sums : w.sums = [(e, v)]) (fromStart : w.done = 0) (noMirror : w.mirror = false) (plain : Rules.PlainDram s)
    (page : pageOf w.pages (w.va + e * rwBytes w.type_) = some p) (real : realPa p.pa = true) :
    let pa := p.pa + (w.va + e * rwBytes w.type_ - p.va)
    (∃ x ∈ (s.deliver w.id).rwins, x.id = w.id ∧ x.delivered = true ∧ x.parts = []) ∧
      Rules.Stored s (s.deliver w.id) pa (leBytes (rwBytes w.type_) (rwAdd w.type_ (leVal (s.dramBytes pa (rwBytes w.type_))) v)) := by
  intro pa
  let t := s.applyWrite pa (leBytes (rwBytes w.type_) (rwAdd w.type_ (s.dramRead pa (rwBytes w.type_)) v)) w.stamp
  have one : s.deliverOne w e v = (true, t) := by
    unfold State.deliverOne
    dsimp only
    rw [page]
    dsimp only
    rw [if_pos real, plain.logFull, noMirror]
    rfl
  have step : s.deliver w.id = t.setRwin { w with delivered := true, parts := [], done := 1 } := by
    unfold State.deliver
    rw [stands]
    dsimp only
    rw [sums, fromStart, List.drop_zero, State.deliverAll, one]
    rfl
  have windows : t.rwins = s.rwins := by rw [show t = _ from (plain.applyWrite_bytesOnly ..).1]
  have store : t.SameStore (t.setRwin { w with delivered := true, parts := [], done := 1 }) := by constructor <;> rfl
  obtain ⟨mem, -⟩ := find?_key (key := RWin.id) stands
  rw [step]
  refine ⟨⟨{ w with delivered := true, parts := [], done := 1 }, ?_, rfl, rfl, rfl⟩, store.stored (plain.applyWrite_stored ..)⟩
  show _ ∈ t.rwins.map _
  rw [windows]
  exact List.mem_map.mpr ⟨w, mem, if_pos rfl⟩

/-! ### rwclose (08 R225) -/

section
variable {s t : State} {d a : RegF} {o : BitVec 2} (board : s.cur.sys.region = true) (h : s.Begins {} t) (hf : t.RegsFree [d, a])
  (ha : Rules.AccessFree t)
include board h hf ha

theorem rwclose_closes {w : RWin} (window : t.rwin? t.cur.sys.ctx.toNat (t.rd a).toNat = some w) (done : w.delivered = true) :
    ∃ u m, exec (.rwclose d a o) s = .next u ∧ s.Issued u ∧ (∀ x ∈ u.rwins, x.id ≠ w.id) ∧ m ∈ u.cur.cmds ∧ m.op = .rwclose d a o ∧
      m.dst = d.toNat ∧ m.value = BitVec.ofNat 64 w.errors ∧ (u.cur.engine engCle).out = (t.cur.engine engCle).out + 1 ∧
      (∃ j ∈ u.agenda, s.stc < j.due ∧ j.ev = .atomicResultReturn s.turn.core m.id) ∧ u.dram = s.dram := by
  let left : State := { t with rwins := t.rwins.filter fun x => x.id ≠ w.id }
  let t1 := left.endWait
  have grows : t.Extends t1 := .trans (v := left) (.ofTables rfl rfl rfl rfl rfl)
    (left.modCur_extends_seq (by rw [State.curSeq]; cases left.turn.q <;> rfl) rfl rfl (fun _ => id) fun _ => id)
  let t2 := (t1.stampFor t1.turn.core (unitOfEng engCle)).2
  have stamped : t1.Extends t2 := State.stampFor_extends _
  let m : Cmd := { mkCmd engCle t2.turn.q (.rwclose d a o) with
    dst := d.toNat, value := BitVec.ofNat 64 w.errors, stamp := (t1.stampFor t1.turn.core (unitOfEng engCle)).1, pages := w.pages,
    pins := pinKeys w.pages, obj := w.owner }
  let t3 := (t2.addCmd t2.turn.core m).2
  have added : t2.Extends t3 := State.addCmd_extends m
  have before := (grows.trans stamped).trans added
  obtain ⟨u, run, ends⟩ := h.accessIssues (i := .rwclose d a o)
    (v := t3.schedFree phEngine (.atomicResultReturn t3.turn.core (t2.addCmd t2.turn.core m).1))
    (congrArg _ (if_neg (by simp [State.cal, board]))) hf ha nofun (by dsimp only; rw [window]; dsimp only; rw [done]; rfl)
    (before.trans (State.schedFree_extends ..))
  have event := ends.event (State.mem_schedFree ..) before.stc
  have taken := ends.mem_cmds ((State.schedFree_extends ..).cmds _ (State.mem_addCmd m))
  have out : (t3.cur.engine engCle).out = (t.cur.engine engCle).out + 1 := by
    rw [show t3.cur = _ from t2.addCmd_cur m, show t2.cur = _ from t1.stampFor_cur .., show t1.cur = _ from State.modCur_cur ..]
    exact Core.accept_out _ _ (show engCle < 7 by decide)
  rw [before.turn, h.turn] at event
  refine ⟨u, _, run, ends.issued, fun x hx => ?_, taken, rfl, rfl, rfl, (congrArg EngSt.out (ends.engine engCle)).trans out, event, ends.dram⟩
  rw [ends.rwins] at hx
  exact of_decide_eq_true (List.mem_filter.mp hx).2

theorem rwclose_waits {w : RWin} (window : t.rwin? t.cur.sys.ctx.toNat (t.rd a).toNat = some w) (open_ : w.delivered = false)
    (quiet : ∀ x ∈ s.ctxs, x.2.spilled = []) :
    ∃ u, exec (.rwclose d a o) s = .next u ∧ u.curSeq.retry = s.stc + 1 ∧ u.curSeq.pc = s.curSeq.pc ∧ u.rwins = s.rwins := by
  have run := h.accessHolds (i := .rwclose d a o) (congrArg _ (if_neg (by simp [State.cal, board]))) board hf ha
    (by dsimp only; rw [window]; dsimp only; rw [open_]; rfl)
  rw [State.unspill_none (s := s.retrying.noteWait w.handle) quiet] at run
  have stream := State.modTsk_curSeq s.retrying fun x => { x with wait := some (s.retrying.turn.q, w.handle) }
  refine ⟨_, run, ?_, ?_, rfl⟩
  all_goals rw [show (s.retrying.noteWait w.handle).curSeq = _ from stream, State.retrying_curSeq]
  exact State.settled_pc s

theorem rwclose_unknown (window : t.rwin? t.cur.sys.ctx.toNat (t.rd a).toNat = none) :
    exec (.rwclose d a o) s = .next (s.settled.wordTrap .illop 0) :=
  h.accessTrap (i := .rwclose d a o) (b := false) (congrArg _ (if_neg (by simp [State.cal, board]))) hf ha nofun
    (by dsimp only; rw [window])

end

/-- Settles O38: contributions, the delivery, and rwclose. -/
theorem windowsDeliver : Obligations.WindowsDeliver := by
  unfold Obligations.WindowsDeliver
  refine ⟨⟨fun s k m b stands found waits free => ⟨_, rfl, contribution_takesSlot stands found waits free⟩,
    fun s k w stands runs window open_ unique => ?_, fun s w e v p stands sums fromStart noMirror plain page real =>
      ⟨_, rfl, window_delivers stands sums fromStart noMirror plain page real⟩⟩,
    fun s t d a o hq board h hf ha => ⟨fun w window done => rwclose_closes board h hf ha window done,
      fun w window open_ quiet => rwclose_waits board h hf ha window open_ quiet, rwclose_unknown board h hf ha⟩⟩
  obtain ⟨w', joined⟩ := contribution_joins stands runs window open_ unique
  exact ⟨_, w', rfl, joined⟩

end Sys2Proof.Machine

/-! SUPPORT. Pairing operations at the stations of the ring and at their object (08 R226, R228; 13 R338, R339; 14 R363). -/

namespace Sys2Proof.Machine

-- one after another: every waiting worker thread counts towards the check's memory limit
set_option Elab.async false

/-! ### Pairing buffers -/

/-- The state with a pairing operation out of the buffer that held it. -/
def State.leaveBuf (s : State) (o : PairOp) : State :=
  match o.held with
  | some d => s.setPairBuf d ((s.pairBufAt d).filter fun i => i ≠ o.id)
  | none => s

theorem State.setPairBuf_eq (s : State) (d : Nat) (l : List Nat) : ∃ ds b, s.setPairBuf d l = { s with dies := ds, bridgeBuf := b } := by
  unfold State.setPairBuf
  split
  · exact ⟨_, _, rfl⟩
  · exact ⟨_, _, rfl⟩

theorem State.leaveBuf_eq (s : State) (o : PairOp) : ∃ ds b, s.leaveBuf o = { s with dies := ds, bridgeBuf := b } := by
  unfold State.leaveBuf
  split
  · exact State.setPairBuf_eq ..
  · exact ⟨_, _, rfl⟩

theorem State.setPairBuf_at (s : State) (d : Nat) (l : List Nat) : (s.setPairBuf d l).pairBufAt d = l := by
  unfold State.setPairBuf State.pairBufAt
  by_cases station : d < 8
  · rw [if_pos station, if_pos station, State.modDie, State.setDie_die]
  · rw [if_neg station, if_neg station]
    exact SMap.get_ins ..

theorem State.leaveBuf_held {s : State} {o : PairOp} {d : Nat} (held : o.held = some d) :
    (s.leaveBuf o).pairBufAt d = (s.pairBufAt d).filter fun i => i ≠ o.id := by
  rw [State.leaveBuf, held]
  exact State.setPairBuf_at ..

theorem State.leaveBuf_none {s : State} {o : PairOp} (held : o.held = none) : s.leaveBuf o = s := by rw [State.leaveBuf, held]

/-- States with the same buffers have the same after an operation has left. -/
theorem State.leaveBuf_at_congr {s u : State} (dies : u.dies = s.dies) (bridge : u.bridgeBuf = s.bridgeBuf) (o : PairOp) (k : Nat) :
    (u.leaveBuf o).pairBufAt k = (s.leaveBuf o).pairBufAt k := by
  have die (d : Nat) : u.die d = s.die d := by rw [State.die, dies, State.die]
  have bufs (d : Nat) : u.pairBufAt d = s.pairBufAt d := by rw [State.pairBufAt, die, bridge, State.pairBufAt]
  unfold State.leaveBuf
  split
  · next d held =>
    rw [bufs]
    unfold State.setPairBuf
    split
    · simp only [State.pairBufAt, State.die, State.modDie, State.setDie, dies, bridge]
    · simp only [State.pairBufAt, State.die, dies, bridge]
  · exact bufs k

/-! ### Stations (13 R338) -/

theorem State.setPair_pair? {s : State} {x o : PairOp} (found : s.pair? o.id = some x) : (s.setPair o).pair? o.id = some o := by
  obtain ⟨mem, key⟩ := find?_key (key := PairOp.id) found
  exact find?_replace (key := PairOp.id) rfl ⟨x, mem, key⟩

/-- A packet of the ring arrives in a later cycle. -/
theorem State.mem_schedRing (s : State) (a b : Nat) (ev : Instr) (i : Input) : ∃ j ∈ (s.schedRing a b ev i).agenda, s.stc < j.due ∧ j.ev = ev :=
  ⟨_, (mem_insJob ..).mpr (.inl rfl), Nat.lt_of_lt_of_le (Nat.lt_add_of_pos_right (Nat.succ_pos _) |>.trans_le'
    (Nat.le_add_right ..)) (Nat.le_max_left ..), rfl⟩

/-- An operation that leaves a station is out of its buffer and on its way to the next station, or to its object. -/
theorem State.forwardPair_forwards {s : State} {x : PairOp} (found : s.pair? x.id = some x) :
    (s.forwardPair x).pair? x.id = some { x with held := none, path := x.path.tail } ∧
      (∀ k, (s.forwardPair x).pairBufAt k = (s.leaveBuf x).pairBufAt k) ∧
      ∃ j ∈ (s.forwardPair x).agenda, s.stc < j.due ∧
        j.ev = (if x.path.tail = [] then .fallThroughApply x.id else .pairingArrival x.id) := by
  let o : PairOp := { x with held := none, path := x.path.tail }
  let t := (s.leaveBuf x).setPair o
  have step : s.forwardPair x = match o.path with
      | [] => t.schedMemFree (.fallThroughApply o.id) o.stamp
      | d :: _ => t.schedRing (stationDie (x.path.headD 0)) (stationDie d) (.pairingArrival o.id) {} := rfl
  obtain ⟨ds, b, left⟩ := s.leaveBuf_eq x
  have stc : t.stc = s.stc := by dsimp only [t]; rw [left]; rfl
  have stands : t.pair? o.id = some o := State.setPair_pair? (x := x) (by rw [left]; exact found)
  rw [step, ← stc]
  cases onward : o.path with
  | nil => exact ⟨stands, fun _ => rfl, by rw [if_pos (show x.path.tail = [] from onward)]; exact State.mem_schedMemFree ..⟩
  | cons d l =>
    refine ⟨stands, fun _ => rfl, ?_⟩
    rw [if_neg (show x.path.tail ≠ [] by rw [show x.path.tail = _ from onward]; exact fun e => nomatch e)]
    exact State.mem_schedRing ..

/-- The meeting of a station's operations at the end of the cycle is asked for, unless it is. -/
def State.callMeeting (s : State) (d : Nat) : State :=
  if s.hasJobInp .claspPairing { die := d } then s else s.schedInp s.stc phEnd .claspPairing { die := d }

theorem State.callMeeting_calls (s : State) (d : Nat) : (s.callMeeting d).hasJobInp .claspPairing { die := d } = true ∧
    ∃ l, s.callMeeting d = { s with agenda := l } ∧ ∀ j ∈ s.agenda, j ∈ l := by
  unfold State.callMeeting
  split
  · next placed => exact ⟨placed, _, rfl, fun _ => id⟩
  · exact ⟨List.any_eq_true.mpr ⟨_, (mem_insJob ..).mpr (.inl rfl), by simp⟩, _, rfl, fun j hj => (mem_insJob ..).mpr (.inr hj)⟩

section
variable {s : State} {x : PairOp} {d : Nat} {l : List Nat} (found : s.pair? x.id = some x) (path : x.path = d :: l)
include found path

/-- A station with room holds an operation that is not a QUEUE's. -/
theorem pairArrive_holds (stack : x.que = false) (room : (s.pairBufAt d).length < 32) :
    let u := s.pairArrive x.id
    u.pairBufAt d = s.pairBufAt d ++ [x.id] ∧ u.pair? x.id = some { x with held := some d, arrived := s.stc } ∧
      ⟨s.stc + 64, phTask, .pairingHoldExpiry x.id, {}, {}⟩ ∈ u.agenda ∧ u.hasJobInp .claspPairing { die := d } = true := by
  let o : PairOp := { x with held := some d, arrived := s.stc }
  let t := (s.setPair o).setPairBuf d (s.pairBufAt d ++ [x.id])
  obtain ⟨ds, b, eq⟩ : ∃ ds b, t = { s.setPair o with dies := ds, bridgeBuf := b } := State.setPairBuf_eq ..
  have buf : t.pairBufAt d = s.pairBufAt d ++ [x.id] := State.setPairBuf_at ..
  have stands : t.pair? o.id = some o := by rw [eq]; exact State.setPair_pair? (x := x) found
  have stc : t.stc = s.stc := by rw [eq]; rfl
  have step : s.pairArrive x.id = (t.sched (t.stc + 64) phTask (.pairingHoldExpiry x.id)).callMeeting d := by
    unfold State.pairArrive
    rw [found]
    dsimp only
    split
    · next none => rw [path] at none; cases none
    · next d' l' eq' =>
      obtain ⟨rfl, -⟩ := List.cons.inj (path.symm.trans eq')
      rw [if_neg (by simp [stack, room])]
      rfl
  obtain ⟨calls, agenda, called, kept⟩ := (t.sched (t.stc + 64) phTask (.pairingHoldExpiry x.id)).callMeeting_calls d
  dsimp only
  rw [step]
  refine ⟨by rw [called]; exact buf, by rw [called]; exact stands, ?_, calls⟩
  rw [called, ← stc]
  exact kept _ ((mem_insJob ..).mpr (.inl rfl))

/-- A QUEUE's operation, or one that finds no room, passes. -/
theorem pairArrive_passes (full : x.que = true ∨ 32 ≤ (s.pairBufAt d).length) (held : x.held = none) :
    let u := s.pairArrive x.id
    u.pair? x.id = some { x with path := l } ∧ u.pairBufAt d = s.pairBufAt d ∧
      ∃ j ∈ u.agenda, s.stc < j.due ∧ j.ev = (if l = [] then .fallThroughApply x.id else .pairingArrival x.id) := by
  have step : s.pairArrive x.id = s.forwardPair x := by
    unfold State.pairArrive
    rw [found]
    dsimp only
    rw [path]
    dsimp only
    rw [if_pos (by simpa using full)]
  obtain ⟨stands, bufs, event⟩ := State.forwardPair_forwards found
  rw [path, List.tail_cons] at stands event
  dsimp only
  rw [step]
  refine ⟨?_, by rw [bufs, State.leaveBuf_none held], event⟩
  rw [stands, ← held]

/-- After 64 c the operation goes on. -/
theorem pairHold_ends (held : x.held = some d) (time : s.stc = x.arrived + 64) :
    ∃ u, exec (.pairingHoldExpiry x.id) s = .next u ∧ u.pair? x.id = some { x with held := none, path := l } ∧ x.id ∉ u.pairBufAt d := by
  have step : exec (.pairingHoldExpiry x.id) s = .next (s.forwardPair x) := by
    show execPairingHoldExpiry x.id s = _
    unfold execPairingHoldExpiry
    rw [found]
    simp [held, time]
  obtain ⟨stands, bufs, -⟩ := State.forwardPair_forwards found
  rw [path, List.tail_cons] at stands
  refine ⟨_, step, stands, ?_⟩
  rw [bufs, State.leaveBuf_held held]
  simp

end

/-! ### The outcome of an operation -/

/-- The command of an operation with its outcome: the status of a push, or the item and status of a pop. -/
def PairOp.answer (o : PairOp) (m : Cmd) (item status : Word) : Cmd :=
  { (if o.push then { m with value := status } else { m with value := item, value2 := status }) with arrived := true }

theorem PairOp.answer_push {o : PairOp} (h : o.push = true) (m : Cmd) (item status : Word) :
    o.answer m item status = { m with value := status, arrived := true } := by rw [PairOp.answer, h]; rfl
theorem PairOp.answer_pop {o : PairOp} (h : o.push = false) (m : Cmd) (item status : Word) :
    o.answer m item status = { m with value := item, value2 := status, arrived := true } := by rw [PairOp.answer, h]; rfl

theorem PairOp.answer_id (o : PairOp) (m : Cmd) (item status : Word) : (o.answer m item status).id = m.id := by
  unfold PairOp.answer
  split <;> rfl

/-- What the end of a pairing operation leaves: its command has the outcome, the other commands stay, and it stands no more among the
operations or in a buffer. -/
structure State.PairEnds (s u : State) (o : PairOp) (x : Cmd) : Prop where
  own : (u.core o.core).cmd? o.cmd = some x
  others : ∀ n i, (n = o.core → i ≠ o.cmd) → (u.core n).cmd? i = (s.core n).cmd? i
  pairs : u.pairs = s.pairs.filter fun y => y.id ≠ o.id
  bufs : ∀ k, u.pairBufAt k = (s.leaveBuf o).pairBufAt k
  dram : u.dram = s.dram
  store : o.held = none → s.SameStore u

theorem State.pairDone_ends {s : State} {o : PairOp} {m : Cmd} (near : o.far = false) (found : (s.core o.core).cmd? o.cmd = some m)
    (item status : Word) : s.PairEnds (s.pairDone o item status) o (o.answer m item status) := by
  let r : State := ({ s with pairs := s.pairs.filter fun x => x.id ≠ o.id } : State).unsched fun e => e = .pairingHoldExpiry o.id
  obtain ⟨ds, b, eq⟩ := r.leaveBuf_eq o
  have bufs := fun k => State.leaveBuf_at_congr (s := s) (u := r) rfl rfl o k
  have quiet : o.held = none → r.leaveBuf o = r := State.leaveBuf_none
  have same : ∀ n, (r.leaveBuf o).core n = s.core n := by rw [eq]; exact fun _ => rfl
  have pairs : (r.leaveBuf o).pairs = s.pairs.filter fun y => y.id ≠ o.id := by rw [eq]; rfl
  have dram : (r.leaveBuf o).dram = s.dram := by rw [eq]; rfl
  have found' : ((r.leaveBuf o).core o.core).cmd? o.cmd = some m := by rw [same]; exact found
  have step : s.pairDone o item status =
      ((r.leaveBuf o).modCore o.core fun c => c.setCmd (o.answer m item status)).schedFree phEngine (.atomicResultReturn o.core o.cmd) := by
    change (match if o.far then none else ((r.leaveBuf o).core o.core).cmd? o.cmd with | none => r.leaveBuf o | some m => _) = _
    rw [near, if_neg Bool.false_ne_true, found']
    rfl
  have number := (o.answer_id m item status).trans (Core.cmd?_id found)
  generalize o.answer m item status = x at *
  generalize r.leaveBuf o = t at *
  rw [← number] at found'
  obtain ⟨cmd, -, store⟩ := State.cmdReturns (x := x) found' phEngine (.atomicResultReturn o.core o.cmd)
  rw [number] at cmd
  rw [step]
  refine ⟨cmd, fun n i other => ?_, pairs, bufs, dram, fun held => ?_⟩
  · show (((t.modCore o.core fun c => c.setCmd x)).core n).cmd? i = _
    by_cases own : n = o.core
    · subst own
      rw [State.modCore_core, Core.setCmd_cmd?_ne (by rw [number]; exact other rfl), same]
    · rw [State.modCore_core_ne _ _ _ _ own, same]
  · refine State.SameStore.trans ?_ store
    rw [quiet held]
    constructor <;> rfl

/-! ### Push and pop meet at a station (13 R339) -/

theorem claspPairs_two {a b : PairOp} (push : a.push = true) (pop : b.push = false) (obj : a.obj = b.obj) : claspPairs [a, b] = [(a, b)] := by
  have mine : [a, b].filter (fun o => o.obj = b.obj) = [a, b] := by simp [obj]
  have sorted : (sortBy (fun (a b : PairOp) => a.stamp.lt b.stamp) [a, b]).filter (·.push) = [a] ∧
      (sortBy (fun (a b : PairOp) => a.stamp.lt b.stamp) [a, b]).filter (fun o => !o.push) = [b] := by
    show (insertBy (fun (a b : PairOp) => a.stamp.lt b.stamp) b [a]).filter _ = _ ∧ (insertBy (fun (a b : PairOp) => a.stamp.lt b.stamp) b [a]).filter _ = _
    unfold insertBy
    split
    all_goals simp [insertBy, push, pop]
  have once : (([a, b] : List PairOp).map (·.obj)).eraseDups = [b.obj] := by simp [obj, List.eraseDups_cons]
  unfold claspPairs
  rw [once, List.flatMap_singleton]
  dsimp only
  rw [mine, sorted.1, sorted.2]
  rfl

theorem clasp_exchanges {s : State} {d : Nat} {a b : PairOp} {ma mb : Cmd} (buf : s.pairBufAt d = [a.id, b.id]) (ne : a.id ≠ b.id)
    (standsA : s.pair? a.id = some a) (standsB : s.pair? b.id = some b) (push : a.push = true) (pop : b.push = false) (obj : a.obj = b.obj)
    (heldA : a.held = some d) (heldB : b.held = some d) (nearA : a.far = false) (nearB : b.far = false)
    (foundA : (s.core a.core).cmd? a.cmd = some ma) (foundB : (s.core b.core).cmd? b.cmd = some mb) (apart : a.core = b.core → a.cmd ≠ b.cmd) :
    let u := s.clasp d
    (u.core b.core).cmd? b.cmd = some { mb with arrived := true, value := a.item, value2 := 0 } ∧
      (u.core a.core).cmd? a.cmd = some { ma with arrived := true, value := 0 } ∧ u.pairBufAt d = [] ∧
      (∀ x ∈ u.pairs, x.id ≠ a.id ∧ x.id ≠ b.id) ∧ u.dram = s.dram := by
  have step : s.clasp d = (s.pairDone a 0 0).pairDone b a.item 0 := by
    unfold State.clasp
    rw [buf]
    have both : [a.id, b.id].filterMap s.pair? = [a, b] := by simp [standsA, standsB]
    rw [both, claspPairs_two push pop obj]
    rfl
  have first := State.pairDone_ends nearA foundA 0 0
  have second := State.pairDone_ends (s := s.pairDone a 0 0) nearB
    ((first.others b.core b.cmd fun e => (apart e.symm).symm).trans foundB) a.item 0
  have ownA := first.own
  have ownB := second.own
  rw [a.answer_push push] at ownA
  rw [b.answer_pop pop] at ownB
  dsimp only
  rw [step]
  refine ⟨ownB, (second.others a.core a.cmd apart).trans ownA, ?_, fun x hx => ?_, second.dram.trans first.dram⟩
  · rw [second.bufs, State.leaveBuf_held heldB, first.bufs, State.leaveBuf_held heldA, buf]
    simp [ne.symm]
  · rw [second.pairs, first.pairs] at hx
    obtain ⟨hx, notB⟩ := List.mem_filter.mp hx
    exact ⟨of_decide_eq_true (List.mem_filter.mp hx).2, of_decide_eq_true notB⟩

/-! ### At the object (08 R226, R228) -/

/-- The bytes that a write left are those that stand there. -/
theorem State.dramBytesAt_eq {u : State} {pa : Nat} {bs : List Byte} (h : ∀ k < bs.length, u.dramByte (pa + k) = bs.getD k 0) :
    u.dramBytesAt pa bs.length = bs := by
  induction bs generalizing pa with
  | nil => rfl
  | cons b bs ih =>
    have first : u.dramByte pa = b := h 0 (Nat.succ_pos _)
    rw [List.length_cons, State.dramBytesAt, first, ih fun k hk => ?_]
    rw [Nat.add_assoc, Nat.add_comm 1 k]
    exact h (k + 1) (Nat.succ_lt_succ hk)

theorem State.badWord_none {s : State} (clean : ∀ d, (s.die d).poison = []) (pa n : Nat) : s.badWord pa n = none := by
  unfold State.badWord
  dsimp only
  rw [clean, List.find?_eq_none.mpr (fun k _ => by simp [SMap.get])]
  rfl

section
variable {s : State} {n va : Nat} {ps : List PageTr} {p : PageTr} (slot : s.slotOf n va = none) (page : pageOf ps va = some p)
include slot page

theorem State.homeBad_none (clean : ∀ d, (s.die d).poison = []) (len : Nat) : s.homeBad n ps va len = none := by
  rw [State.homeBad, slot, page, Option.bind_some, State.badWord_none clean]
  rfl

theorem State.homeRead_dram (len : Nat) : s.homeRead n ps va len = s.dramBytes (p.pa + (va - p.va)) len := by
  rw [State.homeRead, slot, page]
  rfl
end

theorem State.logsTake_plain {s : State} (plain : Rules.PlainDram s) (pas : List Nat) : s.logsTake pas = true := by
  obtain ⟨migrations, -⟩ := plain
  simp [State.logsTake, State.migrating, migrations]

/-- The header that an operation finds at its object. -/
def State.objHeader (s : State) (p : PageTr) (m : Cmd) : Nat := leVal (s.dramBytes (p.pa + (m.addr - p.va)) 16)

section
variable {s : State} {x : PairOp} {m : Cmd} {p : PageTr} (stands : s.pair? x.id = some x) (held : x.held = none) (near : x.far = false)
  (found : (s.core x.core).cmd? x.cmd = some m) (pages : m.pages = [p]) (low : p.va ≤ m.addr) (high : m.addr < p.va + p.size)
  (plain : Rules.PlainDram s) (noSlot : ∀ k, s.slotOf x.core (m.addr + k) = none) (clean : ∀ d, (s.die d).poison = [])
include stands near found pages low high noSlot clean

/-- A push on a full object, or a pop of an empty one. -/
theorem fallThrough_refused (none_ : pairStep x.push (s.objHeader p m % 65536) (bitsN (s.objHeader p m) 16 16) (bitsN (s.objHeader p m) 32 8)
    (bitsN (s.objHeader p m) 64 16) = none) : s.fallThrough x.id = s.pairDone x 0 1 := by
  have page : pageOf m.pages m.addr = some p := by rw [pages]; exact pageOf_one low high
  have for_ : s.pairFor x = some (x.core, m) := by rw [State.pairFor, near, found]; rfl
  unfold State.fallThrough
  rw [stands]
  dsimp only
  rw [for_]
  dsimp only
  rw [State.homeBad_none (show s.slotOf x.core m.addr = none from noSlot 0) page clean]
  dsimp only
  rw [State.homeRead_dram (show s.slotOf x.core m.addr = none from noSlot 0) page, show leVal (s.dramBytes (p.pa + (m.addr - p.va)) 16) = s.objHeader p m from rfl, none_]

include plain

/-- A push or a pop that the object takes: item k is written or read, and COUNT written. -/
theorem fallThrough_taken {k count headix : Nat} (takes : pairStep x.push (s.objHeader p m % 65536) (bitsN (s.objHeader p m) 16 16)
      (bitsN (s.objHeader p m) 32 8) (bitsN (s.objHeader p m) 64 16) = some (k, count, headix))
    (stack : bitsN (s.objHeader p m) 32 8 ≠ 2) (fits : m.addr + 64 + 8 * k < p.va + p.size) :
    let pa := p.pa + (m.addr - p.va)
    let t := if x.push then s.applyWrite (pa + 64 + 8 * k) (leBytes 8 x.item.toNat) m.stamp else s
    s.fallThrough x.id = (t.applyWrite pa (leBytes 2 count) m.stamp).pairDone x
      (BitVec.ofNat 64 (leVal (s.dramBytes (pa + 64 + 8 * k) 8))) 0 := by
  intro pa t
  have page : pageOf m.pages m.addr = some p := by rw [pages]; exact pageOf_one low high
  have itemPage : pageOf [p] (m.addr + 64 + 8 * k) = some p := pageOf_one (by omega) fits
  have ownPage : s.pairPage x.core m (m.addr + 64 + 8 * k) = some p := by rw [State.pairPage, pages, itemPage]
  have for_ : s.pairFor x = some (x.core, m) := by rw [State.pairFor, near, found]; rfl
  have itemSlot : s.slotOf x.core (m.addr + 64 + 8 * k) = none := by rw [Nat.add_assoc]; exact noSlot _
  have at_ : p.pa + (m.addr + 64 + 8 * k - p.va) = pa + 64 + 8 * k := by dsimp only [pa]; omega
  have writes (u : State) (va : Nat) (bs : List Byte) (home : u.slotOf x.core va = none) :
      u.pairWrite x.core p va bs m = u.applyWrite (p.pa + (va - p.va)) bs m.stamp := by
    rw [State.pairWrite, home]
    rfl
  have pushed : (if x.push then s.pairWrite x.core p (m.addr + 64 + 8 * k) (leBytes 8 x.item.toNat) m else s) = t := by
    rw [writes _ _ _ itemSlot, at_]
  have slot : t.slotOf x.core m.addr = none := by
    dsimp only [t]
    split
    · exact ((plain.applyWrite_bytesOnly ..).slotOf ..).trans (noSlot 0)
    · exact noSlot 0
  unfold State.fallThrough
  rw [stands]
  dsimp only
  rw [for_]
  dsimp only
  rw [State.homeBad_none (show s.slotOf x.core m.addr = none from noSlot 0) page clean]
  dsimp only
  rw [State.homeRead_dram (show s.slotOf x.core m.addr = none from noSlot 0) page, show leVal (s.dramBytes (p.pa + (m.addr - p.va)) 16) = s.objHeader p m from rfl, takes, page]
  dsimp only
  rw [ownPage]
  dsimp only
  rw [State.logsTake_plain plain, State.homeBad_none itemSlot itemPage clean, State.homeRead_dram itemSlot itemPage, at_]
  dsimp only
  rw [pushed, if_neg stack, writes _ _ _ slot]
  rfl


include held

/-- The item that a pop takes is the one at COUNT - 1, and COUNT falls by 1. -/
theorem fallThrough_pops (pop : x.push = false) (some_ : 0 < s.objHeader p m % 65536) (stack : bitsN (s.objHeader p m) 32 8 ≠ 2)
    (fits : m.addr + 64 + 8 * (s.objHeader p m % 65536) + 8 ≤ p.va + p.size) :
    let pa := p.pa + (m.addr - p.va)
    let count := s.objHeader p m % 65536
    let u := s.fallThrough x.id
    u.dramBytes pa 2 = leBytes 2 (count - 1) ∧ (∀ a, (a < pa ∨ pa + 2 ≤ a) → u.dramByte a = s.dramByte a) ∧
      (u.core x.core).cmd? x.cmd = some { m with
        arrived := true, value := BitVec.ofNat 64 (leVal (s.dramBytes (pa + 64 + 8 * (count - 1)) 8)), value2 := 0 } := by
  intro pa count
  have takes : pairStep x.push count (bitsN (s.objHeader p m) 16 16) (bitsN (s.objHeader p m) 32 8) (bitsN (s.objHeader p m) 64 16) =
      some (count - 1, count - 1, bitsN (s.objHeader p m) 64 16) := by
    rw [pairStep, if_neg (by simp [pop]), if_neg (Nat.pos_iff_ne_zero.mp some_), if_neg stack]
  have step := fallThrough_taken stands near found pages low high plain noSlot clean takes stack (by omega)
  dsimp only at step ⊢
  rw [if_neg (by simp [pop])] at step
  have bytes := plain.applyWrite_bytesOnly pa (leBytes 2 (count - 1)) m.stamp
  have stored := plain.applyWrite_stored pa (leBytes 2 (count - 1)) m.stamp
  have ends := State.pairDone_ends near ((congrArg (fun c => Core.cmd? c x.cmd) (bytes.core x.core)).trans found)
    (BitVec.ofNat 64 (leVal (s.dramBytes (pa + 64 + 8 * (count - 1)) 8))) 0
  have store := ends.store held
  have stored := store.stored stored
  rw [step]
  refine ⟨?_, fun a away => stored.2 a (by rwa [leBytes_length]), ?_⟩
  · rw [State.dramBytes_plain (store.plain (plain.bytesOnly bytes))]
    have here := State.dramBytesAt_eq stored.1
    rwa [leBytes_length] at here
  · have own := ends.own
    rw [x.answer_pop pop] at own
    exact own

/-- A push writes its item at COUNT, and COUNT rises by 1. -/
theorem fallThrough_pushes (push : x.push = true) (room : s.objHeader p m % 65536 < bitsN (s.objHeader p m) 16 16)
    (stack : bitsN (s.objHeader p m) 32 8 ≠ 2) (fits : m.addr + 64 + 8 * (s.objHeader p m % 65536) + 8 ≤ p.va + p.size) :
    let pa := p.pa + (m.addr - p.va)
    let count := s.objHeader p m % 65536
    let u := s.fallThrough x.id
    u.dramBytes (pa + 64 + 8 * count) 8 = leBytes 8 x.item.toNat ∧ u.dramBytes pa 2 = leBytes 2 (count + 1) ∧
      (∀ a, (a < pa ∨ pa + 2 ≤ a) → (a < pa + 64 + 8 * count ∨ pa + 64 + 8 * count + 8 ≤ a) → u.dramByte a = s.dramByte a) ∧
      (u.core x.core).cmd? x.cmd = some { m with arrived := true, value := 0 } := by
  intro pa count
  have takes : pairStep x.push count (bitsN (s.objHeader p m) 16 16) (bitsN (s.objHeader p m) 32 8) (bitsN (s.objHeader p m) 64 16) =
      some (count, count + 1, bitsN (s.objHeader p m) 64 16) := by
    rw [pairStep, if_pos push, if_neg (Nat.not_le.mpr room), if_neg stack]
  have step := fallThrough_taken stands near found pages low high plain noSlot clean takes stack (by omega)
  dsimp only at step ⊢
  rw [if_pos push] at step
  have bytes := plain.applyWrite_bytesOnly (pa + 64 + 8 * count) (leBytes 8 x.item.toNat) m.stamp
  have item := plain.applyWrite_stored (pa + 64 + 8 * count) (leBytes 8 x.item.toNat) m.stamp
  have plain' := plain.bytesOnly bytes
  have bytes' := plain'.applyWrite_bytesOnly pa (leBytes 2 (count + 1)) m.stamp
  have header := plain'.applyWrite_stored pa (leBytes 2 (count + 1)) m.stamp
  have ends := State.pairDone_ends near ((congrArg (fun c => Core.cmd? c x.cmd) ((bytes'.core x.core).trans (bytes.core x.core))).trans found)
    (BitVec.ofNat 64 (leVal (s.dramBytes (pa + 64 + 8 * count) 8))) 0
  have store := ends.store held
  have header := store.stored header
  have plain'' := store.plain (plain'.bytesOnly bytes')
  rw [step]
  have away (a : Nat) (out : a < pa ∨ pa + 2 ≤ a) := header.2 a (by rwa [leBytes_length])
  refine ⟨?_, ?_, fun a out out' => (away a out).trans (item.2 a (by rwa [leBytes_length])), ?_⟩
  · rw [State.dramBytes_plain plain'']
    have here := State.dramBytesAt_eq (pa := pa + 64 + 8 * count) (bs := leBytes 8 x.item.toNat)
      fun k hk => (away _ (.inr (by omega))).trans (item.1 k hk)
    rwa [leBytes_length] at here
  · rw [State.dramBytes_plain plain'']
    have here := State.dramBytesAt_eq header.1
    rwa [leBytes_length] at here
  · have own := ends.own
    rw [x.answer_push push] at own
    exact own

end

/-- Settles O40: arrival at a station, the meeting there, and the object. -/
theorem pairingMeets : Obligations.PairingMeets := by
  unfold Obligations.PairingMeets
  refine ⟨⟨fun s x d l found path => ⟨fun stack room => ⟨_, rfl, pairArrive_holds found path stack room⟩,
      fun full held => ⟨_, rfl, pairArrive_passes found path full held⟩, pairHold_ends found path⟩,
    fun s d a b ma mb here buf ne standsA standsB push pop obj heldA heldB nearA nearB foundA foundB apart => ⟨_, rfl, ?_⟩⟩,
    fun s x m p stands held near found pages low plain noSlot clean => ?_⟩
  · rw [here]
    exact clasp_exchanges buf ne standsA standsB push pop obj heldA heldB nearA nearB foundA foundB apart
  · intro pa h count cap fits stack
    have high : m.addr < p.va + p.size := by omega
    have full (one : x.push = true) (le : cap ≤ count) : s.fallThrough x.id = s.pairDone x 0 1 :=
      fallThrough_refused stands near found pages low high noSlot clean ((if_pos one).trans (if_pos le))
    have empty (one : x.push = false) (zero : count = 0) : s.fallThrough x.id = s.pairDone x 0 1 :=
      fallThrough_refused stands near found pages low high noSlot clean ((if_neg (by simp [one])).trans (if_pos zero))
    have ends := State.pairDone_ends near found 0 1
    refine ⟨fun push room => ⟨_, rfl, fallThrough_pushes stands held near found pages low high plain noSlot clean push room stack fits⟩,
      fun pop some_ => ?_, fun push le => ⟨_, rfl, ?_⟩, fun pop zero => ⟨_, rfl, ?_⟩⟩
    · obtain ⟨bytes, away, cmd⟩ := fallThrough_pops stands held near found pages low high plain noSlot clean pop some_ stack fits
      exact ⟨_, rfl, bytes, away, _, cmd, rfl⟩
    · have own := ends.own
      rw [x.answer_push push] at own
      rw [full push le]
      exact ⟨ends.dram, own⟩
    · have own := ends.own
      rw [x.answer_pop pop] at own
      rw [empty pop zero]
      exact ⟨ends.dram, own⟩

end Sys2Proof.Machine

/-! SUPPORT. Versions asked for, waited for and copied, and barriers (08 R230, R238; 12 R313; 16 R377 to R379). -/

namespace Sys2Proof.Machine

-- one after another: every waiting worker thread counts towards the check's memory limit
set_option Elab.async false

/-! ### tlquery and tlwait -/

theorem State.IssuesAs.dir {s t v u : State} (h : s.IssuesAs t v u) : u.dir = v.dir := by obtain ⟨k, n, r, d, rfl⟩ := h.ends; rfl
theorem State.IssuesAs.barriers {s t v u : State} (h : s.IssuesAs t v u) : u.barriers = v.barriers := by
  obtain ⟨k, n, r, d, rfl⟩ := h.ends; rfl
theorem State.Begins.dir {s t : State} {k : Kind} (h : s.Begins k t) : t.dir = s.dir := by obtain ⟨c, -, rfl⟩ := h; rfl
theorem State.Begins.barriers {s t : State} {k : Kind} (h : s.Begins k t) : t.barriers = s.barriers := by obtain ⟨c, -, rfl⟩ := h; rfl

theorem State.endWait_extends (t : State) : t.Extends t.endWait :=
  t.modCur_extends_seq (by rw [State.curSeq]; cases t.turn.q <;> rfl) rfl rfl (fun _ => id) fun _ => id

section
variable {s t : State} {d a : RegF} (hq : s.turn.q ≠ .x) (board : s.cur.sys.region = true) (hf : t.RegsFree [d, a])
  (ha : Rules.AccessFree t)
include hq board hf ha

theorem tlquery_answers (h : s.Begins { audit := true } t) :
    ∃ u, exec (.tlquery d a) s = .next u ∧ s.Issued u ∧ u.cur.sys.audit = true ∧
      Rules.Returns s u d (BitVec.ofNat 64 (t.tileCode (t.rd a).toNat)) ∧ u.dir = s.dir ∧ u.dram = s.dram := by
  have run := h.accessDone (i := .tlquery d a) (congrArg _ (State.sbWord_open board ..)) hf ha nofun rfl
  have ends (v : Word) := h.issuesAs (State.wrFree_extends (t := t) (by rwa [h.turn]) d v) { audit := true } s.settled.cur.vec.skip none
    (s.curSeq.pc + 1#14)
  exact ⟨_, run, (ends _).issued, by rw [State.finishIssue_sys]; rfl, State.wrFree_returns h hq (.refl t) .., (ends _).dir.trans h.dir,
    (ends _).dram⟩

variable (h : s.Begins {} t)
include h

theorem tlwait_answers (known : t.tileCode (t.rd a).toNat ≠ 0) (kept : t.tileCode (t.rd a).toNat ≠ 3) :
    ∃ u, exec (.tlwait d a) s = .next u ∧ s.Issued u ∧ Rules.Returns s u d (BitVec.ofNat 64 (t.tileCode (t.rd a).toNat)) ∧
      u.dir = s.dir ∧ u.dram = s.dram := by
  have run := h.accessDone (i := .tlwait d a) (congrArg _ (State.sbWord_open board ..)) hf ha nofun (if_neg (not_or.mpr ⟨known, kept⟩))
  have grows := t.endWait_extends
  have ends (v : Word) := h.issuesAs (grows.trans (State.wrFree_extends (t := t.endWait) (by rwa [grows.turn, h.turn]) d v)) {}
    s.settled.cur.vec.skip none (s.curSeq.pc + 1#14)
  exact ⟨_, run, (ends _).issued, State.wrFree_returns h hq grows .., (ends _).dir.trans h.dir, (ends _).dram⟩

theorem tlwait_waits (absent : t.tileCode (t.rd a).toNat = 0 ∨ t.tileCode (t.rd a).toNat = 3) (quiet : ∀ x ∈ s.ctxs, x.2.spilled = []) :
    ∃ u, exec (.tlwait d a) s = .next u ∧ u.curSeq.pc = s.curSeq.pc ∧ u.curSeq.retry = s.stc + 1 ∧
      u.cur.tsk.wait = some (s.turn.q, (t.rd a).toNat) ∧ u.dir = s.dir := by
  have run := h.accessHolds (i := .tlwait d a) (congrArg _ (State.sbWord_open board ..)) board hf ha (if_pos absent)
  rw [State.unspill_none (s := s.retrying.noteWait (t.rd a).toNat) quiet] at run
  have stream := State.modTsk_curSeq s.retrying fun x => { x with wait := some (s.retrying.turn.q, (t.rd a).toNat) }
  refine ⟨_, run, ?_, ?_, ?_, rfl⟩
  · rw [show (s.retrying.noteWait (t.rd a).toNat).curSeq = _ from stream, State.retrying_curSeq]
    exact State.settled_pc s
  · rw [show (s.retrying.noteWait (t.rd a).toNat).curSeq = _ from stream, State.retrying_curSeq]
  · rw [State.noteWait, State.modCur_cur]
    rfl

end

/-! ### tlfill (16 R379) -/

/-- Nothing but the content of frames, and which come next, differs. -/
def State.FramesOnly (s u : State) : Prop :=
  u = { s with dram := u.dram, dies := u.dies, saveAreas := u.saveAreas, nextFrame := u.nextFrame }

theorem State.FramesOnly.trans {s t u : State} (h : s.FramesOnly t) (k : t.FramesOnly u) : s.FramesOnly u := by
  rw [State.FramesOnly, k, h]

theorem State.modDie_framesOnly (s : State) (d : Nat) (f : Die → Die) : s.FramesOnly (s.modDie d f) := rfl

theorem State.copyFrame_framesOnly (s : State) (src dst n : Nat) : s.FramesOnly (s.copyFrame src dst n) := by
  unfold State.copyFrame State.copyPoison
  dsimp only
  refine .trans ?_ (foldl_related (R := State.FramesOnly) (fun _ => rfl) .trans (fun s x => s.modDie_framesOnly ..) _ _)
  rfl

theorem State.copyFrames_framesOnly (s : State) (d : Nat) (fs : SMap Nat) : s.FramesOnly (s.copyFrames d fs).2 := by
  have go (l : SMap Nat) (done : SMap Nat) (s : State) : s.FramesOnly (l.foldl (fun (p : SMap Nat × State) f =>
      let (pa, s) := p.2.newFrame d
      (SMap.ins p.1 f.1 pa, s.copyFrame f.2 pa 65536)) (done, s)).2 := by
    induction l generalizing done s with
    | nil => rfl
    | cons f l ih => exact .trans (.trans (t := (s.newFrame d).2) rfl (State.copyFrame_framesOnly ..)) (ih ..)
  exact go fs [] s

section
variable {s t : State} {a : RegF} (h : s.Begins {} t) (hf : t.RegsFree [a]) (ha : Rules.AccessFree t)
include h hf ha

/-- A FULL version that the die has no copy of gets one. -/
theorem tlfill_copies {e : DirEnt} (stands : t.dirEnt (t.rd a).toNat = some e) (full : e.st = .full)
    (away : s.homeOf (t.rd a).toNat ≠ dieOf s.turn.core) (noReplica : e.repl = true → e.rdie ≠ dieOf s.turn.core)
    (noCopy : ∀ c ∈ e.copies, c.1 ≠ dieOf s.turn.core) :
    ∃ u e' fs, exec (.tlfill a) s = .next u ∧ s.Issued u ∧ u.dirEnt (t.rd a).toNat = some e' ∧
      e'.copies = e.copies ++ [(dieOf s.turn.core, fs)] ∧ e'.st = .full ∧ e'.frames = e.frames := by
  have home : t.homeOf (t.rd a).toNat = s.homeOf (t.rd a).toNat := by obtain ⟨c, -, rfl⟩ := h; rfl
  rw [← h.turn] at away noReplica noCopy ⊢
  rw [← home] at away
  let v := (t.copyFrames (dieOf t.turn.core) e.frames).2
  let e' : DirEnt := { e with copies := e.copies ++ [(dieOf t.turn.core, (t.copyFrames (dieOf t.turn.core) e.frames).1)] }
  have fills : t.fillHere (t.rd a).toNat (dieOf t.turn.core) = v.setDir e' := by
    unfold State.fillHere
    rw [stands]
    dsimp only
    rw [if_neg]
    simp only [full, away, ne_eq, not_true_eq_false, false_or, not_or, not_and, Bool.not_eq_true, List.any_eq_false, decide_eq_true_eq]
    exact ⟨noReplica, noCopy⟩
  have only : t.FramesOnly v := State.copyFrames_framesOnly ..
  have run := h.accessDone (i := .tlfill a) rfl hf ha nofun (congrArg Res.done fills)
  have stream : (v.setDir e').curSeq = t.curSeq := by
    show v.curSeq = _
    rw [only]; rfl
  have issued := h.issued (u := v.setDir e') (by rw [stream]) (by show v.turn = _; rw [only]) (by show v.stc = _; rw [only]) {}
    s.settled.cur.vec.skip none (s.curSeq.pc + 1#14)
  obtain ⟨mem, key⟩ := find?_key (key := DirEnt.name) stands
  refine ⟨_, e', _, run, issued, ?_, rfl, full, rfl⟩
  show (v.dir.map _).find? _ = _
  rw [show v.dir = t.dir by rw [only], ← key]
  rw [← key] at stands
  exact find?_replace (key := DirEnt.name) (x := e') (l := t.dir) rfl ⟨e, mem, rfl⟩

theorem tlfill_idle (notFull : t.tileCode (t.rd a).toNat ≠ 1) :
    ∃ u, exec (.tlfill a) s = .next u ∧ s.Issued u ∧ u.dir = s.dir ∧ u.dram = s.dram := by
  have idle : t.fillHere (t.rd a).toNat (dieOf t.turn.core) = t := by
    unfold State.fillHere
    cases stands : t.dirEnt (t.rd a).toNat with
    | none => rfl
    | some e =>
      refine if_pos (.inl fun full => notFull ?_)
      rw [State.tileCode, stands, Option.map_some, full]
      rfl
  obtain ⟨u, run, ends⟩ := h.accessIssues (i := .tlfill a) rfl hf ha nofun (congrArg Res.done idle) (.refl t)
  exact ⟨u, run, ends.issued, ends.dir.trans h.dir, ends.dram⟩

end

/-! ### Barriers (12 R313) -/

/-- The barrier of a task at a level: the one that stands, or a new one. -/
def State.barrierOf (t : State) (l : Launch) (lv : Nat) (r : TaskRec) : Barrier :=
  (t.barrier? l.order lv (l.group lv r.wid)).getD { launch := l.order, level := lv, group := l.group lv r.wid }

theorem barrier?_key {t : State} {launch level group : Nat} {b : Barrier} (h : t.barrier? launch level group = some b) :
    b.launch = launch ∧ b.level = level ∧ b.group = group := by
  have key := List.find?_some h
  simp only [Bool.and_eq_true, decide_eq_true_eq] at key
  exact ⟨key.1.1, key.1.2, key.2⟩

theorem State.barrierOf_level (t : State) (l : Launch) (lv : Nat) (r : TaskRec) : (t.barrierOf l lv r).level = lv := by
  unfold State.barrierOf
  cases stands : t.barrier? l.order lv (l.group lv r.wid) with
  | none => rfl
  | some b => exact (barrier?_key stands).2.1

theorem State.setBarrier_eq (s : State) (b : Barrier) : ∃ l, s.setBarrier b = { s with barriers := l } := by
  unfold State.setBarrier
  dsimp only
  split
  · exact ⟨_, rfl⟩
  · exact ⟨_, rfl⟩

theorem State.checkBarrier_agendaOnly (s : State) (b : Barrier) : s.AgendaOnly (s.checkBarrier b) := by
  unfold State.checkBarrier
  dsimp only
  split
  · rfl
  · rfl

/-- A barrier that stands and is changed is found as it was changed. -/
theorem State.setBarrier_barrier? {s : State} {b x : Barrier} {launch level group : Nat} (found : s.barrier? launch level group = some b)
    (key : x.launch = launch ∧ x.level = level ∧ x.group = group) : (s.setBarrier x).barrier? launch level group = some x := by
  obtain ⟨rfl, rfl, rfl⟩ := key
  let old (y : Barrier) : Bool := y.launch = x.launch && y.level = x.level && y.group = x.group
  have present : s.barriers.any old = true := List.any_eq_true.mpr ⟨b, List.mem_of_find?_eq_some found, List.find?_some (p := old) found⟩
  have own : old x = true := by simp [old]
  have same : (old ∘ fun y => if old y then x else y) = old := by
    funext y
    dsimp only [Function.comp_apply]
    split
    · next here => rw [own, here]
    · rfl
  have changed : s.setBarrier x = { s with barriers := s.barriers.map fun y => if old y then x else y } := if_pos present
  rw [changed]
  show (s.barriers.map _).find? old = _
  rw [List.find?_map, same, show s.barriers.find? old = some b from found, Option.map_some,
    if_pos (show old b = true from List.find?_some (p := old) found)]

/-- What an arrival's command leaves: cle has one more, and the arrivals of the task stand as before. -/
structure State.ArrivalSent (t v : State) : Prop where
  grows : t.Extends v
  stream : v.curSeq = t.curSeq
  out : (v.cur.engine engCle).out = (t.cur.engine engCle).out + 1
  count : v.cur.tsk.barCount = t.cur.tsk.barCount
  waits : v.cur.tsk.barWait = t.cur.tsk.barWait

theorem State.arrivalCmd_sent {t : State} {n : Nat} (hn : n = t.turn.core) (q : Seq) (op : Instr) (slot : Bool) :
    t.ArrivalSent (t.arrivalCmd n q op slot) := by
  subst hn
  let t1 := (t.stampFor t.turn.core (unitOfEng engCle)).2
  let m : Cmd := { mkCmd engCle q op with slot := some slot, stamp := (t.stampFor t.turn.core (unitOfEng engCle)).1 }
  let t2 := (t1.addCmd t1.turn.core m).2
  have cur : t2.cur = (t.cur.drawSeq (unitOfEng engCle)).accept t1.stc m := by
    rw [show t2.cur = _ from t1.addCmd_cur m, show t1.cur = _ from t.stampFor_cur _]
  obtain ⟨-, -, -, -, tsk, -, seq⟩ := (t.cur.drawSeq (unitOfEng engCle)).accept_frame t1.stc m
  have sent : t.arrivalCmd t.turn.core q op slot = t2.schedFree phEngine (.atomicResultReturn t.turn.core (t1.addCmd t1.turn.core m).1) := rfl
  rw [sent]
  refine ⟨((State.stampFor_extends _).trans (State.addCmd_extends m)).trans (State.schedFree_extends ..), ?_, ?_, ?_, ?_⟩
  · show t2.cur.seq t.turn.q = _
    rw [cur, seq, Core.drawSeq_seq, State.curSeq]
  · show (t2.cur.engine engCle).out = _
    rw [cur]
    exact Core.accept_out _ _ (show engCle < 7 by decide)
  · show t2.cur.tsk.barCount = _
    rw [cur, tsk]; rfl
  · show t2.cur.tsk.barWait = _
    rw [cur, tsk]; rfl

section
variable {s t : State} {level : BitVec 3} {o : Ordr} {r : TaskRec} {l : Launch} (board : s.cur.sys.region = true) (h : s.Begins {} t)
  (ha : Rules.AccessFree t) (task : t.recOf t.turn.core = some r) (launch : t.launchOf r = some l)
include board h ha task launch

theorem bar_tooLow (low : level.toNat < l.teamlvl) : exec (.bar level o) s = .next (s.settled.wordTrap .illop 0) :=
  h.accessTrap (i := .bar level o) (b := false) (congrArg _ (State.sbWord_open board ..)) (.nil t) ha nofun (by
    dsimp only
    rw [task, Option.bind_some, launch]
    exact if_pos low)

variable (high : l.teamlvl ≤ level.toNat)
include high

/-- A word that waits no longer for earlier accesses, of a task that is no member of a team. -/
theorem bar_alone (released : o.ord = 3#2 → t.cur.allPerformed t.turn.q = true) (alone : r.teamed = false) :
    ∃ u, exec (.bar level o) s = .next u ∧ s.Issued u ∧ u.barriers = s.barriers ∧ u.cur.tsk = t.cur.tsk := by
  obtain ⟨u, run, ends⟩ := h.accessIssues (i := .bar level o) (congrArg _ (State.sbWord_open board ..)) (.nil t) ha nofun (by
    dsimp only
    rw [task, Option.bind_some, launch]
    dsimp only
    rw [if_neg (Nat.not_lt.mpr high), if_neg (by simp +contextual [released]), if_pos (by simp [alone])]) (.refl t)
  exact ⟨u, run, ends.issued, ends.barriers.trans h.barriers, ends.tsk⟩

variable (teamed : r.teamed = true)
include teamed

/-- One whose arrival has departed goes on. -/
theorem bar_departs {k' : Nat} (waits : (t.cur.tsk.barWait.find? fun w => w.1 = t.turn.q && w.2.1 = level.toNat) = some (t.turn.q, level.toNat, k'))
    (gone : k' ≤ (t.barrierOf l level.toNat r).departed) :
    ∃ u, exec (.bar level o) s = .next u ∧ s.Issued u ∧ u.barriers = s.barriers ∧
      ∀ w ∈ u.cur.tsk.barWait, ¬ (w.1 = t.turn.q ∧ w.2.1 = level.toNat) := by
  have some_ : (t.cur.tsk.barWait.any fun w => w.1 = t.turn.q && w.2.1 = level.toNat) = true :=
    List.any_eq_true.mpr ⟨_, List.mem_of_find?_eq_some waits, by simp⟩
  unfold State.barrierOf at gone
  let f (c : Core) : Core := { c with tsk := { c.tsk with barWait := c.tsk.barWait.filter fun w => !(w.1 = t.turn.q && w.2.1 = level.toNat) } }
  obtain ⟨u, run, ends⟩ := h.accessIssues (i := .bar level o) (v := t.modCur f) (congrArg _ (State.sbWord_open board ..)) (.nil t) ha nofun (by
    dsimp only
    rw [task, Option.bind_some, launch]
    dsimp only
    rw [if_neg (Nat.not_lt.mpr high), some_, if_neg (by simp), if_neg (by simp [teamed]), waits]
    exact if_pos gone) (t.modCur_extends_seq (by rw [State.curSeq]; cases t.turn.q <;> rfl) rfl rfl (fun _ => id) fun _ => id)
  refine ⟨u, run, ends.issued, ends.barriers.trans h.barriers, fun w hw => ?_⟩
  rw [ends.tsk, State.modCur_cur] at hw
  simpa [imp_iff_not_or] using (List.mem_filter.mp hw).2

variable (released : o.ord = 3#2 → t.cur.allPerformed t.turn.q = true)
include released

/-- Where another sequencer of the task waits at the level. -/
theorem bar_twice (notOwn : ∀ x ∈ t.cur.tsk.barWait, ¬ (x.1 = t.turn.q ∧ x.2.1 = level.toNat))
    (other : ∃ x ∈ t.cur.tsk.barWait, x.2.1 = level.toNat ∧ (t.barrierOf l level.toNat r).departed < x.2.2) :
    exec (.bar level o) s = .next (s.settled.wordTrap .illop 0) := by
  have none_ : (t.cur.tsk.barWait.find? fun w => w.1 = t.turn.q && w.2.1 = level.toNat) = none :=
    List.find?_eq_none.mpr fun x hx => by simpa using notOwn x hx
  unfold State.barrierOf at other
  refine h.accessTrap (i := .bar level o) (b := false) (congrArg _ (State.sbWord_open board ..)) (.nil t) ha nofun ?_
  dsimp only
  rw [task, Option.bind_some, launch]
  dsimp only
  rw [if_neg (Nat.not_lt.mpr high), if_neg (by simp +contextual [released]), if_neg (by simp [teamed]), none_]
  exact if_pos (by simpa using other)

variable (calm : ∀ x ∈ t.cur.tsk.barWait, x.2.1 = level.toNat → x.1 ≠ t.turn.q ∧ x.2.2 ≤ (t.barrierOf l level.toNat r).departed)
  (counter : t.counterFree (dieOf t.turn.core) (t.barrierOf l level.toNat r) = true) (slots : t.grabSlot t.turn.core engCle ≠ none)
include calm counter slots

omit board h ha task launch high teamed released counter slots in
/-- No sequencer of the task waits at the level. -/
theorem barFree : (t.cur.tsk.barWait.find? fun w => w.1 = t.turn.q && w.2.1 = level.toNat) = none ∧
    (t.cur.tsk.barWait.any fun w => w.2.1 = level.toNat && decide ((t.barrierOf l level.toNat r).departed < w.2.2)) = false := by
  refine ⟨List.find?_eq_none.mpr fun x hx => ?_, List.any_eq_false.mpr fun x hx => ?_⟩
  · simp only [Bool.and_eq_true, decide_eq_true_eq, not_and]
    exact fun own here => (calm x hx here).1 own
  · simp only [Bool.and_eq_true, decide_eq_true_eq, not_and]
    exact fun here => Nat.not_lt.mpr (calm x hx here).2

/-- A task alone in its group departs at once. -/
theorem bar_ofOne (one : (t.members (t.barrierOf l level.toNat r)).length ≤ 1) :
    ∃ u, exec (.bar level o) s = .next u ∧ s.Issued u ∧
      SMap.get 0 u.cur.tsk.barCount level.toNat = SMap.get 0 t.cur.tsk.barCount level.toNat + 1 ∧
      u.cur.tsk.barWait = t.cur.tsk.barWait ∧ (u.cur.engine engCle).out = (t.cur.engine engCle).out + 1 := by
  obtain ⟨none_, noOther⟩ := barFree calm
  have taken : ¬(!t.counterFree (dieOf t.turn.core) (t.barrierOf l level.toNat r)) = true := by simp [counter]
  obtain ⟨slot, slots⟩ := Option.ne_none_iff_exists'.mp slots
  let k := SMap.get 0 t.cur.tsk.barCount level.toNat + 1
  let b := t.barrierOf l level.toNat r
  let f (c : Core) : Core := { c with tsk := { c.tsk with barCount := SMap.ins c.tsk.barCount level.toNat k } }
  let t1 := t.setBarrier { b with arrivals := SMap.ins b.arrivals r.id k, departed := Nat.max b.departed k }
  obtain ⟨bs, changed⟩ : ∃ bs, t1 = { t with barriers := bs } := State.setBarrier_eq ..
  have grows : t.Extends (t1.modCur f) := by
    rw [changed]
    exact .trans (v := { t with barriers := bs }) (.ofTables rfl rfl rfl rfl rfl)
      (State.modCur_extends_seq _ (by rw [State.curSeq]; cases t.turn.q <;> rfl) rfl rfl (fun _ => id) fun _ => id)
  have cur : (t1.modCur f).cur = f t.cur := by rw [State.modCur_cur, changed]; rfl
  have sent := State.arrivalCmd_sent (congrArg Turn.core grows.turn.symm) t.turn.q (.bar level o) slot
  obtain ⟨u, run, ends⟩ := h.accessIssues (i := .bar level o) (congrArg _ (State.sbWord_open board ..)) (.nil t) ha nofun (by
    dsimp only
    rw [task, Option.bind_some, launch]
    dsimp only
    rw [if_neg (Nat.not_lt.mpr high), if_neg (by simp +contextual [released]), if_neg (by simp [teamed]), none_]
    dsimp only
    refine (if_neg (Bool.eq_false_iff.mp noOther)).trans ((if_neg taken).trans ?_)
    rw [slots]
    exact if_pos one) (grows.trans sent.grows)
  refine ⟨u, run, ends.issued, ?_, ?_, ?_⟩
  · rw [ends.tsk, sent.count, cur]
    exact SMap.get_ins ..
  · rw [ends.tsk, sent.waits, cur]
  · rw [ends.engine, sent.out, cur]
    rfl

/-- A member of a larger group arrives and waits. -/
theorem bar_arrives (many : 2 ≤ (t.members (t.barrierOf l level.toNat r)).length) (quiet : ∀ x ∈ s.ctxs, x.2.spilled = []) :
    ∃ u, exec (.bar level o) s = .next u ∧ u.curSeq.pc = s.curSeq.pc ∧ u.curSeq.retry = s.stc + 1 ∧
      (t.turn.q, level.toNat, SMap.get 0 t.cur.tsk.barCount level.toNat + 1) ∈ u.cur.tsk.barWait ∧
      SMap.get 0 u.cur.tsk.barCount level.toNat = SMap.get 0 t.cur.tsk.barCount level.toNat + 1 ∧
      (u.cur.engine engCle).out = (t.cur.engine engCle).out + 1 := by
  obtain ⟨none_, noOther⟩ := barFree calm
  have taken : ¬(!t.counterFree (dieOf t.turn.core) (t.barrierOf l level.toNat r)) = true := by simp [counter]
  obtain ⟨slot, slots⟩ := Option.ne_none_iff_exists'.mp slots
  let k := SMap.get 0 t.cur.tsk.barCount level.toNat + 1
  let b := t.barrierOf l level.toNat r
  have at_ : b.level = level.toNat := State.barrierOf_level ..
  have run := h.accessHolds (i := .bar level o) (congrArg _ (State.sbWord_open board ..)) board (.nil t) ha (by
    dsimp only
    rw [task, Option.bind_some, launch]
    dsimp only
    rw [if_neg (Nat.not_lt.mpr high), if_neg (by simp +contextual [released]), if_neg (by simp [teamed]), none_]
    dsimp only
    refine (if_neg (Bool.eq_false_iff.mp noOther)).trans ((if_neg taken).trans ?_)
    rw [slots]
    exact if_neg (Nat.not_le.mpr many))
  have here : t.turn.core = s.retrying.turn.core := by rw [h.turn]; rfl
  let f (x : TaskSt) : TaskSt := { x with barCount := SMap.ins x.barCount b.level k, barWait := x.barWait ++ [(t.turn.q, b.level, k)] }
  let w := s.retrying.setBarrier { b with arrivals := SMap.ins b.arrivals r.id k }
  obtain ⟨bs, changed⟩ : ∃ bs, w = { s.retrying with barriers := bs } := State.setBarrier_eq ..
  let v := (w.modCore t.turn.core fun c => { c with tsk := f c.tsk }).checkBarrier { b with arrivals := SMap.ins b.arrivals r.id k }
  have only : (w.modCore t.turn.core fun c => { c with tsk := f c.tsk }).AgendaOnly v := State.checkBarrier_agendaOnly ..
  have ctxs : v.ctxs = s.ctxs := by rw [only.eq, changed]; rfl
  have arrived : s.retrying.arrive t.turn.core t.turn.q r.id b k = v := State.unspill_none (s := v) (ctxs ▸ quiet)
  change exec _ s = .next ((s.retrying.arrive t.turn.core t.turn.q r.id b k).arrivalCmd t.turn.core t.turn.q (.bar level o) slot) at run
  rw [arrived] at run
  have turn : v.turn = s.retrying.turn := by rw [only.eq, changed]; rfl
  have cur : v.cur = { s.retrying.cur with tsk := f s.retrying.cur.tsk } := by
    rw [State.cur, turn, State.core, only.cores, changed, here]
    exact State.modCore_core ..
  have stream : v.curSeq = s.retrying.curSeq := by
    rw [State.curSeq, cur, turn, State.curSeq]
    cases s.retrying.turn.q <;> rfl
  have sent : v.ArrivalSent (v.arrivalCmd t.turn.core t.turn.q (.bar level o) slot) :=
    State.arrivalCmd_sent (here.trans (congrArg Turn.core turn.symm)) ..
  obtain ⟨tk, win, id', own, -⟩ := h.cur_any
  have out : (s.retrying.cur.engine engCle).out = (t.cur.engine engCle).out := by
    rw [State.retrying, State.modCur_cur, own]
    cases s.turn.q <;> rfl
  refine ⟨_, run, ?_, ?_, ?_, ?_, ?_⟩
  · rw [sent.stream, stream, State.retrying_curSeq]
    exact State.settled_pc s
  · rw [sent.stream, stream, State.retrying_curSeq]
  · rw [sent.waits, cur]
    exact List.mem_append_right _ (List.mem_singleton.mpr (by rw [at_]))
  · rw [sent.count, cur]
    show SMap.get 0 (SMap.ins _ b.level k) _ = k
    rw [at_]
    exact SMap.get_ins ..
  · rw [sent.out, cur, ← out]
    rfl

end

/-! ### Departure -/

section
variable {s : State} {launch level group : Nat} {b : Barrier} (stands : s.barrier? launch level group = some b) (members : s.members b ≠ [])
include stands members

theorem depart_full (full : s.barrierFull b = true) :
    (s.depart launch level group).barrier? launch level group = some { b with departed := b.departed + 1 } ∧
      (s.depart launch level group).cores = s.cores := by
  let x : Barrier := { b with departed := b.departed + 1 }
  have step : s.depart launch level group = (s.setBarrier x).checkBarrier x := by
    unfold State.depart
    rw [stands]
    dsimp only
    rw [if_neg (by simpa using members), full]
    rfl
  have only := (s.setBarrier x).checkBarrier_agendaOnly x
  obtain ⟨bs, changed⟩ := s.setBarrier_eq x
  rw [step]
  constructor
  · rw [State.barrier?, only.eq]
    have key := barrier?_key stands
    exact State.setBarrier_barrier? (x := x) stands key
  · rw [only.cores, changed]

theorem depart_waits (waits : s.barrierFull b = false) : s.depart launch level group = s := by
  unfold State.depart
  rw [stands]
  dsimp only
  rw [if_neg (by simpa using members), waits]
  rfl

end

/-- Settles O45: tlquery, tlwait and tlfill, then bar and its departure. -/
theorem tilesAndBarriers : Obligations.TilesAndBarriers := by
  unfold Obligations.TilesAndBarriers
  refine ⟨⟨fun s t d a hq board h hf ha => tlquery_answers hq board hf ha h,
    fun s t d a hq board h hf ha => ⟨tlwait_answers hq board hf ha h, tlwait_waits hq board hf ha h⟩,
    fun s t a h hf ha => ⟨fun e stands full away noReplica noCopy => tlfill_copies h hf ha stands full away noReplica noCopy,
      tlfill_idle h hf ha⟩⟩,
    fun s t level o r l board h ha task launch => ?_,
    fun s launch level group b stands members => ⟨fun full => ⟨_, rfl, depart_full stands members full⟩,
      fun waits => congrArg Host.Outcome.next (depart_waits stands members waits)⟩⟩
  rw [← h.turn] at task ⊢
  exact ⟨bar_tooLow board h ha task launch, fun high alone released => bar_alone board h ha task launch high released alone,
    fun high teamed released notOwn other => bar_twice board h ha task launch high teamed released notOwn other,
    fun high teamed released calm counter slots => ⟨bar_ofOne board h ha task launch high teamed released calm counter slots,
      bar_arrives board h ha task launch high teamed released calm counter slots⟩,
    fun k' high teamed waits gone => bar_departs board h ha task launch high teamed waits gone⟩

end Sys2Proof.Machine

/-! SUPPORT. Task records that are created, and the weight of a launch (08 R235, R236; 12 R298, R301 to R303, R308, R309). -/

namespace Sys2Proof.Machine

-- one after another: every waiting worker thread counts towards the check's memory limit
set_option Elab.async false

/-! ### Records and launches in their tables -/

/-- An entry that replaces some is found where it is looked for, if it is what is looked for and one that it replaces was. -/
theorem find?_replaceWhere {α : Type} {p q : α → Bool} {l : List α} {x y : α} (found : l.find? p = some y) (old : q y = true)
    (new : p x = true) : (l.map fun z => if q z then x else z).find? p = some x := by
  induction l with
  | nil => cases found
  | cons z l ih =>
    by_cases here : q z = true
    · rw [List.map_cons, if_pos here, List.find?_cons_of_pos new]
    · have notFound : ¬p z = true := fun first => here (by rw [List.find?_cons_of_pos first] at found; exact Option.some.inj found ▸ old)
      rw [List.find?_cons_of_neg notFound] at found
      rw [List.map_cons, if_neg here, List.find?_cons_of_neg notFound]
      exact ih found

theorem State.setLaunch_launch? {s : State} {ctx lserial : Nat} {l x : Launch} (found : s.launch? ctx lserial = some l)
    (key : x.ctx = l.ctx ∧ x.lserial = l.lserial ∧ x.order = l.order) : (s.setLaunch x).launch? ctx lserial = some x := by
  obtain ⟨ctx', lserial', order⟩ := key
  have same := List.find?_some found
  have replaced := find?_replaceWhere (q := fun y : Launch => decide (y.order = x.order)) (x := x) found (by simp [order])
    (by rw [← ctx', ← lserial'] at same; exact same)
  simp only [decide_eq_true_eq] at replaced
  exact replaced

/-- The context is not being destroyed: nothing ends with its last record. -/
theorem State.checkContext_open {s : State} {ctx : Nat} (open_ : ∀ x, s.ctx? ctx = some x → x.ending = false) : s.checkContext ctx = s := by
  unfold State.checkContext
  split
  · next x found => rw [open_ x found]; rfl
  · rfl

/-! ### A record is created (12 R301 to R303) -/

/-- Nothing but what the dispatchers keep, the serials of dies and what is to come differs. -/
def State.RecordsOnly (s u : State) : Prop :=
  u = { s with dies := u.dies, recs := u.recs, teams := u.teams, ctxs := u.ctxs, launches := u.launches, agenda := u.agenda,
               order := u.order }

theorem State.RecordsOnly.trans {s t u : State} (h : s.RecordsOnly t) (k : t.RecordsOnly u) : s.RecordsOnly u := by
  rw [State.RecordsOnly, k, h]

theorem State.DiesAndAgendaOnly.recordsOnly {s u : State} (h : s.DiesAndAgendaOnly u) : s.RecordsOnly u := by
  rw [State.RecordsOnly, h.eq]

/-- A record without operands is READY at once. -/
theorem State.readyOrWait_readies {s : State} {r : TaskRec} (found : s.rec? r.id = some r) (noInput : r.ins = []) :
    (s.setRec { r with st := .ready, readyAt := s.stc, aged := 0, residue := none }).DiesAndAgendaOnly (s.readyOrWait r.id) := by
  have full : s.allFull r = true := by rw [State.allFull, noInput]; rfl
  have step : s.readyOrWait r.id = s.makeReady r.id := by
    unfold State.readyOrWait
    rw [found]
    dsimp only
    rw [noInput, full]
    rfl
  rw [step]
  unfold State.makeReady
  rw [found]
  exact (State.DiesAndAgendaOnly.trans (t := State.sched (State.unsched (s.setRec _) _) _ _ _) rfl (State.kick_diesAndAgendaOnly _))

/-- A new record of a launch without tiles is READY, the youngest of all. -/
theorem State.addRec_ready {s : State} {l : Launch} {d : Nat} (noTiles : l.tiles = []) (new : ∀ x ∈ s.recs, x.id ≠ Rules.nextTask s d)
    (w : Word) (param prio weight : Nat) (parent : Option Nat) (iprio : Nat) :
    ∃ x v, s.addRec l .ordinary w param prio weight d parent iprio [] = (Rules.nextTask s d, v) ∧ s.RecordsOnly v ∧ v.recs = s.recs ++ [x] ∧
      (x.id = Rules.nextTask s d ∧ x.ctx = l.ctx ∧ x.lserial = l.lserial ∧ x.wid = w ∧ x.param = param ∧ x.prio = prio ∧ x.weight = weight ∧
        x.st = .ready ∧ x.parent = parent) ∧ (256 < s.poolFree d → v.launches = s.launches) := by
  unfold State.addRec
  extract_lets die id' s1 taskno tiles ins outs s2 dup spill full s3 r s4 s5 s6 s7
  have none_ : tiles = [] := by show l.resolve taskno = []; rw [Launch.resolve, noTiles]; rfl
  have noIns : ins = [] := by show List.map _ (tiles.filter _) = []; rw [none_]; rfl
  have noOuts : outs = [] := by show List.map _ (tiles.filter _) = []; rw [none_]; rfl
  have single : dup = false := by
    show (_ && (hasDup (ins ++ outs) || outs.any _)) = false
    rw [noIns, noOuts]; rfl
  have same : s2 = s1 := by show ins.foldl _ s1 = s1; rw [noIns]; rfl
  have room : 256 < s.poolFree d → spill = false := fun h => by
    show (!dup && decide (s2.poolFree d ≤ 256)) = false
    rw [same, show s1.poolFree d = s.poolFree d from rfl, decide_eq_false (Nat.not_le.mpr h), Bool.and_false]
  have counted : s.RecordsOnly s3 ∧ s3.recs = s.recs ∧ (spill = false → s3.launches = s.launches) := by
    have noted : s2.RecordsOnly s3 ∧ s3.recs = s2.recs ∧ (spill = false → s3.launches = s2.launches) := by
      dsimp only [s3]
      split
      · next beyond =>
        have spills : spill ≠ false := fun h => by simp [full, h] at beyond
        split
        · exact ⟨rfl, rfl, fun h => absurd h spills⟩
        · exact ⟨rfl, rfl, fun _ => rfl⟩
      · exact ⟨rfl, rfl, fun _ => rfl⟩
    rw [same] at noted
    exact ⟨.trans (t := s1) rfl noted.1, noted.2⟩
  have teamed : s3.RecordsOnly s5 ∧ s5.recs = s3.recs ++ [r] ∧ s5.launches = s3.launches := by
    show s3.RecordsOnly (s4.enterTeam l w) ∧ (s4.enterTeam l w).recs = _ ∧ (s4.enterTeam l w).launches = _
    unfold State.enterTeam
    dsimp only
    split
    · exact ⟨rfl, rfl, rfl⟩
    · exact ⟨rfl, rfl, rfl⟩
  rw [if_neg (by rw [single]; exact Bool.false_ne_true)]
  have same' : s6 = s5 := by show outs.foldl _ s5 = s5; rw [noOuts]; rfl
  have seated : s6.RecordsOnly s7 ∧ s7.recs = s6.recs ∧ s7.launches = s6.launches := by
    dsimp only [s7]
    split
    · exact ⟨rfl, rfl, rfl⟩
    · exact ⟨rfl, rfl, rfl⟩
  rw [same'] at seated
  have own : r.id = Rules.nextTask s d := rfl
  have recs : s7.recs = s.recs ++ [r] := by rw [seated.2.1, teamed.2.1, counted.2.1]
  have found : s7.rec? r.id = some r := by
    rw [State.rec?, recs, List.find?_append, List.find?_eq_none.mpr fun x hx => by simpa [own] using new x hx]
    simp
  have readied := State.readyOrWait_readies found noIns
  let x : TaskRec := { r with st := .ready, readyAt := s7.stc, aged := 0, residue := none }
  refine ⟨x, s7.readyOrWait r.id, rfl, ?_, ?_, ⟨rfl, rfl, rfl, rfl, rfl, rfl, rfl, rfl, rfl⟩, fun h => ?_⟩
  · exact ((counted.1.trans teamed.1).trans seated.1).trans (.trans (t := s7.setRec x) rfl readied.recordsOnly)
  · rw [readied.recs]
    have others : (s.recs.map fun y => if y.id = x.id then x else y) = s.recs :=
      (List.map_congr_left fun y hy => if_neg (new y hy)).trans (List.map_id s.recs)
    show (s7.recs.map fun y => if y.id = x.id then x else y) = _
    rw [recs, List.map_append, others]
    exact congrArg (s.recs ++ ·) (congrArg (fun y => [y]) (if_pos rfl))
  · rw [readied.eq]
    show s7.launches = _
    rw [seated.2.2, teamed.2.2, counted.2.2 (room h)]

/-! ### spawn (12 R298) -/

section
variable {s t : State} (hq : s.turn.q ≠ .x) (h : s.Begins {} t)
include hq h

theorem spawn_creates {d a b : RegF} {prio : BitVec 3} {inherit : BitVec 1} {r : TaskRec} {l : Launch} (hf : t.RegsFree [d, a, b])
    (ha : Rules.MayAccess t true) (ordinary : t.cur.tsk.run = 0) (task : t.recOf t.turn.core = some r) (launch : t.launchOf r = some l)
    (good : t.spawnBad l (t.rd a) = false) (open_ : l.spawnsEnded = false) (weight : 1 < r.weight) (noTiles : l.tiles = [])
    (room : Rules.RoomFor t r.die) :
    let id := Rules.nextTask t r.die
    ∃ u x, exec (.spawn d a b prio inherit) s = .next u ∧ s.Issued u ∧
      u.regAt s.turn.core s.turn.q d.toNat (s.stc + 4) = BitVec.ofNat 64 id ∧
      u.rec? r.id = some { r with weight := r.weight - r.weight / 2 } ∧ u.rec? id = some x ∧ x.wid = t.rd a ∧ x.weight = r.weight / 2 ∧
      x.st = .ready ∧ x.parent = some r.id ∧ x.param = (if t.rd b = 0#64 then r.param else (t.rd b).toNat) ∧
      x.prio = (if inherit = 1#1 then r.prio else prio.toNat) ∧ u.dram = s.dram := by
  intro id
  obtain ⟨free, new⟩ := room
  obtain ⟨access, released⟩ := ha
  let r' : TaskRec := { r with weight := r.weight - r.weight / 2 }
  let t1 := t.setRec r'
  have stands : t.rec? r.id = some r := by
    unfold State.recOf at task
    obtain ⟨k, -, found⟩ := Option.bind_eq_some_iff.mp task
    have key := find?_key (key := TaskRec.id) found
    rw [key.2]
    exact found
  have halved : t1.rec? r.id = some r' := State.setRec_rec? (x := r') stands
  have new1 : ∀ x ∈ t1.recs, x.id ≠ Rules.nextTask t1 r.die := by
    rintro x hx
    obtain ⟨y, hy, rfl⟩ := List.mem_map.mp hx
    have := new y hy
    split
    · next same => rw [← same]; exact this
    · exact this
  obtain ⟨x, v, adds, only, recs, ⟨id', -, -, wid, param, prio', weight', ready, parent⟩, -⟩ := State.addRec_ready noTiles new1 (t.rd a)
    (if t.rd b = 0#64 then r.param else (t.rd b).toNat) (if inherit = 1#1 then r.prio else prio.toNat) (r.weight / 2) (some r.id) 0
  have notFull : (l.spawnsEnded || t.spillFull l r.die) = false := by
    rw [open_, State.spillFull, decide_eq_false (Nat.not_le.mpr free)]; rfl
  have run := h.accessDone (i := .spawn d a b prio inherit) (v := v.wr 4 d (BitVec.ofNat 64 id)) rfl hf access released (by
    dsimp only
    rw [task, Option.bind_some, launch]
    dsimp only
    rw [if_neg (not_not.mpr ordinary), good, if_neg Bool.false_ne_true, notFull, if_neg Bool.false_ne_true, if_neg (Nat.not_le.mpr weight)]
    exact congrArg (fun p : Nat × State => Res.done (p.2.wr 4 d (BitVec.ofNat 64 p.1))) adds)
  have turn : v.turn = t.turn := by rw [only]; rfl
  have stc : v.stc = t.stc := by rw [only]; rfl
  have stream : v.curSeq = t.curSeq := by rw [State.curSeq, State.cur, State.core, only]; rfl
  have hv : v.turn.q ≠ .x := by rwa [turn, h.turn]
  have dram : v.dram = t.dram := by rw [only]; rfl
  have found (i : Nat) : (v.wr 4 d (BitVec.ofNat 64 id)).rec? i = (t1.recs ++ [x]).find? fun y => y.id = i := by
    show v.recs.find? _ = _
    rw [recs]
  refine ⟨_, x, run, h.issued (u := v.wr 4 d (BitVec.ofNat 64 id)) ?_ turn stc _ _ _ _, ?_, ?_, ?_, wid, weight', ready, parent, param, prio', dram.trans h.dram⟩
  · rw [State.wr_curSeq hv, stream]
  · rw [← h.turn, ← h.stc, ← turn, ← stc]
    exact (State.finishIssue_regAt ..).trans (State.wr_regAt hv ..)
  · refine (found r.id).trans ?_
    rw [List.find?_append, show t1.recs.find? (fun y => y.id = r.id) = some r' from halved]
    rfl
  · refine (found id).trans ?_
    rw [List.find?_append, List.find?_eq_none.mpr fun y hy => by simpa using (show y.id ≠ id from new1 y hy)]
    simp [id', id, show Rules.nextTask t1 r.die = Rules.nextTask t r.die from rfl]

/-! ### wborrow (12 R309) -/

variable {d : RegF} (board : s.cur.sys.region = true) (hf : t.RegsFree [d]) (ha : Rules.AccessFree t) {r : TaskRec}
  (task : t.recOf t.turn.core = some r)
include board hf ha task

theorem wborrow_answers (enough : 2 ^ 16 ≤ r.weight) :
    ∃ u, exec (.wborrow d) s = .next u ∧ s.Issued u ∧ Rules.Returns s u d (BitVec.ofNat 64 r.weight) ∧ u.recs = s.recs := by
  have run := h.accessDone (i := .wborrow d) (congrArg _ (State.sbWord_open board ..)) hf ha nofun (by
    rw [task]
    exact if_pos (.inl enough))
  have ends (v : Word) := h.issuesAs (State.wrFree_extends (t := t) (by rwa [h.turn]) d v) {} s.settled.cur.vec.skip none (s.curSeq.pc + 1#14)
  refine ⟨_, run, (ends _).issued, State.wrFree_returns h hq (.refl t) .., ?_⟩
  obtain ⟨c, -, rfl⟩ := h
  rfl

omit hq in
theorem wborrow_borrows (little : r.weight < 2 ^ 16) (calm : (t.launchOf r).any Launch.overflowed = false) (teamed : r.teamed = true) :
    ∃ u, exec (.wborrow d) s = .next u ∧ u.curSeq.pc = s.curSeq.pc ∧ u.curSeq.retry = s.stc + 1 ∧
      ∃ j ∈ u.agenda, j.ev = .weightBorrowAck r.id := by
  have run := h.accessHolds (i := .wborrow d) (congrArg _ (State.sbWord_open board ..)) board hf ha (by
    rw [task]
    exact if_neg (by simpa [calm, teamed] using little))
  have stream : (s.retrying.borrow r.id).curSeq = s.retrying.curSeq := by
    unfold State.borrow
    split <;> rfl
  refine ⟨_, run, ?_, ?_, ?_⟩
  · rw [stream, State.retrying_curSeq]
    exact State.settled_pc s
  · rw [stream, State.retrying_curSeq]
  · unfold State.borrow
    split
    · next asked => exact (State.hasJob_iff ..).mp asked
    · obtain ⟨j, mem, -, ev⟩ := s.retrying.mem_schedFree phTask (.weightBorrowAck r.id)
      exact ⟨j, mem, ev⟩

end

/-! ### Weight that comes and goes (12 R309) -/

/-- The state with the weight of an ended record back and its windows released. -/
def State.weightHome (s : State) (r : TaskRec) (l : Launch) : State :=
  ((s.setRec { r with weightBack := true }).setLaunch { l with held := l.held + r.weight }).dropWindows fun w => w.task = r.id

/-- Of its tables. -/
theorem State.weightHome_eq (s : State) (r : TaskRec) (l : Launch) : s.weightHome r l =
    { (s.setRec { r with weightBack := true }).setLaunch { l with held := l.held + r.weight } with
      windows := s.windows.filter (fun w => !decide (w.task = r.id)), dies := (s.weightHome r l).dies, agenda := (s.weightHome r l).agenda } :=
  (State.dropWindows_drops ((s.setRec { r with weightBack := true }).setLaunch { l with held := l.held + r.weight }) fun w => w.task = r.id).1.eq

/-! ### A launch completes (12 R300; 14 R367) -/

theorem State.tellHost_reportOnly (s : State) (k : Nat) : s.ReportOnly (s.tellHost k) := by
  unfold State.tellHost
  split
  · exact .trans (t := { s with host := { s.host with credit := Nat.min 64 (s.host.credit + 1) } }) rfl (State.raise_reportOnly ..)
  · exact (State.raise_reportOnly ..).trans (State.raiseVector_reportOnly ..)

theorem State.deviceTell_reportOnly (s : State) (pa : Nat) (bs : List Byte) (k : Nat) : s.ReportOnly (s.deviceTell pa bs k) := by
  unfold State.deviceTell
  dsimp only
  split
  · rfl
  · exact (State.deviceWrite_reportOnly ..).trans (State.tellHost_reportOnly ..)

theorem State.vputGo_reportOnly (root fuel : Nat) (s : State) (va : Nat) (bs : List Byte) : s.ReportOnly (s.vputGo root fuel va bs) := by
  induction fuel generalizing s va bs with
  | zero => exact .refl s
  | succ fuel ih =>
    unfold State.vputGo
    dsimp only
    split
    · exact .refl s
    · refine .trans ?_ (ih ..)
      split
      · exact State.deviceWrite_reportOnly ..
      · exact .refl s

theorem State.writeCompletion_reportOnly (s : State) (ctx va code nerr naudit field lserial : Nat) :
    s.ReportOnly (s.writeCompletion ctx va code nerr naudit field lserial) := by
  unfold State.writeCompletion
  extract_lets s1 s2 v
  have head : s.ReportOnly s1 := State.vputGo_reportOnly ..
  have tail : s1.ReportOnly s2 := State.vputGo_reportOnly ..
  refine (head.trans tail).trans ?_
  split
  · exact State.deviceTell_reportOnly ..
  · exact State.tellHost_reportOnly ..
  · exact State.vputGo_reportOnly ..

section
variable {s : State} {r : TaskRec} {l : Launch} (stands : s.rec? r.id = some r) (launch : s.launchOf r = some l)
include stands launch

theorem borrowAck_grows (within : l.total + 2 ^ 32 ≤ 2 ^ 95) :
    (s.borrowAck r.id).rec? r.id = some { r with weight := r.weight + 2 ^ 32 } ∧
      (s.borrowAck r.id).launchOf r = some { l with total := l.total + 2 ^ 32 } ∧ (s.borrowAck r.id).dram = s.dram := by
  have step : s.borrowAck r.id =
      (s.setLaunch { l with total := l.total + borrowUnit }).setRec { r with weight := r.weight + borrowUnit } := by
    unfold State.borrowAck
    rw [stands]
    dsimp only
    rw [launch]
    exact if_neg (Nat.not_lt.mpr within)
  rw [step]
  exact ⟨State.setRec_rec? (s := s.setLaunch _) (x := { r with weight := r.weight + borrowUnit }) stands,
    State.setLaunch_launch? launch ⟨rfl, rfl, rfl⟩, rfl⟩

variable (over_ : r.st = .ended) (due : r.weightBack = false) (acked : s.acked r = true) (open_ : l.complete = false)
  (context : ∀ x, s.ctx? r.ctx = some x → x.ending = false)
include over_ due acked

theorem giveBack_eq : s.giveBack r.id = ((s.weightHome r l).checkLaunch r.ctx r.lserial).checkContext r.ctx := by
  unfold State.giveBack
  rw [stands]
  dsimp only
  rw [if_neg (by simp [over_, due, acked]), show (s.setRec { r with weightBack := true }).launchOf r = some l from launch]
  rfl

omit stands over_ due acked in
theorem weightHome_launch? : (s.weightHome r l).launch? r.ctx r.lserial = some { l with held := l.held + r.weight } := by
  rw [State.weightHome_eq]
  exact State.setLaunch_launch? launch ⟨rfl, rfl, rfl⟩

include context open_

omit open_ in
/-- Weight is still out: it is held, and what is left of the record's window is released. -/
theorem giveBack_holds (out : l.held + r.weight ≠ l.total) :
    let u := s.giveBack r.id
    u.rec? r.id = some { r with weightBack := true } ∧ u.launchOf r = some { l with held := l.held + r.weight } ∧
      (∀ w ∈ u.windows, w.task ≠ r.id) ∧ u.dram = s.dram := by
  have home := weightHome_launch? launch
  have waits : (s.weightHome r l).checkLaunch r.ctx r.lserial = s.weightHome r l := by
    unfold State.checkLaunch
    rw [home]
    exact if_pos (by simp [out])
  dsimp only
  rw [giveBack_eq stands launch over_ due acked, waits, State.checkContext_open (by rw [State.weightHome_eq]; exact context)]
  refine ⟨?_, home, ?_, ?_⟩
  · rw [State.weightHome_eq]
    exact State.setRec_rec? (x := { r with weightBack := true }) stands
  · rw [State.weightHome_eq]
    exact fun w hw => by simpa using (List.mem_filter.mp hw).2
  · rw [State.weightHome_eq]
    rfl

/-- The last weight completes the launch. -/
theorem giveBack_completes (all : l.held + r.weight = l.total) (calm : ∀ x ∈ s.recs, x.kind ≠ .recovery) :
    (s.giveBack r.id).launchOf r = some { l with held := l.total, complete := true } := by
  let l' : Launch := { l with held := l.held + r.weight }
  have home : (s.weightHome r l).launch? r.ctx r.lserial = some l' := weightHome_launch? launch
  have noRecovery : ((s.weightHome r l).liveRecs l').any (fun x => x.kind = .recovery) = false := by
    refine List.any_eq_false.mpr fun x hx => ?_
    have mem : x ∈ (s.setRec { r with weightBack := true }).recs := by
      have := (List.mem_filter.mp hx).1
      rwa [State.weightHome_eq] at this
    obtain ⟨y, hy, rfl⟩ := List.mem_map.mp mem
    obtain ⟨own, -⟩ := find?_key (key := TaskRec.id) stands
    split
    · simpa using calm r own
    · simpa using calm y hy
  let done : Launch := { l' with complete := true }
  have step : (s.weightHome r l).checkLaunch r.ctx r.lserial = (s.weightHome r l).completeLaunch l' := by
    unfold State.checkLaunch
    rw [home]
    exact if_neg (by rw [noRecovery]; simp [l', open_, all])
  have reports : ((s.weightHome r l).setLaunch done).ReportOnly ((s.weightHome r l).completeLaunch l') := State.writeCompletion_reportOnly ..
  rw [giveBack_eq stands launch over_ due acked, step, State.checkContext_open (by
    rw [State.ctx?, reports.eq]
    show ∀ x, SMap.get? (s.weightHome r l).ctxs r.ctx = some x → _
    rw [State.weightHome_eq]
    exact context)]
  have found := State.setLaunch_launch? (x := done) home ⟨rfl, rfl, rfl⟩
  have same : done = { l with held := l.total, complete := true } := by dsimp only [done, l']; rw [all]
  rw [State.launchOf, State.launch?, reports.eq, ← same]
  exact found

end

/-- Settles O43: spawn, wborrow, the borrow's answer and the return of weight. -/
theorem spawnAndWeight : Obligations.SpawnAndWeight := by
  unfold Obligations.SpawnAndWeight
  refine ⟨fun s t d a b prio inherit r l hq h hf ha ordinary task launch good open_ weight noTiles room => ?_,
    fun s t d r hq board h hf ha task => ?_, fun s r l stands launch => ⟨fun within => ⟨_, rfl, borrowAck_grows stands launch within⟩,
      fun over_ due acked open_ context => ⟨fun out => ⟨_, rfl, giveBack_holds stands launch over_ due acked context out⟩,
        fun all calm => ⟨_, rfl, giveBack_completes stands launch over_ due acked open_ context all calm⟩⟩⟩⟩
  · rw [← h.turn] at task
    exact spawn_creates hq h hf ha ordinary task launch good open_ weight noTiles room
  · rw [← h.turn] at task
    exact ⟨wborrow_answers hq h board hf ha task, wborrow_borrows h board hf ha task⟩

end Sys2Proof.Machine

/-! SUPPORT. Launches that are presented and accepted (08 R237; 12 R299 to R303, R308; 14 R366). -/

namespace Sys2Proof.Machine

-- one after another: every waiting worker thread counts towards the check's memory limit
set_option Elab.async false

theorem State.modCtx_ctx? (s : State) (ctx : Nat) (f : Context → Context) : (s.modCtx ctx f).ctx? ctx = (s.ctx? ctx).map f := by
  have go (m : SMap Context) : SMap.get? (m.map fun x => if x.1 = ctx then (x.1, f x.2) else x) ctx = (SMap.get? m ctx).map f := by
    induction m with
    | nil => rfl
    | cons p m ih =>
      obtain ⟨k, x⟩ := p
      by_cases here : k = ctx
      · simp [SMap.get?, here]
      · simp [SMap.get?, here, Ne.symm here, ih]
  exact go s.ctxs

/-! ### Acceptance (12 R300 to R303) -/

/-- With no mirror there is no stream position to bring in line. -/
theorem State.rngResync_none {s : State} {ctx : Nat} (noMirror : (s.ctx? ctx).bind (·.mirror) = none) (lserial : Nat) :
    s.rngResync ctx lserial = s := by
  unfold State.rngResync
  rw [noMirror]

/-- Work identifiers depend on the cut alone (12 R296). -/
theorem Launch.initial_congr {l m : Launch} (fields : m.nfld = l.nfld) (ext : m.ext = l.ext) (width : m.width = l.width) (r : Nat) :
    m.initial r = l.initial r := by
  have go (f r : Nat) : m.initialGo f r = l.initialGo f r := by
    induction f generalizing r with
    | zero => rfl
    | succ f ih => simp only [Launch.initialGo, Launch.shift, ih, ext, width]
  rw [Launch.initial, go, fields, Launch.initial]

/-- The die of an initial record of a launch without tiles. -/
theorem State.initialDie_congr {s u : State} {l m : Launch} (dies : u.dies = s.dies) (noTiles : l.tiles = []) (noTiles' : m.tiles = [])
    (mask : m.diemask = l.diemask) (r : Nat) : u.initialDie m r = s.initialDie l r := by
  have die (d : Nat) : u.die d = s.die d := by rw [State.die, dies, State.die]
  simp [State.initialDie, Launch.resolve, noTiles, noTiles', mask, die]

/-- A launch of one task and no tiles stands, its whole weight dealt to one READY record. -/
theorem State.acceptLaunch_stands {s : State} {l : Launch} (one : l.count = 1) (untiled : s.tileCount l (s.taskHdr l) = 0)
    (bare : l.tiles = []) (noMirror : (s.ctx? l.ctx).bind (·.mirror) = none) (room : Rules.RoomFor s (s.initialDie l 0)) :
    s.RecordsOnly (s.acceptLaunch l) ∧
      (∃ m ∈ (s.acceptLaunch l).launches, m.ctx = l.ctx ∧ m.va = l.va ∧ m.lserial = l.lserial ∧ m.total = 2 ^ 63 ∧ m.held = 0 ∧
        m.complete = l.complete) ∧
      ∃ r ∈ (s.acceptLaunch l).recs, r.ctx = l.ctx ∧ r.lserial = l.lserial ∧ r.wid = l.initial 0 ∧ r.weight = 2 ^ 63 ∧ r.param = l.param ∧
        r.st = .ready := by
  obtain ⟨bv, es, ents⟩ : ∃ bv es, s.bookEnts l (s.taskHdr l) = (bv, es) := ⟨_, _, rfl⟩
  let m : Launch := { l with
    held := 2 ^ 63 - l.count * (2 ^ 63 / l.count), total := 2 ^ 63, order := s.order, tmpl := (readTemplate false bv es).getD {}
    tiles := (s.tileEnts l (s.taskHdr l)).map fun v => (bitsN v 0 40, bitsN v 40 24, bitsN v 64 32, decide (bitsN v 96 1 = 1))
    pquads := (s.taskHdr l).quads
    pre := Nat.max ((readTemplate false bv es).getD {}).pre (256 + ((s.taskHdr l).imageLen + 255) / 256) }
  have noTiles : m.tiles = [] := by
    show (s.tileEnts l (s.taskHdr l)).map _ = []
    rw [State.tileEnts, untiled]
    rfl
  let t : State := { s with launches := s.launches ++ [m], order := s.order + 1 }
  have die : t.initialDie m 0 = s.initialDie l 0 := State.initialDie_congr rfl bare noTiles rfl 0
  obtain ⟨free, new⟩ := room
  obtain ⟨x, v, adds, only, recs, ⟨-, ctx, lserial, wid, param, -, weight, ready, -⟩, kept⟩ := State.addRec_ready (s := t) noTiles new
    (m.initial 0) m.param m.prio (2 ^ 63 / l.count) none 0
  have step : s.acceptLaunch l = v := by
    unfold State.acceptLaunch
    dsimp only
    rw [ents, State.rngResync_none noMirror, show List.range l.count = [0] by rw [one]; rfl]
    show (t.addRec m .ordinary (m.initial 0) m.param m.prio (2 ^ 63 / l.count) (t.initialDie m 0) none 0 []).2 = v
    rw [die, adds]
  rw [step]
  refine ⟨.trans (t := t) rfl only, ⟨m, ?_, rfl, rfl, rfl, rfl, ?_, rfl⟩, ⟨x, ?_, ctx, lserial, wid.trans (Launch.initial_congr (l := l) (m := m) rfl rfl rfl 0), ?_, param, ready⟩⟩
  · rw [kept free]
    exact List.mem_append_right _ (List.mem_singleton.mpr rfl)
  · show 2 ^ 63 - l.count * (2 ^ 63 / l.count) = 0
    simp [one]
  · rw [recs]
    exact List.mem_append_right _ (List.mem_singleton.mpr rfl)
  · simp [weight, one]

/-- A record that passes every check is accepted. -/
theorem State.present_accepts {p : State} {ctx va : Nat} {x : Context} {l : Launch} (context : p.ctx? ctx = some x)
    (accepted : Rules.Accepted (Rules.serialTaken p ctx x.lserial) ctx va x l) (who : Option Nat) :
    p.RecordsOnly (p.present who ctx va) ∧ Rules.LaunchStands (p.present who ctx va) ctx va x l := by
  obtain ⟨live, open_, noMirror, aligned, ⟨bs, sound, rfl, magic, own, good, image⟩, one, untiled, room⟩ := accepted
  let s := Rules.serialTaken p ctx x.lserial
  have step : p.present who ctx va = s.acceptLaunch (readLaunch ctx x.lserial va (leVal bs)) := by
    unfold State.present
    rw [context]
    dsimp only
    rw [live, if_neg Bool.false_ne_true, show (p.modCtx ctx fun y => { y with lserial := (x.lserial + 1) % 2 ^ 32 }) = s from rfl, sound]
    dsimp only
    rw [if_neg (by simp [aligned, magic]), if_neg (not_not.mpr own), open_, if_neg Bool.false_ne_true, good, image]
  have stands := State.acceptLaunch_stands one untiled rfl (by
    show (s.ctx? ctx).bind _ = none
    rw [show s.ctx? ctx = _ from State.modCtx_ctx? .., context]
    exact noMirror) room
  obtain ⟨only, launch, record⟩ := stands
  rw [step]
  exact ⟨.trans (t := s) rfl only, launch, record⟩

/-! ### launch (08 R237) -/

theorem launch_launches {s t : State} {d a : RegF} {x : Context} {l : Launch} (hq : s.turn.q ≠ .x) (h : s.Begins {} t)
    (hf : t.RegsFree [d, a]) (ha : Rules.MayAccess t true) (ordinary : t.cur.tsk.run = 0) :
    let k := t.cur.tsk.launches + 1
    let p := (t.modCur fun c => { c with tsk := { c.tsk with launches := k } }).wr 1 d (BitVec.ofNat 64 k)
    p.ctx? t.cur.sys.ctx.toNat = some x →
    Rules.Accepted (Rules.serialTaken p t.cur.sys.ctx.toNat x.lserial) t.cur.sys.ctx.toNat (t.rd a).toNat x l →
    ∃ u, exec (.launch d a) s = .next u ∧ s.Issued u ∧ u.regAt s.turn.core s.turn.q d.toNat (s.stc + 1) = BitVec.ofNat 64 k ∧
      u.cur.tsk.launches = k ∧ Rules.LaunchStands u t.cur.sys.ctx.toNat (t.rd a).toNat x l ∧ u.dram = s.dram := by
  intro k p context accepted
  obtain ⟨access, released⟩ := ha
  let t1 := t.modCur fun c => { c with tsk := { c.tsk with launches := k } }
  have ht : t1.turn.q ≠ .x := by rwa [State.modCur_turn, h.turn]
  have alike : t1.cur.Alike p.cur := State.wr_alike ht ..
  have cur1 : t1.cur = { t.cur with tsk := { t.cur.tsk with launches := k } } := State.modCur_cur ..
  have sys : p.cur.sys = t.cur.sys := by rw [(State.wr_extends ht 1 d _).sys, cur1]
  obtain ⟨only, stands⟩ := State.present_accepts context accepted (some t.turn.core)
  let v := p.present (some t.turn.core) t.cur.sys.ctx.toNat (t.rd a).toNat
  have run := h.accessDone (i := .launch d a) (v := v) rfl hf access released ((if_neg (not_not.mpr ordinary)).trans (by
    show Res.done (p.present (some t.turn.core) p.cur.sys.ctx.toNat (t.rd a).toNat) = _
    rw [sys]))
  have core (n : Nat) : v.core n = p.core n := by rw [State.core, show v = _ from only]; rfl
  have turn : v.turn = t.turn := by rw [show v = _ from only]; rfl
  have stc : v.stc = t.stc := by rw [show v = _ from only]; rfl
  have dram : v.dram = t.dram := by rw [show v = _ from only]; rfl
  have cur : v.cur = p.cur := by rw [State.cur, core, turn]; rfl
  have stream : v.curSeq = t.curSeq := by
    rw [State.curSeq, cur, turn]
    exact (State.wr_curSeq ht ..).trans (State.modTsk_curSeq t fun y => { y with launches := k })
  refine ⟨_, run, h.issued (by rw [stream]) turn stc _ _ _ _, ?_, ?_, stands, dram.trans h.dram⟩
  · rw [← h.turn, ← h.stc, ← turn]
    refine (State.finishIssue_regAt ..).trans ?_
    rw [State.regAt, core, turn]
    exact State.wr_regAt ht ..
  · rw [State.finishIssue_tsk, cur, alike.tsk, cur1]

/-! ### LAUNCH (14 R366) -/

theorem hcmdLaunch_launches {s : State} {x : Context} {l : Launch} (ready : s.mgmt.stage = 5) (credit : 1 ≤ s.host.credit)
    (bound : s.host.credit ≤ 64) (fresh : s.inp.flag = false) (idle : s.hostWriting = false) :
    let p : State := { s with host := { s.host with credit := s.host.credit - 1 } }
    p.ctx? s.inp.ctx.toNat = some x →
    Rules.Accepted (Rules.serialTaken p s.inp.ctx.toNat x.lserial) s.inp.ctx.toNat (s.inp.addr.toNat / 64 * 64) x l →
    ∃ u, exec .hcmdLaunch s = .next u ∧ Rules.LaunchStands u s.inp.ctx.toNat (s.inp.addr.toNat / 64 * 64) x l ∧
      u.host.credit = s.host.credit ∧ u.dram = s.dram := by
  intro p context accepted
  obtain ⟨only, stands⟩ := State.present_accepts context accepted none
  let v := p.present none s.inp.ctx.toNat (s.inp.addr.toNat / 64 * 64)
  have run : exec .hcmdLaunch s = .next { v with host := { v.host with credit := Nat.min 64 (v.host.credit + 1) } } := by
    show execHcmdLaunch s = _
    unfold execHcmdLaunch State.hostCommand
    dsimp only
    rw [if_neg (by simp only [ready, fresh]; omega), fresh, if_neg Bool.false_ne_true, if_neg (Bool.eq_false_iff.mp (show p.hostWriting = false from idle))]
  have host : v.host = p.host := by rw [show v = _ from only]
  refine ⟨_, run, stands, ?_, ?_⟩
  · show Nat.min 64 (v.host.credit + 1) = _
    rw [host]
    show Nat.min 64 (s.host.credit - 1 + 1) = _
    rw [Nat.sub_add_cancel credit]
    exact Nat.min_eq_right bound
  · show v.dram = _
    rw [show v = _ from only]

/-- Settles O44: launch of a task, then LAUNCH of the host. -/
theorem launchesAreAccepted : Obligations.LaunchesAreAccepted := by
  unfold Obligations.LaunchesAreAccepted
  exact ⟨fun s t d a x l hq h hf ha ordinary context accepted => launch_launches hq h hf ha ordinary context accepted,
    fun s x l ready credit bound fresh idle context accepted => hcmdLaunch_launches ready credit bound fresh idle context accepted⟩

end Sys2Proof.Machine

/-! SUPPORT. A task is asked to stop, stopped, saved and restored (08 R233, R239; 09 R246, R264; 12 R314 to R317). -/

namespace Sys2Proof.Machine

-- one after another: every waiting worker thread counts towards the check's memory limit
set_option Elab.async false

/-! ### What the dispatchers' work leaves of the tasks -/

/-- Nothing differs but dies, teams, contexts, the agenda and two counters. -/
def State.TasksStand (s u : State) : Prop :=
  u = { s with dies := u.dies, teams := u.teams, ctxs := u.ctxs, agenda := u.agenda, freeCtr := u.freeCtr, order := u.order }

theorem State.TasksStand.refl (s : State) : s.TasksStand s := rfl
theorem State.TasksStand.trans {s t u : State} (h : s.TasksStand t) (k : t.TasksStand u) : s.TasksStand u :=
  Eq.trans k (by rw [show t = _ from h])
theorem State.TasksStand.eq {s u : State} (h : s.TasksStand u) :
    u = { s with dies := u.dies, teams := u.teams, ctxs := u.ctxs, agenda := u.agenda, freeCtr := u.freeCtr, order := u.order } := h

theorem State.DiesAndAgendaOnly.tasksStand {s u : State} (h : s.DiesAndAgendaOnly u) : s.TasksStand u := by rw [State.TasksStand, h.eq]
theorem State.AgendaOnly.tasksStand {s u : State} (h : s.AgendaOnly u) : s.TasksStand u := by rw [State.TasksStand, h.eq]

section
variable {s u : State} (h : s.TasksStand u)
include h
theorem State.TasksStand.core (n : Nat) : u.core n = s.core n := by rw [h.eq]; rfl
theorem State.TasksStand.rec? (id : Nat) : u.rec? id = s.rec? id := by rw [h.eq]; rfl
theorem State.TasksStand.windows : u.windows = s.windows := by rw [h.eq]
theorem State.TasksStand.saveAreas : u.saveAreas = s.saveAreas := by rw [h.eq]
theorem State.TasksStand.dram : u.dram = s.dram := by rw [h.eq]
end

theorem State.checkTeam_tasksStand (s : State) (r : TaskRec) : s.TasksStand (s.checkTeam r) := by
  unfold State.checkTeam
  dsimp only
  repeat' split
  all_goals rfl

theorem State.kick_tasksStand (s : State) : s.TasksStand s.kick := s.kick_diesAndAgendaOnly.tasksStand

theorem State.foldl_sched_tasksStand {α : Type} (due ph : State → α → Nat) (ev : α → Instr) (l : List α) (s : State) :
    s.TasksStand (l.foldl (fun t x => t.sched (due t x) (ph t x) (ev x)) s) :=
  foldl_related (R := State.TasksStand) .refl .trans (fun t _ => show t.TasksStand (t.sched ..) from rfl) l s

/-! ### The request (12 R314, R315) -/

theorem mem_insertBy {α : Type} {lt : α → α → Bool} {x y : α} {l : List α} (h : y ∈ insertBy lt x l) : y = x ∨ y ∈ l := by
  induction l with
  | nil => exact .inl (List.mem_singleton.mp h)
  | cons z l ih =>
    rw [insertBy] at h
    split at h
    · exact List.mem_cons.mp h
    · rcases List.mem_cons.mp h with rfl | later
      · exact .inr (List.mem_cons_self ..)
      · exact (ih later).imp_right (List.mem_cons_of_mem _)

theorem mem_foldl_insertBy {α : Type} {lt : α → α → Bool} {x : α} {l acc : List α}
    (h : x ∈ l.foldl (fun acc y => insertBy lt y acc) acc) : x ∈ acc ∨ x ∈ l := by
  induction l generalizing acc with
  | nil => exact .inl h
  | cons y l ih =>
    rcases ih h with early | late
    · exact (mem_insertBy early).elim (fun same => .inr (same ▸ List.mem_cons_self ..)) .inl
    · exact .inr (List.mem_cons_of_mem _ late)

theorem mem_sortBy {α : Type} {lt : α → α → Bool} {x : α} {l : List α} (h : x ∈ sortBy lt l) : x ∈ l :=
  (mem_foldl_insertBy h).resolve_left List.not_mem_nil

/-- A victim is a task that may be stopped. -/
theorem State.victim_stoppable {s : State} {r : TaskRec} {v : Nat} (h : s.victim r = some v) : s.stoppable v = true := by
  have chosen := List.of_mem_filter (mem_sortBy (List.mem_of_mem_head? h))
  simp only [Bool.and_eq_true] at chosen
  exact chosen.1.1

theorem preemptRequest_asks {s : State} {r : TaskRec} {v : Nat} (hr : s.rec? r.id = some r) (ready : r.st = .ready)
    (victim : s.victim r = some v) (team : ∀ x t, s.recOf v = some x → x.teamed = true → s.teamOf x = some t → s.teamCores t = [v]) :
    ∃ u, exec (.preemptRequest r.id) s = .next u ∧ (u.core v).tsk.preempt = some r.id ∧ (u.core v).tsk.cuts = [] ∧
      ⟨s.stc + 1050, phTask, .preemptTimeoutStop v, {}, {}⟩ ∈ u.agenda ∧ u.recs = s.recs ∧ ∀ n, n ≠ v → u.core n = s.core n := by
  let all := match (s.recOf v).bind fun x => if x.teamed then s.teamOf x else none with
    | some t => s.teamCores t
    | none => [v]
  have alone : all = [v] := by
    show (match (s.recOf v).bind fun x => if x.teamed then s.teamOf x else none with
      | some t => s.teamCores t
      | none => [v]) = [v]
    split
    · next t found =>
      obtain ⟨x, hx, found⟩ := Option.bind_eq_some_iff.mp found
      split at found
      · next teamed => exact team x t hx teamed found
      · cases found
    · rfl
  have step : s.requestStop r.id = s.askStop v r.id := by
    unfold State.requestStop
    rw [hr]
    dsimp only
    rw [if_neg (not_not.mpr ready), victim]
    show all.foldl _ s = _
    rw [alone]
    rfl
  have asked : s.askStop v r.id = (s.modCore v fun c => { c with tsk := { c.tsk with preempt := some r.id, cuts := [], cutAt := 0 } }).sched
      (s.stc + 1050) phTask (.preemptTimeoutStop v) := by
    unfold State.askStop
    rw [State.victim_stoppable victim]
    rfl
  refine ⟨_, congrArg Host.Outcome.next (step.trans asked), ?_, ?_, (State.mem_sched ..).mpr (.inl rfl), rfl, fun n hn => ?_⟩
  · rw [State.sched_core, State.modCore_core]
  · rw [State.sched_core, State.modCore_core]
  · rw [State.sched_core, State.modCore_core_ne _ _ _ _ hn]

/-! ### The stop (12 R315) -/

section
variable {s : State} {n : Nat} (task : (s.core n).tsk.task ≠ none) (asked : (s.core n).tsk.preempt ≠ none) (runs : (s.core n).tsk.ending = none)
  {i : Instr} (begins : exec i s = .next (s.stopOrWait n))
include task asked runs begins

theorem stop_holds (apart : (s.core n).tsk.meetAt = none) (noSel : (s.core n).sels = []) (hb : Rules.NothingBegun s n) :
    ∃ u, exec i s = .next u ∧ (u.core n).tsk.stopAt = some s.stc ∧ (u.core n).tsk.preempt = none ∧ (u.core n).sys.hold = true ∧
      (∀ q, (u.core n).seq q = (s.core n).seq q) ∧ ⟨s.stc, phTask, .preemptTimeoutStop n, {}, {}⟩ ∈ u.agenda ∧ u.dram = s.dram := by
  have step : s.stopOrWait n = (s.holdCore n).sched s.stc phTask (.preemptTimeoutStop n) := by
    rw [← State.stopNow_eq hb]
    simp [State.stopOrWait, task, asked, runs, apart, noSel]
  refine ⟨_, begins.trans (congrArg Host.Outcome.next step), ?_, ?_, ?_, fun q => ?_, (State.mem_sched ..).mpr (.inl rfl), rfl⟩
  · rw [State.sched_core, State.holdCore_core]; rfl
  · rw [State.sched_core, State.holdCore_core]; rfl
  · rw [State.sched_core, State.holdCore_core]; rfl
  · rw [State.sched_core, State.holdCore_core]
    cases q <;> rfl

theorem stop_waitsForMeeting (meets : (s.core n).tsk.meetAt ≠ none ∨ (s.core n).sels ≠ []) :
    ∃ u, exec i s = .next u ∧ u.cores = s.cores ∧ ⟨s.stc + 1, phTask, .preemptTimeoutStop n, {}, {}⟩ ∈ u.agenda ∧ u.dram = s.dram := by
  have meets : ((s.core n).tsk.meetAt.isSome || !(s.core n).sels.isEmpty) = true := by
    rcases meets with meets | meets
    · simp [Option.isSome_iff_ne_none.mpr meets]
    · simp [meets]
  have step : s.stopOrWait n = (s.unsched fun e => e = .preemptTimeoutStop n || e = .preemptCutStop n).sched (s.stc + 1) phTask
      (.preemptTimeoutStop n) := by
    unfold State.stopOrWait
    dsimp only
    rw [if_neg (by simp [task, asked, runs]), if_pos meets]
  exact ⟨_, begins.trans (congrArg Host.Outcome.next step), rfl, (State.mem_sched ..).mpr (.inl rfl), rfl⟩

end

/-- Both events of a stop that is asked for bring it or wait. -/
theorem exec_stopOrWait {s : State} {n : Nat} (goes : (s.core n).tsk.stopAt = none) {i : Instr}
    (hi : i = .preemptCutStop n ∨ i = .preemptTimeoutStop n) : exec i s = .next (s.stopOrWait n) := by
  rcases hi with rfl | rfl
  · rfl
  · show Host.Outcome.next (if (s.core n).tsk.stopAt.isSome then _ else _) = _
    rw [goes]
    rfl

/-! ### The drain (12 R316; log 35) -/

theorem State.setCore_mxBlocked (s : State) (n id b : Nat) : (s.setCore n (s.core n)).mxBlocked n id b = s.mxBlocked n id b := by
  rw [State.mxBlocked, State.setCore_core]
  rfl

theorem State.setCore_mxStuck (s : State) (n : Nat) : (s.setCore n (s.core n)).mxStuck n = s.mxStuck n := by
  unfold State.mxStuck
  simp only [State.setCore_core, State.setCore_mxBlocked]
  rfl

/-- With no started command and no request of the matrix engine none is awaited. -/
theorem State.mxStuck_idle {s : State} {n : Nat} (noRun : (s.core n).mx.runs = []) (noReq : ∀ x ∈ (s.core n).reqs, x.rank ≠ 1) :
    s.mxStuck n = true := by
  simpa [State.mxStuck, noRun] using noReq

section
variable {s : State} {n id : Nat} (task : (s.core n).tsk.task = some id) (stopped : (s.core n).tsk.stopAt ≠ none)
  (runs : (s.core n).tsk.ending = none) (settled : (s.core n).pend = [])
include task stopped runs settled

/-- A stopped task is saved when it is quiet, and else looked at again. -/
theorem preemptTimeoutStop_drains :
    exec (.preemptTimeoutStop n) s = .next (if (s.setCore n (s.core n)).quiet n then
      (s.setCore n (s.core n)).sched (s.stc + saveCycles) phTask (.stateSaveDone id)
      else (s.setCore n (s.core n)).sched (s.stc + 1) phTask (.preemptTimeoutStop n)) := by
  show Host.Outcome.next (if (s.core n).tsk.stopAt.isSome then s.drainStop n else _) = _
  rw [if_pos (Option.isSome_iff_ne_none.mpr stopped)]
  unfold State.drainStop
  rw [Core.settle_idle settled]
  dsimp only
  rw [task, runs]
  rfl

theorem preemptTimeoutStop_saves (noCmd : (s.core n).cmds = []) (retired : (s.core n).retired = true)
    (noTrap : (s.core n).vec.lateTrap = none) (noReq : ∀ x ∈ (s.core n).reqs, x.rank ≠ 1) :
    ∃ u, exec (.preemptTimeoutStop n) s = .next u ∧ ⟨s.stc + 15298, phTask, .stateSaveDone id, {}, {}⟩ ∈ u.agenda ∧ u.recs = s.recs := by
  simp only [Core.retired, Bool.and_eq_true, List.isEmpty_iff] at retired
  obtain ⟨⟨⟨⟨⟨-, noCopy⟩, -⟩, noRun⟩, noWord⟩, noEntry⟩ := retired
  have stuck : (s.setCore n (s.core n)).mxStuck n = true := s.setCore_mxStuck n ▸ State.mxStuck_idle noRun noReq
  have quiet : (s.setCore n (s.core n)).quiet n = true := by
    simp [State.quiet, stuck, noCopy, settled, noCmd, noWord, noEntry, noTrap]
  refine ⟨_, preemptTimeoutStop_drains task stopped runs settled, ?_, ?_⟩
  · rw [if_pos quiet]
    exact (State.mem_sched ..).mpr (.inl rfl)
  · rw [if_pos quiet]
    rfl

theorem preemptTimeoutStop_waits (busy : (s.core n).tsk.copies ≠ [] ∨ s.mxStuck n = false) :
    ∃ u, exec (.preemptTimeoutStop n) s = .next u ∧ ⟨s.stc + 1, phTask, .preemptTimeoutStop n, {}, {}⟩ ∈ u.agenda ∧ u.recs = s.recs := by
  have noisy : ¬ (s.setCore n (s.core n)).quiet n = true := by
    rcases busy with copies | served
    · simp [State.quiet, copies]
    · simp [State.quiet, State.setCore_mxStuck, served]
  refine ⟨_, preemptTimeoutStop_drains task stopped runs settled, ?_, ?_⟩
  · rw [if_neg noisy]
    exact (State.mem_sched ..).mpr (.inl rfl)
  · rw [if_neg noisy]
    rfl

end

/-! ### The save (12 R316; 09 R264) -/

/-- The slot's area is written, whole. -/
theorem State.writeSlot_writes (s : State) (base : Nat) :
    (∃ a ∈ (s.writeSlot base).saveAreas, a.base = base ∧ a.spoilt = []) ∧ (s.writeSlot base).cores = s.cores ∧
      (s.writeSlot base).recs = s.recs ∧ (s.writeSlot base).windows = s.windows := by
  let v := s.fresh.2.evictHot (paDie base) fun w => decide (base ≤ 8 * w) && decide (8 * w < base + savedBytes)
  let w : State := { v with saveAreas := (v.saveAreas.filter fun a => a.base ≠ base) ++ [{ base := base, key := s.fresh.1 }] }
  have cleared : w.DiesAndAgendaOnly (w.unpoison base savedBytes) := by
    unfold State.unpoison
    split
    · exact .refl w
    · rfl
  show (∃ a ∈ (w.unpoison base savedBytes).saveAreas, _) ∧ (w.unpoison base savedBytes).cores = _ ∧
    (w.unpoison base savedBytes).recs = _ ∧ (w.unpoison base savedBytes).windows = _
  rw [cleared.eq]
  exact ⟨⟨_, List.mem_append_right _ (List.mem_singleton.mpr rfl), rfl, rfl⟩, rfl, rfl, rfl⟩

theorem State.vacate_leaves (s : State) (n : Nat) :
    ((s.vacate n).core n).tsk.task = none ∧ (s.vacate n).recs = s.recs ∧ (s.vacate n).windows = s.windows ∧
      (s.vacate n).saveAreas = s.saveAreas := by
  have frame := ((s.modCore n Core.vacate).unsched (coreJob n)).pinsFell_diesAndAgendaOnly ((s.core n).tsk.pins.map (·.1))
  have core : (s.vacate n).core n = (s.core n).vacate := (State.core_of_cores frame.cores n).trans (State.modCore_core ..)
  refine ⟨by rw [core]; rfl, frame.recs, ?_, ?_⟩
  · rw [State.vacate, frame.eq]; rfl
  · rw [State.vacate, frame.eq]; rfl

theorem State.dropWindows_saveAreas (s : State) (p : Window → Bool) : (s.dropWindows p).saveAreas = s.saveAreas := by
  rw [(s.dropWindows_drops p).1.eq]

theorem stateSaveDone_saves {s : State} {r : TaskRec} {n a k : Nat} {x : Context} {t : Template} (hr : s.rec? r.id = some r)
    (hn : s.coreOfTask r.id = some n) (stopped : (s.core n).tsk.stopAt = some a) (hx : s.ctx? r.ctx = some x)
    (rest : s.residueOf n a = some (t, k)) :
    ∃ u z, exec (.stateSaveDone r.id) s = .next u ∧ u.rec? r.id = some { r with st := .stopped, residue := some z } ∧ z.tmpl = t ∧ z.stop = k ∧
      z.core = { s.core n with tsk := { (s.core n).tsk with stopAt := none, pending := none } } ∧
      (∃ y ∈ u.saveAreas, y.base = x.savebase + 2 ^ 24 * z.slot ∧ y.spoilt = []) ∧
      ((∃ m, m < x.saveslots ∧ m ∉ x.slotsUsed) → z.slot < x.saveslots ∧ z.slot ∉ x.slotsUsed) ∧
      (u.core n).tsk.task = none ∧ (∀ w ∈ u.windows, w.task = r.id → w.use = 1 ∧ w.armed = true) ∧
      ∀ w ∈ s.windows, w.use = 1 → w.armed = true → w ∈ u.windows := by
  let slot := ((List.range x.saveslots).find? fun k => !x.slotsUsed.contains k).getD 0
  let z : Residue := { tmpl := t, stop := k, core := { s.core n with tsk := { (s.core n).tsk with stopAt := none, pending := none } },
                       slot := slot, owed := s.owedBy n, at_ := s.stc }
  let marked := (s.setRec { r with st := .stopped, residue := some z }).modCtx r.ctx fun x => { x with slotsUsed := x.slotsUsed ++ [slot] }
  let written := marked.writeSlot (x.savebase + 2 ^ 24 * slot)
  let goes (w : Window) : Bool := w.task = r.id && !(w.use = 1 && w.armed)
  let dropped := (written.vacate n).dropWindows goes
  have step : s.saveDone r.id = (dropped.checkTeam r).kick := by
    unfold State.saveDone
    rw [hr, hn]
    dsimp only
    rw [stopped, hx]
    dsimp only
    rw [rest]
  obtain ⟨area, writtenCores, writtenRecs, writtenWindows⟩ := marked.writeSlot_writes (x.savebase + 2 ^ 24 * slot)
  obtain ⟨off, vacatedRecs, vacatedWindows, vacatedAreas⟩ := written.vacate_leaves n
  obtain ⟨drops, -⟩ := (written.vacate n).dropWindows_drops goes
  have stand : dropped.TasksStand (dropped.checkTeam r).kick := (dropped.checkTeam_tasksStand r).trans (State.kick_tasksStand _)
  have windows : (dropped.checkTeam r).kick.windows = s.windows.filter fun w => !goes w := by
    rw [stand.windows, State.dropWindows_windows, vacatedWindows, writtenWindows]
    rfl
  refine ⟨_, z, congrArg Host.Outcome.next step, ?_, rfl, rfl, rfl, ?_, fun free => ?_, ?_, fun w hw mine => ?_, fun w hw use armed => ?_⟩
  · rw [stand.rec?, State.rec?, drops.recs]
    show (written.vacate n).recs.find? _ = _
    rw [vacatedRecs, writtenRecs]
    exact State.setRec_rec? (x := { r with st := .stopped, residue := some z }) hr
  · rw [stand.saveAreas, State.dropWindows_saveAreas, vacatedAreas]
    exact area
  · obtain ⟨m, hm, unused⟩ := free
    obtain ⟨j, hj⟩ : ∃ j, (List.range x.saveslots).find? (fun k => !x.slotsUsed.contains k) = some j :=
      Option.isSome_iff_exists.mp (List.find?_isSome.mpr ⟨m, List.mem_range.mpr hm, by simpa using unused⟩)
    have chosen : z.slot = j := by
      show Option.getD _ 0 = j
      rw [hj]
      rfl
    rw [chosen]
    exact ⟨List.mem_range.mp (List.mem_of_find?_eq_some hj), by simpa using List.find?_some hj⟩
  · rw [stand.core, State.dropWindows_core]
    exact off
  · rw [windows] at hw
    simpa [goes, mine] using List.of_mem_filter hw
  · rw [windows]
    exact List.mem_filter.mpr ⟨hw, by simp [goes, use, armed]⟩

/-! ### The restore (09 R246, R264; 12 R317) -/

theorem prologueStart_loadsBack {s : State} {r : TaskRec} {z : Residue} (hr : s.rec? r.id = some r) (saved : r.residue = some z)
    (free : s.heldOver r = false ∨ (s.core r.core).tsk.stopAt = none) :
    ∃ u, exec (.prologueStart r.id) s = .next u ∧ u.recs = s.recs ∧ u.dram = s.dram ∧
      ∀ i, i < 4 → (⟨s.stc + 1, 6, r.id, i, 2 ^ 19 * i, 256⟩ : SpmReq) ∈ (u.core r.core).reqs := by
  have free : ¬ (s.heldOver r && (s.core r.core).tsk.stopAt.isSome) = true := by
    rcases free with free | free
    · simp [free]
    · simp [free]
  have step : s.prologue r.id = s.loadBack r.core r.id 0 := by
    unfold State.prologue
    rw [hr]
    dsimp only
    rw [if_neg free, saved]
    rfl
  refine ⟨_, congrArg Host.Outcome.next step, rfl, rfl, fun i hi => ?_⟩
  rw [State.loadBack, if_neg (by decide), State.modCore_core]
  refine List.mem_append_right _ (List.mem_map.mpr ⟨i, List.mem_range.mpr hi, ?_⟩)
  simp

theorem MxSt.delay_acc (m : MxSt) (d : Nat) : (m.delay d).acc = m.acc := by
  unfold MxSt.delay
  split <;> rfl

/-- The core of a restored task: its saved core, moved to the T0 that its stop offset gives it now. -/
def State.restoredCore (s : State) (r : TaskRec) (x : Residue) : Core :=
  let old := s.core r.core
  let t1 := s.stc - x.stop
  let c := x.core.modSeqs fun y => y.shiftT0 x.core.sys.t0 t1
  { c with
    sys := { c.sys with t0 := t1, restarted := true, hold := c.tsk.drained || c.tsk.rebook.isSome,
                        trapAt := t1 + c.sys.trapAt - c.sys.t0 },
    nextCmd := Nat.max c.nextCmd old.nextCmd, reqs := old.reqs,
    vec := { c.vec with nextId := Nat.max c.vec.nextId old.vec.nextId },
    mx := { c.mx.delay (s.stc - x.at_) with nextId := Nat.max c.mx.nextId old.mx.nextId },
    tsk := { c.tsk.clipped x.stop x.tmpl with tcache := ((s.launchOf r).map fun l => s.loadCache l r).getD [] } }

theorem State.restoreTask_restores {s : State} {r : TaskRec} {z : Residue} (hr : s.rec? r.id = some r) (saved : r.residue = some z)
    (sound : s.slotBad r.ctx z.slot = false) (free : s.heldOver r = false) (undrained : z.core.tsk.drained = false)
    (noReturn : z.core.tsk.rebook = none) :
    ((s.setRec { r with st := .run, residue := none }).setCore r.core (s.restoredCore r z)).TasksStand (s.restoreTask r.id) := by
  let c := s.restoredCore r z
  have undrained : c.tsk.drained = false := undrained
  have noReturn : c.tsk.rebook = none := noReturn
  let t := (s.setRec { r with st := .run, residue := none }).setCore r.core c
  let t1 := t.askAll (((s.launchOf r).map fun l => t.paramPages l r).getD [])
  let t2 := (t1.freeSlot r.ctx z.slot).schedEnd r.core
  let t3 := c.cmds.foldl (fun s m => s.sched s.stc phEngine (.loadQueuePush r.core m.id)) t2
  let t4 := z.owed.foldl (fun s (p : Nat × Nat × Instr) => s.sched (s.stc + p.1) p.2.1 (owedOn r.core p.2.2)) t3
  let t5 := if c.mx.queue.isEmpty then t4 else t4.kickMatrix r.core (t4.stc + 1)
  let t6 := if c.tsk.meetAt.isSome ∧ c.tsk.drained = false then t5.sched t5.stc phTask (.modeDrainDone r.core) else t5
  let placed := if c.tsk.drained then t6.placeArmed r.core false else if c.tsk.rebook.isSome then t6.placeReturn r.core else t6
  have notPlaced : placed = t6 := by
    show (if c.tsk.drained then _ else if c.tsk.rebook.isSome then _ else _) = _
    rw [undrained, noReturn]
    rfl
  let t7 := if c.allStopped then t6.sched t6.stc phTask (.taskEnd r.core) else t6
  have step : s.restoreTask r.id = t7.kick := by
    unfold State.restoreTask
    rw [hr]
    dsimp only
    rw [saved]
    dsimp only
    rw [sound, if_neg Bool.false_ne_true, free, if_neg Bool.false_ne_true]
    show (if c.allStopped then placed.sched placed.stc phTask (.taskEnd r.core) else placed).kick = t7.kick
    rw [notPlaced]
  have asked : t.TasksStand t1 := (t.askAll_agendaOnly _).tasksStand
  have ends : t1.TasksStand t2 := .trans (t := t1.freeSlot r.ctx z.slot) rfl (State.schedEnd_agendaOnly ..).tasksStand
  have loads : t2.TasksStand t3 := State.foldl_sched_tasksStand (fun s _ => s.stc) (fun _ _ => phEngine) _ _ _
  have owed : t3.TasksStand t4 := State.foldl_sched_tasksStand (fun s (p : Nat × Nat × Instr) => s.stc + p.1) (fun _ p => p.2.1) _ _ _
  have queue : t4.TasksStand t5 := by
    show State.TasksStand _ (if _ then _ else _)
    split
    · rfl
    · obtain ⟨l, kicked⟩ := t4.kickMatrix_eq r.core (t4.stc + 1)
      rw [kicked]
      rfl
  have meets : t5.TasksStand t6 := by
    show State.TasksStand _ (if _ then _ else _)
    split <;> rfl
  have stops : t6.TasksStand t7 := by
    show State.TasksStand _ (if _ then _ else _)
    split <;> rfl
  rw [step]
  exact asked.trans (ends.trans (loads.trans (owed.trans (queue.trans (meets.trans (stops.trans (State.kick_tasksStand _)))))))

theorem restorePrologue_restores {s : State} {r : TaskRec} {z : Residue} (hr : s.rec? r.id = some r) (saved : r.residue = some z)
    (sound : s.slotBad r.ctx z.slot = false) (free : s.heldOver r = false) (undrained : z.core.tsk.drained = false)
    (noReturn : z.core.tsk.rebook = none) :
    ∃ u, exec (.restorePrologue r.id) s = .next u ∧ u.rec? r.id = some { r with st := .run, residue := none } ∧
      (∀ q, ((u.core r.core).seq q).regs = (z.core.seq q).regs ∧ ((u.core r.core).seq q).pc = (z.core.seq q).pc ∧
        ((u.core r.core).seq q).mode = (z.core.seq q).mode) ∧
      (u.core r.core).vec.vrf = z.core.vec.vrf ∧ (u.core r.core).vec.preds = z.core.vec.preds ∧ (u.core r.core).mx.acc = z.core.mx.acc ∧
      (u.core r.core).spm = z.core.spm ∧ (u.core r.core).q = z.core.q ∧ (u.core r.core).sys.t0 = s.stc - z.stop ∧
      (u.core r.core).sys.restarted = true ∧ (u.core r.core).sys.hold = false ∧ u.dram = s.dram := by
  have stand := State.restoreTask_restores hr saved sound free undrained noReturn
  have core : (s.restoreTask r.id).core r.core = s.restoredCore r z := (stand.core _).trans (State.setCore_core ..)
  have record : (s.restoreTask r.id).rec? r.id = some { r with st := .run, residue := none } :=
    (stand.rec? _).trans (State.setRec_rec? (x := { r with st := .run, residue := none }) hr)
  refine ⟨s.restoreTask r.id, rfl, record, ?_⟩
  rw [core]
  refine ⟨fun q => ?_, rfl, rfl, MxSt.delay_acc .., rfl, rfl, rfl, rfl, ?_, stand.dram⟩
  · cases q <;> exact ⟨rfl, rfl, rfl⟩
  · show (z.core.tsk.drained || z.core.tsk.rebook.isSome) = false
    rw [undrained, noReturn]
    rfl

/-- Settles O47, clause by clause: the request, the stop, the drain, the save, the loader's first row and the restore, the last two with what the
dispatchers do after them framed by `State.TasksStand`. -/
theorem tasksArePreempted : Obligations.TasksArePreempted := by
  unfold Obligations.TasksArePreempted
  refine ⟨fun s r v hr ready victim team => preemptRequest_asks hr ready victim team, fun s n task asked runs goes i hi => ?_,
    fun s n id task stopped runs settled noCmd => ?_, fun s r n a k x t hr hn stopped hx rest => stateSaveDone_saves hr hn stopped hx rest,
    fun s r z hr saved free => prologueStart_loadsBack hr saved free,
    fun s r z hr saved sound free undrained noReturn => restorePrologue_restores hr saved sound free undrained noReturn⟩
  · have begins := exec_stopOrWait goes hi
    exact ⟨stop_holds task asked runs begins, stop_waitsForMeeting task asked runs begins⟩
  · exact ⟨preemptTimeoutStop_saves task stopped runs settled noCmd, preemptTimeoutStop_waits task stopped runs settled⟩

end Sys2Proof.Machine
